-- ==== Sys2Proof/Word.lean ====
section
/-! DEFINITION. The word types of the Z960 and their plainest arithmetic: nothing here says what an instruction does. -/

namespace Sys2Proof

/-- A scalar or control register, or a 64-bit word of a structure (R97). -/
abbrev W64 := BitVec 64
/-- A container of a vector run, an accumulator element, a syllable (R92, R97). -/
abbrev W32 := BitVec 32
/-- The smallest addressable unit of every memory (R3). -/
abbrev Byte := BitVec 8

/-- The word `n` as 0 or 1. -/
def boolWord (b : Bool) : W64 := if b then 1#64 else 0#64

end Sys2Proof
end

