-- ==== Sys2Proof/Syntax.lean ====
section
/-! DEFINITION. The operand forms of R93 to R96 and the one inductive of every row of spec/opcode_table.json: the
syllables of the four slots, the near-bank microinstructions and commands, the logline filter instructions, and the
device's own events. A device event carries what the manual leaves to an agent outside the machine (the host, the
pilot controller, a sensor, a peer) or the place where it happens. -/

namespace Sys2Proof

/-- Slot-C format CR with two sources (R93); `f` is the flush bit of the bundle. -/
structure CrForm where
  d : BitVec 5
  a : BitVec 5
  b : BitVec 5
  n : Bool
  q : BitVec 3
  f : Bool
deriving DecidableEq, Repr

/-- Slot-C format CR with one source (R163, R187). -/
structure Cr1Form where
  d : BitVec 5
  a : BitVec 5
  n : Bool
  q : BitVec 3
  f : Bool
deriving DecidableEq, Repr

/-- SEL: `sel` is fn<2:0> (R171). -/
structure SelForm where
  d : BitVec 5
  a : BitVec 5
  b : BitVec 5
  sel : BitVec 3
  n : Bool
  q : BitVec 3
  f : Bool
deriving DecidableEq, Repr

/-- Slot-C format CI (R93, R166). -/
structure CiForm where
  d : BitVec 5
  a : BitVec 5
  imm : BitVec 14
  f : Bool
deriving DecidableEq, Repr

/-- Slot-C format CL (R93, R167). -/
structure LihForm where
  d : BitVec 5
  imm : BitVec 19
  f : Bool
deriving DecidableEq, Repr

/-- Immediate compares (R169). -/
structure CmpiForm where
  d : BitVec 3
  a : BitVec 5
  imm : BitVec 14
  f : Bool
deriving DecidableEq, Repr

/-- Register compares (R168). -/
structure CmpForm where
  d : BitVec 3
  a : BitVec 5
  b : BitVec 5
  n : Bool
  q : BitVec 3
  f : Bool
deriving DecidableEq, Repr

/-- Condition logic (R170). -/
structure CondForm where
  d : BitVec 3
  a : BitVec 3
  b : BitVec 3
  n : Bool
  q : BitVec 3
  f : Bool
deriving DecidableEq, Repr

/-- LDS (R172). -/
structure LdsForm where
  d : BitVec 5
  a : BitVec 5
  b : BitVec 5
  sx : Bool
  size : BitVec 2
  n : Bool
  q : BitVec 3
  f : Bool
deriving DecidableEq, Repr

/-- STS (R172). -/
structure StsForm where
  d : BitVec 5
  a : BitVec 5
  b : BitVec 5
  size : BitVec 2
  n : Bool
  q : BitVec 3
  f : Bool
deriving DecidableEq, Repr

/-- LDG (R174). -/
structure LdgForm where
  d : BitVec 5
  a : BitVec 5
  b : BitVec 5
  sx : Bool
  scope : BitVec 2
  size : BitVec 2
  n : Bool
  q : BitVec 3
  f : Bool
deriving DecidableEq, Repr

/-- STG (R174). -/
structure StgForm where
  d : BitVec 5
  a : BitVec 5
  b : BitVec 5
  scope : BitVec 2
  size : BitVec 2
  n : Bool
  q : BitVec 3
  f : Bool
deriving DecidableEq, Repr

/-- The AMO family (R355): `dbl` is SZ. -/
structure AmoForm where
  d : BitVec 5
  a : BitVec 5
  b : BitVec 5
  ord : BitVec 2
  scope : BitVec 2
  dbl : Bool
  n : Bool
  q : BitVec 3
  f : Bool
deriving DecidableEq, Repr

/-- Slot-C format CB of BR and CALL (R177, R178). -/
structure BrForm where
  q : BitVec 3
  n : Bool
  off : BitVec 20
  f : Bool
deriving DecidableEq, Repr

/-- CR with two sources and no destination: JMP, TLBINV (R179, R399). -/
structure JmpForm where
  a : BitVec 5
  b : BitVec 5
  n : Bool
  q : BitVec 3
  f : Bool
deriving DecidableEq, Repr

/-- CR with one source and no destination: RET, SFMT, LOVT (R179, R183, R398). -/
structure RetForm where
  a : BitVec 5
  n : Bool
  q : BitVec 3
  f : Bool
deriving DecidableEq, Repr

/-- Slot A with two sources (R94). -/
structure AForm where
  d : BitVec 5
  a : BitVec 5
  b : BitVec 5
  k : BitVec 3
  cl : BitVec 2
  z : Bool
  s : Bool
deriving DecidableEq, Repr

/-- Slot A with one source (R94, R204). -/
structure A1Form where
  d : BitVec 5
  a : BitVec 5
  k : BitVec 3
  cl : BitVec 2
  z : Bool
deriving DecidableEq, Repr

/-- The vector compares (R206, R207). -/
structure VcmpForm where
  d : BitVec 3
  a : BitVec 5
  b : BitVec 5
  k : BitVec 3
  cl : BitVec 2
  z : Bool
  s : Bool
  x : BitVec 3
deriving DecidableEq, Repr

/-- KAND, KOR, KXOR (R211). -/
structure KForm where
  d : BitVec 3
  a : BitVec 3
  b : BitVec 3
  cl : BitVec 2
deriving DecidableEq, Repr

/-- VSEL (R208). -/
structure VselForm where
  d : BitVec 5
  a : BitVec 5
  b : BitVec 5
  k : BitVec 3
  cl : BitVec 2
  s : Bool
deriving DecidableEq, Repr

/-- Run control with two source fields (R211). -/
structure V3Form where
  d : BitVec 5
  a : BitVec 5
  b : BitVec 5
  cl : BitVec 2
deriving DecidableEq, Repr

/-- The reductions (R211): `t` is tile scope. -/
structure RedForm where
  d : BitVec 5
  a : BitVec 5
  k : BitVec 3
  cl : BitVec 2
  t : Bool
deriving DecidableEq, Repr

/-- Dense, strided and indexed tower access (R290). -/
structure BMemForm where
  d : BitVec 5
  a : BitVec 5
  b : BitVec 5
  k : BitVec 3
  cl : BitVec 2
  lf : BitVec 3
  fe : BitVec 2
deriving DecidableEq, Repr

/-- KLD and KST (R298). -/
structure KmForm where
  d : BitVec 3
  a : BitVec 5
  b : BitVec 5
  cl : BitVec 2
  fe : BitVec 2
deriving DecidableEq, Repr

/-- VRD and VWR (R299, R300): `opt` is q<4>, `.fek` or `.rl`. -/
structure RowForm where
  d : BitVec 5
  a : BitVec 5
  k : BitVec 3
  cl : BitVec 2
  opt : Bool
  h : BitVec 4
deriving DecidableEq, Repr

/-- Moves and conversions from vector register `v` (R301, R304). -/
structure MovForm where
  d : BitVec 5
  k : BitVec 3
  cl : BitVec 2
  v : BitVec 5
deriving DecidableEq, Repr

/-- TWR, TRC, TRR (R306). -/
structure TForm where
  d : BitVec 5
  a : BitVec 5
  k : BitVec 3
  cl : BitVec 2
  t : BitVec 2
deriving DecidableEq, Repr

/-- VSHIFT (R307). -/
structure ShiftForm where
  d : BitVec 5
  a : BitVec 5
  b : BitVec 5
  k : BitVec 3
  cl : BitVec 2
  h : BitVec 4
deriving DecidableEq, Repr

/-- A near-bank microinstruction that names a row (R277). -/
structure MicroForm where
  acc : BitVec 2
  rsel : BitVec 2
  off : BitVec 24
deriving DecidableEq, Repr

/-- A near-bank command packet less its CMD field: the header's fields and words 1 to 7 (R276). -/
structure NbForm where
  dn : Bool
  opf : BitVec 2
  nrow : BitVec 5
  typ : BitVec 4
  acc : BitVec 2
  words : Vector W32 7
deriving DecidableEq, Repr

/-- Why a launch is stopped (R388, R416). -/
inductive StopWhy where
  | preempt
  | migrate
  | debug
  | slice
deriving DecidableEq, Repr

/-- The units whose stop acknowledgement R388 lists. -/
inductive EngineUnit where
  | sequencer
  | matrix
  | window
  | column
  | express
  | fabric
  | nbu
  | copier
deriving DecidableEq, Repr

/-- The hardware errors of a task (R396). -/
inductive HwError where
  | storeDouble
  | register
  | lane
  | towerRow
  | towerFailure (tower : BitVec 3)
  | saveArea
  | hbmData
  | storeSingle
deriving DecidableEq, Repr

/-- What the patrol scrubber finds in a row (R252). -/
inductive ScrubOutcome where
  | clean
  | corrected
  | uncorrectable
deriving DecidableEq, Repr

/-- An access of the host through BAR 4 or of a peer over Rhumb (R419, R427). -/
inductive HostAccess where
  | read (pa size : Nat)
  | write (pa : Nat) (bytes : List Byte)
  | fetchAdd (pa size : Nat) (v : W64)
  | swap (pa size : Nat) (v : W64)
  | cas (pa size : Nat) (cmp v : W64)
  | fetchMin (pa size : Nat) (v : W64)
  | fetchMax (pa size : Nat) (v : W64)
  | fetchAnd (pa size : Nat) (v : W64)
  | fetchOr (pa size : Nat) (v : W64)
deriving DecidableEq, Repr

/-- What the boot ROM judges a firmware image by (R430): the outcome of the XMSS check is an input. -/
structure FirmwareImage where
  signatureOk : Bool
  version : BitVec 32
deriving DecidableEq, Repr

/-- One constructor per row of spec/opcode_table.json: first the instruction words that carry operands (C, A, B, E, near-bank,
filter), then the words without operands and the device events. -/
inductive Instr where
  /-- NOP (R165). Slot-C no-operation; has no effect. -/
  | nop (f : Bool)
  /-- ADD (R163). Lands s[a] + s[b] modulo 2^64 in s[d] under the guard. -/
  | add (o : CrForm)
  /-- SUB (R163). Lands s[a] − s[b] in s[d]. -/
  | sub (o : CrForm)
  /-- MUL (R163). Lands the low 64 bits of the product after 3 sc. -/
  | mul (o : CrForm)
  /-- MULH (R163). Lands bits 127:64 of the signed product. -/
  | mulh (o : CrForm)
  /-- MULHU (R163). Lands bits 127:64 of the unsigned product. -/
  | mulhu (o : CrForm)
  /-- DIV (R164). Signed division truncated toward zero, with fixed results for division by zero and overflow. -/
  | div (o : CrForm)
  /-- DIVU (R164). Unsigned division; division by zero gives all ones. -/
  | divu (o : CrForm)
  /-- REM (R164). Signed remainder with the sign of the dividend. -/
  | rem (o : CrForm)
  /-- REMU (R164). Unsigned remainder. -/
  | remu (o : CrForm)
  /-- AND (R163). Lands s[a] AND s[b]. -/
  | and (o : CrForm)
  /-- OR (R163). Lands s[a] OR s[b]. -/
  | or (o : CrForm)
  /-- XOR (R163). Lands s[a] XOR s[b]. -/
  | xor (o : CrForm)
  /-- ANDN (R163). Lands s[a] AND NOT s[b]. -/
  | andn (o : CrForm)
  /-- SHL (R163). Shifts s[a] left by s[b]<5:0>. -/
  | shl (o : CrForm)
  /-- SHR (R163). Shifts s[a] right logically by s[b]<5:0>. -/
  | shr (o : CrForm)
  /-- SHRA (R163). Shifts s[a] right arithmetically by s[b]<5:0>. -/
  | shra (o : CrForm)
  /-- ROT (R163). Rotates s[a] right by s[b]<5:0>. -/
  | rot (o : CrForm)
  /-- MIN (R163). Lands the signed minimum. -/
  | min (o : CrForm)
  /-- MAX (R163). Lands the signed maximum. -/
  | max (o : CrForm)
  /-- MINU (R163). Lands the unsigned minimum. -/
  | minu (o : CrForm)
  /-- MAXU (R163). Lands the unsigned maximum. -/
  | maxu (o : CrForm)
  /-- CLZ (R163). Counts leading zero bits of s[a]. -/
  | clz (o : Cr1Form)
  /-- CTZ (R163). Counts trailing zero bits of s[a]. -/
  | ctz (o : Cr1Form)
  /-- POPC (R163). Counts one bits of s[a]. -/
  | popc (o : Cr1Form)
  /-- SEL (R171). Selects s[a] or s[b] by a condition register. -/
  | sel (o : SelForm)
  /-- ADDI (R166). Adds a sign-extended 14-bit immediate. -/
  | addi (o : CiForm)
  /-- ANDI (R166). ANDs with a zero-extended immediate. -/
  | andi (o : CiForm)
  /-- ORI (R166). ORs with a zero-extended immediate. -/
  | ori (o : CiForm)
  /-- XORI (R166). XORs with a zero-extended immediate. -/
  | xori (o : CiForm)
  /-- SHLI (R166). Shifts left by an immediate of 0 to 63. -/
  | shli (o : CiForm)
  /-- SHRI (R166). Shifts right logically by an immediate. -/
  | shri (o : CiForm)
  /-- SHRAI (R166). Shifts right arithmetically by an immediate. -/
  | shrai (o : CiForm)
  /-- LIH (R167). Loads sext(imm19 × 2^14) into s[d]. -/
  | lih (o : LihForm)
  /-- CMPEQI (R169). Sets a condition register to s[a] = immediate. -/
  | cmpeqi (o : CmpiForm)
  /-- CMPLTI (R169). Sets a condition register to signed s[a] < immediate. -/
  | cmplti (o : CmpiForm)
  /-- CMPLTUI (R169). Sets a condition register to unsigned s[a] < sign-extended immediate. -/
  | cmpltui (o : CmpiForm)
  /-- CMPEQ (R168). Sets a condition register to s[a] = s[b]. -/
  | cmpeq (o : CmpForm)
  /-- CMPNE (R168). Sets a condition register to s[a] ≠ s[b]. -/
  | cmpne (o : CmpForm)
  /-- CMPLT (R168). Signed less-than compare. -/
  | cmplt (o : CmpForm)
  /-- CMPLTU (R168). Unsigned less-than compare. -/
  | cmpltu (o : CmpForm)
  /-- CMPLE (R168). Signed less-or-equal compare. -/
  | cmple (o : CmpForm)
  /-- CMPLEU (R168). Unsigned less-or-equal compare. -/
  | cmpleu (o : CmpForm)
  /-- CAND (R170). ANDs two condition registers. -/
  | cand (o : CondForm)
  /-- COR (R170). ORs two condition registers. -/
  | cor (o : CondForm)
  /-- CXOR (R170). XORs two condition registers. -/
  | cxor (o : CondForm)
  /-- LDS (R173). Loads 1 to 8 bytes from scalar memory with a latency of 3 sc. -/
  | lds (o : LdsForm)
  /-- STS (R173). Stores 1 to 8 bytes to scalar memory. -/
  | sts (o : StsForm)
  /-- LDG (R175). Translates and loads from global memory, stalling until the access is performed at its scope. -/
  | ldg (o : LdgForm)
  /-- STG (R175). Translates and stores to global memory, stalling until the store is performed at its scope. -/
  | stg (o : StgForm)
  /-- AMOADD (R356). Atomic add at the memory's home. -/
  | amoadd (o : AmoForm)
  /-- AMOMIN (R356). Atomic signed minimum. -/
  | amomin (o : AmoForm)
  /-- AMOMAX (R356). Atomic signed maximum. -/
  | amomax (o : AmoForm)
  /-- AMOAND (R356). Atomic AND. -/
  | amoand (o : AmoForm)
  /-- AMOOR (R356). Atomic OR; with field b = 0 it is an atomic load. -/
  | amoor (o : AmoForm)
  /-- AMOXCH (R356). Atomic exchange. -/
  | amoxch (o : AmoForm)
  /-- AMOCAS (R356). Atomic compare-and-swap against s[d]. -/
  | amocas (o : AmoForm)
  /-- FENCE (R358). Stalls until earlier stores, AMOs and waited engine writes are performed at the scope; acts as release and acquire. -/
  | fence (scope : BitVec 2) (f : Bool)
  /-- BR (R177). Conditional relative branch with two delay bundles. -/
  | br (o : BrForm)
  /-- JMP (R179). Jumps to bundle s[a] + s[b]. -/
  | jmp (o : JmpForm)
  /-- CALL (R178). Lands the link j + 3 in s31 and branches. -/
  | call (o : BrForm)
  /-- RET (R179). Jumps to bundle s[a], by default s31. -/
  | ret (o : RetForm)
  /-- LOOP (R180). Decrements s[d] and branches while the new count is not zero. -/
  | loop (d : BitVec 5) (imm : BitVec 14) (f : Bool)
  /-- END (R181). Ends the task after its two delay bundles. -/
  | endTask (f : Bool)
  /-- REP (R109). Issues the next bundle n times, stepping the selected fields. -/
  | rep (m n : BitVec 6) (f : Bool)
  /-- MARK (R402). Computes the reckoning drift against the expected count, lands DRIFT, logs it and may arm the stall trace. -/
  | mark (e : BitVec 20) (f : Bool)
  /-- TRAP (R382). Takes a program-serviceable trap after its bundle, with the immediate code. -/
  | trap (imm : BitVec 14) (f : Bool)
  /-- TRET (R384). Returns from the handler, reinjecting the trap-saved record. -/
  | tret (f : Bool)
  /-- TFENCE (R383). Traps when an enabled sticky flag is set. -/
  | tfence (f : Bool)
  /-- LAUNCH (R182). Orders earlier stores and posts a tail request for a region's queue, or returns busy. -/
  | launch (o : CrForm)
  /-- SFMT (R183). Writes FMT with a latency of 4 sc. -/
  | sfmt (o : RetForm)
  /-- MFC (R185). Reads a control register into a scalar register. -/
  | mfc (r : BitVec 5) (x : BitVec 4) (c : BitVec 6) (f : Bool)
  /-- MTC (R186). Writes a control register after privilege, number and value checks. -/
  | mtc (r : BitVec 5) (x : BitVec 4) (c : BitVec 6) (f : Bool)
  /-- SETVL (R187). Sets VL to min(s[a], 4,096) and returns it. -/
  | setvl (o : Cr1Form)
  /-- SETCM (R188). Sets CMA or CMB. -/
  | setcm (r : Bool) (a : BitVec 5) (imm : BitVec 8) (f : Bool)
  /-- LOVT (R398). Privileged load of the overflow table OVT. -/
  | lovt (o : RetForm)
  /-- TLBINV (R399). Privileged invalidation of the entries of one page of one ASID. -/
  | tlbinv (o : JmpForm)
  /-- TLBINV_ASID (R399). Privileged invalidation of every entry of one ASID. -/
  | tlbinvAsid (b : BitVec 5) (n : Bool) (q : BitVec 3) (f : Bool)
  /-- TLBINV_ALL (R399). Privileged invalidation of every TLB entry of the device. -/
  | tlbinvAll (n : Bool) (q : BitVec 3) (f : Bool)
  /-- VADD (R202). Element-wise FP32 add over aligned runs. -/
  | vadd (o : AForm)
  /-- VSUB (R202). Element-wise FP32 subtract. -/
  | vsub (o : AForm)
  /-- VMUL (R202). Element-wise FP32 multiply. -/
  | vmul (o : AForm)
  /-- VFMA (R203). Fused a × b + d with one rounding. -/
  | vfma (o : AForm)
  /-- VFMS (R203). Fused a × b − d. -/
  | vfms (o : AForm)
  /-- VFNMA (R203). Fused −(a × b) + d. -/
  | vfnma (o : AForm)
  /-- VMIN (R202). IEEE 754-2019 minimum. -/
  | vmin (o : AForm)
  /-- VMAX (R202). IEEE 754-2019 maximum. -/
  | vmax (o : AForm)
  /-- VABS (R204). Clears the sign bit. -/
  | vabs (o : A1Form)
  /-- VNEG (R204). Inverts the sign bit. -/
  | vneg (o : A1Form)
  /-- VDIV (R202). Element-wise FP32 divide with a latency of 14 sc. -/
  | vdiv (o : AForm)
  /-- VSQRT (R204). Square root, with the .p option. -/
  | vsqrt (o : A1Form) (p : Bool)
  /-- VRSQ (R204). Reciprocal square root, with the .p option. -/
  | vrsq (o : A1Form) (p : Bool)
  /-- VRCP (R204). Reciprocal. -/
  | vrcp (o : A1Form)
  /-- VEXP (R204). Exponential rounded in mode 0. -/
  | vexp (o : A1Form)
  /-- VLOG (R204). Natural logarithm. -/
  | vlog (o : A1Form)
  /-- VSIN (R204). Sine. -/
  | vsin (o : A1Form)
  /-- VCOS (R204). Cosine. -/
  | vcos (o : A1Form)
  /-- VTANH (R204). Hyperbolic tangent. -/
  | vtanh (o : A1Form)
  /-- VRINT (R204). Rounds to an integral value in RM or in a fixed mode. -/
  | vrint (o : A1Form) (x : BitVec 3)
  /-- VIADD (R205). 32-bit integer add. -/
  | viadd (o : AForm)
  /-- VISUB (R205). 32-bit integer subtract. -/
  | visub (o : AForm)
  /-- VIMUL (R205). Low 32 bits of the product. -/
  | vimul (o : AForm)
  /-- VIMULH (R205). High 32 bits of the signed product. -/
  | vimulh (o : AForm)
  /-- VIMIN (R205). Signed integer minimum. -/
  | vimin (o : AForm)
  /-- VIMAX (R205). Signed integer maximum. -/
  | vimax (o : AForm)
  /-- VIMINU (R205). Unsigned integer minimum. -/
  | viminu (o : AForm)
  /-- VIMAXU (R205). Unsigned integer maximum. -/
  | vimaxu (o : AForm)
  /-- VAND (R205). Bitwise AND. -/
  | vand (o : AForm)
  /-- VOR (R205). Bitwise OR. -/
  | vor (o : AForm)
  /-- VXOR (R205). Bitwise XOR. -/
  | vxor (o : AForm)
  /-- VSHL (R205). Shift left by b<4:0>. -/
  | vshl (o : AForm)
  /-- VSHR (R205). Logical shift right. -/
  | vshr (o : AForm)
  /-- VSHRA (R205). Arithmetic shift right. -/
  | vshra (o : AForm)
  /-- VIABS (R205). Signed absolute value. -/
  | viabs (o : A1Form)
  /-- VCMP (R206). FP32 compare into a mask register by predicate. -/
  | vcmp (o : VcmpForm)
  /-- VICMP (R207). Integer compare into a mask register by predicate. -/
  | vicmp (o : VcmpForm)
  /-- KAND (R213). AND of two masks. -/
  | kand (o : KForm)
  /-- KOR (R213). OR of two masks. -/
  | kor (o : KForm)
  /-- KXOR (R213). XOR of two masks. -/
  | kxor (o : KForm)
  /-- KNOT (R213). Inverse of a mask. -/
  | knot (d a : BitVec 3) (cl : BitVec 2)
  /-- KFIRST (R214). Mask true only at the first true position. -/
  | kfirst (d a : BitVec 3) (cl : BitVec 2)
  /-- KCNT (R215). Counts the true positions of a mask into a one-run vector. -/
  | kcnt (d : BitVec 5) (a : BitVec 3) (cl : BitVec 2)
  /-- VSEL (R208). Selects a or b by a mask. -/
  | vsel (o : VselForm)
  /-- VCOAL (R216). Masked copy with coalescing, optionally canonicalising NaNs. -/
  | vcoal (o : A1Form) (p : Bool)
  /-- VCOALQ (R217). Lossy merge of neighbouring runs within a tolerance. -/
  | vcoalq (o : V3Form) (i : Bool)
  /-- VRLSET (R218). Writes one run of a given value and count. -/
  | vrlset (o : V3Form)
  /-- VSPLAT (R218). Writes one run of length VL. -/
  | vsplat (d b : BitVec 5) (cl : BitVec 2)
  /-- VRUNS (R219). Returns the run count of a vector register. -/
  | vruns (d a : BitVec 5) (cl : BitVec 2)
  /-- VRUNS_K (R219). Returns the run count of a mask register. -/
  | vrunsK (d : BitVec 5) (a : BitVec 3) (cl : BitVec 2)
  /-- VLEN (R219). Returns the logical length of a vector register. -/
  | vlen (d a : BitVec 5) (cl : BitVec 2)
  /-- VLEN_K (R219). Returns the logical length of a mask register. -/
  | vlenK (d : BitVec 5) (a : BitVec 3) (cl : BitVec 2)
  /-- VTRIM (R220). Keeps the first m positions. -/
  | vtrim (o : V3Form)
  /-- VTRIM_DROP (R220). Removes the first m positions. -/
  | vtrimDrop (o : V3Form)
  /-- VCAT (R221). Concatenates two vectors, cut to 4,096. -/
  | vcat (o : V3Form)
  /-- VRSUM (R223). FP32 sum by the fixed pairwise tree, at cluster or tile scope. -/
  | vrsum (o : RedForm)
  /-- VRMAX (R223). FP32 maximum reduction. -/
  | vrmax (o : RedForm)
  /-- VRMIN (R223). FP32 minimum reduction. -/
  | vrmin (o : RedForm)
  /-- VRISUM (R223). Integer sum modulo 2^32. -/
  | vrisum (o : RedForm)
  /-- VRIMAX (R223). Signed integer maximum reduction. -/
  | vrimax (o : RedForm)
  /-- VRIMIN (R223). Signed integer minimum reduction. -/
  | vrimin (o : RedForm)
  /-- VDOT (R224). FP32 dot product by the fixed tree over aligned pieces. -/
  | vdot (o : RedForm) (b : BitVec 5)
  /-- VLD (R293). Dense tower load by load form, optionally waiting on full bits. -/
  | vld (o : BMemForm)
  /-- VST (R294). Dense tower store, optionally setting full bits. -/
  | vst (o : BMemForm)
  /-- VLDS (R292). Strided tower load of up to 16 elements. -/
  | vlds (o : BMemForm)
  /-- VSTS (R292). Strided tower store. -/
  | vsts (o : BMemForm)
  /-- VLDX (R292). Indexed tower load using register d + 1 as indices. -/
  | vldx (o : BMemForm)
  /-- VSTX (R292). Indexed tower store. -/
  | vstx (o : BMemForm)
  /-- VLDRL (R296). Loads a run-form chain at a cursor and advances the cursor. -/
  | vldrl (d : BitVec 5) (k : BitVec 3) (cl : BitVec 2) (fe : BitVec 2) (y : BitVec 2)
  /-- VSTRL (R297). Stores a register as a run-form chain at a cursor. -/
  | vstrl (d : BitVec 5) (cl : BitVec 2) (fe : Bool) (y : BitVec 2)
  /-- KLD (R298). Loads a mask as one bit per position. -/
  | kld (o : KmForm)
  /-- KST (R298). Stores a mask as one bit per position. -/
  | kst (o : KmForm)
  /-- VCUR (R295). Sets a run cursor. -/
  | vcur (a b : BitVec 5) (cl : BitVec 2) (y : BitVec 2)
  /-- VRD (R299). Reads a ring row part, waiting on its full bits and clearing them unless .fek. -/
  | vrd (o : RowForm)
  /-- VWR (R300). Produces a ring row part, dense or in run form, stalling for room. -/
  | vwr (o : RowForm)
  /-- VMOV (R301). Copies a vector register. -/
  | vmov (o : MovForm)
  /-- VMVS (R301). Broadcasts a scalar over VL. -/
  | vmvs (d a : BitVec 5) (k : BitVec 3) (cl : BitVec 2)
  /-- VMVX (R303). Extracts one element to a scalar register. -/
  | vmvx (d a v : BitVec 5) (cl : BitVec 2)
  /-- VXC (R302). Takes each cluster's source from a cluster chosen by a pattern. -/
  | vxc (o : MovForm) (a : BitVec 5)
  /-- VSLIDE (R301). Slides a vector by a signed amount. -/
  | vslide (o : MovForm) (a : BitVec 5)
  /-- VREV (R301). Reverses a vector. -/
  | vrev (o : MovForm)
  /-- VCVT (R304). Converts from TYPEA to DSTT with rounding and flags. -/
  | vcvt (o : MovForm)
  /-- VCLASS (R305). Classifies each value into one class bit. -/
  | vclass (o : MovForm)
  /-- TWR (R306). Writes a tile-register row. -/
  | twr (o : TForm)
  /-- TRC (R306). Reads a tile-register column. -/
  | trc (o : TForm)
  /-- TRR (R306). Reads a tile-register row. -/
  | trr (o : TForm)
  /-- TCLR (R306). Zeroes a tile register. -/
  | tclr (cl t : BitVec 2)
  /-- VSHIFT (R307). Sends a tower part to a neighbour tile's ring under the shift-edge policy. -/
  | vshift (o : ShiftForm)
  /-- ESET (R311). Writes an engine register. -/
  | eset (e a i : BitVec 5)
  /-- EGET (R311). Reads an engine register into a scalar register. -/
  | eget (e a i : BitVec 5)
  /-- EWAIT (R316). Stalls until at most n operations of an engine are open and lowers its open count. -/
  | ewait (e : BitVec 5) (n : BitVec 3)
  /-- WOPEN (R318). Binds a ring and attaches the described window as its producer. -/
  | wopen (h : BitVec 4)
  /-- WOPEN_BIND (R318). Binds a ring without a producer. -/
  | wopenBind (h : BitVec 4)
  /-- WOPEN_KEEP (R318). Attaches a window to an existing binding. -/
  | wopenKeep (h : BitVec 4)
  /-- WADV (R319). Retires ring rows explicitly, clearing their granules. -/
  | wadv (h : BitVec 4) (a : BitVec 5)
  /-- WWAIT (R320). Stalls until a ring row is produced. -/
  | wwait (h : BitVec 4) (a : BitVec 5)
  /-- WWAIT_DONE (R320). Stalls until the ring's producer sets DONE or ERR. -/
  | wwaitDone (h : BitVec 4)
  /-- WCLOSE (R321). Unbinds a ring, detaches its producer and empties its granules. -/
  | wclose (h : BitVec 4)
  /-- RSTAT (R322). Reads the ring status word. -/
  | rstat (h : BitVec 4) (a : BitVec 5)
  /-- WFLUSH (R323). Ends production on a ring and sets DONE. -/
  | wflush (h : BitVec 4)
  /-- BCFILL_RING (R324). Starts a ring-mode broadcast-column transfer. -/
  | bcfillRing (h : BitVec 4)
  /-- BCWAIT (R325). Stalls until a count of broadcast rows has been delivered. -/
  | bcwait (a : BitVec 5)
  /-- MMA (R329). Starts a 64 × K by K × 64 accumulation into a bank. -/
  | mma (bank : Bool)
  /-- MMV (R330). Starts a matrix-vector accumulation against the stationary batch. -/
  | mmv (bank : Bool)
  /-- MDRAIN (R331). Drains a bank into a ring, dense or in run form. -/
  | mdrain (bank : Bool)
  /-- MCLR (R332). Zeroes a bank's data, flags or both. -/
  | mclr (bank : Bool) (q : BitVec 2)
  /-- MFLAGS (R332). Reads a bank's flags, optionally clearing them. -/
  | mflags (bank : Bool) (a : BitVec 5) (c : Bool)
  /-- XSEND (R334). Sends ring rows to a remote tile's ring over the express network. -/
  | xsend (h : BitVec 4) (a b : BitVec 5)
  /-- XWR (R335). Writes one 64 B row to a remote tower. -/
  | xwr (a b : BitVec 5) (m l : BitVec 3)
  /-- XRD (R335). Reads one 64 B row from a remote tower. -/
  | xrd (a b : BitVec 5) (m l : BitVec 3)
  /-- DPUB (R362). Posts a publication of buffer-map entries, or returns busy. -/
  | dpub (a b : BitVec 5) (n : BitVec 6)
  /-- FSTAT (R338). Reads the last reported stream-context status word. -/
  | fstat (a : BitVec 5)
  /-- NBCMD (R339). Posts a 32 B command packet from scalar memory to a channel's NBU queue. -/
  | nbcmd (a b : BitVec 5)
  /-- NBPOLL (R340). Stalls until the completion word reaches a threshold or fails. -/
  | nbpoll (a b : BitVec 5)
  /-- HSIG (R342). Posts a host signal, or returns busy. -/
  | hsig (a b : BitVec 5) (v : BitVec 10)
  /-- TRACE (R408). Emits a KIND 1 trace record. -/
  | trace (a b : BitVec 5) (v : BitVec 10)
  /-- SNAP (R414). Asserts the fix trigger with a code. -/
  | snap (c : BitVec 8)
  /-- REFDEFER (R344). Defers tower refresh up to the forced point, or ends the launch REFRESH_ABUSE. -/
  | refdefer (a : BitVec 5)
  /-- REFNOW (R345). Ends a tower's deferral and starts a refresh pass now. -/
  | refnow (a : BitVec 5)
  /-- LOADACC (R277). Loads a row into an accumulator. -/
  | loadacc (o : MicroForm)
  /-- ACCOP (R277). Combines a row into an accumulator by OPF. -/
  | accop (o : MicroForm)
  /-- SACC (R277). Adds s × row to an accumulator. -/
  | sacc (o : MicroForm)
  /-- NB_STORE (R277). Stores an accumulator to a row. -/
  | nbStore (o : MicroForm)
  /-- NB_CLEAR (R277). Zeroes an accumulator. -/
  | nbClear (acc : BitVec 2)
  /-- MINMAX (R277). Stores the minima to the row and keeps the maxima in the accumulator. -/
  | minmax (o : MicroForm)
  /-- FLT_LDF (R409). Filter instruction: loads 8 record bytes. -/
  | fltLdf (d : BitVec 3) (off : BitVec 32)
  /-- FLT_LDI (R409). Filter instruction: loads an immediate. -/
  | fltLdi (d : BitVec 3) (imm : BitVec 32)
  /-- FLT_ADD (R409). Filter instruction: adds. -/
  | fltAdd (d a b : BitVec 3)
  /-- FLT_SUB (R409). Filter instruction: subtracts. -/
  | fltSub (d a b : BitVec 3)
  /-- FLT_AND (R409). Filter instruction: AND. -/
  | fltAnd (d a b : BitVec 3)
  /-- FLT_OR (R409). Filter instruction: OR. -/
  | fltOr (d a b : BitVec 3)
  /-- FLT_XOR (R409). Filter instruction: XOR. -/
  | fltXor (d a b : BitVec 3)
  /-- FLT_SHL (R409). Filter instruction: shift left. -/
  | fltShl (d a : BitVec 3) (imm : BitVec 32)
  /-- FLT_SHR (R409). Filter instruction: logical shift right. -/
  | fltShr (d a : BitVec 3) (imm : BitVec 32)
  /-- FLT_ANDI (R409). Filter instruction: AND with an immediate. -/
  | fltAndi (d a : BitVec 3) (imm : BitVec 32)
  /-- FLT_ADDI (R409). Filter instruction: add an immediate. -/
  | fltAddi (d a : BitVec 3) (imm : BitVec 32)
  /-- FLT_BEQ (R409). Filter instruction: forward branch if equal. -/
  | fltBeq (a b : BitVec 3) (imm : BitVec 32)
  /-- FLT_BNE (R409). Filter instruction: forward branch if not equal. -/
  | fltBne (a b : BitVec 3) (imm : BitVec 32)
  /-- FLT_BLTU (R409). Filter instruction: forward branch if unsigned less than. -/
  | fltBltu (a b : BitVec 3) (imm : BitVec 32)
  /-- FLT_BLT (R409). Filter instruction: forward branch if signed less than. -/
  | fltBlt (a b : BitVec 3) (imm : BitVec 32)
  /-- FLT_CADD (R409). Filter instruction: adds a register to a logline counter. -/
  | fltCadd (a : BitVec 3) (imm : BitVec 32)
  /-- FLT_VERD (R409). Filter instruction: gives the verdict (keep, drop, count or trigger) and ends the filter. -/
  | fltVerd (imm : BitVec 32)
  /-- REDUCE (R276). NBU command combining rows B to B + NROW − 1 into an accumulator. -/
  | reduce (p : NbForm)
  /-- SCALEACC (R276). NBU command adding s × row for each of NROW rows. -/
  | scaleacc (p : NbForm)
  /-- CMPXCHG (R276). NBU command leaving the minima in rows P and the maxima in rows Q. -/
  | cmpxchg (p : NbForm)
  /-- IDXREDUCE (R276). NBU command combining up to seven listed rows. -/
  | idxreduce (p : NbForm)
  /-- ACCWB (R276). NBU command writing an accumulator back to a row. -/
  | accwb (p : NbForm)
  /-- ACCCLR (R276). NBU command clearing an accumulator. -/
  | accclr (p : NbForm)
  /-- UPROG (R276). NBU command running up to five supplied microinstructions. -/
  | uprog (p : NbForm)
  /-- NOP_A (R209). Slot-A no-operation. -/
  | nopA
  /-- NOP_B (R290). Slot-B no-operation. -/
  | nopB
  /-- NOP_E (R310). Slot-E no-operation. -/
  | nopE
  /-- BCFILL (R324). Starts a raw-mode broadcast-column transfer. -/
  | bcfill
  /-- BCWAIT_ALL (R325). Stalls until every BCFILL is delivered, then zeroes O_BC. -/
  | bcwaitAll
  /-- MLDB (R330). Loads the stationary batch. -/
  | mldb
  /-- MSWAP (R332). Exchanges the names of the two banks. -/
  | mswap
  /-- XBAR (R366). Device-scope fence, then a barrier of every task of the launch. -/
  | xbar
  /-- XBAR_ROW (R366). Barrier of the tasks of the issuer's row. -/
  | xbarRow
  /-- XBAR_COL (R366). Barrier of the tasks of the issuer's column. -/
  | xbarCol
  /-- DCOPY (R336). Bulk copy from memory to memory. -/
  | dcopy
  /-- DCOPY_MT (R336). Bulk copy from memory to tower rows. -/
  | dcopyMt
  /-- DCOPY_TM (R336). Bulk copy from tower rows to memory. -/
  | dcopyTm
  /-- DWAIT (R337). Stalls until every DCOPY and DRAM-sink stream has finished. -/
  | dwait
  /-- FLOAD (R338). Sends a graph-load request for a stream context. -/
  | fload
  /-- FBIND (R338). Sends a bind request for a stream context. -/
  | fbind
  /-- NBFENCE (R341). Holds later NBCMDs until earlier writes are performed at device scope. -/
  | nbfence
  /-- REFNOW_ALL (R345). Starts refresh passes on all eight towers. -/
  | refnowAll
  /-- NB_END (R277). Microinstruction that ends the command. -/
  | nbEnd
  /-- BUNDLE_ISSUE (R101). The sequencer issues the bundle at its program counter in a schedule cycle. -/
  | bundleIssue
  /-- RESULT_LANDING (R102). A result in flight lands in its destination L schedule cycles after issue. -/
  | resultLanding
  /-- GLOBAL_ACCESS_PERFORMED (R175). A stalled LDG, STG or AMO is performed and the pipeline resumes. -/
  | globalAccessPerformed (tile : Nat)
  /-- FULL_EMPTY_WAKE (R293). A load blocked on empty granules reads once they are all full. -/
  | fullEmptyWake (tile : Nat)
  /-- RING_READ_WAKE (R299). A VRD waiting on its part reads it when full. -/
  | ringReadWake (tile : Nat)
  /-- RING_WRITE_WAKE (R300). A VWR stalled for room writes its part when room exists. -/
  | ringWriteWake (tile : Nat)
  /-- ENGINE_WAIT_END (R106). A stalled EWAIT, WWAIT, BCWAIT, DWAIT, NBPOLL or FENCE finds its condition true and the pipeline resumes. -/
  | engineWaitEnd (tile : Nat)
  /-- BARRIER_RELEASE (R366). Members leave an XBAR instance within 160 dc of the last arrival. -/
  | barrierRelease (launch : Nat) (group : BitVec 2) (line : Nat)
  /-- ENGINE_FAULT_AFTER_ISSUE (R317). An engine meets a fault after issue and ends the launch at the next bundle boundary. -/
  | engineFaultAfterIssue (tile : Nat)
  /-- LAUNCH_REQUEST_APPLY (R182). The scheduler applies a posted LAUNCH request as a tail write, or refuses it with PROTECTION. -/
  | launchRequestApply (tile : Nat)
  /-- TAIL_WRITE (R32). A doorbell write with bit 16 clear sets TAIL when accepted, else sets TERR. -/
  | tailWrite (region : BitVec 16) (t : BitVec 16)
  /-- TERR_CLEAR (R31). A doorbell write with bit 16 set clears TERR. -/
  | terrClear (region : BitVec 16)
  /-- LIVE_ON (R31). Setting LIVE reads QHEAD, sets HEADV, ACUR and TAIL, and starts serving the queue. -/
  | liveOn (region : BitVec 16) (rcba : BitVec 44)
  /-- LIVE_OFF (R31). Clearing LIVE stops admission from the queue. -/
  | liveOff (region : BitVec 16)
  /-- RCBA_WRITE (R31). Writes a region's RCB address while LIVE = 0 and no launch is outstanding. -/
  | rcbaWrite (region : BitVec 16) (rcba : BitVec 44)
  /-- SCHEDULING_PASS (R39). The scheduler admits, evaluates dependences, ages and places launches class by class. -/
  | schedulingPass
  /-- PASS_TIMER (R39). A pass runs at least every 20 µs. -/
  | passTimer
  /-- DEPENDENCE_CHANGE_OBSERVED (R37). An observed counter change starts a pass. -/
  | dependenceChangeObserved (launch : Nat)
  /-- AGING_EXPIRY (R42). A launch unplaced for AGELIM ms rises one class. -/
  | agingExpiry (launch : Nat)
  /-- EXCLUSION_TIMEOUT (R46). A launch waiting 1 s only on excluded columns retires UNPLACEABLE. -/
  | exclusionTimeout (launch : Nat)
  /-- LAUNCH_RELEASE (R45). Once every tile is free, tasks are bound, the image is loaded, the watchdog started and all tasks released on one cycle. -/
  | launchRelease (launch : Nat)
  /-- SLICE_START (R51). At a slice start gangs of the region are placed or resumed. -/
  | sliceStart (region : BitVec 16)
  /-- SLICE_LEAD (R51). One pre-emption time before a slice start the victims of the gang are pre-empted. -/
  | sliceLead (region : BitVec 16)
  /-- SLICE_END (R52). At a slice end preemptible launches of the region are stopped. -/
  | sliceEnd (region : BitVec 16)
  /-- WATCHDOG_EXPIRY (R54). The watchdog count reaches the interval and the launch ends WATCHDOG. -/
  | watchdogExpiry (launch : Nat)
  /-- RETIRE (R418). When every task has ended and the drain is done, leases are cleared and retirement is recorded. -/
  | retire (launch : Nat)
  /-- LEASE_CLEAR_DONE (R73). A tile's lease clear finishes and the tile becomes free. -/
  | leaseClearDone (tile : Nat)
  /-- PAGE_RESOLVED (R371). The pilot controller resolves a system-serviceable page fault and the held access, stream or admission continues. -/
  | pageResolved (writes : List (Nat × BitVec 64))
  /-- PAGE_UNRESOLVABLE (R371). An unresolvable system-serviceable fault becomes PROTECTION. -/
  | pageUnresolvable (asid : BitVec 14) (va : Nat)
  /-- STOP_REQUEST (R388). A stop freezes the task and stops its engines at their units. -/
  | stopRequest (launch : Nat) (why : StopWhy)
  /-- ENGINE_STOP_ACK (R388). An engine reaches its stop unit and acknowledges. -/
  | engineStopAck (tile : Nat) (e : EngineUnit)
  /-- STOP_COMPLETE (R388). The collectors hold every acknowledgement and the save begins. -/
  | stopComplete (launch : Nat)
  /-- STOP_DEADLINE (R389). A missed 4 µs stop deadline ends the launch SAVE_TIMEOUT. -/
  | stopDeadline (launch : Nat)
  /-- SAVE_COMPLETE (R390). The context and tower rows are written to the save areas. -/
  | saveComplete (launch : Nat)
  /-- SAVE_DEADLINE (R389). A missed save deadline ends the launch SAVE_TIMEOUT and fences the tile. -/
  | saveDeadline (launch : Nat)
  /-- RESTORE (R393). Stores are reloaded, areas and tower rows read back, and every task resumes on one cycle. -/
  | restore (launch : Nat)
  /-- RESTORE_DEADLINE (R393). The restore deadline expires. -/
  | restoreDeadline (launch : Nat)
  /-- MIGRATION_START (R76). The pilot controller starts copying a tile's leased rows to a spare. -/
  | migrationStart (tile : Nat) (px : Nat)
  /-- MIGRATION_SWITCH (R76). After the copy, the task stops, state moves, the remap entry switches and the task resumes. -/
  | migrationSwitch (tile : Nat)
  /-- TOWER_SWITCH_IN (R75). A degraded tower is copied to the spare position. -/
  | towerSwitchIn (tile : Nat) (tower : BitVec 3)
  /-- COPY_SWITCH (R74). A finished copy switches TMAP on one device cycle. -/
  | copySwitch (tile : Nat) (tower : BitVec 3)
  /-- COPY_WRITE_ERROR (R77). An error writing a destination row abandons the copy. -/
  | copyWriteError (tile : Nat)
  /-- HARDWARE_ERROR (R396). A task's hardware error re-executes it on a spare tile or ends the launch HW_ERROR. -/
  | hardwareError (tile : Nat) (k : HwError)
  /-- TILE_FENCE (R64). The pilot controller fences a logical tile and the structural test runs again. -/
  | tileFence (tile : Nat)
  /-- TILE_SCRUB_DONE (R62). A fenced tile's scrub ends and it becomes a good spare. -/
  | tileScrubDone (ptile : Nat)
  /-- THERMAL_SAMPLE (R80). Every 100 µs sensors are checked and each column's clock, migration and shutdown are acted on. -/
  | thermalSample (deciC : List Int)
  /-- SENSOR_RECALIBRATE (R78). The pilot controller recalibrates a dropped sensor. -/
  | sensorRecalibrate (sensor : Nat)
  /-- SCHEDULED_REFRESH_PASS (R253). A refresh pass starts once age passes half the limit and no delivery or deferral is in force. -/
  | scheduledRefreshPass (ptower : Nat)
  /-- FORCED_REFRESH (R254). At the forced point a pass starts, transfers suspend, and the resident task takes REFRESH_FORCED. -/
  | forcedRefresh (ptower : Nat)
  /-- REFRESH_PASS_END (R254). A pass ends and suspended or paused deliveries resume. -/
  | refreshPassEnd (ptower : Nat)
  /-- DEFERRAL_EXPIRY (R344). A refresh deferral reaches its end. -/
  | deferralExpiry (ptower : Nat)
  /-- SCRUB_ROW (R252). The patrol scrubber checks a row, corrects or poisons it, and records its history. -/
  | scrubRow (tower : Bool) (row : Nat) (outcome : ScrubOutcome)
  /-- RELAYOUT (R251). A compressed block outgrows its slot and the page is locked and laid out again. -/
  | relayout (page : Nat)
  /-- RELAYOUT_DONE (R251). The relayout ends and the queued requests are served in order. -/
  | relayoutDone (page : Nat)
  /-- WINDOW_ROW_DELIVERY (R243). A window engine writes segments into a ring row and sets DONE at the end of the stream. -/
  | windowRowDelivery (tile : Nat) (h : BitVec 4)
  /-- BC_ROW_DELIVERY (R246). A broadcast column delivers one row to the receiving tiles. -/
  | bcRowDelivery (column : Nat)
  /-- XP_PACKET_LANDING (R247). An express packet lands whole in one device cycle once its row is empty. -/
  | xpPacketLanding (index : Nat)
  /-- SHIFT_PART_DELIVERY (R308). A VSHIFT part is delivered whole to the receiver's ring row. -/
  | shiftPartDelivery (tile : Nat) (cluster : BitVec 3)
  /-- MU_OPERATION_BEGIN (R314). The next MU operation begins when the previous completes. -/
  | muOperationBegin (tile : Nat)
  /-- MU_OPERATION_COMPLETE (R333). An MU operation completes after its operand rows and fixed cycle count. -/
  | muOperationComplete (tile : Nat)
  /-- DCOPY_CHUNK (R336). The copier reads and writes one 4 KiB chunk. -/
  | dcopyChunk (tile : Nat)
  /-- FABRIC_LOAD_REQUEST (R265). A controller loads and checks a graph image into a stream context. -/
  | fabricLoadRequest (tile : Nat)
  /-- FABRIC_BIND_REQUEST (R266). A controller binds a context, claiming cells and checking budgets. -/
  | fabricBindRequest (tile : Nat)
  /-- FABRIC_BEAT (R258). An input beat passes the graph and its valid output words go to the sink. -/
  | fabricBeat (tile : Nat) (h : BitVec 4)
  /-- FABRIC_STREAM_END (R266). A stream ends with DONE, freeing its cells. -/
  | fabricStreamEnd (tile : Nat) (h : BitVec 4)
  /-- FABRIC_CONTEXT_SPILL (R274). A stopped context is spilled when another window needs its cells or decode cell. -/
  | fabricContextSpill (ctx : Nat)
  /-- NB_PACKET_ENQUEUE (R278). A command packet enters a channel's NBU queue within its region's share. -/
  | nbPacketEnqueue (tile : Nat)
  /-- NB_QUEUE_WAIT_TIMEOUT (R282). A packet waiting 200 µs stops its task as a system-serviceable fault. -/
  | nbQueueWaitTimeout (tile : Nat)
  /-- ROW_OPERATION_START (R279). A row operation starts after HOLD cc of empty ordinary queue or under FORCE. -/
  | rowOperationStart (chan : Nat)
  /-- ORDINARY_REQUEST_SUSPEND (R279). An ordinary request suspends the NBU at the row boundary. -/
  | ordinaryRequestSuspend (chan : Nat)
  /-- NB_CONTEXT_SPILL (R283). A pre-empted issuer's NBU state is spilled when another context reaches the head. -/
  | nbContextSpill (chan : Nat)
  /-- PUBLICATION_APPLY (R363). A posted publication is applied on one cycle, swapping SEL, incrementing GEN and the phase. -/
  | publicationApply (tile : Nat)
  /-- TLBINV_COMPLETE (R400). A TLB invalidation completes and held accesses walk afresh. -/
  | tlbinvComplete
  /-- SIGNAL_DELIVERY (R420). A queued signal is written to the host signal ring and its MSI-X sent. -/
  | signalDelivery (tile : Nat)
  /-- TRACE_PORT_DELIVER (R407). A tile's trace port hands a record to its logline core queue. -/
  | tracePortDeliver (tile : Nat)
  /-- FILTER_RECORD (R409). A logline core dequeues a record and runs its filter. -/
  | filterRecord (core : Nat)
  /-- COUNTER_OVERFLOW (R412). A counter wraps, setting OVF and emitting a record and optional host signal. -/
  | counterOverflow (off : Nat) (by_ : Nat)
  /-- COUNTER_WRITE (R412). A write to a performance counter, with collision rules. -/
  | counterWrite (off : Nat) (v : BitVec 64) (inc : Nat)
  /-- FIX_LATCH (R413). Snapshots latch at the end of cycle t + 32 after the first assertion. -/
  | fixLatch
  /-- FIX_ASSERT (R423). A host write of FIXCTL.ASSERT asserts the fix trigger. -/
  | fixAssert
  /-- FIX_RELEASE (R423). A host write of FIXCTL.RELEASE clears HELD and thaws counters. -/
  | fixRelease
  /-- FILTER_VERIFY (R424). A write of FLTCTL starts verification of a new filter. -/
  | filterVerify (core : Nat) (n : BitVec 10)
  /-- FILTER_VERIFY_DONE (R410). Verification ends, accepting or rejecting the filter. -/
  | filterVerifyDone (core : Nat)
  /-- RK_CONFIG_WRITE (R423). A write of RKBASE or RKLOG2 resets RKHEAD. -/
  | rkConfigWrite (off : Nat) (v : BitVec 64)
  /-- BREAKPOINT_MATCH (R415). A breakpoint matches before a bundle issues, asserting the fix or starting a debug stop. -/
  | breakpointMatch (tile : Nat) (which : Bool)
  /-- DEBUG_STOP (R416). A host STOP write requests a debug stop of the launch. -/
  | debugStop (tile : Nat)
  /-- DEBUG_RESUME (R416). A host RESUME write reinjects the records and resumes the launch. -/
  | debugResume (tile : Nat) (steps : BitVec 32)
  /-- STEP_COUNT_EXPIRY (R416). The step count runs out and the task stops again. -/
  | stepCountExpiry (tile : Nat)
  /-- DEBUG_CONTEXT_WRITE (R425). A write to the context page during a debug stop changes the register or state. -/
  | debugContextWrite (tile : Nat) (off : Nat) (bytes : List (BitVec 8))
  /-- ABORT (R422). A write of ABORT ends the named launch with ABORTED. -/
  | abortLaunch (launch : Nat)
  /-- MAILBOX_REQUEST (R422). The host sets MBCTL.REQ and the pilot controller takes the request. -/
  | mailboxRequest
  /-- MAILBOX_RESPONSE (R422). The pilot controller posts a response and sets RSP. -/
  | mailboxResponse (bytes : List (BitVec 8))
  /-- ATTESTATION_REQUEST (R430). An attestation report is signed, or the last is returned STALE. -/
  | attestationRequest (nonce : BitVec 256)
  /-- PMODE_WRITE (R432). A power-mode change takes effect within 1 ms. -/
  | pmodeWrite (v : BitVec 64)
  /-- POWER_LIMIT_EXCEEDED (R432). Each 100 µs over the limit lowers every column's clock by 1/16. -/
  | powerLimitExceeded
  /-- COOLANT_FLOW_LOW (R432). Low coolant flow forces P2. -/
  | coolantFlowLow
  /-- RAIL_FAULT (R432). A supply rail out of tolerance for 10 µs ends every resident launch HW_ERROR. -/
  | railFault
  /-- REGISTER_WRITE (R421). A host write to a management register with no row of its own. -/
  | registerWrite (off size : Nat) (v : BitVec 64)
  /-- HOST_HBM_ACCESS (R419). A host access through BAR 4 is served at the home controller. -/
  | hostHbmAccess (a : HostAccess)
  /-- PEER_ACCESS (R427). An access arrives from a peer over Rhumb. -/
  | peerAccess (a : HostAccess)
  /-- RHUMB_PATH_TIMEOUT (R427). No path to a peer for 1 ms makes the access unresolvable. -/
  | rhumbPathTimeout (dev : Nat)
  /-- LINK_RETRAIN (R427). A Rhumb link retrains and its traffic moves to the other links. -/
  | linkRetrain (link : Nat)
  /-- CHANNEL_RETRAIN (R395). An HBM channel retrains, suspending its writes and NBU. -/
  | channelRetrain (chan : Nat)
  /-- CHANNEL_RETRAIN_END (R395). The retraining ends and suspended work resumes. -/
  | channelRetrainEnd (chan : Nat)
  /-- PTP_LOCK (R429). The first PTP lock sets PTIME forward or slews it. -/
  | ptpLock (ns : Nat)
  /-- PTP_LOCK_LOST (R429). PTP lock is lost and PTPSTAT reports HOLDOVER. -/
  | ptpLockLost
  /-- FIRMWARE_HANDOVER (R431). A verified new firmware image takes over by A/B hand-over. -/
  | firmwareHandover
  /-- FIRMWARE_VERIFY (R430). The boot ROM verifies the firmware signature and security version. -/
  | firmwareVerify (image : FirmwareImage)
  /-- SECURITY_VERSION_RAISE (R430). After 24 h without fault an image may raise the fused minimum. -/
  | securityVersionRaise (version : BitVec 32)
  /-- CHECKPOINT (R428). The pilot controller stops and saves every launch, writes 410 GiB and resumes. -/
  | checkpoint
  /-- DEVICE_RESET (R73). Reset clears every tower and all state before the first placement. -/
  | deviceReset
  /-- HBM_DATA_RATE_CHANGE (R395). An HBM data-rate change retrains a whole stack once every save or restore streaming to that stack has completed or failed. -/
  | hbmDataRateChange (stack : BitVec 3)
  /-- COOLANT_FLOW_RESTORED (R432). Coolant flow returns to at least 3.0 L/min, and the power mode in force (PMODE.ACT) returns to the requested MODE. -/
  | coolantFlowRestored
  /-- CHECKPOINT_RESTORE (R428). A whole-device checkpoint image of HBM, towers and firmware-reserved HBM is written back before any placement. -/
  | checkpointRestore
deriving DecidableEq, Repr

end Sys2Proof
end

