-- ==== Sys2Proof/WellFormed.lean ====
section
/-! DEFINITION. The field values that R112 and the entries call illegal instructions, beyond what the types of the
operand forms already exclude. The decoder refuses exactly these. -/

namespace Sys2Proof

/-- Registers that an engine's map holds (R312, R313): 18 of a window context, and those of MU, XP, BC, DM, FB, NB. -/
def engineRegs (e : BitVec 5) : Nat :=
  if e.toNat < 16 then 18
  else match e.toNat with
    | 16 => 12
    | 17 => 3
    | 18 => 5
    | 19 => 4
    | 20 => 3
    | 21 => 3
    | _ => 0

/-- An RO engine register: NB CMDQ (R313). -/
def engineRegRO (e i : BitVec 5) : Bool := e == 21#5 && i == 1#5

/-- The limit C_e on open operations (R315); 1 for a window context, so that only n = 0 is legal (R316). -/
def openLimit (e : BitVec 5) : Nat :=
  if e.toNat < 16 then 1
  else match e.toNat with
    | 16 => 2
    | 17 => 4
    | 18 => 2
    | 19 => 2
    | 20 => 4
    | 21 => 4
    | _ => 0

/-- A filter instruction's own limits (R410); its place in a filter is judged by the verifier. -/
def filterBranchOk (imm : BitVec 32) : Bool := decide (1 ≤ imm.toNat)

/-- The well-formed instructions: each check names the rule that gives it. Device events are always well-formed. -/
def WellFormed : Instr → Bool
  | .shli o | .shri o | .shrai o => decide (o.imm.toNat < 64)              -- R166
  | .lds o => !(o.sx && o.size == 3#2)                                     -- R172
  | .ldg o => !(o.sx && o.size == 3#2)                                     -- R174
  | .vrint _ x => decide (x.toNat < 6)                                     -- R204
  | .vicmp o => decide (o.x.toNat < 6)                                     -- R207
  | .vld o | .vlds o => o.fe != 3#2                                        -- R290
  | .vst o | .vsts o => decide (o.fe.toNat < 2)                            -- R290
  | .vldx o => o.fe != 3#2 && !o.d.getLsbD 0                               -- R290, R292
  | .vstx o => decide (o.fe.toNat < 2) && !o.d.getLsbD 0                   -- R290, R292
  | .vldrl _ _ _ fe _ => fe != 3#2                                         -- R290
  | .kld o => o.fe != 3#2                                                  -- R290
  | .kst o => decide (o.fe.toNat < 2)                                      -- R290
  | .eset e _ i => decide (i.toNat < engineRegs e) && !engineRegRO e i     -- R311
  | .eget e _ i => decide (i.toNat < engineRegs e)                         -- R311
  | .ewait e n => decide (n.toNat < openLimit e)                           -- R316
  | .mclr _ q => q != 0#2                                                  -- R310
  | .loadacc o | .accop o | .sacc o | .nbStore o | .minmax o => o.rsel != 3#2   -- R277
  | .fltLdf _ off => off == 0#32 || off == 8#32 || off == 16#32 || off == 24#32 -- R409
  | .fltShl _ _ imm | .fltShr _ _ imm => decide (imm.toNat < 64)           -- R409
  | .fltBeq _ _ imm | .fltBne _ _ imm | .fltBltu _ _ imm | .fltBlt _ _ imm => filterBranchOk imm  -- R410
  | .fltCadd _ imm => decide (imm.toNat < 8)                               -- R410
  | .fltVerd imm => decide (imm.toNat < 32) && (imm.extractLsb' 0 2 == 2#2 || imm.extractLsb' 2 3 == 0#3) -- R410
  | _ => true

end Sys2Proof
end

