-- ==== Sys2Proof/Decode.lean ====
section
/-! DEFINITION. The decoder of every instruction word the manual defines: the four slots of a bundle (R92 to R96, R112 to
R117), near-bank command packets and microinstructions (R276, R277), logline filter instructions (R409). Each decoder is
total and refuses by name. After the decoders, the encoder of the same tables. -/

namespace Sys2Proof

/-- Why a word is no instruction. -/
inductive DecodeError where
  /-- An opcode that R114 to R117, R276, R277 or R409 leave empty. -/
  | emptyOpcode
  /-- A field the entry does not use, or a reserved bit, is not zero (R112). -/
  | unusedField
  /-- A field value outside the entry's stated values (R112). -/
  | badValue
  /-- Too few words. -/
  | short
deriving DecidableEq, Repr

/-- One bit of a word, as a Boolean. -/
def bitAt {n : Nat} (x : BitVec n) (i : Nat) : Bool := x.extractLsb' i 1 == 1#1

/-- An instruction whose unused fields must be zero (`ok`), or the refusal. -/
def fields0 (ok : Bool) (i : Instr) : Except DecodeError Instr :=
  if ok then .ok i else .error .unusedField

/-- The field values a decoder refuses beyond unused fields: WellFormed. -/
def checked (r : Except DecodeError Instr) : Except DecodeError Instr :=
  match r with
  | .ok i => if WellFormed i then .ok i else .error .badValue
  | .error e => .error e

/-! ## Operand forms: the 25 bits below the opcode -/

def CrForm.ofBits (x : BitVec 25) : CrForm :=
  { d := x.extractLsb' 20 5, a := x.extractLsb' 15 5, b := x.extractLsb' 10 5, n := bitAt x 4, q := x.extractLsb' 1 3, f := bitAt x 0 }

def CrForm.zeros (x : BitVec 25) : Bool :=
  x.extractLsb' 5 5 == 0#5

def CrForm.bits (o : CrForm) : BitVec 25 :=
  o.d ++ o.a ++ o.b ++ 0#5 ++ BitVec.ofBool o.n ++ o.q ++ BitVec.ofBool o.f

def Cr1Form.ofBits (x : BitVec 25) : Cr1Form :=
  { d := x.extractLsb' 20 5, a := x.extractLsb' 15 5, n := bitAt x 4, q := x.extractLsb' 1 3, f := bitAt x 0 }

def Cr1Form.zeros (x : BitVec 25) : Bool :=
  x.extractLsb' 10 5 == 0#5 && x.extractLsb' 5 5 == 0#5

def Cr1Form.bits (o : Cr1Form) : BitVec 25 :=
  o.d ++ o.a ++ 0#5 ++ 0#5 ++ BitVec.ofBool o.n ++ o.q ++ BitVec.ofBool o.f

def SelForm.ofBits (x : BitVec 25) : SelForm :=
  { d := x.extractLsb' 20 5, a := x.extractLsb' 15 5, b := x.extractLsb' 10 5, sel := x.extractLsb' 5 3, n := bitAt x 4, q := x.extractLsb' 1 3, f := bitAt x 0 }

def SelForm.zeros (x : BitVec 25) : Bool :=
  x.extractLsb' 8 2 == 0#2

def SelForm.bits (o : SelForm) : BitVec 25 :=
  o.d ++ o.a ++ o.b ++ 0#2 ++ o.sel ++ BitVec.ofBool o.n ++ o.q ++ BitVec.ofBool o.f

def CiForm.ofBits (x : BitVec 25) : CiForm :=
  { d := x.extractLsb' 20 5, a := x.extractLsb' 15 5, imm := x.extractLsb' 1 14, f := bitAt x 0 }

def CiForm.bits (o : CiForm) : BitVec 25 :=
  o.d ++ o.a ++ o.imm ++ BitVec.ofBool o.f

def LihForm.ofBits (x : BitVec 25) : LihForm :=
  { d := x.extractLsb' 20 5, imm := x.extractLsb' 1 19, f := bitAt x 0 }

def LihForm.bits (o : LihForm) : BitVec 25 :=
  o.d ++ o.imm ++ BitVec.ofBool o.f

def CmpiForm.ofBits (x : BitVec 25) : CmpiForm :=
  { d := x.extractLsb' 20 3, a := x.extractLsb' 15 5, imm := x.extractLsb' 1 14, f := bitAt x 0 }

def CmpiForm.zeros (x : BitVec 25) : Bool :=
  x.extractLsb' 23 2 == 0#2

def CmpiForm.bits (o : CmpiForm) : BitVec 25 :=
  0#2 ++ o.d ++ o.a ++ o.imm ++ BitVec.ofBool o.f

def CmpForm.ofBits (x : BitVec 25) : CmpForm :=
  { d := x.extractLsb' 20 3, a := x.extractLsb' 15 5, b := x.extractLsb' 10 5, n := bitAt x 4, q := x.extractLsb' 1 3, f := bitAt x 0 }

def CmpForm.zeros (x : BitVec 25) : Bool :=
  x.extractLsb' 23 2 == 0#2 && x.extractLsb' 5 5 == 0#5

def CmpForm.bits (o : CmpForm) : BitVec 25 :=
  0#2 ++ o.d ++ o.a ++ o.b ++ 0#5 ++ BitVec.ofBool o.n ++ o.q ++ BitVec.ofBool o.f

def CondForm.ofBits (x : BitVec 25) : CondForm :=
  { d := x.extractLsb' 20 3, a := x.extractLsb' 15 3, b := x.extractLsb' 10 3, n := bitAt x 4, q := x.extractLsb' 1 3, f := bitAt x 0 }

def CondForm.zeros (x : BitVec 25) : Bool :=
  x.extractLsb' 23 2 == 0#2 && x.extractLsb' 18 2 == 0#2 && x.extractLsb' 13 2 == 0#2 && x.extractLsb' 5 5 == 0#5

def CondForm.bits (o : CondForm) : BitVec 25 :=
  0#2 ++ o.d ++ 0#2 ++ o.a ++ 0#2 ++ o.b ++ 0#5 ++ BitVec.ofBool o.n ++ o.q ++ BitVec.ofBool o.f

def LdsForm.ofBits (x : BitVec 25) : LdsForm :=
  { d := x.extractLsb' 20 5, a := x.extractLsb' 15 5, b := x.extractLsb' 10 5, sx := bitAt x 9, size := x.extractLsb' 5 2, n := bitAt x 4, q := x.extractLsb' 1 3, f := bitAt x 0 }

def LdsForm.zeros (x : BitVec 25) : Bool :=
  x.extractLsb' 7 2 == 0#2

def LdsForm.bits (o : LdsForm) : BitVec 25 :=
  o.d ++ o.a ++ o.b ++ BitVec.ofBool o.sx ++ 0#2 ++ o.size ++ BitVec.ofBool o.n ++ o.q ++ BitVec.ofBool o.f

def StsForm.ofBits (x : BitVec 25) : StsForm :=
  { d := x.extractLsb' 20 5, a := x.extractLsb' 15 5, b := x.extractLsb' 10 5, size := x.extractLsb' 5 2, n := bitAt x 4, q := x.extractLsb' 1 3, f := bitAt x 0 }

def StsForm.zeros (x : BitVec 25) : Bool :=
  x.extractLsb' 7 3 == 0#3

def StsForm.bits (o : StsForm) : BitVec 25 :=
  o.d ++ o.a ++ o.b ++ 0#3 ++ o.size ++ BitVec.ofBool o.n ++ o.q ++ BitVec.ofBool o.f

def LdgForm.ofBits (x : BitVec 25) : LdgForm :=
  { d := x.extractLsb' 20 5, a := x.extractLsb' 15 5, b := x.extractLsb' 10 5, sx := bitAt x 9, scope := x.extractLsb' 7 2, size := x.extractLsb' 5 2, n := bitAt x 4, q := x.extractLsb' 1 3, f := bitAt x 0 }

def LdgForm.bits (o : LdgForm) : BitVec 25 :=
  o.d ++ o.a ++ o.b ++ BitVec.ofBool o.sx ++ o.scope ++ o.size ++ BitVec.ofBool o.n ++ o.q ++ BitVec.ofBool o.f

def StgForm.ofBits (x : BitVec 25) : StgForm :=
  { d := x.extractLsb' 20 5, a := x.extractLsb' 15 5, b := x.extractLsb' 10 5, scope := x.extractLsb' 7 2, size := x.extractLsb' 5 2, n := bitAt x 4, q := x.extractLsb' 1 3, f := bitAt x 0 }

def StgForm.zeros (x : BitVec 25) : Bool :=
  x.extractLsb' 9 1 == 0#1

def StgForm.bits (o : StgForm) : BitVec 25 :=
  o.d ++ o.a ++ o.b ++ 0#1 ++ o.scope ++ o.size ++ BitVec.ofBool o.n ++ o.q ++ BitVec.ofBool o.f

def AmoForm.ofBits (x : BitVec 25) : AmoForm :=
  { d := x.extractLsb' 20 5, a := x.extractLsb' 15 5, b := x.extractLsb' 10 5, ord := x.extractLsb' 8 2, scope := x.extractLsb' 6 2, dbl := bitAt x 5, n := bitAt x 4, q := x.extractLsb' 1 3, f := bitAt x 0 }

def AmoForm.bits (o : AmoForm) : BitVec 25 :=
  o.d ++ o.a ++ o.b ++ o.ord ++ o.scope ++ BitVec.ofBool o.dbl ++ BitVec.ofBool o.n ++ o.q ++ BitVec.ofBool o.f

def BrForm.ofBits (x : BitVec 25) : BrForm :=
  { q := x.extractLsb' 22 3, n := bitAt x 21, off := x.extractLsb' 1 20, f := bitAt x 0 }

def BrForm.bits (o : BrForm) : BitVec 25 :=
  o.q ++ BitVec.ofBool o.n ++ o.off ++ BitVec.ofBool o.f

def JmpForm.ofBits (x : BitVec 25) : JmpForm :=
  { a := x.extractLsb' 15 5, b := x.extractLsb' 10 5, n := bitAt x 4, q := x.extractLsb' 1 3, f := bitAt x 0 }

def JmpForm.zeros (x : BitVec 25) : Bool :=
  x.extractLsb' 20 5 == 0#5 && x.extractLsb' 5 5 == 0#5

def JmpForm.bits (o : JmpForm) : BitVec 25 :=
  0#5 ++ o.a ++ o.b ++ 0#5 ++ BitVec.ofBool o.n ++ o.q ++ BitVec.ofBool o.f

def RetForm.ofBits (x : BitVec 25) : RetForm :=
  { a := x.extractLsb' 15 5, n := bitAt x 4, q := x.extractLsb' 1 3, f := bitAt x 0 }

def RetForm.zeros (x : BitVec 25) : Bool :=
  x.extractLsb' 20 5 == 0#5 && x.extractLsb' 10 5 == 0#5 && x.extractLsb' 5 5 == 0#5

def RetForm.bits (o : RetForm) : BitVec 25 :=
  0#5 ++ o.a ++ 0#5 ++ 0#5 ++ BitVec.ofBool o.n ++ o.q ++ BitVec.ofBool o.f

def AForm.ofBits (x : BitVec 25) : AForm :=
  { d := x.extractLsb' 20 5, a := x.extractLsb' 15 5, b := x.extractLsb' 10 5, k := x.extractLsb' 7 3, cl := x.extractLsb' 5 2, z := bitAt x 4, s := bitAt x 3 }

def AForm.zeros (x : BitVec 25) : Bool :=
  x.extractLsb' 0 3 == 0#3

def AForm.bits (o : AForm) : BitVec 25 :=
  o.d ++ o.a ++ o.b ++ o.k ++ o.cl ++ BitVec.ofBool o.z ++ BitVec.ofBool o.s ++ 0#3

def A1Form.ofBits (x : BitVec 25) : A1Form :=
  { d := x.extractLsb' 20 5, a := x.extractLsb' 15 5, k := x.extractLsb' 7 3, cl := x.extractLsb' 5 2, z := bitAt x 4 }

def A1Form.zeros (x : BitVec 25) : Bool :=
  x.extractLsb' 10 5 == 0#5 && x.extractLsb' 3 1 == 0#1 && x.extractLsb' 0 3 == 0#3

def A1Form.bits (o : A1Form) : BitVec 25 :=
  o.d ++ o.a ++ 0#5 ++ o.k ++ o.cl ++ BitVec.ofBool o.z ++ 0#1 ++ 0#3

def VcmpForm.ofBits (x : BitVec 25) : VcmpForm :=
  { d := x.extractLsb' 20 3, a := x.extractLsb' 15 5, b := x.extractLsb' 10 5, k := x.extractLsb' 7 3, cl := x.extractLsb' 5 2, z := bitAt x 4, s := bitAt x 3, x := x.extractLsb' 0 3 }

def VcmpForm.zeros (x : BitVec 25) : Bool :=
  x.extractLsb' 23 2 == 0#2

def VcmpForm.bits (o : VcmpForm) : BitVec 25 :=
  0#2 ++ o.d ++ o.a ++ o.b ++ o.k ++ o.cl ++ BitVec.ofBool o.z ++ BitVec.ofBool o.s ++ o.x

def KForm.ofBits (x : BitVec 25) : KForm :=
  { d := x.extractLsb' 20 3, a := x.extractLsb' 15 3, b := x.extractLsb' 10 3, cl := x.extractLsb' 5 2 }

def KForm.zeros (x : BitVec 25) : Bool :=
  x.extractLsb' 23 2 == 0#2 && x.extractLsb' 18 2 == 0#2 && x.extractLsb' 13 2 == 0#2 && x.extractLsb' 7 3 == 0#3 && x.extractLsb' 0 5 == 0#5

def KForm.bits (o : KForm) : BitVec 25 :=
  0#2 ++ o.d ++ 0#2 ++ o.a ++ 0#2 ++ o.b ++ 0#3 ++ o.cl ++ 0#5

def VselForm.ofBits (x : BitVec 25) : VselForm :=
  { d := x.extractLsb' 20 5, a := x.extractLsb' 15 5, b := x.extractLsb' 10 5, k := x.extractLsb' 7 3, cl := x.extractLsb' 5 2, s := bitAt x 3 }

def VselForm.zeros (x : BitVec 25) : Bool :=
  x.extractLsb' 4 1 == 0#1 && x.extractLsb' 0 3 == 0#3

def VselForm.bits (o : VselForm) : BitVec 25 :=
  o.d ++ o.a ++ o.b ++ o.k ++ o.cl ++ 0#1 ++ BitVec.ofBool o.s ++ 0#3

def V3Form.ofBits (x : BitVec 25) : V3Form :=
  { d := x.extractLsb' 20 5, a := x.extractLsb' 15 5, b := x.extractLsb' 10 5, cl := x.extractLsb' 5 2 }

def V3Form.zeros (x : BitVec 25) : Bool :=
  x.extractLsb' 7 3 == 0#3 && x.extractLsb' 0 5 == 0#5

def V3Form.bits (o : V3Form) : BitVec 25 :=
  o.d ++ o.a ++ o.b ++ 0#3 ++ o.cl ++ 0#5

def RedForm.ofBits (x : BitVec 25) : RedForm :=
  { d := x.extractLsb' 20 5, a := x.extractLsb' 15 5, k := x.extractLsb' 7 3, cl := x.extractLsb' 5 2, t := bitAt x 0 }

def RedForm.zeros (x : BitVec 25) : Bool :=
  x.extractLsb' 10 5 == 0#5 && x.extractLsb' 3 2 == 0#2 && x.extractLsb' 1 2 == 0#2

def RedForm.bits (o : RedForm) : BitVec 25 :=
  o.d ++ o.a ++ 0#5 ++ o.k ++ o.cl ++ 0#2 ++ 0#2 ++ BitVec.ofBool o.t

def BMemForm.ofBits (x : BitVec 25) : BMemForm :=
  { d := x.extractLsb' 20 5, a := x.extractLsb' 15 5, b := x.extractLsb' 10 5, k := x.extractLsb' 7 3, cl := x.extractLsb' 5 2, lf := x.extractLsb' 2 3, fe := x.extractLsb' 0 2 }

def BMemForm.bits (o : BMemForm) : BitVec 25 :=
  o.d ++ o.a ++ o.b ++ o.k ++ o.cl ++ o.lf ++ o.fe

def KmForm.ofBits (x : BitVec 25) : KmForm :=
  { d := x.extractLsb' 20 3, a := x.extractLsb' 15 5, b := x.extractLsb' 10 5, cl := x.extractLsb' 5 2, fe := x.extractLsb' 0 2 }

def KmForm.zeros (x : BitVec 25) : Bool :=
  x.extractLsb' 23 2 == 0#2 && x.extractLsb' 7 3 == 0#3 && x.extractLsb' 2 3 == 0#3

def KmForm.bits (o : KmForm) : BitVec 25 :=
  0#2 ++ o.d ++ o.a ++ o.b ++ 0#3 ++ o.cl ++ 0#3 ++ o.fe

def RowForm.ofBits (x : BitVec 25) : RowForm :=
  { d := x.extractLsb' 20 5, a := x.extractLsb' 15 5, k := x.extractLsb' 7 3, cl := x.extractLsb' 5 2, opt := bitAt x 4, h := x.extractLsb' 0 4 }

def RowForm.zeros (x : BitVec 25) : Bool :=
  x.extractLsb' 10 5 == 0#5

def RowForm.bits (o : RowForm) : BitVec 25 :=
  o.d ++ o.a ++ 0#5 ++ o.k ++ o.cl ++ BitVec.ofBool o.opt ++ o.h

def MovForm.ofBits (x : BitVec 25) : MovForm :=
  { d := x.extractLsb' 20 5, k := x.extractLsb' 7 3, cl := x.extractLsb' 5 2, v := x.extractLsb' 0 5 }

def MovForm.zeros (x : BitVec 25) : Bool :=
  x.extractLsb' 15 5 == 0#5 && x.extractLsb' 10 5 == 0#5

def MovForm.bits (o : MovForm) : BitVec 25 :=
  o.d ++ 0#5 ++ 0#5 ++ o.k ++ o.cl ++ o.v

def TForm.ofBits (x : BitVec 25) : TForm :=
  { d := x.extractLsb' 20 5, a := x.extractLsb' 15 5, k := x.extractLsb' 7 3, cl := x.extractLsb' 5 2, t := x.extractLsb' 0 2 }

def TForm.zeros (x : BitVec 25) : Bool :=
  x.extractLsb' 10 5 == 0#5 && x.extractLsb' 2 3 == 0#3

def TForm.bits (o : TForm) : BitVec 25 :=
  o.d ++ o.a ++ 0#5 ++ o.k ++ o.cl ++ 0#3 ++ o.t

def ShiftForm.ofBits (x : BitVec 25) : ShiftForm :=
  { d := x.extractLsb' 20 5, a := x.extractLsb' 15 5, b := x.extractLsb' 10 5, k := x.extractLsb' 7 3, cl := x.extractLsb' 5 2, h := x.extractLsb' 0 4 }

def ShiftForm.zeros (x : BitVec 25) : Bool :=
  x.extractLsb' 4 1 == 0#1

def ShiftForm.bits (o : ShiftForm) : BitVec 25 :=
  o.d ++ o.a ++ o.b ++ o.k ++ o.cl ++ 0#1 ++ o.h

/-- Slot C, R113 and R114. `x` is the word below its opcode. -/
def slotC (op : Nat) (x : BitVec 25) : Except DecodeError Instr :=
  match op with
  | 0x00 => fields0 (x.extractLsb' 1 24 == 0#24) (.nop (bitAt x 0))
  | 0x01 => fields0 (CrForm.zeros x) (.add (.ofBits x))
  | 0x02 => fields0 (CrForm.zeros x) (.sub (.ofBits x))
  | 0x03 => fields0 (CrForm.zeros x) (.mul (.ofBits x))
  | 0x04 => fields0 (CrForm.zeros x) (.mulh (.ofBits x))
  | 0x05 => fields0 (CrForm.zeros x) (.mulhu (.ofBits x))
  | 0x06 => fields0 (CrForm.zeros x) (.div (.ofBits x))
  | 0x07 => fields0 (CrForm.zeros x) (.divu (.ofBits x))
  | 0x08 => fields0 (CrForm.zeros x) (.rem (.ofBits x))
  | 0x09 => fields0 (CrForm.zeros x) (.remu (.ofBits x))
  | 0x0A => fields0 (CrForm.zeros x) (.and (.ofBits x))
  | 0x0B => fields0 (CrForm.zeros x) (.or (.ofBits x))
  | 0x0C => fields0 (CrForm.zeros x) (.xor (.ofBits x))
  | 0x0D => fields0 (CrForm.zeros x) (.andn (.ofBits x))
  | 0x0E => fields0 (CrForm.zeros x) (.shl (.ofBits x))
  | 0x0F => fields0 (CrForm.zeros x) (.shr (.ofBits x))
  | 0x10 => fields0 (CrForm.zeros x) (.shra (.ofBits x))
  | 0x11 => fields0 (CrForm.zeros x) (.rot (.ofBits x))
  | 0x12 => fields0 (CrForm.zeros x) (.min (.ofBits x))
  | 0x13 => fields0 (CrForm.zeros x) (.max (.ofBits x))
  | 0x14 => fields0 (CrForm.zeros x) (.minu (.ofBits x))
  | 0x15 => fields0 (CrForm.zeros x) (.maxu (.ofBits x))
  | 0x16 => fields0 (Cr1Form.zeros x) (.clz (.ofBits x))
  | 0x17 => fields0 (Cr1Form.zeros x) (.ctz (.ofBits x))
  | 0x18 => fields0 (Cr1Form.zeros x) (.popc (.ofBits x))
  | 0x19 => fields0 (SelForm.zeros x) (.sel (.ofBits x))
  | 0x20 => .ok (.addi (.ofBits x))
  | 0x21 => .ok (.andi (.ofBits x))
  | 0x22 => .ok (.ori (.ofBits x))
  | 0x23 => .ok (.xori (.ofBits x))
  | 0x24 => .ok (.shli (.ofBits x))
  | 0x25 => .ok (.shri (.ofBits x))
  | 0x26 => .ok (.shrai (.ofBits x))
  | 0x27 => .ok (.lih (.ofBits x))
  | 0x28 => fields0 (CmpiForm.zeros x) (.cmpeqi (.ofBits x))
  | 0x29 => fields0 (CmpiForm.zeros x) (.cmplti (.ofBits x))
  | 0x2A => fields0 (CmpiForm.zeros x) (.cmpltui (.ofBits x))
  | 0x30 => fields0 (CmpForm.zeros x) (.cmpeq (.ofBits x))
  | 0x31 => fields0 (CmpForm.zeros x) (.cmpne (.ofBits x))
  | 0x32 => fields0 (CmpForm.zeros x) (.cmplt (.ofBits x))
  | 0x33 => fields0 (CmpForm.zeros x) (.cmpltu (.ofBits x))
  | 0x34 => fields0 (CmpForm.zeros x) (.cmple (.ofBits x))
  | 0x35 => fields0 (CmpForm.zeros x) (.cmpleu (.ofBits x))
  | 0x36 => fields0 (CondForm.zeros x) (.cand (.ofBits x))
  | 0x37 => fields0 (CondForm.zeros x) (.cor (.ofBits x))
  | 0x38 => fields0 (CondForm.zeros x) (.cxor (.ofBits x))
  | 0x40 => fields0 (LdsForm.zeros x) (.lds (.ofBits x))
  | 0x41 => fields0 (StsForm.zeros x) (.sts (.ofBits x))
  | 0x42 => .ok (.ldg (.ofBits x))
  | 0x43 => fields0 (StgForm.zeros x) (.stg (.ofBits x))
  | 0x44 => .ok (.amoadd (.ofBits x))
  | 0x45 => .ok (.amomin (.ofBits x))
  | 0x46 => .ok (.amomax (.ofBits x))
  | 0x47 => .ok (.amoand (.ofBits x))
  | 0x48 => .ok (.amoor (.ofBits x))
  | 0x49 => .ok (.amoxch (.ofBits x))
  | 0x4A => .ok (.amocas (.ofBits x))
  | 0x4B => fields0 (x.extractLsb' 3 22 == 0#22) (.fence (x.extractLsb' 1 2) (bitAt x 0))
  | 0x50 => .ok (.br (.ofBits x))
  | 0x51 => fields0 (JmpForm.zeros x) (.jmp (.ofBits x))
  | 0x52 => .ok (.call (.ofBits x))
  | 0x53 => fields0 (RetForm.zeros x) (.ret (.ofBits x))
  | 0x54 => fields0 (x.extractLsb' 15 5 == 0#5) (.loop (x.extractLsb' 20 5) (x.extractLsb' 1 14) (bitAt x 0))
  | 0x55 => fields0 (x.extractLsb' 1 24 == 0#24) (.endTask (bitAt x 0))
  | 0x56 => fields0 (x.extractLsb' 20 5 == 0#5 && x.extractLsb' 15 5 == 0#5 && x.extractLsb' 13 2 == 0#2) (.rep (x.extractLsb' 7 6) (x.extractLsb' 1 6) (bitAt x 0))
  | 0x57 => fields0 (x.extractLsb' 21 4 == 0#4) (.mark (x.extractLsb' 1 20) (bitAt x 0))
  | 0x58 => fields0 (x.extractLsb' 20 5 == 0#5 && x.extractLsb' 15 5 == 0#5) (.trap (x.extractLsb' 1 14) (bitAt x 0))
  | 0x59 => fields0 (x.extractLsb' 1 24 == 0#24) (.tret (bitAt x 0))
  | 0x5A => fields0 (x.extractLsb' 1 24 == 0#24) (.tfence (bitAt x 0))
  | 0x5B => fields0 (CrForm.zeros x) (.launch (.ofBits x))
  | 0x60 => fields0 (RetForm.zeros x) (.sfmt (.ofBits x))
  | 0x61 => fields0 (x.extractLsb' 15 5 == 0#5 && x.extractLsb' 11 4 == 0#4) (.mfc (x.extractLsb' 20 5) (x.extractLsb' 7 4) (x.extractLsb' 1 6) (bitAt x 0))
  | 0x62 => fields0 (x.extractLsb' 20 5 == 0#5 && x.extractLsb' 11 4 == 0#4) (.mtc (x.extractLsb' 15 5) (x.extractLsb' 7 4) (x.extractLsb' 1 6) (bitAt x 0))
  | 0x63 => fields0 (Cr1Form.zeros x) (.setvl (.ofBits x))
  | 0x64 => fields0 (x.extractLsb' 21 4 == 0#4 && x.extractLsb' 9 6 == 0#6) (.setcm (bitAt x 20) (x.extractLsb' 15 5) (x.extractLsb' 1 8) (bitAt x 0))
  | 0x70 => fields0 (RetForm.zeros x) (.lovt (.ofBits x))
  | 0x71 =>
    if x.extractLsb' 5 5 == 0#5 then fields0 (x.extractLsb' 20 5 == 0#5) (.tlbinv (.ofBits x)) else
    if x.extractLsb' 5 5 == 1#5 then fields0 (x.extractLsb' 20 5 == 0#5 && x.extractLsb' 15 5 == 0#5) (.tlbinvAsid (x.extractLsb' 10 5) (bitAt x 4) (x.extractLsb' 1 3) (bitAt x 0)) else
    if x.extractLsb' 5 5 == 2#5 then fields0 (x.extractLsb' 20 5 == 0#5 && x.extractLsb' 15 5 == 0#5 && x.extractLsb' 10 5 == 0#5) (.tlbinvAll (bitAt x 4) (x.extractLsb' 1 3) (bitAt x 0)) else
    .error .badValue
  | _ => .error .emptyOpcode

/-- Slot A, R94 and R115. `x` is the word below its opcode. -/
def slotA (op : Nat) (x : BitVec 25) : Except DecodeError Instr :=
  match op with
  | 0x00 => fields0 (x.extractLsb' 0 25 == 0#25) (.nopA)
  | 0x01 => fields0 (AForm.zeros x) (.vadd (.ofBits x))
  | 0x02 => fields0 (AForm.zeros x) (.vsub (.ofBits x))
  | 0x03 => fields0 (AForm.zeros x) (.vmul (.ofBits x))
  | 0x04 => fields0 (AForm.zeros x) (.vfma (.ofBits x))
  | 0x05 => fields0 (AForm.zeros x) (.vfms (.ofBits x))
  | 0x06 => fields0 (AForm.zeros x) (.vfnma (.ofBits x))
  | 0x07 => fields0 (AForm.zeros x) (.vmin (.ofBits x))
  | 0x08 => fields0 (AForm.zeros x) (.vmax (.ofBits x))
  | 0x09 => fields0 (A1Form.zeros x) (.vabs (.ofBits x))
  | 0x0A => fields0 (A1Form.zeros x) (.vneg (.ofBits x))
  | 0x0B => fields0 (AForm.zeros x) (.vdiv (.ofBits x))
  | 0x0C => fields0 (x.extractLsb' 10 5 == 0#5 && x.extractLsb' 3 1 == 0#1 && x.extractLsb' 1 2 == 0#2) (.vsqrt { d := x.extractLsb' 20 5, a := x.extractLsb' 15 5, k := x.extractLsb' 7 3, cl := x.extractLsb' 5 2, z := bitAt x 4 } (bitAt x 0))
  | 0x0D => fields0 (x.extractLsb' 10 5 == 0#5 && x.extractLsb' 3 1 == 0#1 && x.extractLsb' 1 2 == 0#2) (.vrsq { d := x.extractLsb' 20 5, a := x.extractLsb' 15 5, k := x.extractLsb' 7 3, cl := x.extractLsb' 5 2, z := bitAt x 4 } (bitAt x 0))
  | 0x0E => fields0 (A1Form.zeros x) (.vrcp (.ofBits x))
  | 0x0F => fields0 (A1Form.zeros x) (.vexp (.ofBits x))
  | 0x10 => fields0 (A1Form.zeros x) (.vlog (.ofBits x))
  | 0x11 => fields0 (A1Form.zeros x) (.vsin (.ofBits x))
  | 0x12 => fields0 (A1Form.zeros x) (.vcos (.ofBits x))
  | 0x13 => fields0 (A1Form.zeros x) (.vtanh (.ofBits x))
  | 0x14 => fields0 (x.extractLsb' 10 5 == 0#5 && x.extractLsb' 3 1 == 0#1) (.vrint { d := x.extractLsb' 20 5, a := x.extractLsb' 15 5, k := x.extractLsb' 7 3, cl := x.extractLsb' 5 2, z := bitAt x 4 } (x.extractLsb' 0 3))
  | 0x20 => fields0 (AForm.zeros x) (.viadd (.ofBits x))
  | 0x21 => fields0 (AForm.zeros x) (.visub (.ofBits x))
  | 0x22 => fields0 (AForm.zeros x) (.vimul (.ofBits x))
  | 0x23 => fields0 (AForm.zeros x) (.vimulh (.ofBits x))
  | 0x24 => fields0 (AForm.zeros x) (.vimin (.ofBits x))
  | 0x25 => fields0 (AForm.zeros x) (.vimax (.ofBits x))
  | 0x26 => fields0 (AForm.zeros x) (.viminu (.ofBits x))
  | 0x27 => fields0 (AForm.zeros x) (.vimaxu (.ofBits x))
  | 0x28 => fields0 (AForm.zeros x) (.vand (.ofBits x))
  | 0x29 => fields0 (AForm.zeros x) (.vor (.ofBits x))
  | 0x2A => fields0 (AForm.zeros x) (.vxor (.ofBits x))
  | 0x2B => fields0 (AForm.zeros x) (.vshl (.ofBits x))
  | 0x2C => fields0 (AForm.zeros x) (.vshr (.ofBits x))
  | 0x2D => fields0 (AForm.zeros x) (.vshra (.ofBits x))
  | 0x2E => fields0 (A1Form.zeros x) (.viabs (.ofBits x))
  | 0x30 => fields0 (VcmpForm.zeros x) (.vcmp (.ofBits x))
  | 0x31 => fields0 (VcmpForm.zeros x) (.vicmp (.ofBits x))
  | 0x38 => fields0 (KForm.zeros x) (.kand (.ofBits x))
  | 0x39 => fields0 (KForm.zeros x) (.kor (.ofBits x))
  | 0x3A => fields0 (KForm.zeros x) (.kxor (.ofBits x))
  | 0x3B => fields0 (x.extractLsb' 23 2 == 0#2 && x.extractLsb' 18 2 == 0#2 && x.extractLsb' 10 5 == 0#5 && x.extractLsb' 7 3 == 0#3 && x.extractLsb' 0 5 == 0#5) (.knot (x.extractLsb' 20 3) (x.extractLsb' 15 3) (x.extractLsb' 5 2))
  | 0x3C => fields0 (x.extractLsb' 23 2 == 0#2 && x.extractLsb' 18 2 == 0#2 && x.extractLsb' 10 5 == 0#5 && x.extractLsb' 7 3 == 0#3 && x.extractLsb' 0 5 == 0#5) (.kfirst (x.extractLsb' 20 3) (x.extractLsb' 15 3) (x.extractLsb' 5 2))
  | 0x3D => fields0 (x.extractLsb' 18 2 == 0#2 && x.extractLsb' 10 5 == 0#5 && x.extractLsb' 7 3 == 0#3 && x.extractLsb' 0 5 == 0#5) (.kcnt (x.extractLsb' 20 5) (x.extractLsb' 15 3) (x.extractLsb' 5 2))
  | 0x40 => fields0 (VselForm.zeros x) (.vsel (.ofBits x))
  | 0x48 => fields0 (x.extractLsb' 10 5 == 0#5 && x.extractLsb' 3 1 == 0#1 && x.extractLsb' 1 2 == 0#2) (.vcoal { d := x.extractLsb' 20 5, a := x.extractLsb' 15 5, k := x.extractLsb' 7 3, cl := x.extractLsb' 5 2, z := bitAt x 4 } (bitAt x 0))
  | 0x49 => fields0 (x.extractLsb' 7 3 == 0#3 && x.extractLsb' 4 1 == 0#1 && x.extractLsb' 1 2 == 0#2 && x.extractLsb' 3 1 == 1#1) (.vcoalq { d := x.extractLsb' 20 5, a := x.extractLsb' 15 5, b := x.extractLsb' 10 5, cl := x.extractLsb' 5 2 } (bitAt x 0))
  | 0x4A => fields0 (x.extractLsb' 7 3 == 0#3 && x.extractLsb' 4 1 == 0#1 && x.extractLsb' 0 3 == 0#3 && x.extractLsb' 3 1 == 1#1) (.vrlset { d := x.extractLsb' 20 5, a := x.extractLsb' 15 5, b := x.extractLsb' 10 5, cl := x.extractLsb' 5 2 })
  | 0x4B => fields0 (x.extractLsb' 15 5 == 0#5 && x.extractLsb' 7 3 == 0#3 && x.extractLsb' 4 1 == 0#1 && x.extractLsb' 0 3 == 0#3 && x.extractLsb' 3 1 == 1#1) (.vsplat (x.extractLsb' 20 5) (x.extractLsb' 10 5) (x.extractLsb' 5 2))
  | 0x4C =>
    if x.extractLsb' 0 3 == 0#3 then fields0 (x.extractLsb' 10 5 == 0#5 && x.extractLsb' 7 3 == 0#3 && x.extractLsb' 4 1 == 0#1 && x.extractLsb' 3 1 == 0#1) (.vruns (x.extractLsb' 20 5) (x.extractLsb' 15 5) (x.extractLsb' 5 2)) else
    if x.extractLsb' 0 3 == 1#3 then fields0 (x.extractLsb' 18 2 == 0#2 && x.extractLsb' 10 5 == 0#5 && x.extractLsb' 7 3 == 0#3 && x.extractLsb' 4 1 == 0#1 && x.extractLsb' 3 1 == 0#1) (.vrunsK (x.extractLsb' 20 5) (x.extractLsb' 15 3) (x.extractLsb' 5 2)) else
    .error .badValue
  | 0x4D =>
    if x.extractLsb' 0 3 == 0#3 then fields0 (x.extractLsb' 10 5 == 0#5 && x.extractLsb' 7 3 == 0#3 && x.extractLsb' 4 1 == 0#1 && x.extractLsb' 3 1 == 0#1) (.vlen (x.extractLsb' 20 5) (x.extractLsb' 15 5) (x.extractLsb' 5 2)) else
    if x.extractLsb' 0 3 == 1#3 then fields0 (x.extractLsb' 18 2 == 0#2 && x.extractLsb' 10 5 == 0#5 && x.extractLsb' 7 3 == 0#3 && x.extractLsb' 4 1 == 0#1 && x.extractLsb' 3 1 == 0#1) (.vlenK (x.extractLsb' 20 5) (x.extractLsb' 15 3) (x.extractLsb' 5 2)) else
    .error .badValue
  | 0x4E =>
    if x.extractLsb' 0 3 == 0#3 && x.extractLsb' 3 1 == 1#1 then fields0 (x.extractLsb' 7 3 == 0#3 && x.extractLsb' 4 1 == 0#1) (.vtrim { d := x.extractLsb' 20 5, a := x.extractLsb' 15 5, b := x.extractLsb' 10 5, cl := x.extractLsb' 5 2 }) else
    if x.extractLsb' 0 3 == 1#3 && x.extractLsb' 3 1 == 1#1 then fields0 (x.extractLsb' 7 3 == 0#3 && x.extractLsb' 4 1 == 0#1) (.vtrimDrop { d := x.extractLsb' 20 5, a := x.extractLsb' 15 5, b := x.extractLsb' 10 5, cl := x.extractLsb' 5 2 }) else
    .error .badValue
  | 0x4F => fields0 (V3Form.zeros x) (.vcat (.ofBits x))
  | 0x58 => fields0 (RedForm.zeros x) (.vrsum (.ofBits x))
  | 0x59 => fields0 (RedForm.zeros x) (.vrmax (.ofBits x))
  | 0x5A => fields0 (RedForm.zeros x) (.vrmin (.ofBits x))
  | 0x5B => fields0 (RedForm.zeros x) (.vrisum (.ofBits x))
  | 0x5C => fields0 (RedForm.zeros x) (.vrimax (.ofBits x))
  | 0x5D => fields0 (RedForm.zeros x) (.vrimin (.ofBits x))
  | 0x5E => fields0 (x.extractLsb' 3 2 == 0#2 && x.extractLsb' 1 2 == 0#2) (.vdot { d := x.extractLsb' 20 5, a := x.extractLsb' 15 5, k := x.extractLsb' 7 3, cl := x.extractLsb' 5 2, t := bitAt x 0 } (x.extractLsb' 10 5))
  | _ => .error .emptyOpcode

/-- Slot B, R95 and R116. `x` is the word below its opcode. -/
def slotB (op : Nat) (x : BitVec 25) : Except DecodeError Instr :=
  match op with
  | 0x00 => fields0 (x.extractLsb' 0 25 == 0#25) (.nopB)
  | 0x01 => .ok (.vld (.ofBits x))
  | 0x02 => .ok (.vst (.ofBits x))
  | 0x03 => .ok (.vlds (.ofBits x))
  | 0x04 => .ok (.vsts (.ofBits x))
  | 0x05 => .ok (.vldx (.ofBits x))
  | 0x06 => .ok (.vstx (.ofBits x))
  | 0x07 => fields0 (x.extractLsb' 15 5 == 0#5 && x.extractLsb' 10 5 == 0#5 && x.extractLsb' 4 1 == 0#1) (.vldrl (x.extractLsb' 20 5) (x.extractLsb' 7 3) (x.extractLsb' 5 2) (x.extractLsb' 2 2) (x.extractLsb' 0 2))
  | 0x08 => fields0 (x.extractLsb' 15 5 == 0#5 && x.extractLsb' 10 5 == 0#5 && x.extractLsb' 7 3 == 0#3 && x.extractLsb' 3 2 == 0#2) (.vstrl (x.extractLsb' 20 5) (x.extractLsb' 5 2) (bitAt x 2) (x.extractLsb' 0 2))
  | 0x09 => fields0 (KmForm.zeros x) (.kld (.ofBits x))
  | 0x0A => fields0 (KmForm.zeros x) (.kst (.ofBits x))
  | 0x0B => fields0 (x.extractLsb' 20 5 == 0#5 && x.extractLsb' 7 3 == 0#3 && x.extractLsb' 2 3 == 0#3) (.vcur (x.extractLsb' 15 5) (x.extractLsb' 10 5) (x.extractLsb' 5 2) (x.extractLsb' 0 2))
  | 0x10 => fields0 (RowForm.zeros x) (.vrd (.ofBits x))
  | 0x11 => fields0 (RowForm.zeros x) (.vwr (.ofBits x))
  | 0x18 => fields0 (MovForm.zeros x) (.vmov (.ofBits x))
  | 0x19 => fields0 (x.extractLsb' 10 5 == 0#5 && x.extractLsb' 0 5 == 0#5) (.vmvs (x.extractLsb' 20 5) (x.extractLsb' 15 5) (x.extractLsb' 7 3) (x.extractLsb' 5 2))
  | 0x1A => fields0 (x.extractLsb' 10 5 == 0#5 && x.extractLsb' 7 3 == 0#3) (.vmvx (x.extractLsb' 20 5) (x.extractLsb' 15 5) (x.extractLsb' 0 5) (x.extractLsb' 5 2))
  | 0x1B => fields0 (x.extractLsb' 10 5 == 0#5) (.vxc { d := x.extractLsb' 20 5, k := x.extractLsb' 7 3, cl := x.extractLsb' 5 2, v := x.extractLsb' 0 5 } (x.extractLsb' 15 5))
  | 0x1C => fields0 (x.extractLsb' 10 5 == 0#5) (.vslide { d := x.extractLsb' 20 5, k := x.extractLsb' 7 3, cl := x.extractLsb' 5 2, v := x.extractLsb' 0 5 } (x.extractLsb' 15 5))
  | 0x1D => fields0 (MovForm.zeros x) (.vrev (.ofBits x))
  | 0x20 => fields0 (MovForm.zeros x) (.vcvt (.ofBits x))
  | 0x22 => fields0 (MovForm.zeros x) (.vclass (.ofBits x))
  | 0x28 => fields0 (TForm.zeros x) (.twr (.ofBits x))
  | 0x29 => fields0 (TForm.zeros x) (.trc (.ofBits x))
  | 0x2A => fields0 (TForm.zeros x) (.trr (.ofBits x))
  | 0x2B => fields0 (x.extractLsb' 20 5 == 0#5 && x.extractLsb' 15 5 == 0#5 && x.extractLsb' 10 5 == 0#5 && x.extractLsb' 7 3 == 0#3 && x.extractLsb' 2 3 == 0#3) (.tclr (x.extractLsb' 5 2) (x.extractLsb' 0 2))
  | 0x30 => fields0 (ShiftForm.zeros x) (.vshift (.ofBits x))
  | _ => .error .emptyOpcode

/-- Slot E, R96 and R117. `x` is the word below its opcode. -/
def slotE (op : Nat) (x : BitVec 25) : Except DecodeError Instr :=
  match op with
  | 0x00 => fields0 (x.extractLsb' 0 25 == 0#25) (.nopE)
  | 0x01 => fields0 (x.extractLsb' 10 5 == 0#5 && x.extractLsb' 5 5 == 0#5) (.eset (x.extractLsb' 20 5) (x.extractLsb' 15 5) (x.extractLsb' 0 5))
  | 0x02 => fields0 (x.extractLsb' 10 5 == 0#5 && x.extractLsb' 5 5 == 0#5) (.eget (x.extractLsb' 20 5) (x.extractLsb' 15 5) (x.extractLsb' 0 5))
  | 0x03 => fields0 (x.extractLsb' 15 5 == 0#5 && x.extractLsb' 10 5 == 0#5 && x.extractLsb' 3 7 == 0#7) (.ewait (x.extractLsb' 20 5) (x.extractLsb' 0 3))
  | 0x08 =>
    if x.extractLsb' 0 10 == 0#10 then fields0 (x.extractLsb' 24 1 == 0#1 && x.extractLsb' 15 5 == 0#5 && x.extractLsb' 10 5 == 0#5) (.wopen (x.extractLsb' 20 4)) else
    if x.extractLsb' 0 10 == 1#10 then fields0 (x.extractLsb' 24 1 == 0#1 && x.extractLsb' 15 5 == 0#5 && x.extractLsb' 10 5 == 0#5) (.wopenBind (x.extractLsb' 20 4)) else
    if x.extractLsb' 0 10 == 2#10 then fields0 (x.extractLsb' 24 1 == 0#1 && x.extractLsb' 15 5 == 0#5 && x.extractLsb' 10 5 == 0#5) (.wopenKeep (x.extractLsb' 20 4)) else
    .error .badValue
  | 0x09 => fields0 (x.extractLsb' 24 1 == 0#1 && x.extractLsb' 10 5 == 0#5 && x.extractLsb' 0 10 == 0#10) (.wadv (x.extractLsb' 20 4) (x.extractLsb' 15 5))
  | 0x0A =>
    if x.extractLsb' 0 10 == 0#10 then fields0 (x.extractLsb' 24 1 == 0#1 && x.extractLsb' 10 5 == 0#5) (.wwait (x.extractLsb' 20 4) (x.extractLsb' 15 5)) else
    if x.extractLsb' 0 10 == 1#10 then fields0 (x.extractLsb' 24 1 == 0#1 && x.extractLsb' 15 5 == 0#5 && x.extractLsb' 10 5 == 0#5) (.wwaitDone (x.extractLsb' 20 4)) else
    .error .badValue
  | 0x0B => fields0 (x.extractLsb' 24 1 == 0#1 && x.extractLsb' 15 5 == 0#5 && x.extractLsb' 10 5 == 0#5 && x.extractLsb' 0 10 == 0#10) (.wclose (x.extractLsb' 20 4))
  | 0x0C => fields0 (x.extractLsb' 24 1 == 0#1 && x.extractLsb' 10 5 == 0#5 && x.extractLsb' 0 10 == 0#10) (.rstat (x.extractLsb' 20 4) (x.extractLsb' 15 5))
  | 0x0D => fields0 (x.extractLsb' 24 1 == 0#1 && x.extractLsb' 15 5 == 0#5 && x.extractLsb' 10 5 == 0#5 && x.extractLsb' 0 10 == 0#10) (.wflush (x.extractLsb' 20 4))
  | 0x10 =>
    if x.extractLsb' 4 1 == 0#1 then fields0 (x.extractLsb' 20 5 == 0#5 && x.extractLsb' 15 5 == 0#5 && x.extractLsb' 10 5 == 0#5 && x.extractLsb' 5 5 == 0#5 && x.extractLsb' 0 4 == 0#4) (.bcfill) else
    if x.extractLsb' 4 1 == 1#1 then fields0 (x.extractLsb' 20 5 == 0#5 && x.extractLsb' 15 5 == 0#5 && x.extractLsb' 10 5 == 0#5 && x.extractLsb' 5 5 == 0#5) (.bcfillRing (x.extractLsb' 0 4)) else
    .error .badValue
  | 0x11 =>
    if x.extractLsb' 0 10 == 0#10 then fields0 (x.extractLsb' 20 5 == 0#5 && x.extractLsb' 10 5 == 0#5) (.bcwait (x.extractLsb' 15 5)) else
    if x.extractLsb' 0 10 == 1#10 then fields0 (x.extractLsb' 20 5 == 0#5 && x.extractLsb' 15 5 == 0#5 && x.extractLsb' 10 5 == 0#5) (.bcwaitAll) else
    .error .badValue
  | 0x18 => fields0 (x.extractLsb' 21 4 == 0#4 && x.extractLsb' 15 5 == 0#5 && x.extractLsb' 10 5 == 0#5 && x.extractLsb' 0 10 == 0#10) (.mma (bitAt x 20))
  | 0x19 => fields0 (x.extractLsb' 21 4 == 0#4 && x.extractLsb' 15 5 == 0#5 && x.extractLsb' 10 5 == 0#5 && x.extractLsb' 0 10 == 0#10) (.mmv (bitAt x 20))
  | 0x1A => fields0 (x.extractLsb' 20 5 == 0#5 && x.extractLsb' 15 5 == 0#5 && x.extractLsb' 10 5 == 0#5 && x.extractLsb' 0 10 == 0#10) (.mldb)
  | 0x1B => fields0 (x.extractLsb' 21 4 == 0#4 && x.extractLsb' 15 5 == 0#5 && x.extractLsb' 10 5 == 0#5 && x.extractLsb' 0 10 == 0#10) (.mdrain (bitAt x 20))
  | 0x1C => fields0 (x.extractLsb' 20 5 == 0#5 && x.extractLsb' 15 5 == 0#5 && x.extractLsb' 10 5 == 0#5 && x.extractLsb' 0 10 == 0#10) (.mswap)
  | 0x1D => fields0 (x.extractLsb' 21 4 == 0#4 && x.extractLsb' 15 5 == 0#5 && x.extractLsb' 10 5 == 0#5 && x.extractLsb' 2 8 == 0#8) (.mclr (bitAt x 20) (x.extractLsb' 0 2))
  | 0x1E => fields0 (x.extractLsb' 21 4 == 0#4 && x.extractLsb' 10 5 == 0#5 && x.extractLsb' 1 9 == 0#9) (.mflags (bitAt x 20) (x.extractLsb' 15 5) (bitAt x 0))
  | 0x20 => fields0 (x.extractLsb' 24 1 == 0#1 && x.extractLsb' 0 10 == 0#10) (.xsend (x.extractLsb' 20 4) (x.extractLsb' 15 5) (x.extractLsb' 10 5))
  | 0x21 => fields0 (x.extractLsb' 20 5 == 0#5 && x.extractLsb' 6 4 == 0#4) (.xwr (x.extractLsb' 15 5) (x.extractLsb' 10 5) (x.extractLsb' 3 3) (x.extractLsb' 0 3))
  | 0x22 => fields0 (x.extractLsb' 20 5 == 0#5 && x.extractLsb' 6 4 == 0#4) (.xrd (x.extractLsb' 15 5) (x.extractLsb' 10 5) (x.extractLsb' 3 3) (x.extractLsb' 0 3))
  | 0x23 =>
    if x.extractLsb' 0 10 == 0#10 then fields0 (x.extractLsb' 20 5 == 0#5 && x.extractLsb' 15 5 == 0#5 && x.extractLsb' 10 5 == 0#5) (.xbar) else
    if x.extractLsb' 0 10 == 1#10 then fields0 (x.extractLsb' 20 5 == 0#5 && x.extractLsb' 15 5 == 0#5 && x.extractLsb' 10 5 == 0#5) (.xbarRow) else
    if x.extractLsb' 0 10 == 2#10 then fields0 (x.extractLsb' 20 5 == 0#5 && x.extractLsb' 15 5 == 0#5 && x.extractLsb' 10 5 == 0#5) (.xbarCol) else
    .error .badValue
  | 0x28 =>
    if x.extractLsb' 0 10 == 0#10 then fields0 (x.extractLsb' 20 5 == 0#5 && x.extractLsb' 15 5 == 0#5 && x.extractLsb' 10 5 == 0#5) (.dcopy) else
    if x.extractLsb' 0 10 == 1#10 then fields0 (x.extractLsb' 20 5 == 0#5 && x.extractLsb' 15 5 == 0#5 && x.extractLsb' 10 5 == 0#5) (.dcopyMt) else
    if x.extractLsb' 0 10 == 2#10 then fields0 (x.extractLsb' 20 5 == 0#5 && x.extractLsb' 15 5 == 0#5 && x.extractLsb' 10 5 == 0#5) (.dcopyTm) else
    .error .badValue
  | 0x29 => fields0 (x.extractLsb' 20 5 == 0#5 && x.extractLsb' 6 4 == 0#4) (.dpub (x.extractLsb' 15 5) (x.extractLsb' 10 5) (x.extractLsb' 0 6))
  | 0x2A => fields0 (x.extractLsb' 20 5 == 0#5 && x.extractLsb' 15 5 == 0#5 && x.extractLsb' 10 5 == 0#5 && x.extractLsb' 0 10 == 0#10) (.dwait)
  | 0x30 => fields0 (x.extractLsb' 20 5 == 0#5 && x.extractLsb' 15 5 == 0#5 && x.extractLsb' 10 5 == 0#5 && x.extractLsb' 0 10 == 0#10) (.fload)
  | 0x31 => fields0 (x.extractLsb' 20 5 == 0#5 && x.extractLsb' 15 5 == 0#5 && x.extractLsb' 10 5 == 0#5 && x.extractLsb' 0 10 == 0#10) (.fbind)
  | 0x32 => fields0 (x.extractLsb' 20 5 == 0#5 && x.extractLsb' 10 5 == 0#5 && x.extractLsb' 0 10 == 0#10) (.fstat (x.extractLsb' 15 5))
  | 0x38 => fields0 (x.extractLsb' 20 5 == 0#5 && x.extractLsb' 0 10 == 0#10) (.nbcmd (x.extractLsb' 15 5) (x.extractLsb' 10 5))
  | 0x39 => fields0 (x.extractLsb' 20 5 == 0#5 && x.extractLsb' 0 10 == 0#10) (.nbpoll (x.extractLsb' 15 5) (x.extractLsb' 10 5))
  | 0x3A => fields0 (x.extractLsb' 20 5 == 0#5 && x.extractLsb' 15 5 == 0#5 && x.extractLsb' 10 5 == 0#5 && x.extractLsb' 0 10 == 0#10) (.nbfence)
  | 0x40 => fields0 (x.extractLsb' 20 5 == 0#5) (.hsig (x.extractLsb' 15 5) (x.extractLsb' 10 5) (x.extractLsb' 0 10))
  | 0x41 => fields0 (x.extractLsb' 20 5 == 0#5) (.trace (x.extractLsb' 15 5) (x.extractLsb' 10 5) (x.extractLsb' 0 10))
  | 0x42 => fields0 (x.extractLsb' 20 5 == 0#5 && x.extractLsb' 15 5 == 0#5 && x.extractLsb' 10 5 == 0#5 && x.extractLsb' 8 2 == 0#2) (.snap (x.extractLsb' 0 8))
  | 0x48 => fields0 (x.extractLsb' 20 5 == 0#5 && x.extractLsb' 10 5 == 0#5 && x.extractLsb' 0 10 == 0#10) (.refdefer (x.extractLsb' 15 5))
  | 0x49 =>
    if x.extractLsb' 0 10 == 0#10 then fields0 (x.extractLsb' 20 5 == 0#5 && x.extractLsb' 10 5 == 0#5) (.refnow (x.extractLsb' 15 5)) else
    if x.extractLsb' 0 10 == 1#10 then fields0 (x.extractLsb' 20 5 == 0#5 && x.extractLsb' 15 5 == 0#5 && x.extractLsb' 10 5 == 0#5) (.refnowAll) else
    .error .badValue
  | _ => .error .emptyOpcode

/-- A microinstruction of a near-bank unit (R277). -/
def microWord (w : W32) : Except DecodeError Instr :=
  let o : MicroForm := { acc := w.extractLsb' 27 2, rsel := w.extractLsb' 24 2, off := w.extractLsb' 0 24 }
  let noRow := w.extractLsb' 24 3 == 0#3 && w.extractLsb' 0 24 == 0#24
  let row := w.extractLsb' 26 1 == 0#1
  match (w.extractLsb' 29 3).toNat with
  | 0 => fields0 noRow .nbEnd
  | 1 => fields0 row (.loadacc o)
  | 2 => fields0 row (.accop o)
  | 3 => fields0 row (.sacc o)
  | 4 => fields0 row (.nbStore o)
  | 5 => fields0 noRow (.nbClear o.acc)
  | 6 => fields0 row (.minmax o)
  | _ => .error .emptyOpcode

/-- A near-bank command packet (R276): the header's reserved bits must be zero; its values are judged when it starts. -/
def packetWords (h : W32) (ws : Vector W32 7) : Except DecodeError Instr :=
  let p : NbForm := { dn := bitAt h 19, opf := h.extractLsb' 16 2, nrow := h.extractLsb' 10 5, typ := h.extractLsb' 6 4,
                      acc := h.extractLsb' 4 2, words := ws }
  let z := h.extractLsb' 20 12 == 0#12 && h.extractLsb' 18 1 == 0#1 && h.extractLsb' 15 1 == 0#1
  match (h.extractLsb' 0 4).toNat with
  | 1 => fields0 z (.reduce p)
  | 2 => fields0 z (.scaleacc p)
  | 3 => fields0 z (.cmpxchg p)
  | 4 => fields0 z (.idxreduce p)
  | 5 => fields0 z (.accwb p)
  | 6 => fields0 z (.accclr p)
  | 7 => fields0 z (.uprog p)
  | _ => .error .emptyOpcode

/-- A filter instruction (R409). -/
def filterWord (w : W64) : Except DecodeError Instr :=
  let d := w.extractLsb' 53 3
  let a := w.extractLsb' 50 3
  let b := w.extractLsb' 47 3
  let imm := w.extractLsb' 0 32
  let r := w.extractLsb' 32 15 == 0#15
  let d0 := d == 0#3
  let a0 := a == 0#3
  let b0 := b == 0#3
  let i0 := imm == 0#32
  match (w.extractLsb' 56 8).toNat with
  | 0x01 => fields0 (r && a0 && b0) (.fltLdf d imm)
  | 0x02 => fields0 (r && a0 && b0) (.fltLdi d imm)
  | 0x03 => fields0 (r && i0) (.fltAdd d a b)
  | 0x04 => fields0 (r && i0) (.fltSub d a b)
  | 0x05 => fields0 (r && i0) (.fltAnd d a b)
  | 0x06 => fields0 (r && i0) (.fltOr d a b)
  | 0x07 => fields0 (r && i0) (.fltXor d a b)
  | 0x08 => fields0 (r && b0) (.fltShl d a imm)
  | 0x09 => fields0 (r && b0) (.fltShr d a imm)
  | 0x0A => fields0 (r && b0) (.fltAndi d a imm)
  | 0x0B => fields0 (r && b0) (.fltAddi d a imm)
  | 0x10 => fields0 (r && d0) (.fltBeq a b imm)
  | 0x11 => fields0 (r && d0) (.fltBne a b imm)
  | 0x12 => fields0 (r && d0) (.fltBltu a b imm)
  | 0x13 => fields0 (r && d0) (.fltBlt a b imm)
  | 0x18 => fields0 (r && d0 && b0) (.fltCadd a imm)
  | 0x20 => fields0 (r && d0 && a0 && b0) (.fltVerd imm)
  | _ => .error .emptyOpcode

/-! ## The decoders -/

/-- The syllables of a bundle (R92). -/
inductive Slot where
  | c | a | b | e
deriving DecidableEq, Repr

/-- The number a fault reports for a slot (R377). -/
def Slot.num : Slot → Nat
  | .c => 0
  | .a => 1
  | .b => 2
  | .e => 3

/-- One syllable of a bundle. -/
def decodeSlot (sl : Slot) (w : W32) : Except DecodeError Instr :=
  let op := (w.extractLsb' 25 7).toNat
  let x := w.extractLsb' 0 25
  checked (match sl with
    | .c => slotC op x
    | .a => slotA op x
    | .b => slotB op x
    | .e => slotE op x)

def decodeMicro (w : W32) : Except DecodeError Instr := checked (microWord w)

def decodePacket (h : W32) (ws : Vector W32 7) : Except DecodeError Instr := checked (packetWords h ws)

def decodeFilter (w : W64) : Except DecodeError Instr := checked (filterWord w)

/-- The syllable of a bundle that a slot executes: C in bits 31:0, A in 63:32, B in 95:64, E in 127:96 (R92). -/
def syllableOf (b : BitVec 128) : Slot → W32
  | .c => b.extractLsb' 0 32
  | .a => b.extractLsb' 32 32
  | .b => b.extractLsb' 64 32
  | .e => b.extractLsb' 96 32

/-- A whole bundle, or the first slot in the order C, A, B, E whose encoding is illegal (R112). -/
def decodeBundle (b : BitVec 128) : Except (Slot × DecodeError) (Instr × Instr × Instr × Instr) :=
  match decodeSlot .c (syllableOf b .c) with
  | .error e => .error (.c, e)
  | .ok c =>
    match decodeSlot .a (syllableOf b .a) with
    | .error e => .error (.a, e)
    | .ok a =>
      match decodeSlot .b (syllableOf b .b) with
      | .error e => .error (.b, e)
      | .ok x =>
        match decodeSlot .e (syllableOf b .e) with
        | .error e => .error (.e, e)
        | .ok y => .ok (c, a, x, y)

/-- A bundle with one syllable and no-operations in its other slots. -/
def bundleWith (sl : Slot) (w : W32) : BitVec 128 :=
  match sl with
  | .c => 0#96 ++ w
  | .a => 0#64 ++ w ++ 0#32
  | .b => 0#32 ++ w ++ 0#64
  | .e => w ++ 0#96

/-- A table word alone does not say which slot it stands in: the first of the slots C, A, B, E whose decoder accepts it
(log entry 10). A wider word is a bundle whose only other syllables are no-operations. -/
def tableSlot (nbits w : Nat) : Option (Slot × W32) :=
  if nbits ≤ 32 then
    let x : W32 := BitVec.ofNat 32 w
    match decodeSlot .c x, decodeSlot .a x, decodeSlot .b x, decodeSlot .e x with
    | .ok _, _, _, _ => some (.c, x)
    | _, .ok _, _, _ => some (.a, x)
    | _, _, .ok _, _ => some (.b, x)
    | _, _, _, .ok _ => some (.e, x)
    | _, _, _, _ => none
  else if nbits ≤ 64 then some (.a, BitVec.ofNat 32 (w >>> 32))
  else if nbits ≤ 96 then some (.b, BitVec.ofNat 32 (w >>> 64))
  else some (.e, BitVec.ofNat 32 (w >>> 96))

/-- The instruction of a table word: a syllable, or else a microinstruction. -/
def decodeTableWord (nbits w : Nat) : Option Instr :=
  match tableSlot nbits w with
  | some (sl, x) => (decodeSlot sl x).toOption
  | none => (decodeMicro (BitVec.ofNat 32 w)).toOption

/-! ## The encoder -/

/-- The slot of a syllable; none for anything that is no syllable of a bundle. -/
def slotOf : Instr → Option Slot
  | .nop _ | .add _ | .sub _ | .mul _ | .mulh _ | .mulhu _ | .div _ | .divu _ | .rem _ | .remu _ | .and _ | .or _
  | .xor _ | .andn _ | .shl _ | .shr _ | .shra _ | .rot _ | .min _ | .max _ | .minu _ | .maxu _ | .clz _ | .ctz _
  | .popc _ | .sel _ | .addi _ | .andi _ | .ori _ | .xori _ | .shli _ | .shri _ | .shrai _ | .lih _ | .cmpeqi _
  | .cmplti _ | .cmpltui _ | .cmpeq _ | .cmpne _ | .cmplt _ | .cmpltu _ | .cmple _ | .cmpleu _ | .cand _ | .cor _
  | .cxor _ | .lds _ | .sts _ | .ldg _ | .stg _ | .amoadd _ | .amomin _ | .amomax _ | .amoand _ | .amoor _
  | .amoxch _ | .amocas _ | .fence _ _ | .br _ | .jmp _ | .call _ | .ret _ | .loop _ _ _ | .endTask _ | .rep _ _ _
  | .mark _ _ | .trap _ _ | .tret _ | .tfence _ | .launch _ | .sfmt _ | .mfc _ _ _ _ | .mtc _ _ _ _ | .setvl _
  | .setcm _ _ _ _ | .lovt _ | .tlbinv _ | .tlbinvAsid _ _ _ _ | .tlbinvAll _ _ _ => some .c
  | .nopA | .vadd _ | .vsub _ | .vmul _ | .vfma _ | .vfms _ | .vfnma _ | .vmin _ | .vmax _ | .vabs _ | .vneg _
  | .vdiv _ | .vsqrt _ _ | .vrsq _ _ | .vrcp _ | .vexp _ | .vlog _ | .vsin _ | .vcos _ | .vtanh _ | .vrint _ _
  | .viadd _ | .visub _ | .vimul _ | .vimulh _ | .vimin _ | .vimax _ | .viminu _ | .vimaxu _ | .vand _ | .vor _
  | .vxor _ | .vshl _ | .vshr _ | .vshra _ | .viabs _ | .vcmp _ | .vicmp _ | .kand _ | .kor _ | .kxor _ | .knot _ _ _
  | .kfirst _ _ _ | .kcnt _ _ _ | .vsel _ | .vcoal _ _ | .vcoalq _ _ | .vrlset _ | .vsplat _ _ _ | .vruns _ _ _
  | .vrunsK _ _ _ | .vlen _ _ _ | .vlenK _ _ _ | .vtrim _ | .vtrimDrop _ | .vcat _ | .vrsum _ | .vrmax _ | .vrmin _
  | .vrisum _ | .vrimax _ | .vrimin _ | .vdot _ _ => some .a
  | .nopB | .vld _ | .vst _ | .vlds _ | .vsts _ | .vldx _ | .vstx _ | .vldrl _ _ _ _ _ | .vstrl _ _ _ _ | .kld _
  | .kst _ | .vcur _ _ _ _ | .vrd _ | .vwr _ | .vmov _ | .vmvs _ _ _ _ | .vmvx _ _ _ _ | .vxc _ _ | .vslide _ _
  | .vrev _ | .vcvt _ | .vclass _ | .twr _ | .trc _ | .trr _ | .tclr _ _ | .vshift _ => some .b
  | .nopE | .eset _ _ _ | .eget _ _ _ | .ewait _ _ | .wopen _ | .wopenBind _ | .wopenKeep _ | .wadv _ _ | .wwait _ _
  | .wwaitDone _ | .wclose _ | .rstat _ _ | .wflush _ | .bcfill | .bcfillRing _ | .bcwait _ | .bcwaitAll | .mma _
  | .mmv _ | .mldb | .mdrain _ | .mswap | .mclr _ _ | .mflags _ _ _ | .xsend _ _ _ | .xwr _ _ _ _ | .xrd _ _ _ _
  | .xbar | .xbarRow | .xbarCol | .dcopy | .dcopyMt | .dcopyTm | .dpub _ _ _ | .dwait | .fload | .fbind | .fstat _
  | .nbcmd _ _ | .nbpoll _ _ | .nbfence | .hsig _ _ _ | .trace _ _ _ | .snap _ | .refdefer _ | .refnow _ | .refnowAll => some .e
  | _ => none

/-- The 32-bit word of a syllable or a microinstruction, from the layouts of R92 to R96 and R277. -/
def encodeWord : Instr → W32
  | .nop f => 0x00#7 ++ (0#24 ++ BitVec.ofBool f : BitVec 25)
  | .add o => 0x01#7 ++ (o.bits : BitVec 25)
  | .sub o => 0x02#7 ++ (o.bits : BitVec 25)
  | .mul o => 0x03#7 ++ (o.bits : BitVec 25)
  | .mulh o => 0x04#7 ++ (o.bits : BitVec 25)
  | .mulhu o => 0x05#7 ++ (o.bits : BitVec 25)
  | .div o => 0x06#7 ++ (o.bits : BitVec 25)
  | .divu o => 0x07#7 ++ (o.bits : BitVec 25)
  | .rem o => 0x08#7 ++ (o.bits : BitVec 25)
  | .remu o => 0x09#7 ++ (o.bits : BitVec 25)
  | .and o => 0x0A#7 ++ (o.bits : BitVec 25)
  | .or o => 0x0B#7 ++ (o.bits : BitVec 25)
  | .xor o => 0x0C#7 ++ (o.bits : BitVec 25)
  | .andn o => 0x0D#7 ++ (o.bits : BitVec 25)
  | .shl o => 0x0E#7 ++ (o.bits : BitVec 25)
  | .shr o => 0x0F#7 ++ (o.bits : BitVec 25)
  | .shra o => 0x10#7 ++ (o.bits : BitVec 25)
  | .rot o => 0x11#7 ++ (o.bits : BitVec 25)
  | .min o => 0x12#7 ++ (o.bits : BitVec 25)
  | .max o => 0x13#7 ++ (o.bits : BitVec 25)
  | .minu o => 0x14#7 ++ (o.bits : BitVec 25)
  | .maxu o => 0x15#7 ++ (o.bits : BitVec 25)
  | .clz o => 0x16#7 ++ (o.bits : BitVec 25)
  | .ctz o => 0x17#7 ++ (o.bits : BitVec 25)
  | .popc o => 0x18#7 ++ (o.bits : BitVec 25)
  | .sel o => 0x19#7 ++ (o.bits : BitVec 25)
  | .addi o => 0x20#7 ++ (o.bits : BitVec 25)
  | .andi o => 0x21#7 ++ (o.bits : BitVec 25)
  | .ori o => 0x22#7 ++ (o.bits : BitVec 25)
  | .xori o => 0x23#7 ++ (o.bits : BitVec 25)
  | .shli o => 0x24#7 ++ (o.bits : BitVec 25)
  | .shri o => 0x25#7 ++ (o.bits : BitVec 25)
  | .shrai o => 0x26#7 ++ (o.bits : BitVec 25)
  | .lih o => 0x27#7 ++ (o.bits : BitVec 25)
  | .cmpeqi o => 0x28#7 ++ (o.bits : BitVec 25)
  | .cmplti o => 0x29#7 ++ (o.bits : BitVec 25)
  | .cmpltui o => 0x2A#7 ++ (o.bits : BitVec 25)
  | .cmpeq o => 0x30#7 ++ (o.bits : BitVec 25)
  | .cmpne o => 0x31#7 ++ (o.bits : BitVec 25)
  | .cmplt o => 0x32#7 ++ (o.bits : BitVec 25)
  | .cmpltu o => 0x33#7 ++ (o.bits : BitVec 25)
  | .cmple o => 0x34#7 ++ (o.bits : BitVec 25)
  | .cmpleu o => 0x35#7 ++ (o.bits : BitVec 25)
  | .cand o => 0x36#7 ++ (o.bits : BitVec 25)
  | .cor o => 0x37#7 ++ (o.bits : BitVec 25)
  | .cxor o => 0x38#7 ++ (o.bits : BitVec 25)
  | .lds o => 0x40#7 ++ (o.bits : BitVec 25)
  | .sts o => 0x41#7 ++ (o.bits : BitVec 25)
  | .ldg o => 0x42#7 ++ (o.bits : BitVec 25)
  | .stg o => 0x43#7 ++ (o.bits : BitVec 25)
  | .amoadd o => 0x44#7 ++ (o.bits : BitVec 25)
  | .amomin o => 0x45#7 ++ (o.bits : BitVec 25)
  | .amomax o => 0x46#7 ++ (o.bits : BitVec 25)
  | .amoand o => 0x47#7 ++ (o.bits : BitVec 25)
  | .amoor o => 0x48#7 ++ (o.bits : BitVec 25)
  | .amoxch o => 0x49#7 ++ (o.bits : BitVec 25)
  | .amocas o => 0x4A#7 ++ (o.bits : BitVec 25)
  | .fence scope f => 0x4B#7 ++ (0#22 ++ scope ++ BitVec.ofBool f : BitVec 25)
  | .br o => 0x50#7 ++ (o.bits : BitVec 25)
  | .jmp o => 0x51#7 ++ (o.bits : BitVec 25)
  | .call o => 0x52#7 ++ (o.bits : BitVec 25)
  | .ret o => 0x53#7 ++ (o.bits : BitVec 25)
  | .loop d imm f => 0x54#7 ++ (d ++ 0#5 ++ imm ++ BitVec.ofBool f : BitVec 25)
  | .endTask f => 0x55#7 ++ (0#24 ++ BitVec.ofBool f : BitVec 25)
  | .rep m n f => 0x56#7 ++ (0#5 ++ 0#5 ++ 0#2 ++ m ++ n ++ BitVec.ofBool f : BitVec 25)
  | .mark e f => 0x57#7 ++ (0#4 ++ e ++ BitVec.ofBool f : BitVec 25)
  | .trap imm f => 0x58#7 ++ (0#5 ++ 0#5 ++ imm ++ BitVec.ofBool f : BitVec 25)
  | .tret f => 0x59#7 ++ (0#24 ++ BitVec.ofBool f : BitVec 25)
  | .tfence f => 0x5A#7 ++ (0#24 ++ BitVec.ofBool f : BitVec 25)
  | .launch o => 0x5B#7 ++ (o.bits : BitVec 25)
  | .sfmt o => 0x60#7 ++ (o.bits : BitVec 25)
  | .mfc r x c f => 0x61#7 ++ (r ++ 0#5 ++ 0#4 ++ x ++ c ++ BitVec.ofBool f : BitVec 25)
  | .mtc r x c f => 0x62#7 ++ (0#5 ++ r ++ 0#4 ++ x ++ c ++ BitVec.ofBool f : BitVec 25)
  | .setvl o => 0x63#7 ++ (o.bits : BitVec 25)
  | .setcm r a imm f => 0x64#7 ++ (0#4 ++ BitVec.ofBool r ++ a ++ 0#6 ++ imm ++ BitVec.ofBool f : BitVec 25)
  | .lovt o => 0x70#7 ++ (o.bits : BitVec 25)
  | .tlbinv o => 0x71#7 ++ (o.bits : BitVec 25)
  | .tlbinvAsid b n q f => 0x71#7 ++ (0#5 ++ 0#5 ++ b ++ 1#5 ++ BitVec.ofBool n ++ q ++ BitVec.ofBool f : BitVec 25)
  | .tlbinvAll n q f => 0x71#7 ++ (0#5 ++ 0#5 ++ 0#5 ++ 2#5 ++ BitVec.ofBool n ++ q ++ BitVec.ofBool f : BitVec 25)
  | .nopA => 0x00#7 ++ (0#25 : BitVec 25)
  | .vadd o => 0x01#7 ++ (o.bits : BitVec 25)
  | .vsub o => 0x02#7 ++ (o.bits : BitVec 25)
  | .vmul o => 0x03#7 ++ (o.bits : BitVec 25)
  | .vfma o => 0x04#7 ++ (o.bits : BitVec 25)
  | .vfms o => 0x05#7 ++ (o.bits : BitVec 25)
  | .vfnma o => 0x06#7 ++ (o.bits : BitVec 25)
  | .vmin o => 0x07#7 ++ (o.bits : BitVec 25)
  | .vmax o => 0x08#7 ++ (o.bits : BitVec 25)
  | .vabs o => 0x09#7 ++ (o.bits : BitVec 25)
  | .vneg o => 0x0A#7 ++ (o.bits : BitVec 25)
  | .vdiv o => 0x0B#7 ++ (o.bits : BitVec 25)
  | .vsqrt o p => 0x0C#7 ++ (o.d ++ o.a ++ 0#5 ++ o.k ++ o.cl ++ BitVec.ofBool o.z ++ 0#1 ++ 0#2 ++ BitVec.ofBool p : BitVec 25)
  | .vrsq o p => 0x0D#7 ++ (o.d ++ o.a ++ 0#5 ++ o.k ++ o.cl ++ BitVec.ofBool o.z ++ 0#1 ++ 0#2 ++ BitVec.ofBool p : BitVec 25)
  | .vrcp o => 0x0E#7 ++ (o.bits : BitVec 25)
  | .vexp o => 0x0F#7 ++ (o.bits : BitVec 25)
  | .vlog o => 0x10#7 ++ (o.bits : BitVec 25)
  | .vsin o => 0x11#7 ++ (o.bits : BitVec 25)
  | .vcos o => 0x12#7 ++ (o.bits : BitVec 25)
  | .vtanh o => 0x13#7 ++ (o.bits : BitVec 25)
  | .vrint o x => 0x14#7 ++ (o.d ++ o.a ++ 0#5 ++ o.k ++ o.cl ++ BitVec.ofBool o.z ++ 0#1 ++ x : BitVec 25)
  | .viadd o => 0x20#7 ++ (o.bits : BitVec 25)
  | .visub o => 0x21#7 ++ (o.bits : BitVec 25)
  | .vimul o => 0x22#7 ++ (o.bits : BitVec 25)
  | .vimulh o => 0x23#7 ++ (o.bits : BitVec 25)
  | .vimin o => 0x24#7 ++ (o.bits : BitVec 25)
  | .vimax o => 0x25#7 ++ (o.bits : BitVec 25)
  | .viminu o => 0x26#7 ++ (o.bits : BitVec 25)
  | .vimaxu o => 0x27#7 ++ (o.bits : BitVec 25)
  | .vand o => 0x28#7 ++ (o.bits : BitVec 25)
  | .vor o => 0x29#7 ++ (o.bits : BitVec 25)
  | .vxor o => 0x2A#7 ++ (o.bits : BitVec 25)
  | .vshl o => 0x2B#7 ++ (o.bits : BitVec 25)
  | .vshr o => 0x2C#7 ++ (o.bits : BitVec 25)
  | .vshra o => 0x2D#7 ++ (o.bits : BitVec 25)
  | .viabs o => 0x2E#7 ++ (o.bits : BitVec 25)
  | .vcmp o => 0x30#7 ++ (o.bits : BitVec 25)
  | .vicmp o => 0x31#7 ++ (o.bits : BitVec 25)
  | .kand o => 0x38#7 ++ (o.bits : BitVec 25)
  | .kor o => 0x39#7 ++ (o.bits : BitVec 25)
  | .kxor o => 0x3A#7 ++ (o.bits : BitVec 25)
  | .knot d a cl => 0x3B#7 ++ (0#2 ++ d ++ 0#2 ++ a ++ 0#5 ++ 0#3 ++ cl ++ 0#5 : BitVec 25)
  | .kfirst d a cl => 0x3C#7 ++ (0#2 ++ d ++ 0#2 ++ a ++ 0#5 ++ 0#3 ++ cl ++ 0#5 : BitVec 25)
  | .kcnt d a cl => 0x3D#7 ++ (d ++ 0#2 ++ a ++ 0#5 ++ 0#3 ++ cl ++ 0#5 : BitVec 25)
  | .vsel o => 0x40#7 ++ (o.bits : BitVec 25)
  | .vcoal o p => 0x48#7 ++ (o.d ++ o.a ++ 0#5 ++ o.k ++ o.cl ++ BitVec.ofBool o.z ++ 0#1 ++ 0#2 ++ BitVec.ofBool p : BitVec 25)
  | .vcoalq o i => 0x49#7 ++ (o.d ++ o.a ++ o.b ++ 0#3 ++ o.cl ++ 0#1 ++ 1#1 ++ 0#2 ++ BitVec.ofBool i : BitVec 25)
  | .vrlset o => 0x4A#7 ++ (o.d ++ o.a ++ o.b ++ 0#3 ++ o.cl ++ 0#1 ++ 1#1 ++ 0#3 : BitVec 25)
  | .vsplat d b cl => 0x4B#7 ++ (d ++ 0#5 ++ b ++ 0#3 ++ cl ++ 0#1 ++ 1#1 ++ 0#3 : BitVec 25)
  | .vruns d a cl => 0x4C#7 ++ (d ++ a ++ 0#5 ++ 0#3 ++ cl ++ 0#1 ++ 0#1 ++ 0#3 : BitVec 25)
  | .vrunsK d a cl => 0x4C#7 ++ (d ++ 0#2 ++ a ++ 0#5 ++ 0#3 ++ cl ++ 0#1 ++ 0#1 ++ 1#3 : BitVec 25)
  | .vlen d a cl => 0x4D#7 ++ (d ++ a ++ 0#5 ++ 0#3 ++ cl ++ 0#1 ++ 0#1 ++ 0#3 : BitVec 25)
  | .vlenK d a cl => 0x4D#7 ++ (d ++ 0#2 ++ a ++ 0#5 ++ 0#3 ++ cl ++ 0#1 ++ 0#1 ++ 1#3 : BitVec 25)
  | .vtrim o => 0x4E#7 ++ (o.d ++ o.a ++ o.b ++ 0#3 ++ o.cl ++ 0#1 ++ 1#1 ++ 0#3 : BitVec 25)
  | .vtrimDrop o => 0x4E#7 ++ (o.d ++ o.a ++ o.b ++ 0#3 ++ o.cl ++ 0#1 ++ 1#1 ++ 1#3 : BitVec 25)
  | .vcat o => 0x4F#7 ++ (o.bits : BitVec 25)
  | .vrsum o => 0x58#7 ++ (o.bits : BitVec 25)
  | .vrmax o => 0x59#7 ++ (o.bits : BitVec 25)
  | .vrmin o => 0x5A#7 ++ (o.bits : BitVec 25)
  | .vrisum o => 0x5B#7 ++ (o.bits : BitVec 25)
  | .vrimax o => 0x5C#7 ++ (o.bits : BitVec 25)
  | .vrimin o => 0x5D#7 ++ (o.bits : BitVec 25)
  | .vdot o b => 0x5E#7 ++ (o.d ++ o.a ++ b ++ o.k ++ o.cl ++ 0#2 ++ 0#2 ++ BitVec.ofBool o.t : BitVec 25)
  | .nopB => 0x00#7 ++ (0#25 : BitVec 25)
  | .vld o => 0x01#7 ++ (o.bits : BitVec 25)
  | .vst o => 0x02#7 ++ (o.bits : BitVec 25)
  | .vlds o => 0x03#7 ++ (o.bits : BitVec 25)
  | .vsts o => 0x04#7 ++ (o.bits : BitVec 25)
  | .vldx o => 0x05#7 ++ (o.bits : BitVec 25)
  | .vstx o => 0x06#7 ++ (o.bits : BitVec 25)
  | .vldrl d k cl fe y => 0x07#7 ++ (d ++ 0#5 ++ 0#5 ++ k ++ cl ++ 0#1 ++ fe ++ y : BitVec 25)
  | .vstrl d cl fe y => 0x08#7 ++ (d ++ 0#5 ++ 0#5 ++ 0#3 ++ cl ++ 0#2 ++ BitVec.ofBool fe ++ y : BitVec 25)
  | .kld o => 0x09#7 ++ (o.bits : BitVec 25)
  | .kst o => 0x0A#7 ++ (o.bits : BitVec 25)
  | .vcur a b cl y => 0x0B#7 ++ (0#5 ++ a ++ b ++ 0#3 ++ cl ++ 0#3 ++ y : BitVec 25)
  | .vrd o => 0x10#7 ++ (o.bits : BitVec 25)
  | .vwr o => 0x11#7 ++ (o.bits : BitVec 25)
  | .vmov o => 0x18#7 ++ (o.bits : BitVec 25)
  | .vmvs d a k cl => 0x19#7 ++ (d ++ a ++ 0#5 ++ k ++ cl ++ 0#5 : BitVec 25)
  | .vmvx d a v cl => 0x1A#7 ++ (d ++ a ++ 0#5 ++ 0#3 ++ cl ++ v : BitVec 25)
  | .vxc o a => 0x1B#7 ++ (o.d ++ a ++ 0#5 ++ o.k ++ o.cl ++ o.v : BitVec 25)
  | .vslide o a => 0x1C#7 ++ (o.d ++ a ++ 0#5 ++ o.k ++ o.cl ++ o.v : BitVec 25)
  | .vrev o => 0x1D#7 ++ (o.bits : BitVec 25)
  | .vcvt o => 0x20#7 ++ (o.bits : BitVec 25)
  | .vclass o => 0x22#7 ++ (o.bits : BitVec 25)
  | .twr o => 0x28#7 ++ (o.bits : BitVec 25)
  | .trc o => 0x29#7 ++ (o.bits : BitVec 25)
  | .trr o => 0x2A#7 ++ (o.bits : BitVec 25)
  | .tclr cl t => 0x2B#7 ++ (0#5 ++ 0#5 ++ 0#5 ++ 0#3 ++ cl ++ 0#3 ++ t : BitVec 25)
  | .vshift o => 0x30#7 ++ (o.bits : BitVec 25)
  | .nopE => 0x00#7 ++ (0#25 : BitVec 25)
  | .eset e a i => 0x01#7 ++ (e ++ a ++ 0#5 ++ 0#5 ++ i : BitVec 25)
  | .eget e a i => 0x02#7 ++ (e ++ a ++ 0#5 ++ 0#5 ++ i : BitVec 25)
  | .ewait e n => 0x03#7 ++ (e ++ 0#5 ++ 0#5 ++ 0#7 ++ n : BitVec 25)
  | .wopen h => 0x08#7 ++ (0#1 ++ h ++ 0#5 ++ 0#5 ++ 0#10 : BitVec 25)
  | .wopenBind h => 0x08#7 ++ (0#1 ++ h ++ 0#5 ++ 0#5 ++ 1#10 : BitVec 25)
  | .wopenKeep h => 0x08#7 ++ (0#1 ++ h ++ 0#5 ++ 0#5 ++ 2#10 : BitVec 25)
  | .wadv h a => 0x09#7 ++ (0#1 ++ h ++ a ++ 0#5 ++ 0#10 : BitVec 25)
  | .wwait h a => 0x0A#7 ++ (0#1 ++ h ++ a ++ 0#5 ++ 0#10 : BitVec 25)
  | .wwaitDone h => 0x0A#7 ++ (0#1 ++ h ++ 0#5 ++ 0#5 ++ 1#10 : BitVec 25)
  | .wclose h => 0x0B#7 ++ (0#1 ++ h ++ 0#5 ++ 0#5 ++ 0#10 : BitVec 25)
  | .rstat h a => 0x0C#7 ++ (0#1 ++ h ++ a ++ 0#5 ++ 0#10 : BitVec 25)
  | .wflush h => 0x0D#7 ++ (0#1 ++ h ++ 0#5 ++ 0#5 ++ 0#10 : BitVec 25)
  | .bcfill => 0x10#7 ++ (0#5 ++ 0#5 ++ 0#5 ++ 0#5 ++ 0#1 ++ 0#4 : BitVec 25)
  | .bcfillRing h => 0x10#7 ++ (0#5 ++ 0#5 ++ 0#5 ++ 0#5 ++ 1#1 ++ h : BitVec 25)
  | .bcwait a => 0x11#7 ++ (0#5 ++ a ++ 0#5 ++ 0#10 : BitVec 25)
  | .bcwaitAll => 0x11#7 ++ (0#5 ++ 0#5 ++ 0#5 ++ 1#10 : BitVec 25)
  | .mma bank => 0x18#7 ++ (0#4 ++ BitVec.ofBool bank ++ 0#5 ++ 0#5 ++ 0#10 : BitVec 25)
  | .mmv bank => 0x19#7 ++ (0#4 ++ BitVec.ofBool bank ++ 0#5 ++ 0#5 ++ 0#10 : BitVec 25)
  | .mldb => 0x1A#7 ++ (0#5 ++ 0#5 ++ 0#5 ++ 0#10 : BitVec 25)
  | .mdrain bank => 0x1B#7 ++ (0#4 ++ BitVec.ofBool bank ++ 0#5 ++ 0#5 ++ 0#10 : BitVec 25)
  | .mswap => 0x1C#7 ++ (0#5 ++ 0#5 ++ 0#5 ++ 0#10 : BitVec 25)
  | .mclr bank q => 0x1D#7 ++ (0#4 ++ BitVec.ofBool bank ++ 0#5 ++ 0#5 ++ 0#8 ++ q : BitVec 25)
  | .mflags bank a c => 0x1E#7 ++ (0#4 ++ BitVec.ofBool bank ++ a ++ 0#5 ++ 0#9 ++ BitVec.ofBool c : BitVec 25)
  | .xsend h a b => 0x20#7 ++ (0#1 ++ h ++ a ++ b ++ 0#10 : BitVec 25)
  | .xwr a b m l => 0x21#7 ++ (0#5 ++ a ++ b ++ 0#4 ++ m ++ l : BitVec 25)
  | .xrd a b m l => 0x22#7 ++ (0#5 ++ a ++ b ++ 0#4 ++ m ++ l : BitVec 25)
  | .xbar => 0x23#7 ++ (0#5 ++ 0#5 ++ 0#5 ++ 0#10 : BitVec 25)
  | .xbarRow => 0x23#7 ++ (0#5 ++ 0#5 ++ 0#5 ++ 1#10 : BitVec 25)
  | .xbarCol => 0x23#7 ++ (0#5 ++ 0#5 ++ 0#5 ++ 2#10 : BitVec 25)
  | .dcopy => 0x28#7 ++ (0#5 ++ 0#5 ++ 0#5 ++ 0#10 : BitVec 25)
  | .dcopyMt => 0x28#7 ++ (0#5 ++ 0#5 ++ 0#5 ++ 1#10 : BitVec 25)
  | .dcopyTm => 0x28#7 ++ (0#5 ++ 0#5 ++ 0#5 ++ 2#10 : BitVec 25)
  | .dpub a b n => 0x29#7 ++ (0#5 ++ a ++ b ++ 0#4 ++ n : BitVec 25)
  | .dwait => 0x2A#7 ++ (0#5 ++ 0#5 ++ 0#5 ++ 0#10 : BitVec 25)
  | .fload => 0x30#7 ++ (0#5 ++ 0#5 ++ 0#5 ++ 0#10 : BitVec 25)
  | .fbind => 0x31#7 ++ (0#5 ++ 0#5 ++ 0#5 ++ 0#10 : BitVec 25)
  | .fstat a => 0x32#7 ++ (0#5 ++ a ++ 0#5 ++ 0#10 : BitVec 25)
  | .nbcmd a b => 0x38#7 ++ (0#5 ++ a ++ b ++ 0#10 : BitVec 25)
  | .nbpoll a b => 0x39#7 ++ (0#5 ++ a ++ b ++ 0#10 : BitVec 25)
  | .nbfence => 0x3A#7 ++ (0#5 ++ 0#5 ++ 0#5 ++ 0#10 : BitVec 25)
  | .hsig a b v => 0x40#7 ++ (0#5 ++ a ++ b ++ v : BitVec 25)
  | .trace a b v => 0x41#7 ++ (0#5 ++ a ++ b ++ v : BitVec 25)
  | .snap c => 0x42#7 ++ (0#5 ++ 0#5 ++ 0#5 ++ 0#2 ++ c : BitVec 25)
  | .refdefer a => 0x48#7 ++ (0#5 ++ a ++ 0#5 ++ 0#10 : BitVec 25)
  | .refnow a => 0x49#7 ++ (0#5 ++ a ++ 0#5 ++ 0#10 : BitVec 25)
  | .refnowAll => 0x49#7 ++ (0#5 ++ 0#5 ++ 0#5 ++ 1#10 : BitVec 25)
  | .nbEnd => 0#32
  | .loadacc o => 1#3 ++ o.acc ++ 0#1 ++ o.rsel ++ o.off
  | .accop o => 2#3 ++ o.acc ++ 0#1 ++ o.rsel ++ o.off
  | .sacc o => 3#3 ++ o.acc ++ 0#1 ++ o.rsel ++ o.off
  | .nbStore o => 4#3 ++ o.acc ++ 0#1 ++ o.rsel ++ o.off
  | .nbClear acc => 5#3 ++ acc ++ 0#27
  | .minmax o => 6#3 ++ o.acc ++ 0#1 ++ o.rsel ++ o.off
  | _ => 0#32

/-- The header word of a near-bank command (R276). -/
def NbForm.header (p : NbForm) (cmd : BitVec 4) : W32 :=
  0#12 ++ BitVec.ofBool p.dn ++ 0#1 ++ p.opf ++ 0#1 ++ p.nrow ++ p.typ ++ p.acc ++ cmd

/-- A filter instruction's word (R409). -/
def encodeFilter : Instr → W64
  | .fltLdf d off => 0x01#8 ++ d ++ 0#21 ++ off
  | .fltLdi d imm => 0x02#8 ++ d ++ 0#21 ++ imm
  | .fltAdd d a b => 0x03#8 ++ d ++ a ++ b ++ 0#47
  | .fltSub d a b => 0x04#8 ++ d ++ a ++ b ++ 0#47
  | .fltAnd d a b => 0x05#8 ++ d ++ a ++ b ++ 0#47
  | .fltOr d a b => 0x06#8 ++ d ++ a ++ b ++ 0#47
  | .fltXor d a b => 0x07#8 ++ d ++ a ++ b ++ 0#47
  | .fltShl d a imm => 0x08#8 ++ d ++ a ++ 0#18 ++ imm
  | .fltShr d a imm => 0x09#8 ++ d ++ a ++ 0#18 ++ imm
  | .fltAndi d a imm => 0x0A#8 ++ d ++ a ++ 0#18 ++ imm
  | .fltAddi d a imm => 0x0B#8 ++ d ++ a ++ 0#18 ++ imm
  | .fltBeq a b imm => 0x10#8 ++ 0#3 ++ a ++ b ++ 0#15 ++ imm
  | .fltBne a b imm => 0x11#8 ++ 0#3 ++ a ++ b ++ 0#15 ++ imm
  | .fltBltu a b imm => 0x12#8 ++ 0#3 ++ a ++ b ++ 0#15 ++ imm
  | .fltBlt a b imm => 0x13#8 ++ 0#3 ++ a ++ b ++ 0#15 ++ imm
  | .fltCadd a imm => 0x18#8 ++ 0#3 ++ a ++ 0#18 ++ imm
  | .fltVerd imm => 0x20#8 ++ 0#24 ++ imm
  | _ => 0#64

/-- The words of an instruction, lowest address first; none for a device event. -/
def encode (i : Instr) : List W32 :=
  match i with
  | .nbEnd | .loadacc _ | .accop _ | .sacc _ | .nbStore _ | .nbClear _ | .minmax _ => [encodeWord i]
  | .reduce p => p.header 1#4 :: p.words.toList
  | .scaleacc p => p.header 2#4 :: p.words.toList
  | .cmpxchg p => p.header 3#4 :: p.words.toList
  | .idxreduce p => p.header 4#4 :: p.words.toList
  | .accwb p => p.header 5#4 :: p.words.toList
  | .accclr p => p.header 6#4 :: p.words.toList
  | .uprog p => p.header 7#4 :: p.words.toList
  | .fltLdf _ _ | .fltLdi _ _ | .fltAdd _ _ _ | .fltSub _ _ _ | .fltAnd _ _ _ | .fltOr _ _ _ | .fltXor _ _ _
  | .fltShl _ _ _ | .fltShr _ _ _ | .fltAndi _ _ _ | .fltAddi _ _ _ | .fltBeq _ _ _ | .fltBne _ _ _
  | .fltBltu _ _ _ | .fltBlt _ _ _ | .fltCadd _ _ | .fltVerd _ =>
    [(encodeFilter i).extractLsb' 0 32, (encodeFilter i).extractLsb' 32 32]
  | _ => if (slotOf i).isSome then [encodeWord i] else []

/-! ## Reading an instruction's words back -/

/-- The tables an instruction's words belong to: a slot of a bundle, a microinstruction, a command packet, a filter; a device event
has no words. -/
inductive WordKind where
  | slot (sl : Slot)
  | micro
  | packet
  | filter
  | event
deriving DecidableEq, Repr

def kindOf (i : Instr) : WordKind :=
  match i with
  | .nbEnd | .loadacc _ | .accop _ | .sacc _ | .nbStore _ | .nbClear _ | .minmax _ => .micro
  | .reduce _ | .scaleacc _ | .cmpxchg _ | .idxreduce _ | .accwb _ | .accclr _ | .uprog _ => .packet
  | .fltLdf _ _ | .fltLdi _ _ | .fltAdd _ _ _ | .fltSub _ _ _ | .fltAnd _ _ _ | .fltOr _ _ _ | .fltXor _ _ _
  | .fltShl _ _ _ | .fltShr _ _ _ | .fltAndi _ _ _ | .fltAddi _ _ _ | .fltBeq _ _ _ | .fltBne _ _ _
  | .fltBltu _ _ _ | .fltBlt _ _ _ | .fltCadd _ _ | .fltVerd _ => .filter
  | _ => match slotOf i with
    | some sl => .slot sl
    | none => .event

/-- The instruction that words of a kind hold, lowest address first. -/
def decodeAs : WordKind → List W32 → Option Instr
  | .slot sl, [w] => (decodeSlot sl w).toOption
  | .micro, [w] => (decodeMicro w).toOption
  | .packet, [h, a, b, c, d, e, f, g] => (decodePacket h #v[a, b, c, d, e, f, g]).toOption
  | .filter, [lo, hi] => (decodeFilter (hi ++ lo)).toOption
  | _, _ => none

end Sys2Proof
end

