-- ==== Sys2Proof/Config.lean ====
section
/-! DEFINITION. What the manual leaves open: opaque constants with no body, applied to the model's counter of free
values (Clock.free), and the fixed figures of the Z960-A (R2). -/

namespace Sys2Proof.Config

/-- A free choice between two allowed outcomes (R88: the old translation or the new one); see log entry 3. -/
opaque freeBool : Nat → Bool
/-- A word to which the manual gives no value; see log entry 14. -/
opaque freeWord : Nat → BitVec 32
/-- The set of the last-level TLB that holds a page (R86 gives 256 sets and no index function); see log entry 4. -/
opaque tlbSet : Nat → Nat → Nat

/-- A byte of the context page whose content has no register form, at a device cycle, for a tile; see log entry 47. -/
opaque freeByte : Nat → Nat → Nat → BitVec 8

/-- The measurements that a report holds (R430), of the boot ROM (0), the firmware image of a version (1) and the graph loader (2); the manual does
not say how they are made: see log entry 93. -/
opaque measurement : Nat → BitVec 32 → BitVec 256

/-- Columns and rows of the logical grid (R2, R61). -/
def gridW : Nat := 32
def gridH : Nat := 24
/-- Columns of the physical grid. -/
def physW : Nat := 34
/-- Bytes of local HBM (R248). -/
def hbmBytes : Nat := 384 * 2 ^ 30
/-- Bundles of an instruction store (R89). -/
def storeBundles : Nat := 8192
/-- Bytes of scalar memory (R172). -/
def smemBytes : Nat := 65536
/-- Runs of a vector or mask register (R190). -/
def maxRuns : Nat := 32
/-- Logical length of a vector or mask register (R190). -/
def maxLen : Nat := 4096
/-- Device cycles in one microsecond at the nominal clock (R4). -/
def dcPerUs : Nat := 800

end Sys2Proof.Config
end

