-- ==== Sys2Proof/Machine/Num.lean ====
section
/-! DEFINITION. The number formats of the Z960 (R132 to R150, R159): values as exact rationals, decoding of every type
code, the rounding grid, overflow policy, and conversion with flags. No rounding happens anywhere but in `convertTo`. -/

namespace Sys2Proof.Machine

/-- A finite real, (−1)^neg × num / den; a zero keeps its sign (R145). -/
structure Q where
  neg : Bool
  num : Nat
  den : Nat
deriving DecidableEq, Repr

/-- A decoded value (R132): NaN with its signalling state, an infinity, or a finite real. -/
inductive FVal where
  | nan (sig : Bool)
  | inf (neg : Bool)
  | fin (q : Q)
deriving DecidableEq, Repr

/-- What a conversion reads besides its operand: rounding mode (R140), OVT (R142), the flush bit F (R111). -/
structure NumCtx where
  mode : Nat
  ovt : W64
  flush : Bool
deriving DecidableEq, Repr

/-! ### Flags of R374 -/

abbrev Flags := BitVec 9
def flIV : Flags := 0x001#9
def flDZ : Flags := 0x002#9
def flOF : Flags := 0x004#9
def flUF : Flags := 0x008#9
def flIX : Flags := 0x010#9
def flRG : Flags := 0x020#9
def flLN : Flags := 0x040#9
def flNP : Flags := 0x080#9
def flRO : Flags := 0x100#9

/-- A flag raised when the condition holds. -/
def flagIf (b : Bool) (f : Flags) : Flags := if b then f else 0#9

/-! ### Exact arithmetic -/

def Q.zero (neg : Bool) : Q := { neg := neg, num := 0, den := 1 }
def Q.ofNat (n : Nat) : Q := { neg := false, num := n, den := 1 }
def Q.ofInt (i : Int) : Q := { neg := decide (i < 0), num := i.natAbs, den := 1 }
def Q.isZero (a : Q) : Bool := a.num == 0
def Q.negate (a : Q) : Q := { a with neg := !a.neg }
def Q.abs (a : Q) : Q := { a with neg := false }
def Q.sgnNum (a : Q) : Int := if a.neg then -(a.num : Int) else (a.num : Int)

/-- Comparison of values; the two zeros are equal. -/
def Q.cmp (a b : Q) : Ordering := compare (a.sgnNum * (b.den : Int)) (b.sgnNum * (a.den : Int))
def Q.lt (a b : Q) : Bool := a.cmp b == .lt
def Q.eqv (a b : Q) : Bool := a.cmp b == .eq
def Q.mul (a b : Q) : Q := { neg := a.neg != b.neg, num := a.num * b.num, den := a.den * b.den }

/-- The exact sum; R145 gives a zero sum its sign (`mode` 3 is toward −∞). -/
def Q.add (mode : Nat) (a b : Q) : Q :=
  let g := Nat.gcd a.den b.den
  let n : Int := a.sgnNum * ((b.den / g : Nat) : Int) + b.sgnNum * ((a.den / g : Nat) : Int)
  if n = 0 then
    if a.num == 0 && b.num == 0 && a.neg == b.neg then .zero a.neg
    else .zero (mode == 3)
  else { neg := decide (n < 0), num := n.natAbs, den := a.den / g * b.den }

/-- num × 2^e. -/
def Q.scale2 (neg : Bool) (num : Nat) (e : Int) : Q :=
  if 0 ≤ e then { neg := neg, num := num <<< e.toNat, den := 1 }
  else { neg := neg, num := num, den := 1 <<< (-e).toNat }

/-! ### Formats (R132 to R136) -/

/-- Exponent width, fraction width and bias of the floating codes 0 to 5. -/
def floatShape : Nat → Nat × Nat × Nat
  | 0 => (8, 23, 127)
  | 1 => (8, 7, 127)
  | 2 => (5, 10, 15)
  | 3 => (4, 3, 7)
  | 4 => (5, 2, 15)
  | _ => (2, 1, 1)

/-- Type codes 7, 14 and 15 stand for no format (R134). -/
def reservedType (t : Nat) : Bool := t == 7 || t == 14 || t ≥ 15
def isIntType (t : Nat) : Bool := 8 ≤ t && t ≤ 13
def isSignedType (t : Nat) : Bool := 8 ≤ t && t ≤ 11

/-- Bits of an element of type `t`. -/
def typeBits : Nat → Nat
  | 0 | 8 => 32
  | 1 | 2 | 9 => 16
  | 5 | 11 | 13 => 4
  | _ => 8

def hasInf (t : Nat) : Bool := t == 0 || t == 1 || t == 2 || t == 4

/-- The canonical NaN (R132); formats without NaN give 0 (R147). -/
def canonicalNaN : Nat → Nat
  | 0 => 0x7FC00000
  | 1 => 0x7FC0
  | 2 => 0x7E00
  | 3 => 0x7F
  | 4 => 0x7E
  | 6 => 0x80
  | _ => 0

/-- Magnitude code of the largest finite value. -/
def maxFiniteCode : Nat → Nat
  | 0 => 0x7F7FFFFF
  | 1 => 0x7F7F
  | 2 => 0x7BFF
  | 3 => 0x7E
  | 4 => 0x7B
  | 6 => 0x01
  | _ => 0x7

/-- The formats whose subnormals F flushes (R146). -/
def flushable (t : Nat) : Bool := t ≤ 4

/-- Exact magnitude of DM8 field `m`, 1 to 127 (R135). -/
def dm8Mag (m : Nat) : Q :=
  let n := Nat.log2 m
  let f := m - 2 ^ n
  let base := 2 ^ n + 9 * f
  match 6 - n with
  | 0 => { neg := false, num := base, den := 2 ^ n }
  | 1 => { neg := false, num := base, den := 2 ^ n * 10 }
  | 2 => { neg := false, num := base * 10, den := 2 ^ n }
  | 3 => { neg := false, num := base, den := 2 ^ n * 100 }
  | 4 => { neg := false, num := base * 100, den := 2 ^ n }
  | 5 => { neg := false, num := base, den := 2 ^ n * 1000 }
  | _ => { neg := false, num := base * 1000, den := 2 ^ n }

/-- The value of an IEEE-like code of type 0 to 5. -/
def decodeFloat (t c : Nat) : FVal :=
  let (eb, mb, bias) := floatShape t
  let s := c.testBit (eb + mb)
  let e := (c >>> mb) % 2 ^ eb
  let m := c % 2 ^ mb
  if hasInf t && e == 2 ^ eb - 1 then (if m == 0 then .inf s else .nan (decide (m < 2 ^ (mb - 1))))
  else if t == 3 && e == 15 && m == 7 then .nan false
  else if e == 0 then .fin (.scale2 s m (1 - (bias : Int) - mb))
  else .fin (.scale2 s (2 ^ mb + m) ((e : Int) - bias - mb))

/-- The exact value of a code of any type (R132 to R135). -/
def decodeVal (t c : Nat) : FVal :=
  if t == 6 then
    let m := c % 128
    if m == 0 then (if c.testBit 7 then .nan false else .fin (.zero false))
    else .fin { dm8Mag m with neg := c.testBit 7 }
  else if isIntType t then
    let w := typeBits t
    let u := c % 2 ^ w
    if isSignedType t && u.testBit (w - 1) then .fin (.ofInt ((u : Int) - 2 ^ w)) else .fin (.ofNat u)
  else decodeFloat t c

/-- |x| below the smallest normal of a flushable format. -/
def belowNormal (t : Nat) (x : Q) : Bool :=
  let (_, _, bias) := floatShape t
  decide (x.num <<< (bias - 1) < x.den)

/-- An operand as read with flush bit F (R146). -/
def readVal (flush : Bool) (t c : Nat) : FVal :=
  match decodeVal t c with
  | .fin q => if flush && flushable t && belowNormal t q then .fin (.zero q.neg) else .fin q
  | v => v

/-! ### Rounding (R140) -/

/-- num / den rounded to an integer in a mode, for a value of the given sign; and whether it was inexact. -/
def roundNat (mode : Nat) (neg : Bool) (num den : Nat) : Nat × Bool :=
  let q := num / den
  let r := num % den
  let up := match mode with
    | 0 => decide (den < 2 * r) || (decide (2 * r = den) && q % 2 == 1)
    | 2 => decide (0 < r) && !neg
    | 3 => decide (0 < r) && neg
    | 4 => decide (den ≤ 2 * r)
    | _ => false
  (if up then q + 1 else q, decide (0 < r))

/-- ⌊log2 (num/den)⌋ for num > 0. -/
def log2Ratio (num den : Nat) : Int :=
  let k : Int := (Nat.log2 num : Int) - Nat.log2 den
  if 0 ≤ k then (if num < den <<< k.toNat then k - 1 else k)
  else (if num <<< (-k).toNat < den then k - 1 else k)

/-- The magnitude code on the grid of R140 (extended above the largest exponent), and inexactness. In E4M3 480, where the NaN code stands,
counts as a point of the grid (log entry 87). -/
def roundToGrid (t mode : Nat) (x : Q) : Nat × Bool :=
  let (_, mb, bias) := floatShape t
  let emin : Int := 1 - bias
  let e := max (log2Ratio x.num x.den) emin
  let sh : Int := (mb : Int) - e
  let (q, ix) := if 0 ≤ sh then roundNat mode x.neg (x.num <<< sh.toNat) x.den
                 else roundNat mode x.neg x.num (x.den <<< (-sh).toNat)
  ((e - emin).toNat * 2 ^ mb + q, ix)

/-- OvtPolicy (R142): FP4's pair acts as 0. -/
def ovtPolicy (ovt : W64) (t : Nat) : Nat := if t == 5 then 0 else (ovt.toNat >>> (2 * t)) % 4

def awayFromZero (mode : Nat) (neg : Bool) : Bool :=
  mode == 0 || mode == 4 || (mode == 2 && !neg) || (mode == 3 && neg)

/-- A magnitude code with its sign bit. -/
def signed (t : Nat) (neg : Bool) (c : Nat) : Nat := if neg then c + 2 ^ (typeBits t - 1) else c

def infinityCode (t : Nat) (neg : Bool) : Nat :=
  let (eb, mb, _) := floatShape t
  signed t neg ((2 ^ eb - 1) <<< mb)

/-- Overflow (R143). -/
def overflowCode (cx : NumCtx) (t : Nat) (neg : Bool) : Nat :=
  let p := ovtPolicy cx.ovt t
  if p == 2 && t != 5 then canonicalNaN t
  else if p == 1 && hasInf t && awayFromZero cx.mode neg then infinityCode t neg
  else signed t neg (maxFiniteCode t)

/-- The largest of the DM8 magnitudes at most |x|, and the smallest at least |x|: codes, 0 for none below (R137). -/
def dm8Bracket (x : Q) : Nat → Nat × Nat → Nat × Nat
  | 0, acc => acc
  | m + 1, (lo, hi) =>
    let v := dm8Mag (m + 1)
    let lo' := if !(x.lt v) && (lo == 0 || (dm8Mag lo).lt v) then m + 1 else lo
    let hi' := if !(v.lt x) && (hi == 0 || v.lt (dm8Mag hi)) then m + 1 else hi
    dm8Bracket x m (lo', hi')

/-- Rounding of a finite non-zero real to DM8 (R137). -/
def roundDM8 (cx : NumCtx) (x : Q) : Nat × Flags :=
  let a := x.abs
  if (Q.ofNat 1000).lt a then (overflowCode cx 6 x.neg, flOF ||| flIX)
  else
    let (lo, hi) := dm8Bracket a 127 (0, 0)
    if lo == hi then (signed 6 x.neg lo, 0#9)
    else
      let lov := if lo == 0 then Q.zero false else dm8Mag lo
      let two := Q.add 0 lov (dm8Mag hi)
      let c := (Q.mul (.ofNat 2) a).cmp two
      let pick := match cx.mode with
        | 0 => match c with
          | .lt => lo
          | .gt => hi
          | .eq => if lo % 2 == hi % 2 then lo else if lo % 2 == 0 then lo else hi
        | 2 => if x.neg then lo else hi
        | 3 => if x.neg then hi else lo
        | 4 => if c == .lt then lo else hi
        | _ => lo
      let code := if pick == 0 then 0 else signed 6 x.neg pick
      (code, flIX ||| flagIf (a.lt (dm8Mag 2)) flUF)

/-- Range of an integer format (R134). -/
def intMax (t : Nat) : Int := if isSignedType t then 2 ^ (typeBits t - 1) - 1 else 2 ^ typeBits t - 1
def intMin (t : Nat) : Int := if isSignedType t then -(2 ^ (typeBits t - 1)) else 0

/-- The code of an integer in `w` bits, two's complement. -/
def intCode (w : Nat) (i : Int) : Nat := (i % (2 ^ w : Int)).toNat

/-- ConvertTo (R141, R147). -/
def convertTo (cx : NumCtx) (t : Nat) (x : FVal) : W32 × Flags :=
  match x with
  | .nan sig =>
    if isIntType t || t == 5 then (0#32, flIV)
    else (BitVec.ofNat 32 (canonicalNaN t), flagIf sig flIV)
  | .inf neg =>
    if isIntType t then (BitVec.ofNat 32 (intCode (typeBits t) (if neg then intMin t else intMax t)), flIV)
    else if hasInf t then (BitVec.ofNat 32 (infinityCode t neg), 0#9)
    else (BitVec.ofNat 32 (overflowCode cx t neg), flOF)
  | .fin q =>
    if isIntType t then
      let (n, ix) := roundNat cx.mode q.neg q.num q.den
      let y : Int := if q.neg then -(n : Int) else n
      if y > intMax t then (BitVec.ofNat 32 (intCode (typeBits t) (intMax t)), flIV)
      else if y < intMin t then (BitVec.ofNat 32 (intCode (typeBits t) (intMin t)), flIV)
      else (BitVec.ofNat 32 (intCode (typeBits t) y), flagIf ix flIX)
    else if q.isZero then (BitVec.ofNat 32 (if t == 6 then 0 else signed t q.neg 0), 0#9)
    else if cx.flush && flushable t && belowNormal t q then
      (BitVec.ofNat 32 (signed t q.neg 0), flUF ||| flIX)
    else if t == 6 then
      let (c, f) := roundDM8 cx q
      (BitVec.ofNat 32 c, f)
    else
      let (c, ix) := roundToGrid t cx.mode q
      if c > maxFiniteCode t then (BitVec.ofNat 32 (overflowCode cx t q.neg), flOF ||| flIX)
      else (BitVec.ofNat 32 (signed t q.neg c), flagIf ix flIX ||| flagIf (ix && belowNormal t q) flUF)

/-- The FP32 decode of a DM8 code: its exact value rounded to nearest even (R136). -/
def dm8FP32 (c : Nat) : FVal :=
  match decodeVal 6 c with
  | .fin q => decodeVal 0 (convertTo { mode := 0, ovt := 0#64, flush := false } 0 (.fin q)).1.toNat
  | v => v

/-- RoundFP32 (R141). -/
def roundFP32 (cx : NumCtx) (x : FVal) : W32 × Flags := convertTo cx 0 x

/-- An FP32 container as read by an instruction with flush bit F. -/
def fp32 (cx : NumCtx) (w : W32) : FVal := readVal cx.flush 0 w.toNat

/-! ### Arithmetic on values (R144, R145, R148): an exact result and the flags of its special cases -/

def FVal.isNan : FVal → Bool
  | .nan _ => true
  | _ => false

def FVal.isSig : FVal → Bool
  | .nan s => s
  | _ => false

def FVal.isZero : FVal → Bool
  | .fin q => q.isZero
  | _ => false

def FVal.isInf : FVal → Bool
  | .inf _ => true
  | _ => false

def FVal.neg : FVal → Bool
  | .nan _ => false
  | .inf s => s
  | .fin q => q.neg

def FVal.negate : FVal → FVal
  | .nan s => .nan s
  | .inf s => .inf (!s)
  | .fin q => .fin q.negate

/-- A quiet NaN and the flags its cause raises. -/
def nanWith (f : Flags) : FVal × Flags := (.nan false, f)

def addV (mode : Nat) (a b : FVal) : FVal × Flags :=
  let iv := flagIf (a.isSig || b.isSig) flIV
  match a, b with
  | .nan _, _ => nanWith iv
  | _, .nan _ => nanWith iv
  | .inf s, .inf r => if s == r then (.inf s, 0#9) else nanWith flIV
  | .inf s, _ => (.inf s, 0#9)
  | _, .inf s => (.inf s, 0#9)
  | .fin p, .fin q => (.fin (.add mode p q), 0#9)

def mulV (a b : FVal) : FVal × Flags :=
  let iv := flagIf (a.isSig || b.isSig) flIV
  match a, b with
  | .nan _, _ => nanWith iv
  | _, .nan _ => nanWith iv
  | .inf s, b => if b.isZero then nanWith flIV else (.inf (s != b.neg), 0#9)
  | a, .inf s => if a.isZero then nanWith flIV else (.inf (s != a.neg), 0#9)
  | .fin p, .fin q => (.fin (.mul p q), 0#9)

/-- a × b + c with no rounding between: 0 × ∞ is invalid even when c is a quiet NaN (R148). -/
def fmaV (mode : Nat) (a b c : FVal) : FVal × Flags :=
  let (p, f) := mulV a b
  let (r, g) := addV mode p c
  (r, f ||| g)

def divV (a b : FVal) : FVal × Flags :=
  let iv := flagIf (a.isSig || b.isSig) flIV
  match a, b with
  | .nan _, _ => nanWith iv
  | _, .nan _ => nanWith iv
  | .inf _, .inf _ => nanWith flIV
  | .inf s, b => (.inf (s != b.neg), 0#9)
  | a, .inf s => (.fin (.zero (s != a.neg)), 0#9)
  | .fin p, .fin q =>
    if q.isZero then (if p.isZero then nanWith flIV else (.inf (p.neg != q.neg), flDZ))
    else (.fin { neg := p.neg != q.neg, num := p.num * q.den, den := p.den * q.num }, 0#9)

/-- ⌊√n⌋ from the bits below `b`. -/
def isqrt (n : Nat) : Nat → Nat → Nat
  | 0, r => r
  | b + 1, r => isqrt n b (if (r + 2 ^ b) * (r + 2 ^ b) ≤ n then r + 2 ^ b else r)

def natSqrt (n : Nat) : Nat := isqrt n (Nat.log2 n / 2 + 1) 0

/-- √(num/den) to 2^−200, exact or standing strictly between two multiples of that step. -/
def sqrtQ (num den : Nat) : Q :=
  let z := num <<< 400 / den
  let t := natSqrt z
  if t * t * den == num <<< 400 then { neg := false, num := t, den := 1 <<< 200 }
  else { neg := false, num := 2 * t + 1, den := 1 <<< 201 }

def sqrtV (a : FVal) : FVal × Flags :=
  match a with
  | .nan s => nanWith (flagIf s flIV)
  | .inf s => if s then nanWith flIV else (.inf false, 0#9)
  | .fin q =>
    if q.isZero then (.fin (.zero q.neg), 0#9)
    else if q.neg then nanWith flIV
    else (.fin (sqrtQ q.num q.den), 0#9)

def rsqrtV (a : FVal) : FVal × Flags :=
  match a with
  | .nan s => nanWith (flagIf s flIV)
  | .inf s => if s then nanWith flIV else (.fin (.zero false), 0#9)
  | .fin q =>
    if q.isZero then (.inf q.neg, flDZ)
    else if q.neg then nanWith flIV
    else (.fin (sqrtQ q.den q.num), 0#9)

/-- Ordering of two numbers; none when either is NaN. -/
def cmpV (a b : FVal) : Option Ordering :=
  match a, b with
  | .nan _, _ => none
  | _, .nan _ => none
  | .inf s, .inf r => some (if s == r then .eq else if s then .lt else .gt)
  | .inf s, .fin _ => some (if s then .lt else .gt)
  | .fin _, .inf s => some (if s then .gt else .lt)
  | .fin p, .fin q => some (p.cmp q)

/-- IEEE 754-2019 minimum (`wantMax` false) and maximum: NaN wins, −0 is below +0 (R148). -/
def minmaxV (wantMax : Bool) (a b : FVal) : FVal × Flags :=
  match cmpV a b with
  | none => nanWith (flagIf (a.isSig || b.isSig) flIV)
  | some .lt => (if wantMax then b else a, 0#9)
  | some .gt => (if wantMax then a else b, 0#9)
  | some .eq => (if a.neg == wantMax then b else a, 0#9)

/-- An operation's exact result rounded once, with all its flags. -/
def finish32 (cx : NumCtx) (r : FVal × Flags) : W32 × Flags :=
  let (w, f) := roundFP32 cx r.1
  (w, r.2 ||| f)

/-! ### The special functions (R149, R150), by fixed-point series with 2^−320 steps (log entry 9) -/

/-- Steps of one in the fixed-point series. -/
def fxOne : Nat := 1 <<< 320

/-- Σ x^k / k! from term `k`, for the fixed-point x, `fuel` more terms. -/
def expSeries (x : Nat) : Nat → Nat → Nat → Nat → Nat
  | 0, _, _, acc => acc
  | fuel + 1, k, term, acc => expSeries x fuel (k + 1) (term * x / fxOne / k) (acc + term)

def squareTimes : Nat → Nat → Nat
  | 0, x => x
  | n + 1, x => squareTimes n (x * x / fxOne)

/-- e^x for 0 ≤ x ≤ 200, as a fixed-point number: x/256 by the series, then eight squarings. -/
def expFx (num den : Nat) : Nat :=
  squareTimes 8 (expSeries (num <<< 312 / den) 80 1 fxOne 0)

/-- Σ ± z^(2k+1) / (2k+1), all plus for atanh, alternating for atan. -/
def oddSeries (alternate : Bool) (z2 : Nat) : Nat → Nat → Nat → Bool → Int → Int
  | 0, _, _, _, acc => acc
  | fuel + 1, k, p, minus, acc =>
    let t : Int := ((p / (2 * k + 1) : Nat) : Int)
    oddSeries alternate z2 fuel (k + 1) (p * z2 / fxOne) (alternate && !minus) (if minus then acc - t else acc + t)

def atanhFx (num den : Nat) : Int :=
  let z := num * fxOne / den
  oddSeries false (z * z / fxOne) 150 0 z false 0

def atanInv (n : Nat) : Int := oddSeries true (fxOne / (n * n)) 150 0 (fxOne / n) false 0

/-- π by Machin's formula, in fixed point. -/
def piFx : Nat := (16 * atanInv 5 - 4 * atanInv 239).toNat

def ln2Fx : Int := 2 * atanhFx 1 3

/-- Σ of the sine series (from x) or the cosine series (from 1) at a small fixed-point x ≥ 0. -/
def trigSeries (x2 : Nat) : Nat → Nat → Nat → Bool → Int → Int
  | 0, _, _, _, acc => acc
  | fuel + 1, k, t, minus, acc =>
    trigSeries x2 fuel (k + 2) (t * x2 / fxOne / ((k + 1) * (k + 2))) (!minus)
      (if minus then acc - (t : Int) else acc + (t : Int))

def sinFx (x : Nat) : Int := trigSeries (x * x / fxOne) 50 1 x false 0
def cosFx (x : Nat) : Int := trigSeries (x * x / fxOne) 50 0 fxOne false 0

def fxQ (i : Int) : Q := { neg := decide (i < 0), num := i.natAbs, den := fxOne }

/-- A value below 2^−40 in magnitude, where each function's series ends at its first term. -/
def tinyQ (q : Q) : Bool := decide (q.num <<< 40 < q.den)

/-- A value a little closer to zero than q. -/
def inside (q : Q) : Q := { q with num := q.num * (2 ^ 90 - 1), den := q.den * 2 ^ 90 }

/-- 1 with a little added or taken away. -/
def nearOne (above : Bool) : Q :=
  { neg := false, num := if above then 2 ^ 60 + 1 else 2 ^ 60 - 1, den := 2 ^ 60 }

/-- e^q for finite q ≠ 0. -/
def expReal (q : Q) : Q :=
  if tinyQ q then nearOne (!q.neg)
  else if decide (q.den * 120 < q.num) then
    (if q.neg then { neg := false, num := 1, den := 2 ^ 170 } else .ofNat (2 ^ 170))
  else
    let y := expFx q.num q.den
    if q.neg then { neg := false, num := fxOne, den := y } else { neg := false, num := y, den := fxOne }

/-- ln q for finite q > 0, q ≠ 1: q = m × 2^e with m from 3/4 to 3/2. -/
def logReal (q : Q) : Q :=
  let e0 := log2Ratio q.num q.den
  let m0 := Q.mul q (.scale2 false 1 (-e0))
  let (m, e) := if decide (3 * m0.den ≤ 2 * m0.num) then ({ m0 with den := 2 * m0.den }, e0 + 1) else (m0, e0)
  let a : Int := if m.den ≤ m.num then atanhFx (m.num - m.den) (m.num + m.den)
                 else -(atanhFx (m.den - m.num) (m.num + m.den))
  fxQ (2 * a + e * ln2Fx)

/-- sin (`isCos` false) or cos of finite q, |q| < 2^22: reduced by a multiple of π/2. -/
def trigReal (isCos : Bool) (q : Q) : Q :=
  if tinyQ q then (if isCos then nearOne false else inside q)
  else
    let pi := piFx
    let x := q.num <<< 320 / q.den
    let k := (4 * x + pi) / (2 * pi)
    let r : Int := (x : Int) - (((k * pi) / 2 : Nat) : Int)
    let s : Int := if r < 0 then -(sinFx r.natAbs) else sinFx r.natAbs
    let c := cosFx r.natAbs
    let v : Int := match (if isCos then k + 1 else k) % 4 with
      | 0 => s
      | 1 => c
      | 2 => -s
      | _ => -c
    fxQ (if !isCos && q.neg then -v else v)

def tanhReal (q : Q) : Q :=
  if tinyQ q then inside q
  else if decide (q.den * 24 < q.num) then { nearOne false with neg := q.neg }
  else
    let y := expFx (2 * q.num) q.den
    { neg := q.neg, num := y - fxOne, den := y + fxOne }

/-- The special functions of slot A. -/
inductive SpecFn where
  | exp | log | sin | cos | tanh
deriving DecidableEq, Repr

/-- |q| ≥ 2^22 (R150). -/
def beyondRange (q : Q) : Bool := decide (q.den <<< 22 ≤ q.num)

/-- R149 and R150. The result is rounded with mode 0; every value that R149 does not list is inexact. -/
def specFn (f : SpecFn) (cx : NumCtx) (a : FVal) : W32 × Flags :=
  let cx0 : NumCtx := { cx with mode := 0 }
  let exact (v : FVal) : W32 × Flags := roundFP32 cx0 v
  let inexact (q : Q) : W32 × Flags :=
    let (w, fl) := roundFP32 cx0 (.fin q)
    (w, fl ||| flIX)
  match a with
  | .nan s => finish32 cx0 (nanWith (flagIf s flIV))
  | .inf s =>
    match f with
    | .exp => if s then exact (.fin (.zero false)) else exact (.inf false)
    | .log => if s then finish32 cx0 (nanWith flIV) else exact (.inf false)
    | .tanh => exact (.fin { Q.ofNat 1 with neg := s })
    | .sin | .cos => finish32 cx0 (nanWith flIV)
  | .fin q =>
    match f with
    | .exp => if q.isZero then exact (.fin (.ofNat 1)) else inexact (expReal q)
    | .log =>
      if q.isZero then finish32 cx0 (.inf true, flDZ)
      else if q.neg then finish32 cx0 (nanWith flIV)
      else if q.eqv (.ofNat 1) then exact (.fin (.zero false))
      else inexact (logReal q)
    | .tanh => if q.isZero then exact (.fin (.zero q.neg)) else inexact (tanhReal q)
    | .sin =>
      if q.isZero then exact (.fin (.zero q.neg))
      else if beyondRange q then ((roundFP32 cx0 (.fin (.zero q.neg))).1, flRG)
      else inexact (trigReal false q)
    | .cos =>
      if q.isZero then exact (.fin (.ofNat 1))
      else if beyondRange q then ((roundFP32 cx0 (.fin (.ofNat 1))).1, flRG)
      else inexact (trigReal true q)

end Sys2Proof.Machine
end

