-- ==== Sys2Proof/Machine/State.lean ====
section
/-! DEFINITION. The whole device as plain data: every piece of state the manual names (INVENTORY.md lists each with its
rule and its reset value), the reasons a step can stop, and the state after reset. -/

namespace Sys2Proof.Machine

/-- Why the machine stops. No step of this model raises one: every fault of the manual is taken as the manual
describes it, as a next state (R371). -/
inductive Fault where
  /-- Raised by no step; the type is closed and has one name. Safe: nothing stops with it. -/
  | none_
deriving DecidableEq, Repr

/-- Why an instruction is refused. -/
inductive Refusal where
  /-- Raised by `exec` for an instruction that has no meaning yet. Safe: nothing is claimed of it. -/
  | notModelled (mnemonic : String)
deriving DecidableEq, Repr

/-- Bytes by address, in one canonical form: addresses strictly rising, no entry equal to `unlisted`. -/
abbrev Memory := List Host.Cell

/-- What an unlisted byte of every memory reads as: zero. Towers and scalar memory are cleared to it by R73 and R23;
for HBM, host and peer memory it is a DESIGN CHOICE (log entry 1). -/
def unlisted : Byte := 0#8

/-- Records by number, sorted; a number not listed has the table's reset record. -/
abbrev Tbl (α : Type) := List (Nat × α)

/-- Runs of equal values: (value, count), counts at least 1 (R190, R192). -/
abbrev Runs (α : Type) := List (α × Nat)

/-- Completion status codes (R29). -/
inductive Status where
  | ok | illegal | delaySlot | protection | towerRange | runOverflow | arithTrap | race | streamDecode | streamGraph
  | saveTimeout | watchdog | thermal | hwError | doubleTrap | aborted | nbuFault | ringMisuse | translation
  | unplaceable | refreshAbuse
deriving DecidableEq, Repr

/-- A fault on its way to being taken (R371, R377): `cause` is the program-serviceable cause, 0 for a terminal one. -/
structure FaultInfo where
  status : Status
  cause : Nat := 0
  slot : Nat
  info : W64
deriving DecidableEq, Repr

/-- Where a result lands (R102). Lists name the clusters it lands in. -/
inductive Dest where
  | sreg (r : BitVec 5) (v : W64)
  | creg (r : BitVec 3) (v : Bool)
  | vreg (r : BitVec 5) (vals : List (Fin 8 × Runs W32))
  | kreg (r : BitVec 3) (vals : List (Fin 8 × Runs Bool))
  | tileRow (t : BitVec 2) (row : Fin 16) (vals : List (Fin 8 × List (Fin 16 × W32)))
  | tileClear (t : BitVec 2) (cls : List (Fin 8))
  | cursor (y : BitVec 2) (vals : List (Fin 8 × BitVec 22))
  | ctl (num : BitVec 6) (sub : BitVec 4) (v : W64)
  | smem (addr : Nat) (bytes : List Byte)
  | engine (e i : BitVec 5) (v : W64)
  | nothing
deriving DecidableEq, Repr

/-- A result in flight (R102, R385): issued in schedule cycle `at_` by `slot` (0 C, 1 A, 2 B, 3 E), landing in `due`,
with the sticky flags and RUNLEN values that land with it. -/
structure Landing where
  at_ : Nat
  due : Nat
  slot : Nat
  dest : Dest
  flags : List (Fin 8 × BitVec 9) := []
  runlen : List (Fin 8 × Nat) := []
deriving DecidableEq, Repr

/-- Atomic operations (R355). -/
inductive AmoOp where
  | add | min | max | and | or | xch | cas
deriving DecidableEq, Repr

/-- The global accesses that stall (R106). -/
inductive GlobOp where
  | load (sx : Bool)
  | store
  | amo (op : AmoOp) (ord : BitVec 2) (write : Bool)
deriving DecidableEq, Repr

/-- Where a byte of an address space lives (R82, R83): memory kind (0 local HBM, 1 peer, 2 host, 3 a compressed page of local HBM,
whose address is that of its frame and logical byte, R250) and address. -/
structure Place where
  kind : Nat
  addr : Nat
deriving DecidableEq, Repr

/-- A stalled LDG, STG or AMO with its resolved operands (R385). `half`: of an access that crosses a single-copy atomic unit, the
piece performed first (true: the upper one) and its bytes (R175, R255). -/
structure GAccess where
  op : GlobOp
  d : BitVec 5
  ea : Nat
  size : Nat
  scope : BitVec 2
  value : W64
  cmp : W64
  at_ : Nat
  half : Option (Bool × List Byte) := none
deriving DecidableEq, Repr

/-- How a waiting load names its data. -/
inductive LoadKind where
  | elems (lf : BitVec 3) (addrs : List (Fin 8 × List Nat))
  | bits (addr n : Nat)
  | chain (start : List (Fin 8 × BitVec 22)) (y : BitVec 2)
  | ringRow (h : BitVec 4) (index : Nat) (typ : BitVec 4)
deriving DecidableEq, Repr

/-- A load stalled on full-empty bits (R293, R296, R298, R299): kind, FE kind, destination, selected clusters, mask
and old destination of each, and VL and MODE.SPLIT as read at issue. -/
structure WLoad where
  kind : LoadKind
  fe : BitVec 2
  d : BitVec 5
  cls : List (Fin 8)
  msk : List (Fin 8 × Option (Runs Bool))
  old : List (Fin 8 × Runs W32)
  vl : Nat
  split : Bool
  at_ : Nat
deriving DecidableEq, Repr

/-- The stalled slots of a bundle (R106, R385). -/
inductive Wait where
  | glob (a : GAccess)
  | load (l : WLoad)
  | ringWrite (h : BitVec 4) (index : Nat) (parts : List (Fin 8 × List Byte))
  | ringIndex (h : BitVec 4) (index : Nat)
  | ringDone (h : BitVec 4)
  | bcCount (n : Nat)
  | bcAll
  | engine (e : BitVec 5) (n : Nat)
  | copies
  | nbPoll (d : BitVec 5) (thr : Nat) (doneVa : Nat) (at_ : Nat)
  | barrier (group : BitVec 2) (inst : Nat)
  | fence (scope : BitVec 2)
deriving DecidableEq, Repr

/-- What a pending branch does when its delay bundles have issued (R107, R181, R384). -/
inductive BranchKind where
  | jump | endTask | trapReturn
deriving DecidableEq, Repr

/-- A pending branch (R385): `left` counts the bundles still to finish, its own included. -/
structure Branch where
  target : Nat
  taken : Bool
  left : Nat
  kind : BranchKind := .jump
deriving DecidableEq, Repr

/-- The repetition state of a REP (R109): `fresh` until the REP bundle itself has finished. -/
structure Rep where
  n : Nat
  m : BitVec 6
  j : Nat
  fresh : Bool
deriving DecidableEq, Repr

/-- An in-flight record (R385): results with `due` counted from the resumption cycle and `at_` as an age. Of a pending wait: its
bundle, that bundle's schedule cycle, and the device cycles it has lasted. -/
structure Record where
  results : List Landing := []
  branch : Option Branch := none
  rep : Option Rep := none
  waits : List Wait := []
  waitPc : Nat := 0
  waitScyc : Nat := 0
  waited : Nat := 0
deriving DecidableEq, Repr

/-- One lane cluster (R97): vector, mask and tile registers, cursors, FLAGS (R374) and RUNLEN (R197). k0 and the
run lists are read through Ops. -/
structure Cluster where
  v : Vector (Runs W32) 32
  k : Vector (Runs Bool) 8
  t : Vector (Vector W32 256) 4
  y : Vector (BitVec 22) 4
  flags : BitVec 9
  runlen : Nat
deriving DecidableEq, Repr

/-- An open window stream (R241 to R245, R268 to R273): its sequence number, the descriptor copied by WOPEN, the ring index
of its first row, the rows or (with a graph) 64 B beats taken, and WFLUSH's request to end after the row in flight. With a
graph: whether the opening is done, the code table, the decode cell's bit position and symbols still to come, the valid
output words not yet delivered, the words delivered to a DRAM sink, and an error (KIND, ERRC) that stops the stream once the
words before it are delivered; `stopIn` counts the groups of 16 input beats that a stop lets it finish (R274); `heldFrom` is the
device cycle from which a packet waits for its queue, and `heldLogged` says that a long wait is logged (R282). `cutting`: the
launch has ended, and the stream goes on to the end of its group of 16 beats (R381, R388). `got`: what is read already of the row, the
beat or the table under way (R255). -/
structure Stream where
  id : Nat
  desc : Vector W64 18
  first : Nat
  next : Nat
  pc : Nat
  flush : Bool
  opened : Bool
  table : List Byte
  bitPos : Nat
  symLeft : Nat
  out : List W32
  outCount : Nat
  fail : Option (Nat × Nat)
  stopIn : Nat := 0
  heldFrom : Option Nat := none
  heldLogged : Bool := false
  cutting : Bool := false
  got : List Nat := []
deriving DecidableEq, Repr

/-- A window-engine context and the ring bound to its handle (R235 to R241). `parts` holds, per ring index from PROD,
the tower parts written since the row's last retirement. -/
structure Ring where
  desc : Vector W64 18
  bound : Bool
  raddr : Nat
  rows : Nat
  cmpr : Bool
  pkind : Nat
  done : Bool
  err : Bool
  prod : Nat
  ret : Nat
  parts : Tbl (BitVec 8)
  stream : Option Stream
deriving DecidableEq, Repr

/-- Matrix-unit operations (R326). -/
inductive MuKind where
  | mma | mmv | mldb | mdrain | mswap | mclr
deriving DecidableEq, Repr

/-- An operation record of the matrix unit (R314): set P until `begun`, then set A. `step` counts the k-steps done (rows
drained for MDRAIN); `bufA`, `bufB` and `side` hold the operand and side-stream bytes read for the step, `drain` the row
parts still to be drained, and `readyAt` the device cycle in which the operation completes once its operands are in (R333). A
`detached` drain writes no ring row (R321, R323), and a `stuck` one has found its ring full. -/
structure MuOp where
  kind : MuKind
  bank : Bool
  q : BitVec 2
  regs : Vector W64 12
  fmt : W64
  ovt : W64
  flush : Bool
  pc : Nat
  begun : Bool
  step : Nat
  bufA : List Byte
  bufB : List Byte
  side : List Byte
  drain : List (List (List Byte))
  readyAt : Option Nat
  detached : Bool := false
  stuck : Bool := false
deriving DecidableEq, Repr

/-- An accumulator bank: 64 × 64 elements, row-major, and its flags IV, OF, UF, IX, SA (R97, R332). -/
structure Bank where
  el : Vector W32 4096
  flags : BitVec 5
deriving DecidableEq, Repr

/-- A bulk copy (R336). Of the chunk under way `got` holds the bytes read and `put` counts those written (R255). `cutting`: its task's end has left
only that chunk of it (R388). -/
structure DmOp where
  id : Nat
  mode : BitVec 2
  src : Nat
  dst : Nat
  len : Nat
  bufV : Bool
  bufIx : Nat
  next : Nat
  pc : Nat
  got : List Byte := []
  put : Nat := 0
  cutting : Bool := false
deriving DecidableEq, Repr

/-- Express-port operations of a task (R334, R335): rows still to send, packets not yet landed, and ring parts landed. `detached`: the
receiver has closed the ring (R321). -/
structure XpOp where
  id : Nat
  h : BitVec 4
  i0 : Nat
  j0 : Nat
  nr : Nat
  sent : Nat
  x : Nat
  y : Nat
  rh : BitVec 4
  pc : Nat
  inNet : Nat
  landed : Nat := 0
  detached : Bool := false
deriving DecidableEq, Repr

/-- A FLOAD or FBIND on its way to a controller (R338), with the bytes read of its image (R255). -/
structure FbReq where
  bind : Bool
  chan : Nat
  ctx : Nat
  image : Nat
  pc : Nat
  got : List Byte := []
deriving DecidableEq, Repr

/-- What waits in the near-bank command port (R339, R341): packets, and fences with the copies and streams they wait on and the schedule
cycle of their bundle. -/
inductive NbPort where
  | packet (chan : Nat) (words : Vector W32 8) (doneVa : Nat) (pc : Nat) (since : Nat)
  | fence (ids : List Nat) (at_ : Nat)
deriving DecidableEq, Repr

/-- A posted publication (R362, R363): its sequence number, its entries, the copies and DRAM-sink streams it waits on, and the schedule
cycle of its bundle. -/
structure Pub where
  id : Nat
  first : Nat
  n : Nat
  ids : List Nat
  pc : Nat
  at_ : Nat := 0
deriving DecidableEq, Repr

/-- A posted LAUNCH request (R182). -/
structure LaunchReq where
  region : BitVec 16
  tail : BitVec 16
  pc : Nat
deriving DecidableEq, Repr

/-- A posted signal (R342). -/
structure Signal where
  vector : BitVec 10
  payload : W32
  pc : Nat
deriving DecidableEq, Repr

/-- A part waiting in a shift port (R308). -/
structure ShiftPart where
  cluster : Fin 8
  dir : Nat
  h : BitVec 4
  index : Nat
  bytes : List Byte
  ready : Nat
  pc : Nat
deriving DecidableEq, Repr

/-- Where a task stands: issuing; held before its bundle by a system-serviceable fault of an access (R371) or by a near-bank
packet's wait (R282); stopped (R388); ended by END (R181); ended by a terminal fault (R381). -/
inductive TaskState where
  | idle | running | held | nbHeld | stopped | ended | dead
deriving DecidableEq, Repr

/-- What placement binds a task to (R45, R80, R23) and its instruction store (R89). -/
structure Bind where
  tile : Nat
  launch : Nat
  tx : Nat
  ty : Nat
  w : Nat
  h : Nat
  region : Nat
  lease : Nat
  edge : BitVec 2
  refdef : Bool
  asid : BitVec 14
  ptroot : Nat
  store : List (BitVec 128)
  nbund : Nat
  trapV : Bool
  trapEnt : Nat
  thr : Nat
  hwErrs : Nat
deriving DecidableEq, Repr

/-- A fault to be taken at the next boundary: TRAPPC (none: the bundle that would issue), whether it is a hardware error
of the tile, which a restartable launch answers by re-execution (R396), and whether it is one that a stopped task takes where it
stands. -/
structure Pending where
  fault : FaultInfo
  pc : Option Nat
  redo : Bool := false
  now : Bool := false
deriving DecidableEq, Repr

/-- The sequencer (R101 to R109) and the trap machinery (R377 to R387). `resumed` marks waits that TRET has resumed: when
they end, bundle `pc` issues in the same schedule cycle (R387). `flush` is the F bit of the bundle being issued
(R92, R111); `lastPc` is the last bundle that issued (R91). Of a stall: its bundle, the device cycle it began in and that bundle's
schedule cycle; `freeAt` is the device cycle from which the bundle after it may issue (R106). `blocked`: the bundle to issue waits until an
access of its slot C can be judged or performed, since the device cycle `lockFrom` (R369). -/
structure Seq where
  state : TaskState
  pc : Nat
  scyc : Nat
  dcyc : Nat
  inflight : List Landing
  branch : Option Branch
  rep : Option Rep
  waits : List Wait
  waitPc : Nat
  waitFrom : Nat
  waitScyc : Nat := 0
  freeAt : Nat := 0
  blocked : Bool := false
  lockFrom : Option Nat := none
  lastPc : Nat
  resumed : Bool
  flush : Bool
  lastFault : Option FaultInfo
  saved : Option Record
  hnd : Bool
  trapPcSet : Bool
  pendingFault : Option Pending
  pendingForced : List (Nat × W64)
deriving DecidableEq, Repr

/-- Scalar, condition and control registers (R97, R98). -/
structure Regs where
  s : Vector W64 32
  c : Vector Bool 8
  vl : W64
  cma : W64
  cmb : W64
  fmt : W64
  tenab : W64
  mode : W64
  trapPc : W64
  trapCode : W64
  trapInfo : W64
  drift : W64
  ringErr : W64
  ovt : W64
  priv : Bool
deriving DecidableEq, Repr

/-- The tile's engines: shadow registers (R313), open counts (R315), operations and port buffers. -/
structure Engines where
  mu : Vector W64 12
  xp : Vector W64 3
  bc : Vector W64 5
  dm : Vector W64 4
  fb : Vector W64 3
  nb : Vector W64 3
  oMu : Nat
  oXp : Nat
  oBc : Nat
  oDm : Nat
  oFb : Nat
  oNb : Nat
  opSeq : Nat
  muOps : List MuOp
  bank0 : Bank
  bank1 : Bank
  batch : Option (Nat × BitVec 4 × List (List W32))
  bcRows : Nat
  dmOps : List DmOp
  xpOps : List XpOp
  fbReqs : List FbReq
  nbPort : List NbPort
  pubs : List Pub
  launchReqs : List LaunchReq
  sigs : List Signal
  shifts : List ShiftPart
  xbar : Vector Nat 3
deriving DecidableEq, Repr

/-- The reckoning state of a task (R402, R405). -/
structure Mark where
  dPrev : Nat
  driftPrev : Int
  armed : Bool
deriving DecidableEq, Repr

/-- What breakpoints and step counts leave with a task (R415, R416, R425): whether each breakpoint has matched before the bundle about to
issue, the issues after which it stops again, whether that made the stop that holds, and the bytes of its context image written in the debug
stop, the latest first. -/
structure Watch where
  seen0 : Bool := false
  seen1 : Bool := false
  steps : Option Nat := none
  stepped : Bool := false
  ctx : List Host.Cell := []
deriving DecidableEq, Repr

/-- A tile task: everything a save area holds (R390), SSTATE of its save area (R391), and the binding that placement gives it. -/
structure Task where
  bnd : Bind
  seq : Seq
  reg : Regs
  cl : Vector Cluster 8
  smem : Memory
  rings : Vector Ring 16
  eng : Engines
  mark : Mark
  area : Nat := 0
  watch : Watch := {}
deriving DecidableEq, Repr

/-- The effective values a launch holds from its admission (R12, R13, R15). -/
structure Effective where
  prio : Nat
  fdpol : Nat
  preempt : Bool
  gang : Bool
  restart : Bool
  refdef : Bool
  sliced : Bool
  slPeriod : Nat
  slLen : Nat
  slOffs : Nat
  asid : BitVec 14
  ptroot : Nat
  ovt : W32
  maxTiles : Nat
  towKib : Nat
  fabCtx : Nat
  nbShare : Nat
  ageLim : Nat
  wdogDef : Nat
  root : Bool
  /-- Region identifier and effective MAXTILES, TOWKIB and FABCTX of the region and of each ancestor. -/
  chain : List (Nat × Nat × Nat × Nat)
deriving DecidableEq, Repr

/-- A dependence of a launch (R17). -/
structure Dep where
  va : Nat
  thr : W64
  sat : Bool
deriving DecidableEq, Repr

/-- The stages of a launch (Launching; R388 to R393; R417, R418). -/
inductive Phase where
  | waiting | eligible | chosen | resident | stopping | saving | preempted | restoring | debug | draining
deriving DecidableEq, Repr

/-- The failing task of a launch (R28). -/
structure Failing where
  fx : Nat
  fy : Nat
  fpc : Nat
  fcode : BitVec 16
  finfo : W64
deriving DecidableEq, Repr

/-- An access remembered for race detection (R368): sector, phase, tile of the task, and whether it wrote. -/
structure RaceMark where
  sector : Nat
  phase : Nat
  tile : Nat
  wrote : Bool
deriving DecidableEq, Repr

/-- A broadcast-column transfer (R246, R324). `got` holds the bytes read of the row under way (R255),
and `off` the tiles of receivers that have closed the ring (R321). -/
structure BcXfer where
  launch : Nat
  tile : Nat
  src : Nat
  y0 : Nat
  y1 : Nat
  tset : BitVec 8
  rows : Nat
  raddr : Nat
  ring : Option (BitVec 4)
  next : Nat
  pc : Nat
  at_ : Nat
  got : List Byte := []
  off : List Nat := []
deriving DecidableEq, Repr

/-- What an express packet does on landing (R334, R335). -/
inductive PacketBody where
  | ringPart (h : BitVec 4) (index : Nat) (tower : Fin 8) (bytes : List Byte)
  | towerRow (cluster : Fin 8) (addr : Nat) (bytes : List Byte)
  | readReq (cluster : Fin 8) (addr : Nat) (back : Fin 8) (backAddr : Nat)
  | readReply (cluster : Fin 8) (addr : Nat) (bytes : List Byte)
deriving DecidableEq, Repr

/-- A packet in the express network (R247). -/
structure Packet where
  launch : Nat
  src : Nat
  op : Nat
  dst : Nat
  pc : Nat
  body : PacketBody
deriving DecidableEq, Repr

/-- A task image as placement reads it (R21, R22, R90). -/
structure Image where
  nbund : Nat
  entry : Nat
  trapV : Bool
  trapEnt : Nat
  store : List (BitVec 128)
  presets : List (BitVec 4 × Bool × Nat × Nat)
  sdDest : Nat
  sd : List Byte
  argOff : Nat
deriving DecidableEq, Repr

/-- Tower rows of a tile saved for a launch (R392): those of lease units lo to hi − 1, by logical tower and byte; `bad` names those that were
read poisoned, by logical tower and row (R252). -/
structure SavedRows where
  tile : Nat
  lo : Nat
  hi : Nat
  bytes : Memory
  full : List Nat
  bad : List Nat := []
deriving DecidableEq, Repr

/-- An admitted launch (R16 to R20, R28, R39 to R57). `onGrid`: its tiles are held; `contexts`, `rows`, `xfers`, `packets`
and `defers` (tile, tower, end of a pending REFDEFER) are what a save keeps (R388 to R392); `aborted`: ABORT waits for a stop, save or restore to end (R422). `ctxBound`: the stream contexts that its FBINDs have taken, which
count until it retires (R266). `seen`: the reads of its image that a check waiting for a page has done (R20, R90). `leaving`: its tiles are being
cleared while its completion waits, those of `cleared` are free already (R418). `stopPt`: PTIME at the completion of its last stop (R391). `step2`: a restore's stores are reloaded
(R393). `bars` counts the instances of group 0 that have completed, `barLines` those of each row and column (R397). `ckpt`: a checkpoint saved it and resumes it (R428). `wdogPart`: quarter-nanoseconds that the watchdog has counted of the current microsecond (R54). -/
structure Launch where
  id : Nat
  region : Nat
  w : Nat
  h : Nat
  cls : Nat
  pclip : Bool
  restart : Bool
  edge : BitVec 2
  gang : Nat
  gangKey : Nat
  image : Nat
  argPtr : Nat
  argLen : Nat
  argBytes : List Byte
  img : Option Image
  ccaddr : Nat
  craddr : Nat
  towLease : Nat
  wdogLeft : Nat
  tag : W64
  deps : List Dep
  eff : Effective
  phase : Phase
  onGrid : Bool
  thr : Nat
  since : Nat
  aged : Bool
  exclSince : Option Nat
  origin : Nat × Nat
  placedAt : Option Nat
  status : Status
  recbad : Bool
  imgbad : Bool
  restarts : Nat
  finfo : W64
  failing : Option Failing
  phaseCnt : Nat
  bars : Nat
  races : List RaceMark
  why : StopWhy
  acks : List (Nat × EngineUnit)
  stopAt : Nat
  saveAt : Nat
  contexts : List Task
  rows : List SavedRows
  xfers : List BcXfer
  packets : List Packet
  defers : List (Nat × Nat × Nat)
  aborted : Bool
  ctxBound : List Nat := []
  seen : List (List Byte) := []
  leaving : Bool := false
  cleared : List Nat := []
  ckpt : Bool := false
  stopPt : Nat := 0
  step2 : Bool := false
  wdogPart : Nat := 0
  barLines : Tbl Nat := []
deriving DecidableEq, Repr

/-- A region's doorbell (R30); for R47 the tail values of accepted writes that admission has not passed, and the gang whose
records are being admitted: its key, the records still to come, and whether the run is too long. `ahead` holds the first pieces, 32 B each, of
the records from ACUR on that have been read already, and `held` the launch whose record is read and whose checks wait for a page (R19, R20;
log entry 64). -/
structure Doorbell where
  acur : Nat
  headv : Nat
  terr : Bool
  tail : Nat
  live : Bool
  rcba : Nat
  batches : List Nat
  run : Option (Nat × Nat × Bool)
  ahead : List (List Byte) := []
  held : Option Launch := none
deriving DecidableEq, Repr

/-- A logical tile's remap entry (R61). -/
structure RemapEntry where
  fenced : Bool
  px : Nat
deriving DecidableEq, Repr

/-- A tower chart entry (R65). -/
structure ChartEntry where
  layMask : BitVec 8
  rclass : Nat
  tstate : Nat
deriving DecidableEq, Repr

/-- A tile or tower copy under way (R74 to R77): destination column, or the spare tower. -/
structure CopyJob where
  tile : Nat
  tower : Option (BitVec 3)
  dest : Nat
deriving DecidableEq, Repr

/-- A thermal sensor (R78, R79), in tenths of a degree; `hist` holds the last ten samples, newest first. -/
structure Sensor where
  value : Int
  valid : Bool
  good : Nat
  recal : Bool
  hist : List Int
deriving DecidableEq, Repr

/-- A physical column's clock in sixteenths of nominal (R80, R432), its phase, and its exclusions (R43, R79, R80). -/
structure Column where
  clk : Nat
  phase : Nat
  exclNonPre : Bool
  exclAll : Bool
  temp : Int
deriving DecidableEq, Repr

/-- A physical tower's refresh (R253, R343): end of its last pass, the pass running (its end, whether forced), and the
end of a deferral. -/
structure Refresh where
  lastEnd : Nat
  pass : Option (Nat × Bool)
  defer : Option Nat
deriving DecidableEq, Repr

/-- Patrol-scrubber history of 64 rows (R252). -/
structure ScrubHist where
  corrected : Nat
  bad : Bool
  time : Nat
deriving DecidableEq, Repr

/-- A graph node (R262). -/
structure Node where
  op : Nat
  srcA : Nat
  srcB : Nat
  lut : Nat
  imm : W32
  xinit : W32
  yinit : W32
deriving DecidableEq, Repr

/-- A loaded graph image (R261). -/
structure Graph where
  nodes : List Node
  outn : Nat
  sink : Nat
  decode : Bool
  outw : Nat
  luts : List (List Byte)
  sinkAddr : Nat
  sinkLen : Nat
deriving DecidableEq, Repr

/-- A stream context of a traverse fabric (R264, R267). -/
structure FabCtx where
  state : Nat
  errc : Nat
  cells : Nat
  beats : Nat
  graph : Option Graph
  tile : Nat
  launch : Nat
  x : List W32
  spilled : Bool
deriving DecidableEq, Repr

/-- A near-bank command in a channel's queue (R276, R278); `stream` names the handle, stream and context of a fabric packet. -/
structure NbCmd where
  launch : Nat
  tile : Nat
  region : Nat
  words : Vector W32 8
  doneVa : Nat
  pc : Nat
  stream : Option (BitVec 4 × Nat × Nat)
deriving DecidableEq, Repr

/-- A near-bank unit (R274 to R283): queue; the issuer (launch, tile) whose command it is executing and its µPC; the µPCs spilled;
and the accumulators of each issuer. `busyTo` is the end of the row operation under way, with the bank turnaround behind it once `turned` (R279). -/
structure Nbu where
  queue : List NbCmd
  upc : Nat
  accs : List ((Nat × Nat) × Vector (Vector W32 256) 4)
  idleFrom : Nat
  busyTo : Nat
  starts : Nat
  period : Nat
  owner : Option (Nat × Nat)
  spilled : List ((Nat × Nat) × Nat)
  turned : Bool := false
deriving DecidableEq, Repr

/-- A trace record (R406). -/
structure TraceRec where
  kind : BitVec 8
  tx : BitVec 5
  ty : BitVec 5
  pc : BitVec 13
  tag : BitVec 10
  scyc : BitVec 48
  launch : BitVec 32
  d0 : W64
  d1 : W64
deriving DecidableEq, Repr

/-- A filter at work on a record (R409): g0 to g7, the index and the instructions executed; `verdict` once VERD has run. -/
structure FilterRun where
  g : Vector W64 8
  ix : Nat
  rec_ : TraceRec
  verdict : Option (BitVec 2 × BitVec 3)
  steps : Nat
deriving DecidableEq, Repr

/-- A logline core (R407 to R410, R424). `pending` is a filter under verification; `turn` is the tile whose port was served last;
the filter is at work while `busy`, and the next record is dequeued from `busyTo` on. `own` holds records that come from no tile's port, until the queue takes them (log entry 13);
`took` is the last device cycle in which the queue took a record. -/
structure Logline where
  trbase : W64
  trlog2 : Nat
  trhead : Nat
  trtail : Nat
  qlost : Nat
  queue : List TraceRec
  filter : List W64
  window : Tbl W64
  pending : Option (List W64)
  accepted : Option (List W64)
  check : Nat
  index : Nat
  run : FilterRun
  turn : Nat
  busyTo : Nat
  own : List TraceRec := []
  took : Option Nat := none
  busy : Bool := false
deriving DecidableEq, Repr

/-- A tile's debug and trace registers (R407, R415, R416, R425). -/
structure TileDbg where
  bkp0 : W64
  bkp1 : W64
  trEn : Bool
  port : List TraceRec
  trlost : Nat
  page : BitVec 2
deriving DecidableEq, Repr

/-- A fix being made (R413): cycle and source of its first assertion, SNAP's code, and the tile and record of the task that made it. -/
structure FixPend where
  at_ : Nat
  src : Nat
  code : BitVec 8
  tile : Option Nat
  rec_ : TraceRec
deriving DecidableEq, Repr

/-- What a fix latched of a tile (R413). -/
structure TileSnap where
  scyc : Nat
  dcyc : Nat
  pc : Nat
  open_ : List Nat
  rings : List W64
deriving DecidableEq, Repr

/-- A cached leaf (R86): ASID, size code, page number, and the leaf entry. -/
structure TlbEntry where
  asid : BitVec 14
  size : Nat
  page : Nat
  pte : W64
deriving DecidableEq, Repr

/-- A TLBINV not yet complete (R399, R400). -/
structure TlbInv where
  mode : BitVec 2
  va : Nat
  asid : BitVec 14
  tile : Nat
  issued : Nat
deriving DecidableEq, Repr

/-- A write performed at a scope narrower than its home (R349): held by the tile's memory port, or by the device's
Rhumb or PCI Express port (`dev`). The writes of a port stand in their order of arrival there. `launch` is its task's;
of a write of the task itself `pc`, `at_` and `va` are its bundle, that bundle's schedule cycle, and its address. -/
structure PortWrite where
  tile : Nat
  place : Place
  bytes : List Byte
  dev : Bool
  launch : Nat := 0
  pc : Nat := 0
  at_ : Nat := 0
  va : Nat := 0
deriving DecidableEq, Repr

/-- Device time, PTP (R4, R429; `ptpSlew` is the correction still to be slewed, in quarter-nanoseconds), and what happens next: the events of this device cycle, those of the cycles to come,
and the tiles whose tasks have still to issue in this cycle. `free` numbers the free values. `edgeQ` is PTIME at the edge that began this
cycle, and `step` what PTIME grew by since the edge before it (R51). `jumpQ` is the size of the forward set at the first lock, and `jumpAt` PTIME
after it (R429). -/
structure Clock where
  tick : Nat
  ptimeQ : Nat
  ptpState : Nat
  ptpSlew : Int
  free : Nat
  agenda : List Instr
  inputs : List (List Instr)
  turn : List Nat
  step : Nat := 5
  edgeQ : Nat := 0
  jumpQ : Nat := 0
  jumpAt : Option Nat := none
deriving DecidableEq, Repr

/-- What is still to do of a host's or peer's access to local HBM, piece by piece (R255, R419): the address and length left, the bytes to write, none
for a read, and those read so far. -/
structure HostWork where
  pa : Nat
  n : Nat
  data : Option (List Byte)
  got : List Byte
deriving DecidableEq, Repr

/-- The memories, the tiles' memory ports, translation caches and compressed pages: `slots` holds the slot codes of a page,
`regrow` the blocks of a locked page whose relayout is still to be done, and `lockQ` the requests that wait for a locked page, in
arrival order: page, tile, and the unit of the tile that made it, or launch or channel and 21 or 22 (R250, R251). -/
structure Mem where
  hbm : Memory
  host : Memory
  peer : Memory
  towers : Memory
  full : List Nat
  hbmBad : List Nat
  towerBad : List Nat
  wport : List PortWrite
  lastRead : List Byte
  tlb1 : Tbl (List TlbEntry)
  tlb2 : Tbl (List TlbEntry)
  tlbInvs : List TlbInv
  unres : List (Nat × Nat)
  deadPeers : List Nat
  locked : List Nat
  slots : Tbl (List Nat)
  regrow : Tbl (Tbl (List Byte))
  lockQ : List (Nat × Nat × Nat)
  hostQ : Option HostWork := none
deriving DecidableEq, Repr

/-- The scheduler (R30 to R59), the events the pilot controller logs, and tiles whose lease is being cleared (R73). `passDue`: an event of R39
has come since the last pass began. -/
structure Sched where
  doorbells : Tbl Doorbell
  launches : List Launch
  nextId : Nat
  nextGang : Nat
  visited : Tbl Nat
  deficits : Tbl Nat
  lastPass : Nat
  log : List (Nat × Nat)
  everPlaced : Bool
  clearing : List (Nat × Nat)
  passDue : Bool := false
deriving DecidableEq, Repr

/-- The tables of placement (R61 to R68) and the copies under way (R74). -/
structure Placing where
  remap : Tbl RemapEntry
  tstat : Tbl Nat
  tmap : Tbl W32
  chart : Tbl ChartEntry
  copies : List CopyJob
deriving DecidableEq, Repr

/-- Temperature, power, refresh, scrubbing, retraining (R67, R78 to R80, R252 to R254, R395, R427, R432). `retrainAt` holds the device cycle in
which the retraining of a channel began. -/
structure Env where
  sensors : Tbl Sensor
  columns : Tbl Column
  pmode : Nat
  pmodeAct : Nat
  refresh : Tbl Refresh
  hbmHist : Tbl ScrubHist
  towHist : Tbl ScrubHist
  retrain : List Nat
  rateChange : List Nat
  linksDown : List Nat
  coolantLow : Bool
  retrainAt : Tbl Nat := []
deriving DecidableEq, Repr

/-- What stands between tiles: broadcast columns, express packets, traverse fabrics, near-bank units. `curChan`, `curCmd`
name the unit and command that a near-bank microinstruction acts for. -/
structure Net where
  bcols : Tbl (List BcXfer)
  packets : List Packet
  fab : Tbl FabCtx
  nbu : Tbl Nbu
  curChan : Nat
  curCmd : NbCmd
deriving DecidableEq, Repr

/-- Observation (R402 to R416): the reckoning log, logline cores, tile debug registers, counters, the fix. `curCore`
names the core that a filter instruction acts for. `hits` holds the counters that have counted in this device cycle, as they stood before, and whether they
wrapped; `written` those written in it, with what their count would be without the write (R412). `asked`: the channels that have served an
ordinary request in it (R279). -/
structure Obs where
  rkbase : W64
  rklog2 : Nat
  rkhead : Nat
  rktail : Nat
  rklost : Nat
  thr : Tbl Nat
  cores : Tbl Logline
  curCore : Nat
  dbg : Tbl TileDbg
  counters : Tbl W64
  fixHeld : Bool
  fixSeq : BitVec 16
  fixCode : BitVec 8
  fixSrc : Nat
  fixMissed : Nat
  fixPend : Option FixPend
  fixDc : Nat
  snaps : Tbl TileSnap
  snapFab : Tbl W64
  snapNbu : Tbl (Nat × Nat)
  snapCnt : Tbl W64
  hits : Tbl (W64 × Bool) := []
  written : Tbl Nat := []
  asked : List Nat := []
deriving DecidableEq, Repr

/-- A signed report (R430): the requester's nonce, PTIME, the leaf that signed it, the device identifier, and the measurements of boot ROM, firmware
and graph loader. -/
structure Report where
  nonce : BitVec 256
  ptime : Nat
  leaf : Nat
  devid : Nat
  rom : BitVec 256
  firmware : BitVec 256
  loader : BitVec 256
deriving DecidableEq, Repr

/-- The save areas of a launch in firmware-reserved HBM (R390, R392). -/
structure SaveArea where
  launch : Nat
  contexts : List Task
  rows : List SavedRows
deriving DecidableEq, Repr

/-- The image of a checkpoint (R428): HBM and towers, and the save areas. -/
structure Ckpt where
  mem : Mem
  areas : List SaveArea
deriving DecidableEq, Repr

/-- The management space (R421 to R423), host signals with the MSI-X vectors that are masked and pending (R420), firmware and identity (R430),
the checkpoint: its image, the save areas that a restore has written back, and whether one is stopping and saving the launches (R428). -/
structure Mgmt where
  devid : Nat
  cntvec : BitVec 10
  sigbase : W64
  siglog2 : Nat
  sighead : Nat
  sigtail : Nat
  msix : List (BitVec 10)
  devSigs : List (BitVec 10 × W32)
  scrubh : Nat
  scrubt : Nat
  mbReq : Bool
  mbRsp : Bool
  mbRspLen : Nat
  mbReqLen : Nat
  mbBuf : Memory
  mbTaken : List Byte
  bmbase : Tbl W64
  nbarb : Tbl W32
  fwVersion : BitVec 32
  fwMin : BitVec 32
  fwSince : Nat
  fwNext : Option (BitVec 32)
  fwRefused : Bool
  leaf : Nat
  reportDay : Nat
  reports : Nat
  lastReport : Option Report
  reportStale : Bool
  ckpt : Option Ckpt
  msixMask : List Nat := []
  msixPend : List Nat := []
  areas : List SaveArea := []
  saving : Bool := false
deriving DecidableEq, Repr

/-- The whole device: the task whose bundle issues (`cur`), the other tasks, and the parts of the device. -/
structure State where
  clk : Clock
  cur : Task
  parked : List Task
  mem : Mem
  sched : Sched
  plc : Placing
  env : Env
  net : Net
  obs : Obs
  mgmt : Mgmt
deriving DecidableEq, Repr

/-! ## The state after reset -/

def Cluster.reset : Cluster :=
  { v := .replicate 32 [], k := .replicate 8 [], t := .replicate 4 (.replicate 256 0#32), y := .replicate 4 0#22,
    flags := 0#9, runlen := 0 }

def Ring.reset : Ring :=
  { desc := .replicate 18 0#64, bound := false, raddr := 0, rows := 0, cmpr := false, pkind := 0, done := false,
    err := false, prod := 0, ret := 0, parts := [], stream := none }

def Bank.reset : Bank := { el := .replicate 4096 0#32, flags := 0#5 }

def Bind.reset : Bind :=
  { tile := 0, launch := 0, tx := 0, ty := 0, w := 1, h := 1, region := 0, lease := 0, edge := 0#2, refdef := false,
    asid := 0#14, ptroot := 0, store := [], nbund := 0, trapV := false, trapEnt := 0, thr := 0, hwErrs := 0 }

def Seq.reset : Seq :=
  { state := .idle, pc := 0, scyc := 0, dcyc := 0, inflight := [], branch := none, rep := none, waits := [],
    waitPc := 0, waitFrom := 0, lastPc := 0, resumed := false, flush := false, lastFault := none, saved := none, hnd := false, trapPcSet := false, pendingFault := none,
    pendingForced := [] }

/-- The registers at the values of R98 and R100. -/
def Regs.reset : Regs :=
  { s := .replicate 32 0#64, c := .replicate 8 false, vl := 16#64, cma := 0xFF#64, cmb := 0#64, fmt := 0#64,
    tenab := 0#64, mode := 0#64, trapPc := 0#64, trapCode := 0#64, trapInfo := 0#64, drift := 0#64, ringErr := 0#64,
    ovt := 0#64, priv := false }

def Engines.reset : Engines :=
  { mu := .replicate 12 0#64, xp := .replicate 3 0#64, bc := .replicate 5 0#64, dm := .replicate 4 0#64,
    fb := .replicate 3 0#64, nb := .replicate 3 0#64, oMu := 0, oXp := 0, oBc := 0, oDm := 0, oFb := 0, oNb := 0,
    opSeq := 0, muOps := [], bank0 := .reset, bank1 := .reset, batch := none, bcRows := 0, dmOps := [], xpOps := [],
    fbReqs := [], nbPort := [], pubs := [], launchReqs := [], sigs := [], shifts := [], xbar := .replicate 3 0 }

def Mark.reset : Mark := { dPrev := 0, driftPrev := 0, armed := false }

/-- A tile with no task: the register values of R98 and R100, nothing in flight, no bundle in the store. -/
def Task.blank : Task :=
  { bnd := .reset, seq := .reset, reg := .reset, cl := .replicate 8 .reset, smem := [], rings := .replicate 16 .reset,
    eng := .reset, mark := .reset }

def Doorbell.reset : Doorbell :=
  { acur := 0, headv := 0, terr := false, tail := 0, live := false, rcba := 0, batches := [], run := none }

/-- A good tower of the nominal layer count; R65 gives the chart no reset (log entry 2). -/
def ChartEntry.reset (position : Nat) : ChartEntry :=
  { layMask := if position = 0 ∨ position = 7 then 0x3F#8 else 0xFF#8, rclass := 0, tstate := 0 }

/-- A sensor before its first sample reads 25 degrees (log entry 2). -/
def Sensor.reset : Sensor := { value := 250, valid := true, good := 0, recal := false, hist := [] }

def Column.reset : Column := { clk := 16, phase := 0, exclNonPre := false, exclAll := false, temp := 250 }

def Refresh.reset : Refresh := { lastEnd := 0, pass := none, defer := none }

def ScrubHist.reset : ScrubHist := { corrected := 0, bad := false, time := 0 }

def FabCtx.reset : FabCtx :=
  { state := 0, errc := 0, cells := 0, beats := 0, graph := none, tile := 0, launch := 0, x := [], spilled := false }

def Nbu.reset : Nbu :=
  { queue := [], upc := 0, accs := [], idleFrom := 0, busyTo := 0, starts := 0, period := 0,
    owner := none, spilled := [] }

def NbCmd.reset : NbCmd :=
  { launch := 0, tile := 0, region := 0, words := .replicate 8 0#32, doneVa := 0, pc := 0, stream := none }

def TraceRec.reset : TraceRec :=
  { kind := 0#8, tx := 0#5, ty := 0#5, pc := 0#13, tag := 0#10, scyc := 0#48, launch := 0#32, d0 := 0#64, d1 := 0#64 }

def FilterRun.reset : FilterRun := { g := .replicate 8 0#64, ix := 0, rec_ := .reset, verdict := none, steps := 0 }

/-- After reset a core's filter is the single instruction VERD keep (R410). -/
def Logline.reset : Logline :=
  { trbase := 0#64, trlog2 := 8, trhead := 0, trtail := 0, qlost := 0, queue := [],
    filter := [0x2000000000000000#64], window := [], pending := none, accepted := none, check := 0, index := 0,
    run := .reset, turn := 0, busyTo := 0 }

def TileDbg.reset : TileDbg :=
  { bkp0 := 0#64, bkp1 := 0#64, trEn := true, port := [], trlost := 0, page := 0#2 }

def Clock.reset : Clock :=
  { tick := 0, ptimeQ := 0, ptpState := 0, ptpSlew := 0, free := 0, agenda := [], inputs := [],
    turn := [] }

def Mem.reset : Mem :=
  { hbm := [], host := [], peer := [], towers := [], full := [], hbmBad := [], towerBad := [], wport := [],
    lastRead := [], tlb1 := [], tlb2 := [], tlbInvs := [], unres := [], deadPeers := [], locked := [], slots := [], regrow := [], lockQ := [] }

def Sched.reset : Sched :=
  { doorbells := [], launches := [], nextId := 1, nextGang := 1, visited := [], deficits := [], lastPass := 0,
    log := [], everPlaced := false, clearing := [] }

/-- No tower fails and every tile stands in its reset place. No rule gives the contents of the die's test record: it is taken to name no bad
tile, so the remap table stays at its reset entries, and no event rewrites it from that record (R61; log entry 77). -/
def Placing.reset : Placing := { remap := [], tstat := [], tmap := [], chart := [], copies := [] }

def Env.reset : Env :=
  { sensors := [], columns := [], pmode := 0, pmodeAct := 0, refresh := [], hbmHist := [], towHist := [],
    retrain := [], rateChange := [], linksDown := [], coolantLow := false }

def Net.reset : Net := { bcols := [], packets := [], fab := [], nbu := [], curChan := 0, curCmd := .reset }

def Obs.reset : Obs :=
  { rkbase := 0#64, rklog2 := 8, rkhead := 0, rktail := 0, rklost := 0, thr := [], cores := [], curCore := 0,
    dbg := [], counters := [], fixHeld := false, fixSeq := 0#16, fixCode := 0#8, fixSrc := 0, fixMissed := 0,
    fixPend := none, fixDc := 0, snaps := [], snapFab := [], snapNbu := [], snapCnt := [] }

def Mgmt.reset : Mgmt :=
  { devid := 0, cntvec := 0#10, sigbase := 0#64, siglog2 := 8, sighead := 0, sigtail := 0, msix := [], devSigs := [],
    scrubh := 24, scrubt := 60, mbReq := false, mbRsp := false, mbRspLen := 0, mbReqLen := 0, mbBuf := [],
    mbTaken := [], bmbase := [], nbarb := [], fwVersion := 0#32, fwMin := 0#32, fwSince := 0, fwNext := none,
    fwRefused := false, leaf := 0, reportDay := 0, reports := 0, lastReport := none, reportStale := false,
    ckpt := none }

/-- The device right after reset (R73, R61, R68 and the Reset columns of the register maps): no task is bound, every
tower is clear, and every table holds its reset entries. -/
def State.reset : State :=
  { clk := .reset, cur := .blank, parked := [], mem := .reset, sched := .reset, plc := .reset, env := .reset,
    net := .reset, obs := .reset, mgmt := .reset }

end Sys2Proof.Machine
end

