-- ==== Sys2Proof/Machine/Ops.lean ====
section
/-! DEFINITION. The named operations every meaning is written with: vectors and tables, byte memories in canonical form,
registers, landings (R102, R104), control registers (R98, R185, R186), and taking a fault or a trap and returning from it
(R371 to R387). -/

namespace Sys2Proof.Machine

/-- What `exec` and `step` answer. -/
abbrev Out := Host.Outcome State Fault Refusal

/-! ### Fixed vectors and tables -/

def vat {α : Type} {n k : Nat} (v : Vector α n) (i : BitVec k) (h : 2 ^ k = n := by decide) : α :=
  v[i.toNat]'(h ▸ i.isLt)

def vput {α : Type} {n k : Nat} (v : Vector α n) (i : BitVec k) (x : α) (h : 2 ^ k = n := by decide) : Vector α n :=
  v.set i.toNat x (h ▸ i.isLt)

/-- The entry for key `k`, or the table's reset record. -/
def tget {α : Type} (dflt : α) : Tbl α → Nat → α
  | [], _ => dflt
  | (k, v) :: t, i => if k == i then v else tget dflt t i

/-- The table with entry `i` replaced, keys rising. -/
def tput {α : Type} (i : Nat) (x : α) : Tbl α → Tbl α
  | [] => [(i, x)]
  | (k, v) :: t => if i < k then (i, x) :: (k, v) :: t else if i = k then (i, x) :: t else (k, v) :: tput i x t

/-- Insertion into a rising list without repeats. -/
def insertNat (i : Nat) : List Nat → List Nat
  | [] => [i]
  | k :: t => if i < k then i :: k :: t else if i = k then k :: t else k :: insertNat i t

def eraseNat (i : Nat) (l : List Nat) : List Nat := l.filter (· != i)

/-- Insertion sort by a strict order; equal elements keep their order. -/
def insertBy {α : Type} (lt : α → α → Bool) (x : α) : List α → List α
  | [] => [x]
  | y :: t => if lt x y then x :: y :: t else y :: insertBy lt x t

def sortBy {α : Type} (lt : α → α → Bool) (l : List α) : List α := l.foldl (fun acc x => insertBy lt x acc) []

/-- The eight clusters. -/
def clusters : List (Fin 8) := [0, 1, 2, 3, 4, 5, 6, 7]

/-! ### Byte memories -/

/-- The byte at an address. -/
def Memory.get : Memory → Nat → Byte
  | [], _ => unlisted
  | (a, b) :: m, i => if a = i then b else Memory.get m i

/-- A memory with one byte replaced, in canonical form. -/
def Memory.put (i : Nat) (x : Byte) : Memory → Memory
  | [] => if x = unlisted then [] else [(i, x)]
  | (a, b) :: m =>
    if i < a then (if x = unlisted then (a, b) :: m else (i, x) :: (a, b) :: m)
    else if i = a then (if x = unlisted then m else (i, x) :: m)
    else (a, b) :: Memory.put i x m

/-- `n` bytes from an address. -/
def Memory.bytes (m : Memory) (a : Nat) : Nat → List Byte
  | 0 => []
  | n + 1 => m.get a :: Memory.bytes m (a + 1) n

/-- A list of bytes written from an address on. -/
def Memory.putBytes (m : Memory) (a : Nat) : List Byte → Memory
  | [] => m
  | b :: bs => Memory.putBytes (m.put a b) (a + 1) bs

/-- Addresses from `a` to `a + n − 1` back to what an unlisted byte reads as. -/
def Memory.clearRange (m : Memory) (a n : Nat) : Memory := m.filter fun c => !(a ≤ c.1 && c.1 < a + n)

/-- The canonical form: addresses strictly rising, no entry equal to what an unlisted address reads as. -/
def Memory.wf : Memory → Bool
  | [] => true
  | [(_, b)] => b != unlisted
  | (a, b) :: (a', b') :: m => b != unlisted && decide (a < a') && Memory.wf ((a', b') :: m)

/-- Little-endian value of bytes (R3). -/
def leNat : List Byte → Nat
  | [] => 0
  | b :: bs => b.toNat + 256 * leNat bs

/-- The low `n` bytes of a number, little-endian. -/
def leBytes (x : Nat) : Nat → List Byte
  | 0 => []
  | n + 1 => BitVec.ofNat 8 x :: leBytes (x / 256) n

def zeros (n : Nat) : List Byte := List.replicate n 0#8

/-! ### Parts of the state -/

def State.modSeq (s : State) (f : Seq → Seq) : State := { s with cur := { s.cur with seq := f s.cur.seq } }
def State.modReg (s : State) (f : Regs → Regs) : State := { s with cur := { s.cur with reg := f s.cur.reg } }
def State.modEng (s : State) (f : Engines → Engines) : State := { s with cur := { s.cur with eng := f s.cur.eng } }

/-- Every task of the device, the current one first. -/
def State.tasks (s : State) : List Task := s.cur :: s.parked

/-- A change made to every task. -/
def State.mapTasks (s : State) (f : Task → Task) : State := { s with cur := f s.cur, parked := s.parked.map f }

/-- A change made to the tasks bound to one tile. -/
def State.onTile (s : State) (tile : Nat) (f : Task → Task) : State :=
  s.mapTasks fun t => if t.bnd.tile = tile then f t else t

/-- Whether placement has bound a task (R45). -/
def Task.bound (t : Task) : Bool := t.bnd.launch != 0

/-- The task on a tile. -/
def State.taskOn (s : State) (tile : Nat) : Option Task := s.tasks.find? fun t => t.bound && t.bnd.tile = tile

def State.modLaunch (s : State) (id : Nat) (f : Launch → Launch) : State :=
  { s with sched := { s.sched with launches := s.sched.launches.map fun l => if l.id = id then f l else l } }

def State.launch? (s : State) (id : Nat) : Option Launch := s.sched.launches.find? fun l => l.id == id

/-- PTP time in whole ns (R4, R98). -/
def State.ptime (s : State) : Nat := s.clk.ptimeQ / 4

/-- Whole ns elapsed since reset by the reference oscillator, disciplined by PTP once locked: PTIME less its forward set (R429). Refresh,
deferrals, aging and the watchdog count by it. -/
def State.elapsed (s : State) : Nat := (s.clk.ptimeQ - s.clk.jumpQ) / 4

/-- One free value: whether the next allowed choice falls on the second alternative. -/
def State.choose (s : State) : Bool × State :=
  (Config.freeBool s.clk.free, { s with clk := { s.clk with free := s.clk.free + 1 } })

/-! ### Scalar and condition registers (R97, R160) -/

def Regs.sreg (g : Regs) (r : BitVec 5) : W64 := if r = 0#5 then 0#64 else vat g.s r
def Regs.setS (g : Regs) (r : BitVec 5) (v : W64) : Regs := if r = 0#5 then g else { g with s := vput g.s r v }
def Regs.creg (g : Regs) (r : BitVec 3) : Bool := if r = 0#3 then true else vat g.c r
def Regs.setC (g : Regs) (r : BitVec 3) (v : Bool) : Regs := if r = 0#3 then g else { g with c := vput g.c r v }

def State.sreg (s : State) (r : BitVec 5) : W64 := s.cur.reg.sreg r
def State.creg (s : State) (r : BitVec 3) : Bool := s.cur.reg.creg r

/-- GuardTrue (R101). -/
def State.guard (s : State) (q : BitVec 3) (n : Bool) : Bool := s.creg q != n

/-! ### Landings -/

/-- An issued result on its way to its landing cycle (R102). -/
def State.push (s : State) (l : Landing) : State := s.modSeq fun q => { q with inflight := q.inflight ++ [l] }

/-- Land(dest, value, latency) by a slot of the bundle issued now. -/
def State.land (s : State) (slot lat : Nat) (d : Dest) : State :=
  s.push { at_ := s.cur.seq.scyc, due := s.cur.seq.scyc + lat, slot := slot, dest := d }

/-- MODE fields (R99). -/
def Regs.split (g : Regs) : Bool := g.mode.getLsbD 0
def Regs.festrict (g : Regs) : Bool := g.mode.getLsbD 1

def Cluster.setV (c : Cluster) (r : BitVec 5) (x : Runs W32) : Cluster := { c with v := vput c.v r x }
def Cluster.vreg (c : Cluster) (r : BitVec 5) : Runs W32 := vat c.v r
/-- A write to k0 is discarded (R192). -/
def Cluster.setK (c : Cluster) (r : BitVec 3) (x : Runs Bool) : Cluster :=
  if r = 0#3 then c else { c with k := vput c.k r x }
/-- The content of k1 to k7; k0 has no content of its own and is read by length (R192). -/
def Cluster.kreg (c : Cluster) (r : BitVec 3) : Runs Bool := vat c.k r

/-- A change of one cluster of the current task. -/
def Task.modCl (t : Task) (i : Fin 8) (f : Cluster → Cluster) : Task := { t with cl := t.cl.set i (f t.cl[i]) }

/-- Writes a row of a tile register. -/
def Cluster.setRow (c : Cluster) (t : BitVec 2) (row : Fin 16) (vals : List (Fin 16 × W32)) : Cluster :=
  let old := vat c.t t
  { c with t := vput c.t t (vals.foldl (fun m p => m.set (16 * row.val + p.1.val) p.2 (by have := row.isLt; have := p.1.isLt; omega)) old) }

/-- The writable effect of MTC and of the other writers of control registers, at the landing (R186, R240, R55). -/
def Task.setCtl (t : Task) (num : BitVec 6) (sub : BitVec 4) (v : W64) : Task :=
  let g := t.reg
  match num.toNat with
  | 5 => { t with reg := { g with vl := v } }
  | 6 => { t with reg := { g with cma := v } }
  | 7 => { t with reg := { g with cmb := v } }
  | 8 => { t with reg := { g with fmt := v } }
  | 9 =>
    let clear (c : Cluster) : Cluster := { c with flags := c.flags &&& ~~~(v.extractLsb' 0 9) }
    if sub = 8#4 then { t with cl := t.cl.map clear }
    else if h : sub.toNat < 8 then t.modCl ⟨sub.toNat, h⟩ clear
    else t
  | 10 => { t with reg := { g with tenab := v } }
  | 11 => { t with reg := { g with mode := v } }
  | 16 => { t with reg := { g with trapPc := v }, seq := { t.seq with trapPcSet := t.seq.trapPcSet || t.seq.hnd } }
  | 17 => { t with reg := { g with trapCode := v } }
  | 18 => { t with reg := { g with trapInfo := v } }
  | 20 => { t with reg := { g with drift := v } }
  | 21 => { t with reg := { g with ringErr := g.ringErr &&& ~~~(v &&& 0xFFFF#64) } }
  | 32 => { t with reg := { g with ovt := v } }
  | 34 => { t with reg := { g with priv := g.priv && v.getLsbD 0 } }
  | _ => t

/-- An engine's shadow register (R311). -/
def Task.setEngine (t : Task) (e i : BitVec 5) (v : W64) : Task :=
  let setIf {n : Nat} (x : Vector W64 n) : Vector W64 n := x.setIfInBounds i.toNat v
  if e.toNat < 16 then
    { t with rings := vput t.rings (e.extractLsb' 0 4) { vat t.rings (e.extractLsb' 0 4) with
        desc := setIf (vat t.rings (e.extractLsb' 0 4)).desc } }
  else match e.toNat with
    | 16 => { t with eng := { t.eng with mu := setIf t.eng.mu } }
    | 17 => { t with eng := { t.eng with xp := setIf t.eng.xp } }
    | 18 => { t with eng := { t.eng with bc := setIf t.eng.bc } }
    | 19 => { t with eng := { t.eng with dm := setIf t.eng.dm } }
    | 20 => { t with eng := { t.eng with fb := setIf t.eng.fb } }
    | 21 => { t with eng := { t.eng with nb := setIf t.eng.nb } }
    | _ => t

/-- The value of a landing becomes the content of its destination. -/
def Task.deliver (t : Task) : Dest → Task
  | .sreg r v => { t with reg := t.reg.setS r v }
  | .creg r v => { t with reg := t.reg.setC r v }
  | .vreg r vals => vals.foldl (fun t p => t.modCl p.1 (·.setV r p.2)) t
  | .kreg r vals => vals.foldl (fun t p => t.modCl p.1 (·.setK r p.2)) t
  | .tileRow k row vals => vals.foldl (fun t p => t.modCl p.1 (·.setRow k row p.2)) t
  | .tileClear k cls => cls.foldl (fun t i => t.modCl i fun c => { c with t := vput c.t k (.replicate 256 0#32) }) t
  | .cursor y vals => vals.foldl (fun t p => t.modCl p.1 fun c => { c with y := vput c.y y p.2 }) t
  | .ctl num sub v => t.setCtl num sub v
  | .smem a bs => { t with smem := t.smem.putBytes a bs }
  | .engine e i v => t.setEngine e i v
  | .nothing => t

/-- The sticky flags and RUNLEN values that land with a result (R151, R197). -/
def Task.deliverFlags (t : Task) (l : Landing) : Task :=
  let t := l.flags.foldl (fun t p => t.modCl p.1 fun c => { c with flags := c.flags ||| p.2 }) t
  l.runlen.foldl (fun t p => t.modCl p.1 fun c => { c with runlen := p.2 }) t

/-- Order of landing in one cycle: the later-issued bundle last; within a bundle C, A, B, E (R104). -/
def Landing.before (a b : Landing) : Bool := a.at_ < b.at_ || (a.at_ == b.at_ && a.slot < b.slot)

/-- Everything due by the task's schedule cycle lands; flags after values, so that a flag set in the cycle of an MTC
clear stays set (R186). -/
def Task.landDue (t : Task) : Task :=
  let now := sortBy Landing.before (t.seq.inflight.filter fun l => l.due ≤ t.seq.scyc)
  let t1 := { t with seq := { t.seq with inflight := t.seq.inflight.filter fun l => !(l.due ≤ t.seq.scyc) } }
  let t2 := now.foldl (fun t l => t.deliver l.dest) t1
  now.foldl Task.deliverFlags t2

/-- WDOG written by MTC acts on the whole launch; the part of the microsecond that has run stays, so that a written 0 expires at the
next microsecond (R55; log entry 16). -/
def State.landWdog (s : State) : State :=
  s.cur.seq.inflight.foldl (fun s l =>
    match l.dest with
    | .ctl num _ v => if num = 35#6 && l.due ≤ s.cur.seq.scyc then
        s.modLaunch s.cur.bnd.launch (fun x => { x with wdogLeft := v.toNat }) else s
    | _ => s) s

/-! ### Status codes -/

def Status.code : Status → Nat
  | .ok => 0
  | .illegal => 1
  | .delaySlot => 2
  | .protection => 3
  | .towerRange => 4
  | .runOverflow => 5
  | .arithTrap => 6
  | .race => 7
  | .streamDecode => 8
  | .streamGraph => 9
  | .saveTimeout => 10
  | .watchdog => 11
  | .thermal => 12
  | .hwError => 13
  | .doubleTrap => 14
  | .aborted => 15
  | .nbuFault => 16
  | .ringMisuse => 17
  | .translation => 18
  | .unplaceable => 19
  | .refreshAbuse => 20

/-! ### Counters and trace records (R406, R407, R411, R412, R420) -/

/-- Offset in the management space of counter m of a tile (R425). -/
def tileCounter (tile m : Nat) : Nat := 0x200000 + 0x10000 * tile + 0x100 + 8 * m
/-- Offset of counter m of channel controller g (R426). -/
def chanCounter (g m : Nat) : Nat := 0x100000 + 0x40 * g + 8 * m
/-- Offset of counter m of express node n = 6i + j (R426). -/
def nodeCounter (n m : Nat) : Nat := 0x110000 + 0x40 * n + 8 * m
/-- Offset of counter n of logline core c = 3i + j (R424). -/
def coreCounter (c m : Nat) : Nat := 0x3000 + 0x100 * c + 0x40 + 8 * m

def State.counter (s : State) (off : Nat) : W64 := tget 0#64 s.obs.counters off
def counterEvent (c : W64) : Nat := (c.extractLsb' 56 8).toNat
def counterValue (c : W64) : Nat := (c.extractLsb' 0 48).toNat
def counterOvf : W64 := 0x2000000000000#64
def counterLost : W64 := 0x4000000000000#64

/-- A counter with another VALUE. -/
def withCount (c : W64) (v : Nat) : W64 := c.extractLsb' 48 16 ++ BitVec.ofNat 48 v

/-- A counter with FRZ does not count while a fix is held (R411, R413). -/
def State.frozen (s : State) (c : W64) : Bool := c.getLsbD 48 && s.obs.fixHeld

/-- The number of a counter within its block. -/
def counterNumber (off : Nat) : Nat := off / 8 % 8

/-- The logline core 3i + j that serves a tile (R407). -/
def coreOf (tile : Nat) : Nat := 3 * (tile % 32 / 8) + tile / 32 / 8

def State.core (s : State) (c : Nat) : Logline := tget .reset s.obs.cores c
def State.setCore (s : State) (c : Nat) (l : Logline) : State := { s with obs := { s.obs with cores := tput c l s.obs.cores } }
def State.dbg (s : State) (tile : Nat) : TileDbg := tget .reset s.obs.dbg tile
def State.setDbg (s : State) (tile : Nat) (d : TileDbg) : State := { s with obs := { s.obs with dbg := tput tile d s.obs.dbg } }

/-- A record enters a core's queue of 256, or counts as lost (R407). -/
def State.enqueueCore (s : State) (c : Nat) (r : TraceRec) : State :=
  let l := s.core c
  if l.queue.length < 256 then s.setCore c { l with queue := l.queue ++ [r] }
  else s.setCore c { l with qlost := (l.qlost + 1) % 2 ^ 48 }

/-- A record that comes from no tile's port waits at the core until its queue takes it (R407). -/
def State.offerCore (s : State) (c : Nat) (r : TraceRec) : State :=
  let l := s.core c
  s.setCore c { l with own := l.own ++ [r] }

/-- The signal of a counter overflow with INTEN (R411, R420). -/
def State.overflowSignal (s : State) (off : Nat) (c : W64) : State :=
  if c.getLsbD 51 then
    { s with mgmt := { s.mgmt with devSigs := s.mgmt.devSigs ++ [(s.mgmt.cntvec, BitVec.ofNat 32 (counterNumber off))] } }
  else s

/-- A counter's register. -/
def State.setCounter (s : State) (off : Nat) (c : W64) : State :=
  { s with obs := { s.obs with counters := tput off c s.obs.counters } }

/-- `n` events of one kind at a counter that counts them, without the overflow record; whether it wrapped. A value written in the same
device cycle stands, with LOST set (R412). -/
def State.addCount (s : State) (off n : Nat) : State × Bool :=
  let c := s.counter off
  if n = 0 ∨ s.frozen c then (s, false)
  else
    let old := s.obs.written.lookup off
    let v := old.getD (counterValue c) + n
    let kept := if old.isSome then c ||| counterLost else withCount c v
    let s := s.setCounter off (if v < 2 ^ 48 then kept else kept ||| counterOvf)
    let hit := (s.obs.hits.lookup off).getD (c, false)
    let s : State := { s with obs := { s.obs with
      hits := tput off (hit.1, hit.2 || decide (2 ^ 48 ≤ v)) s.obs.hits
      written := if old.isSome then tput off (v % 2 ^ 48) s.obs.written else s.obs.written } }
    if v < 2 ^ 48 then (s, false) else (s.overflowSignal off c, true)

/-- A record that a tile's full port drops: TRLOST rises, and the counters of dropped records count it (R407, R411). One of them that
wraps makes a record that meets the full port too, and so on; each of the eight can wrap once. -/
def State.dropRec (tile : Nat) : Nat → State → State
  | 0, s => s
  | n + 1, s =>
    let d := s.dbg tile
    let s := s.setDbg tile { d with trlost := (d.trlost + 1) % 2 ^ 48 }
    (List.range 8).foldl (fun s m =>
      if counterEvent (s.counter (tileCounter tile m)) = 8 then
        let (s, wrapped) := s.addCount (tileCounter tile m) 1
        if wrapped then State.dropRec tile n s else s
      else s) s

/-- A trace record at a tile's port of eight, dropped and counted when the port is full (R407). -/
def State.emitRec (s : State) (tile : Nat) (r : TraceRec) : State :=
  let d := s.dbg tile
  if !d.trEn then s
  else if d.port.length < 8 then s.setDbg tile { d with port := d.port ++ [r] }
  else State.dropRec tile 9 s

/-- A task's trace record (R406). -/
def Task.record (t : Task) (kind tag pc : Nat) (d0 d1 : W64) : TraceRec :=
  { kind := BitVec.ofNat 8 kind, tx := BitVec.ofNat 5 t.bnd.tx, ty := BitVec.ofNat 5 t.bnd.ty, pc := BitVec.ofNat 13 pc,
    tag := BitVec.ofNat 10 tag, scyc := BitVec.ofNat 48 t.seq.scyc, launch := BitVec.ofNat 32 t.bnd.launch, d0 := d0, d1 := d1 }

/-- The record of a counter overflow (R412), at the tile's port, the counter's own core, or core 0 (log entry 13). One of a tile is the
bound task's; one from outside a task holds the device cycle of the wrap (R406). -/
def State.overflowRecord (s : State) (off : Nat) (c : W64) : State :=
  let d0 : W64 := BitVec.ofNat 64 (counterNumber off)
  let d1 : W64 := BitVec.ofNat 64 (counterEvent c)
  let r : TraceRec := { TraceRec.reset with kind := 6#8, scyc := BitVec.ofNat 48 s.clk.tick, d0 := d0, d1 := d1 }
  if 0x200000 ≤ off then
    let tile := (off - 0x200000) / 0x10000
    s.emitRec tile (match s.taskOn tile with
      | some t => t.record 6 0 t.seq.pc d0 d1
      | none => r)
  else if off < 0x4000 then s.offerCore ((off - 0x3000) / 0x100) r
  else s.offerCore 0 r

/-- Events counted at one counter (R411, R412). -/
def State.bump (s : State) (off n : Nat) : State :=
  let c := s.counter off
  let (s, wrapped) := s.addCount off n
  if wrapped then s.overflowRecord off c else s

/-- Events of a code counted by every counter of a block that selects it. -/
def State.countBlock (s : State) (at_ : Nat → Nat) (code n : Nat) : State :=
  (List.range 8).foldl (fun s m => if counterEvent (s.counter (at_ m)) = code then s.bump (at_ m) n else s) s

def State.countTile (s : State) (tile code n : Nat) : State :=
  if s.obs.counters.isEmpty then s else s.countBlock (tileCounter tile) code n
def State.countChan (s : State) (g code n : Nat) : State :=
  if s.obs.counters.isEmpty then s else s.countBlock (chanCounter g) code n
def State.countNode (s : State) (k code n : Nat) : State :=
  if s.obs.counters.isEmpty then s else s.countBlock (nodeCounter k) code n

/-- A record of the current task at its tile's port. -/
def State.emit (s : State) (kind tag pc : Nat) (d0 d1 : W64) : State :=
  s.emitRec s.cur.bnd.tile (s.cur.record kind tag pc d0 d1)

/-- The run overflows in split mode among the landings due, one for each cluster (R197, R411; log entry 76). -/
def Task.splitOverflows (t : Task) : Nat :=
  ((t.seq.inflight.filter fun l => l.due ≤ t.seq.scyc).map fun l => l.runlen.length).sum

/-- Everything due by the current task's schedule cycle lands. -/
def State.landDue (s : State) : State :=
  let n := s.cur.splitOverflows
  let s := s.landWdog
  let s : State := { s with cur := s.cur.landDue }
  if n = 0 then s else s.countTile s.cur.bnd.tile 7 n

/-! ### Stall records (R405, R406) -/

/-- The cause of a stall in a stall record (R406). -/
def Wait.cause : Wait → Nat
  | .glob _ => 1
  | .load l => match l.kind with
    | .ringRow _ _ _ => 3
    | _ => 2
  | .ringWrite _ _ _ => 4
  | .ringIndex _ _ => 5
  | .ringDone _ => 5
  | .bcCount _ => 6
  | .bcAll => 6
  | .engine _ _ => 7
  | .copies => 8
  | .nbPoll _ _ _ _ => 9
  | .barrier _ _ => 10
  | .fence _ => 11

/-- The cause that a stall record gives: that of the first slot still waiting. -/
def stallCauseOf (waits : List Wait) : Nat := (waits.head?.map Wait.cause).getD 0
def Seq.stallCause (q : Seq) : Nat := stallCauseOf q.waits

/-- The record of a task's stall of `n` device cycles at a bundle and its schedule cycle, when the task is armed and the stall lasted. -/
def State.stallOf (s : State) (t : Task) (cause n pc scyc : Nat) : State :=
  if t.mark.armed && n != 0 then
    s.emitRec t.bnd.tile { t.record 3 0 pc (BitVec.ofNat 64 cause) (BitVec.ofNat 64 n) with scyc := BitVec.ofNat 48 scyc }
  else s

/-- The stall record of the current task; it names the stalled bundle and its cycle. -/
def State.stallRecord (s : State) (cause : Nat) : State :=
  s.stallOf s.cur cause (s.clk.tick - s.cur.seq.waitFrom) s.cur.seq.waitPc s.cur.seq.waitScyc

/-- A stall that a trap has put aside ends there (R384, R405). -/
def State.savedStall (s : State) (t : Task) : State :=
  match t.seq.saved with
  | some r => if r.waits = [] then s else s.stallOf t (stallCauseOf r.waits) r.waited r.waitPc r.waitScyc
  | none => s

/-- The bundle waits before its issue until an access of its slot C can be judged or performed (R369; log entry 12). -/
def State.block (s : State) : State :=
  s.modSeq fun q => { q with blocked := true, lockFrom := some (q.lockFrom.getD s.clk.tick) }

/-- Such a wait of the current task ends, and with it the stall that it is (R405). -/
def State.endLock (s : State) : State :=
  match s.cur.seq.lockFrom with
  | none => s
  | some k => (s.stallOf s.cur 1 (s.clk.tick - k) s.cur.seq.pc s.cur.seq.scyc).modSeq fun q => { q with blocked := false, lockFrom := none }

/-- Every stall of a task ends with it. -/
def State.lastStalls (s : State) (t : Task) : State :=
  let q := t.seq
  let s := match q.lockFrom with
    | some k => s.stallOf t 1 (s.clk.tick - k) q.pc q.scyc
    | none => s
  (if q.waits = [] then s else s.stallOf t q.stallCause (s.clk.tick - q.waitFrom) q.waitPc q.waitScyc).savedStall t

/-! ### Fabric contexts that a stream names (R257, R264) -/

/-- Register i of a window descriptor (R312). -/
def dsc (d : Vector W64 18) (i : Nat) : W64 := (d[i]?).getD 0#64

/-- The stream contexts that GRAPH names: one, or context c of every controller (R257). -/
def graphCtxs (g : Nat) : List Nat :=
  if g = 0 then [] else if g ≤ 1024 then [g - 1] else (List.range 256).map fun k => 4 * k + (g - 1025)

def Stream.ctxs (st : Stream) : List Nat := graphCtxs (dsc st.desc 15).toNat

def State.fabCtx (s : State) (c : Nat) : FabCtx := tget .reset s.net.fab c
def State.setFab (s : State) (c : Nat) (x : FabCtx) : State := { s with net := { s.net with fab := tput c x s.net.fab } }

/-- The sink of the graph that a stream passes; 0 is a ring (R261). -/
def State.sinkOf (s : State) (st : Stream) : Nat :=
  match st.ctxs.head?.bind (fun c => (s.fabCtx c).graph) with
  | some g => g.sink
  | none => 0

/-- A context leaves its stream: back to Loaded with its cells free, or to Error (R264, R266, R270). -/
def FabCtx.leave (x : FabCtx) (errc : Nat) : FabCtx :=
  { x with state := if errc = 0 then 1 else 4, errc := if errc = 0 then x.errc else errc, cells := 0, spilled := false }

/-- The contexts of a stream that has taken them leave it. -/
def State.leaveCtxs (s : State) (st : Stream) (errc : Nat) : State :=
  st.ctxs.foldl (fun s c => s.setFab c ((s.fabCtx c).leave errc)) s

/-- Events in the pilot controller's log, by number (R11, R28, R282). -/
def State.logEvent (s : State) (code arg : Nat) : State := { s with sched := { s.sched with log := s.sched.log ++ [(code, arg)] } }

/-! ### The end of a task (R181, R417) -/

/-- At END, matrix operations are discarded and every producer into the task's own rings is detached; a stream with a DRAM
or near-bank sink runs on (R417). -/
def State.endTask (s : State) : State :=
  let keep (r : Ring) : Bool := match r.stream with
    | some st => s.sinkOf st != 0
    | none => false
  let s := s.cur.rings.toList.foldl (fun s r => match r.stream with
    | some st => if keep r then s else s.leaveCtxs st 0
    | none => s) (s.savedStall s.cur)
  { s with cur := { s.cur with
      rings := s.cur.rings.map fun r => if keep r then r else { r with stream := none }
      eng := { s.cur.eng with muOps := [] }
      seq := { s.cur.seq with state := .ended, branch := none, rep := none, waits := [], inflight := [], saved := none } } }

/-! ### The end of a launch by a terminal fault (R381) -/

/-- What is left of a stream when its launch ends: a fabric stream goes on to the end of its group of 16 beats (R381, R388). -/
def Stream.remnant (st : Stream) : Option Stream :=
  if st.opened && !st.ctxs.isEmpty then some { st with cutting := true, stopIn := 0 } else none

/-- What is left of a copy then: the chunk under way, unless it goes to the towers, which are cleared (R381, R388). -/
def DmOp.remnant (o : DmOp) : Option DmOp :=
  if o.got.isEmpty || o.mode == 1#2 then none else some { o with len := min o.len (4096 * (o.next + 1)), cutting := true }

/-- Engine operations of a task are discarded at the ends of their units; posted LAUNCH requests and signals are still delivered. -/
def Task.discardEngines (t : Task) : Task :=
  { t with
    rings := t.rings.map fun r => { r with stream := r.stream.bind Stream.remnant }
    eng := { t.eng with muOps := [], dmOps := (t.eng.dmOps.take 1).filterMap DmOp.remnant, xpOps := [], fbReqs := [], nbPort := [], pubs := [], shifts := [],
                        bcRows := 0, oMu := 0, oXp := 0, oBc := 0, oDm := 0, oFb := 0, oNb := 0 } }

/-- A task that has ended takes no further fault when its launch ends. -/
def Task.quit (t : Task) : Task :=
  let u := t.discardEngines
  { u with seq := { u.seq with pendingFault := none } }

/-- A task that issues no further bundle and takes no further fault. -/
def Task.kill (t : Task) : Task :=
  { t.discardEngines with seq := { t.seq with state := .dead, waits := [], branch := none, rep := none, inflight := [], pendingFault := none } }

/-- The parts of the device's shared engines that work for a launch are discarded; a stopped context of it leaves its stream as by
WCLOSE, one that streams at the end of its group (R264, R381, R388). -/
def Net.dropLaunch (n : Net) (id : Nat) : Net :=
  { n with
    bcols := n.bcols.map fun (c, l) => (c, l.filter fun x => x.launch != id)
    packets := n.packets.filter fun p => p.launch != id
    fab := n.fab.map fun (c, x) => (c, if x.state == 5 && x.launch == id then x.leave 0 else x)
    nbu := n.nbu.map fun (g, u) => (g, { u with queue := u.queue.filter fun c => c.launch != id,
                                                accs := u.accs.filter fun a => a.1.1 != id,
                                                owner := u.owner.filter fun a => a.1 != id,
                                                upc := if (u.owner.filter fun a => a.1 != id).isSome then u.upc else 0,
                                                spilled := u.spilled.filter fun a => a.1.1 != id }) }

/-- At the retirement of the launch that bound it a context is empty; FSTAT still tells its last error and beats (R264). -/
def Net.emptyCtxs (n : Net) (id : Nat) : Net :=
  { n with fab := n.fab.map fun (c, x) =>
    (c, if x.launch == id then { FabCtx.reset with errc := x.errc, beats := x.beats } else x) }

/-- The address of a region's RCB (R30). -/
def State.rcbAddr (s : State) (region : Nat) : Nat := 256 * (tget Doorbell.reset s.sched.doorbells region).rcba

/-- HALTED, SUBHALT and HCAUSE of an RCB in local HBM (R10): the bits set, and the cause. -/
def State.haltRcb (s : State) (addr : Nat) (bits cause : BitVec 8) : State :=
  if addr + 256 ≤ Config.hbmBytes then
    { s with mem := { s.mem with hbm := s.mem.hbm.put (addr + 84) ((s.mem.hbm.get (addr + 84) &&& 0xE3#8) ||| bits ||| (cause <<< 2)) } }
  else s

/-- What a terminal fault does to its region's queue (R14); a launch that finds no place is no fault (R20). -/
def State.faultPolicy (s : State) (l : Launch) (st : Status) : State :=
  if st = .ok ∨ st = .unplaceable then s
  else match l.eff.fdpol with
    | 1 => s.haltRcb (s.rcbAddr l.region) 1#8 2#8
    | 2 => s.haltRcb (s.rcbAddr l.region) 3#8 2#8
    | _ => s

/-- The launch ends with a status: its tasks stop at once (log entry 8), and their stalls with them (R405), its engine work is discarded,
and it drains to retirement. The first status and the first failing task stand (R28), and its region's fault-domain policy applies (R14). -/
def State.endLaunch (s : State) (id : Nat) (st : Status) (f : Option Failing) : State :=
  let s := (s.tasks.filter fun t => t.bnd.launch == id && t.seq.state != .stopped).foldl State.lastStalls s
  let s := s.mapTasks fun t => if t.bnd.launch = id then (if t.seq.state = .ended then t.quit else t.kill) else t
  let s : State := { s with net := s.net.dropLaunch id }
  let s : State := match s.launch? id with
    | some l => if l.status = .ok then s.faultPolicy l st else s
    | none => s
  s.modLaunch id fun l =>
    { l with status := (if l.status = .ok then st else l.status)
             failing := (if l.status = .ok then f else l.failing)
             finfo := (if l.status = .ok then (f.map (·.finfo)).getD l.finfo else l.finfo)
             phase := .draining }

/-! ### Taking a fault (R371 to R381) -/

/-- TRAPCODE as a fault writes it, without HND (R377). -/
def trapCodeOf (cls : Nat) (f : FaultInfo) : W64 :=
  BitVec.ofNat 64 (cls * 2 ^ 16 + f.slot * 2 ^ 12 + (if cls = 1 then f.cause else 0) * 2 ^ 8 + f.status.code)

/-- What a freeze leaves unfinished at a device cycle, as an in-flight record counted from the task's schedule cycle (R385). -/
def Seq.record (q : Seq) (tick : Nat) : Record :=
  { results := q.inflight.map fun l => { l with at_ := q.scyc - l.at_, due := l.due - q.scyc }
    branch := q.branch, rep := q.rep, waits := q.waits, waitPc := q.waitPc, waitScyc := q.waitScyc
    waited := if q.waits = [] then 0 else tick - q.waitFrom }

/-- Reinjection at schedule cycle `q.scyc` in a device cycle (R387). A wait that resumes does so before the bundle of that cycle issues, so the
schedule cycle stands one back until it ends (R437). -/
def Seq.reinject (q : Seq) (tick : Nat) (r : Record) (keepFlow : Bool) : Seq :=
  let waiting := keepFlow && r.waits != []
  { q with
    scyc := if waiting then q.scyc - 1 else q.scyc
    inflight := q.inflight ++ r.results.map fun l => { l with at_ := q.scyc - l.at_, due := q.scyc + l.due }
    branch := if keepFlow then r.branch else none
    rep := if keepFlow then r.rep else none
    waits := if keepFlow then r.waits else []
    waitPc := r.waitPc
    waitScyc := r.waitScyc
    waitFrom := tick - r.waited
    resumed := waiting }

/-- The trap state a fault writes; TRAPPC holds 13 bits (R377). -/
def Regs.trapState (g : Regs) (pc cls : Nat) (f : FaultInfo) : Regs :=
  { g with trapPc := BitVec.ofNat 64 (pc % 2 ^ 13), trapCode := trapCodeOf cls f, trapInfo := f.info }

/-- A terminal fault of the current task: it writes the trap state with CLASS 3 and the launch ends (R381). -/
def State.takeTerminal (s : State) (pc : Nat) (f : FaultInfo) : State :=
  let s := s.modReg fun g => g.trapState pc 3 f
  let s := s.emit 4 0 pc (trapCodeOf 3 f ||| (if s.cur.seq.hnd then 0x80000#64 else 0#64)) f.info
  let fl : Failing := { fx := s.cur.bnd.tx, fy := s.cur.bnd.ty, fpc := pc,
                        fcode := (trapCodeOf 3 f).extractLsb' 0 16, finfo := f.info }
  let s := s.endLaunch s.cur.bnd.launch f.status (some fl)
  s.modSeq fun q => { q with state := .dead, lastFault := some f, waits := [], branch := none, rep := none, inflight := [] }

/-- Entry to the trap handler (R379). -/
def State.enterTrap (s : State) (pc : Nat) (f : FaultInfo) : State :=
  let s := s.modReg fun g => g.trapState pc 1 f
  let s := s.emit 4 0 pc (trapCodeOf 1 f ||| 0x80000#64) f.info
  s.modSeq fun q =>
    { q with saved := some (q.record s.clk.tick), inflight := [], branch := none, rep := none, waits := [], resumed := false,
             hnd := true, trapPcSet := false, pc := s.cur.bnd.trapEnt, lastFault := some f }

/-- A fault of the current task taken with TRAPPC `pc`: a program-serviceable one enters the handler, is DOUBLE_TRAP
inside one (R380), and is terminal without a trap entry (R26). -/
def State.takeFault (s : State) (pc : Nat) (f : FaultInfo) : State :=
  if f.cause = 0 then s.takeTerminal pc f
  else if s.cur.seq.hnd then s.takeTerminal pc { f with status := .doubleTrap, cause := 0, info := 0#64 }
  else if s.cur.bnd.trapV then s.enterTrap pc f
  else s.takeTerminal pc { f with cause := 0 }

/-- A fault precise at the bundle (R372). -/
def State.raise (s : State) (slot : Nat) (st : Status) (info : W64) (cause : Nat := 0) : State :=
  s.takeFault s.cur.seq.pc { status := st, cause := cause, slot := slot, info := info }

/-- A fault that a stalled slot's wait ends in, precise at its bundle; the stall ends with it (R239, R405). -/
def State.waitRaise (s : State) (slot : Nat) (st : Status) (info : W64) : State :=
  ((s.stallRecord s.cur.seq.stallCause).modSeq fun q => { q with waits := [] }).takeFault s.cur.seq.waitPc
    { status := st, slot := slot, info := info }

/-- An illegal instruction or operand. -/
def State.illegal (s : State) (slot : Nat) (info : W64 := 0#64) : State := s.raise slot .illegal info

/-- A fault to be taken at the next bundle boundary, with the TRAPPC it reports (none: the bundle that would issue). The
first one stands; a task that a terminal fault has stopped takes none. -/
def Task.defer (t : Task) (f : FaultInfo) (pc : Option Nat) (redo : Bool := false) : Task :=
  if t.seq.state = .dead then t
  else match t.seq.pendingFault with
    | some _ => t
    | none => { t with seq := { t.seq with pendingFault := some { fault := f, pc := pc, redo := redo } } }

/-- A hardware error of the task on its own tile (R252, R396), taken at the next boundary. An operation that started in bundle `pc` and
drains after the task has ended names that bundle (R417). -/
def Task.deferHw (t : Task) (redo : Bool) (pc : Option Nat := none) : Task :=
  t.defer { status := .hwError, slot := 6, info := 0#64 } (if t.seq.state = .ended then pc else none) redo

/-! ### The schedule cycle -/

/-- TRET's return in the resumption cycle (R384), or a held REFRESH_FORCED in its place (R380). -/
def State.returnTrap (s : State) : State :=
  match s.cur.seq.pendingForced with
  | (t, info) :: rest =>
    let f : FaultInfo := { status := .refreshAbuse, cause := 4, slot := 6, info := info }
    let pc := s.cur.reg.trapPc.toNat % 2 ^ 13
    let s := s.modReg fun g => g.trapState pc 1 f
    let s := s.emit 4 0 pc (trapCodeOf 1 f ||| 0x80000#64) f.info
    s.modSeq fun q => { q with pendingForced := rest.filter (fun p => p.1 != t), branch := none, pc := s.cur.bnd.trapEnt }
  | [] =>
    (if s.cur.seq.trapPcSet then s.savedStall s.cur else s).modSeq fun q =>
      let q := { q with hnd := false, branch := none, pc := s.cur.reg.trapPc.toNat % 2 ^ 13, saved := none, trapPcSet := false }
      match s.cur.seq.saved with
      | none => q
      | some r => q.reinject s.clk.tick r (!s.cur.seq.trapPcSet)

/-- The sequencer moved past the bundle just issued: to a branch's target or delay bundle, the next issue of a repetition, or the next
bundle (R107, R109). -/
def Seq.follow (q : Seq) : Seq :=
  match q.branch with
  | some b =>
    if b.left ≤ 1 && b.kind == .jump then { q with branch := none, pc := if b.taken then b.target else q.pc + 1 }
    else { q with branch := some { b with left := b.left - 1 }, pc := q.pc + 1 }
  | none =>
    match q.rep with
    | some r =>
      if r.fresh then { q with rep := some { r with fresh := false }, pc := q.pc + 1 }
      else if r.j + 1 < r.n then { q with rep := some { r with j := r.j + 1 } }
      else { q with rep := none, pc := q.pc + 1 }
    | none => { q with pc := q.pc + 1 }

/-- The bundle just issued is the last delay bundle of an END, or of a TRET. -/
def Seq.closes (q : Seq) (k : BranchKind) : Bool := q.branch.any fun b => b.kind == k && decide (b.left ≤ 1)

/-- The bundle just issued is finished: the next schedule cycle begins, its landings happen with the program counter at the bundle of that
cycle, and an END or a TRET whose delay bundles have issued is carried out (R102, R107, R109). -/
def State.advance (s : State) : State :=
  let q := s.cur.seq
  if q.closes .trapReturn then
    let s1 := s.modSeq fun q => { q with scyc := q.scyc + 1 }
    (s1.modSeq fun q => { q with pc := s1.cur.landDue.reg.trapPc.toNat % 2 ^ 13 }).landDue.returnTrap
  else
    let s1 := (s.modSeq fun q => { q.follow with scyc := q.scyc + 1 }).landDue
    if q.closes .endTask then s1.endTask else s1

/-- The end of a stall: the schedule cycle after the stalled bundle begins. A resumed wait belongs to a bundle that is already finished; an
END that a trap in its last delay bundle has put aside is then carried out (R387, R437). -/
def State.afterStall (s : State) : State :=
  if s.cur.seq.resumed then
    let s1 := (s.modSeq fun q => { q with scyc := q.scyc + 1, resumed := false }).landDue
    if s1.cur.seq.branch.any fun b => b.kind == .endTask && b.left == 0 then s1.endTask else s1
  else s.advance

/-- The boundary inside a stall at which a fault is taken: the schedule cycle after the stalled bundle begins, and the
slots still wait (R437). An END whose last delay bundle stalls is pending there, in a resumed stall too (log entry 80). -/
def State.stallBoundary (s : State) : State :=
  if s.cur.seq.resumed then (s.modSeq fun q => { q with scyc := q.scyc + 1, resumed := false }).landDue
  else if s.cur.seq.closes .endTask then (s.modSeq fun q => { q.follow with scyc := q.scyc + 1 }).landDue
  else s.advance

/-- The bundle that would issue next: in a stall the one after the stalled bundle, whose branch or repetition says which (R107, R109,
R384). -/
def Task.nextPc (t : Task) : Nat :=
  let q := t.seq
  if q.waits = [] || q.resumed then q.pc
  else if q.closes .trapReturn then t.reg.trapPc.toNat % 2 ^ 13
  else q.follow.pc

/-- A control transfer in a delay bundle or in the first issue of a repeated bundle faults DELAY_SLOT (R108). -/
def Seq.noTransfer (q : Seq) : Bool :=
  q.branch.isSome || (match q.rep with
    | some r => !r.fresh
    | none => false)

end Sys2Proof.Machine
end

