-- ==== Sys2Proof/Machine/Operands.lean ====
section
/-! DEFINITION. Operand forms: effective addresses and immediates of slot C (R160), cluster selection (R94, R195), runs
and their alignment (R190 to R196), the FMT fields (R138, R139), and the number context of a bundle. -/

namespace Sys2Proof.Machine

/-! ### Slot C -/

def sext14 (i : BitVec 14) : W64 := i.signExtend 64
def zext14 (i : BitVec 14) : W64 := i.zeroExtend 64
/-- s[a] + s[b] modulo 2^64. -/
def State.ea (s : State) (a b : BitVec 5) : W64 := s.sreg a + s.sreg b
/-- A bundle index from a signed offset to the issuing bundle; a negative one is fetch outside the image (R91). -/
def branchTarget (pc : Nat) (off : Int) : Nat := (((pc : Int) + off) % (2 ^ 64 : Int)).toNat
/-- The low `n` bytes of a value, sign- or zero-extended to 64 bits. -/
def extendBytes (sx : Bool) (n : Nat) (v : Nat) : W64 :=
  let m := v % 2 ^ (8 * n)
  if sx && m.testBit (8 * n - 1) then BitVec.ofInt 64 ((m : Int) - 2 ^ (8 * n)) else BitVec.ofNat 64 m

/-! ### Clusters -/

/-- The clusters that cl selects, with CMA and CMB as read at issue (R94, R195). -/
def State.selected (s : State) (cl : BitVec 2) : List (Fin 8) :=
  clusters.filter fun i =>
    match cl.toNat with
    | 0 => true
    | 1 => s.cur.reg.cma.getLsbD i.val
    | 2 => s.cur.reg.cmb.getLsbD i.val
    | _ => !s.cur.reg.cma.getLsbD i.val

def State.cluster (s : State) (i : Fin 8) : Cluster := s.cur.cl[i]

/-- Bit i of the result is 1 for cluster i of the list. -/
def clusterBits (l : List (Fin 8)) : Nat := l.foldl (fun n i => n ||| 2 ^ i.val) 0

/-! ### Runs -/

variable {α β : Type}

/-- Logical length (R190). -/
def runLen : Runs α → Nat
  | [] => 0
  | (_, c) :: r => c + runLen r

/-- The run list cut or padded with a value to a length. -/
def fitLen (d : α) : Nat → Runs α → Runs α
  | 0, _ => []
  | n + 1, [] => [(d, n + 1)]
  | n + 1, (v, c) :: r => if n + 1 ≤ c then [(v, n + 1)] else (v, c) :: fitLen d (n + 1 - c) r

/-- Two run lists of one length, cut at the union of their run ends (Align, R196). -/
def zipRuns : Nat → Runs α → Runs β → Runs (α × β)
  | 0, _, _ => []
  | _ + 1, [], _ => []
  | _ + 1, _, [] => []
  | n + 1, (a, c) :: r, (b, e) :: t =>
    if c < e then ((a, b), c) :: zipRuns n r ((b, e - c) :: t)
    else if e < c then ((a, b), e) :: zipRuns n ((a, c - e) :: r) t
    else ((a, b), c) :: zipRuns n r t

def zipR (x : Runs α) (y : Runs β) : Runs (α × β) := zipRuns (x.length + y.length) x y

def mapRuns (f : α → β) (r : Runs α) : Runs β := r.map fun p => (f p.1, p.2)

/-- Adjacent equal values joined (Canon, R196). -/
def canon [DecidableEq α] : Runs α → Runs α
  | [] => []
  | (v, c) :: r =>
    match canon r with
    | [] => [(v, c)]
    | (w, e) :: t => if v = w then (v, c + e) :: t else (v, c) :: (w, e) :: t

/-- A piece of a result with the flags of its positions. -/
abbrev Piece (α : Type) := α × Nat × Flags

/-- Canon over pieces, joining flags. -/
def canonF [DecidableEq α] : List (Piece α) → List (Piece α)
  | [] => []
  | (v, c, f) :: r =>
    match canonF r with
    | [] => [(v, c, f)]
    | (w, e, g) :: t => if v = w then (v, c + e, f ||| g) :: t else (v, c, f) :: (w, e, g) :: t

/-- The value at a position below the length. -/
def runAt (d : α) : Runs α → Nat → α
  | [], _ => d
  | (v, c) :: r, p => if p < c then v else runAt d r (p - c)

/-- Runs from a position on. -/
def dropLen : Nat → Runs α → Runs α
  | _, [] => []
  | n, (v, c) :: r => if n = 0 then (v, c) :: r else if n < c then (v, c - n) :: r else dropLen (n - c) r

/-- Runs of the first n positions, without padding. -/
def takeLen : Nat → Runs α → Runs α
  | _, [] => []
  | n, (v, c) :: r => if n = 0 then [] else if n < c then [(v, n)] else (v, c) :: takeLen (n - c) r

/-- The values one by one. -/
def flat (r : Runs α) : List α := r.foldr (fun p acc => List.replicate p.2 p.1 ++ acc) []

/-- One run per value. -/
def units (l : List α) : Runs α := l.map fun v => (v, 1)

/-- The mask register k over a length; k0 is true at every position (R192). -/
def Cluster.mask (c : Cluster) (k : BitVec 3) (n : Nat) : Runs Bool :=
  if k = 0#3 then fitLen true n [] else fitLen false n (c.kreg k)

/-- Source run lists, mask and old destination over N positions (Align, R196). -/
def alignAll (n : Nat) (srcs : List (Runs W32)) (msk : Runs Bool) (old : Runs β) : Runs (List W32 × Bool × β) :=
  srcs.foldr (fun src acc => mapRuns (fun p => (p.1 :: p.2.1, p.2.2)) (zipR (fitLen 0#32 n src) acc))
    (mapRuns (fun p => ([], p.1, p.2)) (zipR msk old))

/-- The element-wise procedure of R196 in one cluster, before overflow. -/
def elemWise [DecidableEq β] (n : Nat) (srcs : List (Runs W32)) (msk : Runs Bool) (z : Bool) (zero : β) (old : Runs β)
    (fn : List W32 → β × Flags) : List (Piece β) :=
  canonF ((alignAll n srcs msk (fitLen zero n (if z then [] else old))).map fun p =>
    let ((vals, m, o), c) := p
    if m then
      let (v, f) := fn vals
      (v, c, f)
    else (o, c, 0#9))

/-! ### FMT (R138) -/

def Regs.fmtField (g : Regs) (lo len : Nat) : Nat := (g.fmt.extractLsb' lo len).toNat
def Regs.typeA (g : Regs) : Nat := g.fmtField 0 4
def Regs.typeB (g : Regs) : Nat := g.fmtField 4 4
def Regs.dstt (g : Regs) : Nat := g.fmtField 8 4
def Regs.rm (g : Regs) : Nat := g.fmtField 16 3

/-- RM is a legal mode (R139, R140). -/
def Regs.rmOk (g : Regs) : Bool := g.rm ≤ 4

/-- VL as a length. -/
def State.vl (s : State) : Nat := s.cur.reg.vl.toNat

/-- What arithmetic of the bundle reads: RM, OVT and F (R101, R111). -/
def State.numCtx (s : State) : NumCtx :=
  { mode := s.cur.reg.rm, ovt := s.cur.reg.ovt, flush := s.cur.seq.flush }

end Sys2Proof.Machine
end

