-- ==== Sys2Proof/Machine/Flags.lean ====
section
/-! DEFINITION. Sticky flags and run overflow: how a vector or mask result raises its flags, fits or overflows, lands, and
combines with the other slot's result (R104, R105, R151, R193, R197, R198). -/

namespace Sys2Proof.Machine

variable {α : Type}

/-- The result of one cluster: canonical pieces, and the flags that no position carries (LN, R193). -/
structure ClRes (α : Type) where
  cl : Fin 8
  pieces : List (Piece α)
  extra : Flags
deriving DecidableEq, Repr

/-- The runs of pieces. -/
def pieceRuns (l : List (Piece α)) : Runs α := l.map fun p => (p.1, p.2.1)

def ClRes.overflows (r : ClRes α) : Bool := decide (32 < r.pieces.length)

/-- What is delivered: whole runs, at most 32 (R197). -/
def ClRes.kept (r : ClRes α) : List (Piece α) := r.pieces.take 32

/-- The flags of the delivered positions, with the extra ones and RO. -/
def ClRes.flags (r : ClRes α) : Flags :=
  r.kept.foldl (fun f p => f ||| p.2.2) (r.extra ||| flagIf r.overflows flRO)

/-- TRAPINFO of a run overflow (R198). -/
def overflowInfo (cls : List (Fin 8)) (source : Nat) : W64 := BitVec.ofNat 64 (clusterBits cls + source * 256)

/-- The clusters that overflow alone in precise mode. -/
def overflowing (split : Bool) (res : List (ClRes α)) : List (Fin 8) :=
  if split then [] else (res.filter ClRes.overflows).map (·.cl)

/-- The landing of a vector or mask result. -/
def resultLanding (scyc slot lat : Nat) (mk : List (Fin 8 × Runs α) → Dest) (res : List (ClRes α)) : Landing :=
  { at_ := scyc, due := scyc + lat, slot := slot
    dest := mk (res.map fun r => (r.cl, pieceRuns r.kept))
    flags := (res.map fun r => (r.cl, r.flags)).filter fun p => p.2 != 0#9
    runlen := (res.filter ClRes.overflows).map fun r => (r.cl, runLen (pieceRuns r.kept)) }

/-- FitOrOverflow and Land for a slot-A result (R196, R197). -/
def State.landRuns (s : State) (slot lat : Nat) (mk : List (Fin 8 × Runs α) → Dest) (res : List (ClRes α)) : State :=
  let ovf := overflowing s.cur.reg.split res
  if ovf ≠ [] then s.raise slot .runOverflow (overflowInfo ovf slot) 3
  else s.push (resultLanding s.cur.seq.scyc slot lat mk res)

/-- The combined value of one cluster (R104): B's value where B's mask is true below B's length, else A's below A's
length, else `d`. -/
def combineRuns [DecidableEq α] (d : α) (a b : Runs α) (bmask : Option (Runs Bool)) : Runs α :=
  let lb := runLen b
  let n := max (runLen a) lb
  let m := match bmask with
    | none => fitLen true lb []
    | some k => fitLen false lb k
  let av := fitLen d n a
  let bv := zipR (fitLen d n b) (fitLen false n m)
  canon (mapRuns (fun p => if p.2.2 then p.2.1 else p.1) (zipR av bv))

/-- The vector register and values a landing holds. -/
def Dest.vecOf (r : BitVec 5) : Dest → List (Fin 8 × Runs W32)
  | .vreg r' l => if r' = r then l else []
  | _ => []

def Dest.maskOf (r : BitVec 3) : Dest → List (Fin 8 × Runs Bool)
  | .kreg r' l => if r' = r then l else []
  | _ => []

/-- Removes the given clusters from a vector or mask landing. -/
def Dest.without (cls : List (Fin 8)) : Dest → Dest
  | .vreg r l => .vreg r (l.filter fun p => !cls.contains p.1)
  | .kreg r l => .kreg r (l.filter fun p => !cls.contains p.1)
  | d => d

/-- A slot-B result landing in the cycle of slot A's result of the same bundle and register is combined with it in every
cluster both select; a combined value of more than 32 runs is one overflow of the bundle (R104, R105). The combined landing carries the
flags and the RUNLEN value of A's result in those clusters too; in split mode it keeps the flags of both results whole, those of positions past
the combined prefix with them (log entry 82). Of two results that both overflow alone there, slot B's P stands in RUNLEN (log entry 96). The outcome is the new in-flight list, or the overflowing clusters. -/
def combineInto [DecidableEq α] (d : α) (pick : Dest → List (Fin 8 × Runs α)) (mk : List (Fin 8 × Runs α) → Dest)
    (bmask : List (Fin 8 × Option (Runs Bool))) (split : Bool) (inflight : List Landing) (b : Landing) :
    Except (List (Fin 8)) (List Landing) :=
  let same (l : Landing) : Bool := l.slot == 1 && l.at_ == b.at_ && l.due == b.due
  let aVals := (inflight.filter same).flatMap fun l => pick l.dest
  let bVals := pick b.dest
  let joined : List (Fin 8 × Runs α × Bool) := bVals.map fun (i, y) =>
    match aVals.find? (·.1 == i) with
    | some (_, x) => (i, combineRuns d x y ((bmask.find? (·.1 == i)).bind (·.2)), true)
    | none => (i, y, false)
  let ovf := joined.filter fun p => p.2.2 && decide (32 < p.2.1.length)
  if ovf ≠ [] && !split then .error (ovf.map (·.1))
  else
    let both := (joined.filter (·.2.2)).map (·.1)
    let mine (l : Landing) : Bool := same l && !(pick l.dest).isEmpty
    let rest (l : Landing) : Landing :=
      { l with dest := l.dest.without both, flags := l.flags.filter fun p => !both.contains p.1, runlen := l.runlen.filter fun p => !both.contains p.1 }
    let a' := (inflight.map fun l => if mine l then rest l else l).filter fun l => !(same l && l.dest == mk [])
    let aFlags := ((inflight.filter mine).flatMap (·.flags)).filter fun p => both.contains p.1
    let aLens := ((inflight.filter mine).flatMap (·.runlen)).filter fun p => both.contains p.1
    let lens := ovf.map (fun p => (p.1, runLen (p.2.1.take 32))) ++ b.runlen ++ aLens
    .ok (a' ++ [{ b with
      dest := mk (joined.map fun p => (p.1, p.2.1.take 32))
      flags := b.flags ++ aFlags ++ ovf.map (fun p => (p.1, flRO))
      runlen := (List.finRange 8).filterMap fun i => lens.find? fun p => p.1 == i }])

/-- Landing of a slot-B result (R104, R105, R197). -/
def State.landB {α : Type} [DecidableEq α] (s : State) (zero : α) (pick : Dest → List (Fin 8 × Runs α))
    (mk : List (Fin 8 × Runs α) → Dest) (lat : Nat) (bmask : List (Fin 8 × Option (Runs Bool))) (res : List (ClRes α)) :
    State :=
  let ovf := overflowing s.cur.reg.split res
  if ovf ≠ [] then s.raise 2 .runOverflow (overflowInfo ovf 2) 3
  else
    match combineInto zero pick mk bmask s.cur.reg.split s.cur.seq.inflight
        (resultLanding s.cur.seq.scyc 2 lat mk res) with
    | .ok l => s.modSeq fun q => { q with inflight := l }
    | .error cls => s.raise 4 .runOverflow (overflowInfo cls 3) 3

def State.landVecB (s : State) (lat : Nat) (d : BitVec 5) (bmask : List (Fin 8 × Option (Runs Bool)))
    (res : List (ClRes W32)) : State := s.landB 0#32 (Dest.vecOf d) (.vreg d) lat bmask res

def State.landMaskB (s : State) (lat : Nat) (d : BitVec 3) (res : List (ClRes Bool)) : State :=
  s.landB false (Dest.maskOf d) (.kreg d) lat [] res

end Sys2Proof.Machine
end

