-- ==== Sys2Proof/Machine/Global.lean ====
section
/-! DEFINITION. Global memory: address translation (R81 to R88, R360, R399, R400), where bytes live (R248, R249), the ports
that hold writes on their way home (R349), race detection (R368, R369), and a translated read and write of any length. -/

namespace Sys2Proof.Machine

/-! ### Page-table entries (R82 to R84) -/

/-- log2 of a page size code (R81). -/
def pageLog : Nat → Nat
  | 0 => 12
  | 1 => 16
  | 2 => 20
  | 3 => 24
  | 4 => 28
  | 5 => 32
  | _ => 36

/-- A level of the walk: the shift and entries of its index, its leaf size, and its larger leaf size. -/
structure Level where
  shift : Nat
  entries : Nat
  small : Option Nat
  big : Option Nat
deriving DecidableEq, Repr

def levels : List Level :=
  [{ shift := 48, entries := 256, small := none, big := none },
   { shift := 40, entries := 256, small := none, big := none },
   { shift := 32, entries := 256, small := some 5, big := some 6 },
   { shift := 24, entries := 256, small := some 3, big := some 4 },
   { shift := 16, entries := 256, small := some 1, big := some 2 },
   { shift := 12, entries := 16, small := some 0, big := none }]

def pteBit (e : W64) (i : Nat) : Bool := e.getLsbD i
def pteSize (e : W64) : Nat := (e.extractLsb' 2 3).toNat
def pteMk (e : W64) : Nat := (e.extractLsb' 53 2).toNat
/-- Physical address bits 51:12, as an address. -/
def pteFrame (e : W64) : Nat := (e.extractLsb' 12 40).toNat * 4096
def pteLeaf (e : W64) : Bool := pteBit e 1
def ptePub (e : W64) : Bool := pteBit e 11
def pteCmp (e : W64) : Bool := pteBit e 10
def pteChl (e : W64) : Bool := pteBit e 9
def pteChk (e : W64) : Bool := pteBit e 8

/-- Why a valid entry is malformed (R84, R427). -/
def pteMalformed (lv : Level) (idx : Nat) (e : W64) : Bool :=
  let size := pteSize e
  let page := 2 ^ pageLog size
  let mk := pteMk e
  let attrs := (e.extractLsb' 5 7) != 0#7
  let common := e.extractLsb' 55 9 != 0#9
  let table :=
    size != 0 || attrs || mk != 0 || pteBit e 52 || lv.entries == 16 || decide (Config.hbmBytes ≤ pteFrame e)
  let local_ := (mk == 0 || mk == 2) && !ptePub e
  let peerOff := (e.extractLsb' 12 27).toNat * 4096
  let leaf :=
    mk == 3 || (some size != lv.small && some size != lv.big)
    || (some size == lv.big && idx % 16 != 0)
    || (local_ && (pteBit e 52 || pteFrame e % page != 0))
    || (mk == 0 && !ptePub e && decide (Config.hbmBytes < pteFrame e + page))
    || (mk == 1 && decide (9216 ≤ (e.extractLsb' 39 14).toNat))
    || (mk == 1 && (peerOff % page != 0 || decide (Config.hbmBytes < peerOff + page)))
    || (ptePub e && (e.extractLsb' 44 9 != 0#9 || mk != 0 || pteCmp e))
    || (pteBit e 6 && !pteBit e 5)
    || (pteCmp e && (size != 1 || mk != 0 || pteChl e || ptePub e))
    || (pteChl e && (mk != 0 || decide (4 < size)))
  common || (if pteLeaf e then leaf else table)

/-! ### The walk (R81) -/

/-- The channel controller of an interleaved physical address, its stack, and its channel in the stack (R248). -/
def channelOf (addr : Nat) : Nat := addr / 2048 % 256
def stackOf (g : Nat) : Nat := g % 8
def stackChannel (g : Nat) : Nat := g / 8

/-- The outcome of a translation (R85, R400); `busy`: a table lies in a channel that retrains (R431). -/
inductive Xlat where
  | leaf (pte : W64)
  | notPresent
  | malformed
  | denied
  | updating
  | busy
deriving DecidableEq, Repr

/-- A 64-bit word of local HBM. -/
def State.hbm64 (s : State) (pa : Nat) : W64 := BitVec.ofNat 64 (leNat (s.mem.hbm.bytes pa 8))

/-- The entry that a level of the walk uses for an index: the group's first entry when it is a leaf of the larger size. -/
def State.levelEntry (s : State) (lv : Level) (node idx : Nat) : Nat × W64 :=
  let first := idx - idx % 16
  let e0 := s.hbm64 (node + 8 * first)
  match lv.big with
  | some b => if pteBit e0 0 && pteLeaf e0 && pteSize e0 == b then (first, e0) else (idx, s.hbm64 (node + 8 * idx))
  | none => (idx, s.hbm64 (node + 8 * idx))

def State.walk (s : State) (va : Nat) : List Level → Nat → Xlat
  | [], _ => .malformed
  | lv :: rest, node =>
    let (idx, e) := s.levelEntry lv node ((va >>> lv.shift) % lv.entries)
    if !pteBit e 0 then .notPresent
    else if pteMalformed lv idx e then .malformed
    else if pteLeaf e then .leaf e
    else s.walk va rest (pteFrame e)

/-- An access to a channel of local HBM, outside the near-bank unit's row operations: beats read (code 2) or written (3) at its controller, and
an ordinary request of the channel in this device cycle (R279, R426). -/
def State.beats (s : State) (g code n : Nat) : State :=
  let s := s.countChan g code n
  { s with obs := { s.obs with asked := insertNat g s.obs.asked } }

/-- The channel of an address in local HBM retrains, and accesses to it wait (R395, R431). -/
def State.retraining (s : State) (pa : Nat) : Bool := s.env.retrain.contains (channelOf pa)

/-- The beats of a table that a level of the walk reads: that of the group's first entry, and that of the indexed one where it is used. -/
def State.levelReads (s : State) (lv : Level) (node idx : Nat) : List Nat :=
  let a := node + 8 * (s.levelEntry lv node idx).1
  let first := node + 8 * (idx - idx % 16)
  if lv.big.isSome && first / 64 != a / 64 then [first, a] else [a]

/-- The beats that a walk reads. -/
def State.walkReads (s : State) (va : Nat) : List Level → Nat → List Nat
  | [], _ => []
  | lv :: rest, node =>
    let i := (va >>> lv.shift) % lv.entries
    let (idx, e) := s.levelEntry lv node i
    s.levelReads lv node i ++ (if !pteBit e 0 || pteMalformed lv idx e || pteLeaf e then [] else s.walkReads va rest (pteFrame e))

/-! ### Translation caches (R86 to R88) -/

def TlbEntry.hits (e : TlbEntry) (asid : BitVec 14) (va : Nat) : Bool :=
  e.asid == asid && e.page == va >>> pageLog e.size

/-- An entry that a TLBINV in progress is dropping (R399, R400). -/
def TlbInv.drops (v : TlbInv) (e : TlbEntry) : Bool :=
  match v.mode.toNat with
  | 0 => e.asid == v.asid && e.page == v.va >>> pageLog e.size
  | 1 => e.asid == v.asid
  | _ => true

def State.tlbSetOf (_ : State) (e : TlbEntry) : Nat := Config.tlbSet e.page e.size % 256

/-- An entry becomes the most recently used one of both caches, on a hit in either too (R86; log entry 84). -/
def State.tlbFill (s : State) (tile : Option Nat) (e : TlbEntry) : State :=
  let front (n : Nat) (l : List TlbEntry) : List TlbEntry :=
    (e :: l.filter fun x => !(x.asid == e.asid && x.size == e.size && x.page == e.page)).take n
  let set := s.tlbSetOf e
  let m := { s.mem with tlb2 := tput set (front 16 (tget [] s.mem.tlb2 set)) s.mem.tlb2 }
  let m := match tile with
    | some t => { m with tlb1 := tput t (front 64 (tget [] m.tlb1 t)) m.tlb1 }
    | none => m
  { s with mem := m }

def State.tlbHit (s : State) (tile : Option Nat) (asid : BitVec 14) (va : Nat) : Option TlbEntry :=
  let one := match tile with
    | some t => (tget ([] : List TlbEntry) s.mem.tlb1 t).find? fun e => e.hits asid va
    | none => none
  match one with
  | some e => some e
  | none => (s.mem.tlb2.flatMap fun (p : Nat × List TlbEntry) => p.2).find? fun e => e.hits asid va

/-- The address space an agent translates through, its tile's cache, and its privilege. -/
structure Xctx where
  tile : Option Nat
  asid : BitVec 14
  ptroot : Nat
  priv : Bool
deriving DecidableEq, Repr

/-- The leaf of a virtual address: a cached leaf that differs from the tables may still be used. The access that takes the new leaf in its
place leaves the caches as they are, so that each later one chooses anew until a TLBINV (R88, log entry 3). -/
def State.lookup (s : State) (x : Xctx) (va : Nat) : Xlat × State :=
  if 2 ^ 56 ≤ va then (.denied, s)
  else
    let fresh := s.walk va levels x.ptroot
    let entry (e : W64) : TlbEntry :=
      { asid := x.asid, size := pteSize e, page := va >>> pageLog (pteSize e), pte := e }
    let useFresh (fill : Bool) (s : State) : Xlat × State :=
      let reads := s.walkReads va levels x.ptroot
      if reads.any s.retraining then (.busy, s)
      else
      let s := reads.foldl (fun s a => s.beats (channelOf a) 2 1) s
      match fresh with
      | .leaf e => (.leaf e, if fill then s.tlbFill x.tile (entry e) else s)
      | .notPresent =>
        if s.mem.unres.contains (x.asid.toNat, va >>> 12) then (.denied, s) else (.notPresent, s)
      | r => (r, s)
    match s.tlbHit x.tile x.asid va with
    | none => useFresh true s
    | some e =>
      if s.mem.tlbInvs.any fun v => v.drops e then (.updating, s)
      else if fresh == .leaf e.pte then (.leaf e.pte, s.tlbFill x.tile e)
      else
        let (old, s') := s.choose
        if old then (.leaf e.pte, s'.tlbFill x.tile e) else useFresh false s'

/-! ### Where bytes live (R83, R248, R249, R360) -/

/-- The offset within its channel of an interleaved physical address, and the pseudo-channel of an offset (R248). -/
def channelOffset (addr : Nat) : Nat := addr / 2 ^ 19 * 2048 + addr % 2048
def pseudoChannel (off : Nat) : Nat := off / 1024 % 2

/-- The interleaved physical address of an offset of a channel. -/
def interleaved (g off : Nat) : Nat := off / 2048 * 2 ^ 19 + g * 2048 + off % 2048

/-- The interleaved physical address that uses the same channel storage as byte `b` of a channel-local page (R249). -/
def channelLocal (frame size b : Nat) : Nat := interleaved (frame / size % 256) (frame / (256 * size) * size + b)

/-- The address of an entry of a buffer map (R360, R422). -/
def State.bufAddr (s : State) (asid ix : Nat) : Nat := ((tget 0#64 s.mgmt.bmbase asid).extractLsb' 12 40).toNat * 4096 + 32 * ix

/-- The four words of an entry of a buffer map (R360). -/
def State.bufWords (s : State) (asid : Nat) (ix : Nat) : W64 × W64 × W64 × W64 :=
  let a := s.bufAddr asid ix
  (s.hbm64 a, s.hbm64 (a + 8), s.hbm64 (a + 16), s.hbm64 (a + 24))

/-- An entry of a buffer map is valid: its ASID has a map, V is set, and no reserved bit is (R6, R360, R422). -/
def State.bufValid (s : State) (asid ix : Nat) : Bool :=
  let (w0, w1, w2, w3) := s.bufWords asid ix
  (tget 0#64 s.mgmt.bmbase asid).getLsbD 0 && w0.getLsbD 0 && w0.extractLsb' 5 3 == 0#3 && w0.extractLsb' 28 4 == 0#4
    && w1.extractLsb' 40 24 == 0#24 && w2.extractLsb' 40 24 == 0#24 && w3 == 0#64

/-- The backing of a published page: front, or shadow for an engine's write (R360, R361); a channel-local page of it lies in the
channel of its own address in the backing (R249). -/
def State.pubPlace (s : State) (asid : BitVec 14) (pte : W64) (off : Nat) (shadow : Bool) : Option Place :=
  let ix := (pte.extractLsb' 12 12).toNat
  let page := (pte.extractLsb' 24 20).toNat
  let (w0, w1, w2, _) := s.bufWords asid.toNat ix
  let size := pteSize pte
  if !s.bufValid asid.toNat ix || decide ((w0.extractLsb' 8 20).toNat < page) || (w0.extractLsb' 2 3).toNat != size then none
  else
    let b := if w0.getLsbD 1 != shadow then (w2.extractLsb' 0 40).toNat else (w1.extractLsb' 0 40).toNat
    let frame := b * 4096 + page * 2 ^ pageLog size
    some { kind := 0, addr := if pteChl pte then channelLocal frame (2 ^ pageLog size) off else frame + off }

/-- The place of a virtual address under its leaf. The device's own identifier is its local HBM, and a peer to which there has been no
path for 1 ms has no place (R427). -/
def State.placeOf (s : State) (asid : BitVec 14) (pte : W64) (va : Nat) (shadow : Bool) : Option Place :=
  let size := 2 ^ pageLog (pteSize pte)
  let off := va % size
  if ptePub pte then s.pubPlace asid pte off shadow
  else match pteMk pte with
    | 0 =>
      if pteCmp pte then some { kind := 3, addr := pteFrame pte + off }
      else some { kind := 0, addr := if pteChl pte then channelLocal (pteFrame pte) size off else pteFrame pte + off }
    | 1 =>
      let dev := (pte.extractLsb' 39 14).toNat
      let a := (pte.extractLsb' 12 27).toNat * 4096 + off
      if dev = s.mgmt.devid then some { kind := 0, addr := a }
      else if s.mem.deadPeers.contains dev then none
      else some { kind := 1, addr := dev * 2 ^ 39 + a }
    | _ => some { kind := 2, addr := pteFrame pte + off }

/-- Local HBM, plain or compressed. -/
def Place.isLocal (p : Place) : Bool := p.kind == 0 || p.kind == 3

/-- The single-copy atomic size of the memory at a place (R255). -/
def Place.unit (p : Place) : Nat := if p.kind == 2 then 8 else 32

/-- What an access asks of its page (R85, R361), and the unit of its tile that makes it: the task (0), the stream of handle h (h + 1), the
bulk copier (17), the broadcast column (18), the fabric port (19), the tile's port with its held writes (20), or its near-bank command port
(23). Requests of the scheduler for a launch have unit 21, those of a near-bank unit 22. -/
structure Want where
  read : Bool
  write : Bool
  amo : Bool := false
  engine : Bool := false
  unit : Nat := 0
deriving DecidableEq, Repr

/-- Permission (R85, R361): a published page is written only by engines. -/
def permits (w : Want) (priv : Bool) (pte : W64) : Bool :=
  (!w.read || pteBit pte 5) && (!w.write || pteBit pte 6) && (priv || pteBit pte 7)
  && !(ptePub pte && (w.amo || (w.write && !w.engine)))

/-- A piece of an access that lies in one 2 KiB unit: where it lives, its leaf, and its length. -/
structure Span where
  place : Place
  pte : W64
  va : Nat
  len : Nat
deriving DecidableEq, Repr

/-- Why a translation gives no place. -/
inductive XFail where
  | notPresent (va : Nat)
  | updating (va : Nat)
  | denied (va : Nat)
  | malformed (va : Nat)
  | busy (va : Nat)
deriving DecidableEq, Repr

def XFail.va : XFail → Nat
  | .notPresent v => v
  | .updating v => v
  | .denied v => v
  | .malformed v => v
  | .busy v => v

/-- The entry of the buffer map that a published leaf names is read with each translation through it (R360; log entry 94). -/
def State.readBuf (s : State) (asid : BitVec 14) (pte : W64) : State :=
  if ptePub pte then s.beats (channelOf (s.bufAddr asid.toNat (pte.extractLsb' 12 12).toNat)) 2 1 else s

/-- That entry lies in a channel that retrains, so that the translation waits (R431; log entry 94). -/
def State.bufBusy (s : State) (asid : BitVec 14) (pte : W64) : Bool :=
  ptePub pte && s.retraining (s.bufAddr asid.toNat (pte.extractLsb' 12 12).toNat)

/-- One translation with its permission check. -/
def State.translate (s : State) (x : Xctx) (w : Want) (va len : Nat) : Except XFail Span × State :=
  match s.lookup x va with
  | (.leaf e, s') =>
    if !permits w x.priv e then (.error (.denied va), s')
    else if s'.bufBusy x.asid e then (.error (.busy va), s')
    else
      match s'.placeOf x.asid e va (w.write && w.engine) with
      | some p => (.ok { place := p, pte := e, va := va, len := len }, s'.readBuf x.asid e)
      | none => (.error (.denied va), s'.readBuf x.asid e)
  | (.notPresent, s') => (.error (.notPresent va), s')
  | (.updating, s') => (.error (.updating va), s')
  | (.malformed, s') => (.error (.malformed va), s')
  | (.busy, s') => (.error (.busy va), s')
  | (.denied, s') => (.error (.denied va), s')

/-- A range of virtual bytes, cut at 2 KiB boundaries and translated piece by piece. -/
def State.spans (x : Xctx) (w : Want) : Nat → State → Nat → Nat → Except XFail (List Span) × State
  | 0, s, _, _ => (.ok [], s)
  | fuel + 1, s, va, n =>
    if n = 0 then (.ok [], s)
    else
      let len := min n (2048 - va % 2048)
      match s.translate x w va len with
      | (.error e, s') => (.error e, s')
      | (.ok sp, s') =>
        match State.spans x w fuel s' (va + len) (n - len) with
        | (.error e, s'') => (.error e, s'')
        | (.ok l, s'') => (.ok (sp :: l), s'')

/-- Fuel that covers `n` bytes. -/
def spanFuel (n : Nat) : Nat := n / 2048 + 2

/-- The address space of a task. -/
def Task.xctx (t : Task) : Xctx :=
  { tile := some t.bnd.tile, asid := t.bnd.asid, ptroot := t.bnd.ptroot, priv := t.reg.priv }

/-! ### Compressed pages (R250, R251) -/

/-- The 32-bit words of a block, as bytes. -/
def blockWords : List Byte → List (List Byte)
  | a :: b :: c :: d :: l => [a, b, c, d] :: blockWords l
  | _ => []

/-- Words of a block that are not zero. -/
def nonZeroWords (block : List Byte) : Nat := ((blockWords block).filter fun w => w != zeros 4).length

/-- The smallest slot code of a 1 KiB block: 256, 512, 768 or 1,024 B by its non-zero words (R250). -/
def slotCode (block : List Byte) : Nat :=
  let nz := nonZeroWords block
  if nz ≤ 56 then 0 else if nz ≤ 120 then 1 else if nz ≤ 184 then 2 else 3

/-- The compressed form: a bitmap of the words that are not zero, and those words in order. -/
def compressBlock (block : List Byte) : List Byte :=
  let ws := blockWords block
  leBytes ((ws.zipIdx.map fun p => if p.1 = zeros 4 then 0 else 2 ^ p.2).sum) 32 ++ (ws.filter fun w => w != zeros 4).flatten

/-- `n` words back from a bitmap and the words it stands for. -/
def expandWords : Nat → Nat → List Byte → List Byte
  | 0, _, _ => []
  | n + 1, bits, l =>
    if bits % 2 = 1 then (l ++ zeros 4).take 4 ++ expandWords n (bits / 2) (l.drop 4) else zeros 4 ++ expandWords n (bits / 2) l

/-- Slot codes of the compressed page with number `frame` (its address divided by 64 KiB). -/
def State.slotsOf (s : State) (frame : Nat) : List Nat := tget (List.replicate 64 0) s.mem.slots frame

/-- Where the slot of block j begins, under a list of slot codes: after the slots of the blocks before it. -/
def slotAddr (codes : List Nat) (frame j : Nat) : Nat := 65536 * frame + ((codes.take j).map fun c => 256 * (c + 1)).sum

/-- The bytes of a block as its slot holds them: raw in a slot of 1,024 B, else the compressed form. -/
def State.storedBlock (s : State) (frame j : Nat) : List Byte :=
  let code := (s.slotsOf frame).getD j 0
  let form := s.mem.hbm.bytes (slotAddr (s.slotsOf frame) frame j) (256 * (code + 1))
  if code = 3 then form else expandWords 256 (leNat (form.take 32)) (form.drop 32)

/-- The logical bytes of block j: those that a relayout is to store, or those stored. -/
def State.logicalBlock (s : State) (frame j : Nat) : List Byte :=
  match (tget [] s.mem.regrow frame).find? fun p => p.1 == j with
  | some p => p.2
  | none => s.storedBlock frame j

/-- The smallest slots for the page's content. -/
def State.slotsNeeded (s : State) (frame : Nat) : List Nat := (List.range 64).map fun j => slotCode (s.logicalBlock frame j)

/-- A write to the page has outgrown a slot, and the page is still to be laid out again (R251). -/
def State.outgrown (s : State) (frame : Nat) : Bool := !(tget [] s.mem.regrow frame).isEmpty

/-- A block written into its slot. -/
def Memory.putBlock (m : Memory) (codes : List Nat) (frame j : Nat) (block : List Byte) : Memory :=
  m.putBytes (slotAddr codes frame j) (if codes.getD j 0 = 3 then block else compressBlock block)

/-- Every block gets its smallest slot and is moved there; the page stays locked until RELAYOUT_DONE (R251). -/
def State.layOut (s : State) (frame : Nat) : State :=
  let codes := s.slotsNeeded frame
  let blocks := (List.range 64).map fun j => s.logicalBlock frame j
  { s with mem := { s.mem with
      slots := tput frame codes s.mem.slots
      regrow := s.mem.regrow.filter fun p => p.1 != frame
      hbm := blocks.zipIdx.foldl (fun m p => m.putBlock codes frame p.2 p.1) s.mem.hbm } }

/-- One block rewritten with new logical bytes: in its slot, or, when it outgrows that or its page waits for a relayout already, it
waits for the relayout with its page locked (R250, R251). -/
def State.writeBlock (s : State) (frame j : Nat) (block : List Byte) : State :=
  let codes := s.slotsOf frame
  if !s.outgrown frame && decide (slotCode block ≤ codes.getD j 0) then
    { s with mem := { s.mem with hbm := s.mem.hbm.putBlock codes frame j block } }
  else
    { s with mem := { s.mem with
        locked := insertNat frame s.mem.locked
        regrow := tput frame (tput j block (tget [] s.mem.regrow frame)) s.mem.regrow } }

/-- Logical bytes of compressed pages from an address on, and their writing. Block k of local HBM is block k mod 64 of its page. -/
def State.cmpBytes (s : State) (addr n : Nat) : List Byte :=
  let k := addr / 1024
  (((List.range ((addr % 1024 + n + 1023) / 1024)).flatMap fun i => s.logicalBlock ((k + i) / 64) ((k + i) % 64)).drop (addr % 1024)).take n

def State.cmpWrite (s : State) (addr : Nat) (bs : List Byte) : State :=
  let k := addr / 1024
  (List.range ((addr % 1024 + bs.length + 1023) / 1024)).foldl (fun s i =>
    let old := s.logicalBlock ((k + i) / 64) ((k + i) % 64)
    s.writeBlock ((k + i) / 64) ((k + i) % 64) (old.mapIdx fun p b =>
      if addr ≤ 1024 * (k + i) + p then (bs[1024 * (k + i) + p - addr]?).getD b else b)) s

/-- The physical address at which the bytes of a place are stored. -/
def State.storedAt (s : State) (p : Place) : Nat :=
  if p.kind == 3 then slotAddr (s.slotsOf (p.addr / 65536)) (p.addr / 65536) (p.addr / 1024 % 64) else p.addr

/-! ### Homes (R349) -/

/-- The bytes at a home. -/
def State.homeBytes (s : State) (p : Place) (n : Nat) : List Byte :=
  match p.kind with
  | 0 => s.mem.hbm.bytes p.addr n
  | 1 => s.mem.peer.bytes p.addr n
  | 3 => s.cmpBytes p.addr n
  | _ => s.mem.host.bytes p.addr n

/-- Bytes written at their home. -/
def State.homeWrite (s : State) (p : Place) (bs : List Byte) : State :=
  match p.kind with
  | 0 => { s with mem := { s.mem with hbm := s.mem.hbm.putBytes p.addr bs } }
  | 1 => { s with mem := { s.mem with peer := s.mem.peer.putBytes p.addr bs } }
  | 3 => s.cmpWrite p.addr bs
  | _ => { s with mem := { s.mem with host := s.mem.host.putBytes p.addr bs } }

/-! ### Race detection (R367 to R369) -/

/-- The 32 B sectors that a span covers, on a checked page of local HBM (R368). -/
def Span.sectors (sp : Span) : List (Nat × Nat) :=
  if pteChk sp.pte && sp.place.isLocal && sp.len != 0 then
    (List.range ((sp.place.addr % 32 + sp.len + 31) / 32)).map fun i =>
      (sp.place.addr / 32 + i, max sp.va (sp.va - sp.place.addr % 32 + 32 * i))
  else []

/-- The first sector where an access of a tile races, with its address and whether the earlier access wrote. -/
def Launch.findRace (l : Launch) (tile : Nat) (wrote : Bool) (secs : List (Nat × Nat)) : Option (Nat × Bool) :=
  secs.findSome? fun (sec, va) =>
    (l.races.find? fun m => m.sector == sec && m.phase == l.phaseCnt && m.tile != tile && (m.wrote || wrote)).map
      fun m => (va, m.wrote)

/-- TRAPINFO of the race exception (R369). -/
def raceInfo (va : Nat) (wrote : Bool) : W64 := BitVec.ofNat 64 (va % 2 ^ 56 + if wrote then 2 ^ 63 else 0)

/-- Checks an access to sectors against the launch's record and adds it. The error is TRAPINFO. -/
def State.checkSectors (s : State) (launch tile : Nat) (wrote : Bool) (secs : List (Nat × Nat)) : Except W64 State :=
  match secs, s.launch? launch with
  | [], _ => .ok s
  | _, none => .ok s
  | _, some l =>
    match l.findRace tile wrote secs with
    | some (va, w) => .error (raceInfo va w)
    | none =>
      let new := secs.map fun p => ({ sector := p.1, phase := l.phaseCnt, tile := tile, wrote := wrote } : RaceMark)
      .ok (s.modLaunch launch fun l => { l with
        races := (l.races.filter (fun m => m.phase == l.phaseCnt)) ++ new.filter (fun m => !l.races.contains m) })

/-- Checks an access to spans. -/
def State.checkRace (s : State) (launch tile : Nat) (wrote : Bool) (sps : List Span) : Except W64 State :=
  s.checkSectors launch tile wrote (sps.flatMap Span.sectors)

/-! ### Ports (R349) -/

/-- Bytes overlaid by the part of a held write that covers them. -/
def overlay (p : Place) (bs : List Byte) (w : PortWrite) : List Byte :=
  if w.place.kind != p.kind then bs
  else bs.mapIdx fun i b =>
    if w.place.addr ≤ p.addr + i then (w.bytes[p.addr + i - w.place.addr]?).getD b else b

/-- The bytes that a tile's task and engines read: their ports' held writes stand over the home (R349, R359). -/
def State.tileBytes (s : State) (tile : Option Nat) (p : Place) (n : Nat) : List Byte :=
  match tile with
  | none => s.homeBytes p n
  | some t => (s.mem.wport.filter fun w => w.tile == t).foldl (overlay p) (s.homeBytes p n)

/-- A write reaches its home. -/
def State.arrive (s : State) (w : PortWrite) : State := s.homeWrite w.place w.bytes

/-- All links of the device retrain, so that no path to any peer exists (R427). -/
def State.noPath (s : State) : Bool := (List.range 18).all fun k => s.env.linksDown.contains k

/-- A place in local HBM whose compressed page is locked, or whose channel retrains (R251, R395, R431). -/
def State.placeLocked (s : State) (p : Place) : Bool :=
  (p.kind == 3 && s.mem.locked.contains (p.addr / 65536)) || (p.isLocal && s.env.retrain.contains (channelOf (s.storedAt p)))

/-- A held write cannot go on: its home in local HBM is locked, or no path leads from the device's port to its peer. -/
def State.writeLocked (s : State) (w : PortWrite) : Bool := s.placeLocked w.place || (w.dev && w.place.kind == 1 && s.noPath)

/-- The writes of the device's port to a kind of memory reach their homes, in their order of arrival at the port, whichever tile's
they are. -/
def State.drainDevice (s : State) (kind : Nat) : State :=
  let mine (w : PortWrite) : Bool := w.dev && w.place.kind == kind
  (s.mem.wport.filter mine).foldl State.arrive { s with mem := { s.mem with wport := s.mem.wport.filter fun w => !mine w } }

/-- A write that its tile's port gives up: to its home in local HBM, or to the device's port. -/
def State.leaveTile (s : State) (w : PortWrite) : State :=
  if w.place.isLocal then s.arrive w else { s with mem := { s.mem with wport := s.mem.wport ++ [{ w with dev := true }] } }

/-- The writes that a tile's own port holds leave it, in order. -/
def State.leavePort (s : State) (tile : Nat) : State :=
  let mine (w : PortWrite) : Bool := w.tile == tile && !w.dev
  (s.mem.wport.filter mine).foldl State.leaveTile { s with mem := { s.mem with wport := s.mem.wport.filter fun w => !mine w } }

/-- The writes of a tile that its ports hold reach their homes, in arrival order. -/
def State.drainTile (s : State) (tile : Nat) : State :=
  [1, 2].foldl (fun s k => if s.mem.wport.any fun w => w.tile == tile && w.place.kind == k then s.drainDevice k else s) (s.leavePort tile)

/-- A request of a tile's unit that meets a locked page joins its queue (R251). -/
def State.queuePlace (s : State) (tile unit : Nat) (p : Place) : State :=
  let q := (p.addr / 65536, tile, unit)
  if p.kind == 3 && s.mem.locked.contains q.1 && !s.mem.lockQ.contains q then { s with mem := { s.mem with lockQ := s.mem.lockQ ++ [q] } }
  else s

def State.queueAt (s : State) (tile unit : Nat) (sps : List Span) : State := sps.foldl (fun s sp => s.queuePlace tile unit sp.place) s

/-- The oldest held write of a tile that its port lets go on does: from the tile's port, in order, to its home or to the device's port,
and from there, with those that arrived there before it, home. -/
def State.drainOne (s : State) (tile : Nat) : State :=
  match s.mem.wport.find? fun w => w.tile == tile && !(w.dev && s.writeLocked w) with
  | none => s
  | some w =>
    if s.writeLocked w then s.queuePlace tile 20 w.place
    else if w.dev then s.drainDevice w.place.kind
    else ({ s with mem := { s.mem with wport := s.mem.wport.eraseP fun w => w.tile == tile && !w.dev } } : State).leaveTile w

/-- Whether a write performed at a scope still waits in a port: the device's Rhumb or PCI Express port (`some true`), the
tile's (`some false`), or nowhere (R349). -/
def heldAt (scope : BitVec 2) (p : Place) : Option Bool :=
  match scope.toNat with
  | 0 => some false
  | 1 => if p.isLocal then none else some true
  | 2 => if p.kind == 2 then some true else none
  | _ => none

/-- A write of a tile performed at a scope, behind every earlier write of its ports (R349). -/
def State.performWrite (s : State) (scope : BitVec 2) (w : PortWrite) : State :=
  match heldAt scope w.place with
  | some false => { s with mem := { s.mem with wport := s.mem.wport ++ [{ w with dev := false }] } }
  | some true => (s.leavePort w.tile).leaveTile w
  | none =>
    let s := s.leavePort w.tile
    (if w.place.isLocal then s else s.drainDevice w.place.kind).arrive w

/-- The held writes of a tile become performed at a scope, in arrival order (R349). -/
def State.performHeld (s : State) (tile : Nat) (scope : BitVec 2) : State :=
  let mine (k : Nat) (s : State) : Bool := s.mem.wport.any fun w => w.tile == tile && w.place.kind == k
  match scope.toNat with
  | 0 => s
  | 1 => s.leavePort tile
  | 2 => let s := s.leavePort tile; if mine 1 s then s.drainDevice 1 else s
  | _ => s.drainTile tile

/-- An access of a tile goes through the device's port to the memory of its spans, behind the writes that the port holds (R349,
R351; log entry 26). -/
def State.passPort (s : State) (sps : List Span) : State :=
  sps.foldl (fun s sp => if sp.place.isLocal then s else s.drainDevice sp.place.kind) s

/-- A held write of a tile touches bytes of the spans. -/
def State.holdsSpan (s : State) (tile : Nat) (sps : List Span) : Bool :=
  s.mem.wport.any fun w => w.tile == tile && sps.any fun sp =>
    w.place.kind == sp.place.kind && decide (w.place.addr < sp.place.addr + sp.len) && decide (sp.place.addr < w.place.addr + w.bytes.length)

/-- A tile's held writes go home in arrival order as far as the last that touches the spans. -/
def State.drainTo (s : State) (tile : Nat) (sps : List Span) : State :=
  (s.mem.wport ++ s.mem.wport).foldl (fun s _ => if s.holdsSpan tile sps then s.drainOne tile else s) s

/-- A held write is performed at a scope already (R349). -/
def PortWrite.performedAt (w : PortWrite) (scope : BitVec 2) : Bool :=
  match scope.toNat with
  | 0 => true
  | 1 => w.dev
  | 2 => w.dev && w.place.kind == 2
  | _ => false

/-- Whether every earlier write of a tile is performed at a scope (R349, R358). -/
def State.portClear (s : State) (tile : Nat) (scope : BitVec 2) : Bool :=
  s.mem.wport.all fun w => w.tile != tile || w.performedAt scope

/-- The same for those that bundles before a schedule cycle issued (R341, R363, R366). -/
def State.portClearTo (s : State) (tile : Nat) (scope : BitVec 2) (before : Nat) : Bool :=
  s.mem.wport.all fun w => w.tile != tile || decide (before ≤ w.at_) || w.performedAt scope

/-- Every write of a launch is performed at device scope (R418). -/
def State.launchClear (s : State) (launch : Nat) : Bool := s.mem.wport.all fun w => w.launch != launch || w.dev

/-- No held write of a tile is kept from its home in local HBM. -/
def State.portFree (s : State) (tile : Nat) : Bool := s.mem.wport.all fun w => w.tile != tile || !s.placeLocked w.place

/-- No held write of a tile is kept from the place where it is performed at a scope: from its home in local HBM, or, for the scopes that
reach further, from its peer (R349, R427). -/
def State.portFreeTo (s : State) (tile : Nat) (scope : BitVec 2) : Bool :=
  s.portFree tile && (decide (scope.toNat ≤ 1) || s.mem.wport.all fun w => w.tile != tile || w.place.kind != 1 || !s.noPath)

/-! ### The controllers (R251, R395, R426) -/

/-- A relayout lock, or the retraining of the channel, holds the access back (R251, R395, R431). -/
def State.lockedSpans (s : State) (sps : List Span) : Bool := sps.any fun (sp : Span) => s.placeLocked sp.place

/-- An access that must reach a peer's memory meets no path there; a write that the device's port takes does not (R349, R427). -/
def State.noPathTo (s : State) (sps : List Span) : Bool := s.noPath && sps.any fun (sp : Span) => sp.place.kind == 1

/-- Beats of an access at the controllers, read (code 2) or written (code 3) (R426). -/
def State.countBeats (s : State) (code : Nat) (sps : List Span) : State :=
  sps.foldl (fun s sp =>
    if sp.place.isLocal then s.beats (channelOf (s.storedAt sp.place)) code ((sp.place.addr % 64 + sp.len + 63) / 64) else s) s

/-- Beats of an access to local HBM by a physical address (R426). -/
def State.countLocal (s : State) (code addr n : Nat) : State :=
  s.countBeats code [{ place := { kind := 0, addr := addr }, pte := 0#64, va := addr, len := n }]

/-! ### Whole accesses -/

/-- Why an access of an engine or a task ends without its data. -/
inductive MemFail where
  | wait
  | prot (va : Nat)
  | race (info : W64)
  | bad (va : Nat)
deriving DecidableEq, Repr

/-- The first address whose byte lies in a row of local HBM, 2 KiB each, that was found uncorrectable (R252). -/
def State.poisonedVa (s : State) (sps : List Span) : Option Nat :=
  sps.findSome? fun sp =>
    if !sp.place.isLocal then none
    else if sp.place.kind == 3 then
      (List.range ((sp.place.addr % 1024 + sp.len + 1023) / 1024)).findSome? fun i =>
        let k := sp.place.addr / 1024 + i
        let a := s.storedAt { kind := 3, addr := 1024 * k }
        let last := a + 256 * ((s.slotsOf (k / 64)).getD (k % 64) 0 + 1) - 1
        if s.mem.hbmBad.contains (a / 2048) || s.mem.hbmBad.contains (last / 2048) then
          some (max sp.va (sp.va + 1024 * i - sp.place.addr % 1024)) else none
    else if s.mem.hbmBad.contains (sp.place.addr / 2048) then some sp.va else none

def State.poisoned (s : State) (sps : List Span) : Bool := (s.poisonedVa sps).isSome

def XFail.asMem : XFail → MemFail
  | .notPresent _ => .wait
  | .updating _ => .wait
  | .busy _ => .wait
  | .denied va => .prot va
  | .malformed va => .prot va

/-- The bytes of spans read on behalf of a task's engine, once nothing holds the access back: the race check, and the data. -/
def State.readSpans (s : State) (t : Task) (unit : Nat) (sps : List Span) (counted : Bool) : Except MemFail (List Byte) × State :=
  if s.lockedSpans sps || s.noPathTo sps then (.error .wait, s.queueAt t.bnd.tile unit sps)
  else match s.poisonedVa sps with
    | some va => (.error (.bad va), s)
    | none => match s.checkRace t.bnd.launch t.bnd.tile false sps with
      | .error i => (.error (.race i), s)
      | .ok s1 =>
        let s2 := s1.passPort sps
        (.ok (sps.flatMap fun sp => s2.tileBytes (some t.bnd.tile) sp.place sp.len), if counted then s2.countBeats 2 sps else s2)

/-- A read of `n` bytes on behalf of a task's engine, inside one single-copy atomic unit, or of what is atomic by itself. -/
def State.readVirt (s : State) (t : Task) (want : Want) (va n : Nat) : Except MemFail (List Byte) × State :=
  match State.spans t.xctx want (spanFuel n) s va n with
  | (.error e, s') => (.error e.asMem, s')
  | (.ok sps, s') => s'.readSpans t want.unit sps true

/-- A span cut at the end of its first single-copy atomic unit (R255). -/
def Span.unit (sp : Span) : Span := { sp with len := min sp.len (sp.place.unit - sp.place.addr % sp.place.unit) }

/-- A read of `n` bytes goes on behind those of it that are read already, one single-copy atomic unit after the other in ascending order;
after each it may pause until the engine's next step (R255; log entry 81). The answer holds the bytes read so far. -/
def State.readOn (t : Task) (want : Want) (va n : Nat) : Nat → List Byte → State → Except MemFail (List Byte) × State
  | 0, got, s => (.ok got, s)
  | fuel + 1, got, s =>
    if n ≤ got.length then (.ok got, s)
    else
      let a := va + got.length
      match s.translate t.xctx want a (min (n - got.length) (32 - a % 32)) with
      | (.error e, s') => (.error e.asMem, s')
      | (.ok sp, s') =>
        match s'.readSpans t want.unit [sp.unit] (got.isEmpty || sp.place.addr % 64 == 0) with
        | (.error e, s1) => (.error e, s1)
        | (.ok bs, s1) =>
          let (pause, s2) := s1.choose
          if pause then (.ok (got ++ bs), s2) else State.readOn t want va n fuel (got ++ bs) s2

/-- Units that `n` bytes can touch. -/
def unitFuel (n : Nat) : Nat := n / 8 + 2

/-- Consecutive parts of a byte list along spans. -/
def cutSpans : List Span → List Byte → List (Place × List Byte)
  | [], _ => []
  | sp :: r, bs => (sp.place, bs.take sp.len) :: cutSpans r (bs.drop sp.len)

/-- A write on behalf of a task's engine of bytes that lie in one single-copy atomic unit, performed at device scope. -/
def State.writeSpan (s : State) (t : Task) (unit : Nat) (sp : Span) (bs : List Byte) (counted : Bool) : Except MemFail Unit × State :=
  if s.lockedSpans [sp] || !s.portFree t.bnd.tile then (.error .wait, s.queueAt t.bnd.tile unit [sp])
  else match s.checkRace t.bnd.launch t.bnd.tile true [sp] with
    | .error i => (.error (.race i), s)
    | .ok s1 =>
      let s2 := s1.performWrite 1#2 { tile := t.bnd.tile, place := sp.place, bytes := bs, dev := false, launch := t.bnd.launch }
      (.ok (), if counted then s2.countBeats 3 [sp] else s2)

/-- A write of bytes from an address on goes on behind the first `k` of them, which are written already, unit after unit in ascending
order; after each it may pause until the engine's next step (R255; log entry 81). `place` translates a piece of it. The answer counts the
bytes written so far. -/
def State.writeOn (t : Task) (unit : Nat) (place : State → Nat → Nat → Except MemFail Span × State) (va : Nat) (bs : List Byte) :
    Nat → Nat → State → Except MemFail Nat × Nat × State
  | 0, k, s => (.ok k, k, s)
  | fuel + 1, k, s =>
    if bs.length ≤ k then (.ok k, k, s)
    else
      let a := va + k
      match place s a (min (bs.length - k) (32 - a % 32)) with
      | (.error e, s') => (.error e, k, s')
      | (.ok sp, s') =>
        let u := sp.unit
        match s'.writeSpan t unit u ((bs.drop k).take u.len) (k == 0 || sp.place.addr % 64 == 0) with
        | (.error e, s1) => (.error e, k, s1)
        | (.ok _, s1) =>
          let (pause, s2) := s1.choose
          if pause then (.ok (k + u.len), k + u.len, s2) else State.writeOn t unit place va bs fuel (k + u.len) s2

end Sys2Proof.Machine
end

