-- ==== Sys2Proof/Machine/Tower.lean ====
section
/-! DEFINITION. The tile's towers: the remap tables that say which physical tower serves a logical one (R61, R65, R68,
R69), leases (R70, R72), bytes and full-empty bits (R227 to R231), and refresh limits (R67, R253). -/

namespace Sys2Proof.Machine

/-- Logical column and row of a tile number 32y + x (R61). -/
def tileX (tile : Nat) : Nat := tile % 32
def tileY (tile : Nat) : Nat := tile / 32

/-- Express node of a tile (R63). -/
def nodeOf (tile : Nat) : Nat := 6 * (tileX tile / 4) + tileY tile / 4

/-- The remap entry of a logical tile (R61). -/
def State.remap (s : State) (tile : Nat) : RemapEntry := tget { fenced := false, px := tileX tile } s.plc.remap tile

/-- The physical tile number 34y + px of a logical tile (R61, R62). -/
def State.physTile (s : State) (tile : Nat) : Nat := 34 * tileY tile + (s.remap tile).px

/-- TMAP of a physical tile (R68). -/
def State.tmap (s : State) (ptile : Nat) : W32 := tget 0x76543210#32 s.plc.tmap ptile

/-- The chart's entry of a physical tower (R65). -/
def State.chart (s : State) (ptower : Nat) : ChartEntry := tget (.reset (ptower % 9)) s.plc.chart ptower

/-- The physical tower that serves logical tower i of a tile (R65, R68). -/
def State.physTower (s : State) (tile i : Nat) : Nat :=
  9 * s.physTile tile + (s.tmap (s.physTile tile)).toNat / 16 ^ i % 16

/-- Good layers of a tower. -/
def ChartEntry.nlay (c : ChartEntry) : Nat := ((List.range 8).filter fun i => c.layMask.getLsbD i).length

/-- Rows of logical tower i of a tile: min(N_i, CAPU × 64 KiB) (R69). -/
def State.towerRows (s : State) (tile i : Nat) : Nat :=
  min (if i = 0 ∨ i = 7 then 49152 else 65536) (8192 * (s.chart (s.physTower tile i)).nlay)

/-- A row lies in the units of a lease for a tower (R70). -/
def leaseCovers (lease i row : Nat) : Bool :=
  if row < 49152 then decide (row / 128 < lease)
  else
    let m := (row - 49152) / 1024 * 6 + (i - 1)
    decide (1 ≤ i) && decide (i ≤ 6) && decide (384 + m < lease)

/-- A row that the task may touch (R72, R227). -/
def State.rowOk (s : State) (t : Task) (i row : Nat) : Bool :=
  leaseCovers t.bnd.lease i row && decide (row < s.towerRows t.bnd.tile i)

/-- Leased tile rows (R70). -/
def leasedTileRows (lease : Nat) : Nat := 128 * min lease 384

/-- Every row that `n` bytes from an address touch is leased. -/
def State.rangeOk (s : State) (t : Task) (i addr n : Nat) : Bool :=
  n == 0 || (s.rowOk t i (addr / 64) && s.rowOk t i ((addr + n - 1) / 64) && decide (addr + n ≤ 2 ^ 22))

/-- Where a tower byte is kept: by physical tower and byte. -/
def towerKey (ptower addr : Nat) : Nat := ptower * 2 ^ 22 + addr

/-- TowerRead (R231). -/
def State.towerRead (s : State) (tile i addr n : Nat) : List Byte :=
  s.mem.towers.bytes (towerKey (s.physTower tile i) addr) n

/-- TowerWrite (R231). -/
def State.towerWrite (s : State) (tile i addr : Nat) (bs : List Byte) : State :=
  { s with mem := { s.mem with towers := s.mem.towers.putBytes (towerKey (s.physTower tile i) addr) bs } }

/-- Granules that `n` bytes from an address cover, as granule addresses (R229). -/
def granulesOf (addr n : Nat) : List Nat :=
  if n = 0 then [] else (List.range ((addr % 16 + n + 15) / 16)).map fun j => addr / 16 + j

/-- FullBit of granule g of a tower (R231). -/
def State.isFull (s : State) (tile i g : Nat) : Bool :=
  s.mem.full.contains (towerKey (s.physTower tile i) (16 * g) / 16)

def State.setFull (s : State) (tile i : Nat) (gs : List Nat) : State :=
  { s with mem := { s.mem with
      full := gs.foldl (fun l g => insertNat (towerKey (s.physTower tile i) (16 * g) / 16) l) s.mem.full } }

def State.clearFull (s : State) (tile i : Nat) (gs : List Nat) : State :=
  let keys := gs.map fun g => towerKey (s.physTower tile i) (16 * g) / 16
  { s with mem := { s.mem with full := s.mem.full.filter fun k => !keys.contains k } }

/-- An engine's write into a tower: the bytes with their full bits (R229). -/
def State.engineWrite (s : State) (tile i addr : Nat) (bs : List Byte) : State :=
  (s.towerWrite tile i addr bs).setFull tile i (granulesOf addr bs.length)

/-- A row of a physical tower is poisoned (R252). -/
def State.towerPoisoned (s : State) (tile i row : Nat) : Bool :=
  s.mem.towerBad.contains (s.physTower tile i * 65536 + row)

/-- Rows of a physical tower cleared to zero and empty, and no longer poisoned (R73). -/
def State.clearRows (s : State) (ptower first n : Nat) : State :=
  let a := towerKey ptower (64 * first)
  { s with mem := { s.mem with
      towers := s.mem.towers.clearRange a (64 * n)
      full := s.mem.full.filter fun k => !(a / 16 ≤ k && k < a / 16 + 4 * n)
      towerBad := s.mem.towerBad.filter fun k => !(ptower * 65536 + first ≤ k && k < ptower * 65536 + first + n) } }

/-- The tower rows of a lease on a tile: (tower, first row, rows) (R70). -/
def leaseRows (lease : Nat) : List (Nat × Nat × Nat) :=
  (List.range 8).map (fun i => (i, 0, 128 * min lease 384)) ++
  (List.range (lease - 384)).map fun m => (1 + m % 6, 49152 + 1024 * (m / 6), 1024)

/-- The clear of a released lease (R73). -/
def State.clearLease (s : State) (tile lease : Nat) : State :=
  (leaseRows lease).foldl (fun s r => s.clearRows (s.physTower tile r.1) r.2.1 r.2.2) s

/-! ### Refresh limits -/

/-- Physical column of a physical tower (R65). -/
def towerCol (ptower : Nat) : Nat := ptower / 9 % 34

/-- Retention limit in ms at a column temperature in tenths of a degree (R67). -/
def retentionMs (deciC : Int) (rclass : Nat) : Nat :=
  let base := if deciC ≤ 950 then 60000 else if deciC ≤ 1000 then 40000 else if deciC ≤ 1050 then 26000
    else if deciC < 1100 then 17000 else 11000
  match rclass with
  | 0 => base
  | 1 => base * 3 / 4
  | _ => base / 2

def State.column (s : State) (px : Nat) : Column := tget .reset s.env.columns px
def State.refreshOf (s : State) (ptower : Nat) : Refresh := tget .reset s.env.refresh ptower

/-- A tower's limit in ns (R253). -/
def State.limitNs (s : State) (ptower : Nat) : Nat :=
  1000000 * retentionMs (s.column (towerCol ptower)).temp (s.chart ptower).rclass

/-- Elapsed time of the forced point: age = limit − 2 s (R253). -/
def State.forcedAt (s : State) (ptower : Nat) : Nat := (s.refreshOf ptower).lastEnd + s.limitNs ptower - 2000000000

/-- A deferral in force: not past its end (R344). -/
def State.deferring (s : State) (ptower : Nat) : Bool :=
  match (s.refreshOf ptower).defer with
  | some e => decide (s.elapsed < e)
  | none => false

/-- REFST (R343); the remaining time counts whole ms. -/
def State.refst (s : State) (t : Task) : W64 :=
  let pt := (List.range 8).map fun i => (i, s.physTower t.bnd.tile i)
  let pass := pt.foldl (fun n p => if (s.refreshOf p.2).pass.isSome then n + 2 ^ p.1 else n) 0
  let dfr := pt.filter fun p => s.deferring p.2
  let bits := dfr.foldl (fun n p => n + 2 ^ p.1) 0
  let rem := dfr.map fun p => (((s.refreshOf p.2).defer.getD 0) - s.elapsed) / 1000000
  let least := match rem with
    | [] => 0
    | r :: l => l.foldl min r
  BitVec.ofNat 64 (pass * 2 ^ 40 + bits * 2 ^ 32 + least)

end Sys2Proof.Machine
end

