-- ==== Sys2Proof/Machine/SlotC.lean ====
section
/-! DEFINITION. The control slot (R160 to R189, R355 to R358, R382 to R384, R398, R399, R402): one meaning for each
instruction, over shared operations. A meaning answers the state after the instruction's issue-time effects, or after the
fault it takes. -/

namespace Sys2Proof.Machine

/-! ### Shared operations -/

/-- A guarded two-source result (R163). -/
def State.crResult (s : State) (o : CrForm) (lat : Nat) (f : W64 → W64 → W64) : State :=
  if s.guard o.q o.n then s.land 0 lat (.sreg o.d (f (s.sreg o.a) (s.sreg o.b))) else s

/-- A guarded one-source result (R163). -/
def State.cr1Result (s : State) (o : Cr1Form) (f : W64 → W64) : State :=
  if s.guard o.q o.n then s.land 0 1 (.sreg o.d (f (s.sreg o.a))) else s

/-- An immediate result (R166). -/
def State.ciResult (s : State) (o : CiForm) (f : W64 → BitVec 14 → W64) : State :=
  s.land 0 1 (.sreg o.d (f (s.sreg o.a) o.imm))

/-- A guarded compare (R168). -/
def State.cmpResult (s : State) (o : CmpForm) (rel : W64 → W64 → Bool) : State :=
  if s.guard o.q o.n then s.land 0 1 (.creg o.d (rel (s.sreg o.a) (s.sreg o.b))) else s

/-- An immediate compare (R169). -/
def State.cmpiResult (s : State) (o : CmpiForm) (rel : W64 → W64 → Bool) : State :=
  s.land 0 1 (.creg o.d (rel (s.sreg o.a) (sext14 o.imm)))

/-- Guarded condition logic (R170). -/
def State.condResult (s : State) (o : CondForm) (f : Bool → Bool → Bool) : State :=
  if s.guard o.q o.n then s.land 0 1 (.creg o.d (f (s.creg o.a) (s.creg o.b))) else s

/-- Bits 127:64 of the signed product. -/
def mulHigh (a b : W64) : W64 := BitVec.ofInt 64 (a.toInt * b.toInt / 2 ^ 64)
/-- Bits 127:64 of the unsigned product. -/
def mulHighU (a b : W64) : W64 := BitVec.ofNat 64 (a.toNat * b.toNat / 2 ^ 64)

/-- DIV with the edge cases of R164. -/
def divSigned (a b : W64) : W64 := if b = 0#64 then BitVec.allOnes 64 else BitVec.ofInt 64 (a.toInt.tdiv b.toInt)
def divUnsigned (a b : W64) : W64 := if b = 0#64 then BitVec.allOnes 64 else BitVec.ofNat 64 (a.toNat / b.toNat)
def remSigned (a b : W64) : W64 := if b = 0#64 then a else BitVec.ofInt 64 (a.toInt.tmod b.toInt)
def remUnsigned (a b : W64) : W64 := if b = 0#64 then a else BitVec.ofNat 64 (a.toNat % b.toNat)

/-- s[b]<5:0> as a shift count. -/
def shiftCount (b : W64) : Nat := (b.extractLsb' 0 6).toNat

/-- Zero bits above the highest 1 (R163). -/
def leadingZeros (a : W64) : Nat := if a = 0#64 then 64 else 63 - Nat.log2 a.toNat
/-- Zero bits below the lowest 1: the first set bit at or above `i`, among `n` bits left. -/
def trailingZerosFrom (a : W64) : Nat → Nat → Nat
  | 0, i => i
  | n + 1, i => if a.getLsbD i then i else trailingZerosFrom a n (i + 1)
def trailingZeros (a : W64) : Nat := trailingZerosFrom a 64 0
def popCount (a : W64) : Nat := ((List.range 64).filter fun i => a.getLsbD i).length

/-- A control transfer that may not stand here faults DELAY_SLOT (R108); otherwise it acts. -/
def State.transfer (s : State) (act : State → State) : State :=
  if s.cur.seq.noTransfer then s.raise 4 .delaySlot 0#64 else act s

/-- A branch with its two delay bundles (R107). -/
def State.branchTo (s : State) (target : Nat) (taken : Bool) (kind : BranchKind := .jump) : State :=
  s.modSeq fun q => { q with branch := some { target := target, taken := taken, left := 3, kind := kind } }

/-- The task is held with its bundle not issued (R176, R371, R400). -/
def State.hold (s : State) : State := s.modSeq fun q => { q with state := .held }

/-- A TLBINV of the tile is not complete: later operations of its engines do not begin, and its accesses wait (R400). -/
def State.tlbPending (s : State) (tile : Nat) : Bool := s.mem.tlbInvs.any fun v => v.tile == tile

/-- A stalling slot of the bundle (R106). -/
def State.addWait (s : State) (w : Wait) : State :=
  s.modSeq fun q => { q with waits := q.waits ++ [w], waitPc := q.pc, waitScyc := q.scyc
                             waitFrom := if q.waits = [] then s.clk.tick else q.waitFrom }

/-! ### Register arithmetic and logic (R163 to R167) -/

def execNop (s : State) : Out := .next s
def execAdd (o : CrForm) (s : State) : Out := .next (s.crResult o 1 (· + ·))
def execSub (o : CrForm) (s : State) : Out := .next (s.crResult o 1 (· - ·))
def execMul (o : CrForm) (s : State) : Out := .next (s.crResult o 3 (· * ·))
def execMulh (o : CrForm) (s : State) : Out := .next (s.crResult o 3 mulHigh)
def execMulhu (o : CrForm) (s : State) : Out := .next (s.crResult o 3 mulHighU)
def execDiv (o : CrForm) (s : State) : Out := .next (s.crResult o 12 divSigned)
def execDivu (o : CrForm) (s : State) : Out := .next (s.crResult o 12 divUnsigned)
def execRem (o : CrForm) (s : State) : Out := .next (s.crResult o 12 remSigned)
def execRemu (o : CrForm) (s : State) : Out := .next (s.crResult o 12 remUnsigned)
def execAnd (o : CrForm) (s : State) : Out := .next (s.crResult o 1 (· &&& ·))
def execOr (o : CrForm) (s : State) : Out := .next (s.crResult o 1 (· ||| ·))
def execXor (o : CrForm) (s : State) : Out := .next (s.crResult o 1 (· ^^^ ·))
def execAndn (o : CrForm) (s : State) : Out := .next (s.crResult o 1 fun a b => a &&& ~~~b)
def execShl (o : CrForm) (s : State) : Out := .next (s.crResult o 1 fun a b => a <<< shiftCount b)
def execShr (o : CrForm) (s : State) : Out := .next (s.crResult o 1 fun a b => a >>> shiftCount b)
def execShra (o : CrForm) (s : State) : Out := .next (s.crResult o 1 fun a b => a.sshiftRight (shiftCount b))
def execRot (o : CrForm) (s : State) : Out := .next (s.crResult o 1 fun a b => a.rotateRight (shiftCount b))
def execMin (o : CrForm) (s : State) : Out := .next (s.crResult o 1 fun a b => if b.slt a then b else a)
def execMax (o : CrForm) (s : State) : Out := .next (s.crResult o 1 fun a b => if a.slt b then b else a)
def execMinu (o : CrForm) (s : State) : Out := .next (s.crResult o 1 fun a b => if b.ult a then b else a)
def execMaxu (o : CrForm) (s : State) : Out := .next (s.crResult o 1 fun a b => if a.ult b then b else a)
def execClz (o : Cr1Form) (s : State) : Out := .next (s.cr1Result o fun a => BitVec.ofNat 64 (leadingZeros a))
def execCtz (o : Cr1Form) (s : State) : Out := .next (s.cr1Result o fun a => BitVec.ofNat 64 (trailingZeros a))
def execPopc (o : Cr1Form) (s : State) : Out := .next (s.cr1Result o fun a => BitVec.ofNat 64 (popCount a))

def execAddi (o : CiForm) (s : State) : Out := .next (s.ciResult o fun a i => a + sext14 i)
def execAndi (o : CiForm) (s : State) : Out := .next (s.ciResult o fun a i => a &&& zext14 i)
def execOri (o : CiForm) (s : State) : Out := .next (s.ciResult o fun a i => a ||| zext14 i)
def execXori (o : CiForm) (s : State) : Out := .next (s.ciResult o fun a i => a ^^^ zext14 i)
def execShli (o : CiForm) (s : State) : Out := .next (s.ciResult o fun a i => a <<< i.toNat)
def execShri (o : CiForm) (s : State) : Out := .next (s.ciResult o fun a i => a >>> i.toNat)
def execShrai (o : CiForm) (s : State) : Out := .next (s.ciResult o fun a i => a.sshiftRight i.toNat)
/-- R167: sext(imm19 × 2^14). -/
def execLih (o : LihForm) (s : State) : Out := .next (s.land 0 1 (.sreg o.d ((o.imm ++ 0#14).signExtend 64)))

/-! ### Compares, condition logic, selection (R168 to R171) -/

def execCmpeq (o : CmpForm) (s : State) : Out := .next (s.cmpResult o fun a b => a == b)
def execCmpne (o : CmpForm) (s : State) : Out := .next (s.cmpResult o fun a b => a != b)
def execCmplt (o : CmpForm) (s : State) : Out := .next (s.cmpResult o fun a b => a.slt b)
def execCmpltu (o : CmpForm) (s : State) : Out := .next (s.cmpResult o fun a b => a.ult b)
def execCmple (o : CmpForm) (s : State) : Out := .next (s.cmpResult o fun a b => a.sle b)
def execCmpleu (o : CmpForm) (s : State) : Out := .next (s.cmpResult o fun a b => a.ule b)
def execCmpeqi (o : CmpiForm) (s : State) : Out := .next (s.cmpiResult o fun a b => a == b)
def execCmplti (o : CmpiForm) (s : State) : Out := .next (s.cmpiResult o fun a b => a.slt b)
def execCmpltui (o : CmpiForm) (s : State) : Out := .next (s.cmpiResult o fun a b => a.ult b)
def execCand (o : CondForm) (s : State) : Out := .next (s.condResult o (· && ·))
def execCor (o : CondForm) (s : State) : Out := .next (s.condResult o (· || ·))
def execCxor (o : CondForm) (s : State) : Out := .next (s.condResult o (· != ·))
def execSel (o : SelForm) (s : State) : Out :=
  .next (if s.guard o.q o.n then s.land 0 1 (.sreg o.d (if s.creg o.sel then s.sreg o.a else s.sreg o.b)) else s)

/-! ### Scalar memory (R172, R173) -/

/-- Whether a scalar-memory access is legal: inside 64 KiB and aligned (R173). -/
def smemOk (ea : W64) (sz : Nat) : Bool := decide (ea.toNat + sz ≤ Config.smemBytes) && ea.toNat % sz == 0

def execLds (o : LdsForm) (s : State) : Out :=
  .next (if s.guard o.q o.n then
    let ea := s.ea o.a o.b
    let sz := 2 ^ o.size.toNat
    if smemOk ea sz then
      s.land 0 3 (.sreg o.d (extendBytes o.sx sz (leNat (s.cur.smem.bytes ea.toNat sz))))
    else s.illegal 0 ea
  else s)

def execSts (o : StsForm) (s : State) : Out :=
  .next (if s.guard o.q o.n then
    let ea := s.ea o.a o.b
    let sz := 2 ^ o.size.toNat
    if smemOk ea sz then s.land 0 1 (.smem ea.toNat (leBytes (s.sreg o.d).toNat sz)) else s.illegal 0 ea
  else s)

/-! ### Global memory and atomics (R174 to R176, R355 to R358) -/

/-- What an access asks of its pages. -/
def GAccess.want (a : GAccess) : Want :=
  match a.op with
  | .load _ => { read := true, write := false }
  | .store => { read := false, write := true }
  | .amo _ _ w => { read := true, write := w, amo := true }

/-- The pieces of an access of at most eight bytes: cut where a single-copy atomic unit ends (R175, R255). -/
def Span.cut (sp : Span) : List Span :=
  let k := sp.place.unit - sp.place.addr % sp.place.unit
  if sp.len ≤ k then [sp]
  else [{ sp with len := k }, { sp with place := { sp.place with addr := sp.place.addr + k }, va := sp.va + k, len := sp.len - k }]

/-- A piece read at its home, behind the port; a poisoned row is a hardware error of the task (R252). -/
def State.loadPiece (s : State) (sp : Span) : List Byte × State :=
  let s := (if s.poisoned [sp] then { s with cur := s.cur.deferHw false } else s).passPort [sp]
  (s.tileBytes (some s.cur.bnd.tile) sp.place sp.len, s.countBeats 2 [sp])

/-- A piece of a store performed at its scope. One of tile scope on a page that detects races goes to its home, where it is judged, before
the stall ends (R367, R369; log entry 12). -/
def State.storePiece (s : State) (a : GAccess) (sp : Span) : State :=
  let bs := ((leBytes a.value.toNat a.size).drop (sp.va - a.ea)).take sp.len
  (s.performWrite (if a.scope = 0#2 && !sp.sectors.isEmpty then 1#2 else a.scope)
    { tile := s.cur.bnd.tile, place := sp.place, bytes := bs, dev := false, launch := s.cur.bnd.launch, pc := s.cur.seq.waitPc, at_ := a.at_,
      va := sp.va }).countBeats 3 [sp]

/-- Pieces of a load or store performed in turn: the bytes that a load reads. -/
def State.performPieces (a : GAccess) : List Span → State → List Byte × State
  | [], s => ([], s)
  | sp :: l, s =>
    let (bs, s1) := if a.op == .store then ([], s.storePiece a sp) else s.loadPiece sp
    let (bs', s2) := State.performPieces a l s1
    (bs ++ bs', s2)

/-- Pieces of a load or store judged, all of them, and performed in turn. An access that races is not performed; its TRAPINFO makes the fault
(R367 to R369). -/
def State.performAll (s : State) (a : GAccess) (ps : List Span) (fault : W64 → State → State) (done : List Byte → State → State) : State :=
  match s.checkRace s.cur.bnd.launch s.cur.bnd.tile (a.op == .store) ps with
  | .error i => fault i s
  | .ok s1 => let (bs, s2) := State.performPieces a ps s1; done bs s2

/-- A load lands once all its bytes are read. -/
def State.landLoad (s : State) (a : GAccess) (bs : List Byte) : State :=
  match a.op with
  | .load sx => s.land 0 1 (.sreg a.d (extendBytes sx a.size (leNat bs)))
  | _ => s

/-- A global access waits for nothing but its turn. A load is held back by its own page, channel or path alone; a write also by earlier
writes of its tile that must leave the port before it, unless it stays in the port itself (R251, R349, R427, R431). -/
def State.mayPerform (s : State) (a : GAccess) (sps : List Span) : Bool :=
  let tile := s.cur.bnd.tile
  match a.op with
  | .load _ => !s.lockedSpans sps && !s.noPathTo sps
  | .store => (a.scope == 0#2 && sps.all fun sp => sp.sectors.isEmpty)
      || (!s.lockedSpans sps && s.portFreeTo tile a.scope && (decide (a.scope.toNat ≤ 1) || !s.noPathTo sps))
  | .amo _ ord _ => !s.lockedSpans sps && !s.noPathTo sps && s.portFreeTo tile (if ord = 0#2 ∨ ord = 2#2 then a.scope else 1#2)

/-- LDG and STG of a page that detects races. -/
def GAccess.checked (a : GAccess) (sps : List Span) : Bool :=
  (match a.op with
    | .amo _ _ _ => false
    | _ => true) && sps.any fun sp => !sp.sectors.isEmpty

/-- Such an access is judged before its bundle issues, and performed in the cycle in which it does, so that a race leaves nothing of the bundle
(R369, R372). Until it can be, the bundle waits (log entry 12). -/
def State.performChecked (s : State) (a : GAccess) (sps : List Span) : State :=
  if s.tlbPending s.cur.bnd.tile || !s.mayPerform a sps then (s.queueAt s.cur.bnd.tile 0 sps).block
  else (s.modSeq fun q => { q with waitPc := q.pc }).performAll a (sps.flatMap Span.cut) (fun i s => s.raise 0 .race i)
    fun bs s => s.landLoad a bs

/-- A global access that stalls: its translation is judged at issue (R176, R357). `legal` is the memory-kind check. -/
def State.startGlobal (s : State) (a : GAccess) (want : Want) (legal : Nat → Bool) : State :=
  match State.spans s.cur.xctx want (spanFuel a.size) s a.ea a.size with
  | (.ok sps, s') =>
    if !(sps.all fun sp => legal sp.place.kind) then s'.illegal 0 (BitVec.ofNat 64 a.ea)
    else if a.checked sps then s'.performChecked a sps
    else s'.addWait (.glob a)
  | (.error (.busy _), s') => s'.block
  | (.error (.notPresent _), s') => s'.hold
  | (.error (.updating _), s') => s'.hold
  | (.error (.denied _), s') => s'.raise 0 .protection (BitVec.ofNat 64 a.ea)
  | (.error (.malformed _), s') => s'.raise 0 .protection (BitVec.ofNat 64 a.ea)

def execLdg (o : LdgForm) (s : State) : Out :=
  .next (if s.guard o.q o.n then
    s.startGlobal { op := .load o.sx, d := o.d, ea := (s.ea o.a o.b).toNat, size := 2 ^ o.size.toNat, scope := o.scope,
                    value := 0#64, cmp := 0#64, at_ := s.cur.seq.scyc }
      { read := true, write := false } (fun _ => true)
  else s)

def execStg (o : StgForm) (s : State) : Out :=
  .next (if s.guard o.q o.n then
    s.startGlobal { op := .store, d := o.d, ea := (s.ea o.a o.b).toNat, size := 2 ^ o.size.toNat, scope := o.scope,
                    value := s.sreg o.d, cmp := 0#64, at_ := s.cur.seq.scyc }
      { read := false, write := true } (fun _ => true)
  else s)

/-- The kinds of memory that take an atomic: PCI Express has FetchAdd, Swap and CAS alone (R357). -/
def amoKindOk (op : AmoOp) (write : Bool) (kind : Nat) : Bool :=
  kind != 2 || op == .add || op == .xch || op == .cas || !write

/-- The checks of R356 and R357, in their order. -/
def State.amo (s : State) (o : AmoForm) (op : AmoOp) : State :=
  if s.guard o.q o.n then
    let ea := s.sreg o.a
    let sz := if o.dbl then 8 else 4
    let write := !(op == .or && o.b == 0#5)
    if 2 ^ 56 ≤ ea.toNat then s.raise 0 .protection ea
    else if ea.toNat % sz ≠ 0 then s.illegal 0 ea
    else s.startGlobal { op := .amo op o.ord write, d := o.d, ea := ea.toNat, size := sz, scope := o.scope,
                         value := s.sreg o.b, cmp := s.sreg o.d, at_ := s.cur.seq.scyc }
      { read := true, write := write, amo := true } (amoKindOk op write)
  else s

def execAmoadd (o : AmoForm) (s : State) : Out := .next (s.amo o .add)
def execAmomin (o : AmoForm) (s : State) : Out := .next (s.amo o .min)
def execAmomax (o : AmoForm) (s : State) : Out := .next (s.amo o .max)
def execAmoand (o : AmoForm) (s : State) : Out := .next (s.amo o .and)
def execAmoor (o : AmoForm) (s : State) : Out := .next (s.amo o .or)
def execAmoxch (o : AmoForm) (s : State) : Out := .next (s.amo o .xch)
def execAmocas (o : AmoForm) (s : State) : Out := .next (s.amo o .cas)

/-- FENCE stalls until its two conditions hold (R358). -/
def execFence (scope : BitVec 2) (s : State) : Out := .next (s.addWait (.fence scope))

/-! ### Control transfer (R107, R109, R177 to R181) -/

def execBr (o : BrForm) (s : State) : Out :=
  .next (s.transfer fun s => s.branchTo (branchTarget s.cur.seq.pc o.off.toInt) (s.guard o.q o.n))

def execJmp (o : JmpForm) (s : State) : Out :=
  .next (s.transfer fun s => s.branchTo (s.ea o.a o.b).toNat (s.guard o.q o.n))

def execCall (o : BrForm) (s : State) : Out :=
  .next (s.transfer fun s =>
    let t := if s.guard o.q o.n then s.land 0 1 (.sreg 31#5 (BitVec.ofNat 64 (s.cur.seq.pc + 3))) else s
    t.branchTo (branchTarget s.cur.seq.pc o.off.toInt) (s.guard o.q o.n))

def execRet (o : RetForm) (s : State) : Out :=
  .next (s.transfer fun s => s.branchTo (s.sreg o.a).toNat (s.guard o.q o.n))

def execLoop (d : BitVec 5) (imm : BitVec 14) (s : State) : Out :=
  .next (s.transfer fun s =>
    let cnt := s.sreg d - 1#64
    (s.land 0 1 (.sreg d cnt)).branchTo (branchTarget s.cur.seq.pc imm.toInt) (cnt != 0#64))

def execEndTask (s : State) : Out := .next (s.transfer fun s => s.branchTo 0 true .endTask)

/-- REP (R109): the next bundle issues n times; `fresh` until the REP bundle itself has finished. With n = 1 it is as if there were none. -/
def execRep (m n : BitVec 6) (s : State) : Out :=
  .next (s.transfer fun s => if n = 0#6 then s else s.modSeq fun q => { q with rep := some { n := n.toNat + 1, m := m, j := 0, fresh := true } })

/-! ### LAUNCH (R182) -/

def execLaunch (o : CrForm) (s : State) : Out :=
  .next (if s.guard o.q o.n then
    let r := s.sreg o.a
    let t := s.sreg o.b
    if 65536 ≤ r.toNat ∨ 65536 ≤ t.toNat then s.illegal 0
    else if 4 ≤ s.cur.eng.launchReqs.length then s.land 0 1 (.sreg o.d 1#64)
    else
      (s.modEng fun e => { e with launchReqs := e.launchReqs ++
        [{ region := r.extractLsb' 0 16, tail := t.extractLsb' 0 16, pc := s.cur.seq.pc }] }).land 0 1 (.sreg o.d 0#64)
  else s)

/-! ### Configuration (R183 to R188) -/

def execSfmt (o : RetForm) (s : State) : Out :=
  .next (if s.guard o.q o.n then
    let v := s.sreg o.a
    if v.extractLsb' 28 36 != 0#36 || v.getLsbD 19 then s.illegal 0 else s.land 0 4 (.ctl 8#6 0#4 v)
  else s)

/-- FLAGS of one cluster, or of all (R374). -/
def State.flagsOf (s : State) (sub : BitVec 4) : Flags :=
  if h : sub.toNat < 8 then (s.cluster ⟨sub.toNat, h⟩).flags
  else clusters.foldl (fun f i => f ||| (s.cluster i).flags) 0#9

/-- A control register as the bundle reads it (R98, R185). -/
def State.readCtl (s : State) (num : BitVec 6) (sub : BitVec 4) : W64 :=
  let g := s.cur.reg
  let b := s.cur.bnd
  match num.toNat with
  | 0 => BitVec.ofNat 64 b.tx
  | 1 => BitVec.ofNat 64 b.ty
  | 2 => BitVec.ofNat 64 b.w
  | 3 => BitVec.ofNat 64 b.h
  | 4 => BitVec.ofNat 64 b.launch
  | 5 => g.vl
  | 6 => g.cma
  | 7 => g.cmb
  | 8 => g.fmt
  | 9 => (s.flagsOf sub).zeroExtend 64
  | 10 => g.tenab
  | 11 => g.mode
  | 12 => BitVec.ofNat 64 s.cur.seq.scyc
  | 13 => BitVec.ofNat 64 s.cur.seq.dcyc
  | 14 => BitVec.ofNat 64 s.ptime
  | 15 => s.refst s.cur
  | 16 => g.trapPc
  | 17 => g.trapCode ||| (if s.cur.seq.hnd then 0x80000#64 else 0#64)
  | 18 => g.trapInfo
  | 19 => 0x3556#64
  | 20 => g.drift
  | 21 => g.ringErr
  | 22 => if h : sub.toNat < 8 then BitVec.ofNat 64 (s.cluster ⟨sub.toNat, h⟩).runlen else 0#64
  | 32 => g.ovt
  | 33 => b.asid.zeroExtend 64
  | 34 => boolWord g.priv
  | 35 => BitVec.ofNat 64 (match s.launch? b.launch with
      | some l => l.wdogLeft
      | none => 0)
  | _ => 0#64

/-- A sub-index that the register takes (R98). -/
def subIndexOk (num : BitVec 6) (sub : BitVec 4) : Bool :=
  sub == 0#4 || (num == 9#6 && decide (sub.toNat ≤ 8)) || (num == 22#6 && decide (sub.toNat ≤ 7))

/-- Control registers 32 to 35 need PRIV = 1 (R98). -/
def privileged (num : BitVec 6) : Bool := decide (32 ≤ num.toNat) && decide (num.toNat ≤ 35)

/-- A sub-index where none stands is an illegal encoding, which comes before the privilege check (R112, R184). -/
def execMfc (r : BitVec 5) (x : BitVec 4) (c : BitVec 6) (s : State) : Out :=
  .next (if !subIndexOk c x then s.illegal 0
    else if privileged c && !s.cur.reg.priv then s.raise 0 .protection 0#64
    else s.land 0 1 (.sreg r (s.readCtl c x)))

/-- The control registers that MTC may write (R98, R186). -/
def writable (num : BitVec 6) : Bool := [5, 6, 7, 9, 10, 11, 16, 17, 18, 21, 34, 35].contains num.toNat

/-- A value with no reserved bit set, and VL within 1 to 4,096 (R186). -/
def ctlValueOk (num : BitVec 6) (v : W64) : Bool :=
  match num.toNat with
  | 5 => decide (1 ≤ v.toNat) && decide (v.toNat ≤ Config.maxLen)
  | 6 | 7 => decide (v.toNat < 2 ^ 8)
  | 9 | 10 => decide (v.toNat < 2 ^ 9)
  | 11 => decide (v.toNat < 2 ^ 2)
  | 16 => decide (v.toNat < 2 ^ 13)
  | 17 => decide (v.toNat < 2 ^ 20) && !v.getLsbD 18 && !v.getLsbD 15
  | 21 => decide (v.toNat < 2 ^ 24)
  | 34 => decide (v.toNat < 2)
  | _ => true

/-- MFC and MTC whose register number or sub-index is an illegal instruction; of MTC the privilege check comes before it (R184, R186). -/
def State.ctlIllegal (s : State) (i : Instr) : Bool :=
  match i with
  | .mfc _ x c _ => !subIndexOk c x
  | .mtc _ x c _ => (!privileged c || s.cur.reg.priv) && (!writable c || !subIndexOk c x)
  | _ => false

def execMtc (r : BitVec 5) (x : BitVec 4) (c : BitVec 6) (s : State) : Out :=
  let v := s.sreg r
  .next (if privileged c && !s.cur.reg.priv then s.raise 0 .protection 0#64
    else if !writable c || !subIndexOk c x then s.illegal 0
    else if !ctlValueOk c v then s.illegal 0
    else s.land 0 1 (.ctl c x (if c = 17#6 then v &&& ~~~0x80000#64 else v)))

def execSetvl (o : Cr1Form) (s : State) : Out :=
  .next (if s.guard o.q o.n then
    let m := (s.sreg o.a).toNat
    if m = 0 then s.land 0 1 (.sreg o.d 0#64)
    else
      let v := BitVec.ofNat 64 (min m Config.maxLen)
      (s.land 0 1 (.ctl 5#6 0#4 v)).land 0 1 (.sreg o.d v)
  else s)

def execSetcm (r : Bool) (a : BitVec 5) (imm : BitVec 8) (s : State) : Out :=
  .next (s.land 0 1 (.ctl (if r then 7#6 else 6#6) 0#4 (((s.sreg a).extractLsb' 0 8 ||| imm).zeroExtend 64)))

/-! ### Traps and privileged instructions (R382 to R384, R398, R399) -/

/-- TRAP is taken after its bundle: the schedule cycle ends, then the handler is entered (R382). Inside a handler it is
DOUBLE_TRAP, precise at the bundle (R380). -/
def execTrap (imm : BitVec 14) (s : State) : Out :=
  .next (s.transfer fun s =>
    let f : FaultInfo := { status := .illegal, cause := 1, slot := 0, info := imm.zeroExtend 64 }
    if s.cur.seq.hnd then s.takeFault s.cur.seq.pc f
    else
      let s := s.advance
      s.takeFault s.cur.seq.pc f)

def execTret (s : State) : Out :=
  .next (s.transfer fun s => if s.cur.seq.hnd then s.branchTo 0 true .trapReturn else s.illegal 0)

/-- The enabled flags that are set, and the clusters that hold one (R378, R383). -/
def State.trapFlags (s : State) : Flags := s.flagsOf 8#4 &&& s.cur.reg.tenab.extractLsb' 0 9

def execTfence (s : State) : Out :=
  let p := s.trapFlags
  let cls := clusters.filter fun i => (s.cluster i).flags &&& s.cur.reg.tenab.extractLsb' 0 9 != 0#9
  .next (if p ≠ 0#9 then s.raise 0 .arithTrap (BitVec.ofNat 64 (p.toNat + clusterBits cls * 2 ^ 16)) 2 else s)

/-- No pair of an overflow table is 0b11, and the reserved pairs and bits are 0 (R398). -/
def ovtOk (v : W64) : Bool :=
  decide (v.toNat < 2 ^ 28) && v.extractLsb' 14 2 == 0#2 &&
  (List.range 14).all fun i => v.toNat / 4 ^ i % 4 != 3

def execLovt (o : RetForm) (s : State) : Out :=
  .next (if s.guard o.q o.n then
    if !s.cur.reg.priv then s.raise 0 .protection 0#64
    else if !ovtOk (s.sreg o.a) then s.illegal 0
    else s.land 0 1 (.ctl 32#6 0#4 (s.sreg o.a))
  else s)

/-- The checks of R399, and the invalidation posted to every translation cache of the device. -/
def State.tlbinv (s : State) (mode : BitVec 2) (a b : W64) : State :=
  if !s.cur.reg.priv then s.raise 0 .protection a
  else if (mode ≠ 2#2 ∧ 2 ^ 14 ≤ b.toNat) ∨ (mode = 0#2 ∧ 2 ^ 56 ≤ a.toNat) then s.illegal 0 a
  else { s with mem := { s.mem with tlbInvs := s.mem.tlbInvs ++
    [{ mode := mode, va := a.toNat, asid := b.extractLsb' 0 14, tile := s.cur.bnd.tile, issued := s.clk.tick }] } }

def execTlbinv (o : JmpForm) (s : State) : Out :=
  .next (if s.guard o.q o.n then s.tlbinv 0#2 (s.sreg o.a) (s.sreg o.b) else s)

def execTlbinvAsid (b : BitVec 5) (n : Bool) (q : BitVec 3) (s : State) : Out :=
  .next (if s.guard q n then s.tlbinv 1#2 0#64 (s.sreg b) else s)

def execTlbinvAll (n : Bool) (q : BitVec 3) (s : State) : Out :=
  .next (if s.guard q n then s.tlbinv 2#2 0#64 0#64 else s)

/-! ### MARK (R402 to R405) -/

/-- An entry of the reckoning log, or one more lost entry (R404). -/
def State.appendReckoning (s : State) (lo hi : W64) : State :=
  let o := s.obs
  let n := 2 ^ o.rklog2
  if o.rkbase ≠ 0#64 ∧ (o.rkhead + 1) % n ≠ o.rktail then
    let a := o.rkbase.toNat + 16 * o.rkhead
    let s := (s.homeWrite { kind := 0, addr := a } (leBytes lo.toNat 8 ++ leBytes hi.toNat 8)).countLocal 3 a 16
    { s with obs := { s.obs with rkhead := (o.rkhead + 1) % n } }
  else { s with obs := { o with rklost := (o.rklost + 1) % 2 ^ 48 } }

/-- The drift of a MARK, saturated to 32 bits (R402). -/
def markDrift (d dPrev : Nat) (exp : Nat) : Int × Bool :=
  let x : Int := (d : Int) - dPrev - exp
  if x > 2 ^ 31 - 1 then (2 ^ 31 - 1, true) else if x < -(2 ^ 31) then (-(2 ^ 31), true) else (x, false)

def execMark (e : BitVec 20) (s : State) : Out :=
  let d := s.cur.seq.dcyc
  let (dr, sat) := markDrift d s.cur.mark.dPrev e.toNat
  let w : W64 := 0#11 ++ BitVec.ofBool sat ++ e ++ BitVec.ofInt 32 dr
  let hi : W64 := BitVec.ofNat 32 s.cur.bnd.launch ++ 0#9 ++ BitVec.ofNat 5 s.cur.bnd.ty ++ BitVec.ofNat 5 s.cur.bnd.tx ++
    BitVec.ofNat 13 s.cur.seq.pc
  let s1 := s.land 0 1 (.ctl 20#6 0#4 w)
  let s2 := if dr ≠ 0 then s1.appendReckoning w hi else s1
  let armed := if s.cur.bnd.thr ≠ 0 then decide (s.cur.bnd.thr < (dr - s.cur.mark.driftPrev).natAbs) else s.cur.mark.armed
  .next { s2 with cur := { s2.cur with mark := { dPrev := d, driftPrev := dr, armed := armed } } }

end Sys2Proof.Machine
end

