-- ==== Sys2Proof/Machine/Rings.lean ====
section
/-! DEFINITION. Rings (R235 to R240): where a ring row lies, production and retirement, errors of producers, and the
run-form rows that towers and rings hold (R232, R233). -/

namespace Sys2Proof.Machine

/-! ### Load forms (R285, R286) -/

/-- Element width of a load form. -/
def lfWidth (lf : Nat) : Nat := if lf = 0 then 32 else if lf ≤ 3 then 16 else if lf ≤ 5 then 8 else 4

/-- The container of a loaded code. -/
def lfLoad (lf code : Nat) : W32 :=
  let w := lfWidth lf
  if lf = 1 then BitVec.ofNat 32 (code * 65536)
  else if (lf = 3 ∨ lf = 5 ∨ lf = 7) ∧ code.testBit (w - 1) then BitVec.ofInt 32 ((code : Int) - 2 ^ w)
  else BitVec.ofNat 32 code

/-- The bits that a store writes. -/
def lfStore (lf : Nat) (c : W32) : Nat := if lf = 1 then c.toNat / 65536 else c.toNat % 2 ^ lfWidth lf

/-- The load form of a type code (R286). -/
def lfOfType : Nat → Nat
  | 0 | 8 => 0
  | 1 => 1
  | 2 => 2
  | 9 => 3
  | 10 => 5
  | 5 | 13 => 6
  | 11 => 7
  | _ => 4

/-- The code of type t in a container, and the container of a code (R304). -/
def codeOf (t : Nat) (c : W32) : Nat := lfStore (lfOfType t) c
def containerOf (t code : Nat) : W32 := lfLoad (lfOfType t) code

/-- Elements packed from bit 0 at width w, in `n` bytes (R134). -/
def packBits (w : Nat) (codes : List Nat) (n : Nat) : List Byte :=
  leBytes (codes.foldr (fun c acc => c % 2 ^ w + 2 ^ w * acc) 0) n

/-- `n` codes of width w from bytes. -/
def unpackBits (w n : Nat) (bs : List Byte) : List Nat :=
  let v := leNat bs
  (List.range n).map fun j => v / 2 ^ (w * j) % 2 ^ w

/-! ### Run-form rows (R232, R233) -/

/-- A parsed run-form row. -/
structure RunRow where
  last : Bool
  typ : Nat
  len : Nat
  runs : Runs Nat
deriving DecidableEq, Repr

/-- Runs that a row of a type can hold. -/
def rowRuns (typ : Nat) : Nat := if typeBits typ = 32 then 7 else 15

/-- Word j of a 64 B row. -/
def rowWord (v j : Nat) : Nat := v / 2 ^ (32 * j) % 2 ^ 32

/-- The row's content, or none when it is not valid (R232 bounds LEN, R233). -/
def parseRow (bs : List Byte) : Option RunRow :=
  let v := leNat bs
  let w0 := rowWord v 0
  let typ := w0 / 2 ^ 18 % 16
  let len := w0 / 2 ^ 5 % 2 ^ 13
  let n := w0 % 32
  let wide := typeBits typ == 32
  let runs := (List.range n).map fun j =>
    if wide then (rowWord v (2 * j + 2), rowWord v (2 * j + 1) % 4096 + 1)
    else (rowWord v (j + 1) % 65536, rowWord v (j + 1) / 2 ^ 20 + 1)
  let clean := (List.range n).all fun j =>
    if wide then decide (rowWord v (2 * j + 1) < 4096)
    else rowWord v (j + 1) / 65536 % 16 == 0 && decide (rowWord v (j + 1) % 65536 < 2 ^ typeBits typ)
  let used := if wide then 2 * n + 1 else n + 1
  let rest := (List.range 16).all fun j => decide (j < used) || rowWord v j == 0
  if w0 / 2 ^ 23 != 0 || reservedType typ || n == 0 || decide (rowRuns typ < n) || !clean || !rest
      || runLen runs != len || decide (Config.maxLen < len) then none
  else some { last := w0.testBit 22, typ := typ, len := len, runs := runs }

/-- A run-form row of at most `rowRuns` runs (R232). -/
def buildRow (typ : Nat) (last : Bool) (runs : Runs Nat) : List Byte :=
  let w0 := (if last then 2 ^ 22 else 0) + typ * 2 ^ 18 + runLen runs * 32 + runs.length
  let ws := if typeBits typ = 32 then runs.flatMap fun p => [p.2 - 1, p.1] else runs.map fun p => (p.2 - 1) * 2 ^ 20 + p.1
  leBytes ((w0 :: ws).foldr (fun c acc => c % 2 ^ 32 + 2 ^ 32 * acc) 0) 64

/-- Containers of a row's runs. -/
def RunRow.containers (r : RunRow) : Runs W32 := mapRuns (containerOf r.typ) r.runs

/-! ### Rings (R235 to R238) -/

/-- RingRow(h, i) (R235). -/
def Ring.row (r : Ring) (i : Nat) : Nat := r.raddr + i % r.rows

def Task.ring (t : Task) (h : BitVec 4) : Ring := vat t.rings h
def Task.setRing (t : Task) (h : BitVec 4) (r : Ring) : Task := { t with rings := vput t.rings h r }

/-- The four granules of a tile row in a tower. -/
def rowGranules (row : Nat) : List Nat := [4 * row, 4 * row + 1, 4 * row + 2, 4 * row + 3]

/-- All four granules of a tower part are full. -/
def State.partFull (s : State) (tile i row : Nat) : Bool := (rowGranules row).all fun g => s.isFull tile i g
def State.partEmpty (s : State) (tile i row : Nat) : Bool := (rowGranules row).all fun g => !s.isFull tile i g
/-- Every granule of a tile row is empty. -/
def State.rowEmpty (s : State) (tile row : Nat) : Bool := (List.range 8).all fun i => s.partEmpty tile i row

/-- Rows are produced in index order as soon as their eight parts are written (R237). -/
def Ring.produce : Nat → Ring → Ring
  | 0, r => r
  | n + 1, r =>
    if tget 0#8 r.parts r.prod = 0xFF#8 then
      Ring.produce n { r with parts := r.parts.filter fun p => p.1 != r.prod, prod := r.prod + 1 }
    else r

/-- The oldest rows retire as soon as they are produced and empty (R237). -/
def Ring.retire (s : State) (tile : Nat) : Nat → Ring → Ring
  | 0, r => r
  | n + 1, r =>
    if r.ret < r.prod && s.rowEmpty tile (r.row r.ret) then Ring.retire s tile n { r with ret := r.ret + 1 } else r

/-- Production and retirement brought up to date after a change of full bits or parts. -/
def Ring.settle (s : State) (tile : Nat) (r : Ring) : Ring :=
  if r.bound then
    let r := Ring.produce (r.parts.length + 1) r
    Ring.retire s tile (r.prod - r.ret) r
  else r

/-- Every ring of a task brought up to date. -/
def Task.settle (s : State) (t : Task) : Task := { t with rings := t.rings.map (Ring.settle s t.bnd.tile) }

/-- Every ring of a tile's task brought up to date. -/
def State.settle (s : State) (tile : Nat) : State := s.onTile tile (Task.settle s)

/-- Tower part i of ring index `ix` counts as written. -/
def Ring.wrote (r : Ring) (i ix : Nat) : Ring :=
  { r with parts := tput ix (tget 0#8 r.parts ix ||| BitVec.ofNat 8 (2 ^ i)) r.parts }

/-- A producer may write its part of row `ix` (R237). -/
def State.mayWrite (s : State) (tile : Nat) (r : Ring) (i ix : Nat) : Bool :=
  decide (ix < r.ret + r.rows) && s.partEmpty tile i (r.row ix)

/-- A producer writes tower part i of ring row `ix` with its full bits. -/
def State.producePart (s : State) (tile : Nat) (h : BitVec 4) (i ix : Nat) (bs : List Byte) : State :=
  match s.taskOn tile with
  | none => s
  | some t =>
    let s := s.engineWrite tile i (64 * (t.ring h).row ix) bs
    (s.onTile tile fun t => t.setRing h ((t.ring h).wrote i ix)).settle tile

/-- Full bits of a tile's granules cleared by a consumer, with the retirements that follow. -/
def State.consume (s : State) (tile i : Nat) (gs : List Nat) : State := (s.clearFull tile i gs).settle tile

/-! ### Producer errors (R239, R240) -/

/-- The status that RINGERR.KIND names (R240). -/
def ringErrStatus : Nat → Status
  | 1 => .streamDecode
  | 2 => .streamGraph
  | 3 => .protection
  | _ => .hwError

/-- A producer of ring h stops with an error: ERR, DONE-less, and RINGERR (R238, R240). -/
def Task.ringError (t : Task) (h : BitVec 4) (kind : Nat) : Task :=
  let t := t.setRing h { t.ring h with err := true, stream := none }
  let e := (t.reg.ringErr &&& 0xFFFF#64) ||| BitVec.ofNat 64 (2 ^ h.toNat + kind * 2 ^ 16 + h.toNat * 2 ^ 20)
  { t with reg := { t.reg with ringErr := e } }

/-- The terminal fault that RINGERR.KIND names (R239, R240). -/
def Regs.ringFault (g : Regs) : Status := ringErrStatus (g.ringErr.extractLsb' 16 4).toNat

/-- A flushed window still delivers the row in flight and no other (R323). -/
def Ring.flushing (r : Ring) : Bool :=
  match r.stream with
  | some st => st.flush
  | none => false

/-- What a consumer wait on an undelivered row ends in (R239, R323); none while it may go on waiting. -/
def Task.waitFault (t : Task) (h : BitVec 4) (ix : Nat) : Option Status :=
  let r := t.ring h
  if ix < r.prod then none
  else if r.err then some t.reg.ringFault
  else if r.done || (r.flushing && decide (r.prod < ix)) then some .ringMisuse
  else none

/-- The ring status word (R238). -/
def Ring.status (r : Ring) : W64 :=
  if !r.bound then 0#64
  else BitVec.ofNat 64 (2 ^ 46 + (if r.cmpr then 2 ^ 45 else 0) + r.pkind * 2 ^ 42 + (if r.done then 2 ^ 41 else 0)
    + (if r.err then 2 ^ 40 else 0) + (r.ret % 2 ^ 20) * 2 ^ 20 + r.prod % 2 ^ 20)

/-- A new binding of a handle (R235). -/
def Ring.bind (r : Ring) (raddr rows : Nat) (cmpr : Bool) (pkind : Nat) : Ring :=
  { Ring.reset with desc := r.desc, bound := true, raddr := raddr, rows := rows, cmpr := cmpr, pkind := pkind }

/-- The rows of a binding lie in the leased tile rows (R235). -/
def bindOk (lease raddr rows : Nat) : Bool :=
  decide (1 ≤ rows) && decide (rows ≤ 65535) && decide (raddr + rows ≤ leasedTileRows lease)

end Sys2Proof.Machine
end

