-- ==== Sys2Proof/Machine/SlotA.lean ====
section
/-! DEFINITION. The arithmetic slot (R200 to R225): element-wise operations, compares, masks, run control, reductions.
Every meaning reads its operands at issue and lands canonical runs with the latency of R103. -/

namespace Sys2Proof.Machine

/-! ### Shared operations -/

/-- The operation length N (R193): the least of VL and the source lengths. -/
def opLen (vl : Nat) (lens : List Nat) : Nat := lens.foldl min vl

/-- LN when N < VL (R193). -/
def lnFlag (n vl : Nat) : Flags := flagIf (decide (n < vl)) flLN

/-- A broadcast scalar as a run at least as long as any N (R193). -/
def broadcast (v : W64) : Runs W32 := [(v.extractLsb' 0 32, Config.maxLen)]

/-- The second source of a two-source form: vector register b, or scalar register b broadcast (R94). -/
def State.secondSrc (s : State) (c : Cluster) (b : BitVec 5) (sc : Bool) : Runs W32 :=
  if sc then broadcast (s.sreg b) else c.vreg b

/-- The element-wise result of one cluster with a vector destination (R196). -/
def State.vecRes (s : State) (i : Fin 8) (d : BitVec 5) (k : BitVec 3) (z : Bool) (srcs : List (Runs W32))
    (fn : List W32 → W32 × Flags) : ClRes W32 :=
  let c := s.cluster i
  let n := opLen s.vl (srcs.map runLen)
  { cl := i, pieces := elemWise n srcs (c.mask k n) z 0#32 (c.vreg d) fn, extra := lnFlag n s.vl }

/-- An element-wise instruction with a vector destination; one that reads RM checks it first (R139, R201). -/
def State.vecOp (s : State) (lat : Nat) (d : BitVec 5) (k : BitVec 3) (cl : BitVec 2) (z readsRm : Bool)
    (srcs : Cluster → List (Runs W32)) (fn : List W32 → W32 × Flags) : State :=
  if readsRm && !s.cur.reg.rmOk then s.illegal 1
  else s.landRuns 1 lat (.vreg d) ((s.selected cl).map fun i => s.vecRes i d k z (srcs (s.cluster i)) fn)

/-- A function of one position with two sources. -/
def on2 {β : Type} [Inhabited β] (f : W32 → W32 → β × Flags) : List W32 → β × Flags
  | [a, b] => f a b
  | _ => (default, 0#9)

def on1 (f : W32 → W32 × Flags) : List W32 → W32 × Flags
  | [a] => f a
  | _ => (0#32, 0#9)

def on3 (f : W32 → W32 → W32 → W32 × Flags) : List W32 → W32 × Flags
  | [a, b, c] => f a b c
  | _ => (0#32, 0#9)

/-- A two-source floating instruction (R202). -/
def State.float2 (s : State) (o : AForm) (lat : Nat) (readsRm : Bool) (f : FVal → FVal → FVal × Flags) : State :=
  s.vecOp lat o.d o.k o.cl o.z readsRm (fun c => [c.vreg o.a, s.secondSrc c o.b o.s])
    (on2 fun a b => finish32 s.numCtx (f (fp32 s.numCtx a) (fp32 s.numCtx b)))

/-- An FMA-class instruction: d is the addend (R203). -/
def State.float3 (s : State) (o : AForm) (f : FVal → FVal → FVal → FVal × Flags) : State :=
  s.vecOp 4 o.d o.k o.cl o.z true (fun c => [c.vreg o.a, s.secondSrc c o.b o.s, c.vreg o.d])
    (on3 fun a b c => finish32 s.numCtx (f (fp32 s.numCtx a) (fp32 s.numCtx b) (fp32 s.numCtx c)))

/-- A one-source floating instruction (R204). -/
def State.float1 (s : State) (o : A1Form) (lat : Nat) (readsRm : Bool) (f : FVal → W32 × Flags) : State :=
  s.vecOp lat o.d o.k o.cl o.z readsRm (fun c => [c.vreg o.a]) (on1 fun a => f (fp32 s.numCtx a))

/-- A two-source integer instruction (R205). -/
def State.int2 (s : State) (o : AForm) (f : W32 → W32 → W32) : State :=
  s.vecOp 2 o.d o.k o.cl o.z false (fun c => [c.vreg o.a, s.secondSrc c o.b o.s]) (on2 fun a b => (f a b, 0#9))

/-- A vector compare: a mask destination (R206, R207). -/
def State.cmpVec (s : State) (o : VcmpForm) (f : W32 → W32 → Bool × Flags) : State :=
  s.landRuns 1 2 (.kreg o.d) ((s.selected o.cl).map fun i =>
    let c := s.cluster i
    let srcs := [c.vreg o.a, s.secondSrc c o.b o.s]
    let n := opLen s.vl (srcs.map runLen)
    { cl := i, pieces := elemWise n srcs (c.mask o.k n) o.z false (c.mask o.d n) (on2 f), extra := lnFlag n s.vl })

/-- The length a mask source counts with: k0 counts as VL (R212). -/
def State.maskLen (s : State) (c : Cluster) (k : BitVec 3) : Nat := if k = 0#3 then s.vl else runLen (c.kreg k)

/-- A mask result over N of mask sources (R213). -/
def State.maskOp (s : State) (cl : BitVec 2) (d : BitVec 3) (srcs : List (BitVec 3)) (f : Nat → List (Runs Bool) → Runs Bool) :
    State :=
  s.landRuns 1 2 (.kreg d) ((s.selected cl).map fun i =>
    let c := s.cluster i
    let n := opLen s.vl (srcs.map (s.maskLen c))
    { cl := i, pieces := canonF ((f n (srcs.map fun k => c.mask k n)).map fun p => (p.1, p.2, 0#9)), extra := lnFlag n s.vl })

/-- A mask of two masks, position by position. -/
def bits2 (f : Bool → Bool → Bool) (_ : Nat) : List (Runs Bool) → Runs Bool
  | [a, b] => mapRuns (fun p => f p.1 p.2) (zipR a b)
  | _ => []

/-- A result of whole runs that needs no alignment (R216 to R221). -/
def State.runsOp (s : State) (cl : BitVec 2) (lat : Nat) (d : BitVec 5) (f : Cluster → Runs W32 × Flags) : State :=
  s.landRuns 1 lat (.vreg d) ((s.selected cl).map fun i =>
    let (r, fl) := f (s.cluster i)
    { cl := i, pieces := canonF (r.map fun p => (p.1, p.2, 0#9)), extra := fl })

/-! ### Floating arithmetic (R202 to R204) -/

def execNopA (s : State) : Out := .next s
def execVadd (o : AForm) (s : State) : Out := .next (s.float2 o 4 true (addV s.numCtx.mode))
def execVsub (o : AForm) (s : State) : Out := .next (s.float2 o 4 true fun a b => addV s.numCtx.mode a b.negate)
def execVmul (o : AForm) (s : State) : Out := .next (s.float2 o 4 true mulV)
def execVdiv (o : AForm) (s : State) : Out := .next (s.float2 o 14 true divV)
def execVmin (o : AForm) (s : State) : Out := .next (s.float2 o 4 false (minmaxV false))
def execVmax (o : AForm) (s : State) : Out := .next (s.float2 o 4 false (minmaxV true))
def execVfma (o : AForm) (s : State) : Out := .next (s.float3 o fun a b c => fmaV s.numCtx.mode a b c)
def execVfms (o : AForm) (s : State) : Out := .next (s.float3 o fun a b c => fmaV s.numCtx.mode a b c.negate)
def execVfnma (o : AForm) (s : State) : Out := .next (s.float3 o fun a b c => fmaV s.numCtx.mode a.negate b c)

/-- A change of sign that leaves a NaN canonical (R204). -/
def signOp (cx : NumCtx) (f : FVal → FVal) (a : FVal) : W32 × Flags :=
  finish32 cx (if a.isNan then nanWith (flagIf a.isSig flIV) else (f a, 0#9))

def FVal.absV : FVal → FVal
  | .nan s => .nan s
  | .inf _ => .inf false
  | .fin q => .fin q.abs

def execVabs (o : A1Form) (s : State) : Out := .next (s.float1 o 2 false (signOp s.numCtx FVal.absV))
def execVneg (o : A1Form) (s : State) : Out := .next (s.float1 o 2 false (signOp s.numCtx FVal.negate))

/-- A non-positive operand, which `.p` turns into NaN with NP (R204). -/
def nonPositive (a : FVal) : Bool := !a.isNan && (a.isZero || a.neg)

def State.rootOp (s : State) (o : A1Form) (p : Bool) (f : FVal → FVal × Flags) : State :=
  s.float1 o 14 true fun a => finish32 s.numCtx (if p && nonPositive a then nanWith flNP else f a)

def execVsqrt (o : A1Form) (p : Bool) (s : State) : Out := .next (s.rootOp o p sqrtV)
def execVrsq (o : A1Form) (p : Bool) (s : State) : Out := .next (s.rootOp o p rsqrtV)
def execVrcp (o : A1Form) (s : State) : Out :=
  .next (s.float1 o 14 true fun a => finish32 s.numCtx (divV (.fin (.ofNat 1)) a))
def execVexp (o : A1Form) (s : State) : Out := .next (s.float1 o 12 false (specFn .exp s.numCtx))
def execVlog (o : A1Form) (s : State) : Out := .next (s.float1 o 12 false (specFn .log s.numCtx))
def execVsin (o : A1Form) (s : State) : Out := .next (s.float1 o 12 false (specFn .sin s.numCtx))
def execVcos (o : A1Form) (s : State) : Out := .next (s.float1 o 12 false (specFn .cos s.numCtx))
def execVtanh (o : A1Form) (s : State) : Out := .next (s.float1 o 12 false (specFn .tanh s.numCtx))

/-- Rounding to an integral value (R204). -/
def roundIntegral (mode : Nat) (a : FVal) : FVal × Flags :=
  match a with
  | .nan s => nanWith (flagIf s flIV)
  | .inf s => (.inf s, 0#9)
  | .fin q =>
    let (n, ix) := roundNat mode q.neg q.num q.den
    (.fin { neg := q.neg, num := n, den := 1 }, flagIf ix flIX)

def execVrint (o : A1Form) (x : BitVec 3) (s : State) : Out :=
  let mode := if x = 0#3 then s.numCtx.mode else x.toNat - 1
  .next (s.float1 o 4 (x == 0#3) fun a => finish32 s.numCtx (roundIntegral mode a))

/-! ### Integer arithmetic (R205) -/

def execViadd (o : AForm) (s : State) : Out := .next (s.int2 o (· + ·))
def execVisub (o : AForm) (s : State) : Out := .next (s.int2 o (· - ·))
def execVimul (o : AForm) (s : State) : Out := .next (s.int2 o (· * ·))
def execVimulh (o : AForm) (s : State) : Out :=
  .next (s.int2 o fun a b => BitVec.ofInt 32 (a.toInt * b.toInt / 2 ^ 32))
def execVimin (o : AForm) (s : State) : Out := .next (s.int2 o fun a b => if b.slt a then b else a)
def execVimax (o : AForm) (s : State) : Out := .next (s.int2 o fun a b => if a.slt b then b else a)
def execViminu (o : AForm) (s : State) : Out := .next (s.int2 o fun a b => if b.ult a then b else a)
def execVimaxu (o : AForm) (s : State) : Out := .next (s.int2 o fun a b => if a.ult b then b else a)
def execVand (o : AForm) (s : State) : Out := .next (s.int2 o (· &&& ·))
def execVor (o : AForm) (s : State) : Out := .next (s.int2 o (· ||| ·))
def execVxor (o : AForm) (s : State) : Out := .next (s.int2 o (· ^^^ ·))
/-- b<4:0> as a shift count. -/
def shiftCount32 (b : W32) : Nat := (b.extractLsb' 0 5).toNat
def execVshl (o : AForm) (s : State) : Out := .next (s.int2 o fun a b => a <<< shiftCount32 b)
def execVshr (o : AForm) (s : State) : Out := .next (s.int2 o fun a b => a >>> shiftCount32 b)
def execVshra (o : AForm) (s : State) : Out := .next (s.int2 o fun a b => a.sshiftRight (shiftCount32 b))
def execViabs (o : A1Form) (s : State) : Out :=
  .next (s.vecOp 2 o.d o.k o.cl o.z false (fun c => [c.vreg o.a]) (on1 fun a => (if a.slt 0#32 then -a else a, 0#9)))

/-! ### Compares and selection (R206 to R208) -/

/-- The predicates of VCMP and their IV (R206). -/
def fpPredicate (x : Nat) (a b : FVal) : Bool × Flags :=
  let c := cmpV a b
  let quiet := flagIf (a.isSig || b.isSig) flIV
  let loud := flagIf c.isNone flIV
  match x with
  | 0 => (c == some .eq, quiet)
  | 1 => (c != some .eq, quiet)
  | 2 => (c == some .lt, loud)
  | 3 => (c == some .lt || c == some .eq, loud)
  | 4 => (c == some .gt, loud)
  | 5 => (c == some .gt || c == some .eq, loud)
  | 6 => (c.isNone, quiet)
  | _ => (c.isSome, quiet)

def execVcmp (o : VcmpForm) (s : State) : Out :=
  .next (s.cmpVec o fun a b => fpPredicate o.x.toNat (fp32 s.numCtx a) (fp32 s.numCtx b))

/-- The predicates of VICMP (R207). -/
def intPredicate (x : Nat) (a b : W32) : Bool :=
  match x with
  | 0 => a == b
  | 1 => a != b
  | 2 => a.slt b
  | 3 => a.sle b
  | 4 => a.ult b
  | _ => a.ule b

def execVicmp (o : VcmpForm) (s : State) : Out := .next (s.cmpVec o fun a b => (intPredicate o.x.toNat a b, 0#9))

/-- VSEL (R208): a where the mask is true, b elsewhere; the old destination takes no part. -/
def execVsel (o : VselForm) (s : State) : Out :=
  .next (s.landRuns 1 2 (.vreg o.d) ((s.selected o.cl).map fun i =>
    let c := s.cluster i
    let a := c.vreg o.a
    let b := s.secondSrc c o.b o.s
    let n := opLen s.vl [runLen a, runLen b]
    let r := mapRuns (fun p => if p.1 then p.2.1 else p.2.2) (zipR (c.mask o.k n) (zipR (fitLen 0#32 n a) (fitLen 0#32 n b)))
    { cl := i, pieces := canonF (r.map fun p => (p.1, p.2, 0#9)), extra := lnFlag n s.vl }))

/-! ### Masks (R213 to R215) -/

def execKand (o : KForm) (s : State) : Out := .next (s.maskOp o.cl o.d [o.a, o.b] (bits2 (· && ·)))
def execKor (o : KForm) (s : State) : Out := .next (s.maskOp o.cl o.d [o.a, o.b] (bits2 (· || ·)))
def execKxor (o : KForm) (s : State) : Out := .next (s.maskOp o.cl o.d [o.a, o.b] (bits2 (· != ·)))
def execKnot (d a : BitVec 3) (cl : BitVec 2) (s : State) : Out :=
  .next (s.maskOp cl d [a] fun _ l => match l with
    | [x] => mapRuns (!·) x
    | _ => [])

/-- The lowest true position of a mask. -/
def firstTrue : Runs Bool → Option Nat
  | [] => none
  | (b, c) :: r => if b && c != 0 then some 0 else (firstTrue r).map (· + c)

/-- True at exactly one position of n, or nowhere (R214). -/
def oneTrue (n : Nat) : Option Nat → Runs Bool
  | none => fitLen false n []
  | some p => (fitLen false p [] ++ [(true, 1)] ++ fitLen false (n - p - 1) [])

def execKfirst (d a : BitVec 3) (cl : BitVec 2) (s : State) : Out :=
  .next (s.maskOp cl d [a] fun n l => oneTrue n (firstTrue (l.headD [])))

/-- True positions of a mask. -/
def trueCount : Runs Bool → Nat
  | [] => 0
  | (b, c) :: r => (if b then c else 0) + trueCount r

def execKcnt (d : BitVec 5) (a : BitVec 3) (cl : BitVec 2) (s : State) : Out :=
  .next (s.runsOp cl 2 d fun c =>
    let n := opLen s.vl [s.maskLen c a]
    ([(BitVec.ofNat 32 (trueCount (c.mask a n)), 1)], lnFlag n s.vl))

/-! ### Run control (R216 to R221) -/

/-- An FP32 NaN pattern. -/
def isNan32 (w : W32) : Bool := w.extractLsb' 23 8 == 0xFF#8 && w.extractLsb' 0 23 != 0#23

def execVcoal (o : A1Form) (p : Bool) (s : State) : Out :=
  .next (s.vecOp 3 o.d o.k o.cl o.z false (fun c => [c.vreg o.a])
    (on1 fun a => (if p && isNan32 a then 0x7FC00000#32 else a, 0#9)))

/-- Within (R217). -/
def within (cx : NumCtx) (isInt : Bool) (u v t : W32) : Bool :=
  if isInt then decide ((u.toInt - v.toInt).natAbs ≤ t.toInt.natAbs)
  else
    match fp32 cx u, fp32 cx v, (fp32 cx t).absV with
    | .nan _, _, _ => false
    | _, .nan _, _ => false
    | _, _, .nan _ => false
    | _, _, .inf _ => true
    | .inf a, .inf b, _ => a == b
    | .inf _, _, _ => false
    | _, .inf _, _ => false
    | .fin a, .fin b, .fin q => !(q.lt (Q.add 0 a b.negate).abs)

/-- The merge of R217: groups in reverse, each with its first value; and whether a value was changed. -/
def mergeRuns (near : W32 → W32 → Bool) : Runs W32 → Runs W32 → Bool → Runs W32 × Bool
  | [], acc, ix => (acc.reverse, ix)
  | (v, c) :: r, [], ix => mergeRuns near r [(v, c)] ix
  | (v, c) :: r, (u, n) :: acc, ix =>
    if near u v then mergeRuns near r ((u, n + c) :: acc) (ix || u != v)
    else mergeRuns near r ((v, c) :: (u, n) :: acc) ix

def execVcoalq (o : V3Form) (i : Bool) (s : State) : Out :=
  let t := (s.sreg o.b).extractLsb' 0 32
  let iv := flagIf (!i && (fp32 s.numCtx t).isSig) flIV
  .next (s.runsOp o.cl 3 o.d fun c =>
    let (r, ix) := mergeRuns (fun u v => within s.numCtx i u v t) (c.vreg o.a) [] false
    (r, iv ||| flagIf ix flIX))

def execVrlset (o : V3Form) (s : State) : Out :=
  let c := (s.sreg o.b).toNat
  .next (s.runsOp o.cl 3 o.d fun _ =>
    (if c = 0 then [] else [((s.sreg o.a).extractLsb' 0 32, min c Config.maxLen)], flagIf (decide (Config.maxLen < c)) flLN))

def execVsplat (d b : BitVec 5) (cl : BitVec 2) (s : State) : Out :=
  .next (s.runsOp cl 3 d fun _ => (fitLen ((s.sreg b).extractLsb' 0 32) s.vl [], 0#9))

/-- A count as a one-run vector of length 1. -/
def countRun (n : Nat) : Runs W32 := [(BitVec.ofNat 32 n, 1)]

def execVruns (d a : BitVec 5) (cl : BitVec 2) (s : State) : Out :=
  .next (s.runsOp cl 3 d fun c => (countRun (c.vreg a).length, 0#9))
def execVlen (d a : BitVec 5) (cl : BitVec 2) (s : State) : Out :=
  .next (s.runsOp cl 3 d fun c => (countRun (runLen (c.vreg a)), 0#9))
def execVrunsK (d : BitVec 5) (a : BitVec 3) (cl : BitVec 2) (s : State) : Out :=
  .next (s.runsOp cl 3 d fun c => (countRun (if a = 0#3 then 1 else (c.kreg a).length), 0#9))
def execVlenK (d : BitVec 5) (a : BitVec 3) (cl : BitVec 2) (s : State) : Out :=
  .next (s.runsOp cl 3 d fun c => (countRun (s.maskLen c a), 0#9))

def execVtrim (o : V3Form) (s : State) : Out :=
  .next (s.runsOp o.cl 3 o.d fun c => (takeLen (s.sreg o.b).toNat (c.vreg o.a), 0#9))
def execVtrimDrop (o : V3Form) (s : State) : Out :=
  .next (s.runsOp o.cl 3 o.d fun c => (dropLen (s.sreg o.b).toNat (c.vreg o.a), 0#9))

def execVcat (o : V3Form) (s : State) : Out :=
  .next (s.runsOp o.cl 3 o.d fun c =>
    let r := c.vreg o.a ++ c.vreg o.b
    (takeLen Config.maxLen r, flagIf (decide (Config.maxLen < runLen r)) flLN))

/-! ### Reductions (R152 to R154, R222 to R225) -/

/-- One level of the pairwise tree, with the flags of its roundings. -/
def treeLevel (f : W32 → W32 → W32 × Flags) : List W32 → Flags → List W32 × Flags
  | a :: b :: r, fl =>
    let (x, g) := f a b
    let (t, h) := treeLevel f r (fl ||| g)
    (x :: t, h)
  | l, fl => (l, fl)

/-- The fixed tree over 2^n positions (R152). -/
def tree (f : W32 → W32 → W32 × Flags) : Nat → List W32 → Flags → W32 × Flags
  | 0, l, fl => (l.headD 0#32, fl)
  | n + 1, l, fl =>
    let (t, g) := treeLevel f l fl
    tree f n t g

/-- A list cut or padded to a length. -/
def padTo {α : Type} (d : α) (n : Nat) (l : List α) : List α := l.take n ++ List.replicate (n - l.length) d

/-- What a reduction combines with (R222): the combination of two positions, and the value of a position that takes no
part. -/
structure RedOp where
  comb : W32 → W32 → W32 × Flags
  ident : W32

/-- Each run with the number of contributing positions in it (R223). -/
def admitted {α : Type} : Runs α → Runs Bool → List (α × Nat)
  | [], _ => []
  | (v, c) :: r, m => (v, trueCount (takeLen c m)) :: admitted r (dropLen c m)

/-- Contributions, positions padded, and the tree over 2^n of them. -/
def reduceList (op : RedOp) (n : Nat) (contrib : List (W32 × Flags)) : W32 × Flags :=
  tree op.comb n (padTo op.ident (2 ^ n) (contrib.map (·.1))) (contrib.foldl (fun f p => f ||| p.2) 0#9)

/-- A reduction at cluster or tile scope: `first` gives a cluster's result from its mask over N (R222 to R225). -/
def State.reduce (s : State) (o : RedForm) (srcs : Cluster → List (Runs W32)) (op : RedOp)
    (first : Cluster → Nat → Runs Bool → W32 × Flags) : State :=
  let per : List (Fin 8 × W32 × Flags × Flags) := (s.selected o.cl).map fun i =>
    let c := s.cluster i
    let n := opLen s.vl ((srcs c).map runLen)
    let (r, f) := first c n (c.mask o.k n)
    (i, r, f, lnFlag n s.vl)
  if o.t then
    let at8 := clusters.map fun i => match per.find? fun p => p.1 == i with
      | some p => (p.2.1, 0#9)
      | none => (op.ident, 0#9)
    let (r, f) := reduceList op 3 at8
    s.landRuns 1 9 (.vreg o.d) (per.map fun p => { cl := p.1, pieces := [(r, 1, p.2.2.1 ||| f)], extra := p.2.2.2 })
  else
    s.landRuns 1 6 (.vreg o.d) (per.map fun p => { cl := p.1, pieces := [(p.2.1, 1, p.2.2.1)], extra := p.2.2.2 })

/-- The number context of the sums: mode 0 whatever RM holds (R152). -/
def State.sumCtx (s : State) : NumCtx := { s.numCtx with mode := 0 }

def sumOp (cx : NumCtx) : RedOp :=
  { comb := fun a b => finish32 cx (addV 0 (fp32 cx a) (fp32 cx b)), ident := 0#32 }

def fpMinMax (cx : NumCtx) (wantMax : Bool) : RedOp :=
  { comb := fun a b => finish32 cx (minmaxV wantMax (fp32 cx a) (fp32 cx b))
    ident := if wantMax then 0xFF800000#32 else 0x7F800000#32 }

def intRed (f : W32 → W32 → W32) (ident : W32) : RedOp := { comb := fun a b => (f a b, 0#9), ident := ident }

/-- v × c, rounded once (R152). -/
def sumTerm (cx : NumCtx) (v : W32) (c : Nat) : W32 × Flags :=
  if c = 0 then (0#32, 0#9) else finish32 cx (mulV (fp32 cx v) (.fin (.ofNat c)))

/-- A one-source reduction over the 32 run positions of R223. -/
def State.reduceRuns (s : State) (o : RedForm) (op : RedOp) (term : W32 → Nat → W32 × Flags) : State :=
  s.reduce o (fun c => [c.vreg o.a]) op fun c _ m =>
    reduceList op 5 ((admitted (c.vreg o.a) m).map fun p => term p.1 p.2)

/-- A run takes part once when it is admitted at all (R223). -/
def onceTerm (op : RedOp) (v : W32) (c : Nat) : W32 × Flags := if c = 0 then (op.ident, 0#9) else (v, 0#9)

def execVrsum (o : RedForm) (s : State) : Out := .next (s.reduceRuns o (sumOp s.sumCtx) (sumTerm s.sumCtx))
def execVrmax (o : RedForm) (s : State) : Out :=
  .next (s.reduceRuns o (fpMinMax s.sumCtx true) (onceTerm (fpMinMax s.sumCtx true)))
def execVrmin (o : RedForm) (s : State) : Out :=
  .next (s.reduceRuns o (fpMinMax s.sumCtx false) (onceTerm (fpMinMax s.sumCtx false)))
def execVrisum (o : RedForm) (s : State) : Out :=
  .next (s.reduceRuns o (intRed (· + ·) 0#32) fun v c => (v * BitVec.ofNat 32 c, 0#9))
def execVrimax (o : RedForm) (s : State) : Out :=
  let op := intRed (fun a b => if a.slt b then b else a) 0x80000000#32
  .next (s.reduceRuns o op (onceTerm op))
def execVrimin (o : RedForm) (s : State) : Out :=
  let op := intRed (fun a b => if b.slt a then b else a) 0x7FFFFFFF#32
  .next (s.reduceRuns o op (onceTerm op))

/-- a × b × c, rounded once (R224). -/
def dotTerm (cx : NumCtx) (a b : W32) (c : Nat) : W32 × Flags :=
  if c = 0 then (0#32, 0#9)
  else
    let (p, f) := mulV (fp32 cx a) (fp32 cx b)
    let (r, g) := mulV p (.fin (.ofNat c))
    let (w, h) := finish32 cx (r, g)
    (w, f ||| h)

/-- VDOT (R224): 64 positions, one for each piece of the two aligned sources. -/
def execVdot (o : RedForm) (b : BitVec 5) (s : State) : Out :=
  .next (s.reduce o (fun c => [c.vreg o.a, c.vreg b]) (sumOp s.sumCtx) fun c n m =>
    reduceList (sumOp s.sumCtx) 6
      ((admitted (zipR (fitLen 0#32 n (c.vreg o.a)) (fitLen 0#32 n (c.vreg b))) m).map fun p =>
        dotTerm s.sumCtx p.1.1 p.1.2 p.2))

end Sys2Proof.Machine
end

