-- ==== Sys2Proof/Machine/SlotB.lean ====
section
/-! DEFINITION. The move slot (R285 to R308): tower access, run-form chains, ring rows, moves within a tile, conversions,
tile registers and neighbour shifts. A load that waits on full bits leaves a `Wait`; `State.finishLoad` makes its access in
the device cycle the wait ends (R439). -/

namespace Sys2Proof.Machine

/-! ### Shared operations -/

/-- The mask of each selected cluster as read at issue; none is k0. -/
def State.bMasks (s : State) (cls : List (Fin 8)) (k : BitVec 3) : List (Fin 8 × Option (Runs Bool)) :=
  cls.map fun i => (i, if k = 0#3 then none else some ((s.cluster i).kreg k))

def lookupCl {α : Type} (d : α) (i : Fin 8) (l : List (Fin 8 × α)) : α :=
  match l.find? fun p => p.1 == i with
  | some p => p.2
  | none => d

/-- A mask over a length, from the mask as read at issue. -/
def maskOver (m : Option (Runs Bool)) (n : Nat) : Runs Bool :=
  match m with
  | none => fitLen true n []
  | some r => fitLen false n r

/-- A slot-B result in one cluster (R287): merged under the mask with the old destination. -/
def moveRes (i : Fin 8) (n : Nat) (vals : Runs W32) (m : Option (Runs Bool)) (old : Runs W32) (extra : Flags) : ClRes W32 :=
  { cl := i, pieces := elemWise n [vals] (maskOver m n) false 0#32 old (on1 fun v => (v, 0#9)), extra := extra }

/-- TRAPINFO of a tower fault (R288). -/
def towerInfo (i : Fin 8) (addr : Nat) : W64 := BitVec.ofNat 64 (addr % 2 ^ 22 + i.val * 2 ^ 22)

/-- The first failure among selected clusters of a check on (cluster, address) pairs. -/
def firstBad {α : Type} (l : List (Fin 8 × List α)) (addr : α → Nat) (bad : Fin 8 → α → Bool) : Option W64 :=
  l.findSome? fun (i, xs) => (xs.find? (bad i)).map fun x => towerInfo i (addr x)

/-- TRAPINFO of an operand that fails in every selected cluster alike, at one row. -/
def rowInfo (cls : List (Fin 8)) (row : Nat) : W64 := (cls.head?.map fun i => towerInfo i (64 * row)).getD 0#64

/-- Granules that elements of w bits at bit addresses cover, each once. -/
def elemGranules (w : Nat) (addrs : List Nat) : List Nat :=
  addrs.foldl (fun l a => (granulesOf (a / 8) ((w + 7) / 8)).foldl (fun l g => insertNat g l) l) []

/-- The checks of R288 on elements of w bits at bit addresses; `operand` is the entry's own check. The lowest failing element is the one of
lowest position; of the strict fault TRAPINFO names its first empty granule (R230; log entry 95). -/
def State.checkElems (s : State) (w : Nat) (operand : Nat → Bool) (strict : Bool) (l : List (Fin 8 × List Nat)) :
    Option (Status × W64) :=
  match firstBad l (· / 8) fun _ a => !operand a with
  | some i => some (.illegal, i)
  | none =>
    match firstBad l (· / 8) fun i a => !s.rangeOk s.cur i.val (a / 8) ((w + 7) / 8) with
    | some i => some (.towerRange, i)
    | none =>
      if strict then
        (firstBad (l.map fun (i, xs) => (i, xs.flatMap fun a => granulesOf (a / 8) ((w + 7) / 8))) (16 * ·)
          fun i g => !s.isFull s.cur.bnd.tile i.val g).map fun i => (.illegal, i)
      else none

/-- The code of w bits at a bit address of a tower. -/
def State.towerCode (s : State) (tile i w a : Nat) : Nat :=
  let v := leNat (s.towerRead tile i (a / 8) ((w + 7) / 8))
  if w = 4 then v / 2 ^ (a % 8) % 16 else v

/-- A read of a poisoned row is a hardware error of the task (R252, R396), taken at the next boundary; `pc` is the bundle of an engine
operation that reads it. -/
def State.notePoison (s : State) (tile i : Nat) (gs : List Nat) (pc : Option Nat := none) : State :=
  if gs.any fun g => s.towerPoisoned tile i (g / 4) then
    { s with cur := s.cur.deferHw true pc }
  else s

/-- The vector results of loaded elements. -/
def State.elemResults (s : State) (tile : Nat) (lf : Nat) (vl : Nat) (addrs : List (Fin 8 × List Nat))
    (msk : List (Fin 8 × Option (Runs Bool))) (old : List (Fin 8 × Runs W32)) : List (ClRes W32) :=
  addrs.map fun (i, as) =>
    let vals := as.map fun a => lfLoad lf (s.towerCode tile i.val (lfWidth lf) a)
    moveRes i as.length (units vals) (lookupCl none i msk) (lookupCl [] i old) (lnFlag as.length vl)

/-- A tower load of elements (R293): read now when plain, else a wait. -/
def State.loadElems (s : State) (o : BMemForm) (operand : Nat → Bool) (addrs : List (Fin 8 × List Nat)) : State :=
  let lf := o.lf.toNat
  let w := lfWidth lf
  let cls := addrs.map (·.1)
  match s.checkElems w operand (o.fe == 0#2 && s.cur.reg.festrict) addrs with
  | some (st, info) => s.raise 2 st info
  | none =>
    let msk := s.bMasks cls o.k
    let old := cls.map fun i => (i, (s.cluster i).vreg o.d)
    if o.fe = 0#2 then
      let tile := s.cur.bnd.tile
      let s1 := s.landVecB 6 o.d msk (s.elemResults tile lf s.vl addrs msk old)
      addrs.foldl (fun s p => s.notePoison tile p.1.val (elemGranules w p.2)) s1
    else
      s.addWait (.load { kind := .elems o.lf addrs, fe := o.fe, d := o.d, cls := cls, msk := msk, old := old,
                         vl := s.vl, split := s.cur.reg.split, at_ := s.cur.seq.scyc })

/-- The bytes of one stored element of w bits at a bit address. -/
def State.storeCode (s : State) (tile i w a code : Nat) : State :=
  if w = 4 then
    let b := (s.towerRead tile i (a / 8) 1).headD 0#8
    let v := if a % 8 = 0 then b.toNat / 16 * 16 + code % 16 else b.toNat % 16 + code % 16 * 16
    s.towerWrite tile i (a / 8) [BitVec.ofNat 8 v]
  else s.towerWrite tile i (a / 8) (leBytes code (w / 8))

/-- A tower store of elements in ascending position (R294). -/
def State.storeElems (s : State) (o : BMemForm) (operand : Nat → Bool) (addrs : List (Fin 8 × List Nat)) : State :=
  let lf := o.lf.toNat
  let w := lfWidth lf
  let tile := s.cur.bnd.tile
  match s.checkElems w operand false addrs with
  | some (st, info) => s.raise 2 st info
  | none =>
    let s1 := addrs.foldl (fun s (i, as) =>
      let c := s.cluster i
      let n := as.length
      let es := as.zip ((flat (fitLen 0#32 n (c.vreg o.d))).zip (flat (c.mask o.k n)))
      let s := es.foldl (fun s e => if e.2.2 then s.storeCode tile i.val w e.1 (lfStore lf e.2.1) else s) s
      if o.fe = 1#2 then s.setFull tile i.val (elemGranules w as) else s) s
    -- LN for a store is raised in the next schedule cycle, as its data is read by then (R103)
    s1.push { at_ := s.cur.seq.scyc, due := s.cur.seq.scyc + 1, slot := 2, dest := .nothing
              flags := (addrs.map fun p => (p.1, lnFlag p.2.length s.vl)).filter fun p => p.2 != 0#9 }

/-- Element alignment: w/8 bytes, any nibble for w = 4 (R291, R292). -/
def alignedTo (w a : Nat) : Bool := w == 4 || a / 8 % (w / 8) == 0

/-- Dense element addresses (R291). -/
def denseAddrs (ea : Nat) (w n : Nat) : List Nat := (List.range n).map fun p => 8 * ea + p * w

/-- Strided or indexed byte addresses modulo 2^64 (R292). -/
def byteAddr (base : W64) (off : Int) : Nat := 8 * (((base.toNat : Int) + off) % (2 ^ 64 : Int)).toNat

/-! ### Dense, strided and indexed access (R290 to R294) -/

def execNopB (s : State) : Out := .next s

/-- An address ea of a dense access that is not a multiple of the element size is an illegal operand, whatever the operation length
(R291). -/
def State.denseAligned (s : State) (o : BMemForm) (access : (Nat → Bool) → List (Fin 8 × List Nat) → State)
    (addrs : List (Fin 8 × List Nat)) : State :=
  let w := lfWidth o.lf.toNat
  let ea := (s.ea o.a o.b).toNat
  match firstBad (addrs.map fun p => (p.1, [ea])) id fun _ a => !alignedTo w (8 * a) with
  | some info => s.raise 2 .illegal info
  | none => access (alignedTo w) addrs

def execVld (o : BMemForm) (s : State) : Out :=
  let w := lfWidth o.lf.toNat
  let n := min s.vl (512 / w)
  .next (s.denseAligned o (s.loadElems o) ((s.selected o.cl).map fun i => (i, denseAddrs (s.ea o.a o.b).toNat w n)))

def execVst (o : BMemForm) (s : State) : Out :=
  let w := lfWidth o.lf.toNat
  .next (s.denseAligned o (s.storeElems o) ((s.selected o.cl).map fun i =>
    (i, denseAddrs (s.ea o.a o.b).toNat w (min (opLen s.vl [runLen ((s.cluster i).vreg o.d)]) (512 / w)))))

/-- LF 6 and 7 are illegal operands in strided and indexed access, whatever the operation length (R292). -/
def State.noNibbles (s : State) (o : BMemForm) (access : (Nat → Bool) → List (Fin 8 × List Nat) → State)
    (addrs : List (Fin 8 × List Nat)) : State :=
  let w := lfWidth o.lf.toNat
  if w = 4 then s.raise 2 .illegal ((firstBad addrs (· / 8) fun _ _ => true).getD 0#64) else access (alignedTo w) addrs

def execVlds (o : BMemForm) (s : State) : Out :=
  .next (s.noNibbles o (s.loadElems o) ((s.selected o.cl).map fun i =>
    (i, (List.range (min s.vl 16)).map fun (p : Nat) => byteAddr (s.sreg o.a) ((p : Int) * (s.sreg o.b).toInt))))

def execVsts (o : BMemForm) (s : State) : Out :=
  .next (s.noNibbles o (s.storeElems o) ((s.selected o.cl).map fun i =>
    (i, (List.range (min (opLen s.vl [runLen ((s.cluster i).vreg o.d)]) 16)).map fun (p : Nat) =>
      byteAddr (s.sreg o.a) ((p : Int) * (s.sreg o.b).toInt))))

/-- Addresses from the index register d + 1 (R292). -/
def State.indexedAddrs (s : State) (o : BMemForm) (i : Fin 8) (n : Nat) : List Nat :=
  (flat (fitLen 0#32 n ((s.cluster i).vreg (o.d + 1#5)))).map fun x =>
    byteAddr (s.sreg o.a) (x.toInt * (s.sreg o.b).toInt)

def execVldx (o : BMemForm) (s : State) : Out :=
  .next (s.noNibbles o (s.loadElems o) ((s.selected o.cl).map fun i =>
    (i, s.indexedAddrs o i (min (opLen s.vl [runLen ((s.cluster i).vreg (o.d + 1#5))]) 16))))

def execVstx (o : BMemForm) (s : State) : Out :=
  .next (s.noNibbles o (s.storeElems o) ((s.selected o.cl).map fun i =>
    let c := s.cluster i
    (i, s.indexedAddrs o i (min (opLen s.vl [runLen (c.vreg o.d), runLen (c.vreg (o.d + 1#5))]) 16))))

/-! ### Run-form chains, cursors and masks (R295 to R298) -/

def execVcur (a b : BitVec 5) (cl y : BitVec 2) (s : State) : Out :=
  .next (s.land 2 1 (.cursor y ((s.selected cl).map fun i => (i, (s.ea a b).extractLsb' 0 22))))

/-- A chain as far as it can be read (R233, R296): its runs and rows, a fault, or none while a row is not yet full. -/
inductive Chain where
  | ok (runs : Runs W32) (rows : Nat)
  | bad (st : Status) (addr : Nat)
  | waiting

/-- Reads the chain from a row on: `n` rows at most, `sum` elements so far, the first row's type. -/
def State.readChain (s : State) (t : Task) (i : Fin 8) (needFull : Bool) : Nat → Nat → Nat → Option Nat → Chain
  | 0, row, _, _ => .bad .illegal (64 * row)
  | n + 1, row, sum, typ =>
    if !s.rowOk t i.val row then .bad .towerRange (64 * row)
    else if needFull && !s.partFull t.bnd.tile i.val row then .waiting
    else match parseRow (s.towerRead t.bnd.tile i.val (64 * row) 64) with
      | none => .bad .illegal (64 * row)
      | some r =>
        if Config.maxLen < sum + r.len || (typ.isSome && typ != some r.typ) then .bad .illegal (64 * row)
        else if r.last then .ok r.containers 1
        else match s.readChain t i needFull n (row + 1) (sum + r.len) (some r.typ) with
          | .ok l k => .ok (r.containers ++ l) (k + 1)
          | c => c

def State.chainAt (s : State) (i : Fin 8) (start : BitVec 22) (needFull : Bool) : Chain :=
  if start.extractLsb' 0 6 != 0#6 then .bad .illegal start.toNat
  else s.readChain s.cur i needFull 8 (start.toNat / 64) 0 none

/-- The first fault of the chains of the selected clusters: an operand fault before a range fault (R288). -/
def chainFault (l : List (Fin 8 × Chain)) : Option (Status × W64) :=
  let pick (st : Status) := l.findSome? fun (i, c) => match c with
    | .bad st' a => if st' = st then some (st, towerInfo i a) else none
    | _ => none
  match pick .illegal with
  | some x => some x
  | none => pick .towerRange

def Chain.rows : Chain → Nat
  | .ok _ n => n
  | _ => 0

def Chain.runs : Chain → Runs W32
  | .ok r _ => r
  | _ => []

def Chain.isWaiting : Chain → Bool
  | .waiting => true
  | _ => false

/-- Granules of a chain's rows. -/
def chainGranules (start : BitVec 22) (rows : Nat) : List Nat :=
  (List.range (4 * rows)).map fun j => start.toNat / 16 + j

/-- The result and the cursor of VLDRL (R296). -/
def State.landChain (s : State) (d : BitVec 5) (y : BitVec 2) (msk : List (Fin 8 × Option (Runs Bool)))
    (old : List (Fin 8 × Runs W32)) (l : List (Fin 8 × BitVec 22 × Chain)) : State :=
  let s1 := s.landVecB 6 d msk (l.map fun (i, _, c) =>
    moveRes i (runLen c.runs) c.runs (lookupCl none i msk) (lookupCl [] i old) 0#9)
  if s1.cur.seq.lastFault.isSome then s1
  else s1.land 2 1 (.cursor y (l.map fun (i, st, c) => (i, st + BitVec.ofNat 22 (64 * c.rows))))

def execVldrl (d : BitVec 5) (k : BitVec 3) (cl fe y : BitVec 2) (s : State) : Out :=
  let cls := s.selected cl
  let starts := cls.map fun i => (i, vat (s.cluster i).y y)
  let msk := s.bMasks cls k
  let old := cls.map fun i => (i, (s.cluster i).vreg d)
  let rows := starts.map fun (i, st) => (i, [st.toNat])
  let bad := ((firstBad rows id fun _ a => a % 64 != 0).map fun x => (Status.illegal, x)).orElse fun _ =>
    (firstBad rows id fun i a => !s.rowOk s.cur i.val (a / 64)).map fun x => (Status.towerRange, x)
  .next (if fe ≠ 0#2 then
    match bad with
    | some (st, info) => s.raise 2 st info
    | none => s.addWait (.load { kind := .chain starts y, fe := fe, d := d, cls := cls, msk := msk, old := old,
                                 vl := s.vl, split := s.cur.reg.split, at_ := s.cur.seq.scyc })
  else
    let l := starts.map fun (i, st) => (i, st, s.chainAt i st false)
    match chainFault (l.map fun p => (p.1, p.2.2)) with
    | some (st, info) => s.raise 2 st info
    | none =>
      let gs := l.map fun (i, st, c) => (i, chainGranules st c.rows)
      match (if s.cur.reg.festrict then firstBad gs (16 * ·) (fun i g => !s.isFull s.cur.bnd.tile i.val g) else none) with
      | some info => s.raise 2 .illegal info
      | none =>
        let s1 := ({ s with cur := { s.cur with seq := { s.cur.seq with lastFault := none } } } : State).landChain d y msk old l
        gs.foldl (fun s p => s.notePoison s.cur.bnd.tile p.1.val p.2) s1)

/-- Groups of at most n runs. -/
def chunks {α : Type} (n : Nat) : Nat → List α → List (List α)
  | 0, _ => []
  | fuel + 1, l => if l.isEmpty then [] else l.take n :: chunks n fuel (l.drop n)

/-- The rows of a register's chain (R297). -/
def chainRows (typ : Nat) (r : Runs W32) : List (List Byte) :=
  let gs := chunks (rowRuns typ) 33 (mapRuns (codeOf typ) r)
  gs.mapIdx fun j g => buildRow typ (j + 1 == gs.length) g

def execVstrl (d : BitVec 5) (cl : BitVec 2) (fe : Bool) (y : BitVec 2) (s : State) : Out :=
  let typ := s.cur.reg.dstt
  let tile := s.cur.bnd.tile
  let l := (s.selected cl).map fun i =>
    let c := s.cluster i
    (i, vat c.y y, if reservedType typ then [] else chainRows typ (c.vreg d))
  let badCursor := l.findSome? fun (i, st, _) => if st.extractLsb' 0 6 != 0#6 then some (towerInfo i st.toNat) else none
  let badRange := l.findSome? fun (i, st, rows) =>
    ((List.range rows.length).find? fun j => !s.rowOk s.cur i.val (st.toNat / 64 + j)).map fun j =>
      towerInfo i (st.toNat + 64 * j)
  .next (if reservedType typ then s.illegal 2 ((l.head?.map fun p => towerInfo p.1 p.2.1.toNat).getD 0#64)
  else match badCursor with
    | some info => s.raise 2 .illegal info
    | none =>
      match badRange with
      | some info => s.raise 2 .towerRange info
      | none =>
        let s1 := l.foldl (fun s (i, st, rows) =>
          let s := s.towerWrite tile i.val st.toNat rows.flatten
          if fe then s.setFull tile i.val (chainGranules st rows.length) else s) s
        s1.land 2 1 (.cursor y (l.map fun (i, st, rows) => (i, st + BitVec.ofNat 22 (64 * rows.length)))))

/-- One bit per position, from bytes. -/
def bitsOf (n : Nat) (bs : List Byte) : List Bool :=
  let v := leNat bs
  (List.range n).map fun p => v.testBit p

/-- The mask results of KLD (R298). -/
def State.maskResults (s : State) (tile : Nat) (ea n vl : Nat) (cls : List (Fin 8)) : List (ClRes Bool) :=
  cls.map fun i =>
    { cl := i, pieces := canonF ((bitsOf n (s.towerRead tile i.val ea ((n + 7) / 8))).map fun b => (b, 1, 0#9)),
      extra := lnFlag n vl }

/-- The byte range of a mask access, as elements of 8 bits. -/
def byteElems (ea n : Nat) : List Nat := (List.range n).map fun j => 8 * (ea + j)

def execKld (o : KmForm) (s : State) : Out :=
  let n := min s.vl 512
  let ea := (s.ea o.a o.b).toNat
  let cls := s.selected o.cl
  let l := cls.map fun i => (i, byteElems ea ((n + 7) / 8))
  .next (match s.checkElems 8 (fun _ => true) (o.fe == 0#2 && s.cur.reg.festrict) l with
    | some (st, info) => s.raise 2 st info
    | none =>
      if o.fe = 0#2 then
        let s1 := s.landMaskB 6 o.d (s.maskResults s.cur.bnd.tile ea n s.vl cls)
        l.foldl (fun s p => s.notePoison s.cur.bnd.tile p.1.val (elemGranules 8 p.2)) s1
      else
        s.addWait (.load { kind := .bits ea n, fe := o.fe, d := o.d.zeroExtend 5, cls := cls, msk := [], old := []
                           vl := s.vl, split := s.cur.reg.split, at_ := s.cur.seq.scyc }))

/-- Bits packed into whole bytes. -/
def bitBytes (l : List Bool) : List Byte :=
  leBytes (l.foldr (fun b acc => (if b then 1 else 0) + 2 * acc) 0) ((l.length + 7) / 8)

def execKst (o : KmForm) (s : State) : Out :=
  let n := min s.vl 512
  let ea := (s.ea o.a o.b).toNat
  let tile := s.cur.bnd.tile
  let l := (s.selected o.cl).map fun i => (i, byteElems ea ((n + 7) / 8))
  .next (match s.checkElems 8 (fun _ => true) false l with
    | some (st, info) => s.raise 2 st info
    | none =>
      l.foldl (fun s (i, bs) =>
        let s := s.towerWrite tile i.val ea (bitBytes (flat ((s.cluster i).mask o.d n)))
        if o.fe = 1#2 then s.setFull tile i.val (elemGranules 8 bs) else s) s)

/-! ### Ring rows (R299, R300) -/

/-- The parsed part of a ring row as a vector (R299). -/
inductive RingPart where
  | runs (r : Runs W32) (ln : Bool)
  | bad (addr : Nat)

def ringPart (cmpr : Bool) (typ vl addr : Nat) (bs : List Byte) : RingPart :=
  if cmpr then
    match parseRow bs with
    | some r => if r.last then .runs r.containers false else .bad addr
    | none => .bad addr
  else
    let w := typeBits typ
    let n := min vl (512 / w)
    .runs (units ((unpackBits w n bs).map (containerOf typ))) (decide (n < vl))

/-- A handle that is not bound is RING_MISUSE before TYPEA is judged against its ring (R299; log entry 28). -/
def execVrd (o : RowForm) (s : State) : Out :=
  let ix := (s.sreg o.a).toNat
  let r := s.cur.ring o.h
  let cls := s.selected o.cl
  let tile := s.cur.bnd.tile
  let full := r.rows != 0 && cls.all fun i => s.partFull tile i.val (r.row ix)
  .next (if !r.cmpr && r.bound && reservedType s.cur.reg.typeA then s.illegal 2 (rowInfo cls (r.row ix))
    else if !r.bound || decide (ix < r.ret) || decide (r.ret + r.rows ≤ ix) then s.raise 2 .ringMisuse (BitVec.ofNat 64 ix)
    else match (if full then none else s.cur.waitFault o.h ix) with
      | some st => s.raise 2 st (BitVec.ofNat 64 ix)
      | none =>
        s.addWait (.load { kind := .ringRow o.h ix (BitVec.ofNat 4 s.cur.reg.typeA), fe := if o.opt then 2#2 else 1#2
                           d := o.d, cls := cls, msk := s.bMasks cls o.k
                           old := cls.map fun i => (i, (s.cluster i).vreg o.d), vl := s.vl
                           split := s.cur.reg.split, at_ := s.cur.seq.scyc }))

/-- The 64 B part of a dense VWR or VSHIFT (R300, R307). -/
def densePart (typ vl : Nat) (v : Runs W32) (m : Option (Runs Bool)) : List Byte :=
  let w := typeBits typ
  let n := min (opLen vl [runLen v]) (512 / w)
  let r := zipR (fitLen 0#32 n v) (maskOver m n)
  packBits w (flat (mapRuns (fun p => if p.2 then codeOf typ p.1 else 0) r)) 64

/-- The run-form part of VWR.rl, or none when it does not fit (R300). -/
def runPart (typ : Nat) (v : Runs W32) (m : Option (Runs Bool)) : Option (List Byte) :=
  let n := runLen v
  let r := canon (mapRuns (fun p => if p.2 then p.1 else 0#32) (zipR v (maskOver m n)))
  if r.isEmpty || decide (rowRuns typ < r.length) then none else some (buildRow typ true (mapRuns (codeOf typ) r))

/-- The checks in the order of log entry 28 (R300). -/
def execVwr (o : RowForm) (s : State) : Out :=
  let ix := (s.sreg o.a).toNat
  let r := s.cur.ring o.h
  let cls := s.selected o.cl
  let typ := s.cur.reg.dstt
  let parts := cls.map fun i =>
    let m := if o.k = 0#3 then none else some ((s.cluster i).kreg o.k)
    (i, if o.opt then runPart typ ((s.cluster i).vreg o.d) m else some (densePart typ s.vl ((s.cluster i).vreg o.d) m))
  .next (if !r.bound then s.raise 2 .ringMisuse (BitVec.ofNat 64 ix)
    else if reservedType typ then s.illegal 2 (rowInfo cls (r.row ix))
    else match parts.find? (fun (p : Fin 8 × Option (List Byte)) => p.2.isNone) with
    | some p => s.illegal 2 (towerInfo p.1 (64 * r.row ix))
    | none =>
      if !(r.pkind == 0 || r.pkind == 5) || decide (ix < r.prod) then s.raise 2 .ringMisuse (BitVec.ofNat 64 ix)
      else
        ({ s with cur := s.cur.setRing o.h { r with pkind := 5 } } : State).addWait
          (.ringWrite o.h ix (parts.map fun (p : Fin 8 × Option (List Byte)) => (p.1, p.2.getD []))))

/-! ### Moves within a tile (R301 to R303) -/

/-- A move (R301): per cluster its length, source runs and flags. -/
def State.moveOp (s : State) (o : MovForm) (lat : Nat) (f : Fin 8 → Nat × Runs W32 × Flags) : State :=
  let cls := s.selected o.cl
  let msk := s.bMasks cls o.k
  s.landVecB lat o.d msk (cls.map fun i =>
    let (n, r, fl) := f i
    moveRes i n r (lookupCl none i msk) ((s.cluster i).vreg o.d) fl)

def execVmov (o : MovForm) (s : State) : Out :=
  .next (s.moveOp o 2 fun i => (runLen ((s.cluster i).vreg o.v), (s.cluster i).vreg o.v, 0#9))

def execVmvs (d a : BitVec 5) (k : BitVec 3) (cl : BitVec 2) (s : State) : Out :=
  .next (s.moveOp { d := d, k := k, cl := cl, v := 0#5 } 2 fun _ => (s.vl, broadcast (s.sreg a), 0#9))

def execVxc (o : MovForm) (a : BitVec 5) (s : State) : Out :=
  let p := s.sreg a
  .next (if (List.range 8).any (fun c => p.getLsbD (4 * c + 3)) || decide (2 ^ 32 ≤ p.toNat) then s.illegal 2
    else s.moveOp o 3 fun i =>
      let src := (s.cluster (p.extractLsb' (4 * i.val) 3).toFin).vreg o.v
      (runLen src, src, 0#9))

/-- A run list moved by a signed amount: values from outside it are 0 (R301). -/
def slideRuns (amount : Int) (r : Runs W32) : Runs W32 :=
  if 0 ≤ amount then dropLen amount.toNat r else fitLen 0#32 (min amount.natAbs Config.maxLen) [] ++ r

def execVslide (o : MovForm) (a : BitVec 5) (s : State) : Out :=
  .next (s.moveOp o 3 fun i =>
    let v := (s.cluster i).vreg o.v
    let n := opLen s.vl [runLen v]
    (n, slideRuns (s.sreg a).toInt v, lnFlag n s.vl))

def execVrev (o : MovForm) (s : State) : Out :=
  .next (s.moveOp o 3 fun i =>
    let v := (s.cluster i).vreg o.v
    let n := opLen s.vl [runLen v]
    (n, (takeLen n v).reverse, lnFlag n s.vl))

def execVmvx (d a v : BitVec 5) (cl : BitVec 2) (s : State) : Out :=
  .next (s.land 2 4 (.sreg d (match s.selected cl with
    | [] => 0#64
    | i :: _ => (runAt 0#32 ((s.cluster i).vreg v) (s.sreg a).toNat).zeroExtend 64)))

/-! ### Conversions (R304, R305) -/

/-- An element-wise slot-B operation over VQ with N = min(VL, L). -/
def State.convertOp (s : State) (o : MovForm) (f : W32 → W32 × Flags) : State :=
  let cls := s.selected o.cl
  s.landVecB 3 o.d (s.bMasks cls o.k) (cls.map fun i =>
    let c := s.cluster i
    let n := opLen s.vl [runLen (c.vreg o.v)]
    { cl := i, pieces := elemWise n [c.vreg o.v] (c.mask o.k n) false 0#32 (c.vreg o.d) (on1 f), extra := lnFlag n s.vl })

def execVcvt (o : MovForm) (s : State) : Out :=
  let ta := s.cur.reg.typeA
  let td := s.cur.reg.dstt
  .next (if reservedType ta || reservedType td || !s.cur.reg.rmOk then s.illegal 2
    else s.convertOp o fun v =>
      let (y, f) := convertTo s.numCtx td (readVal s.cur.seq.flush ta (codeOf ta v))
      (containerOf td y.toNat, f))

/-- The class bit of a value (R305). -/
def classBit (t : Nat) (v : FVal) : Nat :=
  match v with
  | .inf true => 0
  | .inf false => 7
  | .nan true => 8
  | .nan false => 9
  | .fin q =>
    if q.isZero then (if q.neg then 3 else 4)
    else if t ≤ 5 && belowNormal t q then (if q.neg then 2 else 5)
    else (if q.neg then 1 else 6)

def execVclass (o : MovForm) (s : State) : Out :=
  let ta := s.cur.reg.typeA
  .next (if reservedType ta || isIntType ta then s.illegal 2
    else s.convertOp o fun v => (BitVec.ofNat 32 (2 ^ classBit ta (readVal s.cur.seq.flush ta (codeOf ta v))), 0#9))

/-! ### Tile registers (R306) -/

/-- A tile-register row or column number, or none at 16 or more. -/
def tileIndex (v : W64) : Option (Fin 16) := if h : v.toNat < 16 then some ⟨v.toNat, h⟩ else none

def allFin16 : List (Fin 16) := [0, 1, 2, 3, 4, 5, 6, 7, 8, 9, 10, 11, 12, 13, 14, 15]

/-- Element (row, column) of a tile register. -/
def Cluster.tileAt (c : Cluster) (t : BitVec 2) (r j : Fin 16) : W32 :=
  (vat c.t t)[16 * r.val + j.val]'(by have := r.isLt; have := j.isLt; omega)

def execTwr (o : TForm) (s : State) : Out :=
  .next (match tileIndex (s.sreg o.a) with
    | none => s.illegal 2
    | some r => s.land 2 2 (.tileRow o.t r ((s.selected o.cl).map fun i =>
        let c := s.cluster i
        (i, ((allFin16.zip (flat (fitLen 0#32 16 (c.vreg o.d)))).zip (flat (c.mask o.k 16))).filterMap fun p =>
          if p.2 then some p.1 else none))))

/-- The 16 elements of a row or a column as a vector. -/
def State.tileRead (s : State) (o : TForm) (f : Cluster → List W32) : State :=
  let cls := s.selected o.cl
  let msk := s.bMasks cls o.k
  s.landVecB 4 o.d msk (cls.map fun i =>
    moveRes i 16 (units (f (s.cluster i))) (lookupCl none i msk) ((s.cluster i).vreg o.d) 0#9)

def execTrc (o : TForm) (s : State) : Out :=
  .next (match tileIndex (s.sreg o.a) with
    | none => s.illegal 2
    | some j => s.tileRead o fun c => allFin16.map fun r => c.tileAt o.t r j)

def execTrr (o : TForm) (s : State) : Out :=
  .next (match tileIndex (s.sreg o.a) with
    | none => s.illegal 2
    | some r => s.tileRead o fun c => allFin16.map fun j => c.tileAt o.t r j)

def execTclr (cl t : BitVec 2) (s : State) : Out := .next (s.land 2 2 (.tileClear t (s.selected cl)))

/-! ### Neighbour shifts (R307, R308) -/

/-- Whether the neighbour in a direction lies outside the launch's rectangle. -/
def Bind.atEdge (b : Bind) (dir : Nat) : Bool :=
  match dir with
  | 0 => b.tx + 1 == b.w
  | 1 => b.tx == 0
  | 2 => b.ty + 1 == b.h
  | _ => b.ty == 0

def execVshift (o : ShiftForm) (s : State) : Out :=
  let dir := s.sreg o.b
  let typ := s.cur.reg.dstt
  let cls := s.selected o.cl
  let edge := s.cur.bnd.atEdge dir.toNat
  .next (if 4 ≤ dir.toNat ∨ reservedType typ then s.illegal 2
    else if edge && s.cur.bnd.edge == 0#2 then s.illegal 2 dir
    else if edge && s.cur.bnd.edge == 2#2 then s
    else if cls.any (fun i => decide (4 ≤ (s.cur.eng.shifts.filter fun p => p.cluster == i).length)) then
      s.raise 2 .ringMisuse (s.sreg o.a)
    else
      let parts := cls.map fun i =>
        ({ cluster := i, dir := dir.toNat, h := o.h, index := (s.sreg o.a).toNat
           bytes := densePart typ s.vl ((s.cluster i).vreg o.d) (if o.k = 0#3 then none else some ((s.cluster i).kreg o.k))
           ready := s.clk.tick + 6, pc := s.cur.seq.pc } : ShiftPart)
      s.modEng fun e => { e with shifts := e.shifts ++ parts })

/-! ### The end of a wait (R106, R229, R293, R439) -/

/-- A run overflow of a load that waited: at the boundary after the stalled bundle; a slot-A result that took part in the
combination lands nothing, and the load clears no full bit (R439). -/
def State.lateOverflow (s : State) (cls : List (Fin 8)) (source : Nat) : State :=
  let at_ := s.cur.seq.scyc
  let s := s.modSeq fun q => { q with inflight :=
    if source = 3 then q.inflight.filter fun l => !(l.slot == 1 && l.at_ == at_) else q.inflight }
  { s with cur := s.cur.defer { status := .runOverflow, cause := 3, slot := if source = 3 then 4 else 2,
                                info := overflowInfo cls source } none }

/-- Landing of a load whose wait has ended; `commit` clears its full bits when it lands. -/
def State.landLate {α : Type} [DecidableEq α] (s : State) (zero : α) (pick : Dest → List (Fin 8 × Runs α))
    (mk : List (Fin 8 × Runs α) → Dest) (msk : List (Fin 8 × Option (Runs Bool))) (split : Bool)
    (res : List (ClRes α)) (commit : State → State) : State :=
  let ovf := overflowing split res
  if ovf ≠ [] then s.lateOverflow ovf 2
  else
    match combineInto zero pick mk msk split s.cur.seq.inflight (resultLanding s.cur.seq.scyc 2 6 mk res) with
    | .ok l => commit (s.modSeq fun q => { q with inflight := l })
    | .error cls => s.lateOverflow cls 3

/-- The granules that a waiting load covers, per cluster; none while a chain's extent is still unknown. -/
def State.loadGranules (s : State) (l : WLoad) : Option (List (Fin 8 × List Nat)) :=
  match l.kind with
  | .elems lf addrs => some (addrs.map fun (i, as) => (i, elemGranules (lfWidth lf.toNat) as))
  | .bits a n => some (l.cls.map fun i => (i, elemGranules 8 (byteElems a ((n + 7) / 8))))
  | .ringRow h ix _ => some (l.cls.map fun i => (i, rowGranules ((s.cur.ring h).row ix)))
  | .chain starts _ =>
    let cs := starts.map fun (i, st) => (i, st, s.chainAt i st true)
    if cs.any fun c => c.2.2.isWaiting then none else some (cs.map fun (i, st, c) => (i, chainGranules st c.rows))

/-- Every covered granule is full. -/
def State.loadReady (s : State) (l : WLoad) : Bool :=
  match s.loadGranules l with
  | none => false
  | some gs => gs.all fun (i, g) => g.all fun x => s.isFull s.cur.bnd.tile i.val x

/-- The access of a waiting load in the device cycle its wait ends. -/
def State.finishLoad (s : State) (l : WLoad) : State :=
  let tile := s.cur.bnd.tile
  let gs := (s.loadGranules l).getD []
  let commit (s : State) : State :=
    let s := gs.foldl (fun (s : State) (p : Fin 8 × List Nat) => s.notePoison tile p.1.val p.2) s
    if l.fe = 1#2 then gs.foldl (fun (s : State) (p : Fin 8 × List Nat) => s.consume tile p.1.val p.2) s else s
  match l.kind with
  | .elems lf addrs =>
    s.landLate 0#32 (Dest.vecOf l.d) (.vreg l.d) l.msk l.split (s.elemResults tile lf.toNat l.vl addrs l.msk l.old) commit
  | .bits a n =>
    let d := l.d.extractLsb' 0 3
    s.landLate false (Dest.maskOf d) (.kreg d) [] l.split (s.maskResults tile a n l.vl l.cls) commit
  | .chain starts y =>
    let cs := starts.map fun (i, st) => (i, st, s.chainAt i st true)
    match chainFault (cs.map fun c => (c.1, c.2.2)) with
    | some (st, info) => s.waitRaise 2 st info
    | none =>
      s.landLate 0#32 (Dest.vecOf l.d) (.vreg l.d) l.msk l.split
        (cs.map fun (i, _, c) => moveRes i (runLen c.runs) c.runs (lookupCl none i l.msk) (lookupCl [] i l.old) 0#9)
        fun s => commit (s.land 2 1 (.cursor y (cs.map fun (i, st, c) => (i, st + BitVec.ofNat 22 (64 * c.rows)))))
  | .ringRow h ix typ =>
    let r := s.cur.ring h
    let ps := l.cls.map fun i =>
      (i, ringPart r.cmpr typ.toNat l.vl (64 * r.row ix) (s.towerRead tile i.val (64 * r.row ix) 64))
    match ps.findSome? (fun (i, p) => match p with
      | .bad a => some (towerInfo i a)
      | _ => none) with
    | some info => s.waitRaise 2 .illegal info
    | none =>
      s.landLate 0#32 (Dest.vecOf l.d) (.vreg l.d) l.msk l.split (ps.map fun (i, p) => match p with
        | .runs v ln => moveRes i (runLen v) v (lookupCl none i l.msk) (lookupCl [] i l.old) (flagIf ln flLN)
        | .bad _ => moveRes i 0 [] none [] 0#9) commit

/-- A VWR whose row is free in every selected cluster writes it (R300). -/
def State.ringWriteReady (s : State) (h : BitVec 4) (ix : Nat) (parts : List (Fin 8 × List Byte)) : Bool :=
  parts.all fun p => s.mayWrite s.cur.bnd.tile (s.cur.ring h) p.1.val ix

/-- The write of VWR: bytes, full bits, and the ring's production. -/
def State.finishRingWrite (s : State) (h : BitVec 4) (ix : Nat) (parts : List (Fin 8 × List Byte)) : State :=
  let tile := s.cur.bnd.tile
  let row := (s.cur.ring h).row ix
  let s := parts.foldl (fun s p => s.engineWrite tile p.1.val (64 * row) p.2) s
  let s := { s with cur := s.cur.setRing h (parts.foldl (fun (r : Ring) (p : Fin 8 × List Byte) => r.wrote p.1.val ix) (s.cur.ring h)) }
  { s with cur := s.cur.settle s }

end Sys2Proof.Machine
end

