-- ==== Sys2Proof/Machine/Streams.lean ====
section
/-! DEFINITION. Windows and the traverse fabric: descriptor limits (R241, R244, R268), graph images (R261 to R263), graph
evaluation (R258 to R262), the decode cell (R271 to R273), the opening of a stream and its deliveries (R242 to R245, R269,
R270), FLOAD and FBIND at the controller (R265, R266). -/

namespace Sys2Proof.Machine

/-! ### When an engine may act -/

/-- An engine of a task makes progress: its launch is resident, draining, or stopping with the engine's unit not yet
acknowledged (R388, R417). -/
def State.engineMay (s : State) (t : Task) (u : EngineUnit) : Bool :=
  match s.launch? t.bnd.launch with
  | none => false
  | some l => l.phase == .resident || l.phase == .draining || (l.phase == .stopping && !l.acks.contains (t.bnd.tile, u))

/-- A fault of an engine after issue, taken at the issuing task's next bundle boundary (R317). -/
def State.engineFault (s : State) (tile : Nat) (st : Status) (info : W64) (pc : Nat) : State :=
  s.onTile tile fun t => if t.bound then t.defer { status := st, slot := 5, info := info } (some pc) else t

/-- A near-bank command's failure (R281), taken at the boundary before the bundle that would issue next (R372); a task that has
ended names the bundle of the NBCMD (log entry 15). -/
def State.nbuFault (s : State) (tile : Nat) (info : W64) (pc : Nat) : State :=
  s.onTile tile fun t =>
    if t.bound then t.defer { status := .nbuFault, slot := 5, info := info } (if t.seq.state = .ended then some pc else none) else t

/-- Why an engine's access ended its operation, as the fault of R317. -/
def State.engineMemFault (s : State) (tile pc : Nat) : MemFail → State
  | .wait => s
  | .prot va => s.engineFault tile .protection (BitVec.ofNat 64 va) pc
  | .race i => s.engineFault tile .race i pc
  | .bad va => s.engineFault tile .hwError (BitVec.ofNat 64 va) pc

/-- The read and the store of a unit of a tile. -/
def engineRead (unit : Nat) : Want := { read := true, write := false, engine := true, unit := unit }
def engineStore (unit : Nat) : Want := { read := false, write := true, engine := true, unit := unit }

/-- The unit of a tile that a stream of its task is: its handle, plus 1. -/
def Task.streamUnit (t : Task) (st : Stream) : Nat := t.rings.toList.findIdx (fun r => r.stream.any fun x => x.id == st.id) + 1

/-- The tower is in a refresh pass, so deliveries into it pause (R253). -/
def State.towerBusy (s : State) (tile i : Nat) : Bool := (s.refreshOf (s.physTower tile i)).pass.isSome

/-- An engine may write all eight parts of ring row `ix` now. -/
def State.rowFree (s : State) (tile : Nat) (r : Ring) (ix : Nat) : Bool :=
  (List.range 8).all fun i => s.mayWrite tile r i ix && !s.towerBusy tile i

/-- The eight parts of ring row `ix` written by a producer. -/
def State.produceRow (s : State) (tile : Nat) (h : BitVec 4) (ix : Nat) (parts : List (List Byte)) : State :=
  (List.range 8).foldl (fun s i => s.producePart tile h i ix ((parts[i]?).getD (zeros 64))) s

/-! ### Descriptors (R241, R244, R268, R312) -/

structure Window where
  base : Nat
  typ : Nat
  dims : Nat
  offs : Int
  ext : List Nat
  str : List Int
  raddr : Nat
  rows : Nat
  cmpr : Bool
  graph : Nat
  table : Nat
  rowlen : Nat
deriving DecidableEq, Repr

def windowOf (d : Vector W64 18) : Window :=
  { base := (dsc d 0).toNat, typ := (dsc d 1).toNat, dims := (dsc d 2).toNat
    offs := ((dsc d 3).extractLsb' 0 48).toInt
    ext := [(dsc d 4).toNat, (dsc d 5).toNat, (dsc d 6).toNat, (dsc d 7).toNat]
    str := [((dsc d 8).extractLsb' 0 32).toInt, ((dsc d 9).extractLsb' 0 32).toInt,
            ((dsc d 10).extractLsb' 0 32).toInt, ((dsc d 11).extractLsb' 0 32).toInt]
    raddr := (dsc d 12).toNat, rows := (dsc d 13).toNat, cmpr := (dsc d 14).getLsbD 0, graph := (dsc d 15).toNat
    table := (dsc d 16).toNat, rowlen := (dsc d 17).toNat }

def Window.width (w : Window) : Nat := typeBits w.typ

/-- Elements of the window, or rows in compressed mode. -/
def Window.total (w : Window) : Nat := (w.ext.take w.dims).foldl (· * ·) 1

/-- Bit address of the first element (R242). -/
def Window.startBit (w : Window) : Int := 8 * (w.base : Int) + w.offs * w.width

/-- The limits on the source of a window: a descriptor that breaks them is an illegal operand. -/
def Window.sourceOk (w : Window) : Bool :=
  decide (1 ≤ w.dims) && decide (w.dims ≤ 4)
  && (w.ext.take w.dims).all (fun e => decide (1 ≤ e) && decide (e ≤ 2 ^ 24))
  && (w.ext.drop w.dims).all (· == 0) && (w.str.drop w.dims).all (· == 0)
  && decide (w.total ≤ 2 ^ 32) && decide (w.graph ≤ 1028) && w.table % 64 == 0
  && (if w.cmpr then w.dims == 1 && w.offs == 0 && w.str.headD 0 == 0 && w.rowlen == 0
      else !reservedType w.typ && (w.graph != 0 || (decide (1 ≤ w.rowlen) && decide (w.rowlen ≤ 512 / w.width))))
  && (w.graph == 0 || (w.dims == 1 && w.str.headD 0 == 1 && w.startBit % 32 == 0 && w.ext.headD 0 * w.width % 32 == 0))

/-- Ring rows of a window without a graph (R243, R244). -/
def Window.ringRows (w : Window) : Nat :=
  if w.cmpr then (w.total + 7) / 8 else (w.total + 8 * w.rowlen - 1) / (8 * w.rowlen)

/-- Bit address of element e in the order of R242. -/
def Window.bitOf (w : Window) (e : Nat) : Int :=
  let rec go : List Nat → List Int → Nat → Int
    | x :: xs, y :: ys, e => (e % x : Nat) * y + go xs ys (e / x)
    | _, _, _ => 0
  8 * (w.base : Int) + (w.offs + go (w.ext.take w.dims) w.str e) * w.width

/-! ### Reading a window (R242 to R245) -/

/-- Bytes that an element is read as: a nibble is one. -/
def Window.elemBytes (w : Window) : Nat := max 1 (w.width / 8)

/-- The bytes of an element from byte `off` on that lie in one single-copy atomic unit, a nibble as its value, and the size in bits of that unit. -/
def State.windowPiece (s : State) (t : Task) (want : Want) (w : Window) (e off : Nat) (counted : Bool) : Except MemFail (List Nat × Nat) × State :=
  let bit := w.bitOf e
  if bit < 0 then (.error (.prot 0), s)
  else
    let a := bit.toNat / 8 + off
    match s.translate t.xctx want a (min (w.elemBytes - off) (32 - a % 32)) with
    | (.error f, s') => (.error f.asMem, s')
    | (.ok sp, s') =>
      match s'.readSpans t want.unit [sp.unit] counted with
      | (.error f, s1) => (.error f, s1)
      | (.ok bs, s1) =>
        (.ok (if w.width = 4 then [leNat bs / 2 ^ (bit.toNat % 8) % 16] else bs.map (·.toNat), 8 * sp.place.unit), s1)

/-- The bytes of elements `e` and after, `n` in all, go on behind those read already; the engine may pause wherever the next byte lies in another
single-copy atomic unit (R255; log entry 81). -/
def State.windowBytes (t : Task) (want : Want) (w : Window) (e n : Nat) : Nat → List Nat → State → Except MemFail (List Nat) × State
  | 0, got, s => (.ok got, s)
  | fuel + 1, got, s =>
    if n ≤ got.length then (.ok got, s)
    else
      let bitAt (k : Nat) : Int := w.bitOf (e + k / w.elemBytes) + 8 * (k % w.elemBytes : Nat)
      let p := got.length
      match s.windowPiece t want w (e + p / w.elemBytes) (p % w.elemBytes) (p == 0 || bitAt p / 512 != bitAt (p - 1) / 512) with
      | (.error f, s') => (.error f, s')
      | (.ok (bs, unit), s') =>
        let q := p + bs.length
        let (pause, s1) := if bitAt (q - 1) / unit != bitAt q / unit then s'.choose else (false, s')
        if pause then (.ok (got ++ bs), s1) else State.windowBytes t want w e n fuel (got ++ bs) s1

/-- Bytes read for ring row j of a window: of its elements, or of run-form rows. -/
def Window.rowCount (w : Window) (j : Nat) : Nat :=
  if w.cmpr then 64 * min 8 (w.total - 8 * j) else min (8 * w.rowlen) (w.total - 8 * w.rowlen * j) * w.elemBytes

/-- The reading of ring row j goes on behind what is read of it. -/
def State.readRow (s : State) (t : Task) (want : Want) (w : Window) (j : Nat) (got : List Nat) : Except MemFail (List Nat) × State :=
  let n := w.rowCount j
  if w.cmpr then
    match State.readOn t want (w.base + 512 * j) n (unitFuel n) (got.map (BitVec.ofNat 8)) s with
    | (.error f, s') => (.error f, s')
    | (.ok bs, s') => (.ok (bs.map (·.toNat)), s')
  else State.windowBytes t want w (8 * w.rowlen * j) n n got s

/-- Elements cut into the eight rows of 64 B of a ring row, with zeros past their end (R243). -/
def cutRow (bits rowlen : Nat) (codes : List Nat) : List (List Byte) :=
  (List.range 8).map fun i => packBits bits ((codes.drop (rowlen * i)).take rowlen) 64

/-- The codes of the elements that bytes hold, low byte first. -/
def Window.codes (w : Window) (row : List Nat) : List Nat := (chunks w.elemBytes (row.length + 1) row).map fun g => g.foldr (fun b v => b + 256 * v) 0

/-- The eight parts of a ring row (R243, R244). -/
def Window.parts (w : Window) (row : List Nat) : List (List Byte) :=
  if w.cmpr then cutRow 8 64 row else cutRow w.width w.rowlen (w.codes row)

/-! ### The ends of a stream -/

/-- The ring of handle h on a tile changed. -/
def State.modRing (s : State) (tile : Nat) (h : BitVec 4) (f : Ring → Ring) : State :=
  s.onTile tile fun t => t.setRing h (f (t.ring h))

def State.modStream (s : State) (tile : Nat) (h : BitVec 4) (f : Stream → Stream) : State :=
  s.modRing tile h fun r => { r with stream := r.stream.map f }

/-- The stream of a ring ends with DONE; its contexts return to Loaded (R243, R266, R270). -/
def State.streamDone (s : State) (tile : Nat) (h : BitVec 4) (st : Stream) : State :=
  (s.leaveCtxs st 0).modRing tile h fun r => { r with done := true, stream := none }

/-- The stream stops with an error: ERR, RINGERR, and its contexts in state 4 (R240, R245, R270). -/
def State.streamError (s : State) (tile : Nat) (h : BitVec 4) (st : Stream) (kind errc : Nat) : State :=
  let s := if errc = 0 then s else s.leaveCtxs st errc
  s.onTile tile fun t => t.ringError h kind

/-- What a failed access does to a window without a graph (R245): none pauses it, a race is the fault of R317. -/
def State.windowFail (s : State) (tile : Nat) (h : BitVec 4) (st : Stream) : MemFail → State
  | .wait => s
  | .prot _ => s.streamError tile h st 3 0
  | .bad _ => s.streamError tile h st 4 0
  | .race i => (s.modRing tile h fun r => { r with stream := none }).engineFault tile .race i st.pc

/-- One ring row of a window without a graph, or a part of its reading, with DONE after the last, or after the row in flight of a flush
(R243, R255, R323). -/
def State.windowRow (s : State) (t : Task) (h : BitVec 4) (st : Stream) : State :=
  let tile := t.bnd.tile
  let w := windowOf st.desc
  let ix := st.first + st.next
  if !s.engineMay t .window || (st.next == 0 && s.tlbPending tile) || !s.rowFree tile (t.ring h) ix then s
  else match s.readRow t (engineRead (h.toNat + 1)) w st.next st.got with
    | (.error f, s') => s'.windowFail tile h st f
    | (.ok row, s') =>
      if row.length < w.rowCount st.next then s'.modStream tile h fun x => { x with got := row }
      else
        let s' := s'.produceRow tile h ix (w.parts row)
        if w.ringRows ≤ st.next + 1 || st.flush then s'.streamDone tile h st
        else s'.modStream tile h fun x => { x with next := st.next + 1, got := [] }

/-! ### Graph images (R261 to R263) -/

/-- Bits hi to lo of a little-endian byte list. -/
def bitsAt (bs : List Byte) (lo n : Nat) : Nat := leNat bs / 2 ^ lo % 2 ^ n

def nodeUsesB (op : Nat) : Bool := (1 ≤ op && op ≤ 13) || op == 16
def nodeStateful (op : Nat) : Bool := 17 ≤ op && op ≤ 19

def parseNode (bs : List Byte) : Node :=
  { op := bitsAt bs 0 6, srcA := bitsAt bs 8 6, srcB := bitsAt bs 16 6, lut := bitsAt bs 24 5
    imm := BitVec.ofNat 32 (bitsAt bs 32 32), xinit := BitVec.ofNat 32 (bitsAt bs 64 32)
    yinit := BitVec.ofNat 32 (bitsAt bs 96 32) }

/-- A source field of node i (R262, R263). -/
def sourceOk (i : Nat) (decode imm : Bool) (src : Nat) : Bool :=
  decide (src < i) || (src == 32 && !decode) || (src == 33 && decode) || (src == 34 && imm)

/-- The checks of R262 and R263 on node i. -/
def nodeOk (decode : Bool) (nlut outn i : Nat) (bs : List Byte) : Bool :=
  let n := parseNode bs
  bitsAt bs 6 2 == 0 && bitsAt bs 14 2 == 0 && bitsAt bs 22 2 == 0 && bitsAt bs 29 3 == 0
  && decide (n.op ≤ 19) && sourceOk i decode false n.srcA
  && (if nodeUsesB n.op then sourceOk i decode true n.srcB else n.srcB == 0)
  && (if n.op = 14 then decide (n.lut < nlut) else if n.op = 15 then decide (n.lut + 1 < nlut) else n.lut == 0)
  && (n.op != 19 || (i == outn && n.imm.extractLsb' 0 4 != 0#4))

/-- The length of the image that a header announces. -/
def imageLen (hd : List Byte) : Nat := 32 + 16 * bitsAt hd 40 6 + 256 * bitsAt hd 64 6

/-- A list cut into pieces of n. -/
def pieces (n : Nat) : Nat → List Byte → List (List Byte)
  | 0, _ => []
  | k + 1, l => l.take n :: pieces n k (l.drop n)

/-- The header's own checks. -/
def headerOk (hd : List Byte) : Bool :=
  let sink := bitsAt hd 53 2
  bitsAt hd 0 32 == 0x47524654 && bitsAt hd 32 8 == 1 && decide (1 ≤ bitsAt hd 40 6) && decide (bitsAt hd 40 6 ≤ 32)
  && bitsAt hd 46 2 == 0 && decide (bitsAt hd 48 5 < bitsAt hd 40 6) && sink != 3 && bitsAt hd 58 6 == 0
  && decide (bitsAt hd 64 6 ≤ 32) && bitsAt hd 70 2 == 0 && bitsAt hd 160 96 == 0
  && (if sink = 1 then bitsAt hd 72 56 % 4 == 0 && bitsAt hd 128 32 % 4 == 0
      else bitsAt hd 72 56 == 0 && bitsAt hd 128 32 == 0)
  && (sink == 0 || bitsAt hd 56 2 == 3)

/-- The graph of an image, or none when it is not valid (R263). -/
def parseImage (bs : List Byte) : Option Graph :=
  let nn := bitsAt bs 40 6
  let nlut := bitsAt bs 64 6
  let nodes := pieces 16 nn (bs.drop 32)
  let decode := bitsAt bs 55 1 == 1
  if headerOk bs && (nodes.mapIdx (fun i x => nodeOk decode nlut (bitsAt bs 48 5) i x)).all id then
    some { nodes := nodes.map parseNode, outn := bitsAt bs 48 5, sink := bitsAt bs 53 2, decode := decode
           outw := bitsAt bs 56 2, luts := pieces 256 nlut (bs.drop (32 + 16 * nn)), sinkAddr := bitsAt bs 72 56
           sinkLen := bitsAt bs 128 32 }
  else none

/-- A graph that keeps state (R263). -/
def Graph.stateful (g : Graph) : Bool := g.nodes.any (fun n => nodeStateful n.op) || g.decode || g.sink != 0

/-- Output element width in bits (R261). -/
def Graph.outBits (g : Graph) : Nat := 4 * 2 ^ g.outw

/-! ### Cell operations (R260, R262) -/

/-- FP16 in the fabric: nearest even, overflow to infinity, subnormals kept (R260). -/
def fp16Cx : NumCtx := { mode := 0, ovt := 0x10#64, flush := false }

/-- An FP16 operation on both halves of two words. -/
def halves (f : FVal → FVal → FVal × Flags) (a b : W32) : W32 :=
  let one (x y : Nat) : Nat := (convertTo fp16Cx 2 (f (decodeVal 2 x) (decodeVal 2 y)).1).1.toNat % 2 ^ 16
  BitVec.ofNat 32 (one (a.toNat % 2 ^ 16) (b.toNat % 2 ^ 16) + 2 ^ 16 * one (a.toNat / 2 ^ 16) (b.toNat / 2 ^ 16))

def lutByte (luts : List (List Byte)) (k b : Nat) : Nat := ((((luts[k]?).getD [])[b]?).getD 0#8).toNat

/-- The output of a stateless operation on valid words. -/
def cellOp (luts : List (List Byte)) (n : Node) (a b : W32) : Option W32 :=
  let sh := (b.extractLsb' 0 5).toNat
  match n.op with
  | 0 => some a
  | 1 => some (a + b)
  | 2 => some (a - b)
  | 3 => some (a * b)
  | 4 => some (a &&& b)
  | 5 => some (a ||| b)
  | 6 => some (a ^^^ b)
  | 7 => some (a <<< sh)
  | 8 => some (a >>> sh)
  | 9 => some (a.sshiftRight sh)
  | 10 => some (if b.slt a then b else a)
  | 11 => some (if a.slt b then b else a)
  | 12 => some (halves (addV 0) a b)
  | 13 => some (halves mulV a b)
  | 14 => some (BitVec.ofNat 32 (((List.range 4).map fun k => 2 ^ (8 * k) * lutByte luts n.lut (a.toNat / 2 ^ (8 * k) % 256)).sum))
  | 15 =>
    let i := 2 * (a.toNat % 256)
    let k := n.lut + i / 256
    some (BitVec.ofNat 32 (lutByte luts k (i % 256) + 256 * lutByte luts k (i % 256 + 1)))
  | 16 => if a = b then none else some a
  | _ => none

/-- A beat: 16 words, those absent invalid. -/
abbrev Beat := List (Option W32)

/-- A node on one beat: its words and its new X. FRAME's words are not bound to the 16 places; with an XINIT other than 0 it counts on
from there (log entry 98). -/
def evalNode (luts : List (List Byte)) (n : Node) (x : W32) (a b : Beat) : Beat × W32 :=
  match n.op with
  | 17 => a.foldl (fun (acc : Beat × W32) w => match w with
      | some v => (acc.1 ++ [some (acc.2 + v)], acc.2 + v)
      | none => (acc.1 ++ [none], acc.2)) ([], x)
  | 18 => a.foldl (fun (acc : Beat × W32) w => match w with
      | some _ => (acc.1 ++ [some acc.2], acc.2 + 1#32)
      | none => (acc.1 ++ [none], acc.2)) ([], x)
  | 19 => a.foldl (fun (acc : Beat × W32) w => match w with
      | some v =>
        let out := acc.1 ++ (if acc.2 = 0#32 then [some n.yinit] else []) ++ [some v]
        (out, if acc.2 + 1#32 = (n.imm.extractLsb' 0 4).zeroExtend 32 then 0#32 else acc.2 + 1#32)
      | none => acc) ([], x)
  | _ => ((a.zip b).map fun p => match p.1, p.2 with
      | some u, some v => cellOp luts n u v
      | some u, none => if nodeUsesB n.op then none else cellOp luts n u 0#32
      | _, _ => none, x)

/-- The beat that a source names. -/
def sourceBeat (done : List Beat) (input : Beat) (imm : W32) (src : Nat) : Beat :=
  if src = 34 then List.replicate 16 (some imm) else if 32 ≤ src then input else (done[src]?).getD []

/-- Every node in order: the beats of the nodes and the new X values. -/
def evalNodes (luts : List (List Byte)) (input : Beat) : List Node → List W32 → List Beat → List W32 → List Beat × List W32
  | [], _, done, xs => (done, xs)
  | n :: ns, xl, done, xs =>
    let (y, x') := evalNode luts n (xl.headD 0#32) (sourceBeat done input n.imm n.srcA)
      (if nodeUsesB n.op then sourceBeat done input n.imm n.srcB else [none, none, none, none, none, none, none, none,
        none, none, none, none, none, none, none, none])
    evalNodes luts input ns (xl.drop 1) (done ++ [y]) (xs ++ [x'])

/-- The valid output words of a beat, in order, and the new X values. -/
def Graph.run (g : Graph) (xs : List W32) (input : Beat) : List W32 × List W32 :=
  let (done, xs') := evalNodes g.luts input g.nodes xs [] []
  (((done[g.outn]?).getD []).filterMap id, xs')

/-- FRAME fills its last group at the stream's end (R262). -/
def Graph.fill (g : Graph) (xs : List W32) : List W32 :=
  match g.nodes[g.outn]? with
  | some n =>
    let x := ((xs[g.outn]?).getD 0#32).toNat
    if n.op = 19 && x != 0 then List.replicate ((n.imm.extractLsb' 0 4).toNat - x) (BitVec.allOnes 32) else []
  | none => []

/-! ### The code table and the decode cell (R271 to R273) -/

def codeCount (tab : List Byte) (l : Nat) : Nat := bitsAt tab (8 * (32 + 2 * (l - 1))) 16

/-- The conditions that R272 lists, with NSYM and NCODE in their ranges; what stands in SYM beyond NCODE is not judged, as the worked
decode of R273 shows. -/
def tableOk (tab : List Byte) : Bool :=
  let ncode := bitsAt tab 32 16
  let syms := (tab.drop 64).take ncode
  let lens := (List.range 16).map (· + 1)
  decide (1 ≤ bitsAt tab 0 32) && decide (1 ≤ ncode) && decide (ncode ≤ 256)
  && (tab.drop 6).take 26 == zeros 26
  && (lens.map (codeCount tab)).sum == ncode
  && decide ((lens.map fun l => codeCount tab l * 2 ^ (16 - l)).sum ≤ 2 ^ 16)
  && decide syms.Nodup

/-- What the decode cell finds at a bit: a symbol and the bit after it, no code or the end of the input, or the end of what is read. -/
inductive Symbol where
  | sym (v : W32) (bit : Nat)
  | malformed
  | short
deriving DecidableEq, Repr

/-- The symbol that starts at a bit of the input read, which ends at bit `limit` (R271 to R273): canonical codes of up to 16 bits, high bit first. -/
def symbolAt (tab bs : List Byte) (limit : Nat) : Nat → Nat → Nat → Nat → Nat → Nat → Symbol
  | 0, _, _, _, _, _ => .malformed
  | fuel + 1, bit, len, code, first, index =>
    if limit ≤ bit then .malformed
    else match bs[bit / 8]? with
      | none => .short
      | some b =>
        let code := 2 * code + (if b.getLsbD (7 - bit % 8) then 1 else 0)
        let n := codeCount tab len
        if code < first + n && first ≤ code then .sym (((tab[64 + index + (code - first)]?).getD 0#8).zeroExtend 32) (bit + 1)
        else symbolAt tab bs limit fuel (bit + 1) (len + 1) code (2 * (first + n)) (index + n)

/-- Up to `n` symbols, the bit after them, and what stands there where it is none. -/
def symbolsAt (tab bs : List Byte) (limit : Nat) : Nat → Nat → List W32 × Nat × Option Symbol
  | 0, bit => ([], bit, none)
  | n + 1, bit =>
    match symbolAt tab bs limit 16 bit 1 0 0 0 with
    | .sym v b => let (l, b', e) := symbolsAt tab bs limit n b; (v :: l, b', e)
    | e => ([], bit, some e)

/-! ### Beats of a stream's byte range (R268, R269) -/

/-- First byte and length in bytes of a graph window's range. -/
def Window.rangeStart (w : Window) : Nat := (w.startBit / 8).toNat
def Window.rangeLen (w : Window) : Nat := w.ext.headD 0 * w.width / 8

/-- Beats that cover the range. -/
def Window.beats (w : Window) : Nat :=
  (w.rangeStart + w.rangeLen + 63) / 64 - w.rangeStart / 64

/-- Why a stream stops: (KIND, ERRC), or the fault of a race. -/
inductive Stop where
  | wait
  | stop (kind errc : Nat)
  | race (info : W64)
deriving DecidableEq, Repr

/-- A read of a stream's input inside one beat: the controller that holds it and the bytes (R269, R270). A beat
that no controller holds stops it with codes of the model's choice (log entry 99). -/
def State.streamRead (s : State) (t : Task) (st : Stream) (stateful : Bool) (va n : Nat) : Except Stop (Nat × List Byte) × State :=
  match s.translate t.xctx (engineRead 0) va n with
  | (.error f, s') => (match f.asMem with
    | .wait => (.error .wait, s')
    | _ => (.error (.stop 3 10), s'))
  | (.ok sp, s') =>
    let g := channelOf (s'.storedAt sp.place)
    let named := (dsc st.desc 15).toNat
    let wrong := !sp.place.isLocal || (decide (named ≤ 1024) && g != (named - 1) / 4) || (stateful && !pteChl sp.pte)
    if s'.lockedSpans [sp] then (.error .wait, s'.queueAt t.bnd.tile (t.streamUnit st) [sp])
    else if wrong then (.error (.stop 2 3), s')
    else if s'.poisoned [sp] then (.error (.stop 4 11), s')
    else match s'.checkRace t.bnd.launch t.bnd.tile false [sp] with
      | .error i => (.error (.race i), s')
      | .ok s'' => (.ok (g, s''.tileBytes (some t.bnd.tile) sp.place n), s'')

/-- Beat k of the range as the fabric takes it, read in its two single-copy atomic units with a pause between them or without: the
controller, and the bytes read so far (R255, R268; log entry 81). -/
def State.streamBeat (s : State) (t : Task) (st : Stream) (stateful : Bool) (k : Nat) : Except Stop (Nat × List Byte) × State :=
  let w := windowOf st.desc
  let va := (w.rangeStart / 64 + k) * 64
  let got := st.got.map (BitVec.ofNat 8)
  if w.startBit < 0 then (.error (.stop 3 10), s)
  else if got.isEmpty then
    match s.streamRead t st stateful va 32 with
    | (.error f, s') => (.error f, s')
    | (.ok (g, lo), s') =>
      let (pause, s1) := s'.choose
      if pause then (.ok (g, lo), s1)
      else match s1.streamRead t st stateful (va + 32) 32 with
        | (.error f, s2) => (.error f, s2)
        | (.ok (_, hi), s2) => (.ok (g, lo ++ hi), s2)
  else match s.streamRead t st stateful (va + 32) 32 with
    | (.error f, s') => (.error f, s')
    | (.ok (g, hi), s') => (.ok (g, got ++ hi), s')

/-- The words of a beat that lie in the range; those outside it are invalid (R268). -/
def Window.beatWords (w : Window) (k : Nat) (bs : List Byte) : Beat :=
  let va := (w.rangeStart / 64 + k) * 64
  (List.range 16).map fun j =>
    if w.rangeStart ≤ va + 4 * j && va + 4 * j < w.rangeStart + w.rangeLen then
      some (BitVec.ofNat 32 (leNat ((bs.drop (4 * j)).take 4)))
    else none

/-- Address of the 32 B unit in which the decode cell's next bit lies. -/
def Stream.bitUnit (st : Stream) : Nat := ((windowOf st.desc).rangeStart + st.bitPos / 8) / 32 * 32

/-- A beat of symbols decoded from what is read, with more units read as it needs them and a pause after each or none: the symbols, the bits
they take and why the stream stops, if it does; or, where the beat waits, what is read of it (R255, R271; log entry 81). -/
def State.decodeBeat (t : Task) (st : Stream) : Nat → List Byte → State → Except (List Byte) (List W32 × Nat × List Byte × Option Stop) × State
  | 0, got, s => (.error got, s)
  | fuel + 1, got, s =>
    let w := windowOf st.desc
    let base := st.bitUnit
    let from_ := 8 * (w.rangeStart + st.bitPos / 8 - base) + st.bitPos % 8
    let (syms, to_, e) := symbolsAt st.table got (8 * (w.rangeStart + w.rangeLen - base)) (min 16 st.symLeft) from_
    let end_ (why : Option Stop) : Except (List Byte) (List W32 × Nat × List Byte × Option Stop) := .ok (syms, to_ - from_, got.drop (to_ / 256 * 32), why)
    if w.startBit < 0 then (end_ (some (.stop 3 10)), s)
    else if e != some .short then (end_ (e.map fun _ => .stop 1 1), s)
    else match s.streamRead t st true (base + got.length) 32 with
      | (.error .wait, s') => (.error got, s')
      | (.error why, s') => (end_ (some why), s')
      | (.ok (_, bs), s') =>
        let (pause, s1) := s'.choose
        if pause then (.error (got ++ bs), s1) else State.decodeBeat t st fuel (got ++ bs) s1

/-! ### Opening (R268 to R272) -/

/-- Checks of the opening that are made at once (R268 to R270). A decoding stream then waits for the decode cell, with its context still
in state 2 (R271). -/
def State.openGraph (s : State) (t : Task) (h : BitVec 4) (st : Stream) : State :=
  let tile := t.bnd.tile
  let w := windowOf st.desc
  let cs := st.ctxs
  let ready := cs.all fun c => (s.fabCtx c).state == 2 && (s.fabCtx c).launch == t.bnd.launch && (s.fabCtx c).tile == tile
  let graphs := cs.filterMap fun c => (s.fabCtx c).graph
  let wide := graphs.any fun g => g.sink == 0 && !(decide (1 ≤ w.rowlen) && decide (w.rowlen ≤ 512 / g.outBits))
  if !ready then s.onTile tile fun t => t.ringError h 2
  else if decide (1024 < w.graph) && graphs.any Graph.stateful then s.streamError tile h st 2 9
  else if wide then s.streamError tile h st 2 12
  else if graphs.any fun (g : Graph) => g.decode then s
  else (cs.foldl (fun s c => s.setFab c { s.fabCtx c with state := 3 }) s).modStream tile h fun x => { x with opened := true }

/-- A context with a decoding graph. -/
def FabCtx.decodes (x : FabCtx) : Bool := x.graph.any fun (g : Graph) => g.decode

/-- Another context holds the decode cell of a context's fabric: one that streams, or a stopped one not yet spilled (R271, R274). -/
def State.decodeBusy (s : State) (ctx : Nat) : Bool :=
  (List.range 4).any fun k =>
    let x := s.fabCtx (ctx / 4 * 4 + k)
    ctx % 4 != k && (x.state == 3 || x.state == 5) && x.decodes && !x.spilled

/-- A decoding stream that waits at its opening takes the decode cell once it is free; its context must still be bound by its task.
The context streams from then on (log entry 100). -/
def State.takeCell (s : State) (t : Task) (h : BitVec 4) (st : Stream) : State :=
  let c := st.ctxs.headD 0
  let x := s.fabCtx c
  if x.state != 2 || x.launch != t.bnd.launch || x.tile != t.bnd.tile then s.onTile t.bnd.tile fun t => t.ringError h 2
  else if s.decodeBusy c then s
  else (s.setFab c { x with state := 3 }).modStream t.bnd.tile h fun x => { x with opened := true }

/-- The code table of a decoding stream that has the decode cell (R272; log entries 99 and 100). -/
def State.openDecode (s : State) (t : Task) (h : BitVec 4) (st : Stream) : State :=
  let tile := t.bnd.tile
  match State.readOn t (engineRead (h.toNat + 1)) (windowOf st.desc).table 320 (unitFuel 320) (st.got.map (BitVec.ofNat 8)) s with
  | (.error .wait, s') => s'
  | (.error (.prot _), s') => s'.streamError tile h st 3 10
  | (.error (.bad _), s') => s'.streamError tile h st 4 11
  | (.error (.race i), s') => (s'.streamError tile h st 3 10).engineFault tile .race i st.pc
  | (.ok tab, s') =>
    if tab.length < 320 then s'.modStream tile h fun x => { x with got := tab.map (·.toNat) }
    else if tableOk tab then s'.modStream tile h fun x => { x with table := tab, symLeft := bitsAt tab 0 32, got := [] }
    else s'.streamError tile h st 2 7

/-! ### A near-bank unit's commands and their end (R276, R280, R281) -/

def State.nbu (s : State) (chan : Nat) : Nbu := tget .reset s.net.nbu chan
def State.setNbu (s : State) (chan : Nat) (u : Nbu) : State := { s with net := { s.net with nbu := tput chan u s.net.nbu } }

/-- The issuer of a command (R278). -/
def NbCmd.issuer (c : NbCmd) : Nat × Nat := (c.launch, c.tile)
def NbCmd.word (c : NbCmd) (k : Nat) : W32 := (c.words[k]?).getD 0#32

/-- The issuer's task. -/
def State.issuerTask (s : State) (c : NbCmd) : Option Task :=
  s.tasks.find? fun t => t.bnd.launch == c.launch && t.bnd.tile == c.tile

/-- The completion word's place: an aligned HBM word that the issuer may write. The request is that of a near-bank unit (its channel and 22) or
of a tile's port (23). -/
def State.donePlace (s : State) (agent unit : Nat) (c : NbCmd) : Except MemFail Span × State :=
  match s.issuerTask c with
  | none => (.error (.prot c.doneVa), s)
  | some t =>
    if c.doneVa % 8 ≠ 0 then (.error (.prot c.doneVa), s)
    else match s.translate t.xctx { read := true, write := true, amo := true } c.doneVa 8 with
      | (.error f, s') => (.error f.asMem, s')
      | (.ok sp, s') =>
        if sp.place.kind = 2 then (.error (.prot c.doneVa), s')
        else if s'.lockedSpans [sp] then (.error .wait, s'.queueAt agent unit [sp])
        else (.ok sp, s')

/-- A change of the completion word at its home. -/
def State.bumpDone (s : State) (sp : Span) (f : Nat → Nat) : State :=
  ((s.countBeats 2 [sp]).homeWrite sp.place (leBytes (f (leNat (s.homeBytes sp.place 8))) 8)).countBeats 3 [sp]

/-- The command leaves the unit. -/
def Nbu.finish (u : Nbu) (c : NbCmd) : Nbu :=
  { u with queue := u.queue.erase c, owner := none, upc := 0, spilled := u.spilled.filter fun a => a.1 != c.issuer }

/-- What a failed fabric packet does to its stream: ERRC = 8, and the stream, if it still runs, stops (R270, R281, R284). -/
def State.sinkRefused (s : State) (c : NbCmd) : State :=
  match c.stream with
  | none => s
  | some (h, id, ctx) =>
    match (s.taskOn c.tile).bind fun t => (t.ring h).stream with
    | some st =>
      if st.id = id then s.streamError c.tile h st 2 8
      else s.setFab ctx { s.fabCtx ctx with errc := 8 }
    | none =>
      if (s.fabCtx ctx).launch = c.launch ∧ (s.fabCtx ctx).tile = c.tile then s.setFab ctx { s.fabCtx ctx with errc := 8 } else s

/-- A command fails: FAIL, the issuer's later commands discarded, the fabric stream that fed it stopped, NBU_FAULT (R281). A packet that
fails before it has entered the queue leaves the unit as it is; while the page of the completion word is not present the failure waits. -/
def State.nbFail (s : State) (chan : Nat) (c : NbCmd) (row : W32) : State :=
  let go (s : State) : State :=
    let u := s.nbu chan
    let k := u.queue.idxOf c
    let u1 := if u.queue.contains c then u.finish c else u
    let s := s.setNbu chan { u1 with queue := u.queue.take k ++ (u.queue.drop (k + 1)).filter fun x => x.issuer != c.issuer }
    (s.sinkRefused c).nbuFault c.tile (c.word 0 ++ row) c.pc
  match s.donePlace chan 22 c with
  | (.ok sp, s') => go (s'.bumpDone sp fun v => v ||| 2 ^ 63)
  | (.error .wait, s') => s'
  | (.error _, s') => go s'

/-! ### Sinks (R270) -/

/-- Entries of a region in a queue may grow by one (R278). -/
def State.nbRoom (s : State) (chan region share : Nat) : Bool :=
  let q := (tget Nbu.reset s.net.nbu chan).queue
  decide (q.length < 16) && decide ((q.filter fun c => c.region == region).length < (16 * share + 255) / 256)

def State.nbPush (s : State) (chan : Nat) (c : NbCmd) : State :=
  let u := tget Nbu.reset s.net.nbu chan
  { s with net := { s.net with nbu := tput chan { u with queue := u.queue ++ [c] } s.net.nbu } }

/-- The near-bank share of a task's launch. -/
def State.nbShare (s : State) (t : Task) : Nat :=
  match s.launch? t.bnd.launch with
  | some l => l.eff.nbShare
  | none => 0

/-- A publication posted before operation `id` and not yet applied names entry `ix`, so the operation's write waits (R363). -/
def Task.pubHolds (t : Task) (id ix : Nat) : Bool :=
  t.eng.pubs.any fun p => decide (p.id < id) && decide (p.first ≤ ix) && decide (ix < p.first + p.n)

/-- The same for a span of a published page. -/
def Task.pubHoldsSpan (t : Task) (id : Nat) (sp : Span) : Bool :=
  ptePub sp.pte && t.pubHolds id (sp.pte.extractLsb' 12 12).toNat

/-- A word of a DRAM sink written at its home on behalf of the opening task. -/
def State.sinkWord (s : State) (t : Task) (st : Stream) (g : Graph) (v : W32) (k : Nat) : Except Stop Unit × State :=
  if g.sinkLen < 4 * k + 4 then (.error (.stop 2 4), s)
  else
    let va := g.sinkAddr + 4 * k
    match s.translate t.xctx (engineStore 0) va 4 with
    | (.error f, s') => (match f.asMem with
      | .wait => (.error .wait, s')
      | _ => (.error (.stop 3 10), s'))
    | (.ok sp, s') =>
      if t.pubHoldsSpan st.id sp || s'.lockedSpans [sp] || !s'.portFree t.bnd.tile then (.error .wait, s'.queueAt t.bnd.tile (t.streamUnit st) [sp])
      else if sp.place.kind != 0 || !pteChl sp.pte || channelOf sp.place.addr != st.ctxs.headD 0 / 4 then (.error (.stop 2 3), s')
      else match s'.checkRace t.bnd.launch t.bnd.tile true [sp] with
        | .error i => (.error (.race i), s')
        | .ok s'' =>
          let s2 := s''.performWrite 1#2 { tile := t.bnd.tile, place := sp.place, bytes := leBytes v.toNat 4, dev := false, launch := t.bnd.launch }
          (.ok (), if k = 0 || va % 64 = 0 then s2.countBeats 3 [sp] else s2)

/-- Words written to a DRAM sink until one fails or waits: the words left, and why. -/
def State.sinkWords (t : Task) (st : Stream) (g : Graph) : State → List W32 → Nat → List W32 × Nat × Option Stop × State
  | s, [], k => ([], k, none, s)
  | s, v :: l, k =>
    match s.sinkWord t st g v k with
    | (.error f, s') => (v :: l, k, some f, s')
    | (.ok _, s') => State.sinkWords t st g s' l (k + 1)

/-- A ring row of output elements (R243 at w = OUTW). -/
def outParts (bits rowlen : Nat) (words : List W32) : List (List Byte) := cutRow bits rowlen (words.map (·.toNat))

/-- What a stopped access does to a graph stream; the codes of a race are the model's choice (R369; log entry 99). -/
def State.applyStop (s : State) (tile : Nat) (h : BitVec 4) (st : Stream) : Stop → State
  | .wait => s
  | .stop k e => s.streamError tile h st k e
  | .race i => (s.streamError tile h st 3 10).engineFault tile .race i st.pc

/-- A packet of a stream waits for an entry of its queue; a wait of more than 200 µs is logged (R282). -/
def State.packetWaits (s : State) (tile : Nat) (h : BitVec 4) (st : Stream) : State :=
  match st.heldFrom with
  | none => s.modStream tile h fun x => { x with heldFrom := some s.clk.tick }
  | some t =>
    if !st.heldLogged && decide (t + 200 * Config.dcPerUs < s.clk.tick) then
      (s.modStream tile h fun x => { x with heldLogged := true }).logEvent 282 tile
    else s

/-- Delivers what it can of the output held; `last` when no further words will come. The answer says whether nothing is
left to deliver. A command packet carries the DONE register as it stands here (R280; log entry 101). -/
def State.sinkStep (s : State) (t : Task) (h : BitVec 4) (st : Stream) (g : Graph) (last : Bool) : Bool × State :=
  let tile := t.bnd.tile
  let w := windowOf st.desc
  match g.sink with
  | 0 =>
    let n := 8 * w.rowlen
    let ix := st.first + st.outCount / n
    if n ≤ st.out.length || (last && st.fail.isNone && !st.out.isEmpty) then
      if s.rowFree tile (t.ring h) ix then
        let s := s.produceRow tile h ix (outParts g.outBits w.rowlen (st.out.take n))
        if st.flush then (false, s.streamDone tile h st)
        else (false, s.modStream tile h fun x => { x with out := x.out.drop n, outCount := x.outCount + n })
      else (false, s)
    else (true, s)
  | 1 =>
    if st.out.isEmpty then (true, s)
    else
      let (left, k, why, s') := State.sinkWords t st g s st.out st.outCount
      let s' := s'.modStream tile h fun x => { x with out := left, outCount := k }
      match why with
      | none => (false, s')
      | some f => (false, s'.applyStop tile h st f)
  | _ =>
    if st.out.length < 8 then
      if last && st.fail.isNone && !st.out.isEmpty then (false, s.streamError tile h st 2 4) else (true, s)
    else
      let chan := st.ctxs.headD 0 / 4
      let share := s.nbShare t
      let ws := st.out.take 8
      let c : NbCmd := { launch := t.bnd.launch, tile := tile, region := t.bnd.region
                         words := Vector.ofFn fun (i : Fin 8) => (ws[i.val]?).getD 0#32
                         doneVa := (t.eng.nb[2]).toNat, pc := st.pc, stream := some (h, st.id, st.ctxs.headD 0) }
      if share = 0 then (false, s.nbFail chan c 0xFFFFFFFF#32)
      else if s.nbRoom chan t.bnd.region share then
        (false, (s.nbPush chan c).modStream tile h fun x => { x with out := x.out.drop 8, heldFrom := none, heldLogged := false })
      else (false, s.packetWaits tile h st)

/-- Nothing more will enter the graph. -/
def Stream.inputDone (st : Stream) (g : Graph) : Bool :=
  st.fail.isSome || (if g.decode then st.symLeft == 0 else decide ((windowOf st.desc).beats ≤ st.next))

/-- Input beats taken, on a context's counter, and read from DRAM (R267, R426). -/
def State.tookBeats (s : State) (c n : Nat) : State :=
  let k := n - (s.fabCtx c).beats
  ((s.setFab c { s.fabCtx c with beats := n % 2 ^ 32 }).countChan (c / 4) 8 k).beats (c / 4) 2 k

/-- One beat taken through the graph (R258, R269 to R271). -/
def State.takeBeat (s : State) (t : Task) (h : BitVec 4) (st : Stream) (g : Graph) : State :=
  let tile := t.bnd.tile
  if g.decode then
    let c := st.ctxs.headD 0
    let w := windowOf st.desc
    match State.decodeBeat t st 4 (st.got.map (BitVec.ofNat 8)) s with
    | (.error got, s') => s'.modStream tile h fun x => { x with got := got.map (·.toNat) }
    | (.ok (syms, n, got, why), s') =>
      let bit := st.bitPos + n
      let beat : Beat := syms.map some ++ List.replicate (16 - syms.length) none
      let (ws, xs) := g.run (s'.fabCtx c).x beat
      let s' := s'.setFab c { s'.fabCtx c with x := xs }
      let s' := s'.tookBeats c ((w.rangeStart % 64 * 8 + bit + 511) / 512)
      match why with
      | some (.race i) => s'.applyStop tile h st (.race i)
      | _ =>
        s'.modStream tile h fun x => { x with
          out := x.out ++ ws, bitPos := bit, symLeft := x.symLeft - syms.length, got := got.map (·.toNat)
          fail := match why with
            | some (.stop k e) => some (k, e)
            | _ => x.fail }
  else
    match s.streamBeat t st g.stateful st.next with
    | (.error (.stop k e), s') => s'.modStream tile h fun x => { x with fail := some (k, e) }
    | (.error f, s') => s'.applyStop tile h st f
    | (.ok (ctl, bs), s') =>
      if bs.length < 64 then s'.modStream tile h fun x => { x with got := bs.map (·.toNat) }
      else
      let beat := (windowOf st.desc).beatWords st.next bs
      let named := (dsc st.desc 15).toNat
      let c := if named ≤ 1024 then named - 1 else 4 * ctl + (named - 1025)
      let g' := ((s'.fabCtx c).graph).getD g
      let (ws, xs) := g'.run (s'.fabCtx c).x beat
      let s' := s'.setFab c { s'.fabCtx c with x := xs }
      let s' := s'.tookBeats c ((s'.fabCtx c).beats + 1)
      s'.modStream tile h fun x => { x with out := x.out ++ ws, next := x.next + 1, got := [] }

/-- FRAME's last group, once (R262). -/
def State.frameFill (s : State) (t : Task) (h : BitVec 4) (st : Stream) (g : Graph) : State :=
  let c := st.ctxs.headD 0
  let f := g.fill (s.fabCtx c).x
  (s.setFab c { s.fabCtx c with x := (s.fabCtx c).x.map fun _ => 0#32 }).modStream t.bnd.tile h fun x => { x with out := x.out ++ f }

/-- The graph that a stream's words are cut by. -/
def State.streamGraph (s : State) (st : Stream) : Option Graph := (s.fabCtx (st.ctxs.headD 0)).graph

/-- Groups of 16 input beats begun, and those finished: of memory beats, or, with the decode cell, of the beats that hold the bits it has
read (R274). -/
def Stream.groups (st : Stream) (g : Graph) : Nat × Nat :=
  let pos := if g.decode then (windowOf st.desc).rangeStart % 64 * 8 + st.bitPos else 512 * st.next
  ((pos + 8191) / 8192, pos / 8192)

/-- A stop, or the end of its launch, holds a stream that has finished the group it was in (R274, R381, R388). -/
def State.heldAtGroup (s : State) (t : Task) (st : Stream) (g : Graph) : Bool :=
  (st.cutting || (s.launch? t.bnd.launch).any fun l => l.phase == .stopping) && decide (st.stopIn ≤ (st.groups g).2)

/-- One step of a graph stream: delivery of held output, else one beat, else FRAME's fill. -/
def State.graphMove (s : State) (t : Task) (h : BitVec 4) (st : Stream) : State :=
  match s.streamGraph st with
  | none => s
  | some g =>
    if !s.engineMay t .fabric || (s.tlbPending t.bnd.tile && st.next == 0 && st.bitPos == 0) then s
    else if !st.opened then s.takeCell t h st
    else if st.ctxs.any fun c => (s.fabCtx c).state != 3 then s
    else if st.ctxs.any fun c => (s.fabCtx c).spilled then
      if g.decode && s.decodeBusy (st.ctxs.headD 0) then s
      else st.ctxs.foldl (fun s c => s.setFab c { s.fabCtx c with spilled := false }) s
    else if g.decode && st.table.isEmpty then s.openDecode t h st
    else
      let fill := g.fill (s.fabCtx (st.ctxs.headD 0)).x
      let last := st.inputDone g && (fill.isEmpty || st.fail.isSome)
      match s.sinkStep t h st g last with
      | (false, s') => s'
      | (true, s') =>
        if s.heldAtGroup t st g then s'
        else if !st.inputDone g then s'.takeBeat t h st g
        else if !fill.isEmpty && st.fail.isNone then s'.frameFill t h st g
        else s'

/-- A stream whose launch has ended: once it stands at the end of its group and has delivered that group's words, or cannot go on, it is
discarded (R381, R388). -/
def State.cutStep (s : State) (t : Task) (h : BitVec 4) (st : Stream) : State :=
  let st1 := match s.streamGraph st with
    | some g => if st.stopIn = 0 then { st with stopIn := (st.groups g).1 } else st
    | none => st
  let s1 := s.modStream t.bnd.tile h fun _ => st1
  let s2 := s1.graphMove t h st1
  if ((s2.taskOn t.bnd.tile).bind fun u => (u.ring h).stream) == some st1 then
    (s2.leaveCtxs st1 0).modRing t.bnd.tile h fun r => { r with stream := none }
  else s2

/-- One step of a graph stream, or of what the end of its launch leaves of it. -/
def State.graphStep (s : State) (t : Task) (h : BitVec 4) (st : Stream) : State :=
  if st.cutting then s.cutStep t h st else s.graphMove t h st

/-- The end of a graph stream: DONE, or the error that stopped it, once nothing is left to deliver (R266, R270). -/
def State.graphEnd (s : State) (t : Task) (h : BitVec 4) (st : Stream) : State :=
  match s.streamGraph st with
  | none => s
  | some g =>
    let fill := g.fill (s.fabCtx (st.ctxs.headD 0)).x
    let n := if g.sink = 0 then 8 * (windowOf st.desc).rowlen else if g.sink = 1 then 1 else 8
    if !s.engineMay t .fabric || !st.opened || (g.decode && st.table.isEmpty) || !st.inputDone g then s
    else match st.fail with
      | some (k, e) => if st.out.length < n then s.streamError t.bnd.tile h st k e else s
      | none => if st.out.isEmpty && fill.isEmpty then s.streamDone t.bnd.tile h st else s

/-- A stop lets the stream finish the group of 16 input beats that it is in (R274, R388). -/
def State.markGroup (s : State) (tile : Nat) (h : BitVec 4) (st : Stream) : State :=
  match s.streamGraph st with
  | none => s
  | some g => s.modStream tile h fun x => { x with stopIn := (st.groups g).1 }

/-- The stream stands where a stop may take it: its group is finished, nothing more will enter, or it cannot go on and waits. -/
def State.fabMayStop (s : State) (t : Task) (h : BitVec 4) (st : Stream) : Bool :=
  match s.streamGraph st with
  | none => true
  | some g =>
    decide (st.stopIn ≤ (st.groups g).2) || st.inputDone g
    || (((s.graphStep t h st).taskOn t.bnd.tile).bind fun u => (u.ring h).stream) == some st

/-! ### FLOAD and FBIND at the controller (R265, R266) -/

/-- The contexts that a request names. -/
def FbReq.ctxs (q : FbReq) : List Nat :=
  if q.chan = 256 then (List.range 256).map fun g => 4 * g + q.ctx else [4 * q.chan + q.ctx]

/-- A context that a load may change (R265). -/
def FabCtx.loadable (x : FabCtx) : Bool := x.state == 0 || x.state == 1 || x.state == 4

/-- A graph loaded, or refused, at one context; no task has bound it then. -/
def FabCtx.load (x : FabCtx) (img : Option Graph) : FabCtx :=
  if x.loadable then
    match img with
    | some g => { x with state := 1, errc := 0, cells := 0, graph := some g, x := [], launch := 0, tile := 0 }
    | none => { x with state := 0, errc := 2, cells := 0, graph := none, x := [], launch := 0, tile := 0 }
  else { x with errc := 6 }

/-- What the reading of an image has come to: the bytes so far, or its graph, if it is one. -/
inductive ImageRead where
  | part (got : List Byte)
  | whole (g : Option Graph)
deriving DecidableEq, Repr

/-- The image at an address, its header, then the rest, behind what is read of it already. -/
def State.readImage (s : State) (t : Task) (va : Nat) (got : List Byte) : Except MemFail ImageRead × State :=
  match State.readOn t (engineRead 19) va 32 (unitFuel 32) got s with
  | (.error f, s') => (.error f, s')
  | (.ok hd, s') =>
    if hd.length < 32 then (.ok (.part hd), s')
    else if headerOk hd then
      match State.readOn t (engineRead 19) va (imageLen hd) (unitFuel (imageLen hd)) hd s' with
      | (.error f, s'') => (.error f, s'')
      | (.ok bs, s'') => (.ok (if bs.length < imageLen hd then .part bs else .whole (parseImage bs)), s'')
    else (.ok (.whole none), s')

/-- Cells claimed in a fabric (R266). -/
def State.cellsUsed (s : State) (fabric : Nat) : Nat :=
  ((List.range 4).map fun c =>
    let x := s.fabCtx (4 * fabric + c)
    if x.state = 2 ∨ x.state = 3 ∨ x.state = 5 then x.cells else 0).sum

/-- Contexts that count against a region's budget: those that launches of the region or of its subtree have bound, until they retire; a
launch that is to bind further ones counts with them (R13, R266). -/
def State.ctxsOf (s : State) (region : Nat) (id : Nat) (more : List Nat) : Nat :=
  (s.sched.launches.map fun l =>
    if l.eff.chain.any fun e => e.1 == region then
      ((if l.id = id then more else []).foldl (fun b c => insertNat c b) l.ctxBound).length
    else 0).sum

/-- The budgets of the issuer's region and its ancestors let the contexts be bound (R266). -/
def State.fabBudget (s : State) (t : Task) (cs : List Nat) : Bool :=
  match s.launch? t.bnd.launch with
  | none => true
  | some l => l.eff.chain.all fun e => decide (s.ctxsOf e.1 l.id cs ≤ e.2.2.2)

/-- A context bound, or refused, for a task; one over both limits is refused for the budget (R266; log entry 97). -/
def State.bindCtx (s : State) (t : Task) (c : Nat) (budget : Bool) : State :=
  let x := s.fabCtx c
  match x.graph with
  | some g =>
    if x.state ≠ 1 then s.setFab c { x with errc := if x.state = 4 then 2 else 6 }
    else if !budget then s.setFab c { x with errc := 13 }
    else if 32 < s.cellsUsed (c / 4) + g.nodes.length then s.setFab c { x with errc := 5 }
    else
      (s.setFab c { x with state := 2, errc := 0, cells := g.nodes.length, beats := 0, tile := t.bnd.tile, launch := t.bnd.launch
                           x := g.nodes.map (·.xinit), spilled := false }).modLaunch t.bnd.launch fun l =>
        { l with ctxBound := insertNat c l.ctxBound }
  | none => s.setFab c { x with errc := if x.state = 2 ∨ x.state = 3 ∨ x.state = 5 then 6 else 2 }

/-- The context status word (R267). -/
def FabCtx.status (x : FabCtx) : W64 :=
  BitVec.ofNat 64 (x.beats % 2 ^ 32 * 2 ^ 32 + x.cells % 64 * 2 ^ 8 + x.errc % 16 * 2 ^ 4 + x.state % 8)

end Sys2Proof.Machine
end

