-- ==== Sys2Proof/Machine/SlotE.lean ====
section
/-! DEFINITION. The engine slot (R310 to R345, R362, R365, R408, R414): engine registers, open counts, windows and rings,
broadcast columns, the matrix unit's starts, the express port, the bulk copier, the fabric and near-bank ports, signals,
refresh, barriers, publications, trace and fix. A start copies its registers into an operation record; the engines' own
events carry the operation out. -/

namespace Sys2Proof.Machine

/-! ### Engine registers (R311 to R314) -/

/-- Registers that an engine's map holds, with the mask of their writable bits; the index says which (R312, R313). -/
def engineMasks (e : Nat) : List Nat :=
  let a56 := 2 ^ 56 - 1
  if e < 16 then
    [a56, 0xF, 0x7, 2 ^ 48 - 1, 2 ^ 25 - 1, 2 ^ 25 - 1, 2 ^ 25 - 1, 2 ^ 25 - 1, 2 ^ 32 - 1, 2 ^ 32 - 1, 2 ^ 32 - 1,
     2 ^ 32 - 1, 0xFFFF, 0xFFFF, 0x1, 0x7FF, a56, 0x3FF]
  else match e with
    | 16 => [0x3, 0x3FF, 0x7, 0xF, 0xF, 0xF, 0xFFFF, 0xFFFF, 0x3, 0x7, 0xF, 0x77]
    | 17 => [0x1F1F, 0xF, 0xFFFF]
    | 18 => [a56, 0x1F1F, 0xFF, 0xFFFF, 0xFFFF]
    | 19 => [a56, a56, 2 ^ 32 - 1, 0x1FFF]
    | 20 => [0x1FF, 0x3, a56]
    | 21 => [0xFF, 0, a56]
    | _ => []

/-- NB CMDQ is the one RO register (R313). -/
def engineRo (e i : Nat) : Bool := e == 21 && i == 1

/-- Entries of NB CHAN's queue that hold this task's commands (R313). -/
def State.cmdqHeld (s : State) : Nat :=
  ((tget Nbu.reset s.net.nbu (s.cur.eng.nb[0]).toNat).queue.filter fun c =>
    c.launch == s.cur.bnd.launch && c.tile == s.cur.bnd.tile).length

/-- The value of an engine register as bundles of this cycle see it. -/
def State.engineReg (s : State) (e i : Nat) : W64 :=
  let pick {n : Nat} (v : Vector W64 n) : W64 := (v[i]?).getD 0#64
  if e < 16 then pick (s.cur.ring (BitVec.ofNat 4 e)).desc
  else match e with
    | 16 => pick s.cur.eng.mu
    | 17 => pick s.cur.eng.xp
    | 18 => pick s.cur.eng.bc
    | 19 => pick s.cur.eng.dm
    | 20 => pick s.cur.eng.fb
    | _ => if i = 1 then BitVec.ofNat 64 s.cmdqHeld else pick s.cur.eng.nb

def execNopE (s : State) : Out := .next s

def execEset (e a i : BitVec 5) (s : State) : Out :=
  let v := s.sreg a
  .next (match (engineMasks e.toNat)[i.toNat]? with
    | none => s.illegal 3
    | some m =>
      if engineRo e.toNat i.toNat then s.illegal 3
      else if v &&& ~~~(BitVec.ofNat 64 m) != 0#64 then s.illegal 3
      else s.land 3 1 (.engine e i v))

def execEget (e a i : BitVec 5) (s : State) : Out :=
  .next (if (engineMasks e.toNat).length ≤ i.toNat then s.illegal 3
    else s.land 3 2 (.sreg a (s.engineReg e.toNat i.toNat)))

/-! ### Open counts and waits (R315, R316) -/

/-- C_e and O_e. -/
def openLimit (e : Nat) : Nat := if e = 16 ∨ e = 18 ∨ e = 19 then 2 else 4
def Engines.opens (g : Engines) (e : Nat) : Nat :=
  match e with
  | 16 => g.oMu
  | 17 => g.oXp
  | 18 => g.oBc
  | 19 => g.oDm
  | 20 => g.oFb
  | _ => g.oNb
def Engines.setOpens (g : Engines) (e n : Nat) : Engines :=
  match e with
  | 16 => { g with oMu := n }
  | 17 => { g with oXp := n }
  | 18 => { g with oBc := n }
  | 19 => { g with oDm := n }
  | 20 => { g with oFb := n }
  | _ => { g with oNb := n }

/-- A starting instruction: the open count is judged first, and rises when the start is accepted (R315). -/
def State.start (s : State) (e : Nat) (act : State → State) : State :=
  if openLimit e ≤ s.cur.eng.opens e then s.illegal 3
  else
    let s' := act s
    if s'.cur.seq.lastFault.isSome then s' else s'.modEng fun g => g.setOpens e (g.opens e + 1)

/-- A sequence number for an operation of the task. -/
def State.nextId (s : State) : Nat := s.cur.eng.opSeq

def execEwait (e : BitVec 5) (n : BitVec 3) (s : State) : Out :=
  .next (if 22 ≤ e.toNat then s.illegal 3
    else if e.toNat < 16 then (if n = 0#3 then s.addWait (.engine e 0) else s.illegal 3)
    else if openLimit e.toNat ≤ n.toNat then s.illegal 3
    else s.addWait (.engine e n.toNat))

/-! ### Operation records of the matrix unit (R313, R314, R327, R328) -/

/-- Fields of the MU registers. -/
def muSel (g : Vector W64 12) : Nat := (g[0]).toNat
def muK (g : Vector W64 12) : Nat := 64 * ((g[1]).toNat + 1)
def muZpt (g : Vector W64 12) : Bool := (g[2]).getLsbD 2
def muTrb (g : Vector W64 12) : Bool := (g[2]).getLsbD 1
def muTra (g : Vector W64 12) : Bool := (g[2]).getLsbD 0
def muGroup (g : Vector W64 12) : Nat := 32 * 2 ^ (g[8]).toNat
def muM (g : Vector W64 12) : Nat := 64 * (((g[11]).extractLsb' 4 3).toNat + 1)
def muBatch (g : Vector W64 12) : Nat := ((g[11]).extractLsb' 0 3).toNat + 1
def muHandle (g : Vector W64 12) (i : Nat) : BitVec 4 := ((g[i]?).getD 0#64).extractLsb' 0 4

def MuOp.fmtField (o : MuOp) (lo n : Nat) : Nat := (o.fmt.extractLsb' lo n).toNat
def MuOp.typeA (o : MuOp) : Nat := o.fmtField 0 4
def MuOp.typeB (o : MuOp) : Nat := o.fmtField 4 4
def MuOp.dstt (o : MuOp) : Nat := o.fmtField 8 4
def MuOp.acct (o : MuOp) : Nat := o.fmtField 12 4
/-- Chunk size of R155: 16, or the block size. -/
def MuOp.chunk (o : MuOp) : Nat := if muSel o.regs = 1 then 8 * 2 ^ o.fmtField 20 4 else 16
/-- Rounding of the accumulator: mode 0 under the operation's OVT and F (R155, R146). -/
def MuOp.cx (o : MuOp) : NumCtx := { mode := 0, ovt := o.ovt, flush := o.flush }

/-- Bank flags IV, OF, UF, IX from arithmetic flags. -/
def bankFlags (f : Flags) : BitVec 5 :=
  0#1 ++ (f.extractLsb' 4 1) ++ (f.extractLsb' 3 1) ++ (f.extractLsb' 2 1) ++ (f.extractLsb' 0 1)

/-- Scales of a group: 64 for MMA, M for MMV. -/
def MuOp.scales (o : MuOp) : Nat := if o.kind == .mmv then muM o.regs else 64

/-- Ring rows of a group's scales and zero points. -/
def MuOp.groupRows (o : MuOp) : Nat := (2 * o.scales + (if muZpt o.regs then o.scales / 2 else 0) + 511) / 512

/-- Groups that begin in a k-step. -/
def MuOp.newGroups (o : MuOp) : Nat :=
  let g := muGroup o.regs
  if g = 32 then 2 else if g = 64 then 1 else if o.step % 2 = 0 then 1 else 0

/-- Side-stream rows of a k-step. -/
def MuOp.sideRows (o : MuOp) : Nat :=
  match muSel o.regs with
  | 1 => if o.fmtField 20 4 = 0 then 2 else 1
  | 2 => o.newGroups * o.groupRows
  | _ => 0

/-- Rows of operand A, of operand B and of the side stream that the next k-step needs in the buffers. -/
def MuOp.need (o : MuOp) : Nat × Nat × Nat :=
  match o.kind with
  | .mma => (typeBits o.typeA, typeBits o.typeB, o.sideRows)
  | .mmv => (muM o.regs / 64 * typeBits o.typeA, 0, o.sideRows)
  | .mldb => (0, (muBatch o.regs * muK o.regs * typeBits o.typeB + 4095) / 4096, 0)
  | _ => (0, 0, 0)

/-- K-steps of the operation. -/
def MuOp.steps (o : MuOp) : Nat :=
  match o.kind with
  | .mma | .mmv => muK o.regs / 64
  | .mldb => 1
  | _ => 0

/-- Rows that a buffer still lacks. -/
def missing (need : Nat) (buf : List Byte) : Nat := need - buf.length / 512

/-- Rows that the operation has still to read from the ports of A, of B and of the side stream. -/
def MuOp.left (o : MuOp) : Nat × Nat × Nat :=
  let (a, b, c) := o.need
  (List.range (o.steps - (o.step + 1))).foldl (fun r k =>
    let (x, y, z) := { o with step := o.step + 1 + k }.need
    (r.1 + x, r.2.1 + y, r.2.2 + z)) (missing a o.bufA, missing b o.bufB, missing c o.side)

/-- An operation at work still reads the handle: not all rows of an operand port of it are in. -/
def MuOp.reads (o : MuOp) (h : BitVec 4) : Bool :=
  let (a, b, c) := o.left
  o.begun && o.readyAt.isNone && ((muHandle o.regs 3 == h && a != 0) || (muHandle o.regs 4 == h && b != 0) || (muHandle o.regs 5 == h && c != 0))

/-! ### Tiles of a launch -/

/-- The tile of the launch at (X, Y), in the issuer's own grid. -/
def State.tileAt (s : State) (launch x y : Nat) : Option Nat :=
  (s.tasks.find? fun t => t.bnd.launch == launch && t.bnd.tx == x && t.bnd.ty == y).map (·.bnd.tile)

/-- The tile that a shift goes to, with the wrap policy at the edge (R307). -/
def State.shiftTarget (s : State) (b : Bind) (dir : Nat) : Option Nat :=
  let (x, y) := match dir with
    | 0 => ((b.tx + 1) % b.w, b.ty)
    | 1 => ((b.tx + b.w - 1) % b.w, b.ty)
    | 2 => (b.tx, (b.ty + 1) % b.h)
    | _ => (b.tx, (b.ty + b.h - 1) % b.h)
  s.tileAt b.launch x y

/-! ### Windows and rings (R318 to R323) -/

/-- The address of the first row of a binding outside the leased tile rows, in cluster 0 (R288); of a binding of no row that of RADDR (log
entry 85). -/
def bindInfo (lease raddr rows : Nat) : W64 :=
  BitVec.ofNat 64 (64 * ((if rows = 0 then raddr else max raddr (leasedTileRows lease)) % 65536))

/-- The limits on ROWS that a window's descriptor must keep (R241). -/
def ringOperandsOk (w : Window) : Bool := decide (1 ≤ w.rows) && decide (w.rows ≤ 65535)

/-- A window attached to a ring as its producer (R318). -/
def State.attach (s : State) (h : BitVec 4) : State :=
  let r := s.cur.ring h
  let st : Stream := { id := s.nextId, desc := r.desc, first := r.prod, next := 0, pc := s.cur.seq.pc, flush := false,
                       opened := false, table := [], bitPos := 0, symLeft := 0, out := [], outCount := 0, fail := none }
  let s := s.modEng fun g => { g with opSeq := g.opSeq + 1 }
  let s := { s with cur := s.cur.setRing h { r with cmpr := (windowOf r.desc).cmpr, pkind := 1, done := false, err := false,
                                                    stream := some st } }
  if st.ctxs.isEmpty then s else s.openGraph s.cur h st

def execWopen (h : BitVec 4) (s : State) : Out :=
  let r := s.cur.ring h
  let w := windowOf r.desc
  .next (if !ringOperandsOk w || !w.sourceOk then s.illegal 3
    else if !bindOk s.cur.bnd.lease w.raddr w.rows then s.raise 3 .towerRange (bindInfo s.cur.bnd.lease w.raddr w.rows)
    else if r.bound then s.raise 3 .ringMisuse 0#64
    else ({ s with cur := s.cur.setRing h (r.bind w.raddr w.rows w.cmpr 0) } : State).attach h)

def execWopenBind (h : BitVec 4) (s : State) : Out :=
  let r := s.cur.ring h
  let w := windowOf r.desc
  .next (if !bindOk s.cur.bnd.lease w.raddr w.rows then s.raise 3 .towerRange (bindInfo s.cur.bnd.lease w.raddr w.rows)
    else if r.bound then s.raise 3 .ringMisuse 0#64
    else { s with cur := s.cur.setRing h (r.bind w.raddr w.rows w.cmpr 0) })

def execWopenKeep (h : BitVec 4) (s : State) : Out :=
  let r := s.cur.ring h
  .next (if !(windowOf r.desc).sourceOk then s.illegal 3
    else if !r.bound || (r.pkind != 0 && !r.done) then s.raise 3 .ringMisuse 0#64
    else s.attach h)

/-- Rows of a ring cleared of their full bits in every tower. -/
def State.emptyRows (s : State) (tile : Nat) (rows : List Nat) : State :=
  rows.foldl (fun s row => (List.range 8).foldl (fun s i => s.clearFull tile i (rowGranules row)) s) s

def execWadv (h : BitVec 4) (a : BitVec 5) (s : State) : Out :=
  let m := (s.sreg a).toNat
  let r := s.cur.ring h
  .next (if !r.bound then s.raise 3 .ringMisuse 0#64
    else if m = 0 ∨ r.rows < m then s.illegal 3
    else
      let ixs := (List.range m).map fun j => r.ret + j
      let s := s.emptyRows s.cur.bnd.tile (ixs.map r.row)
      let r' := { r with ret := min (r.ret + m) r.prod, parts := r.parts.filter fun p => !ixs.contains p.1 }
      ({ s with cur := s.cur.setRing h r' } : State).settle s.cur.bnd.tile)

def execWwait (h : BitVec 4) (a : BitVec 5) (s : State) : Out :=
  let ix := (s.sreg a).toNat
  .next (if !(s.cur.ring h).bound then s.raise 3 .ringMisuse (s.sreg a)
    else match s.cur.waitFault h ix with
      | some st => s.raise 3 st (s.sreg a)
      | none => s.addWait (.ringIndex h ix))

def execWwaitDone (h : BitVec 4) (s : State) : Out :=
  let r := s.cur.ring h
  .next (if !r.bound then s.raise 3 .ringMisuse 0#64
    else if r.err then s.raise 3 s.cur.reg.ringFault 0#64
    else s.addWait (.ringDone h))

/-- Engines still consuming the ring meet R317 with RING_MISUSE at the ring index they have reached (R321). -/
def State.closeConsumers (s : State) (h : BitVec 4) : State :=
  let hits := (s.cur.eng.muOps.filter (·.reads h)).map (fun o => (o.pc, (s.cur.ring h).ret)) ++
    (s.cur.eng.xpOps.filter fun o => o.h == h && decide (o.sent < o.nr)).map fun o => (o.pc, o.i0 + o.sent)
  let s := hits.foldl (fun s p => s.engineFault s.cur.bnd.tile .ringMisuse (BitVec.ofNat 64 p.2) p.1) s
  s.modEng fun g => { g with muOps := g.muOps.filter fun o => !o.reads h
                             xpOps := g.xpOps.filter fun o => !(o.h == h && decide (o.sent < o.nr)) }

/-- The matrix drains into a ring are detached: they write no row of it any more (R321, R323). -/
def State.detachDrains (s : State) (h : BitVec 4) : State :=
  s.modEng fun g => { g with muOps := g.muOps.map fun o =>
    if o.kind == .mdrain && ((o.regs[10]?).getD 0#64).extractLsb' 0 4 == h then { o with detached := true } else o }

/-- The broadcasts, express sends and shifts of other tiles that have delivered into a ring are detached: nothing of theirs lands there any
more, also after a new binding of the handle; what comes while the handle is unbound is RING_MISUSE (R321, R324, R334; log entry 86). -/
def State.detachSenders (s : State) (h : BitVec 4) : State :=
  let b := s.cur.bnd
  let hit (o : XpOp) (launch : Nat) : Bool := launch == b.launch && o.x == b.tx && o.y == b.ty && o.rh == h && o.landed != 0
  let s := s.mapTasks fun t => { t with eng := { t.eng with
    xpOps := t.eng.xpOps.map fun o => if hit o t.bnd.launch then { o with detached := true } else o
    shifts := t.eng.shifts.filter fun p => !((s.cur.ring h).pkind == 6 && p.h == h && s.shiftTarget t.bnd p.dir == some b.tile) } }
  { s with net := { s.net with bcols := s.net.bcols.map fun (c, l) => (c, l.map fun x =>
    if x.launch == b.launch && c == tileX b.tile && decide (x.y0 ≤ b.ty) && decide (b.ty ≤ x.y1) && x.ring == some h && x.next != 0 then
      { x with off := insertNat b.tile x.off } else x) } }

/-- A handle unbound: no producer writes any more, contexts return to Loaded, those of a stream that waits at its opening too, and the rows are
empty (R264, R321). -/
def State.unbind (s : State) (h : BitVec 4) : State :=
  let r := s.cur.ring h
  let s := ((s.closeConsumers h).detachDrains h).detachSenders h
  let s := match r.stream with
    | some st =>
      let x := s.fabCtx (st.ctxs.headD 0)
      let waits := !st.opened && x.state == 2 && x.launch == s.cur.bnd.launch && x.tile == s.cur.bnd.tile
      if (st.opened && x.state == 3) || waits then s.leaveCtxs st 0 else s
    | none => s
  let s := s.emptyRows s.cur.bnd.tile ((List.range r.rows).map fun j => r.raddr + j)
  { s with cur := s.cur.setRing h { Ring.reset with desc := r.desc } }

def execWclose (h : BitVec 4) (s : State) : Out := .next (if (s.cur.ring h).bound then s.unbind h else s)

def execRstat (h : BitVec 4) (a : BitVec 5) (s : State) : Out := .next (s.land 3 2 (.sreg a (s.cur.ring h).status))

/-- The rows that the task has partly written are completed with zeros (R323). -/
def State.flushTask (s : State) (h : BitVec 4) : State :=
  (s.cur.ring h).parts.foldl (fun s p =>
    (List.range 8).foldl (fun s i =>
      if p.2.getLsbD i then s else s.producePart s.cur.bnd.tile h i p.1 (zeros 64)) s) s

/-- A window with a row in flight, if one is, still lands it; whether one is depends on the engine's timing. A stream with another sink, or one
that has not opened yet, has none (R270, R271, R323). -/
def State.flushWindow (s : State) (h : BitVec 4) (st : Stream) : State :=
  let r := s.cur.ring h
  let may := s.sinkOf st = 0 && (st.ctxs.isEmpty || (st.opened && !(s.fabCtx (st.ctxs.headD 0)).decodes || !st.table.isEmpty))
    && s.rowFree s.cur.bnd.tile r r.prod
  let (inFlight, s) := if !may then (false, s) else if !st.got.isEmpty && st.table.isEmpty then (true, s) else s.choose
  if inFlight then s.modStream s.cur.bnd.tile h fun x => { x with flush := true } else s.streamDone s.cur.bnd.tile h st

def execWflush (h : BitVec 4) (s : State) : Out :=
  let r := s.cur.ring h
  let fin (s : State) : State := { s with cur := s.cur.setRing h { s.cur.ring h with done := true } }
  .next (if !r.bound then s.raise 3 .ringMisuse 0#64
    else match r.stream with
      | some st => s.flushWindow h st
      | none => if r.pkind = 5 then fin (s.flushTask h) else fin (s.detachDrains h))

/-! ### Broadcast columns (R324, R325) -/

/-- Tasks of the issuer's launch in its column whose TASKY lies in the slice (R246). -/
def State.bcReceivers (s : State) (launch tx y0 y1 : Nat) : List Task :=
  s.tasks.filter fun t => t.bnd.launch == launch && t.bnd.tx == tx && decide (y0 ≤ t.bnd.ty) && decide (t.bnd.ty ≤ y1)

/-- Order of transfers issued in one device cycle: TASKY, then LAUNCHID (R246). -/
def BcXfer.before (tyOf : Nat → Nat) (a b : BcXfer) : Bool :=
  decide (a.at_ = b.at_) && b.next == 0 && (decide (tyOf a.tile < tyOf b.tile) || (tyOf a.tile == tyOf b.tile && decide (a.launch < b.launch)))

/-- A transfer enters its column's queue. -/
def State.bcQueue (s : State) (x : BcXfer) : State :=
  let col := tileX x.tile
  let tyOf (tile : Nat) : Nat := (s.taskOn tile).elim 0 (·.bnd.ty)
  { s with net := { s.net with bcols := tput col (insertBy (BcXfer.before tyOf) x (tget [] s.net.bcols col)) s.net.bcols } }

/-- The checks of R324 and the transfer, in raw mode (none) or ring mode. -/
def State.bcfill (s : State) (ring : Option (BitVec 4)) : State :=
  let g := s.cur.eng.bc
  let y0 := ((g[1]).extractLsb' 0 5).toNat
  let y1 := ((g[1]).extractLsb' 8 5).toNat
  let tset := (g[2]).extractLsb' 0 8
  let rows := (g[3]).toNat
  let raddr := (g[4]).toNat
  s.start 18 fun s =>
    if y1 < y0 ∨ s.cur.bnd.h ≤ y0 ∨ tset = 0#8 ∨ rows = 0 ∨ (g[0]).toNat % 64 ≠ 0 then s.illegal 3
    else
      let bad := if ring.isSome then none else
        (s.bcReceivers s.cur.bnd.launch s.cur.bnd.tx y0 y1).findSome? fun t =>
          ((List.range 8).find? fun i => tset.getLsbD i &&
            !(s.rowOk t i raddr && s.rowOk t i (raddr + rows - 1) && decide (raddr + rows ≤ 65536))).map fun i =>
              towerInfo (Fin.ofNat 8 i) (64 * (if s.rowOk t i raddr then raddr + rows - 1 else raddr))
      match bad with
      | some info => s.raise 3 .towerRange info
      | none => s.bcQueue { launch := s.cur.bnd.launch, tile := s.cur.bnd.tile, src := (g[0]).toNat, y0 := y0, y1 := y1
                            tset := tset, rows := rows, raddr := raddr, ring := ring, next := 0
                            pc := s.cur.seq.pc, at_ := s.clk.tick }

def execBcfill (s : State) : Out := .next (s.bcfill none)
def execBcfillRing (h : BitVec 4) (s : State) : Out := .next (s.bcfill (some h))
def execBcwait (a : BitVec 5) (s : State) : Out := .next (s.addWait (.bcCount (s.sreg a).toNat))
def execBcwaitAll (s : State) : Out := .next (s.addWait .bcAll)

/-! ### The matrix unit (R326 to R332) -/

/-- The type combinations of R326; `weightA` when the weight operand is A. -/
def comboOk (msel ta tb scalet blk acct : Nat) (weightA : Bool) : Bool :=
  match msel with
  | 0 => (acct == 0 && ta == tb && (ta == 1 || ta == 2))
      || (acct == 0 && [3, 4, 6].contains ta && [3, 4, 6].contains tb)
      || (acct == 8 && [10, 12].contains ta && [10, 12].contains tb)
  | 1 => ta == 5 && tb == 5 && scalet == 4 && decide (blk ≤ 2) && acct == 0
  | 2 => scalet == 1 && acct == 0 &&
      (if weightA then (ta == 11 || ta == 13) && tb == 1 else (tb == 11 || tb == 13) && ta == 1)
  | _ => false

/-- The fields of FMT that an MMA or MMV reads form a combination of the table, and its group size is valid. -/
def State.muTypesOk (s : State) (weightA : Bool) : Bool :=
  let g := s.cur.reg
  let m := muSel s.cur.eng.mu
  comboOk m g.typeA g.typeB (g.fmtField 24 4) (g.fmtField 20 4) (g.fmtField 12 4) weightA
  && (m != 2 || decide ((s.cur.eng.mu[8]).toNat ≤ 2))

/-- The batch that an MMV issued now will find: K and type (R330). -/
def State.batchShape (s : State) : Nat × Nat :=
  match s.cur.eng.muOps.reverse.find? fun o => o.kind == .mldb with
  | some o => (muK o.regs, (o.fmt.extractLsb' 4 4).toNat)
  | none =>
    match s.cur.eng.batch with
    | some (k, t, _) => (k, t.toNat)
    | none => (512, s.cur.reg.typeB)

/-- A matrix operation: operand checks, then bound handles, then its record (R314, R326). -/
def State.muStart (s : State) (kind : MuKind) (bank : Bool) (q : BitVec 2) (ok : Bool) (hs : List (BitVec 4)) : State :=
  s.start 16 fun s =>
    if !ok || !(decide hs.Nodup) then s.illegal 3
    else if hs.any fun h => !(s.cur.ring h).bound then s.raise 3 .ringMisuse 0#64
    else
      s.modEng fun g => { g with muOps := g.muOps ++
        [{ kind := kind, bank := bank, q := q, regs := g.mu, fmt := s.cur.reg.fmt, ovt := s.cur.reg.ovt
           flush := s.cur.seq.flush, pc := s.cur.seq.pc, begun := false, step := 0, bufA := [], bufB := [], side := []
           drain := [], readyAt := none }] }

/-- HA, HB or HS as the mode reads them. -/
def sideHandle (g : Vector W64 12) : List (BitVec 4) := if muSel g = 0 then [] else [muHandle g 5]

def execMma (bank : Bool) (s : State) : Out :=
  let g := s.cur.eng.mu
  .next (s.muStart .mma bank 0#2 (s.muTypesOk false) ([muHandle g 3, muHandle g 4] ++ sideHandle g))

def execMmv (bank : Bool) (s : State) : Out :=
  let g := s.cur.eng.mu
  let b := s.batchShape
  .next (s.muStart .mmv bank 0#2
    (s.muTypesOk true && decide (muK g ≤ 512) && decide (muK g ≤ b.1) && b.2 == s.cur.reg.typeB)
    ([muHandle g 3] ++ sideHandle g))

def execMldb (s : State) : Out :=
  let g := s.cur.eng.mu
  .next (s.muStart .mldb false 0#2 (decide (muK g ≤ 512) && !reservedType s.cur.reg.typeB) [muHandle g 4])

/-- MDRAIN attaches the matrix drain to HO as producer; another producer there is RING_MISUSE (R236, R331). -/
def execMdrain (bank : Bool) (s : State) : Out :=
  let g := s.cur.reg
  let h := muHandle s.cur.eng.mu 10
  let r := s.cur.ring h
  let ok := !reservedType g.dstt && g.rmOk && (g.fmtField 12 4 == 0 || g.fmtField 12 4 == 8)
  .next (if ok && decide (s.cur.eng.oMu < 2) && r.bound && r.pkind != 0 && r.pkind != 4 then s.raise 3 .ringMisuse 0#64
    else
      let s' := s.muStart .mdrain bank 0#2 ok [h]
      if s'.cur.seq.lastFault.isSome then s'
      else { s' with cur := s'.cur.setRing h { s'.cur.ring h with pkind := 4 } })

def execMswap (s : State) : Out := .next (s.muStart .mswap false 0#2 true [])
def execMclr (bank : Bool) (q : BitVec 2) (s : State) : Out := .next (s.muStart .mclr bank q true [])

def Engines.bank (g : Engines) (b : Bool) : Bank := if b then g.bank1 else g.bank0
def Engines.setBank (g : Engines) (b : Bool) (x : Bank) : Engines := if b then { g with bank1 := x } else { g with bank0 := x }

def execMflags (bank : Bool) (a : BitVec 5) (c : Bool) (s : State) : Out :=
  .next (if s.cur.eng.oMu ≠ 0 then s.illegal 3
    else
      let b := s.cur.eng.bank bank
      let s := s.land 3 2 (.sreg a (b.flags.zeroExtend 64))
      if c then s.modEng fun g => g.setBank bank { b with flags := 0#5 } else s)

/-! ### The express network (R334, R335) -/

def xpX (g : Vector W64 3) : Nat := ((g[0]).extractLsb' 0 5).toNat
def xpY (g : Vector W64 3) : Nat := ((g[0]).extractLsb' 8 5).toNat

/-- XSEND judges its tile and its count of rows before its ring (R334; log entry 28). -/
def execXsend (h : BitVec 4) (a b : BitVec 5) (s : State) : Out :=
  let g := s.cur.eng.xp
  let i0 := (s.sreg a).toNat
  let nr := (g[2]).toNat
  .next (s.start 17 fun s =>
    if s.cur.bnd.w ≤ xpX g ∨ s.cur.bnd.h ≤ xpY g ∨ nr = 0 then s.illegal 3
    else if !(s.cur.ring h).bound || decide (i0 < (s.cur.ring h).ret) then s.raise 3 .ringMisuse (s.sreg a)
    else
      s.modEng fun e => { e with opSeq := e.opSeq + 1, xpOps := e.xpOps ++
        [{ id := e.opSeq, h := h, i0 := i0, j0 := (s.sreg b).toNat, nr := nr, sent := 0, x := xpX g, y := xpY g
           rh := (g[1]).extractLsb' 0 4, pc := s.cur.seq.pc, inNet := 0 }] })

/-- A packet that an instruction sends at issue, injected by its tile's port and counted as one operation with one packet in the network
(R426). -/
def State.sendPacket (s : State) (dst : Nat) (body : PacketBody) : State :=
  let op := s.nextId
  let s := s.modEng fun e => { e with opSeq := e.opSeq + 1, xpOps := e.xpOps ++
    [{ id := op, h := 0#4, i0 := 0, j0 := 0, nr := 0, sent := 0, x := 0, y := 0, rh := 0#4, pc := s.cur.seq.pc, inNet := 1 }] }
  ({ s with net := { s.net with packets := s.net.packets ++
    [{ launch := s.cur.bnd.launch, src := s.cur.bnd.tile, op := op, dst := dst, pc := s.cur.seq.pc, body := body }] } } : State).countNode
    (nodeOf s.cur.bnd.tile) 4 1

/-- A 64 B aligned local tower address in the lease. -/
def State.localRow (s : State) (cl : BitVec 3) (addr : W64) (act : State → State) : State :=
  if !s.rangeOk s.cur cl.toNat addr.toNat 64 then s.raise 3 .towerRange (towerInfo cl.toFin addr.toNat) else act s

/-- An (X, Y) that names no tile of the launch is an illegal operand (R335; log entry 102). -/
def execXwr (a b : BitVec 5) (m l : BitVec 3) (s : State) : Out :=
  let g := s.cur.eng.xp
  let la := s.sreg a
  let ra := s.sreg b
  .next (s.start 17 fun s =>
    if la.extractLsb' 0 6 != 0#6 || ra.extractLsb' 0 6 != 0#6 then s.illegal 3
    else match s.tileAt s.cur.bnd.launch (xpX g) (xpY g) with
      | none => s.illegal 3
      | some dst => s.localRow l la fun s =>
          let bs := s.towerRead s.cur.bnd.tile l.toNat la.toNat 64
          let s := s.notePoison s.cur.bnd.tile l.toNat (granulesOf la.toNat 64)
          s.sendPacket dst (.towerRow m.toFin ra.toNat bs))

/-- As for XWR (R335; log entry 102). -/
def execXrd (a b : BitVec 5) (m l : BitVec 3) (s : State) : Out :=
  let g := s.cur.eng.xp
  let ra := s.sreg a
  let la := s.sreg b
  .next (s.start 17 fun s =>
    if la.extractLsb' 0 6 != 0#6 || ra.extractLsb' 0 6 != 0#6 then s.illegal 3
    else match s.tileAt s.cur.bnd.launch (xpX g) (xpY g) with
      | none => s.illegal 3
      | some dst => s.localRow l la fun s => s.sendPacket dst (.readReq m.toFin ra.toNat l.toFin la.toNat))

/-! ### Barriers (R365, R366) -/

/-- XBAR is a device-scope fence, then the barrier of its instance. -/
def State.xbarStart (s : State) (group : Fin 3) : State :=
  let n := s.cur.eng.xbar[group] + 1
  (s.modEng fun g => { g with xbar := g.xbar.set group n }).addWait (.barrier (BitVec.ofNat 2 group.val) n)

def execXbar (s : State) : Out := .next (s.xbarStart 0)
def execXbarRow (s : State) : Out := .next (s.xbarStart 1)
def execXbarCol (s : State) : Out := .next (s.xbarStart 2)

/-! ### The bulk copier (R336, R337) and publications (R362) -/

/-- Every tile row that `n` bytes in a tower mode touch lies in the lease of every tower (R336, R72). -/
def State.towerCopyOk (s : State) (addr n : Nat) : Option W64 :=
  let row := addr / 64
  let last := row + n / 512 - 1
  (List.range 8).findSome? fun i =>
    if !s.rowOk s.cur i row then some (towerInfo (Fin.ofNat 8 i) (64 * row))
    else if 65536 ≤ last || !s.rowOk s.cur i last then some (towerInfo (Fin.ofNat 8 i) (64 * last)) else none

/-- DCOPY in a mode: 0 memory to memory, 1 to a tower, 2 from a tower. -/
def State.dcopyStart (s : State) (mode : BitVec 2) : State :=
  let g := s.cur.eng.dm
  let n := (g[2]).toNat
  let taddr := if mode = 1#2 then g[1] else g[0]
  s.start 19 fun s =>
    if n = 0 then s.illegal 3
    else if mode ≠ 0#2 ∧ (n % 512 ≠ 0 ∨ taddr.extractLsb' 0 6 ≠ 0#6) then s.illegal 3
    else match (if mode = 0#2 then none else s.towerCopyOk taddr.toNat n) with
      | some info => s.raise 3 .towerRange info
      | none =>
        s.modEng fun e => { e with opSeq := e.opSeq + 1, dmOps := e.dmOps ++
          [{ id := e.opSeq, mode := mode, src := (g[0]).toNat, dst := (g[1]).toNat, len := n, bufV := (g[3]).getLsbD 12
             bufIx := ((g[3]).extractLsb' 0 12).toNat, next := 0, pc := s.cur.seq.pc }] }

def execDcopy (s : State) : Out := .next (s.dcopyStart 0#2)
def execDcopyMt (s : State) : Out := .next (s.dcopyStart 1#2)
def execDcopyTm (s : State) : Out := .next (s.dcopyStart 2#2)
def execDwait (s : State) : Out := .next (s.addWait .copies)

/-- The task's streams with a DRAM sink, by sequence number (R337, R341, R363). -/
def State.sinkStreams (s : State) (t : Task) : List Nat :=
  t.rings.toList.filterMap fun r => r.stream.bind fun st => if s.sinkOf st = 1 then some st.id else none

/-- The copies and DRAM-sink streams now outstanding. -/
def State.writersNow (s : State) (t : Task) : List Nat := t.eng.dmOps.map (·.id) ++ s.sinkStreams t

def execDpub (a b : BitVec 5) (n : BitVec 6) (s : State) : Out :=
  let e := s.sreg a
  let k := n.toNat + 1
  .next (if 4096 < e.toNat + k then s.illegal 3
    else if 4 ≤ s.cur.eng.pubs.length then s.land 3 1 (.sreg b 1#64)
    else
      (s.modEng fun g => { g with opSeq := g.opSeq + 1, pubs := g.pubs ++
        [{ id := g.opSeq, first := e.toNat, n := k, ids := s.writersNow s.cur, pc := s.cur.seq.pc, at_ := s.cur.seq.scyc }] }).land 3 1 (.sreg b 0#64))

/-! ### Fabric and near-bank ports (R338 to R341) -/

def fbChan (g : Vector W64 3) : Nat := (g[0]).toNat
def fbCtx (g : Vector W64 3) : Nat := ((g[1]).extractLsb' 0 2).toNat

/-- A request posted to a controller. -/
def State.fabricRequest (s : State) (bind : Bool) : State :=
  let g := s.cur.eng.fb
  s.start 20 fun s =>
    if 256 < fbChan g ∨ (!bind ∧ (g[2]).toNat % 64 ≠ 0) then s.illegal 3
    else s.modEng fun e => { e with fbReqs := e.fbReqs ++
      [{ bind := bind, chan := fbChan g, ctx := fbCtx g, image := (g[2]).toNat, pc := s.cur.seq.pc }] }

def execFload (s : State) : Out := .next (s.fabricRequest false)
def execFbind (s : State) : Out := .next (s.fabricRequest true)

def execFstat (a : BitVec 5) (s : State) : Out :=
  let g := s.cur.eng.fb
  .next (if 256 ≤ fbChan g then s.illegal 3
    else s.land 3 2 (.sreg a (s.fabCtx (4 * fbChan g + fbCtx g)).status))

def execNbcmd (a b : BitVec 5) (s : State) : Out :=
  let ea := s.ea a b
  .next (s.start 21 fun s =>
    if ea.toNat % 32 ≠ 0 ∨ Config.smemBytes < ea.toNat + 32 then s.illegal 3
    else
      let ws : Vector W32 8 := .ofFn fun (i : Fin 8) => BitVec.ofNat 32 (leNat (s.cur.smem.bytes (ea.toNat + 4 * i.val) 4))
      s.modEng fun e => { e with nbPort := e.nbPort ++
        [.packet (e.nb[0]).toNat ws (e.nb[2]).toNat s.cur.seq.pc s.clk.tick] })

def execNbpoll (a b : BitVec 5) (s : State) : Out :=
  .next (s.addWait (.nbPoll a (s.sreg b).toNat (s.cur.eng.nb[2]).toNat s.cur.seq.scyc))

def execNbfence (s : State) : Out :=
  .next (s.modEng fun g => { g with nbPort := g.nbPort ++ [.fence (s.writersNow s.cur) s.cur.seq.scyc] })

/-! ### Signals, refresh, trace and fix (R342 to R345, R408, R414) -/

def execHsig (a b : BitVec 5) (v : BitVec 10) (s : State) : Out :=
  .next (if 16 ≤ s.cur.eng.sigs.length then s.land 3 1 (.sreg b 1#64)
    else
      (s.modEng fun g => { g with sigs := g.sigs ++
        [{ vector := v, payload := (s.sreg a).extractLsb' 0 32, pc := s.cur.seq.pc }] }).land 3 1 (.sreg b 0#64))

def execTrace (a b : BitVec 5) (v : BitVec 10) (s : State) : Out :=
  .next (s.emit 1 v.toNat s.cur.seq.pc (s.sreg a) (s.sreg b))

/-- The fix trigger asserted by a source (R413), with the tile and record of a task that did it: it starts a fix, joins the one
being made, or is missed. -/
def State.assertFix (s : State) (src : Nat) (code : BitVec 8) (who : Option (Nat × TraceRec)) : State :=
  let o := s.obs
  let p : FixPend := { at_ := s.clk.tick, src := src, code := code, tile := who.map (·.1), rec_ := (who.map (·.2)).getD .reset }
  { s with obs :=
    if o.fixHeld then { o with fixMissed := min (o.fixMissed + 1) 65535 }
    else match o.fixPend with
      | none => { o with fixPend := some p }
      | some q => if q.at_ = s.clk.tick ∧ src < q.src then { o with fixPend := some p } else o }

/-- The record of a fix that the current task asserts. -/
def State.fixRecord (s : State) : Option (Nat × TraceRec) := some (s.cur.bnd.tile, s.cur.record 7 0 s.cur.seq.pc 0#64 0#64)

def execSnap (c : BitVec 8) (s : State) : Out := .next (s.assertFix 4 c s.fixRecord)

def State.setRefresh (s : State) (ptower : Nat) (r : Refresh) : State :=
  { s with env := { s.env with refresh := tput ptower r s.env.refresh } }

/-- A deferral of m ms on a tower, capped at its forced point; m = 0 ends it (R344). -/
def State.deferTower (s : State) (m ptower : Nat) : State :=
  s.setRefresh ptower { s.refreshOf ptower with
    defer := if m = 0 then none else some (min (s.elapsed + 1000000 * m) (s.forcedAt ptower)) }

def execRefdefer (a : BitVec 5) (s : State) : Out :=
  let m := (s.sreg a).toNat
  .next (if !s.cur.bnd.refdef || decide (58000 < m) then s.raise 3 .refreshAbuse 0#64
    else if s.cur.bnd.lease = 0 then s
    else (List.range 8).foldl (fun s i => s.deferTower m (s.physTower s.cur.bnd.tile i)) s)

/-- Device cycles of a refresh pass: 8 a row of the good layers (R253). -/
def State.passCycles (s : State) (ptower : Nat) : Nat := 8 * 8192 * (s.chart ptower).nlay

/-- A deferral ends and a pass starts, unless one is running (R345, R253). -/
def State.startPass (s : State) (ptower : Nat) (forced : Bool) : State :=
  let r := s.refreshOf ptower
  s.setRefresh ptower { r with
    defer := none
    pass := match r.pass with
      | some p => some p
      | none => some (s.clk.tick + s.passCycles ptower, forced) }

def execRefnow (a : BitVec 5) (s : State) : Out :=
  let v := s.sreg a
  .next (if 8 ≤ v.toNat then s.illegal 3 else s.startPass (s.physTower s.cur.bnd.tile v.toNat) false)

def execRefnowAll (s : State) : Out :=
  .next ((List.range 8).foldl (fun s i => s.startPass (s.physTower s.cur.bnd.tile i) false) s)

end Sys2Proof.Machine
end

