-- ==== Sys2Proof/Machine/Waits.lean ====
section
/-! DEFINITION. The ends of stalls (R106, R175, R293, R299, R300, R316, R320, R325, R337, R340, R356, R358, R366): each waiting
slot makes its access in the device cycle its wait ends; when none is left, the next schedule cycle begins. -/

namespace Sys2Proof.Machine

/-! ### Bringing a tile's task to the front -/

/-- The task bound to a tile becomes the current one. -/
def State.focus (s : State) (tile : Nat) : Option State :=
  if s.cur.bound && s.cur.bnd.tile == tile then some s
  else match s.parked.find? fun t => t.bound && t.bnd.tile == tile with
    | none => none
    | some t => some { s with cur := t, parked := s.parked.map fun x => if x.bound && x.bnd.tile == tile then s.cur else x }

/-- A change made with a tile's task at the front; none is bound: no change. -/
def State.onTask (s : State) (tile : Nat) (f : State → State) : State :=
  match s.focus tile with
  | none => s
  | some s' => f s'

/-- The current task is frozen in a stall. -/
def State.frozenNow (s : State) : Bool := s.cur.seq.state == .running && s.cur.seq.waits != []

/-! ### Global accesses at their homes (R175, R356) -/

/-- The new value of an AMO, or none when it writes nothing (R355). -/
def amoNew (op : AmoOp) (sz : Nat) (old b cmp : Nat) : Option Nat :=
  let m : Nat := 2 ^ (8 * sz)
  let sgn (x : Nat) : Int := if x.testBit (8 * sz - 1) then (x : Int) - (m : Int) else (x : Int)
  match op with
  | .add => some ((old + b) % m)
  | .min => some (if sgn b < sgn old then b else old)
  | .max => some (if sgn old < sgn b then b else old)
  | .and => some (old &&& b)
  | .or => some (old ||| b)
  | .xch => some b
  | .cas => if old = cmp then some b else none

/-- An atomic performed at its home. One that releases follows every earlier access at its scope; the write order of its unit holds
whatever its order (R351, R352, R356). -/
def State.performAmo (s : State) (a : GAccess) (op : AmoOp) (ord : BitVec 2) (write : Bool) (sps : List Span) : State :=
  let tile := s.cur.bnd.tile
  let m := 2 ^ (8 * a.size)
  let s1 := if s.poisoned sps then { s with cur := s.cur.deferHw false } else s
  let s2 := ((if ord = 0#2 ∨ ord = 2#2 then s1.performHeld tile a.scope else s1).drainTo tile sps).passPort sps
  let old := leNat (sps.flatMap fun sp => s2.homeBytes sp.place sp.len)
  let s3 := match (if write then amoNew op a.size old (a.value.toNat % m) (a.cmp.toNat % m) else none) with
    | some v => ((cutSpans sps (leBytes v a.size)).foldl (fun (s : State) (p : Place × List Byte) => s.homeWrite p.1 p.2) s2).countBeats 3 sps
    | none => s2
  (s3.countBeats 2 sps).land 0 1 (.sreg a.d (extendBytes true a.size old))

/-- A global access that can be performed is, and lands its value; none while it must go on waiting (R175, R176, R356). Of an access in
two pieces one is performed now and the other later, in either order, and the wait goes on in between, unless its pages have come to
detect races since its issue. -/
def State.performGlobal (s : State) (a : GAccess) : Option State :=
  if s.tlbPending s.cur.bnd.tile then none
  else match State.spans s.cur.xctx a.want (spanFuel a.size) s a.ea a.size with
    | (.error (.notPresent _), _) => none
    | (.error (.updating _), _) => none
    | (.error (.busy _), _) => none
    | (.error _, s') => some (s'.waitRaise 0 .protection (BitVec.ofNat 64 a.ea))
    | (.ok sps, s') =>
      if !s'.mayPerform a sps then none
      else match a.op with
        | .amo op ord write => some (s'.performAmo a op ord write sps)
        | _ =>
          let fault (i : W64) (s : State) : State := s.waitRaise 0 .race i
          let cut := sps.flatMap Span.cut
          match (if a.checked sps && a.half.isNone then [] else cut), a.half with
          | [p, q], none =>
            let (upper, s1) := s'.choose
            some (s1.performAll a [if upper then q else p] fault fun bs s => s.modSeq fun w => { w with
              waits := w.waits.map fun x => if x = .glob a then .glob { a with half := some (upper, bs) } else x })
          | [p, q], some (upper, bs) =>
            some (s'.performAll a [if upper then p else q] fault fun bs' s => s.landLoad a (if upper then bs' ++ bs else bs ++ bs'))
          | _, _ => some (s'.performAll a cut fault fun bs s => s.landLoad a bs)

/-- The read of NBPOLL (R340). -/
def pollRead : Want := { read := true, write := false }

/-- An access of the task that must go on waiting joins the queue of a locked page (R251). -/
def State.queueWait (s : State) (w : Wait) : State :=
  let ask (want : Want) (va n : Nat) : State :=
    if s.mem.locked.isEmpty then s
    else match State.spans s.cur.xctx want (spanFuel n) s va n with
      | (.ok sps, _) => s.queueAt s.cur.bnd.tile 0 sps
      | (.error _, _) => s
  match w with
  | .glob a => ask a.want a.ea a.size
  | .nbPoll _ _ va _ => ask pollRead va 8
  | _ => s

/-! ### Conditions of the engine waits -/

/-- Broadcast transfers of the current task not yet delivered whole. -/
def State.bcBusy (s : State) (t : Task) : Nat :=
  (s.net.bcols.flatMap fun (p : Nat × List BcXfer) => p.2.filter fun x => x.launch == t.bnd.launch && x.tile == t.bnd.tile).length

/-- Near-bank packets of the task that have not entered a queue. -/
def Engines.nbHeld (g : Engines) : Nat :=
  (g.nbPort.filter fun p => match p with
    | .packet _ _ _ _ _ => true
    | .fence _ _ => false).length

/-- The condition of EWAIT e, n (R316). -/
def State.engineIdle (s : State) (e : BitVec 5) (n : Nat) : Bool :=
  let g := s.cur.eng
  if e.toNat < 16 then
    let r := s.cur.ring (e.extractLsb' 0 4)
    r.done || r.err || r.pkind == 0
  else decide ((match e.toNat with
    | 16 => g.muOps.length
    | 17 => g.xpOps.length
    | 18 => s.bcBusy s.cur
    | 19 => g.dmOps.length
    | 20 => g.fbReqs.length
    | _ => g.nbHeld) ≤ n)

/-- The member tasks of a barrier of the current task (R365). -/
def State.members (s : State) (launch : Nat) (group : BitVec 2) (line : Nat) : List Task :=
  s.tasks.filter fun t => t.bnd.launch == launch &&
    (match group.toNat with
     | 0 => true
     | 1 => t.bnd.ty == line
     | _ => t.bnd.tx == line)

/-- The row or column a task's barrier joins. -/
def Task.line (t : Task) (group : BitVec 2) : Nat :=
  match group.toNat with
  | 0 => 0
  | 1 => t.bnd.ty
  | _ => t.bnd.tx

def Engines.xbars (g : Engines) (group : BitVec 2) : Nat := (g.xbar[group.toNat]?).getD 0

/-- The waits of a task: those of its stalled bundle, and those that a trap has put aside (R437). -/
def Task.allWaits (t : Task) : List Wait := t.seq.waits ++ (t.seq.saved.elim [] (·.waits))

/-- The schedule cycle of the bundle whose XBAR a task waits in. -/
def Task.barrierCycle (t : Task) : Nat :=
  if t.seq.waits.any fun w => w.cause == 10 then t.seq.waitScyc else t.seq.saved.elim 0 (·.waitScyc)

/-- Instances of a group's row or column that have completed, and the launch with one more (R366, R397). -/
def Launch.completed (l : Launch) (group : BitVec 2) (line : Nat) : Nat :=
  if group = 0#2 then l.bars else tget 0 l.barLines (32 * group.toNat + line)
def Launch.complete (l : Launch) (group : BitVec 2) (line n : Nat) : Launch :=
  if group = 0#2 then { l with phaseCnt := l.phaseCnt + 1, bars := n } else { l with barLines := tput (32 * group.toNat + line) n l.barLines }

/-- An instance of a task's group has completed already. -/
def State.barrierDone (s : State) (group : BitVec 2) (n : Nat) (t : Task) : Bool :=
  (s.launch? t.bnd.launch).any fun l => decide (n ≤ l.completed group (t.line group))

/-- Every write that a task issued before the bundle of its XBAR, or in it, is performed at device scope (R358, R366). -/
def State.barrierFenced (s : State) (t : Task) : Bool := s.portClearTo t.bnd.tile 1#2 (t.barrierCycle + 1)

/-- The instance that a member of a group waits at. -/
def barrierWait (group : BitVec 2) (t : Task) : Option Nat :=
  t.allWaits.findSome? fun w => match w with
    | .barrier g n => if g = group then some n else none
    | _ => none

/-- A task has arrived at instance n of a group: it has issued its XBAR there and its fence is done, or it has left it already, or it
has ended (R366, R397). What its trap handler writes since does not undo that (R437). -/
def State.arrived (s : State) (group : BitVec 2) (n : Nat) (t : Task) : Bool :=
  t.seq.state == .ended || t.seq.state == .dead || decide (n < t.eng.xbars group)
  || (t.eng.xbars group == n && (barrierWait group t != some n || s.barrierFenced t))

/-- The ends of the waits that the task's own slots watch. The answer is none while the wait goes on. -/
def State.tryWait (s : State) : Wait → Option State
  | .glob a => s.performGlobal a
  | .load l =>
    if s.loadReady l then some (s.finishLoad l)
    else match l.kind with
      | .ringRow h ix _ => (s.cur.waitFault h ix).map fun st => s.waitRaise 2 st (BitVec.ofNat 64 ix)
      | .chain starts _ =>
        (chainFault (starts.map fun (i, st) => (i, s.chainAt i st true))).map fun (st, info) => s.waitRaise 2 st info
      | _ => none
  | .ringWrite h ix parts => if s.ringWriteReady h ix parts then some (s.finishRingWrite h ix parts) else none
  | .ringIndex h ix =>
    if ix < (s.cur.ring h).prod then some s
    else (s.cur.waitFault h ix).map fun st => s.waitRaise 3 st (BitVec.ofNat 64 ix)
  | .ringDone h =>
    let r := s.cur.ring h
    if r.err then some (s.waitRaise 3 s.cur.reg.ringFault 0#64) else if r.done then some s else none
  | .bcCount n => if n ≤ s.cur.eng.bcRows then some s else none
  | .bcAll => if s.bcBusy s.cur = 0 then some (s.modEng fun g => { g with oBc := 0 }) else none
  | .engine e n =>
    if s.engineIdle e n then
      some (if e.toNat < 16 then s else s.modEng fun g => g.setOpens e.toNat (min (g.opens e.toNat) n))
    else none
  | .copies =>
    if s.tlbPending s.cur.bnd.tile || !s.cur.eng.dmOps.isEmpty || !(s.sinkStreams s.cur).isEmpty then none
    else some (s.modEng fun g => { g with oDm := 0 })
  | .nbPoll d thr va _ =>
    match s.readVirt s.cur pollRead va 8 with
    | (.error .wait, _) => none
    | (.error (.prot v), s') => some (s'.waitRaise 3 .protection (BitVec.ofNat 64 v))
    | (.error (.race i), s') => some (s'.waitRaise 3 .race i)
    | (.error (.bad _), s') => some { s' with cur := s'.cur.deferHw false }
    | (.ok bs, s') =>
      let w := leNat bs
      if thr % 2 ^ 63 ≤ w % 2 ^ 63 ∨ 2 ^ 63 ≤ w then some (s'.land 3 2 (.sreg d (BitVec.ofNat 64 w))) else none
  | .barrier g n => if s.barrierDone g n s.cur && s.barrierFenced s.cur then some s else none
  | .fence scope => if s.tlbPending s.cur.bnd.tile || !s.portClear s.cur.bnd.tile scope then none else some s

/-- A wait is over: it leaves the stalled bundle's list. A fault that a wait ends in has emptied the list. -/
def State.endWait (s : State) (w : Wait) : State :=
  match s.tryWait w with
  | none => s.queueWait w
  | some s' => s'.modSeq fun q => { q with waits := q.waits.erase w }

/-- Once no wait is left, the stall ends, the next schedule cycle begins, and its bundle may issue in the next device cycle (R106). -/
def State.thaw (s : State) (cause : Nat) : State :=
  if s.cur.seq.waits = [] && s.cur.seq.state == .running && s.cur.seq.lastFault.isNone then
    (s.stallRecord cause).afterStall.modSeq fun q => { q with freeAt := s.clk.tick + 1 }
  else s

/-- The waits that satisfy a condition end where they are over, until one ends in a fault. -/
def State.endWaits (s : State) (p : Wait → Bool) : State :=
  let s0 := s.modSeq fun q => { q with lastFault := none }
  (s0.cur.seq.waits.filter p).foldl (fun s w => if s.cur.seq.lastFault.isSome then s else s.endWait w) s0

/-- The waits of the current task that satisfy a condition and are over end, and with the last of them the stall. -/
def State.retryIf (s : State) (p : Wait → Bool) : State :=
  if s.frozenNow then (s.endWaits p).thaw s.cur.seq.stallCause else s

/-- Every wait of the current task that is over ends. -/
def State.retry (s : State) : State := (s.endWaits fun _ => true).thaw s.cur.seq.stallCause

def Wait.isGlobal : Wait → Bool
  | .glob _ => true
  | .fence _ => true
  | _ => false
def Wait.isLoad : Wait → Bool
  | .load l => match l.kind with
    | .ringRow _ _ _ => false
    | _ => true
  | _ => false
def Wait.isRingRead : Wait → Bool
  | .load l => match l.kind with
    | .ringRow _ _ _ => true
    | _ => false
  | _ => false
def Wait.isRingWrite : Wait → Bool
  | .ringWrite _ _ _ => true
  | _ => false
def Wait.isEngine : Wait → Bool
  | .ringIndex _ _ => true
  | .ringDone _ => true
  | .bcCount _ => true
  | .bcAll => true
  | .engine _ _ => true
  | .copies => true
  | .nbPoll _ _ _ _ => true
  | .fence _ => true
  | _ => false

/-! ### Events -/

/-- A result lands when its schedule cycle has come (R102). -/
def execResultLanding (s : State) : Out := .next s.landDue

/-- A stalled access or fence of a tile is performed; where none is, its port's oldest held write goes home (R175, R349). -/
def execGlobalAccessPerformed (tile : Nat) (s : State) : Out :=
  .next (if (s.taskOn tile).isNone then s.drainOne tile
    else s.onTask tile fun s =>
      if s.frozenNow && s.cur.seq.waits.any fun w => w.isGlobal && (s.tryWait w).isSome then s.retryIf Wait.isGlobal
      else s.drainOne tile)

def execFullEmptyWake (tile : Nat) (s : State) : Out := .next (s.onTask tile fun s => s.retryIf Wait.isLoad)
def execRingReadWake (tile : Nat) (s : State) : Out := .next (s.onTask tile fun s => s.retryIf Wait.isRingRead)
def execRingWriteWake (tile : Nat) (s : State) : Out := .next (s.onTask tile fun s => s.retryIf Wait.isRingWrite)
def execEngineWaitEnd (tile : Nat) (s : State) : Out := .next (s.onTask tile fun s => s.retryIf Wait.isEngine)

/-- A member leaves the barrier; one whose wait a trap has put aside finds the instance completed on its return (R437). -/
def State.leaveBarrier (s : State) (group : BitVec 2) (n : Nat) (tile : Nat) : State :=
  s.onTask tile fun s =>
    let w := Wait.barrier group n
    if s.cur.seq.waits.contains w then
      let s := s.modSeq fun q => { q with lastFault := none, waits := q.waits.erase w }
      s.thaw 10
    else s

/-- The instances that members wait at and that have not completed yet. -/
def State.openInstances (s : State) (group : BitVec 2) (ms : List Task) : List Nat :=
  ms.filterMap fun t => (barrierWait group t).filter fun n => !s.barrierDone group n t

/-- A member that waits at an instance completed before leaves once its own fence is done, as a re-executed one does (R397). The earliest other
instance that some member waits at completes once every member has arrived and none is stopped, and the members leave; an instance of group 0
advances the phase counter (R366, R367). -/
def execBarrierRelease (launch : Nat) (group : BitVec 2) (line : Nat) (s : State) : Out :=
  .next (
    let ms := s.members launch group line
    let s := ms.foldl (fun s t => match barrierWait group t with
      | some n => if s.barrierDone group n t && s.barrierFenced t && t.seq.state != .stopped then s.leaveBarrier group n t.bnd.tile else s
      | none => s) s
    let ms := s.members launch group line
    match s.openInstances group ms with
    | [] => s
    | n0 :: rest =>
      let n := rest.foldl min n0
      if ms.all (s.arrived group n) && ms.all fun t => t.seq.state != .stopped then
        ms.foldl (fun s t => s.leaveBarrier group n t.bnd.tile) (s.modLaunch launch fun l => l.complete group line n)
      else s)

end Sys2Proof.Machine
end

