-- ==== Sys2Proof/Machine/Matrix.lean ====
section
/-! DEFINITION. The matrix unit at work (R155 to R159, R326 to R333): operand ports, k-steps, the prologue, block scales,
the stationary batch, and the drain. An operation reads ring rows as they fill, one k-step at a time, and completes the
device cycles of R333 after its last row. -/

namespace Sys2Proof.Machine

/-! ### Operand ports (R327, R328) -/

/-- Reads up to `n` more whole rows from a ring's RET upward into a buffer; a fault of R239 or R321 ends the operation. -/
def State.feedPort (h : BitVec 4) : Nat → State → List Byte → Except (Status × Nat) (List Byte) × State
  | 0, s, buf => (.ok buf, s)
  | n + 1, s, buf =>
    let r := s.cur.ring h
    let tile := s.cur.bnd.tile
    if !r.bound then (.error (.ringMisuse, r.ret), s)
    else
      let row := r.row r.ret
      if decide (r.ret < r.prod) && (List.range 8).all fun i => s.partFull tile i row then
        let bs := (List.range 8).flatMap fun i => s.towerRead tile i (64 * row) 64
        let s := (List.range 8).foldl (fun s i => s.notePoison tile i (rowGranules row)) s
        let s := (List.range 8).foldl (fun s i => s.consume tile i (rowGranules row)) s
        State.feedPort h n s (buf ++ bs)
      else match s.cur.waitFault h r.ret with
        | some st => (.error (st, r.ret), s)
        | none => (.ok buf, s)

/-! ### Numbers (R155 to R158) -/

/-- A decoded matrix operand (R155): DM8 by its FP32 decode (R136), every other type exactly. -/
def matVal (flush : Bool) (t c : Nat) : FVal := if t = 6 then dm8FP32 c else readVal flush t c

/-- acc + s rounded once, with the bank's flags: IV when the sum is invalid or `iv` says that a term was, and when the element
becomes NaN, by OVT's overflow too (R143, R144, R155). -/
def accFloat (cx : NumCtx) (acc : W32) (s : FVal) (iv : Bool) : W32 × BitVec 5 :=
  let a := decodeVal 0 acc.toNat
  let (r, f) := addV 0 a s
  let (v, g) := convertTo cx 0 r
  let becomes := (decodeVal 0 v.toNat).isNan && !a.isNan
  (v, bankFlags (f ||| g ||| flagIf (iv || becomes) flIV))

/-- acc + s saturated to INT32 (R156). -/
def accInt (acc : W32) (s : Int) : W32 × BitVec 5 :=
  let v := acc.toInt + s
  if v > 2 ^ 31 - 1 then (BitVec.ofInt 32 (2 ^ 31 - 1), 2#5)
  else if v < -(2 ^ 31) then (BitVec.ofInt 32 (-(2 ^ 31)), 2#5)
  else (BitVec.ofInt 32 v, 0#5)

/-- The exact sum of a chunk's products. -/
def chunkSum : List (FVal × FVal) → FVal
  | [] => .fin (.zero false)
  | p :: l => l.foldl (fun s q => (addV 0 s (mulV q.1 q.2).1).1) (mulV p.1 p.2).1

/-- Whether a chunk holds an invalid term: a signalling NaN operand, 0 × ∞, or infinities of both signs (R144, R148). -/
def chunkInvalid (ch : List (FVal × FVal)) : Bool :=
  let ps := ch.map fun p => mulV p.1 p.2
  (ps.any fun p => p.2 != 0#9) || ((ps.any fun p => p.1.isInf && p.1.neg) && ps.any fun p => p.1.isInf && !p.1.neg)

/-- The integer of a decoded integer operand. -/
def FVal.toInt : FVal → Int
  | .fin q => q.sgnNum
  | _ => 0

/-- One output element over the chunks of a k-step; `scale` gives the two scales of each chunk when block-scaled: a NaN scale, an
infinite one with a zero block sum, and (log entry 30) an infinite one with a zero one are invalid (R157). -/
def accChunks (o : MuOp) (acc : W32) (chunks : List (List (FVal × FVal))) (scale : Nat → FVal × FVal) : W32 × BitVec 5 :=
  (chunks.foldl (fun (r : (W32 × BitVec 5) × Nat) ch =>
    let (v, f) :=
      if o.acct = 8 then accInt r.1.1 ((ch.map fun p => p.1.toInt * p.2.toInt).sum)
      else if muSel o.regs = 1 then
        let (sa, sb) := scale r.2
        let factor := mulV sa sb
        let term := mulV (chunkSum ch) factor.1
        accFloat o.cx r.1.1 term.1 (sa.isNan || sb.isNan || factor.2 != 0#9 || term.2 != 0#9)
      else accFloat o.cx r.1.1 (chunkSum ch) (chunkInvalid ch)
    ((v, r.1.2 ||| f), r.2 + 1)) ((acc, 0#5), 0)).1

/-- A list cut into groups of n. -/
def groupsOf {α : Type} (n : Nat) (l : List α) : List (List α) := chunks n (l.length + 1) l

/-- A prologue weight: ConvertTo(BF16, (q − z) × s, 0), a BF16 code, under the F of the operation's bundle (R92, R141, R158). The group
scale is read as it stands: R146 does not name it (log entry 75). -/
def prologueWeight (o : MuOp) (q z s : Nat) (t : Nat) : Nat × BitVec 5 :=
  let d : Int := (decodeVal t q).toInt - z
  let sv := decodeVal 1 s
  let (w, f) := convertTo o.cx 1 (mulV (.fin (.ofInt d)) sv).1
  let nanScale : BitVec 5 := if sv.isNan || (mulV (.fin (.ofInt d)) sv).1.isNan then 1#5 else 0#5
  (w.toNat, bankFlags f ||| nanScale)

/-- Scale and zero point of weight (k within the step, r) from the side buffer. -/
def sideOf (o : MuOp) (k r t : Nat) : Nat × Nat :=
  let g := if muGroup o.regs = 32 then k / 32 else 0
  let base := g * o.groupRows * 512
  let s := leNat ((o.side.drop (base + 2 * r)).take 2)
  let zb := leNat ((o.side.drop (base + 2 * o.scales + r / 2)).take 1)
  (s, if muZpt o.regs then zb / 16 ^ (r % 2) % 16 else if t = 13 then 8 else 0)

/-! ### A k-step (R329, R330) -/

/-- Decoded operand values by position in a stream's step, and the flags of the prologue's conversions. -/
def MuOp.decodeA (o : MuOp) : Array FVal × BitVec 5 :=
  let n := o.bufA.length * 8 / typeBits o.typeA
  let codes := unpackBits (typeBits o.typeA) n o.bufA
  let rows := n / 64
  if muSel o.regs = 2 && o.kind == .mmv then
    let ws := codes.mapIdx fun p q =>
      let (i, k) := if muTrb o.regs then (p % rows, p / rows) else (p / 64, p % 64)
      let (s, z) := sideOf o k i o.typeA
      prologueWeight o q z s o.typeA
    ((ws.map fun w => readVal o.flush 1 w.1).toArray, ws.foldl (fun f w => f ||| w.2) 0#5)
  else ((codes.map (matVal o.flush o.typeA)).toArray, 0#5)

def MuOp.decodeB (o : MuOp) : Array FVal × BitVec 5 :=
  let n := o.bufB.length * 8 / typeBits o.typeB
  let codes := unpackBits (typeBits o.typeB) n o.bufB
  if muSel o.regs = 2 then
    let ws := codes.mapIdx fun p q =>
      let (k, j) := if muTrb o.regs then (p % 64, p / 64) else (p / 64, p % 64)
      let (s, z) := sideOf o k j o.typeB
      prologueWeight o q z s o.typeB
    ((ws.map fun w => readVal o.flush 1 w.1).toArray, ws.foldl (fun f w => f ||| w.2) 0#5)
  else ((codes.map (matVal o.flush o.typeB)).toArray, 0#5)

/-- Block scales SA(i, c) and SB(c, j) of the step (R157, R328). -/
def MuOp.blockScale (o : MuOp) (i j c : Nat) : FVal × FVal :=
  let nb := 64 / o.chunk
  let e (p : Nat) : FVal := readVal o.flush 4 (((o.side[p]?).getD 0#8).toNat)
  (e (i * nb + c), e (64 * nb + c * 64 + j))

def zeroVal : FVal := .fin (.zero false)

/-- MMA's k-step on its bank. -/
def MuOp.mmaStep (o : MuOp) (b : Bank) : Bank :=
  let (av, fa) := o.decodeA
  let (bv, fb) := o.decodeB
  let a (i k : Nat) : FVal := (av[if muTra o.regs then k * 64 + i else i * 64 + k]?).getD zeroVal
  let w (k j : Nat) : FVal := (bv[if muTrb o.regs then j * 64 + k else k * 64 + j]?).getD zeroVal
  let r : Vector (W32 × BitVec 5) 4096 := Vector.ofFn fun (p : Fin 4096) =>
    let i := p.val / 64
    let j := p.val % 64
    accChunks o b.el[p] (groupsOf o.chunk ((List.range 64).map fun k => (a i k, w k j))) fun c => o.blockScale i j c
  { el := r.map (·.1), flags := r.foldl (fun f x => f ||| x.2) (b.flags ||| fa ||| fb) }

/-- MMV's k-step: element (i mod 64, 8⌊i/64⌋ + b) gains row i of W times vector b; `batch` gives x_b(k) (R330). Block scales are
those of the bank's row and column (log entry 30). -/
def MuOp.mmvStep (o : MuOp) (b : Bank) (batch : Nat → Nat → FVal) : Bank :=
  let (av, fa) := o.decodeA
  let m := muM o.regs
  let a (i k : Nat) : FVal := (av[if muTrb o.regs then k * m + i else i * 64 + k]?).getD zeroVal
  let r : Vector (W32 × BitVec 5) 4096 := Vector.ofFn fun (p : Fin 4096) =>
    let row := p.val / 64
    let col := p.val % 64
    let i := 64 * (col / 8) + row
    if i < m ∧ col % 8 < muBatch o.regs then
      accChunks o b.el[p] (groupsOf o.chunk ((List.range 64).map fun k => (a i k, batch (col % 8) (64 * o.step + k))))
        fun c => o.blockScale row col c
    else (b.el[p], 0#5)
  { el := r.map (·.1), flags := r.foldl (fun f x => f ||| x.2) (b.flags ||| fa) }

/-- x_b(k) of the loaded batch: zero when none was ever loaded; a free value for a vector that the last MLDB did not load
(log entry 14). -/
def State.batchVal (s : State) (o : MuOp) (b k : Nat) : FVal :=
  match s.cur.eng.batch with
  | none => matVal o.flush o.typeB 0
  | some (_, _, xs) =>
    match xs[b]? with
    | some v => matVal o.flush o.typeB (((v[k]?).getD 0#32).toNat)
    | none => matVal o.flush o.typeB ((Config.freeWord (s.clk.free + 512 * b + k)).toNat % 2 ^ typeBits o.typeB)

/-- A k-step done by the head operation, whose buffers hold its rows. -/
def State.muStep (s : State) (o : MuOp) : State :=
  let keepSide := muSel o.regs == 2 && muGroup o.regs == 128 && o.step % 2 == 0
  let o' : MuOp := { o with step := o.step + 1, bufA := [], bufB := [], side := if keepSide then o.side else [] }
  let put (s : State) : State := s.modEng fun g => { g with muOps := o' :: g.muOps.drop 1 }
  match o.kind with
  | .mma => put (s.modEng fun g => g.setBank o.bank (o.mmaStep (g.bank o.bank)))
  | .mmv =>
    let s' := put (s.modEng fun g => g.setBank o.bank (o.mmvStep (g.bank o.bank) (s.batchVal o)))
    { s' with clk := { s'.clk with free := s'.clk.free + 4096 } }
  | .mldb =>
    let k := muK o.regs
    let codes := unpackBits (typeBits o.typeB) (muBatch o.regs * k) o.bufB
    let xs := (List.range (muBatch o.regs)).map fun b => ((codes.drop (b * k)).take k).map (BitVec.ofNat 32)
    put (s.modEng fun g => { g with batch := some (k, BitVec.ofNat 4 o.typeB, xs) })
  | _ => s

/-! ### The drain (R159, R331) -/

/-- One element drained: its code and the bank flags it sets; an infinite factor beside a zero one is invalid whatever the third
is (R159). -/
def drainElem (o : MuOp) (acc : W32) : Nat × BitVec 5 :=
  let ts (i : Nat) : FVal := readVal o.flush 1 ((((o.regs[i]?).getD 0#64).extractLsb' 0 16).toNat)
  let a := if o.acct = 8 then .fin (.ofInt acc.toInt) else decodeVal 0 acc.toNat
  let (x1, f1) := mulV a (ts 6)
  let (x2, f2) := mulV x1 (ts 7)
  let x := if (o.regs[9]).getLsbD 1 && !x2.isNan && x2.neg then zeroVal else x2
  let (c, f) := convertTo { mode := o.fmtField 16 3, ovt := o.ovt, flush := o.flush } o.dstt x
  let fs := [a, ts 6, ts 7]
  let invalid := (ts 6).isNan || (ts 7).isNan || ((fs.any FVal.isInf) && fs.any FVal.isZero)
  let code := c.toNat % 2 ^ typeBits o.dstt
  let y := decodeVal o.dstt code
  let sa := (f &&& flOF != 0#9 && !y.isNan && !y.isInf) || (isIntType o.dstt && f &&& flIV != 0#9 && !x.isNan)
  (code, bankFlags (f ||| f1 ||| f2 ||| flagIf invalid flIV) ||| (if sa then 16#5 else 0#5))

/-- A row of codes as run-form rows: halved by element position until each piece fits (R331). -/
def runPieces (typ : Nat) : Nat → List Nat → List (List Byte)
  | 0, _ => []
  | fuel + 1, l =>
    let r := canon (l.map fun c => (c, 1))
    if r.length ≤ rowRuns typ then [buildRow typ true r]
    else runPieces typ fuel (l.take (l.length / 2)) ++ runPieces typ fuel (l.drop (l.length / 2))

/-- Tower parts grouped eight to a ring row, zeros after the last. -/
def ringRowsOf (parts : List (List Byte)) : List (List (List Byte)) :=
  (groupsOf 8 parts).map fun g => g ++ List.replicate (8 - g.length) (zeros 64)

/-- The ring rows of a drain, and the bank's new flags. -/
def MuOp.drainRows (o : MuOp) (b : Bank) : List (List (List Byte)) × BitVec 5 :=
  let es := b.el.toList.map (drainElem o)
  let codes := es.map (·.1)
  let flags := es.foldl (fun f e => f ||| e.2) b.flags
  if (o.regs[9]).getLsbD 0 then (ringRowsOf ((groupsOf 64 codes).flatMap (runPieces o.dstt 7)), flags)
  else (ringRowsOf ((groupsOf (512 / typeBits o.dstt) codes).map fun g => packBits (typeBits o.dstt) g 64), flags)

/-- The producer's rows that the ring has room for; what is left. -/
def State.drainInto (h : BitVec 4) : List (List (List Byte)) → State → List (List (List Byte)) × State
  | [], s => ([], s)
  | row :: rest, s =>
    let r := s.cur.ring h
    if r.done then State.drainInto h rest s
    else if s.rowFree s.cur.bnd.tile r r.prod then State.drainInto h rest (s.produceRow s.cur.bnd.tile h r.prod row)
    else (row :: rest, s)

/-! ### Begin and complete (R314, R326, R333) -/

/-- Device cycles of R333. -/
def MuOp.cycles (o : MuOp) : Nat :=
  let p := match muSel o.regs with
    | 1 => 4
    | 2 => 1
    | _ => if typeBits o.typeA = 16 then 1 else 2
  match o.kind with
  | .mma => 70 + muK o.regs / p
  | .mmv => 70 + muM o.regs * muK o.regs * typeBits o.typeA / 4096
  | .mldb => 16 + muBatch o.regs * muK o.regs * typeBits o.typeB / 4096
  | .mdrain => 80
  | _ => 1

/-- The head operation replaced. -/
def State.setMu (s : State) (o : MuOp) : State := s.modEng fun g => { g with muOps := o :: g.muOps.drop 1 }

/-- The head operation leaves the unit. -/
def State.endMu (s : State) : State := s.modEng fun g => { g with muOps := g.muOps.drop 1 }

/-- The next operation begins once the unit is free: a swap or a clear takes effect, a drain converts its bank. -/
def State.beginMu (s : State) : State :=
  match s.cur.eng.muOps with
  | [] => s
  | o :: _ =>
    if o.begun || !s.engineMay s.cur .matrix || s.tlbPending s.cur.bnd.tile then s
    else
      let o' : MuOp := { o with begun := true, readyAt := if o.steps = 0 then some (s.clk.tick + o.cycles) else none }
      match o.kind with
      | .mswap => (s.modEng fun g => { g with bank0 := g.bank1, bank1 := g.bank0 }).setMu o'
      | .mclr =>
        (s.modEng fun g =>
          let b := g.bank o.bank
          g.setBank o.bank { el := if o.q.getLsbD 0 then .replicate 4096 0#32 else b.el
                             flags := if o.q.getLsbD 1 then 0#5 else b.flags }).setMu o'
      | .mdrain =>
        let (rows, f) := o.drainRows (s.cur.eng.bank o.bank)
        (s.modEng fun g => g.setBank o.bank { g.bank o.bank with flags := f }).setMu { o' with drain := rows }
      | _ => s.setMu o'

/-- Operand rows taken in, and a k-step where they suffice; those of the side stream come before the step's A and B rows (R328). -/
def State.feedMu (s : State) (o : MuOp) : State :=
  let fault (s : State) (e : Status × Nat) : State :=
    (s.endMu).engineFault s.cur.bnd.tile e.1 (BitVec.ofNat 64 e.2) o.pc
  let (na, nb, ns) := o.need
  match State.feedPort (muHandle o.regs 5) (missing ns o.side) s o.side with
  | (.error e, s1) => fault s1 e
  | (.ok side, s1) =>
    if missing ns side != 0 then s1.setMu { o with side := side }
    else match State.feedPort (muHandle o.regs 3) (missing na o.bufA) s1 o.bufA with
    | (.error e, s2) => fault s2 e
    | (.ok a, s2) =>
      match State.feedPort (muHandle o.regs 4) (missing nb o.bufB) s2 o.bufB with
      | (.error e, s3) => fault s3 e
      | (.ok b, s3) =>
        let o1 : MuOp := { o with bufA := a, bufB := b, side := side }
        if missing na a = 0 ∧ missing nb b = 0 then
          let s4 := (s3.setMu o1).muStep o1
          if o.step + 1 = o.steps then
            s4.modEng fun g => match g.muOps with
              | x :: r => { g with muOps := { x with readyAt := some (s.clk.tick + o.cycles) } :: r }
              | [] => g
          else s4
        else s3.setMu o1

/-- The operation at work goes on, and completes when its time has come; a drain that has found its ring full lands one row in a device
cycle from then on (R333). -/
def State.workMu (s : State) : State :=
  match s.cur.eng.muOps with
  | [] => s
  | o :: _ =>
    if !o.begun || !s.engineMay s.cur .matrix then s
    else match o.readyAt with
      | none => s.feedMu o
      | some t =>
        if s.clk.tick < t then s
        else match o.kind with
          | .mdrain =>
            let h := muHandle o.regs 10
            let r := s.cur.ring h
            if !o.detached && (!r.bound || (r.pkind != 4 && r.pkind != 0)) then
              (s.endMu).engineFault s.cur.bnd.tile .ringMisuse (BitVec.ofNat 64 r.prod) o.pc
            else
              let now := if o.stuck then 1 else o.drain.length
              let (left, s') := if o.detached then ([], s)
                else State.drainInto h (o.drain.take now) { s with cur := s.cur.setRing h { r with pkind := 4 } }
              let left := if o.detached then [] else left ++ o.drain.drop now
              if left.isEmpty then
                (if (o.regs[9]).getLsbD 2 then
                  s'.modEng fun g => g.setBank o.bank { g.bank o.bank with el := .replicate 4096 0#32 } else s').endMu
              else s'.setMu { o with drain := left, stuck := true, readyAt := some (s.clk.tick + 1) }
          | _ => s.endMu

/-- Every k-step whose rows are full, in one device cycle. -/
def State.runMu : Nat → State → State
  | 0, s => s
  | n + 1, s =>
    let s' := s.workMu
    if (s'.cur.eng.muOps.head?.map (·.step)) = (s.cur.eng.muOps.head?.map (·.step)) then s' else State.runMu n s'

/-- The rows of a begun operation that became full in the device cycle that ends are read in it, whoever wrote them, so that R333 counts from
the last of them. -/
def State.feedEdge (s : State) : State :=
  if s.cur.eng.muOps.head?.any fun o => o.begun && o.readyAt.isNone then State.runMu 1025 s else s

def execMuOperationBegin (tile : Nat) (s : State) : Out := .next (s.onTask tile State.beginMu)
def execMuOperationComplete (tile : Nat) (s : State) : Out := .next (s.onTask tile State.workMu)

end Sys2Proof.Machine
end

