-- ==== Sys2Proof/Machine/Movers.lean ====
section
/-! DEFINITION. What moves data between HBM, towers and tiles on its own: windows and fabric streams (R242 to R245, R268 to
R274), broadcast columns (R246, R254, R324, R325), the express network (R247, R334, R335), neighbour shifts (R308), the bulk
copier (R336), FLOAD and FBIND (R265, R266), publications (R362, R363), TLBINV (R400) and signals (R420). -/

namespace Sys2Proof.Machine

/-- A task still takes deliveries from others (R417). -/
def Task.receives (t : Task) : Bool := t.seq.state != .ended && t.seq.state != .dead

/-! ### Windows and fabric streams -/

/-- The open stream of a handle, with its task. -/
def State.streamOf (s : State) (tile : Nat) (h : BitVec 4) : Option (Task × Stream) :=
  (s.taskOn tile).bind fun t => (t.ring h).stream.map fun st => (t, st)

/-- One step of the stream of a handle: a ring row of a window, or a step through the fabric. -/
def State.streamStep (s : State) (tile : Nat) (h : BitVec 4) : State :=
  match s.streamOf tile h with
  | none => s
  | some (t, st) => if st.ctxs.isEmpty then s.windowRow t h st else s.graphStep t h st

def execWindowRowDelivery (tile : Nat) (h : BitVec 4) (s : State) : Out := .next (s.streamStep tile h)

def execFabricBeat (tile : Nat) (h : BitVec 4) (s : State) : Out :=
  .next (match s.streamOf tile h with
    | none => s
    | some (t, st) => if st.ctxs.isEmpty then s else s.graphStep t h st)

def execFabricStreamEnd (tile : Nat) (h : BitVec 4) (s : State) : Out :=
  .next (match s.streamOf tile h with
    | none => s
    | some (t, st) => if st.ctxs.isEmpty then s else s.graphEnd t h st)

/-- A stopped context gives up its cells, or the decode cell, to another stream that needs them (R274). -/
def execFabricContextSpill (ctx : Nat) (s : State) : Out :=
  .next (
    let x := s.fabCtx ctx
    if x.state = 5 then s.setFab ctx { x with spilled := true } else s)

/-! ### Requests to the fabric (R265, R266, R338) -/

/-- The oldest request of the tile's fabric port, when it is of the kind asked for. A load that no context takes reads no image (R265). -/
def State.fabricRequestStep (s : State) (bind : Bool) : State :=
  match s.cur.eng.fbReqs with
  | [] => s
  | q :: rest =>
    if q.bind != bind || !s.engineMay s.cur .fabric || s.tlbPending s.cur.bnd.tile then s
    else
      let pop (s : State) : State := s.modEng fun g => { g with fbReqs := rest }
      if bind then
        let ok := s.fabBudget s.cur q.ctxs
        pop (q.ctxs.foldl (fun s c => s.bindCtx s.cur c ok) s)
      else if q.ctxs.all fun c => !(s.fabCtx c).loadable then pop (q.ctxs.foldl (fun s c => s.setFab c ((s.fabCtx c).load none)) s)
      else match s.readImage s.cur q.image q.got with
        | (.error .wait, s') => s'
        | (.error f, s') => (pop s').engineMemFault s.cur.bnd.tile q.pc f
        | (.ok (.part bs), s') => s'.modEng fun g => { g with fbReqs := { q with got := bs } :: rest }
        | (.ok (.whole img), s') => pop (q.ctxs.foldl (fun s c => s.setFab c ((s.fabCtx c).load img)) s')

def execFabricLoadRequest (tile : Nat) (s : State) : Out := .next (s.onTask tile fun s => s.fabricRequestStep false)
def execFabricBindRequest (tile : Nat) (s : State) : Out := .next (s.onTask tile fun s => s.fabricRequestStep true)

/-! ### Broadcast columns (R246, R254, R324, R325) -/

def BcXfer.towers (x : BcXfer) : List Nat := (List.range 8).filter fun i => x.tset.getLsbD i

/-- The head transfer of a column replaced, or removed. -/
def State.setBcHead (s : State) (col : Nat) (x : Option BcXfer) : State :=
  let rest := (tget [] s.net.bcols col).drop 1
  { s with net := { s.net with bcols := tput col (x.toList ++ rest) s.net.bcols } }

/-- What a receiver's ring says to a row of a producer: it is taken, waits, is discarded after WFLUSH, or is RING_MISUSE. -/
inductive Accept where
  | take
  | wait
  | discard
  | misuse
deriving DecidableEq, Repr

def State.ringAccepts (s : State) (t : Task) (h : BitVec 4) (pkind ix : Nat) (towers : List Nat) : Accept :=
  let r := t.ring h
  if !r.bound || (r.pkind != 0 && r.pkind != pkind) then .misuse
  else if r.done then .discard
  else if decide (ix < r.prod) then .misuse
  else if towers.all fun i => s.mayWrite t.bnd.tile r i ix && !s.towerBusy t.bnd.tile i then .take
  else .wait

/-- One row of a transfer delivered to a receiver. -/
def State.bcLand (s : State) (x : BcXfer) (bs : List Byte) (t : Task) : State :=
  let tile := t.bnd.tile
  match x.ring with
  | none =>
    (x.towers.zipIdx.foldl (fun (s : State) (p : Nat × Nat) =>
      s.engineWrite tile p.1 (64 * (x.raddr + x.next)) ((bs.drop (64 * p.2)).take 64)) s).settle tile
  | some h =>
    let s := s.modRing tile h fun r => { r with pkind := 2 }
    let ix := (t.ring h).prod
    s.produceRow tile h ix ((List.range 8).map fun i =>
      match x.towers.idxOf? i with
      | some k => (bs.drop (64 * k)).take 64
      | none => zeros 64)

/-- The next row of the transfer that a column serves, or a part of its reading (R255). An uncorrectable row stops it; in ring mode that is an error of the receivers'
producer (R252). A receiver that has closed the ring takes no more rows (log entry 86). -/
def State.bcStep (s : State) (col : Nat) : State :=
  match tget [] s.net.bcols col with
  | [] => s
  | x :: _ =>
    match s.taskOn x.tile with
    | none => s.setBcHead col none
    | some t =>
      let rcv := (s.bcReceivers x.launch t.bnd.tx x.y0 x.y1).filter Task.receives
      let on := rcv.filter fun u => !x.off.contains u.bnd.tile
      if !s.engineMay t .column || (x.next == 0 && s.tlbPending x.tile) then s
      else
        let busy := on.any fun u => x.towers.any fun i => s.towerBusy u.bnd.tile i
        if busy then s
        else
          let acc (u : Task) : Accept := match x.ring with
            | none => .take
            | some h => if x.off.contains u.bnd.tile && (u.ring h).bound then .discard else s.ringAccepts u h 2 (u.ring h).prod (List.range 8)
          match rcv.find? fun u => acc u == .misuse with
          | some u =>
            (s.setBcHead col none).engineFault x.tile .ringMisuse
              (BitVec.ofNat 64 ((x.ring.map fun h => (u.ring h).prod).getD 0)) x.pc
          | none =>
            if rcv.any fun u => acc u == .wait then s
            else
              let n := 64 * x.towers.length
              match State.readOn t (engineRead 18) (x.src + n * x.next) n (unitFuel n) x.got s with
              | (.error .wait, s') => s'
              | (.error f, s') =>
                let s' := s'.setBcHead col none
                (match f, x.ring with
                  | .bad _, some h => on.foldl (fun s u => s.onTile u.bnd.tile fun t => t.ringError h 4) s'
                  | _, _ => s'.engineMemFault x.tile x.pc f)
              | (.ok bs, s') =>
                if bs.length < n then s'.setBcHead col (some { x with got := bs })
                else
                let s' := (rcv.filter fun u => acc u == .take).foldl (fun s u => s.bcLand x bs u) s'
                let s' := s'.onTile x.tile fun t => { t with eng := { t.eng with bcRows := t.eng.bcRows + 1 } }
                s'.setBcHead col (if x.next + 1 = x.rows then none else some { x with next := x.next + 1, got := [] })

def execBcRowDelivery (column : Nat) (s : State) : Out := .next (s.bcStep column)

/-! ### The express network (R247, R334, R335) -/

/-- The task that a packet's operation belongs to: an XRD reply goes back to it. -/
def Packet.owner (p : Packet) : Nat :=
  match p.body with
  | .readReply _ _ _ => p.dst
  | _ => p.src

/-- An operation changed, and removed once every row is sent and every packet has landed. -/
def State.modXp (s : State) (tile id : Nat) (f : XpOp → XpOp) : State :=
  s.onTile tile fun t => { t with eng := { t.eng with xpOps :=
    (t.eng.xpOps.map fun o => if o.id = id then f o else o).filter fun o => decide (o.sent < o.nr) || o.inNet != 0 } }

/-- The nodes of a route, X then Y. -/
def routeNodes (src dst : Nat) : List Nat :=
  let i0 := tileX src / 4
  let i1 := tileX dst / 4
  let j0 := tileY src / 4
  let j1 := tileY dst / 4
  let span (a b : Nat) : List Nat := (List.range (max a b + 1)).filter fun k => decide (min a b ≤ k)
  ((span i0 i1).map fun i => 6 * i + j0) ++ (((span j0 j1).filter (· != j0)).map fun j => 6 * i1 + j)

/-- The row that the tile's next XSEND sends: a whole ring row, consumed, in eight packets. What an ended task still has to send to an
ended one is discarded, and a row that none of its detached producers will write any more ends in RING_MISUSE, as after WCLOSE (R321, R417). -/
def State.xpInject (s : State) : State :=
  let tile := s.cur.bnd.tile
  match s.cur.eng.xpOps.find? fun o => decide (o.sent < o.nr) with
  | none => s
  | some o =>
    if !s.engineMay s.cur .express || (o.sent == 0 && s.tlbPending tile) then s
    else
      let r := s.cur.ring o.h
      let ix := o.i0 + o.sent
      let fail (st : Status) : State :=
        (s.modEng fun g => { g with xpOps := g.xpOps.filter fun x => x.id != o.id }).engineFault tile st (BitVec.ofNat 64 ix) o.pc
      let gone := match s.tileAt s.cur.bnd.launch o.x o.y with
        | some dst => (s.taskOn dst).all fun u => !u.receives
        | none => true
      if !s.cur.receives && gone then s.modXp tile o.id fun x => { x with sent := x.nr }
      else if !r.bound || decide (ix < r.ret) then fail .ringMisuse
      else if decide (ix < r.prod) && (List.range 8).all fun i => s.partFull tile i (r.row ix) then
        match s.tileAt s.cur.bnd.launch o.x o.y with
        | none => fail .ringMisuse
        | some dst =>
          let row := r.row ix
          let pk (i : Fin 8) : Packet :=
            { launch := s.cur.bnd.launch, src := tile, op := o.id, dst := dst, pc := o.pc
              body := .ringPart o.rh (o.j0 + o.sent) i (s.towerRead tile i.val (64 * row) 64) }
          let s' := { s with net := { s.net with packets := s.net.packets ++ clusters.map pk } }
          let s' := (List.range 8).foldl (fun s i => s.notePoison tile i (rowGranules row) (some o.pc)) s'
          let s' := (List.range 8).foldl (fun s i => s.consume tile i (rowGranules row)) s'
          (s'.modXp tile o.id fun x => { x with sent := x.sent + 1, inNet := x.inNet + 8 }).countNode (nodeOf tile) 4 8
      else match s.cur.waitFault o.h ix with
        | some st => fail st
        | none => if s.cur.seq.state = .ended && decide (r.prod ≤ ix) then fail .ringMisuse else s

/-- A packet leaves the network; one that lands is counted as such. -/
def State.dropPacket (s : State) (k : Nat) (p : Packet) (landed : Nat := 0) : State :=
  let s := { s with net := { s.net with packets := s.net.packets.eraseIdx k } }
  s.modXp p.owner p.op fun o => { o with inNet := o.inNet - 1, landed := o.landed + landed }

/-- The receiver has closed the ring that the operation of a packet delivered into (R321; log entry 86). -/
def State.packetDetached (s : State) (p : Packet) : Bool :=
  (s.taskOn p.src).any fun t => t.bnd.launch == p.launch && t.eng.xpOps.any fun o => o.id == p.op && o.detached

/-- The fault of a receiver, taken by the task that started the operation (R317). -/
def State.packetFault (s : State) (k : Nat) (p : Packet) (st : Status) (info : W64) : State :=
  (s.dropPacket k p).engineFault p.owner st info p.pc

/-- A packet lands whole in its tile, waits there, or meets R317. A request has crossed the network when its reply is
injected and sets out (R426). -/
def State.packetAt (s : State) (k : Nat) (p : Packet) (t : Task) : State :=
  let tile := p.dst
  match p.body with
  | .ringPart h ix i bs =>
    if s.packetDetached p && (t.ring h).bound then s.dropPacket k p
    else match s.ringAccepts t h 3 ix [i.val] with
    | .misuse => s.packetFault k p .ringMisuse (BitVec.ofNat 64 ix)
    | .wait => s
    | .discard => s.dropPacket k p
    | .take => ((s.dropPacket k p 1).modRing tile h fun r => { r with pkind := 3 }).producePart tile h i.val ix bs
  | .towerRow c addr bs =>
    if !s.rangeOk t c.val addr 64 then s.packetFault k p .towerRange (towerInfo c addr)
    else if s.towerBusy tile c.val then s
    else ((s.dropPacket k p).engineWrite tile c.val addr bs).settle tile
  | .readReq c addr back backAddr =>
    if !s.rangeOk t c.val addr 64 then s.packetFault k p .towerRange (towerInfo c addr)
    else
      let bad := (granulesOf addr 64).any fun g => s.towerPoisoned tile c.val (g / 4)
      let s := if bad then s.onTile p.src fun u => u.deferHw true (some p.pc) else s
      let q : Packet := { p with src := p.dst, dst := p.src, body := .readReply back backAddr (s.towerRead tile c.val addr 64) }
      let s := { s with net := { s.net with packets := s.net.packets.eraseIdx k ++ [q] } }
      (routeNodes p.src p.dst).foldl (fun s c => s.countNode c 2 1) (s.countNode (nodeOf p.dst) 4 1)
  | .readReply c addr bs =>
    if s.towerBusy tile c.val then s else ((s.dropPacket k p).engineWrite tile c.val addr bs).settle tile

/-- A packet waits at a full ring row of a tile of an express node (R247, R426). -/
def State.nodeWaits (s : State) (n : Nat) : Bool :=
  s.net.packets.any fun p => nodeOf p.dst == n && (match p.body, s.taskOn p.dst with
    | .ringPart h ix i _, some t => t.bnd.launch == p.launch && t.receives && !s.packetDetached p && s.ringAccepts t h 3 ix [i.val] == .wait
    | _, _ => false)

/-- A packet of an XWR or XRD: its operation begins with it, so a TLBINV of its tile in progress holds it (R400). -/
def State.packetHeld (s : State) (p : Packet) : Bool :=
  match p.body with
  | .towerRow _ _ _ => s.tlbPending p.src
  | .readReq _ _ _ _ => s.tlbPending p.src
  | _ => false

/-- Packet `k` of the network lands, unless an earlier one from the same port to the same tile is still on its way. -/
def State.landPacket (s : State) (k : Nat) : State :=
  match s.net.packets[k]? with
  | none => s
  | some p =>
    let early := (s.net.packets.take k).any fun q => q.src == p.src && q.dst == p.dst
    let held := match s.taskOn p.owner with
      | some t => !s.engineMay t .express
      | none => false
    if early || held || s.packetHeld p then s
    else
      let route := (routeNodes p.src p.dst)
      let n := s.net.packets.length
      let s' := match s.taskOn p.dst with
        | none => s.dropPacket k p
        | some t => if t.bnd.launch = p.launch ∧ t.receives then s.packetAt k p t else s.dropPacket k p
      if s'.net.packets.length < n then route.foldl (fun s c => s.countNode c 2 1) s' else s'

/-- A packet lands; a row that a port has still to send enters the network first. -/
def execXpPacketLanding (index : Nat) (s : State) : Out := .next (s.landPacket index)

/-! ### Neighbour shifts (R308) -/

/-- A part of a cluster whose time has come, once every part of its direction that an earlier VSHIFT sent, in whatever cluster, has
arrived (R308). -/
def State.shiftReady (s : State) (cl : Nat) (waits : ShiftPart → Bool) : Option ShiftPart :=
  s.cur.eng.shifts.find? fun p =>
    p.cluster.val == cl && decide (p.ready ≤ s.clk.tick) && !waits p
    && !s.cur.eng.shifts.any fun q => q.dir == p.dir && decide (q.ready < p.ready)

/-- A part waiting in a cluster's shift port is delivered. -/
def State.shiftStep (s : State) (cl : Nat) : State :=
  let tile := s.cur.bnd.tile
  let target (p : ShiftPart) : Option Task := (s.shiftTarget s.cur.bnd p.dir).bind fun k => s.taskOn k
  let accept (p : ShiftPart) : Option (Task × Accept) := match target p with
    | none => none
    | some u => if u.receives then some (u, s.ringAccepts u p.h 6 p.index [p.cluster.val]) else none
  let waiting (p : ShiftPart) : Bool := match accept p with
    | some (_, .wait) => true
    | _ => false
  if !s.engineMay s.cur .express then s
  else match s.shiftReady cl waiting with
    | none => s
    | some p =>
      let s' := s.modEng fun g => { g with shifts := g.shifts.erase p }
      match accept p with
      | none => s'
      | some (_, .discard) => s'
      | some (_, .misuse) => s'.engineFault tile .ringMisuse (BitVec.ofNat 64 p.index) p.pc
      | some (u, _) =>
        (s'.modRing u.bnd.tile p.h fun r => { r with pkind := 6 }).producePart u.bnd.tile p.h p.cluster.val p.index p.bytes

def execShiftPartDelivery (tile : Nat) (cluster : BitVec 3) (s : State) : Out :=
  .next (s.onTask tile fun s => s.shiftStep cluster.toNat)

/-! ### The bulk copier (R336) -/

/-- The place of a shadow offset in entry `ix` (R313, R360): valid, and its last byte within the buffer's pages. The entry is
read each time (log entry 94). -/
def State.shadowPlace (s : State) (asid : BitVec 14) (ix off n : Nat) : Option Place :=
  let (w0, w1, w2, _) := s.bufWords asid.toNat ix
  let size := 2 ^ pageLog (w0.extractLsb' 2 3).toNat
  if !s.bufValid asid.toNat ix || decide ((w0.extractLsb' 8 20).toNat < (off + n - 1) / size) then none
  else
    let b := if w0.getLsbD 1 then (w1.extractLsb' 0 40).toNat else (w2.extractLsb' 0 40).toNat
    some { kind := 0, addr := b * 4096 + off }

/-- Where a piece of a copy is written: at a virtual address, or a shadow offset; writes that a pending publication holds wait. -/
def copyPlace (t : Task) (o : DmOp) (s : State) (va n : Nat) : Except MemFail Span × State :=
  if o.bufV then
    if t.pubHolds o.id o.bufIx then (.error .wait, s)
    else
      let a := s.bufAddr t.bnd.asid.toNat o.bufIx
      if s.retraining a then (.error .wait, s)
      else match s.shadowPlace t.bnd.asid o.bufIx va n with
        | none => (.error (.prot va), s)
        | some p => (.ok { place := p, pte := 0#64, va := va, len := n }, s.beats (channelOf a) 2 1)
  else match s.translate t.xctx (engineStore 17) va n with
    | (.error e, s') => (.error e.asMem, s')
    | (.ok sp, s') => if t.pubHoldsSpan o.id sp then (.error .wait, s') else (.ok sp, s')

/-- Tower and byte address of byte 64k of a tower copy. -/
def copyRow (base k : Nat) : Nat × Nat := (k % 8, 64 * (base / 64 + k / 8))

/-- The rows of a chunk that a copy from a tower reads, read plainly one after the other behind those read already, with a pause after each or
none (R255; log entry 81). -/
def State.copyRows (o : DmOp) (off n : Nat) : Nat → List Byte → State → List Byte × State
  | 0, got, s => (got, s)
  | fuel + 1, got, s =>
    if n ≤ got.length then (got, s)
    else
      let tile := s.cur.bnd.tile
      let p := copyRow o.src (off / 64 + got.length / 64)
      let bs := s.towerRead tile p.1 p.2 64
      let (pause, s1) := (s.notePoison tile p.1 (granulesOf p.2 64) (some o.pc)).choose
      if pause then (got ++ bs, s1) else State.copyRows o off n fuel (got ++ bs) s1

/-- The rows of a chunk that a copy to a tower writes go on behind the `k` bytes written, likewise; it answers the bytes written. -/
def State.putRows (o : DmOp) (off : Nat) (bs : List Byte) : Nat → Nat → State → Nat × State
  | 0, k, s => (k, s)
  | fuel + 1, k, s =>
    if bs.length ≤ k then (k, s)
    else
      let p := copyRow o.dst (off / 64 + k / 64)
      let (pause, s1) := (s.engineWrite s.cur.bnd.tile p.1 p.2 ((bs.drop k).take 64)).choose
      if pause then (k + 64, s1) else State.putRows o off bs fuel (k + 64) s1

/-- The chunk under way of the oldest copy goes on: read whole, piece by piece, and then written, piece by piece (R255, R336). What the end of its
launch leaves of a copy is discarded where it must wait (R388). -/
def State.copyStep (s : State) : State :=
  let tile := s.cur.bnd.tile
  match s.cur.eng.dmOps with
  | [] => s
  | o :: rest =>
    if !s.engineMay s.cur .copier || (o.next == 0 && o.got.isEmpty && s.tlbPending tile) then s
    else
      let off := 4096 * o.next
      let n := min 4096 (o.len - off)
      let set (s : State) (o : DmOp) : State := s.modEng fun g => { g with dmOps := o :: rest }
      let done (s : State) : State :=
        if o.len ≤ off + n then s.modEng fun g => { g with dmOps := rest } else set s { o with next := o.next + 1, got := [], put := 0 }
      let waits (s : State) : State := if o.cutting then s.modEng fun g => { g with dmOps := rest } else s
      let fail (s : State) (f : MemFail) : State := match f with
        | .wait => waits s
        | f => (s.modEng fun g => { g with dmOps := rest }).engineMemFault tile o.pc f
      let toMem (s : State) (bs : List Byte) : State :=
        match State.writeOn s.cur 17 (copyPlace s.cur o) (o.dst + off) bs (unitFuel n) o.put s with
        | (.error .wait, k, s') => waits (set s' { o with got := bs, put := k })
        | (.error f, _, s') => fail s' f
        | (.ok k, _, s') => if k < n then set s' { o with got := bs, put := k } else done s'
      let toTower (s : State) (bs : List Byte) : State :=
        let (k, s') := State.putRows o off bs 64 o.put s
        let s' := s'.settle tile
        if k < n then set s' { o with got := bs, put := k } else done s'
      if o.mode = 2#2 then
        let (bs, s') := State.copyRows o off n 64 o.got s
        if bs.length < n then set s' { o with got := bs } else toMem s' bs
      else if o.mode = 1#2 && (List.range 8).any fun i => s.towerBusy tile i then s
      else if o.got.length = n then (if o.mode = 0#2 then toMem s o.got else toTower s o.got)
      else match State.readOn s.cur (engineRead 17) (o.src + off) n (unitFuel n) o.got s with
        | (.error f, s') => fail s' f
        | (.ok bs, s') =>
          if bs.length < n then set s' { o with got := bs }
          else if o.mode = 0#2 then toMem s' bs
          else toTower s' bs

def execDcopyChunk (tile : Nat) (s : State) : Out := .next (s.onTask tile State.copyStep)

/-! ### Publications (R362, R363) -/

/-- Address of an entry of the buffer map of an address space, when it has one and the entry is valid. -/
def State.pubEntry (s : State) (asid : BitVec 14) (ix : Nat) : Option Nat :=
  if s.bufValid asid.toNat ix then some (s.bufAddr asid.toNat ix) else none

/-- An entry swapped: SEL inverted, GEN one higher. -/
def State.swapEntry (s : State) (a : Nat) : State :=
  let w := s.hbm64 a
  let gen : W32 := w.extractLsb' 32 32 + 1#32
  let w' : W64 := (gen ++ w.extractLsb' 0 32) ^^^ 2#64
  ((s.countLocal 2 a 32).homeWrite { kind := 0, addr := a } (leBytes w'.toNat 8)).countLocal 3 a 8

/-- The oldest publication of a tile is applied once everything it waits on is done, and no channel of its entries retrains (R363, R431). -/
def State.publish (s : State) : State :=
  let tile := s.cur.bnd.tile
  match s.cur.eng.pubs with
  | [] => s
  | p :: rest =>
    let ixs := (List.range p.n).map (p.first + ·)
    if p.ids.any (fun i => (s.writersNow s.cur).contains i) || !s.portClearTo tile 1#2 p.at_
        || ixs.any (fun ix => s.retraining (s.bufAddr s.cur.bnd.asid.toNat ix)) then s
    else
      let s' := s.modEng fun g => { g with pubs := rest }
      match ixs.find? fun ix => (s.pubEntry s.cur.bnd.asid ix).isNone with
      | some ix => s'.engineFault tile .protection (BitVec.ofNat 64 ix) p.pc
      | none =>
        let s' := (ixs.filterMap (s.pubEntry s.cur.bnd.asid)).foldl State.swapEntry s'
        s'.modLaunch s.cur.bnd.launch fun l => { l with phaseCnt := l.phaseCnt + 1 }

def execPublicationApply (tile : Nat) (s : State) : Out := .next (s.onTask tile State.publish)

/-! ### TLBINV (R400) -/

/-- Tasks held before a bundle try it again; those of a stop are not woken. -/
def State.unhold (s : State) : State :=
  s.mapTasks fun t => if t.seq.state = .held then { t with seq := { t.seq with state := .running } } else t

/-- The oldest TLBINV completes: what it names leaves every translation cache. -/
def State.completeTlbInv (s : State) : State :=
  match s.mem.tlbInvs with
  | [] => s
  | v :: rest =>
    let drop (l : Tbl (List TlbEntry)) : Tbl (List TlbEntry) :=
      (l.map fun p => (p.1, p.2.filter fun e => !v.drops e)).filter fun p => p.2 != []
    ({ s with mem := { s.mem with tlbInvs := rest, tlb1 := drop s.mem.tlb1, tlb2 := drop s.mem.tlb2 } } : State).unhold

def execTlbinvComplete (s : State) : Out := .next s.completeTlbInv

/-! ### Signals (R420) -/

/-- A change made for a task that is not on the grid: its saved context stands in for the current task. -/
def State.withCur (s : State) (u : Task) (f : State → State) : Task × State :=
  let s1 := f { s with cur := u }
  (s1.cur, { s1 with cur := s.cur })

/-- What a saved context of a tile still has posted goes on while its launch is off the grid (R182, R342). -/
def State.onContexts (s : State) (tile : Nat) (f : State → State) : State :=
  s.sched.launches.foldl (fun s l => match l.contexts.find? fun t => t.bnd.tile == tile with
    | some u =>
      let (u', s') := s.withCur u f
      s'.modLaunch l.id fun l => { l with contexts := l.contexts.map fun t => if t.bnd.tile = tile then u' else t }
    | none => s) s

/-- The host signal ring has room, and a base. -/
def State.sigRoom (s : State) : Bool :=
  s.mgmt.sigbase.extractLsb' 12 52 != 0#52 && (s.mgmt.sighead + 1) % 2 ^ s.mgmt.siglog2 != s.mgmt.sigtail

/-- A record written into the ring, then its message; a masked vector's pending bit is set in its place. -/
def State.writeSignal (s : State) (vector : BitVec 10) (payload : W32) (hi : Nat) : State :=
  let a := (s.mgmt.sigbase.extractLsb' 12 52).toNat * 4096 + 16 * s.mgmt.sighead
  let w := payload.toNat + vector.toNat * 2 ^ 32 + hi * 2 ^ 64
  let s := s.homeWrite { kind := 2, addr := a } (leBytes w 16)
  let masked := s.mgmt.msixMask.contains vector.toNat
  { s with mgmt := { s.mgmt with
      sighead := (s.mgmt.sighead + 1) % 2 ^ s.mgmt.siglog2
      msix := if masked then s.mgmt.msix else s.mgmt.msix ++ [vector]
      msixPend := if masked then insertNat vector.toNat s.mgmt.msixPend else s.mgmt.msixPend } }

/-- The upper half of a task's record: PC, TX, TY and LAUNCHID. -/
def signalHi (b : Bind) (pc : Nat) : Nat := pc + b.tx * 2 ^ 13 + b.ty * 2 ^ 18 + b.launch * 2 ^ 32

/-- A tile's oldest signal, after the task's earlier writes; one that cannot go home keeps it back (R251, R342). -/
def State.deliverSignal (s : State) : State :=
  match s.cur.eng.sigs with
  | [] => s
  | g :: rest =>
    if !s.sigRoom || !s.portFreeTo s.cur.bnd.tile 3#2 then s
    else
      let s := s.drainTile s.cur.bnd.tile
      (s.modEng fun e => { e with sigs := rest }).writeSignal g.vector g.payload (signalHi s.cur.bnd g.pc)

/-- A tile number beyond the grid delivers the oldest counter signal. -/
def execSignalDelivery (tile : Nat) (s : State) : Out :=
  .next (if tile < Config.gridW * Config.gridH then (s.onTask tile State.deliverSignal).onContexts tile State.deliverSignal
    else match s.mgmt.devSigs with
      | [] => s
      | (v, n) :: rest =>
        if s.sigRoom then ({ s with mgmt := { s.mgmt with devSigs := rest } } : State).writeSignal v n 0 else s)

end Sys2Proof.Machine
end

