-- ==== Sys2Proof/Machine/Nbu.lean ====
section
/-! DEFINITION. Near-bank units (R275 to R283, R339 to R341): packets on their way into a queue, the expansion of a command,
row operations under arbitration, completion and failure. A microinstruction acts for the unit and command that State.net
names. -/

namespace Sys2Proof.Machine

/-! ### Units and commands -/

/-- The issuer is not stopped (R283). -/
def State.issuerActive (s : State) (c : NbCmd) : Bool :=
  match s.issuerTask c with
  | some t => s.engineMay t .nbu
  | none => false

/-- The command that executes next: the one at work when its issuer goes on, else the oldest of an issuer that does. -/
def State.nbHead (s : State) (u : Nbu) : Option NbCmd :=
  match u.queue.find? fun c => u.owner == some c.issuer && s.issuerActive c with
  | some c => some c
  | none => u.queue.find? fun c => s.issuerActive c

def zeroAcc : Vector (Vector W32 256) 4 := .replicate 4 (.replicate 256 0#32)

/-- An issuer's accumulators (R278). -/
def Nbu.acc (u : Nbu) (i : Nat × Nat) : Vector (Vector W32 256) 4 := ((u.accs.find? fun a => a.1 == i).map (·.2)).getD zeroAcc
def Nbu.setAcc (u : Nbu) (i : Nat × Nat) (v : Vector (Vector W32 256) 4) : Nbu :=
  { u with accs := (i, v) :: u.accs.filter fun a => a.1 != i }

/-! ### Expansion (R276, R277) -/

def commandWords (p : NbForm) (cmd : BitVec 4) : Vector W32 8 :=
  Vector.ofFn fun (i : Fin 8) => if i.val = 0 then p.header cmd else (p.words[i.val - 1]?).getD 0#32

/-- The header's values and the words a command does not use. -/
def nbValid (p : NbForm) (rows : Nat) (used : List Nat) : Bool :=
  (p.typ == 0#4 || p.typ == 8#4) && p.opf != 3#2 && decide (p.nrow.toNat < rows)
  && ((List.range 7).all fun k => used.contains (k + 1) || (p.words[k]?).getD 0#32 == 0#32)

def rowForm (acc rsel : BitVec 2) (off : Nat) : MicroForm := { acc := acc, rsel := rsel, off := BitVec.ofNat 24 off }

/-- The microinstructions of UPROG: words 3 onward up to the first END, each with RSEL = 0, and zeros after it. With no END among them it
ends after word 7, and one invalid microinstruction breaks the whole command before any is executed (R276, R281; log entry 88). -/
def uprogOps : List W32 → Option (List Instr)
  | [] => some [.nbEnd]
  | w :: l =>
    match decodeMicro w with
    | .ok .nbEnd => if l.all (· == 0#32) then some [.nbEnd] else none
    | .ok i => if w.extractLsb' 24 2 = 0#2 then (uprogOps l).map (i :: ·) else none
    | .error _ => none

/-- The expansion of a command, or none when it breaks R276 or R277. -/
def expand (i : Instr) : Option (List Instr) :=
  let rows (p : NbForm) (f : Nat → List Instr) : List Instr := (List.range (p.nrow.toNat + 1)).flatMap f ++ [.nbEnd]
  match i with
  | .reduce p => if nbValid p 32 [1] then some (rows p fun k => [.accop (rowForm p.acc 0#2 k)]) else none
  | .scaleacc p => if nbValid p 32 [1, 2] then some (rows p fun k => [.sacc (rowForm p.acc 0#2 k)]) else none
  | .cmpxchg p =>
    if nbValid p 16 [1, 2] then
      some (rows p fun k => [.loadacc (rowForm p.acc 1#2 k), .minmax (rowForm p.acc 0#2 k), .nbStore (rowForm p.acc 1#2 k)])
    else none
  | .idxreduce p =>
    if nbValid p 1 [1, 2, 3, 4, 5, 6, 7] then
      some (((List.range 7).filter fun k => (p.words[k]?).getD 0#32 != 0xFFFFFFFF#32).map (fun k =>
        Instr.accop (rowForm p.acc 2#2 (k + 1))) ++ [Instr.nbEnd])
    else none
  | .accwb p => if nbValid p 1 [1] then some [.nbStore (rowForm p.acc 0#2 0), .nbEnd] else none
  | .accclr p => if nbValid p 1 [] then some [.nbClear p.acc, .nbEnd] else none
  | .uprog p => if nbValid p 1 [1, 2, 3, 4, 5, 6, 7] then uprogOps (p.words.toList.drop 2) else none
  | _ => none

/-- The expansion of a queued packet. -/
def NbCmd.ops (c : NbCmd) : Option (List Instr) :=
  match decodePacket (c.word 0) (Vector.ofFn fun (i : Fin 7) => c.word (i.val + 1)) with
  | .ok i => expand i
  | .error _ => none

/-! ### The completion word (R280, R281) -/

/-- A command ends: DN counts it in the completion word (R280). A page that is not present pauses the end. -/
def State.nbComplete (s : State) (chan : Nat) (c : NbCmd) : State :=
  let fin (s : State) : State := s.setNbu chan ((s.nbu chan).finish c)
  if (c.word 0).getLsbD 19 then
    match s.donePlace chan 22 c with
    | (.ok sp, s') => fin (s'.bumpDone sp fun v => v / 2 ^ 63 * 2 ^ 63 + (v + 1) % 2 ^ 63)
    | (.error .wait, s') => s'
    | (.error _, s') => s'.nbFail chan c 0xFFFFFFFF#32
  else fin s

/-! ### Row operations (R275, R277) -/

/-- The row that a microinstruction names. -/
def NbCmd.row (c : NbCmd) (o : MicroForm) : Option W32 :=
  match o.rsel.toNat with
  | 0 => some (c.word 1 + o.off.signExtend 32)
  | 1 => some (c.word 2 + o.off.signExtend 32)
  | 2 => if 1 ≤ o.off.toNat ∧ o.off.toNat ≤ 7 then some (c.word o.off.toNat) else none
  | _ => none

/-- FP32 in the unit: nearest even, overflow to infinity, subnormals kept (R277). -/
def nbCx : NumCtx := { mode := 0, ovt := 1#64, flush := false }

def nbFloat (r : FVal × Flags) : W32 := (convertTo nbCx 0 r.1).1
def nbVal (x : W32) : FVal := decodeVal 0 x.toNat

/-- Maximum or minimum of two elements: IEEE for FP32, signed for INT32. -/
def nbMinMax (float wantMax : Bool) (a b : W32) : W32 :=
  if float then nbFloat (minmaxV wantMax (nbVal a) (nbVal b))
  else if wantMax then (if a.slt b then b else a) else (if b.slt a then b else a)

/-- acc OPF row. -/
def nbCombine (float : Bool) (opf : BitVec 2) (a b : W32) : W32 :=
  match opf.toNat with
  | 0 => if float then nbFloat (addV 0 (nbVal a) (nbVal b)) else a + b
  | 1 => nbMinMax float true a b
  | _ => nbMinMax float false a b

/-- acc + s × row, rounded once. -/
def nbScale (float : Bool) (k a b : W32) : W32 :=
  if float then nbFloat (fmaV 0 (nbVal k) (nbVal b) (nbVal a)) else a + k * b

def NbCmd.float (c : NbCmd) : Bool := (c.word 0).extractLsb' 6 4 == 0#4
def NbCmd.opf (c : NbCmd) : BitVec 2 := (c.word 0).extractLsb' 16 2

/-- The 256 elements of a row. -/
def rowWords (bs : List Byte) : Vector W32 256 := .ofFn fun (i : Fin 256) => BitVec.ofNat 32 (leNat ((bs.drop (4 * i.val)).take 4))
def wordsRow (v : Vector W32 256) : List Byte := v.toList.flatMap fun w => leBytes w.toNat 4

/-- The unit has executed the microinstruction that µPC names. -/
def State.nbAdvance (s : State) : State :=
  let u := s.nbu s.net.curChan
  s.setNbu s.net.curChan { u with upc := u.upc + 1 }

/-- A page of local HBM, channel-local in the unit's own channel, and not published (R275, R361). -/
def nbPageOk (chan : Nat) (sp : Span) : Bool :=
  sp.place.kind == 0 && pteChl sp.pte && !ptePub sp.pte && channelOf sp.place.addr == chan

/-- One row operation of the current command: `f` gives the new accumulator and the new row, if one is written, from the old
ones. A page that is not present pauses it; a row that breaks R275 makes the command fail, as does a poisoned row that is read. Writes
that the issuer's memory port still holds are not earlier writes (R434). -/
def State.rowOp (s : State) (o : MicroForm) (read write : Bool) (f : Vector W32 256 → Vector W32 256 → Vector W32 256 × Option (Vector W32 256)) :
    State :=
  let chan := s.net.curChan
  let c := s.net.curCmd
  match c.row o with
  | none => s.nbFail chan c 0xFFFFFFFF#32
  | some n =>
    match s.issuerTask c with
    | none => s
    | some t =>
      match s.translate t.xctx { read := true, write := write } (1024 * n.toNat) 1024 with
      | (.error e, s') => if e.asMem == .wait then s' else s'.nbFail chan c n
      | (.ok sp, s') =>
        if !nbPageOk chan sp || (read && s'.poisoned [sp]) then s'.nbFail chan c n
        else
          let u := s'.nbu chan
          let accs := u.acc c.issuer
          let (acc, out) := f (vat accs o.acc) (rowWords (s'.homeBytes sp.place 1024))
          let s' := s'.setNbu chan (u.setAcc c.issuer (vput accs o.acc acc))
          let s' := s'.countChan chan 4 1
          let s' := if read then s'.countChan chan 2 16 else s'
          let s' := if out.isSome then s'.countChan chan 3 16 else s'
          (match out with
            | some r => s'.homeWrite sp.place (wordsRow r)
            | none => s').nbAdvance

def execNbEnd (s : State) : Out := .next (s.nbComplete s.net.curChan s.net.curCmd)
def execLoadacc (o : MicroForm) (s : State) : Out := .next (s.rowOp o true false fun _ row => (row, none))
def execAccop (o : MicroForm) (s : State) : Out :=
  let c := s.net.curCmd
  .next (s.rowOp o true false fun acc row => (acc.zipWith (nbCombine c.float c.opf) row, none))
def execSacc (o : MicroForm) (s : State) : Out :=
  let c := s.net.curCmd
  .next (s.rowOp o true false fun acc row => (acc.zipWith (nbScale c.float (c.word 2)) row, none))
def execNbStore (o : MicroForm) (s : State) : Out := .next (s.rowOp o false true fun acc _ => (acc, some acc))
def execNbClear (acc : BitVec 2) (s : State) : Out :=
  let u := s.nbu s.net.curChan
  let i := s.net.curCmd.issuer
  .next (s.setNbu s.net.curChan (u.setAcc i (vput (u.acc i) acc (.replicate 256 0#32)))).nbAdvance
def execMinmax (o : MicroForm) (s : State) : Out :=
  let c := s.net.curCmd
  .next (s.rowOp o true true fun acc row =>
    (acc.zipWith (nbMinMax c.float true) row, some (acc.zipWith (nbMinMax c.float false) row)))

/-- A microinstruction executed by the unit that State.net names. -/
def microExec (i : Instr) (s : State) : Out :=
  match i with
  | .nbEnd => execNbEnd s
  | .loadacc o => execLoadacc o s
  | .accop o => execAccop o s
  | .sacc o => execSacc o s
  | .nbStore o => execNbStore o s
  | .nbClear acc => execNbClear acc s
  | .minmax o => execMinmax o s
  | _ => .next s

/-- The state that an outcome carries, or the old one. -/
def outState (s : State) : Out → State
  | .next t => t
  | _ => s

/-! ### Commands (R276) -/

/-- The microinstructions of the current command in order, until it ends, fails or pauses. -/
def State.runMicro : List Instr → State → State
  | [], s => s
  | i :: l, s =>
    let s' := outState s (microExec i s)
    if (s'.nbu s.net.curChan).upc = (s.nbu s.net.curChan).upc + 1 then State.runMicro l s' else s'

/-- Before a command of NBCMD begins, its DONE is judged: while its page is not present the command waits, and it fails when DONE names no
HBM word that the issuer may write (R281, R339). -/
def State.judgeDone (s : State) (chan : Nat) (c : NbCmd) (go : State → State) : State :=
  if c.stream.isSome || (s.nbu chan).upc != 0 then go s
  else match s.donePlace chan 22 c with
    | (.ok _, s') => go s'
    | (.error .wait, s') => s'
    | (.error _, s') => s'.nbFail chan c 0xFFFFFFFF#32

/-- A command with the current issuer and completion word, executed by the current unit to its end; a pause leaves it at the
queue's head. -/
def State.runCommand (s : State) (i : Instr) (words : Vector W32 8) : State :=
  let chan := s.net.curChan
  let c : NbCmd := { s.net.curCmd with words := words }
  let s := { s with net := { s.net with curCmd := c } }
  let u := s.nbu chan
  let s := s.setNbu chan { u with queue := c :: u.queue, owner := some c.issuer, upc := 0 }
  match expand i with
  | none => s.nbFail chan c 0xFFFFFFFF#32
  | some l => s.judgeDone chan c (State.runMicro l)

def execReduce (p : NbForm) (s : State) : Out := .next (s.runCommand (.reduce p) (commandWords p 1#4))
def execScaleacc (p : NbForm) (s : State) : Out := .next (s.runCommand (.scaleacc p) (commandWords p 2#4))
def execCmpxchg (p : NbForm) (s : State) : Out := .next (s.runCommand (.cmpxchg p) (commandWords p 3#4))
def execIdxreduce (p : NbForm) (s : State) : Out := .next (s.runCommand (.idxreduce p) (commandWords p 4#4))
def execAccwb (p : NbForm) (s : State) : Out := .next (s.runCommand (.accwb p) (commandWords p 5#4))
def execAccclr (p : NbForm) (s : State) : Out := .next (s.runCommand (.accclr p) (commandWords p 6#4))
def execUprog (p : NbForm) (s : State) : Out := .next (s.runCommand (.uprog p) (commandWords p 7#4))

/-! ### Arbitration and the unit's own steps (R278, R279, R283) -/

/-- Controller cycles at a device cycle: 1.25 ns against 0.8 ns. -/
def ccAt (tick : Nat) : Nat := tick * 25 / 16

/-- Device cycles that cover `n` controller cycles. -/
def dcOfCc (n : Nat) : Nat := (n * 16 + 24) / 25

def State.nbarb (s : State) (chan : Nat) : W32 := tget 0x4010#32 s.mgmt.nbarb chan
def nbForce (w : W32) : Nat := (w.extractLsb' 14 6).toNat
def nbHold (w : W32) : Nat := (w.extractLsb' 0 12).toNat

/-- A row operation may start now. -/
def State.rowMayStart (s : State) (chan : Nat) (u : Nbu) : Bool :=
  let w := s.nbarb chan
  let now := ccAt s.clk.tick
  let started := if u.period = now / 4096 then u.starts else 0
  !s.env.retrain.contains chan && decide (u.busyTo ≤ s.clk.tick)
  && (decide (u.idleFrom + dcOfCc (nbHold w) ≤ s.clk.tick) || decide (started < nbForce w))

/-- A row operation of the unit is counted against its period, and occupies it for 64 cc; no request has suspended it yet. -/
def Nbu.occupy (u : Nbu) (tick : Nat) : Nbu :=
  let p := ccAt tick / 4096
  { u with starts := (if u.period = p then u.starts else 0) + 1, period := p, busyTo := tick + dcOfCc 64, turned := false }

/-- The µPC and expansion of a stopped issuer go to the save area when another issuer's command is to execute; they come back
before that issuer's command goes on (R283). -/
def Nbu.takeOver (u : Nbu) (i : Nat × Nat) : Nbu :=
  if u.owner = some i then u
  else
    let u1 := match u.owner with
      | some o => { u with spilled := (o, u.upc) :: u.spilled.filter fun a => a.1 != o }
      | none => u
    { u1 with owner := some i, upc := ((u1.spilled.find? fun a => a.1 == i).map (·.2)).getD 0
              spilled := u1.spilled.filter fun a => a.1 != i }

/-- A microinstruction that is a row operation. -/
def isRowOp : Instr → Bool
  | .nbEnd => false
  | .nbClear _ => false
  | _ => true

/-- The unit executes the microinstruction that µPC names: a row operation under arbitration, a CLEAR in 1 cc, an END at once. -/
def State.nbStep (s : State) (chan : Nat) : State :=
  match s.nbHead (s.nbu chan) with
  | none => s
  | some c =>
    if decide (s.clk.tick < (s.nbu chan).busyTo) || s.env.retrain.contains chan then s
    else
      let u := (s.nbu chan).takeOver c.issuer
      let s1 := s.setNbu chan u
      let s1 := { s1 with net := { s1.net with curChan := chan, curCmd := c } }
      match c.ops with
      | none => s1.nbFail chan c 0xFFFFFFFF#32
      | some l => s1.judgeDone chan c fun s1 =>
        let i := (l[u.upc]?).getD .nbEnd
        if isRowOp i && !s1.rowMayStart chan u then s1
        else
          let s2 := outState s1 (microExec i s1)
          let u2 := s2.nbu chan
          if u2.upc = u.upc + 1 then
            let s3 := s2.setNbu chan (if isRowOp i then u2.occupy s.clk.tick else { u2 with busyTo := s.clk.tick + 1, turned := true })
            if (l[u2.upc]?).getD .nbEnd = .nbEnd then outState s3 (microExec .nbEnd s3) else s3
          else s2

def execRowOperationStart (chan : Nat) (s : State) : Out := .next (s.nbStep chan)

/-- An ordinary request of the channel: served at once, or 8 cc after the row operation under way, which suspends the unit at its row
boundary. Later ones that arrive before that are served behind it, with no turnaround of their own (R279). The ordinary queue is empty from
then on. -/
def State.ordinary (s : State) (chan : Nat) : State :=
  let u := s.nbu chan
  if u.busyTo ≤ s.clk.tick then s.setNbu chan { u with idleFrom := s.clk.tick }
  else if u.turned then s.setNbu chan { u with idleFrom := u.busyTo }
  else
    let t := u.busyTo + dcOfCc 8
    (s.setNbu chan { u with idleFrom := t, busyTo := t, turned := true }).countChan chan 5 1

def execOrdinaryRequestSuspend (chan : Nat) (s : State) : Out := .next (s.ordinary chan)

/-- The device cycle ends: every channel that has served an access in it has had an ordinary request (log entry 37). -/
def State.askedEdge (s : State) : State :=
  let t := s.obs.asked.foldl State.ordinary s
  { t with obs := { t.obs with asked := [] } }

/-- A stopped issuer's µPC, expansion and accumulators are spilled when another context's command is next (R283). -/
def execNbContextSpill (chan : Nat) (s : State) : Out :=
  .next (
    let u := s.nbu chan
    match s.nbHead u with
    | some c => if u.owner.isSome then s.setNbu chan (u.takeOver c.issuer) else s
    | none => s)

/-! ### The command port (R278, R282, R339, R341) -/

/-- A task stopped by a long wait goes on once its packet has entered (R282). -/
def Task.unNbHold (t : Task) : Task :=
  if t.seq.state = .nbHeld then { t with seq := { t.seq with state := .running } } else t

/-- The packets before the next fence begin to wait for a queue entry (R282, R341). -/
def waitNow (tick : Nat) : List NbPort → List NbPort
  | .packet chan ws done pc _ :: l => .packet chan ws done pc tick :: waitNow tick l
  | l => l

/-- The head of the tile's command port: a fence leaves once what was issued before it is performed (R341), a packet enters its queue, or fails at
share 0. -/
def State.nbPortStep (s : State) : State :=
  let tile := s.cur.bnd.tile
  let pop (s : State) : State := s.modEng fun g => { g with nbPort := g.nbPort.drop 1 }
  if !s.engineMay s.cur .nbu || s.tlbPending tile then s
  else match s.cur.eng.nbPort with
    | [] => s
    | .fence ids at_ :: _ =>
      if s.portClearTo tile 1#2 at_ && ids.all fun i => !(s.writersNow s.cur).contains i then
        (pop s).modEng fun g => { g with nbPort := waitNow s.clk.tick g.nbPort }
      else s
    | .packet chan ws done pc _ :: _ =>
      let c : NbCmd := { launch := s.cur.bnd.launch, tile := tile, region := s.cur.bnd.region, words := ws, doneVa := done
                         pc := pc, stream := none }
      let share := s.nbShare s.cur
      if share = 0 then
        match s.donePlace tile 23 c with
        | (.error .wait, s') => s'
        | _ =>
          let s := pop s
          let s := { s with cur := s.cur.unNbHold }
          s.nbFail chan c 0xFFFFFFFF#32
      else if s.nbRoom chan c.region share then
        let s := pop s
        ({ s with cur := s.cur.unNbHold } : State).nbPush chan c
      else s

def execNbPacketEnqueue (tile : Nat) (s : State) : Out := .next (s.onTask tile State.nbPortStep)

/-- The port's first packet has waited more than 200 µs for its queue (R282). -/
def Engines.nbLate (g : Engines) (tick : Nat) : Bool :=
  match g.nbPort with
  | .packet _ _ _ _ since :: _ => decide (since + 200 * Config.dcPerUs < tick)
  | _ => false

/-- A late packet stops its issuer at the bundle boundary it stands at; the wait is logged. -/
def State.nbLateHold (s : State) : State :=
  if s.cur.seq.state = .running ∧ s.cur.eng.nbLate s.clk.tick then
    (s.modSeq fun q => { q with state := .nbHeld }).logEvent 282 s.cur.bnd.tile
  else s

def execNbQueueWaitTimeout (tile : Nat) (s : State) : Out :=
  .next (s.onTask tile fun s => if s.cur.seq.waits = [] then s.nbLateHold else s)

end Sys2Proof.Machine
end

