-- ==== Sys2Proof/Machine/Upkeep.lean ====
section
/-! DEFINITION. Upkeep of memory and clocks: refresh passes and deferrals (R67, R253, R254, R344), the patrol scrubber (R252),
relayouts (R251), retraining (R395, R431), sensors and columns (R78 to R80), power and cooling (R432). -/

namespace Sys2Proof.Machine

/-- An event of R39 has come: the scheduler runs a pass. -/
def State.wantPass (s : State) : State := { s with sched := { s.sched with passDue := true } }

/-! ### Refresh (R253, R254) -/

/-- The logical tile and tower that a physical tower serves, if any (R61, R65, R68). -/
def State.servedBy (s : State) (ptower : Nat) : Option (Nat × Nat) :=
  let pt := ptower / 9
  let row := pt / 34
  ((List.range 32).find? fun x => (s.remap (32 * row + x)).px == pt % 34 && !(s.remap (32 * row + x)).fenced).bind fun x =>
    ((List.range 8).find? fun i => (s.tmap pt).toNat / 16 ^ i % 16 == ptower % 9).map fun i => (32 * row + x, i)

/-- A broadcast transfer is delivering into tower i of a tile (R254); in ring mode every tower receives a part, as long as the tile has not closed
the ring (R321). -/
def State.bcInto (s : State) (t : Task) (i : Nat) : Option BcXfer :=
  (tget [] s.net.bcols (tileX t.bnd.tile)).head?.filter fun x =>
    x.launch == t.bnd.launch && decide (x.y0 ≤ t.bnd.ty) && decide (t.bnd.ty ≤ x.y1) && (match x.ring with
      | some h => (t.ring h).bound && !x.off.contains t.bnd.tile
      | none => x.tset.getLsbD i)

/-- The tile row into which a transfer's next row goes (R438). -/
def Task.bcRowOf (t : Task) (x : BcXfer) : Nat :=
  match x.ring with
  | none => x.raddr + x.next
  | some h => (t.ring h).row (t.ring h).prod

/-- Insertion by ascending tower; one tower is not listed twice. -/
def insertForced (i : Nat) (v : W64) : List (Nat × W64) → List (Nat × W64)
  | [] => [(i, v)]
  | (k, w) :: l => if i < k then (i, v) :: (k, w) :: l else if i = k then (k, w) :: l else (k, w) :: insertForced i v l

/-- REFRESH_FORCED for the task that has the tower, with the row of a suspended transfer or 0xFFFF (R254, R438). -/
def State.forcedFault (s : State) (ptower : Nat) : State :=
  match s.servedBy ptower with
  | none => s
  | some (tile, i) =>
    match s.taskOn tile with
    | none => s
    | some t =>
      if t.bnd.lease = 0 ∨ ¬ t.receives then s
      else
        let x := s.bcInto t i
        let row := (x.map t.bcRowOf).getD 0xFFFF
        s.onTile tile fun t => { t with seq := { t.seq with
          pendingForced := insertForced i (BitVec.ofNat 64 (i + 8 * row)) t.seq.pendingForced } }

/-- An engine delivers into the logical tower of a task: a producer that writes ring rows into it, a broadcast transfer, a bulk copy to the
towers, or a row on its way from another tile (R253; log entry 65). -/
def State.deliversInto (s : State) (t : Task) (i : Nat) : Bool :=
  (t.rings.toList.any fun r => match r.stream with
    | some st => s.sinkOf st == 0
    | none => false)
  || (s.bcInto t i).isSome
  || (t.eng.muOps.any fun o => o.kind == .mdrain && o.begun && !o.detached)
  || (t.eng.dmOps.any fun o => o.mode == 1#2)
  || (s.net.packets.any fun p => p.dst == t.bnd.tile && (match p.body with
    | .ringPart _ _ k _ => k.val == i
    | .towerRow k _ _ => k.val == i
    | .readReq _ _ _ _ => false
    | .readReply k _ _ => k.val == i))
  || (s.tasks.any fun u => u.eng.shifts.any fun p => p.cluster.val == i && s.shiftTarget u.bnd p.dir == some t.bnd.tile)

/-- An engine delivery into a physical tower is in progress. -/
def State.delivering (s : State) (ptower : Nat) : Bool :=
  match s.servedBy ptower with
  | none => false
  | some (tile, i) => (s.taskOn tile).any fun t => t.receives && s.deliversInto t i

/-- Age of a tower in ns (R253). -/
def State.ageNs (s : State) (ptower : Nat) : Nat := s.elapsed - (s.refreshOf ptower).lastEnd

/-- A scheduled pass: from half the limit, with no deferral in force and no engine delivery into the tower in progress. -/
def State.scheduledPass (s : State) (ptower : Nat) : State :=
  if (s.refreshOf ptower).pass.isNone && !s.deferring ptower && !s.delivering ptower && decide (s.limitNs ptower ≤ 2 * s.ageNs ptower)
      && decide ((s.chart ptower).nlay ≠ 0) then s.startPass ptower false
  else s

/-- A forced pass: from the limit less 2 s, unconditionally. -/
def State.forcedPass (s : State) (ptower : Nat) : State :=
  if (s.refreshOf ptower).pass.isNone && decide (s.forcedAt ptower ≤ s.elapsed) && decide ((s.chart ptower).nlay ≠ 0) then
    (s.startPass ptower true).forcedFault ptower
  else s

def execScheduledRefreshPass (ptower : Nat) (s : State) : Out := .next (s.scheduledPass ptower)
def execForcedRefresh (ptower : Nat) (s : State) : Out := .next (s.forcedPass ptower)

/-- A pass whose rows are all refreshed ends, and the age starts again. -/
def State.passEnd (s : State) (ptower : Nat) : State :=
  match (s.refreshOf ptower).pass with
  | none => s
  | some (e, _) =>
    if e ≤ s.clk.tick then s.setRefresh ptower { s.refreshOf ptower with pass := none, lastEnd := s.elapsed } else s

def execRefreshPassEnd (ptower : Nat) (s : State) : Out := .next (s.passEnd ptower)

/-- A deferral whose time is over is no longer in force. -/
def execDeferralExpiry (ptower : Nat) (s : State) : Out :=
  .next (match (s.refreshOf ptower).defer with
    | none => s
    | some e => if e ≤ s.elapsed then s.setRefresh ptower { s.refreshOf ptower with defer := none } else s)

/-- A pending deferral in force on a tower, up to its forced point (R344). -/
def State.putDeferral (s : State) (ptower e : Nat) : State :=
  s.setRefresh ptower { s.refreshOf ptower with defer := some (min e (s.forcedAt ptower)) }

/-- A tower's deferral is taken from it. -/
def State.endDeferral (s : State) (ptower : Nat) : State :=
  if (s.refreshOf ptower).defer.isSome then s.setRefresh ptower { s.refreshOf ptower with defer := none } else s

/-- The deferrals of a tile's towers belong to the task that asked for them: they leave the tile with it (R343, R390). -/
def State.endDeferrals (s : State) (tile : Nat) : State :=
  (List.range 8).foldl (fun (s : State) i => s.endDeferral (s.physTower tile i)) s

/-- The deferrals pending on a tile: tile, logical tower, end. -/
def State.deferrals (s : State) (tile : Nat) : List (Nat × Nat × Nat) :=
  (List.range 8).filterMap fun i => ((s.refreshOf (s.physTower tile i)).defer).map fun e => (tile, i, e)

/-! ### The patrol scrubber (R252) -/

def ScrubHist.note (h : ScrubHist) (bad : Bool) (time : Nat) : ScrubHist :=
  { corrected := if bad then h.corrected else min (h.corrected + 1) 255, bad := h.bad || bad, time := time }

/-- What the scrubber finds in a row: a correction is counted for the row's group of 64, an uncorrectable row is poisoned.
Rows are tower rows (65,536 for each physical tower) or HBM rows of 2 KiB. -/
def execScrubRow (tower : Bool) (row : Nat) (outcome : ScrubOutcome) (s : State) : Out :=
  let g := row / 64
  let note (s : State) (bad : Bool) : State :=
    if tower then { s with env := { s.env with towHist := tput g ((tget .reset s.env.towHist g).note bad s.ptime) s.env.towHist } }
    else { s with env := { s.env with hbmHist := tput g ((tget .reset s.env.hbmHist g).note bad s.ptime) s.env.hbmHist } }
  .next (match outcome with
    | .clean => s
    | .corrected => if tower then note s false else (note s false).countChan (channelOf (2048 * row)) 9 1
    | .uncorrectable =>
      let s := note s true
      if tower then { s with mem := { s.mem with towerBad := insertNat row s.mem.towerBad } }
      else { s with mem := { s.mem with hbmBad := insertNat row s.mem.hbmBad } })

/-! ### Relayouts (R251) and retraining (R395, R427, R431) -/

/-- A locked page with an outgrown block is laid out again, every block in its smallest slot; it stays locked until RELAYOUT_DONE. -/
def execRelayout (page : Nat) (s : State) : Out :=
  .next (if s.outgrown page then (s.layOut page).countChan (channelOf (65536 * page)) 6 1 else s)

/-- A save or a restore streams to HBM: save areas interleave over every stack, as all local HBM that is not channel-local (R249; log entry 66). -/
def State.saving (s : State) : Bool := s.sched.launches.any fun l => l.phase == .saving || l.phase == .restoring

/-- One channel of a stack retrains: the accesses to it and its near-bank unit wait. Retrainings of one stack never overlap. -/
def execChannelRetrain (chan : Nat) (s : State) : Out :=
  .next (if 256 ≤ chan || s.env.retrain.any fun c => stackOf c == stackOf chan then s
    else { s with env := { s.env with retrain := insertNat chan s.env.retrain, retrainAt := tput chan s.clk.tick s.env.retrainAt } })

def execChannelRetrainEnd (chan : Nat) (s : State) : Out :=
  .next { s with env := { s.env with retrain := eraseNat chan s.env.retrain } }

/-- Data-rate changes that no save or restore holds back any more: the whole stack retrains. -/
def State.startRateChanges (s : State) : State :=
  if s.saving then s
  else s.env.rateChange.foldl (fun s k =>
    if s.env.retrain.any fun c => stackOf c == k then s
    else { s with env := { s.env with
      retrain := (List.range 32).foldl (fun l c => insertNat (8 * c + k) l) s.env.retrain
      retrainAt := (List.range 32).foldl (fun l c => tput (8 * c + k) s.clk.tick l) s.env.retrainAt
      rateChange := eraseNat k s.env.rateChange } }) s

def execHbmDataRateChange (stack : BitVec 3) (s : State) : Out :=
  .next ({ s with env := { s.env with rateChange := insertNat stack.toNat s.env.rateChange } } : State).startRateChanges

/-- A Rhumb link starts to retrain, its traffic moving to the others, or comes back, and with it every path (log entry 27). -/
def execLinkRetrain (link : Nat) (s : State) : Out :=
  .next (if 18 ≤ link then s
    else if s.env.linksDown.contains link then
      { s with env := { s.env with linksDown := eraseNat link s.env.linksDown }, mem := { s.mem with deadPeers := [] } }
    else { s with env := { s.env with linksDown := insertNat link s.env.linksDown } })

/-! ### Sensors (R78, R79): sensors 2px and 2px + 1 of physical column px, in tenths of a degree -/

def State.sensor (s : State) (i : Nat) : Sensor := tget .reset s.env.sensors i

/-- Sensors of the neighbouring columns. -/
def sensorNeighbours (i : Nat) : List Nat :=
  ((List.range 68).filter fun k => k / 2 + 1 == i / 2 || k / 2 == i / 2 + 1)

/-- The checks of R78 on a sample, against its history and the neighbours valid before it. -/
def State.plausible (s : State) (sample : Nat → Int) (i : Nat) : Bool :=
  let v := sample i
  let ns := (sensorNeighbours i).filter fun k => (s.sensor k).valid
  let sum := (ns.map sample).sum
  let near (a b lim : Int) : Bool := decide (a - b ≤ lim) && decide (b - a ≤ lim)
  decide (-200 ≤ v) && decide (v ≤ 1500)
  && (match (s.sensor i).hist[9]? with
      | some old => near v old 50
      | none => true)
  && (ns.isEmpty || near (v * ns.length) sum (120 * ns.length))

/-- A sensor after a sample: dropped on a failed check; back after recalibration and 100 samples that pass. -/
def Sensor.take (x : Sensor) (v : Int) (ok : Bool) : Sensor :=
  let x := { x with hist := (v :: x.hist).take 10 }
  if x.valid then (if ok then { x with value := v } else { x with valid := false, good := 0, recal := false })
  else if x.recal && ok then
    if x.good + 1 = 100 then { x with valid := true, good := 0, recal := false, value := v } else { x with good := x.good + 1 }
  else { x with good := 0 }

/-- The substitute of a dropped sensor (R79). -/
def substitute (valid : Nat → Bool) (sample : Nat → Int) (i : Nat) : Int :=
  let ks := ((sensorNeighbours i) ++ [i + 1 - 2 * (i % 2)]).filter valid
  match ks.map sample with
  | [] => 1050
  | v :: l => l.foldl max v + 80

/-- Cap of the power mode in force, in sixteenths (R432). -/
def State.clockCap (s : State) : Nat :=
  match s.env.pmodeAct with
  | 0 => 16
  | 1 => 13
  | _ => 10

def State.setColumn (s : State) (px : Nat) (c : Column) : State := { s with env := { s.env with columns := tput px c s.env.columns } }

/-- Tasks on the tiles of a physical column. -/
def State.columnTasks (s : State) (px : Nat) : List Task := s.tasks.filter fun t => t.bound && (s.remap t.bnd.tile).px == px

/-- Launches being restored whose tasks belong on tiles of a physical column. -/
def State.restoringIn (s : State) (px : Nat) : List Launch :=
  s.sched.launches.filter fun l => l.phase == .restoring && l.contexts.any fun t => t.seq.state != .ended && (s.remap t.bnd.tile).px == px

/-! ### Spares (R62) -/

/-- Logical tiles of a rectangle, row by row. -/
def rectTiles (x0 y0 w h : Nat) : List Nat := (List.range h).flatMap fun j => (List.range w).map fun i => 32 * (y0 + j) + x0 + i

def Launch.tiles (l : Launch) : List Nat := rectTiles l.origin.1 l.origin.2 l.w l.h

/-- Units leased on a tile: of the launches that hold it or are to, and of rows held in place (R71, R440). -/
def State.leasedOn (s : State) (tile : Nat) : Nat :=
  ((s.sched.launches.filter fun l => ((l.onGrid || l.phase == .chosen) && l.tiles.contains tile) || l.contexts.any fun t => t.bnd.tile == tile).map
    (·.towLease)).foldl max 0

def State.pstate (s : State) (ptile : Nat) : Nat := tget 0 s.plc.tstat ptile

/-- No unfenced entry of the row names the physical tile. -/
def State.isSpare (s : State) (row px : Nat) : Bool :=
  (List.range 32).all fun x => (s.remap (32 * row + x)).fenced || (s.remap (32 * row + x)).px != px

/-- A good spare that no copy is filling. -/
def State.spareFree (s : State) (row px : Nat) : Bool :=
  decide (px < 34) && s.isSpare row px && s.pstate (34 * row + px) == 0
  && !(s.plc.copies.any fun c => c.tower.isNone && tileY c.tile == row && c.dest == px)

/-- Rows of logical tower i that the units of a lease take (R70). -/
def leaseNeeds (lease i : Nat) : Nat :=
  if lease ≤ 384 then 128 * lease
  else if i = 0 ∨ i = 7 then 49152
  else 49152 + 1024 * ((lease - 384 + 6 - i) / 6)

/-- The physical tower that a physical tile's TMAP names for logical tower i. -/
def State.ptower (s : State) (ptile i : Nat) : Nat := 9 * ptile + (s.tmap ptile).toNat / 16 ^ i % 16

/-- A physical tile has the capacity for a lease (R66, R69, R71). -/
def State.ptileFits (s : State) (ptile lease : Nat) : Bool :=
  (List.range 8).all fun i =>
    let c := s.chart (s.ptower ptile i)
    let need := leaseNeeds lease i
    need == 0 || (decide (c.tstate ≠ 2) && decide (need ≤ min (if i = 0 ∨ i = 7 then 49152 else 65536) (8192 * c.nlay)))

/-- The lowest good spare of a tile's row that can grant a lease. -/
def State.spareFor (s : State) (tile lease : Nat) : Option Nat :=
  (List.range 34).find? fun px => s.spareFree (tileY tile) px && s.ptileFits (34 * tileY tile + px) lease

/-- The destination of a tile's copy may still take it: it is a good spare, and large enough. -/
def State.destGood (s : State) (tile px : Nat) : Bool :=
  decide (px < 34) && s.isSpare (tileY tile) px && s.pstate (34 * tileY tile + px) == 0 && s.ptileFits (34 * tileY tile + px) (s.leasedOn tile)

/-- The lowest spare to which R80 migrates a task: good, able to grant what is leased on the tile, in a column below 95 degrees, and filled by no
copy but its own. -/
def State.coolSpare (s : State) (t : Task) : Option Nat :=
  let tile := t.bnd.tile
  (List.range 34).find? fun px =>
    (s.spareFree (tileY tile) px || (s.plc.copies.any fun c => c.tower.isNone && c.tile == tile && c.dest == px))
    && s.destGood tile px && decide ((s.column px).temp < 950)

/-- A task that R80 migrates: its launch is preemptible, and there is such a spare. -/
def State.movable (s : State) (t : Task) : Bool :=
  (match s.launch? t.bnd.launch with
   | some l => l.eff.preempt
   | none => false)
  && (s.coolSpare t).isSome

/-- What the pilot controller does with a column's temperature at a sample (R79, R80). -/
def State.columnAct (s : State) (px : Nat) : State :=
  let c := s.column px
  let dropped := !(s.sensor (2 * px)).valid && !(s.sensor (2 * px + 1)).valid
  let cap := if dropped then min 8 s.clockCap else s.clockCap
  let clk :=
    if c.temp < 970 then min cap (c.clk + 1)
    else if 1000 ≤ c.temp && decide (8 < c.clk) && (s.columnTasks px).any fun t => !s.movable t then min cap (c.clk - 1)
    else min cap c.clk
  let excl := if 1100 ≤ c.temp then true else if c.temp < 950 then false else c.exclAll
  let s := s.setColumn px { c with clk := clk, exclNonPre := dropped, exclAll := excl }
  let s := if dropped != c.exclNonPre || excl != c.exclAll then s.wantPass else s
  if 1100 ≤ c.temp then
    let s := (s.columnTasks px).foldl (fun s t => if t.receives then s.endLaunch t.bnd.launch .thermal none else s) s
    (s.restoringIn px).foldl (fun s l => s.endLaunch l.id .thermal none) s
  else s

/-- A sample of every sensor (R78 to R80); a reading that the list does not give repeats the sensor's last one. -/
def execThermalSample (deciC : List Int) (s : State) : Out :=
  let sample (i : Nat) : Int := (deciC[i]?).getD (s.sensor i).value
  let took := (List.range 68).map fun i => (i, (s.sensor i).take (sample i) (s.plausible sample i))
  let valid (i : Nat) : Bool := (tget Sensor.reset took i).valid
  let fixed := took.map fun p => (p.1, if p.2.valid then p.2 else { p.2 with value := substitute valid sample p.1 })
  let changed := took.filter fun p => p.2.valid != (s.sensor p.1).valid
  let s1 := changed.foldl (fun s p => s.logEvent 78 p.1) { s with env := { s.env with sensors := fixed } }
  .next ((List.range 34).foldl (fun s px =>
    let t := max (s.sensor (2 * px)).value (s.sensor (2 * px + 1)).value
    (s.setColumn px { s.column px with temp := t }).columnAct px) s1)

/-- A dropped sensor is recalibrated, and its samples are judged again (R78). -/
def execSensorRecalibrate (sensor : Nat) (s : State) : Out :=
  let x := s.sensor sensor
  .next (if x.valid then s
    else { s with env := { s.env with sensors := tput sensor { x with recal := true, good := 0 } s.env.sensors } })

/-! ### Power and cooling (R432) -/

/-- Every column's clock kept within the cap of the mode in force. -/
def State.capClocks (s : State) : State :=
  (List.range 34).foldl (fun s px =>
    let c := s.column px
    if s.clockCap < c.clk then s.setColumn px { c with clk := s.clockCap } else s) s

/-- The mode in force follows the requested one, or P2 while coolant flow is low. -/
def State.applyPmode (s : State) : State :=
  ({ s with env := { s.env with pmodeAct := if s.env.coolantLow then 2 else s.env.pmode } } : State).capClocks

def execPmodeWrite (v : BitVec 64) (s : State) : Out :=
  let m := (v.extractLsb' 0 2).toNat
  .next (if m = 3 then s else ({ s with env := { s.env with pmode := m } } : State).applyPmode)

/-- Every column's clock falls by one sixteenth. -/
def execPowerLimitExceeded (s : State) : Out :=
  .next ((List.range 34).foldl (fun s px => s.setColumn px { s.column px with clk := max 1 ((s.column px).clk - 1) }) s)

def execCoolantFlowLow (s : State) : Out :=
  .next (({ s with env := { s.env with coolantLow := true } } : State).applyPmode.logEvent 432 0)

def execCoolantFlowRestored (s : State) : Out :=
  .next ({ s with env := { s.env with coolantLow := false } } : State).applyPmode

end Sys2Proof.Machine
end

