-- ==== Sys2Proof/Machine/Regions.lean ====
section
/-! DEFINITION. Regions and their queues: the Region Control Block and effective values (R10 to R15), doorbells (R30 to R33),
LAUNCH requests (R182), launch records (R16 to R20), task images (R21 to R25), admission (R35, R47) and the completion record
(R28). -/

namespace Sys2Proof.Machine

/-! ### The Region Control Block (R10 to R13) -/

/-- An RCB's 256 bytes, or none outside local HBM or in a row found uncorrectable. -/
def State.readRcb (s : State) (addr : Nat) : Option (List Byte) :=
  if addr + 256 ≤ Config.hbmBytes ∧ ¬ s.mem.hbmBad.contains (addr / 2048) then some (s.mem.hbm.bytes addr 256) else none

/-- Reserved fields of an RCB: first bit and width. -/
def rcbReserved : List (Nat × Nat) :=
  [(15, 1), (24, 8), (48, 16), (80, 16), (128, 8), (180, 12), (206, 10), (266, 6), (282, 6), (307, 13), (340, 12), (404, 12),
   (436, 12), (468, 44), (544, 39), (633, 7), (677, 1371)]

/-- An RCB's own fields are within their limits (R11). -/
def rcbFieldsOk (b : List Byte) : Bool :=
  let f := bitsAt b
  let ovt := f 512 32
  f 0 8 == 1 && decide (f 12 3 ≤ 2) && (rcbReserved.all fun r => f r.1 r.2 == 0)
  && decide (f 256 10 ≤ 768) && decide (f 272 10 ≤ 480) && decide (f 296 11 ≤ 1024) && decide (f 320 20 ≤ 393216)
  && decide (1 ≤ f 368 16) && decide (4 ≤ f 628 5) && decide (f 628 5 ≤ 16)
  && (f 20 1 == 0 || (decide (50 ≤ f 384 20) && decide (1 ≤ f 416 20) && decide (f 416 20 ≤ f 384 20) && decide (f 448 20 < f 384 20)))
  && ((List.range 16).all fun i => ovt / 4 ^ i % 4 != 3) && ovt / 4 ^ 7 % 4 == 0 && ovt / 4 ^ 14 % 4 == 0 && ovt / 4 ^ 15 % 4 == 0

def rcbParent (b : List Byte) : Nat := 256 * bitsAt b 136 44
def rcbDepth (b : List Byte) : Nat := bitsAt b 21 3
def rcbGen (b : List Byte) : Nat := bitsAt b 96 32

/-- What an RCB must be as a root, or as the child of a parent (R11). -/
def rcbPlaceOk (b : List Byte) (parent : Option (List Byte)) : Bool :=
  match parent with
  | none => rcbDepth b == 0 && bitsAt b 64 16 == 0xFFFF
  | some p => rcbDepth b == rcbDepth p + 1

/-- What following PARENT from an RCB meets: an RCB whose GEN is odd, whose copy is not used (R15), or that waits for its channel (R431); a chain that breaks (R11); or the
ancestors, nearest first. -/
inductive RcbChain where
  | changing
  | broken
  | ok (anc : List (List Byte))
deriving DecidableEq, Repr

/-- The path from an RCB to the root, within `fuel` steps. -/
def State.ancestors (s : State) : Nat → List Byte → RcbChain
  | fuel, b =>
    if rcbGen b % 2 = 1 then .changing
    else if rcbParent b = 0 then .ok []
    else match fuel with
      | 0 => .broken
      | n + 1 =>
        if s.retraining (rcbParent b) then .changing
        else match s.readRcb (rcbParent b) with
        | none => .broken
        | some p => match s.ancestors n p with
          | .ok l => .ok (p :: l)
          | r => r

/-- Every ancestor is valid. -/
def chainOk : List (List Byte) → Bool
  | [] => true
  | [p] => rcbFieldsOk p && rcbPlaceOk p none
  | p :: q :: l => rcbFieldsOk p && rcbPlaceOk p (some q) && chainOk (q :: l)

/-- A root's effective values are its own. -/
def rootEff (b : List Byte) : Effective :=
  let f := bitsAt b
  { prio := f 8 4, fdpol := f 12 3, preempt := f 16 1 == 1, gang := f 17 1 == 1, restart := f 18 1 == 1, refdef := f 19 1 == 1
    sliced := f 20 1 == 1, slPeriod := f 384 20, slLen := f 416 20, slOffs := f 448 20, asid := BitVec.ofNat 14 (f 192 14)
    ptroot := 4096 * f 216 40, ovt := BitVec.ofNat 32 (f 512 32), maxTiles := f 256 10, towKib := f 272 10, fabCtx := f 296 11
    nbShare := f 288 8, ageLim := f 352 16, wdogDef := f 368 16, root := true
    chain := [(f 32 16, f 256 10, f 272 10, f 296 11)] }

/-- A child's effective values: its own where its OVR bit is 1, limited by the parent's (R12, R13). -/
def childEff (p : Effective) (b : List Byte) : Effective :=
  let o := rootEff b
  let ov (i : Nat) : Bool := bitsAt b (64 + i) 1 == 1
  let lim (i own par : Nat) : Nat := if ov i then min own par else par
  let tiles := lim 9 o.maxTiles p.maxTiles
  let tow := lim 10 o.towKib p.towKib
  let fab := lim 12 o.fabCtx p.fabCtx
  { prio := lim 0 o.prio p.prio
    fdpol := if ov 1 then o.fdpol else p.fdpol
    preempt := if ov 2 then o.preempt || p.preempt else p.preempt
    gang := if ov 3 then o.gang && p.gang else p.gang
    restart := if ov 4 then o.restart else p.restart
    refdef := if ov 5 then o.refdef && p.refdef else p.refdef
    sliced := if ov 6 then o.sliced else p.sliced
    slPeriod := if ov 6 then o.slPeriod else p.slPeriod
    slLen := if ov 6 then o.slLen else p.slLen
    slOffs := if ov 6 then o.slOffs else p.slOffs
    asid := if ov 7 then o.asid else p.asid
    ptroot := if ov 7 then o.ptroot else p.ptroot
    ovt := if ov 8 then o.ovt else p.ovt
    maxTiles := tiles, towKib := tow, fabCtx := fab
    nbShare := lim 13 o.nbShare p.nbShare
    ageLim := if ov 14 then o.ageLim else p.ageLim
    wdogDef := if ov 15 then o.wdogDef else p.wdogDef
    root := false
    chain := (bitsAt b 32 16, tiles, tow, fab) :: p.chain }

/-- Effective values of an RCB with its ancestors, nearest first. -/
def effOf (b : List Byte) : List (List Byte) → Effective
  | [] => rootEff b
  | p :: l => childEff (effOf p l) b

/-! ### Doorbells (R30 to R33) -/

def State.doorbell (s : State) (region : Nat) : Doorbell := tget .reset s.sched.doorbells region
def State.setDoorbell (s : State) (region : Nat) (d : Doorbell) : State :=
  { s with sched := { s.sched with doorbells := tput region d s.sched.doorbells } }

/-- Records of a queue, and QHEAD, as the RCB at the doorbell's RCBA gives them. -/
def State.queueLen (s : State) (region : Nat) : Nat := 2 ^ bitsAt (s.mem.hbm.bytes (s.rcbAddr region) 256) 628 5
def State.qhead (s : State) (region : Nat) : Nat := leNat (s.mem.hbm.bytes (s.rcbAddr region + 80) 4)

/-- The region's admitted launches that have not retired. -/
def State.admitted (s : State) (region : Nat) : List Launch := s.sched.launches.filter fun l => l.region == region

/-- A tail write is accepted, or sets TERR (R32); an accepted one starts a pass (R39). -/
def State.tailWrite (s : State) (region t : Nat) : State :=
  let d := s.doorbell region
  let q := s.queueLen region
  let h := s.qhead region % q
  if d.live ∧ t < q ∧ (d.tail + q - h) % q ≤ (t + q - h) % q then
    (s.setDoorbell region { d with tail := t, batches := if t = d.tail then d.batches else d.batches ++ [t] }).wantPass
  else s.setDoorbell region { d with terr := true }

def execTailWrite (region t : BitVec 16) (s : State) : Out := .next (s.tailWrite region.toNat t.toNat)

def execTerrClear (region : BitVec 16) (s : State) : Out :=
  .next (s.setDoorbell region.toNat { s.doorbell region.toNat with terr := false })

/-- A write of word 1 while LIVE = 0 takes its RCBA when the region holds no admitted launch (R31). -/
def State.takeRcba (s : State) (region rcba : Nat) : State :=
  let d := s.doorbell region
  if d.live || !(s.admitted region).isEmpty then s else s.setDoorbell region { d with rcba := rcba }

/-- LIVE changes from 0 to 1 (R31). -/
def execLiveOn (region : BitVec 16) (rcba : BitVec 44) (s : State) : Out :=
  let r := region.toNat
  .next (if (s.doorbell r).live then s
    else
      let s := s.takeRcba r rcba.toNat
      let q := s.queueLen r
      let h := s.qhead r
      let at_ := (h + (s.admitted r).length) % q
      s.setDoorbell r { s.doorbell r with live := true, headv := h % 2 ^ 16, acur := at_, tail := at_, batches := [], run := none, ahead := [], held := none })

/-- LIVE changes from 1 to 0 (R31). -/
def execLiveOff (region : BitVec 16) (s : State) : Out :=
  .next (s.setDoorbell region.toNat { s.doorbell region.toNat with live := false })

def execRcbaWrite (region : BitVec 16) (rcba : BitVec 44) (s : State) : Out := .next (s.takeRcba region.toNat rcba.toNat)

/-! ### LAUNCH requests (R182) -/

/-- The RCB of region `own` lies on the path from the RCB at `addr` to the root. -/
def State.descends (s : State) (own : Nat) : Nat → Nat → Bool
  | fuel, addr =>
    addr == own || (match fuel with
      | 0 => false
      | n + 1 =>
        match s.readRcb addr with
        | none => false
        | some b => rcbParent b != 0 && s.descends own n (rcbParent b))

/-- The oldest LAUNCH request of a tile, once the task's earlier writes are at device scope: a tail write, or PROTECTION. -/
def State.applyLaunch (s : State) : State :=
  match s.cur.eng.launchReqs with
  | [] => s
  | q :: rest =>
    if s.mem.wport.any fun w => w.tile == s.cur.bnd.tile && w.launch == s.cur.bnd.launch && !w.dev then s
    else
      let target := q.region.toNat
      let s := s.modEng fun g => { g with launchReqs := rest }
      let own := s.rcbAddr s.cur.bnd.region
      if (s.doorbell target).live && (target == s.cur.bnd.region || s.descends own 7 (s.rcbAddr target)) then
        s.tailWrite target q.tail.toNat
      else { s with cur := s.cur.defer { status := .protection, slot := 6, info := q.region.zeroExtend 64 } (some q.pc) }

def execLaunchRequestApply (tile : Nat) (s : State) : Out := .next ((s.onTask tile State.applyLaunch).onContexts tile State.applyLaunch)

/-! ### Reads by the scheduler -/

/-- The scheduler is no task: the U bit of a page keeps it from nothing (R85). -/
def Effective.xctx (e : Effective) : Xctx := { tile := none, asid := e.asid, ptroot := e.ptroot, priv := true }

/-- Why a scheduler's read gives no data: it waits for a page, or fails at an address. -/
inductive SchedFail where
  | wait
  | at_ (va : Nat)
deriving DecidableEq, Repr

/-- A read at device scope for a launch through its address space. -/
def State.schedRead (s : State) (id : Nat) (e : Effective) (va n : Nat) : Except SchedFail (List Byte) × State :=
  match State.spans e.xctx { read := true, write := false } (spanFuel n) s va n with
  | (.error f, s') => (.error (if f.asMem == .wait then .wait else .at_ f.va), s')
  | (.ok sps, s') =>
    if s'.lockedSpans sps || s'.noPathTo sps then (.error .wait, s'.queueAt id 21 sps)
    else
      let s2 := (s'.passPort sps).countBeats 2 sps
      (.ok (sps.flatMap fun sp => s2.homeBytes sp.place sp.len), s2)

/-! ### Task images (R20 to R25) -/

/-- Why an image or an argument block is not had: it waits for a page, with the reads that are done and are not made again, or is refused. -/
inductive ImgFail where
  | wait (seen : List (List Byte))
  | fail (st : Status) (info : W64)
deriving DecidableEq, Repr

def SchedFail.img (seen : List (List Byte)) : SchedFail → ImgFail
  | .wait => .wait seen
  | .at_ va => .fail .translation (BitVec.ofNat 64 va)

/-- The lowest first bit of the fields of a check that fail, as a byte offset. -/
def lowestBad (l : List (Bool × Nat)) : Option Nat :=
  match (l.filter fun p => !p.1).map (·.2) with
  | [] => none
  | b :: r => some (r.foldl min b / 8)

def imgReserved : List (Nat × Nat) := [(49, 15), (78, 2), (93, 3), (109, 19), (241, 15), (288, 224)]

/-- A preset entry: handle, compressed mode, first row, rows. -/
def preset (b : List Byte) : BitVec 4 × Bool × Nat × Nat :=
  (BitVec.ofNat 4 (bitsAt b 0 4), bitsAt b 4 1 == 1, bitsAt b 8 16, bitsAt b 24 16)

/-- The lowest preset whose reserved bits are not zero or whose handle another one has. The header is checked before the presets are read, so
their reserved bits are judged with their handles (log entry 67). -/
def badPreset (ps : List (List Byte)) : Option Nat :=
  ps.findIdx? fun b => bitsAt b 5 3 != 0 || bitsAt b 40 88 != 0 || decide (1 < (ps.filter fun c => bitsAt c 0 4 == bitsAt b 0 4).length)

/-- The header's checks before the presets, in R25's order; a condition that joins two fields names the lower (R20). -/
def headerBad (b : List Byte) : Option Nat :=
  let f := bitsAt b
  let nb := f 64 14
  (lowestBad ([(f 0 32 == 0x3156524B, 0), (f 32 8 == 1, 32)] ++ imgReserved.map fun r => (f r.1 r.2 == 0, r.1))).orElse fun _ =>
  (lowestBad [(decide (1 ≤ nb) && decide (nb ≤ 8192), 64), (decide (f 80 13 < nb), 64),
              (decide (f 96 13 < nb), 64), (f 48 1 == 1 || f 96 13 == 0, 48)]).orElse fun _ =>
  (lowestBad [(f 128 32 % 16 == 0, 128), (f 160 32 % 16 == 0, 160), (f 192 32 % 8 == 0, 192),
              (decide (f 224 17 ≤ 65536) && f 224 17 % 8 == 0, 224), (f 256 16 % 8 == 0, 256), (f 272 16 % 8 == 0, 272)]).orElse fun _ =>
  lowestBad [(decide (f 40 8 ≤ 16), 40)]

/-- The checks of the scalar-data and argument ranges. -/
def rangesBad (b : List Byte) (argLen : Nat) : Option Nat :=
  let sl := bitsAt b 224 17
  let sd := bitsAt b 256 16
  let ao := bitsAt b 272 16
  lowestBad [(decide (sd + sl ≤ 65536), 224), (decide (ao + argLen ≤ 65536), 272),
             (sl == 0 || argLen == 0 || decide (ao + argLen ≤ sd) || decide (sd + sl ≤ ao), 256)]

def illegalImage (off : Nat) : ImgFail := .fail .illegal (BitVec.ofNat 64 off)

/-- Little-endian bundles of a byte list. -/
def bundlesOf (n : Nat) (bs : List Byte) : List (BitVec 128) :=
  (pieces 16 n bs).map fun x => BitVec.ofNat 128 (leNat x)

/-- Read k of a launch's image: one done before a wait is not made again. -/
def State.readPart (s : State) (l : Launch) (k va n : Nat) : Except SchedFail (List Byte) × State :=
  match l.seen[k]? with
  | some bs => (.ok bs, s)
  | none => s.schedRead l.id l.eff va n

/-- The image, read and checked (R20, R25), with the reads made: the header, all bundles, then the scalar data, so that a byte of the bundles is
the first that FINFO names where both cannot be read (log entry 40). -/
def State.readTaskImage (s : State) (l : Launch) : Except ImgFail (Image × List (List Byte)) × State :=
  match s.readPart l 0 l.image 64 with
  | (.error e, s) => (.error (e.img []), s)
  | (.ok b, s) =>
    let f := bitsAt b
    match headerBad b with
    | some k => (.error (illegalImage k), s)
    | none =>
      let nr := f 40 8
      match s.readPart l 1 (l.image + f 160 32) (16 * nr) with
      | (.error e, s) => (.error (e.img [b]), s)
      | (.ok rt, s) =>
        let ps := pieces 16 nr rt
        match badPreset ps with
        | some k => (.error (illegalImage (f 160 32 + 16 * k)), s)
        | none =>
          match (ps.map preset).findIdx? fun p => !bindOk l.towLease p.2.2.1 p.2.2.2 with
          | some k => (.error (illegalImage (f 160 32 + 16 * k)), s)
          | none =>
            match rangesBad b l.argLen with
            | some k => (.error (illegalImage k), s)
            | none =>
              match s.readPart l 2 (l.image + f 128 32) (16 * f 64 14) with
              | (.error e, s) => (.error (e.img [b, rt]), s)
              | (.ok bb, s) =>
                match s.readPart l 3 (l.image + f 192 32) (f 224 17) with
                | (.error e, s) => (.error (e.img [b, rt, bb]), s)
                | (.ok sd, s) =>
                  (.ok ({ nbund := f 64 14, entry := f 80 13, trapV := f 48 1 == 1, trapEnt := f 96 13
                          store := bundlesOf (f 64 14) bb, presets := ps.map preset, sdDest := f 256 16, sd := sd
                          argOff := f 272 16 }, [b, rt, bb, sd]), s)

/-- The image and the argument block, read and checked (R20, R24). -/
def State.readLaunch (s : State) (l : Launch) : Except ImgFail (Image × List Byte) × State :=
  match s.readTaskImage l with
  | (.error e, s) => (.error e, s)
  | (.ok (img, seen), s) =>
    match s.schedRead l.id l.eff l.argPtr l.argLen with
    | (.error e, s) => (.error (e.img seen), s)
    | (.ok arg, s) => (.ok (img, arg), s)

/-! ### Launch records (R16 to R20) -/

def recReserved : List (Nat × Nat) :=
  [(30, 2), (48, 16), (120, 8), (184, 8), (248, 8), (312, 8), (333, 3), (346, 6), (448, 64), (568, 8), (696, 8), (824, 8), (952, 8)]

/-- The lowest field of a record that breaks R20's second check, as a byte offset. -/
def recordBad (b : List Byte) (gangOk : Bool) : Option Nat :=
  let f := bitsAt b
  let dep (n : Nat) : List (Bool × Nat) :=
    let a := f (512 + 128 * n) 56
    [(a % 8 == 0 && (decide (n < f 18 3) || a == 0), 512 + 128 * n), (decide (n < f 18 3) || f (576 + 128 * n) 64 == 0, 576 + 128 * n)]
  lowestBad ([(f 0 8 == 1, 0), (decide (f 13 5 < 24), 13), (decide (f 18 3 ≤ 4), 18), (f 21 2 != 3, 21), (f 23 2 != 3, 23),
    (f 32 16 == 0 || gangOk, 32), (f 64 56 % 64 == 0, 64), (f 128 56 % 8 == 0, 128), (f 192 56 % 8 == 0, 192), (f 256 56 % 64 == 0, 256),
    (decide (f 320 13 ≤ 4096) && f 320 13 % 8 == 0, 320), (decide (f 336 10 ≤ 480), 336)]
    ++ (recReserved.map fun r => (f r.1 r.2 == 0, r.1)) ++ (List.range 4).flatMap dep)

/-- A launch as its record and its region's effective values describe it, before its checks. FINFO stays 0 for one that ends OK or without a failing
task (log entry 90). -/
def launchOf (id region : Nat) (e : Effective) (b : List Byte) (thr tick : Nat) : Launch :=
  let f := bitsAt b
  let prioV := f 29 1 == 1
  { id := id, region := region, w := f 8 5 + 1, h := f 13 5 + 1
    cls := if prioV then min (f 25 4) e.prio else e.prio
    pclip := prioV && decide (e.prio < f 25 4)
    restart := if f 21 2 = 0 then e.restart else f 21 2 == 2
    edge := BitVec.ofNat 2 (f 23 2), gang := f 32 16, gangKey := 0, image := f 64 56, argPtr := f 128 56, argLen := f 320 13
    argBytes := [], img := none, ccaddr := f 192 56, craddr := f 256 56, towLease := f 336 10
    wdogLeft := if f 352 32 = 0 then 1000 * e.wdogDef else f 352 32
    tag := BitVec.ofNat 64 (f 384 64)
    deps := (List.range (f 18 3)).map fun n => { va := f (512 + 128 * n) 56, thr := BitVec.ofNat 64 (f (576 + 128 * n) 64), sat := false }
    eff := e, phase := .waiting, onGrid := false, thr := thr, since := tick, aged := false, exclSince := none, origin := (0, 0)
    placedAt := none, status := .ok, recbad := false, imgbad := false, restarts := 0, finfo := 0#64, failing := none, phaseCnt := 0
    bars := 0, races := [], why := .preempt, acks := [], stopAt := 0, saveAt := 0, contexts := [], rows := [], xfers := []
    packets := [], defers := [], aborted := false }

/-- A launch that ends without having been placed: its status, the flags of its completion record, and FINFO (R20). -/
def Launch.refuse (l : Launch) (st : Status) (recbad imgbad : Bool) (info : W64) : Launch :=
  { l with status := st, recbad := recbad, imgbad := imgbad, finfo := info, phase := .draining }

/-- The budgets of the region and its ancestors (R20). -/
def Launch.overBudget (l : Launch) : Bool :=
  l.eff.chain.any fun c => decide (c.2.1 < l.w * l.h) || decide (c.2.2.1 < l.towLease)

/-! ### The completion record (R28) -/

/-- The completion record's 64 bytes. -/
def State.completion (s : State) (l : Launch) : List Byte :=
  let f := l.failing
  let nat (g : Failing → Nat) : Nat := (f.map g).getD 0
  let bit (b : Bool) (k : Nat) : Nat := if b then 2 ^ k else 0
  let v0 := l.status.code + 2 ^ 8 + bit l.recbad 9 + bit l.imgbad 10 + bit (l.restarts != 0) 11 + bit l.pclip 12
    + nat (·.fx) * 2 ^ 16 + nat (·.fy) * 2 ^ 21 + l.id * 2 ^ 32
  let dur := match l.placedAt with
    | some t => s.clk.tick - t
    | none => 0
  leBytes v0 8 ++ leBytes l.tag.toNat 8 ++ leBytes s.ptime 8 ++ leBytes dur 8
    ++ leBytes (nat (·.fpc) % 2 ^ 13 + nat (fun f => f.fcode.toNat) * 2 ^ 16 + min l.restarts 65535 * 2 ^ 32) 8
    ++ leBytes l.finfo.toNat 8 ++ zeros 16

/-- Where a completion write goes: nowhere for address 0 or a translation fault, which is logged. `none` waits for a page. -/
def State.completionPlace (s : State) (l : Launch) (va n : Nat) : Option (Option (List Span)) × State :=
  if va = 0 then (some none, s)
  else match State.spans l.eff.xctx { read := true, write := true, amo := true } (spanFuel n) s va n with
    | (.error f, s') => if f.asMem == .wait then (none, s') else (some none, s'.logEvent 28 l.id)
    | (.ok sps, s') => if s'.lockedSpans sps || s'.noPathTo sps then (none, s'.queueAt l.id 21 sps) else (some (some sps), s')

/-- Bytes written at their homes along spans. -/
def State.writeSpans (s : State) (sps : List Span) (bs : List Byte) : State :=
  (cutSpans sps bs).foldl (fun s p => s.homeWrite p.1 p.2) ((s.passPort sps).countBeats 3 sps)

/-- QHEAD of the region's RCB and HEADV of its doorbell advance together (R28, R418). -/
def State.advanceQhead (s : State) (region : Nat) : State :=
  let h := (s.qhead region + 1) % s.queueLen region
  let a := s.rcbAddr region + 80
  let s := (s.homeWrite { kind := 0, addr := a } (leBytes h 4)).countLocal 3 a 4
  s.setDoorbell region { s.doorbell region with headv := h % 2 ^ 16 }

/-- The steps of R28 for a launch; a page that is awaited, or the channel of its region's RCB, leaves it to wait: the answer is then an error,
with nothing of them done. -/
def State.complete (s : State) (l : Launch) : Except State State :=
  if s.retraining (s.rcbAddr l.region) then .error s
  else match s.completionPlace l l.craddr 64 with
  | (none, s1) => .error { s with mem := s1.mem, obs := s1.obs, mgmt := s1.mgmt }
  | (some cr, s1) =>
    match s1.completionPlace l l.ccaddr 8 with
    | (none, s2) => .error { s with mem := s2.mem, obs := s2.obs, mgmt := s2.mgmt }
    | (some cc, s2) =>
      let s3 := match cr with
        | some sps => s2.writeSpans sps (s2.completion l)
        | none => s2
      let s4 := match cc with
        | some sps =>
          let old := leNat (sps.flatMap fun (sp : Span) => s3.homeBytes sp.place sp.len)
          (s3.countBeats 2 sps).writeSpans sps (leBytes (old + 1) 8)
        | none => s3
      .ok (s4.advanceQhead l.region)

/-! ### Admission (R35) -/

/-- The place of a record in its queue (R16). -/
def recordAddr (b : List Byte) (i : Nat) : Nat := 128 * bitsAt b 583 45 + 128 * (i % 2 ^ bitsAt b 628 5)

/-- The first byte of a record that cannot be read: beyond local HBM, or in an uncorrectable piece. -/
def State.recordUnread (s : State) (a : Nat) : Option Nat :=
  ((List.range 4).find? fun k => decide (Config.hbmBytes ≤ a + 32 * k) || s.mem.hbmBad.contains ((a + 32 * k) / 2048)).map
    fun k => a + 32 * k

/-- The first piece of the record k places after ACUR: as it was read, or as it stands; none if it cannot be read. -/
def State.peek (s : State) (d : Doorbell) (rcb : List Byte) (k : Nat) : Option (List Byte) :=
  match d.ahead[k]? with
  | some p => some p
  | none =>
    let a := recordAddr rcb (d.acur + k)
    if Config.hbmBytes ≤ a ∨ s.mem.hbmBad.contains (a / 2048) then none else some (s.mem.hbm.bytes a 32)

/-- Records from the one k places after ACUR that carry a GANGID, of those of one accepted tail write that are left; with the pieces read,
that of the record that ends the run among them (R19, R47; log entry 64). A record that cannot be read ends the run (log entry 91). -/
def State.gangRun (s : State) (d : Doorbell) (rcb : List Byte) (gid : Nat) : Nat → Nat → Nat × List (List Byte)
  | 0, _ => (0, [])
  | left + 1, k =>
    match s.peek d rcb k with
    | none => (0, [])
    | some p =>
      if bitsAt p 32 16 = gid then
        let r := s.gangRun d rcb gid left (k + 1)
        (r.1 + 1, p :: r.2)
      else (0, [p])

/-- The gang that the record at ACUR belongs to: its key, 0 for none, and whether its run is too long. -/
def Doorbell.gang (d : Doorbell) : Nat × Bool :=
  match d.run with
  | some (k, _ + 1, bad) => (k, bad)
  | _ => (0, false)

/-- A record that begins a gang begins the run of the gang's records (R47). -/
def State.openRun (s : State) (region : Nat) (rcb : List Byte) : State :=
  let d := s.doorbell region
  match s.peek d rcb 0 with
  | none => s
  | some p =>
    let gid := bitsAt p 32 16
    if gid = 0 ∨ d.gang.1 ≠ 0 then s
    else
      let q := 2 ^ bitsAt rcb 628 5
      let (n, ps) := s.gangRun d rcb gid ((d.batches.headD d.tail + q - d.acur) % q) 0
      let s := ((List.range ps.length).drop (max 1 d.ahead.length)).foldl (fun s k => s.countLocal 2 (recordAddr rcb (d.acur + k)) 32) s
      let s := s.setDoorbell region { d with run := some (s.sched.nextGang, n, decide (16 < n)), ahead := ps }
      { s with sched := { s.sched with nextGang := s.sched.nextGang + 1 } }

/-- Launches that count toward the limits of R35: not yet placed, and not yet retired. -/
def Launch.unplaced (l : Launch) : Bool := l.placedAt.isNone

/-- What admission of one record leads to: nothing (the conditions fail, the RCB is being changed, or a page is awaited), a halt
of the region, or a launch. -/
inductive Admit where
  | hold
  | halt (cause : BitVec 8)
  | take (l : Launch)

/-- The image and argument block of a record that is in order; while a page is awaited, the launch is held with the reads that are done. -/
def State.judgeImage (s : State) (region : Nat) (l : Launch) : Admit × State :=
  match s.readLaunch l with
  | (.error (.wait seen), s') => (.hold, s'.setDoorbell region { s'.doorbell region with held := some { l with seen := seen } })
  | (.error (.fail st info), s') => (.take (l.refuse st false true info), s')
  | (.ok _, s') => (.take l, s')

/-- The record at ACUR read and judged (R19, R20); every record of a run of more than 16 is illegal at byte 4 (R47). A record that cannot be
read names its launch by the bytes that stand in it (log entry 68). FINFO of a launch over a budget is 0 (log entry 73). -/
def State.judgeRecord (s : State) (region : Nat) (rcb : List Byte) (e : Effective) : Admit × State :=
  let a := recordAddr rcb (s.doorbell region).acur
  let unread := s.recordUnread a
  let s := if unread.isSome then s else s.openRun region rcb
  let d := s.doorbell region
  let rec_ := ((s.peek d rcb 0).getD (s.mem.hbm.bytes a 32)) ++ s.mem.hbm.bytes (a + 32) 96
  let l := launchOf s.sched.nextId region e rec_ (tget 0 s.obs.thr region) s.clk.tick
  match unread with
  | some pa => (.take (l.refuse .translation true false (BitVec.ofNat 64 pa)), s)
  | none =>
    match if d.gang.2 then some 4 else recordBad rec_ e.gang with
    | some k => (.take (l.refuse .illegal true false (BitVec.ofNat 64 k)), s)
    | none => if l.overBudget then (.take (l.refuse .unplaceable false false 0#64), s) else s.judgeImage region l

/-- The record at ACUR of a region judged (R11, R14, R20, R35). An own RCB that cannot be read is invalid with cause 1, and a chain that does not
end within the region's DEPTH gives cause 3, as one that breaks further up does before the own DEPTH is held to the parent's.
The own HALTED stops the judging, an ancestor's SUBHALT only the admission that comes after it (log entry 63). -/
def State.judge (s : State) (region : Nat) : Admit × State :=
  let d := s.doorbell region
  if !d.live || d.acur == d.tail || decide (64 ≤ ((s.admitted region).filter (·.unplaced)).length)
      || decide (4096 ≤ (s.sched.launches.filter (·.unplaced)).length) then (.hold, s)
  else if s.retraining (s.rcbAddr region) then (.hold, s)
  else match s.readRcb (s.rcbAddr region) with
    | none => (.halt 1#8, s)
    | some b =>
      if rcbGen b % 2 = 1 || bitsAt b 672 1 == 1 then (.hold, s)
      else if !rcbFieldsOk b then (.halt 1#8, s)
      else match s.ancestors (rcbDepth b) b with
        | .changing => (.hold, s)
        | .broken => (.halt 3#8, s)
        | .ok anc =>
          if !rcbPlaceOk b anc.head? then (.halt 1#8, s)
          else if !chainOk anc then (.halt 3#8, s)
          else if anc.any fun p => bitsAt p 673 1 == 1 then (.hold, s)
          else match d.held with
            | some l => s.judgeImage region l
            | none => if s.retraining (recordAddr b d.acur) then (.hold, s)
              else
                let s := (s.rcbAddr region :: (b :: anc).dropLast.map rcbParent).foldl (fun s a => s.countLocal 2 a 256) s
                (s.countLocal 2 (recordAddr b d.acur) 128).judgeRecord region b (effOf b anc)

/-- A refused launch retires at once, when the pages of its completion are there (R20, R35). -/
def State.retireRefused (s : State) (l : Launch) : State :=
  match s.complete l with
  | .ok s' => ({ s' with sched := { s'.sched with launches := s'.sched.launches.filter fun x => x.id != l.id } } : State).wantPass
  | .error s' => s'

/-- One record of a region admitted, if one can be. The answer says whether one was. -/
def State.admitOne (s : State) (region : Nat) : Bool × State :=
  match s.judge region with
  | (.hold, s') => (false, s')
  | (.halt cause, s') => (false, (s'.haltRcb (s'.rcbAddr region) 1#8 cause).logEvent 11 region)
  | (.take l, s') =>
    let d := s'.doorbell region
    let at_ := (d.acur + 1) % s'.queueLen region
    let run := match d.run with
      | some (k, n + 1, bad) => some (k, n, bad)
      | _ => none
    let s1 := s'.setDoorbell region { d with
      acur := at_, batches := if d.batches.head? = some at_ then d.batches.drop 1 else d.batches, run := run, ahead := d.ahead.drop 1, held := none }
    let l' : Launch := { l with id := s1.sched.nextId, gangKey := d.gang.1, thr := tget 0 s1.obs.thr region, seen := [] }
    let id' := (l'.id + 1) % 2 ^ 32
    let s2 : State := { s1 with sched := { s1.sched with launches := s1.sched.launches ++ [l'], nextId := if id' = 0 then 1 else id' } }
    let s3 := s2.faultPolicy l' l'.status
    (true, if l'.phase = .draining then s3.retireRefused l' else s3)

/-- A region's records admitted until a condition fails. -/
def State.admitRegion (region : Nat) : Nat → State → State
  | 0, s => s
  | n + 1, s =>
    match s.admitOne region with
    | (false, s') => s'
    | (true, s') => State.admitRegion region n s'

/-- Every region in ascending REGIONID; a queue holds no more records than its length. -/
def State.admitAll (s : State) : State :=
  s.sched.doorbells.foldl (fun s p => if p.2.live then State.admitRegion p.1 (s.queueLen p.1) s else s) s

end Sys2Proof.Machine
end

