-- ==== Sys2Proof/Machine/Stops.lean ====
section
/-! DEFINITION. Stopping, saving and restoring a launch (R388 to R395, R440), re-execution on a spare tile (R396, R397), tile
migration and tower switch-in (R64 to R66, R71, R73 to R77), fencing and scrubbing (R62), rail faults (R432), and the slice interval (R50). -/

namespace Sys2Proof.Machine

/-! ### Launches, their tiles and their gangs -/

def State.launchTasks (s : State) (id : Nat) : List Task := s.tasks.filter fun t => t.bnd.launch == id

/-- The members of a launch's gang that have not ended (R49), or the launch alone. -/
def State.gangOf (s : State) (l : Launch) : List Launch :=
  if l.gangKey = 0 then [l] else s.sched.launches.filter fun x => x.gangKey == l.gangKey && x.phase != .draining

/-! ### Asking for a place (R40, R41) -/

/-- Waiting for a place, new or again (R40). -/
def Launch.asking (l : Launch) : Bool := l.phase == .eligible || l.phase == .preempted

/-- The groups of a region and class that ask for a place, in admission order. -/
def State.askers (s : State) (region c : Nat) : List (List Launch) :=
  (s.sched.launches.filter fun l => l.region == region && l.cls == c && l.asking
    && ((s.gangOf l).head?.map (·.id)) == some l.id && (s.gangOf l).all Launch.asking).map s.gangOf

def drrKey (c region : Nat) : Nat := 65536 * c + region

/-- A deficit stands only while its region has an eligible launch of the class (R41). -/
def State.dropDeficits (s : State) : State :=
  { s with sched := { s.sched with deficits := s.sched.deficits.filter fun p => !(s.askers (p.1 % 65536) (p.1 / 65536)).isEmpty } }

/-- The tasks of a launch leave their tiles. -/
def State.leaveGrid (s : State) (id : Nat) : State :=
  { s with cur := if s.cur.bnd.launch = id then .blank else s.cur, parked := s.parked.filter fun t => t.bnd.launch != id }

/-- The state of R23, R98 and R100 in which a task starts. -/
def Launch.startTask (l : Launch) (img : Image) (tile tx ty errs : Nat) : Task :=
  let smem := (Memory.putBytes [] img.sdDest img.sd).putBytes img.argOff l.argBytes
  let rings := img.presets.foldl (fun v p => vput v p.1 (Ring.reset.bind p.2.2.1 p.2.2.2 p.2.1 0)) (Vector.replicate 16 Ring.reset)
  { Task.blank with
    bnd := { tile := tile, launch := l.id, tx := tx, ty := ty, w := l.w, h := l.h, region := l.region, lease := l.towLease
             edge := l.edge, refdef := l.eff.refdef, asid := l.eff.asid, ptroot := l.eff.ptroot, store := img.store
             nbund := img.nbund, trapV := img.trapV, trapEnt := img.trapEnt, thr := l.thr, hwErrs := errs }
    seq := { Seq.reset with state := .running, pc := img.entry }
    reg := ({ Regs.reset with ovt := l.eff.ovt.zeroExtend 64, priv := l.eff.root } : Regs).setS 1#5 (BitVec.ofNat 64 img.argOff)
      |>.setS 2#5 (BitVec.ofNat 64 l.argLen)
    smem := smem, rings := rings }

/-! ### Slices (R50, R51, R429) -/

/-- Quarter-nanoseconds of PTIME past the start of the current slice period. -/
def Effective.slicePhase (e : Effective) (ptimeQ : Nat) : Nat :=
  (((ptimeQ : Int) - 4000 * (e.slOffs : Int)) % (4000 * (max e.slPeriod 1 : Nat) : Int)).toNat

/-- The slice period that PTIME lies in began before the forward set of the first lock: its slice is over, and the next start applies (R429). -/
def State.beforeJump (s : State) (e : Effective) : Bool := s.clk.jumpAt.any fun j => decide (s.clk.ptimeQ < j + e.slicePhase s.clk.ptimeQ)

/-- PTIME lies inside a slice. -/
def State.inSlice (s : State) (e : Effective) : Bool :=
  !e.sliced || (decide (e.slicePhase s.clk.ptimeQ < 4000 * e.slLen) && !s.beforeJump e)

/-- A slice starts in this device cycle. -/
def State.sliceStarts (s : State) (e : Effective) : Bool := decide (e.slicePhase s.clk.ptimeQ < s.clk.step) && !s.beforeJump e

/-- A slice ends in this device cycle: at its end, which for one as long as its period is the next start, or at the forward set (R429). -/
def State.sliceEnds (s : State) (e : Effective) : Bool :=
  let p := e.slicePhase s.clk.ptimeQ
  if s.clk.jumpAt = some s.clk.ptimeQ then true
  else if e.slPeriod ≤ e.slLen then decide (p < s.clk.step) else decide (4000 * e.slLen ≤ p) && decide (p < 4000 * e.slLen + s.clk.step)

/-- A launch may begin to run now: a gang of a sliced region only in the cycle of a slice start, any other only inside a slice (log entry 69). -/
def State.mayStart (s : State) (l : Launch) : Bool :=
  !l.eff.sliced || (if l.gangKey = 0 then s.inSlice l.eff else s.sliceStarts l.eff)

/-! ### Physical tiles and towers (R61 to R69) -/

def State.setPstate (s : State) (ptile v : Nat) : State := { s with plc := { s.plc with tstat := tput ptile v s.plc.tstat } }
def State.setRemap (s : State) (tile : Nat) (e : RemapEntry) : State := { s with plc := { s.plc with remap := tput tile e s.plc.remap } }

/-- TSTATE of a physical tower changed (R65). -/
def State.setTstate (s : State) (ptower v : Nat) : State :=
  { s with plc := { s.plc with chart := tput ptower { s.chart ptower with tstate := v } s.plc.chart } }

/-- A tower's rows with their full bits, their poison and its deferral go over to another, which loses its own; the source is left clear. -/
def State.moveTower (s : State) (src dst : Nat) : State :=
  if src = dst then s
  else
    let a := towerKey src 0
    let b := towerKey dst 0
    let cells := s.mem.towers.filter fun c => decide (a ≤ c.1) && decide (c.1 < a + 2 ^ 22)
    let full := s.mem.full.filter fun k => decide (a / 16 ≤ k) && decide (k < a / 16 + 2 ^ 18)
    let bad := s.mem.towerBad.filter fun k => k / 65536 == src
    let s := match (s.refreshOf src).defer with
      | some e => (s.endDeferral src).putDeferral dst e
      | none => s
    let s := (s.clearRows dst 0 65536).clearRows src 0 65536
    { s with mem := { s.mem with
        towers := cells.foldl (fun m c => m.put (c.1 - a + b) c.2) s.mem.towers
        full := full.foldl (fun l k => insertNat (k - a / 16 + b / 16) l) s.mem.full
        towerBad := bad.foldl (fun l k => insertNat (k % 65536 + 65536 * dst) l) s.mem.towerBad } }

/-- A logical tile goes over to another physical tile of its row, its tower rows with it (R64, R74). -/
def State.moveTile (s : State) (tile px : Nat) : State :=
  let src := s.physTile tile
  let dst := 34 * tileY tile + px
  let s := (List.range 8).foldl (fun (s : State) i => s.moveTower (s.ptower src i) (s.ptower dst i)) s
  s.setRemap tile { fenced := false, px := px }

/-- A tile on which no task is bound leaves a physical tile that is not good: a spare that holds what is leased there takes its place, one that
does not when no rows are held, or it is fenced (R62, R64). -/
def State.replaceTile (s : State) (tile : Nat) : State :=
  let held := s.sched.launches.any fun l => l.contexts.any fun t => t.bnd.tile == tile
  match (s.spareFor tile (s.leasedOn tile)).orElse fun _ => if held then none else s.spareFor tile 0 with
  | some px => (s.moveTile tile px).wantPass
  | none => (s.setRemap tile { s.remap tile with fenced := true }).wantPass

/-- No launch stands on the tile and no clear of it is under way. -/
def State.tileIdle (s : State) (tile : Nat) : Bool :=
  !(s.sched.launches.any fun l => l.onGrid && l.tiles.contains tile) && !(s.sched.clearing.any fun c => c.1 == tile)

/-- A physical tile is taken out of service with a PSTATE; its logical tile changes over once it is idle (R64). -/
def State.fencePtile (s : State) (tile pst : Nat) : State :=
  let s := (s.setPstate (s.physTile tile) pst).wantPass
  if s.tileIdle tile then s.replaceTile tile else s

/-- A tower position has room for the rows leased of logical tower i (R69, R71). -/
def State.towerTakes (s : State) (tile i p : Nat) : Bool :=
  decide (leaseNeeds (s.leasedOn tile) i ≤ 8192 * (s.chart (9 * s.physTile tile + p)).nlay)

/-- Towers that have failed are replaced by their tile's spare tower before the tile is used again (R75). -/
def State.spareTower (s : State) (ptile : Nat) : Option Nat :=
  (List.range 9).find? fun p => (List.range 8).all (fun i => s.ptower ptile i != 9 * ptile + p) && (s.chart (9 * ptile + p)).tstate == 0

/-- TMAP field i of a physical tile changed (R68). -/
def State.setTmap (s : State) (ptile i p : Nat) : State :=
  let m := (s.tmap ptile).toNat
  { s with plc := { s.plc with
    tmap := tput ptile (BitVec.ofNat 32 (m - m / 16 ^ i % 16 * 16 ^ i + p * 16 ^ i)) s.plc.tmap } }

/-- Every failed tower of a logical tile gives its place to the spare, where that holds what is leased of it (R71, R75). -/
def State.switchFailed (s : State) (tile : Nat) : State :=
  let ptile := s.physTile tile
  (List.range 8).foldl (fun (s : State) i =>
    if (s.chart (s.ptower ptile i)).tstate = 2 then
      match s.spareTower ptile with
      | some p => if s.towerTakes tile i p then (s.setTmap ptile i p).wantPass else s
      | none => s
    else s) s

/-- Copies of tiles are abandoned (R77). -/
def State.abandonCopies (s : State) (tiles : List Nat) : State :=
  { s with plc := { s.plc with copies := s.plc.copies.filter fun c => !tiles.contains c.tile } }

/-! ### Re-execution on a spare tile (R396, R397) -/

/-- The work of a launch's tile is discarded; the contexts it has bound leave their streams (R264, R396). -/
def Net.dropIssuer (n : Net) (id tile : Nat) : Net :=
  let mine (i : Nat × Nat) : Bool := i == (id, tile)
  { n with
    bcols := n.bcols.map fun (c, l) => (c, l.filter fun x => !mine (x.launch, x.tile))
    packets := n.packets.filter fun p => !(p.launch == id && p.owner == tile)
    fab := n.fab.map fun (c, x) => (c, if (x.state == 2 || x.state == 3 || x.state == 5) && mine (x.launch, x.tile) then x.leave 0 else x)
    nbu := n.nbu.map fun (g, u) => (g, { u with
      queue := u.queue.filter fun c => !mine c.issuer, accs := u.accs.filter fun a => !mine a.1
      owner := u.owner.filter fun a => !mine a, upc := if u.owner = some (id, tile) then 0 else u.upc
      spilled := u.spilled.filter fun a => !mine a.1 }) }

/-- A task as it starts again after a hardware error: in the state of R23, stopped if its launch is, with the LAUNCH requests and signals
posted before the error still to be delivered (R182, R396). -/
def Launch.again (l : Launch) (img : Image) (t : Task) (stopped : Bool) : Task :=
  let u := l.startTask img t.bnd.tile t.bnd.tx t.bnd.ty (t.bnd.hwErrs + 1)
  { u with eng := { u.eng with launchReqs := t.eng.launchReqs, sigs := t.eng.sigs }
           watch := { t.watch with seen0 := false, seen1 := false, ctx := [] }
           seq := { u.seq with state := if stopped then .stopped else .running } }

/-- The launch answers a hardware error of the task by re-execution: it is restartable, and this is not the task's fourth. -/
def Launch.restarts? (l : Launch) (t : Task) : Bool := l.restart && decide (t.bnd.hwErrs < 3) && t.receives && l.img.isSome

/-- The streams of a task, by handle. -/
def Task.streams (t : Task) : List (BitVec 4 × Stream) :=
  (List.range 16).filterMap fun h => (t.ring (BitVec.ofNat 4 h)).stream.map fun st => (BitVec.ofNat 4 h, st)

/-- Every packet of a tile's operations that can land does, until none moves. -/
def State.landOwned (launch tile : Nat) : Nat → State → State
  | 0, s => s
  | n + 1, s =>
    State.landOwned launch tile n ((List.range s.net.packets.length).reverse.foldl (fun s k =>
      match s.net.packets[k]? with
      | some p => if p.launch = launch ∧ p.owner = tile then s.landPacket k else s
      | none => s) s)

/-- The row under way of a task's transfer at the head of its column is delivered, unless it must wait. -/
def State.finishRow (launch tile : Nat) : Nat → State → State
  | 0, s => s
  | n + 1, s =>
    if (tget [] s.net.bcols (tileX tile)).head?.any fun x => x.launch == launch && x.tile == tile && !x.got.isEmpty then
      State.finishRow launch tile n (s.bcStep (tileX tile))
    else s

/-- What the end of a task leaves of its copies and fabric streams runs to the end of its unit, or is discarded where it must wait. -/
def State.finishCut (tile : Nat) : Nat → State → State
  | 0, s => s
  | n + 1, s =>
    match s.taskOn tile with
    | none => s
    | some t =>
      if t.eng.dmOps.isEmpty && t.rings.toList.all fun r => r.stream.isNone then s
      else State.finishCut tile n ((t.streams.foldl (fun (s : State) p => s.streamStep tile p.1) s).onTask tile State.copyStep)

/-- Every engine of a failing task stops at its unit: packets in flight and the row under way of a transfer are delivered, the chunk under way of
a copy and the group of a fabric stream are finished, and the rest is discarded (R388, R396). -/
def State.finishUnits (s : State) (launch tile : Nat) : State :=
  let s := State.finishRow launch tile 128 (State.landOwned launch tile (2 * s.net.packets.length) s)
  State.finishCut tile 1200 (s.onTile tile Task.discardEngines)

/-- The failing task starts again on a good spare of its row (PSTATE of the failed tile as given), when its launch answers so. -/
def State.reexec (s : State) (tile pst : Nat) : Option State :=
  match s.taskOn tile with
  | none => none
  | some t =>
    match s.launch? t.bnd.launch with
    | none => none
    | some l =>
      match (if l.restarts? t then s.spareFor tile (s.leasedOn tile) else none), l.img with
      | some px, some img =>
        let s := s.finishUnits l.id tile
        let s := ({ s with net := s.net.dropIssuer l.id tile } : State).abandonCopies [tile]
        let s := (((s.setPstate (s.physTile tile) pst).moveTile tile px).clearLease tile t.bnd.lease).endDeferrals tile
        let u := l.again img t (l.phase != .resident)
        let s := s.onTile tile fun t => if t.bnd.launch = l.id then u else t
        some ((s.modLaunch l.id fun l => { l with
          restarts := l.restarts + 1, packets := l.packets.filter fun p => p.owner != tile }).wantPass)
      | _, _ => none

/-! ### Pending faults at a boundary (R317, R373, R396) -/

/-- A task stands at a boundary where its pending fault is taken; a stopped one only where that is a hardware error (R371, R373). -/
def Seq.takesPending (q : Seq) : Bool :=
  q.pendingFault.any fun p => q.state == .running || q.state == .held || q.state == .nbHeld || q.state == .ended || (q.state == .stopped && p.now)

/-- Order of the tasks within a cycle: LAUNCHID, TASKY, TASKX. -/
def Task.earlier (t u : Task) : Bool :=
  decide (t.bnd.launch < u.bnd.launch) || (t.bnd.launch == u.bnd.launch
    && (decide (t.bnd.ty < u.bnd.ty) || (t.bnd.ty == u.bnd.ty && decide (t.bnd.tx < u.bnd.tx))))

/-- The pending fault of the current task taken at the boundary after the stalled bundle (R437), or a re-execution. -/
def State.takePending (s : State) : State :=
  match s.cur.seq.pendingFault with
  | none => s
  | some p =>
    let s := s.endLock.modSeq fun q => { q with pendingFault := none }
    match (if p.redo then s.reexec s.cur.bnd.tile 1 else none) with
    | some s' => s'
    | none =>
      let s := if s.cur.seq.waits = [] || !s.cur.receives then s else s.stallBoundary
      s.takeFault (p.pc.getD s.cur.seq.pc) p.fault

/-! ### Stopping (R388, R389) -/

def allUnits : List EngineUnit := [.sequencer, .matrix, .window, .column, .express, .fabric, .nbu, .copier]

/-- A frozen task issues nothing until it goes on. -/
def Task.freeze (t : Task) : Task :=
  if t.seq.state = .running ∨ t.seq.state = .held ∨ t.seq.state = .nbHeld then { t with seq := { t.seq with state := .stopped } } else t

/-- A stopped task goes on after `away` device cycles. -/
def Task.goOn (away : Nat) (t : Task) : Task :=
  if t.seq.state = .stopped then { t with seq := { t.seq with
    state := .running, waitFrom := t.seq.waitFrom + away, lockFrom := t.seq.lockFrom.map (· + away) } } else t

def State.modTasks (s : State) (id : Nat) (f : Task → Task) : State := s.mapTasks fun t => if t.bnd.launch = id then f t else t

/-- A stop lets each of a task's streams finish the group of input beats that it is in (R274). -/
def Task.markGroups (t : Task) (s : State) : State := t.streams.foldl (fun s p => s.markGroup t.bnd.tile p.1 p.2) s

/-- Faults that are already pending come first, that of the lowest task before the others' (R28, R373); then the tasks of a running launch freeze and the deadline runs. -/
def State.stopLaunch (s : State) (why : StopWhy) (id : Nat) : State :=
  let s := (sortBy Task.earlier (s.launchTasks id)).foldl (fun s t => s.onTask t.bnd.tile State.takePending) s
  match s.launch? id with
  | none => s
  | some l =>
    if l.phase = .resident ∧ (s.launchTasks id).any Task.receives then
      let s := if why = .preempt ∨ why = .slice then s.abandonCopies l.tiles else s
      let tiles := (s.launchTasks id).map (·.bnd.tile)
      let s := (s.launchTasks id).foldl (fun s t => t.markGroups s) s
      (s.modTasks id Task.freeze).modLaunch id fun l => { l with
        phase := .stopping, why := why, acks := tiles.map fun t => (t, .sequencer), stopAt := s.clk.tick + 4 * Config.dcPerUs }
    else s

/-- A stop of a launch stops every member of its gang (R49). -/
def State.startStop (s : State) (id : Nat) (why : StopWhy) : State :=
  match s.launch? id with
  | none => s
  | some l => (s.gangOf l).foldl (fun s m => s.stopLaunch why m.id) s

def execStopRequest (launch : Nat) (why : StopWhy) (s : State) : Out := .next (s.startStop launch why)

/-- Packets that wait at full rows are withdrawn to the port. -/
def State.withdraw (s : State) (launch tile : Nat) : State :=
  let s := State.landOwned launch tile (2 * s.net.packets.length) s
  let mine (p : Packet) : Bool := p.launch == launch && p.owner == tile
  let (out, rest) := s.net.packets.partition mine
  ({ s with net := { s.net with packets := rest } } : State).modLaunch launch fun l => { l with packets := l.packets ++ out }

/-- Stream contexts that a launch's tile has in streaming state stop, or go on (R274). One that was spilled is back in STATE 3 at resumption and
waits there for its cells, even while another context of its fabric decodes (log entry 89). -/
def State.fabTurn (s : State) (launch : Nat) (mine : Nat → Bool) (old new : Nat) : State :=
  { s with net := { s.net with
    fab := s.net.fab.map fun p => (p.1, if p.2.state == old && p.2.launch == launch && mine p.2.tile then { p.2 with state := new } else p.2) } }

/-- An engine of a task stands at the end of its unit, or waits there: a window or a transfer between rows, a copier between chunks, a fabric
stream at the end of its group (R274, R388). -/
def State.atUnit (s : State) (t : Task) (e : EngineUnit) : Bool :=
  let tile := t.bnd.tile
  match e with
  | .fabric => t.streams.all fun p => s.fabMayStop t p.1 p.2
  | .window => t.streams.all fun p => !p.2.ctxs.isEmpty || p.2.got.isEmpty
      || (((s.windowRow t p.1 p.2).taskOn tile).bind fun u => (u.ring p.1).stream) == some p.2
  | .column => match (tget [] s.net.bcols (tileX tile)).head? with
    | none => true
    | some x => x.launch != t.bnd.launch || x.tile != tile || x.got.isEmpty
      || (tget [] (s.bcStep (tileX tile)).net.bcols (tileX tile)).head? == some x
  | .copier => match t.eng.dmOps.head? with
    | none => true
    | some o => o.got.isEmpty || ((s.onTask tile State.copyStep).taskOn tile).bind (fun u => u.eng.dmOps.head?) == some o
  | _ => true

/-- An engine of a tile has reached its unit (R388). -/
def State.ack (s : State) (tile : Nat) (e : EngineUnit) : State :=
  match s.taskOn tile with
  | none => s
  | some t =>
    match s.launch? t.bnd.launch with
    | none => s
    | some l =>
      if l.phase != .stopping || l.acks.contains (tile, e) || !s.atUnit t e then s
      else
        let s := match e with
          | .express => s.withdraw l.id tile
          | .fabric => s.fabTurn l.id (fun k => k == tile) 3 5
          | _ => s
        s.modLaunch l.id fun l => { l with acks := l.acks ++ [(tile, e)] }

def execEngineStopAck (tile : Nat) (e : EngineUnit) (s : State) : Out := .next (s.ack tile e)

/-- Every collector of a stopping launch holds every acknowledgement. -/
def State.stopDone (s : State) (l : Launch) : Bool :=
  (s.launchTasks l.id).all fun t => allUnits.all fun e => l.acks.contains (t.bnd.tile, e)

/-- Units of a launch's lease on a tile that launches now placed over it cover (R392). -/
def State.coveredUnits (s : State) (l : Launch) (tile : Nat) : Nat :=
  ((s.sched.launches.filter fun c => c.phase == .chosen && c.id != l.id && c.tiles.contains tile).map
    fun c => min c.towLease l.towLease).foldl max 0

/-- The tower-row time in dc: 64 KiB for each unit at 256 B per dc, the slowest column (R392). -/
def rowTime (units : List (Nat × Nat)) : Nat :=
  ((List.range 32).map fun x => 256 * ((units.filter fun p => tileX p.1 == x).map (·.2)).sum).foldl max 0

/-- Tower-row time of the save of a launch, and of its restore. -/
def State.saveTime (s : State) (l : Launch) : Nat := rowTime (l.tiles.map fun t => (t, s.coveredUnits l t))
def Launch.restoreTime (l : Launch) : Nat := rowTime (l.rows.map fun r => (r.tile, r.hi - r.lo))

/-- D0 of a stop record. -/
def stopCode : StopWhy → Nat
  | .preempt => 1
  | .migrate => 2
  | .debug => 0
  | .slice => 1

/-- The stop record of a task: its cycle and bundle are those that would issue next, in a stall the cycle after the stalled bundle (R406). -/
def State.stopRecord (s : State) (why : StopWhy) (t : Task) : State :=
  s.emitRec t.bnd.tile { t.record 5 0 t.nextPc (BitVec.ofNat 64 (stopCode why)) (BitVec.ofNat 64 t.seq.dcyc) with
    scyc := BitVec.ofNat 48 (if t.seq.waits = [] then t.seq.scyc else t.seq.scyc + 1) }

/-- The launch ends with ABORTED once a stop, save or restore has ended (R422). -/
def State.endAborted (s : State) (id : Nat) : State :=
  match s.launch? id with
  | some l => if l.aborted then s.endLaunch id .aborted none else s
  | none => s

/-- A stopped launch that may not run now, its slice being over, is saved instead (R50, R52). -/
def State.saveInstead (s : State) (l : Launch) : State :=
  (s.abandonCopies l.tiles).modLaunch l.id fun l => { l with
    phase := .saving, why := .slice, saveAt := s.clk.tick + 12 * Config.dcPerUs + s.saveTime l }

/-- Engines and tasks of a stopped launch go on together (R387). -/
def State.resumeLaunch (s : State) (id : Nat) : State :=
  match s.launch? id with
  | none => s
  | some l =>
    if l.eff.preempt && !s.inSlice l.eff then (s.saveInstead l).endAborted id
    else
    let away := s.clk.tick - (l.stopAt - 4 * Config.dcPerUs)
    let s := (s.modTasks id (Task.goOn away)).fabTurn id (fun _ => true) 5 3
    let s := { s with net := { s.net with packets := s.net.packets ++ l.packets } }
    (s.modLaunch id fun l => { l with phase := .resident, acks := [], packets := [], step2 := false }).endAborted id

/-- A launch and its gang, stopped for a migration of which no copy is left, go on where they are (R77). -/
def State.resumeIdle (s : State) : State :=
  let idle := s.sched.launches.filter fun l => l.phase == .saving && l.why == .migrate
    && !(s.plc.copies.any fun c => c.tower.isNone && (s.gangOf l).any fun m => m.tiles.contains c.tile)
  idle.foldl (fun s l => s.resumeLaunch l.id) s

/-- A stop ends: the context stays in place for a debug stop, and its save begins for any other. -/
def State.finishStop (s : State) (l : Launch) : State :=
  let s := (s.launchTasks l.id).foldl (fun s t => if t.receives then s.stopRecord l.why t else s) s
  let s := s.modLaunch l.id fun l => { l with
    phase := if l.why = .debug then .debug else .saving, saveAt := s.clk.tick + 12 * Config.dcPerUs + s.saveTime l, stopPt := s.ptime }
  s.endAborted l.id

/-- A stop is complete when every member of the gang has stopped. -/
def execStopComplete (launch : Nat) (s : State) : Out :=
  .next (match s.launch? launch with
    | none => s
    | some l =>
      let ms := (s.gangOf l).filter fun m => m.phase == .stopping
      if l.phase == .stopping && ms.all s.stopDone then (ms.foldl (fun s m => s.finishStop m) s).resumeIdle else s)

/-- SAVE_TIMEOUT: the launch ends, the contexts of the tiles that are late are save-incomplete, and the tiles are fenced until scrubbed (R389). -/
def State.saveTimeout (s : State) (l : Launch) (late : List Nat) : State :=
  let s := (s.modTasks l.id fun t => if late.contains t.bnd.tile then { t with area := 2 } else t).modLaunch l.id fun l => { l with
    contexts := l.contexts.map fun t => if late.contains t.bnd.tile then { t with area := 2 } else t }
  late.foldl (fun s k => s.fencePtile k 1) (s.endLaunch l.id .saveTimeout none)

def execStopDeadline (launch : Nat) (s : State) : Out :=
  .next (match s.launch? launch with
    | none => s
    | some l =>
      if l.phase == .stopping && decide (l.stopAt ≤ s.clk.tick) && !s.stopDone l then
        s.saveTimeout l (((s.launchTasks l.id).filter fun t => !(allUnits.all fun e => l.acks.contains (t.bnd.tile, e))).map (·.bnd.tile))
      else s)

/-! ### Saving (R390 to R392, R440) -/

/-- Rows of lease units lo to hi − 1: tower, first row, rows (R70). -/
def unitRows (lo hi : Nat) : List (Nat × Nat × Nat) :=
  (List.range 8).map (fun i => (i, 128 * min lo 384, 128 * min hi 384 - 128 * min lo 384)) ++
  ((List.range (hi - 384)).filter fun m => decide (lo ≤ 384 + m)).map fun m => (1 + m % 6, 49152 + 1024 * (m / 6), 1024)

/-- Rows of a tile read out into a save area, and cleared as they are read; a poisoned row stays one (log entry 70). -/
def State.saveRows (s : State) (tile lo hi : Nat) : SavedRows × State :=
  (unitRows lo hi).foldl (fun (r, s) (i, first, n) =>
    let a := towerKey (s.physTower tile i) (64 * first)
    let b := towerKey i (64 * first)
    let cells := s.mem.towers.filter fun c => decide (a ≤ c.1) && decide (c.1 < a + 64 * n)
    let full := s.mem.full.filter fun k => decide (a / 16 ≤ k) && decide (k < a / 16 + 4 * n)
    let bad := s.mem.towerBad.filter fun k => k / 65536 == s.physTower tile i && decide (first ≤ k % 65536) && decide (k % 65536 < first + n)
    ({ r with bytes := cells.foldl (fun m c => m.put (c.1 - a + b) c.2) r.bytes
              full := full.foldl (fun l k => insertNat (k - a / 16 + b / 16) l) r.full
              bad := r.bad ++ bad.map fun k => 65536 * i + k % 65536 },
     s.clearRows (s.physTower tile i) first n)) ({ tile := tile, lo := lo, hi := hi, bytes := [], full := [] }, s)

/-- Saved rows written back with their full bits. -/
def State.loadRows (s : State) (r : SavedRows) : State :=
  let key (k : Nat) : Nat := towerKey (s.physTower r.tile (k / 2 ^ 22)) (k % 2 ^ 22)
  { s with mem := { s.mem with
    towers := r.bytes.foldl (fun m c => m.put (key c.1) c.2) s.mem.towers
    full := r.full.foldl (fun l g => insertNat (key (16 * g) / 16) l) s.mem.full
    towerBad := r.bad.foldl (fun l k => insertNat (65536 * s.physTower r.tile (k / 65536) + k % 65536) l) s.mem.towerBad } }

/-- Units of a preempted launch's lease on a tile that a save has taken; the rest are held in place. -/
def Launch.savedTo (l : Launch) (tile : Nat) : Nat := ((l.rows.filter fun r => r.tile == tile).map (·.hi)).foldl max 0

/-- Rows of a launch on a tile saved up to a unit. -/
def State.saveUpTo (s : State) (id tile hi : Nat) : State :=
  match s.launch? id with
  | none => s
  | some l =>
    let lo := l.savedTo tile
    if hi ≤ lo then s
    else
      let (r, s) := s.saveRows tile lo hi
      s.modLaunch id fun l => { l with rows := l.rows ++ [r] }

/-- What is kept of a task's engines: the next row of a window and the next chunk of a copy, of a part read or copied already nothing (R388). -/
def Task.kept (t : Task) : Task :=
  { t with rings := t.rings.map fun r => { r with stream := r.stream.map fun st => { st with got := [] } }
           eng := { t.eng with dmOps := t.eng.dmOps.map fun o => { o with got := [], put := 0 } } }

/-- The contexts, transfers and rows of a launch leave the grid, and it waits to resume; a pass is due (R39). -/
def State.saveLaunch (s : State) (l : Launch) : State :=
  let s := l.tiles.foldl (fun s k => (s.drainTile k).saveUpTo l.id k (s.coveredUnits l k)) (s.dropDeficits.abandonCopies l.tiles)
  let ctxs := (s.launchTasks l.id).map fun t => { t.kept with area := 1 }
  let dfs := l.tiles.flatMap s.deferrals
  let s := l.tiles.foldl State.endDeferrals s
  let xf := s.net.bcols.flatMap fun p => (p.2.filter fun x => x.launch == l.id).map fun x => { x with got := [] }
  let s := { s with net := { s.net with bcols := s.net.bcols.map fun (c, q) => (c, (q : List BcXfer).filter fun x => x.launch != l.id) } }
  ((s.leaveGrid l.id).modLaunch l.id fun l => { l with phase := .preempted, onGrid := false, contexts := ctxs, xfers := xf, defers := dfs }).wantPass.endAborted l.id

/-- No channel retrains while a save completes, and what the tiles' ports hold can go home with it (R251, R349, R395). -/
def execSaveComplete (launch : Nat) (s : State) : Out :=
  .next (match s.launch? launch with
    | none => s
    | some l =>
      if l.phase == .saving && l.why != .migrate && s.env.retrain.isEmpty && l.tiles.all fun k => s.portFreeTo k 3#2 then s.saveLaunch l else s)

def execSaveDeadline (launch : Nat) (s : State) : Out :=
  .next (match s.launch? launch with
    | none => s
    | some l =>
      if l.phase == .saving && l.why != .migrate && decide (l.saveAt ≤ s.clk.tick) then
        s.saveTimeout l l.tiles
      else s)

/-! ### Restoring (R393) -/

/-- What a reload of a launch's image gives (R90): it waits for a page; it fails at an address; or the stores' new content, none when what
is read is no valid image any more and the stores keep what they held (log entry 71). -/
inductive Reload where
  | wait (seen : List (List Byte))
  | failed (va : W64)
  | image (img : Option Image)
deriving DecidableEq, Repr

def State.reload (s : State) (l : Launch) : Reload × State :=
  match s.readTaskImage l with
  | (.error (.wait seen), s') => (.wait seen, s')
  | (.error (.fail .translation va), s') => (.failed va, s')
  | (.error (.fail _ _), s') => (.image none, s')
  | (.ok (img, _), s') => (.image (some img), s')

/-- A reload that fails ends the launch (R90). -/
def State.reloadFailed (s : State) (id : Nat) (va : W64) : State :=
  (s.modLaunch id fun l => { l with imgbad := true, finfo := va, seen := [] }).endLaunch id .translation none

/-- A tile's first-level TLB is emptied for a launch of another ASID (R86). -/
def State.tlbFor (s : State) (tile : Nat) (asid : BitVec 14) : State :=
  if (tget ([] : List TlbEntry) s.mem.tlb1 tile).any fun e => e.asid != asid then
    { s with mem := { s.mem with tlb1 := s.mem.tlb1.filter fun p => p.1 != tile } }
  else s

/-- A launch back on its tiles: areas, rows and transfers read back, and everything goes on; a debug stop stays one. -/
def State.restoreLaunch (s : State) (l : Launch) : State :=
  let ctxs := l.contexts.map fun t => { t with bnd := { t.bnd with store := (l.img.map (·.store)).getD t.bnd.store }, area := 3 }
  let s := l.tiles.foldl (fun s k => s.tlbFor k l.eff.asid) s
  let s := l.rows.foldl (fun s r => s.loadRows r) s
  let s := l.defers.foldl (fun (s : State) d => s.putDeferral (s.physTower d.1 d.2.1) d.2.2) s
  let s := { s with parked := s.parked ++ ctxs }
  let s := l.xfers.foldl (fun s x =>
    let c := tileX x.tile
    { s with net := { s.net with bcols := tput c (tget [] s.net.bcols c ++ [x]) s.net.bcols } }) s
  let s := s.modLaunch l.id fun l => { l with contexts := [], rows := [], xfers := [], defers := [], step2 := false }
  if l.why = .debug then (s.modLaunch l.id (fun l => { l with phase := .debug })).endAborted l.id else s.resumeLaunch l.id

/-- The stores of a restoring launch reloaded, unless they are (R393, step 1). -/
def State.reloadStores (s : State) (l : Launch) : State :=
  if l.step2 then s
  else match s.reload l with
    | (.wait seen, s') => s'.modLaunch l.id fun l => { l with seen := seen }
    | (.failed va, s') => s'.reloadFailed l.id va
    | (.image img, s') => s'.modLaunch l.id fun l => { l with step2 := true, seen := [], img := img.orElse fun _ => l.img }

/-- The restore deadline of a launch, from the start of step 2 (R393). -/
def Launch.startStep2 (tick : Nat) (l : Launch) : Launch := { l with saveAt := tick + 12 * Config.dcPerUs + l.restoreTime }

/-- The members of a gang are restored together: their stores are reloaded, and once none waits for a page, no channel retrains and they may
start, they resume (R49, R393, R395). Slices do not bind one that is not preemptible: it was stopped for a checkpoint (R50, R428). -/
def execRestore (launch : Nat) (s : State) : Out :=
  .next (match s.launch? launch with
    | none => s
    | some l =>
      if l.phase != .restoring || !((s.gangOf l).all fun m => m.phase == .restoring) then s
      else
        let before := (s.gangOf l).all (·.step2)
        let s := (s.gangOf l).foldl (fun s m => s.reloadStores m) s
        let ms := ((s.gangOf l).filterMap fun m => s.launch? m.id).filter fun m => m.phase == .restoring
        if !(ms.all (·.step2)) then s
        else
          let s := if before then s else ms.foldl (fun s m => s.modLaunch m.id (Launch.startStep2 s.clk.tick)) s
          if s.env.retrain.isEmpty && ms.all fun m => !m.eff.preempt || s.mayStart m then
            (s.sched.launches.filter fun x => ms.any fun m => m.id == x.id).foldl (fun s m => s.restoreLaunch m) s
          else s)

/-- A missed restore deadline ends the launch as a missed save deadline does (log entry 29); it counts from step 2. -/
def execRestoreDeadline (launch : Nat) (s : State) : Out :=
  .next (match s.launch? launch with
    | none => s
    | some l => if l.phase == .restoring && l.step2 && ((s.gangOf l).all (·.step2)) && decide (l.saveAt ≤ s.clk.tick) then s.saveTimeout l l.tiles
      else s)

/-! ### Migration and tower switch-in (R74 to R77) -/

/-- A copy of a preemptible launch's tile to a good spare begins, unless one of that tile is under way. -/
def execMigrationStart (tile px : Nat) (s : State) : Out :=
  .next (match s.taskOn tile with
    | none => s
    | some t =>
      match s.launch? t.bnd.launch with
      | none => s
      | some l =>
        if l.eff.preempt && l.phase == .resident && t.receives && s.spareFree (tileY tile) px
            && s.ptileFits (34 * tileY tile + px) t.bnd.lease && !(s.plc.copies.any fun c => c.tile == tile) then
          { s with plc := { s.plc with copies := s.plc.copies ++ [{ tile := tile, tower := none, dest := px }] } }
        else s)

/-! ### Hardware errors (R89, R252, R396) -/

/-- The launch whose save area of a tile is being read. -/
def State.restoringOn (s : State) (tile : Nat) : Option Launch :=
  s.sched.launches.find? fun l => l.phase == .restoring && l.tiles.contains tile

/-- Rows of a pre-empted launch's lease on a tile that no save has taken, cleared. -/
def State.clearHeld (s : State) (l : Launch) (tile : Nat) : State :=
  (unitRows (l.savedTo tile) l.towLease).foldl (fun s (i, first, n) => s.clearRows (s.physTower tile i) first n) s

/-- Saved rows whose content is lost: the units stay those that a save has taken, and read back as zeros, empty. -/
def SavedRows.blank (r : SavedRows) : SavedRows := { r with bytes := [], full := [], bad := [] }

/-- A task whose context or held rows are lost starts again when its launch resumes, its rows zero and empty, or the launch ends (R27, R396). One
that has ended has no error any more. -/
def State.contextError (s : State) (l : Launch) (tile : Nat) : State :=
  match l.contexts.find? fun t => t.bnd.tile == tile && t.receives with
  | none => s
  | some t =>
    match (if l.restarts? t then l.img else none) with
    | some img =>
      let u := l.again img t true
      ({ s.clearHeld l tile with net := s.net.dropIssuer l.id tile } : State).modLaunch l.id fun l => { l with
        restarts := l.restarts + 1, contexts := l.contexts.map fun t => if t.bnd.tile = tile then u else t
        rows := l.rows.map fun r => if r.tile = tile then r.blank else r
        xfers := l.xfers.filter fun x => x.tile != tile
        defers := l.defers.filter fun d => d.1 != tile
        packets := l.packets.filter fun p => p.owner != tile }
    | none => (s.endLaunch l.id .hwError none).dropDeficits

/-- Such a task starts again on a spare tile of its row (PSTATE of the failed tile as given), to which the logical tile changes over at once, or,
where another launch's task is bound to it, as soon as it is idle (R64); with no spare, its launch ends. -/
def State.areaError (s : State) (l : Launch) (tile pst : Nat) : State :=
  match l.contexts.find? fun t => t.bnd.tile == tile && t.receives with
  | none => s
  | some t =>
    match if l.restarts? t then s.spareFor tile (s.leasedOn tile) else none with
    | some px =>
      if (s.taskOn tile).isSome then (s.fencePtile tile pst).contextError l tile
      else ((((s.abandonCopies [tile]).setPstate (s.physTile tile) pst).moveTile tile px).wantPass).contextError l tile
    | none => (s.endLaunch l.id .hwError none).dropDeficits

/-- Launches off the grid that hold rows of a logical tower of a tile (R440). -/
def State.heldOwners (s : State) (tile i : Nat) : List Launch :=
  s.sched.launches.filter fun l => !l.onGrid && (l.contexts.any fun t => t.bnd.tile == tile)
    && decide (leaseNeeds (l.savedTo tile) i < leaseNeeds l.towLease i)

/-- A hardware error that ends the task's launch is pending until the boundary of the task's next turn, in this cycle where that is still to
come (R371, R373); a stopped task has a turn too. -/
def Task.meetHw (t : Task) : Task :=
  let u := t.deferHw false
  { u with seq := { u.seq with pendingFault := u.seq.pendingFault.map fun p => { p with now := true } } }

/-- A hardware error of the task on a tile: re-execution with the failed tile's PSTATE, or the end of the launch. -/
def State.hwError (s : State) (tile pst : Nat) : State :=
  match s.reexec tile pst with
  | some s' => s'
  | none => s.onTile tile fun t => if t.bound && t.receives then t.meetHw else t

/-- A tower fails outright: the task on the tile, one that is being restored there, and each launch that holds rows of the tower take a hardware
error, and an idle tile's spare tower is switched in (R75, R396). -/
def State.towerFailed (s : State) (tile i : Nat) : State :=
  let pt := s.physTower tile i
  let s := s.setTstate pt 2
  let s := match s.reexec tile 2 with
    | some s' => s'
    | none => if (s.taskOn tile).isSome then s.hwError tile 1 else s
  let s := ((s.restoringOn tile).toList ++ s.heldOwners tile i).foldl (fun s l =>
    if s.physTower tile i = pt then s.areaError l tile 2 else s.contextError l tile) s
  if (s.taskOn tile).isSome then s else s.switchFailed tile

def execHardwareError (tile : Nat) (k : HwError) (s : State) : Out :=
  .next (State.resumeIdle (match k with
    | .storeSingle => s.logEvent 89 tile
    | .hbmData => s.onTile tile fun t => if t.bound then t.meetHw else t
    | .saveArea => (match s.restoringOn tile with
      | some l => s.areaError l tile 1
      | none => s.hwError tile 1)
    | .towerFailure i => s.towerFailed tile i.toNat
    | .lane =>
      (match s.reexec tile 2 with
      | some s' => s'
      | none => (s.hwError tile 2).fencePtile tile 2)
    | _ => s.hwError tile 1))

/-! ### The switch of a copy (R74 to R77) -/

/-- A forced pass holds the maintenance port of a source tower: its copy pauses (R74). -/
def State.underForced (s : State) (ptower : Nat) : Bool := (s.refreshOf ptower).pass.any fun p => p.2

/-- Leased rows of a logical tower of a tile that are poisoned. -/
def State.badRows (s : State) (tile i : Nat) : Bool :=
  s.mem.towerBad.any fun k => k / 65536 == s.physTower tile i && leaseCovers (s.leasedOn tile) i (k % 65536)

/-- Of the leased rows of a logical tower of a tile, one of units lo to hi − 1 is poisoned. -/
def State.badUnits (s : State) (tile i lo hi : Nat) : Bool :=
  s.mem.towerBad.any fun k => k / 65536 == s.physTower tile i && leaseCovers hi i (k % 65536) && !leaseCovers lo i (k % 65536)

/-- An uncorrectable source row met by a copy: a hardware error of the task whose lease it is in, or of the launch, off the grid or being restored,
that holds the row in place (R77). -/
def State.copyReadError (s : State) (tile i : Nat) : State :=
  let s0 := s.abandonCopies [tile]
  let pt := s.physTile tile
  let hit := (s.taskOn tile).any fun t => s.badUnits tile i 0 t.bnd.lease
  let s1 := if hit then s0.hwError tile 1 else s0
  ((((s.restoringOn tile).toList ++ s.heldOwners tile i).filter fun l => s.badUnits tile i (l.savedTo tile) l.towLease).foldl (fun s l =>
    if s.physTile tile = pt then s.areaError l tile 1 else s.contextError l tile) s1).resumeIdle

/-- The switch: the task stops, with every member of its gang, its store is reloaded on the destination, and all go on. -/
def State.migrate (s : State) (l : Launch) (tile px : Nat) : State :=
  match s.reload l with
  | (.wait seen, s') => s'.modLaunch l.id fun l => { l with seen := seen }
  | (.failed va, s') => s'.reloadFailed l.id va
  | (.image img, s') =>
    let stopped := if l.gangKey = 0 then s'.tasks.filter (fun t => t.bnd.tile == tile && t.bnd.launch == l.id)
      else (s'.gangOf l).flatMap fun m => s'.launchTasks m.id
    let s1 := if l.phase = .resident then stopped.foldl (fun s t => if t.receives then s.stopRecord .migrate t else s) s' else s'
    let s2 := ((s1.moveTile tile px).abandonCopies [tile]).wantPass.modLaunch l.id fun l => { l with seen := [] }
    let s3 := match img with
      | some i => s2.onTile tile fun t => if t.bnd.launch = l.id then { t with bnd := { t.bnd with store := i.store } } else t
      | none => s2
    if l.phase = .resident then s3 else (s3.gangOf l).foldl (fun s m => s.resumeLaunch m.id) s3

/-- A finished copy of a tile switches, unless a forced pass holds one of its towers; a draining launch is not migrated (R74, R76, R418). -/
def execMigrationSwitch (tile : Nat) (s : State) : Out :=
  .next (match s.plc.copies.find? (fun c => c.tile == tile && c.tower.isNone), s.taskOn tile with
    | some c, some t =>
      (match s.launch? t.bnd.launch with
      | some l =>
        if !(l.phase == .resident || (l.phase == .saving && l.why == .migrate)) || !((s.launchTasks l.id).any Task.receives)
            || (List.range 8).any (fun i => s.underForced (s.physTower tile i)) then s
        else match (List.range 8).find? fun i => s.badRows tile i with
          | some i => s.copyReadError tile i
          | none => if s.destGood tile c.dest then s.migrate l tile c.dest else (s.abandonCopies [tile]).resumeIdle
      | none => s)
    | _, _ => s)

/-- A tower turns degraded; its copy to a good spare of enough capacity begins (R71, R75). -/
def execTowerSwitchIn (tile : Nat) (tower : BitVec 3) (s : State) : Out :=
  let i := tower.toNat
  let pt := s.physTile tile
  let s1 := if (s.chart (s.ptower pt i)).tstate = 0 then s.setTstate (s.ptower pt i) 1 else s
  .next (match s1.spareTower pt with
    | none => s1
    | some p =>
      if (s1.chart (s1.ptower pt i)).tstate == 1 && !(s1.plc.copies.any fun c => c.tile == tile) && s1.towerTakes tile i p then
        { s1 with plc := { s1.plc with copies := s1.plc.copies ++ [{ tile := tile, tower := some tower, dest := p }] } }
      else s1)

/-- A finished tower copy switches TMAP on one device cycle, unless a forced pass holds the tower; a destination that has come to be named, that
has failed, or that would no longer hold the leased rows ends the copy instead (R68, R71, R74). -/
def execCopySwitch (tile : Nat) (tower : BitVec 3) (s : State) : Out :=
  .next (match s.plc.copies.find? fun c => c.tile == tile && c.tower == some tower with
    | none => s
    | some c =>
      let pt := s.physTile tile
      let i := tower.toNat
      if s.underForced (s.ptower pt i) then s
      else if s.badRows tile i then s.copyReadError tile i
      else if (List.range 8).all (fun k => s.ptower pt k != 9 * pt + c.dest) && (s.chart (9 * pt + c.dest)).tstate == 0
          && s.towerTakes tile i c.dest then
        (((s.moveTower (s.ptower pt i) (9 * pt + c.dest)).setTmap pt i c.dest).abandonCopies [tile]).wantPass
      else s.abandonCopies [tile])

/-- The destination of a copy cannot be written: it is marked failed, and the source stays in use. -/
def execCopyWriteError (tile : Nat) (s : State) : Out :=
  .next (match s.plc.copies.find? fun c => c.tile == tile with
    | none => s
    | some c =>
      let s' := s.abandonCopies [tile]
      (match c.tower with
      | some _ => s'.setTstate (9 * s.physTile tile + c.dest) 2
      | none => s'.setPstate (34 * tileY tile + c.dest) 2).resumeIdle)

/-! ### Fencing and scrubbing (R62, R64) -/

/-- A fenced logical tile still stands for a physical one in which rows of pre-empted launches are held (R440). -/
def State.keepsHeld (s : State) (ptile : Nat) : Bool :=
  (List.range 32).any fun x =>
    let tile := 32 * (ptile / 34) + x
    s.physTile tile == ptile && s.sched.launches.any fun l => l.contexts.any fun t => t.bnd.tile == tile

/-- A scrub clears the towers of a fenced tile that no logical tile uses any more and in which no rows are held, and it returns as a good spare. -/
def execTileScrubDone (ptile : Nat) (s : State) : Out :=
  .next (if s.pstate ptile = 1 && s.isSpare (ptile / 34) (ptile % 34) && !s.keepsHeld ptile then
      (((List.range 9).foldl (fun (s : State) p => s.clearRows (9 * ptile + p) 0 65536) s).setPstate ptile 0).wantPass
    else s)

/-- Every resident launch ends with HW_ERROR (R432). -/
def execRailFault (s : State) : Out :=
  .next ((s.sched.launches.filter fun l => l.onGrid && l.phase != .draining).foldl (fun s l => s.endLaunch l.id .hwError none) s)

end Sys2Proof.Machine
end

