-- ==== Sys2Proof/Machine/Scheduler.lean ====
section
/-! DEFINITION. The scheduler (R36 to R59): dependences, eligibility, aging, deficit round robin, placement and victims,
release, slices, the watchdog, retirement (R417, R418), ABORT (R422) and the resolution of page faults (R371). -/

namespace Sys2Proof.Machine

/-! ### Dependences and eligibility (R36, R38, R46, R48) -/

/-- An admitted launch ends without being placed again. -/
def State.refuseLaunch (s : State) (id : Nat) (st : Status) (recbad : Bool) (info : W64) : State :=
  match s.launch? id with
  | none => s
  | some l => (s.faultPolicy l st).modLaunch id fun l => l.refuse st recbad false info

/-- One reading of every dependence, in order: whether all are satisfied, and the first that cannot be read. One that waits for its page is
not satisfied (R36, R38; log entry 72). -/
def State.readDeps (s : State) (id : Nat) (e : Effective) : List Dep → Nat → (Bool × Option Nat) × State
  | [], _ => ((true, none), s)
  | d :: l, n =>
    match s.schedRead id e d.va 8 with
    | (.error (.at_ _), s) => ((false, some n), s)
    | (.error .wait, s) => let ((_, bad), s) := s.readDeps id e l (n + 1); ((false, bad), s)
    | (.ok bs, s) => let ((ok, bad), s) := s.readDeps id e l (n + 1); ((ok && decide (d.thr.toNat ≤ leNat bs), bad), s)

/-- The counters of a waiting launch are read, until one reading finds every dependence satisfied (R17, R38). -/
def State.evalDeps (s : State) (l : Launch) : State :=
  if l.phase != .waiting || l.deps.all (·.sat) then s
  else match s.readDeps l.id l.eff l.deps 0 with
    | ((_, some n), s) => s.refuseLaunch l.id .translation true (BitVec.ofNat 64 (64 + 16 * n))
    | ((ok, none), s) => if ok then s.modLaunch l.id fun l => { l with deps := l.deps.map fun d => { d with sat := true } } else s

/-- A column keeps a launch out (R43, R79, R80). -/
def State.excluded (s : State) (l : Launch) (tile : Nat) : Bool :=
  let c := s.column (s.remap tile).px
  c.exclAll || (!l.eff.preempt && c.exclNonPre)

/-- A tile can grant a launch's lease by its capacity, and is not fenced. -/
def State.tileGrants (s : State) (l : Launch) (tile : Nat) : Bool :=
  !(s.remap tile).fenced && s.ptileFits (s.physTile tile) l.towLease

/-- Origins of a shape in the order in which they are tried (R43). -/
def origins (w h : Nat) : List (Nat × Nat) := (List.range (25 - h)).flatMap fun y => (List.range (33 - w)).map fun x => (x, y)

/-- The first rectangle of an empty grid for a launch, beside tiles already taken. -/
def State.firstEmpty (s : State) (excl : Bool) (used : List Nat) (l : Launch) : Option (List Nat) :=
  (origins l.w l.h).findSome? fun o =>
    let ts := rectTiles o.1 o.2 l.w l.h
    if ts.all fun k => s.tileGrants l k && !used.contains k && !(excl && s.excluded l k) then some ts else none

/-- A launch or gang has a place on a grid that holds no other launch (R46). -/
def State.placeable (s : State) (excl : Bool) (ms : List Launch) : Bool :=
  (ms.foldl (fun acc m => acc.bind fun used => (s.firstEmpty excl used m).map (used ++ ·)) (some [])).isSome

/-- No record of a gang is still to be admitted (R47). -/
def State.runDone (s : State) (key : Nat) : Bool :=
  s.sched.doorbells.all fun p => match p.2.run with
    | some (k, n, _) => k != key || n == 0 || !p.2.live
    | none => true

def groupCost (ms : List Launch) : Nat := (ms.map fun m => m.w * m.h).sum

/-- A gang's summed tiles exceed the grid or a budget that its first member holds (R48). -/
def gangTooBig (ms : List Launch) : Bool :=
  decide (768 < groupCost ms) || (match ms.head? with
    | some m => m.eff.chain.any fun c => decide (c.2.1 < groupCost ms)
    | none => false)

/-- A launch whose dependences are satisfied becomes eligible, a gang when every member's are; the structural test is made. FINFO of one that
fails the test is 0 (log entry 73). -/
def State.makeEligible (s : State) (l : Launch) : State :=
  let ms := s.gangOf l
  if !((s.launch? l.id).any fun l => l.phase == .waiting) || !(ms.all fun m => m.phase == .waiting && m.deps.all (·.sat))
      || (l.gangKey != 0 && !s.runDone l.gangKey) then s
  else if l.gangKey != 0 && gangTooBig ms then ms.foldl (fun s m => s.refuseLaunch m.id .unplaceable false 4#64) s
  else if !s.placeable false ms then ms.foldl (fun s m => s.refuseLaunch m.id .unplaceable false 0#64) s
  else
    let cls := (ms.map (·.cls)).foldl max 0
    ms.foldl (fun s m => s.modLaunch m.id fun l => { l with phase := .eligible, since := s.elapsed, cls := cls }) s

/-- The test of R46 made again, and the time since which only exclusions keep a launch out. -/
def State.retest (s : State) (l : Launch) : State :=
  let ms := s.gangOf l
  if !((s.launch? l.id).any Launch.asking) then s
  else if !s.placeable false ms then ms.foldl (fun s m => s.refuseLaunch m.id .unplaceable false 0#64) s
  else
    let now := if s.placeable true ms then none else some (l.exclSince.getD s.elapsed)
    s.modLaunch l.id fun l => { l with exclSince := now }

/-- The class of a launch or gang that has waited AGELIM ms for its first placement rises by one, once (R42, R48): a gang by its first member's
AGELIM (log entry 74). A pass is due (R39). -/
def State.age (s : State) (l : Launch) : State :=
  let ms := s.gangOf l
  match ms.head? with
  | none => s
  | some m =>
    if (l.phase == .eligible || (l.phase == .chosen && l.contexts.isEmpty)) && l.placedAt.isNone && !l.aged && m.eff.ageLim != 0
        && decide (l.since + 1000000 * m.eff.ageLim ≤ s.elapsed) then
      (s.modLaunch l.id fun l => { l with cls := min 15 (l.cls + 1), aged := true }).dropDeficits.wantPass
    else s

def execAgingExpiry (launch : Nat) (s : State) : Out :=
  .next (match s.launch? launch with
    | some l => (s.gangOf l).foldl (fun s m => s.age m) s
    | none => s)

/-- One second of waiting only for excluded columns ends the launch, or its gang (R46). -/
def execExclusionTimeout (launch : Nat) (s : State) : Out :=
  .next (match s.launch? launch with
    | none => s
    | some l =>
      match l.exclSince with
      | none => s
      | some t =>
        if l.asking && decide (t + 1000000000 ≤ s.elapsed) then
          let s := (s.gangOf l).foldl (fun s m => s.refuseLaunch m.id .unplaceable false 0#64) s
          ((List.range 34).filter fun px => (s.column px).exclAll || (s.column px).exclNonPre).foldl (fun s px => s.logEvent 46 px) s.dropDeficits
        else s)

/-! ### Placing (R43, R44, R440) -/

/-- The tiles that a launch holds: it is on them, they are chosen for it, or it retires and their own clear is not done (R13, R418). -/
def Launch.held (l : Launch) : List Nat :=
  if l.onGrid || l.phase == .chosen then l.tiles else if l.leaving then l.tiles.filter fun k => !l.cleared.contains k else []

/-- A launch that a placement in class c may displace (R43). -/
def State.isVictim (s : State) (c : Nat) (l : Launch) : Bool :=
  l.eff.preempt && decide (l.cls < c) && l.phase != .draining
  && (l.phase != .resident || (s.launchTasks l.id).any Task.receives)

/-- A preempted launch's lease still holds rows of a tile that a lease of `n` units would cover (R440). -/
def Launch.heldUnder (l : Launch) (tile n : Nat) : Bool :=
  (l.contexts.any fun t => t.bnd.tile == tile) && decide (l.savedTo tile < min n l.towLease)

/-- The launches other than the group's own in whose way a lease on a tile stands. -/
def State.inTheWay (s : State) (l : Launch) (tile : Nat) : List Launch :=
  s.sched.launches.filter fun x => x.id != l.id &&
    (x.held.contains tile || (!x.onGrid && x.heldUnder tile l.towLease))

/-- The victims of a placement at an origin, or none when the origin does not qualify. -/
def State.qualify (s : State) (l : Launch) (vs : List Nat) (o : Nat × Nat) : Option (List Nat) :=
  let ts := rectTiles o.1 o.2 l.w l.h
  let way := ts.flatMap (s.inTheWay l)
  if !(ts.all fun k => s.tileGrants l k && !s.excluded l k && !(s.sched.clearing.any fun c => c.1 == k))
      || !(way.all (s.isVictim l.cls)) then none
  else
    let new := (way.flatMap s.gangOf).map (·.id)
    let out := vs ++ new
    let held (r : Nat) : Nat :=
      ((s.sched.launches.filter fun x => x.id != l.id && !out.contains x.id && x.eff.chain.any fun c => c.1 == r).map
        fun x => x.held.length).sum
    if l.eff.chain.all fun c => decide (held c.1 + l.w * l.h ≤ c.2.1) then some out else none

/-- Where a launch may go: a resuming one on its own rectangle, unless that has come to hold a fenced tile (R44, R77). -/
def State.originsOf (s : State) (l : Launch) : List (Nat × Nat) :=
  if !l.contexts.isEmpty && !(l.tiles.any fun k => (s.remap k).fenced) then [l.origin] else origins l.w l.h

/-- Every member of a group takes its first qualifying origin; the victims are named. -/
def State.chooseGroup (s : State) (ms : List Launch) : Option (State × List Nat) :=
  ms.foldl (fun acc m => acc.bind fun (s, vs) =>
    ((s.originsOf m).findSome? fun o => (s.qualify m vs o).map fun vs => (o, vs)).map fun (o, vs) =>
      (s.modLaunch m.id (fun l => { l with phase := .chosen, origin := o }), vs)) (some (s, []))

/-- A launch that has not issued gives up its rectangle (R44). -/
def Launch.giveUp (l : Launch) : Launch :=
  if l.phase = .chosen ∨ l.phase = .restoring then
    match l.contexts.find? fun t => t.bnd.tx == 0 && t.bnd.ty == 0 with
    | some t => { l with phase := .preempted, onGrid := false, seen := [], step2 := false, origin := (tileX t.bnd.tile, tileY t.bnd.tile) }
    | none => { l with phase := .eligible, onGrid := false, seen := [] }
  else l

/-- Members of a group give up their rectangles; an ABORT that a restore has held back takes effect with its end (R422). -/
def State.giveUp (s : State) (ids : List Nat) : State := ids.foldl (fun s id => (s.modLaunch id Launch.giveUp).endAborted id) s

/-- A group placed with its victims, or not at all; none is while a checkpoint stops and saves the launches (R428). -/
def State.place (s : State) (ms : List Launch) : Option State :=
  if s.mgmt.saving then none else (s.chooseGroup ms).map fun (s, vs) => s.dropDeficits.giveUp vs

/-- A launch that stands on tiles chosen for another is stopped; one already stopped for a debug stop or a migration is saved. -/
def State.press (s : State) (v : Launch) : State :=
  let save (s : State) (m : Launch) : State := (s.abandonCopies m.tiles).modLaunch m.id fun l => { l with
    phase := .saving, why := if l.why = .migrate then .preempt else l.why
    saveAt := s.clk.tick + 12 * Config.dcPerUs + s.saveTime m }
  match v.phase, v.why with
  | .resident, _ => s.startStop v.id .preempt
  | .debug, _ => (s.gangOf v).foldl save s
  | .saving, .migrate => (s.gangOf v).foldl save s
  | .stopping, .migrate => (s.gangOf v).foldl (fun s m => s.modLaunch m.id fun l => { l with why := .preempt }) s
  | _, _ => s

def State.pressAll (s : State) : State :=
  let wanted := (s.sched.launches.filter fun c => c.phase == .chosen).flatMap Launch.tiles
  (s.sched.launches.filter fun v => v.onGrid && v.tiles.any wanted.contains).foldl (fun s v =>
    match s.launch? v.id with
    | some v => s.press v
    | none => s) s

/-! ### Slices (R50 to R52) -/

/-- No other launch stands on the tiles chosen for a launch, and none is being cleared. -/
def State.tilesFree (s : State) (l : Launch) : Bool :=
  l.tiles.all fun k => !(s.sched.launches.any fun x => x.id != l.id && x.onGrid && x.tiles.contains k)
    && !(s.sched.clearing.any fun c => c.1 == k)

/-- A gang of a sliced region. -/
def slicedGang (ms : List Launch) : Bool := ms.any fun m => m.gangKey != 0 && m.eff.sliced

/-- Whether a placement has not to wait for others to leave. -/
def State.groupFree (s : State) (ms : List Launch) : Bool := ms.all fun m => match s.launch? m.id with
  | some l => s.tilesFree l
  | none => true

/-- A pass may place the group: in a sliced region a gang in the cycle of its slice start, any other launch inside the slice (R51). -/
def State.passMay (s : State) (ms : List Launch) : Bool := ms.all s.mayStart

/-- What a pass makes of a group: at its slice start a gang of a sliced region goes to tiles that are free now, or misses the slice (R51). -/
def State.passPlace (s : State) (ms : List Launch) : Option State :=
  if !s.passMay ms then none
  else if slicedGang ms then (s.place ms).filter fun s' => s'.groupFree ms
  else s.place ms

/-! ### Deficit round robin (R40, R41) -/

/-- Groups served in order while the next one's cost is within the deficit. -/
def State.serve (put : State → List Launch → Option State) : List (List Launch) → Nat → State → Nat × State
  | [], d, s => (d, s)
  | ms :: rest, d, s =>
    if d < groupCost ms then (d, s)
    else match put s ms with
      | some s' => State.serve put rest (d - groupCost ms) s'
      | none => State.serve put rest d s

/-- One visit to a region. -/
def State.visit (put : State → List Launch → Option State) (c : Nat) (s : State) (region : Nat) : State :=
  match s.askers region c with
  | [] => s
  | g :: rest =>
    let d := tget 0 s.sched.deficits (drrKey c region) + ((g.head?.map fun l => l.eff.maxTiles).getD 0)
    let (d, s) := State.serve put (g :: rest) d s
    let d := if (s.askers region c).isEmpty then 0 else d
    { s with sched := { s.sched with deficits := tput (drrKey c region) d s.sched.deficits, visited := tput c region s.sched.visited } }

/-- The regions of a class, ascending, from the one after the region visited last. -/
def State.visitOrder (s : State) (c : Nat) : List Nat :=
  let rs := (s.sched.launches.filter fun l => l.cls == c && l.asking).foldl (fun l x => insertNat x.region l) []
  let last := tget 65536 s.sched.visited c
  rs.filter (fun r => decide (last < r)) ++ rs.filter fun r => decide (r ≤ last)

/-- Every class from 15 down to 0, and in each one visit to every region that takes part. -/
def State.placeAll (put : State → List Launch → Option State) (part : State → Nat → Nat → Bool) (s : State) : State :=
  (List.range 16).reverse.foldl (fun s c => ((s.visitOrder c).filter (part s c)).foldl (State.visit put c) s) s

/-! ### The pass (R39) -/

/-- Tiles that are idle leave physical tiles that are out of service. -/
def State.replaceBad (s : State) : State :=
  (s.plc.tstat.filter fun p => p.2 != 0).foldl (fun s p =>
    match (List.range 32).find? fun x => (s.remap (32 * (p.1 / 34) + x)).px == p.1 % 34 && !(s.remap (32 * (p.1 / 34) + x)).fenced with
    | some x => if s.tileIdle (32 * (p.1 / 34) + x) then s.replaceTile (32 * (p.1 / 34) + x) else s
    | none => s) s

/-- A group whose chosen tiles have come to be fenced, excluded or too small gives them up (R43, R62). -/
def State.tilesGood (s : State) (l : Launch) : Bool :=
  l.tiles.all fun k => s.tileGrants l k && !s.excluded l k && s.pstate (s.physTile k) == 0

def State.dropChosen (s : State) : State :=
  (s.sched.launches.filter fun l => l.phase == .chosen && !s.tilesGood l).foldl (fun s l =>
    s.giveUp ((s.gangOf l).map (·.id))) s

/-- Every launch in admission order, as it stands when its turn comes. -/
def State.eachLaunch (s : State) (f : State → Launch → State) : State :=
  s.sched.launches.foldl (fun s l => match s.launch? l.id with
    | some l => f s l
    | none => s) s

/-- A pass in R39's steps; an event during it makes the next one due. -/
def State.schedule (s : State) : State :=
  let s := s.replaceBad.dropChosen.dropDeficits
  let s : State := { s with sched := { s.sched with lastPass := s.clk.tick, passDue := false } }
  let s := ((s.admitAll.eachLaunch State.evalDeps).eachLaunch State.makeEligible).eachLaunch State.retest
  let s := s.dropDeficits.eachLaunch State.age
  (s.placeAll State.passPlace fun _ _ _ => true).dropDeficits.pressAll

def execSchedulingPass (s : State) : Out := .next s.schedule
def execPassTimer (s : State) : Out := .next s.schedule

/-- The launch's counters are read, and a pass runs. -/
def execDependenceChangeObserved (launch : Nat) (s : State) : Out :=
  .next ((match s.launch? launch with
    | some l => s.evalDeps l
    | none => s).schedule)

/-! ### Release (R45, R49, R90) -/

/-- Rows held on a launch's tiles for others are saved where its lease covers them (R440). -/
def State.saveHeld (s : State) (l : Launch) : State :=
  l.tiles.foldl (fun s k => s.sched.launches.foldl (fun s x =>
    if x.id != l.id && !x.onGrid && x.heldUnder k l.towLease then s.saveUpTo x.id k (min l.towLease x.towLease) else s) s) s

/-- A launch's tasks bound to its tiles with its image and argument block, all released in one cycle. -/
def State.bindLaunch (s : State) (l : Launch) (img : Image) (arg : List Byte) : State :=
  let s := l.tiles.foldl (fun s k => s.tlbFor k l.eff.asid) (s.saveHeld l)
  let l := { l with argBytes := arg }
  let ts := l.tiles.map fun k => l.startTask img k (tileX k - l.origin.1) (tileY k - l.origin.2) 0
  let s : State := { s with parked := s.parked ++ ts, sched := { s.sched with everPlaced := true } }
  s.modLaunch l.id fun l => { l with
    phase := .resident, onGrid := true, img := some img, argBytes := arg, placedAt := some (l.placedAt.getD s.clk.tick), exclSince := none
    seen := [] }

/-- What works for a launch between tiles follows a relocated task. -/
def Net.retile (n : Net) (id : Nat) (f : Nat → Nat) : Net :=
  let g (i : Nat × Nat) : Nat × Nat := if i.1 = id then (id, f i.2) else i
  { n with
    fab := n.fab.map fun (c, x) => (c, if x.launch = id then { x with tile := f x.tile } else x)
    nbu := n.nbu.map fun (c, u) => (c, { u with
      queue := u.queue.map fun q => if q.launch = id then { q with tile := f q.tile } else q
      accs := u.accs.map fun a => (g a.1, a.2), owner := u.owner.map g, spilled := u.spilled.map fun a => (g a.1, a.2) }) }

/-- A launch that resumes elsewhere: its held rows are copied out of the old tiles, and everything takes the new tile numbers (R77). The
breakpoints of its new tiles have not matched before its next bundles (R415). -/
def State.relocate (s : State) (l : Launch) : State :=
  let new (t : Task) : Nat := 32 * (l.origin.2 + t.bnd.ty) + l.origin.1 + t.bnd.tx
  if l.contexts.all fun t => t.bnd.tile == new t then s
  else
    let s := l.contexts.foldl (fun s t => s.saveUpTo l.id t.bnd.tile t.bnd.lease) s
    let f (k : Nat) : Nat := match l.contexts.find? fun t => t.bnd.tile == k with
      | some t => new t
      | none => k
    ({ s with net := s.net.retile l.id f } : State).modLaunch l.id fun l => { l with
      contexts := l.contexts.map fun t => { t with
        bnd := { t.bnd with tile := f t.bnd.tile }, watch := { t.watch with seen0 := false, seen1 := false } }
      rows := l.rows.map fun r => { r with tile := f r.tile }
      xfers := l.xfers.map fun x => { x with tile := f x.tile }
      defers := l.defers.map fun d => (f d.1, d.2)
      packets := l.packets.map fun p => { p with src := f p.src, dst := f p.dst }
      races := l.races.map fun m => { m with tile := f m.tile } }

/-- A resuming launch takes its tiles, and its restore begins with its stores (R393). -/
def State.beginRestore (s : State) (l : Launch) : State :=
  let s := (s.relocate l).saveHeld l
  s.modLaunch l.id fun l => { l with
    phase := .restoring, onGrid := true, step2 := false, seen := [] }

/-- Reads of every member's image and argument block; one that waits for a page keeps the reads it has done (R90). -/
def State.readAll : List Launch → State → Option (List (Launch × Except (Status × W64) (Image × List Byte))) × State
  | [], s => (some [], s)
  | l :: rest, s =>
    if !l.contexts.isEmpty then State.readAll rest s
    else match s.readLaunch l with
      | (.error (.wait seen), s') => (none, s'.modLaunch l.id fun l => { l with seen := seen })
      | (.error (.fail st i), s') => (fun p => (p.1.map fun r => (l, .error (st, i)) :: r, p.2)) (State.readAll rest s')
      | (.ok r, s') => (fun p => (p.1.map fun q => (l, .ok r) :: q, p.2)) (State.readAll rest s')

/-- Every tile of every member is free: the whole group starts, or begins its restore, together. -/
def State.release (s : State) (ms : List Launch) : State :=
  match State.readAll ms s with
  | (none, s') => s'
  | (some got, s') =>
    let s1 := got.foldl (fun s p => match p.2 with
      | .ok (img, arg) => s.bindLaunch p.1 img arg
      | .error (st, i) => (s.faultPolicy p.1 st).modLaunch p.1.id fun l => l.refuse st false true i) s'
    (ms.filter fun m => !m.contexts.isEmpty).foldl (fun s m => s.beginRestore m) s1

/-- The tiles of every member are free and good, and the group may start now (R45, R51, R62). -/
def State.mayRelease (s : State) (ms : List Launch) : Bool :=
  !s.mgmt.saving && ms.all fun m => m.phase == .chosen && s.tilesFree m && s.tilesGood m && s.mayStart m

def execLaunchRelease (launch : Nat) (s : State) : Out :=
  .next (match s.launch? launch with
    | none => s
    | some l => if s.mayRelease (s.gangOf l) then s.release (s.gangOf l) else s)

/-! ### Slice events (R51, R52) -/

/-- Regions that have sliced launches. -/
def State.slicedRegions (s : State) : List Nat :=
  (s.sched.launches.filter fun l => l.eff.sliced).foldl (fun l x => insertNat x.region l) []

/-- The gangs of a region, each by its first member. -/
def State.gangs (s : State) (region : Nat) : List (List Launch) :=
  (s.sched.launches.filter fun l => l.region == region && l.gangKey != 0 && l.eff.sliced
    && ((s.gangOf l).head?.map (·.id)) == some l.id).map s.gangOf

/-- The promise of R53 holds: PTPSTAT reports LOCKED, with an offset within half a microsecond (R429). -/
def State.promised (s : State) : Bool :=
  s.clk.ptpState == 1 && decide (-2000 ≤ s.clk.ptpSlew) && decide (s.clk.ptpSlew ≤ 2000)

/-- A slice start of a region that the promise does not cover is logged (R429). -/
def State.logSlice (s : State) (region : Nat) : State :=
  if !s.promised && s.sched.launches.any fun l => l.region == region && l.eff.sliced && s.sliceStarts l.eff then s.logEvent 429 region else s

/-- In the cycle of its slice start a gang whose chosen tiles are not free gives them up. -/
def State.missSlice (s : State) (region : Nat) : State :=
  (s.gangs region).foldl (fun s ms =>
    if (ms.all fun m => s.sliceStarts m.eff) && (ms.all fun m => m.phase == .chosen) && !s.groupFree ms then
      s.giveUp (ms.map (·.id))
    else s) s

/-- A gang of a region that finds no place in the cycle of its slice start waits for the next slice, and the miss is logged. -/
def State.logMissed (s : State) (region : Nat) : State :=
  (s.gangs region).foldl (fun s ms =>
    if (ms.all fun m => s.sliceStarts m.eff) && ms.all Launch.asking then s.logEvent 51 region else s) s

/-- At a slice start the gangs whose tiles are not free give them up, and a pass places, in the order of the classes and of their regions, what may
start now (R39 to R41, R51). -/
def execSliceStart (region : BitVec 16) (s : State) : Out :=
  .next (((s.slicedRegions.foldl State.missSlice (s.logSlice region.toNat)).schedule).logMissed region.toNat)

/-- Quarter-nanoseconds to the next slice start. -/
def State.toSlice (s : State) (e : Effective) : Nat := 4000 * max e.slPeriod 1 - e.slicePhase s.clk.ptimeQ

/-- Units that a launch going onto its chosen tiles has held rows saved of, by tile (R440). -/
def State.heldUnits (s : State) (m : Launch) : List (Nat × Nat) :=
  m.tiles.flatMap fun k => (s.sched.launches.filter fun x => x.id != m.id && !x.onGrid && x.heldUnder k m.towLease).map fun x =>
    (k, min m.towLease x.towLease - x.savedTo k)

/-- Units that the save of a launch takes, by tile. -/
def State.saveUnits (s : State) (l : Launch) : List (Nat × Nat) := l.tiles.map fun t => (t, s.coveredUnits l t)

/-- Device cycles for which retrainings under way go on suspending saves, at most 50 µs each (R395). -/
def State.retrainLeft (s : State) : Nat :=
  (s.env.retrain.map fun c => tget 0 s.env.retrainAt c + 50 * Config.dcPerUs - s.clk.tick).foldl max 0

/-- The pre-emption time of a group's placement, in quarter-nanoseconds (R57): 34 µs, the tower-row time of the saves already under way and of those
that it requires, its victims' and those of held rows (R440), and the time for which a retraining suspends them. -/
def State.leadTime (s : State) (ms : List Launch) : Nat :=
  let now := ms.filterMap fun m => s.launch? m.id
  let running (v : Launch) : Bool := v.phase == .saving && v.why != .migrate
  let others := s.sched.launches.filter Launch.onGrid
  let victims := others.filter fun v => !running v && now.any fun m => m.id != v.id && v.tiles.any m.tiles.contains
  4 * 34000 + 5 * (rowTime ((others.filter running).flatMap s.saveUnits)
    + rowTime (victims.flatMap s.saveUnits ++ now.flatMap s.heldUnits) + s.retrainLeft)

/-- A slice started in the device cycle before this one, which steps PTIME by 4 to 6 quarter-nanoseconds. -/
def State.sliceStarted (s : State) (e : Effective) : Bool :=
  let p := e.slicePhase s.clk.ptimeQ
  decide (s.clk.step ≤ p) && decide (p < s.clk.step + 6) && !s.beforeJump e

/-- Quarter-nanoseconds to the slice start that a gang waits for. -/
def State.gangStart (s : State) (ms : List Launch) : Nat := ((ms.filter (·.eff.sliced)).map fun m => s.toSlice m.eff).foldl max 0

/-- The gangs that start within a time are placed ahead, by class and by the visits of their regions, as a pass places; their victims stop once the
time is within the pre-emption time of these placements (R40, R41, R51, R57). -/
def State.lead (s : State) (time : Nat) : State :=
  let soon (s : State) (ms : List Launch) : Bool :=
    slicedGang ms && !(ms.any fun m => s.sliceStarts m.eff) && decide (s.gangStart ms ≤ time)
  let s' := s.placeAll (fun s ms => if soon s ms then s.place ms else none) fun s c r => (s.askers r c).any (soon s)
  let got := (s.sched.launches.filter Launch.asking).filter fun l => (s'.launch? l.id).any fun x => x.phase == .chosen
  if got != [] && decide (time ≤ s'.leadTime got) then s'.pressAll else s

/-- One pre-emption time before a slice start, the gangs' rectangles are chosen and their victims stopped (R51, R57). A gang that could not start in
the cycle of its slice start gives its tiles up and waits for the next slice, and the miss is logged. -/
def execSliceLead (region : BitVec 16) (s : State) : Out :=
  let late (ms : List Launch) : Bool := !(ms.any fun m => s.sliceStarts m.eff)
    && (ms.any (fun m => m.phase == .restoring && m.eff.preempt) || ms.any fun m => m.phase == .chosen && s.sliceStarted m.eff)
  let s1 := ((s.gangs region.toNat).filter late).foldl (fun s ms => (s.giveUp (ms.map (·.id))).logEvent 51 region.toNat) s
  let times := ((s1.gangs region.toNat).filter fun ms => ms.all Launch.asking && !(ms.any fun m => s1.sliceStarts m.eff)).foldl
    (fun l ms => insertNat (s1.gangStart ms) l) []
  .next (times.foldl State.lead s1).dropDeficits

/-- At a slice end the preemptible launches of the region stop, and those that have not issued give up their tiles, but for a gang chosen for the
slice to come; one that is not preemptible and goes on after a checkpoint runs across it (R52). A pass is due (R39). -/
def execSliceEnd (region : BitVec 16) (s : State) : Out :=
  .next (s.eachLaunch fun s l =>
    if l.region != region.toNat || !l.eff.sliced || (s.inSlice l.eff && !s.sliceEnds l.eff) then s
    else if (l.phase == .restoring && l.eff.preempt) || (l.phase == .chosen && l.gangKey == 0) then (s.giveUp [l.id]).wantPass
    else if l.eff.preempt && l.phase == .resident && (s.launchTasks l.id).any Task.receives then (s.startStop l.id .slice).wantPass
    else s)

/-! ### Watchdog (R54) and ABORT (R422) -/

/-- The interval is over: every task stops, and the failing one is the task at (0, 0), at the boundary after a stalled bundle (R437). -/
def execWatchdogExpiry (launch : Nat) (s : State) : Out :=
  .next (match s.launch? launch with
    | none => s
    | some l =>
      if l.wdogLeft = 0 && l.onGrid && l.status == .ok && (l.phase == .resident || l.phase == .draining) then
        match (s.launchTasks launch).find? fun t => t.bnd.tx == 0 && t.bnd.ty == 0 with
        | some t => s.onTask t.bnd.tile fun s =>
          let s := if s.cur.seq.waits = [] || !s.cur.receives then s else s.stallBoundary
          s.takeTerminal s.cur.seq.pc { status := .watchdog, slot := 6, info := 0#64 }
        | none => s.endLaunch launch .watchdog none
      else s)

/-- An admitted launch ends with ABORTED: at once, or as soon as a stop, save or restore of it has ended. -/
def execAbortLaunch (launch : Nat) (s : State) : Out :=
  .next (match s.launch? launch with
    | none => s
    | some l =>
      match l.phase with
      | .stopping => s.modLaunch launch fun l => { l with aborted := true }
      | .saving => s.modLaunch launch fun l => { l with aborted := true }
      | .restoring => s.modLaunch launch fun l => { l with aborted := true }
      | .draining => if l.status = .ok then s.endLaunch launch .aborted none else s
      | _ => (s.endLaunch launch .aborted none).dropDeficits)

/-! ### Retirement (R417, R418) and the lease clear (R73) -/

/-- Nothing of an ended task is outstanding. -/
def Task.settled (t : Task) : Bool :=
  let e := t.eng
  !t.receives && t.seq.pendingFault.isNone && e.dmOps.isEmpty && e.xpOps.isEmpty && e.fbReqs.isEmpty && e.nbPort.isEmpty
  && e.pubs.isEmpty && e.launchReqs.isEmpty && e.sigs.isEmpty && e.shifts.isEmpty && t.rings.toList.all fun r => r.stream.isNone

/-- Every task of the launch has ended, and its drain is complete; what a saved context had posted has been delivered (R182, R417). -/
def State.drained (s : State) (l : Launch) : Bool :=
  (s.launchTasks l.id).all Task.settled
  && (l.contexts.all fun t => t.eng.launchReqs.isEmpty && t.eng.sigs.isEmpty)
  && (s.net.bcols.all fun p => p.2.all fun x => x.launch != l.id)
  && (s.net.packets.all fun p => p.launch != l.id)
  && (s.net.nbu.all fun p => p.2.queue.all fun c => c.launch != l.id)

/-- The first step of a retirement: the lease of every tile begins to clear, or, off the grid, the rows held are cleared (R418, R422). -/
def State.startClear (s : State) (l : Launch) : State :=
  if l.leaving then s
  else
    let s := s.abandonCopies (if l.onGrid then l.tiles else [])
    let s := (if l.onGrid then [] else l.contexts).foldl (fun s t => s.clearHeld l t.bnd.tile) s
    let s := (if l.onGrid then l.tiles else []).foldl State.endDeferrals s
    let s := (s.leaveGrid l.id).modLaunch l.id fun x => { x with onGrid := false, leaving := l.onGrid }
    { s with
      mem := { s.mem with lockQ := s.mem.lockQ.filter fun q => !(l.onGrid && l.tiles.contains q.2.1 && q.2.2 != 21 && q.2.2 != 22) }
      sched := { s.sched with clearing := s.sched.clearing ++ (if l.onGrid then l.tiles.map fun k => (k, l.towLease) else []) } }

/-- A launch leaves the device, its stream contexts empty (R264), and a pass is due (R39). -/
def State.removeLaunch (s : State) (l : Launch) : State :=
  ({ s with net := (s.net.dropLaunch l.id).emptyCtxs l.id
            sched := { s.sched with launches := s.sched.launches.filter fun x => x.id != l.id } } : State).wantPass

/-- The steps of R418: the clear starts, and once every write is performed at device scope those of R28 follow. A page that the completion waits
for holds it there. -/
def execRetire (launch : Nat) (s : State) : Out :=
  .next (match s.launch? launch with
    | none => s
    | some l =>
      if (l.phase == .resident || l.phase == .draining) && s.drained l then
        let s := s.startClear l
        if !s.launchClear l.id then s
        else match s.complete l with
          | .ok s' => s'.removeLaunch l
          | .error s' => s'
      else s)

/-- A clear is done: the rows are zero and empty, failed towers and tiles are replaced, and the tile is free. -/
def execLeaseClearDone (tile : Nat) (s : State) : Out :=
  .next (match s.sched.clearing.find? fun c => c.1 == tile with
    | none => s
    | some c =>
      let s := (s.clearLease tile c.2).switchFailed tile
      let s := { s with sched := { s.sched with
        clearing := s.sched.clearing.filter fun x => x.1 != tile
        launches := s.sched.launches.map fun (l : Launch) => if l.leaving && l.tiles.contains tile then { l with cleared := insertNat tile l.cleared } else l } }
      (if s.pstate (s.physTile tile) != 0 && s.tileIdle tile then s.replaceTile tile else s).wantPass)

/-! ### Fencing (R64) -/

/-- A tile is fenced until scrubbed, and the structural test runs again. -/
def execTileFence (tile : Nat) (s : State) : Out := .next ((s.fencePtile tile 1).eachLaunch State.retest).dropDeficits

/-! ### Page faults resolved, or not (R371) -/

/-- The pilot controller has written page-table words; what was held tries again. -/
def execPageResolved (writes : List (Nat × BitVec 64)) (s : State) : Out :=
  .next (writes.foldl (fun s w => s.homeWrite { kind := 0, addr := w.1 } (leBytes w.2.toNat 8)) s).unhold

/-- A page is found unresolvable: an access to it is denied from now on. -/
def execPageUnresolvable (asid : BitVec 14) (va : Nat) (s : State) : Out :=
  .next ({ s with mem := { s.mem with unres := (asid.toNat, va / 4096) :: s.mem.unres } } : State).unhold

end Sys2Proof.Machine
end

