-- ==== Sys2Proof/Machine/Observing.lean ====
section
/-! DEFINITION. Observation (R404 to R416, R423 to R426): trace ports and logline cores, filter instructions and their verifier,
performance counters, the fix trigger and its snapshots, breakpoints and debug stops. -/

namespace Sys2Proof.Machine

/-! ### Trace ports and cores (R407) -/

/-- The next tile of a core whose port holds a record, in rotating order. -/
def State.nextPort (s : State) (c : Nat) : Option Nat :=
  let full := (s.obs.dbg.filter fun p => coreOf p.1 == c && !p.2.port.isEmpty).map (·.1)
  (full.find? fun k => decide ((s.core c).turn < k)).orElse fun _ => full.head?

/-- Records that come from no tile's port, at tile number 768 + c for core c, which its queue takes before those of the ports (log entry 13). -/
def ownPort (c : Nat) : Nat := Config.gridW * Config.gridH + c

/-- A core's queue takes at most one record in a device cycle: of its own records the oldest, else that of the port whose turn it is. -/
def execTracePortDeliver (tile : Nat) (s : State) : Out :=
  let c := if Config.gridW * Config.gridH ≤ tile then tile - Config.gridW * Config.gridH else coreOf tile
  let l := s.core c
  .next (if 12 ≤ c || l.took == some s.clk.tick then s
    else match l.own with
      | r :: rest =>
        if tile ≠ ownPort c then s else (s.setCore c { l with own := rest, took := some s.clk.tick }).enqueueCore c r
      | [] =>
        if s.nextPort c ≠ some tile then s
        else match (s.dbg tile).port with
          | [] => s
          | r :: rest =>
            let s := s.setDbg tile { s.dbg tile with port := rest }
            (s.setCore c { l with turn := tile, took := some s.clk.tick }).enqueueCore c r)

/-- The 32 bytes of a record (R406). -/
def TraceRec.bytes (r : TraceRec) : List Byte :=
  leBytes (r.kind.toNat + r.tx.toNat * 2 ^ 8 + r.ty.toNat * 2 ^ 13 + r.pc.toNat * 2 ^ 18 + r.tag.toNat * 2 ^ 32
    + r.scyc.toNat * 2 ^ 48 + r.launch.toNat * 2 ^ 96 + r.d0.toNat * 2 ^ 128 + r.d1.toNat * 2 ^ 192) 32

/-- A record appended to a core's trace ring, when the ring has a base and room (R404, R424). -/
def State.appendTrace (s : State) (c : Nat) (r : TraceRec) : State :=
  let l := s.core c
  let n := 2 ^ l.trlog2
  if l.trbase ≠ 0#64 ∧ (l.trhead + 1) % n ≠ l.trtail then
    let a := l.trbase.toNat + 32 * l.trhead
    let s := (s.homeWrite { kind := 0, addr := a } r.bytes).countLocal 3 a 32
    s.setCore c { s.core c with trhead := (l.trhead + 1) % n }
  else s

/-! ### Filter instructions (R409): they act for the core that State.obs names -/

def State.fltCore (s : State) : Logline := s.core s.obs.curCore
def State.fltG (s : State) (r : BitVec 3) : W64 := vat s.fltCore.run.g r

/-- The run changed, and one instruction counted. -/
def State.modRun (s : State) (f : FilterRun → FilterRun) : State :=
  let l := s.fltCore
  let r := f l.run
  s.setCore s.obs.curCore { l with run := { r with steps := r.steps + 1 } }

/-- A result in register d, and the next index. -/
def State.fltSet (s : State) (d : BitVec 3) (v : W64) : State := s.modRun fun r => { r with g := vput r.g d v, ix := r.ix + 1 }

/-- A branch: forward by IMM when taken. -/
def State.fltBranch (s : State) (taken : Bool) (imm : BitVec 32) : State :=
  s.modRun fun r => { r with ix := r.ix + if taken then imm.toNat else 1 }

def execFltLdf (d : BitVec 3) (off : BitVec 32) (s : State) : Out :=
  .next (s.fltSet d (BitVec.ofNat 64 (leNat ((s.fltCore.run.rec_.bytes.drop off.toNat).take 8))))
def execFltLdi (d : BitVec 3) (imm : BitVec 32) (s : State) : Out := .next (s.fltSet d (imm.signExtend 64))
def execFltAdd (d a b : BitVec 3) (s : State) : Out := .next (s.fltSet d (s.fltG a + s.fltG b))
def execFltSub (d a b : BitVec 3) (s : State) : Out := .next (s.fltSet d (s.fltG a - s.fltG b))
def execFltAnd (d a b : BitVec 3) (s : State) : Out := .next (s.fltSet d (s.fltG a &&& s.fltG b))
def execFltOr (d a b : BitVec 3) (s : State) : Out := .next (s.fltSet d (s.fltG a ||| s.fltG b))
def execFltXor (d a b : BitVec 3) (s : State) : Out := .next (s.fltSet d (s.fltG a ^^^ s.fltG b))
def execFltShl (d a : BitVec 3) (imm : BitVec 32) (s : State) : Out := .next (s.fltSet d (s.fltG a <<< imm.toNat))
def execFltShr (d a : BitVec 3) (imm : BitVec 32) (s : State) : Out := .next (s.fltSet d (s.fltG a >>> imm.toNat))
def execFltAndi (d a : BitVec 3) (imm : BitVec 32) (s : State) : Out := .next (s.fltSet d (s.fltG a &&& imm.zeroExtend 64))
def execFltAddi (d a : BitVec 3) (imm : BitVec 32) (s : State) : Out := .next (s.fltSet d (s.fltG a + imm.signExtend 64))
def execFltBeq (a b : BitVec 3) (imm : BitVec 32) (s : State) : Out := .next (s.fltBranch (s.fltG a == s.fltG b) imm)
def execFltBne (a b : BitVec 3) (imm : BitVec 32) (s : State) : Out := .next (s.fltBranch (s.fltG a != s.fltG b) imm)
def execFltBltu (a b : BitVec 3) (imm : BitVec 32) (s : State) : Out := .next (s.fltBranch ((s.fltG a).ult (s.fltG b)) imm)
def execFltBlt (a b : BitVec 3) (imm : BitVec 32) (s : State) : Out := .next (s.fltBranch ((s.fltG a).slt (s.fltG b)) imm)

/-- Counter c of the core grows by gA. -/
def execFltCadd (a : BitVec 3) (imm : BitVec 32) (s : State) : Out :=
  .next ((s.bump (coreCounter s.obs.curCore (imm.toNat % 8)) (s.fltG a).toNat).modRun fun r => { r with ix := r.ix + 1 })

/-- The verdict, with what it does. -/
def execFltVerd (imm : BitVec 32) (s : State) : Out :=
  let c := s.obs.curCore
  let v : BitVec 2 := imm.extractLsb' 0 2
  let n : BitVec 3 := imm.extractLsb' 2 3
  let r := s.fltCore.run.rec_
  let s' := match v.toNat with
    | 0 => s.appendTrace c r
    | 1 => s
    | 2 => s.bump (coreCounter c n.toNat) 1
    | _ => (s.appendTrace c r).assertFix 1 0#8 none
  .next (s'.modRun fun r => { r with verdict := some (v, n) })

/-- A filter instruction executed by the core that State.obs names. -/
def filterExec (i : Instr) (s : State) : Out :=
  match i with
  | .fltLdf d off => execFltLdf d off s
  | .fltLdi d imm => execFltLdi d imm s
  | .fltAdd d a b => execFltAdd d a b s
  | .fltSub d a b => execFltSub d a b s
  | .fltAnd d a b => execFltAnd d a b s
  | .fltOr d a b => execFltOr d a b s
  | .fltXor d a b => execFltXor d a b s
  | .fltShl d a imm => execFltShl d a imm s
  | .fltShr d a imm => execFltShr d a imm s
  | .fltAndi d a imm => execFltAndi d a imm s
  | .fltAddi d a imm => execFltAddi d a imm s
  | .fltBeq a b imm => execFltBeq a b imm s
  | .fltBne a b imm => execFltBne a b imm s
  | .fltBltu a b imm => execFltBltu a b imm s
  | .fltBlt a b imm => execFltBlt a b imm s
  | .fltCadd a imm => execFltCadd a imm s
  | .fltVerd imm => execFltVerd imm s
  | _ => .next s

/-- One instruction of a core's filter, which ends with its verdict; in the next device cycle comes the next one, or the next record. -/
def State.filterStep (s : State) (c : Nat) : State :=
  let l := s.core c
  if !l.busy then s
  else
    let s := match (l.filter[l.run.ix]?).map decodeFilter with
      | some (.ok i) => outState s (filterExec i { s with obs := { s.obs with curCore := c } })
      | _ => s
    let l' := s.core c
    s.setCore c { l' with busy := l'.run.verdict.isNone && decide (l.run.ix < l'.run.ix), busyTo := s.clk.tick + 1 }

/-- A core whose filter is at rest takes its accepted filter in force, dequeues a record, and the filter begins on it. -/
def State.filterRecord (s : State) (c : Nat) : State :=
  let l := s.core c
  if l.busy || decide (s.clk.tick < l.busyTo) then s
  else
    let l := match l.accepted with
      | some f => { l with filter := f, accepted := none }
      | none => l
    match l.queue with
    | [] => s.setCore c l
    | r :: rest => (s.setCore c { l with queue := rest, run := { FilterRun.reset with rec_ := r }, busy := true }).filterStep c

def execFilterRecord (core : Nat) (s : State) : Out := .next (if core < 12 then s.filterRecord core else s)

/-! ### Verification (R410, R424) -/

/-- Instruction k of a core's load window. -/
def Logline.windowWord (l : Logline) (k : Nat) : W64 := tget 0#64 l.window k

/-- FLTCTL starts a verification, unless one is under way. -/
def execFilterVerify (core : Nat) (n : BitVec 10) (s : State) : Out :=
  let l := s.core core
  .next (if 12 ≤ core || l.pending.isSome then s
    else s.setCore core { l with pending := some ((List.range n.toNat).map l.windowWord) })

/-- OP in the table, and every unused or reserved field zero. -/
def fltShapeOk (w : W64) : Bool :=
  match filterWord w with
  | .ok _ => true
  | .error _ => false

def fltIsBranch (w : W64) : Bool := decide (0x10 ≤ (w.extractLsb' 56 8).toNat) && decide ((w.extractLsb' 56 8).toNat ≤ 0x13)
def fltImm (w : W64) : Nat := (w.extractLsb' 0 32).toNat

/-- Offsets, shifts, counter indexes and VERD fields are within their limits; a branch has none of these. -/
def fltLimitsOk (w : W64) : Bool :=
  fltIsBranch w || (match decodeFilter w with
    | .ok _ => true
    | .error _ => false)

/-- The number of the check that instruction i of N fails, or 0. -/
def fltCheck (n i : Nat) (w : W64) : Nat :=
  if !fltShapeOk w then 2
  else if !fltLimitsOk w then 3
  else if fltIsBranch w && !(decide (1 ≤ fltImm w) && decide (i + fltImm w < n)) then 4
  else if i + 1 = n ∧ (w.extractLsb' 56 8).toNat ≠ 0x20 then 5
  else 0

/-- The first failing instruction and its check; (0, 0) when the filter is accepted. -/
def fltVerify (f : List W64) : Nat × Nat :=
  if f.length = 0 ∨ 512 < f.length then (0, 1)
  else match f.zipIdx.find? fun p => fltCheck f.length p.2 p.1 != 0 with
    | some (w, i) => (i, fltCheck f.length i w)
    | none => (0, 0)

/-- The verification under way ends. -/
def execFilterVerifyDone (core : Nat) (s : State) : Out :=
  let l := s.core core
  .next (match l.pending with
    | none => s
    | some f =>
      let (i, k) := fltVerify f
      s.setCore core { l with pending := none, check := k, index := i, accepted := if k = 0 then some f else l.accepted })

/-! ### Counters (R411, R412, R424 to R426) -/

/-- The offset of a performance counter. -/
def isCounter (off : Nat) : Bool :=
  off % 8 == 0 &&
  ((decide (0x3000 ≤ off) && decide (off < 0x3C00) && decide (0x40 ≤ off % 256) && decide (off % 256 < 0x80))
   || (decide (0x100000 ≤ off) && decide (off < 0x104000))
   || (decide (0x110000 ≤ off) && decide (off < 0x110000 + 0x40 * 48))
   || (decide (0x200000 ≤ off) && decide (off < 0x200000 + 0x10000 * 768) && decide (0x100 ≤ off % 0x10000) && decide (off % 0x10000 < 0x140)))

/-- EVSEL of a logline counter is fixed at 0. -/
def eventFixed (off : Nat) : Bool := decide (off < 0x4000)

/-- Increments that make a counter wrap. -/
def execCounterOverflow (off : Nat) (by_ : Nat) (s : State) : Out :=
  .next (if isCounter off && decide (2 ^ 48 ≤ counterValue (s.counter off) + by_) then s.bump off by_ else s)

/-- A counter as a host write leaves it: VALUE, FRZ, INTEN and EVSEL written, LOST and OVF cleared by ones. -/
def counterWritten (off : Nat) (c v : W64) : W64 :=
  let keep := c &&& (counterOvf ||| counterLost) &&& ~~~v
  let ev : BitVec 8 := if eventFixed off then 0#8 else v.extractLsb' 56 8
  (ev ++ (0#4 ++ v.extractLsb' 51 1 ++ 0#2 ++ v.extractLsb' 48 1) ++ v.extractLsb' 0 48 : W64) ||| keep

/-- A write with `inc` increments in the same cycle, beside those already counted in it: the written value stands and LOST is set; a wrap still
sets OVF and is signalled. -/
def State.counterWrite (s : State) (off : Nat) (v : W64) (inc : Nat) : State :=
  let c := s.counter off
  let n := if s.frozen c then 0 else inc
  let count := (s.obs.written.lookup off).getD (counterValue c) + n
  let wrap := n != 0 && decide (2 ^ 48 ≤ count)
  let hit := s.obs.hits.lookup off
  let c' := counterWritten off c v ||| (if n != 0 || hit.isSome then counterLost else 0#64)
    ||| (if wrap || (hit.map (·.2)).getD false then counterOvf else 0#64)
  let s := s.setCounter off c'
  let s : State := { s with obs := { s.obs with written := tput off (count % 2 ^ 48) s.obs.written } }
  if wrap then (s.overflowSignal off c').overflowRecord off c' else s

def execCounterWrite (off : Nat) (v : BitVec 64) (inc : Nat) (s : State) : Out :=
  .next (if isCounter off then s.counterWrite off v inc else s)

/-! ### The fix (R413, R423) -/

def State.fixstat (s : State) : W64 :=
  let o := s.obs
  o.fixSeq ++ o.fixCode ++ BitVec.ofNat 8 o.fixSrc ++ (0#15 ++ BitVec.ofBool o.fixHeld) ++ BitVec.ofNat 16 o.fixMissed

/-- What a tile's task shows to a fix. -/
def Task.snap (t : Task) : TileSnap :=
  { scyc := t.seq.scyc, dcyc := t.seq.dcyc, pc := t.nextPc
    open_ := [16, 17, 18, 19, 20, 21].map t.eng.opens, rings := t.rings.toList.map Ring.status }

/-- Every block latches at the end of cycle t + 32, and the fix is recorded. -/
def State.latchFix (s : State) (p : FixPend) : State :=
  let s : State := { s with obs := { s.obs with
    fixPend := none, fixHeld := true, fixSeq := s.obs.fixSeq + 1#16, fixCode := p.code, fixSrc := p.src, fixDc := s.clk.tick
    snaps := (s.tasks.filter Task.bound).foldl (fun (m : Tbl TileSnap) (t : Task) => tput t.bnd.tile t.snap m) []
    snapFab := s.net.fab.map fun (q : Nat × FabCtx) => (q.1, q.2.status)
    snapNbu := s.net.nbu.map fun (q : Nat × Nbu) => (q.1, (q.2.queue.length, q.2.upc))
    snapCnt := s.obs.counters.map fun (q : Nat × W64) => (q.1, (q.2.extractLsb' 0 48).zeroExtend 64) } }
  let r := { p.rec_ with kind := 7#8, d0 := s.fixstat, d1 := BitVec.ofNat 64 s.clk.tick }
  match p.tile with
  | some k => s.emitRec k r
  | none => s.offerCore 0 r

/-- The latch at the end of device cycle t + 32: nothing of that cycle is still to happen. -/
def execFixLatch (s : State) : Out :=
  .next (match s.obs.fixPend with
    | none => s
    | some p =>
      if p.at_ + 32 ≤ s.clk.tick ∧ s.clk.agenda = [] ∧ s.clk.turn = [] then s.latchFix p else s)

def execFixAssert (s : State) : Out := .next (s.assertFix 3 0#8 none)

/-- HELD is cleared, and counters frozen by FRZ count again. -/
def execFixRelease (s : State) : Out := .next { s with obs := { s.obs with fixHeld := false } }

/-! ### The reckoning log's registers (R404, R423) -/

/-- RKBASE at 0x2018, RKLOG2 at 0x2020. -/
def execRkConfigWrite (off : Nat) (v : BitVec 64) (s : State) : Out :=
  .next (match off with
    | 0x2018 => { s with obs := { s.obs with rkbase := v &&& 0xFFFFFFFFFF000#64, rkhead := 0 } }
    | 0x2020 =>
      let n := (v.extractLsb' 0 5).toNat
      if 8 ≤ n ∧ n ≤ 24 then { s with obs := { s.obs with rklog2 := n, rkhead := 0 } } else s
    | _ => s)

/-! ### Breakpoints and debug stops (R415, R416) -/

/-- A breakpoint matches before the bundle that the task would issue. -/
def Task.matches_ (t : Task) (b : W64) : Bool :=
  b.getLsbD 63 && (if b.getLsbD 62 then decide (t.seq.pc = (b.extractLsb' 0 13).toNat) else decide (t.seq.scyc = (b.extractLsb' 0 48).toNat))

/-- A task that would issue a bundle now. -/
def Task.issues (t : Task) : Bool := t.seq.state == .running && t.seq.waits == []

def TileDbg.bkp (d : TileDbg) (which : Bool) : W64 := if which then d.bkp1 else d.bkp0
def Watch.seen (w : Watch) (which : Bool) : Bool := if which then w.seen1 else w.seen0

/-- What breakpoints and step counts leave with the current task. -/
def State.modWatch (s : State) (f : Watch → Watch) : State := { s with cur := { s.cur with watch := f s.cur.watch } }

/-- The same of the task on a tile. -/
def State.watchOn (s : State) (tile : Nat) (f : Watch → Watch) : State :=
  s.onTile tile fun t => if t.bound then { t with watch := f t.watch } else t

/-- A breakpoint of the current task's tile matches; it acts once before each issue of the task. -/
def State.matched (s : State) (which : Bool) : Bool :=
  s.cur.issues && s.cur.matches_ ((s.dbg s.cur.bnd.tile).bkp which) && !s.cur.watch.seen which

/-- Both breakpoints before a bundle: each match with FIX asserts the trigger, and one with STOP starts a debug stop. -/
def State.breakpoints (s : State) : State :=
  let d := s.dbg s.cur.bnd.tile
  let hits := [false, true].filter s.matched
  if hits = [] then s
  else
    let s := s.modWatch fun w => { w with seen0 := w.seen0 || hits.contains false, seen1 := w.seen1 || hits.contains true }
    let s := hits.foldl (fun s w => if (d.bkp w).getLsbD 61 then s.assertFix 2 0#8 s.fixRecord else s) s
    if hits.any fun w => (d.bkp w).getLsbD 60 then s.startStop s.cur.bnd.launch .debug else s

/-- What matches before one bundle acts at one boundary, the other breakpoint's match too. -/
def execBreakpointMatch (tile : Nat) (which : Bool) (s : State) : Out :=
  .next (s.onTask tile fun s => if s.matched which then s.breakpoints else s)

/-- A host STOP for the launch on a tile; ignored while a stop holds. -/
def execDebugStop (tile : Nat) (s : State) : Out :=
  .next (match s.taskOn tile with
    | some t => s.startStop t.bnd.launch .debug
    | none => s)

/-- RESUME: the launch in a debug stop and its gang go on; the step count is for the task of this tile. -/
def execDebugResume (tile : Nat) (steps : BitVec 32) (s : State) : Out :=
  .next (match s.taskOn tile with
    | none => s
    | some t =>
      match s.launch? t.bnd.launch with
      | none => s
      | some l =>
        if l.phase != .debug then s
        else
          let ms := (s.gangOf l).filter fun m => m.phase == .debug
          let s := ms.foldl (fun s m => m.tiles.foldl (fun s k => s.watchOn k fun w => { w with stepped := false, ctx := [] })
            (s.resumeLaunch m.id)) s
          s.watchOn tile fun w => { w with steps := if steps = 0#32 then none else some steps.toNat })

/-- The step count has run out: the task, its launch and its gang stop again. -/
def State.stepExpiry (s : State) : State :=
  if s.cur.watch.steps = some 0 ∧ s.cur.issues then
    (s.modWatch fun w => { w with steps := none, stepped := true }).startStop s.cur.bnd.launch .debug
  else s

def execStepCountExpiry (tile : Nat) (s : State) : Out := .next (s.onTask tile State.stepExpiry)

/-- A bundle has faulted before its issue: breakpoints may match before the next one. -/
def State.clearSeen (s : State) : State := s.modWatch fun w => { w with seen0 := false, seen1 := false }

/-- A bundle issues: breakpoints may match again, and a step is counted. -/
def State.noteIssue (s : State) : State := s.modWatch fun w => { w with seen0 := false, seen1 := false, steps := w.steps.map (· - 1) }

end Sys2Proof.Machine
end

