-- ==== Sys2Proof/Machine/Context.lean ====
section
/-! DEFINITION. The context image of a stopped task (R385, R386, R390, R391), and a debugger's writes to it (R416, R425). Where R390 and R386 list
contents without giving their places, they follow in the order listed, 8 bytes each (log entry 47). -/

namespace Sys2Proof.Machine

/-! ### Register images (R190, R192, R390) -/

/-- The 184 bytes of a vector register, and back; none when the bytes describe no register (R190, R390). -/
def vregImage (r : Runs W32) : List Byte :=
  leBytes (r.length + runLen r * 2 ^ 6) 8 ++
    leBytes ((r.zipIdx.map fun p => (p.1.1.toNat + (p.1.2 - 1) * 2 ^ 32) * 2 ^ (44 * p.2)).sum) 176

def vregOf (bs : List Byte) : Option (Runs W32) :=
  let h := leNat (bs.take 8)
  let n := h % 64
  let v := leNat (bs.drop 8)
  let runs := (List.range n).map fun j => (BitVec.ofNat 32 (v / 2 ^ (44 * j)), v / 2 ^ (44 * j + 32) % 4096 + 1)
  if 32 < n ∨ runLen runs ≠ h / 64 % 8192 ∨ 4096 < runLen runs then none else some (canon runs)

/-- The 56 bytes of a mask register, and back (R192, R390). -/
def kregImage (r : Runs Bool) : List Byte :=
  leBytes (r.length + runLen r * 2 ^ 6 + (if (r.head?.map (·.1)).getD false then 2 ^ 19 else 0)) 8 ++
    leBytes ((r.zipIdx.map fun p => (p.1.2 - 1) * 2 ^ (12 * p.2)).sum) 48

def kregOf (bs : List Byte) : Option (Runs Bool) :=
  let h := leNat (bs.take 8)
  let n := h % 64
  let v := leNat (bs.drop 8)
  let first := h.testBit 19
  let runs := (List.range n).map fun j => (first != decide (j % 2 = 1), v / 2 ^ (12 * j) % 4096 + 1)
  if 32 < n ∨ runLen runs ≠ h / 64 % 8192 ∨ 4096 < runLen runs then none else some runs

/-- The eight bytes written at `at_` within a register's image, over what earlier writes of the stop left there. -/
def overlaid (image : List Byte) (base : Nat) (ctx : List Host.Cell) : List Byte :=
  image.zipIdx.map fun p => match ctx.find? fun c => c.1 == base + p.2 with
    | some c => c.2
    | none => p.1

/-! ### In-flight records (R385, R386) -/

/-- Eight bytes for each number. -/
def words8 (l : List Nat) : List Byte := l.flatMap fun x => leBytes x 8

/-- What an entry's header tells, less PLEN. -/
structure EntryHead where
  rlat : Nat
  kind : Nat
  reg : Nat
  slot : Nat := 0
  cmask : Nat := 0
  age : Nat := 0
  stype : Nat := 0
deriving DecidableEq, Repr

/-- An entry: its 16 B header, then the payload padded to a multiple of 8. -/
def EntryHead.entry (h : EntryHead) (payload : List Byte) : List Byte :=
  leBytes (h.rlat + h.kind * 2 ^ 5 + h.reg * 2 ^ 8 + h.slot * 2 ^ 14 + h.cmask * 2 ^ 16 + h.age * 2 ^ 24 + h.stype * 2 ^ 28
    + payload.length * 2 ^ 32) 16 ++ payload ++ zeros ((8 - payload.length % 8) % 8)

/-- The flags and the RUNLEN value that land in a cluster, in two 16-bit words. -/
def Landing.tail (l : Landing) (cl : Fin 8) : List Byte :=
  leBytes ((l.flags.filter fun p => p.1 == cl).foldl (fun f p => f ||| p.2.toNat) 0) 2 ++ leBytes ((l.runlen.lookup cl).getD 0) 2

/-- A row of a tile register: its 16 words, the flags, and the elements that land. -/
def rowPayload (vals : List (Fin 16 × W32)) : List Byte :=
  (List.range 16).flatMap (fun i => leBytes (((vals.find? fun p => p.1.val == i).map (·.2)).getD 0#32).toNat 4)
    ++ leBytes 0 2 ++ leBytes ((vals.map fun p => 2 ^ p.1.val).sum) 2 ++ zeros 4

/-- The entries of a result in flight; those of a scalar store and of a shadow register land in the next cycle, so no record holds one. -/
def Landing.entries (l : Landing) : List (List Byte) :=
  let h (kind reg cmask : Nat) : EntryHead :=
    { rlat := l.due, kind := kind, reg := reg, slot := l.slot, cmask := cmask, age := l.at_ }
  match l.dest with
  | .sreg r v => [(h 0 r.toNat 0).entry (words8 [v.toNat])]
  | .creg r v => [(h 1 r.toNat 0).entry (words8 [v.toNat])]
  | .vreg r vals => [(h 2 r.toNat (clusterBits (vals.map (·.1)))).entry (vals.flatMap fun p => vregImage p.2 ++ l.tail p.1 ++ zeros 4)]
  | .kreg r vals => [(h 3 r.toNat (clusterBits (vals.map (·.1)))).entry (vals.flatMap fun p => kregImage p.2 ++ l.tail p.1 ++ zeros 4)]
  | .tileRow k row vals =>
    [(h 4 (16 * k.toNat + row.val) (clusterBits (vals.map (·.1)))).entry (vals.flatMap fun p => rowPayload p.2)]
  | .tileClear k cls => (List.range 16).map fun row =>
      (h 4 (16 * k.toNat + row) (clusterBits cls)).entry (cls.flatMap fun _ => rowPayload ((List.finRange 16).map fun i => (i, 0#32)))
  | .cursor y vals => [(h 5 y.toNat (clusterBits (vals.map (·.1)))).entry (words8 (vals.map fun p => p.2.toNat))]
  | .ctl num sub v => [(h 6 num.toNat (if num ≠ 9#6 then 0 else if sub = 8#4 then 255 else 2 ^ sub.toNat)).entry (words8 [v.toNat])]
  | .smem _ _ => []
  | .engine _ _ _ => []
  | .nothing => []

/-- The resolved operands of a stalled slot. -/
def Wait.operands : Wait → List Byte
  | .glob a => words8 [a.d.toNat, a.ea, a.size, a.scope.toNat, a.value.toNat, a.cmp.toNat]
  | .load l =>
    words8 ([l.fe.toNat, l.d.toNat, clusterBits l.cls, l.vl, l.split.toNat] ++ (match l.kind with
      | .elems lf as => lf.toNat :: as.flatMap (·.2)
      | .bits a n => [a, n]
      | .chain st y => y.toNat :: st.map fun p => p.2.toNat
      | .ringRow h i t => [h.toNat, i, t.toNat]))
      ++ l.msk.flatMap (fun p => kregImage (p.2.getD [])) ++ l.old.flatMap (fun p => vregImage p.2)
  | .ringWrite h i parts => words8 [h.toNat, i] ++ parts.flatMap (·.2)
  | .ringIndex h i => words8 [h.toNat, i]
  | .ringDone h => words8 [h.toNat]
  | .bcCount n => words8 [n]
  | .bcAll => []
  | .engine e n => words8 [e.toNat, n]
  | .copies => []
  | .nbPoll d thr va _ => words8 [d.toNat, thr, va]
  | .barrier g n => words8 [g.toNat, n]
  | .fence sc => words8 [sc.toNat]

/-- The entries of a record whose repeated bundle is `pc`: results in order of issue, the repetition, the pending branch, the pending wait,
and the pending traps (their code and information). -/
def Record.entries (r : Record) (pc : Nat) (traps : List (W64 × W64)) : List (List Byte) :=
  let st (n : Nat) (payload : List Byte) : List Byte := ({ rlat := 0, kind := 7, reg := 0, stype := n } : EntryHead).entry payload
  (sortBy (fun a b : Landing => decide (b.at_ < a.at_) || (a.at_ == b.at_ && decide (a.slot < b.slot))) r.results).flatMap Landing.entries
    ++ (match r.rep with
      | some p => [st 1 (words8 [pc, p.n, p.m.toNat, p.j])]
      | none => [])
    ++ (match r.branch with
      | some b => [st 2 (words8 [b.target, b.taken.toNat, b.left, (b.kind == .trapReturn).toNat])]
      | none => [])
    ++ (if r.waits = [] then []
      else [st 3 (words8 [r.waitPc, r.waitScyc, r.waited] ++ r.waits.flatMap fun w => words8 [w.cause] ++ w.operands)])
    ++ traps.map fun p => st 4 (words8 [p.1.toNat, p.2.toNat])

/-- The current record of a stopped task: in a stall the next bundle's cycle is the one after the stalled bundle, whose branch and repetition
count it as issued, and what lands in that cycle has landed. -/
def Seq.currentRecord (q : Seq) : Record :=
  let stalled := q.waits != []
  let first := stalled && !q.resumed
  let r := if stalled then q.scyc + 1 else q.scyc
  { results := (q.inflight.filter fun l => r < l.due).map fun l => { l with at_ := r - l.at_, due := l.due - r }
    branch := (q.branch.map fun b => if first then { b with left := b.left - 1 } else b).filter fun b => b.left != 0
    rep := q.rep.bind fun p => if !first then some p else if p.fresh then some { p with fresh := false }
      else if p.j + 1 < p.n then some { p with j := p.j + 1 } else none
    waits := q.waits, waitPc := q.waitPc, waitScyc := q.waitScyc, waited := 0 }

/-- Traps pending at the task's boundary, as they would write TRAPCODE and TRAPINFO. -/
def Seq.pendingTraps (q : Seq) : List (W64 × W64) :=
  (match q.pendingFault with
    | some p => [(trapCodeOf (if p.fault.cause = 0 then 3 else 1) p.fault, p.fault.info)]
    | none => [])
  ++ q.pendingForced.map fun p =>
    (trapCodeOf 1 { status := .refreshAbuse, cause := 4, slot := 6, info := p.2 }, p.2)

/-- The entries of the trap-saved record and of the current record. -/
def Task.savedEntries (t : Task) : List (List Byte) :=
  match t.seq.saved with
  | some r => (if t.seq.trapPcSet then { r with branch := none, rep := none, waits := [] } else r).entries t.reg.trapPc.toNat []
  | none => []

def Task.currentEntries (t : Task) : List (List Byte) := t.seq.currentRecord.entries t.nextPc t.seq.pendingTraps

/-! ### The image (R390, R391) -/

/-- The registers of a task stopped in a stall hold what lands in the cycle after the stalled bundle. -/
def Task.shown (t : Task) : Task :=
  if t.seq.waits = [] then t
  else
    let u := ({ t with seq := { t.seq with scyc := t.seq.scyc + 1 } } : Task).landDue
    { u with seq := { u.seq with scyc := t.seq.scyc } }

/-- Two words as eight bytes. -/
def twoWords {n : Nat} (v : Vector W32 n) (k : Nat) : Nat :=
  ((v[k]?).getD 0#32).toNat + ((v[k + 1]?).getD 0#32).toNat * 2 ^ 32

/-- The header. -/
def State.headWord (s : State) (t : Task) (k : Nat) : Nat :=
  match k with
  | 0 => 0x43545853 + 2 ^ 32 + t.area % 4 * 2 ^ 40 + t.seq.hnd.toNat * 2 ^ 42
  | 8 => t.bnd.launch % 2 ^ 32 + t.bnd.tx % 32 * 2 ^ 32 + t.bnd.ty % 32 * 2 ^ 40
  | 16 =>
    let a := t.savedEntries
    let b := t.currentEntries
    a.length % 2 ^ 16 + b.length % 2 ^ 16 * 2 ^ 16 + (a.flatten.length + b.flatten.length) * 2 ^ 32
  | 24 => (if t.eng.batch.isSome then 16384 else 0)
    + 1024 * ((((s.launch? t.bnd.launch).map (·.rows)).getD []).filterMap fun r => if r.tile = t.bnd.tile then some (r.hi - r.lo) else none).sum * 2 ^ 32
  | 32 => ((s.launch? t.bnd.launch).map (·.stopPt)).getD 0
  | _ => 0

/-- The operation record of the matrix unit in set P or set A (R314). -/
def Engines.muSet (g : Engines) (active : Bool) : List Nat :=
  match g.muOps.find? fun o => o.begun == active with
  | some o => o.regs.toList.map (·.toNat)
  | none => List.replicate 12 0

/-- A transfer's record as BC registers, and a copy's as DM registers (R313, R314). -/
def BcXfer.regs (x : BcXfer) : List Nat := [x.src, x.y0 + x.y1 * 2 ^ 8, x.tset.toNat, x.rows, x.raddr]
def DmOp.regs (o : DmOp) : List Nat := [o.src, o.dst, o.len, o.bufIx + o.bufV.toNat * 2 ^ 12]

/-- The transfers of a task at its column, the running one, set A, first; the next is set P. -/
def State.xfersOf (s : State) (t : Task) : List BcXfer :=
  (tget [] s.net.bcols (tileX t.bnd.tile)).filter fun x => x.launch == t.bnd.launch && x.tile == t.bnd.tile

/-- A record of n registers, zeros for none. -/
def orZeros (n : Nat) (r : Option (List Nat)) : List Nat := r.getD (List.replicate n 0)

/-- Ring state words: status, binding, PROD, RET, and the next row of a stream. -/
def Ring.words (r : Ring) : List Nat :=
  [r.status.toNat, r.raddr + r.rows * 2 ^ 16, r.prod, r.ret, (r.stream.map (·.next)).getD 0]

/-- Entries of the port buffers; bit 63 says that one stands there. -/
def LaunchReq.word (q : LaunchReq) : Nat := q.region.toNat + q.tail.toNat * 2 ^ 16 + q.pc * 2 ^ 32 + 2 ^ 63
def Signal.word (g : Signal) : Nat := g.payload.toNat + g.vector.toNat * 2 ^ 32 + g.pc * 2 ^ 42 + 2 ^ 63
def Pub.word (p : Pub) : Nat := p.first % 2 ^ 12 + (p.n - 1) % 2 ^ 6 * 2 ^ 12 + p.pc * 2 ^ 18 + p.at_ % 2 ^ 32 * 2 ^ 31 + 2 ^ 63
def ShiftPart.words (p : ShiftPart) : List Nat :=
  (p.cluster.val + p.dir % 4 * 2 ^ 3 + p.h.toNat * 2 ^ 5 + p.pc * 2 ^ 9 + p.index % 2 ^ 40 * 2 ^ 22 + 2 ^ 63)
    :: (List.range 8).map fun i => leNat ((p.bytes.drop (8 * i)).take 8)

/-- The first n entries of a buffer of k words each, with zeros for those that are free. -/
def bufferWords (n k : Nat) (l : List (List Nat)) : List Nat :=
  (l.take n).flatten ++ List.replicate (k * (n - l.length)) 0

/-- The words of the window contexts, ring states, engine sets S, P and A, open counts, and port buffers of LAUNCH, HSIG, DPUB and VSHIFT, in the
order of R390 (log entry 47). -/
def State.setWords (s : State) (t : Task) : List Nat :=
  let num {n : Nat} (v : Vector W64 n) : List Nat := v.toList.map (·.toNat)
  let rings := t.rings.toList
  let bc := (s.xfersOf t).map BcXfer.regs
  let dm := t.eng.dmOps.map DmOp.regs
  rings.flatMap (fun r => num r.desc) ++ rings.flatMap Ring.words
    ++ num t.eng.mu ++ t.eng.muSet false ++ t.eng.muSet true
    ++ num t.eng.bc ++ orZeros 5 bc[1]? ++ orZeros 5 bc[0]?
    ++ num t.eng.dm ++ orZeros 4 dm[1]? ++ orZeros 4 dm[0]?
    ++ num t.eng.xp ++ num t.eng.fb ++ (num t.eng.nb).set 1 ({ s with cur := t } : State).cmdqHeld
    ++ [t.eng.oMu, t.eng.oXp, t.eng.oBc, t.eng.oDm, t.eng.oFb, t.eng.oNb]
    ++ bufferWords 4 1 (t.eng.launchReqs.map fun q => [q.word]) ++ bufferWords 16 1 (t.eng.sigs.map fun g => [g.word])
    ++ bufferWords 4 1 (t.eng.pubs.map fun p => [p.word]) ++ bufferWords 32 9 (t.eng.shifts.map ShiftPart.words)

/-- The descriptor copy of an open window, its fields packed in eight words (R388; log entry 47). -/
def descWords (d : Vector W64 18) : List Nat :=
  let f (i : Nat) : Nat := ((d[i]?).getD 0#64).toNat
  [f 0 + f 1 * 2 ^ 56 + f 2 * 2 ^ 60 + f 14 * 2 ^ 63, f 3 + f 12 * 2 ^ 48, f 4 + f 5 * 2 ^ 25 + f 17 * 2 ^ 50,
   f 6 + f 7 * 2 ^ 25 + f 15 * 2 ^ 50, f 8 + f 9 * 2 ^ 32, f 10 + f 11 * 2 ^ 32, f 16, f 13]

/-- Two elements of the stationary batch: vector b at 2 KiB × b, element k at 4k. -/
def Engines.batchWord (g : Engines) (i : Nat) : Option Nat :=
  g.batch.map fun p =>
    let el (i : Nat) : Nat := ((((p.2.2[i / 512]?).getD [])[i % 512]?).getD 0#32).toNat
    el (2 * i) + el (2 * i + 1) * 2 ^ 32

/-- Bank flags, XBAR instance counts, and the ends of pending deferrals of the tile's towers; from word 64 on the descriptor copies of open windows. -/
def State.flagWord (s : State) (t : Task) (i : Nat) : Option Nat :=
  if i = 0 then some t.eng.bank0.flags.toNat
  else if i = 1 then some t.eng.bank1.flags.toNat
  else if i < 5 then some ((t.eng.xbar[i - 2]?).getD 0)
  else if i < 13 then some ((s.refreshOf (s.physTower t.bnd.tile (i - 5))).defer.getD 0)
  else if 64 ≤ i ∧ i < 192 then
    match (t.ring (BitVec.ofNat 4 ((i - 64) / 8))).stream with
    | some st => (descWords st.desc)[(i - 64) % 8]?
    | none => some 0
  else none

/-- Eight bytes of a task's context image at an aligned offset; none where R390 gives nothing a place. -/
def State.ctxWord (s : State) (t0 : Task) (k : Nat) : Option Nat :=
  let t := t0.shown
  if k < 0x100 then some (s.headWord t0 k)
  else if k < 0x200 then some (t.reg.sreg (BitVec.ofNat 5 ((k - 0x100) / 8))).toNat
  else if k < 0x400 then some (({ s with cur := t } : State).readCtl (BitVec.ofNat 6 ((k - 0x200) / 8)) 0#4).toNat
  else if k = 0x400 then some (((List.range 8).map fun i => (t.reg.creg (BitVec.ofNat 3 i)).toNat * 2 ^ i).sum)
  else if k < 0x440 then none
  else if k < 0x480 then some (t.cl[(k - 0x440) / 8 % 8]'(by omega)).flags.toNat
  else if k < 0x4C0 then some (t.cl[(k - 0x480) / 8 % 8]'(by omega)).runlen
  else if k < 0x5C0 then some (vat (t.cl[(k - 0x4C0) / 32 % 8]'(by omega)).y (BitVec.ofNat 2 ((k - 0x4C0) / 8))).toNat
  else if k < 0x800 then none
  else if k < 0x2000 then (s.setWords t)[(k - 0x800) / 8]?
  else if k < 0x2000 + 184 * 256 then
    let r := (k - 0x2000) / 184
    some (leNat ((vregImage ((t.cl[r / 32 % 8]'(by omega)).vreg (BitVec.ofNat 5 r))).drop ((k - 0x2000) % 184) |>.take 8))
  else if k < 0xE800 then
    let i := (k - 0xD800) / 512
    let j := (k - 0xD800) % 512 / 56 + 1
    if j < 8 then
      some (leNat ((kregImage ((t.cl[i % 8]'(by omega)).kreg (BitVec.ofNat 3 j))).drop ((k - 0xD800) % 512 % 56) |>.take 8))
    else none
  else if k < 0x16800 then
    some (twoWords (vat (t.cl[(k - 0xE800) / 4096 % 8]'(by omega)).t (BitVec.ofNat 2 ((k - 0xE800) / 1024))) ((k - 0xE800) % 1024 / 4))
  else if k < 0x1A800 then some (twoWords t.eng.bank0.el ((k - 0x16800) / 4))
  else if k < 0x1E800 then some (twoWords t.eng.bank1.el ((k - 0x1A800) / 4))
  else if k < 0x1F000 then s.flagWord t ((k - 0x1E800) / 8)
  else if k < 0x23000 then t.eng.batchWord ((k - 0x1F000) / 8)
  else
    let bs := (t0.savedEntries.flatten ++ t0.currentEntries.flatten).drop (k - 0x23000)
    if bs = [] then none else some (leNat (bs.take 8))

/-! ### A debugger's writes (R416, R425) -/

/-- The bits of a control register that a write through the page acts on: those of its fields that are not RO (R5, R6, R98). -/
def ctlMask (n : Nat) : W64 :=
  match n with
  | 5 => 0x1FFF#64
  | 6 | 7 => 0xFF#64
  | 9 | 10 => 0x1FF#64
  | 11 => 3#64
  | 16 => 0x1FFF#64
  | 17 => 0x37FFF#64
  | 21 => 0xFFFFFF#64
  | 34 => 1#64
  | _ => BitVec.allOnes 64

/-- Control register `n` written through the page: RO registers, RO fields and reserved bits ignore it, and so does VL a value outside 1 to
4,096; ones written to FLAGS or RINGERR clear (R5, R425; log entry 47). The word of FLAGS shows, and clears, sub-index 0. -/
def Task.ctxCtl (t : Task) (n : Nat) (w : W64) : Task :=
  let num := BitVec.ofNat 6 n
  let v := w &&& ctlMask n
  if !writable num || !ctlValueOk num v then t
  else match n with
    | 34 => { t with reg := { t.reg with priv := v.getLsbD 0 } }
    | _ => t.setCtl num 0#4 v

/-- The header written through the page: SSTATE and HND; LAUNCHID, TASKX and TASKY are RO registers, and the lengths of records, batch and
rows say what stands elsewhere (log entry 47). -/
def Task.ctxHead (t : Task) (k : Nat) (v : W64) : Task :=
  if k = 0 then { t with area := (v.extractLsb' 40 2).toNat, seq := { t.seq with hnd := v.getLsbD 42 } } else t

/-- Two words of a table of 32-bit words written by one 8 B access. -/
def putWords {n : Nat} (v : Vector W32 n) (k : Nat) (x : W64) : Vector W32 n :=
  (v.setIfInBounds k (x.extractLsb' 0 32)).setIfInBounds (k + 1) (x.extractLsb' 32 32)

/-- A register of an engine's set S: RO registers and reserved bits stay as they are (R5, R6). -/
def Task.regWrite (t : Task) (e i : Nat) (v : W64) : Task :=
  if engineRo e i then t
  else t.setEngine (BitVec.ofNat 5 e) (BitVec.ofNat 5 i) (v &&& BitVec.ofNat 64 (((engineMasks e)[i]?).getD 0))

/-- A word of a ring's state. -/
def Ring.putWord (r : Ring) (k : Nat) (v : W64) : Ring :=
  let f (lo n : Nat) : Nat := v.toNat / 2 ^ lo % 2 ^ n
  match k with
  | 0 => { r with bound := v.getLsbD 46, cmpr := v.getLsbD 45, pkind := f 42 3, done := v.getLsbD 41, err := v.getLsbD 40 }
  | 1 => { r with raddr := f 0 16, rows := f 16 16 }
  | 2 => { r with prod := v.toNat }
  | 3 => { r with ret := v.toNat }
  | _ => { r with stream := r.stream.map fun st => { st with next := v.toNat } }

/-- A register of set P or set A: of an operation that stands there. -/
def Engines.muPut (g : Engines) (active : Bool) (i : Nat) (v : W64) : Engines :=
  match g.muOps.findIdx? fun o => o.begun == active with
  | some k => { g with muOps := g.muOps.modify k fun o => { o with
      regs := o.regs.setIfInBounds i (v &&& BitVec.ofNat 64 (((engineMasks 16)[i]?).getD 0)) } }
  | none => g

def BcXfer.put (x : BcXfer) (i : Nat) (v : W64) : BcXfer :=
  let n := (v &&& BitVec.ofNat 64 (((engineMasks 18)[i]?).getD 0)).toNat
  match i with
  | 0 => { x with src := n }
  | 1 => { x with y0 := n % 2 ^ 8, y1 := n / 2 ^ 8 }
  | 2 => { x with tset := BitVec.ofNat 8 n }
  | 3 => { x with rows := n }
  | _ => { x with raddr := n }

def DmOp.write (o : DmOp) (i : Nat) (v : W64) : DmOp :=
  let n := (v &&& BitVec.ofNat 64 (((engineMasks 19)[i]?).getD 0)).toNat
  match i with
  | 0 => { o with src := n }
  | 1 => { o with dst := n }
  | 2 => { o with len := n }
  | _ => { o with bufIx := n % 2 ^ 12, bufV := n / 2 ^ 12 == 1 }

/-- A register of the k-th transfer of a task at its column. -/
def State.bcPut (s : State) (t : Task) (k i : Nat) (v : W64) : State :=
  let col := tileX t.bnd.tile
  match (s.xfersOf t)[k]? with
  | some x => { s with net := { s.net with bcols := tput col ((tget [] s.net.bcols col).map fun y => if y = x then x.put i v else y) s.net.bcols } }
  | none => s

/-- An entry of a port buffer written: bit 63 puts it there, behind those that stand, or changes it; without that bit it leaves. -/
def putEntry {α : Type} (l : List α) (k : Nat) (v : W64) (f : Option α → α) : List α :=
  if !v.getLsbD 63 then l.eraseIdx k
  else match l[k]? with
    | some x => l.set k (f (some x))
    | none => l ++ [f none]

/-- A word of the port buffers of LAUNCH, HSIG, DPUB and VSHIFT. -/
def Engines.portPut (g : Engines) (tick k : Nat) (v : W64) : Engines :=
  let f (lo n : Nat) : Nat := v.toNat / 2 ^ lo % 2 ^ n
  if k < 4 then
    { g with launchReqs := putEntry g.launchReqs k v fun _ => { region := BitVec.ofNat 16 (f 0 16), tail := BitVec.ofNat 16 (f 16 16), pc := f 32 13 } }
  else if k < 20 then
    { g with sigs := putEntry g.sigs (k - 4) v fun _ => { payload := BitVec.ofNat 32 (f 0 32), vector := BitVec.ofNat 10 (f 32 10), pc := f 42 13 } }
  else if k < 24 then
    { g with pubs := putEntry g.pubs (k - 20) v fun p => { id := (p.map (·.id)).getD g.opSeq, ids := (p.map (·.ids)).getD []
                                                           first := f 0 12, n := f 12 6 + 1, pc := f 18 13, at_ := f 31 32 } }
  else
    let i := (k - 24) / 9
    if (k - 24) % 9 = 0 then
      { g with shifts := putEntry g.shifts i v fun p => { bytes := (p.map (·.bytes)).getD (zeros 64), ready := (p.map (·.ready)).getD tick
                                                          cluster := ⟨f 0 3 % 8, by omega⟩, dir := f 3 2, h := BitVec.ofNat 4 (f 5 4)
                                                          pc := f 9 13, index := f 22 40 } }
    else
      let at_ := 8 * ((k - 24) % 9 - 1)
      { g with shifts := g.shifts.modify i fun p => { p with bytes := (p.bytes.take at_ ++ leBytes v.toNat 8 ++ p.bytes.drop (at_ + 8)).take 64 } }

/-- A word of the window contexts, ring states, engine sets, open counts and port buffers (R425). -/
def Task.setWrite (t : Task) (tick i : Nat) (v : W64) : Task :=
  let eng (f : Engines → Engines) : Task := { t with eng := f t.eng }
  if i < 288 then t.regWrite (i / 18) (i % 18) v
  else if i < 368 then
    let h := BitVec.ofNat 4 ((i - 288) / 5)
    t.setRing h ((t.ring h).putWord ((i - 288) % 5) v)
  else if i < 380 then t.regWrite 16 (i - 368) v
  else if i < 392 then eng fun g => g.muPut false (i - 380) v
  else if i < 404 then eng fun g => g.muPut true (i - 392) v
  else if i < 409 then t.regWrite 18 (i - 404) v
  else if i < 419 then t
  else if i < 423 then t.regWrite 19 (i - 419) v
  else if i < 427 then eng fun g => { g with dmOps := g.dmOps.modify 1 fun o => o.write (i - 423) v }
  else if i < 431 then eng fun g => { g with dmOps := g.dmOps.modify 0 fun o => o.write (i - 427) v }
  else if i < 434 then t.regWrite 17 (i - 431) v
  else if i < 437 then t.regWrite 20 (i - 434) v
  else if i < 440 then t.regWrite 21 (i - 437) v
  else if i < 446 then eng fun g => g.setOpens (i - 440 + 16) v.toNat
  else eng fun g => g.portPut tick (i - 446) v

/-- A packed word of a descriptor copy (log entry 47). -/
def putDesc (d : Vector W64 18) (k : Nat) (v : W64) : Vector W64 18 :=
  let f (lo n : Nat) : W64 := BitVec.ofNat 64 (v.toNat / 2 ^ lo % 2 ^ n)
  let put (l : List (Nat × W64)) : Vector W64 18 := l.foldl (fun d p => d.setIfInBounds p.1 p.2) d
  match k with
  | 0 => put [(0, f 0 56), (1, f 56 4), (2, f 60 3), (14, f 63 1)]
  | 1 => put [(3, f 0 48), (12, f 48 16)]
  | 2 => put [(4, f 0 25), (5, f 25 25), (17, f 50 10)]
  | 3 => put [(6, f 0 25), (7, f 25 25), (15, f 50 11)]
  | 4 => put [(8, f 0 32), (9, f 32 32)]
  | 5 => put [(10, f 0 32), (11, f 32 32)]
  | 6 => put [(16, f 0 56)]
  | _ => put [(13, f 0 16)]

/-- A word of the bank flags, XBAR instance counts and descriptor copies. -/
def Task.flagWrite (t : Task) (i : Nat) (v : W64) : Task :=
  if i = 0 then { t with eng := { t.eng with bank0 := { t.eng.bank0 with flags := v.extractLsb' 0 5 } } }
  else if i = 1 then { t with eng := { t.eng with bank1 := { t.eng.bank1 with flags := v.extractLsb' 0 5 } } }
  else if i < 5 then { t with eng := { t.eng with xbar := t.eng.xbar.setIfInBounds (i - 2) v.toNat } }
  else if 64 ≤ i ∧ i < 192 then
    let h := BitVec.ofNat 4 ((i - 64) / 8)
    t.setRing h { t.ring h with stream := (t.ring h).stream.map fun st => { st with desc := putDesc st.desc ((i - 64) % 8) v } }
  else t

/-- Two elements of a loaded batch; those that it does not hold stay as they are. -/
def Engines.batchWrite (g : Engines) (i : Nat) (v : W64) : Engines :=
  { g with batch := g.batch.map fun p => (p.1, p.2.1, (p.2.2.zipIdx).map fun x =>
    x.1.zipIdx.map fun e =>
      if 512 * x.2 + e.2 = 2 * i then v.extractLsb' 0 32 else if 512 * x.2 + e.2 = 2 * i + 1 then v.extractLsb' 32 32 else e.1) }

/-- The task after 8 bytes at an aligned offset of its context image; what has no register form ignores them. -/
def Task.ctxWrite (t : Task) (tick off : Nat) (v : W64) (ctx : List Host.Cell) : Task :=
  if off < 0x100 then t.ctxHead off v
  else if off < 0x200 then { t with reg := t.reg.setS (BitVec.ofNat 5 ((off - 0x100) / 8)) v }
  else if off < 0x400 then t.ctxCtl ((off - 0x200) / 8) v
  else if off < 0x440 then
    (if off = 0x400 then (List.range 8).foldl (fun (t : Task) i => { t with reg := t.reg.setC (BitVec.ofNat 3 i) (v.getLsbD i) }) t else t)
  else if off < 0x480 then t.modCl ⟨(off - 0x440) / 8 % 8, by omega⟩ fun c => { c with flags := c.flags &&& ~~~v.extractLsb' 0 9 }
  else if off < 0x4C0 then t
  else if off < 0x5C0 then
    t.modCl ⟨(off - 0x4C0) / 32 % 8, by omega⟩ fun c => { c with y := vput c.y (BitVec.ofNat 2 ((off - 0x4C0) / 8)) (v.extractLsb' 0 22) }
  else if 0x800 ≤ off ∧ off < 0x2000 then t.setWrite tick ((off - 0x800) / 8) v
  else if 0x2000 ≤ off ∧ off < 0x2000 + 184 * 256 then
    let k := (off - 0x2000) / 184
    t.modCl ⟨k / 32 % 8, by omega⟩ fun c => match vregOf (overlaid (vregImage (c.vreg (BitVec.ofNat 5 k))) (0x2000 + 184 * k) ctx) with
      | some r => c.setV (BitVec.ofNat 5 k) r
      | none => c
  else if 0xD800 ≤ off ∧ off < 0xE800 then
    let i := (off - 0xD800) / 512
    let k := (off - 0xD800) % 512 / 56 + 1
    t.modCl ⟨i % 8, by omega⟩ fun c => match
        (if k < 8 then kregOf (overlaid (kregImage (c.kreg (BitVec.ofNat 3 k))) (0xD800 + 512 * i + 56 * (k - 1)) ctx) else none) with
      | some r => c.setK (BitVec.ofNat 3 k) r
      | none => c
  else if 0xE800 ≤ off ∧ off < 0x16800 then
    let i := (off - 0xE800) / 4096
    let j := BitVec.ofNat 2 ((off - 0xE800) / 1024)
    t.modCl ⟨i % 8, by omega⟩ fun c => { c with t := vput c.t j (putWords (vat c.t j) ((off - 0xE800) % 1024 / 4) v) }
  else if 0x16800 ≤ off ∧ off < 0x1A800 then
    { t with eng := { t.eng with bank0 := { t.eng.bank0 with el := putWords t.eng.bank0.el ((off - 0x16800) / 4) v } } }
  else if 0x1A800 ≤ off ∧ off < 0x1E800 then
    { t with eng := { t.eng with bank1 := { t.eng.bank1 with el := putWords t.eng.bank1.el ((off - 0x1A800) / 4) v } } }
  else if 0x1E800 ≤ off ∧ off < 0x1F000 then t.flagWrite ((off - 0x1E800) / 8) v
  else if 0x1F000 ≤ off ∧ off < 0x23000 then { t with eng := t.eng.batchWrite ((off - 0x1F000) / 8) v }
  else t

/-- What lands in the cycle after the stalled bundle has landed before a debugger's write. -/
def State.landStalled (s : State) : State :=
  if s.cur.seq.waits = [] then s
  else (s.modSeq fun q => { q with scyc := q.scyc + 1 }).landDue.modSeq fun q => { q with scyc := s.cur.seq.scyc }

/-- What of the image lies outside the task's own registers: the header's PTIME, WDOG, the sets P and A of the column, and pending deferrals. -/
def State.ctxShared (s : State) (t : Task) (k : Nat) (v : W64) : State :=
  let i := (k - 0x800) / 8
  if k = 32 then s.modLaunch t.bnd.launch fun l => { l with stopPt := v.toNat }
  else if k = 0x200 + 8 * 35 then s.modLaunch t.bnd.launch fun l => { l with wdogLeft := v.toNat }
  else if k < 0x800 then s
  else if 409 ≤ i ∧ i < 414 then s.bcPut t 1 (i - 409) v
  else if 414 ≤ i ∧ i < 419 then s.bcPut t 0 (i - 414) v
  else if 0x1E828 ≤ k ∧ k < 0x1E868 then
    let p := s.physTower t.bnd.tile ((k - 0x1E828) / 8)
    if v = 0#64 then s.endDeferral p else s.putDeferral p v.toNat
  else s

/-- A word whose bits are cleared by ones: FLAGS of each cluster, FLAGS and RINGERR among the control registers (R5, R98). -/
def clearsByOnes (k : Nat) : Bool := k == 0x200 + 8 * 9 || k == 0x200 + 8 * 21 || (decide (0x440 ≤ k) && decide (k < 0x480))

/-- One aligned word of the image written: the bytes written now over those that stand; of a word whose bits are cleared by ones, those
written alone. -/
def State.ctxPut (s : State) (tile k : Nat) (now ctx : List Host.Cell) : State :=
  match s.taskOn tile with
  | none => s
  | some t =>
    let old := if clearsByOnes k then 0 else (s.ctxWord t k).getD 0
    let v := BitVec.ofNat 64 (leNat (overlaid (leBytes old 8) k now))
    ((s.ctxShared t k v).onTask tile State.landStalled).onTile tile fun u => if u.bound then u.ctxWrite s.clk.tick k v ctx else u

/-- A write of 1 to 64 bytes to the context page during a debug stop; outside one, and in the record range, it is ignored. -/
def execDebugContextWrite (tile off : Nat) (bytes : List (BitVec 8)) (s : State) : Out :=
  .next (match s.taskOn tile with
    | none => s
    | some t =>
      let d := s.dbg tile
      let stopped := (s.launch? t.bnd.launch).any fun l => l.phase == .debug
      if !stopped || bytes = [] || 64 < bytes.length || off < 0x4000 || 0x10000 < off + bytes.length then s
      else
        let k := 49152 * d.page.toNat + (off - 0x4000)
        let now : List Host.Cell := ((bytes.zipIdx.map fun p => (k + p.2, p.1))).filter fun c => c.1 < 0x23000
        let ctx := now ++ t.watch.ctx
        let s := s.watchOn tile fun w => { w with ctx := ctx }
        let words := (List.range 9).map fun i => k / 8 * 8 + 8 * i
        (words.filter fun w => now.any fun c => w ≤ c.1 && c.1 < w + 8).foldl (fun s w => s.ctxPut tile w now ctx) s)

end Sys2Proof.Machine
end

