-- ==== Sys2Proof/Machine/Management.lean ====
section
/-! DEFINITION. The device's edges: management registers and the mailbox (R421 to R425), host and peer accesses (R419, R427), PTP
(R429), firmware and identity (R430, R431), the checkpoint (R428) and reset (R73). -/

namespace Sys2Proof.Machine

/-! ### Registers with no step of their own (R421 to R425) -/

/-- The low n bits of a written value. -/
def low (v : W64) (n : Nat) : Nat := v.toNat % 2 ^ n

/-- Device registers and the mailbox. -/
def Mgmt.write (m : Mgmt) (placed : Bool) (off : Nat) (v : W64) : Mgmt :=
  match off with
  | 0x00 => if placed ∨ 9216 ≤ low v 14 then m else { m with devid := low v 14 }
  | 0x18 => { m with cntvec := v.extractLsb' 0 10 }
  | 0x20 => { m with sigbase := v &&& 0xFFFFFFFFFFFFF000#64 }
  | 0x28 => if 8 ≤ low v 5 ∧ low v 5 ≤ 16 then { m with siglog2 := low v 5 } else m
  | 0x38 => { m with sigtail := low v 16 }
  | 0x40 => if 1 ≤ low v 8 ∧ low v 8 ≤ 168 then { m with scrubh := low v 8 } else m
  | 0x48 => if 10 ≤ low v 11 ∧ low v 11 ≤ 1440 then { m with scrubt := low v 11 } else m
  | 0x1FF8 => { m with mbReq := v.getLsbD 63, mbRsp := m.mbRsp && !v.getLsbD 62, mbReqLen := low v 16 }
  | _ =>
    if 0x40000 ≤ off ∧ off < 0x60000 then { m with bmbase := tput ((off - 0x40000) / 8) (v &&& 0xFFFFFFFFFF001#64) m.bmbase }
    else m

/-- A logline core's registers. -/
def Logline.write (l : Logline) (off : Nat) (v : W64) : Logline :=
  match off with
  | 0x00 => { l with trbase := v &&& 0xFFFFFFFFFF000#64, trhead := 0 }
  | 0x08 => if 8 ≤ low v 5 ∧ low v 5 ≤ 24 then { l with trlog2 := low v 5, trhead := 0 } else l
  | 0x18 => { l with trtail := low v 24 }
  | 0x20 => { l with qlost := low v 48 }
  | _ => l

/-- A tile's debug window, less the context page and DBGCTL. -/
def TileDbg.write (d : TileDbg) (off : Nat) (v : W64) : TileDbg :=
  match off with
  | 0x00 => { d with bkp0 := v &&& 0xF000FFFFFFFFFFFF#64 }
  | 0x08 => { d with bkp1 := v &&& 0xF000FFFFFFFFFFFF#64 }
  | 0x20 => { d with trEn := v.getLsbD 0 }
  | 0x28 => { d with trlost := low v 48 }
  | 0x30 => { d with page := v.extractLsb' 0 2 }
  | _ => d

/-- An aligned write of an 8 B register. -/
def State.regWrite (s : State) (off : Nat) (v : W64) : State :=
  if off < 0x2000 ∨ (0x40000 ≤ off ∧ off < 0x60000) then { s with mgmt := s.mgmt.write s.sched.everPlaced off v }
  else if off = 0x2030 then { s with obs := { s.obs with rktail := low v 24 } }
  else if off = 0x2038 then { s with obs := { s.obs with rklost := low v 48 } }
  else if 0x3000 ≤ off ∧ off < 0x3C00 then
    s.setCore ((off - 0x3000) / 256) ((s.core ((off - 0x3000) / 256)).write (off % 256) v)
  else if 0x60000 ≤ off ∧ off < 0x6C000 then
    let c := (off - 0x60000) / 4096
    s.setCore c { s.core c with window := tput (off % 4096 / 8) v (s.core c).window }
  else if 0x200000 ≤ off ∧ off < 0x200000 + 0x10000 * 768 then
    let k := (off - 0x200000) / 0x10000
    s.setDbg k ((s.dbg k).write (off % 0x10000) v)
  else s

/-- A host write: bytes of the mailbox's request buffer, an 8 B register at its size, or an entry of NBARB or of the threshold table at its own;
others are ignored. -/
def execRegisterWrite (off size : Nat) (v : BitVec 64) (s : State) : Out :=
  .next (if 0x1000 ≤ off ∧ off + size ≤ 0x1800 then
      (if 1 ≤ size ∧ size ≤ 8 then { s with mgmt := { s.mgmt with mbBuf := s.mgmt.mbBuf.putBytes off (leBytes v.toNat size) } } else s)
    else if off % size != 0 then s
    else if 0x5800 ≤ off ∧ off < 0x5C00 then
      (if size = 4 then { s with mgmt := { s.mgmt with nbarb := tput ((off - 0x5800) / 4) ((v.extractLsb' 0 32) &&& 0xFCFFF#32) s.mgmt.nbarb } }
      else s)
    else if 0x20000 ≤ off ∧ off < 0x40000 then
      (if size = 2 then { s with obs := { s.obs with thr := tput ((off - 0x20000) / 2) (low v 16) s.obs.thr } } else s)
    else if size = 8 then s.regWrite off v
    else s)

/-! ### The mailbox (R422): one request and one response at a time -/

/-- The pilot controller takes the request that stands in the buffer. -/
def execMailboxRequest (s : State) : Out :=
  let m := s.mgmt
  .next (if m.mbReq && m.mbTaken.isEmpty then
      { s with mgmt := { m with mbReq := false, mbTaken := m.mbBuf.bytes 0x1000 (min m.mbReqLen 2048) } }
    else s)

/-- A response of at most 2,040 bytes stands in the buffer. -/
def execMailboxResponse (bytes : List (BitVec 8)) (s : State) : Out :=
  let m := s.mgmt
  .next (if m.mbRsp || decide (2040 < bytes.length) then s
    else { s with mgmt := { m with mbRsp := true, mbRspLen := bytes.length, mbTaken := [], mbBuf := m.mbBuf.putBytes 0x1800 bytes } })

/-! ### Host and peer accesses to local HBM (R15, R347, R419, R427) -/

/-- A read-modify-write of 4 or 8 aligned bytes at the home controller; its old value is the answer. -/
def State.homeAmo (s : State) (pa size : Nat) (f : Nat → Nat) : State :=
  if (size = 4 ∨ size = 8) ∧ pa % size = 0 then
    let old := s.mem.hbm.bytes pa size
    let s := ((s.countLocal 2 pa size).homeWrite { kind := 0, addr := pa } (leBytes (f (leNat old)) size)).countLocal 3 pa size
    { s with mem := { s.mem with lastRead := old } }
  else s

/-- First byte and length of an access. -/
def accessRange : HostAccess → Nat × Nat
  | .read pa n => (pa, n)
  | .write pa bs => (pa, bs.length)
  | .fetchAdd pa n _ => (pa, n)
  | .swap pa n _ => (pa, n)
  | .cas pa n _ _ => (pa, n)
  | .fetchMin pa n _ => (pa, n)
  | .fetchMax pa n _ => (pa, n)
  | .fetchAnd pa n _ => (pa, n)
  | .fetchOr pa n _ => (pa, n)

/-- The new value of an atomic access of `n` bytes. -/
def amoOf (op : AmoOp) (n : Nat) (v cmp : W64) (old : Nat) : Nat :=
  (amoNew op n old (v.toNat % 2 ^ (8 * n)) (cmp.toNat % 2 ^ (8 * n))).getD old

/-- The next piece of an access is done, one single-copy atomic unit (R255). -/
def State.hostPiece (s : State) (w : HostWork) : HostWork × State :=
  let k := min w.n (32 - w.pa % 32)
  let bs := s.mem.hbm.bytes w.pa k
  match w.data with
  | some d => ({ w with pa := w.pa + k, n := w.n - k, data := some (d.drop k) }, s.homeWrite { kind := 0, addr := w.pa } (d.take k))
  | none => ({ w with pa := w.pa + k, n := w.n - k, got := w.got ++ bs }, s)

/-- The pieces of an access in ascending order; after each it may pause until the next device cycle, unless it is hurried (log entry 81), and one
whose channel retrains waits (R431). A read is answered once it is whole. -/
def State.hostGo (hurry : Bool) : Nat → HostWork → State → State
  | 0, _, s => s
  | fuel + 1, w, s =>
    if s.retraining w.pa then { s with mem := { s.mem with hostQ := some w } }
    else
    let (w', s1) := s.hostPiece w
    if w'.n = 0 then
      let s2 : State := { s1 with mem := { s1.mem with hostQ := none } }
      if w'.data.isSome then s2 else { s2 with mem := { s2.mem with lastRead := w'.got } }
    else
      let (pause, s2) := if hurry then (false, s1) else s1.choose
      if pause then { s2 with mem := { s2.mem with hostQ := some w' } } else State.hostGo hurry fuel w' s2

/-- What is left of an access goes on. -/
def State.hostRest (s : State) (hurry : Bool) : State :=
  match s.mem.hostQ with
  | some w => State.hostGo hurry 4 w s
  | none => s

/-- An access served at its home controller, behind the one before it. -/
def State.serveAccess (s : State) (a : HostAccess) : State :=
  let s := s.hostRest true
  match a with
  | .read pa n => State.hostGo false 4 { pa := pa, n := n, data := none, got := [] } (s.countLocal 2 pa n)
  | .write pa bs => State.hostGo false 4 { pa := pa, n := bs.length, data := some bs, got := [] } (s.countLocal 3 pa bs.length)
  | .fetchAdd pa n v => s.homeAmo pa n (amoOf .add n v 0#64)
  | .swap pa n v => s.homeAmo pa n (amoOf .xch n v 0#64)
  | .cas pa n c v => s.homeAmo pa n (amoOf .cas n v c)
  | .fetchMin pa n v => s.homeAmo pa n (amoOf .min n v 0#64)
  | .fetchMax pa n v => s.homeAmo pa n (amoOf .max n v 0#64)
  | .fetchAnd pa n v => s.homeAmo pa n (amoOf .and n v 0#64)
  | .fetchOr pa n v => s.homeAmo pa n (amoOf .or n v 0#64)

/-- An access below 384 GiB whose channel is not retraining, nor that of the access before it. -/
def State.accessible (s : State) (a : HostAccess) : Bool :=
  let (pa, n) := accessRange a
  decide (pa + n ≤ Config.hbmBytes) && !s.retraining pa && !s.retraining (pa + n - 1) && !(s.mem.hostQ.any fun w => s.retraining w.pa)

/-- Atomic operations that PCI Express carries. -/
def hostMay : HostAccess → Bool
  | .fetchMin _ _ _ => false
  | .fetchMax _ _ _ => false
  | .fetchAnd _ _ _ => false
  | .fetchOr _ _ _ => false
  | _ => true

/-- Through BAR 4, 1 to 64 B; above the window the access is an Unsupported Request and changes nothing. -/
def execHostHbmAccess (a : HostAccess) (s : State) : Out :=
  .next (if hostMay a && decide (1 ≤ (accessRange a).2) && decide ((accessRange a).2 ≤ 64) && s.accessible a then s.serveAccess a else s)

/-- A peer's access: pieces of at most 32 B, and AMOs, performed at the home controller. -/
def execPeerAccess (a : HostAccess) (s : State) : Out :=
  .next (if decide ((accessRange a).2 ≤ 32) && s.accessible a then s.serveAccess a else s)

/-- A held write of a task to a peer that no path leads to any more is PROTECTION of its STG, with its address (R371, R427; log entry 92). -/
def State.writeLost (s : State) (w : PortWrite) : State :=
  s.onTile w.tile fun t =>
    if t.bnd.launch = w.launch then t.defer { status := .protection, slot := 0, info := BitVec.ofNat 64 w.va } (some w.pc) else t

/-- No path to a peer for 1 ms: accesses to it are unresolvable from now on, and the writes to it that ports hold are lost. -/
def execRhumbPathTimeout (dev : Nat) (s : State) : Out :=
  let lost (w : PortWrite) : Bool := w.place.kind == 1 && w.place.addr / 2 ^ 39 == dev
  let s1 : State := { s with mem := { s.mem with
    deadPeers := insertNat dev s.mem.deadPeers, wport := s.mem.wport.filter fun w => !lost w } }
  .next ((s.mem.wport.filter lost).foldl State.writeLost s1).unhold

/-! ### PTP (R429) -/

/-- The first lock sets PTIME forward, which ends the slices in progress and leaves the elapsed time alone, or slews it; later corrections
slew. A slice that starts at the new PTIME starts at the next edge. -/
def execPtpLock (ns : Nat) (s : State) : Out :=
  let c := s.clk
  .next (if c.ptpState = 0 ∧ c.ptimeQ < 4 * ns then
      let s : State := { s with clk := { c with
        ptpState := 1, ptimeQ := 4 * ns, ptpSlew := 0, jumpQ := c.jumpQ + (4 * ns - c.ptimeQ), jumpAt := some (4 * ns), edgeQ := 4 * ns - 1 } }
      s.slicedRegions.foldl (fun s r => outState s (execSliceEnd (BitVec.ofNat 16 r) s)) s
    else { s with clk := { c with ptpState := 1, ptpSlew := 4 * (ns : Int) - (c.ptimeQ : Int) } })

def execPtpLockLost (s : State) : Out :=
  .next { s with clk := { s.clk with ptpState := if s.clk.ptpState = 0 then 0 else 2 } }

/-! ### Firmware and identity (R430, R431) -/

/-- The boot ROM accepts an image whose signature verifies and whose version is not below the fused minimum. -/
def execFirmwareVerify (image : FirmwareImage) (s : State) : Out :=
  .next { s with mgmt :=
    if image.signatureOk && decide (s.mgmt.fwMin.toNat ≤ image.version.toNat) then
      { s.mgmt with fwNext := some image.version, fwRefused := false }
    else { s.mgmt with fwRefused := true } }

/-- The verified image takes over; when there is none, or the hand-over fails, which is a free choice, the old firmware stays, and the failure is
logged (R431; log entry 93). -/
def execFirmwareHandover (s : State) : Out :=
  .next (match s.mgmt.fwNext with
    | some v =>
      let (fails, s) := s.choose
      if fails then s.logEvent 431 0 else { s with mgmt := { s.mgmt with fwVersion := v, fwSince := s.elapsed, fwNext := none } }
    | none => s.logEvent 431 0)

/-- Nanoseconds of 24 h. -/
def dayNs : Nat := 86400000000000

/-- The fused minimum rises once the image has run for 24 h without fault; it never falls. Whether a fault of the firmware has come in that time is a
free choice (log entry 93). -/
def execSecurityVersionRaise (version : BitVec 32) (s : State) : Out :=
  .next (if s.mgmt.fwSince + dayNs ≤ s.elapsed ∧ s.mgmt.fwMin.toNat < version.toNat then
      let (faulted, s) := s.choose
      if faulted then s else { s with mgmt := { s.mgmt with fwMin := version } }
    else s)

/-- What a report holds. -/
def State.report (s : State) (nonce : BitVec 256) (leaf : Nat) : Report :=
  { nonce := nonce, ptime := s.ptime, leaf := leaf, devid := s.mgmt.devid, rom := Config.measurement 0 0#32
    firmware := Config.measurement 1 s.mgmt.fwVersion, loader := Config.measurement 2 0#32 }

/-- A report is signed with the next leaf, at most 16 times in a PTP day; else the last one is returned, marked STALE. -/
def execAttestationRequest (nonce : BitVec 256) (s : State) : Out :=
  let day := s.ptime / dayNs
  let m := if day = s.mgmt.reportDay then s.mgmt else { s.mgmt with reportDay := day, reports := 0 }
  .next { s with mgmt :=
    if m.reports < 16 ∧ m.leaf < 2 ^ 20 then
      { m with leaf := m.leaf + 1, reports := m.reports + 1, lastReport := some (s.report nonce m.leaf), reportStale := false }
    else { m with reportStale := true } }

/-! ### Checkpoint (R428) and reset (R73) -/

/-- A launch that a checkpoint waits for and that it neither stops nor saves: its tasks have ended, and what they have begun, a copy or a completion
record, is still to be done (R417). -/
def State.draining (s : State) (l : Launch) : Bool :=
  l.phase == .draining || (l.phase == .resident && !((s.launchTasks l.id).any Task.receives))

/-- A launch that a checkpoint has still to stop or save: one that runs, is stopping, in a debug stop, or being saved or restored. -/
def State.unsaved (s : State) (l : Launch) : Bool :=
  (l.phase == .resident && (s.launchTasks l.id).any Task.receives)
  || l.phase == .stopping || l.phase == .debug || l.phase == .saving || l.phase == .restoring

/-- It is the checkpoint that stops or saves the launch, and no pre-emption or slice end. -/
def Launch.forCheckpoint (l : Launch) : Bool :=
  l.ckpt || l.phase == .resident || l.phase == .debug || ((l.phase == .stopping || l.phase == .saving) && l.why == .migrate)

/-- Launches that run are stopped, and those stopped already saved, as a pre-emption does it; each is marked for its resumption. -/
def State.stopForCheckpoint (s : State) : State :=
  (s.sched.launches.filter s.unsaved).foldl (fun s l0 => match s.launch? l0.id with
    | some l => (s.press l).modLaunch l.id fun l => { l with ckpt := l0.forCheckpoint }
    | none => s) s

/-- The image is written once every launch is saved, and the launches go on where they were (log entry 50). -/
def State.writeCheckpoint (s : State) : State :=
  let areas := (s.sched.launches.filter fun l => !l.contexts.isEmpty).map fun l =>
    ({ launch := l.id, contexts := l.contexts, rows := l.rows } : SaveArea)
  let s1 : State := { s with mgmt := { s.mgmt with ckpt := some { mem := s.mem, areas := areas }, saving := false } }
  let back (l : Launch) : Bool := l.ckpt && (s.gangOf l).all fun m => m.phase == .preempted && s.tilesFree m && s.tilesGood m
  let s2 := (s.sched.launches.filter back).foldl (fun s l => s.beginRestore l) s1
  ({ s2 with sched := { s2.sched with launches := s2.sched.launches.map fun (l : Launch) => { l with ckpt := false } } } : State).dropDeficits

/-- A checkpoint under way goes on: what has come to run or to stand stopped is saved, what drains retires, and then the image is written (R428). -/
def State.checkpointStep (s : State) : State :=
  if !s.mgmt.saving then s
  else if s.sched.launches.any fun l => s.unsaved l || s.draining l then s.stopForCheckpoint
  else s.writeCheckpoint

/-- A checkpoint begins, or, where one is under way, goes on. -/
def execCheckpoint (s : State) : Out := .next ({ s with mgmt := { s.mgmt with saving := true } } : State).checkpointStep

/-- The image is written back before any placement: HBM with its slot codes and its uncorrectable rows, the towers, and the save areas. -/
def execCheckpointRestore (s : State) : Out :=
  .next (match s.mgmt.ckpt with
    | some c =>
      if s.sched.everPlaced then s
      else { s with
        mem := { s.mem with
          hbm := c.mem.hbm, towers := c.mem.towers, full := c.mem.full, slots := c.mem.slots, regrow := c.mem.regrow, locked := c.mem.locked
          hbmBad := c.mem.hbmBad, towerBad := c.mem.towerBad }
        mgmt := { s.mgmt with areas := c.areas } }
    | none => s)

/-- The state of State.reset, but for what lies outside the device or is kept by fuses, counters and the die. -/
def execDeviceReset (s : State) : Out :=
  let r := State.reset
  .next { r with
    clk := { r.clk with inputs := s.clk.inputs, free := s.clk.free }
    mem := { r.mem with hbm := s.mem.hbm, hbmBad := s.mem.hbmBad, slots := s.mem.slots, regrow := s.mem.regrow, locked := s.mem.locked, host := s.mem.host, peer := s.mem.peer }
    plc := { r.plc with chart := s.plc.chart.map fun p => (p.1, { p.2 with tstate := 0 }) }
    mgmt := { r.mgmt with fwMin := s.mgmt.fwMin, fwVersion := s.mgmt.fwVersion, leaf := s.mgmt.leaf, ckpt := s.mgmt.ckpt
                          reports := s.mgmt.reports, reportDay := s.mgmt.reportDay, lastReport := s.mgmt.lastReport, areas := s.mgmt.areas } }

end Sys2Proof.Machine
end

