-- ==== Sys2Proof/Machine/Issue.lean ====
section
/-! DEFINITION. Issuing a bundle (R91, R101, R104 to R112, R371 to R373, R385, R415, R437): what stands at a bundle boundary, the
decoding of the bundle, its slots' effects, and the end of its schedule cycle. -/

namespace Sys2Proof.Machine

/-- The meaning of a syllable in the bundle of the current task. -/
def syllable (i : Instr) (s : State) : Out :=
  match i with
  | .nop _ => execNop s
  | .add o => execAdd o s
  | .sub o => execSub o s
  | .mul o => execMul o s
  | .mulh o => execMulh o s
  | .mulhu o => execMulhu o s
  | .div o => execDiv o s
  | .divu o => execDivu o s
  | .rem o => execRem o s
  | .remu o => execRemu o s
  | .and o => execAnd o s
  | .or o => execOr o s
  | .xor o => execXor o s
  | .andn o => execAndn o s
  | .shl o => execShl o s
  | .shr o => execShr o s
  | .shra o => execShra o s
  | .rot o => execRot o s
  | .min o => execMin o s
  | .max o => execMax o s
  | .minu o => execMinu o s
  | .maxu o => execMaxu o s
  | .clz o => execClz o s
  | .ctz o => execCtz o s
  | .popc o => execPopc o s
  | .sel o => execSel o s
  | .addi o => execAddi o s
  | .andi o => execAndi o s
  | .ori o => execOri o s
  | .xori o => execXori o s
  | .shli o => execShli o s
  | .shri o => execShri o s
  | .shrai o => execShrai o s
  | .lih o => execLih o s
  | .cmpeqi o => execCmpeqi o s
  | .cmplti o => execCmplti o s
  | .cmpltui o => execCmpltui o s
  | .cmpeq o => execCmpeq o s
  | .cmpne o => execCmpne o s
  | .cmplt o => execCmplt o s
  | .cmpltu o => execCmpltu o s
  | .cmple o => execCmple o s
  | .cmpleu o => execCmpleu o s
  | .cand o => execCand o s
  | .cor o => execCor o s
  | .cxor o => execCxor o s
  | .lds o => execLds o s
  | .sts o => execSts o s
  | .ldg o => execLdg o s
  | .stg o => execStg o s
  | .amoadd o => execAmoadd o s
  | .amomin o => execAmomin o s
  | .amomax o => execAmomax o s
  | .amoand o => execAmoand o s
  | .amoor o => execAmoor o s
  | .amoxch o => execAmoxch o s
  | .amocas o => execAmocas o s
  | .fence scope _ => execFence scope s
  | .br o => execBr o s
  | .jmp o => execJmp o s
  | .call o => execCall o s
  | .ret o => execRet o s
  | .loop d imm _ => execLoop d imm s
  | .endTask _ => execEndTask s
  | .rep m n _ => execRep m n s
  | .mark e _ => execMark e s
  | .trap imm _ => execTrap imm s
  | .tret _ => execTret s
  | .tfence _ => execTfence s
  | .launch o => execLaunch o s
  | .sfmt o => execSfmt o s
  | .mfc r x c _ => execMfc r x c s
  | .mtc r x c _ => execMtc r x c s
  | .setvl o => execSetvl o s
  | .setcm r a imm _ => execSetcm r a imm s
  | .lovt o => execLovt o s
  | .tlbinv o => execTlbinv o s
  | .tlbinvAsid b n q _ => execTlbinvAsid b n q s
  | .tlbinvAll n q _ => execTlbinvAll n q s
  | .nopA => execNopA s
  | .vadd o => execVadd o s
  | .vsub o => execVsub o s
  | .vmul o => execVmul o s
  | .vfma o => execVfma o s
  | .vfms o => execVfms o s
  | .vfnma o => execVfnma o s
  | .vmin o => execVmin o s
  | .vmax o => execVmax o s
  | .vabs o => execVabs o s
  | .vneg o => execVneg o s
  | .vdiv o => execVdiv o s
  | .vsqrt o p => execVsqrt o p s
  | .vrsq o p => execVrsq o p s
  | .vrcp o => execVrcp o s
  | .vexp o => execVexp o s
  | .vlog o => execVlog o s
  | .vsin o => execVsin o s
  | .vcos o => execVcos o s
  | .vtanh o => execVtanh o s
  | .vrint o x => execVrint o x s
  | .viadd o => execViadd o s
  | .visub o => execVisub o s
  | .vimul o => execVimul o s
  | .vimulh o => execVimulh o s
  | .vimin o => execVimin o s
  | .vimax o => execVimax o s
  | .viminu o => execViminu o s
  | .vimaxu o => execVimaxu o s
  | .vand o => execVand o s
  | .vor o => execVor o s
  | .vxor o => execVxor o s
  | .vshl o => execVshl o s
  | .vshr o => execVshr o s
  | .vshra o => execVshra o s
  | .viabs o => execViabs o s
  | .vcmp o => execVcmp o s
  | .vicmp o => execVicmp o s
  | .kand o => execKand o s
  | .kor o => execKor o s
  | .kxor o => execKxor o s
  | .knot d a cl => execKnot d a cl s
  | .kfirst d a cl => execKfirst d a cl s
  | .kcnt d a cl => execKcnt d a cl s
  | .vsel o => execVsel o s
  | .vcoal o p => execVcoal o p s
  | .vcoalq o i => execVcoalq o i s
  | .vrlset o => execVrlset o s
  | .vsplat d b cl => execVsplat d b cl s
  | .vruns d a cl => execVruns d a cl s
  | .vrunsK d a cl => execVrunsK d a cl s
  | .vlen d a cl => execVlen d a cl s
  | .vlenK d a cl => execVlenK d a cl s
  | .vtrim o => execVtrim o s
  | .vtrimDrop o => execVtrimDrop o s
  | .vcat o => execVcat o s
  | .vrsum o => execVrsum o s
  | .vrmax o => execVrmax o s
  | .vrmin o => execVrmin o s
  | .vrisum o => execVrisum o s
  | .vrimax o => execVrimax o s
  | .vrimin o => execVrimin o s
  | .vdot o b => execVdot o b s
  | .nopB => execNopB s
  | .vld o => execVld o s
  | .vst o => execVst o s
  | .vlds o => execVlds o s
  | .vsts o => execVsts o s
  | .vldx o => execVldx o s
  | .vstx o => execVstx o s
  | .vldrl d k cl fe y => execVldrl d k cl fe y s
  | .vstrl d cl fe y => execVstrl d cl fe y s
  | .kld o => execKld o s
  | .kst o => execKst o s
  | .vcur a b cl y => execVcur a b cl y s
  | .vrd o => execVrd o s
  | .vwr o => execVwr o s
  | .vmov o => execVmov o s
  | .vmvs d a k cl => execVmvs d a k cl s
  | .vmvx d a v cl => execVmvx d a v cl s
  | .vxc o a => execVxc o a s
  | .vslide o a => execVslide o a s
  | .vrev o => execVrev o s
  | .vcvt o => execVcvt o s
  | .vclass o => execVclass o s
  | .twr o => execTwr o s
  | .trc o => execTrc o s
  | .trr o => execTrr o s
  | .tclr cl t => execTclr cl t s
  | .vshift o => execVshift o s
  | .nopE => execNopE s
  | .eset e a i => execEset e a i s
  | .eget e a i => execEget e a i s
  | .ewait e n => execEwait e n s
  | .wopen h => execWopen h s
  | .wopenBind h => execWopenBind h s
  | .wopenKeep h => execWopenKeep h s
  | .wadv h a => execWadv h a s
  | .wwait h a => execWwait h a s
  | .wwaitDone h => execWwaitDone h s
  | .wclose h => execWclose h s
  | .rstat h a => execRstat h a s
  | .wflush h => execWflush h s
  | .bcfill => execBcfill s
  | .bcfillRing h => execBcfillRing h s
  | .bcwait a => execBcwait a s
  | .bcwaitAll => execBcwaitAll s
  | .mma bank => execMma bank s
  | .mmv bank => execMmv bank s
  | .mldb => execMldb s
  | .mdrain bank => execMdrain bank s
  | .mswap => execMswap s
  | .mclr bank q => execMclr bank q s
  | .mflags bank a c => execMflags bank a c s
  | .xsend h a b => execXsend h a b s
  | .xwr a b m l => execXwr a b m l s
  | .xrd a b m l => execXrd a b m l s
  | .xbar => execXbar s
  | .xbarRow => execXbarRow s
  | .xbarCol => execXbarCol s
  | .dcopy => execDcopy s
  | .dcopyMt => execDcopyMt s
  | .dcopyTm => execDcopyTm s
  | .dpub a b n => execDpub a b n s
  | .dwait => execDwait s
  | .fload => execFload s
  | .fbind => execFbind s
  | .fstat a => execFstat a s
  | .nbcmd a b => execNbcmd a b s
  | .nbpoll a b => execNbpoll a b s
  | .nbfence => execNbfence s
  | .hsig a b v => execHsig a b v s
  | .trace a b v => execTrace a b v s
  | .snap c => execSnap c s
  | .refdefer a => execRefdefer a s
  | .refnow a => execRefnow a s
  | .refnowAll => execRefnowAll s
  | _ => .next s

/-! ### The bundle to issue -/

/-- A 5-bit field of a syllable stepped by j (R109). -/
def stepField (on : Bool) (lo j : Nat) (w : W32) : W32 :=
  if on then
    let f := w.toNat / 2 ^ lo % 32
    BitVec.ofNat 32 (w.toNat - f * 2 ^ lo + (f + j) % 32 * 2 ^ lo)
  else w

/-- The bundle as issue j of a repetition holds it. -/
def repBundle (b : BitVec 128) (r : Rep) : BitVec 128 :=
  let m := r.m
  let a := stepField (m.getLsbD 2) 10 r.j (stepField (m.getLsbD 1) 15 r.j (stepField (m.getLsbD 0) 20 r.j (syllableOf b .a)))
  let x := stepField (m.getLsbD 5) 10 r.j (stepField (m.getLsbD 4) 15 r.j (stepField (m.getLsbD 3) 20 r.j (syllableOf b .b)))
  syllableOf b .e ++ x ++ a ++ syllableOf b .c

/-- The bundle at the program counter, its fields stepped in a repetition; none outside the image. -/
def Task.nextBundle (t : Task) : Option (BitVec 128) :=
  if t.seq.pc < t.bnd.nbund then
    (t.bnd.store[t.seq.pc]?).map fun b => match t.seq.rep with
      | some r => if r.fresh then b else repBundle b r
      | none => b
  else none

/-- Control transfers, by the opcode of slot C: BR, JMP, CALL, RET, LOOP, END, REP, TRAP, TRET (R108). -/
def isTransfer (w : W32) : Bool := [0x50, 0x51, 0x52, 0x53, 0x54, 0x55, 0x56, 0x58, 0x59].contains (w.extractLsb' 25 7).toNat

def isTrap : Instr → Bool
  | .trap _ _ => true
  | _ => false

/-- Slot-E instructions that read scalar memory, a tower or a ring's state at issue, before the other slots' writes of the bundle (R101). -/
def readsAtIssue : Instr → Bool
  | .nbcmd _ _ => true
  | .xwr _ _ _ _ => true
  | .rstat _ _ => true
  | _ => false

/-! ### Faults of the bundle (R112), and its effects -/

/-- The bundle has not issued: its task is held, or waits until slot C's access can be judged or performed (R176, R369, R371). -/
def Seq.notIssued (q : Seq) : Bool := q.state == .held || q.blocked

/-- The outcome of a slot that faults precisely, or holds its bundle back, when it is executed on the state the bundle reads. -/
def State.trial (s : State) (i : Instr) : Option State :=
  if isTrap i && !s.cur.seq.hnd then none
  else
    let s' := outState s (syllable i s)
    if s'.cur.seq.lastFault.isSome || s'.cur.seq.notIssued then some s' else none

/-- TRAPINFO of a run overflow that a slot has met alone. -/
def State.overflowOf (s : State) : Option W64 :=
  s.cur.seq.lastFault.bind fun f => if f.status = .runOverflow then some f.info else none

/-- The first slot that faults in the order C, A, B, E; overflows of A and B together are one (R198). A fault of slot
E comes before an overflow that only the combined landing of A and B has, which `State.effects` meets (log entry 22). -/
def State.firstFault (s : State) (c a b e : Instr) : Option State :=
  match s.trial c, s.trial a, s.trial b, s.trial e with
  | some t, _, _, _ => some t
  | none, some t, u, _ =>
    (match t.overflowOf, u.bind State.overflowOf with
     | some i, some j => some (s.raise 4 .runOverflow (i ||| j) 3)
     | _, _ => some t)
  | none, none, some t, _ => some t
  | none, none, none, some t => some t
  | none, none, none, none => none

/-- The order in which the slots' effects are formed: operands are read before any write of the bundle. -/
def slotOrder (c a b e : Instr) : List Instr :=
  if readsAtIssue e then [e, c, a, b] else [c, a, b, e]

/-- Slot B's waits for rows and granules that already stand as it wants them end in the issue cycle, before slot E changes them (R101, R106). -/
def State.endRows (s : State) : State :=
  let ready (w : Wait) : Bool := match w with
    | .load l => s.loadReady l
    | .ringWrite h ix parts => s.ringWriteReady h ix parts
    | _ => false
  (s.cur.seq.waits.filter ready).foldl State.endWait s

/-- The effects in turn; one that meets an overflow of a combined landing leaves none to the slots after it (R105, R112). -/
def State.effects (s : State) (l : List Instr) : State :=
  l.foldl (fun s i => if s.cur.seq.lastFault.isSome then s else (outState s (syllable i s)).endRows) s

/-- Events that an issue counts: schedule cycles, slots A and E in use (R411). -/
def State.countIssue (s : State) (a e : Instr) : State :=
  let t := s.cur.bnd.tile
  let s := s.countTile t 2 1
  let s := if a = .nopA then s else s.countTile t 4 1
  if e = .nopE then s else s.countTile t 5 1

/-- The stalling slots whose condition already holds end their waits in the issue cycle; with none left the cycle ends (R106). A TRAP is
taken after that (R382), and an overflow that its bundle's waiting slot meets without waiting is taken inside its handler (log entry 83). -/
def State.finishBundle (s : State) (trap : Option Instr) : State :=
  match trap with
  | some c =>
    let s' := s.endWaits fun w => !w.isGlobal
    if s'.cur.seq.lastFault.isSome then s' else outState s' (syllable c s')
  | none => if s.cur.seq.waits = [] then s.advance else s.retryIf fun w => !w.isGlobal

/-- The four slots of a bundle take effect together, or the first fault of them is taken (R101, R104, R105, R112; log entry
22). -/
def State.issueSlots (s : State) (c a b e : Instr) : State :=
  match s.firstFault c a b e with
  | some t => if t.cur.seq.notIssued then t else ((s.endLock.firstFault c a b e).getD t).clearSeen
  | none =>
    let s1 := s.endLock.noteIssue.countIssue a e
    let trap := isTrap c
    let s2 := s1.effects (slotOrder (if trap then .nop false else c) a b e)
    match s2.cur.seq.lastFault with
    | some f => s.takeFault s.cur.seq.pc f
    | none =>
      let s3 := s2.modSeq fun q => { q with lastPc := s.cur.seq.pc }
      s3.finishBundle (if trap then some c else none)

/-- The slot of an illegal encoding: of a bundle that does not decode the first in the order C, A, B, E, the register numbers of MFC and MTC
among slot C's (R112, R186). -/
def State.illegalSlot (s : State) (w : BitVec 128) (sl : Slot) : Nat :=
  match decodeSlot .c (syllableOf w .c) with
  | .ok i => if s.ctlIllegal i then 0 else sl.num
  | .error _ => sl.num

/-- The next bundle of the current task issues (R91, R108, R112). -/
def State.issueBundle (s : State) : State :=
  let s := s.modSeq fun q => { q with lastFault := none, blocked := false }
  match s.cur.nextBundle with
  | none => (s.takeFault s.cur.seq.lastPc { status := .illegal, slot := 4, info := BitVec.ofNat 64 s.cur.seq.pc }).clearSeen
  | some w =>
    let s := s.modSeq fun q => { q with flush := w.getLsbD 0 }
    if isTransfer (syllableOf w .c) && s.cur.seq.noTransfer then (s.raise 4 .delaySlot 0#64).clearSeen
    else match decodeBundle w with
      | .error (sl, _) => (s.illegal (s.illegalSlot w sl)).clearSeen
      | .ok (c, a, b, e) => s.issueSlots c a b e

/-! ### The boundary before a bundle (R373, R437) -/

/-- The pending REFRESH_FORCED of the lowest tower, taken at the boundary after a stalled bundle. -/
def State.takeForced (s : State) : State :=
  match s.cur.seq.pendingForced with
  | [] => s
  | (_, info) :: rest =>
    let s := s.endLock.modSeq fun q => { q with pendingForced := rest }
    let s := if s.cur.seq.waits = [] then s else s.stallBoundary
    s.takeFault s.cur.seq.pc { status := .refreshAbuse, cause := 4, slot := 6, info := info }

/-- Breakpoints and step counts come before the bundle; a task that they have not stopped issues it (R415, R416). -/
def State.issueOrStop (s : State) : State :=
  let tile := s.cur.bnd.tile
  (s.breakpoints.onTask tile State.stepExpiry).onTask tile fun s =>
    if s.cur.issues then s.issueBundle else s

/-- A trap entered before a bundle: TRAP (CAUSE 1) alone is taken after its own bundle (R372, R377, R382). -/
def State.entered (s t : State) : Bool :=
  !s.cur.seq.hnd && t.cur.seq.hnd && t.cur.seq.lastFault.any fun f => f.cause != 1

/-- A trap entered before a bundle issues the handler's first bundle in that bundle's place, in the same schedule cycle (R379). -/
def State.enterAndIssue (s : State) (act : State → State) : State :=
  let t := act s
  if s.entered t then t.issueOrStop else t

/-- A device cycle of the current task: what stands at its boundary, the end of its stall, or its next bundle. A task that is not
bound has no boundary. -/
def State.taskCycle (s : State) : State :=
  let q := s.cur.seq
  if q.takesPending then s.takePending
  else if q.state != .running then s
  else if decide (s.clk.tick < q.freeAt) then s
  else if q.pendingForced != [] && !q.hnd then s.enterAndIssue State.takeForced
  else if q.waits != [] then s.retry
  else if s.cur.eng.nbLate s.clk.tick then s.nbLateHold
  else s.enterAndIssue State.issueOrStop

def execBundleIssue (s : State) : Out := .next s.taskCycle

/-- A fault that an engine has met is taken at the next boundary of the task that started the operation, which may have ended: in its turn
where that is still to come in this cycle, so that of faults of one cycle the lowest task's is first (R28). -/
def execEngineFaultAfterIssue (tile : Nat) (s : State) : Out :=
  .next (if s.clk.turn.contains tile then s else s.onTask tile fun s => if s.cur.seq.takesPending then s.takePending else s)

/-! ### Requests that waited for a locked page (R251) -/

/-- Whether a column's clock ticks in the device cycle that begins: `clk` sixteenths of nominal (R80, R432). -/
def Column.ticks (c : Column) : Bool := decide (16 ≤ c.phase + c.clk)

def State.tileTicks (s : State) (tile : Nat) : Bool := (s.column (s.remap tile).px).ticks

/-- A wait whose end is an access of the task to memory. -/
def Wait.isAccess : Wait → Bool
  | .nbPoll _ _ _ _ => true
  | w => w.isGlobal

/-- The task that waited for a page: its stall goes on; one whose bundle waits to be issued has its turn of this cycle now. -/
def State.serveTask (s : State) (tile : Nat) : State :=
  s.onTask tile fun s =>
    if !s.cur.seq.blocked then s.retryIf Wait.isAccess
    else if s.clk.turn.contains tile || (s.clk.turn.isEmpty && s.tileTicks tile) then
      s.taskCycle.onTask tile fun s => s.modSeq fun q => { q with freeAt := max q.freeAt (s.clk.tick + 1) }
    else s

/-- A request of the scheduler for a launch: a dependence, its image, its stores or its completion, or the record that is being admitted. -/
def State.serveLaunch (s : State) (id : Nat) : State :=
  outState s (match s.launch? id with
    | none => execSchedulingPass s
    | some l => match l.phase with
      | .waiting => execDependenceChangeObserved id s
      | .chosen => execLaunchRelease id s
      | .restoring => execRestore id s
      | .saving => (l.tiles.filter fun k => s.plc.copies.any fun c => c.tile == k && c.tower.isNone).foldl
          (fun o k => execMigrationSwitch k (outState s o)) (.next s)
      | .resident => execRetire id s
      | .draining => execRetire id s
      | _ => .next s)

/-- The request of a unit that waited for a page is served. -/
def State.serveQueued (s : State) (agent unit : Nat) : State :=
  if unit = 0 then s.serveTask agent
  else if unit ≤ 16 then s.streamStep agent (BitVec.ofNat 4 (unit - 1))
  else if unit = 17 then s.onTask agent State.copyStep
  else if unit = 18 then s.bcStep (tileX agent)
  else if unit = 19 then s.onTask agent fun s => s.fabricRequestStep false
  else if unit = 20 then s.drainOne agent
  else if unit = 21 then s.serveLaunch agent
  else if unit = 22 then s.nbStep agent
  else s.onTask agent State.nbPortStep

/-- The page, laid out, is unlocked, and the requests that waited for it are served in their order of arrival. -/
def execRelayoutDone (page : Nat) (s : State) : Out :=
  .next (if s.outgrown page then s
    else
      let mine := s.mem.lockQ.filter fun q => q.1 == page
      let s : State := { s with mem := { s.mem with
        locked := eraseNat page s.mem.locked, lockQ := s.mem.lockQ.filter fun q => q.1 != page } }
      mine.foldl (fun s q => s.serveQueued q.2.1 q.2.2) s)

end Sys2Proof.Machine
end

