-- ==== Sys2Proof/Machine/Clock.lean ====
section
/-! DEFINITION. The edge of a device cycle (R4, R39, R54, R58, R429): time and counters move on, what is due by time happens, then
either the events that the inputs name or every engine's own progress, and the tasks whose columns tick take their turns. -/

namespace Sys2Proof.Machine

/-- An event's effect, when it is no instruction of the current task. -/
def State.happen (s : State) (f : State → Out) : State := outState s (f s)

def State.forAll {α : Type} (s : State) (l : List α) (f : α → State → Out) : State := l.foldl (fun s x => s.happen (f x)) s

/-! ### Time -/

/-- The tick, and PTIME at 5 quarter-nanoseconds a cycle, slewed by 200 ppm toward PTP time (R429). -/
def Clock.advance (c : Clock) : Clock :=
  let slew : Int := if (c.tick + 1) % 1000 ≠ 0 then 0 else if 0 < c.ptpSlew then 1 else if c.ptpSlew < 0 then -1 else 0
  let q := ((c.ptimeQ : Int) + 5 + slew).toNat
  { c with tick := c.tick + 1, ptimeQ := q, ptpSlew := c.ptpSlew - slew, step := q - c.edgeQ, edgeQ := q }

/-- A resident task counts the device cycle, once its first bundle has issued (R98). -/
def Task.countCycle (ticks : Bool) (t : Task) : Task :=
  let q := t.seq
  if ticks && (q.state == .running || q.state == .held || q.state == .nbHeld) && (q.scyc != 0 || q.waits != [] || q.blocked || q.dcyc != 0) then
    { t with seq := { q with dcyc := q.dcyc + 1 } }
  else t

def Wait.isVrd (w : Wait) : Bool := w.isRingRead

/-- Events of this cycle at a counter of a code, by its block (R411, R426). -/
def State.edgeCount (s : State) (off code : Nat) : Nat :=
  let cc := ccAt s.clk.tick - ccAt (s.clk.tick - 1)
  if 0x200000 ≤ off then
    let tile := (off - 0x200000) / 0x10000
    let stalled (p : Wait → Bool) (blocked : Bool) : Bool := match s.taskOn tile with
      | some t => t.seq.state == .running && (t.seq.waits.any p || (blocked && t.seq.blocked))
      | none => false
    if !s.tileTicks tile then 0
    else match code with
      | 1 => 1
      | 3 => if stalled (fun _ => true) true then 1 else 0
      | 6 => if stalled Wait.isVrd false then 1 else 0
      | _ => 0
  else if 0x110000 ≤ off then
    (if code = 1 || (code = 3 && s.nodeWaits ((off - 0x110000) / 0x40)) then 1 else 0)
  else if 0x100000 ≤ off then
    match code with
    | 1 => cc
    | 7 => if s.mem.locked.any fun f => channelOf (65536 * f) == (off - 0x100000) / 0x40 then cc else 0
    | _ => 0
  else 0

def State.countEdge (s : State) : State :=
  s.obs.counters.foldl (fun s p =>
    let n := s.edgeCount p.1 (counterEvent p.2)
    if n = 0 then s else s.bump p.1 n) s

/-- Whether a launch's watchdog counts: it is resident and inside its slice, and no task of it is held (R54). -/
def State.watched (s : State) (l : Launch) : Bool :=
  l.onGrid && l.status == .ok && (l.phase == .resident || l.phase == .draining) && s.inSlice l.eff
  && !((s.launchTasks l.id).any fun t => t.seq.state == .held || t.seq.state == .nbHeld)

/-- A watched launch counts the quarter-nanoseconds of elapsed time that the edge adds; each whole microsecond takes one from its interval, and one
at zero expires (R54, R429; log entry 16). -/
def State.watchdogs (s : State) (delta : Nat) : State :=
  s.sched.launches.foldl (fun s l =>
    if !s.watched l then s
    else if l.wdogPart + delta < 4000 then s.modLaunch l.id fun l => { l with wdogPart := l.wdogPart + delta }
    else (s.modLaunch l.id fun l => { l with wdogLeft := l.wdogLeft - 1, wdogPart := l.wdogPart + delta - 4000 }).happen (execWatchdogExpiry l.id)) s

/-- Save and restore deadlines do not count while a channel retrains, for at most 50 µs of each retraining; a restore's counts from its second step
(R393, R395). -/
def State.extendDeadlines (s : State) : State :=
  if s.env.retrain.any fun c => decide (s.clk.tick ≤ tget 0 s.env.retrainAt c + 50 * Config.dcPerUs) then
    s.eachLaunch fun s l =>
      if l.phase == .saving || (l.phase == .restoring && l.step2) then s.modLaunch l.id fun l => { l with saveAt := l.saveAt + 1 } else s
  else s

/-! ### What is due by time -/

/-- Refresh: passes that end, deferrals that expire, and passes that start from the ages at which they may (R67, R253). -/
def State.refreshDue (s : State) : State :=
  let s := s.forAll (s.env.refresh.map (·.1)) fun p s => .next ((s.passEnd p))
  let s := s.forAll (s.env.refresh.map (·.1)) execDeferralExpiry
  if s.elapsed < 2750000000 then s
  else (List.range (9 * 34 * 24)).foldl (fun s p => (s.forcedPass p).scheduledPass p) s

/-- Slice ends; slice starts in their first cycle; and the lead before them (R51, R52). Both boundaries start a pass (R39). -/
def State.slicesDue (s : State) : State :=
  let regions := s.slicedRegions.map (BitVec.ofNat 16)
  let at_ (s : State) (p : Effective → Bool) (r : BitVec 16) : Bool :=
    s.sched.launches.any fun l => l.region == r.toNat && l.eff.sliced && p l.eff
  let s := s.forAll regions execSliceEnd
  let s := if regions.any (at_ s s.sliceEnds) then s.wantPass else s
  let s := s.forAll (regions.filter (at_ s s.sliceStarts)) execSliceStart
  s.forAll regions execSliceLead

/-- The oldest TLBINV completes if its 2 µs are up; they stand in order of issue (R400). -/
def State.tlbInvDue (s : State) (_ : TlbInv) : State :=
  if s.mem.tlbInvs.head?.any fun v => decide (v.issued + 2 * Config.dcPerUs ≤ s.clk.tick) then s.completeTlbInv else s

def State.ids (s : State) : List Nat := s.sched.launches.map (·.id)

/-- Everything that has a time: filters at work, deadlines, timeouts, aging, TLBINV, rate changes, and the scheduling pass that an event or 20 µs calls
for (R39). -/
def State.due (s : State) (delta : Nat) : State :=
  let s := (List.range 12).foldl State.filterStep s
  let s := (s.watchdogs delta).extendDeadlines.refreshDue.slicesDue
  let s := s.forAll s.ids execStopDeadline
  let s := s.forAll s.ids execSaveDeadline
  let s := s.forAll s.ids execRestoreDeadline
  let s := s.forAll s.ids execExclusionTimeout
  let s := ((s.forAll s.ids execAgingExpiry).startRateChanges).hostRest false
  let s := s.mem.tlbInvs.foldl State.tlbInvDue s
  if s.sched.passDue || decide (s.sched.lastPass + 20 * Config.dcPerUs ≤ s.clk.tick) then s.happen execPassTimer else s

/-! ### Every engine's own progress -/

/-- A tile's engines, ports and queues. -/
def State.tileProgress (s : State) (tile : Nat) : State :=
  let s := s.onTask tile fun s => State.runMu 1025 (State.runMu 1025 s).beginMu
  let s := (List.range 16).foldl (fun s h =>
    (s.streamStep tile (BitVec.ofNat 4 h)).happen (execFabricStreamEnd tile (BitVec.ofNat 4 h))) s
  let s := s.onTask tile State.xpInject
  let s := (List.range 8).foldl (fun s c => s.happen (execShiftPartDelivery tile (BitVec.ofNat 3 c))) s
  let s := ((s.happen (execDcopyChunk tile)).happen (execFabricLoadRequest tile)).happen (execFabricBindRequest tile)
  let s := (s.happen (execNbPacketEnqueue tile)).happen (execPublicationApply tile)
  let s := s.happen (execSignalDelivery tile)
  (s.drainOne tile).forAll allUnits (execEngineStopAck tile)

/-- Packets in order; one that lands makes room for the next at its place. -/
def State.landAll : Nat → Nat → State → State
  | 0, _, s => s
  | n + 1, k, s =>
    let s' := s.landPacket k
    State.landAll n (if s'.net.packets.length < s.net.packets.length then k else k + 1) s'

/-- Barriers of a launch that can complete. -/
def State.barrierProgress (s : State) (l : Launch) : State :=
  let s := s.happen (execBarrierRelease l.id 0#2 0)
  let s := s.forAll (List.range l.h) fun y => execBarrierRelease l.id 1#2 y
  s.forAll (List.range l.w) fun x => execBarrierRelease l.id 2#2 x

/-- The stages of launches. -/
def State.launchProgress (s : State) : State :=
  let s := s.eachLaunch State.barrierProgress
  let s := s.forAll s.ids execStopComplete
  let s := s.forAll s.ids execSaveComplete
  let s := s.forAll s.ids execLaunchRelease
  let s := s.forAll s.ids execRestore
  let s := s.forAll s.ids execRetire
  s.forAll (s.sched.clearing.map (·.1)) execLeaseClearDone

/-- Tiles of hot columns whose tasks R80 migrates, with the lowest spare that may take each. -/
def State.hotTasks (s : State) : List (Nat × Nat) :=
  ((List.range 34).filter fun px => decide (1000 ≤ (s.column px).temp)).flatMap fun px =>
    (s.columnTasks px).filterMap fun t => if s.movable t then (s.coolSpare t).map fun q => (t.bnd.tile, q) else none

/-- A bound decoding context whose window is open and waits for the decode cell (R271). -/
def State.cellWaits (s : State) (x : FabCtx) : Bool :=
  x.state == 2 && x.decodes && (s.taskOn x.tile).any fun t => t.bnd.launch == x.launch
    && t.rings.toList.any fun r => r.stream.any fun st => !st.opened && st.ctxs.any fun c => s.fabCtx c == x

/-- A checkpoint goes on, copies end, hot tasks are moved, pages are laid out again or, that done, unlocked, and stopped contexts give way to those that stream. -/
def State.upkeepProgress (s : State) : State :=
  let s := s.checkpointStep
  let s := s.forAll s.plc.copies fun c => match c.tower with
    | some i => execCopySwitch c.tile i
    | none => execMigrationSwitch c.tile
  let s := s.forAll s.hotTasks fun p => execMigrationStart p.1 p.2
  let outgrown := s.mem.locked.filter s.outgrown
  let s := s.forAll (s.mem.locked.filter fun p => !s.outgrown p) execRelayoutDone
  let s := s.forAll outgrown execRelayout
  let needs (x y : FabCtx) : Bool := y.state == 3 || (x.decodes && s.cellWaits y)
  let stuck := (s.net.fab.filter fun p => p.2.state == 5 && s.net.fab.any fun q => q.1 / 4 == p.1 / 4 && needs p.2 q.2).map (·.1)
  s.forAll stuck execFabricContextSpill

/-- Logline cores: one record in, one filtered, verifications. -/
def State.coreProgress (s : State) : State :=
  (List.range 12).foldl (fun s c =>
    let s := if (s.core c).own != [] then s.happen (execTracePortDeliver (ownPort c))
      else match s.nextPort c with
        | some k => s.happen (execTracePortDeliver k)
        | none => s
    (s.happen (execFilterRecord c)).happen (execFilterVerifyDone c)) s

/-- The matrix units read what has become full in the device cycle that ends (R333). -/
def State.feedEdges (s : State) : State :=
  ((s.tasks.filter fun t => t.bound && !t.eng.muOps.isEmpty).map (·.bnd.tile)).foldl (fun s k => s.onTask k State.feedEdge) s

def State.boundTiles (s : State) : List Nat := (s.tasks.filter Task.bound).map (·.bnd.tile)

/-- Tiles whose saved contexts still have requests posted (R182, R342). -/
def State.postedTiles (s : State) : List Nat :=
  s.sched.launches.flatMap fun l => (l.contexts.filter fun t => !t.eng.launchReqs.isEmpty || !t.eng.sigs.isEmpty).map (·.bnd.tile)

/-- One device cycle of everything that acts on its own; of one region's events retirements come before tail writes (R33). -/
def State.progress (s : State) : State :=
  let tiles := s.boundTiles
  let s := tiles.foldl State.tileProgress s
  let s := ((s.mem.wport.map (·.tile)).filter fun k => !tiles.contains k).foldl State.drainOne s
  let s := (List.range 32).foldl (fun s c => if tget [] s.net.bcols c = [] then s else s.bcStep c) s
  let s := State.landAll s.net.packets.length 0 s
  let s := s.forAll ((s.net.nbu.filter fun p => !p.2.queue.isEmpty).map (·.1)) execRowOperationStart
  let s := if s.mgmt.devSigs.isEmpty then s else s.happen (execSignalDelivery (Config.gridW * Config.gridH))
  let posted := (s.postedTiles.filter fun k => !tiles.contains k).foldl (fun l k => insertNat k l) []
  let s := s.forAll posted execSignalDelivery
  let s := s.launchProgress
  let s := s.forAll (tiles ++ posted) execLaunchRequestApply
  s.upkeepProgress.coreProgress

/-! ### The edge -/

/-- Tasks that have a turn in the cycle that begins; one that has ended has it for a fault of an engine operation it left (R417). -/
def State.turns (s : State) : List Nat :=
  (sortBy Task.earlier (s.tasks.filter fun t => t.bound && s.tileTicks t.bnd.tile
    && ((t.receives && t.seq.state != .idle) || (t.seq.state == .ended && t.seq.pendingFault.isSome)))).map (·.bnd.tile)

/-- Phases of the columns' clocks move on. -/
def State.turnColumns (s : State) : State :=
  { s with env := { s.env with columns := s.env.columns.map fun p =>
    (p.1, { p.2 with phase := if p.2.ticks then p.2.phase + p.2.clk - 16 else p.2.phase + p.2.clk }) } }

def isRetire : Instr → Bool
  | .retire _ => true
  | _ => false

def isTailWrite : Instr → Bool
  | .tailWrite _ _ => true
  | .launchRequestApply _ => true
  | _ => false

def isPass : Instr → Bool
  | .schedulingPass => true
  | .passTimer => true
  | .dependenceChangeObserved _ => true
  | _ => false

/-- The events of one cycle with the tail writes that stand before its last retirement or pass put right after it: a pass too may retire a
refused launch, and so advance a QHEAD (R33; log entry 5). -/
def retireFirst (l : List Instr) : List Instr :=
  let n := l.length - l.reverse.findIdx fun i => isRetire i || isPass i
  (l.take n).filter (fun i => !isTailWrite i) ++ (l.take n).filter isTailWrite ++ l.drop n

/-- One device cycle ends, with what its matrix units read of it and the latch of a fix whose cycle it is, and the next begins. -/
def State.clockEdge (s : State) : State :=
  let delta := s.clk.advance.ptimeQ - s.clk.ptimeQ
  let s0 := s.askedEdge.feedEdges.happen execFixLatch
  let s1 : State := { s0 with clk := s0.clk.advance, obs := { s0.obs with hits := [], written := [] } }
  let s2 := (s1.mapTasks fun t => t.countCycle (s1.tileTicks t.bnd.tile)).countEdge
  let s3 := s2.due delta
  let s4 : State := match s3.clk.inputs with
    | [] => s3.progress
    | l :: rest => { s3 with clk := { s3.clk with agenda := retireFirst l, inputs := rest } }
  let s5 : State := { s4 with clk := { s4.clk with turn := s4.turns } }
  s5.turnColumns

end Sys2Proof.Machine
end

