-- ==== Sys2Proof/Machine/Dispatch.lean ====
section
/-! DEFINITION. One arm per instruction, each a direct call of its meaning. -/

namespace Sys2Proof.Machine

/-- What an instruction does in a state. -/
def exec (i : Instr) (s : State) : Host.Outcome State Fault Refusal :=
  match i with
  | .nop _ => Sys2Proof.Machine.execNop s
  | .add o => Sys2Proof.Machine.execAdd o s
  | .sub o => Sys2Proof.Machine.execSub o s
  | .mul o => Sys2Proof.Machine.execMul o s
  | .mulh o => Sys2Proof.Machine.execMulh o s
  | .mulhu o => Sys2Proof.Machine.execMulhu o s
  | .div o => Sys2Proof.Machine.execDiv o s
  | .divu o => Sys2Proof.Machine.execDivu o s
  | .rem o => Sys2Proof.Machine.execRem o s
  | .remu o => Sys2Proof.Machine.execRemu o s
  | .and o => Sys2Proof.Machine.execAnd o s
  | .or o => Sys2Proof.Machine.execOr o s
  | .xor o => Sys2Proof.Machine.execXor o s
  | .andn o => Sys2Proof.Machine.execAndn o s
  | .shl o => Sys2Proof.Machine.execShl o s
  | .shr o => Sys2Proof.Machine.execShr o s
  | .shra o => Sys2Proof.Machine.execShra o s
  | .rot o => Sys2Proof.Machine.execRot o s
  | .min o => Sys2Proof.Machine.execMin o s
  | .max o => Sys2Proof.Machine.execMax o s
  | .minu o => Sys2Proof.Machine.execMinu o s
  | .maxu o => Sys2Proof.Machine.execMaxu o s
  | .clz o => Sys2Proof.Machine.execClz o s
  | .ctz o => Sys2Proof.Machine.execCtz o s
  | .popc o => Sys2Proof.Machine.execPopc o s
  | .sel o => Sys2Proof.Machine.execSel o s
  | .addi o => Sys2Proof.Machine.execAddi o s
  | .andi o => Sys2Proof.Machine.execAndi o s
  | .ori o => Sys2Proof.Machine.execOri o s
  | .xori o => Sys2Proof.Machine.execXori o s
  | .shli o => Sys2Proof.Machine.execShli o s
  | .shri o => Sys2Proof.Machine.execShri o s
  | .shrai o => Sys2Proof.Machine.execShrai o s
  | .lih o => Sys2Proof.Machine.execLih o s
  | .cmpeqi o => Sys2Proof.Machine.execCmpeqi o s
  | .cmplti o => Sys2Proof.Machine.execCmplti o s
  | .cmpltui o => Sys2Proof.Machine.execCmpltui o s
  | .cmpeq o => Sys2Proof.Machine.execCmpeq o s
  | .cmpne o => Sys2Proof.Machine.execCmpne o s
  | .cmplt o => Sys2Proof.Machine.execCmplt o s
  | .cmpltu o => Sys2Proof.Machine.execCmpltu o s
  | .cmple o => Sys2Proof.Machine.execCmple o s
  | .cmpleu o => Sys2Proof.Machine.execCmpleu o s
  | .cand o => Sys2Proof.Machine.execCand o s
  | .cor o => Sys2Proof.Machine.execCor o s
  | .cxor o => Sys2Proof.Machine.execCxor o s
  | .lds o => Sys2Proof.Machine.execLds o s
  | .sts o => Sys2Proof.Machine.execSts o s
  | .ldg o => Sys2Proof.Machine.execLdg o s
  | .stg o => Sys2Proof.Machine.execStg o s
  | .amoadd o => Sys2Proof.Machine.execAmoadd o s
  | .amomin o => Sys2Proof.Machine.execAmomin o s
  | .amomax o => Sys2Proof.Machine.execAmomax o s
  | .amoand o => Sys2Proof.Machine.execAmoand o s
  | .amoor o => Sys2Proof.Machine.execAmoor o s
  | .amoxch o => Sys2Proof.Machine.execAmoxch o s
  | .amocas o => Sys2Proof.Machine.execAmocas o s
  | .fence scope _ => Sys2Proof.Machine.execFence scope s
  | .br o => Sys2Proof.Machine.execBr o s
  | .jmp o => Sys2Proof.Machine.execJmp o s
  | .call o => Sys2Proof.Machine.execCall o s
  | .ret o => Sys2Proof.Machine.execRet o s
  | .loop d imm _ => Sys2Proof.Machine.execLoop d imm s
  | .endTask _ => Sys2Proof.Machine.execEndTask s
  | .rep m n _ => Sys2Proof.Machine.execRep m n s
  | .mark e _ => Sys2Proof.Machine.execMark e s
  | .trap imm _ => Sys2Proof.Machine.execTrap imm s
  | .tret _ => Sys2Proof.Machine.execTret s
  | .tfence _ => Sys2Proof.Machine.execTfence s
  | .launch o => Sys2Proof.Machine.execLaunch o s
  | .sfmt o => Sys2Proof.Machine.execSfmt o s
  | .mfc r x c _ => Sys2Proof.Machine.execMfc r x c s
  | .mtc r x c _ => Sys2Proof.Machine.execMtc r x c s
  | .setvl o => Sys2Proof.Machine.execSetvl o s
  | .setcm r a imm _ => Sys2Proof.Machine.execSetcm r a imm s
  | .lovt o => Sys2Proof.Machine.execLovt o s
  | .tlbinv o => Sys2Proof.Machine.execTlbinv o s
  | .tlbinvAsid b n q _ => Sys2Proof.Machine.execTlbinvAsid b n q s
  | .tlbinvAll n q _ => Sys2Proof.Machine.execTlbinvAll n q s
  | .nopA => Sys2Proof.Machine.execNopA s
  | .vadd o => Sys2Proof.Machine.execVadd o s
  | .vsub o => Sys2Proof.Machine.execVsub o s
  | .vmul o => Sys2Proof.Machine.execVmul o s
  | .vfma o => Sys2Proof.Machine.execVfma o s
  | .vfms o => Sys2Proof.Machine.execVfms o s
  | .vfnma o => Sys2Proof.Machine.execVfnma o s
  | .vmin o => Sys2Proof.Machine.execVmin o s
  | .vmax o => Sys2Proof.Machine.execVmax o s
  | .vabs o => Sys2Proof.Machine.execVabs o s
  | .vneg o => Sys2Proof.Machine.execVneg o s
  | .vdiv o => Sys2Proof.Machine.execVdiv o s
  | .vsqrt o p => Sys2Proof.Machine.execVsqrt o p s
  | .vrsq o p => Sys2Proof.Machine.execVrsq o p s
  | .vrcp o => Sys2Proof.Machine.execVrcp o s
  | .vexp o => Sys2Proof.Machine.execVexp o s
  | .vlog o => Sys2Proof.Machine.execVlog o s
  | .vsin o => Sys2Proof.Machine.execVsin o s
  | .vcos o => Sys2Proof.Machine.execVcos o s
  | .vtanh o => Sys2Proof.Machine.execVtanh o s
  | .vrint o x => Sys2Proof.Machine.execVrint o x s
  | .viadd o => Sys2Proof.Machine.execViadd o s
  | .visub o => Sys2Proof.Machine.execVisub o s
  | .vimul o => Sys2Proof.Machine.execVimul o s
  | .vimulh o => Sys2Proof.Machine.execVimulh o s
  | .vimin o => Sys2Proof.Machine.execVimin o s
  | .vimax o => Sys2Proof.Machine.execVimax o s
  | .viminu o => Sys2Proof.Machine.execViminu o s
  | .vimaxu o => Sys2Proof.Machine.execVimaxu o s
  | .vand o => Sys2Proof.Machine.execVand o s
  | .vor o => Sys2Proof.Machine.execVor o s
  | .vxor o => Sys2Proof.Machine.execVxor o s
  | .vshl o => Sys2Proof.Machine.execVshl o s
  | .vshr o => Sys2Proof.Machine.execVshr o s
  | .vshra o => Sys2Proof.Machine.execVshra o s
  | .viabs o => Sys2Proof.Machine.execViabs o s
  | .vcmp o => Sys2Proof.Machine.execVcmp o s
  | .vicmp o => Sys2Proof.Machine.execVicmp o s
  | .kand o => Sys2Proof.Machine.execKand o s
  | .kor o => Sys2Proof.Machine.execKor o s
  | .kxor o => Sys2Proof.Machine.execKxor o s
  | .knot d a cl => Sys2Proof.Machine.execKnot d a cl s
  | .kfirst d a cl => Sys2Proof.Machine.execKfirst d a cl s
  | .kcnt d a cl => Sys2Proof.Machine.execKcnt d a cl s
  | .vsel o => Sys2Proof.Machine.execVsel o s
  | .vcoal o p => Sys2Proof.Machine.execVcoal o p s
  | .vcoalq o ix => Sys2Proof.Machine.execVcoalq o ix s
  | .vrlset o => Sys2Proof.Machine.execVrlset o s
  | .vsplat d b cl => Sys2Proof.Machine.execVsplat d b cl s
  | .vruns d a cl => Sys2Proof.Machine.execVruns d a cl s
  | .vrunsK d a cl => Sys2Proof.Machine.execVrunsK d a cl s
  | .vlen d a cl => Sys2Proof.Machine.execVlen d a cl s
  | .vlenK d a cl => Sys2Proof.Machine.execVlenK d a cl s
  | .vtrim o => Sys2Proof.Machine.execVtrim o s
  | .vtrimDrop o => Sys2Proof.Machine.execVtrimDrop o s
  | .vcat o => Sys2Proof.Machine.execVcat o s
  | .vrsum o => Sys2Proof.Machine.execVrsum o s
  | .vrmax o => Sys2Proof.Machine.execVrmax o s
  | .vrmin o => Sys2Proof.Machine.execVrmin o s
  | .vrisum o => Sys2Proof.Machine.execVrisum o s
  | .vrimax o => Sys2Proof.Machine.execVrimax o s
  | .vrimin o => Sys2Proof.Machine.execVrimin o s
  | .vdot o b => Sys2Proof.Machine.execVdot o b s
  | .nopB => Sys2Proof.Machine.execNopB s
  | .vld o => Sys2Proof.Machine.execVld o s
  | .vst o => Sys2Proof.Machine.execVst o s
  | .vlds o => Sys2Proof.Machine.execVlds o s
  | .vsts o => Sys2Proof.Machine.execVsts o s
  | .vldx o => Sys2Proof.Machine.execVldx o s
  | .vstx o => Sys2Proof.Machine.execVstx o s
  | .vldrl d k cl fe y => Sys2Proof.Machine.execVldrl d k cl fe y s
  | .vstrl d cl fe y => Sys2Proof.Machine.execVstrl d cl fe y s
  | .kld o => Sys2Proof.Machine.execKld o s
  | .kst o => Sys2Proof.Machine.execKst o s
  | .vcur a b cl y => Sys2Proof.Machine.execVcur a b cl y s
  | .vrd o => Sys2Proof.Machine.execVrd o s
  | .vwr o => Sys2Proof.Machine.execVwr o s
  | .vmov o => Sys2Proof.Machine.execVmov o s
  | .vmvs d a k cl => Sys2Proof.Machine.execVmvs d a k cl s
  | .vmvx d a v cl => Sys2Proof.Machine.execVmvx d a v cl s
  | .vxc o a => Sys2Proof.Machine.execVxc o a s
  | .vslide o a => Sys2Proof.Machine.execVslide o a s
  | .vrev o => Sys2Proof.Machine.execVrev o s
  | .vcvt o => Sys2Proof.Machine.execVcvt o s
  | .vclass o => Sys2Proof.Machine.execVclass o s
  | .twr o => Sys2Proof.Machine.execTwr o s
  | .trc o => Sys2Proof.Machine.execTrc o s
  | .trr o => Sys2Proof.Machine.execTrr o s
  | .tclr cl t => Sys2Proof.Machine.execTclr cl t s
  | .vshift o => Sys2Proof.Machine.execVshift o s
  | .nopE => Sys2Proof.Machine.execNopE s
  | .eset e a ix => Sys2Proof.Machine.execEset e a ix s
  | .eget e a ix => Sys2Proof.Machine.execEget e a ix s
  | .ewait e n => Sys2Proof.Machine.execEwait e n s
  | .wopen h => Sys2Proof.Machine.execWopen h s
  | .wopenBind h => Sys2Proof.Machine.execWopenBind h s
  | .wopenKeep h => Sys2Proof.Machine.execWopenKeep h s
  | .wadv h a => Sys2Proof.Machine.execWadv h a s
  | .wwait h a => Sys2Proof.Machine.execWwait h a s
  | .wwaitDone h => Sys2Proof.Machine.execWwaitDone h s
  | .wclose h => Sys2Proof.Machine.execWclose h s
  | .rstat h a => Sys2Proof.Machine.execRstat h a s
  | .wflush h => Sys2Proof.Machine.execWflush h s
  | .bcfill => Sys2Proof.Machine.execBcfill s
  | .bcfillRing h => Sys2Proof.Machine.execBcfillRing h s
  | .bcwait a => Sys2Proof.Machine.execBcwait a s
  | .bcwaitAll => Sys2Proof.Machine.execBcwaitAll s
  | .mma bank => Sys2Proof.Machine.execMma bank s
  | .mmv bank => Sys2Proof.Machine.execMmv bank s
  | .mldb => Sys2Proof.Machine.execMldb s
  | .mdrain bank => Sys2Proof.Machine.execMdrain bank s
  | .mswap => Sys2Proof.Machine.execMswap s
  | .mclr bank q => Sys2Proof.Machine.execMclr bank q s
  | .mflags bank a c => Sys2Proof.Machine.execMflags bank a c s
  | .xsend h a b => Sys2Proof.Machine.execXsend h a b s
  | .xwr a b m l => Sys2Proof.Machine.execXwr a b m l s
  | .xrd a b m l => Sys2Proof.Machine.execXrd a b m l s
  | .xbar => Sys2Proof.Machine.execXbar s
  | .xbarRow => Sys2Proof.Machine.execXbarRow s
  | .xbarCol => Sys2Proof.Machine.execXbarCol s
  | .dcopy => Sys2Proof.Machine.execDcopy s
  | .dcopyMt => Sys2Proof.Machine.execDcopyMt s
  | .dcopyTm => Sys2Proof.Machine.execDcopyTm s
  | .dpub a b n => Sys2Proof.Machine.execDpub a b n s
  | .dwait => Sys2Proof.Machine.execDwait s
  | .fload => Sys2Proof.Machine.execFload s
  | .fbind => Sys2Proof.Machine.execFbind s
  | .fstat a => Sys2Proof.Machine.execFstat a s
  | .nbcmd a b => Sys2Proof.Machine.execNbcmd a b s
  | .nbpoll a b => Sys2Proof.Machine.execNbpoll a b s
  | .nbfence => Sys2Proof.Machine.execNbfence s
  | .hsig a b v => Sys2Proof.Machine.execHsig a b v s
  | .trace a b v => Sys2Proof.Machine.execTrace a b v s
  | .snap c => Sys2Proof.Machine.execSnap c s
  | .refdefer a => Sys2Proof.Machine.execRefdefer a s
  | .refnow a => Sys2Proof.Machine.execRefnow a s
  | .refnowAll => Sys2Proof.Machine.execRefnowAll s
  | .nbEnd => Sys2Proof.Machine.execNbEnd s
  | .loadacc o => Sys2Proof.Machine.execLoadacc o s
  | .accop o => Sys2Proof.Machine.execAccop o s
  | .sacc o => Sys2Proof.Machine.execSacc o s
  | .nbStore o => Sys2Proof.Machine.execNbStore o s
  | .nbClear acc => Sys2Proof.Machine.execNbClear acc s
  | .minmax o => Sys2Proof.Machine.execMinmax o s
  | .fltLdf d off => Sys2Proof.Machine.execFltLdf d off s
  | .fltLdi d imm => Sys2Proof.Machine.execFltLdi d imm s
  | .fltAdd d a b => Sys2Proof.Machine.execFltAdd d a b s
  | .fltSub d a b => Sys2Proof.Machine.execFltSub d a b s
  | .fltAnd d a b => Sys2Proof.Machine.execFltAnd d a b s
  | .fltOr d a b => Sys2Proof.Machine.execFltOr d a b s
  | .fltXor d a b => Sys2Proof.Machine.execFltXor d a b s
  | .fltShl d a imm => Sys2Proof.Machine.execFltShl d a imm s
  | .fltShr d a imm => Sys2Proof.Machine.execFltShr d a imm s
  | .fltAndi d a imm => Sys2Proof.Machine.execFltAndi d a imm s
  | .fltAddi d a imm => Sys2Proof.Machine.execFltAddi d a imm s
  | .fltBeq a b imm => Sys2Proof.Machine.execFltBeq a b imm s
  | .fltBne a b imm => Sys2Proof.Machine.execFltBne a b imm s
  | .fltBltu a b imm => Sys2Proof.Machine.execFltBltu a b imm s
  | .fltBlt a b imm => Sys2Proof.Machine.execFltBlt a b imm s
  | .fltCadd a imm => Sys2Proof.Machine.execFltCadd a imm s
  | .fltVerd imm => Sys2Proof.Machine.execFltVerd imm s
  | .reduce p => Sys2Proof.Machine.execReduce p s
  | .scaleacc p => Sys2Proof.Machine.execScaleacc p s
  | .cmpxchg p => Sys2Proof.Machine.execCmpxchg p s
  | .idxreduce p => Sys2Proof.Machine.execIdxreduce p s
  | .accwb p => Sys2Proof.Machine.execAccwb p s
  | .accclr p => Sys2Proof.Machine.execAccclr p s
  | .uprog p => Sys2Proof.Machine.execUprog p s
  | .bundleIssue => Sys2Proof.Machine.execBundleIssue s
  | .resultLanding => Sys2Proof.Machine.execResultLanding s
  | .globalAccessPerformed tile => Sys2Proof.Machine.execGlobalAccessPerformed tile s
  | .fullEmptyWake tile => Sys2Proof.Machine.execFullEmptyWake tile s
  | .ringReadWake tile => Sys2Proof.Machine.execRingReadWake tile s
  | .ringWriteWake tile => Sys2Proof.Machine.execRingWriteWake tile s
  | .engineWaitEnd tile => Sys2Proof.Machine.execEngineWaitEnd tile s
  | .barrierRelease launch group line => Sys2Proof.Machine.execBarrierRelease launch group line s
  | .engineFaultAfterIssue tile => Sys2Proof.Machine.execEngineFaultAfterIssue tile s
  | .launchRequestApply tile => Sys2Proof.Machine.execLaunchRequestApply tile s
  | .tailWrite region t => Sys2Proof.Machine.execTailWrite region t s
  | .terrClear region => Sys2Proof.Machine.execTerrClear region s
  | .liveOn region rcba => Sys2Proof.Machine.execLiveOn region rcba s
  | .liveOff region => Sys2Proof.Machine.execLiveOff region s
  | .rcbaWrite region rcba => Sys2Proof.Machine.execRcbaWrite region rcba s
  | .schedulingPass => Sys2Proof.Machine.execSchedulingPass s
  | .passTimer => Sys2Proof.Machine.execPassTimer s
  | .dependenceChangeObserved launch => Sys2Proof.Machine.execDependenceChangeObserved launch s
  | .agingExpiry launch => Sys2Proof.Machine.execAgingExpiry launch s
  | .exclusionTimeout launch => Sys2Proof.Machine.execExclusionTimeout launch s
  | .launchRelease launch => Sys2Proof.Machine.execLaunchRelease launch s
  | .sliceStart region => Sys2Proof.Machine.execSliceStart region s
  | .sliceLead region => Sys2Proof.Machine.execSliceLead region s
  | .sliceEnd region => Sys2Proof.Machine.execSliceEnd region s
  | .watchdogExpiry launch => Sys2Proof.Machine.execWatchdogExpiry launch s
  | .retire launch => Sys2Proof.Machine.execRetire launch s
  | .leaseClearDone tile => Sys2Proof.Machine.execLeaseClearDone tile s
  | .pageResolved writes => Sys2Proof.Machine.execPageResolved writes s
  | .pageUnresolvable asid va => Sys2Proof.Machine.execPageUnresolvable asid va s
  | .stopRequest launch why => Sys2Proof.Machine.execStopRequest launch why s
  | .engineStopAck tile e => Sys2Proof.Machine.execEngineStopAck tile e s
  | .stopComplete launch => Sys2Proof.Machine.execStopComplete launch s
  | .stopDeadline launch => Sys2Proof.Machine.execStopDeadline launch s
  | .saveComplete launch => Sys2Proof.Machine.execSaveComplete launch s
  | .saveDeadline launch => Sys2Proof.Machine.execSaveDeadline launch s
  | .restore launch => Sys2Proof.Machine.execRestore launch s
  | .restoreDeadline launch => Sys2Proof.Machine.execRestoreDeadline launch s
  | .migrationStart tile px => Sys2Proof.Machine.execMigrationStart tile px s
  | .migrationSwitch tile => Sys2Proof.Machine.execMigrationSwitch tile s
  | .towerSwitchIn tile tower => Sys2Proof.Machine.execTowerSwitchIn tile tower s
  | .copySwitch tile tower => Sys2Proof.Machine.execCopySwitch tile tower s
  | .copyWriteError tile => Sys2Proof.Machine.execCopyWriteError tile s
  | .hardwareError tile k => Sys2Proof.Machine.execHardwareError tile k s
  | .tileFence tile => Sys2Proof.Machine.execTileFence tile s
  | .tileScrubDone ptile => Sys2Proof.Machine.execTileScrubDone ptile s
  | .thermalSample deciC => Sys2Proof.Machine.execThermalSample deciC s
  | .sensorRecalibrate sensor => Sys2Proof.Machine.execSensorRecalibrate sensor s
  | .scheduledRefreshPass ptower => Sys2Proof.Machine.execScheduledRefreshPass ptower s
  | .forcedRefresh ptower => Sys2Proof.Machine.execForcedRefresh ptower s
  | .refreshPassEnd ptower => Sys2Proof.Machine.execRefreshPassEnd ptower s
  | .deferralExpiry ptower => Sys2Proof.Machine.execDeferralExpiry ptower s
  | .scrubRow tower row outcome => Sys2Proof.Machine.execScrubRow tower row outcome s
  | .relayout page => Sys2Proof.Machine.execRelayout page s
  | .relayoutDone page => Sys2Proof.Machine.execRelayoutDone page s
  | .windowRowDelivery tile h => Sys2Proof.Machine.execWindowRowDelivery tile h s
  | .bcRowDelivery column => Sys2Proof.Machine.execBcRowDelivery column s
  | .xpPacketLanding index => Sys2Proof.Machine.execXpPacketLanding index s
  | .shiftPartDelivery tile cluster => Sys2Proof.Machine.execShiftPartDelivery tile cluster s
  | .muOperationBegin tile => Sys2Proof.Machine.execMuOperationBegin tile s
  | .muOperationComplete tile => Sys2Proof.Machine.execMuOperationComplete tile s
  | .dcopyChunk tile => Sys2Proof.Machine.execDcopyChunk tile s
  | .fabricLoadRequest tile => Sys2Proof.Machine.execFabricLoadRequest tile s
  | .fabricBindRequest tile => Sys2Proof.Machine.execFabricBindRequest tile s
  | .fabricBeat tile h => Sys2Proof.Machine.execFabricBeat tile h s
  | .fabricStreamEnd tile h => Sys2Proof.Machine.execFabricStreamEnd tile h s
  | .fabricContextSpill ctx => Sys2Proof.Machine.execFabricContextSpill ctx s
  | .nbPacketEnqueue tile => Sys2Proof.Machine.execNbPacketEnqueue tile s
  | .nbQueueWaitTimeout tile => Sys2Proof.Machine.execNbQueueWaitTimeout tile s
  | .rowOperationStart chan => Sys2Proof.Machine.execRowOperationStart chan s
  | .ordinaryRequestSuspend chan => Sys2Proof.Machine.execOrdinaryRequestSuspend chan s
  | .nbContextSpill chan => Sys2Proof.Machine.execNbContextSpill chan s
  | .publicationApply tile => Sys2Proof.Machine.execPublicationApply tile s
  | .tlbinvComplete => Sys2Proof.Machine.execTlbinvComplete s
  | .signalDelivery tile => Sys2Proof.Machine.execSignalDelivery tile s
  | .tracePortDeliver tile => Sys2Proof.Machine.execTracePortDeliver tile s
  | .filterRecord core => Sys2Proof.Machine.execFilterRecord core s
  | .counterOverflow off by_ => Sys2Proof.Machine.execCounterOverflow off by_ s
  | .counterWrite off v inc => Sys2Proof.Machine.execCounterWrite off v inc s
  | .fixLatch => Sys2Proof.Machine.execFixLatch s
  | .fixAssert => Sys2Proof.Machine.execFixAssert s
  | .fixRelease => Sys2Proof.Machine.execFixRelease s
  | .filterVerify core n => Sys2Proof.Machine.execFilterVerify core n s
  | .filterVerifyDone core => Sys2Proof.Machine.execFilterVerifyDone core s
  | .rkConfigWrite off v => Sys2Proof.Machine.execRkConfigWrite off v s
  | .breakpointMatch tile which => Sys2Proof.Machine.execBreakpointMatch tile which s
  | .debugStop tile => Sys2Proof.Machine.execDebugStop tile s
  | .debugResume tile steps => Sys2Proof.Machine.execDebugResume tile steps s
  | .stepCountExpiry tile => Sys2Proof.Machine.execStepCountExpiry tile s
  | .debugContextWrite tile off bytes => Sys2Proof.Machine.execDebugContextWrite tile off bytes s
  | .abortLaunch launch => Sys2Proof.Machine.execAbortLaunch launch s
  | .mailboxRequest => Sys2Proof.Machine.execMailboxRequest s
  | .mailboxResponse bytes => Sys2Proof.Machine.execMailboxResponse bytes s
  | .attestationRequest nonce => Sys2Proof.Machine.execAttestationRequest nonce s
  | .pmodeWrite v => Sys2Proof.Machine.execPmodeWrite v s
  | .powerLimitExceeded => Sys2Proof.Machine.execPowerLimitExceeded s
  | .coolantFlowLow => Sys2Proof.Machine.execCoolantFlowLow s
  | .railFault => Sys2Proof.Machine.execRailFault s
  | .registerWrite off size v => Sys2Proof.Machine.execRegisterWrite off size v s
  | .hostHbmAccess a => Sys2Proof.Machine.execHostHbmAccess a s
  | .peerAccess a => Sys2Proof.Machine.execPeerAccess a s
  | .rhumbPathTimeout dev => Sys2Proof.Machine.execRhumbPathTimeout dev s
  | .linkRetrain link => Sys2Proof.Machine.execLinkRetrain link s
  | .channelRetrain chan => Sys2Proof.Machine.execChannelRetrain chan s
  | .channelRetrainEnd chan => Sys2Proof.Machine.execChannelRetrainEnd chan s
  | .ptpLock ns => Sys2Proof.Machine.execPtpLock ns s
  | .ptpLockLost => Sys2Proof.Machine.execPtpLockLost s
  | .firmwareHandover => Sys2Proof.Machine.execFirmwareHandover s
  | .firmwareVerify image => Sys2Proof.Machine.execFirmwareVerify image s
  | .securityVersionRaise version => Sys2Proof.Machine.execSecurityVersionRaise version s
  | .checkpoint => Sys2Proof.Machine.execCheckpoint s
  | .deviceReset => Sys2Proof.Machine.execDeviceReset s
  | .hbmDataRateChange stack => Sys2Proof.Machine.execHbmDataRateChange stack s
  | .coolantFlowRestored => Sys2Proof.Machine.execCoolantFlowRestored s
  | .checkpointRestore => Sys2Proof.Machine.execCheckpointRestore s

end Sys2Proof.Machine
end

