-- ==== Sys2Proof/Machine/Step.lean ====
section
/-! DEFINITION. One step of the device: the next event of the present device cycle, or the next turn of a task in it, or the
edge that ends the cycle (log entry 5). -/

namespace Sys2Proof.Machine

/-- The events of the agenda happen one a step, each through `exec`; then each task whose column's clock ticks has its turn,
in which its next bundle issues or its stall goes on; then the next device cycle begins. -/
def step (s : State) : Host.Outcome State Fault Refusal :=
  match s.clk.agenda with
  | i :: rest => exec i { s with clk := { s.clk with agenda := rest } }
  | [] =>
    match s.clk.turn with
    | t :: rest =>
      let s1 : State := { s with clk := { s.clk with turn := rest } }
      .next (s1.onTask t State.taskCycle)
    | [] => .next s.clockEdge

/-- The current task, bound if it was not, holds a store of this one bundle and is about to issue it, and its turn is next. -/
def State.placeBundle (s : State) (b : BitVec 128) : State :=
  let t := s.cur
  let bnd : Bind := { t.bnd with launch := if t.bnd.launch = 0 then 1 else t.bnd.launch, store := [b], nbund := 1 }
  { s with
    clk := { s.clk with agenda := [], turn := [bnd.tile] }
    cur := { t with bnd := bnd, seq := { Seq.reset with state := .running, scyc := t.seq.scyc, dcyc := t.seq.dcyc } } }

/-- Near-bank unit 0 holds a UPROG command of this one microinstruction and is about to execute it. -/
def State.queueMicro (s : State) (w : W32) : State :=
  let c : NbCmd := { NbCmd.reset with launch := 1, words := #v[0x00000007#32, w, 0#32, 0#32, 0#32, 0#32, 0#32, 0#32] }
  { s with
    clk := { s.clk with agenda := (decodeMicro w).toOption.toList, turn := [] }
    net := { s.net with curChan := 0, curCmd := c, nbu := tput 0 { Nbu.reset with queue := [c], owner := some c.issuer } s.net.nbu } }

/-- The state with a table word where the next step takes its instruction (log entry 6): a syllable as the bundle of the current
task, a microinstruction as the program of a near-bank command. -/
def State.withFetchWord (s : State) (nbits w : Nat) : State :=
  match tableSlot nbits w with
  | some (sl, x) => s.placeBundle (bundleWith sl x)
  | none => s.queueMicro (BitVec.ofNat 32 w)

end Sys2Proof.Machine
end

