-- ==== Sys2Proof/Laws/Encoding.lean ====
section
/-! SUPPORT. Fields read back from the words that the encoder writes: one lemma per operand form. -/

namespace Sys2Proof.Laws

/-- A field below the join of two words lies in the lower one. -/
@[simp] theorem extract_low {v w s n : Nat} (x : BitVec v) (y : BitVec w) (h : s + n ≤ w) :
    BitVec.extractLsb' (n := v + w) s n (HAppend.hAppend (γ := no_index (BitVec (v + w))) x y) = y.extractLsb' s n :=
  BitVec.extractLsb'_append_eq_of_add_le h

/-- A field above the join of two words lies in the upper one. -/
@[simp] theorem extract_high {v w s n : Nat} (x : BitVec v) (y : BitVec w) (h : w ≤ s) :
    BitVec.extractLsb' (n := v + w) s n (HAppend.hAppend (γ := no_index (BitVec (v + w))) x y) = x.extractLsb' (s - w) n :=
  BitVec.extractLsb'_append_eq_of_le h

/-- The bit that a Boolean is written as reads back as that Boolean. -/
@[simp] theorem ofBool_beq (b : Bool) : (BitVec.ofBool b == 1#1) = b := by cases b <;> rfl

@[simp] theorem bitAt_eq {n : Nat} (x : BitVec n) (i : Nat) : bitAt x i = (x.extractLsb' i 1 == 1#1) := rfl

@[simp] theorem fields0_true (i : Instr) : fields0 true i = .ok i := rfl

@[simp] theorem crForm_ofBits_bits (o : CrForm) : CrForm.ofBits o.bits = o := by
  cases o; simp [CrForm.ofBits, CrForm.bits]

@[simp] theorem crForm_zeros_bits (o : CrForm) : CrForm.zeros o.bits = true := by
  cases o; simp [CrForm.zeros, CrForm.bits]

@[simp] theorem cr1Form_ofBits_bits (o : Cr1Form) : Cr1Form.ofBits o.bits = o := by
  cases o; simp [Cr1Form.ofBits, Cr1Form.bits]

@[simp] theorem cr1Form_zeros_bits (o : Cr1Form) : Cr1Form.zeros o.bits = true := by
  cases o; simp [Cr1Form.zeros, Cr1Form.bits]

@[simp] theorem selForm_ofBits_bits (o : SelForm) : SelForm.ofBits o.bits = o := by
  cases o; simp [SelForm.ofBits, SelForm.bits]

@[simp] theorem selForm_zeros_bits (o : SelForm) : SelForm.zeros o.bits = true := by
  cases o; simp [SelForm.zeros, SelForm.bits]

@[simp] theorem ciForm_ofBits_bits (o : CiForm) : CiForm.ofBits o.bits = o := by
  cases o; simp [CiForm.ofBits, CiForm.bits]

@[simp] theorem lihForm_ofBits_bits (o : LihForm) : LihForm.ofBits o.bits = o := by
  cases o; simp [LihForm.ofBits, LihForm.bits]

@[simp] theorem cmpiForm_ofBits_bits (o : CmpiForm) : CmpiForm.ofBits o.bits = o := by
  cases o; simp [CmpiForm.ofBits, CmpiForm.bits]

@[simp] theorem cmpiForm_zeros_bits (o : CmpiForm) : CmpiForm.zeros o.bits = true := by
  cases o; simp [CmpiForm.zeros, CmpiForm.bits]

@[simp] theorem cmpForm_ofBits_bits (o : CmpForm) : CmpForm.ofBits o.bits = o := by
  cases o; simp [CmpForm.ofBits, CmpForm.bits]

@[simp] theorem cmpForm_zeros_bits (o : CmpForm) : CmpForm.zeros o.bits = true := by
  cases o; simp [CmpForm.zeros, CmpForm.bits]

@[simp] theorem condForm_ofBits_bits (o : CondForm) : CondForm.ofBits o.bits = o := by
  cases o; simp [CondForm.ofBits, CondForm.bits]

@[simp] theorem condForm_zeros_bits (o : CondForm) : CondForm.zeros o.bits = true := by
  cases o; simp [CondForm.zeros, CondForm.bits]

@[simp] theorem ldsForm_ofBits_bits (o : LdsForm) : LdsForm.ofBits o.bits = o := by
  cases o; simp [LdsForm.ofBits, LdsForm.bits]

@[simp] theorem ldsForm_zeros_bits (o : LdsForm) : LdsForm.zeros o.bits = true := by
  cases o; simp [LdsForm.zeros, LdsForm.bits]

@[simp] theorem stsForm_ofBits_bits (o : StsForm) : StsForm.ofBits o.bits = o := by
  cases o; simp [StsForm.ofBits, StsForm.bits]

@[simp] theorem stsForm_zeros_bits (o : StsForm) : StsForm.zeros o.bits = true := by
  cases o; simp [StsForm.zeros, StsForm.bits]

@[simp] theorem ldgForm_ofBits_bits (o : LdgForm) : LdgForm.ofBits o.bits = o := by
  cases o; simp [LdgForm.ofBits, LdgForm.bits]

@[simp] theorem stgForm_ofBits_bits (o : StgForm) : StgForm.ofBits o.bits = o := by
  cases o; simp [StgForm.ofBits, StgForm.bits]

@[simp] theorem stgForm_zeros_bits (o : StgForm) : StgForm.zeros o.bits = true := by
  cases o; simp [StgForm.zeros, StgForm.bits]

@[simp] theorem amoForm_ofBits_bits (o : AmoForm) : AmoForm.ofBits o.bits = o := by
  cases o; simp [AmoForm.ofBits, AmoForm.bits]

@[simp] theorem brForm_ofBits_bits (o : BrForm) : BrForm.ofBits o.bits = o := by
  cases o; simp [BrForm.ofBits, BrForm.bits]

@[simp] theorem jmpForm_ofBits_bits (o : JmpForm) : JmpForm.ofBits o.bits = o := by
  cases o; simp [JmpForm.ofBits, JmpForm.bits]

@[simp] theorem jmpForm_zeros_bits (o : JmpForm) : JmpForm.zeros o.bits = true := by
  cases o; simp [JmpForm.zeros, JmpForm.bits]

@[simp] theorem retForm_ofBits_bits (o : RetForm) : RetForm.ofBits o.bits = o := by
  cases o; simp [RetForm.ofBits, RetForm.bits]

@[simp] theorem retForm_zeros_bits (o : RetForm) : RetForm.zeros o.bits = true := by
  cases o; simp [RetForm.zeros, RetForm.bits]

@[simp] theorem aForm_ofBits_bits (o : AForm) : AForm.ofBits o.bits = o := by
  cases o; simp [AForm.ofBits, AForm.bits]

@[simp] theorem aForm_zeros_bits (o : AForm) : AForm.zeros o.bits = true := by
  cases o; simp [AForm.zeros, AForm.bits]

@[simp] theorem a1Form_ofBits_bits (o : A1Form) : A1Form.ofBits o.bits = o := by
  cases o; simp [A1Form.ofBits, A1Form.bits]

@[simp] theorem a1Form_zeros_bits (o : A1Form) : A1Form.zeros o.bits = true := by
  cases o; simp [A1Form.zeros, A1Form.bits]

@[simp] theorem vcmpForm_ofBits_bits (o : VcmpForm) : VcmpForm.ofBits o.bits = o := by
  cases o; simp [VcmpForm.ofBits, VcmpForm.bits]

@[simp] theorem vcmpForm_zeros_bits (o : VcmpForm) : VcmpForm.zeros o.bits = true := by
  cases o; simp [VcmpForm.zeros, VcmpForm.bits]

@[simp] theorem kForm_ofBits_bits (o : KForm) : KForm.ofBits o.bits = o := by
  cases o; simp [KForm.ofBits, KForm.bits]

@[simp] theorem kForm_zeros_bits (o : KForm) : KForm.zeros o.bits = true := by
  cases o; simp [KForm.zeros, KForm.bits]

@[simp] theorem vselForm_ofBits_bits (o : VselForm) : VselForm.ofBits o.bits = o := by
  cases o; simp [VselForm.ofBits, VselForm.bits]

@[simp] theorem vselForm_zeros_bits (o : VselForm) : VselForm.zeros o.bits = true := by
  cases o; simp [VselForm.zeros, VselForm.bits]

@[simp] theorem v3Form_ofBits_bits (o : V3Form) : V3Form.ofBits o.bits = o := by
  cases o; simp [V3Form.ofBits, V3Form.bits]

@[simp] theorem v3Form_zeros_bits (o : V3Form) : V3Form.zeros o.bits = true := by
  cases o; simp [V3Form.zeros, V3Form.bits]

@[simp] theorem redForm_ofBits_bits (o : RedForm) : RedForm.ofBits o.bits = o := by
  cases o; simp [RedForm.ofBits, RedForm.bits]

@[simp] theorem redForm_zeros_bits (o : RedForm) : RedForm.zeros o.bits = true := by
  cases o; simp [RedForm.zeros, RedForm.bits]

@[simp] theorem bMemForm_ofBits_bits (o : BMemForm) : BMemForm.ofBits o.bits = o := by
  cases o; simp [BMemForm.ofBits, BMemForm.bits]

@[simp] theorem kmForm_ofBits_bits (o : KmForm) : KmForm.ofBits o.bits = o := by
  cases o; simp [KmForm.ofBits, KmForm.bits]

@[simp] theorem kmForm_zeros_bits (o : KmForm) : KmForm.zeros o.bits = true := by
  cases o; simp [KmForm.zeros, KmForm.bits]

@[simp] theorem rowForm_ofBits_bits (o : RowForm) : RowForm.ofBits o.bits = o := by
  cases o; simp [RowForm.ofBits, RowForm.bits]

@[simp] theorem rowForm_zeros_bits (o : RowForm) : RowForm.zeros o.bits = true := by
  cases o; simp [RowForm.zeros, RowForm.bits]

@[simp] theorem movForm_ofBits_bits (o : MovForm) : MovForm.ofBits o.bits = o := by
  cases o; simp [MovForm.ofBits, MovForm.bits]

@[simp] theorem movForm_zeros_bits (o : MovForm) : MovForm.zeros o.bits = true := by
  cases o; simp [MovForm.zeros, MovForm.bits]

@[simp] theorem tForm_ofBits_bits (o : TForm) : TForm.ofBits o.bits = o := by
  cases o; simp [TForm.ofBits, TForm.bits]

@[simp] theorem tForm_zeros_bits (o : TForm) : TForm.zeros o.bits = true := by
  cases o; simp [TForm.zeros, TForm.bits]

@[simp] theorem shiftForm_ofBits_bits (o : ShiftForm) : ShiftForm.ofBits o.bits = o := by
  cases o; simp [ShiftForm.ofBits, ShiftForm.bits]

@[simp] theorem shiftForm_zeros_bits (o : ShiftForm) : ShiftForm.zeros o.bits = true := by
  cases o; simp [ShiftForm.zeros, ShiftForm.bits]

end Sys2Proof.Laws
end

