-- ==== Sys2Proof/Laws/PerInstr.lean ====
section
/-! SUPPORT. Statements about every instruction, one lemma per constructor: an instruction's words read back as that
instruction. -/

namespace Sys2Proof.Laws.RoundTrip

/-- The words that the encoder writes for a well-formed instruction decode to it. -/
def Statement (i : Instr) : Prop := WellFormed i = true → kindOf i ≠ .event → decodeAs (kindOf i) (encode i) = some i

theorem checked_ok {i : Instr} (h : WellFormed i = true) : checked (.ok i) = .ok i := by simp [checked, h]

/-- A syllable is read from its opcode and the 25 bits below it. -/
theorem decodeSlot_split (sl : Slot) (op : BitVec 7) (x : BitVec 25) : decodeSlot sl (op ++ x) =
    checked (match sl with
      | .c => slotC op.toNat x
      | .a => slotA op.toNat x
      | .b => slotB op.toNat x
      | .e => slotE op.toNat x) := by
  cases sl <;> simp [decodeSlot]

/-- A syllable reads back once its slot's table does. -/
theorem of_slot {i : Instr} {sl : Slot} (op : BitVec 7) (x : BitVec 25) (hk : kindOf i = .slot sl) (he : encode i = [op ++ x])
    (hs : (match sl with
      | .c => slotC op.toNat x
      | .a => slotA op.toNat x
      | .b => slotB op.toNat x
      | .e => slotE op.toNat x) = .ok i) : Statement i := by
  intro h _
  rw [hk, he]
  show (decodeSlot sl (op ++ x)).toOption = some i
  rw [decodeSlot_split, hs, checked_ok h]
  rfl

/-- A packet reads back from its header and seven words. -/
theorem of_packet {i : Instr} {p : NbForm} {cmd : BitVec 4} (hk : kindOf i = .packet) (he : encode i = p.header cmd :: p.words.toList)
    (hd : packetWords (p.header cmd) p.words = .ok i) : Statement i := by
  intro h _
  obtain ⟨dn, opf, nrow, typ, acc, ⟨⟨l⟩, hl⟩⟩ := p
  match l, hl with
  | [a, b, c, d, e, f, g], hl =>
    rw [hk, he]
    show (checked (packetWords _ #v[a, b, c, d, e, f, g])).toOption = some i
    have hd' : packetWords _ #v[a, b, c, d, e, f, g] = .ok i := hd
    rw [hd', checked_ok h]
    rfl

/-- The halves of a doubleword join to it. -/
theorem join_halves (w : W64) : w.extractLsb' 32 32 ++ w.extractLsb' 0 32 = w := by
  apply BitVec.eq_of_getLsbD_eq
  intro i hi
  simp only [BitVec.getLsbD_append, BitVec.getLsbD_extractLsb']
  split <;> simp_all
  intro _; omega

/-- A device event has no words. -/
theorem of_event {i : Instr} (hk : kindOf i = .event) : Statement i := fun _ h => absurd hk h

theorem nop (f : Bool) : Statement (.nop f) :=
  of_slot 0x00#7 (0#24 ++ BitVec.ofBool f) rfl rfl (by
    show fields0 _ _ = _
    simp)

theorem add (o : CrForm) : Statement (.add o) :=
  of_slot 0x01#7 (o.bits) rfl rfl (by
    show fields0 _ _ = _
    simp)

theorem sub (o : CrForm) : Statement (.sub o) :=
  of_slot 0x02#7 (o.bits) rfl rfl (by
    show fields0 _ _ = _
    simp)

theorem mul (o : CrForm) : Statement (.mul o) :=
  of_slot 0x03#7 (o.bits) rfl rfl (by
    show fields0 _ _ = _
    simp)

theorem mulh (o : CrForm) : Statement (.mulh o) :=
  of_slot 0x04#7 (o.bits) rfl rfl (by
    show fields0 _ _ = _
    simp)

theorem mulhu (o : CrForm) : Statement (.mulhu o) :=
  of_slot 0x05#7 (o.bits) rfl rfl (by
    show fields0 _ _ = _
    simp)

theorem div (o : CrForm) : Statement (.div o) :=
  of_slot 0x06#7 (o.bits) rfl rfl (by
    show fields0 _ _ = _
    simp)

theorem divu (o : CrForm) : Statement (.divu o) :=
  of_slot 0x07#7 (o.bits) rfl rfl (by
    show fields0 _ _ = _
    simp)

theorem rem (o : CrForm) : Statement (.rem o) :=
  of_slot 0x08#7 (o.bits) rfl rfl (by
    show fields0 _ _ = _
    simp)

theorem remu (o : CrForm) : Statement (.remu o) :=
  of_slot 0x09#7 (o.bits) rfl rfl (by
    show fields0 _ _ = _
    simp)

theorem and (o : CrForm) : Statement (.and o) :=
  of_slot 0x0A#7 (o.bits) rfl rfl (by
    show fields0 _ _ = _
    simp)

theorem or (o : CrForm) : Statement (.or o) :=
  of_slot 0x0B#7 (o.bits) rfl rfl (by
    show fields0 _ _ = _
    simp)

theorem xor (o : CrForm) : Statement (.xor o) :=
  of_slot 0x0C#7 (o.bits) rfl rfl (by
    show fields0 _ _ = _
    simp)

theorem andn (o : CrForm) : Statement (.andn o) :=
  of_slot 0x0D#7 (o.bits) rfl rfl (by
    show fields0 _ _ = _
    simp)

theorem shl (o : CrForm) : Statement (.shl o) :=
  of_slot 0x0E#7 (o.bits) rfl rfl (by
    show fields0 _ _ = _
    simp)

theorem shr (o : CrForm) : Statement (.shr o) :=
  of_slot 0x0F#7 (o.bits) rfl rfl (by
    show fields0 _ _ = _
    simp)

theorem shra (o : CrForm) : Statement (.shra o) :=
  of_slot 0x10#7 (o.bits) rfl rfl (by
    show fields0 _ _ = _
    simp)

theorem rot (o : CrForm) : Statement (.rot o) :=
  of_slot 0x11#7 (o.bits) rfl rfl (by
    show fields0 _ _ = _
    simp)

theorem min (o : CrForm) : Statement (.min o) :=
  of_slot 0x12#7 (o.bits) rfl rfl (by
    show fields0 _ _ = _
    simp)

theorem max (o : CrForm) : Statement (.max o) :=
  of_slot 0x13#7 (o.bits) rfl rfl (by
    show fields0 _ _ = _
    simp)

theorem minu (o : CrForm) : Statement (.minu o) :=
  of_slot 0x14#7 (o.bits) rfl rfl (by
    show fields0 _ _ = _
    simp)

theorem maxu (o : CrForm) : Statement (.maxu o) :=
  of_slot 0x15#7 (o.bits) rfl rfl (by
    show fields0 _ _ = _
    simp)

theorem clz (o : Cr1Form) : Statement (.clz o) :=
  of_slot 0x16#7 (o.bits) rfl rfl (by
    show fields0 _ _ = _
    simp)

theorem ctz (o : Cr1Form) : Statement (.ctz o) :=
  of_slot 0x17#7 (o.bits) rfl rfl (by
    show fields0 _ _ = _
    simp)

theorem popc (o : Cr1Form) : Statement (.popc o) :=
  of_slot 0x18#7 (o.bits) rfl rfl (by
    show fields0 _ _ = _
    simp)

theorem sel (o : SelForm) : Statement (.sel o) :=
  of_slot 0x19#7 (o.bits) rfl rfl (by
    show fields0 _ _ = _
    simp)

theorem addi (o : CiForm) : Statement (.addi o) :=
  of_slot 0x20#7 (o.bits) rfl rfl (by
    show Except.ok _ = _
    simp)

theorem andi (o : CiForm) : Statement (.andi o) :=
  of_slot 0x21#7 (o.bits) rfl rfl (by
    show Except.ok _ = _
    simp)

theorem ori (o : CiForm) : Statement (.ori o) :=
  of_slot 0x22#7 (o.bits) rfl rfl (by
    show Except.ok _ = _
    simp)

theorem xori (o : CiForm) : Statement (.xori o) :=
  of_slot 0x23#7 (o.bits) rfl rfl (by
    show Except.ok _ = _
    simp)

theorem shli (o : CiForm) : Statement (.shli o) :=
  of_slot 0x24#7 (o.bits) rfl rfl (by
    show Except.ok _ = _
    simp)

theorem shri (o : CiForm) : Statement (.shri o) :=
  of_slot 0x25#7 (o.bits) rfl rfl (by
    show Except.ok _ = _
    simp)

theorem shrai (o : CiForm) : Statement (.shrai o) :=
  of_slot 0x26#7 (o.bits) rfl rfl (by
    show Except.ok _ = _
    simp)

theorem lih (o : LihForm) : Statement (.lih o) :=
  of_slot 0x27#7 (o.bits) rfl rfl (by
    show Except.ok _ = _
    simp)

theorem cmpeqi (o : CmpiForm) : Statement (.cmpeqi o) :=
  of_slot 0x28#7 (o.bits) rfl rfl (by
    show fields0 _ _ = _
    simp)

theorem cmplti (o : CmpiForm) : Statement (.cmplti o) :=
  of_slot 0x29#7 (o.bits) rfl rfl (by
    show fields0 _ _ = _
    simp)

theorem cmpltui (o : CmpiForm) : Statement (.cmpltui o) :=
  of_slot 0x2A#7 (o.bits) rfl rfl (by
    show fields0 _ _ = _
    simp)

theorem cmpeq (o : CmpForm) : Statement (.cmpeq o) :=
  of_slot 0x30#7 (o.bits) rfl rfl (by
    show fields0 _ _ = _
    simp)

theorem cmpne (o : CmpForm) : Statement (.cmpne o) :=
  of_slot 0x31#7 (o.bits) rfl rfl (by
    show fields0 _ _ = _
    simp)

theorem cmplt (o : CmpForm) : Statement (.cmplt o) :=
  of_slot 0x32#7 (o.bits) rfl rfl (by
    show fields0 _ _ = _
    simp)

theorem cmpltu (o : CmpForm) : Statement (.cmpltu o) :=
  of_slot 0x33#7 (o.bits) rfl rfl (by
    show fields0 _ _ = _
    simp)

theorem cmple (o : CmpForm) : Statement (.cmple o) :=
  of_slot 0x34#7 (o.bits) rfl rfl (by
    show fields0 _ _ = _
    simp)

theorem cmpleu (o : CmpForm) : Statement (.cmpleu o) :=
  of_slot 0x35#7 (o.bits) rfl rfl (by
    show fields0 _ _ = _
    simp)

theorem cand (o : CondForm) : Statement (.cand o) :=
  of_slot 0x36#7 (o.bits) rfl rfl (by
    show fields0 _ _ = _
    simp)

theorem cor (o : CondForm) : Statement (.cor o) :=
  of_slot 0x37#7 (o.bits) rfl rfl (by
    show fields0 _ _ = _
    simp)

theorem cxor (o : CondForm) : Statement (.cxor o) :=
  of_slot 0x38#7 (o.bits) rfl rfl (by
    show fields0 _ _ = _
    simp)

theorem lds (o : LdsForm) : Statement (.lds o) :=
  of_slot 0x40#7 (o.bits) rfl rfl (by
    show fields0 _ _ = _
    simp)

theorem sts (o : StsForm) : Statement (.sts o) :=
  of_slot 0x41#7 (o.bits) rfl rfl (by
    show fields0 _ _ = _
    simp)

theorem ldg (o : LdgForm) : Statement (.ldg o) :=
  of_slot 0x42#7 (o.bits) rfl rfl (by
    show Except.ok _ = _
    simp)

theorem stg (o : StgForm) : Statement (.stg o) :=
  of_slot 0x43#7 (o.bits) rfl rfl (by
    show fields0 _ _ = _
    simp)

theorem amoadd (o : AmoForm) : Statement (.amoadd o) :=
  of_slot 0x44#7 (o.bits) rfl rfl (by
    show Except.ok _ = _
    simp)

theorem amomin (o : AmoForm) : Statement (.amomin o) :=
  of_slot 0x45#7 (o.bits) rfl rfl (by
    show Except.ok _ = _
    simp)

theorem amomax (o : AmoForm) : Statement (.amomax o) :=
  of_slot 0x46#7 (o.bits) rfl rfl (by
    show Except.ok _ = _
    simp)

theorem amoand (o : AmoForm) : Statement (.amoand o) :=
  of_slot 0x47#7 (o.bits) rfl rfl (by
    show Except.ok _ = _
    simp)

theorem amoor (o : AmoForm) : Statement (.amoor o) :=
  of_slot 0x48#7 (o.bits) rfl rfl (by
    show Except.ok _ = _
    simp)

theorem amoxch (o : AmoForm) : Statement (.amoxch o) :=
  of_slot 0x49#7 (o.bits) rfl rfl (by
    show Except.ok _ = _
    simp)

theorem amocas (o : AmoForm) : Statement (.amocas o) :=
  of_slot 0x4A#7 (o.bits) rfl rfl (by
    show Except.ok _ = _
    simp)

theorem fence (scope : BitVec 2) (f : Bool) : Statement (.fence scope f) :=
  of_slot 0x4B#7 (0#22 ++ scope ++ BitVec.ofBool f) rfl rfl (by
    show fields0 _ _ = _
    simp)

theorem br (o : BrForm) : Statement (.br o) :=
  of_slot 0x50#7 (o.bits) rfl rfl (by
    show Except.ok _ = _
    simp)

theorem jmp (o : JmpForm) : Statement (.jmp o) :=
  of_slot 0x51#7 (o.bits) rfl rfl (by
    show fields0 _ _ = _
    simp)

theorem call (o : BrForm) : Statement (.call o) :=
  of_slot 0x52#7 (o.bits) rfl rfl (by
    show Except.ok _ = _
    simp)

theorem ret (o : RetForm) : Statement (.ret o) :=
  of_slot 0x53#7 (o.bits) rfl rfl (by
    show fields0 _ _ = _
    simp)

theorem loop (d : BitVec 5) (imm : BitVec 14) (f : Bool) : Statement (.loop d imm f) :=
  of_slot 0x54#7 (d ++ 0#5 ++ imm ++ BitVec.ofBool f) rfl rfl (by
    show fields0 _ _ = _
    simp)

theorem endTask (f : Bool) : Statement (.endTask f) :=
  of_slot 0x55#7 (0#24 ++ BitVec.ofBool f) rfl rfl (by
    show fields0 _ _ = _
    simp)

theorem rep (m : BitVec 6) (n : BitVec 6) (f : Bool) : Statement (.rep m n f) :=
  of_slot 0x56#7 (0#5 ++ 0#5 ++ 0#2 ++ m ++ n ++ BitVec.ofBool f) rfl rfl (by
    show fields0 _ _ = _
    simp)

theorem mark (e : BitVec 20) (f : Bool) : Statement (.mark e f) :=
  of_slot 0x57#7 (0#4 ++ e ++ BitVec.ofBool f) rfl rfl (by
    show fields0 _ _ = _
    simp)

theorem trap (imm : BitVec 14) (f : Bool) : Statement (.trap imm f) :=
  of_slot 0x58#7 (0#5 ++ 0#5 ++ imm ++ BitVec.ofBool f) rfl rfl (by
    show fields0 _ _ = _
    simp)

theorem tret (f : Bool) : Statement (.tret f) :=
  of_slot 0x59#7 (0#24 ++ BitVec.ofBool f) rfl rfl (by
    show fields0 _ _ = _
    simp)

theorem tfence (f : Bool) : Statement (.tfence f) :=
  of_slot 0x5A#7 (0#24 ++ BitVec.ofBool f) rfl rfl (by
    show fields0 _ _ = _
    simp)

theorem launch (o : CrForm) : Statement (.launch o) :=
  of_slot 0x5B#7 (o.bits) rfl rfl (by
    show fields0 _ _ = _
    simp)

theorem sfmt (o : RetForm) : Statement (.sfmt o) :=
  of_slot 0x60#7 (o.bits) rfl rfl (by
    show fields0 _ _ = _
    simp)

theorem mfc (r : BitVec 5) (x : BitVec 4) (c : BitVec 6) (f : Bool) : Statement (.mfc r x c f) :=
  of_slot 0x61#7 (r ++ 0#5 ++ 0#4 ++ x ++ c ++ BitVec.ofBool f) rfl rfl (by
    show fields0 _ _ = _
    simp)

theorem mtc (r : BitVec 5) (x : BitVec 4) (c : BitVec 6) (f : Bool) : Statement (.mtc r x c f) :=
  of_slot 0x62#7 (0#5 ++ r ++ 0#4 ++ x ++ c ++ BitVec.ofBool f) rfl rfl (by
    show fields0 _ _ = _
    simp)

theorem setvl (o : Cr1Form) : Statement (.setvl o) :=
  of_slot 0x63#7 (o.bits) rfl rfl (by
    show fields0 _ _ = _
    simp)

theorem setcm (r : Bool) (a : BitVec 5) (imm : BitVec 8) (f : Bool) : Statement (.setcm r a imm f) :=
  of_slot 0x64#7 (0#4 ++ BitVec.ofBool r ++ a ++ 0#6 ++ imm ++ BitVec.ofBool f) rfl rfl (by
    show fields0 _ _ = _
    simp)

theorem lovt (o : RetForm) : Statement (.lovt o) :=
  of_slot 0x70#7 (o.bits) rfl rfl (by
    show fields0 _ _ = _
    simp)

theorem tlbinv (o : JmpForm) : Statement (.tlbinv o) :=
  of_slot 0x71#7 (o.bits) rfl rfl (by
    show (if _ then fields0 _ _ else _) = _
    simp [JmpForm.bits, JmpForm.ofBits])

theorem tlbinvAsid (b : BitVec 5) (n : Bool) (q : BitVec 3) (f : Bool) : Statement (.tlbinvAsid b n q f) :=
  of_slot 0x71#7 (0#5 ++ 0#5 ++ b ++ 1#5 ++ BitVec.ofBool n ++ q ++ BitVec.ofBool f) rfl rfl (by
    show (if _ then fields0 _ _ else _) = _
    simp)

theorem tlbinvAll (n : Bool) (q : BitVec 3) (f : Bool) : Statement (.tlbinvAll n q f) :=
  of_slot 0x71#7 (0#5 ++ 0#5 ++ 0#5 ++ 2#5 ++ BitVec.ofBool n ++ q ++ BitVec.ofBool f) rfl rfl (by
    show (if _ then fields0 _ _ else _) = _
    simp)

theorem nopA : Statement (.nopA) :=
  of_slot 0x00#7 (0#25) rfl rfl (by
    rfl)

theorem vadd (o : AForm) : Statement (.vadd o) :=
  of_slot 0x01#7 (o.bits) rfl rfl (by
    show fields0 _ _ = _
    simp)

theorem vsub (o : AForm) : Statement (.vsub o) :=
  of_slot 0x02#7 (o.bits) rfl rfl (by
    show fields0 _ _ = _
    simp)

theorem vmul (o : AForm) : Statement (.vmul o) :=
  of_slot 0x03#7 (o.bits) rfl rfl (by
    show fields0 _ _ = _
    simp)

theorem vfma (o : AForm) : Statement (.vfma o) :=
  of_slot 0x04#7 (o.bits) rfl rfl (by
    show fields0 _ _ = _
    simp)

theorem vfms (o : AForm) : Statement (.vfms o) :=
  of_slot 0x05#7 (o.bits) rfl rfl (by
    show fields0 _ _ = _
    simp)

theorem vfnma (o : AForm) : Statement (.vfnma o) :=
  of_slot 0x06#7 (o.bits) rfl rfl (by
    show fields0 _ _ = _
    simp)

theorem vmin (o : AForm) : Statement (.vmin o) :=
  of_slot 0x07#7 (o.bits) rfl rfl (by
    show fields0 _ _ = _
    simp)

theorem vmax (o : AForm) : Statement (.vmax o) :=
  of_slot 0x08#7 (o.bits) rfl rfl (by
    show fields0 _ _ = _
    simp)

theorem vabs (o : A1Form) : Statement (.vabs o) :=
  of_slot 0x09#7 (o.bits) rfl rfl (by
    show fields0 _ _ = _
    simp)

theorem vneg (o : A1Form) : Statement (.vneg o) :=
  of_slot 0x0A#7 (o.bits) rfl rfl (by
    show fields0 _ _ = _
    simp)

theorem vdiv (o : AForm) : Statement (.vdiv o) :=
  of_slot 0x0B#7 (o.bits) rfl rfl (by
    show fields0 _ _ = _
    simp)

theorem vsqrt (o : A1Form) (p : Bool) : Statement (.vsqrt o p) :=
  of_slot 0x0C#7 (o.d ++ o.a ++ 0#5 ++ o.k ++ o.cl ++ BitVec.ofBool o.z ++ 0#1 ++ 0#2 ++ BitVec.ofBool p) rfl rfl (by
    show fields0 _ _ = _
    simp)

theorem vrsq (o : A1Form) (p : Bool) : Statement (.vrsq o p) :=
  of_slot 0x0D#7 (o.d ++ o.a ++ 0#5 ++ o.k ++ o.cl ++ BitVec.ofBool o.z ++ 0#1 ++ 0#2 ++ BitVec.ofBool p) rfl rfl (by
    show fields0 _ _ = _
    simp)

theorem vrcp (o : A1Form) : Statement (.vrcp o) :=
  of_slot 0x0E#7 (o.bits) rfl rfl (by
    show fields0 _ _ = _
    simp)

theorem vexp (o : A1Form) : Statement (.vexp o) :=
  of_slot 0x0F#7 (o.bits) rfl rfl (by
    show fields0 _ _ = _
    simp)

theorem vlog (o : A1Form) : Statement (.vlog o) :=
  of_slot 0x10#7 (o.bits) rfl rfl (by
    show fields0 _ _ = _
    simp)

theorem vsin (o : A1Form) : Statement (.vsin o) :=
  of_slot 0x11#7 (o.bits) rfl rfl (by
    show fields0 _ _ = _
    simp)

theorem vcos (o : A1Form) : Statement (.vcos o) :=
  of_slot 0x12#7 (o.bits) rfl rfl (by
    show fields0 _ _ = _
    simp)

theorem vtanh (o : A1Form) : Statement (.vtanh o) :=
  of_slot 0x13#7 (o.bits) rfl rfl (by
    show fields0 _ _ = _
    simp)

theorem vrint (o : A1Form) (x : BitVec 3) : Statement (.vrint o x) :=
  of_slot 0x14#7 (o.d ++ o.a ++ 0#5 ++ o.k ++ o.cl ++ BitVec.ofBool o.z ++ 0#1 ++ x) rfl rfl (by
    show fields0 _ _ = _
    simp)

theorem viadd (o : AForm) : Statement (.viadd o) :=
  of_slot 0x20#7 (o.bits) rfl rfl (by
    show fields0 _ _ = _
    simp)

theorem visub (o : AForm) : Statement (.visub o) :=
  of_slot 0x21#7 (o.bits) rfl rfl (by
    show fields0 _ _ = _
    simp)

theorem vimul (o : AForm) : Statement (.vimul o) :=
  of_slot 0x22#7 (o.bits) rfl rfl (by
    show fields0 _ _ = _
    simp)

theorem vimulh (o : AForm) : Statement (.vimulh o) :=
  of_slot 0x23#7 (o.bits) rfl rfl (by
    show fields0 _ _ = _
    simp)

theorem vimin (o : AForm) : Statement (.vimin o) :=
  of_slot 0x24#7 (o.bits) rfl rfl (by
    show fields0 _ _ = _
    simp)

theorem vimax (o : AForm) : Statement (.vimax o) :=
  of_slot 0x25#7 (o.bits) rfl rfl (by
    show fields0 _ _ = _
    simp)

theorem viminu (o : AForm) : Statement (.viminu o) :=
  of_slot 0x26#7 (o.bits) rfl rfl (by
    show fields0 _ _ = _
    simp)

theorem vimaxu (o : AForm) : Statement (.vimaxu o) :=
  of_slot 0x27#7 (o.bits) rfl rfl (by
    show fields0 _ _ = _
    simp)

theorem vand (o : AForm) : Statement (.vand o) :=
  of_slot 0x28#7 (o.bits) rfl rfl (by
    show fields0 _ _ = _
    simp)

theorem vor (o : AForm) : Statement (.vor o) :=
  of_slot 0x29#7 (o.bits) rfl rfl (by
    show fields0 _ _ = _
    simp)

theorem vxor (o : AForm) : Statement (.vxor o) :=
  of_slot 0x2A#7 (o.bits) rfl rfl (by
    show fields0 _ _ = _
    simp)

theorem vshl (o : AForm) : Statement (.vshl o) :=
  of_slot 0x2B#7 (o.bits) rfl rfl (by
    show fields0 _ _ = _
    simp)

theorem vshr (o : AForm) : Statement (.vshr o) :=
  of_slot 0x2C#7 (o.bits) rfl rfl (by
    show fields0 _ _ = _
    simp)

theorem vshra (o : AForm) : Statement (.vshra o) :=
  of_slot 0x2D#7 (o.bits) rfl rfl (by
    show fields0 _ _ = _
    simp)

theorem viabs (o : A1Form) : Statement (.viabs o) :=
  of_slot 0x2E#7 (o.bits) rfl rfl (by
    show fields0 _ _ = _
    simp)

theorem vcmp (o : VcmpForm) : Statement (.vcmp o) :=
  of_slot 0x30#7 (o.bits) rfl rfl (by
    show fields0 _ _ = _
    simp)

theorem vicmp (o : VcmpForm) : Statement (.vicmp o) :=
  of_slot 0x31#7 (o.bits) rfl rfl (by
    show fields0 _ _ = _
    simp)

theorem kand (o : KForm) : Statement (.kand o) :=
  of_slot 0x38#7 (o.bits) rfl rfl (by
    show fields0 _ _ = _
    simp)

theorem kor (o : KForm) : Statement (.kor o) :=
  of_slot 0x39#7 (o.bits) rfl rfl (by
    show fields0 _ _ = _
    simp)

theorem kxor (o : KForm) : Statement (.kxor o) :=
  of_slot 0x3A#7 (o.bits) rfl rfl (by
    show fields0 _ _ = _
    simp)

theorem knot (d : BitVec 3) (a : BitVec 3) (cl : BitVec 2) : Statement (.knot d a cl) :=
  of_slot 0x3B#7 (0#2 ++ d ++ 0#2 ++ a ++ 0#5 ++ 0#3 ++ cl ++ 0#5) rfl rfl (by
    show fields0 _ _ = _
    simp)

theorem kfirst (d : BitVec 3) (a : BitVec 3) (cl : BitVec 2) : Statement (.kfirst d a cl) :=
  of_slot 0x3C#7 (0#2 ++ d ++ 0#2 ++ a ++ 0#5 ++ 0#3 ++ cl ++ 0#5) rfl rfl (by
    show fields0 _ _ = _
    simp)

theorem kcnt (d : BitVec 5) (a : BitVec 3) (cl : BitVec 2) : Statement (.kcnt d a cl) :=
  of_slot 0x3D#7 (d ++ 0#2 ++ a ++ 0#5 ++ 0#3 ++ cl ++ 0#5) rfl rfl (by
    show fields0 _ _ = _
    simp)

theorem vsel (o : VselForm) : Statement (.vsel o) :=
  of_slot 0x40#7 (o.bits) rfl rfl (by
    show fields0 _ _ = _
    simp)

theorem vcoal (o : A1Form) (p : Bool) : Statement (.vcoal o p) :=
  of_slot 0x48#7 (o.d ++ o.a ++ 0#5 ++ o.k ++ o.cl ++ BitVec.ofBool o.z ++ 0#1 ++ 0#2 ++ BitVec.ofBool p) rfl rfl (by
    show fields0 _ _ = _
    simp)

theorem vcoalq (o : V3Form) (i : Bool) : Statement (.vcoalq o i) :=
  of_slot 0x49#7 (o.d ++ o.a ++ o.b ++ 0#3 ++ o.cl ++ 0#1 ++ 1#1 ++ 0#2 ++ BitVec.ofBool i) rfl rfl (by
    show fields0 _ _ = _
    simp)

theorem vrlset (o : V3Form) : Statement (.vrlset o) :=
  of_slot 0x4A#7 (o.d ++ o.a ++ o.b ++ 0#3 ++ o.cl ++ 0#1 ++ 1#1 ++ 0#3) rfl rfl (by
    show fields0 _ _ = _
    simp)

theorem vsplat (d : BitVec 5) (b : BitVec 5) (cl : BitVec 2) : Statement (.vsplat d b cl) :=
  of_slot 0x4B#7 (d ++ 0#5 ++ b ++ 0#3 ++ cl ++ 0#1 ++ 1#1 ++ 0#3) rfl rfl (by
    show fields0 _ _ = _
    simp)

theorem vruns (d : BitVec 5) (a : BitVec 5) (cl : BitVec 2) : Statement (.vruns d a cl) :=
  of_slot 0x4C#7 (d ++ a ++ 0#5 ++ 0#3 ++ cl ++ 0#1 ++ 0#1 ++ 0#3) rfl rfl (by
    show (if _ then fields0 _ _ else _) = _
    simp)

theorem vrunsK (d : BitVec 5) (a : BitVec 3) (cl : BitVec 2) : Statement (.vrunsK d a cl) :=
  of_slot 0x4C#7 (d ++ 0#2 ++ a ++ 0#5 ++ 0#3 ++ cl ++ 0#1 ++ 0#1 ++ 1#3) rfl rfl (by
    show (if _ then fields0 _ _ else _) = _
    simp)

theorem vlen (d : BitVec 5) (a : BitVec 5) (cl : BitVec 2) : Statement (.vlen d a cl) :=
  of_slot 0x4D#7 (d ++ a ++ 0#5 ++ 0#3 ++ cl ++ 0#1 ++ 0#1 ++ 0#3) rfl rfl (by
    show (if _ then fields0 _ _ else _) = _
    simp)

theorem vlenK (d : BitVec 5) (a : BitVec 3) (cl : BitVec 2) : Statement (.vlenK d a cl) :=
  of_slot 0x4D#7 (d ++ 0#2 ++ a ++ 0#5 ++ 0#3 ++ cl ++ 0#1 ++ 0#1 ++ 1#3) rfl rfl (by
    show (if _ then fields0 _ _ else _) = _
    simp)

theorem vtrim (o : V3Form) : Statement (.vtrim o) :=
  of_slot 0x4E#7 (o.d ++ o.a ++ o.b ++ 0#3 ++ o.cl ++ 0#1 ++ 1#1 ++ 0#3) rfl rfl (by
    show (if _ then fields0 _ _ else _) = _
    simp)

theorem vtrimDrop (o : V3Form) : Statement (.vtrimDrop o) :=
  of_slot 0x4E#7 (o.d ++ o.a ++ o.b ++ 0#3 ++ o.cl ++ 0#1 ++ 1#1 ++ 1#3) rfl rfl (by
    show (if _ then fields0 _ _ else _) = _
    simp)

theorem vcat (o : V3Form) : Statement (.vcat o) :=
  of_slot 0x4F#7 (o.bits) rfl rfl (by
    show fields0 _ _ = _
    simp)

theorem vrsum (o : RedForm) : Statement (.vrsum o) :=
  of_slot 0x58#7 (o.bits) rfl rfl (by
    show fields0 _ _ = _
    simp)

theorem vrmax (o : RedForm) : Statement (.vrmax o) :=
  of_slot 0x59#7 (o.bits) rfl rfl (by
    show fields0 _ _ = _
    simp)

theorem vrmin (o : RedForm) : Statement (.vrmin o) :=
  of_slot 0x5A#7 (o.bits) rfl rfl (by
    show fields0 _ _ = _
    simp)

theorem vrisum (o : RedForm) : Statement (.vrisum o) :=
  of_slot 0x5B#7 (o.bits) rfl rfl (by
    show fields0 _ _ = _
    simp)

theorem vrimax (o : RedForm) : Statement (.vrimax o) :=
  of_slot 0x5C#7 (o.bits) rfl rfl (by
    show fields0 _ _ = _
    simp)

theorem vrimin (o : RedForm) : Statement (.vrimin o) :=
  of_slot 0x5D#7 (o.bits) rfl rfl (by
    show fields0 _ _ = _
    simp)

theorem vdot (o : RedForm) (b : BitVec 5) : Statement (.vdot o b) :=
  of_slot 0x5E#7 (o.d ++ o.a ++ b ++ o.k ++ o.cl ++ 0#2 ++ 0#2 ++ BitVec.ofBool o.t) rfl rfl (by
    show fields0 _ _ = _
    simp)

theorem nopB : Statement (.nopB) :=
  of_slot 0x00#7 (0#25) rfl rfl (by
    rfl)

theorem vld (o : BMemForm) : Statement (.vld o) :=
  of_slot 0x01#7 (o.bits) rfl rfl (by
    show Except.ok _ = _
    simp)

theorem vst (o : BMemForm) : Statement (.vst o) :=
  of_slot 0x02#7 (o.bits) rfl rfl (by
    show Except.ok _ = _
    simp)

theorem vlds (o : BMemForm) : Statement (.vlds o) :=
  of_slot 0x03#7 (o.bits) rfl rfl (by
    show Except.ok _ = _
    simp)

theorem vsts (o : BMemForm) : Statement (.vsts o) :=
  of_slot 0x04#7 (o.bits) rfl rfl (by
    show Except.ok _ = _
    simp)

theorem vldx (o : BMemForm) : Statement (.vldx o) :=
  of_slot 0x05#7 (o.bits) rfl rfl (by
    show Except.ok _ = _
    simp)

theorem vstx (o : BMemForm) : Statement (.vstx o) :=
  of_slot 0x06#7 (o.bits) rfl rfl (by
    show Except.ok _ = _
    simp)

theorem vldrl (d : BitVec 5) (k : BitVec 3) (cl : BitVec 2) (fe : BitVec 2) (y : BitVec 2) : Statement (.vldrl d k cl fe y) :=
  of_slot 0x07#7 (d ++ 0#5 ++ 0#5 ++ k ++ cl ++ 0#1 ++ fe ++ y) rfl rfl (by
    show fields0 _ _ = _
    simp)

theorem vstrl (d : BitVec 5) (cl : BitVec 2) (fe : Bool) (y : BitVec 2) : Statement (.vstrl d cl fe y) :=
  of_slot 0x08#7 (d ++ 0#5 ++ 0#5 ++ 0#3 ++ cl ++ 0#2 ++ BitVec.ofBool fe ++ y) rfl rfl (by
    show fields0 _ _ = _
    simp)

theorem kld (o : KmForm) : Statement (.kld o) :=
  of_slot 0x09#7 (o.bits) rfl rfl (by
    show fields0 _ _ = _
    simp)

theorem kst (o : KmForm) : Statement (.kst o) :=
  of_slot 0x0A#7 (o.bits) rfl rfl (by
    show fields0 _ _ = _
    simp)

theorem vcur (a : BitVec 5) (b : BitVec 5) (cl : BitVec 2) (y : BitVec 2) : Statement (.vcur a b cl y) :=
  of_slot 0x0B#7 (0#5 ++ a ++ b ++ 0#3 ++ cl ++ 0#3 ++ y) rfl rfl (by
    show fields0 _ _ = _
    simp)

theorem vrd (o : RowForm) : Statement (.vrd o) :=
  of_slot 0x10#7 (o.bits) rfl rfl (by
    show fields0 _ _ = _
    simp)

theorem vwr (o : RowForm) : Statement (.vwr o) :=
  of_slot 0x11#7 (o.bits) rfl rfl (by
    show fields0 _ _ = _
    simp)

theorem vmov (o : MovForm) : Statement (.vmov o) :=
  of_slot 0x18#7 (o.bits) rfl rfl (by
    show fields0 _ _ = _
    simp)

theorem vmvs (d : BitVec 5) (a : BitVec 5) (k : BitVec 3) (cl : BitVec 2) : Statement (.vmvs d a k cl) :=
  of_slot 0x19#7 (d ++ a ++ 0#5 ++ k ++ cl ++ 0#5) rfl rfl (by
    show fields0 _ _ = _
    simp)

theorem vmvx (d : BitVec 5) (a : BitVec 5) (v : BitVec 5) (cl : BitVec 2) : Statement (.vmvx d a v cl) :=
  of_slot 0x1A#7 (d ++ a ++ 0#5 ++ 0#3 ++ cl ++ v) rfl rfl (by
    show fields0 _ _ = _
    simp)

theorem vxc (o : MovForm) (a : BitVec 5) : Statement (.vxc o a) :=
  of_slot 0x1B#7 (o.d ++ a ++ 0#5 ++ o.k ++ o.cl ++ o.v) rfl rfl (by
    show fields0 _ _ = _
    simp)

theorem vslide (o : MovForm) (a : BitVec 5) : Statement (.vslide o a) :=
  of_slot 0x1C#7 (o.d ++ a ++ 0#5 ++ o.k ++ o.cl ++ o.v) rfl rfl (by
    show fields0 _ _ = _
    simp)

theorem vrev (o : MovForm) : Statement (.vrev o) :=
  of_slot 0x1D#7 (o.bits) rfl rfl (by
    show fields0 _ _ = _
    simp)

theorem vcvt (o : MovForm) : Statement (.vcvt o) :=
  of_slot 0x20#7 (o.bits) rfl rfl (by
    show fields0 _ _ = _
    simp)

theorem vclass (o : MovForm) : Statement (.vclass o) :=
  of_slot 0x22#7 (o.bits) rfl rfl (by
    show fields0 _ _ = _
    simp)

theorem twr (o : TForm) : Statement (.twr o) :=
  of_slot 0x28#7 (o.bits) rfl rfl (by
    show fields0 _ _ = _
    simp)

theorem trc (o : TForm) : Statement (.trc o) :=
  of_slot 0x29#7 (o.bits) rfl rfl (by
    show fields0 _ _ = _
    simp)

theorem trr (o : TForm) : Statement (.trr o) :=
  of_slot 0x2A#7 (o.bits) rfl rfl (by
    show fields0 _ _ = _
    simp)

theorem tclr (cl : BitVec 2) (t : BitVec 2) : Statement (.tclr cl t) :=
  of_slot 0x2B#7 (0#5 ++ 0#5 ++ 0#5 ++ 0#3 ++ cl ++ 0#3 ++ t) rfl rfl (by
    show fields0 _ _ = _
    simp)

theorem vshift (o : ShiftForm) : Statement (.vshift o) :=
  of_slot 0x30#7 (o.bits) rfl rfl (by
    show fields0 _ _ = _
    simp)

theorem nopE : Statement (.nopE) :=
  of_slot 0x00#7 (0#25) rfl rfl (by
    rfl)

theorem eset (e : BitVec 5) (a : BitVec 5) (i : BitVec 5) : Statement (.eset e a i) :=
  of_slot 0x01#7 (e ++ a ++ 0#5 ++ 0#5 ++ i) rfl rfl (by
    show fields0 _ _ = _
    simp)

theorem eget (e : BitVec 5) (a : BitVec 5) (i : BitVec 5) : Statement (.eget e a i) :=
  of_slot 0x02#7 (e ++ a ++ 0#5 ++ 0#5 ++ i) rfl rfl (by
    show fields0 _ _ = _
    simp)

theorem ewait (e : BitVec 5) (n : BitVec 3) : Statement (.ewait e n) :=
  of_slot 0x03#7 (e ++ 0#5 ++ 0#5 ++ 0#7 ++ n) rfl rfl (by
    show fields0 _ _ = _
    simp)

theorem wopen (h : BitVec 4) : Statement (.wopen h) :=
  of_slot 0x08#7 (0#1 ++ h ++ 0#5 ++ 0#5 ++ 0#10) rfl rfl (by
    show (if _ then fields0 _ _ else _) = _
    simp)

theorem wopenBind (h : BitVec 4) : Statement (.wopenBind h) :=
  of_slot 0x08#7 (0#1 ++ h ++ 0#5 ++ 0#5 ++ 1#10) rfl rfl (by
    show (if _ then fields0 _ _ else _) = _
    simp)

theorem wopenKeep (h : BitVec 4) : Statement (.wopenKeep h) :=
  of_slot 0x08#7 (0#1 ++ h ++ 0#5 ++ 0#5 ++ 2#10) rfl rfl (by
    show (if _ then fields0 _ _ else _) = _
    simp)

theorem wadv (h : BitVec 4) (a : BitVec 5) : Statement (.wadv h a) :=
  of_slot 0x09#7 (0#1 ++ h ++ a ++ 0#5 ++ 0#10) rfl rfl (by
    show fields0 _ _ = _
    simp)

theorem wwait (h : BitVec 4) (a : BitVec 5) : Statement (.wwait h a) :=
  of_slot 0x0A#7 (0#1 ++ h ++ a ++ 0#5 ++ 0#10) rfl rfl (by
    show (if _ then fields0 _ _ else _) = _
    simp)

theorem wwaitDone (h : BitVec 4) : Statement (.wwaitDone h) :=
  of_slot 0x0A#7 (0#1 ++ h ++ 0#5 ++ 0#5 ++ 1#10) rfl rfl (by
    show (if _ then fields0 _ _ else _) = _
    simp)

theorem wclose (h : BitVec 4) : Statement (.wclose h) :=
  of_slot 0x0B#7 (0#1 ++ h ++ 0#5 ++ 0#5 ++ 0#10) rfl rfl (by
    show fields0 _ _ = _
    simp)

theorem rstat (h : BitVec 4) (a : BitVec 5) : Statement (.rstat h a) :=
  of_slot 0x0C#7 (0#1 ++ h ++ a ++ 0#5 ++ 0#10) rfl rfl (by
    show fields0 _ _ = _
    simp)

theorem wflush (h : BitVec 4) : Statement (.wflush h) :=
  of_slot 0x0D#7 (0#1 ++ h ++ 0#5 ++ 0#5 ++ 0#10) rfl rfl (by
    show fields0 _ _ = _
    simp)

theorem bcfill : Statement (.bcfill) :=
  of_slot 0x10#7 (0#5 ++ 0#5 ++ 0#5 ++ 0#5 ++ 0#1 ++ 0#4) rfl rfl (by
    rfl)

theorem bcfillRing (h : BitVec 4) : Statement (.bcfillRing h) :=
  of_slot 0x10#7 (0#5 ++ 0#5 ++ 0#5 ++ 0#5 ++ 1#1 ++ h) rfl rfl (by
    show (if _ then fields0 _ _ else _) = _
    simp)

theorem bcwait (a : BitVec 5) : Statement (.bcwait a) :=
  of_slot 0x11#7 (0#5 ++ a ++ 0#5 ++ 0#10) rfl rfl (by
    show (if _ then fields0 _ _ else _) = _
    simp)

theorem bcwaitAll : Statement (.bcwaitAll) :=
  of_slot 0x11#7 (0#5 ++ 0#5 ++ 0#5 ++ 1#10) rfl rfl (by
    rfl)

theorem mma (bank : Bool) : Statement (.mma bank) :=
  of_slot 0x18#7 (0#4 ++ BitVec.ofBool bank ++ 0#5 ++ 0#5 ++ 0#10) rfl rfl (by
    show fields0 _ _ = _
    simp)

theorem mmv (bank : Bool) : Statement (.mmv bank) :=
  of_slot 0x19#7 (0#4 ++ BitVec.ofBool bank ++ 0#5 ++ 0#5 ++ 0#10) rfl rfl (by
    show fields0 _ _ = _
    simp)

theorem mldb : Statement (.mldb) :=
  of_slot 0x1A#7 (0#5 ++ 0#5 ++ 0#5 ++ 0#10) rfl rfl (by
    rfl)

theorem mdrain (bank : Bool) : Statement (.mdrain bank) :=
  of_slot 0x1B#7 (0#4 ++ BitVec.ofBool bank ++ 0#5 ++ 0#5 ++ 0#10) rfl rfl (by
    show fields0 _ _ = _
    simp)

theorem mswap : Statement (.mswap) :=
  of_slot 0x1C#7 (0#5 ++ 0#5 ++ 0#5 ++ 0#10) rfl rfl (by
    rfl)

theorem mclr (bank : Bool) (q : BitVec 2) : Statement (.mclr bank q) :=
  of_slot 0x1D#7 (0#4 ++ BitVec.ofBool bank ++ 0#5 ++ 0#5 ++ 0#8 ++ q) rfl rfl (by
    show fields0 _ _ = _
    simp)

theorem mflags (bank : Bool) (a : BitVec 5) (c : Bool) : Statement (.mflags bank a c) :=
  of_slot 0x1E#7 (0#4 ++ BitVec.ofBool bank ++ a ++ 0#5 ++ 0#9 ++ BitVec.ofBool c) rfl rfl (by
    show fields0 _ _ = _
    simp)

theorem xsend (h : BitVec 4) (a : BitVec 5) (b : BitVec 5) : Statement (.xsend h a b) :=
  of_slot 0x20#7 (0#1 ++ h ++ a ++ b ++ 0#10) rfl rfl (by
    show fields0 _ _ = _
    simp)

theorem xwr (a : BitVec 5) (b : BitVec 5) (m : BitVec 3) (l : BitVec 3) : Statement (.xwr a b m l) :=
  of_slot 0x21#7 (0#5 ++ a ++ b ++ 0#4 ++ m ++ l) rfl rfl (by
    show fields0 _ _ = _
    simp)

theorem xrd (a : BitVec 5) (b : BitVec 5) (m : BitVec 3) (l : BitVec 3) : Statement (.xrd a b m l) :=
  of_slot 0x22#7 (0#5 ++ a ++ b ++ 0#4 ++ m ++ l) rfl rfl (by
    show fields0 _ _ = _
    simp)

theorem xbar : Statement (.xbar) :=
  of_slot 0x23#7 (0#5 ++ 0#5 ++ 0#5 ++ 0#10) rfl rfl (by
    rfl)

theorem xbarRow : Statement (.xbarRow) :=
  of_slot 0x23#7 (0#5 ++ 0#5 ++ 0#5 ++ 1#10) rfl rfl (by
    rfl)

theorem xbarCol : Statement (.xbarCol) :=
  of_slot 0x23#7 (0#5 ++ 0#5 ++ 0#5 ++ 2#10) rfl rfl (by
    rfl)

theorem dcopy : Statement (.dcopy) :=
  of_slot 0x28#7 (0#5 ++ 0#5 ++ 0#5 ++ 0#10) rfl rfl (by
    rfl)

theorem dcopyMt : Statement (.dcopyMt) :=
  of_slot 0x28#7 (0#5 ++ 0#5 ++ 0#5 ++ 1#10) rfl rfl (by
    rfl)

theorem dcopyTm : Statement (.dcopyTm) :=
  of_slot 0x28#7 (0#5 ++ 0#5 ++ 0#5 ++ 2#10) rfl rfl (by
    rfl)

theorem dpub (a : BitVec 5) (b : BitVec 5) (n : BitVec 6) : Statement (.dpub a b n) :=
  of_slot 0x29#7 (0#5 ++ a ++ b ++ 0#4 ++ n) rfl rfl (by
    show fields0 _ _ = _
    simp)

theorem dwait : Statement (.dwait) :=
  of_slot 0x2A#7 (0#5 ++ 0#5 ++ 0#5 ++ 0#10) rfl rfl (by
    rfl)

theorem fload : Statement (.fload) :=
  of_slot 0x30#7 (0#5 ++ 0#5 ++ 0#5 ++ 0#10) rfl rfl (by
    rfl)

theorem fbind : Statement (.fbind) :=
  of_slot 0x31#7 (0#5 ++ 0#5 ++ 0#5 ++ 0#10) rfl rfl (by
    rfl)

theorem fstat (a : BitVec 5) : Statement (.fstat a) :=
  of_slot 0x32#7 (0#5 ++ a ++ 0#5 ++ 0#10) rfl rfl (by
    show fields0 _ _ = _
    simp)

theorem nbcmd (a : BitVec 5) (b : BitVec 5) : Statement (.nbcmd a b) :=
  of_slot 0x38#7 (0#5 ++ a ++ b ++ 0#10) rfl rfl (by
    show fields0 _ _ = _
    simp)

theorem nbpoll (a : BitVec 5) (b : BitVec 5) : Statement (.nbpoll a b) :=
  of_slot 0x39#7 (0#5 ++ a ++ b ++ 0#10) rfl rfl (by
    show fields0 _ _ = _
    simp)

theorem nbfence : Statement (.nbfence) :=
  of_slot 0x3A#7 (0#5 ++ 0#5 ++ 0#5 ++ 0#10) rfl rfl (by
    rfl)

theorem hsig (a : BitVec 5) (b : BitVec 5) (v : BitVec 10) : Statement (.hsig a b v) :=
  of_slot 0x40#7 (0#5 ++ a ++ b ++ v) rfl rfl (by
    show fields0 _ _ = _
    simp)

theorem trace (a : BitVec 5) (b : BitVec 5) (v : BitVec 10) : Statement (.trace a b v) :=
  of_slot 0x41#7 (0#5 ++ a ++ b ++ v) rfl rfl (by
    show fields0 _ _ = _
    simp)

theorem snap (c : BitVec 8) : Statement (.snap c) :=
  of_slot 0x42#7 (0#5 ++ 0#5 ++ 0#5 ++ 0#2 ++ c) rfl rfl (by
    show fields0 _ _ = _
    simp)

theorem refdefer (a : BitVec 5) : Statement (.refdefer a) :=
  of_slot 0x48#7 (0#5 ++ a ++ 0#5 ++ 0#10) rfl rfl (by
    show fields0 _ _ = _
    simp)

theorem refnow (a : BitVec 5) : Statement (.refnow a) :=
  of_slot 0x49#7 (0#5 ++ a ++ 0#5 ++ 0#10) rfl rfl (by
    show (if _ then fields0 _ _ else _) = _
    simp)

theorem refnowAll : Statement (.refnowAll) :=
  of_slot 0x49#7 (0#5 ++ 0#5 ++ 0#5 ++ 1#10) rfl rfl (by
    rfl)

theorem nbEnd : Statement (.nbEnd) := by
  intro h _
  have e : microWord (encodeWord (.nbEnd)) = .ok (.nbEnd) := by
    show microWord (0#32) = _
    simp [microWord]
  show (checked (microWord (encodeWord (.nbEnd)))).toOption = _
  rw [e, checked_ok h]; rfl

theorem loadacc (o : MicroForm) : Statement (.loadacc o) := by
  intro h _
  have e : microWord (encodeWord (.loadacc o)) = .ok (.loadacc o) := by
    show microWord (1#3 ++ o.acc ++ 0#1 ++ o.rsel ++ o.off) = _
    simp [microWord]
  show (checked (microWord (encodeWord (.loadacc o)))).toOption = _
  rw [e, checked_ok h]; rfl

theorem accop (o : MicroForm) : Statement (.accop o) := by
  intro h _
  have e : microWord (encodeWord (.accop o)) = .ok (.accop o) := by
    show microWord (2#3 ++ o.acc ++ 0#1 ++ o.rsel ++ o.off) = _
    simp [microWord]
  show (checked (microWord (encodeWord (.accop o)))).toOption = _
  rw [e, checked_ok h]; rfl

theorem sacc (o : MicroForm) : Statement (.sacc o) := by
  intro h _
  have e : microWord (encodeWord (.sacc o)) = .ok (.sacc o) := by
    show microWord (3#3 ++ o.acc ++ 0#1 ++ o.rsel ++ o.off) = _
    simp [microWord]
  show (checked (microWord (encodeWord (.sacc o)))).toOption = _
  rw [e, checked_ok h]; rfl

theorem nbStore (o : MicroForm) : Statement (.nbStore o) := by
  intro h _
  have e : microWord (encodeWord (.nbStore o)) = .ok (.nbStore o) := by
    show microWord (4#3 ++ o.acc ++ 0#1 ++ o.rsel ++ o.off) = _
    simp [microWord]
  show (checked (microWord (encodeWord (.nbStore o)))).toOption = _
  rw [e, checked_ok h]; rfl

theorem nbClear (acc : BitVec 2) : Statement (.nbClear acc) := by
  intro h _
  have e : microWord (encodeWord (.nbClear acc)) = .ok (.nbClear acc) := by
    show microWord (5#3 ++ acc ++ 0#27) = _
    simp [microWord]
  show (checked (microWord (encodeWord (.nbClear acc)))).toOption = _
  rw [e, checked_ok h]; rfl

theorem minmax (o : MicroForm) : Statement (.minmax o) := by
  intro h _
  have e : microWord (encodeWord (.minmax o)) = .ok (.minmax o) := by
    show microWord (6#3 ++ o.acc ++ 0#1 ++ o.rsel ++ o.off) = _
    simp [microWord]
  show (checked (microWord (encodeWord (.minmax o)))).toOption = _
  rw [e, checked_ok h]; rfl

theorem fltLdf (d : BitVec 3) (off : BitVec 32) : Statement (.fltLdf d off) := by
  intro h _
  have e : filterWord (encodeFilter (.fltLdf d off)) = .ok (.fltLdf d off) := by
    show filterWord (0x01#8 ++ d ++ 0#21 ++ off) = _
    simp [filterWord]
  show (checked (filterWord ((encodeFilter (.fltLdf d off)).extractLsb' 32 32 ++ (encodeFilter (.fltLdf d off)).extractLsb' 0 32))).toOption = _
  rw [join_halves, e, checked_ok h]; rfl

theorem fltLdi (d : BitVec 3) (imm : BitVec 32) : Statement (.fltLdi d imm) := by
  intro h _
  have e : filterWord (encodeFilter (.fltLdi d imm)) = .ok (.fltLdi d imm) := by
    show filterWord (0x02#8 ++ d ++ 0#21 ++ imm) = _
    simp [filterWord]
  show (checked (filterWord ((encodeFilter (.fltLdi d imm)).extractLsb' 32 32 ++ (encodeFilter (.fltLdi d imm)).extractLsb' 0 32))).toOption = _
  rw [join_halves, e, checked_ok h]; rfl

theorem fltAdd (d : BitVec 3) (a : BitVec 3) (b : BitVec 3) : Statement (.fltAdd d a b) := by
  intro h _
  have e : filterWord (encodeFilter (.fltAdd d a b)) = .ok (.fltAdd d a b) := by
    show filterWord (0x03#8 ++ d ++ a ++ b ++ 0#47) = _
    simp [filterWord]
  show (checked (filterWord ((encodeFilter (.fltAdd d a b)).extractLsb' 32 32 ++ (encodeFilter (.fltAdd d a b)).extractLsb' 0 32))).toOption = _
  rw [join_halves, e, checked_ok h]; rfl

theorem fltSub (d : BitVec 3) (a : BitVec 3) (b : BitVec 3) : Statement (.fltSub d a b) := by
  intro h _
  have e : filterWord (encodeFilter (.fltSub d a b)) = .ok (.fltSub d a b) := by
    show filterWord (0x04#8 ++ d ++ a ++ b ++ 0#47) = _
    simp [filterWord]
  show (checked (filterWord ((encodeFilter (.fltSub d a b)).extractLsb' 32 32 ++ (encodeFilter (.fltSub d a b)).extractLsb' 0 32))).toOption = _
  rw [join_halves, e, checked_ok h]; rfl

theorem fltAnd (d : BitVec 3) (a : BitVec 3) (b : BitVec 3) : Statement (.fltAnd d a b) := by
  intro h _
  have e : filterWord (encodeFilter (.fltAnd d a b)) = .ok (.fltAnd d a b) := by
    show filterWord (0x05#8 ++ d ++ a ++ b ++ 0#47) = _
    simp [filterWord]
  show (checked (filterWord ((encodeFilter (.fltAnd d a b)).extractLsb' 32 32 ++ (encodeFilter (.fltAnd d a b)).extractLsb' 0 32))).toOption = _
  rw [join_halves, e, checked_ok h]; rfl

theorem fltOr (d : BitVec 3) (a : BitVec 3) (b : BitVec 3) : Statement (.fltOr d a b) := by
  intro h _
  have e : filterWord (encodeFilter (.fltOr d a b)) = .ok (.fltOr d a b) := by
    show filterWord (0x06#8 ++ d ++ a ++ b ++ 0#47) = _
    simp [filterWord]
  show (checked (filterWord ((encodeFilter (.fltOr d a b)).extractLsb' 32 32 ++ (encodeFilter (.fltOr d a b)).extractLsb' 0 32))).toOption = _
  rw [join_halves, e, checked_ok h]; rfl

theorem fltXor (d : BitVec 3) (a : BitVec 3) (b : BitVec 3) : Statement (.fltXor d a b) := by
  intro h _
  have e : filterWord (encodeFilter (.fltXor d a b)) = .ok (.fltXor d a b) := by
    show filterWord (0x07#8 ++ d ++ a ++ b ++ 0#47) = _
    simp [filterWord]
  show (checked (filterWord ((encodeFilter (.fltXor d a b)).extractLsb' 32 32 ++ (encodeFilter (.fltXor d a b)).extractLsb' 0 32))).toOption = _
  rw [join_halves, e, checked_ok h]; rfl

theorem fltShl (d : BitVec 3) (a : BitVec 3) (imm : BitVec 32) : Statement (.fltShl d a imm) := by
  intro h _
  have e : filterWord (encodeFilter (.fltShl d a imm)) = .ok (.fltShl d a imm) := by
    show filterWord (0x08#8 ++ d ++ a ++ 0#18 ++ imm) = _
    simp [filterWord]
  show (checked (filterWord ((encodeFilter (.fltShl d a imm)).extractLsb' 32 32 ++ (encodeFilter (.fltShl d a imm)).extractLsb' 0 32))).toOption = _
  rw [join_halves, e, checked_ok h]; rfl

theorem fltShr (d : BitVec 3) (a : BitVec 3) (imm : BitVec 32) : Statement (.fltShr d a imm) := by
  intro h _
  have e : filterWord (encodeFilter (.fltShr d a imm)) = .ok (.fltShr d a imm) := by
    show filterWord (0x09#8 ++ d ++ a ++ 0#18 ++ imm) = _
    simp [filterWord]
  show (checked (filterWord ((encodeFilter (.fltShr d a imm)).extractLsb' 32 32 ++ (encodeFilter (.fltShr d a imm)).extractLsb' 0 32))).toOption = _
  rw [join_halves, e, checked_ok h]; rfl

theorem fltAndi (d : BitVec 3) (a : BitVec 3) (imm : BitVec 32) : Statement (.fltAndi d a imm) := by
  intro h _
  have e : filterWord (encodeFilter (.fltAndi d a imm)) = .ok (.fltAndi d a imm) := by
    show filterWord (0x0A#8 ++ d ++ a ++ 0#18 ++ imm) = _
    simp [filterWord]
  show (checked (filterWord ((encodeFilter (.fltAndi d a imm)).extractLsb' 32 32 ++ (encodeFilter (.fltAndi d a imm)).extractLsb' 0 32))).toOption = _
  rw [join_halves, e, checked_ok h]; rfl

theorem fltAddi (d : BitVec 3) (a : BitVec 3) (imm : BitVec 32) : Statement (.fltAddi d a imm) := by
  intro h _
  have e : filterWord (encodeFilter (.fltAddi d a imm)) = .ok (.fltAddi d a imm) := by
    show filterWord (0x0B#8 ++ d ++ a ++ 0#18 ++ imm) = _
    simp [filterWord]
  show (checked (filterWord ((encodeFilter (.fltAddi d a imm)).extractLsb' 32 32 ++ (encodeFilter (.fltAddi d a imm)).extractLsb' 0 32))).toOption = _
  rw [join_halves, e, checked_ok h]; rfl

theorem fltBeq (a : BitVec 3) (b : BitVec 3) (imm : BitVec 32) : Statement (.fltBeq a b imm) := by
  intro h _
  have e : filterWord (encodeFilter (.fltBeq a b imm)) = .ok (.fltBeq a b imm) := by
    show filterWord (0x10#8 ++ 0#3 ++ a ++ b ++ 0#15 ++ imm) = _
    simp [filterWord]
  show (checked (filterWord ((encodeFilter (.fltBeq a b imm)).extractLsb' 32 32 ++ (encodeFilter (.fltBeq a b imm)).extractLsb' 0 32))).toOption = _
  rw [join_halves, e, checked_ok h]; rfl

theorem fltBne (a : BitVec 3) (b : BitVec 3) (imm : BitVec 32) : Statement (.fltBne a b imm) := by
  intro h _
  have e : filterWord (encodeFilter (.fltBne a b imm)) = .ok (.fltBne a b imm) := by
    show filterWord (0x11#8 ++ 0#3 ++ a ++ b ++ 0#15 ++ imm) = _
    simp [filterWord]
  show (checked (filterWord ((encodeFilter (.fltBne a b imm)).extractLsb' 32 32 ++ (encodeFilter (.fltBne a b imm)).extractLsb' 0 32))).toOption = _
  rw [join_halves, e, checked_ok h]; rfl

theorem fltBltu (a : BitVec 3) (b : BitVec 3) (imm : BitVec 32) : Statement (.fltBltu a b imm) := by
  intro h _
  have e : filterWord (encodeFilter (.fltBltu a b imm)) = .ok (.fltBltu a b imm) := by
    show filterWord (0x12#8 ++ 0#3 ++ a ++ b ++ 0#15 ++ imm) = _
    simp [filterWord]
  show (checked (filterWord ((encodeFilter (.fltBltu a b imm)).extractLsb' 32 32 ++ (encodeFilter (.fltBltu a b imm)).extractLsb' 0 32))).toOption = _
  rw [join_halves, e, checked_ok h]; rfl

theorem fltBlt (a : BitVec 3) (b : BitVec 3) (imm : BitVec 32) : Statement (.fltBlt a b imm) := by
  intro h _
  have e : filterWord (encodeFilter (.fltBlt a b imm)) = .ok (.fltBlt a b imm) := by
    show filterWord (0x13#8 ++ 0#3 ++ a ++ b ++ 0#15 ++ imm) = _
    simp [filterWord]
  show (checked (filterWord ((encodeFilter (.fltBlt a b imm)).extractLsb' 32 32 ++ (encodeFilter (.fltBlt a b imm)).extractLsb' 0 32))).toOption = _
  rw [join_halves, e, checked_ok h]; rfl

theorem fltCadd (a : BitVec 3) (imm : BitVec 32) : Statement (.fltCadd a imm) := by
  intro h _
  have e : filterWord (encodeFilter (.fltCadd a imm)) = .ok (.fltCadd a imm) := by
    show filterWord (0x18#8 ++ 0#3 ++ a ++ 0#18 ++ imm) = _
    simp [filterWord]
  show (checked (filterWord ((encodeFilter (.fltCadd a imm)).extractLsb' 32 32 ++ (encodeFilter (.fltCadd a imm)).extractLsb' 0 32))).toOption = _
  rw [join_halves, e, checked_ok h]; rfl

theorem fltVerd (imm : BitVec 32) : Statement (.fltVerd imm) := by
  intro h _
  have e : filterWord (encodeFilter (.fltVerd imm)) = .ok (.fltVerd imm) := by
    show filterWord (0x20#8 ++ 0#24 ++ imm) = _
    simp [filterWord]
  show (checked (filterWord ((encodeFilter (.fltVerd imm)).extractLsb' 32 32 ++ (encodeFilter (.fltVerd imm)).extractLsb' 0 32))).toOption = _
  rw [join_halves, e, checked_ok h]; rfl

theorem reduce (p : NbForm) : Statement (.reduce p) := of_packet rfl rfl (by
    simp [packetWords, NbForm.header])

theorem scaleacc (p : NbForm) : Statement (.scaleacc p) := of_packet rfl rfl (by
    simp [packetWords, NbForm.header])

theorem cmpxchg (p : NbForm) : Statement (.cmpxchg p) := of_packet rfl rfl (by
    simp [packetWords, NbForm.header])

theorem idxreduce (p : NbForm) : Statement (.idxreduce p) := of_packet rfl rfl (by
    simp [packetWords, NbForm.header])

theorem accwb (p : NbForm) : Statement (.accwb p) := of_packet rfl rfl (by
    simp [packetWords, NbForm.header])

theorem accclr (p : NbForm) : Statement (.accclr p) := of_packet rfl rfl (by
    simp [packetWords, NbForm.header])

theorem uprog (p : NbForm) : Statement (.uprog p) := of_packet rfl rfl (by
    simp [packetWords, NbForm.header])

theorem bundleIssue : Statement (.bundleIssue) := of_event rfl

theorem resultLanding : Statement (.resultLanding) := of_event rfl

theorem globalAccessPerformed (tile : Nat) : Statement (.globalAccessPerformed tile) := of_event rfl

theorem fullEmptyWake (tile : Nat) : Statement (.fullEmptyWake tile) := of_event rfl

theorem ringReadWake (tile : Nat) : Statement (.ringReadWake tile) := of_event rfl

theorem ringWriteWake (tile : Nat) : Statement (.ringWriteWake tile) := of_event rfl

theorem engineWaitEnd (tile : Nat) : Statement (.engineWaitEnd tile) := of_event rfl

theorem barrierRelease (launch : Nat) (group : BitVec 2) (line : Nat) : Statement (.barrierRelease launch group line) := of_event rfl

theorem engineFaultAfterIssue (tile : Nat) : Statement (.engineFaultAfterIssue tile) := of_event rfl

theorem launchRequestApply (tile : Nat) : Statement (.launchRequestApply tile) := of_event rfl

theorem tailWrite (region : BitVec 16) (t : BitVec 16) : Statement (.tailWrite region t) := of_event rfl

theorem terrClear (region : BitVec 16) : Statement (.terrClear region) := of_event rfl

theorem liveOn (region : BitVec 16) (rcba : BitVec 44) : Statement (.liveOn region rcba) := of_event rfl

theorem liveOff (region : BitVec 16) : Statement (.liveOff region) := of_event rfl

theorem rcbaWrite (region : BitVec 16) (rcba : BitVec 44) : Statement (.rcbaWrite region rcba) := of_event rfl

theorem schedulingPass : Statement (.schedulingPass) := of_event rfl

theorem passTimer : Statement (.passTimer) := of_event rfl

theorem dependenceChangeObserved (launch : Nat) : Statement (.dependenceChangeObserved launch) := of_event rfl

theorem agingExpiry (launch : Nat) : Statement (.agingExpiry launch) := of_event rfl

theorem exclusionTimeout (launch : Nat) : Statement (.exclusionTimeout launch) := of_event rfl

theorem launchRelease (launch : Nat) : Statement (.launchRelease launch) := of_event rfl

theorem sliceStart (region : BitVec 16) : Statement (.sliceStart region) := of_event rfl

theorem sliceLead (region : BitVec 16) : Statement (.sliceLead region) := of_event rfl

theorem sliceEnd (region : BitVec 16) : Statement (.sliceEnd region) := of_event rfl

theorem watchdogExpiry (launch : Nat) : Statement (.watchdogExpiry launch) := of_event rfl

theorem retire (launch : Nat) : Statement (.retire launch) := of_event rfl

theorem leaseClearDone (tile : Nat) : Statement (.leaseClearDone tile) := of_event rfl

theorem pageResolved (writes : List (Nat × BitVec 64)) : Statement (.pageResolved writes) := of_event rfl

theorem pageUnresolvable (asid : BitVec 14) (va : Nat) : Statement (.pageUnresolvable asid va) := of_event rfl

theorem stopRequest (launch : Nat) (why : StopWhy) : Statement (.stopRequest launch why) := of_event rfl

theorem engineStopAck (tile : Nat) (e : EngineUnit) : Statement (.engineStopAck tile e) := of_event rfl

theorem stopComplete (launch : Nat) : Statement (.stopComplete launch) := of_event rfl

theorem stopDeadline (launch : Nat) : Statement (.stopDeadline launch) := of_event rfl

theorem saveComplete (launch : Nat) : Statement (.saveComplete launch) := of_event rfl

theorem saveDeadline (launch : Nat) : Statement (.saveDeadline launch) := of_event rfl

theorem restore (launch : Nat) : Statement (.restore launch) := of_event rfl

theorem restoreDeadline (launch : Nat) : Statement (.restoreDeadline launch) := of_event rfl

theorem migrationStart (tile : Nat) (px : Nat) : Statement (.migrationStart tile px) := of_event rfl

theorem migrationSwitch (tile : Nat) : Statement (.migrationSwitch tile) := of_event rfl

theorem towerSwitchIn (tile : Nat) (tower : BitVec 3) : Statement (.towerSwitchIn tile tower) := of_event rfl

theorem copySwitch (tile : Nat) (tower : BitVec 3) : Statement (.copySwitch tile tower) := of_event rfl

theorem copyWriteError (tile : Nat) : Statement (.copyWriteError tile) := of_event rfl

theorem hardwareError (tile : Nat) (k : HwError) : Statement (.hardwareError tile k) := of_event rfl

theorem tileFence (tile : Nat) : Statement (.tileFence tile) := of_event rfl

theorem tileScrubDone (ptile : Nat) : Statement (.tileScrubDone ptile) := of_event rfl

theorem thermalSample (deciC : List Int) : Statement (.thermalSample deciC) := of_event rfl

theorem sensorRecalibrate (sensor : Nat) : Statement (.sensorRecalibrate sensor) := of_event rfl

theorem scheduledRefreshPass (ptower : Nat) : Statement (.scheduledRefreshPass ptower) := of_event rfl

theorem forcedRefresh (ptower : Nat) : Statement (.forcedRefresh ptower) := of_event rfl

theorem refreshPassEnd (ptower : Nat) : Statement (.refreshPassEnd ptower) := of_event rfl

theorem deferralExpiry (ptower : Nat) : Statement (.deferralExpiry ptower) := of_event rfl

theorem scrubRow (tower : Bool) (row : Nat) (outcome : ScrubOutcome) : Statement (.scrubRow tower row outcome) := of_event rfl

theorem relayout (page : Nat) : Statement (.relayout page) := of_event rfl

theorem relayoutDone (page : Nat) : Statement (.relayoutDone page) := of_event rfl

theorem windowRowDelivery (tile : Nat) (h : BitVec 4) : Statement (.windowRowDelivery tile h) := of_event rfl

theorem bcRowDelivery (column : Nat) : Statement (.bcRowDelivery column) := of_event rfl

theorem xpPacketLanding (index : Nat) : Statement (.xpPacketLanding index) := of_event rfl

theorem shiftPartDelivery (tile : Nat) (cluster : BitVec 3) : Statement (.shiftPartDelivery tile cluster) := of_event rfl

theorem muOperationBegin (tile : Nat) : Statement (.muOperationBegin tile) := of_event rfl

theorem muOperationComplete (tile : Nat) : Statement (.muOperationComplete tile) := of_event rfl

theorem dcopyChunk (tile : Nat) : Statement (.dcopyChunk tile) := of_event rfl

theorem fabricLoadRequest (tile : Nat) : Statement (.fabricLoadRequest tile) := of_event rfl

theorem fabricBindRequest (tile : Nat) : Statement (.fabricBindRequest tile) := of_event rfl

theorem fabricBeat (tile : Nat) (h : BitVec 4) : Statement (.fabricBeat tile h) := of_event rfl

theorem fabricStreamEnd (tile : Nat) (h : BitVec 4) : Statement (.fabricStreamEnd tile h) := of_event rfl

theorem fabricContextSpill (ctx : Nat) : Statement (.fabricContextSpill ctx) := of_event rfl

theorem nbPacketEnqueue (tile : Nat) : Statement (.nbPacketEnqueue tile) := of_event rfl

theorem nbQueueWaitTimeout (tile : Nat) : Statement (.nbQueueWaitTimeout tile) := of_event rfl

theorem rowOperationStart (chan : Nat) : Statement (.rowOperationStart chan) := of_event rfl

theorem ordinaryRequestSuspend (chan : Nat) : Statement (.ordinaryRequestSuspend chan) := of_event rfl

theorem nbContextSpill (chan : Nat) : Statement (.nbContextSpill chan) := of_event rfl

theorem publicationApply (tile : Nat) : Statement (.publicationApply tile) := of_event rfl

theorem tlbinvComplete : Statement (.tlbinvComplete) := of_event rfl

theorem signalDelivery (tile : Nat) : Statement (.signalDelivery tile) := of_event rfl

theorem tracePortDeliver (tile : Nat) : Statement (.tracePortDeliver tile) := of_event rfl

theorem filterRecord (core : Nat) : Statement (.filterRecord core) := of_event rfl

theorem counterOverflow (off : Nat) (by_ : Nat) : Statement (.counterOverflow off by_) := of_event rfl

theorem counterWrite (off : Nat) (v : BitVec 64) (inc : Nat) : Statement (.counterWrite off v inc) := of_event rfl

theorem fixLatch : Statement (.fixLatch) := of_event rfl

theorem fixAssert : Statement (.fixAssert) := of_event rfl

theorem fixRelease : Statement (.fixRelease) := of_event rfl

theorem filterVerify (core : Nat) (n : BitVec 10) : Statement (.filterVerify core n) := of_event rfl

theorem filterVerifyDone (core : Nat) : Statement (.filterVerifyDone core) := of_event rfl

theorem rkConfigWrite (off : Nat) (v : BitVec 64) : Statement (.rkConfigWrite off v) := of_event rfl

theorem breakpointMatch (tile : Nat) (which : Bool) : Statement (.breakpointMatch tile which) := of_event rfl

theorem debugStop (tile : Nat) : Statement (.debugStop tile) := of_event rfl

theorem debugResume (tile : Nat) (steps : BitVec 32) : Statement (.debugResume tile steps) := of_event rfl

theorem stepCountExpiry (tile : Nat) : Statement (.stepCountExpiry tile) := of_event rfl

theorem debugContextWrite (tile : Nat) (off : Nat) (bytes : List (BitVec 8)) : Statement (.debugContextWrite tile off bytes) := of_event rfl

theorem abortLaunch (launch : Nat) : Statement (.abortLaunch launch) := of_event rfl

theorem mailboxRequest : Statement (.mailboxRequest) := of_event rfl

theorem mailboxResponse (bytes : List (BitVec 8)) : Statement (.mailboxResponse bytes) := of_event rfl

theorem attestationRequest (nonce : BitVec 256) : Statement (.attestationRequest nonce) := of_event rfl

theorem pmodeWrite (v : BitVec 64) : Statement (.pmodeWrite v) := of_event rfl

theorem powerLimitExceeded : Statement (.powerLimitExceeded) := of_event rfl

theorem coolantFlowLow : Statement (.coolantFlowLow) := of_event rfl

theorem railFault : Statement (.railFault) := of_event rfl

theorem registerWrite (off : Nat) (size : Nat) (v : BitVec 64) : Statement (.registerWrite off size v) := of_event rfl

theorem hostHbmAccess (a : HostAccess) : Statement (.hostHbmAccess a) := of_event rfl

theorem peerAccess (a : HostAccess) : Statement (.peerAccess a) := of_event rfl

theorem rhumbPathTimeout (dev : Nat) : Statement (.rhumbPathTimeout dev) := of_event rfl

theorem linkRetrain (link : Nat) : Statement (.linkRetrain link) := of_event rfl

theorem channelRetrain (chan : Nat) : Statement (.channelRetrain chan) := of_event rfl

theorem channelRetrainEnd (chan : Nat) : Statement (.channelRetrainEnd chan) := of_event rfl

theorem ptpLock (ns : Nat) : Statement (.ptpLock ns) := of_event rfl

theorem ptpLockLost : Statement (.ptpLockLost) := of_event rfl

theorem firmwareHandover : Statement (.firmwareHandover) := of_event rfl

theorem firmwareVerify (image : FirmwareImage) : Statement (.firmwareVerify image) := of_event rfl

theorem securityVersionRaise (version : BitVec 32) : Statement (.securityVersionRaise version) := of_event rfl

theorem checkpoint : Statement (.checkpoint) := of_event rfl

theorem deviceReset : Statement (.deviceReset) := of_event rfl

theorem hbmDataRateChange (stack : BitVec 3) : Statement (.hbmDataRateChange stack) := of_event rfl

theorem coolantFlowRestored : Statement (.coolantFlowRestored) := of_event rfl

theorem checkpointRestore : Statement (.checkpointRestore) := of_event rfl

end Sys2Proof.Laws.RoundTrip
end

