-- ==== Sys2Proof/Machine/HostView.lean ====
section
/-! DEFINITION. What the host reads: the doorbells (R30), and the management space with its tables, registers, counters and debug
windows (R421 to R426). A read changes nothing, so the table has no event for it. -/

namespace Sys2Proof.Machine

/-! ### Doorbells (R30) -/

/-- A word of the doorbell area; another size, or an offset outside the area's words, reads as zero. -/
def State.doorbellRead (s : State) (off size : Nat) : Nat :=
  let d := s.doorbell (off / 16)
  if size ≠ 8 ∨ off % 8 ≠ 0 ∨ 0x100000 ≤ off then 0
  else if off % 16 = 0 then
    d.acur % 2 ^ 16 * 2 ^ 48 + d.headv % 2 ^ 16 * 2 ^ 32 + d.terr.toNat * 2 ^ 16 + d.tail % 2 ^ 16
  else d.live.toNat * 2 ^ 63 + d.rcba % 2 ^ 44

/-! ### Tables -/

/-- A tile remap entry (R61). -/
def State.remapByte (s : State) (tile : Nat) : Byte :=
  let e := s.remap tile
  BitVec.ofNat 8 (e.px % 64 + e.fenced.toNat * 128)

/-- A physical tile status (R62). -/
def State.statusByte (s : State) (ptile : Nat) : Byte :=
  BitVec.ofNat 8 (s.pstate ptile % 4 + (s.isSpare (ptile / 34) (ptile % 34)).toNat * 4)

/-- A tower chart entry (R65). -/
def State.chartEntry (s : State) (ptower : Nat) : Nat :=
  let c := s.chart ptower
  let spare := (List.range 8).all fun i => (s.tmap (ptower / 9)).toNat / 16 ^ i % 16 != ptower % 9
  c.layMask.toNat + c.nlay * 2 ^ 8 + c.rclass % 4 * 2 ^ 12 + c.tstate % 4 * 2 ^ 14 + spare.toNat * 2 ^ 16
    + towerCol ptower * 2 ^ 20 + 8 * c.nlay * 2 ^ 32

/-- A byte of the tables with narrow entries; an offset outside them reads as zero. -/
def State.tableByte (s : State) (off : Nat) : Byte :=
  if 0x4000 ≤ off ∧ off < 0x4300 then s.remapByte (off - 0x4000)
  else if 0x4400 ≤ off ∧ off < 0x4730 then s.statusByte (off - 0x4400)
  else if 0x4800 ≤ off ∧ off < 0x54C0 then (s.tmap ((off - 0x4800) / 4)).extractLsb' (8 * (off % 4)) 8
  else if 0x5800 ≤ off ∧ off < 0x5C00 then (s.nbarb ((off - 0x5800) / 4)).extractLsb' (8 * (off % 4)) 8
  else if 0x20000 ≤ off ∧ off < 0x40000 then BitVec.ofNat 8 (tget 0 s.obs.thr ((off - 0x20000) / 2) / 2 ^ (8 * (off % 2)))
  else 0#8

/-- Offsets of the tables with narrow entries. -/
def isTable (off : Nat) : Bool :=
  (decide (0x4000 ≤ off) && decide (off < 0x4300)) || (decide (0x4400 ≤ off) && decide (off < 0x4730))
  || (decide (0x4800 ≤ off) && decide (off < 0x54C0)) || (decide (0x5800 ≤ off) && decide (off < 0x5C00))
  || (decide (0x20000 ≤ off) && decide (off < 0x40000))

/-! ### Registers (R422 to R425) -/

/-- OFFS of PTPSTAT: PTIME less PTP time in whole ns, saturating at 32 bits. -/
def Clock.offs (c : Clock) : BitVec 32 :=
  let ns : Int := -(c.ptpSlew.tdiv 4)
  BitVec.ofInt 32 (max (-(2 ^ 31)) (min (2 ^ 31 - 1) ns))

/-- Device registers, the mailbox, and the buffer-map bases (R422). -/
def State.deviceRead (s : State) (off : Nat) : Nat :=
  let m := s.mgmt
  match off with
  | 0x00 => m.devid
  | 0x08 => s.env.pmodeAct * 2 ^ 8 + s.env.pmode
  | 0x10 => s.clk.offs.toNat * 2 ^ 32 + s.clk.ptpState
  | 0x18 => m.cntvec.toNat
  | 0x20 => m.sigbase.toNat
  | 0x28 => m.siglog2
  | 0x30 => m.sighead
  | 0x38 => m.sigtail
  | 0x40 => m.scrubh
  | 0x48 => m.scrubt
  | 0x1FF8 => m.mbReq.toNat * 2 ^ 63 + m.mbRsp.toNat * 2 ^ 62 + m.mbRspLen % 2 ^ 16 * 2 ^ 16 + m.mbReqLen
  | _ =>
    if 0x40000 ≤ off ∧ off < 0x60000 then (tget 0#64 m.bmbase ((off - 0x40000) / 8)).toNat
    else 0

/-- Fix and reckoning registers (R423). FIXCTL is write-only. -/
def State.fixRead (s : State) (off : Nat) : Nat :=
  match off with
  | 0x2008 => s.fixstat.toNat
  | 0x2010 => s.obs.fixDc
  | 0x2018 => s.obs.rkbase.toNat
  | 0x2020 => s.obs.rklog2
  | 0x2028 => s.obs.rkhead
  | 0x2030 => s.obs.rktail
  | 0x2038 => s.obs.rklost
  | _ => 0

/-- A logline core's registers, less its counters (R424). FLTCTL is write-only. -/
def Logline.read (l : Logline) (off : Nat) : Nat :=
  match off with
  | 0x00 => l.trbase.toNat
  | 0x08 => l.trlog2
  | 0x10 => l.trhead
  | 0x18 => l.trtail
  | 0x20 => l.qlost
  | 0x30 => l.check % 256 * 2 ^ 24 + l.pending.isSome.toNat * 2 ^ 16 + l.index % 512
  | _ => 0

/-! ### The context page of a debug stop (R390, R391, R425) -/

/-- A byte of the page that DBGPAGE shows; outside a debug stop it reads as zero. -/
def State.pageByte (s : State) (tile off : Nat) : Byte :=
  match s.taskOn tile with
  | none => 0#8
  | some t =>
    let d := s.dbg tile
    let k := 49152 * d.page.toNat + (off - 0x4000)
    if !(s.launch? t.bnd.launch).any (fun l => l.phase == .debug) then 0#8
    else match s.ctxWord t (k / 8 * 8) with
      | some v => BitVec.ofNat 8 (v / 2 ^ (8 * (k % 8)))
      | none => match t.watch.ctx.find? fun c => c.1 == k with
        | some c => c.2
        | none => Config.freeByte s.clk.tick tile k

/-- A tile's debug window (R425). DBGCTL is write-only. -/
def State.windowRead (s : State) (tile off : Nat) : Nat :=
  let d := s.dbg tile
  let t := s.taskOn tile
  match off with
  | 0x00 => d.bkp0.toNat
  | 0x08 => d.bkp1.toNat
  | 0x18 =>
    let stopped := t.any fun t => (s.launch? t.bnd.launch).any fun l => l.phase == .debug
    (t.elim 0 fun t => t.bnd.launch % 2 ^ 32) * 2 ^ 32 + (t.any (·.watch.stepped) && stopped).toNat * 4 + stopped.toNat * 2 + t.isSome.toNat
  | 0x20 => d.trEn.toNat
  | 0x28 => d.trlost
  | 0x30 => d.page.toNat
  | _ => 0

/-! ### The whole space (R421) -/

/-- A counter as a host reads it: before the increments of this device cycle, unless it was written in it (R412). -/
def State.counterRead (s : State) (off : Nat) : W64 :=
  match s.obs.hits.lookup off, s.obs.written.lookup off with
  | some h, none => h.1
  | _, _ => s.counter off

/-- An aligned read of 8 bytes outside the narrow tables. -/
def State.regRead (s : State) (off : Nat) : Nat :=
  if isCounter off then (s.counterRead off).toNat
  else if off < 0x2000 ∨ (0x40000 ≤ off ∧ off < 0x60000) then s.deviceRead off
  else if off < 0x3000 then s.fixRead off
  else if off < 0x3C00 then (s.core ((off - 0x3000) / 256)).read (off % 256)
  else if 0x10000 ≤ off ∧ off < 0x10000 + 8 * 7344 then s.chartEntry ((off - 0x10000) / 8)
  else if 0x60000 ≤ off ∧ off < 0x6C000 then ((s.core ((off - 0x60000) / 4096)).windowWord (off % 4096 / 8)).toNat
  else if 0x200000 ≤ off ∧ off < 0x200000 + 0x10000 * 768 then s.windowRead ((off - 0x200000) / 0x10000) (off % 0x10000)
  else 0

/-- Offsets of what is neither a register nor a table of narrow entries: the mailbox's buffers and the tiles' context pages, read at any size
from 1 to 64 bytes (R419). -/
def isBuffer (off : Nat) : Bool :=
  (decide (0x1000 ≤ off) && decide (off < 0x1FF8))
  || (decide (0x200000 ≤ off) && decide (off < 0x200000 + 0x10000 * 768) && decide (0x4000 ≤ off % 0x10000))

/-- A byte of a buffer. -/
def State.bufferByte (s : State) (off : Nat) : Byte :=
  if !isBuffer off then 0#8
  else if off < 0x2000 then s.mgmt.mbBuf.get off
  else s.pageByte ((off - 0x200000) / 0x10000) (off % 0x10000)

/-- What a host read of the management space returns: narrow tables at any size from 1 to 8 bytes, buffers at any size from 1 to 64,
registers at aligned 8 bytes, and zero for anything else. -/
def State.hostRead (s : State) (off size : Nat) : Nat :=
  if isTable off then (if 1 ≤ size ∧ size ≤ 8 then leNat ((List.range size).map fun i => s.tableByte (off + i)) else 0)
  else if isBuffer off then (if 1 ≤ size ∧ size ≤ 64 then leNat ((List.range size).map fun i => s.bufferByte (off + i)) else 0)
  else if size = 8 ∧ off % 8 = 0 then s.regRead off
  else 0

end Sys2Proof.Machine
end

