-- ==== Sys2Proof/Safety.lean ====
section
/-! DEFINITION. What counts as a safe state and a safe run, and the terms that the statements use: what a run list holds, element by
element, and what the landing of a vector or mask result is. -/

namespace Sys2Proof.Safety
open Sys2Proof.Machine

/-! ### Canonical memories -/

/-- The byte memories a task holds are in canonical form. -/
def TaskCanonical (t : Task) : Prop := Memory.wf t.smem = true

/-- The memories that a launch keeps for its saved tasks are in canonical form. -/
def LaunchCanonical (l : Launch) : Prop :=
  (∀ t ∈ l.contexts, TaskCanonical t) ∧ ∀ r ∈ l.rows, Memory.wf r.bytes = true

/-- Every byte memory of the device is in canonical form, so that equal memories are equal data. -/
def Canonical (s : State) : Prop :=
  Memory.wf s.mem.hbm = true ∧ Memory.wf s.mem.host = true ∧ Memory.wf s.mem.peer = true ∧ Memory.wf s.mem.towers = true
  ∧ Memory.wf s.mgmt.mbBuf = true ∧ (∀ c ∈ s.mgmt.ckpt, Memory.wf c.mem.hbm = true ∧ Memory.wf c.mem.towers = true)
  ∧ (∀ t ∈ s.tasks, TaskCanonical t) ∧ (∀ l ∈ s.sched.launches, LaunchCanonical l)
  ∧ ∀ d ∈ s.sched.doorbells, ∀ l ∈ d.2.held, LaunchCanonical l

/-- A state whose next step does not stop. -/
def Goes (s : State) : Prop := ∃ s', step s = .next s'

/-- A run of `n` steps that does not stop. -/
def Runs (n : Nat) (s : State) : Prop := ∃ s', Sys2Proof.core.run n s = .next s'

/-! ### Run lists, element by element -/

variable {α : Type}

/-- Runs that a list of values needs: one, and one more at each change of value (R191). -/
def runsNeeded [DecidableEq α] : List α → Nat
  | [] => 0
  | [_] => 1
  | a :: b :: l => (if a = b then 0 else 1) + runsNeeded (b :: l)

/-- Every run covers at least one element. -/
def Positive (r : Machine.Runs α) : Prop := ∀ p ∈ r, 1 ≤ p.2

/-! ### Vector and mask registers (R190 to R192) -/

/-- What a vector or mask register may hold: at most 32 runs of at least one element each, 4,096 elements in all, and no two
neighbouring runs of one value (R190 to R192). -/
def RegisterRuns (r : Machine.Runs α) : Prop :=
  Positive r ∧ r.length ≤ 32 ∧ runLen r ≤ 4096 ∧ ∀ j, ∀ a ∈ r[j]?, ∀ b ∈ r[j + 1]?, a.1 ≠ b.1

/-- A length that VL may hold (R98). -/
def LengthOk (v : W64) : Prop := 1 ≤ v.toNat ∧ v.toNat ≤ 4096

/-- A result on its way fits the register it lands in. -/
def LandingFits (l : Landing) : Prop :=
  match l.dest with
  | .vreg _ vals => ∀ p ∈ vals, RegisterRuns p.2
  | .kreg _ vals => ∀ p ∈ vals, RegisterRuns p.2
  | .ctl num _ v => num = 5#6 → LengthOk v
  | _ => True

/-- The elements that a waiting load names fit a register. -/
def LoadFits : LoadKind → Prop
  | .elems _ addrs => ∀ p ∈ addrs, p.2.length ≤ 4096
  | .bits _ n => n ≤ 4096
  | _ => True

/-- What a waiting load keeps from its issue fits. -/
def WaitFits : Wait → Prop
  | .load l => (∀ p ∈ l.old, RegisterRuns p.2) ∧ (∀ p ∈ l.msk, ∀ r ∈ p.2, RegisterRuns r) ∧
    l.vl ≤ 4096 ∧ LoadFits l.kind
  | _ => True

/-- A task whose vector and mask registers, now and once everything in flight has landed, are within the bounds of R190, and whose VL
is a length. -/
def TaskFits (t : Task) : Prop :=
  (∀ i : Fin 8, (∀ r, RegisterRuns (t.cl[i].vreg r)) ∧ ∀ k, RegisterRuns (t.cl[i].kreg k)) ∧ LengthOk t.reg.vl ∧
  (∀ l ∈ t.seq.inflight, LandingFits l) ∧ (∀ w ∈ t.seq.waits, WaitFits w) ∧
  ∀ r ∈ t.seq.saved, (∀ l ∈ r.results, LandingFits l) ∧ ∀ w ∈ r.waits, WaitFits w

/-- Every task of the device, and every saved one, is within those bounds. -/
def RegistersFit (s : State) : Prop :=
  (∀ t ∈ s.tasks, TaskFits t) ∧ (∀ l ∈ s.sched.launches, ∀ t ∈ l.contexts, TaskFits t) ∧
  ∀ d ∈ s.sched.doorbells, ∀ l ∈ d.2.held, ∀ t ∈ l.contexts, TaskFits t

/-! ### Results -/

/-- A canonical register of 32 runs at most (R191, R192). -/
def CanonicalRuns [DecidableEq α] (r : Machine.Runs α) : Prop :=
  Positive r ∧ r.length = runsNeeded (flat r) ∧ r.length ≤ 32

/-- Every run of the vector and mask registers of the task covers at least one element. -/
def PositiveRuns (s : State) : Prop :=
  ∀ i : Fin 8, (∀ r, Positive (s.cur.cl[i].vreg r)) ∧ ∀ k, Positive (s.cur.cl[i].kreg k)

/-- What stands at a position of a mask register: k0 is true everywhere, and the others false beyond their length (R192). -/
def maskAt (c : Cluster) (k : BitVec 3) (p : Nat) : Bool := k = 0#3 || runAt false (c.kreg k) p

/-- What R194 gives N positions: the function's value and flags where the mask is true; elsewhere zero, or the old destination. -/
def elements (mask : Nat → Bool) (z : Bool) (zero : α) (old : Nat → α) (fn : Nat → α × BitVec 9) (n : Nat) : List (α × BitVec 9) :=
  (List.range n).map fun p => if mask p then fn p else (if z then zero else old p, 0#9)

/-- The flags of all positions together, with LN when the operation length is below VL (R193). -/
def allFlags (l : List (α × BitVec 9)) (short : Bool) : BitVec 9 :=
  l.foldl (fun f p => f ||| p.2) (if short then 0x040#9 else 0#9)

/-- The state with one more result on its way: it lands in the given clusters `lat` schedule cycles on, canonical, with the wanted
values and flags, and every other part of the state is as it was. -/
def ResultLands [DecidableEq α] (s t : State) (slot lat : Nat) (mk : List (Fin 8 × Machine.Runs α) → Dest) (cls : List (Fin 8))
    (want : Fin 8 → List α) (flags : Fin 8 → BitVec 9) : Prop :=
  ∃ (l : Landing) (vals : List (Fin 8 × Machine.Runs α)), t = s.push l ∧ l.at_ = s.cur.seq.scyc ∧ l.due = s.cur.seq.scyc + lat ∧
    l.slot = slot ∧ l.runlen = [] ∧ l.dest = mk vals ∧ vals.map Prod.fst = cls ∧
    (∀ p ∈ vals, flat p.2 = want p.1 ∧ CanonicalRuns p.2) ∧
    (∀ i ∈ cls, ((l.flags.find? fun p => p.1 == i).map Prod.snd).getD 0#9 = flags i) ∧ ∀ p ∈ l.flags, p.1 ∈ cls

/-- The fixed pairwise tree of R152 over 2^n positions, by its two halves: the value, and the flags of every combination. -/
def pairTree (comb : W32 → W32 → W32 × Flags) : Nat → (Nat → W32) → W32 × Flags
  | 0, c => (c 0, 0#9)
  | n + 1, c =>
    let a := pairTree comb n c
    let b := pairTree comb n fun j => c (j + 2 ^ n)
    let r := comb a.1 b.1
    (r.1, a.2 ||| b.2 ||| r.2)

/-- An instruction whose result fits 32 runs in every selected cluster lands it so, whichever mode stands (R196, R197). -/
def ElementsLand [DecidableEq α] (s : State) (out : Out) (slot lat : Nat) (mk : List (Fin 8 × Machine.Runs α) → Dest) (cl : BitVec 2)
    (len : Fin 8 → Nat) (elems : Fin 8 → List (α × BitVec 9)) : Prop :=
  (∀ i ∈ s.selected cl, runsNeeded ((elems i).map Prod.fst) ≤ 32) →
  ∃ t, out = .next t ∧ ResultLands s t slot lat mk (s.selected cl) (fun i => (elems i).map Prod.fst)
    fun i => allFlags (elems i) (len i < s.vl)

/-- An instruction whose result has more than 32 runs in some selected cluster: in precise mode the run-overflow fault at its bundle,
with the clusters that overflow and the slot in TRAPINFO (R198); in split mode the prefix of 32 whole runs lands, with RO and the
length delivered (R197). -/
def ElementsOverflow [DecidableEq α] (s : State) (out : Out) (slot lat : Nat) (mk : List (Fin 8 × Machine.Runs α) → Dest)
    (cl : BitVec 2) (elems : Fin 8 → List (α × BitVec 9)) : Prop :=
  (∃ i ∈ s.selected cl, 32 < runsNeeded ((elems i).map Prod.fst)) →
  (s.cur.reg.mode.getLsbD 0 = false → ∃ info : W64,
    out = .next (s.takeFault s.cur.seq.pc { status := .runOverflow, cause := 3, slot := slot, info := info }) ∧
    (∀ i : Fin 8, info.getLsbD i = true ↔ i ∈ s.selected cl ∧ 32 < runsNeeded ((elems i).map Prod.fst)) ∧
    info.extractLsb' 8 56 = BitVec.ofNat 56 slot) ∧
  (s.cur.reg.mode.getLsbD 0 = true → ∃ (t : State) (l : Landing) (vals : List (Fin 8 × Machine.Runs α)), out = .next t ∧ t = s.push l ∧
    l.at_ = s.cur.seq.scyc ∧ l.due = s.cur.seq.scyc + lat ∧ l.slot = slot ∧ l.dest = mk vals ∧ vals.map Prod.fst = s.selected cl ∧
    ∀ p ∈ vals, flat p.2 <+: (elems p.1).map Prod.fst ∧ CanonicalRuns p.2 ∧
      (32 < runsNeeded ((elems p.1).map Prod.fst) → p.2.length = 32 ∧ (p.1, runLen p.2) ∈ l.runlen ∧
        ∃ f, (p.1, f) ∈ l.flags ∧ f.getLsbD 8 = true) ∧
      (runsNeeded ((elems p.1).map Prod.fst) ≤ 32 → flat p.2 = (elems p.1).map Prod.fst ∧ ∀ q ∈ l.runlen, q.1 ≠ p.1))

end Sys2Proof.Safety
end

