-- ==== Sys2Proof/Certificates/Slice0/Obligations.lean ====
section
/-! DEFINITION. The statements about the machine, in the order of the manual's chapters: words, the control slot, traps, the vector
slots, the engine slot, the near-bank units and filters, the device's events, and whole-machine rules. -/

open Sys2Proof Sys2Proof.Machine Sys2Proof.Safety

/-! ### Words and instructions -/

/-- R112 to R117, R276, R277, R409: the words written for a well-formed instruction of any table read back as that instruction, so no bit of an
encoding is dropped and no two instructions share their words. -/
def Obligations.EveryEncodingReadsBack : Prop := ∀ i : Instr, WellFormed i = true → kindOf i ≠ .event → decodeAs (kindOf i) (encode i) = some i

/-- R92: the four syllables of a bundle stand in bits 31:0, 63:32, 95:64 and 127:96, and a bundle made of the words of four well-formed
syllables decodes to those four. -/
def Obligations.BundlesReadBack : Prop := ∀ c a b e : Instr, WellFormed c = true → WellFormed a = true → WellFormed b = true → WellFormed e = true →
    kindOf c = .slot .c → kindOf a = .slot .a → kindOf b = .slot .b → kindOf e = .slot .e →
    (decodeBundle (encodeWord e ++ encodeWord b ++ encodeWord a ++ encodeWord c)).toOption = some (c, a, b, e)

/-- Words that the manual writes out: R164, R167, R171, R183, R188, R109 and the clamped dot product. -/
def Obligations.WrittenWords : Prop := (decodeSlot .c 0x06831C00#32).toOption = some (.mul { d := 8#5, a := 6#5, b := 7#5, q := 0#3, n := false, f := false }) ∧
  (decodeSlot .c 0x4E501000#32).toOption = some (.lih { d := 5#5, imm := 0x800#19, f := false }) ∧
  (decodeSlot .c 0x64219000#32).toOption =
    some (.cmplt { d := 2#3, a := 3#5, b := 4#5, q := 0#3, n := false, f := false }) ∧
  (decodeSlot .c 0xC0038000#32).toOption = some (.sfmt { a := 7#5, q := 0#3, n := false, f := false }) ∧
  (decodeSlot .c 0xC81001E0#32).toOption = some (.setcm true 0#5 0xF0#8 false) ∧
  (decodeSlot .c 0xAC000184#32).toOption = some (.rep 3#6 2#6 false) ∧
  (decodeSlot .c 0xA8407FF6#32).toOption = some (.loop 4#5 (BitVec.ofInt 14 (-5)) false) ∧
  (decodeSlot .c 0xAA000000#32).toOption = some (.endTask false)

/-! ### The control slot -/

/-- R161, R163 and R164 for the two-source instructions of slot C: under a true guard each lands its result in s[d] after its latency, and under
a false guard it does nothing; every other part of the state is as it was. R164: the two edge cases of division, and what division by −1 of
the most negative dividend gives. R163: CLZ, CTZ and POPC, by what their counts say of the bits of s[a]. -/
def Obligations.ScalarArithmetic : Prop :=
  (∀ (o : CrForm) (s : State),
  let a := s.sreg o.a
  let b := s.sreg o.b
  let n := b.toNat % 64
  let lands := fun (i : Instr) (lat : Nat) (v : W64) =>
    exec i s = .next (if s.guard o.q o.n then s.land 0 lat (.sreg o.d v) else s)
  lands (.add o) 1 (a + b) ∧ lands (.sub o) 1 (a - b) ∧ lands (.mul o) 3 (a * b) ∧
  lands (.mulh o) 3 ((a.signExtend 128 * b.signExtend 128).extractLsb' 64 64) ∧
  lands (.mulhu o) 3 ((a.zeroExtend 128 * b.zeroExtend 128).extractLsb' 64 64) ∧
  lands (.div o) 12 (if b = 0#64 then 0xFFFFFFFFFFFFFFFF#64 else a.sdiv b) ∧
  lands (.divu o) 12 (if b = 0#64 then 0xFFFFFFFFFFFFFFFF#64 else a.udiv b) ∧
  lands (.rem o) 12 (if b = 0#64 then a else a.srem b) ∧
  lands (.remu o) 12 (if b = 0#64 then a else a.umod b) ∧
  lands (.and o) 1 (a &&& b) ∧ lands (.or o) 1 (a ||| b) ∧ lands (.xor o) 1 (a ^^^ b) ∧ lands (.andn o) 1 (a &&& ~~~b) ∧
  lands (.shl o) 1 (a <<< n) ∧ lands (.shr o) 1 (a >>> n) ∧ lands (.shra o) 1 (a.sshiftRight n) ∧
  lands (.rot o) 1 (a >>> n ||| a <<< (64 - n)) ∧
  lands (.min o) 1 (if a.toInt ≤ b.toInt then a else b) ∧ lands (.max o) 1 (if a.toInt ≤ b.toInt then b else a) ∧
  lands (.minu o) 1 (if a.toNat ≤ b.toNat then a else b) ∧ lands (.maxu o) 1 (if a.toNat ≤ b.toNat then b else a)) ∧
  (∀ (o : CrForm) (s : State), s.guard o.q o.n = true →
  (s.sreg o.b = 0#64 →
    exec (.div o) s = .next (s.land 0 12 (.sreg o.d 0xFFFFFFFFFFFFFFFF#64)) ∧
    exec (.divu o) s = .next (s.land 0 12 (.sreg o.d 0xFFFFFFFFFFFFFFFF#64)) ∧
    exec (.rem o) s = .next (s.land 0 12 (.sreg o.d (s.sreg o.a))) ∧
    exec (.remu o) s = .next (s.land 0 12 (.sreg o.d (s.sreg o.a)))) ∧
  (s.sreg o.a = 0x8000000000000000#64 → s.sreg o.b = 0xFFFFFFFFFFFFFFFF#64 →
    exec (.div o) s = .next (s.land 0 12 (.sreg o.d 0x8000000000000000#64)) ∧
    exec (.rem o) s = .next (s.land 0 12 (.sreg o.d 0#64)))) ∧
  (∀ (o : Cr1Form) (s : State),
  let a := s.sreg o.a
  let lands := fun (i : Instr) (n : Nat) =>
    exec i s = .next (if s.guard o.q o.n then s.land 0 1 (.sreg o.d (BitVec.ofNat 64 n)) else s)
  (∃ n ≤ 64, lands (.clz o) n ∧ (∀ k, 64 - n ≤ k → k < 64 → a.getLsbD k = false) ∧ (n < 64 → a.getLsbD (63 - n) = true)) ∧
  (∃ n ≤ 64, lands (.ctz o) n ∧ (∀ k, k < n → a.getLsbD k = false) ∧ (n < 64 → a.getLsbD n = true)) ∧
  lands (.popc o) (Finset.univ.filter fun k : Fin 64 => a.getLsbD k.val = true).card)

/-- R165, R166, R167, R171: NOP, the immediate instructions, LIH and SEL. R113: the empty syllables of slots A, B and E have no effect. R168,
R169, R170: the compares and condition logic land one condition register after one cycle. -/
def Obligations.ScalarImmediatesAndCompares : Prop :=
  ((∀ f s, exec (.nop f) s = .next s) ∧
  (∀ (o : CiForm) (s : State),
    let a := s.sreg o.a
    let z : W64 := o.imm.zeroExtend 64
    let lands := fun (i : Instr) (v : W64) => exec i s = .next (s.land 0 1 (.sreg o.d v))
    lands (.addi o) (a + o.imm.signExtend 64) ∧ lands (.andi o) (a &&& z) ∧ lands (.ori o) (a ||| z) ∧
    lands (.xori o) (a ^^^ z) ∧ lands (.shli o) (a <<< o.imm.toNat) ∧ lands (.shri o) (a >>> o.imm.toNat) ∧
    lands (.shrai o) (a.sshiftRight o.imm.toNat)) ∧
  (∀ (o : LihForm) s, exec (.lih o) s = .next (s.land 0 1 (.sreg o.d (BitVec.ofInt 64 (o.imm.toInt * 2 ^ 14))))) ∧
  (∀ (o : SelForm) s, exec (.sel o) s = .next (if s.guard o.q o.n then
    s.land 0 1 (.sreg o.d (if s.creg o.sel = true then s.sreg o.a else s.sreg o.b)) else s))) ∧
  (∀ s : State,
  exec .nopA s = .next s ∧ exec .nopB s = .next s ∧ exec .nopE s = .next s) ∧
  ((∀ (o : CmpForm) (s : State),
    let a := s.sreg o.a
    let b := s.sreg o.b
    let lands := fun (i : Instr) (p : Prop) => ∀ v : Bool, (v = true ↔ p) →
      exec i s = .next (if s.guard o.q o.n then s.land 0 1 (.creg o.d v) else s)
    lands (.cmpeq o) (a = b) ∧ lands (.cmpne o) (a ≠ b) ∧ lands (.cmplt o) (a.toInt < b.toInt) ∧
    lands (.cmpltu o) (a.toNat < b.toNat) ∧ lands (.cmple o) (a.toInt ≤ b.toInt) ∧ lands (.cmpleu o) (a.toNat ≤ b.toNat)) ∧
  (∀ (o : CmpiForm) (s : State),
    let a := s.sreg o.a
    let b : W64 := o.imm.signExtend 64
    let lands := fun (i : Instr) (p : Prop) => ∀ v : Bool, (v = true ↔ p) → exec i s = .next (s.land 0 1 (.creg o.d v))
    lands (.cmpeqi o) (a = b) ∧ lands (.cmplti o) (a.toInt < b.toInt) ∧ lands (.cmpltui o) (a.toNat < b.toNat)) ∧
  (∀ (o : CondForm) (s : State),
    let lands := fun (i : Instr) (v : Bool) => exec i s = .next (if s.guard o.q o.n then s.land 0 1 (.creg o.d v) else s)
    lands (.cand o) (s.creg o.a && s.creg o.b) ∧ lands (.cor o) (s.creg o.a || s.creg o.b) ∧
    lands (.cxor o) (s.creg o.a ^^ s.creg o.b)))

/-- R102, R160: a scalar or condition result that lands in the next cycle is what the next bundle reads, s0 and c0 keep reading 0 and 1, every
other scalar and condition register and every byte of scalar memory is as before, the schedule cycle has moved on by one and, with no branch
or repetition pending, so has the program counter. R102: a result on its way is not the content of its register while its landing cycle is
more than a cycle away: the next bundle reads every scalar and condition register as it was. R104: of two scalar results that land in one
cycle the one of the later-issued bundle stands, and within a bundle slot E's over slot B's and slot B's over slot C's. -/
def Obligations.ResultsLand : Prop :=
  (∀ (s : State) (slot : Nat),
  s.cur.seq.branch = none → s.cur.seq.rep = none → (∀ l ∈ s.cur.seq.inflight, s.cur.seq.scyc + 1 < l.due) →
  (∀ (d : BitVec 5) (v : W64),
    let t := (s.land slot 1 (.sreg d v)).advance
    (∀ r, t.sreg r = if r = 0#5 then 0#64 else if r = d then v else s.sreg r) ∧ (∀ r, t.creg r = s.creg r) ∧
    t.cur.smem = s.cur.smem ∧ t.mem = s.mem ∧ t.cur.cl = s.cur.cl ∧ t.cur.seq.inflight = s.cur.seq.inflight ∧
    t.cur.seq.scyc = s.cur.seq.scyc + 1 ∧ t.cur.seq.pc = s.cur.seq.pc + 1) ∧
  (∀ (d : BitVec 3) (v : Bool),
    let t := (s.land slot 1 (.creg d v)).advance
    (∀ r, t.creg r = if r = 0#3 then true else if r = d then v else s.creg r) ∧ (∀ r, t.sreg r = s.sreg r) ∧
    t.cur.smem = s.cur.smem ∧ t.mem = s.mem ∧ t.cur.cl = s.cur.cl ∧ t.cur.seq.inflight = s.cur.seq.inflight ∧
    t.cur.seq.scyc = s.cur.seq.scyc + 1 ∧ t.cur.seq.pc = s.cur.seq.pc + 1)) ∧
  (∀ (s : State),
  s.cur.seq.branch = none → s.cur.seq.rep = none → (∀ l ∈ s.cur.seq.inflight, s.cur.seq.scyc + 1 < l.due) →
  (∀ r, s.advance.sreg r = s.sreg r) ∧ (∀ r, s.advance.creg r = s.creg r) ∧ s.advance.cur.smem = s.cur.smem ∧
  s.advance.cur.cl = s.cur.cl ∧ s.advance.mem = s.mem ∧ s.advance.cur.seq.inflight = s.cur.seq.inflight) ∧
  (∀ (t : Task) (x y : Landing) (r : BitVec 5) (v w : W64), r ≠ 0#5 →
  x.dest = .sreg r v → y.dest = .sreg r w → x.due ≤ t.seq.scyc → y.due ≤ t.seq.scyc →
  (x.at_ < y.at_ ∨ (x.at_ = y.at_ ∧ x.slot < y.slot)) →
  (t.seq.inflight = [x, y] ∨ t.seq.inflight = [y, x]) → t.landDue.reg.sreg r = w)

/-- R172, R173: LDS and STS inside the 64 KiB and aligned: LDS lands the bytes as they stand in its issue cycle, three cycles later; STS stores
the low bytes of s[d] with latency 1, and an LDS issued in the next cycle reads them. R161, R173: under a false guard LDS and STS do
nothing; outside the 64 KiB or unaligned they are an ILLEGAL fault at the bundle with the address in TRAPINFO. -/
def Obligations.ScalarMemory : Prop :=
  ((∀ (o : LdsForm) (s : State),
    let ea := s.sreg o.a + s.sreg o.b
    let sz := 2 ^ o.size.toNat
    let v := leNat (s.cur.smem.bytes ea.toNat sz)
    s.guard o.q o.n = true → ea.toNat + sz ≤ 65536 → ea.toNat % sz = 0 →
    exec (.lds o) s = .next (s.land 0 3 (.sreg o.d
      (if o.sx = true ∧ 2 ^ (8 * sz - 1) ≤ v then BitVec.ofInt 64 ((v : Int) - 2 ^ (8 * sz)) else BitVec.ofNat 64 v)))) ∧
  (∀ (o : StsForm) (s : State),
    let ea := s.sreg o.a + s.sreg o.b
    let sz := 2 ^ o.size.toNat
    s.guard o.q o.n = true → ea.toNat + sz ≤ 65536 → ea.toNat % sz = 0 →
    ∃ bs : List Byte, bs.length = sz ∧ (∀ k (h : k < bs.length), bs[k] = (s.sreg o.d).extractLsb' (8 * k) 8) ∧
      exec (.sts o) s = .next (s.land 0 1 (.smem ea.toNat bs)) ∧
      (Memory.wf s.cur.smem = true → s.cur.seq.inflight = [] → s.cur.seq.branch = none → s.cur.seq.rep = none → ∀ x,
        let t := (s.land 0 1 (.smem ea.toNat bs)).advance
        t.cur.smem.get x = if h : ea.toNat ≤ x ∧ x - ea.toNat < bs.length then bs[x - ea.toNat]'h.2 else s.cur.smem.get x))) ∧
  ((∀ (o : LdsForm) (s : State), s.guard o.q o.n = false → exec (.lds o) s = .next s) ∧
  (∀ (o : StsForm) (s : State), s.guard o.q o.n = false → exec (.sts o) s = .next s) ∧
  (∀ (o : LdsForm) (s : State), s.guard o.q o.n = true →
    65536 < (s.sreg o.a + s.sreg o.b).toNat + 2 ^ o.size.toNat ∨ (s.sreg o.a + s.sreg o.b).toNat % 2 ^ o.size.toNat ≠ 0 →
    exec (.lds o) s = .next (s.takeFault s.cur.seq.pc
      { status := .illegal, cause := 0, slot := 0, info := s.sreg o.a + s.sreg o.b })) ∧
  (∀ (o : StsForm) (s : State), s.guard o.q o.n = true →
    65536 < (s.sreg o.a + s.sreg o.b).toNat + 2 ^ o.size.toNat ∨ (s.sreg o.a + s.sreg o.b).toNat % 2 ^ o.size.toNat ≠ 0 →
    exec (.sts o) s = .next (s.takeFault s.cur.seq.pc
      { status := .illegal, cause := 0, slot := 0, info := s.sreg o.a + s.sreg o.b })))

/-- R107, R177 to R181: outside delay bundles a branch sets a pending branch whose two delay bundles are still to issue, with the target and the
decision of its issue cycle; CALL also lands its link, LOOP its count. R108: a control transfer where none may stand is a DELAY_SLOT fault
at its bundle, and has no effect of its own. R107: after a branch issued at bundle j, the next two schedule cycles issue bundles j + 1 and j
+ 2, and the third the target if it transfers, else j + 3. R109: the bundle after REP n issues n times, at one program counter, its issue
number rising by one; then the next bundle. REP with n = 1 (its field 0) sets no repetition. -/
def Obligations.ControlTransfers : Prop :=
  (∀ (s : State), s.cur.seq.noTransfer = false →
  let set := fun (t : State) (target : Nat) (taken : Bool) (kind : BranchKind) =>
    t.modSeq fun q => { q with branch := some { target := target, taken := taken, left := 3, kind := kind } }
  (∀ (o : BrForm), 0 ≤ (s.cur.seq.pc : Int) + o.off.toInt → s.cur.seq.pc < 2 ^ 13 →
    let target := ((s.cur.seq.pc : Int) + o.off.toInt).toNat
    exec (.br o) s = .next (set s target (s.guard o.q o.n) .jump) ∧
    exec (.call o) s = .next (set (if s.guard o.q o.n then s.land 0 1 (.sreg 31#5 (BitVec.ofNat 64 (s.cur.seq.pc + 3))) else s)
      target (s.guard o.q o.n) .jump)) ∧
  (∀ (o : JmpForm), exec (.jmp o) s = .next (set s (s.sreg o.a + s.sreg o.b).toNat (s.guard o.q o.n) .jump)) ∧
  (∀ (o : RetForm), exec (.ret o) s = .next (set s (s.sreg o.a).toNat (s.guard o.q o.n) .jump)) ∧
  (∀ (d : BitVec 5) (imm : BitVec 14) f, 0 ≤ (s.cur.seq.pc : Int) + imm.toInt → s.cur.seq.pc < 2 ^ 13 →
    exec (.loop d imm f) s = .next (set (s.land 0 1 (.sreg d (s.sreg d - 1#64)))
      ((s.cur.seq.pc : Int) + imm.toInt).toNat (decide (s.sreg d ≠ 1#64)) .jump)) ∧
  (∀ f, exec (.endTask f) s = .next (set s 0 true .endTask)) ∧
  (∀ (m n : BitVec 6) f, exec (.rep m n f) s =
    .next (if n = 0#6 then s else s.modSeq fun q => { q with rep := some { n := n.toNat + 1, m := m, j := 0, fresh := true } }))) ∧
  (∀ (s : State), s.cur.seq.noTransfer = true →
  let fault := s.takeFault s.cur.seq.pc { status := .delaySlot, cause := 0, slot := 4, info := 0#64 }
  (∀ o, exec (.br o) s = .next fault ∧ exec (.call o) s = .next fault) ∧ (∀ o, exec (.jmp o) s = .next fault) ∧
  (∀ o, exec (.ret o) s = .next fault) ∧ (∀ d i f, exec (.loop d i f) s = .next fault) ∧
  (∀ f, exec (.endTask f) s = .next fault ∧ exec (.tret f) s = .next fault) ∧
  (∀ m n f, exec (.rep m n f) s = .next fault) ∧ (∀ i f, exec (.trap i f) s = .next fault)) ∧
  (∀ (s : State) (b : Branch), s.cur.seq.branch = some b → b.left = 3 → b.kind = .jump →
  s.advance.cur.seq.pc = s.cur.seq.pc + 1 ∧ s.advance.advance.cur.seq.pc = s.cur.seq.pc + 2 ∧
  s.advance.advance.advance.cur.seq.pc = (if b.taken then b.target else s.cur.seq.pc + 3) ∧
  s.advance.advance.advance.cur.seq.branch = none) ∧
  (∀ (s : State) (r : Rep), s.cur.seq.branch = none → s.cur.seq.rep = some r →
  r.fresh = true → r.j = 0 → 1 ≤ r.n →
  (∀ k < r.n, (State.advance^[k + 1] s).cur.seq.pc = s.cur.seq.pc + 1 ∧
    (State.advance^[k + 1] s).cur.seq.rep = some { r with fresh := false, j := k }) ∧
  (State.advance^[r.n + 1] s).cur.seq.pc = s.cur.seq.pc + 2 ∧ (State.advance^[r.n + 1] s).cur.seq.rep = none)

/-- R182: under its guard LAUNCH of an index pair within 16 bits posts its request and lands 0, or with four requests waiting posts nothing and
lands 1; a wider operand is an ILLEGAL fault; under a false guard it does nothing. R399: TLBINV with privilege and legal operands posts an
invalidation to the device's translation caches, and nothing else changes. -/
def Obligations.RequestsPosted : Prop :=
  (∀ (o : CrForm) (s : State),
  let request : LaunchReq := { region := (s.sreg o.a).setWidth 16, tail := (s.sreg o.b).setWidth 16, pc := s.cur.seq.pc }
  (s.guard o.q o.n = false → exec (.launch o) s = .next s) ∧
  (s.guard o.q o.n = true → (s.sreg o.a).toNat < 65536 → (s.sreg o.b).toNat < 65536 → s.cur.eng.launchReqs.length < 4 →
    exec (.launch o) s = .next
      ((s.modEng fun e => { e with launchReqs := e.launchReqs ++ [request] }).land 0 1 (.sreg o.d 0#64))) ∧
  (s.guard o.q o.n = true → (s.sreg o.a).toNat < 65536 → (s.sreg o.b).toNat < 65536 → 4 ≤ s.cur.eng.launchReqs.length →
    exec (.launch o) s = .next (s.land 0 1 (.sreg o.d 1#64))) ∧
  (s.guard o.q o.n = true → 65536 ≤ (s.sreg o.a).toNat ∨ 65536 ≤ (s.sreg o.b).toNat →
    exec (.launch o) s = .next (s.takeFault s.cur.seq.pc { status := .illegal, cause := 0, slot := 0, info := 0#64 }))) ∧
  (∀ (s : State), s.cur.reg.priv = true →
  let posts := fun (mode : BitVec 2) (va : Nat) (asid : BitVec 14) => ({ s with mem := { s.mem with tlbInvs := s.mem.tlbInvs ++
    [{ mode := mode, va := va, asid := asid, tile := s.cur.bnd.tile, issued := s.clk.tick }] } } : State)
  (∀ (o : JmpForm), s.guard o.q o.n = true → (s.sreg o.a).toNat < 2 ^ 56 → (s.sreg o.b).toNat < 2 ^ 14 →
    exec (.tlbinv o) s = .next (posts 0#2 (s.sreg o.a).toNat ((s.sreg o.b).setWidth 14))) ∧
  (∀ (b : BitVec 5) (n f : Bool) (q : BitVec 3), s.guard q n = true → (s.sreg b).toNat < 2 ^ 14 →
    exec (.tlbinvAsid b n q f) s = .next (posts 1#2 0 ((s.sreg b).setWidth 14))) ∧
  (∀ (n f : Bool) (q : BitVec 3), s.guard q n = true → exec (.tlbinvAll n q f) s = .next (posts 2#2 0 0#14)))

/-- R98, R99, R185: what MFC lands from each control register that the manual places in the task, with zero for a reserved number; sub-index 8
of FLAGS (R374) reads the OR over the clusters; REFST holds the running passes, the deferrals and the least time that one has left; WDOG
what the launch's watchdog has left. (That the time left is given in whole milliseconds, rounded down, is a choice of the model, log entry
25.) -/
def Obligations.ControlRegisterReads : Prop := ∀ (s : State) (r : BitVec 5) (f : Bool),
  let left := fun i : Nat => ((s.refreshOf (s.physTower s.cur.bnd.tile i)).defer.getD 0 - (s.clk.ptimeQ - s.clk.jumpQ) / 4) / 1000000
  let reads := fun (num : Nat) (v : W64) => exec (.mfc r 0#4 (BitVec.ofNat 6 num) f) s = .next (s.land 0 1 (.sreg r v))
  reads 0 (BitVec.ofNat 64 s.cur.bnd.tx) ∧ reads 1 (BitVec.ofNat 64 s.cur.bnd.ty) ∧ reads 2 (BitVec.ofNat 64 s.cur.bnd.w) ∧
  reads 3 (BitVec.ofNat 64 s.cur.bnd.h) ∧ reads 4 (BitVec.ofNat 64 s.cur.bnd.launch) ∧ reads 5 s.cur.reg.vl ∧
  reads 6 s.cur.reg.cma ∧ reads 7 s.cur.reg.cmb ∧ reads 8 s.cur.reg.fmt ∧ reads 10 s.cur.reg.tenab ∧ reads 11 s.cur.reg.mode ∧
  reads 12 (BitVec.ofNat 64 s.cur.seq.scyc) ∧ reads 13 (BitVec.ofNat 64 s.cur.seq.dcyc) ∧
  reads 14 (BitVec.ofNat 64 (s.clk.ptimeQ / 4)) ∧ reads 16 s.cur.reg.trapPc ∧
  reads 17 (s.cur.reg.trapCode ||| (if s.cur.seq.hnd then 0x80000#64 else 0#64)) ∧ reads 18 s.cur.reg.trapInfo ∧
  reads 19 0x3556#64 ∧ reads 20 s.cur.reg.drift ∧ reads 21 s.cur.reg.ringErr ∧
  (∃ v : W64, exec (.mfc r 8#4 9#6 f) s = .next (s.land 0 1 (.sreg r v)) ∧
    ∀ k : Nat, v.getLsbD k = true ↔ ∃ i : Fin 8, s.cur.cl[i].flags.getLsbD k = true) ∧
  ((∀ i < 8, left i < 2 ^ 32) → ∃ v, reads 15 v ∧
      (∀ i < 8, v.getLsbD (40 + i) = (s.refreshOf (s.physTower s.cur.bnd.tile i)).pass.isSome ∧
        v.getLsbD (32 + i) = s.deferring (s.physTower s.cur.bnd.tile i) ∧
        (s.deferring (s.physTower s.cur.bnd.tile i) = true → (v.setWidth 32).toNat ≤ left i)) ∧
      ((∀ i < 8, s.deferring (s.physTower s.cur.bnd.tile i) = false) ∧ v.setWidth 32 = 0#32 ∨
        ∃ i < 8, s.deferring (s.physTower s.cur.bnd.tile i) = true ∧ (v.setWidth 32).toNat = left i)) ∧
  (∀ i : Fin 8, exec (.mfc r (BitVec.ofNat 4 i.val) 9#6 f) s = .next (s.land 0 1 (.sreg r (s.cur.cl[i].flags.setWidth 64))) ∧
    exec (.mfc r (BitVec.ofNat 4 i.val) 22#6 f) s = .next (s.land 0 1 (.sreg r (BitVec.ofNat 64 s.cur.cl[i].runlen)))) ∧
  (∀ num : Nat, (23 ≤ num ∧ num ≤ 31) ∨ (36 ≤ num ∧ num ≤ 63) → reads num 0#64) ∧
  (s.cur.reg.priv = true → reads 32 s.cur.reg.ovt ∧ reads 33 (s.cur.bnd.asid.setWidth 64) ∧ reads 34 1#64 ∧
    ∀ l, s.launch? s.cur.bnd.launch = some l → reads 35 (BitVec.ofNat 64 l.wdogLeft))

/-- R98, R112, R184, R186: the refusals of MFC and MTC in their order: of MFC, a sub-index where none stands is ILLEGAL, and then control
registers 32 to 35 without privilege are PROTECTION; of MTC, those without privilege are PROTECTION, and then a register that is not
writable, a sub-index where none stands, a reserved bit or a value out of range is ILLEGAL. R98, R398, R399: LOVT and TLBINV, under a true
guard, are PROTECTION without privilege; a task's bundle cannot give itself privilege: no delivery of a result raises PRIV. -/
def Obligations.PrivilegeAndFaults : Prop :=
  (∀ (s : State) (r : BitVec 5) (x : BitVec 4) (c : BitVec 6) (f : Bool),
  let fault := fun (st : Status) => s.takeFault s.cur.seq.pc { status := st, cause := 0, slot := 0, info := 0#64 }
  (32 ≤ c.toNat → c.toNat ≤ 35 → s.cur.reg.priv = false →
    (x = 0#4 → exec (.mfc r x c f) s = .next (fault .protection)) ∧ exec (.mtc r x c f) s = .next (fault .protection)) ∧
  ((x ≠ 0#4 ∧ c ≠ 9#6 ∧ c ≠ 22#6) ∨ 8 < x.toNat ∨ (x = 8#4 ∧ c = 22#6) → exec (.mfc r x c f) s = .next (fault .illegal)) ∧
  ((c.toNat < 32 ∨ 35 < c.toNat ∨ s.cur.reg.priv = true) →
    (8 < x.toNat → exec (.mtc r x c f) s = .next (fault .illegal)) ∧
    (c.toNat ∈ [0, 1, 2, 3, 4, 8, 12, 13, 14, 15, 19, 20, 22, 23, 24, 25, 26, 27, 28, 29, 30, 31, 32, 33] ∨ 36 ≤ c.toNat ∨
      (x ≠ 0#4 ∧ c ≠ 9#6) → exec (.mtc r x c f) s = .next (fault .illegal)) ∧
    ((c = 5#6 ∧ ((s.sreg r).toNat = 0 ∨ 4096 < (s.sreg r).toNat)) ∨ (c = 6#6 ∧ 2 ^ 8 ≤ (s.sreg r).toNat) ∨
      (c = 7#6 ∧ 2 ^ 8 ≤ (s.sreg r).toNat) ∨ (c = 9#6 ∧ 2 ^ 9 ≤ (s.sreg r).toNat) ∨ (c = 10#6 ∧ 2 ^ 9 ≤ (s.sreg r).toNat) ∨
      (c = 11#6 ∧ 4 ≤ (s.sreg r).toNat) ∨ (c = 16#6 ∧ 2 ^ 13 ≤ (s.sreg r).toNat) ∨
      (c = 17#6 ∧ (2 ^ 20 ≤ (s.sreg r).toNat ∨ (s.sreg r).getLsbD 18 = true ∨ (s.sreg r).getLsbD 15 = true)) ∨
      (c = 21#6 ∧ 2 ^ 24 ≤ (s.sreg r).toNat) ∨ (c = 34#6 ∧ 2 ≤ (s.sreg r).toNat) →
      exec (.mtc r x c f) s = .next (fault .illegal)))) ∧
  (∀ (s : State), s.cur.reg.priv = false →
  (∀ (o : RetForm), s.guard o.q o.n = true →
    exec (.lovt o) s = .next (s.takeFault s.cur.seq.pc { status := .protection, cause := 0, slot := 0, info := 0#64 })) ∧
  (∀ (o : JmpForm), s.guard o.q o.n = true →
    exec (.tlbinv o) s = .next (s.takeFault s.cur.seq.pc { status := .protection, cause := 0, slot := 0, info := s.sreg o.a })) ∧
  (∀ (b : BitVec 5) (n f : Bool) (q : BitVec 3), s.guard q n = true →
    exec (.tlbinvAsid b n q f) s = .next (s.takeFault s.cur.seq.pc { status := .protection, cause := 0, slot := 0, info := 0#64 }) ∧
    exec (.tlbinvAll n q f) s = .next (s.takeFault s.cur.seq.pc { status := .protection, cause := 0, slot := 0, info := 0#64 })) ∧
  s.advance.cur.reg.priv = false ∧ ∀ d, (s.cur.deliver d).reg.priv = false)

/-- R55, R186, R377: MTC of a legal value to each control register that it may write: what the control register, the flags, RINGERR, PRIV or the
launch's watchdog hold once it lands, with every register of the task that it does not name, and its scalar memory, as they were. (The note
of a write of TRAPPC in a handler that R384's return asks for, and that PRIV is lowered and never raised, are log entry 19.) -/
def Obligations.ControlRegisterWrites : Prop := ∀ (s : State) (r : BitVec 5) (f : Bool),
  let v := s.sreg r
  let t := s.cur
  let writes := fun (x : BitVec 4) (num : Nat) (t' : Task) =>
    exec (.mtc r x (BitVec.ofNat 6 num) f) s = .next (s.land 0 1 (.ctl (BitVec.ofNat 6 num) x v)) ∧
    t.deliver (.ctl (BitVec.ofNat 6 num) x v) = t'
  (1 ≤ v.toNat → v.toNat ≤ 4096 → writes 0#4 5 { t with reg := { t.reg with vl := v } }) ∧
  (v.toNat < 2 ^ 8 → writes 0#4 6 { t with reg := { t.reg with cma := v } } ∧
    writes 0#4 7 { t with reg := { t.reg with cmb := v } }) ∧
  (v.toNat < 2 ^ 9 → writes 0#4 10 { t with reg := { t.reg with tenab := v } } ∧
    (∀ i : Fin 8, writes (BitVec.ofNat 4 i.val) 9
      { t with cl := t.cl.set i { t.cl[i] with flags := t.cl[i].flags &&& ~~~(v.setWidth 9) } }) ∧
    writes 8#4 9 { t with cl := t.cl.map fun c => { c with flags := c.flags &&& ~~~(v.setWidth 9) } }) ∧
  (v.toNat < 4 → writes 0#4 11 { t with reg := { t.reg with mode := v } }) ∧
  (v.toNat < 2 ^ 16 → writes 0#4 21 { t with reg := { t.reg with ringErr := t.reg.ringErr &&& ~~~v } }) ∧
  (writes 0#4 18 { t with reg := { t.reg with trapInfo := v } }) ∧
  (t.reg.priv = true → v.toNat < 2 → writes 0#4 34 { t with reg := { t.reg with priv := v.getLsbD 0 } }) ∧
  (v.toNat < 2 ^ 20 → v.getLsbD 18 = false → v.getLsbD 15 = false →
    exec (.mtc r 0#4 17#6 f) s = .next (s.land 0 1 (.ctl 17#6 0#4 (v &&& ~~~0x80000#64))) ∧
    t.deliver (.ctl 17#6 0#4 (v &&& ~~~0x80000#64)) = { t with reg := { t.reg with trapCode := v &&& ~~~0x80000#64 } }) ∧
  (v.toNat < 2 ^ 13 → writes 0#4 16
    { t with reg := { t.reg with trapPc := v }, seq := { t.seq with trapPcSet := t.seq.trapPcSet || t.seq.hnd } }) ∧
  (t.reg.priv = true → exec (.mtc r 0#4 35#6 f) s = .next (s.land 0 1 (.ctl 35#6 0#4 v)) ∧
    ∀ l, s.launch? s.cur.bnd.launch = some l → s.cur.seq.inflight = [] → s.cur.seq.branch = none → s.cur.seq.rep = none →
      ((s.land 0 1 (.ctl 35#6 0#4 v)).advance.launch? l.id).map (·.wdogLeft) = some v.toNat)

/-- R183, R187, R188, R398: SFMT, SETVL, SETCM and LOVT of legal operands. -/
def Obligations.Configuration : Prop := ∀ (s : State),
  (∀ (o : RetForm), s.guard o.q o.n = true → (s.sreg o.a).toNat < 2 ^ 28 → (s.sreg o.a).getLsbD 19 = false →
    exec (.sfmt o) s = .next (s.land 0 4 (.ctl 8#6 0#4 (s.sreg o.a)))) ∧
  (∀ (o : Cr1Form), s.guard o.q o.n = true →
    let m := (s.sreg o.a).toNat
    let v : W64 := if 4096 < m then 4096#64 else s.sreg o.a
    (m = 0 → exec (.setvl o) s = .next (s.land 0 1 (.sreg o.d 0#64))) ∧
    (m ≠ 0 → exec (.setvl o) s = .next ((s.land 0 1 (.ctl 5#6 0#4 v)).land 0 1 (.sreg o.d v)))) ∧
  (∀ (r : Bool) (a : BitVec 5) (imm : BitVec 8) (f : Bool), exec (.setcm r a imm f) s =
    .next (s.land 0 1 (.ctl (if r then 7#6 else 6#6) 0#4 (((s.sreg a).setWidth 8 ||| imm).setWidth 64)))) ∧
  (∀ (o : RetForm), s.guard o.q o.n = true → s.cur.reg.priv = true → (s.sreg o.a).toNat < 2 ^ 28 →
    (s.sreg o.a).extractLsb' 14 2 = 0#2 → (∀ i < 14, (s.sreg o.a).extractLsb' (2 * i) 2 ≠ 3#2) →
    exec (.lovt o) s = .next (s.land 0 1 (.ctl 32#6 0#4 (s.sreg o.a)))) ∧
  (∀ t v, (Task.deliver t (.ctl 8#6 0#4 v)) = { t with reg := { t.reg with fmt := v } } ∧
    (Task.deliver t (.ctl 32#6 0#4 v)) = { t with reg := { t.reg with ovt := v } })

/-! ### Traps (R377 to R387) and MARK (R402) -/

/-- R377 to R379: a program-serviceable fault of a task with a trap entry and outside a handler writes the trap state with CLASS 1, saves what
is in flight, sets HND and goes to the trap entry, in the same schedule cycle; scalar and condition registers, flags, vector registers,
scalar memory and the device's memories are as they were. R26, R380, R381: a terminal fault, or a program-serviceable one with no trap
entry, or (as DOUBLE_TRAP) one inside a handler, writes the trap state with CLASS 3 and the task issues no further bundle. (That DOUBLE_TRAP
shows TRAPINFO 0, CAUSE 0 and the slot of the fault itself is the model's reading, log entry 20.) -/
def Obligations.TakingFaults : Prop :=
  (∀ (s : State) (pc : Nat) (f : FaultInfo),
  f.cause ≠ 0 → f.cause < 16 → f.slot < 8 → s.cur.seq.hnd = false → s.cur.bnd.trapV = true →
  let t := s.takeFault pc f
  t.cur.reg.trapPc = BitVec.ofNat 64 (pc % 2 ^ 13) ∧
  t.cur.reg.trapCode =
    BitVec.ofNat 64 (1 * 65536 + f.slot * 4096 + f.cause * 256 + f.status.code) ∧
  t.cur.reg.trapInfo = f.info ∧ t.cur.seq.hnd = true ∧ t.cur.seq.pc = s.cur.bnd.trapEnt ∧
  t.cur.seq.saved = some (s.cur.seq.record s.clk.tick) ∧ t.cur.seq.inflight = [] ∧ t.cur.seq.branch = none ∧ t.cur.seq.rep = none ∧
  t.cur.seq.waits = [] ∧ t.cur.seq.scyc = s.cur.seq.scyc ∧ t.cur.seq.state = s.cur.seq.state ∧
  (∀ r, t.sreg r = s.sreg r) ∧ (∀ r, t.creg r = s.creg r) ∧ t.cur.cl = s.cur.cl ∧ t.cur.smem = s.cur.smem ∧ t.mem = s.mem ∧
  t.cur.rings = s.cur.rings ∧ t.cur.eng = s.cur.eng ∧ t.cur.reg.priv = s.cur.reg.priv) ∧
  (∀ (s : State) (pc : Nat) (f : FaultInfo), f.slot < 8 →
  (f.cause = 0 ∨ s.cur.seq.hnd = true ∨ s.cur.bnd.trapV = false) →
  let st : Status := if f.cause ≠ 0 ∧ s.cur.seq.hnd = true then .doubleTrap else f.status
  let info : W64 := if f.cause ≠ 0 ∧ s.cur.seq.hnd = true then 0#64 else f.info
  let t := s.takeFault pc f
  t.cur.reg.trapPc = BitVec.ofNat 64 (pc % 2 ^ 13) ∧ t.cur.reg.trapInfo = info ∧
  t.cur.reg.trapCode = BitVec.ofNat 64 (3 * 65536 + f.slot * 4096 + st.code) ∧
  t.cur.seq.state = .dead ∧ t.cur.seq.inflight = [] ∧ t.cur.issues = false)

/-- R382: outside a handler TRAP is taken after its bundle: the schedule cycle ends, and the handler is entered at the next bundle with CAUSE 1,
STATUS 1 and the code in TRAPINFO. Inside a handler it is DOUBLE_TRAP at its bundle (R380). R383: TFENCE does nothing when no enabled flag
is set in any cluster, and else is the ARITH_TRAP fault with cause 2 and the enabled flags and their clusters in TRAPINFO. R384: outside a
handler TRET is an illegal instruction; inside one it sets a pending branch of its own kind. -/
def Obligations.TrapInstructions : Prop :=
  (∀ (imm : BitVec 14) (f : Bool) (s : State), s.cur.seq.noTransfer = false →
  let fault : FaultInfo := { status := .illegal, cause := 1, slot := 0, info := imm.setWidth 64 }
  (s.cur.seq.hnd = false → exec (.trap imm f) s = .next (s.advance.takeFault s.advance.cur.seq.pc fault)) ∧
  (s.cur.seq.hnd = true → exec (.trap imm f) s = .next (s.takeFault s.cur.seq.pc fault))) ∧
  (∀ (f : Bool) (s : State),
  let e : BitVec 9 := s.cur.reg.tenab.setWidth 9
  ((∀ i : Fin 8, s.cur.cl[i].flags &&& e = 0#9) → exec (.tfence f) s = .next s) ∧
  ((∃ i : Fin 8, s.cur.cl[i].flags &&& e ≠ 0#9) → ∃ info : W64,
    exec (.tfence f) s = .next (s.takeFault s.cur.seq.pc { status := .arithTrap, cause := 2, slot := 0, info := info }) ∧
    (∀ k : Fin 9, info.getLsbD k = true ↔ ∃ i : Fin 8, (s.cur.cl[i].flags &&& e).getLsbD k = true) ∧
    (∀ i : Fin 8, info.getLsbD (16 + i) = true ↔ s.cur.cl[i].flags &&& e ≠ 0#9) ∧
    (∀ k, 9 ≤ k → (k < 16 ∨ 24 ≤ k) → info.getLsbD k = false))) ∧
  (∀ (f : Bool) (s : State), s.cur.seq.noTransfer = false →
  (s.cur.seq.hnd = false → exec (.tret f) s =
    .next (s.takeFault s.cur.seq.pc { status := .illegal, cause := 0, slot := 0, info := 0#64 })) ∧
  (s.cur.seq.hnd = true → exec (.tret f) s = .next
    (s.modSeq fun q => { q with branch := some { target := 0, taken := true, left := 3, kind := .trapReturn } })))

/-- R379, R384, R385, R387, R437: a handler that leaves TRAPPC alone and lands nothing gives the task back as it was: with the return in
schedule cycle r, the faulting bundle issues again, HND is clear, every result that was in flight lands as many cycles after r as it would
have after the fault, and what its bundle still waited for is waited for again, before the bundle of cycle r, with the device cycles that
the stall had lasted. After a handler that wrote TRAPPC the task goes on at the bundle written: the results land all the same, and the
pending branch, repetition and waits are gone. (That a resumed stall keeps the device cycles it had lasted is the model's reading, log entry
59: the rules do not say it.) -/
def Obligations.TrapAndReturn : Prop := ∀ (s u : State) (pc r : Nat) (f : FaultInfo),
  f.cause ≠ 0 → s.cur.seq.hnd = false → s.cur.bnd.trapV = true → pc < 2 ^ 13 →
  (∀ l ∈ s.cur.seq.inflight, l.at_ ≤ s.cur.seq.scyc ∧ s.cur.seq.scyc ≤ l.due) → s.cur.seq.scyc ≤ r →
  u = ((s.takeFault pc f).modSeq fun q => { q with scyc := r }) → u.cur.seq.pendingForced = [] →
  let results := fun t : State => t.cur.seq.hnd = false ∧ t.cur.seq.saved = none ∧
    t.cur.seq.inflight.map (fun l => (l.dest, l.slot, l.flags, l.runlen, l.due)) =
      s.cur.seq.inflight.map (fun l => (l.dest, l.slot, l.flags, l.runlen, l.due + (r - s.cur.seq.scyc)))
  let t := u.returnTrap
  (results t ∧ t.cur.seq.pc = pc ∧ t.cur.seq.branch = s.cur.seq.branch ∧ t.cur.seq.rep = s.cur.seq.rep ∧
    t.cur.seq.waits = s.cur.seq.waits ∧ t.cur.seq.scyc = (if s.cur.seq.waits = [] then r else r - 1) ∧
    (s.cur.seq.waits ≠ [] → t.cur.seq.resumed = true ∧ t.cur.seq.waitPc = s.cur.seq.waitPc ∧ t.cur.seq.waitScyc = s.cur.seq.waitScyc ∧
      t.clk.tick - t.cur.seq.waitFrom = s.clk.tick - s.cur.seq.waitFrom)) ∧
  ∀ v : W64, v.toNat < 2 ^ 13 →
    let w := ({ u with cur := u.cur.deliver (.ctl 16#6 0#4 v) } : State).returnTrap
    results w ∧ w.cur.seq.pc = v.toNat ∧ w.cur.seq.branch = none ∧ w.cur.seq.rep = none ∧ w.cur.seq.waits = [] ∧ w.cur.seq.scyc = r

/-- R402, R403, R405: MARK lands the drift word in DRIFT: the device cycles since the last MARK less those expected, saturated to 32 bits, bit
52 telling a saturation, the expectation in bits 51:32; it takes its device cycle as the next reference; and the registers and scalar memory
of the task are as they were. -/
def Obligations.MarkInstruction : Prop := ∀ (e : BitVec 20) (f : Bool) (s : State),
  let x : Int := (s.cur.seq.dcyc : Int) - s.cur.mark.dPrev - e.toNat
  let dr : Int := max (-(2 ^ 31)) (min (2 ^ 31 - 1) x)
  ∃ (t : State) (w : W64), exec (.mark e f) s = .next t ∧
    w.extractLsb' 0 32 = BitVec.ofInt 32 dr ∧ w.extractLsb' 32 20 = e ∧ (w.getLsbD 52 = true ↔ dr ≠ x) ∧ w.extractLsb' 53 11 = 0#11 ∧
    t.cur.seq = (s.land 0 1 (.ctl 20#6 0#4 w)).cur.seq ∧ t.cur.mark.dPrev = s.cur.seq.dcyc ∧ t.cur.mark.driftPrev = dr ∧
    t.cur.reg = s.cur.reg ∧ t.cur.cl = s.cur.cl ∧ t.cur.smem = s.cur.smem ∧ t.cur.rings = s.cur.rings ∧ t.cur.eng = s.cur.eng ∧
    (dr = 0 → t.obs = s.obs ∧ t.mem = s.mem)

/-! ### The arithmetic slot -/

/-- R193 to R196, R205: the integer instructions of slot A, element by element: over N, the least of VL and the source lengths, each position
holds the function of its source values where the mask is true, and zero or the old value elsewhere; LN when N is below VL. R197, R198 for
the same shape of instruction (VIADD stands for it): more than 32 runs. -/
def Obligations.IntegerElements : Prop :=
  (∀ (s : State), PositiveRuns s →
  (∀ (o : AForm),
    let a := fun i : Fin 8 => s.cur.cl[i].vreg o.a
    let b := fun i : Fin 8 => if o.s then [((s.sreg o.b).setWidth 32, 4096)] else s.cur.cl[i].vreg o.b
    let n := fun i : Fin 8 => min s.vl (min (runLen (a i)) (runLen (b i)))
    let lands := fun (i : Instr) (f : W32 → W32 → W32) => ElementsLand s (exec i s) 1 2 (.vreg o.d) o.cl n fun i =>
      elements (maskAt s.cur.cl[i] o.k) o.z 0#32 (runAt 0#32 (s.cur.cl[i].vreg o.d))
        (fun p => (f (runAt 0#32 (a i) p) (runAt 0#32 (b i) p), 0#9)) (n i)
    lands (.viadd o) (· + ·) ∧ lands (.visub o) (· - ·) ∧ lands (.vimul o) (· * ·) ∧
    lands (.vimulh o) (fun x y => (x.signExtend 64 * y.signExtend 64).extractLsb' 32 32) ∧
    lands (.vimin o) (fun x y => if x.toInt ≤ y.toInt then x else y) ∧
    lands (.vimax o) (fun x y => if x.toInt ≤ y.toInt then y else x) ∧
    lands (.viminu o) (fun x y => if x.toNat ≤ y.toNat then x else y) ∧
    lands (.vimaxu o) (fun x y => if x.toNat ≤ y.toNat then y else x) ∧
    lands (.vand o) (· &&& ·) ∧ lands (.vor o) (· ||| ·) ∧ lands (.vxor o) (· ^^^ ·) ∧
    lands (.vshl o) (fun x y => x <<< (y.toNat % 32)) ∧ lands (.vshr o) (fun x y => x >>> (y.toNat % 32)) ∧
    lands (.vshra o) (fun x y => x.sshiftRight (y.toNat % 32))) ∧
  (∀ (o : A1Form),
    let a := fun i : Fin 8 => s.cur.cl[i].vreg o.a
    let n := fun i : Fin 8 => min s.vl (runLen (a i))
    ElementsLand s (exec (.viabs o) s) 1 2 (.vreg o.d) o.cl n fun i =>
      elements (maskAt s.cur.cl[i] o.k) o.z 0#32 (runAt 0#32 (s.cur.cl[i].vreg o.d))
        (fun p => (if (runAt 0#32 (a i) p).toInt < 0 then -(runAt 0#32 (a i) p) else runAt 0#32 (a i) p, 0#9)) (n i))) ∧
  (∀ (s : State) (o : AForm), PositiveRuns s →
  let a := fun i : Fin 8 => s.cur.cl[i].vreg o.a
  let b := fun i : Fin 8 => if o.s then [((s.sreg o.b).setWidth 32, 4096)] else s.cur.cl[i].vreg o.b
  let n := fun i : Fin 8 => min s.vl (min (runLen (a i)) (runLen (b i)))
  ElementsOverflow s (exec (.viadd o) s) 1 2 (.vreg o.d) o.cl fun i =>
    elements (maskAt s.cur.cl[i] o.k) o.z 0#32 (runAt 0#32 (s.cur.cl[i].vreg o.d))
      (fun p => (runAt 0#32 (a i) p + runAt 0#32 (b i) p, 0#9)) (n i))

/-- R193 to R196, R201 to R204: the floating instructions of slot A, element by element, each position's arithmetic that of the chapter on
numbers with the mode, flush bit and overflow table that the bundle reads; the addend of the FMA class is d. R139, R201: an instruction that
reads a rounding mode which is none of the five is an illegal operand. -/
def Obligations.FloatElements : Prop :=
  (∀ (s : State), PositiveRuns s → s.cur.reg.rm ≤ 4 →
  let cx := s.numCtx
  let v := fun (i : Fin 8) (r : BitVec 5) => s.cur.cl[i].vreg r
  (∀ (o : AForm),
    let b := fun i : Fin 8 => if o.s then [((s.sreg o.b).setWidth 32, 4096)] else v i o.b
    let n := fun i : Fin 8 => min s.vl (min (runLen (v i o.a)) (runLen (b i)))
    let m := fun i : Fin 8 => min s.vl (min (runLen (v i o.a)) (min (runLen (b i)) (runLen (v i o.d))))
    let lands := fun (i : Instr) (lat : Nat) (f : FVal → FVal → FVal × Flags) =>
      ElementsLand s (exec i s) 1 lat (.vreg o.d) o.cl n fun i =>
        elements (maskAt s.cur.cl[i] o.k) o.z 0#32 (runAt 0#32 (v i o.d))
          (fun p => finish32 cx (f (fp32 cx (runAt 0#32 (v i o.a) p)) (fp32 cx (runAt 0#32 (b i) p)))) (n i)
    let fma := fun (i : Instr) (f : FVal → FVal → FVal → FVal × Flags) =>
      ElementsLand s (exec i s) 1 4 (.vreg o.d) o.cl m fun i =>
        elements (maskAt s.cur.cl[i] o.k) o.z 0#32 (runAt 0#32 (v i o.d))
          (fun p => finish32 cx (f (fp32 cx (runAt 0#32 (v i o.a) p)) (fp32 cx (runAt 0#32 (b i) p))
            (fp32 cx (runAt 0#32 (v i o.d) p)))) (m i)
    lands (.vadd o) 4 (addV cx.mode) ∧ lands (.vsub o) 4 (fun x y => addV cx.mode x y.negate) ∧ lands (.vmul o) 4 mulV ∧
    lands (.vdiv o) 14 divV ∧ lands (.vmin o) 4 (minmaxV false) ∧ lands (.vmax o) 4 (minmaxV true) ∧
    fma (.vfma o) (fmaV cx.mode) ∧ fma (.vfms o) (fun x y z => fmaV cx.mode x y z.negate) ∧
    fma (.vfnma o) (fun x y z => fmaV cx.mode x.negate y z)) ∧
  (∀ (o : A1Form),
    let n := fun i : Fin 8 => min s.vl (runLen (v i o.a))
    let lands := fun (i : Instr) (lat : Nat) (f : FVal → W32 × Flags) =>
      ElementsLand s (exec i s) 1 lat (.vreg o.d) o.cl n fun i =>
        elements (maskAt s.cur.cl[i] o.k) o.z 0#32 (runAt 0#32 (v i o.d)) (fun p => f (fp32 cx (runAt 0#32 (v i o.a) p))) (n i)
    lands (.vabs o) 2 (signOp cx FVal.absV) ∧ lands (.vneg o) 2 (signOp cx FVal.negate) ∧
    (∀ p : Bool,
      lands (.vsqrt o p) 14 (fun x => finish32 cx (if p && nonPositive x then nanWith flNP else sqrtV x)) ∧
      lands (.vrsq o p) 14 (fun x => finish32 cx (if p && nonPositive x then nanWith flNP else rsqrtV x))) ∧
    lands (.vrcp o) 14 (fun x => finish32 cx (divV (.fin (.ofNat 1)) x)) ∧
    lands (.vexp o) 12 (specFn .exp cx) ∧ lands (.vlog o) 12 (specFn .log cx) ∧ lands (.vsin o) 12 (specFn .sin cx) ∧
    lands (.vcos o) 12 (specFn .cos cx) ∧ lands (.vtanh o) 12 (specFn .tanh cx) ∧
    lands (.vrint o 0#3) 4 (fun x => finish32 cx (roundIntegral cx.mode x)) ∧
    (∀ x : BitVec 3, x ≠ 0#3 → lands (.vrint o x) 4 (fun y => finish32 cx (roundIntegral (x.toNat - 1) y))))) ∧
  (∀ (s : State), 4 < s.cur.reg.rm →
  let fault := s.takeFault s.cur.seq.pc { status := .illegal, cause := 0, slot := 1, info := 0#64 }
  (∀ o, exec (.vadd o) s = .next fault ∧ exec (.vsub o) s = .next fault ∧ exec (.vmul o) s = .next fault ∧
    exec (.vdiv o) s = .next fault ∧ exec (.vfma o) s = .next fault ∧ exec (.vfms o) s = .next fault ∧
    exec (.vfnma o) s = .next fault) ∧
  (∀ o p, exec (.vsqrt o p) s = .next fault ∧ exec (.vrsq o p) s = .next fault ∧ exec (.vrcp o) s = .next fault ∧
    exec (.vrint o 0#3) s = .next fault))

/-- R206 to R208, R213, R214: compares, VSEL and the mask instructions, position by position; k0 counts as VL and a write to it is carried out
and discarded. -/
def Obligations.ComparesAndMasks : Prop := ∀ (s : State), PositiveRuns s →
  let cx := s.numCtx
  let v := fun (i : Fin 8) (r : BitVec 5) => s.cur.cl[i].vreg r
  (∀ (o : VcmpForm),
    let b := fun i : Fin 8 => if o.s then [((s.sreg o.b).setWidth 32, 4096)] else v i o.b
    let n := fun i : Fin 8 => min s.vl (min (runLen (v i o.a)) (runLen (b i)))
    let lands := fun (i : Instr) (f : W32 → W32 → Bool × BitVec 9) => ElementsLand s (exec i s) 1 2 (.kreg o.d) o.cl n fun i =>
      elements (maskAt s.cur.cl[i] o.k) o.z false (maskAt s.cur.cl[i] o.d)
        (fun p => f (runAt 0#32 (v i o.a) p) (runAt 0#32 (b i) p)) (n i)
    lands (.vcmp o) (fun x y => fpPredicate o.x.toNat (fp32 cx x) (fp32 cx y)) ∧
    (o.x = 0#3 → lands (.vicmp o) fun x y => (decide (x = y), 0#9)) ∧
    (o.x = 1#3 → lands (.vicmp o) fun x y => (decide (x ≠ y), 0#9)) ∧
    (o.x = 2#3 → lands (.vicmp o) fun x y => (decide (x.toInt < y.toInt), 0#9)) ∧
    (o.x = 3#3 → lands (.vicmp o) fun x y => (decide (x.toInt ≤ y.toInt), 0#9)) ∧
    (o.x = 4#3 → lands (.vicmp o) fun x y => (decide (x.toNat < y.toNat), 0#9)) ∧
    (o.x = 5#3 → lands (.vicmp o) fun x y => (decide (x.toNat ≤ y.toNat), 0#9))) ∧
  (∀ (o : VselForm),
    let b := fun i : Fin 8 => if o.s then [((s.sreg o.b).setWidth 32, 4096)] else v i o.b
    let n := fun i : Fin 8 => min s.vl (min (runLen (v i o.a)) (runLen (b i)))
    ElementsLand s (exec (.vsel o) s) 1 2 (.vreg o.d) o.cl n fun i =>
      elements (maskAt s.cur.cl[i] o.k) false 0#32 (runAt 0#32 (b i)) (fun p => (runAt 0#32 (v i o.a) p, 0#9)) (n i)) ∧
  (∀ (d a b : BitVec 3) (cl : BitVec 2),
    let m := fun (i : Fin 8) (k : BitVec 3) => maskAt s.cur.cl[i] k
    let len := fun (i : Fin 8) (k : BitVec 3) => if k = 0#3 then s.vl else runLen (s.cur.cl[i].kreg k)
    let n1 := fun i => min s.vl (len i a)
    let n2 := fun i => min s.vl (min (len i a) (len i b))
    let lands := fun (i : Instr) (n : Fin 8 → Nat) (f : Fin 8 → Nat → Bool) =>
      ElementsLand s (exec i s) 1 2 (.kreg d) cl n fun i => elements (fun _ => true) false false (fun _ => false)
        (fun p => (f i p, 0#9)) (n i)
    lands (.kand { d := d, a := a, b := b, cl := cl }) n2 (fun i p => m i a p && m i b p) ∧
    lands (.kor { d := d, a := a, b := b, cl := cl }) n2 (fun i p => m i a p || m i b p) ∧
    lands (.kxor { d := d, a := a, b := b, cl := cl }) n2 (fun i p => m i a p ^^ m i b p) ∧
    lands (.knot d a cl) n1 (fun i p => !m i a p) ∧
    lands (.kfirst d a cl) n1 (fun i p => m i a p && (List.range p).all fun q => !m i a q) ∧
    ∀ e : BitVec 5, ∃ t, exec (.kcnt e a cl) s = .next t ∧ ResultLands s t 1 2 (.vreg e) (s.selected cl)
      (fun i => [BitVec.ofNat 32 ((List.range (n1 i)).filter (m i a)).length])
      fun i => if n1 i < s.vl then 0x040#9 else 0#9)

/-- R216 to R221: run control. -/
def Obligations.RunControl : Prop := ∀ (s : State), PositiveRuns s →
  let v := fun (i : Fin 8) (r : BitVec 5) => s.cur.cl[i].vreg r
  let lands := fun (i : Instr) (d : BitVec 5) (cl : BitVec 2) (want : Fin 8 → List W32) (flags : Fin 8 → BitVec 9) =>
    (∀ i ∈ s.selected cl, runsNeeded (want i) ≤ 32) →
    ∃ t, exec i s = .next t ∧ ResultLands s t 1 3 (.vreg d) (s.selected cl) want flags
  (∀ (o : A1Form) (p : Bool),
    let n := fun i : Fin 8 => min s.vl (runLen (v i o.a))
    ElementsLand s (exec (.vcoal o p) s) 1 3 (.vreg o.d) o.cl n fun i =>
      elements (maskAt s.cur.cl[i] o.k) o.z 0#32 (runAt 0#32 (v i o.d))
        (fun q => (if p = true ∧ isNan32 (runAt 0#32 (v i o.a) q) = true then 0x7FC00000#32 else runAt 0#32 (v i o.a) q, 0#9)) (n i)) ∧
  (∀ (o : V3Form) (isInt : Bool),
    let t := (s.sreg o.b).setWidth 32
    let merged := fun i : Fin 8 => mergeRuns (fun x y => within s.numCtx isInt x y t) (v i o.a) [] false
    lands (.vcoalq o isInt) o.d o.cl (fun i => flat (merged i).1)
      fun i => (if !isInt && (fp32 s.numCtx t).isSig then 0x001#9 else 0#9) ||| (if (merged i).2 then 0x010#9 else 0#9)) ∧
  (∀ (o : V3Form), lands (.vrlset o) o.d o.cl
    (fun _ => List.replicate (min (s.sreg o.b).toNat 4096) ((s.sreg o.a).setWidth 32))
    fun _ => if 4096 < (s.sreg o.b).toNat then 0x040#9 else 0#9) ∧
  (∀ (d b : BitVec 5) (cl : BitVec 2),
    lands (.vsplat d b cl) d cl (fun _ => List.replicate s.vl ((s.sreg b).setWidth 32)) fun _ => 0#9) ∧
  (∀ (d a : BitVec 5) (cl : BitVec 2),
    lands (.vruns d a cl) d cl (fun i => [BitVec.ofNat 32 (v i a).length]) (fun _ => 0#9) ∧
    lands (.vlen d a cl) d cl (fun i => [BitVec.ofNat 32 (runLen (v i a))]) fun _ => 0#9) ∧
  (∀ (d : BitVec 5) (a : BitVec 3) (cl : BitVec 2),
    lands (.vrunsK d a cl) d cl (fun i => [BitVec.ofNat 32 (if a = 0#3 then 1 else (s.cur.cl[i].kreg a).length)]) (fun _ => 0#9) ∧
    lands (.vlenK d a cl) d cl (fun i => [BitVec.ofNat 32 (if a = 0#3 then s.vl else runLen (s.cur.cl[i].kreg a))]) fun _ => 0#9) ∧
  (∀ (o : V3Form),
    lands (.vtrim o) o.d o.cl (fun i => (flat (v i o.a)).take (s.sreg o.b).toNat) (fun _ => 0#9) ∧
    lands (.vtrimDrop o) o.d o.cl (fun i => (flat (v i o.a)).drop (s.sreg o.b).toNat) (fun _ => 0#9) ∧
    lands (.vcat o) o.d o.cl (fun i => (flat (v i o.a) ++ flat (v i o.b)).take 4096)
      fun i => if 4096 < runLen (v i o.a) + runLen (v i o.b) then 0x040#9 else 0#9)

/-- R222, R223, R225: the integer reductions: the sum modulo 2^32, the greatest and the least of the elements under the mask, or the identity
with none; at tile scope over the selected clusters together. R152, R222 to R225: the floating reductions and VDOT: the fixed tree over the
runs (or pieces) of each cluster, 32 (or 64) positions with the identity where none stands, rounding to nearest even whatever RM holds, and
at tile scope over the eight clusters with the identity for one not selected; the flags raised are those of the contributions and of every
combination of the tree, at tile scope those of its second stage in every selected cluster too, and LN where N is below VL. -/
def Obligations.Reductions : Prop :=
  (∀ (s : State) (o : RedForm), PositiveRuns s →
  (∀ i : Fin 8, (s.cur.cl[i].vreg o.a).length ≤ 32) →
  let a := fun i : Fin 8 => s.cur.cl[i].vreg o.a
  let n := fun i : Fin 8 => min s.vl (runLen (a i))
  let parts := fun i : Fin 8 => ((List.range (n i)).filter (maskAt s.cur.cl[i] o.k)).map (runAt 0#32 (a i))
  let all := fun i : Fin 8 => if o.t then (s.selected o.cl).flatMap parts else parts i
  let lands := fun (i : Instr) (f : W32 → W32 → W32) (ident : W32) => ∃ t, exec i s = .next t ∧
    ResultLands s t 1 (if o.t then 9 else 6) (.vreg o.d) (s.selected o.cl) (fun i => [(all i).foldl f ident])
      fun i => if n i < s.vl then 0x040#9 else 0#9
  lands (.vrisum o) (· + ·) 0#32 ∧ lands (.vrimax o) (fun x y => if x.toInt ≤ y.toInt then y else x) 0x80000000#32 ∧
  lands (.vrimin o) (fun x y => if x.toInt ≤ y.toInt then x else y) 0x7FFFFFFF#32) ∧
  (∀ (s : State) (o : RedForm),
  let cx := { s.numCtx with mode := 0 }
  let n := fun i : Fin 8 => min s.vl (runLen (s.cur.cl[i].vreg o.a))
  let lands := fun (i : Instr) (op : RedOp) (n : Fin 8 → Nat) (levels : Nat) (terms : Fin 8 → List (W32 × Flags)) =>
    let first := fun i : Fin 8 => pairTree op.comb levels fun j => (((terms i).map Prod.fst)[j]?).getD op.ident
    let stage := pairTree op.comb 3 fun j => if h : j < 8 then (if ⟨j, h⟩ ∈ s.selected o.cl then (first ⟨j, h⟩).1 else op.ident) else op.ident
    ∃ t, exec i s = .next t ∧ ResultLands s t 1 (if o.t then 9 else 6) (.vreg o.d) (s.selected o.cl)
      (fun i => [if o.t then stage.1 else (first i).1])
      fun i => (terms i).foldl (fun f p => f ||| p.2) 0#9 ||| (first i).2 ||| (if o.t then stage.2 else 0#9) |||
        (if n i < s.vl then 0x040#9 else 0#9)
  let one := fun (i : Instr) (op : RedOp) (term : W32 → Nat → W32 × Flags) => lands i op n 5 fun i =>
    (admitted (s.cur.cl[i].vreg o.a) (s.cur.cl[i].mask o.k (n i))).map fun p => term p.1 p.2
  one (.vrsum o) (sumOp cx) (sumTerm cx) ∧
  one (.vrmax o) (fpMinMax cx true) (onceTerm (fpMinMax cx true)) ∧
  one (.vrmin o) (fpMinMax cx false) (onceTerm (fpMinMax cx false)) ∧
  ∀ b : BitVec 5,
    let m := fun i : Fin 8 => min s.vl (min (runLen (s.cur.cl[i].vreg o.a)) (runLen (s.cur.cl[i].vreg b)))
    lands (.vdot o b) (sumOp cx) m 6 fun i =>
      (admitted (zipR (fitLen 0#32 (m i) (s.cur.cl[i].vreg o.a)) (fitLen 0#32 (m i) (s.cur.cl[i].vreg b)))
        (s.cur.cl[i].mask o.k (m i))).map fun p => dotTerm cx p.1.1 p.1.2 p.2)

/-! ### The move slot -/

/-- R230, R252, R286, R287, R290 to R293: the plain dense, strided and indexed loads of elements whose addresses are aligned and leased: element
p of each selected cluster is the container of the code at its address, under the mask, six cycles later; LN when N is below VL. With
MODE.FESTRICT an empty granule among those that the elements cover is an ILLEGAL fault at the bundle that names the first one, in the order
of clusters, then of positions, then of addresses (that the lowest element is the one of lowest position is the model's reading, log entry
95); and a load of at most 32 elements that reads a poisoned row leaves its task a hardware error to take at the next boundary. R72, R288,
R291, R292: the faults of tower loads and stores, whatever their FE: a dense base that is not a multiple of the element size is an illegal
operand in the first selected cluster; so is a strided or indexed element of four bits, or one whose address is not a multiple of the
element size, the first cluster and the first element of it that fail; and where all are aligned, an element that is not leased is
TOWER_RANGE, again the first. -/
def Obligations.TowerLoads : Prop :=
  (∀ (s : State) (o : BMemForm), PositiveRuns s →
  (∀ l ∈ s.cur.seq.inflight, l.at_ < s.cur.seq.scyc) → o.fe = 0#2 →
  let w := lfWidth o.lf.toNat
  let size := (w + 7) / 8
  let tile := s.cur.bnd.tile
  let ea := (s.sreg o.a + s.sreg o.b).toNat
  let strided := fun p : Nat => 8 * (((s.sreg o.a).toNat + (p : Int) * (s.sreg o.b).toInt) % 2 ^ 64).toNat
  let index := fun i : Fin 8 => s.cur.cl[i].vreg (o.d + 1#5)
  let indexed := fun (i : Fin 8) (p : Nat) =>
    8 * (((s.sreg o.a).toNat + (runAt 0#32 (index i) p).toInt * (s.sreg o.b).toInt) % 2 ^ 64).toNat
  let lands := fun (i : Instr) (n : Fin 8 → Nat) (addr : Fin 8 → Nat → Nat) =>
    let covered := fun (j : Fin 8) (g : Nat) => j ∈ s.selected o.cl ∧ ∃ p < n j, g ∈ granulesOf (addr j p / 8) size
    let firstEmpty := fun (j : Fin 8) (g : Nat) => ∃ p < n j, j ∈ s.selected o.cl ∧ g ∈ granulesOf (addr j p / 8) size ∧
      s.isFull tile j.val g = false ∧ (∀ h ∈ granulesOf (addr j p / 8) size, h < g → s.isFull tile j.val h = true) ∧
      (∀ q < p, ∀ h ∈ granulesOf (addr j q / 8) size, s.isFull tile j.val h = true) ∧
      ∀ k h, covered k h → k < j → s.isFull tile k.val h = true
    let strict := s.cur.reg.mode.getLsbD 1
    (∀ i ∈ s.selected o.cl, ∀ p < n i, (w ≠ 4 → addr i p / 8 % (w / 8) = 0) ∧ s.rangeOk s.cur i.val (addr i p / 8) size = true) →
    ((strict = true → ∀ j g, covered j g → s.isFull tile j.val g = true) →
      ((∀ j g, covered j g → s.towerPoisoned tile j.val (g / 4) = false) →
        ElementsLand s (exec i s) 2 6 (.vreg o.d) o.cl n fun i =>
          elements (maskAt s.cur.cl[i] o.k) false 0#32 (runAt 0#32 (s.cur.cl[i].vreg o.d))
            (fun p => (lfLoad o.lf.toNat (s.towerCode tile i.val w (addr i p)), 0#9)) (n i)) ∧
      ((∃ j g, covered j g ∧ s.towerPoisoned tile j.val (g / 4) = true) → (∀ j ∈ s.selected o.cl, n j ≤ 32) →
        s.cur.seq.state ≠ .dead → s.cur.seq.pendingFault = none → ∃ t, exec i s = .next t ∧
          t.cur.seq.pendingFault = some { fault := { status := .hwError, cause := 0, slot := 6, info := 0#64 }, pc := none, redo := true } ∧
          t.mem = s.mem ∧ t.cur.reg = s.cur.reg ∧ t.cur.cl = s.cur.cl)) ∧
    (strict = true → ∀ j g, firstEmpty j g → exec i s =
      .next (s.takeFault s.cur.seq.pc { status := .illegal, cause := 0, slot := 2, info := towerInfo j (16 * g) }))
  ((s.selected o.cl ≠ [] → w ≠ 4 → ea % (w / 8) = 0) → lands (.vld o) (fun _ => min s.vl (512 / w)) fun _ p => 8 * ea + p * w) ∧
  (w ≠ 4 → lands (.vlds o) (fun _ => min s.vl 16) (fun _ p => strided p) ∧
    lands (.vldx o) (fun i => min (min s.vl (runLen (index i))) 16) indexed)) ∧
  (∀ (s : State) (o : BMemForm),
  let w := lfWidth o.lf.toNat
  let ea := (s.sreg o.a + s.sreg o.b).toNat
  let strided := fun p : Nat => 8 * (((s.sreg o.a).toNat + (p : Int) * (s.sreg o.b).toInt) % 2 ^ 64).toNat
  let index := fun i : Fin 8 => s.cur.cl[i].vreg (o.d + 1#5)
  let indexed := fun (i : Fin 8) (p : Nat) =>
    8 * (((s.sreg o.a).toNat + (runAt 0#32 (index i) p).toInt * (s.sreg o.b).toInt) % 2 ^ 64).toNat
  let fault := fun (st : Status) (i : Fin 8) (a : Nat) => s.takeFault s.cur.seq.pc { status := st, cause := 0, slot := 2, info := towerInfo i a }
  let firsts := fun (n : Fin 8 → Nat) (bad : Fin 8 → Nat → Bool) (i : Fin 8) (p : Nat) =>
    i ∈ s.selected o.cl ∧ p < n i ∧ bad i p = true ∧ (∀ q < p, bad i q = false) ∧ ∀ j ∈ s.selected o.cl, j < i → ∀ q < n j, bad j q = false
  let odd := fun (addr : Fin 8 → Nat → Nat) (i : Fin 8) (p : Nat) => addr i p / 8 % (w / 8) != 0
  let out := fun (addr : Fin 8 → Nat → Nat) (i : Fin 8) (p : Nat) => !s.rangeOk s.cur i.val (addr i p / 8) ((w + 7) / 8)
  let dense := fun (ins : Instr) (n : Fin 8 → Nat) =>
    (w ≠ 4 → ea % (w / 8) ≠ 0 → ∀ i, (s.selected o.cl).head? = some i → exec ins s = .next (fault .illegal i ea)) ∧
    ((w = 4 ∨ ea % (w / 8) = 0) → ∀ i p, firsts n (out fun _ p => 8 * ea + p * w) i p →
      exec ins s = .next (fault .towerRange i ((8 * ea + p * w) / 8)))
  let sparse := fun (ins : Instr) (n : Fin 8 → Nat) (addr : Fin 8 → Nat → Nat) =>
    (w = 4 → ∀ i, firsts n (fun _ _ => true) i 0 → exec ins s = .next (fault .illegal i (addr i 0 / 8))) ∧
    (w ≠ 4 → (∀ i p, firsts n (odd addr) i p → exec ins s = .next (fault .illegal i (addr i p / 8))) ∧
      ((∀ i ∈ s.selected o.cl, ∀ p < n i, odd addr i p = false) → ∀ i p, firsts n (out addr) i p →
        exec ins s = .next (fault .towerRange i (addr i p / 8))))
  dense (.vld o) (fun _ => min s.vl (512 / w)) ∧
  dense (.vst o) (fun i => min (min s.vl (runLen (s.cur.cl[i].vreg o.d))) (512 / w)) ∧
  sparse (.vlds o) (fun _ => min s.vl 16) (fun _ p => strided p) ∧
  sparse (.vsts o) (fun i => min (min s.vl (runLen (s.cur.cl[i].vreg o.d))) 16) (fun _ p => strided p) ∧
  sparse (.vldx o) (fun i => min (min s.vl (runLen (index i))) 16) indexed ∧
  sparse (.vstx o) (fun i => min (min s.vl (min (runLen (s.cur.cl[i].vreg o.d)) (runLen (index i)))) 16) indexed)

/-- R290 to R294: the plain dense, strided and indexed stores of elements whose addresses are aligned and leased: every tower byte outside the
stored elements of the selected clusters, where the mask is true, is as it was, and so are every register, scalar memory, HBM, host and peer
memory; the last element stored to an address stands there. With FE = 0 no full bit changes; with FE = 1 those of the granules that the
elements cover are set, and no other. -/
def Obligations.TowerStores : Prop := ∀ (s : State) (o : BMemForm),
  o.fe = 0#2 ∨ o.fe = 1#2 → (∀ i j : Fin 8, s.physTower s.cur.bnd.tile i.val = s.physTower s.cur.bnd.tile j.val → i = j) →
  let w := lfWidth o.lf.toNat
  let size := (w + 7) / 8
  let tile := s.cur.bnd.tile
  let ea := (s.sreg o.a + s.sreg o.b).toNat
  let strided := fun p : Nat => 8 * (((s.sreg o.a).toNat + (p : Int) * (s.sreg o.b).toInt) % 2 ^ 64).toNat
  let index := fun i : Fin 8 => s.cur.cl[i].vreg (o.d + 1#5)
  let indexed := fun (i : Fin 8) (p : Nat) =>
    8 * (((s.sreg o.a).toNat + (runAt 0#32 (index i) p).toInt * (s.sreg o.b).toInt) % 2 ^ 64).toNat
  let stores := fun (i : Instr) (n : Fin 8 → Nat) (addr : Fin 8 → Nat → Nat) =>
    (∀ i ∈ s.selected o.cl, ∀ p < n i, (w ≠ 4 → addr i p / 8 % (w / 8) = 0) ∧
      s.rangeOk s.cur i.val (addr i p / 8) size = true) →
    ∃ t, exec i s = .next t ∧
      (∀ x, (∀ i ∈ s.selected o.cl, ∀ p < n i, maskAt s.cur.cl[i] o.k p = true →
          x < towerKey (s.physTower tile i.val) (addr i p / 8) ∨ towerKey (s.physTower tile i.val) (addr i p / 8) + size ≤ x) →
        t.mem.towers.get x = s.mem.towers.get x) ∧
      (Memory.wf s.mem.towers = true → ∀ i ∈ s.selected o.cl, ∀ p < n i, maskAt s.cur.cl[i] o.k p = true → w ≠ 4 →
        (∀ q < n i, p < q → maskAt s.cur.cl[i] o.k q = true → addr i q ≠ addr i p) →
        t.towerRead tile i.val (addr i p / 8) size = leBytes (lfStore o.lf.toNat (runAt 0#32 (s.cur.cl[i].vreg o.d) p)) size) ∧
      (∀ (i : Fin 8) (g : Nat), t.isFull tile i.val g = true ↔ s.isFull tile i.val g = true ∨
        (o.fe = 1#2 ∧ ∃ j ∈ s.selected o.cl, ∃ p < n j, ∃ h ∈ granulesOf (addr j p / 8) size,
          towerKey (s.physTower tile j.val) (16 * h) / 16 = towerKey (s.physTower tile i.val) (16 * g) / 16)) ∧
      t.mem = { s.mem with towers := t.mem.towers, full := t.mem.full } ∧
      t.cur.reg = s.cur.reg ∧ t.cur.cl = s.cur.cl ∧ t.cur.smem = s.cur.smem ∧
      t.cur.rings = s.cur.rings ∧ t.cur.eng = s.cur.eng ∧ t.parked = s.parked
  ((s.selected o.cl ≠ [] → w ≠ 4 → ea % (w / 8) = 0) →
    stores (.vst o) (fun i => min (min s.vl (runLen (s.cur.cl[i].vreg o.d))) (512 / w)) fun _ p => 8 * ea + p * w) ∧
  (w ≠ 4 → stores (.vsts o) (fun i => min (min s.vl (runLen (s.cur.cl[i].vreg o.d))) 16) (fun _ p => strided p) ∧
    stores (.vstx o) (fun i => min (min s.vl (min (runLen (s.cur.cl[i].vreg o.d)) (runLen (index i)))) 16) indexed)

/-- R288, R293, R296, R298: a dense, strided or indexed load, a chain load or a mask load with .fec or .fek whose checks pass waits: its
bundle's stall begins, with its addresses, masks and old destination as they stand at issue, and nothing else changes. R229, R293, R439:
when every granule that a waiting element load covers is full, the load lands what the towers hold then, six cycles after its issue, under
the mask of its issue, and .fec leaves every covered granule empty where .fek leaves it as it was; one of more than 32 runs in precise mode
lands nothing, leaves every granule full, and leaves its task a run overflow to take at the next boundary. -/
def Obligations.WaitingLoads : Prop :=
  (∀ (s : State),
  let waits := fun (i : Instr) (kind : LoadKind) (d : BitVec 5) (msk : List (Fin 8 × Option (Runs Bool))) (old : List (Fin 8 × Runs W32))
      (cl fe : BitVec 2) =>
    exec i s = .next (s.addWait (.load { kind := kind, fe := fe, d := d, cls := s.selected cl, msk := msk, old := old, vl := s.vl,
                                         split := s.cur.reg.mode.getLsbD 0, at_ := s.cur.seq.scyc }))
  let masks := fun (cl : BitVec 2) (k : BitVec 3) => (s.selected cl).map fun i => (i, if k = 0#3 then none else some (s.cur.cl[i].kreg k))
  let olds := fun (cl : BitVec 2) (d : BitVec 5) => (s.selected cl).map fun i => (i, s.cur.cl[i].vreg d)
  (∀ o : BMemForm, o.fe ≠ 0#2 →
    let w := lfWidth o.lf.toNat
    let ea := (s.sreg o.a + s.sreg o.b).toNat
    let strided := fun p : Nat => 8 * (((s.sreg o.a).toNat + (p : Int) * (s.sreg o.b).toInt) % 2 ^ 64).toNat
    let index := fun i : Fin 8 => s.cur.cl[i].vreg (o.d + 1#5)
    let indexed := fun (i : Fin 8) (p : Nat) =>
      8 * (((s.sreg o.a).toNat + (runAt 0#32 (index i) p).toInt * (s.sreg o.b).toInt) % 2 ^ 64).toNat
    let checked := fun (n : Fin 8 → Nat) (addr : Fin 8 → Nat → Nat) => ∀ i ∈ s.selected o.cl, ∀ p < n i,
      (w ≠ 4 → addr i p / 8 % (w / 8) = 0) ∧ s.rangeOk s.cur i.val (addr i p / 8) ((w + 7) / 8) = true
    let elems := fun (i : Instr) (n : Fin 8 → Nat) (addr : Fin 8 → Nat → Nat) => checked n addr → waits i
      (.elems o.lf ((s.selected o.cl).map fun i => (i, (List.range (n i)).map (addr i)))) o.d (masks o.cl o.k) (olds o.cl o.d) o.cl o.fe
    ((s.selected o.cl ≠ [] → w ≠ 4 → ea % (w / 8) = 0) → elems (.vld o) (fun _ => min s.vl (512 / w)) fun _ p => 8 * ea + p * w) ∧
    (w ≠ 4 → elems (.vlds o) (fun _ => min s.vl 16) (fun _ p => strided p)) ∧
    (w ≠ 4 → elems (.vldx o) (fun i => min (min s.vl (runLen (index i))) 16) indexed)) ∧
  (∀ (d : BitVec 5) (k : BitVec 3) (cl fe y : BitVec 2), fe ≠ 0#2 →
    (∀ i ∈ s.selected cl, (vat s.cur.cl[i].y y).extractLsb' 0 6 = 0#6 ∧
      s.rowOk s.cur i.val ((vat s.cur.cl[i].y y).toNat / 64) = true) →
    waits (.vldrl d k cl fe y) (.chain ((s.selected cl).map fun i => (i, vat s.cur.cl[i].y y)) y) d (masks cl k) (olds cl d) cl fe) ∧
  (∀ o : KmForm, o.fe ≠ 0#2 → (∀ i ∈ s.selected o.cl, ∀ p < (min s.vl 512 + 7) / 8,
    s.rangeOk s.cur i.val ((s.sreg o.a + s.sreg o.b).toNat + p) 1 = true) →
    waits (.kld o) (.bits (s.sreg o.a + s.sreg o.b).toNat (min s.vl 512)) (o.d.zeroExtend 5) [] [] o.cl o.fe)) ∧
  (∀ (s : State) (l : WLoad) (lf : BitVec 3) (addrs : List (Fin 8 × List Nat)),
  l.kind = .elems lf addrs → s.loadReady l = true → s.mem.towerBad = [] →
  (∀ x ∈ s.cur.seq.inflight, x.at_ < s.cur.seq.scyc) →
  (∀ p ∈ l.old, Positive p.2) → (∀ p ∈ l.msk, ∀ r ∈ p.2, Positive r) → (addrs.map Prod.fst).Nodup →
  let els := fun p : Fin 8 × List Nat => p.2.mapIdx fun j a =>
    if (lookupCl none p.1 l.msk).all (fun m => runAt false m j) = true then
      lfLoad lf.toNat (s.towerCode s.cur.bnd.tile p.1.val (lfWidth lf.toNat) a)
    else runAt 0#32 (lookupCl [] p.1 l.old) j
  (l.split = false → (∃ p ∈ addrs, 32 < runsNeeded (els p)) → ∃ info : W64,
    s.tryWait (.load l) = some { s with cur := s.cur.defer { status := .runOverflow, cause := 3, slot := 2, info := info } none } ∧
    ∀ i : Fin 8, info.getLsbD i = true ↔ ∃ p ∈ addrs, p.1 = i ∧ 32 < runsNeeded (els p)) ∧
  ((∀ p ∈ addrs, runsNeeded (els p) ≤ 32) →
  ∃ (t : State) (r : Landing) (vals : List (Fin 8 × Runs W32)), s.tryWait (.load l) = some t ∧ t.cur.seq.inflight = s.cur.seq.inflight ++ [r] ∧
    r.due = s.cur.seq.scyc + 6 ∧ r.dest = .vreg l.d vals ∧
    vals.map (fun p => (p.1, flat p.2)) = addrs.map (fun p => (p.1, els p)) ∧
    (l.fe ≠ 1#2 → t.mem.full = s.mem.full) ∧
    (l.fe = 1#2 → ∀ p ∈ addrs, ∀ g ∈ elemGranules (lfWidth lf.toNat) p.2, t.isFull s.cur.bnd.tile p.1.val g = false) ∧
    t.mem.towers = s.mem.towers ∧ t.mem.hbm = s.mem.hbm ∧ t.cur.reg = s.cur.reg ∧ t.cur.cl = s.cur.cl ∧ t.cur.smem = s.cur.smem))

/-- R295 to R297: cursors, and run-form chains: VCUR lands a cursor; VLDRL lands the elements of the chain at the cursor and moves the cursor
past its rows; VSTRL writes the rows of a register's chain at the cursor and moves the cursor past them. R298: the plain mask load and
store: bit p of the bytes at the address is position p. R231: with FE = 1 VSTRL and KST set the full bits of the granules of the rows, or of
the bytes, that they write, and no other; without it they change none. -/
def Obligations.ChainsCursorsAndMasks : Prop :=
  (∀ (s : State),
  (∀ (a b : BitVec 5) (cl y : BitVec 2), exec (.vcur a b cl y) s = .next (s.land 2 1 (.cursor y
    ((s.selected cl).map fun i => (i, (s.sreg a + s.sreg b).setWidth 22))))) ∧
  (∀ (d : BitVec 5) (k : BitVec 3) (cl y : BitVec 2) (runs : Fin 8 → Runs W32) (rows : Fin 8 → Nat),
    PositiveRuns s → (∀ i, Positive (runs i)) → s.cur.seq.lastFault = none → s.cur.reg.mode.getLsbD 1 = false → s.mem.towerBad = [] →
    (∀ l ∈ s.cur.seq.inflight, l.at_ < s.cur.seq.scyc) →
    (∀ i ∈ s.selected cl, s.chainAt i (vat s.cur.cl[i].y y) false = .ok (runs i) (rows i)) →
    let els := fun i : Fin 8 => elements (maskAt s.cur.cl[i] k) false 0#32 (runAt 0#32 (s.cur.cl[i].vreg d))
      (fun p => (runAt 0#32 (runs i) p, 0#9)) (runLen (runs i))
    (∀ i ∈ s.selected cl, runsNeeded ((els i).map Prod.fst) ≤ 32) →
    ∃ t : State, ResultLands s t 2 6 (.vreg d) (s.selected cl) (fun i => (els i).map Prod.fst) (fun _ => 0#9) ∧
      exec (.vldrl d k cl 0#2 y) s = .next (t.land 2 1 (.cursor y ((s.selected cl).map fun i =>
        (i, vat s.cur.cl[i].y y + BitVec.ofNat 22 (64 * rows i)))))) ∧
  (∀ (d : BitVec 5) (cl : BitVec 2) (fe : Bool) (y : BitVec 2),
    let typ := s.cur.reg.dstt
    let rows := fun i : Fin 8 => chainRows typ (s.cur.cl[i].vreg d)
    let at_ := fun i : Fin 8 => (vat s.cur.cl[i].y y).toNat
    let key := fun i : Fin 8 => towerKey (s.physTower s.cur.bnd.tile i.val) (at_ i)
    reservedType typ = false → (∀ i ∈ s.selected cl, at_ i % 64 = 0 ∧
      ∀ j < (rows i).length, s.rowOk s.cur i.val (at_ i / 64 + j) = true) →
    ∃ t : State, exec (.vstrl d cl fe y) s = .next (t.land 2 1 (.cursor y ((s.selected cl).map fun i =>
        (i, vat s.cur.cl[i].y y + BitVec.ofNat 22 (64 * (rows i).length))))) ∧
      (∀ x, (∀ i ∈ s.selected cl, x < key i ∨ key i + (rows i).flatten.length ≤ x) → t.mem.towers.get x = s.mem.towers.get x) ∧
      (Memory.wf s.mem.towers = true → (∀ i j : Fin 8, s.physTower s.cur.bnd.tile i.val = s.physTower s.cur.bnd.tile j.val → i = j) →
        ∀ i ∈ s.selected cl, t.towerRead s.cur.bnd.tile i.val (at_ i) (rows i).flatten.length = (rows i).flatten) ∧
      (fe = false → t.mem.full = s.mem.full) ∧
      (∀ (i : Fin 8) (g : Nat), t.isFull s.cur.bnd.tile i.val g = true ↔ s.isFull s.cur.bnd.tile i.val g = true ∨
        (fe = true ∧ ∃ j ∈ s.selected cl, ∃ h, at_ j / 16 ≤ h ∧ h < at_ j / 16 + 4 * (rows j).length ∧
          towerKey (s.physTower s.cur.bnd.tile j.val) (16 * h) / 16 = towerKey (s.physTower s.cur.bnd.tile i.val) (16 * g) / 16)) ∧
      t.cur = s.cur ∧ t.mem.hbm = s.mem.hbm)) ∧
  (∀ (s : State) (o : KmForm),
  (∀ l ∈ s.cur.seq.inflight, l.at_ < s.cur.seq.scyc) → s.cur.reg.mode.getLsbD 1 = false → s.mem.towerBad = [] →
  let n := min s.vl 512
  let ea := (s.sreg o.a + s.sreg o.b).toNat
  let size := (n + 7) / 8
  let key := fun i : Fin 8 => towerKey (s.physTower s.cur.bnd.tile i.val) ea
  (∀ i ∈ s.selected o.cl, ∀ p < size, s.rangeOk s.cur i.val (ea + p) 1 = true) →
  (o.fe = 0#2 → ElementsLand s (exec (.kld o) s) 2 6 (.kreg o.d) o.cl (fun _ => n)
    (fun i => (List.range n).map fun p => (((s.mem.towers.get (key i + p / 8)).getLsbD (p % 8)), 0#9))) ∧
  (o.fe = 0#2 ∨ o.fe = 1#2 → ∃ t, exec (.kst o) s = .next t ∧
    (∀ x, (∀ i ∈ s.selected o.cl, x < key i ∨ key i + size ≤ x) → t.mem.towers.get x = s.mem.towers.get x) ∧
    (Memory.wf s.mem.towers = true → (∀ i j : Fin 8, s.physTower s.cur.bnd.tile i.val = s.physTower s.cur.bnd.tile j.val → i = j) →
      ∀ i ∈ s.selected o.cl, ∀ p < n, (t.mem.towers.get (key i + p / 8)).getLsbD (p % 8) = maskAt s.cur.cl[i] o.d p) ∧
    (∀ (i : Fin 8) (g : Nat), t.isFull s.cur.bnd.tile i.val g = true ↔ s.isFull s.cur.bnd.tile i.val g = true ∨
      (o.fe = 1#2 ∧ ∃ j ∈ s.selected o.cl, ∃ h, ea / 16 ≤ h ∧ h ≤ (ea + size - 1) / 16 ∧ 0 < size ∧
        towerKey (s.physTower s.cur.bnd.tile j.val) (16 * h) / 16 = towerKey (s.physTower s.cur.bnd.tile i.val) (16 * g) / 16)) ∧
    t.mem = { s.mem with towers := t.mem.towers, full := t.mem.full } ∧ t.cur = s.cur))

/-- R299, R300: VRD of an index that its ring may hold, and VWR of one that its ring may still take, begin a wait; VWR's parts are those of its
operands at issue, dense, or with .rl one run-form row with LAST = 1 of the register under the mask, made canonical, and an ILLEGAL fault
where it needs no run or more than the row holds. A handle that is not bound is RING_MISUSE whatever TYPEA or DSTT holds, and on a bound one
a reserved type is ILLEGAL (the order of these two checks is the model's reading, log entry 28). R307, R308: VSHIFT to a neighbour within
the rectangle, with room at its ports, sends one part from each selected cluster; at the edge of a launch that faults there it is an ILLEGAL
fault with the direction in TRAPINFO, and of one that discards it sends nothing. -/
def Obligations.RingRowsAndShifts : Prop :=
  (∀ (s : State) (o : RowForm),
  let r := vat s.cur.rings o.h
  let ix := (s.sreg o.a).toNat
  (r.bound = true → r.cmpr = true ∨ reservedType s.cur.reg.typeA = false → r.ret ≤ ix → ix < r.ret + r.rows →
    (ix < r.prod ∨ (r.err = false ∧ r.done = false ∧ r.flushing = false)) →
    ∃ l : WLoad, exec (.vrd o) s = .next (s.addWait (.load l)) ∧ l.kind = .ringRow o.h ix (BitVec.ofNat 4 s.cur.reg.typeA) ∧
      l.fe = (if o.opt then 2#2 else 1#2) ∧ l.d = o.d ∧ l.cls = s.selected o.cl ∧ l.vl = s.vl) ∧
  (r.bound = true → r.pkind = 0 ∨ r.pkind = 5 → r.prod ≤ ix → reservedType s.cur.reg.dstt = false → o.opt = false →
    exec (.vwr o) s = .next (({ s with cur := s.cur.setRing o.h { r with pkind := 5 } } : State).addWait
      (.ringWrite o.h ix ((s.selected o.cl).map fun i => (i, densePart s.cur.reg.dstt s.vl (s.cur.cl[i].vreg o.d)
        (if o.k = 0#3 then none else some (s.cur.cl[i].kreg o.k))))))) ∧
  (let els := fun i : Fin 8 => (List.range (runLen (s.cur.cl[i].vreg o.d))).map fun p =>
      if maskAt s.cur.cl[i] o.k p = true then runAt 0#32 (s.cur.cl[i].vreg o.d) p else 0#32
    let fits := fun i : Fin 8 => 0 < runsNeeded (els i) ∧ runsNeeded (els i) ≤ rowRuns s.cur.reg.dstt
    PositiveRuns s → r.bound = true → reservedType s.cur.reg.dstt = false → o.opt = true →
      ((∀ i ∈ s.selected o.cl, fits i) → r.pkind = 0 ∨ r.pkind = 5 → r.prod ≤ ix → ∃ runs : Fin 8 → Runs W32,
        (∀ i, fits i → flat (runs i) = els i ∧ CanonicalRuns (runs i)) ∧
        exec (.vwr o) s = .next (({ s with cur := s.cur.setRing o.h { r with pkind := 5 } } : State).addWait
          (.ringWrite o.h ix ((s.selected o.cl).map fun i => (i, buildRow s.cur.reg.dstt true (mapRuns (codeOf s.cur.reg.dstt) (runs i))))))) ∧
      (∀ i ∈ s.selected o.cl, ¬ fits i → (∀ j ∈ s.selected o.cl, j < i → fits j) → exec (.vwr o) s = .next
        (s.takeFault s.cur.seq.pc { status := .illegal, cause := 0, slot := 2, info := towerInfo i (64 * r.row ix) }))) ∧
  (r.bound = true → ∀ i, (s.selected o.cl).head? = some i →
    (reservedType s.cur.reg.dstt = true → exec (.vwr o) s = .next
      (s.takeFault s.cur.seq.pc { status := .illegal, cause := 0, slot := 2, info := towerInfo i (64 * r.row ix) })) ∧
    (r.cmpr = false → reservedType s.cur.reg.typeA = true → exec (.vrd o) s = .next
      (s.takeFault s.cur.seq.pc { status := .illegal, cause := 0, slot := 2, info := towerInfo i (64 * r.row ix) }))) ∧
  (r.bound = false → exec (.vwr o) s = .next (s.takeFault s.cur.seq.pc
        { status := .ringMisuse, cause := 0, slot := 2, info := s.sreg o.a }) ∧
    exec (.vrd o) s = .next (s.takeFault s.cur.seq.pc { status := .ringMisuse, cause := 0, slot := 2, info := s.sreg o.a }))) ∧
  (∀ (s : State) (o : ShiftForm), (s.sreg o.b).toNat < 4 →
  reservedType s.cur.reg.dstt = false →
  (s.cur.bnd.atEdge (s.sreg o.b).toNat = false ∨ s.cur.bnd.edge = 1#2 →
    (∀ i ∈ s.selected o.cl, (s.cur.eng.shifts.filter fun p => p.cluster == i).length < 4) →
    exec (.vshift o) s = .next (s.modEng fun e => { e with shifts := e.shifts ++ (s.selected o.cl).map fun i =>
      { cluster := i, dir := (s.sreg o.b).toNat, h := o.h, index := (s.sreg o.a).toNat, pc := s.cur.seq.pc, ready := s.clk.tick + 6,
        bytes := densePart s.cur.reg.dstt s.vl (s.cur.cl[i].vreg o.d)
          (if o.k = 0#3 then none else some (s.cur.cl[i].kreg o.k)) } })) ∧
  (s.cur.bnd.atEdge (s.sreg o.b).toNat = true → s.cur.bnd.edge = 0#2 → exec (.vshift o) s =
    .next (s.takeFault s.cur.seq.pc { status := .illegal, cause := 0, slot := 2, info := s.sreg o.b })) ∧
  (s.cur.bnd.atEdge (s.sreg o.b).toNat = true → s.cur.bnd.edge = 2#2 → exec (.vshift o) s = .next s))

/-- R301 to R303: the moves within a tile, element by element; VMVX lands one element of the lowest selected cluster. R306: tile registers: TWR
writes the elements of a row where the mask is true, TRC and TRR read a column and a row as sixteen elements, TCLR clears; an index of 16 or
more is an illegal operand. -/
def Obligations.MovesAndTileRegisters : Prop :=
  (∀ (s : State), PositiveRuns s → s.vl ≤ 4096 →
  (∀ l ∈ s.cur.seq.inflight, l.at_ < s.cur.seq.scyc) →
  let v := fun (i : Fin 8) (r : BitVec 5) => s.cur.cl[i].vreg r
  let lands := fun (i : Instr) (o : MovForm) (lat : Nat) (n : Fin 8 → Nat) (f : Fin 8 → Nat → W32) (short : Fin 8 → Bool) =>
    let els := fun i : Fin 8 => elements (maskAt s.cur.cl[i] o.k) false 0#32 (runAt 0#32 (v i o.d)) (fun p => (f i p, 0#9)) (n i)
    (∀ i ∈ s.selected o.cl, runsNeeded ((els i).map Prod.fst) ≤ 32) →
    ∃ t, exec i s = .next t ∧ ResultLands s t 2 lat (.vreg o.d) (s.selected o.cl) (fun i => (els i).map Prod.fst)
      fun i => if short i then 0x040#9 else 0#9
  (∀ o : MovForm,
    let n := fun i : Fin 8 => min s.vl (runLen (v i o.v))
    lands (.vmov o) o 2 (fun i => runLen (v i o.v)) (fun i p => runAt 0#32 (v i o.v) p) (fun _ => false) ∧
    lands (.vrev o) o 3 n (fun i p => runAt 0#32 (v i o.v) (n i - 1 - p)) (fun i => n i < s.vl) ∧
    (∀ a : BitVec 5, lands (.vslide o a) o 3 n (fun i p => if 0 ≤ (p : Int) + (s.sreg a).toInt then
        runAt 0#32 (v i o.v) ((p : Int) + (s.sreg a).toInt).toNat else 0#32) (fun i => n i < s.vl)) ∧
    (∀ a : BitVec 5, (s.sreg a).toNat < 2 ^ 32 → (∀ c < 8, (s.sreg a).getLsbD (4 * c + 3) = false) →
      lands (.vxc o a) o 3 (fun i => runLen (v ((s.sreg a).extractLsb' (4 * i.val) 3).toFin o.v))
        (fun i p => runAt 0#32 (v ((s.sreg a).extractLsb' (4 * i.val) 3).toFin o.v) p) (fun _ => false))) ∧
  (∀ (d a : BitVec 5) (k : BitVec 3) (cl : BitVec 2),
    lands (.vmvs d a k cl) { d := d, k := k, cl := cl, v := 0#5 } 2 (fun _ => s.vl) (fun _ _ => (s.sreg a).setWidth 32) (fun _ => false)) ∧
  (∀ (d a w : BitVec 5) (cl : BitVec 2),
    (∀ i, (s.selected cl).head? = some i →
      exec (.vmvx d a w cl) s = .next (s.land 2 4 (.sreg d ((runAt 0#32 (v i w) (s.sreg a).toNat).setWidth 64)))) ∧
    (s.selected cl = [] → exec (.vmvx d a w cl) s = .next (s.land 2 4 (.sreg d 0#64))))) ∧
  (∀ (s : State) (o : TForm), PositiveRuns s →
  (∀ l ∈ s.cur.seq.inflight, l.at_ < s.cur.seq.scyc) →
  let fault := s.takeFault s.cur.seq.pc { status := .illegal, cause := 0, slot := 2, info := 0#64 }
  let reads := fun (i : Instr) (f : Fin 8 → Nat → W32) =>
    let els := fun i : Fin 8 => elements (maskAt s.cur.cl[i] o.k) false 0#32 (runAt 0#32 (s.cur.cl[i].vreg o.d))
      (fun p => (f i p, 0#9)) 16
    (∀ i ∈ s.selected o.cl, runsNeeded ((els i).map Prod.fst) ≤ 32) →
    ∃ t, exec i s = .next t ∧ ResultLands s t 2 4 (.vreg o.d) (s.selected o.cl) (fun i => (els i).map Prod.fst) fun _ => 0#9
  (∀ x : Fin 16, s.sreg o.a = BitVec.ofNat 64 x.val →
    reads (.trc o) (fun i p => (vat s.cur.cl[i].t o.t)[16 * (p % 16) + x.val]'(by have := x.isLt; omega)) ∧
    reads (.trr o) (fun i p => (vat s.cur.cl[i].t o.t)[16 * x.val + p % 16]'(by have := x.isLt; omega)) ∧
    ∃ vals, exec (.twr o) s = .next (s.land 2 2 (.tileRow o.t x vals)) ∧ vals.map Prod.fst = s.selected o.cl ∧
      ∀ v ∈ vals, ∀ (j : Fin 16) (e : W32), (j, e) ∈ v.2 ↔
        maskAt s.cur.cl[v.1] o.k j.val = true ∧ e = runAt 0#32 (s.cur.cl[v.1].vreg o.d) j.val) ∧
  (16 ≤ (s.sreg o.a).toNat → exec (.twr o) s = .next fault ∧ exec (.trc o) s = .next fault ∧ exec (.trr o) s = .next fault) ∧
  (∀ cl t, exec (.tclr cl t) s = .next (s.land 2 2 (.tileClear t (s.selected cl)))))

/-- R304, R305: VCVT and VCLASS with types that are not reserved, and for VCVT a legal rounding mode: element by element, the value of the
source container in type TYPEA, converted to DSTT or classified. A reserved type is an illegal operand. -/
def Obligations.Conversions : Prop := ∀ (s : State) (o : MovForm), PositiveRuns s →
  (∀ l ∈ s.cur.seq.inflight, l.at_ < s.cur.seq.scyc) →
  let ta := s.cur.reg.typeA
  let td := s.cur.reg.dstt
  let src := fun i : Fin 8 => s.cur.cl[i].vreg o.v
  let n := fun i : Fin 8 => min s.vl (runLen (src i))
  let value := fun x : W32 => readVal s.cur.seq.flush ta (codeOf ta x)
  let lands := fun (i : Instr) (f : W32 → W32 × BitVec 9) => ElementsLand s (exec i s) 2 3 (.vreg o.d) o.cl n fun i =>
    elements (maskAt s.cur.cl[i] o.k) false 0#32 (runAt 0#32 (s.cur.cl[i].vreg o.d)) (fun p => f (runAt 0#32 (src i) p)) (n i)
  let fault := s.takeFault s.cur.seq.pc { status := .illegal, cause := 0, slot := 2, info := 0#64 }
  (reservedType ta = false → reservedType td = false → s.cur.reg.rm ≤ 4 → lands (.vcvt o) fun x =>
    (containerOf td (convertTo s.numCtx td (value x)).1.toNat, (convertTo s.numCtx td (value x)).2)) ∧
  (reservedType ta = true ∨ reservedType td = true ∨ 4 < s.cur.reg.rm → exec (.vcvt o) s = .next fault) ∧
  (reservedType ta = false → isIntType ta = false → lands (.vclass o) fun x => (BitVec.ofNat 32 (2 ^ classBit ta (value x)), 0#9)) ∧
  (reservedType ta = true ∨ isIntType ta = true → exec (.vclass o) s = .next fault)

/-! ### The engine slot -/

/-- R311 to R313: ESET of a value with no reserved bit lands in the engine register, which then reads as that value while every other engine
register reads as before (but CMDQ, which CHAN selects); EGET lands a register after two cycles; a reserved bit is an illegal operand. -/
def Obligations.EngineRegisters : Prop := ∀ (s : State) (e a i : BitVec 5), e.toNat < 22 → i.toNat < engineRegs e →
  let v := s.sreg a
  let reg := fun (t : Task) (e i : Nat) => ({ s with cur := t } : State).engineReg e i
  (engineRegRO e i = false → (∃ m ∈ (engineMasks e.toNat)[i.toNat]?, v &&& ~~~(BitVec.ofNat 64 m) = 0#64) →
    exec (.eset e a i) s = .next (s.land 3 1 (.engine e i v)) ∧
    reg (s.cur.deliver (.engine e i v)) e.toNat i.toNat = v ∧
    ∀ e' i' : Nat, e' < 22 → (e', i') ≠ (e.toNat, i.toNat) → (e', i') ≠ (21, 1) →
      reg (s.cur.deliver (.engine e i v)) e' i' = reg s.cur e' i') ∧
  (engineRegRO e i = false → (∃ m ∈ (engineMasks e.toNat)[i.toNat]?, v &&& ~~~(BitVec.ofNat 64 m) ≠ 0#64) →
    exec (.eset e a i) s = .next (s.takeFault s.cur.seq.pc { status := .illegal, cause := 0, slot := 3, info := 0#64 })) ∧
  exec (.eget e a i) s = .next (s.land 3 2 (.sreg a (reg s.cur e.toNat i.toNat)))

/-- R106, R316, R320, R325, R337, R340, R358, R365: the waits of slots E and C begin a stall, with the operands of their issue cycle; XBAR also
counts its instance. R106, R239, R316, R320, R325, R337, R340, R358, R366: what ends those waits, and nothing else does: the count of
operations, transfers, packets or rows, a window that is done, a produced index, a ring that is done, no copy and no DRAM-sink stream left,
a clear memory port, a DONE word at its threshold or failed, a barrier instance that has completed; an EWAIT leaves its open count no higher
than its n. A row that its ring's producer will not deliver any more, a ring that failed, and a DONE word that cannot be read are faults of
the waiting bundle instead. -/
def Obligations.EngineWaits : Prop :=
  (∀ (s : State),
  let bar := fun (g : Fin 3) => (s.modEng fun e => { e with xbar := e.xbar.set g (s.cur.eng.xbar[g] + 1) }).addWait
    (.barrier (BitVec.ofNat 2 g.val) (s.cur.eng.xbar[g] + 1))
  (∀ (e : BitVec 5) (n : BitVec 3), (e.toNat < 16 ∧ n = 0#3) ∨ (16 ≤ e.toNat ∧ e.toNat < 22 ∧
      n.toNat < (if e = 16#5 ∨ e = 18#5 ∨ e = 19#5 then 2 else 4)) →
    exec (.ewait e n) s = .next (s.addWait (.engine e n.toNat))) ∧
  (∀ (h : BitVec 4) (a : BitVec 5), (vat s.cur.rings h).bound = true →
    ((s.sreg a).toNat < (vat s.cur.rings h).prod ∨
      ((vat s.cur.rings h).err = false ∧ (vat s.cur.rings h).done = false ∧ (vat s.cur.rings h).flushing = false)) →
    exec (.wwait h a) s = .next (s.addWait (.ringIndex h (s.sreg a).toNat))) ∧
  (∀ h : BitVec 4, (vat s.cur.rings h).bound = true → (vat s.cur.rings h).err = false →
    exec (.wwaitDone h) s = .next (s.addWait (.ringDone h))) ∧
  (∀ a, exec (.bcwait a) s = .next (s.addWait (.bcCount (s.sreg a).toNat))) ∧
  exec .bcwaitAll s = .next (s.addWait .bcAll) ∧ exec .dwait s = .next (s.addWait .copies) ∧
  (∀ a b, exec (.nbpoll a b) s =
    .next (s.addWait (.nbPoll a (s.sreg b).toNat (s.cur.eng.nb[2]).toNat s.cur.seq.scyc))) ∧
  (∀ scope f, exec (.fence scope f) s = .next (s.addWait (.fence scope))) ∧
  exec .xbar s = .next (bar 0) ∧ exec .xbarRow s = .next (bar 1) ∧ exec .xbarCol s = .next (bar 2)) ∧
  (∀ (s : State),
  let busy := (s.net.bcols.flatMap fun p => p.2.filter fun x => x.launch == s.cur.bnd.launch && x.tile == s.cur.bnd.tile).length
  let packets := (s.cur.eng.nbPort.filter fun p => match p with
    | .packet _ _ _ _ _ => true
    | .fence _ _ => false).length
  let counts := fun (e : BitVec 5) (at_ : Nat) (f : Nat → Engines → Engines) => ∀ n : Nat,
    s.tryWait (.engine e n) = if at_ ≤ n then some (s.modEng (f n)) else none
  counts 16#5 s.cur.eng.muOps.length (fun n g => { g with oMu := min g.oMu n }) ∧
  counts 17#5 s.cur.eng.xpOps.length (fun n g => { g with oXp := min g.oXp n }) ∧
  counts 18#5 busy (fun n g => { g with oBc := min g.oBc n }) ∧
  counts 19#5 s.cur.eng.dmOps.length (fun n g => { g with oDm := min g.oDm n }) ∧
  counts 20#5 s.cur.eng.fbReqs.length (fun n g => { g with oFb := min g.oFb n }) ∧
  counts 21#5 packets (fun n g => { g with oNb := min g.oNb n }) ∧
  (∀ (e : BitVec 5) (n : Nat), e.toNat < 16 →
    let r := vat s.cur.rings (e.extractLsb' 0 4)
    s.tryWait (.engine e n) = if r.done = true ∨ r.err = true ∨ r.pkind = 0 then some s else none) ∧
  s.tryWait .bcAll = (if busy = 0 then some (s.modEng fun g => { g with oBc := 0 }) else none) ∧
  (∀ (d : BitVec 5) (thr va at_ : Nat),
    let r := s.readVirt s.cur { read := true, write := false } va 8
    let raises := fun (s1 : State) (st : Status) (info : W64) => s.tryWait (.nbPoll d thr va at_) = some (s1.waitRaise 3 st info)
    (∀ bs s1, r = (.ok bs, s1) → s.tryWait (.nbPoll d thr va at_) =
      if thr % 2 ^ 63 ≤ leNat bs % 2 ^ 63 ∨ 2 ^ 63 ≤ leNat bs then some (s1.land 3 2 (.sreg d (BitVec.ofNat 64 (leNat bs)))) else none) ∧
    (∀ s1, r = (.error .wait, s1) → s.tryWait (.nbPoll d thr va at_) = none) ∧
    (∀ v s1, r = (.error (.prot v), s1) → raises s1 .protection (BitVec.ofNat 64 v)) ∧
    (∀ i s1, r = (.error (.race i), s1) → raises s1 .race i)) ∧
  (∀ (h : BitVec 4) (ix : Nat), (vat s.cur.rings h).prod ≤ ix →
    ((vat s.cur.rings h).err = true → s.tryWait (.ringIndex h ix) = some (s.waitRaise 3 s.cur.reg.ringFault (BitVec.ofNat 64 ix))) ∧
    ((vat s.cur.rings h).err = false → (vat s.cur.rings h).done = true ∨ ((vat s.cur.rings h).flushing = true ∧ (vat s.cur.rings h).prod < ix) →
      s.tryWait (.ringIndex h ix) = some (s.waitRaise 3 .ringMisuse (BitVec.ofNat 64 ix)))) ∧
  (∀ h : BitVec 4, (vat s.cur.rings h).err = true → s.tryWait (.ringDone h) = some (s.waitRaise 3 s.cur.reg.ringFault 0#64)) ∧
  (∀ (h : BitVec 4) ix, ix < (vat s.cur.rings h).prod → s.tryWait (.ringIndex h ix) = some s) ∧
  (∀ (h : BitVec 4) ix, (vat s.cur.rings h).prod ≤ ix → (vat s.cur.rings h).err = false → (vat s.cur.rings h).done = false →
    (vat s.cur.rings h).flushing = false → s.tryWait (.ringIndex h ix) = none) ∧
  (∀ h : BitVec 4, (vat s.cur.rings h).err = false →
    s.tryWait (.ringDone h) = if (vat s.cur.rings h).done then some s else none) ∧
  (∀ n, s.tryWait (.bcCount n) = if n ≤ s.cur.eng.bcRows then some s else none) ∧
  ((s.tryWait .copies).isSome ↔ s.tlbPending s.cur.bnd.tile = false ∧ s.cur.eng.dmOps = [] ∧ s.sinkStreams s.cur = []) ∧
  (∀ scope, (s.tryWait (.fence scope)).isSome ↔
    s.tlbPending s.cur.bnd.tile = false ∧ s.portClear s.cur.bnd.tile scope = true) ∧
  (∀ (g : BitVec 2) (n : Nat) (l : Launch), s.launch? s.cur.bnd.launch = some l →
    s.tryWait (.barrier g n) = if n ≤ (if g = 0#2 then l.bars else tget 0 l.barLines (32 * g.toNat + s.cur.line g)) ∧
      s.portClearTo s.cur.bnd.tile 1#2 (s.cur.barrierCycle + 1) = true then some s else none))

/-- R318: WOPEN of legal ring operands and a legal source on an unbound handle binds it to its rows and attaches a window that is to deliver
from index 0; .bind binds with no producer; .keep attaches to a bound ring with no live producer, from its PROD on. A binding whose ROWS is
0 or above 65,535, or whose rows are not all leased, is TOWER_RANGE (R235). With GRAPH = c + 1 the window's context must be bound to the
task, and the graph's rows fit the ring's (R268 to R270): else the ring takes ERR with KIND 2, in the second case with the context in state
4 and ERRC 12; the context of a graph that does not decode then streams (state 3), and that of one that does waits for the decode cell in
state 2 (R271). R238, R319, R321 to R323: WADV retires rows of its ring and empties them; WCLOSE unbinds its handle and empties the ring's
rows; RSTAT lands the status word; WFLUSH of a ring without a window ends its producer, and the matrix drains into it write no row of it any
more; of a ring with a window the stream ends at once with DONE and its context Loaded, or, with a row in flight, after that row. WCLOSE
takes the context of a window back to Loaded too (R264). On an unbound ring WADV and WFLUSH are RING_MISUSE and WCLOSE does nothing. (That
TRAPINFO is 0 there is a choice of the model, log entry 31.) -/
def Obligations.RingsAndWindows : Prop :=
  (∀ (s : State) (h : BitVec 4), s.cur.seq.lastFault = none →
  let r := vat s.cur.rings h
  let w := windowOf r.desc
  let bound : Ring := { Ring.reset with desc := r.desc, bound := true, raddr := w.raddr, rows := w.rows, cmpr := w.cmpr }
  let stream := fun first : Nat => (
    { id := s.cur.eng.opSeq, desc := r.desc, first := first, next := 0, pc := s.cur.seq.pc,
      flush := false, opened := false, table := [], bitPos := 0, symLeft := 0, out := [], outCount := 0, fail := none } : Stream)
  let set := fun (x : Ring) (n : Nat) =>
    ({ s with cur := { s.cur with
        rings := vput s.cur.rings h x
        eng := { s.cur.eng with opSeq := s.cur.eng.opSeq + n } } } : State)
  (w.rows = 0 ∨ 65535 < w.rows ∨ 128 * min s.cur.bnd.lease 384 < w.raddr + w.rows → ∃ info : W64,
    exec (.wopenBind h) s = .next (s.takeFault s.cur.seq.pc { status := .towerRange, cause := 0, slot := 3, info := info })) ∧
  (1 ≤ w.rows → w.rows ≤ 65535 → w.raddr + w.rows ≤ 128 * min s.cur.bnd.lease 384 →
  (r.bound = false → exec (.wopenBind h) s = .next (set bound 0)) ∧
  (r.bound = false → w.sourceOk = true → (dsc r.desc 15).toNat = 0 →
    exec (.wopen h) s = .next (set { bound with pkind := 1, stream := some (stream 0) } 1)) ∧
  (r.bound = true → r.pkind = 0 ∨ r.done = true → w.sourceOk = true → (dsc r.desc 15).toNat = 0 →
    exec (.wopenKeep h) s = .next (set { r with cmpr := w.cmpr, pkind := 1, done := false, err := false, stream := some (stream r.prod) } 1)) ∧
  (r.bound = true → w.sourceOk = true →
    exec (.wopen h) s = .next (s.takeFault s.cur.seq.pc { status := .ringMisuse, cause := 0, slot := 3, info := 0#64 })) ∧
  (∀ c, r.bound = false → w.sourceOk = true → (dsc r.desc 15).toNat = c + 1 → c < 1024 →
    let x := s.fabCtx c
    let ready := x.state = 2 ∧ x.launch = s.cur.bnd.launch ∧ x.tile = s.cur.bnd.tile
    let stops := fun y : FabCtx => ∃ t : State, exec (.wopen h) s = .next t ∧ vat t.cur.rings h = { bound with pkind := 1, err := true } ∧
      t.cur.reg.ringErr.extractLsb' 16 4 = 2#4 ∧ t.cur.reg.ringErr.extractLsb' 20 4 = h ∧ t.cur.reg.ringErr.getLsbD h.toNat = true ∧
      t.fabCtx c = y ∧ t.mem = s.mem
    (¬ ready → stops x) ∧
    (ready → ∀ gr, x.graph = some gr →
      let fits := gr.sink = 0 → 1 ≤ w.rowlen ∧ w.rowlen ≤ 512 / gr.outBits
      (¬ fits → stops { x with state := 4, errc := 12, cells := 0, spilled := false }) ∧
      (fits → gr.decode = true → exec (.wopen h) s = .next (set { bound with pkind := 1, stream := some (stream 0) } 1)) ∧
      (fits → gr.decode = false → ∃ t : State, exec (.wopen h) s = .next t ∧
        vat t.cur.rings h = { bound with pkind := 1, stream := some { stream 0 with opened := true } } ∧
        t.fabCtx c = { x with state := 3 } ∧ (∀ d, d ≠ c → t.fabCtx d = s.fabCtx d) ∧ t.mem = s.mem))))) ∧
  (∀ (s : State) (h : BitVec 4),
  let r := vat s.cur.rings h
  let misuse := fun info : W64 => s.takeFault s.cur.seq.pc { status := .ringMisuse, cause := 0, slot := 3, info := info }
  (∀ a, exec (.rstat h a) s = .next (s.land 3 2 (.sreg a (if r.bound then BitVec.ofNat 64 (2 ^ 46 + (if r.cmpr then 2 ^ 45 else 0) +
    r.pkind * 2 ^ 42 + (if r.done then 2 ^ 41 else 0) + (if r.err then 2 ^ 40 else 0) + r.ret % 2 ^ 20 * 2 ^ 20 + r.prod % 2 ^ 20)
    else 0#64)))) ∧
  (r.bound = false → exec (.wclose h) s = .next s ∧ exec (.wflush h) s = .next (misuse 0#64) ∧
    ∀ a, exec (.wadv h a) s = .next (misuse 0#64)) ∧
  (r.bound = true → ∀ a, 1 ≤ (s.sreg a).toNat → (s.sreg a).toNat ≤ r.rows → ∃ t, exec (.wadv h a) s = .next t ∧
    (∀ j < (s.sreg a).toNat, ∀ i < 8, ∀ g ∈ rowGranules (r.raddr + (r.ret + j) % r.rows), t.isFull s.cur.bnd.tile i g = false) ∧
    min (r.ret + (s.sreg a).toNat) r.prod ≤ (vat t.cur.rings h).ret ∧ (vat t.cur.rings h).ret ≤ (vat t.cur.rings h).prod ∧
    t.mem = { s.mem with full := t.mem.full } ∧ t.cur.reg = s.cur.reg ∧ t.cur.cl = s.cur.cl ∧ t.cur.smem = s.cur.smem) ∧
  (r.bound = true → ∃ t, exec (.wclose h) s = .next t ∧
    vat t.cur.rings h = { Ring.reset with desc := r.desc } ∧
    (∀ st c, r.stream = some st → st.ctxs = [c] →
      (st.opened = true ∧ (s.fabCtx c).state = 3 ∨
        st.opened = false ∧ (s.fabCtx c).state = 2 ∧ (s.fabCtx c).launch = s.cur.bnd.launch ∧ (s.fabCtx c).tile = s.cur.bnd.tile) →
      t.fabCtx c = { s.fabCtx c with state := 1, cells := 0, spilled := false }) ∧
    (∀ j < r.rows, ∀ i < 8, ∀ g ∈ rowGranules (r.raddr + j), t.isFull s.cur.bnd.tile i g = false) ∧
    t.mem = { s.mem with full := t.mem.full } ∧ t.cur.reg = s.cur.reg ∧ t.cur.cl = s.cur.cl ∧ t.cur.smem = s.cur.smem) ∧
  (∀ st, r.bound = true → r.stream = some st →
    let inFlight := { r with stream := some { st with flush := true } }
    ∃ t : State, exec (.wflush h) s = .next t ∧
      (vat t.cur.rings h = { r with done := true, stream := none } ∧
          (∀ c, st.ctxs = [c] → t.fabCtx c = { s.fabCtx c with state := 1, cells := 0, spilled := false }) ∨
        vat t.cur.rings h = inFlight ∧ t.net = s.net) ∧
      (s.rowFree s.cur.bnd.tile r r.prod = false ∨ s.sinkOf st ≠ 0 → (vat t.cur.rings h).done = true) ∧
      (s.rowFree s.cur.bnd.tile r r.prod = true → st.ctxs = [] → st.got ≠ [] → st.table = [] → vat t.cur.rings h = inFlight) ∧
      (∀ k, k ≠ h → vat t.cur.rings k = vat s.cur.rings k) ∧ t.mem = s.mem ∧ t.cur.reg = s.cur.reg ∧ t.cur.cl = s.cur.cl) ∧
  (r.bound = true → r.stream = none → r.parts = [] →
    let drains := fun o : MuOp => o.kind = .mdrain ∧ (o.regs[10]).extractLsb' 0 4 = h
    let ops := if r.pkind = 5 then s.cur.eng.muOps else s.cur.eng.muOps.map fun o => if drains o then { o with detached := true } else o
    exec (.wflush h) s = .next { s with cur := { s.cur with
      rings := vput s.cur.rings h { r with done := true }
      eng := { s.cur.eng with muOps := ops } } }))

/-- R324: BCFILL with legal operands queues one transfer on the broadcast column of its tile, and counts it as open. R334, R335: with fewer than
four express operations open and legal operands, XSEND posts its rows to send; XWR and XRD put one packet on the express network, XWR's with
the tower row as it stands at issue. R336, R337, R362: DCOPY with a legal length (and, to or from a tower, whole aligned leased tile rows)
posts a copy; DPUB posts its entries and lands 0, or with four posted lands 1. -/
def Obligations.TransfersPosted : Prop :=
  (∀ (s : State) (ring : Option (BitVec 4)), s.cur.seq.lastFault = none → s.cur.eng.oBc < 2 →
  let g := s.cur.eng.bc
  let y0 := ((g[1]).extractLsb' 0 5).toNat
  let y1 := ((g[1]).extractLsb' 8 5).toNat
  let x : BcXfer := { launch := s.cur.bnd.launch, tile := s.cur.bnd.tile, src := (g[0]).toNat, y0 := y0, y1 := y1, tset := (g[2]).setWidth 8,
                      rows := (g[3]).toNat, raddr := (g[4]).toNat, ring := ring, next := 0, pc := s.cur.seq.pc,
                      at_ := s.clk.tick }
  y0 ≤ y1 → y0 < s.cur.bnd.h → (g[2]).setWidth 8 ≠ 0#8 → (g[3]).toNat ≠ 0 → (g[0]).toNat % 64 = 0 →
  (ring = none → ∀ t ∈ s.bcReceivers s.cur.bnd.launch s.cur.bnd.tx y0 y1, ∀ i < 8, (g[2]).getLsbD i = true →
    s.rowOk t i (g[4]).toNat = true ∧ s.rowOk t i ((g[4]).toNat + (g[3]).toNat - 1) = true ∧ (g[4]).toNat + (g[3]).toNat ≤ 65536) →
  ∃ t : State, (match ring with
      | none => exec .bcfill s
      | some h => exec (.bcfillRing h) s) = .next t ∧
    (∀ y, y ∈ tget [] t.net.bcols (s.cur.bnd.tile % 32) ↔ y = x ∨ y ∈ tget [] s.net.bcols (s.cur.bnd.tile % 32)) ∧
    t.cur = { s.cur with eng := { s.cur.eng with oBc := s.cur.eng.oBc + 1 } } ∧ t.mem = s.mem) ∧
  (∀ (s : State), s.cur.seq.lastFault = none → s.cur.eng.oXp < 4 →
  let g := s.cur.eng.xp
  let x := ((g[0]).extractLsb' 0 5).toNat
  let y := ((g[0]).extractLsb' 8 5).toNat
  let n := s.cur.eng.opSeq
  let posted := fun (o : XpOp) => s.modEng fun e => { e with opSeq := n + 1, xpOps := e.xpOps ++ [o], oXp := e.oXp + 1 }
  let one : XpOp := { id := n, h := 0#4, i0 := 0, j0 := 0, nr := 0, sent := 0, x := 0, y := 0, rh := 0#4, pc := s.cur.seq.pc, inNet := 1 }
  let packet := fun (dst : Nat) (b : PacketBody) =>
    ({ launch := s.cur.bnd.launch, src := s.cur.bnd.tile, op := n, dst := dst, pc := s.cur.seq.pc, body := b } : Packet)
  (∀ h a b, x < s.cur.bnd.w → y < s.cur.bnd.h → (g[2]).toNat ≠ 0 → (vat s.cur.rings h).bound = true →
    (vat s.cur.rings h).ret ≤ (s.sreg a).toNat →
    exec (.xsend h a b) s = .next (posted { id := n, h := h, i0 := (s.sreg a).toNat, j0 := (s.sreg b).toNat, nr := (g[2]).toNat, sent := 0,
                                            x := x, y := y, rh := (g[1]).extractLsb' 0 4, pc := s.cur.seq.pc, inNet := 0 })) ∧
  (∀ (a b : BitVec 5) (m l : BitVec 3) (dst : Nat), (s.sreg a).extractLsb' 0 6 = 0#6 → (s.sreg b).extractLsb' 0 6 = 0#6 →
    s.tileAt s.cur.bnd.launch x y = some dst → s.mem.towerBad = [] →
    let sends := fun (i : Instr) (b : PacketBody) => ∃ t : State, exec i s = .next t ∧ t.cur = (posted one).cur ∧ t.parked = s.parked ∧
      t.net = { s.net with packets := s.net.packets ++ [packet dst b] } ∧ t.mem = s.mem ∧ (s.obs.counters = [] → t.obs = s.obs ∧ t.mgmt = s.mgmt)
    (s.rangeOk s.cur l.toNat (s.sreg a).toNat 64 = true →
      sends (.xwr a b m l) (.towerRow m.toFin (s.sreg b).toNat (s.towerRead s.cur.bnd.tile l.toNat (s.sreg a).toNat 64))) ∧
    (s.rangeOk s.cur l.toNat (s.sreg b).toNat 64 = true →
      sends (.xrd a b m l) (.readReq m.toFin (s.sreg a).toNat l.toFin (s.sreg b).toNat)))) ∧
  (∀ (s : State), s.cur.seq.lastFault = none →
  let g := s.cur.eng.dm
  let n := (g[2]).toNat
  let post := fun (mode : BitVec 2) => s.modEng fun e => { e with
    opSeq := s.cur.eng.opSeq + 1, oDm := e.oDm + 1,
    dmOps := e.dmOps ++ [{ id := s.cur.eng.opSeq, mode := mode, src := (g[0]).toNat, dst := (g[1]).toNat, len := n,
                           bufV := (g[3]).getLsbD 12, bufIx := ((g[3]).extractLsb' 0 12).toNat, next := 0, pc := s.cur.seq.pc }] }
  let rows := fun (a : W64) => n % 512 = 0 ∧ a.extractLsb' 0 6 = 0#6 ∧ a.toNat / 64 + n / 512 ≤ 65536 ∧
    ∀ i < 8, s.rowOk s.cur i (a.toNat / 64) = true ∧ s.rowOk s.cur i (a.toNat / 64 + n / 512 - 1) = true
  (s.cur.eng.oDm < 2 → n ≠ 0 → exec .dcopy s = .next (post 0#2) ∧
    (rows (g[1]) → exec .dcopyMt s = .next (post 1#2)) ∧ (rows (g[0]) → exec .dcopyTm s = .next (post 2#2))) ∧
  (s.cur.eng.oDm < 2 → n = 0 → exec .dcopy s =
    .next (s.takeFault s.cur.seq.pc { status := .illegal, cause := 0, slot := 3, info := 0#64 })) ∧
  (∀ (a b : BitVec 5) (m : BitVec 6), (s.sreg a).toNat + m.toNat + 1 ≤ 4096 →
    (s.cur.eng.pubs.length < 4 → exec (.dpub a b m) s = .next ((s.modEng fun e => { e with opSeq := e.opSeq + 1, pubs := e.pubs ++
      [{ id := e.opSeq, first := (s.sreg a).toNat, n := m.toNat + 1, pc := s.cur.seq.pc,
         ids := s.cur.eng.dmOps.map (·.id) ++ s.sinkStreams s.cur, at_ := s.cur.seq.scyc }] }).land 3 1 (.sreg b 0#64))) ∧
    (4 ≤ s.cur.eng.pubs.length → exec (.dpub a b m) s = .next (s.land 3 1 (.sreg b 1#64)))))

/-- R314, R315, R326 to R332: with fewer than two matrix operations open, operands that the entry allows and bound handles, each matrix
instruction posts an operation record with the registers, FMT, OVT and F of its issue cycle, and counts it as open; MDRAIN also becomes its
ring's producer. With two open it is an illegal operand. MFLAGS reads, and with .c clears, the flags of a bank (R332). -/
def Obligations.MatrixStarts : Prop := ∀ (s : State), s.cur.seq.lastFault = none →
  let g := s.cur.eng.mu
  let op := fun (kind : MuKind) (bank : Bool) (q : BitVec 2) => (
    { kind := kind, bank := bank, q := q, regs := g, fmt := s.cur.reg.fmt,
      ovt := s.cur.reg.ovt, flush := s.cur.seq.flush, pc := s.cur.seq.pc, begun := false, step := 0, bufA := [], bufB := [], side := [],
      drain := [], readyAt := none } : MuOp)
  let post := fun (kind : MuKind) (bank : Bool) (q : BitVec 2) =>
    s.modEng fun e => { e with muOps := e.muOps ++ [op kind bank q], oMu := e.oMu + 1 }
  let hd := fun (i : Fin 12) => (g[i]).extractLsb' 0 4
  let isBound := fun (h : BitVec 4) => (vat s.cur.rings h).bound = true
  (s.cur.eng.oMu < 2 →
    (∀ bank, s.muTypesOk false = true → (g[0]).toNat = 0 → hd 3 ≠ hd 4 → isBound (hd 3) → isBound (hd 4) →
      exec (.mma bank) s = .next (post .mma bank 0#2)) ∧
    (∀ bank, s.muTypesOk false = true → (g[0]).toNat ≠ 0 → hd 3 ≠ hd 4 → hd 3 ≠ hd 5 → hd 4 ≠ hd 5 → isBound (hd 3) →
      isBound (hd 4) → isBound (hd 5) → exec (.mma bank) s = .next (post .mma bank 0#2)) ∧
    (∀ bank, s.muTypesOk true = true → (g[0]).toNat = 0 → isBound (hd 3) → 64 * ((g[1]).toNat + 1) ≤ 512 →
      64 * ((g[1]).toNat + 1) ≤ s.batchShape.1 → s.batchShape.2 = s.cur.reg.typeB →
      exec (.mmv bank) s = .next (post .mmv bank 0#2)) ∧
    (∀ bank, s.muTypesOk true = true → (g[0]).toNat ≠ 0 → hd 3 ≠ hd 5 → isBound (hd 3) → isBound (hd 5) →
      64 * ((g[1]).toNat + 1) ≤ 512 → 64 * ((g[1]).toNat + 1) ≤ s.batchShape.1 → s.batchShape.2 = s.cur.reg.typeB →
      exec (.mmv bank) s = .next (post .mmv bank 0#2)) ∧
    (64 * ((g[1]).toNat + 1) ≤ 512 → reservedType s.cur.reg.typeB = false → isBound (hd 4) →
      exec .mldb s = .next (post .mldb false 0#2)) ∧
    (∀ bank, reservedType s.cur.reg.dstt = false → s.cur.reg.rm ≤ 4 → (s.cur.reg.fmt.extractLsb' 12 4 = 0#4 ∨
        s.cur.reg.fmt.extractLsb' 12 4 = 8#4) → isBound (hd 10) → ((vat s.cur.rings (hd 10)).pkind = 0 ∨ (vat s.cur.rings (hd 10)).pkind = 4) →
      ∃ t, t = post .mdrain bank 0#2 ∧ exec (.mdrain bank) s =
        .next { t with cur := t.cur.setRing (hd 10) { vat t.cur.rings (hd 10) with pkind := 4 } }) ∧
    exec .mswap s = .next (post .mswap false 0#2) ∧ ∀ bank q, exec (.mclr bank q) s = .next (post .mclr bank q)) ∧
  (2 ≤ s.cur.eng.oMu →
    let fault := s.takeFault s.cur.seq.pc { status := .illegal, cause := 0, slot := 3, info := 0#64 }
    (∀ b, exec (.mma b) s = .next fault ∧ exec (.mmv b) s = .next fault ∧ exec (.mdrain b) s = .next fault) ∧
    exec .mldb s = .next fault ∧ exec .mswap s = .next fault ∧ ∀ b q, exec (.mclr b q) s = .next fault) ∧
  (∀ bank a c,
    (s.cur.eng.oMu = 0 →
      let b := if bank then s.cur.eng.bank1 else s.cur.eng.bank0
      let t := s.land 3 2 (.sreg a (b.flags.setWidth 64))
      exec (.mflags bank a c) s = .next (if c then t.modEng fun e =>
        if bank then { e with bank1 := { b with flags := 0#5 } } else { e with bank0 := { b with flags := 0#5 } } else t)) ∧
    (s.cur.eng.oMu ≠ 0 → exec (.mflags bank a c) s =
      .next (s.takeFault s.cur.seq.pc { status := .illegal, cause := 0, slot := 3, info := 0#64 })))

/-- R338 to R341: FLOAD and FBIND post a request to a controller, FSTAT lands a context's status, NBCMD posts the packet that stands in scalar
memory at issue, NBFENCE a fence on the copies and streams outstanding and on the writes of bundles before it. (That FSTAT lands the word of
its issue cycle, where R338 allows one up to 100 ns old, is a choice of the model, log entry 11.) -/
def Obligations.FabricAndNearBank : Prop := ∀ (s : State), s.cur.seq.lastFault = none →
  let g := s.cur.eng.fb
  let req := fun (b : Bool) => (
    { bind := b, chan := (g[0]).toNat, ctx := ((g[1]).extractLsb' 0 2).toNat, image := (g[2]).toNat, pc := s.cur.seq.pc } : FbReq)
  let post := fun (b : Bool) => s.modEng fun e => { e with fbReqs := e.fbReqs ++ [req b], oFb := e.oFb + 1 }
  (s.cur.eng.oFb < 4 → (g[0]).toNat ≤ 256 → exec .fbind s = .next (post true) ∧
    ((g[2]).toNat % 64 = 0 → exec .fload s = .next (post false))) ∧
  (∀ a, (g[0]).toNat < 256 → exec (.fstat a) s =
    .next (s.land 3 2 (.sreg a (s.fabCtx (4 * (g[0]).toNat + ((g[1]).extractLsb' 0 2).toNat)).status))) ∧
  (∀ (a b : BitVec 5) (ws : Vector W32 8),
    let ea := (s.sreg a + s.sreg b).toNat
    s.cur.eng.oNb < 4 → ea % 32 = 0 → ea + 32 ≤ 65536 →
    (∀ i : Fin 8, (ws[i]).toNat = leNat (s.cur.smem.bytes (ea + 4 * i.val) 4)) →
    exec (.nbcmd a b) s = .next (s.modEng fun e => { e with oNb := e.oNb + 1, nbPort := e.nbPort ++
      [.packet (s.cur.eng.nb[0]).toNat ws (s.cur.eng.nb[2]).toNat s.cur.seq.pc s.clk.tick] })) ∧
  exec .nbfence s = .next (s.modEng fun e => { e with nbPort := e.nbPort ++
    [.fence (s.cur.eng.dmOps.map (·.id) ++ s.sinkStreams s.cur) s.cur.seq.scyc] })

/-- R342, R344, R345, R408, R413, R414: HSIG posts a signal and lands 0, or with sixteen posted lands 1; TRACE puts its record at the tile's
port; SNAP asserts the fix trigger; REFDEFER with the right defers the towers of the lease, and without it, or beyond 58 s, is
REFRESH_ABUSE; REFNOW starts a pass. -/
def Obligations.SignalsAndRefresh : Prop := ∀ (s : State),
  let rec_ := fun (tag : BitVec 10) (d0 d1 : W64) => (
    { kind := 1#8, tx := BitVec.ofNat 5 s.cur.bnd.tx, ty := BitVec.ofNat 5 s.cur.bnd.ty, pc := BitVec.ofNat 13 s.cur.seq.pc,
      tag := tag, scyc := BitVec.ofNat 48 s.cur.seq.scyc, launch := BitVec.ofNat 32 s.cur.bnd.launch, d0 := d0, d1 := d1 } : TraceRec)
  (∀ (a b : BitVec 5) (v : BitVec 10),
    (s.cur.eng.sigs.length < 16 → exec (.hsig a b v) s = .next ((s.modEng fun e => { e with sigs := e.sigs ++
      [Signal.mk v ((s.sreg a).setWidth 32) s.cur.seq.pc] }).land 3 1 (.sreg b 0#64))) ∧
    (16 ≤ s.cur.eng.sigs.length → exec (.hsig a b v) s = .next (s.land 3 1 (.sreg b 1#64))) ∧
    ((s.dbg s.cur.bnd.tile).trEn = true → (s.dbg s.cur.bnd.tile).port.length < 8 → ∃ t, exec (.trace a b v) s = .next t ∧
      (t.dbg s.cur.bnd.tile).port = (s.dbg s.cur.bnd.tile).port ++ [rec_ v (s.sreg a) (s.sreg b)] ∧ t.cur = s.cur ∧ t.mem = s.mem)) ∧
  (∀ c, s.obs.fixHeld = false → s.obs.fixPend = none → ∃ t p, exec (.snap c) s = .next t ∧ t.obs = { s.obs with fixPend := some p } ∧
    p.at_ = s.clk.tick ∧ p.src = 4 ∧ p.code = c ∧ p.tile = some s.cur.bnd.tile ∧ t.cur = s.cur ∧ t.mem = s.mem) ∧
  (∀ c, s.obs.fixHeld = true → exec (.snap c) s =
    .next { s with obs := { s.obs with fixMissed := min (s.obs.fixMissed + 1) 65535 } }) ∧
  (∀ a, s.cur.bnd.refdef = true → (s.sreg a).toNat ≤ 58000 → s.cur.bnd.lease ≠ 0 →
    (∀ i < 8, ∀ j < 8, s.physTower s.cur.bnd.tile i = s.physTower s.cur.bnd.tile j → i = j) → ∃ t, exec (.refdefer a) s = .next t ∧
    (∀ i < 8, (t.refreshOf (s.physTower s.cur.bnd.tile i)).defer =
      if (s.sreg a).toNat = 0 then none
      else some (min ((s.clk.ptimeQ - s.clk.jumpQ) / 4 + 1000000 * (s.sreg a).toNat) (s.forcedAt (s.physTower s.cur.bnd.tile i)))) ∧
    t.cur = s.cur ∧ t.mem = s.mem) ∧
  (∀ a, s.cur.bnd.refdef = false ∨ 58000 < (s.sreg a).toNat → exec (.refdefer a) s =
    .next (s.takeFault s.cur.seq.pc { status := .refreshAbuse, cause := 0, slot := 3, info := 0#64 })) ∧
  (∀ a, (s.sreg a).toNat < 8 →
    let p := s.physTower s.cur.bnd.tile (s.sreg a).toNat
    (s.refreshOf p).pass = none → ∃ t, exec (.refnow a) s = .next t ∧ t.cur = s.cur ∧ t.mem = s.mem ∧ (t.refreshOf p).defer = none ∧
      (t.refreshOf p).pass = some (s.clk.tick + 65536 * (s.chart p).nlay, false)) ∧
  ((∀ i < 8, (s.refreshOf (s.physTower s.cur.bnd.tile i)).pass = none) → ∃ t, exec .refnowAll s = .next t ∧ t.cur = s.cur ∧
    t.mem = s.mem ∧ ∀ i < 8, (t.refreshOf (s.physTower s.cur.bnd.tile i)).defer = none ∧
      (t.refreshOf (s.physTower s.cur.bnd.tile i)).pass =
        some (s.clk.tick + 65536 * (s.chart (s.physTower s.cur.bnd.tile i)).nlay, false))

/-! ### Global memory and atomics -/

/-- R174, R176, R355 to R357: LDG, STG and the atomics, under a true guard and with a translation that permits them, begin a wait with the
operands of their issue cycle, and nothing else changes but the translation caches; a load or store of a page that detects races is judged
and performed, both its pieces, in the cycle in which its bundle issues, and until it can be the bundle waits, as it does for a translation
whose tables cannot be read; under a false guard they do nothing; a page that is not present holds the bundle, and one that denies or
malforms the access is PROTECTION with its address in TRAPINFO. R175, R255, R355, R356: what the wait of a global access to local HBM does
when it ends, with no write of the tile on its way and no race detection: a load within one 32 B unit lands the bytes at their address,
extended, and changes no memory; a store at device scope writes its bytes and no other; an atomic lands the old value, sign-extended, and
writes the new one, if any. A load or store across two units has its two pieces performed one by one, in either order: the first leaves the
wait standing, the second ends it, and the load lands the bytes of both. A load or store that races on a page that detects races is not
performed, and is RACE precisely at its bundle (R367, R369). (That such an access is judged and performed as one, before anything of its
bundle takes effect, and that a store of tile scope to such a page goes home at once, is log entry 12.) -/
def Obligations.GlobalAccesses : Prop :=
  (∀ (s : State),
  let begins := fun (i : Instr) (q : BitVec 3) (n : Bool) (a : GAccess) (ok : Nat → Prop) =>
    let tr := State.spans s.cur.xctx a.want (spanFuel a.size) s a.ea a.size
    (s.guard q n = false → exec i s = .next s) ∧
    (s.guard q n = true → ∀ r s', tr = (r, s') → s'.cur = s.cur ∧ s'.parked = s.parked ∧ s'.net = s.net ∧ s'.mem.hbm = s.mem.hbm ∧
      s'.mem.wport = s.mem.wport ∧
      (∀ sps, r = .ok sps → (∀ sp ∈ sps, ok sp.place.kind) →
        (a.checked sps = false ↔ (∃ op ord w, a.op = .amo op ord w) ∨ ∀ sp ∈ sps, sp.sectors = []) ∧
        (a.checked sps = false → exec i s = .next (s'.addWait (.glob a))) ∧
        (a.checked sps = true → exec i s = .next (s'.performChecked a sps))) ∧
      (∀ va, r = .error (.busy va) → exec i s = .next s'.block) ∧
      (∀ va, r = .error (.notPresent va) ∨ r = .error (.updating va) → exec i s = .next s'.hold) ∧
      (∀ va, r = .error (.denied va) ∨ r = .error (.malformed va) → exec i s = .next (s'.takeFault s.cur.seq.pc
        { status := .protection, cause := 0, slot := 0, info := BitVec.ofNat 64 a.ea })))
  (∀ o : LdgForm, begins (.ldg o) o.q o.n
    { op := .load o.sx, d := o.d, ea := (s.sreg o.a + s.sreg o.b).toNat, size := 2 ^ o.size.toNat, scope := o.scope, value := 0#64,
      cmp := 0#64, at_ := s.cur.seq.scyc } fun _ => True) ∧
  (∀ o : StgForm, begins (.stg o) o.q o.n
    { op := .store, d := o.d, ea := (s.sreg o.a + s.sreg o.b).toNat, size := 2 ^ o.size.toNat, scope := o.scope, value := s.sreg o.d,
      cmp := 0#64, at_ := s.cur.seq.scyc } fun _ => True) ∧
  (∀ o : AmoForm, (s.sreg o.a).toNat < 2 ^ 56 → (s.sreg o.a).toNat % (if o.dbl then 8 else 4) = 0 →
    let amo := fun (i : Instr) (op : AmoOp) (write : Bool) (ok : Nat → Prop) => begins i o.q o.n
      { op := .amo op o.ord write, d := o.d, ea := (s.sreg o.a).toNat, size := if o.dbl then 8 else 4, scope := o.scope,
        value := s.sreg o.b, cmp := s.sreg o.d, at_ := s.cur.seq.scyc } ok
    amo (.amoadd o) .add true (fun _ => True) ∧ amo (.amoxch o) .xch true (fun _ => True) ∧ amo (.amocas o) .cas true (fun _ => True) ∧
    amo (.amomin o) .min true (· ≠ 2) ∧ amo (.amomax o) .max true (· ≠ 2) ∧ amo (.amoand o) .and true (· ≠ 2) ∧
    (o.b ≠ 0#5 → amo (.amoor o) .or true (· ≠ 2)) ∧ (o.b = 0#5 → amo (.amoor o) .or false fun _ => True))) ∧
  ((∀ (s s' : State) (a : GAccess) (sp : Span) (info : W64),
    State.spans s.cur.xctx a.want (spanFuel a.size) s a.ea a.size = (.ok [sp], s') → s.tlbPending s.cur.bnd.tile = false →
    sp.len ≤ sp.place.unit - sp.place.addr % sp.place.unit → s'.mayPerform a [sp] = true → a.op = .load false ∨ a.op = .load true ∨ a.op = .store →
    s'.checkRace s'.cur.bnd.launch s'.cur.bnd.tile (a.op == .store) [sp] = .error info →
    s.tryWait (.glob a) = some (s'.waitRaise 0 .race info)) ∧
  (∀ (s : State) (a : GAccess) (sps : List Span),
    let u := s.modSeq fun q => { q with waitPc := q.pc }
    let t := s.performChecked a sps
    let judged := u.checkRace s.cur.bnd.launch s.cur.bnd.tile (a.op == .store) (sps.flatMap Span.cut)
    (s.tlbPending s.cur.bnd.tile = true ∨ s.mayPerform a sps = false →
      t.cur = { s.cur with seq := { s.cur.seq with blocked := true, lockFrom := some (s.cur.seq.lockFrom.getD s.clk.tick) } } ∧
      t.parked = s.parked ∧ t.mem = { s.mem with lockQ := t.mem.lockQ }) ∧
    (s.tlbPending s.cur.bnd.tile = false → s.mayPerform a sps = true →
      (∀ info, judged = .error info →
        t = u.takeFault s.cur.seq.pc { status := .race, cause := 0, slot := 0, info := info }) ∧
      ∀ s1 sp, judged = .ok s1 → sps = [sp] → sp.place.kind = 0 → sp.len = a.size → sp.va = a.ea → s.mem.wport = [] → s.mem.hbmBad = [] →
        pteChk sp.pte = true → (a.size = 1 ∨ a.size = 2 ∨ a.size = 4 ∨ a.size = 8) → Memory.wf s.mem.hbm = true →
        let p := sp.place.addr
        (∀ sx, a.op = .load sx → ∃ v : State, v.cur = u.cur ∧ v.mem.hbm = s.mem.hbm ∧
          t = v.land 0 1 (.sreg a.d (let old := leNat (s.mem.hbm.bytes p a.size)
            if sx = true ∧ 2 ^ (8 * a.size) ≤ 2 * old then BitVec.ofInt 64 ((old : Int) - 2 ^ (8 * a.size)) else BitVec.ofNat 64 old))) ∧
        (a.op = .store → a.scope = 0#2 ∨ a.scope = 1#2 → t.cur = u.cur ∧ ∀ x, t.mem.hbm.get x =
          if p ≤ x ∧ x < p + a.size then BitVec.ofNat 8 (a.value.toNat / 256 ^ (x - p)) else s.mem.hbm.get x))) ∧
  ∀ (s s' : State) (a : GAccess) (sp : Span), Memory.wf s.mem.hbm = true →
  State.spans s.cur.xctx a.want (spanFuel a.size) s a.ea a.size = (.ok [sp], s') → sp.place.kind = 0 → sp.len = a.size →
  s.tlbPending s.cur.bnd.tile = false → s.mem.wport = [] → s.env.retrain = [] → s.mem.locked = [] → s.mem.hbmBad = [] →
  pteChk sp.pte = false → pteCmp sp.pte = false → s.obs.counters = [] → (a.size = 1 ∨ a.size = 2 ∨ a.size = 4 ∨ a.size = 8) →
  let p := sp.place.addr
  let old := leNat (s.mem.hbm.bytes p a.size)
  let m := 2 ^ (8 * a.size)
  let signed := fun x : Nat => if 2 * x < m then (x : Int) else (x : Int) - m
  let writes := fun (t : State) (v : Nat) => ∀ x, t.mem.hbm.get x =
    if p ≤ x ∧ x < p + a.size then BitVec.ofNat 8 (v / 256 ^ (x - p)) else s.mem.hbm.get x
  let k := 32 - p % 32
  let lands := fun (sx : Bool) (x : Nat) => Dest.sreg a.d (if sx then BitVec.ofInt 64 (signed x) else BitVec.ofNat 64 x)
  let part := fun (upper : Bool) => if upper then s.mem.hbm.bytes (p + k) (a.size - k) else s.mem.hbm.bytes p k
  let stands := fun (t : State) (upper : Bool) (bs : List Byte) => t.cur = { s.cur with seq := { s.cur.seq with
    waits := s.cur.seq.waits.map fun x => if x = .glob a then .glob { a with half := some (upper, bs) } else x } }
  let writesPart := fun (t : State) (upper : Bool) => ∀ x, t.mem.hbm.get x =
    if (if upper then p + k ≤ x ∧ x < p + a.size else p ≤ x ∧ x < p + k) then BitVec.ofNat 8 (a.value.toNat / 256 ^ (x - p)) else s.mem.hbm.get x
  (∀ sx, a.op = .load sx → a.size ≤ k → ∃ t : State, s.tryWait (.glob a) = some (t.land 0 1 (lands sx old)) ∧
    t.cur = s.cur ∧ t.mem.hbm = s.mem.hbm) ∧
  (a.op = .store → a.scope = 1#2 → a.size ≤ k → ∃ t : State, s.tryWait (.glob a) = some t ∧ t.cur = s.cur ∧
    writes t (a.value.toNat % m)) ∧
  (∀ sx, a.op = .load sx → k < a.size →
    (a.half = none → ∃ (t : State) (upper : Bool), s.tryWait (.glob a) = some t ∧ stands t upper (part upper) ∧ t.mem.hbm = s.mem.hbm) ∧
    ∀ upper bs, a.half = some (upper, bs) → ∃ t : State, t.cur = s.cur ∧ t.mem.hbm = s.mem.hbm ∧ s.tryWait (.glob a) =
      some (t.land 0 1 (lands sx (leNat (if upper then part false ++ bs else bs ++ part true))))) ∧
  (a.op = .store → a.scope = 1#2 → k < a.size →
    (a.half = none → ∃ (t : State) (upper : Bool), s.tryWait (.glob a) = some t ∧ stands t upper [] ∧ writesPart t upper) ∧
    ∀ upper bs, a.half = some (upper, bs) → ∃ t : State, s.tryWait (.glob a) = some t ∧ t.cur = s.cur ∧ writesPart t !upper) ∧
  (∀ op ord w, a.op = .amo op ord w → (a.size = 4 ∨ a.size = 8) →
    let b := a.value.toNat % m
    let new : Nat := match op with
      | .add => (old + b) % m
      | .min => if signed b < signed old then b else old
      | .max => if signed old < signed b then b else old
      | .and => old &&& b
      | .or => old ||| b
      | .xch => b
      | .cas => if old = a.cmp.toNat % m then b else old
    ∃ t : State, s.tryWait (.glob a) = some (t.land 0 1 (.sreg a.d (BitVec.ofInt 64 (signed old)))) ∧ t.cur = s.cur ∧
      if w then writes t new else t.mem.hbm = s.mem.hbm))

/-! ### Near-bank units -/

/-- R275, R277, R280: the microinstructions of the current command, on a row that its issuer may use: LOADACC, ACCOP and SACC give the
accumulator its new elements and leave the row, STORE writes the row, MINMAX does both, CLEAR zeroes the accumulator; each moves the unit on
by one microinstruction, and no other accumulator and no other byte of HBM changes. END makes the command leave the unit. R276, R277: each
command with a legal packet runs, in the unit that executes it, the microinstructions of its expansion in order until one ends it, fails it
or waits; a packet that breaks R276 or R277 fails. (That a UPROG whose words cannot be decoded, or has a word that is not zero after END,
fails with row 0xFFFFFFFF before any row operation is the model's choice, log entries 88 and 35.) -/
def Obligations.NearBankPrograms : Prop :=
  (∀ (s : State), Memory.wf s.mem.hbm = true →
  let chan := s.net.curChan
  let c := s.net.curCmd
  let accOf := fun (t : State) (j : BitVec 2) (k : Fin 256) => (vat ((t.nbu chan).acc c.issuer) j)[k]
  let moved := fun (t : State) (j : BitVec 2) => (t.nbu chan).upc = (s.nbu chan).upc + 1 ∧ (t.nbu chan).queue = (s.nbu chan).queue ∧
    (∀ j' k, j' ≠ j → accOf t j' k = accOf s j' k) ∧ t.cur = s.cur ∧ t.parked = s.parked ∧ t.mem.towers = s.mem.towers
  (∀ (o : MicroForm) (n : W32) (t : Task), c.row o = some n → s.issuerTask c = some t →
    let run := fun (i : Instr) (write : Bool) (acc : W32 → W32 → W32) (out : Option (W32 → W32 → W32)) => ∀ (sp : Span) (s' : State),
      s.translate t.xctx { read := true, write := write } (1024 * n.toNat) 1024 = (.ok sp, s') →
      nbPageOk chan sp = true → s.poisoned [sp] = false →
      let row := fun k : Nat => BitVec.ofNat 32 (leNat (s.mem.hbm.bytes (sp.place.addr + 4 * k) 4))
      ∃ u, exec i s = .next u ∧ moved u o.acc ∧ (∀ k : Fin 256, accOf u o.acc k = acc (accOf s o.acc k) (row k.val)) ∧
        ∀ x, u.mem.hbm.get x = match out with
          | none => s.mem.hbm.get x
          | some f => if h : sp.place.addr ≤ x ∧ x < sp.place.addr + 1024 then
              let k : Fin 256 := ⟨(x - sp.place.addr) / 4, by omega⟩
              (f (accOf s o.acc k) (row k.val)).extractLsb' (8 * ((x - sp.place.addr) % 4)) 8
            else s.mem.hbm.get x
    let lesser := fun a r : W32 => if c.float then nbMinMax true false a r else if a.toInt ≤ r.toInt then a else r
    let greater := fun a r : W32 => if c.float then nbMinMax true true a r else if a.toInt ≤ r.toInt then r else a
    run (.loadacc o) false (fun _ r => r) none ∧
    run (.accop o) false (fun a r => match c.opf.toNat with
      | 0 => if c.float then nbFloat (addV 0 (nbVal a) (nbVal r)) else a + r
      | 1 => greater a r
      | _ => lesser a r) none ∧
    run (.sacc o) false (fun a r => if c.float then nbFloat (fmaV 0 (nbVal (c.word 2)) (nbVal r) (nbVal a)) else a + c.word 2 * r) none ∧
    run (.nbStore o) true (fun a _ => a) (some fun a _ => a) ∧ run (.minmax o) true greater (some lesser)) ∧
  (∀ j : BitVec 2, ∃ u, exec (.nbClear j) s = .next u ∧ moved u j ∧ (∀ k, accOf u j k = 0#32) ∧ u.mem = s.mem) ∧
  ((c.word 0).getLsbD 19 = false → ∃ u, exec .nbEnd s = .next u ∧ (u.nbu chan).queue = (s.nbu chan).queue.erase c ∧
    (u.nbu chan).owner = none ∧ (u.nbu chan).upc = 0 ∧ u.mem = s.mem ∧ u.cur = s.cur) ∧
  (∀ (sp : Span) (s' : State), (c.word 0).getLsbD 19 = true → s.donePlace chan 22 c = (.ok sp, s') → sp.place.kind = 0 →
    let old := leNat (s.mem.hbm.bytes sp.place.addr 8)
    ∃ u, exec .nbEnd s = .next u ∧ (u.nbu chan).queue = (s.nbu chan).queue.erase c ∧
      leNat (u.mem.hbm.bytes sp.place.addr 8) = old / 2 ^ 63 * 2 ^ 63 + (old + 1) % 2 ^ 63 ∧
      ∀ x, (x < sp.place.addr ∨ sp.place.addr + 8 ≤ x) → u.mem.hbm.get x = s.mem.hbm.get x)) ∧
  (∀ (s : State) (p : NbForm),
  let words := fun (cmd : BitVec 4) => commandWords p cmd
  let at_ := fun (cmd : BitVec 4) => ({ s.net.curCmd with words := words cmd } : NbCmd)
  let ready := fun (cmd : BitVec 4) => ({ s with net := { s.net with
    curCmd := at_ cmd
    nbu := tput s.net.curChan { s.nbu s.net.curChan with queue := at_ cmd :: (s.nbu s.net.curChan).queue, owner := some (at_ cmd).issuer, upc := 0 }
      s.net.nbu } } : State)
  let legal := fun (rows : Nat) (free : List Nat) => (p.typ = 0#4 ∨ p.typ = 8#4) ∧ p.opf ≠ 3#2 ∧ p.nrow.toNat < rows ∧
    ∀ k, (h : k < 7) → k + 1 ∈ free → p.words[k] = 0#32
  let op := fun (rsel : BitVec 2) (k : Nat) => ({ acc := p.acc, rsel := rsel, off := BitVec.ofNat 24 k } : MicroForm)
  let judged := fun (cmd : BitVec 4) (l : List Instr) =>
    if s.net.curCmd.stream.isSome then (ready cmd).runMicro l
    else match (ready cmd).donePlace s.net.curChan 22 (at_ cmd) with
      | (.ok _, s') => s'.runMicro l
      | (.error .wait, s') => s'
      | (.error _, s') => s'.nbFail s.net.curChan (at_ cmd) 0xFFFFFFFF#32
  let runs := fun (i : Instr) (cmd : BitVec 4) (rows : Nat) (free : List Nat) (l : List Instr) =>
    (legal rows free → exec i s = .next (judged cmd l)) ∧
    (¬ legal rows free → exec i s = .next ((ready cmd).nbFail s.net.curChan (at_ cmd) 0xFFFFFFFF#32))
  let rows := List.range (p.nrow.toNat + 1)
  runs (.reduce p) 1#4 32 [2, 3, 4, 5, 6, 7] (rows.map (fun k => .accop (op 0#2 k)) ++ [.nbEnd]) ∧
  runs (.scaleacc p) 2#4 32 [3, 4, 5, 6, 7] (rows.map (fun k => .sacc (op 0#2 k)) ++ [.nbEnd]) ∧
  runs (.cmpxchg p) 3#4 16 [3, 4, 5, 6, 7]
    (rows.flatMap (fun k => [.loadacc (op 1#2 k), .minmax (op 0#2 k), .nbStore (op 1#2 k)]) ++ [.nbEnd]) ∧
  runs (.idxreduce p) 4#4 1 [] ((((List.range 7).filter fun k => (p.words[k]?).getD 0#32 != 0xFFFFFFFF#32).map
    fun k => .accop (op 2#2 (k + 1))) ++ [.nbEnd]) ∧
  runs (.accwb p) 5#4 1 [2, 3, 4, 5, 6, 7] [.nbStore (op 0#2 0), .nbEnd] ∧
  runs (.accclr p) 6#4 1 [1, 2, 3, 4, 5, 6, 7] [.nbClear p.acc, .nbEnd] ∧
  (legal 1 [] → ∀ l, uprogOps (p.words.toList.drop 2) = some l → exec (.uprog p) s = .next (judged 7#4 l)) ∧
  (legal 1 [] → uprogOps (p.words.toList.drop 2) = none →
    exec (.uprog p) s = .next ((ready 7#4).nbFail s.net.curChan (at_ 7#4) 0xFFFFFFFF#32)) ∧
  (∀ l i u, kindOf i = .micro → exec i s = .next u →
    s.runMicro (i :: l) = if (u.nbu s.net.curChan).upc = (s.nbu s.net.curChan).upc + 1 then u.runMicro l else u))

/-! ### Filters (R409) -/

/-- R409: what each filter instruction does to its core's registers, index and count, every other core, task and memory being as before; CADD
counts at the core's counter (R411), and VERD gives the run its verdict: keep appends the record to the trace, drop does not, trigger
appends it and asserts the fix of source 1 with code 0 (R413), and count adds 1 to a counter of the core. CADD and VERD leave every task,
HBM but for the trace entry, and, unless a counter overflows, every other core as it was. -/
def Obligations.Filters : Prop := ∀ (s : State),
  let c := s.obs.curCore
  let l := s.core c
  let r := l.run
  let g := fun x : BitVec 3 => vat r.g x
  let runs := fun (t : State) (x : FilterRun) => t = s.setCore c { l with run := { x with steps := r.steps + 1 } }
  let sets := fun (i : Instr) (d : BitVec 3) (v : W64) => ∃ t, exec i s = .next t ∧ runs t { r with g := vput r.g d v, ix := r.ix + 1 }
  let goes := fun (i : Instr) (taken : Prop) (n : BitVec 32) => ∃ t, exec i s = .next t ∧
    (taken → runs t { r with ix := r.ix + n.toNat }) ∧ (¬ taken → runs t { r with ix := r.ix + 1 })
  (∀ (d a b : BitVec 3) (n : BitVec 32),
    sets (.fltLdf d n) d (BitVec.ofNat 64 (leNat ((r.rec_.bytes.drop n.toNat).take 8))) ∧ sets (.fltLdi d n) d (n.signExtend 64) ∧
    sets (.fltAdd d a b) d (g a + g b) ∧ sets (.fltSub d a b) d (g a - g b) ∧ sets (.fltAnd d a b) d (g a &&& g b) ∧
    sets (.fltOr d a b) d (g a ||| g b) ∧ sets (.fltXor d a b) d (g a ^^^ g b) ∧ sets (.fltShl d a n) d (g a <<< n.toNat) ∧
    sets (.fltShr d a n) d (g a >>> n.toNat) ∧ sets (.fltAndi d a n) d (g a &&& n.zeroExtend 64) ∧
    sets (.fltAddi d a n) d (g a + n.signExtend 64) ∧
    goes (.fltBeq a b n) (g a = g b) n ∧ goes (.fltBne a b n) (g a ≠ g b) n ∧ goes (.fltBltu a b n) ((g a).toNat < (g b).toNat) n ∧
    goes (.fltBlt a b n) ((g a).toInt < (g b).toInt) n) ∧
  (∀ (a : BitVec 3) (n : BitVec 32), ∃ t, exec (.fltCadd a n) s = .next t ∧ t.cur = s.cur ∧ t.parked = s.parked ∧ t.sched = s.sched ∧ t.net = s.net ∧ t.mem = s.mem ∧
    (let off := coreCounter c (n.toNat % 8)
     s.obs.written.lookup off = none → (s.counter off).getLsbD 48 = false → counterValue (s.counter off) + (g a).toNat < 2 ^ 48 →
      counterValue (t.counter off) = counterValue (s.counter off) + (g a).toNat ∧
      (∀ o, o ≠ off → t.counter o = s.counter o) ∧ (∀ k, k ≠ c → t.core k = s.core k) ∧ t.mgmt = s.mgmt ∧
      (t.core c).run = { r with ix := r.ix + 1, steps := r.steps + 1 })) ∧
  (∀ n : BitVec 32, ∃ t, exec (.fltVerd n) s = .next t ∧ (t.core c).run.verdict = some (n.extractLsb' 0 2, n.extractLsb' 2 3) ∧
    (t.core c).run.steps = r.steps + 1 ∧ t.cur = s.cur ∧ t.parked = s.parked ∧ t.sched = s.sched ∧ t.net = s.net ∧
    t.mem = { s.mem with hbm := t.mem.hbm } ∧
    (∀ x, (x < l.trbase.toNat + 32 * l.trhead ∨ l.trbase.toNat + 32 * l.trhead + r.rec_.bytes.length ≤ x) →
      t.mem.hbm.get x = s.mem.hbm.get x) ∧
    (s.obs.counters = [] → ∀ k, k ≠ c → t.core k = s.core k) ∧
    (n.extractLsb' 0 2 = 1#2 → runs t { r with verdict := some (1#2, n.extractLsb' 2 3) }) ∧
    (n.extractLsb' 0 2 = 0#2 ∨ n.extractLsb' 0 2 = 3#2 → l.trbase ≠ 0#64 → (l.trhead + 1) % 2 ^ l.trlog2 ≠ l.trtail →
      (t.core c).trhead = (l.trhead + 1) % 2 ^ l.trlog2 ∧ t.mem.hbm = s.mem.hbm.putBytes (l.trbase.toNat + 32 * l.trhead) r.rec_.bytes) ∧
    (n.extractLsb' 0 2 ≠ 3#2 → t.obs.fixPend = s.obs.fixPend) ∧
    (n.extractLsb' 0 2 = 3#2 → s.obs.fixHeld = false → s.obs.fixPend = none →
      ∃ p, t.obs.fixPend = some p ∧ p.at_ = s.clk.tick ∧ p.src = 1 ∧ p.code = 0#8) ∧
    (n.extractLsb' 0 2 = 2#2 → let off := coreCounter c (n.extractLsb' 2 3).toNat
      (t.core c).trhead = l.trhead ∧ t.mem = s.mem ∧
      (s.obs.written.lookup off = none → (s.counter off).getLsbD 48 = false → counterValue (s.counter off) + 1 < 2 ^ 48 →
        counterValue (t.counter off) = counterValue (s.counter off) + 1)))

/-! ### What the device does on its own: tasks, stalls and barriers -/

/-- R91, R102, R106, R175, R293, R299, R300, R316, R317, R349, R365 to R367: a turn of a task at a plain boundary issues its bundle; a result
whose cycle has come lands; a wake of a tile's task ends the stall of its only wait once that wait is over, and only then; a held write goes
home; a barrier releases its last member, and no barrier completes before every member has arrived, nor while one is stopped; a member that
waits at an instance completed before (one re-executed, R397) leaves without a further count; only writes up to the bundle of the XBAR hold
it back; a fault of an engine is taken at the boundary, and of a task whose turn of this device cycle is still to come at that turn, so that
of the faults of one cycle the lowest task's comes first (R28). What names a tile acts for the task on it, wherever that stands in the
state. -/
def Obligations.TaskEvents : Prop := ∀ (s : State),
  let tile := s.cur.bnd.tile
  let free := s.cur.bound = true ∧ s.cur.seq.state = .running ∧ s.cur.seq.pendingFault = none ∧ s.cur.seq.waits = []
  (free → s.cur.seq.pendingForced = [] → s.cur.eng.nbLate s.clk.tick = false → (s.dbg tile).bkp0.getLsbD 63 = false →
    (s.dbg tile).bkp1.getLsbD 63 = false → s.cur.watch.steps = none → s.cur.seq.freeAt ≤ s.clk.tick →
    exec .bundleIssue s = .next (if s.entered s.issueBundle then s.issueBundle.issueOrStop else s.issueBundle)) ∧
  (∀ (l : Landing) (r : BitVec 5) (v : W64), s.cur.seq.inflight = [l] → l.dest = .sreg r v → l.due ≤ s.cur.seq.scyc → l.runlen = [] →
    ∃ t, exec .resultLanding s = .next t ∧ t.cur.seq.inflight = [] ∧ (∀ x, t.sreg x = if x = r ∧ r ≠ 0#5 then v else s.sreg x) ∧
      t.cur.smem = s.cur.smem ∧ t.mem = s.mem) ∧
  ((∀ l ∈ s.cur.seq.inflight, s.cur.seq.scyc < l.due) → exec .resultLanding s = .next s) ∧
  (let wakes := fun (e : Nat → Instr) (kind : Wait → Bool) (held : Nat → Prop) =>
    (∀ k s1, s.focus k = some s1 → exec (e k) s = exec (e k) s1) ∧ (∀ k, s.focus k = none → ¬ held k → exec (e k) s = .next s) ∧
    ∀ w : Wait, s.cur.bound = true → s.cur.seq.state = .running → s.cur.seq.waits = [w] → s.cur.seq.lastFault = none → kind w = true →
      (s.tryWait w = none → s.mem.locked = [] → ¬ held tile → exec (e tile) s = .next s) ∧
      (∀ t, s.tryWait w = some t → t.cur.seq.waits = [w] → t.cur.seq.lastFault = none → t.cur.seq.state = .running →
        t.cur.mark.armed = false → exec (e tile) s = .next ((t.modSeq fun q => { q with waits := [] }).afterStall.modSeq fun q => { q with freeAt := t.clk.tick + 1 }))
   wakes .globalAccessPerformed Wait.isGlobal (fun k => ∃ x ∈ s.mem.wport, x.tile = k) ∧ wakes .fullEmptyWake Wait.isLoad (fun _ => False) ∧
   wakes .ringReadWake Wait.isRingRead (fun _ => False) ∧ wakes .ringWriteWake Wait.isRingWrite (fun _ => False) ∧
   wakes .engineWaitEnd Wait.isEngine (fun _ => False)) ∧
  (∀ (w : PortWrite) rest, s.cur.bound = true → s.cur.seq.waits = [] → s.mem.wport = w :: rest → w.tile = tile → w.place.kind = 0 → w.dev = false →
    s.env.retrain = [] →
    ∃ t, exec (.globalAccessPerformed tile) s = .next t ∧ t.mem.wport = rest ∧
      t.mem.hbm = s.mem.hbm.putBytes w.place.addr w.bytes ∧ t.cur = s.cur) ∧
  (∀ launch group line n rest, (∀ t ∈ s.members launch group line, ∀ k, barrierWait group t = some k → s.barrierDone group k t = false) →
    (s.members launch group line).filterMap (barrierWait group) = n :: rest → (∀ k ∈ rest, n ≤ k) →
    (∃ t ∈ s.members launch group line, s.arrived group n t = false ∨ t.seq.state = .stopped) →
    exec (.barrierRelease launch group line) s = .next s) ∧
  (∀ (l : Launch) n, s.cur.bound = true → s.parked = [] → s.launch? s.cur.bnd.launch = some l → s.cur.seq.state = .running →
    s.cur.seq.waits = [.barrier 0#2 n] → s.cur.seq.saved = none → s.cur.seq.branch = none →
    s.cur.seq.resumed = false → s.cur.mark.armed = false → s.cur.eng.xbars 0#2 = n →
    (∀ w ∈ s.mem.wport, w.tile = tile → s.cur.seq.waitScyc < w.at_) →
    ∃ t, exec (.barrierRelease s.cur.bnd.launch 0#2 0) s = .next t ∧ t.cur.seq.waits = [] ∧ t.cur.seq.scyc = s.cur.seq.scyc + 1 ∧
      (t.launch? s.cur.bnd.launch).map (fun x => (x.phaseCnt, x.bars)) =
        some (if l.bars < n then (l.phaseCnt + 1, n) else (l.phaseCnt, l.bars))) ∧
  (∀ p : Pending, s.cur.bound = true → s.cur.seq.state = .running → s.cur.seq.waits = [] → s.cur.seq.pendingFault = some p → p.redo = false →
    s.cur.seq.lockFrom = none → tile ∉ s.clk.turn → exec (.engineFaultAfterIssue tile) s =
      .next ((s.modSeq fun q => { q with pendingFault := none }).takeFault (p.pc.getD s.cur.seq.pc) p.fault)) ∧
  (∀ k, k ∈ s.clk.turn → exec (.engineFaultAfterIssue k) s = .next s)

/-! ### Queues, scheduling and retirement -/

/-- R30 to R33, R182: what a doorbell does on a tail write, a clear of TERR, LIVE and a write of its RCBA, and what a LAUNCH request does when
it is applied; no other doorbell changes, and no task, launch or memory. (SLOT 6 and the TRAPPC of the LAUNCH's own bundle for a refused
request are the model's choice, log entry 34.) -/
def Obligations.QueueEvents : Prop := ∀ (s : State) (region tail : BitVec 16) (rcba : BitVec 44),
  let d := s.doorbell region.toNat
  let q := s.queueLen region.toNat
  let h := s.qhead region.toNat
  let sets := fun (i : Instr) (d' : Doorbell) => ∃ t, exec i s = .next t ∧ t.doorbell region.toNat = d' ∧
    (∀ r, r ≠ region.toNat → t.doorbell r = s.doorbell r) ∧ t.cur = s.cur ∧ t.parked = s.parked ∧ t.mem = s.mem ∧
    t.sched.launches = s.sched.launches
  let accepted := d.live = true ∧ tail.toNat < q ∧ (d.tail + q - h % q) % q ≤ (tail.toNat + q - h % q) % q
  let taken : Doorbell := { d with tail := tail.toNat, batches := if tail.toNat = d.tail then d.batches else d.batches ++ [tail.toNat] }
  (accepted → sets (.tailWrite region tail) taken) ∧
  (¬ accepted → sets (.tailWrite region tail) { d with terr := true }) ∧
  sets (.terrClear region) { d with terr := false } ∧ sets (.liveOff region) { d with live := false } ∧
  (d.live = true → exec (.liveOn region rcba) s = .next s) ∧
  (d.live = false → s.admitted region.toNat = [] →
    (let at_ := 256 * rcba.toNat
     let q' := 2 ^ bitsAt (s.mem.hbm.bytes at_ 256) 628 5
     let h' := leNat (s.mem.hbm.bytes (at_ + 80) 4)
     sets (.liveOn region rcba) { d with rcba := rcba.toNat, live := true, headv := h' % 2 ^ 16, acur := h' % q', tail := h' % q', batches := [], run := none, ahead := [], held := none }) ∧
    sets (.rcbaWrite region rcba) { d with rcba := rcba.toNat }) ∧
  (d.live = true ∨ s.admitted region.toNat ≠ [] → exec (.rcbaWrite region rcba) s = .next s) ∧
  (∀ (r : LaunchReq) rest, s.cur.bound = true → s.cur.eng.launchReqs = r :: rest → s.portClear s.cur.bnd.tile 1#2 = true →
    (∀ l ∈ s.sched.launches, ∀ c ∈ l.contexts, c.bnd.tile ≠ s.cur.bnd.tile) → r.region = region → r.tail = tail → d.live = true → region.toNat = s.cur.bnd.region →
    ∃ t, exec (.launchRequestApply s.cur.bnd.tile) s = .next t ∧
      t.cur = { s.cur with eng := { s.cur.eng with launchReqs := rest } } ∧
      (accepted → t.doorbell region.toNat = taken) ∧ (¬ accepted → t.doorbell region.toNat = { d with terr := true })) ∧
  (∀ (r : LaunchReq) rest, s.cur.bound = true → s.cur.eng.launchReqs = r :: rest → s.portClear s.cur.bnd.tile 1#2 = true →
    (∀ l ∈ s.sched.launches, ∀ c ∈ l.contexts, c.bnd.tile ≠ s.cur.bnd.tile) → r.region = region → d.live = false → s.cur.seq.pendingFault = none →
    s.cur.seq.state ≠ .dead → let fault : FaultInfo := { status := .protection, cause := 0, slot := 6, info := region.zeroExtend 64 }
    exec (.launchRequestApply s.cur.bnd.tile) s = .next ((s.modEng fun e => { e with launchReqs := rest }).modSeq fun q =>
      { q with pendingFault := some { fault := fault, pc := some r.pc } }))

/-- R36 to R46, R54, R422: passes, aging, exclusion, the watchdog, ABORT, and page faults resolved or found unresolvable; a pass over one
eligible launch that is no member of a gang or sliced region gives it the first rectangle whose tiles can take it. (FINFO 0 after an
exclusion timeout is log entry 73; that every task is dead in the ABORT's own cycle, where R381 allows 1 µs, is log entry 8.) R50 to R52:
slices of a region with one launch: at a slice end a preemptible resident launch stops, and one that is being restored, or is chosen outside
a gang, gives its tiles up, while one that is not preemptible runs on or is restored across it; in the cycle of a slice start a pass runs,
in which alone a gang of the region is placed, on tiles that are free then, or it misses and that is logged; a chosen gang whose tiles are
not free gives them up first; and one pre-emption time before the start its rectangle is chosen, by the visits of R41 (that the gang is
chosen at its lead is log entry 45). A slice start that PTP's promise does not cover is logged (R429). A deficit is dropped once its region
has no asking launch of the class. -/
def Obligations.SchedulingEvents : Prop :=
  (∀ (s : State),
  exec .passTimer s = exec .schedulingPass s ∧
  (∀ (l : Launch) (o : Nat × Nat), s.sched.doorbells = [] → s.mgmt.saving = false → s.plc.tstat = [] → s.sched.launches = [l] → l.phase = .eligible →
    l.contexts = [] → l.onGrid = false → l.gangKey = 0 → l.eff.sliced = false → l.eff.ageLim = 0 → l.cls ≤ 15 →
    l.w * l.h ≤ l.eff.maxTiles → (∀ c ∈ l.eff.chain, l.w * l.h ≤ c.2.1) →
    (origins l.w l.h).find? (fun o => (rectTiles o.1 o.2 l.w l.h).all fun k =>
      s.tileGrants l k && !s.excluded l k && !(s.sched.clearing.any fun c => c.1 == k)) = some o →
    ∃ t, exec .schedulingPass s = .next t ∧ t.sched.launches = [{ l with phase := .chosen, origin := o, exclSince := none }] ∧
      t.sched.lastPass = s.clk.tick ∧ t.cur = s.cur ∧ t.parked = s.parked ∧ t.mem = s.mem) ∧
  (∀ id, ∃ t : State, exec (.dependenceChangeObserved id) s = .next t ∧ t.sched.lastPass = s.clk.tick) ∧
  (∀ id, s.launch? id = none → ∃ t, exec (.dependenceChangeObserved id) s = .next t ∧ exec .schedulingPass s = .next t) ∧
  (∀ (l : Launch) (d : Dep) bs s1, s.launch? l.id = some l → l.phase = .waiting → l.deps = [d] → d.sat = false →
    s.schedRead l.id l.eff d.va 8 = (.ok bs, s1) →
    let s2 := if d.thr.toNat ≤ leNat bs then s1.modLaunch l.id fun x => { x with deps := x.deps.map fun d => { d with sat := true } } else s1
    ∃ t, exec (.dependenceChangeObserved l.id) s = .next t ∧ exec .schedulingPass s2 = .next t) ∧
  (∀ (l : Launch), s.launch? l.id = some l → l.gangKey = 0 → l.phase = .eligible →
    (l.placedAt = none → l.aged = false → l.eff.ageLim ≠ 0 → l.since + 1000000 * l.eff.ageLim ≤ s.elapsed →
      exec (.agingExpiry l.id) s = .next (s.modLaunch l.id fun x => { x with cls := min 15 (x.cls + 1), aged := true }).dropDeficits.wantPass) ∧
    (s.elapsed < l.since + 1000000 * l.eff.ageLim → exec (.agingExpiry l.id) s = .next s) ∧
    (∀ e, l.exclSince = some e → e + 1000000000 ≤ s.elapsed → ∃ t, exec (.exclusionTimeout l.id) s = .next t ∧
      (t.launch? l.id).map (fun x => (x.phase, x.status, x.finfo)) = some (.draining, .unplaceable, 0#64) ∧ t.cur = s.cur) ∧
    (∀ e, l.exclSince = some e → s.elapsed < e + 1000000000 → exec (.exclusionTimeout l.id) s = .next s)) ∧
  (∀ (l : Launch), s.launch? l.id = some l → s.cur.bound = true → s.cur.bnd.launch = l.id → s.cur.bnd.tx = 0 → s.cur.bnd.ty = 0 →
    s.cur.seq.waits = [] →
    (l.onGrid = true → l.status = .ok → l.phase = .resident → l.wdogLeft = 0 → exec (.watchdogExpiry l.id) s =
      .next (s.takeTerminal s.cur.seq.pc { status := .watchdog, cause := 0, slot := 6, info := 0#64 })) ∧
    (l.wdogLeft ≠ 0 → exec (.watchdogExpiry l.id) s = .next s)) ∧
  (∀ (l : Launch), s.launch? l.id = some l →
    (l.phase = .resident ∨ l.phase = .eligible ∨ l.phase = .waiting ∨ l.phase = .preempted → l.status = .ok →
      ∃ t, exec (.abortLaunch l.id) s = .next t ∧
        (t.launch? l.id).map (fun x => (x.phase, x.status)) = some (.draining, .aborted) ∧
        ∀ u ∈ t.tasks, u.bnd.launch = l.id → u.seq.state = .dead ∨ u.seq.state = .ended) ∧
    (l.phase = .stopping ∨ l.phase = .saving ∨ l.phase = .restoring →
      exec (.abortLaunch l.id) s = .next (s.modLaunch l.id fun x => { x with aborted := true }))) ∧
  (∀ writes : List (Nat × BitVec 64), ∃ t, exec (.pageResolved writes) s = .next t ∧
    t.mem.hbm = writes.foldl (fun m w => m.putBytes w.1 (leBytes w.2.toNat 8)) s.mem.hbm ∧
    (s.cur.seq.state = .held → t.cur = { s.cur with seq := { s.cur.seq with state := .running } }) ∧
    (s.cur.seq.state ≠ .held → t.cur = s.cur)) ∧
  (∀ (asid : BitVec 14) va, ∃ t, exec (.pageUnresolvable asid va) s = .next t ∧ (asid.toNat, va / 4096) ∈ t.mem.unres ∧
    t.mem.hbm = s.mem.hbm ∧ (s.cur.seq.state = .held → t.cur.seq.state = .running))) ∧
  (∀ (s : State) (l : Launch), s.sched.launches = [l] → l.eff.sliced = true →
  l.region < 65536 →
  let region := BitVec.ofNat 16 l.region
  (s.inSlice l.eff = false →
    (l.phase = .resident → l.eff.preempt = true → (s.launchTasks l.id).any Task.receives = true →
      exec (.sliceEnd region) s = .next (s.startStop l.id .slice).wantPass) ∧
    (l.phase = .resident → l.eff.preempt = false → exec (.sliceEnd region) s = .next s) ∧
    (l.phase = .restoring → l.eff.preempt = false → exec (.sliceEnd region) s = .next s) ∧
    (l.phase = .restoring ∧ l.eff.preempt = true ∨ l.phase = .chosen ∧ l.gangKey = 0 →
      exec (.sliceEnd region) s = .next (s.giveUp [l.id]).wantPass)) ∧
  (s.inSlice l.eff = true → s.sliceEnds l.eff = false → exec (.sliceEnd region) s = .next s) ∧
  (let s0 := if s.sliceStarts l.eff = true ∧ s.promised = false then s.logEvent 429 l.region else s
   let found := (origins l.w l.h).find? fun o => (rectTiles o.1 o.2 l.w l.h).all fun k =>
     s.tileGrants l k && !s.excluded l k && !(s.sched.clearing.any fun c => c.1 == k)
   let still := fun (t : State) => t.cur = s.cur ∧ t.parked = s.parked ∧ t.mem = s.mem
   (l.gangKey = 0 →
     (∃ t, exec .schedulingPass s0 = .next t ∧ exec (.sliceStart region) s = .next (t.logMissed l.region)) ∧ exec (.sliceLead region) s = .next s.dropDeficits) ∧
   (l.gangKey ≠ 0 → s.sliceStarts l.eff = true → l.phase = .chosen → l.contexts = [] → l.aborted = false →
     (∃ k ∈ l.tiles, ∃ c ∈ s.sched.clearing, c.1 = k) →
     ∃ t, exec .schedulingPass (s0.giveUp [l.id]) = .next t ∧ exec (.sliceStart region) s = .next (t.logMissed l.region)) ∧
   (l.gangKey ≠ 0 → s.sched.doorbells = [] → s.mgmt.saving = false → s.plc.tstat = [] → l.phase = .eligible → l.contexts = [] →
     l.onGrid = false → l.eff.ageLim = 0 → l.cls ≤ 15 → l.w * l.h ≤ l.eff.maxTiles → (∀ c ∈ l.eff.chain, l.w * l.h ≤ c.2.1) →
     (s.sliceStarts l.eff = true → exec (.sliceLead region) s = .next s.dropDeficits ∧
       (∀ o, found = some o → ∃ t, exec (.sliceStart region) s = .next t ∧ still t ∧ t.sched.log = s0.sched.log ∧
         t.sched.launches = [{ l with phase := .chosen, origin := o, exclSince := none }] ∧ tget 65536 t.sched.visited l.cls = l.region) ∧
       (found = none → s.placeable false [l] = true → ∃ (t : State) (e : Option Nat), exec (.sliceStart region) s = .next t ∧ still t ∧
         t.sched.log = s0.sched.log ++ [(51, l.region)] ∧ t.sched.launches = [{ l with exclSince := e }])) ∧
     (s.sliceStarts l.eff = false →
       (s.placeable false [l] = true → ∃ (t : State) (e : Option Nat), exec (.sliceStart region) s = .next t ∧ still t ∧
         t.sched.log = s.sched.log ∧ t.sched.launches = [{ l with exclSince := e }]) ∧
       (found = none → exec (.sliceLead region) s = .next s.dropDeficits) ∧
       ∀ o, found = some o → s.env.retrain = [] →
         (4 * 34000 < s.toSlice l.eff → exec (.sliceLead region) s = .next s.dropDeficits) ∧
         (s.toSlice l.eff ≤ 4 * 34000 → ∃ t, exec (.sliceLead region) s = .next t ∧ still t ∧
           t.sched.launches = [{ l with phase := .chosen, origin := o }] ∧ tget 65536 t.sched.visited l.cls = l.region)))))

/-- R23, R45, R73, R98, R100, R417, R418: the release of a launch to free tiles binds a task in the state of R23 to each; a launch that has
drained is completed and leaves the device with its tiles to be cleared: R28's record stands at CRADDR, the counter at CCADDR is one more,
and QHEAD is advanced, and no other byte of memory changes; and a clear done leaves the lease zero and empty. -/
def Obligations.PlacementAndRetirement : Prop := ∀ (s : State),
  (∀ (l : Launch) (img : Image) (arg : List Byte) s1, s.sched.launches = [l] → l.phase = .chosen → l.onGrid = false → l.contexts = [] →
    l.origin.1 + l.w ≤ 32 →
    l.gangKey = 0 → s.sched.clearing = [] → s.inSlice l.eff = true → s.tilesGood l = true → s.mgmt.saving = false →
    s.readLaunch l = (.ok (img, arg), s1) →
    ∃ t, exec (.launchRelease l.id) s = .next t ∧ t.parked.length = s.parked.length + l.w * l.h ∧ t.cur = s.cur ∧
      (∀ x y, (hx : x < l.w) → (hy : y < l.h) → ∃ u ∈ t.parked, u.bnd.tile = 32 * (l.origin.2 + y) + l.origin.1 + x ∧ u.bnd.tx = x ∧
        u.bnd.ty = y ∧ u.bnd.launch = l.id ∧ u.seq.pc = img.entry ∧ u.seq.scyc = 0 ∧ u.seq.dcyc = 0 ∧ u.seq.state = .running ∧
        u.reg.sreg 1#5 = BitVec.ofNat 64 img.argOff ∧ u.reg.sreg 2#5 = BitVec.ofNat 64 l.argLen ∧
        (∀ r : BitVec 5, r ≠ 1#5 → r ≠ 2#5 → u.reg.sreg r = 0#64) ∧ (∀ r : BitVec 3, u.reg.creg r = decide (r = 0#3)) ∧
        u.reg.vl = 16#64 ∧ u.reg.cma = 0xFF#64 ∧ u.reg.cmb = 0#64 ∧ u.reg.fmt = 0#64 ∧ u.reg.tenab = 0#64 ∧ u.reg.mode = 0#64 ∧
        u.reg.ovt = l.eff.ovt.zeroExtend 64 ∧ u.reg.priv = l.eff.root ∧ u.cl = Vector.replicate 8 Cluster.reset ∧
        u.smem = (Memory.putBytes [] img.sdDest img.sd).putBytes img.argOff arg) ∧
      (t.launch? l.id).map (fun x => (x.phase, x.onGrid)) = some (.resident, true)) ∧
  (∀ l : Launch, s.launch? l.id = some l → s.mayRelease (s.gangOf l) = false → exec (.launchRelease l.id) s = .next s) ∧
  (∀ (l : Launch), s.launch? l.id = some l → (l.phase = .resident ∨ l.phase = .draining) → s.drained l = true → l.craddr = 0 →
    l.ccaddr = 0 → l.onGrid = true → l.leaving = false → s.launchClear l.id = true → s.retraining (s.rcbAddr l.region) = false →
    ∃ t, exec (.retire l.id) s = .next t ∧ t.sched.launches = s.sched.launches.filter (fun x => x.id != l.id) ∧
      t.sched.clearing = s.sched.clearing ++ l.tiles.map (fun k => (k, l.towLease)) ∧
      (∀ u ∈ t.tasks, l.id ≠ 0 → u.bnd.launch ≠ l.id) ∧
      (t.doorbell l.region).headv = (s.qhead l.region + 1) % s.queueLen l.region % 2 ^ 16 ∧
      (Memory.wf s.mem.hbm = true → t.qhead l.region = (s.qhead l.region + 1) % s.queueLen l.region)) ∧
  (∀ (l : Launch) (cr cc : Span) s1 s2, s.launch? l.id = some l → (l.phase = .resident ∨ l.phase = .draining) → s.drained l = true →
    l.onGrid = true → l.leaving = false → s.mem.wport = [] → s.retraining (s.rcbAddr l.region) = false → Memory.wf s.mem.hbm = true →
    (s.startClear l).completionPlace l l.craddr 64 = (some (some [cr]), s1) → s1.completionPlace l l.ccaddr 8 = (some (some [cc]), s2) →
    cr.place.kind = 0 → cr.len = 64 → cc.place.kind = 0 → cc.len = 8 →
    let a := cr.place.addr
    let b := cc.place.addr
    let rcb := s.rcbAddr l.region
    a + 64 ≤ b ∨ b + 8 ≤ a → a + 64 ≤ rcb ∨ rcb + 256 ≤ a → b + 8 ≤ rcb ∨ rcb + 256 ≤ b →
    let failed := fun (f : Failing → Nat) => (l.failing.map f).getD 0
    let set := fun (x : Bool) (k : Nat) => if x then 2 ^ k else 0
    let words : List Nat := [
      l.status.code + 2 ^ 8 + set l.recbad 9 + set l.imgbad 10 + set (l.restarts != 0) 11 + set l.pclip 12 + failed (·.fx) * 2 ^ 16 +
        failed (·.fy) * 2 ^ 21 + l.id * 2 ^ 32,
      l.tag.toNat, s.clk.ptimeQ / 4, (l.placedAt.map fun p => s.clk.tick - p).getD 0,
      failed (·.fpc) % 2 ^ 13 + failed (·.fcode.toNat) * 2 ^ 16 + min l.restarts 65535 * 2 ^ 32, l.finfo.toNat, 0, 0]
    let next := (s.qhead l.region + 1) % s.queueLen l.region
    ∃ t, exec (.retire l.id) s = .next t ∧ t.sched.launches = s.sched.launches.filter (fun x => x.id != l.id) ∧
      (∀ x, t.mem.hbm.get x =
        if a ≤ x ∧ x < a + 64 then BitVec.ofNat 8 ((words[(x - a) / 8]?).getD 0 / 256 ^ ((x - a) % 8))
        else if b ≤ x ∧ x < b + 8 then BitVec.ofNat 8 ((leNat (s.mem.hbm.bytes b 8) + 1) / 256 ^ (x - b))
        else if rcb + 80 ≤ x ∧ x < rcb + 84 then BitVec.ofNat 8 (next / 256 ^ (x - (rcb + 80)))
        else s.mem.hbm.get x) ∧
      t.mem.host = s.mem.host ∧ t.mem.peer = s.mem.peer ∧ t.mem.towers = s.mem.towers ∧ t.mem.full = s.mem.full) ∧
  (∀ (l : Launch), s.launch? l.id = some l → s.drained l = false → exec (.retire l.id) s = .next s) ∧
  (∀ tile lease rest, s.sched.clearing = (tile, lease) :: rest → s.plc.tstat = [] → (∀ p, (s.chart p).tstate = 0) →
    ∃ t, exec (.leaseClearDone tile) s = .next t ∧ (∀ c ∈ t.sched.clearing, c.1 ≠ tile) ∧
      (∀ r ∈ leaseRows lease, ∀ x < 64 * r.2.2,
        t.mem.towers.get (towerKey (s.physTower tile r.1) (64 * r.2.1) + x) = 0#8 ∧
        ∀ k ∈ t.mem.full, k ≠ (towerKey (s.physTower tile r.1) (64 * r.2.1) + x) / 16) ∧ t.cur = s.cur ∧ t.mem.hbm = s.mem.hbm)

/-! ### Stopping, saving, restoring and repair -/

/-- R388 to R395, R28: a stop freezes every task of its launch and runs its deadline; acknowledgements collect; a complete stop turns into a
save, or stays for a debug stop; a complete save takes the contexts off the grid and leaves the launch preempted; a restore brings them back
as they were and lets them go on; and each missed deadline ends the launch with SAVE_TIMEOUT. (That a restore has its deadline is log entry
29.) -/
def Obligations.StopEvents : Prop := ∀ (s : State) (l : Launch), s.launch? l.id = some l → l.gangKey = 0 → l.aborted = false → l.id ≠ 0 →
  let view := fun (t : State) => (t.launch? l.id).map fun x => (x.phase, x.onGrid, x.status)
  let timesOut := fun (i : Instr) => ∃ t, exec i s = .next t ∧ view t = some (.draining, l.onGrid, if l.status = .ok then .saveTimeout else l.status) ∧
    ∀ u ∈ t.tasks, u.bnd.launch = l.id → u.seq.state = .dead ∨ u.seq.state = .ended
  (∀ why, l.phase = .resident → (∀ u ∈ s.tasks, u.seq.pendingFault = none) → (∃ u ∈ s.launchTasks l.id, u.receives = true) →
    ∃ t, exec (.stopRequest l.id why) s = .next t ∧ view t = some (.stopping, l.onGrid, l.status) ∧
      (t.launch? l.id).map (fun x => (x.why, x.stopAt)) = some (why, s.clk.tick + 3200) ∧
      ∀ u ∈ t.tasks, u.bnd.launch = l.id → u.seq.state ≠ .running ∧ u.seq.state ≠ .held ∧ u.seq.state ≠ .nbHeld) ∧
  (∀ e, l.phase = .stopping → s.cur.bound = true → s.cur.bnd.launch = l.id → (s.cur.bnd.tile, e) ∉ l.acks → s.net.packets = [] →
    s.atUnit s.cur e = true →
    ∃ t, exec (.engineStopAck s.cur.bnd.tile e) s = .next t ∧
      (t.launch? l.id).map (·.acks) = some (l.acks ++ [(s.cur.bnd.tile, e)]) ∧ t.cur = s.cur ∧ t.parked = s.parked ∧ t.mem = s.mem) ∧
  (l.phase = .stopping →
    (s.stopDone l = false → exec (.stopComplete l.id) s = .next s) ∧
    (s.stopDone l = true →
      (∀ x ∈ s.sched.launches, x.why = .migrate → ∃ c ∈ s.plc.copies, c.tower = none ∧ c.tile ∈ x.tiles) →
      ∃ t, exec (.stopComplete l.id) s = .next t ∧
      view t = some (if l.why = .debug then .debug else .saving, l.onGrid, l.status) ∧ t.cur = s.cur ∧ t.mem = s.mem) ∧
    (l.stopAt ≤ s.clk.tick → s.stopDone l = false → timesOut (.stopDeadline l.id)) ∧
    (s.clk.tick < l.stopAt → exec (.stopDeadline l.id) s = .next s)) ∧
  (l.phase = .saving → l.why ≠ .migrate →
    (s.env.retrain = [] → (∀ k ∈ l.tiles, s.portFreeTo k 3#2 = true) → ∃ t, exec (.saveComplete l.id) s = .next t ∧
      view t = some (.preempted, false, l.status) ∧
      (t.launch? l.id).map (·.contexts) = some ((s.launchTasks l.id).map fun u => { u.kept with area := 1 }) ∧
      ∀ u ∈ t.tasks, u.bnd.launch ≠ l.id) ∧
    ((∃ k ∈ l.tiles, s.portFreeTo k 3#2 = false) → exec (.saveComplete l.id) s = .next s) ∧
    (s.env.retrain ≠ [] → exec (.saveComplete l.id) s = .next s) ∧
    (l.saveAt ≤ s.clk.tick → timesOut (.saveDeadline l.id)) ∧ (s.clk.tick < l.saveAt → exec (.saveDeadline l.id) s = .next s)) ∧
  (l.phase = .restoring →
    (∀ img, s.env.retrain = [] → l.why ≠ .debug → (l.eff.preempt = true → s.mayStart l = true) →
      (l.step2 = true ∧ l.img = some img) ∨ (l.step2 = false ∧ ∃ s1, s.reload l = (.image (some img), s1)) →
      ∃ t, exec (.restore l.id) s = .next t ∧ view t = some (.resident, l.onGrid, l.status) ∧
        ∀ c ∈ l.contexts, c.bnd.launch = l.id → ∃ u ∈ t.tasks, u.bnd = { c.bnd with store := img.store } ∧ u.reg = c.reg ∧ u.cl = c.cl ∧
          u.smem = c.smem ∧ u.rings = c.rings ∧ u.eng = c.eng ∧ u.mark = c.mark ∧ u.seq.pc = c.seq.pc ∧ u.seq.scyc = c.seq.scyc ∧
          u.seq.inflight = c.seq.inflight ∧ u.seq.state = if c.seq.state = .stopped then .running else c.seq.state) ∧
    (l.step2 = true → l.saveAt ≤ s.clk.tick → timesOut (.restoreDeadline l.id)) ∧
    (s.clk.tick < l.saveAt ∨ l.step2 = false → exec (.restoreDeadline l.id) s = .next s))

/-- R62, R64, R65, R68, R74 to R77, R89, R252, R396, R397, R432: fences, scrubs, copies and their switches, and hardware errors: one that is not
answered by re-execution is pending until the task's next boundary, where a stopped task takes it too (R371, R373). (That a migration
switches at one event and waits for a forced pass is log entry 43, and which spare is taken log entry 39.) -/
def Obligations.RepairEvents : Prop := ∀ (s : State) (tile : Nat),
  let pt := s.physTile tile
  (s.sched.launches = [] →
    (s.tileIdle tile = true → ∀ px, s.spareFor tile 0 = some px → px ≠ (s.remap tile).px → ∃ t, exec (.tileFence tile) s = .next t ∧
      t.physTile tile = 34 * tileY tile + px ∧ t.pstate pt = 1 ∧ t.cur = s.cur ∧ t.parked = s.parked) ∧
    (s.tileIdle tile = false → ∃ t, exec (.tileFence tile) s = .next t ∧ t.pstate pt = 1 ∧ t.plc.remap = s.plc.remap ∧ t.cur = s.cur)) ∧
  (∀ p, s.pstate p = 1 → s.isSpare (p / 34) (p % 34) = true → s.keepsHeld p = false → ∃ t, exec (.tileScrubDone p) s = .next t ∧ t.pstate p = 0 ∧
    (∀ k < 9, ∀ x < 2 ^ 22, t.mem.towers.get (towerKey (9 * p + k) x) = 0#8) ∧ t.cur = s.cur ∧ t.mem.hbm = s.mem.hbm) ∧
  (∀ p, s.pstate p ≠ 1 ∨ s.isSpare (p / 34) (p % 34) = false ∨ s.keepsHeld p = true → exec (.tileScrubDone p) s = .next s) ∧
  (∀ (t : Task) (l : Launch) px, s.taskOn tile = some t → s.launch? t.bnd.launch = some l →
    (l.eff.preempt = true → l.phase = .resident → t.receives = true → s.spareFree (tileY tile) px = true →
      s.ptileFits (34 * tileY tile + px) t.bnd.lease = true → (∀ c ∈ s.plc.copies, c.tile ≠ tile) →
      exec (.migrationStart tile px) s = .next { s with plc := { s.plc with
        copies := s.plc.copies ++ [{ tile := tile, tower := none, dest := px }] } }) ∧
    (l.eff.preempt = false → exec (.migrationStart tile px) s = .next s) ∧
    (∀ c s1, s.plc.copies.find? (fun c => c.tile == tile && c.tower.isNone) = some c → l.phase = .resident →
      (s.launchTasks l.id).any Task.receives = true → (∀ i < 8, s.underForced (s.physTower tile i) = false) →
      (∀ i < 8, s.badRows tile i = false) → s.destGood tile c.dest = true → s.reload l = (.image none, s1) →
      ∃ u, exec (.migrationSwitch tile) s = .next u ∧ u.physTile tile = 34 * tileY tile + c.dest ∧ (∀ d ∈ u.plc.copies, d.tile ≠ tile) ∧
        u.cur = s.cur ∧ u.parked = s.parked ∧ u.mem.hbm = s.mem.hbm) ∧
    (∀ i < 8, s.underForced (s.physTower tile i) = true → exec (.migrationSwitch tile) s = .next s)) ∧
  (s.taskOn tile = none → exec (.migrationStart tile 0) s = .next s ∧ exec (.migrationSwitch tile) s = .next s) ∧
  (∀ (i : BitVec 3) p, (s.chart (s.ptower pt i.toNat)).tstate = 1 → s.spareTower pt = some p → (∀ c ∈ s.plc.copies, c.tile ≠ tile) →
    leaseNeeds (s.leasedOn tile) i.toNat ≤ 8192 * (s.chart (9 * pt + p)).nlay →
    exec (.towerSwitchIn tile i) s = .next { s with plc := { s.plc with
      copies := s.plc.copies ++ [{ tile := tile, tower := some i, dest := p }] } }) ∧
  (∀ (i : BitVec 3) (c : CopyJob), s.plc.copies.find? (fun c => c.tile == tile && c.tower == some i) = some c → c.dest < 9 →
    (∀ j < 8, (s.tmap pt).toNat / 16 ^ j % 16 ≠ c.dest) → Memory.wf s.mem.towers = true → s.underForced (s.ptower pt i.toNat) = false →
    s.badRows tile i.toNat = false → (s.chart (9 * pt + c.dest)).tstate = 0 →
    leaseNeeds (s.leasedOn tile) i.toNat ≤ 8192 * (s.chart (9 * pt + c.dest)).nlay →
    ∃ t, exec (.copySwitch tile i) s = .next t ∧ t.physTower tile i.toNat = 9 * pt + c.dest ∧
      (∀ j < 8, j ≠ i.toNat → t.physTower tile j = s.physTower tile j) ∧
      (∀ a < 2 ^ 22, t.mem.towers.get (towerKey (9 * pt + c.dest) a) = s.mem.towers.get (towerKey (s.physTower tile i.toNat) a)) ∧
      (∀ d ∈ t.plc.copies, d.tile ≠ tile) ∧ t.cur = s.cur ∧ t.parked = s.parked ∧ t.mem.hbm = s.mem.hbm) ∧
  (∀ c, s.plc.copies.find? (fun c => c.tile == tile) = some c → ∃ t, exec (.copyWriteError tile) s = .next t ∧
    (∀ d ∈ t.plc.copies, d.tile ≠ tile) ∧ (c.tower.isSome = true → (t.chart (9 * pt + c.dest)).tstate = 2) ∧
    (c.tower = none → t.pstate (34 * tileY tile + c.dest) = 2) ∧
    ((∀ x ∈ s.sched.launches, x.phase = .saving → x.why ≠ .migrate) → t.cur = s.cur ∧ t.mem = s.mem)) ∧
  exec (.hardwareError tile .storeSingle) s = .next (s.logEvent 89 tile).resumeIdle ∧
  (∀ (l : Launch), s.cur.bound = true → s.cur.bnd.tile = tile → s.launch? s.cur.bnd.launch = some l → s.cur.seq.waits = [] → s.cur.receives = true →
    s.cur.seq.pendingFault = none →
    let fault : FaultInfo := { status := .hwError, cause := 0, slot := 6, info := 0#64 }
    let pends := (s.modSeq fun q => { q with pendingFault := some { fault := fault, pc := none, redo := false, now := true } }).resumeIdle
    ((∀ t ∈ s.parked, t.bnd.tile ≠ tile) →
      exec (.hardwareError tile .hbmData) s = .next pends ∧
      (l.restart = false ∨ 3 ≤ s.cur.bnd.hwErrs →
        exec (.hardwareError tile .storeDouble) s = .next pends ∧ exec (.hardwareError tile .register) s = .next pends ∧
        exec (.hardwareError tile .towerRow) s = .next pends)) ∧
    (∀ px img, l.restart = true → s.cur.bnd.hwErrs < 3 → s.spareFor tile (s.leasedOn tile) = some px → l.img = some img → l.phase = .resident →
      s.net.packets = [] → s.net.bcols = [] → s.cur.eng.dmOps = [] → (∀ h : BitVec 4, (s.cur.ring h).stream = none) →
      (∀ x ∈ s.sched.launches, x.phase = .saving → x.why ≠ .migrate) →
      ∃ t, exec (.hardwareError tile .storeDouble) s = .next t ∧ t.physTile tile = 34 * tileY tile + px ∧ t.pstate pt = 1 ∧
        t.cur = l.again img s.cur false ∧
        (t.launch? l.id).map (·.restarts) = some (l.restarts + 1))) ∧
  (∀ p : Pending, s.cur.seq.pendingFault = some p → p.redo = false → s.cur.seq.state = .running ∨ s.cur.seq.state = .stopped ∧ p.now = true →
    s.cur.seq.waits = [] → s.cur.seq.lockFrom = none → exec .bundleIssue s =
      .next ((s.modSeq fun q => { q with pendingFault := none }).takeFault (p.pc.getD s.cur.seq.pc) p.fault)) ∧
  (∃ t, exec .railFault s = .next t ∧ ∀ l, s.launch? l.id = some l → l.onGrid = true → l.phase ≠ .draining → l.status = .ok →
    (t.launch? l.id).map (fun x => (x.phase, x.status)) = some (.draining, .hwError))

/-! ### Upkeep of memory, clocks and temperature -/

/-- R67, R251 to R254, R344, R395, R431: refresh passes start when their times come and end with the age at zero, a deferral ends, the scrubber
counts and poisons, a write whose block outgrows its slot locks its page until the page has been laid out again and is unlocked, and
channels and stacks retrain one at a time; an event whose time has not come, or that is not enabled, changes nothing (log entry 5). (That a
link's retraining is told by two events is log entry 27, that a change of any stack's rate waits for every save log entry 66, and what
counts as a delivery in progress log entry 65.) R78 to R80, R432: a plausible sample is taken and each column has the temperature of its
hotter sensor; an implausible one drops its sensor until it is recalibrated; from 110 degrees a column's launches end with THERMAL; and
power modes, the power limit and coolant flow set the columns' clocks. (That sensors 2px and 2px + 1 are those of column px is a choice of
the model, log entry 21, that the power limit keeps a clock at one sixteenth or more log entry 36, and that a task is dead in the sample's
own cycle log entry 8.) -/
def Obligations.UpkeepEvents : Prop :=
  (∀ (s : State) (p : Nat),
  let r := s.refreshOf p
  let may := r.pass = none ∧ (s.chart p).nlay ≠ 0
  let starts := fun (i : Instr) (forced : Bool) => ∃ t, exec i s = .next t ∧
    (t.refreshOf p).pass = some (s.clk.tick + 65536 * (s.chart p).nlay, forced) ∧ (∀ q, q ≠ p → t.refreshOf q = s.refreshOf q)
  (may → s.deferring p = false → s.delivering p = false → s.limitNs p ≤ 2 * (s.elapsed - r.lastEnd) → starts (.scheduledRefreshPass p) false) ∧
  (r.pass ≠ none ∨ s.deferring p = true ∨ s.delivering p = true ∨ 2 * (s.elapsed - r.lastEnd) < s.limitNs p → exec (.scheduledRefreshPass p) s = .next s) ∧
  (may → r.lastEnd + s.limitNs p ≤ s.elapsed + 2000000000 → starts (.forcedRefresh p) true) ∧
  (∀ tile i, may → r.lastEnd + s.limitNs p ≤ s.elapsed + 2000000000 → s.servedBy p = some (tile, i) → s.cur.bound = true →
    s.cur.bnd.tile = tile → s.cur.bnd.lease ≠ 0 → s.cur.receives = true → s.bcInto s.cur i = none → s.cur.seq.pendingForced = [] →
    ∃ t, exec (.forcedRefresh p) s = .next t ∧ t.cur.seq.pendingForced = [(i, BitVec.ofNat 64 (i + 8 * 0xFFFF))]) ∧
  (∀ e f, r.pass = some (e, f) → (e ≤ s.clk.tick → ∃ t, exec (.refreshPassEnd p) s = .next t ∧ (t.refreshOf p).pass = none ∧
      (t.refreshOf p).lastEnd = s.elapsed ∧ t.cur = s.cur ∧ t.mem = s.mem) ∧ (s.clk.tick < e → exec (.refreshPassEnd p) s = .next s)) ∧
  (∀ e, r.defer = some e → (e ≤ s.elapsed → ∃ t, exec (.deferralExpiry p) s = .next t ∧ (t.refreshOf p).defer = none ∧ t.cur = s.cur) ∧
    (s.elapsed < e → exec (.deferralExpiry p) s = .next s)) ∧
  (∀ tower row, exec (.scrubRow tower row .clean) s = .next s ∧
    (∃ t, exec (.scrubRow tower row .corrected) s = .next t ∧ t.mem = s.mem ∧ t.cur = s.cur ∧
      (tget .reset (if tower then t.env.towHist else t.env.hbmHist) (row / 64)).corrected =
        min ((tget .reset (if tower then s.env.towHist else s.env.hbmHist) (row / 64)).corrected + 1) 255) ∧
    ∃ t, exec (.scrubRow tower row .uncorrectable) s = .next t ∧ row ∈ (if tower then t.mem.towerBad else t.mem.hbmBad) ∧
      (tget .reset (if tower then t.env.towHist else t.env.hbmHist) (row / 64)).bad = true ∧ t.mem.hbm = s.mem.hbm ∧
      t.mem.towers = s.mem.towers ∧ t.cur = s.cur) ∧
  (s.outgrown p = true → ∃ t, exec (.relayout p) s = .next t ∧ t.slotsOf p = s.slotsNeeded p ∧ t.outgrown p = false ∧
    t.mem.locked = s.mem.locked ∧ (∀ q, q ≠ p → t.slotsOf q = s.slotsOf q ∧ t.outgrown q = s.outgrown q) ∧ t.cur = s.cur) ∧
  (s.outgrown p = false → exec (.relayout p) s = .next s) ∧
  (∀ (a : Nat) (bs : List Byte), 0 < bs.length → a % 1024 + bs.length ≤ 1024 → a / 65536 = p →
    let j := a / 1024 % 64
    let block := (s.logicalBlock p j).mapIdx fun k b => if a % 1024 ≤ k then (bs[k - a % 1024]?).getD b else b
    let t := s.homeWrite { kind := 3, addr := a } bs
    (s.outgrown p = false → slotCode block ≤ (s.slotsOf p).getD j 0 → t.mem.locked = s.mem.locked ∧ t.outgrown p = false) ∧
    (s.outgrown p = true ∨ (s.slotsOf p).getD j 0 < slotCode block →
      p ∈ t.mem.locked ∧ t.outgrown p = true ∧ t.logicalBlock p j = block ∧ t.mem.hbm = s.mem.hbm)) ∧
  (s.outgrown p = false → (∀ q ∈ s.mem.lockQ, q.1 ≠ p) →
    ∃ t, exec (.relayoutDone p) s = .next t ∧ p ∉ t.mem.locked ∧ (∀ q, q ≠ p → (q ∈ t.mem.locked ↔ q ∈ s.mem.locked)) ∧
    t.mem.hbm = s.mem.hbm ∧ t.cur = s.cur) ∧
  (s.outgrown p = true → exec (.relayoutDone p) s = .next s) ∧
  (p < 256 → (∀ c ∈ s.env.retrain, c % 8 ≠ p % 8) → ∃ t, exec (.channelRetrain p) s = .next t ∧ p ∈ t.env.retrain ∧ t.cur = s.cur) ∧
  ((∃ c ∈ s.env.retrain, c % 8 = p % 8) → exec (.channelRetrain p) s = .next s) ∧
  (∃ t, exec (.channelRetrainEnd p) s = .next t ∧ p ∉ t.env.retrain ∧ (∀ q, q ≠ p → (q ∈ t.env.retrain ↔ q ∈ s.env.retrain))) ∧
  (∀ k : BitVec 3, s.env.rateChange = [] →
    (s.saving = true → ∃ t, exec (.hbmDataRateChange k) s = .next t ∧ t.env.rateChange = [k.toNat] ∧ t.env.retrain = s.env.retrain) ∧
    (s.saving = false → (∀ c ∈ s.env.retrain, c % 8 ≠ k.toNat) → ∃ t, exec (.hbmDataRateChange k) s = .next t ∧ t.env.rateChange = [] ∧
      ∀ c, c ∈ t.env.retrain ↔ c ∈ s.env.retrain ∨ c < 256 ∧ c % 8 = k.toNat)) ∧
  (p < 18 → p ∉ s.env.linksDown → ∃ t, exec (.linkRetrain p) s = .next t ∧ p ∈ t.env.linksDown ∧ t.mem = s.mem ∧ t.cur = s.cur) ∧
  (p < 18 → p ∈ s.env.linksDown → ∃ t, exec (.linkRetrain p) s = .next t ∧ p ∉ t.env.linksDown ∧ t.cur = s.cur)) ∧
  (∀ (s : State),
  let caps := fun (t : State) (mode : Nat) => t.env.pmodeAct = mode ∧
    (∀ px < 34, (t.column px).clk = min (s.column px).clk (if mode = 0 then 16 else if mode = 1 then 13 else 10)) ∧ t.cur = s.cur ∧ t.mem = s.mem
  (∀ l : List Int, ∃ t, exec (.thermalSample l) s = .next t ∧ ∀ px < 34,
    (t.column px).temp = max (t.sensor (2 * px)).value (t.sensor (2 * px + 1)).value ∧
    ∀ i, i = 2 * px ∨ i = 2 * px + 1 →
      let v := (l[i]?).getD (s.sensor i).value
      let ok := s.plausible (fun k => (l[k]?).getD (s.sensor k).value) i
      ((s.sensor i).valid = true → ok = true → (t.sensor i).valid = true ∧ (t.sensor i).value = v) ∧
      ((s.sensor i).valid = true → ok = false → (t.sensor i).valid = false) ∧
      ((s.sensor i).valid = false → (s.sensor i).recal = false → (t.sensor i).valid = false) ∧
      ((s.sensor i).valid = false → (s.sensor i).recal = true → ok = true → (s.sensor i).good = 99 →
        (t.sensor i).valid = true ∧ (t.sensor i).value = v)) ∧
  (∀ l : List Int, ∀ px < 34, (s.remap s.cur.bnd.tile).px = px → s.cur.bound = true → s.cur.receives = true →
    (∀ i, i = 2 * px ∨ i = 2 * px + 1 → (s.sensor i).valid = true ∧ s.plausible (fun k => (l[k]?).getD (s.sensor k).value) i = true ∧
      (l[i]?).getD (s.sensor i).value ≥ 1100) →
    ∃ t, exec (.thermalSample l) s = .next t ∧ t.cur.seq.state = .dead) ∧
  (∀ i, (s.sensor i).valid = false → ∃ t, exec (.sensorRecalibrate i) s = .next t ∧ (t.sensor i).recal = true ∧ (t.sensor i).good = 0 ∧
    (t.sensor i).valid = false ∧ t.cur = s.cur) ∧
  (∀ i, (s.sensor i).valid = true → exec (.sensorRecalibrate i) s = .next s) ∧
  (∀ v : BitVec 64, v.extractLsb' 0 2 ≠ 3#2 → s.env.coolantLow = false → ∃ t, exec (.pmodeWrite v) s = .next t ∧
    caps t (v.extractLsb' 0 2).toNat ∧ t.env.pmode = (v.extractLsb' 0 2).toNat) ∧
  (∀ v : BitVec 64, v.extractLsb' 0 2 = 3#2 → exec (.pmodeWrite v) s = .next s) ∧
  (∃ t, exec .powerLimitExceeded s = .next t ∧ ∀ px < 34, (t.column px).clk = max 1 ((s.column px).clk - 1)) ∧
  (∃ t, exec .coolantFlowLow s = .next t ∧ caps t 2 ∧ t.env.coolantLow = true) ∧
  (∃ t, exec .coolantFlowRestored s = .next t ∧ t.env.coolantLow = false ∧ caps t s.env.pmode))

/-! ### Engines at work -/

/-- R155, R326, R329, R332, R333: an operation of the matrix unit begins when the unit is free: a swap exchanges the banks and a clear clears
what it names; one whose time has come leaves the unit; a k-step of MMA with its rows at hand puts its sums into its bank, for INT8 operands
each element's four chunks of sixteen products, added exactly and saturated to 32 bits chunk by chunk. -/
def Obligations.MatrixEvents : Prop := ∀ (s : State) (o : MuOp) (rest : List MuOp),
  s.cur.bound = true → s.engineMay s.cur .matrix = true → s.mem.tlbInvs = [] → s.cur.eng.muOps = o :: rest →
  let bank := fun (t : State) (b : Bool) => if b then t.cur.eng.bank1 else t.cur.eng.bank0
  let tile := s.cur.bnd.tile
  (o.begun = false →
    (o.kind = .mswap → ∃ t, exec (.muOperationBegin tile) s = .next t ∧ bank t false = bank s true ∧ bank t true = bank s false ∧
      t.cur.reg = s.cur.reg ∧ t.cur.cl = s.cur.cl ∧ t.mem = s.mem) ∧
    (o.kind = .mclr → ∃ t, exec (.muOperationBegin tile) s = .next t ∧
      (bank t o.bank).el = (if o.q.getLsbD 0 then .replicate 4096 0#32 else (bank s o.bank).el) ∧
      (bank t o.bank).flags = (if o.q.getLsbD 1 then 0#5 else (bank s o.bank).flags) ∧ bank t (!o.bank) = bank s (!o.bank) ∧ t.mem = s.mem) ∧
    (o.kind = .mma ∨ o.kind = .mmv ∨ o.kind = .mldb → ∃ t, exec (.muOperationBegin tile) s = .next t ∧
      (t.cur.eng.muOps.head?.map (·.begun)) = some true ∧ bank t false = bank s false ∧ bank t true = bank s true ∧ t.mem = s.mem)) ∧
  (o.begun = true → exec (.muOperationBegin tile) s = .next s) ∧
  (∀ n, o.begun = true → o.readyAt = some n →
    (s.clk.tick < n → exec (.muOperationComplete tile) s = .next s) ∧
    (n ≤ s.clk.tick → o.kind ≠ .mdrain → ∃ t, exec (.muOperationComplete tile) s = .next t ∧ t.cur.eng.muOps = rest ∧ t.mem = s.mem)) ∧
  (o.begun = true → o.readyAt = none → o.kind = .mma → 512 * o.need.1 ≤ o.bufA.length → 512 * o.need.2.1 ≤ o.bufB.length →
    512 * o.need.2.2 ≤ o.side.length →
    ∃ t, exec (.muOperationComplete tile) s = .next t ∧ bank t o.bank = o.mmaStep (bank s o.bank) ∧ bank t (!o.bank) = bank s (!o.bank) ∧
      (t.cur.eng.muOps.head?.map (·.step)) = some (o.step + 1) ∧ t.cur.reg = s.cur.reg ∧ t.cur.cl = s.cur.cl ∧ t.mem = s.mem) ∧
  (∀ (b : Bank) (i j : Fin 64) (ha : o.bufA.length = 4096) (hb : o.bufB.length = 4096), muSel o.regs = 0 → muTra o.regs = false →
    muTrb o.regs = false → o.typeA = 10 → o.typeB = 10 → o.acct = 8 →
    let product := fun k : Fin 64 => (o.bufA[64 * i.val + k.val]'(by omega)).toInt * (o.bufB[64 * k.val + j.val]'(by omega)).toInt
    let add := fun (acc : Int) (c : Nat) => max (-(2 ^ 31)) (min (2 ^ 31 - 1) (acc + ∑ k : Fin 64 with k.val / 16 = c, product k))
    ((o.mmaStep b).el[64 * i.val + j.val]'(by omega)).toInt =
      add (add (add (add (b.el[64 * i.val + j.val]'(by omega)).toInt 0) 1) 2) 3)

/-- R243, R246, R308, R324, R334, R336, R362, R363, R400, R420: what moves data on its own, where nothing holds it back: a window delivers the
eight parts of its next ring row once it has read all of it, a broadcast column one row to its receiver, the express network a tower row, a
shift port its part; a copy of at most one chunk reads and writes it, wholly or as far as it comes (R255; that pieces go in ascending order
with free pauses is log entry 81); a publication swaps its entry once the writes before it are performed; an invalidation takes effect; a
signal becomes a record and a message. R400: an invalidation that completes leaves no entry that it names in any translation cache, and held
bundles are tried again. -/
def Obligations.MoverEvents : Prop :=
  (∀ (s : State), s.cur.bound = true → s.mem.tlbInvs = [] → (∀ u, s.engineMay s.cur u = true) →
  (∀ p, (s.refreshOf p).pass = none) → Memory.wf s.mem.towers = true →
  (∀ i j : Fin 8, s.physTower s.cur.bnd.tile i.val = s.physTower s.cur.bnd.tile j.val → i = j) →
  let tile := s.cur.bnd.tile
  (∀ (h : BitVec 4) (st : Stream) (row : List Nat) s1, (vat s.cur.rings h).stream = some st → st.ctxs = [] →
    s.rowFree tile (vat s.cur.rings h) (st.first + st.next) = true →
    s.readRow s.cur (engineRead (h.toNat + 1)) (windowOf st.desc) st.next st.got = (.ok row, s1) →
    let parts := (windowOf st.desc).parts row
    let at_ := (vat s.cur.rings h).raddr + (st.first + st.next) % (vat s.cur.rings h).rows
    ∃ t, exec (.windowRowDelivery tile h) s = .next t ∧
      (if row.length < (windowOf st.desc).rowCount st.next then
        (vat t.cur.rings h).stream = some { st with got := row } ∧ t.mem.towers = s.mem.towers
      else
        parts.length = 8 ∧
        (∀ i, (hi : i < parts.length) → t.towerRead tile i (64 * at_) 64 = parts[i] ∧ t.partFull tile i at_ = true) ∧
        (if (windowOf st.desc).ringRows ≤ st.next + 1 ∨ st.flush = true then
          (vat t.cur.rings h).stream = none ∧ (vat t.cur.rings h).done = true
        else (vat t.cur.rings h).stream = some { st with next := st.next + 1, got := [] })) ∧
      t.cur.reg = s.cur.reg ∧ t.cur.cl = s.cur.cl ∧ t.cur.smem = s.cur.smem ∧ t.mem.hbm = s.mem.hbm) ∧
  (∀ (x : BcXfer) rest bs s1, tget [] s.net.bcols (tile % 32) = x :: rest → x.tile = tile → x.ring = none → x.launch = s.cur.bnd.launch →
    (s.bcReceivers x.launch s.cur.bnd.tx x.y0 x.y1).filter Task.receives = [s.cur] →
    let n := 64 * x.towers.length
    x.off = [] → State.readOn s.cur (engineRead 18) (x.src + n * x.next) n (unitFuel n) x.got s = (.ok bs, s1) →
    bs.length = n → x.raddr + x.next < 65536 →
    ∃ t, exec (.bcRowDelivery (tile % 32)) s = .next t ∧ t.cur.eng.bcRows = s.cur.eng.bcRows + 1 ∧
      tget [] t.net.bcols (tile % 32) =
        (if x.next + 1 = x.rows then rest else { x with next := x.next + 1, got := [] } :: rest) ∧
      (∀ k, (hk : k < x.towers.length) → t.towerRead tile x.towers[k] (64 * (x.raddr + x.next)) 64 = (bs.drop (64 * k)).take 64) ∧
      (∀ i < 8, i ∉ x.towers → ∀ a < 2 ^ 22, t.mem.towers.get (towerKey (s.physTower tile i) a) = s.mem.towers.get (towerKey (s.physTower tile i) a)) ∧
      t.cur.reg = s.cur.reg ∧ t.mem.hbm = s.mem.hbm) ∧
  (∀ (p : Packet) (c : Fin 8) addr bs rest, s.net.packets = p :: rest → p.src = tile → p.dst = tile → p.launch = s.cur.bnd.launch →
    s.cur.receives = true → p.body = .towerRow c addr bs → bs.length = 64 → s.rangeOk s.cur c.val addr 64 = true →
    ∃ t, exec (.xpPacketLanding 0) s = .next t ∧ t.net.packets = rest ∧ t.towerRead tile c.val addr 64 = bs ∧
      (∀ g ∈ granulesOf addr 64, t.isFull tile c.val g = true) ∧ t.cur.reg = s.cur.reg ∧ t.mem.hbm = s.mem.hbm) ∧
  (∀ (p : ShiftPart) rest, s.cur.eng.shifts = p :: rest → p.ready ≤ s.clk.tick → (∀ q ∈ rest, q.dir = p.dir → p.ready ≤ q.ready) → s.shiftTarget s.cur.bnd p.dir = some tile →
    s.cur.receives = true → s.ringAccepts s.cur p.h 6 p.index [p.cluster.val] = .take → p.bytes.length = 64 →
    let row := (vat s.cur.rings p.h).raddr + p.index % (vat s.cur.rings p.h).rows
    ∃ t, exec (.shiftPartDelivery tile (BitVec.ofNat 3 p.cluster.val)) s = .next t ∧ t.cur.eng.shifts = rest ∧
      t.towerRead tile p.cluster.val (64 * row) 64 = p.bytes ∧ t.cur.reg = s.cur.reg ∧ t.mem.hbm = s.mem.hbm) ∧
  (∀ (o : DmOp) rest bs s1, s.cur.eng.dmOps = o :: rest → o.mode = 0#2 → o.next = 0 → 0 < o.len → o.len ≤ 4096 → o.got = [] →
    State.readOn s.cur (engineRead 17) o.src o.len (unitFuel o.len) [] s = (.ok bs, s1) →
    (bs.length < o.len → exec (.dcopyChunk tile) s = .next (s1.modEng fun e => { e with dmOps := { o with got := bs } :: rest })) ∧
    (bs.length = o.len → ∀ k j s2,
      State.writeOn s1.cur 17 (copyPlace s1.cur o) o.dst bs (unitFuel o.len) o.put s1 = (.ok k, j, s2) →
      exec (.dcopyChunk tile) s = .next (s2.modEng fun e => { e with
        dmOps := if k < o.len then { o with got := bs, put := k } :: rest else rest }))) ∧
  (∀ (p : Pub) rest a, s.cur.eng.pubs = p :: rest → p.n = 1 → p.ids = [] → s.portClearTo tile 1#2 p.at_ = true →
    s.pubEntry s.cur.bnd.asid p.first = some a → s.env.retrain = [] → Memory.wf s.mem.hbm = true →
    let w := leNat (s.mem.hbm.bytes a 8)
    ∃ t, exec (.publicationApply tile) s = .next t ∧ t.cur = { s.cur with eng := { s.cur.eng with pubs := rest } } ∧
      (t.hbm64 a).extractLsb' 32 32 = BitVec.ofNat 32 (w / 2 ^ 32 + 1) ∧ (t.hbm64 a).getLsbD 1 = !w.testBit 1 ∧
      (∀ k < 32, k ≠ 1 → (t.hbm64 a).getLsbD k = w.testBit k) ∧
      (∀ x, (x < a ∨ a + 8 ≤ x) → t.mem.hbm.get x = s.mem.hbm.get x)) ∧
  (∀ (g : Signal) rest, s.cur.eng.sigs = g :: rest → tile < 768 → s.mem.wport = [] →
    (∀ l ∈ s.sched.launches, ∀ c ∈ l.contexts, c.bnd.tile ≠ tile) →
    (s.sigRoom = false → exec (.signalDelivery tile) s = .next s) ∧
    (s.sigRoom = true → ∃ t, exec (.signalDelivery tile) s = .next t ∧ t.cur.eng.sigs = rest ∧
      t.mgmt.sighead = (s.mgmt.sighead + 1) % 2 ^ s.mgmt.siglog2 ∧
      (g.vector.toNat ∉ s.mgmt.msixMask → t.mgmt.msix = s.mgmt.msix ++ [g.vector] ∧ t.mgmt.msixPend = s.mgmt.msixPend) ∧
      (g.vector.toNat ∈ s.mgmt.msixMask → t.mgmt.msix = s.mgmt.msix ∧ g.vector.toNat ∈ t.mgmt.msixPend) ∧
      t.mem.host = s.mem.host.putBytes ((s.mgmt.sigbase.extractLsb' 12 52).toNat * 4096 + 16 * s.mgmt.sighead)
        (leBytes (g.payload.toNat + g.vector.toNat * 2 ^ 32 +
          (g.pc + s.cur.bnd.tx * 2 ^ 13 + s.cur.bnd.ty * 2 ^ 18 + s.cur.bnd.launch * 2 ^ 32) * 2 ^ 64) 16)))) ∧
  (∀ (s : State) (v : TlbInv) (rest : List TlbInv), s.mem.tlbInvs = v :: rest →
  ∃ t, exec .tlbinvComplete s = .next t ∧ t.mem.tlbInvs = rest ∧
    (∀ l ∈ t.mem.tlb1 ++ t.mem.tlb2, ∀ e ∈ l.2, v.drops e = false ∧ ∃ m ∈ s.mem.tlb1 ++ s.mem.tlb2, m.1 = l.1 ∧ e ∈ m.2) ∧
    t.mem.hbm = s.mem.hbm ∧ (s.cur.seq.state = .held → t.cur.seq.state = .running) ∧ (s.cur.seq.state ≠ .held → t.cur = s.cur))

/-- R264 to R270, R274: FLOAD and FBIND at the controllers, a beat through a graph that keeps no output back (read in its two pieces with a
pause between them or without: log entry 81), the end of a stream, and the cells that a stopped context gives up. R278, R279, R282, R283,
R339: packets enter their queue where their region has room and share; one that has waited longer than 200 microseconds holds its issuer; a
row operation occupies its unit for 64 controller cycles, and the first ordinary request that comes meanwhile is served 8 cycles after it,
with the later ones behind it; a stopped issuer's place in its command is put aside for another's. -/
def Obligations.FabricAndNearBankEvents : Prop :=
  (∀ (s : State), s.cur.bound = true → s.mem.tlbInvs = [] → s.engineMay s.cur .fabric = true →
  let tile := s.cur.bnd.tile
  (∀ (q : FbReq) rest, s.cur.eng.fbReqs = q :: rest → q.chan < 256 → q.bind = false →
    let c := 4 * q.chan + q.ctx
    let x := s.fabCtx c
    x.state ≠ 0 → x.state ≠ 1 → x.state ≠ 4 →
    ∃ t, exec (.fabricLoadRequest tile) s = .next t ∧ t.cur = { s.cur with eng := { s.cur.eng with fbReqs := rest } } ∧ t.mem = s.mem ∧
      t.fabCtx c = { x with errc := 6 } ∧ ∀ k, k ≠ c → t.fabCtx k = s.fabCtx k) ∧
  (∀ (q : FbReq) rest, s.cur.eng.fbReqs = q :: rest → q.chan < 256 → q.bind = false →
    let c := 4 * q.chan + q.ctx
    let x := s.fabCtx c
    x.state = 0 ∨ x.state = 1 ∨ x.state = 4 →
    (∀ bs s1, s.readImage s.cur q.image q.got = (.ok (.part bs), s1) →
      exec (.fabricLoadRequest tile) s = .next (s1.modEng fun e => { e with fbReqs := { q with got := bs } :: rest })) ∧
    ∀ img s1, s.readImage s.cur q.image q.got = (.ok (.whole img), s1) →
      ∃ t, exec (.fabricLoadRequest tile) s = .next t ∧ t.cur.eng.fbReqs = rest ∧ (∀ k, k ≠ c → t.fabCtx k = s.fabCtx k) ∧
        (∀ g, img = some g → (t.fabCtx c).state = 1 ∧ (t.fabCtx c).errc = 0 ∧ (t.fabCtx c).graph = some g) ∧
        (img = none → (t.fabCtx c).state = 0 ∧ (t.fabCtx c).errc = 2)) ∧
  (∀ (q : FbReq) rest g, s.cur.eng.fbReqs = q :: rest → q.chan < 256 → q.bind = true → (s.fabCtx (4 * q.chan + q.ctx)).graph = some g →
    (s.fabCtx (4 * q.chan + q.ctx)).state = 1 → q.ctx < 4 →
    let c := 4 * q.chan + q.ctx
    ∃ t, exec (.fabricBindRequest tile) s = .next t ∧ t.cur.eng.fbReqs = rest ∧ (∀ k, k ≠ c → t.fabCtx k = s.fabCtx k) ∧
      (s.fabBudget s.cur [c] = false → t.fabCtx c = { s.fabCtx c with errc := 13 }) ∧
      (s.fabBudget s.cur [c] = true → 32 < s.cellsUsed q.chan + g.nodes.length → t.fabCtx c = { s.fabCtx c with errc := 5 }) ∧
      (s.fabBudget s.cur [c] = true → s.cellsUsed q.chan + g.nodes.length ≤ 32 →
        (t.fabCtx c).state = 2 ∧ (t.fabCtx c).errc = 0 ∧ (t.fabCtx c).cells = g.nodes.length ∧ (t.fabCtx c).beats = 0 ∧
        (t.fabCtx c).tile = tile ∧ (t.fabCtx c).launch = s.cur.bnd.launch ∧ (t.fabCtx c).x = g.nodes.map (·.xinit))) ∧
  (∀ (h : BitVec 4) (st : Stream) (g : Graph) (c : Nat) bs ctl s1, (vat s.cur.rings h).stream = some st → st.ctxs = [c] →
    (s.fabCtx c).graph = some g → (s.fabCtx c).state = 3 → (s.fabCtx c).spilled = false → st.opened = true → g.decode = false → g.sink = 0 →
    st.out = [] → st.fail = none → 0 < (windowOf st.desc).rowlen → st.next < (windowOf st.desc).beats → (dsc st.desc 15).toNat ≤ 1024 →
    s.obs.counters = [] → st.cutting = false → s.heldAtGroup s.cur st g = false →
    s.streamBeat s.cur st g.stateful st.next = (.ok (ctl, bs), s1) →
    (bs.length < 64 → ∃ t, exec (.fabricBeat tile h) s = .next t ∧ t.net = s.net ∧ t.cur.reg = s.cur.reg ∧ t.mem.hbm = s.mem.hbm ∧
      (vat t.cur.rings h).stream = some { st with got := bs.map fun b => b.toNat }) ∧
    (bs.length = 64 →
      let beat := (windowOf st.desc).beatWords st.next bs
      ∃ t, exec (.fabricBeat tile h) s = .next t ∧ (vat t.cur.rings h).stream = some { st with
          out := (g.run (s.fabCtx c).x beat).1, next := st.next + 1, got := [] } ∧
        (t.fabCtx c).x = (g.run (s.fabCtx c).x beat).2 ∧ (t.fabCtx c).beats = ((s.fabCtx c).beats + 1) % 2 ^ 32 ∧
        (∀ k, k ≠ c → t.fabCtx k = s.fabCtx k) ∧ t.cur.reg = s.cur.reg ∧ t.mem.hbm = s.mem.hbm)) ∧
  (∀ (h : BitVec 4) (st : Stream) (g : Graph) (c : Nat), (vat s.cur.rings h).stream = some st → st.ctxs = [c] →
    (s.fabCtx c).graph = some g → st.opened = true → g.decode = false → g.sink = 0 → st.out = [] → st.fail = none →
    g.fill (s.fabCtx c).x = [] →
    ((windowOf st.desc).beats ≤ st.next → ∃ t, exec (.fabricStreamEnd tile h) s = .next t ∧ (vat t.cur.rings h).stream = none ∧
      (vat t.cur.rings h).done = true ∧ (t.fabCtx c).state = 1 ∧ (t.fabCtx c).cells = 0 ∧ t.mem = s.mem) ∧
    (st.next < (windowOf st.desc).beats → exec (.fabricStreamEnd tile h) s = .next s)) ∧
  (∀ c, (s.fabCtx c).state = 5 → ∃ t, exec (.fabricContextSpill c) s = .next t ∧ t.fabCtx c = { s.fabCtx c with spilled := true } ∧ t.cur = s.cur ∧
    t.mem = s.mem) ∧
  (∀ c, (s.fabCtx c).state ≠ 5 → exec (.fabricContextSpill c) s = .next s)) ∧
  (∀ (s : State), s.cur.bound = true →
  let tile := s.cur.bnd.tile
  let at_ := fun (chan : Nat) (c : NbCmd) => ({ s with net := { s.net with
    nbu := tput chan (s.nbu chan) s.net.nbu
    curChan := chan
    curCmd := c } } : State)
  (∀ chan ws done pc since rest, s.cur.eng.nbPort = .packet chan ws done pc since :: rest → s.engineMay s.cur .nbu = true →
    s.mem.tlbInvs = [] → s.nbShare s.cur ≠ 0 →
    (s.nbRoom chan s.cur.bnd.region (s.nbShare s.cur) = true → ∃ t, exec (.nbPacketEnqueue tile) s = .next t ∧ t.cur.eng.nbPort = rest ∧
      (t.nbu chan).queue = (s.nbu chan).queue ++ [{ launch := s.cur.bnd.launch, tile := tile, region := s.cur.bnd.region, words := ws,
                                                    doneVa := done, pc := pc, stream := none }] ∧
      (s.cur.seq.state = .nbHeld → t.cur.seq.state = .running) ∧ t.mem = s.mem) ∧
    (s.nbRoom chan s.cur.bnd.region (s.nbShare s.cur) = false → exec (.nbPacketEnqueue tile) s = .next s)) ∧
  (∀ chan ws done pc since rest, s.cur.eng.nbPort = .packet chan ws done pc since :: rest → s.cur.seq.state = .running → s.cur.seq.waits = [] →
    (since + 200 * 800 < s.clk.tick → ∃ t, exec (.nbQueueWaitTimeout tile) s = .next t ∧ t.cur.seq = { s.cur.seq with state := .nbHeld } ∧
      t.sched.log = s.sched.log ++ [(282, tile)] ∧ t.mem = s.mem) ∧
    (s.clk.tick ≤ since + 200 * 800 → exec (.nbQueueWaitTimeout tile) s = .next s)) ∧
  (∀ chan (c : NbCmd) (o : MicroForm) l (t : Task) n sp s1, s.nbHead (s.nbu chan) = some c → (s.nbu chan).owner = some c.issuer →
    (s.nbu chan).busyTo ≤ s.clk.tick → chan ∉ s.env.retrain → c.ops = some l → c.stream.isSome = true ∨ (s.nbu chan).upc ≠ 0 →
    s.rowMayStart chan (s.nbu chan) = true → (l[(s.nbu chan).upc + 1]?).getD .nbEnd ≠ .nbEnd →
    c.row o = some n → s.issuerTask c = some t →
    ∀ p ∈ ([(.loadacc o, false), (.accop o, false), (.sacc o, false), (.nbStore o, true), (.minmax o, true)] : List (Instr × Bool)),
      l[(s.nbu chan).upc]? = some p.1 →
      (at_ chan c).translate t.xctx { read := true, write := p.2 } (1024 * n.toNat) 1024 = (.ok sp, s1) → nbPageOk chan sp = true →
      s1.poisoned [sp] = false →
      ∃ u, exec (.rowOperationStart chan) s = .next u ∧ (u.nbu chan).busyTo = s.clk.tick + 41 ∧ (u.nbu chan).upc = (s.nbu chan).upc + 1) ∧
  (∀ chan (c : NbCmd) (i : Instr) l s1 s2, s.nbHead (s.nbu chan) = some c → (s.nbu chan).owner = some c.issuer → (s.nbu chan).busyTo ≤ s.clk.tick →
    chan ∉ s.env.retrain → c.ops = some l → l[(s.nbu chan).upc]? = some i → isRowOp i = true → s.rowMayStart chan (s.nbu chan) = true →
    (l[(s.nbu chan).upc + 1]?).getD .nbEnd ≠ .nbEnd →
    (if c.stream.isSome ∨ (s.nbu chan).upc ≠ 0 then s1 = at_ chan c else ∃ sp, (at_ chan c).donePlace chan 22 c = (.ok sp, s1)) →
    exec i s1 = .next s2 → (s2.nbu chan).upc = (s.nbu chan).upc + 1 →
    ∃ t, exec (.rowOperationStart chan) s = .next t ∧ (t.nbu chan).busyTo = s.clk.tick + 41 ∧ (t.nbu chan).upc = (s.nbu chan).upc + 1 ∧
      (t.nbu chan).accs = (s2.nbu chan).accs ∧ t.mem = s2.mem) ∧
  (∀ chan, s.nbHead (s.nbu chan) = none → exec (.rowOperationStart chan) s = .next s) ∧
  (∀ chan, let u := s.nbu chan
    let first := s.clk.tick < u.busyTo ∧ u.turned = false
    ∃ t, exec (.ordinaryRequestSuspend chan) s = .next t ∧
      (t.nbu chan).busyTo = (if first then u.busyTo + 6 else u.busyTo) ∧ (first → (t.nbu chan).turned = true) ∧
      (t.nbu chan).idleFrom = (if s.clk.tick < u.busyTo then (t.nbu chan).busyTo else s.clk.tick) ∧
      (t.nbu chan).queue = u.queue ∧ (t.nbu chan).upc = u.upc ∧ t.cur = s.cur ∧ t.mem = s.mem) ∧
  (∀ chan (c : NbCmd) o, s.nbHead (s.nbu chan) = some c → (s.nbu chan).owner = some o → o ≠ c.issuer → (s.nbu chan).spilled = [] →
    ∃ t, exec (.nbContextSpill chan) s = .next t ∧ (t.nbu chan).owner = some c.issuer ∧ (t.nbu chan).upc = 0 ∧
      (t.nbu chan).spilled = [(o, (s.nbu chan).upc)] ∧ t.cur = s.cur ∧ t.mem = s.mem))

/-! ### Observation -/

/-- R404, R407, R409 to R416, R423 to R425: trace ports feed their core, whose filter runs on one record at a time; a filter is verified before
it comes into force; counters wrap and are written; the fix latches 32 cycles after its trigger and is released; breakpoints, debug stops,
step counts and the context page. (Tile number 768 + c for the records of a core's own list, taken before those of the ports, is log entry
13; what a counter written in the cycle of its wrap keeps of OVF is log entry 46.) R390, R425: eight bytes written to the context page of a
task in a debug stop are what its register then holds, and ones written to FLAGS or RINGERR clear (R5). R415, R416, R425: what a breakpoint
or a step count leaves stays with its task. -/
def Obligations.ObservationEvents : Prop :=
  (∀ (s : State) (tile c : Nat),
  let d := s.dbg tile
  let k := coreOf tile
  (∀ r rest, tile < 768 → (s.core k).own = [] → (s.core k).took ≠ some s.clk.tick → s.nextPort k = some tile → d.port = r :: rest →
    (s.core k).queue.length < 256 → ∃ t, exec (.tracePortDeliver tile) s = .next t ∧
    (t.dbg tile).port = rest ∧ (t.core k).queue = (s.core k).queue ++ [r] ∧ t.cur = s.cur ∧ t.mem = s.mem) ∧
  (∀ r rest, tile < 768 → (s.core k).own = [] → (s.core k).took ≠ some s.clk.tick → s.nextPort k = some tile → d.port = r :: rest →
    256 ≤ (s.core k).queue.length → ∃ t, exec (.tracePortDeliver tile) s = .next t ∧
    (t.dbg tile).port = rest ∧ (t.core k).queue = (s.core k).queue ∧ (t.core k).qlost = ((s.core k).qlost + 1) % 2 ^ 48) ∧
  (∀ r rest, c < 12 → (s.core c).own = r :: rest → (s.core c).took ≠ some s.clk.tick → (s.core c).queue.length < 256 →
    ∃ t, exec (.tracePortDeliver (768 + c)) s = .next t ∧ (t.core c).own = rest ∧ (t.core c).queue = (s.core c).queue ++ [r] ∧
      (t.core c).took = some s.clk.tick ∧ t.cur = s.cur ∧ t.mem = s.mem) ∧
  (tile < 768 → (s.core k).took = some s.clk.tick → exec (.tracePortDeliver tile) s = .next s) ∧
  (∀ r rest, c < 12 → (s.core c).busy = false → (s.core c).busyTo ≤ s.clk.tick → (s.core c).accepted = none → (s.core c).queue = r :: rest →
    (s.core c).filter = [0x2000000000000000#64] → (s.core c).trbase ≠ 0#64 → ((s.core c).trhead + 1) % 2 ^ (s.core c).trlog2 ≠ (s.core c).trtail →
    ∃ t, exec (.filterRecord c) s = .next t ∧ (t.core c).queue = rest ∧ (t.core c).busyTo = s.clk.tick + 1 ∧
      (t.core c).trhead = ((s.core c).trhead + 1) % 2 ^ (s.core c).trlog2 ∧
      t.mem.hbm = s.mem.hbm.putBytes ((s.core c).trbase.toNat + 32 * (s.core c).trhead) r.bytes ∧ t.cur = s.cur) ∧
  (∀ n : BitVec 10, c < 12 → (s.core c).pending = none → ∃ t, exec (.filterVerify c n) s = .next t ∧
    (t.core c).pending = some ((List.range n.toNat).map fun j => tget 0#64 (s.core c).window j) ∧ (t.core c).filter = (s.core c).filter) ∧
  (∀ f, (s.core c).pending = some f → ∃ t, exec (.filterVerifyDone c) s = .next t ∧ (t.core c).pending = none ∧
    (t.core c).filter = (s.core c).filter ∧
    ((f.length = 0 ∨ 512 < f.length) → (t.core c).check = 1 ∧ (t.core c).accepted = (s.core c).accepted) ∧
    (0 < f.length → f.length ≤ 512 → (∀ i, (h : i < f.length) → fltCheck f.length i f[i] = 0) →
      (t.core c).check = 0 ∧ (t.core c).accepted = some f) ∧
    (0 < f.length → f.length ≤ 512 → ∀ i, (h : i < f.length) → fltCheck f.length i f[i] ≠ 0 →
      (∀ j, (hj : j < i) → fltCheck f.length j (f[j]'(by omega)) = 0) →
      (t.core c).check = fltCheck f.length i f[i] ∧ (t.core c).index = i ∧ (t.core c).accepted = (s.core c).accepted)) ∧
  (∀ off n, isCounter off = true → s.obs.written.lookup off = none → 2 ^ 48 ≤ counterValue (s.counter off) + n → (s.counter off).getLsbD 48 = false → n < 2 ^ 48 →
    counterEvent (s.counter off) ≠ 8 → ∃ t, exec (.counterOverflow off n) s = .next t ∧
      counterValue (t.counter off) = (counterValue (s.counter off) + n) % 2 ^ 48 ∧ (t.counter off).getLsbD 49 = true ∧ t.cur = s.cur ∧ t.mem = s.mem) ∧
  (∀ off v, isCounter off = true → s.obs.written.lookup off = none → ∃ t, exec (.counterWrite off v 0) s = .next t ∧
    counterValue (t.counter off) = (v.extractLsb' 0 48).toNat ∧ (t.counter off).getLsbD 48 = v.getLsbD 48 ∧
    (t.counter off).getLsbD 51 = v.getLsbD 51 ∧ (t.counter off).getLsbD 49 = ((s.counter off).getLsbD 49 && !v.getLsbD 49 || ((s.obs.hits.lookup off).map (·.2)).getD false) ∧
    (t.counter off).getLsbD 50 = ((s.counter off).getLsbD 50 && !v.getLsbD 50 || (s.obs.hits.lookup off).isSome) ∧
    counterEvent (t.counter off) = (if off < 0x4000 then 0 else (v.extractLsb' 56 8).toNat) ∧ t.cur = s.cur ∧ t.mem = s.mem) ∧
  (∀ p, s.obs.fixPend = some p → (s.clk.tick < p.at_ + 32 ∨ s.clk.turn ≠ [] → exec .fixLatch s = .next s) ∧
    (p.at_ + 32 ≤ s.clk.tick → s.clk.agenda = [] → s.clk.turn = [] → ∃ t, exec .fixLatch s = .next t ∧ t.obs.fixHeld = true ∧ t.obs.fixPend = none ∧
      t.obs.fixSeq = s.obs.fixSeq + 1#16 ∧ t.obs.fixCode = p.code ∧ t.obs.fixSrc = p.src ∧ t.obs.fixDc = s.clk.tick ∧ t.cur = s.cur ∧ t.mem = s.mem)) ∧
  (s.obs.fixHeld = false → s.obs.fixPend = none → ∃ t p, exec .fixAssert s = .next t ∧ t.obs.fixPend = some p ∧ p.at_ = s.clk.tick ∧
    p.src = 3 ∧ t.cur = s.cur) ∧
  (exec .fixRelease s = .next { s with obs := { s.obs with fixHeld := false } }) ∧
  (∀ v : BitVec 64,
    exec (.rkConfigWrite 0x2018 v) s = .next { s with obs := { s.obs with rkbase := v &&& 0xFFFFFFFFFF000#64, rkhead := 0 } } ∧
    (8 ≤ (v.extractLsb' 0 5).toNat → (v.extractLsb' 0 5).toNat ≤ 24 → exec (.rkConfigWrite 0x2020 v) s =
      .next { s with obs := { s.obs with rklog2 := (v.extractLsb' 0 5).toNat, rkhead := 0 } })) ∧
  (s.cur.bound = true → s.cur.bnd.tile = tile →
    (d.bkp0.getLsbD 63 = false → exec (.breakpointMatch tile false) s = .next s) ∧
    (s.cur.issues = true → d.bkp0.getLsbD 63 = true → d.bkp0.getLsbD 62 = true → (d.bkp0.extractLsb' 0 13).toNat = s.cur.seq.pc →
      d.bkp0.getLsbD 60 = true → d.bkp0.getLsbD 61 = false → s.cur.watch.seen0 = false → (s.matched true = true → d.bkp1.getLsbD 61 = false) →
      exec (.breakpointMatch tile false) s =
        .next ((s.modWatch fun w => { w with seen0 := true, seen1 := w.seen1 || s.matched true }).startStop s.cur.bnd.launch .debug)) ∧
    exec (.debugStop tile) s = .next (s.startStop s.cur.bnd.launch .debug) ∧
    (s.cur.watch.steps = some 0 → s.cur.issues = true → exec (.stepCountExpiry tile) s =
      .next ((s.modWatch fun w => { w with steps := none, stepped := true }).startStop s.cur.bnd.launch .debug)) ∧
    (s.cur.watch.steps ≠ some 0 → exec (.stepCountExpiry tile) s = .next s) ∧
    (∀ l n, s.launch? s.cur.bnd.launch = some l → l.phase = .debug → l.gangKey = 0 → l.aborted = false →
      (l.eff.preempt = true → s.inSlice l.eff = true) → s.cur.seq.state = .stopped →
      ∃ t, exec (.debugResume tile n) s = .next t ∧ t.cur.seq.state = .running ∧ t.cur.watch.steps = (if n = 0#32 then none else some n.toNat) ∧
        (t.launch? l.id).map (·.phase) = some .resident ∧ t.cur.reg = s.cur.reg ∧ t.mem = s.mem))) ∧
  (∀ (s : State) (v : BitVec 64) (l : Launch),
  let tile := s.cur.bnd.tile
  s.cur.bound = true → s.launch? s.cur.bnd.launch = some l → l.phase = .debug → s.cur.seq.waits = [] →
  let page := (s.dbg tile).page.toNat
  (∀ r : BitVec 5, page = 0 → r ≠ 0#5 → ∃ t, exec (.debugContextWrite tile (0x4000 + 0x100 + 8 * r.toNat) (leBytes v.toNat 8)) s = .next t ∧ t.sreg r = v ∧
    (∀ x, x ≠ r → t.sreg x = s.sreg x) ∧ t.cur.cl = s.cur.cl ∧ t.mem = s.mem) ∧
  (∀ i : Fin 8, page = 0 → ∃ t, exec (.debugContextWrite tile (0x4000 + 0x440 + 8 * i.val) (leBytes v.toNat 8)) s = .next t ∧
    t.cur.cl[i].flags = s.cur.cl[i].flags &&& ~~~v.extractLsb' 0 9 ∧ (∀ j, j ≠ i → t.cur.cl[j].flags = s.cur.cl[j].flags) ∧
    t.cur.reg = s.cur.reg ∧ t.mem = s.mem) ∧
  (page = 0 → ∃ t, exec (.debugContextWrite tile (0x4000 + 0x200 + 8 * 21) (leBytes v.toNat 8)) s = .next t ∧
    t.cur.reg = { s.cur.reg with ringErr := s.cur.reg.ringErr &&& ~~~(v &&& 0xFFFF#64) } ∧ t.cur.cl = s.cur.cl ∧ t.mem = s.mem))

/-! ### Management -/

/-- R61, R405, R421 to R425, R430, R431: writes of the management space: each register takes its field, out-of-range values and writes of
another size are ignored, and writing what no register holds changes nothing; the mailbox hands over one request and one response at a time;
firmware and attestation. R279, R404, R424, R425: the registers of logline cores, debug windows and NBARB likewise; a write of a read-only
or unnamed offset changes none of them. (That a hand-over fails, or that a fault of the firmware keeps the version from rising, is a free
choice, and the measurements of a report are free values: log entry 93; TRHEAD 0 after a write of TRBASE or TRLOG2 is log entry 46.) -/
def Obligations.ManagementEvents : Prop := ∀ (s : State) (v : BitVec 64),
  let m := s.mgmt
  let writes := fun (off : Nat) (m' : Mgmt) => exec (.registerWrite off 8 v) s = .next { s with mgmt := m' }
  let field := fun (hi : Nat) => v.toNat % 2 ^ hi
  (s.sched.everPlaced = false → field 14 < 9216 → writes 0x00 { m with devid := field 14 }) ∧
  (s.sched.everPlaced = true ∨ 9216 ≤ field 14 → exec (.registerWrite 0x00 8 v) s = .next s) ∧
  writes 0x18 { m with cntvec := v.setWidth 10 } ∧ writes 0x38 { m with sigtail := field 16 } ∧
  (∀ t, exec (.registerWrite 0x20 8 v) s = .next t → t.mgmt.sigbase.extractLsb' 12 52 = v.extractLsb' 12 52 ∧
    t.mgmt.sigbase.extractLsb' 0 12 = 0#12 ∧ t = { s with mgmt := { m with sigbase := t.mgmt.sigbase } }) ∧
  (∃ t, exec (.registerWrite 0x20 8 v) s = .next t) ∧
  (8 ≤ field 5 → field 5 ≤ 16 → writes 0x28 { m with siglog2 := field 5 }) ∧
  (field 5 < 8 ∨ 16 < field 5 → exec (.registerWrite 0x28 8 v) s = .next s) ∧
  (1 ≤ field 8 → field 8 ≤ 168 → writes 0x40 { m with scrubh := field 8 }) ∧
  (field 8 = 0 ∨ 168 < field 8 → exec (.registerWrite 0x40 8 v) s = .next s) ∧
  (10 ≤ field 11 → field 11 ≤ 1440 → writes 0x48 { m with scrubt := field 11 }) ∧
  (field 11 < 10 ∨ 1440 < field 11 → exec (.registerWrite 0x48 8 v) s = .next s) ∧
  writes 0x1FF8 { m with mbReq := v.getLsbD 63, mbRsp := m.mbRsp && !v.getLsbD 62, mbReqLen := field 16 } ∧
  (∀ a < 16384, ∃ t, exec (.registerWrite (0x40000 + 8 * a) 8 v) s = .next t ∧
    ∀ b, tget 0#64 t.mgmt.bmbase b = if b = a then v &&& 0xFFFFFFFFFF001#64 else tget 0#64 m.bmbase b) ∧
  (∀ r < 65536, ∃ t, exec (.registerWrite (0x20000 + 2 * r) 2 v) s = .next t ∧
    ∀ q, tget 0 t.obs.thr q = if q = r then field 16 else tget 0 s.obs.thr q) ∧
  (∀ off size, 1 ≤ size → size ≤ 8 → 0x1000 ≤ off → off + size ≤ 0x1800 → Memory.wf m.mbBuf = true →
    ∃ t, exec (.registerWrite off size v) s = .next t ∧
    ∀ x, t.mgmt.mbBuf.get x = if off ≤ x ∧ x < off + size then v.extractLsb' (8 * (x - off)) 8 else m.mbBuf.get x) ∧
  (∀ tile < 768, ∃ t, exec (.registerWrite (0x200000 + 0x10000 * tile) 8 v) s = .next t ∧
    (t.dbg tile).bkp0 = (v &&& 0xF000FFFFFFFFFFFF#64) ∧ (t.dbg tile).bkp1 = (s.dbg tile).bkp1 ∧ t.cur = s.cur ∧ t.mem = s.mem) ∧
  (∀ off size, ¬ (0x1000 ≤ off ∧ off + size ≤ 0x1800) → off % size ≠ 0 → exec (.registerWrite off size v) s = .next s) ∧
  (∀ off size, ¬ (0x1000 ≤ off ∧ off + size ≤ 0x1800) → size ≠ 8 → (off < 0x5800 ∨ 0x5C00 ≤ off) → (off < 0x20000 ∨ 0x40000 ≤ off) → exec (.registerWrite off size v) s = .next s) ∧
  (∀ off, off % 8 = 0 → off < 0x3000 → off ∉ [0x00, 0x18, 0x20, 0x28, 0x38, 0x40, 0x48, 0x1FF8, 0x2030, 0x2038] →
    ¬ (0x1000 ≤ off ∧ off < 0x1800) → exec (.registerWrite off 8 v) s = .next s) ∧
  (∀ off, off % 8 = 0 → (0x3C00 ≤ off ∧ off < 0x40000) ∨ (0x6C000 ≤ off ∧ off < 0x200000) ∨ 0x200000 + 0x10000 * 768 ≤ off →
    exec (.registerWrite off 8 v) s = .next s) ∧
  exec (.registerWrite 0x2030 8 v) s = .next { s with obs := { s.obs with rktail := field 24 } } ∧
  exec (.registerWrite 0x2038 8 v) s = .next { s with obs := { s.obs with rklost := field 48 } } ∧
  (∀ c < 12, let l := s.core c
    let sets := fun (i : Nat) (l' : Logline) => ∃ t, exec (.registerWrite (0x3000 + 256 * c + i) 8 v) s = .next t ∧ t.core c = l' ∧
      (∀ k, k ≠ c → t.core k = s.core k) ∧ t.mgmt = m ∧ t.cur = s.cur ∧ t.mem = s.mem
    sets 0x00 { l with trbase := v &&& 0xFFFFFFFFFF000#64, trhead := 0 } ∧
    sets 0x08 (if 8 ≤ field 5 ∧ field 5 ≤ 24 then { l with trlog2 := field 5, trhead := 0 } else l) ∧
    sets 0x18 { l with trtail := field 24 } ∧ sets 0x20 { l with qlost := field 48 } ∧
    (∀ i < 256, i % 8 = 0 → i ∉ [0x00, 0x08, 0x18, 0x20] → sets i l) ∧
    ∀ j < 512, ∃ t, exec (.registerWrite (0x60000 + 4096 * c + 8 * j) 8 v) s = .next t ∧
      ∀ k, (t.core c).windowWord k = if k = j then v else l.windowWord k) ∧
  (∀ tile < 768, let d := s.dbg tile
    let sets := fun (i : Nat) (d' : TileDbg) => ∃ t, exec (.registerWrite (0x200000 + 0x10000 * tile + i) 8 v) s = .next t ∧ t.dbg tile = d' ∧
      (∀ k, k ≠ tile → t.dbg k = s.dbg k) ∧ t.mgmt = m ∧ t.cur = s.cur ∧ t.mem = s.mem
    sets 0x08 { d with bkp1 := v &&& 0xF000FFFFFFFFFFFF#64 } ∧ sets 0x20 { d with trEn := v.getLsbD 0 } ∧ sets 0x28 { d with trlost := field 48 } ∧
    sets 0x30 { d with page := v.setWidth 2 } ∧
    ∀ i < 0x10000, i % 8 = 0 → i ∉ [0x00, 0x08, 0x20, 0x28, 0x30] → sets i d) ∧
  (∀ g < 256, ∃ t, exec (.registerWrite (0x5800 + 4 * g) 4 v) s = .next t ∧ t.cur = s.cur ∧ t.mem = s.mem ∧
    ∀ k, t.nbarb k = if k = g then v.setWidth 32 &&& 0xFCFFF#32 else s.nbarb k) ∧
  (m.mbReq = true → m.mbTaken = [] → exec .mailboxRequest s =
    .next { s with mgmt := { m with mbReq := false, mbTaken := m.mbBuf.bytes 0x1000 (min m.mbReqLen 2048) } }) ∧
  (m.mbReq = false ∨ m.mbTaken ≠ [] → exec .mailboxRequest s = .next s) ∧
  (∀ bs, m.mbRsp = false → bs.length ≤ 2040 → ∃ t, exec (.mailboxResponse bs) s = .next t ∧ t.mgmt.mbRsp = true ∧
    t.mgmt.mbRspLen = bs.length ∧ t.mgmt.mbTaken = [] ∧ t.cur = s.cur ∧ t.mem = s.mem ∧
    (Memory.wf m.mbBuf = true → t.mgmt.mbBuf.bytes 0x1800 bs.length = bs)) ∧
  (∀ image, exec (.firmwareVerify image) s = .next { s with mgmt :=
    if image.signatureOk = true ∧ m.fwMin.toNat ≤ image.version.toNat then { m with fwNext := some image.version, fwRefused := false }
    else { m with fwRefused := true } }) ∧
  (∀ x, m.fwNext = some x → exec .firmwareHandover s = .next (if s.choose.1 then s.choose.2.logEvent 431 0
    else { s.choose.2 with mgmt := { m with fwVersion := x, fwSince := s.elapsed, fwNext := none } })) ∧
  (m.fwNext = none → ∃ t, exec .firmwareHandover s = .next t ∧ t.mgmt.fwVersion = m.fwVersion ∧ t.sched.log ≠ s.sched.log ∧ t.mem = s.mem) ∧
  (∀ x : BitVec 32,
    (m.fwSince + 86400000000000 ≤ s.elapsed → m.fwMin.toNat < x.toNat → exec (.securityVersionRaise x) s =
      .next (if s.choose.1 then s.choose.2 else { s.choose.2 with mgmt := { m with fwMin := x } })) ∧
    (s.elapsed < m.fwSince + 86400000000000 ∨ x.toNat ≤ m.fwMin.toNat → exec (.securityVersionRaise x) s = .next s)) ∧
  (∀ nonce : BitVec 256, ∃ t, exec (.attestationRequest nonce) s = .next t ∧
    (m.reportDay = s.ptime / 86400000000000 → m.reports < 16 → m.leaf < 2 ^ 20 →
      t.mgmt.lastReport = some { nonce := nonce, ptime := s.ptime, leaf := m.leaf, devid := m.devid, rom := Config.measurement 0 0#32,
                                 firmware := Config.measurement 1 m.fwVersion, loader := Config.measurement 2 0#32 } ∧
      t.mgmt.leaf = m.leaf + 1 ∧ t.mgmt.reports = m.reports + 1 ∧ t.mgmt.reportStale = false) ∧
    (m.reportDay = s.ptime / 86400000000000 → 16 ≤ m.reports → t.mgmt.lastReport = m.lastReport ∧ t.mgmt.leaf = m.leaf ∧
      t.mgmt.reportStale = true) ∧ m.leaf ≤ t.mgmt.leaf ∧ t.cur = s.cur ∧ t.mem = s.mem)

/-- R15, R347, R419, R427 to R429: the edges of the device: host and peer accesses to local HBM below 384 GiB, atomics among them, act at the
home controller, unit after unit with free pauses in between (R255; log entry 81), and elsewhere change nothing (that every access below 384
GiB acts is log entry 48); a peer without a path is given up, with the writes to it (log entry 92); at the first lock PTP time is set
forward, and the slices in progress end, else it is slewed. R73, R428: a checkpoint stops and saves the launches that run; once none is
unsaved or drains its image holds HBM, the towers, their full bits and the save areas, and they are left as they are (that the writing of
the image itself takes no time is log entry 50); it is written back only before any placement, the rows found uncorrectable with it; a
device reset gives the state after reset, with HBM, the memories outside the device, the fuses and the die kept (what a reset keeps is log
entry 38). -/
def Obligations.EdgeEvents : Prop :=
  (∀ (s : State), s.env.retrain = [] →
  let hbm := s.mem.hbm
  let quiet := s.obs.counters = [] ∧ s.mem.hostQ = none
  (quiet → ∀ (pa n : Nat), 1 ≤ n → n ≤ 64 → pa + n ≤ 384 * 2 ^ 30 →
    let read := fun (i : Instr) => ∃ t, exec i s = .next t ∧
      (pa % 32 + n ≤ 32 → t = { s with mem := { s.mem with lastRead := hbm.bytes pa n }, obs := { s.obs with asked := t.obs.asked } }) ∧
      (t.hostRest true).mem = { s.mem with lastRead := hbm.bytes pa n } ∧ t.cur = s.cur
    let write := fun (i : Instr) (bs : List Byte) => ∃ t, exec i s = .next t ∧
      (pa % 32 + n ≤ 32 → t = { s with mem := { s.mem with hbm := hbm.putBytes pa bs }, obs := { s.obs with asked := t.obs.asked } }) ∧
      (∀ x, x < pa ∨ pa + n ≤ x → t.mem.hbm.get x = hbm.get x) ∧
      (Memory.wf hbm = true → (t.hostRest true).mem = { s.mem with hbm := hbm.putBytes pa bs }) ∧ t.cur = s.cur
    read (.hostHbmAccess (.read pa n)) ∧ (n ≤ 32 → read (.peerAccess (.read pa n))) ∧
    ∀ bs : List Byte, bs.length = n → write (.hostHbmAccess (.write pa bs)) bs ∧ (n ≤ 32 → write (.peerAccess (.write pa bs)) bs)) ∧
  (quiet → ∀ (pa n : Nat), n = 4 ∨ n = 8 → pa % n = 0 → pa + n ≤ 384 * 2 ^ 30 → ∀ v c : W64,
    let old := leNat (hbm.bytes pa n)
    let low := fun x : W64 => x.toNat % 2 ^ (8 * n)
    let signed := fun x : Nat => if 2 ^ (8 * n - 1) ≤ x then (x : Int) - 2 ^ (8 * n) else (x : Int)
    let amo := fun (i : Instr) (new : Nat) => ∃ t, exec i s = .next t ∧ t.mem.lastRead = hbm.bytes pa n ∧
      (∀ x, x < pa ∨ pa + n ≤ x → t.mem.hbm.get x = hbm.get x) ∧ (Memory.wf hbm = true → leNat (t.mem.hbm.bytes pa n) = new) ∧
      t = { s with mem := { s.mem with hbm := t.mem.hbm, lastRead := t.mem.lastRead }, obs := { s.obs with asked := t.obs.asked } }
    amo (.hostHbmAccess (.fetchAdd pa n v)) ((old + low v) % 2 ^ (8 * n)) ∧ amo (.hostHbmAccess (.swap pa n v)) (low v) ∧
    amo (.hostHbmAccess (.cas pa n c v)) (if old = low c then low v else old) ∧
    amo (.peerAccess (.fetchAdd pa n v)) ((old + low v) % 2 ^ (8 * n)) ∧ amo (.peerAccess (.swap pa n v)) (low v) ∧
    amo (.peerAccess (.cas pa n c v)) (if old = low c then low v else old) ∧
    amo (.peerAccess (.fetchMin pa n v)) (if signed (low v) < signed old then low v else old) ∧
    amo (.peerAccess (.fetchMax pa n v)) (if signed old < signed (low v) then low v else old) ∧
    amo (.peerAccess (.fetchAnd pa n v)) (old &&& low v) ∧ amo (.peerAccess (.fetchOr pa n v)) (old ||| low v)) ∧
  (∀ a, 384 * 2 ^ 30 < (accessRange a).1 + (accessRange a).2 →
    exec (.hostHbmAccess a) s = .next s ∧ exec (.peerAccess a) s = .next s) ∧
  (∀ dev, ∃ t, exec (.rhumbPathTimeout dev) s = .next t ∧ (∀ d, d ∈ t.mem.deadPeers ↔ d = dev ∨ d ∈ s.mem.deadPeers) ∧
    (∀ u ∈ t.tasks, u.seq.state ≠ .held) ∧ t.mem.hbm = hbm ∧ t.mem.peer = s.mem.peer ∧ t.cur.reg = s.cur.reg ∧
    t.mem.wport = s.mem.wport.filter fun w => !(w.place.kind == 1 && w.place.addr / 2 ^ 39 == dev)) ∧
  (∀ ns,
    let ahead := s.clk.ptpState = 0 ∧ s.clk.ptimeQ < 4 * ns
    let c := { s.clk with ptpState := 1, ptimeQ := 4 * ns, ptpSlew := 0, jumpQ := s.clk.jumpQ + (4 * ns - s.clk.ptimeQ)
                          jumpAt := some (4 * ns), edgeQ := 4 * ns - 1 }
    (ahead → exec (.ptpLock ns) s = .next (s.slicedRegions.foldl (fun u r => outState u (exec (.sliceEnd (BitVec.ofNat 16 r)) u))
      { s with clk := c })) ∧
    (¬ ahead → exec (.ptpLock ns) s = .next { s with clk := { s.clk with ptpState := 1, ptpSlew := 4 * (ns : Int) - s.clk.ptimeQ } })) ∧
  (exec .ptpLockLost s = .next { s with clk := { s.clk with ptpState := if s.clk.ptpState = 0 then 0 else 2 } })) ∧
  (∀ (s : State),
  ((∀ l ∈ s.sched.launches, s.unsaved l = false ∧ s.draining l = false) → ∃ t, exec .checkpoint s = .next t ∧ t.mgmt.saving = false ∧ t.mem.hbm = s.mem.hbm ∧
    t.mgmt.ckpt = some { mem := s.mem, areas := (s.sched.launches.filter fun l => !l.contexts.isEmpty).map fun l =>
      ({ launch := l.id, contexts := l.contexts, rows := l.rows } : SaveArea) } ∧
    ((∀ l ∈ s.sched.launches, l.ckpt = false) → t.mem = s.mem ∧ t.cur = s.cur ∧ t.parked = s.parked)) ∧
  (∀ l, s.sched.launches = [l] → l.phase = .resident → l.gangKey = 0 → (∃ u ∈ s.launchTasks l.id, u.receives = true) →
    (∀ u ∈ s.tasks, u.seq.pendingFault = none) →
    ∃ t, exec .checkpoint s = .next t ∧ t.mgmt.saving = true ∧ t.mgmt.ckpt = s.mgmt.ckpt ∧
      (t.launch? l.id).map (fun x => (x.phase, x.why, x.ckpt)) = some (.stopping, .preempt, true) ∧
      ∀ u ∈ t.tasks, u.bnd.launch = l.id → u.seq.state ≠ .running) ∧
  (∀ c, s.mgmt.ckpt = some c →
    (s.sched.everPlaced = false → exec .checkpointRestore s = .next { s with
      mem := { s.mem with
        hbm := c.mem.hbm, towers := c.mem.towers, full := c.mem.full, slots := c.mem.slots, regrow := c.mem.regrow, locked := c.mem.locked
        hbmBad := c.mem.hbmBad, towerBad := c.mem.towerBad }
      mgmt := { s.mgmt with areas := c.areas } }) ∧
    (s.sched.everPlaced = true → exec .checkpointRestore s = .next s)) ∧
  ∃ t, exec .deviceReset s = .next t ∧ t.mem.hbm = s.mem.hbm ∧ t.mem.slots = s.mem.slots ∧ t.mem.regrow = s.mem.regrow ∧ t.mem.locked = s.mem.locked ∧ t.mem.host = s.mem.host ∧ t.mem.peer = s.mem.peer ∧
    t.mgmt.fwMin = s.mgmt.fwMin ∧ t.mgmt.leaf = s.mgmt.leaf ∧ t.mem.towers = [] ∧ t.mem.full = [] ∧ t.tasks = State.reset.tasks ∧
    t.sched = State.reset.sched ∧ t.net = State.reset.net ∧ t.obs = State.reset.obs ∧ t.env = State.reset.env ∧
    t.plc.remap = [] ∧ t.plc.tmap = [] ∧ t.plc.tstat = [] ∧ t.clk.tick = 0 ∧ t.clk.ptimeQ = 0)

/-! ### The whole machine -/

/-- A step runs what stands first: an event of the agenda through `exec`; else the next task's turn; else the edge of the device cycle (log
entry 5). R91, R92, R101, R104, R112, R379: a step runs the decoded instructions. When it is the turn of the current task, which is running
with no wait, fault, forced refresh, late near-bank packet, breakpoint or step count before it, and the 128 bits at the program counter
decode to four syllables, the step issues them: the state after it is that of `exec` of the four in the order C, A, B, E (E first where it
reads memory at issue, and a TRAP after the other three) on the state with the counters moved on, and then the end of the bundle; unless a
syllable faults, when the first that does in the order C, A, B, E decides the state, or the results of slots A and B overflow together
(R105), which is taken in place of the rest. A row or granule of slot B that stands as the instruction wants it is read or written before
slot E's effect (R101, R106): `endRows` after each slot. A control transfer where none may stand is DELAY_SLOT before anything is decoded,
and a word of no instruction is ILLEGAL. Where a trap is entered before the bundle, the handler's first bundle issues in the same step. -/
def Obligations.StepRunsBundle : Prop :=
  (∀ (s : State),
  (∀ i rest, s.clk.agenda = i :: rest → step s = exec i { s with clk := { s.clk with agenda := rest } }) ∧
  (∀ tile rest, s.clk.agenda = [] → s.clk.turn = tile :: rest →
    step s = .next (({ s with clk := { s.clk with turn := rest } } : State).onTask tile State.taskCycle)) ∧
  (s.clk.agenda = [] → s.clk.turn = [] → step s = .next s.clockEdge ∧
    s.clockEdge.clk.tick = s.clk.tick + 1 ∧ s.clockEdge.clk.ptimeQ = s.clk.advance.ptimeQ)) ∧
  (∀ (s : State) (rest : List Nat) (w : BitVec 128),
  let q := s.cur.seq
  let d := s.dbg s.cur.bnd.tile
  s.clk.agenda = [] → s.clk.turn = s.cur.bnd.tile :: rest → s.cur.bound = true → q.state = .running → q.waits = [] →
  q.pendingFault = none → q.pendingForced = [] ∨ q.hnd = true → s.cur.eng.nbLate s.clk.tick = false →
  d.bkp0.getLsbD 63 = false → d.bkp1.getLsbD 63 = false → s.cur.watch.steps = none → q.lockFrom = none → q.freeAt ≤ s.clk.tick →
  s.cur.nextBundle = some w →
  let s0 := ({ s with clk := { s.clk with turn := rest } } : State).modSeq fun q => { q with lastFault := none, blocked := false, flush := w.getLsbD 0 }
  let enters := fun (t : State) => if s.entered t then t.issueOrStop else t
  let misplaced := isTransfer (syllableOf w .c) = true ∧ q.noTransfer = true
  (misplaced → step s = .next (enters (s0.takeFault q.pc { status := .delaySlot, cause := 0, slot := 4, info := 0#64 }).clearSeen)) ∧
  (∀ sl x, ¬ misplaced → decodeBundle w = .error (sl, x) →
    step s = .next (enters (s0.takeFault q.pc { status := .illegal, cause := 0, slot := s0.illegalSlot w sl, info := 0#64 }).clearSeen)) ∧
  (∀ c a b e : Instr, ¬ misplaced → decodeBundle w = .ok (c, a, b, e) →
    step s = .next (enters (s0.issueSlots c a b e)) ∧
    (∀ i ∈ [c, a, b, e], syllable i s0 = exec i s0) ∧
    (∀ t, isTrap c = false → exec c s0 = .next t → t.cur.seq.lastFault ≠ none → t.cur.seq.state ≠ .held → t.cur.seq.blocked = false → step s = .next (enters t.clearSeen)) ∧
    (let t := (s0.noteIssue.countIssue a e).effects (slotOrder (if isTrap c then .nop false else c) a b e)
     ∀ f, s0.firstFault c a b e = none → t.cur.seq.lastFault = some f → step s = .next (enters (t.takeFault q.pc f))) ∧
    (∀ t1 t2 t3 t4, isTrap c = false → readsAtIssue e = false → s0.firstFault c a b e = none →
      let s1 := s0.noteIssue.countIssue a e
      exec c s1 = .next t1 → exec a t1.endRows = .next t2 → exec b t2.endRows = .next t3 → exec e t3.endRows = .next t4 →
      (∀ t ∈ [t1, t2, t3, t4], t.endRows.cur.seq.lastFault = none) →
      step s = .next (enters ((t4.endRows.modSeq fun q => { q with lastPc := s.cur.seq.pc }).finishBundle none))) ∧
    (∀ t1 t2 t3 t4, isTrap c = false → readsAtIssue e = true → s0.firstFault c a b e = none →
      let s1 := s0.noteIssue.countIssue a e
      exec e s1 = .next t1 → exec c t1.endRows = .next t2 → exec a t2.endRows = .next t3 → exec b t3.endRows = .next t4 →
      (∀ t ∈ [t1, t2, t3, t4], t.endRows.cur.seq.lastFault = none) →
      step s = .next (enters ((t4.endRows.modSeq fun q => { q with lastPc := s.cur.seq.pc }).finishBundle none))) ∧
    (∀ t1 t2 t3, isTrap c = true → readsAtIssue e = false → s0.firstFault c a b e = none →
      let s1 := s0.noteIssue.countIssue a e
      exec a s1 = .next t1 → exec b t1.endRows = .next t2 → exec e t2.endRows = .next t3 → (∀ t ∈ [t1, t2, t3], t.endRows.cur.seq.lastFault = none) →
      step s = .next (enters ((t3.endRows.modSeq fun q => { q with lastPc := s.cur.seq.pc }).finishBundle (some c)))) ∧
    (∀ t1 t2 t3, isTrap c = true → readsAtIssue e = true → s0.firstFault c a b e = none →
      let s1 := s0.noteIssue.countIssue a e
      exec e s1 = .next t1 → exec a t1.endRows.endRows = .next t2 → exec b t2.endRows = .next t3 → (∀ t ∈ [t1, t1.endRows, t2, t3], t.endRows.cur.seq.lastFault = none) →
      step s = .next (enters ((t3.endRows.modSeq fun q => { q with lastPc := s.cur.seq.pc }).finishBundle (some c))))))

/-- R101, R106, R107: one step of a bundle with one instruction of slot C that lands a scalar result: the next state reads the task's registers
as before, the result is on its way, and the program counter and the schedule cycle have moved on by one. -/
def Obligations.StepOfOneMultiply : Prop := ∀ (s : State) (rest : List Nat) (o : CrForm),
  let q := s.cur.seq
  s.clk.agenda = [] → s.clk.turn = s.cur.bnd.tile :: rest → s.cur.bound = true → q.state = .running → q.waits = [] → q.inflight = [] →
  q.pendingFault = none → q.pendingForced = [] → s.cur.eng.nbLate s.clk.tick = false → s.dbg s.cur.bnd.tile = .reset →
  s.cur.watch.steps = none → q.lockFrom = none → s.obs.counters = [] → q.branch = none → q.rep = none → s.cur.bnd.store = [bundleWith .c (encodeWord (.mul o))] → s.cur.bnd.nbund = 1 →
  q.pc = 0 → q.freeAt ≤ s.clk.tick → o.d ≠ 0#5 → s.guard o.q o.n = true →
  ∃ t, step s = .next t ∧ t.cur.seq.pc = 1 ∧ t.cur.seq.scyc = q.scyc + 1 ∧ (∀ r, t.sreg r = s.sreg r) ∧ (∀ r, t.creg r = s.creg r) ∧
    t.cur.seq.inflight = [{ at_ := q.scyc, due := q.scyc + 3, slot := 0, dest := .sreg o.d (s.sreg o.a * s.sreg o.b) }] ∧
    t.cur.smem = s.cur.smem ∧ t.mem = s.mem ∧ t.cur.cl = s.cur.cl

/-- R30, R61, R62, R65, R73, R279, R405, R410, R422 to R425: what reset leaves, where the manual says it: no task is bound, every tower reads
zero and is empty, the identity remap, good tiles and towers, the doorbells, and the device, fix, log, logline, debug and arbitration
registers of the management space with a Reset column at its values, the filters that keep every record. (A task's control registers take
their reset values at its start: another statement says so.) The two invariants of the model hold at reset. -/
def Obligations.ResetValues : Prop :=
  (let s := State.reset
  (∀ t ∈ s.tasks, t.bound = false) ∧ (∀ a, s.mem.towers.get a = 0#8) ∧ s.mem.full = [] ∧
  (∀ tile < 768, s.remap tile = { fenced := false, px := tile % 32 }) ∧
  (∀ p, s.pstate p = 0 ∧ (s.chart p).tstate = 0) ∧
  (∀ r, s.doorbell r = { acur := 0, headv := 0, terr := false, tail := 0, live := false, rcba := 0, batches := (s.doorbell r).batches, run := (s.doorbell r).run }) ∧
  s.mgmt.devid = 0 ∧ s.env.pmode = 0 ∧ s.env.pmodeAct = 0 ∧ s.mgmt.cntvec = 0#10 ∧ s.mgmt.sigbase = 0#64 ∧ s.mgmt.siglog2 = 8 ∧ s.mgmt.sighead = 0 ∧
  s.mgmt.sigtail = 0 ∧ s.mgmt.scrubh = 24 ∧ s.mgmt.scrubt = 60 ∧ s.mgmt.mbReq = false ∧ s.mgmt.mbRsp = false ∧ s.mgmt.mbRspLen = 0 ∧
  s.mgmt.mbReqLen = 0 ∧ (∀ g, nbHold (s.nbarb g) = 16 ∧ nbForce (s.nbarb g) = 1) ∧ (∀ r, tget 0 s.obs.thr r = 0) ∧ s.obs.rkbase = 0#64 ∧ s.obs.rklog2 = 8 ∧ s.obs.rkhead = 0 ∧
  s.obs.rktail = 0 ∧ s.obs.rklost = 0 ∧ s.fixstat = 0#64 ∧ s.obs.fixDc = 0 ∧ s.clk.ptimeQ = 0 ∧ s.clk.ptpState = 0 ∧ s.clk.ptpSlew = 0 ∧
  (∀ tile, let d := s.dbg tile
    d.bkp0 = 0#64 ∧ d.bkp1 = 0#64 ∧ d.trEn = true ∧ d.trlost = 0 ∧ d.page = 0#2) ∧
  (∀ c < 12, (s.core c).trbase = 0#64 ∧ (s.core c).trlog2 = 8 ∧ (s.core c).trhead = 0 ∧ (s.core c).trtail = 0 ∧ (s.core c).qlost = 0 ∧
    (s.core c).pending = none ∧ (s.core c).index = 0 ∧ (s.core c).filter = [0x2000000000000000#64] ∧ (s.core c).check = 0) ∧
  (∀ off, s.counter off = 0#64) ∧ (∀ a, tget 0#64 s.mgmt.bmbase a = 0#64)) ∧
  (Canonical State.reset ∧ RegistersFit State.reset)

/-- R132, R134, R135, R137, R140, R141, R143 to R145, R148 to R150: the number functions on values. A code of a floating format stands for the
value of its fields, an integer code for its two's complement value, a DM8 code for (1 + 9f/2^n) × 10^e. Sums, products, fused sums and
quotients of finite values are exact, with the signs of zeros and the special cases of the table; a square root lies within 2^−201 of the
exact one. ConvertTo puts a finite value on the grid of its format in each of the five modes, with IX, UF and the overflow policy; NaN,
infinities, zeros and values flushed by F give what the table says; integers saturate with IV; DM8 takes the neighbouring table value. The
special functions have their special cases. (480 as a point of the E4M3 grid is log entry 87.) -/
def Obligations.NumberFunctions : Prop :=
  let val := fun q : Q => (q.sgnNum : ℚ) / q.den
  let two := fun e : ℤ => (2 : ℚ) ^ e
  let rounded := fun (mode : Nat) (neg : Bool) (x : ℚ) (k : Nat) =>
    let n := ⌊x⌋₊
    k = if x = n then n
        else if mode = 0 then (if x - n < 1 / 2 then n else if 1 / 2 < x - n then n + 1 else if n % 2 = 0 then n else n + 1)
        else if mode = 4 then (if x - n < 1 / 2 then n else n + 1)
        else if mode = 2 then (if neg then n else n + 1)
        else if mode = 3 then (if neg then n + 1 else n)
        else n
  let formats : List (Nat × Nat × Nat × Nat) := [(0, 8, 23, 127), (1, 8, 7, 127), (2, 5, 10, 15), (3, 4, 3, 7), (4, 5, 2, 15), (5, 2, 1, 1)]
  let biggest := fun t : Nat => if t = 0 then (2 - two (-23)) * two 127 else if t = 1 then (2 - two (-7)) * two 127 else if t = 2 then 65504
    else if t = 3 then 448 else if t = 4 then 57344 else 6
  let nanCode := fun t : Nat => if t = 0 then 0x7FC00000 else if t = 1 then 0x7FC0 else if t = 2 then 0x7E00 else if t = 3 then 0x7F
    else if t = 4 then 0x7E else 0x80
  let infs := fun t : Nat => t = 0 ∨ t = 1 ∨ t = 2 ∨ t = 4
  let away := fun (mode : Nat) (neg : Bool) => mode = 0 ∨ mode = 4 ∨ (mode = 2 ∧ neg = false) ∨ (mode = 3 ∧ neg = true)
  let overflows := fun (cx : NumCtx) (t : Nat) (neg : Bool) (w : W32) =>
    let pol := if t = 5 then 0 else cx.ovt.toNat / 4 ^ t % 4
    if pol = 2 then w.toNat = nanCode t
    else if pol = 1 ∧ infs t ∧ away cx.mode neg then decodeVal t w.toNat = .inf neg
    else ∃ r, decodeVal t w.toNat = .fin r ∧ r.den ≠ 0 ∧ val r = if neg then -(if t = 6 then 1000 else biggest t) else if t = 6 then 1000 else biggest t
  -- decoding
  (∀ f ∈ formats, let (t, eb, mb, bias) := f
    ∀ s E M : Nat, s < 2 → E < 2 ^ eb → M < 2 ^ mb →
    let code := s * 2 ^ (eb + mb) + E * 2 ^ mb + M
    let sign : ℚ := if s = 1 then -1 else 1
    (infs t ∧ E = 2 ^ eb - 1 → decodeVal t code = if M = 0 then .inf (s == 1) else .nan (decide (M < 2 ^ (mb - 1)))) ∧
    (t = 3 → E = 15 → M = 7 → decodeVal t code = .nan false) ∧
    (¬ (infs t ∧ E = 2 ^ eb - 1) → ¬ (t = 3 ∧ E = 15 ∧ M = 7) → ∃ q, decodeVal t code = .fin q ∧ q.den ≠ 0 ∧ q.neg = (s == 1) ∧
      val q = sign * if E = 0 then two (1 - (bias : ℤ)) * (M / 2 ^ mb) else two ((E : ℤ) - bias) * (1 + M / 2 ^ mb))) ∧
  (∀ p ∈ [(8, 32), (9, 16), (10, 8), (11, 4)], ∀ c < 2 ^ p.2, ∃ q, decodeVal p.1 c = .fin q ∧ q.den ≠ 0 ∧
    val q = if c < 2 ^ (p.2 - 1) then (c : ℚ) else c - 2 ^ p.2) ∧
  (∀ p ∈ [(12, 8), (13, 4)], ∀ c < 2 ^ p.2, ∃ q, decodeVal p.1 c = .fin q ∧ q.den ≠ 0 ∧ val q = (c : ℚ)) ∧
  (∀ m < 128, 0 < m → let n := Nat.log2 m
    let e : ℤ := ([3, -3, 2, -2, 1, -1, 0][n]?).getD 0
    ∀ s < 2, ∃ q, decodeVal 6 (128 * s + m) = .fin q ∧ q.den ≠ 0 ∧
      val q = (if s = 1 then -1 else 1) * (1 + 9 * (m - 2 ^ n) / 2 ^ n) * (10 : ℚ) ^ e) ∧
  decodeVal 6 0 = .fin (.zero false) ∧ decodeVal 6 0x80 = .nan false ∧
  -- exact arithmetic
  (∀ (mode : Nat) (p q : Q), p.den ≠ 0 → q.den ≠ 0 →
    (∃ r, addV mode (.fin p) (.fin q) = (.fin r, 0#9) ∧ r.den ≠ 0 ∧ val r = val p + val q ∧
      (val p + val q = 0 → r.neg = if val p = 0 ∧ p.neg = q.neg then p.neg else decide (mode = 3))) ∧
    (∃ r, mulV (.fin p) (.fin q) = (.fin r, 0#9) ∧ r.den ≠ 0 ∧ val r = val p * val q ∧ r.neg = (p.neg ^^ q.neg)) ∧
    (∀ z : Q, z.den ≠ 0 → ∃ r, fmaV mode (.fin p) (.fin q) (.fin z) = (.fin r, 0#9) ∧ r.den ≠ 0 ∧ val r = val p * val q + val z) ∧
    (val q ≠ 0 → ∃ r, divV (.fin p) (.fin q) = (.fin r, 0#9) ∧ r.den ≠ 0 ∧ val r = val p / val q ∧ r.neg = (p.neg ^^ q.neg)) ∧
    (val q = 0 → divV (.fin p) (.fin q) = if val p = 0 then (.nan false, flIV) else (.inf (p.neg ^^ q.neg), flDZ)) ∧
    (val p ≠ 0 → ∀ b, mulV (.inf b) (.fin p) = (.inf (b ^^ p.neg), 0#9) ∧ mulV (.fin p) (.inf b) = (.inf (b ^^ p.neg), 0#9)) ∧
    (val p = 0 → ∀ b, mulV (.inf b) (.fin p) = (.nan false, flIV) ∧ mulV (.fin p) (.inf b) = (.nan false, flIV) ∧
      fmaV mode (.fin p) (.inf b) (.nan false) = (.nan false, flIV)) ∧
    (val p = 0 → sqrtV (.fin p) = (.fin (.zero p.neg), 0#9) ∧ rsqrtV (.fin p) = (.inf p.neg, flDZ)) ∧
    (val p < 0 → sqrtV (.fin p) = (.nan false, flIV) ∧ rsqrtV (.fin p) = (.nan false, flIV)) ∧
    (0 < val p → ∃ r, sqrtV (.fin p) = (.fin r, 0#9) ∧ r.den ≠ 0 ∧ two (-201) ≤ val r ∧ (val r - two (-201)) ^ 2 ≤ val p ∧
      val p ≤ (val r + two (-201)) ^ 2)) ∧
  (∀ (mode : Nat) (a b : Bool) (v : FVal),
    addV mode (.inf a) (.inf b) = (if a = b then (.inf a, 0#9) else (.nan false, flIV)) ∧ divV (.inf a) (.inf b) = (.nan false, flIV) ∧
    addV mode (.nan a) v = (.nan false, if a = true ∨ v.isSig = true then flIV else 0#9) ∧
    mulV (.nan a) v = (.nan false, if a = true ∨ v.isSig = true then flIV else 0#9) ∧
    divV v (.nan a) = (.nan false, if a = true ∨ v.isSig = true then flIV else 0#9) ∧
    sqrtV (.inf a) = (if a then (.nan false, flIV) else (.inf false, 0#9)) ∧
    rsqrtV (.inf a) = (if a then (.nan false, flIV) else (.fin (.zero false), 0#9))) ∧
  -- ConvertTo a floating format
  (∀ (cx : NumCtx) (f : Nat × Nat × Nat × Nat) (q : Q), f ∈ formats → cx.mode ≤ 4 → q.den ≠ 0 → q.num ≠ 0 →
    let (t, _, mb, bias) := f
    let x := |val q|
    let w := (convertTo cx t (.fin q)).1
    let fl := (convertTo cx t (.fin q)).2
    (cx.flush = true → t ≠ 5 → x < two (1 - (bias : ℤ)) → decodeVal t w.toNat = decodeVal t (if q.neg then 2 ^ (typeBits t - 1) else 0) ∧
      fl = flUF ||| flIX) ∧
    (¬ (cx.flush = true ∧ t ≠ 5 ∧ x < two (1 - (bias : ℤ))) → ∀ (e : ℤ) (k : Nat), 1 - (bias : ℤ) ≤ e → x < two (e + 1) →
      two e ≤ x ∨ e = 1 - (bias : ℤ) → rounded cx.mode q.neg (x / two (e - mb)) k →
      let y := k * two (e - mb)
      (y ≤ biggest t → (∃ r, decodeVal t w.toNat = .fin r ∧ r.den ≠ 0 ∧ r.neg = q.neg ∧ |val r| = y) ∧
        fl = (if y = x then 0#9 else if x < two (1 - (bias : ℤ)) then flUF ||| flIX else flIX)) ∧
      (biggest t < y → overflows cx t q.neg w ∧ fl = flOF ||| flIX))) ∧
  (∀ (cx : NumCtx) (f : Nat × Nat × Nat × Nat) (b : Bool), f ∈ formats →
    let t := f.1
    convertTo cx t (.fin (.zero b)) = (if b then BitVec.ofNat 32 (2 ^ (typeBits t - 1)) else 0#32, 0#9) ∧
    convertTo cx t (.nan b) = (if t = 5 then (0#32, flIV) else (BitVec.ofNat 32 (nanCode t), if b then flIV else 0#9)) ∧
    (infs t → decodeVal t (convertTo cx t (.inf b)).1.toNat = .inf b ∧ (convertTo cx t (.inf b)).2 = 0#9) ∧
    (¬ infs t → overflows cx t b (convertTo cx t (.inf b)).1 ∧ (convertTo cx t (.inf b)).2 = flOF)) ∧
  -- ConvertTo an integer format
  (∀ (cx : NumCtx) (p : Nat × ℤ × ℤ), p ∈ [(8, -(2 ^ 31), 2 ^ 31 - 1), (9, -(2 ^ 15), 2 ^ 15 - 1), (10, -128, 127), (11, -8, 7), (12, 0, 255), (13, 0, 15)] →
    let (t, lo, hi) := p
    (∀ (q : Q) (k : Nat), cx.mode ≤ 4 → q.den ≠ 0 → rounded cx.mode q.neg |val q| k →
      let y : ℤ := if q.neg then -(k : ℤ) else k
      ∃ r, decodeVal t (convertTo cx t (.fin q)).1.toNat = .fin r ∧ r.den ≠ 0 ∧ val r = (max lo (min hi y) : ℤ) ∧
        (convertTo cx t (.fin q)).2 = if y < lo ∨ hi < y then flIV else if |val q| = k then 0#9 else flIX) ∧
    (∀ b, (∃ r, decodeVal t (convertTo cx t (.inf b)).1.toNat = .fin r ∧ r.den ≠ 0 ∧ val r = (if b then lo else hi : ℤ)) ∧
      (convertTo cx t (.inf b)).2 = flIV ∧ convertTo cx t (.nan b) = (0#32, flIV))) ∧
  -- ConvertTo DM8
  (∀ (cx : NumCtx) (q : Q), cx.mode ≤ 4 → q.den ≠ 0 → q.num ≠ 0 →
    let x := |val q|
    let at_ := fun m : Nat => if m = 0 then (0 : ℚ) else val (dm8Mag m)
    let code := fun m : Nat => if m = 0 then 0 else if q.neg then 128 + m else m
    (1000 < x → overflows cx 6 q.neg (convertTo cx 6 (.fin q)).1 ∧ (convertTo cx 6 (.fin q)).2 = flOF ||| flIX) ∧
    (∀ m < 128, x = at_ m → convertTo cx 6 (.fin q) = (BitVec.ofNat 32 (code m), 0#9)) ∧
    (∀ lo < 128, ∀ hi < 128, at_ lo < x → x < at_ hi → (∀ m < 128, at_ m ≤ at_ lo ∨ at_ hi ≤ at_ m) →
      let mid := (at_ lo + at_ hi) / 2
      let pick := if cx.mode = 0 then (if x < mid then lo else if mid < x then hi else if hi % 2 = 0 ∧ lo % 2 = 1 then hi else lo)
        else if cx.mode = 4 then (if x < mid then lo else hi)
        else if cx.mode = 2 then (if q.neg then lo else hi) else if cx.mode = 3 then (if q.neg then hi else lo) else lo
      convertTo cx 6 (.fin q) = (BitVec.ofNat 32 (code pick), if x < 1 / 1000 then flUF ||| flIX else flIX))) ∧
  -- special functions
  (∀ (cx : NumCtx) (g : SpecFn) (b : Bool),
    specFn g cx (.nan b) = (0x7FC00000#32, if b then flIV else 0#9) ∧
    specFn .exp cx (.fin (.zero b)) = (0x3F800000#32, 0#9) ∧ specFn .exp cx (.inf b) = (if b then 0#32 else 0x7F800000#32, 0#9) ∧
    specFn .log cx (.fin (.zero b)) = (0xFF800000#32, flDZ) ∧
    specFn .log cx (.inf b) = (if b then (0x7FC00000#32, flIV) else (0x7F800000#32, 0#9)) ∧
    specFn .log cx (decodeVal 0 0x3F800000) = (0#32, 0#9) ∧
    specFn .tanh cx (.fin (.zero b)) = (if b then 0x80000000#32 else 0#32, 0#9) ∧
    specFn .tanh cx (.inf b) = (if b then 0xBF800000#32 else 0x3F800000#32, 0#9) ∧
    specFn .sin cx (.fin (.zero b)) = (if b then 0x80000000#32 else 0#32, 0#9) ∧ specFn .cos cx (.fin (.zero b)) = (0x3F800000#32, 0#9) ∧
    specFn .sin cx (.inf b) = (0x7FC00000#32, flIV) ∧ specFn .cos cx (.inf b) = (0x7FC00000#32, flIV) ∧
    (∀ q : Q, q.den ≠ 0 → val q < 0 → specFn .log cx (.fin q) = (0x7FC00000#32, flIV)) ∧
    (∀ q : Q, q.den ≠ 0 → 2 ^ 22 ≤ |val q| →
      specFn .sin cx (.fin q) = (if q.neg then 0x80000000#32 else 0#32, flRG) ∧ specFn .cos cx (.fin q) = (0x3F800000#32, flRG)))

/-- Every step keeps every byte memory of the device, of its tasks, of saved contexts and of a checkpoint in its canonical form, so that
memories that read alike are equal. -/
def Obligations.StepsKeepCanonical : Prop := ∀ s s' : State, Canonical s → step s = .next s' → Canonical s'

/-- R98, R190 to R192: after every step every vector and mask register, of running and of saved tasks, holds at most 32 runs of at least one
element and 4,096 elements in all, with no two neighbouring runs of one value; everything in flight does too; and every VL is between 1 and
4,096. -/
def Obligations.StepsKeepRegistersFit : Prop := ∀ s s' : State, RegistersFit s → step s = .next s' → RegistersFit s'

/-- R3: byte memories: a byte written is what its address then reads, every other address reads as before, and the canonical form is kept; a
little-endian value of n bytes written reads back. -/
def Obligations.ByteMemories : Prop := ∀ (m : Memory), Memory.wf m = true →
  (∀ a b x, (m.put a b).get x = if x = a then b else m.get x) ∧ (∀ a b, Memory.wf (m.put a b) = true) ∧
  (∀ a bs x, (m.putBytes a bs).get x = if h : a ≤ x ∧ x - a < bs.length then bs[x - a]'h.2 else m.get x) ∧
  (∀ a n v, leNat ((m.putBytes a (leBytes v n)).bytes a n) = v % 2 ^ (8 * n)) ∧
  (∀ a n x, (m.clearRange a n).get x = if a ≤ x ∧ x < a + n then 0#8 else m.get x) ∧
  (∀ m' : Memory, Memory.wf m' = true → (∀ x, m'.get x = m.get x) → m' = m)

/-- R421: a host read of the management space that is not an aligned access of 8 bytes returns zero outside the narrow tables, whose bytes are
read at any size from 1 to 8, and the buffers, read at any size from 1 to 64; the tables that only the pilot controller writes ignore host
writes. R61, R279, R405, R422 to R425: the registers read back what was written in their fields, FIXCTL, FLTCTL, DBGCTL and ABORT read as
zero, and a write of TRBASE starts its ring anew (TRHEAD 0 after it is the model's choice, log entry 46). R30: a doorbell word reads as its
fields. -/
def Obligations.HostReads : Prop := ∀ (s : State) (v : BitVec 64),
  let reads := fun (off size : Nat) (w : BitVec 64) (off' size' want : Nat) =>
    ∃ t, exec (.registerWrite off size w) s = .next t ∧ t.hostRead off' size' = want
  (∀ off size, isTable off = false → isBuffer off = false → size ≠ 8 ∨ off % 8 ≠ 0 → s.hostRead off size = 0) ∧
  (∀ off size, 1 ≤ size → size ≤ 64 → (∀ j < size, isBuffer (off + j) = true) →
    s.hostRead off size = ((List.range size).map fun j => s.hostRead (off + j) 1 * 256 ^ j).sum ∧ s.hostRead off 1 < 256) ∧
  (∀ off size, isTable off = true → 1 ≤ size → size ≤ 8 → (∀ j < size, isTable (off + j) = true) →
    s.hostRead off size = ((List.range size).map fun j => s.hostRead (off + j) 1 * 256 ^ j).sum ∧ s.hostRead off 1 < 256) ∧
  (∀ off size, (0x4000 ≤ off ∧ off < 0x54C0) ∨ (0x10000 ≤ off ∧ off < 0x1E580) → exec (.registerWrite off size v) s = .next s) ∧
  (∀ tile < 768, (s.remap tile).px < 64 →
    s.hostRead (0x4000 + tile) 1 = (s.remap tile).px + if (s.remap tile).fenced then 128 else 0) ∧
  (∀ c ∈ [(0x18, 0x3FF#64), (0x20, 0xFFFFFFFFFFFFF000#64), (0x38, 0xFFFF#64), (0x2030, 0xFFFFFF#64), (0x2038, 0xFFFFFFFFFFFF#64)],
    reads c.1 8 v c.1 8 (v &&& c.2).toNat) ∧
  (∀ c ∈ [(0x28, 5, 8, 16), (0x40, 8, 1, 168), (0x48, 11, 10, 1440)], let x := v.toNat % 2 ^ c.2.1
    reads c.1 8 v c.1 8 (if c.2.2.1 ≤ x ∧ x ≤ c.2.2.2 then x else s.hostRead c.1 8)) ∧
  (∀ g < 256, reads (0x5800 + 4 * g) 4 v (0x5800 + 4 * g) 4 (v.toNat % 2 ^ 32 &&& 0xFCFFF)) ∧
  (∀ r < 65536, reads (0x20000 + 2 * r) 2 v (0x20000 + 2 * r) 2 (v.toNat % 65536)) ∧
  (∀ a < 16384, reads (0x40000 + 8 * a) 8 v (0x40000 + 8 * a) 8 (v &&& 0xFFFFFFFFFF001#64).toNat) ∧
  (∀ c < 12, reads (0x3000 + 256 * c) 8 v (0x3000 + 256 * c) 8 (v &&& 0xFFFFFFFFFF000#64).toNat ∧
    reads (0x3000 + 256 * c) 8 v (0x3010 + 256 * c) 8 0 ∧ s.hostRead (0x3028 + 256 * c) 8 = 0) ∧
  (∀ tile < 768, let b := 0x200000 + 0x10000 * tile
    reads b 8 v b 8 (v &&& 0xF000FFFFFFFFFFFF#64).toNat ∧ reads (b + 8) 8 v (b + 8) 8 (v &&& 0xF000FFFFFFFFFFFF#64).toNat ∧
    reads (b + 0x20) 8 v (b + 0x20) 8 (v.toNat % 2) ∧ reads (b + 0x28) 8 v (b + 0x28) 8 (v.toNat % 2 ^ 48) ∧
    reads (b + 0x30) 8 v (b + 0x30) 8 (v.toNat % 4) ∧ s.hostRead (b + 0x10) 8 = 0) ∧
  s.hostRead 0x50 8 = 0 ∧ s.hostRead 0x2000 8 = 0 ∧ s.hostRead 0x2008 8 = s.fixstat.toNat ∧ s.hostRead 0x2010 8 = s.obs.fixDc ∧
  (∀ r < 65536, (s.doorbell r).acur < 65536 → (s.doorbell r).headv < 65536 → (s.doorbell r).tail < 65536 → (s.doorbell r).rcba < 2 ^ 44 →
    s.doorbellRead (16 * r) 8 = (s.doorbell r).tail + (if (s.doorbell r).terr then 65536 else 0) + (s.doorbell r).headv * 2 ^ 32
      + (s.doorbell r).acur * 2 ^ 48 ∧
    s.doorbellRead (16 * r + 8) 8 = (s.doorbell r).rcba + (if (s.doorbell r).live then 2 ^ 63 else 0) ∧
    ∀ off size, size ≠ 8 → s.doorbellRead off size = 0)
end

