-- ==== Sys2Proof/Laws/Memory.lean ====
section
/-! SUPPORT. Byte memories and tables: what a write leaves to be read, and that every operation keeps the canonical form. -/

namespace Sys2Proof.Laws
open Sys2Proof.Machine

/-- The canonical form, said of all pairs of entries: addresses strictly rising, and nothing listed that reads as unlisted. -/
theorem wf_iff (m : Memory) :
    Memory.wf m = true ↔ m.Pairwise (fun c d => c.1 < d.1) ∧ ∀ c ∈ m, c.2 ≠ unlisted := by
  induction m with
  | nil => simp [Memory.wf]
  | cons c m ih =>
    cases m with
    | nil => simp [Memory.wf]
    | cons d m =>
      obtain ⟨a, b⟩ := c
      obtain ⟨a', b'⟩ := d
      simp only [Memory.wf, Bool.and_eq_true, bne_iff_ne, ne_eq, decide_eq_true_eq, ih, List.pairwise_cons, List.mem_cons,
        forall_eq_or_imp]
      constructor
      · rintro ⟨⟨hb, hlt⟩, ⟨hall, hp⟩, hb', hr⟩
        exact ⟨⟨⟨hlt, fun x hx => Nat.lt_trans hlt (hall x hx)⟩, hall, hp⟩, hb, hb', hr⟩
      · rintro ⟨⟨⟨hlt, -⟩, hall, hp⟩, hb, hb', hr⟩
        exact ⟨⟨hb, hlt⟩, ⟨hall, hp⟩, hb', hr⟩

/-- A write adds no address but its own. -/
theorem put_fst {i : Nat} {x : Byte} {m : Memory} {c : Host.Cell} (h : c ∈ m.put i x) : c.1 = i ∨ c ∈ m := by
  induction m with
  | nil => simp only [Memory.put] at h; split at h <;> simp_all
  | cons d m ih =>
    simp only [Memory.put] at h
    split at h
    · split at h <;> simp_all
      rcases h with rfl | h <;> simp_all
    · split at h
      · split at h <;> simp_all
        rcases h with rfl | h <;> simp_all
      · rcases List.mem_cons.1 h with rfl | h
        · simp
        · rcases ih h with h | h <;> simp [h]

/-- A byte written keeps the canonical form. -/
theorem wf_put {m : Memory} (h : Memory.wf m = true) (i : Nat) (x : Byte) : Memory.wf (m.put i x) = true := by
  rw [wf_iff] at h ⊢
  induction m with
  | nil => simp only [Memory.put]; split <;> simp_all
  | cons d m ih =>
    obtain ⟨a, b⟩ := d
    obtain ⟨hq, hn⟩ := h
    obtain ⟨ha, hp⟩ := List.pairwise_cons.1 hq
    have hm := ih ⟨hp, fun c hc => hn c (by simp [hc])⟩
    have hb : b ≠ unlisted := hn (a, b) (by simp)
    simp only [Memory.put]
    split
    · split
      · exact ⟨List.pairwise_cons.2 ⟨ha, hp⟩, hn⟩
      · rename_i hia hx
        refine ⟨List.pairwise_cons.2 ⟨?_, List.pairwise_cons.2 ⟨ha, hp⟩⟩, ?_⟩
        · intro c hc
          rcases List.mem_cons.1 hc with rfl | hc
          · exact hia
          · exact Nat.lt_trans hia (ha c hc)
        · intro c hc
          rcases List.mem_cons.1 hc with rfl | hc
          · exact hx
          · exact hn c hc
    · split
      · split
        · exact ⟨hp, fun c hc => hn c (by simp [hc])⟩
        · rename_i hia hx
          subst hia
          refine ⟨List.pairwise_cons.2 ⟨ha, hp⟩, ?_⟩
          intro c hc
          rcases List.mem_cons.1 hc with rfl | hc
          · exact hx
          · exact hn c (by simp [hc])
      · rename_i h1 h2
        refine ⟨List.pairwise_cons.2 ⟨?_, hm.1⟩, ?_⟩
        · intro c hc
          rcases put_fst hc with e | hc
          · simp only [e]; omega
          · exact ha c hc
        · intro c hc
          rcases List.mem_cons.1 hc with rfl | hc
          · exact hb
          · exact hm.2 c hc

/-- Bytes written one after the other keep the canonical form. -/
theorem wf_putBytes {m : Memory} (h : Memory.wf m = true) (a : Nat) (bs : List Byte) : Memory.wf (m.putBytes a bs) = true := by
  induction bs generalizing m a with
  | nil => exact h
  | cons b bs ih => exact ih (wf_put h a b) (a + 1)

/-- Bytes cleared keep the canonical form. -/
theorem wf_clearRange {m : Memory} (h : Memory.wf m = true) (a n : Nat) : Memory.wf (m.clearRange a n) = true := by
  rw [wf_iff] at h ⊢
  exact ⟨h.1.filter _, fun c hc => h.2 c (List.mem_filter.1 hc).1⟩

@[simp] theorem wf_nil : Memory.wf [] = true := rfl

/-- An address below every listed one reads as unlisted. -/
theorem get_below {m : Memory} {i : Nat} (h : ∀ c ∈ m, i < c.1) : m.get i = unlisted := by
  induction m with
  | nil => rfl
  | cons d m ih =>
    have h1 : d.1 ≠ i := by have := h d (by simp); omega
    simp only [Memory.get, h1, ↓reduceIte]
    exact ih fun c hc => h c (by simp [hc])

/-- A byte written is what its address then reads; every other address reads as before. -/
theorem get_put {m : Memory} (h : Memory.wf m = true) (i : Nat) (x : Byte) (j : Nat) :
    (m.put i x).get j = if j = i then x else m.get j := by
  rw [wf_iff] at h
  induction m with
  | nil => simp only [Memory.put]; split <;> simp_all [Memory.get, eq_comm]
  | cons d m ih =>
    obtain ⟨a, b⟩ := d
    obtain ⟨ha, hp⟩ := List.pairwise_cons.1 h.1
    have ih := ih ⟨hp, fun c hc => h.2 c (by simp [hc])⟩
    simp only [Memory.put]
    split
    · rename_i hia
      have low : Memory.get ((a, b) :: m) i = unlisted := get_below fun c hc => by
        rcases List.mem_cons.1 hc with rfl | hc
        · exact hia
        · exact Nat.lt_trans hia (ha c hc)
      split
      · rename_i hx
        by_cases hj : j = i
        · subst hj; simp only [↓reduceIte, hx]; exact low
        · simp [hj]
      · by_cases hj : j = i
        · subst hj; simp [Memory.get]
        · simp [Memory.get, hj, Ne.symm hj]
    · split
      · rename_i hia
        subst hia
        have low : Memory.get m i = unlisted := get_below ha
        split
        · rename_i hx
          by_cases hj : j = i
          · subst hj; simp [hx, low]
          · simp [Memory.get, hj, Ne.symm hj]
        · by_cases hj : j = i
          · subst hj; simp [Memory.get]
          · simp [Memory.get, hj, Ne.symm hj]
      · rename_i h1 h2
        simp only [Memory.get, ih]
        by_cases hj : j = i
        · subst hj; simp [Ne.symm h2]
        · simp [hj]

/-- A read of `n` bytes gives `n` bytes. -/
@[simp] theorem bytes_length (m : Memory) (a n : Nat) : (m.bytes a n).length = n := by
  induction n generalizing a with
  | zero => rfl
  | succ n ih => simp [Memory.bytes, ih]

/-- Each byte of a read is the byte at its address. -/
theorem bytes_get (m : Memory) (a n k : Nat) (h : k < n) : (m.bytes a n)[k]? = some (m.get (a + k)) := by
  induction n generalizing a k with
  | zero => omega
  | succ n ih =>
    cases k with
    | zero => simp [Memory.bytes]
    | succ k => simp only [Memory.bytes, List.getElem?_cons_succ]; rw [ih (a + 1) k (by omega)]; congr 2; omega

@[simp] theorem leBytes_length (x n : Nat) : (leBytes x n).length = n := by
  induction n generalizing x with
  | zero => rfl
  | succ n ih => simp [leBytes, ih]

variable {α : Type}

/-- An entry written is what its key then reads. -/
@[simp] theorem tget_tput_self (d : α) (i : Nat) (x : α) (t : Tbl α) : tget d (tput i x t) i = x := by
  induction t with
  | nil => simp [tput, tget]
  | cons p t ih =>
    simp only [tput]
    split
    · simp [tget]
    · split
      · simp [tget]
      · rename_i h1 h2
        have : (p.1 == i) = false := by simp [Ne.symm h2]
        simp [tget, this, ih]

/-- Every other key reads as before. -/
theorem tget_tput_other (d : α) {i j : Nat} (h : j ≠ i) (x : α) (t : Tbl α) : tget d (tput i x t) j = tget d t j := by
  have hi : (i == j) = false := by simp [Ne.symm h]
  induction t with
  | nil => simp [tput, tget, hi]
  | cons p t ih =>
    simp only [tput]
    split
    · simp [tget, hi]
    · split
      · rename_i h2
        subst h2
        simp [tget, hi]
      · simp [tget, ih]

variable {n k : Nat}

/-- A register written is what it then reads. -/
@[simp] theorem vat_vput_self (v : Vector α n) (i : BitVec k) (x : α) (h : 2 ^ k = n) : vat (vput v i x h) i h = x := by
  simp [vat, vput]

/-- Every other register reads as before. -/
theorem vat_vput_other (v : Vector α n) {i j : BitVec k} (hij : j ≠ i) (x : α) (h : 2 ^ k = n) :
    vat (vput v i x h) j h = vat v j h := by
  have : i.toNat ≠ j.toNat := fun e => hij (BitVec.eq_of_toNat_eq e.symm)
  simp [vat, vput, Vector.getElem_set_ne, this]

end Sys2Proof.Laws
end

