-- ==== Sys2Proof/Laws/Ops.lean ====
section
/-! SUPPORT. What each shared operation can do, said once: registers, results on their way, counting and tracing, faults. -/

namespace Sys2Proof.Laws
open Sys2Proof.Machine

/-! ### Scalar and condition registers -/

@[simp] theorem sreg_zero (g : Regs) : g.sreg 0#5 = 0#64 := rfl
@[simp] theorem creg_zero (g : Regs) : g.creg 0#3 = true := rfl
@[simp] theorem setS_zero (g : Regs) (v : W64) : g.setS 0#5 v = g := rfl
@[simp] theorem setC_zero (g : Regs) (v : Bool) : g.setC 0#3 v = g := rfl

/-- A scalar register written is what it then reads, but s0; every other one reads as before. -/
theorem sreg_setS (g : Regs) (r r' : BitVec 5) (v : W64) :
    (g.setS r v).sreg r' = if r' = r ∧ r ≠ 0#5 then v else g.sreg r' := by
  by_cases hr : r = 0#5
  · simp [hr]
  · by_cases h : r' = r
    · subst h
      simp [Regs.setS, Regs.sreg, hr]
    · simp [Regs.setS, Regs.sreg, hr, h, vat_vput_other _ h]

/-- A condition register written is what it then reads, but c0; every other one reads as before. -/
theorem creg_setC (g : Regs) (r r' : BitVec 3) (v : Bool) :
    (g.setC r v).creg r' = if r' = r ∧ r ≠ 0#3 then v else g.creg r' := by
  by_cases hr : r = 0#3
  · simp [hr]
  · by_cases h : r' = r
    · subst h
      simp [Regs.setC, Regs.creg, hr]
    · simp [Regs.setC, Regs.creg, hr, h, vat_vput_other _ h]

/-- A write of a scalar register leaves every other field. -/
theorem setS_frame (g : Regs) (r : BitVec 5) (v : W64) : g.setS r v = { g with s := (g.setS r v).s } := by
  by_cases hr : r = 0#5 <;> simp [Regs.setS, hr]

/-- A write of a condition register leaves every other field. -/
theorem setC_frame (g : Regs) (r : BitVec 3) (v : Bool) : g.setC r v = { g with c := (g.setC r v).c } := by
  by_cases hr : r = 0#3 <;> simp [Regs.setC, hr]

/-! ### Vector, mask and ring registers -/

theorem vreg_setV (c : Cluster) (r r' : BitVec 5) (x : Machine.Runs W32) :
    (c.setV r x).vreg r' = if r' = r then x else c.vreg r' := by
  by_cases h : r' = r
  · subst h; simp [Cluster.setV, Cluster.vreg]
  · simp [Cluster.setV, Cluster.vreg, h, vat_vput_other _ h]

@[simp] theorem kreg_setV (c : Cluster) (r : BitVec 5) (x : Machine.Runs W32) (k : BitVec 3) : (c.setV r x).kreg k = c.kreg k := rfl

theorem kreg_setK (c : Cluster) (r r' : BitVec 3) (x : Machine.Runs Bool) :
    (c.setK r x).kreg r' = if r' = r ∧ r ≠ 0#3 then x else c.kreg r' := by
  by_cases hr : r = 0#3
  · simp [Cluster.setK, hr]
  · by_cases h : r' = r
    · subst h; simp [Cluster.setK, Cluster.kreg, hr]
    · simp [Cluster.setK, Cluster.kreg, hr, h, vat_vput_other _ h]

@[simp] theorem vreg_setK (c : Cluster) (r : BitVec 3) (x : Machine.Runs Bool) (v : BitVec 5) : (c.setK r x).vreg v = c.vreg v := by
  by_cases hr : r = 0#3 <;> simp [Cluster.setK, Cluster.vreg, hr]

/-- A change of one cluster is read in that cluster and nowhere else. -/
theorem modCl_cl (t : Task) (i j : Fin 8) (f : Cluster → Cluster) :
    (t.modCl i f).cl[j] = if j = i then f t.cl[i] else t.cl[j] := by
  by_cases h : j = i
  · subst h; simp [Task.modCl]
  · have : i.val ≠ j.val := fun e => h (Fin.ext e.symm)
    simp [Task.modCl, h, Vector.getElem_set_ne, this]

@[simp] theorem modCl_bnd (t : Task) (i : Fin 8) (f : Cluster → Cluster) : (t.modCl i f).bnd = t.bnd := rfl
@[simp] theorem modCl_seq (t : Task) (i : Fin 8) (f : Cluster → Cluster) : (t.modCl i f).seq = t.seq := rfl
@[simp] theorem modCl_reg (t : Task) (i : Fin 8) (f : Cluster → Cluster) : (t.modCl i f).reg = t.reg := rfl
@[simp] theorem modCl_smem (t : Task) (i : Fin 8) (f : Cluster → Cluster) : (t.modCl i f).smem = t.smem := rfl
@[simp] theorem modCl_rings (t : Task) (i : Fin 8) (f : Cluster → Cluster) : (t.modCl i f).rings = t.rings := rfl
@[simp] theorem modCl_eng (t : Task) (i : Fin 8) (f : Cluster → Cluster) : (t.modCl i f).eng = t.eng := rfl
@[simp] theorem modCl_mark (t : Task) (i : Fin 8) (f : Cluster → Cluster) : (t.modCl i f).mark = t.mark := rfl
@[simp] theorem modCl_watch (t : Task) (i : Fin 8) (f : Cluster → Cluster) : (t.modCl i f).watch = t.watch := rfl

/-! ### Results on their way -/

/-- A result issued now goes to the end of those in flight. -/
@[simp] theorem land_inflight (s : State) (slot lat : Nat) (d : Dest) : (s.land slot lat d).cur.seq.inflight =
    s.cur.seq.inflight ++ [{ at_ := s.cur.seq.scyc, due := s.cur.seq.scyc + lat, slot := slot, dest := d }] := rfl

/-- It changes nothing else. -/
theorem land_frame (s : State) (slot lat : Nat) (d : Dest) :
    s.land slot lat d = s.modSeq fun q => { q with inflight := (s.land slot lat d).cur.seq.inflight } := rfl

/-- A guarded result lands, or the instruction does nothing (R101, R163). -/
theorem crResult_cases (s : State) (o : CrForm) (lat : Nat) (f : W64 → W64 → W64) :
    (s.guard o.q o.n = true ∧ s.crResult o lat f = s.land 0 lat (.sreg o.d (f (s.sreg o.a) (s.sreg o.b)))) ∨
    (s.guard o.q o.n = false ∧ s.crResult o lat f = s) := by
  cases h : s.guard o.q o.n <;> simp [State.crResult, h]

theorem cr1Result_cases (s : State) (o : Cr1Form) (f : W64 → W64) :
    (s.guard o.q o.n = true ∧ s.cr1Result o f = s.land 0 1 (.sreg o.d (f (s.sreg o.a)))) ∨
    (s.guard o.q o.n = false ∧ s.cr1Result o f = s) := by
  cases h : s.guard o.q o.n <;> simp [State.cr1Result, h]

theorem cmpResult_cases (s : State) (o : CmpForm) (rel : W64 → W64 → Bool) :
    (s.guard o.q o.n = true ∧ s.cmpResult o rel = s.land 0 1 (.creg o.d (rel (s.sreg o.a) (s.sreg o.b)))) ∨
    (s.guard o.q o.n = false ∧ s.cmpResult o rel = s) := by
  cases h : s.guard o.q o.n <;> simp [State.cmpResult, h]

theorem condResult_cases (s : State) (o : CondForm) (f : Bool → Bool → Bool) :
    (s.guard o.q o.n = true ∧ s.condResult o f = s.land 0 1 (.creg o.d (f (s.creg o.a) (s.creg o.b)))) ∨
    (s.guard o.q o.n = false ∧ s.condResult o f = s) := by
  cases h : s.guard o.q o.n <;> simp [State.condResult, h]

/-! ### What a landing writes -/

/-- A scalar result changes its register alone. -/
@[simp] theorem deliver_sreg (t : Task) (r : BitVec 5) (v : W64) : t.deliver (.sreg r v) = { t with reg := t.reg.setS r v } := rfl
@[simp] theorem deliver_creg (t : Task) (r : BitVec 3) (v : Bool) : t.deliver (.creg r v) = { t with reg := t.reg.setC r v } := rfl
@[simp] theorem deliver_ctl (t : Task) (n : BitVec 6) (sub : BitVec 4) (v : W64) : t.deliver (.ctl n sub v) = t.setCtl n sub v := rfl
@[simp] theorem deliver_smem (t : Task) (a : Nat) (bs : List Byte) :
    t.deliver (.smem a bs) = { t with smem := t.smem.putBytes a bs } := rfl
@[simp] theorem deliver_engine (t : Task) (e i : BitVec 5) (v : W64) : t.deliver (.engine e i v) = t.setEngine e i v := rfl
@[simp] theorem deliver_nothing (t : Task) : t.deliver .nothing = t := rfl

/-- Scalar memory keeps its canonical form when a store lands. -/
theorem deliver_smem_wf {t : Task} (h : Memory.wf t.smem = true) (a : Nat) (bs : List Byte) :
    Memory.wf (t.deliver (.smem a bs)).smem = true := wf_putBytes h a bs

/-! ### Counting and tracing (R406, R407, R411, R412) -/

/-- Two states that differ in nothing but what observes the device: counters, trace ports, cores, and the signals they raise. -/
def SameButObserved (s t : State) : Prop := ∃ (o : Obs) (m : Mgmt), t = { s with obs := o, mgmt := m }

theorem SameButObserved.refl (s : State) : SameButObserved s s := ⟨s.obs, s.mgmt, rfl⟩

theorem SameButObserved.trans {s t u : State} (h : SameButObserved s t) (k : SameButObserved t u) : SameButObserved s u := by
  obtain ⟨o, m, rfl⟩ := h
  obtain ⟨o', m', rfl⟩ := k
  exact ⟨o', m', rfl⟩

theorem setDbg_observed (s : State) (tile : Nat) (d : TileDbg) : SameButObserved s (s.setDbg tile d) := ⟨_, s.mgmt, rfl⟩
theorem setCore_observed (s : State) (c : Nat) (l : Logline) : SameButObserved s (s.setCore c l) := ⟨_, s.mgmt, rfl⟩

theorem enqueueCore_observed (s : State) (c : Nat) (r : TraceRec) : SameButObserved s (s.enqueueCore c r) := by
  unfold State.enqueueCore
  dsimp only
  split <;> exact setCore_observed ..

theorem offerCore_observed (s : State) (c : Nat) (r : TraceRec) : SameButObserved s (s.offerCore c r) := setCore_observed ..

theorem overflowSignal_observed (s : State) (off : Nat) (c : W64) : SameButObserved s (s.overflowSignal off c) := by
  unfold State.overflowSignal
  split
  · exact ⟨s.obs, _, rfl⟩
  · exact .refl s

theorem addCount_observed (s : State) (off n : Nat) : SameButObserved s (s.addCount off n).1 := by
  have h (o : Obs) : SameButObserved s { s with obs := o } := ⟨o, s.mgmt, rfl⟩
  unfold State.addCount State.setCounter
  dsimp only
  split
  · exact .refl s
  · split
    · exact h _
    · exact (h _).trans (overflowSignal_observed ..)

theorem foldl_observed {α : Type} (f : State → α → State) (h : ∀ s x, SameButObserved s (f s x)) (l : List α) (s : State) :
    SameButObserved s (l.foldl f s) := by
  induction l generalizing s with
  | nil => exact .refl s
  | cons x l ih => exact (h s x).trans (ih (f s x))

theorem dropRec_observed (tile n : Nat) (s : State) : SameButObserved s (State.dropRec tile n s) := by
  induction n generalizing s with
  | zero => exact .refl s
  | succ n ih =>
    unfold State.dropRec
    refine (setDbg_observed ..).trans (foldl_observed _ (fun s m => ?_) ..)
    dsimp only
    split
    · split
      · exact (addCount_observed ..).trans (ih _)
      · exact addCount_observed ..
    · exact .refl _

theorem emitRec_observed (s : State) (tile : Nat) (r : TraceRec) : SameButObserved s (s.emitRec tile r) := by
  unfold State.emitRec
  dsimp only
  split
  · exact .refl s
  · split
    · exact setDbg_observed ..
    · exact dropRec_observed ..

theorem overflowRecord_observed (s : State) (off : Nat) (c : W64) : SameButObserved s (s.overflowRecord off c) := by
  unfold State.overflowRecord
  dsimp only
  split
  · exact emitRec_observed ..
  · split <;> exact offerCore_observed ..

theorem bump_observed (s : State) (off n : Nat) : SameButObserved s (s.bump off n) := by
  unfold State.bump
  dsimp only
  split
  · exact (addCount_observed s off n).trans (overflowRecord_observed ..)
  · exact addCount_observed s off n

theorem countBlock_observed (s : State) (at_ : Nat → Nat) (code n : Nat) : SameButObserved s (s.countBlock at_ code n) := by
  refine foldl_observed _ (fun s m => ?_) ..
  split
  · exact bump_observed ..
  · exact .refl _

theorem countTile_observed (s : State) (tile code n : Nat) : SameButObserved s (s.countTile tile code n) := by
  unfold State.countTile
  split
  · exact .refl s
  · exact countBlock_observed ..

theorem countChan_observed (s : State) (g code n : Nat) : SameButObserved s (s.countChan g code n) := by
  unfold State.countChan
  split
  · exact .refl s
  · exact countBlock_observed ..

theorem countNode_observed (s : State) (k code n : Nat) : SameButObserved s (s.countNode k code n) := by
  unfold State.countNode
  split
  · exact .refl s
  · exact countBlock_observed ..

/-- What is due lands: the task with its landings delivered, WDOG written for the launch, and run overflows counted. -/
theorem landDue_observed (s : State) : SameButObserved { s.landWdog with cur := s.landWdog.cur.landDue } s.landDue := by
  unfold State.landDue
  dsimp only
  split
  · exact .refl _
  · exact countTile_observed ..

theorem emit_observed (s : State) (kind tag pc : Nat) (d0 d1 : W64) : SameButObserved s (s.emit kind tag pc d0 d1) :=
  emitRec_observed ..

@[simp] theorem emit_clk (s : State) (kind tag pc : Nat) (d0 d1 : W64) : (s.emit kind tag pc d0 d1).clk = s.clk := by
  obtain ⟨o, m, h⟩ := emit_observed s kind tag pc d0 d1; rw [h]
@[simp] theorem emit_cur (s : State) (kind tag pc : Nat) (d0 d1 : W64) : (s.emit kind tag pc d0 d1).cur = s.cur := by
  obtain ⟨o, m, h⟩ := emit_observed s kind tag pc d0 d1; rw [h]
@[simp] theorem emit_parked (s : State) (kind tag pc : Nat) (d0 d1 : W64) : (s.emit kind tag pc d0 d1).parked = s.parked := by
  obtain ⟨o, m, h⟩ := emit_observed s kind tag pc d0 d1; rw [h]
@[simp] theorem emit_mem (s : State) (kind tag pc : Nat) (d0 d1 : W64) : (s.emit kind tag pc d0 d1).mem = s.mem := by
  obtain ⟨o, m, h⟩ := emit_observed s kind tag pc d0 d1; rw [h]
@[simp] theorem emit_sched (s : State) (kind tag pc : Nat) (d0 d1 : W64) : (s.emit kind tag pc d0 d1).sched = s.sched := by
  obtain ⟨o, m, h⟩ := emit_observed s kind tag pc d0 d1; rw [h]
@[simp] theorem emit_plc (s : State) (kind tag pc : Nat) (d0 d1 : W64) : (s.emit kind tag pc d0 d1).plc = s.plc := by
  obtain ⟨o, m, h⟩ := emit_observed s kind tag pc d0 d1; rw [h]
@[simp] theorem emit_env (s : State) (kind tag pc : Nat) (d0 d1 : W64) : (s.emit kind tag pc d0 d1).env = s.env := by
  obtain ⟨o, m, h⟩ := emit_observed s kind tag pc d0 d1; rw [h]
@[simp] theorem emit_net (s : State) (kind tag pc : Nat) (d0 d1 : W64) : (s.emit kind tag pc d0 d1).net = s.net := by
  obtain ⟨o, m, h⟩ := emit_observed s kind tag pc d0 d1; rw [h]

/-! ### Taking a fault (R371 to R381) -/

/-- Which entry a fault takes, from its cause, the handler state and the trap entry. -/
theorem takeFault_cases (s : State) (pc : Nat) (f : FaultInfo) :
    (f.cause = 0 ∧ s.takeFault pc f = s.takeTerminal pc f) ∨
    (f.cause ≠ 0 ∧ s.cur.seq.hnd = true ∧
      s.takeFault pc f = s.takeTerminal pc { f with status := .doubleTrap, cause := 0, info := 0#64 }) ∨
    (f.cause ≠ 0 ∧ s.cur.seq.hnd = false ∧ s.cur.bnd.trapV = true ∧ s.takeFault pc f = s.enterTrap pc f) ∨
    (f.cause ≠ 0 ∧ s.cur.seq.hnd = false ∧ s.cur.bnd.trapV = false ∧ s.takeFault pc f = s.takeTerminal pc { f with cause := 0 }) := by
  unfold State.takeFault
  by_cases h0 : f.cause = 0
  · simp [h0]
  · cases h1 : s.cur.seq.hnd <;> cases h2 : s.cur.bnd.trapV <;> simp [h0]

/-- Everything that entering the handler does to the sequencer. -/
@[simp] theorem enterTrap_seq (s : State) (pc : Nat) (f : FaultInfo) : (s.enterTrap pc f).cur.seq =
    { s.cur.seq with saved := some (s.cur.seq.record s.clk.tick), inflight := [], branch := none, rep := none, waits := [], resumed := false,
                     hnd := true, trapPcSet := false, pc := s.cur.bnd.trapEnt, lastFault := some f } := by
  simp [State.enterTrap, State.modSeq, State.modReg]

/-- The trap state is all that it writes of the registers. -/
@[simp] theorem enterTrap_reg (s : State) (pc : Nat) (f : FaultInfo) : (s.enterTrap pc f).cur.reg = s.cur.reg.trapState pc 1 f := by
  simp [State.enterTrap, State.modSeq, State.modReg]

@[simp] theorem enterTrap_bnd (s : State) (pc : Nat) (f : FaultInfo) : (s.enterTrap pc f).cur.bnd = s.cur.bnd := by
  simp [State.enterTrap, State.modSeq, State.modReg]
@[simp] theorem enterTrap_cl (s : State) (pc : Nat) (f : FaultInfo) : (s.enterTrap pc f).cur.cl = s.cur.cl := by
  simp [State.enterTrap, State.modSeq, State.modReg]
@[simp] theorem enterTrap_smem (s : State) (pc : Nat) (f : FaultInfo) : (s.enterTrap pc f).cur.smem = s.cur.smem := by
  simp [State.enterTrap, State.modSeq, State.modReg]
@[simp] theorem enterTrap_rings (s : State) (pc : Nat) (f : FaultInfo) : (s.enterTrap pc f).cur.rings = s.cur.rings := by
  simp [State.enterTrap, State.modSeq, State.modReg]
@[simp] theorem enterTrap_eng (s : State) (pc : Nat) (f : FaultInfo) : (s.enterTrap pc f).cur.eng = s.cur.eng := by
  simp [State.enterTrap, State.modSeq, State.modReg]
@[simp] theorem enterTrap_mem (s : State) (pc : Nat) (f : FaultInfo) : (s.enterTrap pc f).mem = s.mem := by
  simp [State.enterTrap, State.modSeq, State.modReg]
@[simp] theorem enterTrap_sched (s : State) (pc : Nat) (f : FaultInfo) : (s.enterTrap pc f).sched = s.sched := by
  simp [State.enterTrap, State.modSeq, State.modReg]

/-- A terminal fault leaves the task with nothing more to issue, its trap state written and nothing in flight. -/
theorem takeTerminal_seq (s : State) (pc : Nat) (f : FaultInfo) :
    (s.takeTerminal pc f).cur.seq.state = .dead ∧ (s.takeTerminal pc f).cur.seq.inflight = [] ∧
    (s.takeTerminal pc f).cur.seq.waits = [] ∧ (s.takeTerminal pc f).cur.seq.branch = none ∧
    (s.takeTerminal pc f).cur.seq.rep = none ∧ (s.takeTerminal pc f).cur.seq.lastFault = some f :=
  ⟨rfl, rfl, rfl, rfl, rfl, rfl⟩

/-- A deferred fault is the first one. -/
theorem defer_first (t : Task) (f : FaultInfo) (pc : Option Nat) (redo : Bool) (hd : t.seq.state ≠ .dead)
    (h : t.seq.pendingFault = none) :
    (t.defer f pc redo).seq.pendingFault = some { fault := f, pc := pc, redo := redo } := by
  simp [Task.defer, h, hd]

theorem defer_later (t : Task) (f : FaultInfo) (pc : Option Nat) (redo : Bool) {p : Pending}
    (h : t.seq.pendingFault = some p) : t.defer f pc redo = t := by
  simp [Task.defer, h]

/-- A task that a terminal fault has stopped takes no further one. -/
theorem defer_dead (t : Task) (f : FaultInfo) (pc : Option Nat) (redo : Bool) (h : t.seq.state = .dead) : t.defer f pc redo = t := by
  simp [Task.defer, h]

end Sys2Proof.Laws
end

