-- ==== Sys2Proof/Laws/Pieces.lean ====
section
/-! SUPPORT. Reads and writes that go piece by piece with free pauses (R255): what is left over ends them, whatever the free values are. -/

namespace Sys2Proof.Laws
open Sys2Proof.Machine

/-- A read of which nothing is left answers what it holds. -/
@[simp] theorem readOn_done (t : Task) (want : Want) (va n fuel : Nat) (got : List Byte) (s : State) (h : n ≤ got.length) :
    State.readOn t want va n fuel got s = (.ok got, s) := by
  cases fuel <;> simp [State.readOn, h]

/-- A read of which one piece is left takes that piece, and is then whole, with or without the pause behind it. -/
theorem readOn_last (t : Task) (want : Want) (va n fuel : Nat) (got bs : List Byte) (s s' s1 : State) (sp : Span) (hn : got.length < n)
    (ht : s.translate t.xctx want (va + got.length) (min (n - got.length) (32 - (va + got.length) % 32)) = (.ok sp, s'))
    (hr : s'.readSpans t want.unit [sp.unit] (got.isEmpty || sp.place.addr % 64 == 0) = (.ok bs, s1)) (hl : n ≤ got.length + bs.length) :
    State.readOn t want va n (fuel + 1) got s = (.ok (got ++ bs), s1.choose.2) := by
  have hd : n ≤ (got ++ bs).length := by simpa using hl
  simp only [State.readOn, if_neg (Nat.not_le.mpr hn), ht, hr]
  split
  · rfl
  · exact readOn_done _ _ _ _ _ _ _ hd

/-- A write of which nothing is left answers what it has written. -/
@[simp] theorem writeOn_done (t : Task) (unit : Nat) (place : State → Nat → Nat → Except MemFail Span × State) (va : Nat) (bs : List Byte)
    (fuel k : Nat) (s : State) (h : bs.length ≤ k) : State.writeOn t unit place va bs fuel k s = (.ok k, k, s) := by
  cases fuel <;> simp [State.writeOn, h]

/-- A write of which one piece is left writes that piece, and is then whole. -/
theorem writeOn_last (t : Task) (unit : Nat) (place : State → Nat → Nat → Except MemFail Span × State) (va : Nat) (bs : List Byte)
    (fuel k : Nat) (s s' s1 : State) (sp : Span) (hn : k < bs.length)
    (ht : place s (va + k) (min (bs.length - k) (32 - (va + k) % 32)) = (.ok sp, s'))
    (hr : s'.writeSpan t unit sp.unit ((bs.drop k).take sp.unit.len) (k == 0 || sp.place.addr % 64 == 0) = (.ok (), s1))
    (hl : bs.length ≤ k + sp.unit.len) :
    State.writeOn t unit place va bs (fuel + 1) k s = (.ok (k + sp.unit.len), k + sp.unit.len, s1.choose.2) := by
  simp only [State.writeOn, if_neg (Nat.not_le.mpr hn), ht, hr]
  split
  · rfl
  · exact writeOn_done _ _ _ _ _ _ _ _ hl

end Sys2Proof.Laws
end

