-- ==== Sys2Proof/Laws/Runs.lean ====
section
/-! SUPPORT. Run lists read element by element: what each operation on runs does to the values that a register holds. -/

namespace Sys2Proof.Laws
open Sys2Proof.Machine

variable {α β γ : Type}

@[simp] theorem flat_nil : flat ([] : Machine.Runs α) = [] := rfl
@[simp] theorem flat_cons (v : α) (c : Nat) (r : Machine.Runs α) : flat ((v, c) :: r) = List.replicate c v ++ flat r := rfl

@[simp] theorem flat_append (r t : Machine.Runs α) : flat (r ++ t) = flat r ++ flat t := by
  induction r with
  | nil => rfl
  | cons p r ih => obtain ⟨v, c⟩ := p; simp [ih]

/-- The logical length is the number of values. -/
theorem length_flat (r : Machine.Runs α) : (flat r).length = runLen r := by
  induction r with
  | nil => rfl
  | cons p r ih => obtain ⟨v, c⟩ := p; simp [runLen, ih]

@[simp] theorem flat_units (l : List α) : flat (units l) = l := by
  induction l with
  | nil => rfl
  | cons v l ih => simpa [units] using ih

@[simp] theorem flat_mapRuns (f : α → β) (r : Machine.Runs α) : flat (mapRuns f r) = (flat r).map f := by
  induction r with
  | nil => rfl
  | cons p r ih =>
    obtain ⟨v, c⟩ := p
    simp only [mapRuns] at ih
    simp [mapRuns, ih]

/-- Joining equal neighbours keeps every value. -/
@[simp] theorem flat_canon [DecidableEq α] (r : Machine.Runs α) : flat (canon r) = flat r := by
  induction r with
  | nil => rfl
  | cons p r ih =>
    obtain ⟨v, c⟩ := p
    simp only [canon, flat_cons, ← ih]
    cases h : canon r with
    | nil => simp
    | cons q t =>
      obtain ⟨w, e⟩ := q
      dsimp only
      split
      · rename_i hvw
        subst hvw
        simp only [flat_cons, List.replicate_add, List.append_assoc]
      · simp

/-- After joining, no two neighbouring runs have one value. -/
theorem canon_neighbours [DecidableEq α] (r : Machine.Runs α) : (canon r).IsChain fun p q => p.1 ≠ q.1 := by
  induction r with
  | nil => simp [canon]
  | cons p r ih =>
    obtain ⟨v, c⟩ := p
    simp only [canon]
    cases h : canon r with
    | nil => simp
    | cons q t =>
      rw [h] at ih
      obtain ⟨w, e⟩ := q
      dsimp only
      split
      · rename_i hvw
        subst hvw
        cases t with
        | nil => simp
        | cons u t => simpa [List.isChain_cons_cons] using ih
      · rename_i hvw
        exact List.isChain_cons_cons.2 ⟨hvw, ih⟩

/-- Values of pieces, without their flags. -/
def pieceRuns (l : List (Piece α)) : Machine.Runs α := l.map fun p => (p.1, p.2.1)

/-- Joining pieces joins their values as `canon` does. -/
theorem pieceRuns_canonF [DecidableEq α] (l : List (Piece α)) : pieceRuns (canonF l) = canon (pieceRuns l) := by
  induction l with
  | nil => rfl
  | cons p l ih =>
    obtain ⟨v, c, f⟩ := p
    have hc : canon (pieceRuns ((v, c, f) :: l)) = match canon (pieceRuns l) with
      | [] => [(v, c)]
      | (w, e) :: t => if v = w then (v, c + e) :: t else (v, c) :: (w, e) :: t := rfl
    rw [hc, ← ih]
    simp only [canonF]
    cases canonF l with
    | nil => rfl
    | cons q t =>
      obtain ⟨w, e, g⟩ := q
      dsimp only [pieceRuns, List.map_cons]
      split <;> simp_all

/-- Joined pieces hold the values of the pieces. -/
theorem flat_canonF [DecidableEq α] (l : List (Piece α)) : flat (pieceRuns (canonF l)) = flat (pieceRuns l) := by
  rw [pieceRuns_canonF, flat_canon]

/-- A run list cut or padded holds its first `n` values, then the padding. -/
theorem flat_fitLen (d : α) (n : Nat) (r : Machine.Runs α) :
    flat (fitLen d n r) = (flat r).take n ++ List.replicate (n - runLen r) d := by
  induction r generalizing n with
  | nil => cases n <;> simp [fitLen, runLen]
  | cons p r ih =>
    obtain ⟨v, c⟩ := p
    cases n with
    | zero => simp [fitLen]
    | succ n =>
      simp only [fitLen, runLen, flat_cons]
      split
      · rename_i h
        have : n + 1 - (c + runLen r) = 0 := by omega
        simp [this, List.take_append, List.take_replicate, Nat.min_eq_left h, Nat.sub_eq_zero_of_le h]
      · rename_i h
        have e : n + 1 - c - runLen r = n + 1 - (c + runLen r) := by omega
        have m : min (n + 1) c = c := by omega
        simp [ih, e, m, List.take_append, List.take_replicate]

/-- A fitted run list has exactly the wanted length. -/
@[simp] theorem runLen_fitLen (d : α) (n : Nat) (r : Machine.Runs α) : runLen (fitLen d n r) = n := by
  rw [← length_flat, flat_fitLen, List.length_append, List.length_take, length_flat, List.length_replicate]
  omega

theorem zip_replicate_append {a : α} {b : β} {c : Nat} {x : List α} {y : List β} :
    List.zip (List.replicate c a ++ x) (List.replicate c b ++ y) = List.replicate c (a, b) ++ List.zip x y := by
  induction c with
  | zero => simp
  | succ c ih => simp [List.replicate_succ, ih]

/-- Aligned run lists hold the pairs of values, as long as there is fuel for every run. -/
theorem flat_zipRuns (n : Nat) (x : Machine.Runs α) (y : Machine.Runs β) (h : x.length + y.length ≤ n) :
    flat (zipRuns n x y) = List.zip (flat x) (flat y) := by
  induction n generalizing x y with
  | zero =>
    have : x = [] := List.length_eq_zero_iff.1 (by omega)
    simp [this, zipRuns]
  | succ n ih =>
    match x, y with
    | [], _ => simp [zipRuns]
    | _ :: _, [] => simp [zipRuns]
    | (a, c) :: x, (b, e) :: y =>
      simp only [List.length_cons] at h
      simp only [zipRuns]
      split
      · rename_i hlt
        rw [flat_cons, ih _ _ (by simp only [List.length_cons]; omega)]
        simp only [flat_cons]
        rw [show e = c + (e - c) by omega, List.replicate_add, List.append_assoc, zip_replicate_append,
          show c + (e - c) - c = e - c by omega]
      · split
        · rename_i h1 hlt
          rw [flat_cons, ih _ _ (by simp only [List.length_cons]; omega)]
          simp only [flat_cons]
          rw [show c = e + (c - e) by omega, List.replicate_add, List.append_assoc, zip_replicate_append,
            show e + (c - e) - e = c - e by omega]
        · have : c = e := by omega
          subst this
          rw [flat_cons, ih _ _ (by omega), flat_cons, flat_cons, zip_replicate_append]

/-- Alignment pairs the values position by position. -/
@[simp] theorem flat_zipR (x : Machine.Runs α) (y : Machine.Runs β) : flat (zipR x y) = List.zip (flat x) (flat y) :=
  flat_zipRuns _ x y (Nat.le_refl _)

/-- The value at a position, read from the list of values. -/
theorem runAt_eq (d : α) (r : Machine.Runs α) (p : Nat) : runAt d r p = ((flat r)[p]?).getD d := by
  induction r generalizing p with
  | nil => simp [runAt]
  | cons q r ih =>
    obtain ⟨v, c⟩ := q
    simp only [runAt, flat_cons]
    split
    · rename_i h
      rw [List.getElem?_append_left (by simpa using h)]
      simp [h]
    · rename_i h
      rw [ih, List.getElem?_append_right (by simpa using Nat.le_of_not_lt h)]
      simp

theorem flat_dropLen (n : Nat) (r : Machine.Runs α) : flat (dropLen n r) = (flat r).drop n := by
  induction r generalizing n with
  | nil => simp [dropLen]
  | cons p r ih =>
    obtain ⟨v, c⟩ := p
    simp only [dropLen]
    split
    · rename_i h; simp [h]
    · split
      · rename_i h
        simp [List.drop_append, List.drop_replicate, Nat.sub_eq_zero_of_le (Nat.le_of_lt h)]
      · rename_i h
        rw [ih, flat_cons, List.drop_append]
        simp [Nat.sub_eq_zero_of_le (Nat.le_of_not_lt h)]

theorem flat_takeLen (n : Nat) (r : Machine.Runs α) : flat (takeLen n r) = (flat r).take n := by
  induction r generalizing n with
  | nil => simp [takeLen]
  | cons p r ih =>
    obtain ⟨v, c⟩ := p
    simp only [takeLen]
    split
    · rename_i h; simp [h]
    · split
      · rename_i h
        simp [List.take_append, List.take_replicate, Nat.min_eq_left (Nat.le_of_lt h), Nat.sub_eq_zero_of_le (Nat.le_of_lt h)]
      · rename_i h
        rw [flat_cons, flat_cons, ih, List.take_append]
        simp [List.take_replicate, Nat.min_eq_right (Nat.le_of_not_lt h)]

/-- A mask of a length has that length. -/
@[simp] theorem runLen_mask (c : Cluster) (k : BitVec 3) (n : Nat) : runLen (c.mask k n) = n := by
  unfold Cluster.mask
  split <;> exact runLen_fitLen ..

end Sys2Proof.Laws
end

