-- ==== Sys2Proof/Laws/State.lean ====
section
/-! SUPPORT. What each named update of the state writes and what it leaves, field by field, so that no proof unfolds a record update. -/

namespace Sys2Proof.Laws
open Sys2Proof.Machine

variable (s : State)

/-! ### modSeq -/

@[simp] theorem modSeq_clk (f : Seq → Seq) : (s.modSeq f).clk = s.clk := rfl
@[simp] theorem modSeq_parked (f : Seq → Seq) : (s.modSeq f).parked = s.parked := rfl
@[simp] theorem modSeq_mem (f : Seq → Seq) : (s.modSeq f).mem = s.mem := rfl
@[simp] theorem modSeq_sched (f : Seq → Seq) : (s.modSeq f).sched = s.sched := rfl
@[simp] theorem modSeq_plc (f : Seq → Seq) : (s.modSeq f).plc = s.plc := rfl
@[simp] theorem modSeq_env (f : Seq → Seq) : (s.modSeq f).env = s.env := rfl
@[simp] theorem modSeq_net (f : Seq → Seq) : (s.modSeq f).net = s.net := rfl
@[simp] theorem modSeq_obs (f : Seq → Seq) : (s.modSeq f).obs = s.obs := rfl
@[simp] theorem modSeq_mgmt (f : Seq → Seq) : (s.modSeq f).mgmt = s.mgmt := rfl
@[simp] theorem modSeq_cur_bnd (f : Seq → Seq) : (s.modSeq f).cur.bnd = s.cur.bnd := rfl
@[simp] theorem modSeq_cur_seq (f : Seq → Seq) : (s.modSeq f).cur.seq = f s.cur.seq := rfl
@[simp] theorem modSeq_cur_reg (f : Seq → Seq) : (s.modSeq f).cur.reg = s.cur.reg := rfl
@[simp] theorem modSeq_cur_cl (f : Seq → Seq) : (s.modSeq f).cur.cl = s.cur.cl := rfl
@[simp] theorem modSeq_cur_smem (f : Seq → Seq) : (s.modSeq f).cur.smem = s.cur.smem := rfl
@[simp] theorem modSeq_cur_rings (f : Seq → Seq) : (s.modSeq f).cur.rings = s.cur.rings := rfl
@[simp] theorem modSeq_cur_eng (f : Seq → Seq) : (s.modSeq f).cur.eng = s.cur.eng := rfl
@[simp] theorem modSeq_cur_mark (f : Seq → Seq) : (s.modSeq f).cur.mark = s.cur.mark := rfl
@[simp] theorem modSeq_cur_area (f : Seq → Seq) : (s.modSeq f).cur.area = s.cur.area := rfl
@[simp] theorem modSeq_cur_watch (f : Seq → Seq) : (s.modSeq f).cur.watch = s.cur.watch := rfl

/-! ### modReg -/

@[simp] theorem modReg_clk (f : Regs → Regs) : (s.modReg f).clk = s.clk := rfl
@[simp] theorem modReg_parked (f : Regs → Regs) : (s.modReg f).parked = s.parked := rfl
@[simp] theorem modReg_mem (f : Regs → Regs) : (s.modReg f).mem = s.mem := rfl
@[simp] theorem modReg_sched (f : Regs → Regs) : (s.modReg f).sched = s.sched := rfl
@[simp] theorem modReg_plc (f : Regs → Regs) : (s.modReg f).plc = s.plc := rfl
@[simp] theorem modReg_env (f : Regs → Regs) : (s.modReg f).env = s.env := rfl
@[simp] theorem modReg_net (f : Regs → Regs) : (s.modReg f).net = s.net := rfl
@[simp] theorem modReg_obs (f : Regs → Regs) : (s.modReg f).obs = s.obs := rfl
@[simp] theorem modReg_mgmt (f : Regs → Regs) : (s.modReg f).mgmt = s.mgmt := rfl
@[simp] theorem modReg_cur_bnd (f : Regs → Regs) : (s.modReg f).cur.bnd = s.cur.bnd := rfl
@[simp] theorem modReg_cur_seq (f : Regs → Regs) : (s.modReg f).cur.seq = s.cur.seq := rfl
@[simp] theorem modReg_cur_reg (f : Regs → Regs) : (s.modReg f).cur.reg = f s.cur.reg := rfl
@[simp] theorem modReg_cur_cl (f : Regs → Regs) : (s.modReg f).cur.cl = s.cur.cl := rfl
@[simp] theorem modReg_cur_smem (f : Regs → Regs) : (s.modReg f).cur.smem = s.cur.smem := rfl
@[simp] theorem modReg_cur_rings (f : Regs → Regs) : (s.modReg f).cur.rings = s.cur.rings := rfl
@[simp] theorem modReg_cur_eng (f : Regs → Regs) : (s.modReg f).cur.eng = s.cur.eng := rfl
@[simp] theorem modReg_cur_mark (f : Regs → Regs) : (s.modReg f).cur.mark = s.cur.mark := rfl
@[simp] theorem modReg_cur_area (f : Regs → Regs) : (s.modReg f).cur.area = s.cur.area := rfl
@[simp] theorem modReg_cur_watch (f : Regs → Regs) : (s.modReg f).cur.watch = s.cur.watch := rfl

/-! ### modEng -/

@[simp] theorem modEng_clk (f : Engines → Engines) : (s.modEng f).clk = s.clk := rfl
@[simp] theorem modEng_parked (f : Engines → Engines) : (s.modEng f).parked = s.parked := rfl
@[simp] theorem modEng_mem (f : Engines → Engines) : (s.modEng f).mem = s.mem := rfl
@[simp] theorem modEng_sched (f : Engines → Engines) : (s.modEng f).sched = s.sched := rfl
@[simp] theorem modEng_plc (f : Engines → Engines) : (s.modEng f).plc = s.plc := rfl
@[simp] theorem modEng_env (f : Engines → Engines) : (s.modEng f).env = s.env := rfl
@[simp] theorem modEng_net (f : Engines → Engines) : (s.modEng f).net = s.net := rfl
@[simp] theorem modEng_obs (f : Engines → Engines) : (s.modEng f).obs = s.obs := rfl
@[simp] theorem modEng_mgmt (f : Engines → Engines) : (s.modEng f).mgmt = s.mgmt := rfl
@[simp] theorem modEng_cur_bnd (f : Engines → Engines) : (s.modEng f).cur.bnd = s.cur.bnd := rfl
@[simp] theorem modEng_cur_seq (f : Engines → Engines) : (s.modEng f).cur.seq = s.cur.seq := rfl
@[simp] theorem modEng_cur_reg (f : Engines → Engines) : (s.modEng f).cur.reg = s.cur.reg := rfl
@[simp] theorem modEng_cur_cl (f : Engines → Engines) : (s.modEng f).cur.cl = s.cur.cl := rfl
@[simp] theorem modEng_cur_smem (f : Engines → Engines) : (s.modEng f).cur.smem = s.cur.smem := rfl
@[simp] theorem modEng_cur_rings (f : Engines → Engines) : (s.modEng f).cur.rings = s.cur.rings := rfl
@[simp] theorem modEng_cur_eng (f : Engines → Engines) : (s.modEng f).cur.eng = f s.cur.eng := rfl
@[simp] theorem modEng_cur_mark (f : Engines → Engines) : (s.modEng f).cur.mark = s.cur.mark := rfl
@[simp] theorem modEng_cur_area (f : Engines → Engines) : (s.modEng f).cur.area = s.cur.area := rfl
@[simp] theorem modEng_cur_watch (f : Engines → Engines) : (s.modEng f).cur.watch = s.cur.watch := rfl

/-! ### push -/

@[simp] theorem push_clk (l : Landing) : (s.push l).clk = s.clk := rfl
@[simp] theorem push_parked (l : Landing) : (s.push l).parked = s.parked := rfl
@[simp] theorem push_mem (l : Landing) : (s.push l).mem = s.mem := rfl
@[simp] theorem push_sched (l : Landing) : (s.push l).sched = s.sched := rfl
@[simp] theorem push_plc (l : Landing) : (s.push l).plc = s.plc := rfl
@[simp] theorem push_env (l : Landing) : (s.push l).env = s.env := rfl
@[simp] theorem push_net (l : Landing) : (s.push l).net = s.net := rfl
@[simp] theorem push_obs (l : Landing) : (s.push l).obs = s.obs := rfl
@[simp] theorem push_mgmt (l : Landing) : (s.push l).mgmt = s.mgmt := rfl
@[simp] theorem push_cur_bnd (l : Landing) : (s.push l).cur.bnd = s.cur.bnd := rfl
@[simp] theorem push_cur_seq (l : Landing) : (s.push l).cur.seq = { s.cur.seq with inflight := s.cur.seq.inflight ++ [l] } := rfl
@[simp] theorem push_cur_reg (l : Landing) : (s.push l).cur.reg = s.cur.reg := rfl
@[simp] theorem push_cur_cl (l : Landing) : (s.push l).cur.cl = s.cur.cl := rfl
@[simp] theorem push_cur_smem (l : Landing) : (s.push l).cur.smem = s.cur.smem := rfl
@[simp] theorem push_cur_rings (l : Landing) : (s.push l).cur.rings = s.cur.rings := rfl
@[simp] theorem push_cur_eng (l : Landing) : (s.push l).cur.eng = s.cur.eng := rfl
@[simp] theorem push_cur_mark (l : Landing) : (s.push l).cur.mark = s.cur.mark := rfl
@[simp] theorem push_cur_area (l : Landing) : (s.push l).cur.area = s.cur.area := rfl
@[simp] theorem push_cur_watch (l : Landing) : (s.push l).cur.watch = s.cur.watch := rfl

/-! ### block -/

@[simp] theorem block_clk : (s.block).clk = s.clk := rfl
@[simp] theorem block_parked : (s.block).parked = s.parked := rfl
@[simp] theorem block_mem : (s.block).mem = s.mem := rfl
@[simp] theorem block_sched : (s.block).sched = s.sched := rfl
@[simp] theorem block_plc : (s.block).plc = s.plc := rfl
@[simp] theorem block_env : (s.block).env = s.env := rfl
@[simp] theorem block_net : (s.block).net = s.net := rfl
@[simp] theorem block_obs : (s.block).obs = s.obs := rfl
@[simp] theorem block_mgmt : (s.block).mgmt = s.mgmt := rfl
@[simp] theorem block_cur_bnd : (s.block).cur.bnd = s.cur.bnd := rfl
@[simp] theorem block_cur_seq :
    (s.block).cur.seq = { s.cur.seq with blocked := true, lockFrom := some (s.cur.seq.lockFrom.getD s.clk.tick) } := rfl
@[simp] theorem block_cur_reg : (s.block).cur.reg = s.cur.reg := rfl
@[simp] theorem block_cur_cl : (s.block).cur.cl = s.cur.cl := rfl
@[simp] theorem block_cur_smem : (s.block).cur.smem = s.cur.smem := rfl
@[simp] theorem block_cur_rings : (s.block).cur.rings = s.cur.rings := rfl
@[simp] theorem block_cur_eng : (s.block).cur.eng = s.cur.eng := rfl
@[simp] theorem block_cur_mark : (s.block).cur.mark = s.cur.mark := rfl
@[simp] theorem block_cur_area : (s.block).cur.area = s.cur.area := rfl
@[simp] theorem block_cur_watch : (s.block).cur.watch = s.cur.watch := rfl

/-! ### modWatch -/

@[simp] theorem modWatch_clk (f : Watch → Watch) : (s.modWatch f).clk = s.clk := rfl
@[simp] theorem modWatch_parked (f : Watch → Watch) : (s.modWatch f).parked = s.parked := rfl
@[simp] theorem modWatch_mem (f : Watch → Watch) : (s.modWatch f).mem = s.mem := rfl
@[simp] theorem modWatch_sched (f : Watch → Watch) : (s.modWatch f).sched = s.sched := rfl
@[simp] theorem modWatch_plc (f : Watch → Watch) : (s.modWatch f).plc = s.plc := rfl
@[simp] theorem modWatch_env (f : Watch → Watch) : (s.modWatch f).env = s.env := rfl
@[simp] theorem modWatch_net (f : Watch → Watch) : (s.modWatch f).net = s.net := rfl
@[simp] theorem modWatch_obs (f : Watch → Watch) : (s.modWatch f).obs = s.obs := rfl
@[simp] theorem modWatch_mgmt (f : Watch → Watch) : (s.modWatch f).mgmt = s.mgmt := rfl
@[simp] theorem modWatch_cur_bnd (f : Watch → Watch) : (s.modWatch f).cur.bnd = s.cur.bnd := rfl
@[simp] theorem modWatch_cur_seq (f : Watch → Watch) : (s.modWatch f).cur.seq = s.cur.seq := rfl
@[simp] theorem modWatch_cur_reg (f : Watch → Watch) : (s.modWatch f).cur.reg = s.cur.reg := rfl
@[simp] theorem modWatch_cur_cl (f : Watch → Watch) : (s.modWatch f).cur.cl = s.cur.cl := rfl
@[simp] theorem modWatch_cur_smem (f : Watch → Watch) : (s.modWatch f).cur.smem = s.cur.smem := rfl
@[simp] theorem modWatch_cur_rings (f : Watch → Watch) : (s.modWatch f).cur.rings = s.cur.rings := rfl
@[simp] theorem modWatch_cur_eng (f : Watch → Watch) : (s.modWatch f).cur.eng = s.cur.eng := rfl
@[simp] theorem modWatch_cur_mark (f : Watch → Watch) : (s.modWatch f).cur.mark = s.cur.mark := rfl
@[simp] theorem modWatch_cur_area (f : Watch → Watch) : (s.modWatch f).cur.area = s.cur.area := rfl
@[simp] theorem modWatch_cur_watch (f : Watch → Watch) : (s.modWatch f).cur.watch = f s.cur.watch := rfl

/-! ### hold -/

@[simp] theorem hold_clk : (s.hold).clk = s.clk := rfl
@[simp] theorem hold_parked : (s.hold).parked = s.parked := rfl
@[simp] theorem hold_mem : (s.hold).mem = s.mem := rfl
@[simp] theorem hold_sched : (s.hold).sched = s.sched := rfl
@[simp] theorem hold_plc : (s.hold).plc = s.plc := rfl
@[simp] theorem hold_env : (s.hold).env = s.env := rfl
@[simp] theorem hold_net : (s.hold).net = s.net := rfl
@[simp] theorem hold_obs : (s.hold).obs = s.obs := rfl
@[simp] theorem hold_mgmt : (s.hold).mgmt = s.mgmt := rfl
@[simp] theorem hold_cur_bnd : (s.hold).cur.bnd = s.cur.bnd := rfl
@[simp] theorem hold_cur_seq : (s.hold).cur.seq = { s.cur.seq with state := .held } := rfl
@[simp] theorem hold_cur_reg : (s.hold).cur.reg = s.cur.reg := rfl
@[simp] theorem hold_cur_cl : (s.hold).cur.cl = s.cur.cl := rfl
@[simp] theorem hold_cur_smem : (s.hold).cur.smem = s.cur.smem := rfl
@[simp] theorem hold_cur_rings : (s.hold).cur.rings = s.cur.rings := rfl
@[simp] theorem hold_cur_eng : (s.hold).cur.eng = s.cur.eng := rfl
@[simp] theorem hold_cur_mark : (s.hold).cur.mark = s.cur.mark := rfl
@[simp] theorem hold_cur_area : (s.hold).cur.area = s.cur.area := rfl
@[simp] theorem hold_cur_watch : (s.hold).cur.watch = s.cur.watch := rfl

/-! ### addWait -/

@[simp] theorem addWait_clk (w : Wait) : (s.addWait w).clk = s.clk := rfl
@[simp] theorem addWait_parked (w : Wait) : (s.addWait w).parked = s.parked := rfl
@[simp] theorem addWait_mem (w : Wait) : (s.addWait w).mem = s.mem := rfl
@[simp] theorem addWait_sched (w : Wait) : (s.addWait w).sched = s.sched := rfl
@[simp] theorem addWait_plc (w : Wait) : (s.addWait w).plc = s.plc := rfl
@[simp] theorem addWait_env (w : Wait) : (s.addWait w).env = s.env := rfl
@[simp] theorem addWait_net (w : Wait) : (s.addWait w).net = s.net := rfl
@[simp] theorem addWait_obs (w : Wait) : (s.addWait w).obs = s.obs := rfl
@[simp] theorem addWait_mgmt (w : Wait) : (s.addWait w).mgmt = s.mgmt := rfl
@[simp] theorem addWait_cur_bnd (w : Wait) : (s.addWait w).cur.bnd = s.cur.bnd := rfl
@[simp] theorem addWait_cur_reg (w : Wait) : (s.addWait w).cur.reg = s.cur.reg := rfl
@[simp] theorem addWait_cur_cl (w : Wait) : (s.addWait w).cur.cl = s.cur.cl := rfl
@[simp] theorem addWait_cur_smem (w : Wait) : (s.addWait w).cur.smem = s.cur.smem := rfl
@[simp] theorem addWait_cur_rings (w : Wait) : (s.addWait w).cur.rings = s.cur.rings := rfl
@[simp] theorem addWait_cur_eng (w : Wait) : (s.addWait w).cur.eng = s.cur.eng := rfl
@[simp] theorem addWait_cur_mark (w : Wait) : (s.addWait w).cur.mark = s.cur.mark := rfl
@[simp] theorem addWait_cur_area (w : Wait) : (s.addWait w).cur.area = s.cur.area := rfl
@[simp] theorem addWait_cur_watch (w : Wait) : (s.addWait w).cur.watch = s.cur.watch := rfl
@[simp] theorem addWait_cur_seq_state (w : Wait) : (s.addWait w).cur.seq.state = s.cur.seq.state := rfl
@[simp] theorem addWait_cur_seq_pc (w : Wait) : (s.addWait w).cur.seq.pc = s.cur.seq.pc := rfl
@[simp] theorem addWait_cur_seq_scyc (w : Wait) : (s.addWait w).cur.seq.scyc = s.cur.seq.scyc := rfl
@[simp] theorem addWait_cur_seq_dcyc (w : Wait) : (s.addWait w).cur.seq.dcyc = s.cur.seq.dcyc := rfl
@[simp] theorem addWait_cur_seq_inflight (w : Wait) : (s.addWait w).cur.seq.inflight = s.cur.seq.inflight := rfl
@[simp] theorem addWait_cur_seq_branch (w : Wait) : (s.addWait w).cur.seq.branch = s.cur.seq.branch := rfl
@[simp] theorem addWait_cur_seq_rep (w : Wait) : (s.addWait w).cur.seq.rep = s.cur.seq.rep := rfl
@[simp] theorem addWait_cur_seq_waits (w : Wait) : (s.addWait w).cur.seq.waits = s.cur.seq.waits ++ [w] := rfl
@[simp] theorem addWait_cur_seq_waitPc (w : Wait) : (s.addWait w).cur.seq.waitPc = s.cur.seq.pc := rfl
@[simp] theorem addWait_cur_seq_waitScyc (w : Wait) : (s.addWait w).cur.seq.waitScyc = s.cur.seq.scyc := rfl
@[simp] theorem addWait_cur_seq_freeAt (w : Wait) : (s.addWait w).cur.seq.freeAt = s.cur.seq.freeAt := rfl
@[simp] theorem addWait_cur_seq_blocked (w : Wait) : (s.addWait w).cur.seq.blocked = s.cur.seq.blocked := rfl
@[simp] theorem addWait_cur_seq_lockFrom (w : Wait) : (s.addWait w).cur.seq.lockFrom = s.cur.seq.lockFrom := rfl
@[simp] theorem addWait_cur_seq_lastPc (w : Wait) : (s.addWait w).cur.seq.lastPc = s.cur.seq.lastPc := rfl
@[simp] theorem addWait_cur_seq_resumed (w : Wait) : (s.addWait w).cur.seq.resumed = s.cur.seq.resumed := rfl
@[simp] theorem addWait_cur_seq_flush (w : Wait) : (s.addWait w).cur.seq.flush = s.cur.seq.flush := rfl
@[simp] theorem addWait_cur_seq_lastFault (w : Wait) : (s.addWait w).cur.seq.lastFault = s.cur.seq.lastFault := rfl
@[simp] theorem addWait_cur_seq_saved (w : Wait) : (s.addWait w).cur.seq.saved = s.cur.seq.saved := rfl
@[simp] theorem addWait_cur_seq_hnd (w : Wait) : (s.addWait w).cur.seq.hnd = s.cur.seq.hnd := rfl
@[simp] theorem addWait_cur_seq_trapPcSet (w : Wait) : (s.addWait w).cur.seq.trapPcSet = s.cur.seq.trapPcSet := rfl
@[simp] theorem addWait_cur_seq_pendingFault (w : Wait) : (s.addWait w).cur.seq.pendingFault = s.cur.seq.pendingFault := rfl
@[simp] theorem addWait_cur_seq_pendingForced (w : Wait) : (s.addWait w).cur.seq.pendingForced = s.cur.seq.pendingForced := rfl

/-! ### branchTo -/

@[simp] theorem branchTo_clk (target : Nat) (taken : Bool) (kind : BranchKind) : (s.branchTo target taken kind).clk = s.clk := rfl
@[simp] theorem branchTo_parked (target : Nat) (taken : Bool) (kind : BranchKind) : (s.branchTo target taken kind).parked = s.parked := rfl
@[simp] theorem branchTo_mem (target : Nat) (taken : Bool) (kind : BranchKind) : (s.branchTo target taken kind).mem = s.mem := rfl
@[simp] theorem branchTo_sched (target : Nat) (taken : Bool) (kind : BranchKind) : (s.branchTo target taken kind).sched = s.sched := rfl
@[simp] theorem branchTo_plc (target : Nat) (taken : Bool) (kind : BranchKind) : (s.branchTo target taken kind).plc = s.plc := rfl
@[simp] theorem branchTo_env (target : Nat) (taken : Bool) (kind : BranchKind) : (s.branchTo target taken kind).env = s.env := rfl
@[simp] theorem branchTo_net (target : Nat) (taken : Bool) (kind : BranchKind) : (s.branchTo target taken kind).net = s.net := rfl
@[simp] theorem branchTo_obs (target : Nat) (taken : Bool) (kind : BranchKind) : (s.branchTo target taken kind).obs = s.obs := rfl
@[simp] theorem branchTo_mgmt (target : Nat) (taken : Bool) (kind : BranchKind) : (s.branchTo target taken kind).mgmt = s.mgmt := rfl
@[simp] theorem branchTo_cur_bnd (target : Nat) (taken : Bool) (kind : BranchKind) :
    (s.branchTo target taken kind).cur.bnd = s.cur.bnd := rfl
@[simp] theorem branchTo_cur_seq (target : Nat) (taken : Bool) (kind : BranchKind) :
    (s.branchTo target taken kind).cur.seq = { s.cur.seq with branch := some { target := target, taken := taken, left := 3, kind := kind } } := rfl
@[simp] theorem branchTo_cur_reg (target : Nat) (taken : Bool) (kind : BranchKind) :
    (s.branchTo target taken kind).cur.reg = s.cur.reg := rfl
@[simp] theorem branchTo_cur_cl (target : Nat) (taken : Bool) (kind : BranchKind) : (s.branchTo target taken kind).cur.cl = s.cur.cl := rfl
@[simp] theorem branchTo_cur_smem (target : Nat) (taken : Bool) (kind : BranchKind) :
    (s.branchTo target taken kind).cur.smem = s.cur.smem := rfl
@[simp] theorem branchTo_cur_rings (target : Nat) (taken : Bool) (kind : BranchKind) :
    (s.branchTo target taken kind).cur.rings = s.cur.rings := rfl
@[simp] theorem branchTo_cur_eng (target : Nat) (taken : Bool) (kind : BranchKind) :
    (s.branchTo target taken kind).cur.eng = s.cur.eng := rfl
@[simp] theorem branchTo_cur_mark (target : Nat) (taken : Bool) (kind : BranchKind) :
    (s.branchTo target taken kind).cur.mark = s.cur.mark := rfl
@[simp] theorem branchTo_cur_area (target : Nat) (taken : Bool) (kind : BranchKind) :
    (s.branchTo target taken kind).cur.area = s.cur.area := rfl
@[simp] theorem branchTo_cur_watch (target : Nat) (taken : Bool) (kind : BranchKind) :
    (s.branchTo target taken kind).cur.watch = s.cur.watch := rfl

/-! ### modLaunch -/

@[simp] theorem modLaunch_clk (id : Nat) (f : Launch → Launch) : (s.modLaunch id f).clk = s.clk := rfl
@[simp] theorem modLaunch_cur (id : Nat) (f : Launch → Launch) : (s.modLaunch id f).cur = s.cur := rfl
@[simp] theorem modLaunch_parked (id : Nat) (f : Launch → Launch) : (s.modLaunch id f).parked = s.parked := rfl
@[simp] theorem modLaunch_mem (id : Nat) (f : Launch → Launch) : (s.modLaunch id f).mem = s.mem := rfl
@[simp] theorem modLaunch_plc (id : Nat) (f : Launch → Launch) : (s.modLaunch id f).plc = s.plc := rfl
@[simp] theorem modLaunch_env (id : Nat) (f : Launch → Launch) : (s.modLaunch id f).env = s.env := rfl
@[simp] theorem modLaunch_net (id : Nat) (f : Launch → Launch) : (s.modLaunch id f).net = s.net := rfl
@[simp] theorem modLaunch_obs (id : Nat) (f : Launch → Launch) : (s.modLaunch id f).obs = s.obs := rfl
@[simp] theorem modLaunch_mgmt (id : Nat) (f : Launch → Launch) : (s.modLaunch id f).mgmt = s.mgmt := rfl
@[simp] theorem modLaunch_sched_doorbells (id : Nat) (f : Launch → Launch) : (s.modLaunch id f).sched.doorbells = s.sched.doorbells := rfl
@[simp] theorem modLaunch_sched_launches (id : Nat) (f : Launch → Launch) :
    (s.modLaunch id f).sched.launches = s.sched.launches.map fun l => if l.id = id then f l else l := rfl
@[simp] theorem modLaunch_sched_nextId (id : Nat) (f : Launch → Launch) : (s.modLaunch id f).sched.nextId = s.sched.nextId := rfl
@[simp] theorem modLaunch_sched_nextGang (id : Nat) (f : Launch → Launch) : (s.modLaunch id f).sched.nextGang = s.sched.nextGang := rfl
@[simp] theorem modLaunch_sched_visited (id : Nat) (f : Launch → Launch) : (s.modLaunch id f).sched.visited = s.sched.visited := rfl
@[simp] theorem modLaunch_sched_deficits (id : Nat) (f : Launch → Launch) : (s.modLaunch id f).sched.deficits = s.sched.deficits := rfl
@[simp] theorem modLaunch_sched_lastPass (id : Nat) (f : Launch → Launch) : (s.modLaunch id f).sched.lastPass = s.sched.lastPass := rfl
@[simp] theorem modLaunch_sched_log (id : Nat) (f : Launch → Launch) : (s.modLaunch id f).sched.log = s.sched.log := rfl
@[simp] theorem modLaunch_sched_everPlaced (id : Nat) (f : Launch → Launch) :
    (s.modLaunch id f).sched.everPlaced = s.sched.everPlaced := rfl
@[simp] theorem modLaunch_sched_clearing (id : Nat) (f : Launch → Launch) : (s.modLaunch id f).sched.clearing = s.sched.clearing := rfl
@[simp] theorem modLaunch_sched_passDue (id : Nat) (f : Launch → Launch) : (s.modLaunch id f).sched.passDue = s.sched.passDue := rfl

/-! ### setDoorbell -/

@[simp] theorem setDoorbell_clk (region : Nat) (d : Doorbell) : (s.setDoorbell region d).clk = s.clk := rfl
@[simp] theorem setDoorbell_cur (region : Nat) (d : Doorbell) : (s.setDoorbell region d).cur = s.cur := rfl
@[simp] theorem setDoorbell_parked (region : Nat) (d : Doorbell) : (s.setDoorbell region d).parked = s.parked := rfl
@[simp] theorem setDoorbell_mem (region : Nat) (d : Doorbell) : (s.setDoorbell region d).mem = s.mem := rfl
@[simp] theorem setDoorbell_plc (region : Nat) (d : Doorbell) : (s.setDoorbell region d).plc = s.plc := rfl
@[simp] theorem setDoorbell_env (region : Nat) (d : Doorbell) : (s.setDoorbell region d).env = s.env := rfl
@[simp] theorem setDoorbell_net (region : Nat) (d : Doorbell) : (s.setDoorbell region d).net = s.net := rfl
@[simp] theorem setDoorbell_obs (region : Nat) (d : Doorbell) : (s.setDoorbell region d).obs = s.obs := rfl
@[simp] theorem setDoorbell_mgmt (region : Nat) (d : Doorbell) : (s.setDoorbell region d).mgmt = s.mgmt := rfl
@[simp] theorem setDoorbell_sched_doorbells (region : Nat) (d : Doorbell) :
    (s.setDoorbell region d).sched.doorbells = tput region d s.sched.doorbells := rfl
@[simp] theorem setDoorbell_sched_launches (region : Nat) (d : Doorbell) : (s.setDoorbell region d).sched.launches = s.sched.launches := rfl
@[simp] theorem setDoorbell_sched_nextId (region : Nat) (d : Doorbell) : (s.setDoorbell region d).sched.nextId = s.sched.nextId := rfl
@[simp] theorem setDoorbell_sched_nextGang (region : Nat) (d : Doorbell) : (s.setDoorbell region d).sched.nextGang = s.sched.nextGang := rfl
@[simp] theorem setDoorbell_sched_visited (region : Nat) (d : Doorbell) : (s.setDoorbell region d).sched.visited = s.sched.visited := rfl
@[simp] theorem setDoorbell_sched_deficits (region : Nat) (d : Doorbell) : (s.setDoorbell region d).sched.deficits = s.sched.deficits := rfl
@[simp] theorem setDoorbell_sched_lastPass (region : Nat) (d : Doorbell) : (s.setDoorbell region d).sched.lastPass = s.sched.lastPass := rfl
@[simp] theorem setDoorbell_sched_log (region : Nat) (d : Doorbell) : (s.setDoorbell region d).sched.log = s.sched.log := rfl
@[simp] theorem setDoorbell_sched_everPlaced (region : Nat) (d : Doorbell) :
    (s.setDoorbell region d).sched.everPlaced = s.sched.everPlaced := rfl
@[simp] theorem setDoorbell_sched_clearing (region : Nat) (d : Doorbell) : (s.setDoorbell region d).sched.clearing = s.sched.clearing := rfl
@[simp] theorem setDoorbell_sched_passDue (region : Nat) (d : Doorbell) : (s.setDoorbell region d).sched.passDue = s.sched.passDue := rfl

/-! ### logEvent -/

@[simp] theorem logEvent_clk (code arg : Nat) : (s.logEvent code arg).clk = s.clk := rfl
@[simp] theorem logEvent_cur (code arg : Nat) : (s.logEvent code arg).cur = s.cur := rfl
@[simp] theorem logEvent_parked (code arg : Nat) : (s.logEvent code arg).parked = s.parked := rfl
@[simp] theorem logEvent_mem (code arg : Nat) : (s.logEvent code arg).mem = s.mem := rfl
@[simp] theorem logEvent_plc (code arg : Nat) : (s.logEvent code arg).plc = s.plc := rfl
@[simp] theorem logEvent_env (code arg : Nat) : (s.logEvent code arg).env = s.env := rfl
@[simp] theorem logEvent_net (code arg : Nat) : (s.logEvent code arg).net = s.net := rfl
@[simp] theorem logEvent_obs (code arg : Nat) : (s.logEvent code arg).obs = s.obs := rfl
@[simp] theorem logEvent_mgmt (code arg : Nat) : (s.logEvent code arg).mgmt = s.mgmt := rfl
@[simp] theorem logEvent_sched_doorbells (code arg : Nat) : (s.logEvent code arg).sched.doorbells = s.sched.doorbells := rfl
@[simp] theorem logEvent_sched_launches (code arg : Nat) : (s.logEvent code arg).sched.launches = s.sched.launches := rfl
@[simp] theorem logEvent_sched_nextId (code arg : Nat) : (s.logEvent code arg).sched.nextId = s.sched.nextId := rfl
@[simp] theorem logEvent_sched_nextGang (code arg : Nat) : (s.logEvent code arg).sched.nextGang = s.sched.nextGang := rfl
@[simp] theorem logEvent_sched_visited (code arg : Nat) : (s.logEvent code arg).sched.visited = s.sched.visited := rfl
@[simp] theorem logEvent_sched_deficits (code arg : Nat) : (s.logEvent code arg).sched.deficits = s.sched.deficits := rfl
@[simp] theorem logEvent_sched_lastPass (code arg : Nat) : (s.logEvent code arg).sched.lastPass = s.sched.lastPass := rfl
@[simp] theorem logEvent_sched_log (code arg : Nat) : (s.logEvent code arg).sched.log = s.sched.log ++ [(code, arg)] := rfl
@[simp] theorem logEvent_sched_everPlaced (code arg : Nat) : (s.logEvent code arg).sched.everPlaced = s.sched.everPlaced := rfl
@[simp] theorem logEvent_sched_clearing (code arg : Nat) : (s.logEvent code arg).sched.clearing = s.sched.clearing := rfl
@[simp] theorem logEvent_sched_passDue (code arg : Nat) : (s.logEvent code arg).sched.passDue = s.sched.passDue := rfl

/-! ### setPstate -/

@[simp] theorem setPstate_clk (ptile v : Nat) : (s.setPstate ptile v).clk = s.clk := rfl
@[simp] theorem setPstate_cur (ptile v : Nat) : (s.setPstate ptile v).cur = s.cur := rfl
@[simp] theorem setPstate_parked (ptile v : Nat) : (s.setPstate ptile v).parked = s.parked := rfl
@[simp] theorem setPstate_mem (ptile v : Nat) : (s.setPstate ptile v).mem = s.mem := rfl
@[simp] theorem setPstate_sched (ptile v : Nat) : (s.setPstate ptile v).sched = s.sched := rfl
@[simp] theorem setPstate_env (ptile v : Nat) : (s.setPstate ptile v).env = s.env := rfl
@[simp] theorem setPstate_net (ptile v : Nat) : (s.setPstate ptile v).net = s.net := rfl
@[simp] theorem setPstate_obs (ptile v : Nat) : (s.setPstate ptile v).obs = s.obs := rfl
@[simp] theorem setPstate_mgmt (ptile v : Nat) : (s.setPstate ptile v).mgmt = s.mgmt := rfl
@[simp] theorem setPstate_plc_remap (ptile v : Nat) : (s.setPstate ptile v).plc.remap = s.plc.remap := rfl
@[simp] theorem setPstate_plc_tstat (ptile v : Nat) : (s.setPstate ptile v).plc.tstat = tput ptile v s.plc.tstat := rfl
@[simp] theorem setPstate_plc_tmap (ptile v : Nat) : (s.setPstate ptile v).plc.tmap = s.plc.tmap := rfl
@[simp] theorem setPstate_plc_chart (ptile v : Nat) : (s.setPstate ptile v).plc.chart = s.plc.chart := rfl
@[simp] theorem setPstate_plc_copies (ptile v : Nat) : (s.setPstate ptile v).plc.copies = s.plc.copies := rfl

/-! ### setRemap -/

@[simp] theorem setRemap_clk (tile : Nat) (e : RemapEntry) : (s.setRemap tile e).clk = s.clk := rfl
@[simp] theorem setRemap_cur (tile : Nat) (e : RemapEntry) : (s.setRemap tile e).cur = s.cur := rfl
@[simp] theorem setRemap_parked (tile : Nat) (e : RemapEntry) : (s.setRemap tile e).parked = s.parked := rfl
@[simp] theorem setRemap_mem (tile : Nat) (e : RemapEntry) : (s.setRemap tile e).mem = s.mem := rfl
@[simp] theorem setRemap_sched (tile : Nat) (e : RemapEntry) : (s.setRemap tile e).sched = s.sched := rfl
@[simp] theorem setRemap_env (tile : Nat) (e : RemapEntry) : (s.setRemap tile e).env = s.env := rfl
@[simp] theorem setRemap_net (tile : Nat) (e : RemapEntry) : (s.setRemap tile e).net = s.net := rfl
@[simp] theorem setRemap_obs (tile : Nat) (e : RemapEntry) : (s.setRemap tile e).obs = s.obs := rfl
@[simp] theorem setRemap_mgmt (tile : Nat) (e : RemapEntry) : (s.setRemap tile e).mgmt = s.mgmt := rfl
@[simp] theorem setRemap_plc_remap (tile : Nat) (e : RemapEntry) : (s.setRemap tile e).plc.remap = tput tile e s.plc.remap := rfl
@[simp] theorem setRemap_plc_tstat (tile : Nat) (e : RemapEntry) : (s.setRemap tile e).plc.tstat = s.plc.tstat := rfl
@[simp] theorem setRemap_plc_tmap (tile : Nat) (e : RemapEntry) : (s.setRemap tile e).plc.tmap = s.plc.tmap := rfl
@[simp] theorem setRemap_plc_chart (tile : Nat) (e : RemapEntry) : (s.setRemap tile e).plc.chart = s.plc.chart := rfl
@[simp] theorem setRemap_plc_copies (tile : Nat) (e : RemapEntry) : (s.setRemap tile e).plc.copies = s.plc.copies := rfl

/-! ### setColumn -/

@[simp] theorem setColumn_clk (px : Nat) (c : Column) : (s.setColumn px c).clk = s.clk := rfl
@[simp] theorem setColumn_cur (px : Nat) (c : Column) : (s.setColumn px c).cur = s.cur := rfl
@[simp] theorem setColumn_parked (px : Nat) (c : Column) : (s.setColumn px c).parked = s.parked := rfl
@[simp] theorem setColumn_mem (px : Nat) (c : Column) : (s.setColumn px c).mem = s.mem := rfl
@[simp] theorem setColumn_sched (px : Nat) (c : Column) : (s.setColumn px c).sched = s.sched := rfl
@[simp] theorem setColumn_plc (px : Nat) (c : Column) : (s.setColumn px c).plc = s.plc := rfl
@[simp] theorem setColumn_net (px : Nat) (c : Column) : (s.setColumn px c).net = s.net := rfl
@[simp] theorem setColumn_obs (px : Nat) (c : Column) : (s.setColumn px c).obs = s.obs := rfl
@[simp] theorem setColumn_mgmt (px : Nat) (c : Column) : (s.setColumn px c).mgmt = s.mgmt := rfl
@[simp] theorem setColumn_env_sensors (px : Nat) (c : Column) : (s.setColumn px c).env.sensors = s.env.sensors := rfl
@[simp] theorem setColumn_env_columns (px : Nat) (c : Column) : (s.setColumn px c).env.columns = tput px c s.env.columns := rfl
@[simp] theorem setColumn_env_pmode (px : Nat) (c : Column) : (s.setColumn px c).env.pmode = s.env.pmode := rfl
@[simp] theorem setColumn_env_pmodeAct (px : Nat) (c : Column) : (s.setColumn px c).env.pmodeAct = s.env.pmodeAct := rfl
@[simp] theorem setColumn_env_refresh (px : Nat) (c : Column) : (s.setColumn px c).env.refresh = s.env.refresh := rfl
@[simp] theorem setColumn_env_hbmHist (px : Nat) (c : Column) : (s.setColumn px c).env.hbmHist = s.env.hbmHist := rfl
@[simp] theorem setColumn_env_towHist (px : Nat) (c : Column) : (s.setColumn px c).env.towHist = s.env.towHist := rfl
@[simp] theorem setColumn_env_retrain (px : Nat) (c : Column) : (s.setColumn px c).env.retrain = s.env.retrain := rfl
@[simp] theorem setColumn_env_rateChange (px : Nat) (c : Column) : (s.setColumn px c).env.rateChange = s.env.rateChange := rfl
@[simp] theorem setColumn_env_linksDown (px : Nat) (c : Column) : (s.setColumn px c).env.linksDown = s.env.linksDown := rfl
@[simp] theorem setColumn_env_coolantLow (px : Nat) (c : Column) : (s.setColumn px c).env.coolantLow = s.env.coolantLow := rfl
@[simp] theorem setColumn_env_retrainAt (px : Nat) (c : Column) : (s.setColumn px c).env.retrainAt = s.env.retrainAt := rfl

/-! ### setRefresh -/

@[simp] theorem setRefresh_clk (ptower : Nat) (r : Refresh) : (s.setRefresh ptower r).clk = s.clk := rfl
@[simp] theorem setRefresh_cur (ptower : Nat) (r : Refresh) : (s.setRefresh ptower r).cur = s.cur := rfl
@[simp] theorem setRefresh_parked (ptower : Nat) (r : Refresh) : (s.setRefresh ptower r).parked = s.parked := rfl
@[simp] theorem setRefresh_mem (ptower : Nat) (r : Refresh) : (s.setRefresh ptower r).mem = s.mem := rfl
@[simp] theorem setRefresh_sched (ptower : Nat) (r : Refresh) : (s.setRefresh ptower r).sched = s.sched := rfl
@[simp] theorem setRefresh_plc (ptower : Nat) (r : Refresh) : (s.setRefresh ptower r).plc = s.plc := rfl
@[simp] theorem setRefresh_net (ptower : Nat) (r : Refresh) : (s.setRefresh ptower r).net = s.net := rfl
@[simp] theorem setRefresh_obs (ptower : Nat) (r : Refresh) : (s.setRefresh ptower r).obs = s.obs := rfl
@[simp] theorem setRefresh_mgmt (ptower : Nat) (r : Refresh) : (s.setRefresh ptower r).mgmt = s.mgmt := rfl
@[simp] theorem setRefresh_env_sensors (ptower : Nat) (r : Refresh) : (s.setRefresh ptower r).env.sensors = s.env.sensors := rfl
@[simp] theorem setRefresh_env_columns (ptower : Nat) (r : Refresh) : (s.setRefresh ptower r).env.columns = s.env.columns := rfl
@[simp] theorem setRefresh_env_pmode (ptower : Nat) (r : Refresh) : (s.setRefresh ptower r).env.pmode = s.env.pmode := rfl
@[simp] theorem setRefresh_env_pmodeAct (ptower : Nat) (r : Refresh) : (s.setRefresh ptower r).env.pmodeAct = s.env.pmodeAct := rfl
@[simp] theorem setRefresh_env_refresh (ptower : Nat) (r : Refresh) :
    (s.setRefresh ptower r).env.refresh = tput ptower r s.env.refresh := rfl
@[simp] theorem setRefresh_env_hbmHist (ptower : Nat) (r : Refresh) : (s.setRefresh ptower r).env.hbmHist = s.env.hbmHist := rfl
@[simp] theorem setRefresh_env_towHist (ptower : Nat) (r : Refresh) : (s.setRefresh ptower r).env.towHist = s.env.towHist := rfl
@[simp] theorem setRefresh_env_retrain (ptower : Nat) (r : Refresh) : (s.setRefresh ptower r).env.retrain = s.env.retrain := rfl
@[simp] theorem setRefresh_env_rateChange (ptower : Nat) (r : Refresh) : (s.setRefresh ptower r).env.rateChange = s.env.rateChange := rfl
@[simp] theorem setRefresh_env_linksDown (ptower : Nat) (r : Refresh) : (s.setRefresh ptower r).env.linksDown = s.env.linksDown := rfl
@[simp] theorem setRefresh_env_coolantLow (ptower : Nat) (r : Refresh) : (s.setRefresh ptower r).env.coolantLow = s.env.coolantLow := rfl
@[simp] theorem setRefresh_env_retrainAt (ptower : Nat) (r : Refresh) : (s.setRefresh ptower r).env.retrainAt = s.env.retrainAt := rfl

/-! ### setFab -/

@[simp] theorem setFab_clk (c : Nat) (x : FabCtx) : (s.setFab c x).clk = s.clk := rfl
@[simp] theorem setFab_cur (c : Nat) (x : FabCtx) : (s.setFab c x).cur = s.cur := rfl
@[simp] theorem setFab_parked (c : Nat) (x : FabCtx) : (s.setFab c x).parked = s.parked := rfl
@[simp] theorem setFab_mem (c : Nat) (x : FabCtx) : (s.setFab c x).mem = s.mem := rfl
@[simp] theorem setFab_sched (c : Nat) (x : FabCtx) : (s.setFab c x).sched = s.sched := rfl
@[simp] theorem setFab_plc (c : Nat) (x : FabCtx) : (s.setFab c x).plc = s.plc := rfl
@[simp] theorem setFab_env (c : Nat) (x : FabCtx) : (s.setFab c x).env = s.env := rfl
@[simp] theorem setFab_obs (c : Nat) (x : FabCtx) : (s.setFab c x).obs = s.obs := rfl
@[simp] theorem setFab_mgmt (c : Nat) (x : FabCtx) : (s.setFab c x).mgmt = s.mgmt := rfl
@[simp] theorem setFab_net_bcols (c : Nat) (x : FabCtx) : (s.setFab c x).net.bcols = s.net.bcols := rfl
@[simp] theorem setFab_net_packets (c : Nat) (x : FabCtx) : (s.setFab c x).net.packets = s.net.packets := rfl
@[simp] theorem setFab_net_fab (c : Nat) (x : FabCtx) : (s.setFab c x).net.fab = tput c x s.net.fab := rfl
@[simp] theorem setFab_net_nbu (c : Nat) (x : FabCtx) : (s.setFab c x).net.nbu = s.net.nbu := rfl
@[simp] theorem setFab_net_curChan (c : Nat) (x : FabCtx) : (s.setFab c x).net.curChan = s.net.curChan := rfl
@[simp] theorem setFab_net_curCmd (c : Nat) (x : FabCtx) : (s.setFab c x).net.curCmd = s.net.curCmd := rfl

/-! ### setNbu -/

@[simp] theorem setNbu_clk (chan : Nat) (u : Nbu) : (s.setNbu chan u).clk = s.clk := rfl
@[simp] theorem setNbu_cur (chan : Nat) (u : Nbu) : (s.setNbu chan u).cur = s.cur := rfl
@[simp] theorem setNbu_parked (chan : Nat) (u : Nbu) : (s.setNbu chan u).parked = s.parked := rfl
@[simp] theorem setNbu_mem (chan : Nat) (u : Nbu) : (s.setNbu chan u).mem = s.mem := rfl
@[simp] theorem setNbu_sched (chan : Nat) (u : Nbu) : (s.setNbu chan u).sched = s.sched := rfl
@[simp] theorem setNbu_plc (chan : Nat) (u : Nbu) : (s.setNbu chan u).plc = s.plc := rfl
@[simp] theorem setNbu_env (chan : Nat) (u : Nbu) : (s.setNbu chan u).env = s.env := rfl
@[simp] theorem setNbu_obs (chan : Nat) (u : Nbu) : (s.setNbu chan u).obs = s.obs := rfl
@[simp] theorem setNbu_mgmt (chan : Nat) (u : Nbu) : (s.setNbu chan u).mgmt = s.mgmt := rfl
@[simp] theorem setNbu_net_bcols (chan : Nat) (u : Nbu) : (s.setNbu chan u).net.bcols = s.net.bcols := rfl
@[simp] theorem setNbu_net_packets (chan : Nat) (u : Nbu) : (s.setNbu chan u).net.packets = s.net.packets := rfl
@[simp] theorem setNbu_net_fab (chan : Nat) (u : Nbu) : (s.setNbu chan u).net.fab = s.net.fab := rfl
@[simp] theorem setNbu_net_nbu (chan : Nat) (u : Nbu) : (s.setNbu chan u).net.nbu = tput chan u s.net.nbu := rfl
@[simp] theorem setNbu_net_curChan (chan : Nat) (u : Nbu) : (s.setNbu chan u).net.curChan = s.net.curChan := rfl
@[simp] theorem setNbu_net_curCmd (chan : Nat) (u : Nbu) : (s.setNbu chan u).net.curCmd = s.net.curCmd := rfl

/-! ### setCore -/

@[simp] theorem setCore_clk (c : Nat) (l : Logline) : (s.setCore c l).clk = s.clk := rfl
@[simp] theorem setCore_cur (c : Nat) (l : Logline) : (s.setCore c l).cur = s.cur := rfl
@[simp] theorem setCore_parked (c : Nat) (l : Logline) : (s.setCore c l).parked = s.parked := rfl
@[simp] theorem setCore_mem (c : Nat) (l : Logline) : (s.setCore c l).mem = s.mem := rfl
@[simp] theorem setCore_sched (c : Nat) (l : Logline) : (s.setCore c l).sched = s.sched := rfl
@[simp] theorem setCore_plc (c : Nat) (l : Logline) : (s.setCore c l).plc = s.plc := rfl
@[simp] theorem setCore_env (c : Nat) (l : Logline) : (s.setCore c l).env = s.env := rfl
@[simp] theorem setCore_net (c : Nat) (l : Logline) : (s.setCore c l).net = s.net := rfl
@[simp] theorem setCore_mgmt (c : Nat) (l : Logline) : (s.setCore c l).mgmt = s.mgmt := rfl
@[simp] theorem setCore_obs_rkbase (c : Nat) (l : Logline) : (s.setCore c l).obs.rkbase = s.obs.rkbase := rfl
@[simp] theorem setCore_obs_rklog2 (c : Nat) (l : Logline) : (s.setCore c l).obs.rklog2 = s.obs.rklog2 := rfl
@[simp] theorem setCore_obs_rkhead (c : Nat) (l : Logline) : (s.setCore c l).obs.rkhead = s.obs.rkhead := rfl
@[simp] theorem setCore_obs_rktail (c : Nat) (l : Logline) : (s.setCore c l).obs.rktail = s.obs.rktail := rfl
@[simp] theorem setCore_obs_rklost (c : Nat) (l : Logline) : (s.setCore c l).obs.rklost = s.obs.rklost := rfl
@[simp] theorem setCore_obs_thr (c : Nat) (l : Logline) : (s.setCore c l).obs.thr = s.obs.thr := rfl
@[simp] theorem setCore_obs_cores (c : Nat) (l : Logline) : (s.setCore c l).obs.cores = tput c l s.obs.cores := rfl
@[simp] theorem setCore_obs_curCore (c : Nat) (l : Logline) : (s.setCore c l).obs.curCore = s.obs.curCore := rfl
@[simp] theorem setCore_obs_dbg (c : Nat) (l : Logline) : (s.setCore c l).obs.dbg = s.obs.dbg := rfl
@[simp] theorem setCore_obs_counters (c : Nat) (l : Logline) : (s.setCore c l).obs.counters = s.obs.counters := rfl
@[simp] theorem setCore_obs_fixHeld (c : Nat) (l : Logline) : (s.setCore c l).obs.fixHeld = s.obs.fixHeld := rfl
@[simp] theorem setCore_obs_fixSeq (c : Nat) (l : Logline) : (s.setCore c l).obs.fixSeq = s.obs.fixSeq := rfl
@[simp] theorem setCore_obs_fixCode (c : Nat) (l : Logline) : (s.setCore c l).obs.fixCode = s.obs.fixCode := rfl
@[simp] theorem setCore_obs_fixSrc (c : Nat) (l : Logline) : (s.setCore c l).obs.fixSrc = s.obs.fixSrc := rfl
@[simp] theorem setCore_obs_fixMissed (c : Nat) (l : Logline) : (s.setCore c l).obs.fixMissed = s.obs.fixMissed := rfl
@[simp] theorem setCore_obs_fixPend (c : Nat) (l : Logline) : (s.setCore c l).obs.fixPend = s.obs.fixPend := rfl
@[simp] theorem setCore_obs_fixDc (c : Nat) (l : Logline) : (s.setCore c l).obs.fixDc = s.obs.fixDc := rfl
@[simp] theorem setCore_obs_snaps (c : Nat) (l : Logline) : (s.setCore c l).obs.snaps = s.obs.snaps := rfl
@[simp] theorem setCore_obs_snapFab (c : Nat) (l : Logline) : (s.setCore c l).obs.snapFab = s.obs.snapFab := rfl
@[simp] theorem setCore_obs_snapNbu (c : Nat) (l : Logline) : (s.setCore c l).obs.snapNbu = s.obs.snapNbu := rfl
@[simp] theorem setCore_obs_snapCnt (c : Nat) (l : Logline) : (s.setCore c l).obs.snapCnt = s.obs.snapCnt := rfl
@[simp] theorem setCore_obs_hits (c : Nat) (l : Logline) : (s.setCore c l).obs.hits = s.obs.hits := rfl
@[simp] theorem setCore_obs_written (c : Nat) (l : Logline) : (s.setCore c l).obs.written = s.obs.written := rfl
@[simp] theorem setCore_obs_asked (c : Nat) (l : Logline) : (s.setCore c l).obs.asked = s.obs.asked := rfl

/-! ### setDbg -/

@[simp] theorem setDbg_clk (tile : Nat) (d : TileDbg) : (s.setDbg tile d).clk = s.clk := rfl
@[simp] theorem setDbg_cur (tile : Nat) (d : TileDbg) : (s.setDbg tile d).cur = s.cur := rfl
@[simp] theorem setDbg_parked (tile : Nat) (d : TileDbg) : (s.setDbg tile d).parked = s.parked := rfl
@[simp] theorem setDbg_mem (tile : Nat) (d : TileDbg) : (s.setDbg tile d).mem = s.mem := rfl
@[simp] theorem setDbg_sched (tile : Nat) (d : TileDbg) : (s.setDbg tile d).sched = s.sched := rfl
@[simp] theorem setDbg_plc (tile : Nat) (d : TileDbg) : (s.setDbg tile d).plc = s.plc := rfl
@[simp] theorem setDbg_env (tile : Nat) (d : TileDbg) : (s.setDbg tile d).env = s.env := rfl
@[simp] theorem setDbg_net (tile : Nat) (d : TileDbg) : (s.setDbg tile d).net = s.net := rfl
@[simp] theorem setDbg_mgmt (tile : Nat) (d : TileDbg) : (s.setDbg tile d).mgmt = s.mgmt := rfl
@[simp] theorem setDbg_obs_rkbase (tile : Nat) (d : TileDbg) : (s.setDbg tile d).obs.rkbase = s.obs.rkbase := rfl
@[simp] theorem setDbg_obs_rklog2 (tile : Nat) (d : TileDbg) : (s.setDbg tile d).obs.rklog2 = s.obs.rklog2 := rfl
@[simp] theorem setDbg_obs_rkhead (tile : Nat) (d : TileDbg) : (s.setDbg tile d).obs.rkhead = s.obs.rkhead := rfl
@[simp] theorem setDbg_obs_rktail (tile : Nat) (d : TileDbg) : (s.setDbg tile d).obs.rktail = s.obs.rktail := rfl
@[simp] theorem setDbg_obs_rklost (tile : Nat) (d : TileDbg) : (s.setDbg tile d).obs.rklost = s.obs.rklost := rfl
@[simp] theorem setDbg_obs_thr (tile : Nat) (d : TileDbg) : (s.setDbg tile d).obs.thr = s.obs.thr := rfl
@[simp] theorem setDbg_obs_cores (tile : Nat) (d : TileDbg) : (s.setDbg tile d).obs.cores = s.obs.cores := rfl
@[simp] theorem setDbg_obs_curCore (tile : Nat) (d : TileDbg) : (s.setDbg tile d).obs.curCore = s.obs.curCore := rfl
@[simp] theorem setDbg_obs_dbg (tile : Nat) (d : TileDbg) : (s.setDbg tile d).obs.dbg = tput tile d s.obs.dbg := rfl
@[simp] theorem setDbg_obs_counters (tile : Nat) (d : TileDbg) : (s.setDbg tile d).obs.counters = s.obs.counters := rfl
@[simp] theorem setDbg_obs_fixHeld (tile : Nat) (d : TileDbg) : (s.setDbg tile d).obs.fixHeld = s.obs.fixHeld := rfl
@[simp] theorem setDbg_obs_fixSeq (tile : Nat) (d : TileDbg) : (s.setDbg tile d).obs.fixSeq = s.obs.fixSeq := rfl
@[simp] theorem setDbg_obs_fixCode (tile : Nat) (d : TileDbg) : (s.setDbg tile d).obs.fixCode = s.obs.fixCode := rfl
@[simp] theorem setDbg_obs_fixSrc (tile : Nat) (d : TileDbg) : (s.setDbg tile d).obs.fixSrc = s.obs.fixSrc := rfl
@[simp] theorem setDbg_obs_fixMissed (tile : Nat) (d : TileDbg) : (s.setDbg tile d).obs.fixMissed = s.obs.fixMissed := rfl
@[simp] theorem setDbg_obs_fixPend (tile : Nat) (d : TileDbg) : (s.setDbg tile d).obs.fixPend = s.obs.fixPend := rfl
@[simp] theorem setDbg_obs_fixDc (tile : Nat) (d : TileDbg) : (s.setDbg tile d).obs.fixDc = s.obs.fixDc := rfl
@[simp] theorem setDbg_obs_snaps (tile : Nat) (d : TileDbg) : (s.setDbg tile d).obs.snaps = s.obs.snaps := rfl
@[simp] theorem setDbg_obs_snapFab (tile : Nat) (d : TileDbg) : (s.setDbg tile d).obs.snapFab = s.obs.snapFab := rfl
@[simp] theorem setDbg_obs_snapNbu (tile : Nat) (d : TileDbg) : (s.setDbg tile d).obs.snapNbu = s.obs.snapNbu := rfl
@[simp] theorem setDbg_obs_snapCnt (tile : Nat) (d : TileDbg) : (s.setDbg tile d).obs.snapCnt = s.obs.snapCnt := rfl
@[simp] theorem setDbg_obs_hits (tile : Nat) (d : TileDbg) : (s.setDbg tile d).obs.hits = s.obs.hits := rfl
@[simp] theorem setDbg_obs_written (tile : Nat) (d : TileDbg) : (s.setDbg tile d).obs.written = s.obs.written := rfl
@[simp] theorem setDbg_obs_asked (tile : Nat) (d : TileDbg) : (s.setDbg tile d).obs.asked = s.obs.asked := rfl

/-! ### towerWrite -/

@[simp] theorem towerWrite_clk (tile i addr : Nat) (bs : List Byte) : (s.towerWrite tile i addr bs).clk = s.clk := rfl
@[simp] theorem towerWrite_cur (tile i addr : Nat) (bs : List Byte) : (s.towerWrite tile i addr bs).cur = s.cur := rfl
@[simp] theorem towerWrite_parked (tile i addr : Nat) (bs : List Byte) : (s.towerWrite tile i addr bs).parked = s.parked := rfl
@[simp] theorem towerWrite_sched (tile i addr : Nat) (bs : List Byte) : (s.towerWrite tile i addr bs).sched = s.sched := rfl
@[simp] theorem towerWrite_plc (tile i addr : Nat) (bs : List Byte) : (s.towerWrite tile i addr bs).plc = s.plc := rfl
@[simp] theorem towerWrite_env (tile i addr : Nat) (bs : List Byte) : (s.towerWrite tile i addr bs).env = s.env := rfl
@[simp] theorem towerWrite_net (tile i addr : Nat) (bs : List Byte) : (s.towerWrite tile i addr bs).net = s.net := rfl
@[simp] theorem towerWrite_obs (tile i addr : Nat) (bs : List Byte) : (s.towerWrite tile i addr bs).obs = s.obs := rfl
@[simp] theorem towerWrite_mgmt (tile i addr : Nat) (bs : List Byte) : (s.towerWrite tile i addr bs).mgmt = s.mgmt := rfl
@[simp] theorem towerWrite_mem_hbm (tile i addr : Nat) (bs : List Byte) : (s.towerWrite tile i addr bs).mem.hbm = s.mem.hbm := rfl
@[simp] theorem towerWrite_mem_host (tile i addr : Nat) (bs : List Byte) : (s.towerWrite tile i addr bs).mem.host = s.mem.host := rfl
@[simp] theorem towerWrite_mem_peer (tile i addr : Nat) (bs : List Byte) : (s.towerWrite tile i addr bs).mem.peer = s.mem.peer := rfl
@[simp] theorem towerWrite_mem_towers (tile i addr : Nat) (bs : List Byte) :
    (s.towerWrite tile i addr bs).mem.towers = s.mem.towers.putBytes (towerKey (s.physTower tile i) addr) bs := rfl
@[simp] theorem towerWrite_mem_full (tile i addr : Nat) (bs : List Byte) : (s.towerWrite tile i addr bs).mem.full = s.mem.full := rfl
@[simp] theorem towerWrite_mem_hbmBad (tile i addr : Nat) (bs : List Byte) : (s.towerWrite tile i addr bs).mem.hbmBad = s.mem.hbmBad := rfl
@[simp] theorem towerWrite_mem_towerBad (tile i addr : Nat) (bs : List Byte) :
    (s.towerWrite tile i addr bs).mem.towerBad = s.mem.towerBad := rfl
@[simp] theorem towerWrite_mem_wport (tile i addr : Nat) (bs : List Byte) : (s.towerWrite tile i addr bs).mem.wport = s.mem.wport := rfl
@[simp] theorem towerWrite_mem_lastRead (tile i addr : Nat) (bs : List Byte) :
    (s.towerWrite tile i addr bs).mem.lastRead = s.mem.lastRead := rfl
@[simp] theorem towerWrite_mem_tlb1 (tile i addr : Nat) (bs : List Byte) : (s.towerWrite tile i addr bs).mem.tlb1 = s.mem.tlb1 := rfl
@[simp] theorem towerWrite_mem_tlb2 (tile i addr : Nat) (bs : List Byte) : (s.towerWrite tile i addr bs).mem.tlb2 = s.mem.tlb2 := rfl
@[simp] theorem towerWrite_mem_tlbInvs (tile i addr : Nat) (bs : List Byte) :
    (s.towerWrite tile i addr bs).mem.tlbInvs = s.mem.tlbInvs := rfl
@[simp] theorem towerWrite_mem_unres (tile i addr : Nat) (bs : List Byte) : (s.towerWrite tile i addr bs).mem.unres = s.mem.unres := rfl
@[simp] theorem towerWrite_mem_deadPeers (tile i addr : Nat) (bs : List Byte) :
    (s.towerWrite tile i addr bs).mem.deadPeers = s.mem.deadPeers := rfl
@[simp] theorem towerWrite_mem_locked (tile i addr : Nat) (bs : List Byte) : (s.towerWrite tile i addr bs).mem.locked = s.mem.locked := rfl
@[simp] theorem towerWrite_mem_slots (tile i addr : Nat) (bs : List Byte) : (s.towerWrite tile i addr bs).mem.slots = s.mem.slots := rfl
@[simp] theorem towerWrite_mem_regrow (tile i addr : Nat) (bs : List Byte) : (s.towerWrite tile i addr bs).mem.regrow = s.mem.regrow := rfl
@[simp] theorem towerWrite_mem_lockQ (tile i addr : Nat) (bs : List Byte) : (s.towerWrite tile i addr bs).mem.lockQ = s.mem.lockQ := rfl
@[simp] theorem towerWrite_mem_hostQ (tile i addr : Nat) (bs : List Byte) : (s.towerWrite tile i addr bs).mem.hostQ = s.mem.hostQ := rfl

/-! ### setFull -/

@[simp] theorem setFull_clk (tile i : Nat) (gs : List Nat) : (s.setFull tile i gs).clk = s.clk := rfl
@[simp] theorem setFull_cur (tile i : Nat) (gs : List Nat) : (s.setFull tile i gs).cur = s.cur := rfl
@[simp] theorem setFull_parked (tile i : Nat) (gs : List Nat) : (s.setFull tile i gs).parked = s.parked := rfl
@[simp] theorem setFull_sched (tile i : Nat) (gs : List Nat) : (s.setFull tile i gs).sched = s.sched := rfl
@[simp] theorem setFull_plc (tile i : Nat) (gs : List Nat) : (s.setFull tile i gs).plc = s.plc := rfl
@[simp] theorem setFull_env (tile i : Nat) (gs : List Nat) : (s.setFull tile i gs).env = s.env := rfl
@[simp] theorem setFull_net (tile i : Nat) (gs : List Nat) : (s.setFull tile i gs).net = s.net := rfl
@[simp] theorem setFull_obs (tile i : Nat) (gs : List Nat) : (s.setFull tile i gs).obs = s.obs := rfl
@[simp] theorem setFull_mgmt (tile i : Nat) (gs : List Nat) : (s.setFull tile i gs).mgmt = s.mgmt := rfl
@[simp] theorem setFull_mem_hbm (tile i : Nat) (gs : List Nat) : (s.setFull tile i gs).mem.hbm = s.mem.hbm := rfl
@[simp] theorem setFull_mem_host (tile i : Nat) (gs : List Nat) : (s.setFull tile i gs).mem.host = s.mem.host := rfl
@[simp] theorem setFull_mem_peer (tile i : Nat) (gs : List Nat) : (s.setFull tile i gs).mem.peer = s.mem.peer := rfl
@[simp] theorem setFull_mem_towers (tile i : Nat) (gs : List Nat) : (s.setFull tile i gs).mem.towers = s.mem.towers := rfl
@[simp] theorem setFull_mem_hbmBad (tile i : Nat) (gs : List Nat) : (s.setFull tile i gs).mem.hbmBad = s.mem.hbmBad := rfl
@[simp] theorem setFull_mem_towerBad (tile i : Nat) (gs : List Nat) : (s.setFull tile i gs).mem.towerBad = s.mem.towerBad := rfl
@[simp] theorem setFull_mem_wport (tile i : Nat) (gs : List Nat) : (s.setFull tile i gs).mem.wport = s.mem.wport := rfl
@[simp] theorem setFull_mem_lastRead (tile i : Nat) (gs : List Nat) : (s.setFull tile i gs).mem.lastRead = s.mem.lastRead := rfl
@[simp] theorem setFull_mem_tlb1 (tile i : Nat) (gs : List Nat) : (s.setFull tile i gs).mem.tlb1 = s.mem.tlb1 := rfl
@[simp] theorem setFull_mem_tlb2 (tile i : Nat) (gs : List Nat) : (s.setFull tile i gs).mem.tlb2 = s.mem.tlb2 := rfl
@[simp] theorem setFull_mem_tlbInvs (tile i : Nat) (gs : List Nat) : (s.setFull tile i gs).mem.tlbInvs = s.mem.tlbInvs := rfl
@[simp] theorem setFull_mem_unres (tile i : Nat) (gs : List Nat) : (s.setFull tile i gs).mem.unres = s.mem.unres := rfl
@[simp] theorem setFull_mem_deadPeers (tile i : Nat) (gs : List Nat) : (s.setFull tile i gs).mem.deadPeers = s.mem.deadPeers := rfl
@[simp] theorem setFull_mem_locked (tile i : Nat) (gs : List Nat) : (s.setFull tile i gs).mem.locked = s.mem.locked := rfl
@[simp] theorem setFull_mem_slots (tile i : Nat) (gs : List Nat) : (s.setFull tile i gs).mem.slots = s.mem.slots := rfl
@[simp] theorem setFull_mem_regrow (tile i : Nat) (gs : List Nat) : (s.setFull tile i gs).mem.regrow = s.mem.regrow := rfl
@[simp] theorem setFull_mem_lockQ (tile i : Nat) (gs : List Nat) : (s.setFull tile i gs).mem.lockQ = s.mem.lockQ := rfl
@[simp] theorem setFull_mem_hostQ (tile i : Nat) (gs : List Nat) : (s.setFull tile i gs).mem.hostQ = s.mem.hostQ := rfl

/-! ### clearFull -/

@[simp] theorem clearFull_clk (tile i : Nat) (gs : List Nat) : (s.clearFull tile i gs).clk = s.clk := rfl
@[simp] theorem clearFull_cur (tile i : Nat) (gs : List Nat) : (s.clearFull tile i gs).cur = s.cur := rfl
@[simp] theorem clearFull_parked (tile i : Nat) (gs : List Nat) : (s.clearFull tile i gs).parked = s.parked := rfl
@[simp] theorem clearFull_sched (tile i : Nat) (gs : List Nat) : (s.clearFull tile i gs).sched = s.sched := rfl
@[simp] theorem clearFull_plc (tile i : Nat) (gs : List Nat) : (s.clearFull tile i gs).plc = s.plc := rfl
@[simp] theorem clearFull_env (tile i : Nat) (gs : List Nat) : (s.clearFull tile i gs).env = s.env := rfl
@[simp] theorem clearFull_net (tile i : Nat) (gs : List Nat) : (s.clearFull tile i gs).net = s.net := rfl
@[simp] theorem clearFull_obs (tile i : Nat) (gs : List Nat) : (s.clearFull tile i gs).obs = s.obs := rfl
@[simp] theorem clearFull_mgmt (tile i : Nat) (gs : List Nat) : (s.clearFull tile i gs).mgmt = s.mgmt := rfl
@[simp] theorem clearFull_mem_hbm (tile i : Nat) (gs : List Nat) : (s.clearFull tile i gs).mem.hbm = s.mem.hbm := rfl
@[simp] theorem clearFull_mem_host (tile i : Nat) (gs : List Nat) : (s.clearFull tile i gs).mem.host = s.mem.host := rfl
@[simp] theorem clearFull_mem_peer (tile i : Nat) (gs : List Nat) : (s.clearFull tile i gs).mem.peer = s.mem.peer := rfl
@[simp] theorem clearFull_mem_towers (tile i : Nat) (gs : List Nat) : (s.clearFull tile i gs).mem.towers = s.mem.towers := rfl
@[simp] theorem clearFull_mem_hbmBad (tile i : Nat) (gs : List Nat) : (s.clearFull tile i gs).mem.hbmBad = s.mem.hbmBad := rfl
@[simp] theorem clearFull_mem_towerBad (tile i : Nat) (gs : List Nat) : (s.clearFull tile i gs).mem.towerBad = s.mem.towerBad := rfl
@[simp] theorem clearFull_mem_wport (tile i : Nat) (gs : List Nat) : (s.clearFull tile i gs).mem.wport = s.mem.wport := rfl
@[simp] theorem clearFull_mem_lastRead (tile i : Nat) (gs : List Nat) : (s.clearFull tile i gs).mem.lastRead = s.mem.lastRead := rfl
@[simp] theorem clearFull_mem_tlb1 (tile i : Nat) (gs : List Nat) : (s.clearFull tile i gs).mem.tlb1 = s.mem.tlb1 := rfl
@[simp] theorem clearFull_mem_tlb2 (tile i : Nat) (gs : List Nat) : (s.clearFull tile i gs).mem.tlb2 = s.mem.tlb2 := rfl
@[simp] theorem clearFull_mem_tlbInvs (tile i : Nat) (gs : List Nat) : (s.clearFull tile i gs).mem.tlbInvs = s.mem.tlbInvs := rfl
@[simp] theorem clearFull_mem_unres (tile i : Nat) (gs : List Nat) : (s.clearFull tile i gs).mem.unres = s.mem.unres := rfl
@[simp] theorem clearFull_mem_deadPeers (tile i : Nat) (gs : List Nat) : (s.clearFull tile i gs).mem.deadPeers = s.mem.deadPeers := rfl
@[simp] theorem clearFull_mem_locked (tile i : Nat) (gs : List Nat) : (s.clearFull tile i gs).mem.locked = s.mem.locked := rfl
@[simp] theorem clearFull_mem_slots (tile i : Nat) (gs : List Nat) : (s.clearFull tile i gs).mem.slots = s.mem.slots := rfl
@[simp] theorem clearFull_mem_regrow (tile i : Nat) (gs : List Nat) : (s.clearFull tile i gs).mem.regrow = s.mem.regrow := rfl
@[simp] theorem clearFull_mem_lockQ (tile i : Nat) (gs : List Nat) : (s.clearFull tile i gs).mem.lockQ = s.mem.lockQ := rfl
@[simp] theorem clearFull_mem_hostQ (tile i : Nat) (gs : List Nat) : (s.clearFull tile i gs).mem.hostQ = s.mem.hostQ := rfl

/-! ### engineWrite -/

@[simp] theorem engineWrite_clk (tile i addr : Nat) (bs : List Byte) : (s.engineWrite tile i addr bs).clk = s.clk := rfl
@[simp] theorem engineWrite_cur (tile i addr : Nat) (bs : List Byte) : (s.engineWrite tile i addr bs).cur = s.cur := rfl
@[simp] theorem engineWrite_parked (tile i addr : Nat) (bs : List Byte) : (s.engineWrite tile i addr bs).parked = s.parked := rfl
@[simp] theorem engineWrite_sched (tile i addr : Nat) (bs : List Byte) : (s.engineWrite tile i addr bs).sched = s.sched := rfl
@[simp] theorem engineWrite_plc (tile i addr : Nat) (bs : List Byte) : (s.engineWrite tile i addr bs).plc = s.plc := rfl
@[simp] theorem engineWrite_env (tile i addr : Nat) (bs : List Byte) : (s.engineWrite tile i addr bs).env = s.env := rfl
@[simp] theorem engineWrite_net (tile i addr : Nat) (bs : List Byte) : (s.engineWrite tile i addr bs).net = s.net := rfl
@[simp] theorem engineWrite_obs (tile i addr : Nat) (bs : List Byte) : (s.engineWrite tile i addr bs).obs = s.obs := rfl
@[simp] theorem engineWrite_mgmt (tile i addr : Nat) (bs : List Byte) : (s.engineWrite tile i addr bs).mgmt = s.mgmt := rfl
@[simp] theorem engineWrite_mem_hbm (tile i addr : Nat) (bs : List Byte) : (s.engineWrite tile i addr bs).mem.hbm = s.mem.hbm := rfl
@[simp] theorem engineWrite_mem_host (tile i addr : Nat) (bs : List Byte) : (s.engineWrite tile i addr bs).mem.host = s.mem.host := rfl
@[simp] theorem engineWrite_mem_peer (tile i addr : Nat) (bs : List Byte) : (s.engineWrite tile i addr bs).mem.peer = s.mem.peer := rfl
@[simp] theorem engineWrite_mem_towers (tile i addr : Nat) (bs : List Byte) :
    (s.engineWrite tile i addr bs).mem.towers = s.mem.towers.putBytes (towerKey (s.physTower tile i) addr) bs := rfl
@[simp] theorem engineWrite_mem_hbmBad (tile i addr : Nat) (bs : List Byte) :
    (s.engineWrite tile i addr bs).mem.hbmBad = s.mem.hbmBad := rfl
@[simp] theorem engineWrite_mem_towerBad (tile i addr : Nat) (bs : List Byte) :
    (s.engineWrite tile i addr bs).mem.towerBad = s.mem.towerBad := rfl
@[simp] theorem engineWrite_mem_wport (tile i addr : Nat) (bs : List Byte) : (s.engineWrite tile i addr bs).mem.wport = s.mem.wport := rfl
@[simp] theorem engineWrite_mem_lastRead (tile i addr : Nat) (bs : List Byte) :
    (s.engineWrite tile i addr bs).mem.lastRead = s.mem.lastRead := rfl
@[simp] theorem engineWrite_mem_tlb1 (tile i addr : Nat) (bs : List Byte) : (s.engineWrite tile i addr bs).mem.tlb1 = s.mem.tlb1 := rfl
@[simp] theorem engineWrite_mem_tlb2 (tile i addr : Nat) (bs : List Byte) : (s.engineWrite tile i addr bs).mem.tlb2 = s.mem.tlb2 := rfl
@[simp] theorem engineWrite_mem_tlbInvs (tile i addr : Nat) (bs : List Byte) :
    (s.engineWrite tile i addr bs).mem.tlbInvs = s.mem.tlbInvs := rfl
@[simp] theorem engineWrite_mem_unres (tile i addr : Nat) (bs : List Byte) : (s.engineWrite tile i addr bs).mem.unres = s.mem.unres := rfl
@[simp] theorem engineWrite_mem_deadPeers (tile i addr : Nat) (bs : List Byte) :
    (s.engineWrite tile i addr bs).mem.deadPeers = s.mem.deadPeers := rfl
@[simp] theorem engineWrite_mem_locked (tile i addr : Nat) (bs : List Byte) :
    (s.engineWrite tile i addr bs).mem.locked = s.mem.locked := rfl
@[simp] theorem engineWrite_mem_slots (tile i addr : Nat) (bs : List Byte) : (s.engineWrite tile i addr bs).mem.slots = s.mem.slots := rfl
@[simp] theorem engineWrite_mem_regrow (tile i addr : Nat) (bs : List Byte) :
    (s.engineWrite tile i addr bs).mem.regrow = s.mem.regrow := rfl
@[simp] theorem engineWrite_mem_lockQ (tile i addr : Nat) (bs : List Byte) : (s.engineWrite tile i addr bs).mem.lockQ = s.mem.lockQ := rfl
@[simp] theorem engineWrite_mem_hostQ (tile i addr : Nat) (bs : List Byte) : (s.engineWrite tile i addr bs).mem.hostQ = s.mem.hostQ := rfl

/-! ### mapTasks -/

@[simp] theorem mapTasks_clk (f : Task → Task) : (s.mapTasks f).clk = s.clk := rfl
@[simp] theorem mapTasks_cur (f : Task → Task) : (s.mapTasks f).cur = f s.cur := rfl
@[simp] theorem mapTasks_parked (f : Task → Task) : (s.mapTasks f).parked = s.parked.map f := rfl
@[simp] theorem mapTasks_mem (f : Task → Task) : (s.mapTasks f).mem = s.mem := rfl
@[simp] theorem mapTasks_sched (f : Task → Task) : (s.mapTasks f).sched = s.sched := rfl
@[simp] theorem mapTasks_plc (f : Task → Task) : (s.mapTasks f).plc = s.plc := rfl
@[simp] theorem mapTasks_env (f : Task → Task) : (s.mapTasks f).env = s.env := rfl
@[simp] theorem mapTasks_net (f : Task → Task) : (s.mapTasks f).net = s.net := rfl
@[simp] theorem mapTasks_obs (f : Task → Task) : (s.mapTasks f).obs = s.obs := rfl
@[simp] theorem mapTasks_mgmt (f : Task → Task) : (s.mapTasks f).mgmt = s.mgmt := rfl
@[simp] theorem mapTasks_tasks (f : Task → Task) : (s.mapTasks f).tasks = s.tasks.map f := rfl

/-! ### Reads that an update of another register leaves -/

@[simp] theorem modSeq_sreg (f : Seq → Seq) (r : BitVec 5) : (s.modSeq f).sreg r = s.sreg r := rfl
@[simp] theorem modSeq_creg (f : Seq → Seq) (r : BitVec 3) : (s.modSeq f).creg r = s.creg r := rfl
@[simp] theorem modSeq_guard (f : Seq → Seq) (q : BitVec 3) (n : Bool) : (s.modSeq f).guard q n = s.guard q n := rfl
@[simp] theorem modSeq_selected (f : Seq → Seq) (cl : BitVec 2) : (s.modSeq f).selected cl = s.selected cl := rfl
@[simp] theorem modSeq_vl (f : Seq → Seq) : (s.modSeq f).vl = s.vl := rfl
@[simp] theorem modSeq_cluster (f : Seq → Seq) (i : Fin 8) : (s.modSeq f).cluster i = s.cluster i := rfl
@[simp] theorem modEng_sreg (f : Engines → Engines) (r : BitVec 5) : (s.modEng f).sreg r = s.sreg r := rfl
@[simp] theorem modEng_creg (f : Engines → Engines) (r : BitVec 3) : (s.modEng f).creg r = s.creg r := rfl
@[simp] theorem modEng_guard (f : Engines → Engines) (q : BitVec 3) (n : Bool) : (s.modEng f).guard q n = s.guard q n := rfl
@[simp] theorem modEng_selected (f : Engines → Engines) (cl : BitVec 2) : (s.modEng f).selected cl = s.selected cl := rfl
@[simp] theorem modEng_vl (f : Engines → Engines) : (s.modEng f).vl = s.vl := rfl
@[simp] theorem modEng_cluster (f : Engines → Engines) (i : Fin 8) : (s.modEng f).cluster i = s.cluster i := rfl
@[simp] theorem push_sreg (l : Landing) (r : BitVec 5) : (s.push l).sreg r = s.sreg r := rfl
@[simp] theorem push_creg (l : Landing) (r : BitVec 3) : (s.push l).creg r = s.creg r := rfl
@[simp] theorem push_guard (l : Landing) (q : BitVec 3) (n : Bool) : (s.push l).guard q n = s.guard q n := rfl
@[simp] theorem push_selected (l : Landing) (cl : BitVec 2) : (s.push l).selected cl = s.selected cl := rfl
@[simp] theorem push_vl (l : Landing) : (s.push l).vl = s.vl := rfl
@[simp] theorem push_cluster (l : Landing) (i : Fin 8) : (s.push l).cluster i = s.cluster i := rfl
@[simp] theorem block_sreg (r : BitVec 5) : (s.block).sreg r = s.sreg r := rfl
@[simp] theorem block_creg (r : BitVec 3) : (s.block).creg r = s.creg r := rfl
@[simp] theorem block_guard (q : BitVec 3) (n : Bool) : (s.block).guard q n = s.guard q n := rfl
@[simp] theorem block_selected (cl : BitVec 2) : (s.block).selected cl = s.selected cl := rfl
@[simp] theorem block_vl : (s.block).vl = s.vl := rfl
@[simp] theorem block_cluster (i : Fin 8) : (s.block).cluster i = s.cluster i := rfl
@[simp] theorem modWatch_sreg (f : Watch → Watch) (r : BitVec 5) : (s.modWatch f).sreg r = s.sreg r := rfl
@[simp] theorem modWatch_creg (f : Watch → Watch) (r : BitVec 3) : (s.modWatch f).creg r = s.creg r := rfl
@[simp] theorem modWatch_guard (f : Watch → Watch) (q : BitVec 3) (n : Bool) : (s.modWatch f).guard q n = s.guard q n := rfl
@[simp] theorem modWatch_selected (f : Watch → Watch) (cl : BitVec 2) : (s.modWatch f).selected cl = s.selected cl := rfl
@[simp] theorem modWatch_vl (f : Watch → Watch) : (s.modWatch f).vl = s.vl := rfl
@[simp] theorem modWatch_cluster (f : Watch → Watch) (i : Fin 8) : (s.modWatch f).cluster i = s.cluster i := rfl
@[simp] theorem hold_sreg (r : BitVec 5) : (s.hold).sreg r = s.sreg r := rfl
@[simp] theorem hold_creg (r : BitVec 3) : (s.hold).creg r = s.creg r := rfl
@[simp] theorem hold_guard (q : BitVec 3) (n : Bool) : (s.hold).guard q n = s.guard q n := rfl
@[simp] theorem hold_selected (cl : BitVec 2) : (s.hold).selected cl = s.selected cl := rfl
@[simp] theorem hold_vl : (s.hold).vl = s.vl := rfl
@[simp] theorem hold_cluster (i : Fin 8) : (s.hold).cluster i = s.cluster i := rfl
@[simp] theorem addWait_sreg (w : Wait) (r : BitVec 5) : (s.addWait w).sreg r = s.sreg r := rfl
@[simp] theorem addWait_creg (w : Wait) (r : BitVec 3) : (s.addWait w).creg r = s.creg r := rfl
@[simp] theorem addWait_guard (w : Wait) (q : BitVec 3) (n : Bool) : (s.addWait w).guard q n = s.guard q n := rfl
@[simp] theorem addWait_selected (w : Wait) (cl : BitVec 2) : (s.addWait w).selected cl = s.selected cl := rfl
@[simp] theorem addWait_vl (w : Wait) : (s.addWait w).vl = s.vl := rfl
@[simp] theorem addWait_cluster (w : Wait) (i : Fin 8) : (s.addWait w).cluster i = s.cluster i := rfl

/-! ### Where there is nothing to end -/

/-- A bundle that has not waited before its issue has no such wait to end. -/
@[simp] theorem endLock_none (h : s.cur.seq.lockFrom = none) : s.endLock = s := by simp [State.endLock, h]

/-- With no slot waiting, no row stands ready for slot B. -/
@[simp] theorem endRows_idle (h : s.cur.seq.waits = []) : s.endRows = s := by simp [State.endRows, h]

/-- Beats only count, and note their channel. -/
theorem beats_cur (g code n : Nat) : (s.beats g code n).cur = (s.countChan g code n).cur := rfl
theorem beats_mem (g code n : Nat) : (s.beats g code n).mem = (s.countChan g code n).mem := rfl

end Sys2Proof.Laws
end

