-- ==== Sys2Proof/Tests/Slice0.lean ====
section
/-! SUPPORT. Small tests: ill-formed words that the decoder refuses, a word of every instruction, states that meet the hypotheses of the
statements, and results that the manual works out. -/

namespace Sys2Proof.Tests
open Sys2Proof.Machine Sys2Proof.Safety

set_option maxRecDepth 100000

/-! ### Ill-formed instructions, one for each check of WellFormed -/

theorem test_refuses_wide_shifts : WellFormed (.shli { d := 1#5, a := 2#5, imm := 64#14, f := false }) = false ∧
    WellFormed (.shri { d := 1#5, a := 2#5, imm := 64#14, f := false }) = false ∧
    WellFormed (.shrai { d := 1#5, a := 2#5, imm := 16383#14, f := false }) = false ∧
    (decodeSlot .c 0x48110080#32).toOption = none := by decide

theorem test_refuses_sx_of_doubleword :
    WellFormed (.lds { d := 1#5, a := 2#5, b := 3#5, sx := true, size := 3#2, n := false, q := 0#3, f := false }) = false ∧
    WellFormed (.ldg { d := 1#5, a := 2#5, b := 3#5, sx := true, scope := 0#2, size := 3#2, n := false, q := 0#3, f := false }) = false ∧
    (decodeSlot .c 0x80110E60#32).toOption = none := by decide

theorem test_refuses_vector_selectors :
    WellFormed (.vrint { d := 1#5, a := 2#5, k := 0#3, cl := 0#2, z := false } 6#3) = false ∧
    WellFormed (.vicmp { d := 1#3, a := 2#5, b := 3#5, k := 0#3, cl := 0#2, z := false, s := false, x := 6#3 }) = false := by decide

theorem test_refuses_full_empty_kinds :
    let m : BMemForm := { d := 2#5, a := 2#5, b := 3#5, k := 0#3, cl := 0#2, lf := 0#3, fe := 3#2 }
    let k : KmForm := { d := 1#3, a := 2#5, b := 3#5, cl := 0#2, fe := 3#2 }
    WellFormed (.vld m) = false ∧ WellFormed (.vlds m) = false ∧ WellFormed (.vst { m with fe := 2#2 }) = false ∧
    WellFormed (.vsts { m with fe := 2#2 }) = false ∧ WellFormed (.vldx m) = false ∧ WellFormed (.vstx { m with fe := 2#2 }) = false ∧
    WellFormed (.vldrl 1#5 0#3 0#2 3#2 0#2) = false ∧ WellFormed (.kld k) = false ∧ WellFormed (.kst { k with fe := 2#2 }) = false := by decide

theorem test_refuses_odd_index_registers :
    let m : BMemForm := { d := 3#5, a := 2#5, b := 3#5, k := 0#3, cl := 0#2, lf := 0#3, fe := 0#2 }
    WellFormed (.vldx m) = false ∧ WellFormed (.vstx m) = false := by decide

theorem test_refuses_engine_registers :
    WellFormed (.eset 16#5 1#5 12#5) = false ∧ WellFormed (.eset 21#5 1#5 1#5) = false ∧ WellFormed (.eset 22#5 1#5 0#5) = false ∧
    WellFormed (.eget 17#5 1#5 3#5) = false ∧ WellFormed (.ewait 16#5 2#3) = false ∧ WellFormed (.ewait 3#5 1#3) = false ∧
    WellFormed (.mclr false 0#2) = false := by decide

theorem test_refuses_micro_rows : let o : MicroForm := { acc := 0#2, rsel := 3#2, off := 0#24 }
    WellFormed (.loadacc o) = false ∧ WellFormed (.accop o) = false ∧ WellFormed (.sacc o) = false ∧ WellFormed (.nbStore o) = false ∧
    WellFormed (.minmax o) = false ∧ (decodeMicro 0xE0000000#32).toOption = none ∧ (decodeMicro 0x24000000#32).toOption = none := by decide

theorem test_refuses_filter_limits :
    WellFormed (.fltLdf 0#3 4#32) = false ∧ WellFormed (.fltShl 0#3 0#3 64#32) = false ∧ WellFormed (.fltShr 0#3 0#3 64#32) = false ∧
    WellFormed (.fltBeq 0#3 0#3 0#32) = false ∧ WellFormed (.fltBne 0#3 0#3 0#32) = false ∧ WellFormed (.fltBltu 0#3 0#3 0#32) = false ∧
    WellFormed (.fltBlt 0#3 0#3 0#32) = false ∧ WellFormed (.fltCadd 0#3 8#32) = false ∧ WellFormed (.fltVerd 32#32) = false ∧
    WellFormed (.fltVerd 4#32) = false ∧ (decodeFilter 0x0C00000000000000#64).toOption = none := by decide

/-- Opcodes that no entry gives are refused in every slot. -/
theorem test_refuses_unknown_opcodes : (decodeSlot .c 0xFE000000#32).toOption = none ∧ (decodeSlot .a 0xFE000000#32).toOption = none ∧
    (decodeSlot .b 0xFE000000#32).toOption = none ∧ (decodeSlot .e 0xFE000000#32).toOption = none := by decide

/-! ### Words -/

/-- Words that the manual writes out, one family each: R109, R164, R167, R171, R183, R188, R198, R203, R204, R206, R224, R225, R355, R357,
R362, R383, R384, R398, R399, R402, R408. -/
theorem test_manual_words :
    (decodeSlot .c 0x06831C00#32).toOption = some (.mul { d := 8#5, a := 6#5, b := 7#5, n := false, q := 0#3, f := false }) ∧
    (decodeSlot .c 0x44528200#32).toOption = some (.ori { d := 5#5, a := 5#5, imm := 0x100#14, f := false }) ∧
    (decodeSlot .c 0xA0A00008#32).toOption = some (.br { q := 2#3, n := true, off := 4#20, f := false }) ∧
    (decodeSlot .c 0x88519260#32).toOption =
      some (.amoadd { d := 5#5, a := 3#5, b := 4#5, ord := 2#2, scope := 1#2, dbl := true, n := false, q := 0#3, f := false }) ∧
    (decodeSlot .c 0x96000002#32).toOption = some (.fence 1#2 false) ∧
    (decodeSlot .c 0xB0000054#32).toOption = some (.trap 0x2A#14 false) ∧ (decodeSlot .c 0xB2000000#32).toOption = some (.tret false) ∧
    (decodeSlot .c 0xB4000000#32).toOption = some (.tfence false) ∧ (decodeSlot .c 0xAE00000E#32).toOption = some (.mark 7#20 false) ∧
    (decodeSlot .c 0xC2A00024#32).toOption = some (.mfc 10#5 0#4 18#6 false) ∧
    (decodeSlot .c 0xC4018412#32).toOption = some (.mtc 3#5 8#4 9#6 false) ∧
    (decodeSlot .c 0xE2019000#32).toOption = some (.tlbinv { a := 3#5, b := 4#5, n := false, q := 0#3, f := false }) ∧
    (decodeSlot .a 0x02308880#32).toOption =
      some (.vadd { d := 3#5, a := 1#5, b := 2#5, k := 1#3, cl := 0#2, z := false, s := false }) ∧
    (decodeSlot .a 0x10520008#32).toOption =
      some (.vmax { d := 5#5, a := 4#5, b := 0#5, k := 0#3, cl := 0#2, z := false, s := true }) ∧
    (decodeSlot .a 0x18940001#32).toOption = some (.vsqrt { d := 9#5, a := 8#5, k := 0#3, cl := 0#2, z := false } true) ∧
    (decodeSlot .a 0x60231C02#32).toOption =
      some (.vcmp { d := 2#3, a := 6#5, b := 7#5, k := 0#3, cl := 0#2, z := false, s := false, x := 2#3 }) ∧
    (decodeSlot .a 0xB04100A1#32).toOption = some (.vrsum { d := 4#5, a := 2#5, k := 1#3, cl := 1#2, t := true }) ∧
    (decodeSlot .a 0xBC608800#32).toOption = some (.vdot { d := 6#5, a := 1#5, k := 0#3, cl := 0#2, t := false } 2#5) ∧
    (decodeSlot .e 0x52021801#32).toOption = some (.dpub 4#5 6#5 1#6) ∧
    (decodeSlot .e 0x82019005#32).toOption = some (.trace 3#5 4#5 5#10) := by decide

/-- Slot C, table rows 1 to 16: words written from the match value and the field positions of each row. -/
theorem test_control_words_1 : ∀ p ∈ ([
    (0x00000001#32, .nop true),
    (0x03532C1D#32, .add { d := 21#5, a := 6#5, b := 11#5, n := true, q := 6#3, f := true }),
    (0x05532C1D#32, .sub { d := 21#5, a := 6#5, b := 11#5, n := true, q := 6#3, f := true }),
    (0x07532C1D#32, .mul { d := 21#5, a := 6#5, b := 11#5, n := true, q := 6#3, f := true }),
    (0x09532C1D#32, .mulh { d := 21#5, a := 6#5, b := 11#5, n := true, q := 6#3, f := true }),
    (0x0B532C1D#32, .mulhu { d := 21#5, a := 6#5, b := 11#5, n := true, q := 6#3, f := true }),
    (0x0D532C1D#32, .div { d := 21#5, a := 6#5, b := 11#5, n := true, q := 6#3, f := true }),
    (0x0F532C1D#32, .divu { d := 21#5, a := 6#5, b := 11#5, n := true, q := 6#3, f := true }),
    (0x11532C1D#32, .rem { d := 21#5, a := 6#5, b := 11#5, n := true, q := 6#3, f := true }),
    (0x13532C1D#32, .remu { d := 21#5, a := 6#5, b := 11#5, n := true, q := 6#3, f := true }),
    (0x15532C1D#32, .and { d := 21#5, a := 6#5, b := 11#5, n := true, q := 6#3, f := true }),
    (0x17532C1D#32, .or { d := 21#5, a := 6#5, b := 11#5, n := true, q := 6#3, f := true }),
    (0x19532C1D#32, .xor { d := 21#5, a := 6#5, b := 11#5, n := true, q := 6#3, f := true }),
    (0x1B532C1D#32, .andn { d := 21#5, a := 6#5, b := 11#5, n := true, q := 6#3, f := true }),
    (0x1D532C1D#32, .shl { d := 21#5, a := 6#5, b := 11#5, n := true, q := 6#3, f := true }),
    (0x1F532C1D#32, .shr { d := 21#5, a := 6#5, b := 11#5, n := true, q := 6#3, f := true })] : List (W32 × Instr)), (decodeSlot .c p.1).toOption = some p.2 := by decide

/-- Slot C, table rows 17 to 32: words written from the match value and the field positions of each row. -/
theorem test_control_words_2 : ∀ p ∈ ([
    (0x21532C1D#32, .shra { d := 21#5, a := 6#5, b := 11#5, n := true, q := 6#3, f := true }),
    (0x23532C1D#32, .rot { d := 21#5, a := 6#5, b := 11#5, n := true, q := 6#3, f := true }),
    (0x25532C1D#32, .min { d := 21#5, a := 6#5, b := 11#5, n := true, q := 6#3, f := true }),
    (0x27532C1D#32, .max { d := 21#5, a := 6#5, b := 11#5, n := true, q := 6#3, f := true }),
    (0x29532C1D#32, .minu { d := 21#5, a := 6#5, b := 11#5, n := true, q := 6#3, f := true }),
    (0x2B532C1D#32, .maxu { d := 21#5, a := 6#5, b := 11#5, n := true, q := 6#3, f := true }),
    (0x2D53001B#32, .clz { d := 21#5, a := 6#5, n := true, q := 5#3, f := true }),
    (0x2F53001B#32, .ctz { d := 21#5, a := 6#5, n := true, q := 5#3, f := true }),
    (0x3153001B#32, .popc { d := 21#5, a := 6#5, n := true, q := 5#3, f := true }),
    (0x33532CB7#32, .sel { d := 21#5, a := 6#5, b := 11#5, sel := 5#3, n := true, q := 3#3, f := true }),
    (0x41531697#32, .addi { d := 21#5, a := 6#5, imm := 2891#14, f := true }),
    (0x43531697#32, .andi { d := 21#5, a := 6#5, imm := 2891#14, f := true }),
    (0x45531697#32, .ori { d := 21#5, a := 6#5, imm := 2891#14, f := true }),
    (0x47531697#32, .xori { d := 21#5, a := 6#5, imm := 2891#14, f := true }),
    (0x4953004B#32, .shli { d := 21#5, a := 6#5, imm := 37#14, f := true }),
    (0x4B53004B#32, .shri { d := 21#5, a := 6#5, imm := 37#14, f := true })] : List (W32 × Instr)), (decodeSlot .c p.1).toOption = some p.2 := by decide

/-- Slot C, table rows 33 to 48: words written from the match value and the field positions of each row. -/
theorem test_control_words_3 : ∀ p ∈ ([
    (0x4D53004B#32, .shrai { d := 21#5, a := 6#5, imm := 37#14, f := true }),
    (0x4F569697#32, .lih { d := 21#5, imm := 215883#19, f := true }),
    (0x50531697#32, .cmpeqi { d := 5#3, a := 6#5, imm := 2891#14, f := true }),
    (0x52531697#32, .cmplti { d := 5#3, a := 6#5, imm := 2891#14, f := true }),
    (0x54531697#32, .cmpltui { d := 5#3, a := 6#5, imm := 2891#14, f := true }),
    (0x60532C1D#32, .cmpeq { d := 5#3, a := 6#5, b := 11#5, n := true, q := 6#3, f := true }),
    (0x62532C1D#32, .cmpne { d := 5#3, a := 6#5, b := 11#5, n := true, q := 6#3, f := true }),
    (0x64532C1D#32, .cmplt { d := 5#3, a := 6#5, b := 11#5, n := true, q := 6#3, f := true }),
    (0x66532C1D#32, .cmpltu { d := 5#3, a := 6#5, b := 11#5, n := true, q := 6#3, f := true }),
    (0x68532C1D#32, .cmple { d := 5#3, a := 6#5, b := 11#5, n := true, q := 6#3, f := true }),
    (0x6A532C1D#32, .cmpleu { d := 5#3, a := 6#5, b := 11#5, n := true, q := 6#3, f := true }),
    (0x6C530C1D#32, .cand { d := 5#3, a := 6#3, b := 3#3, n := true, q := 6#3, f := true }),
    (0x6E530C1D#32, .cor { d := 5#3, a := 6#3, b := 3#3, n := true, q := 6#3, f := true }),
    (0x70530C1D#32, .cxor { d := 5#3, a := 6#3, b := 3#3, n := true, q := 6#3, f := true }),
    (0x81532E3B#32, .lds { d := 21#5, a := 6#5, b := 11#5, sx := true, size := 1#2, n := true, q := 5#3, f := true }),
    (0x83532C37#32, .sts { d := 21#5, a := 6#5, b := 11#5, size := 1#2, n := true, q := 3#3, f := true })] : List (W32 × Instr)), (decodeSlot .c p.1).toOption = some p.2 := by decide

/-- Slot C, table rows 49 to 64: words written from the match value and the field positions of each row. -/
theorem test_control_words_4 : ∀ p ∈ ([
    (0x85532F3D#32, .ldg { d := 21#5, a := 6#5, b := 11#5, sx := true, scope := 2#2, size := 1#2, n := true, q := 6#3, f := true }),
    (0x87532CDB#32, .stg { d := 21#5, a := 6#5, b := 11#5, scope := 1#2, size := 2#2, n := true, q := 5#3, f := true }),
    (0x89532DBD#32, .amoadd { d := 21#5, a := 6#5, b := 11#5, ord := 1#2, scope := 2#2, dbl := true, n := true, q := 6#3, f := true }),
    (0x8B532DBD#32, .amomin { d := 21#5, a := 6#5, b := 11#5, ord := 1#2, scope := 2#2, dbl := true, n := true, q := 6#3, f := true }),
    (0x8D532DBD#32, .amomax { d := 21#5, a := 6#5, b := 11#5, ord := 1#2, scope := 2#2, dbl := true, n := true, q := 6#3, f := true }),
    (0x8F532DBD#32, .amoand { d := 21#5, a := 6#5, b := 11#5, ord := 1#2, scope := 2#2, dbl := true, n := true, q := 6#3, f := true }),
    (0x91532DBD#32, .amoor { d := 21#5, a := 6#5, b := 11#5, ord := 1#2, scope := 2#2, dbl := true, n := true, q := 6#3, f := true }),
    (0x93532DBD#32, .amoxch { d := 21#5, a := 6#5, b := 11#5, ord := 1#2, scope := 2#2, dbl := true, n := true, q := 6#3, f := true }),
    (0x95532DBD#32, .amocas { d := 21#5, a := 6#5, b := 11#5, ord := 1#2, scope := 2#2, dbl := true, n := true, q := 6#3, f := true }),
    (0x96000005#32, .fence 2#2 true),
    (0xA1769697#32, .br { q := 5#3, n := true, off := 740171#20, f := true }),
    (0xA20A981B#32, .jmp { a := 21#5, b := 6#5, n := true, q := 5#3, f := true }),
    (0xA5769697#32, .call { q := 5#3, n := true, off := 740171#20, f := true }),
    (0xA60A8017#32, .ret { a := 21#5, n := true, q := 3#3, f := true }),
    (0xA9501697#32, .loop 21#5 2891#14 true),
    (0xAA000001#32, .endTask true)] : List (W32 × Instr)), (decodeSlot .c p.1).toOption = some p.2 := by decide

/-- Slot C, table rows 65 to 79: words written from the match value and the field positions of each row. -/
theorem test_control_words_5 : ∀ p ∈ ([
    (0xAC000597#32, .rep 11#6 11#6 true),
    (0xAE169697#32, .mark 740171#20 true),
    (0xB0001697#32, .trap 2891#14 true),
    (0xB2000001#32, .tret true),
    (0xB4000001#32, .tfence true),
    (0xB7532C1D#32, .launch { d := 21#5, a := 6#5, b := 11#5, n := true, q := 6#3, f := true }),
    (0xC00A8017#32, .sfmt { a := 21#5, n := true, q := 3#3, f := true }),
    (0xC3500297#32, .mfc 21#5 5#4 11#6 true),
    (0xC40A8297#32, .mtc 21#5 5#4 11#6 true),
    (0xC753001B#32, .setvl { d := 21#5, a := 6#5, n := true, q := 5#3, f := true }),
    (0xC8130097#32, .setcm true 6#5 75#8 true),
    (0xE00A8017#32, .lovt { a := 21#5, n := true, q := 3#3, f := true }),
    (0xE20A981B#32, .tlbinv { a := 21#5, b := 6#5, n := true, q := 5#3, f := true }),
    (0xE2005437#32, .tlbinvAsid 21#5 true 3#3 true),
    (0xE200005D#32, .tlbinvAll true 6#3 true)] : List (W32 × Instr)), (decodeSlot .c p.1).toOption = some p.2 := by decide

/-- Slot A, table rows 1 to 16: words written from the match value and the field positions of each row. -/
theorem test_arithmetic_words_1 : ∀ p ∈ ([
    (0x00000000#32, .nopA),
    (0x03532ED8#32, .vadd { d := 21#5, a := 6#5, b := 11#5, k := 5#3, cl := 2#2, z := true, s := true }),
    (0x05532ED8#32, .vsub { d := 21#5, a := 6#5, b := 11#5, k := 5#3, cl := 2#2, z := true, s := true }),
    (0x07532ED8#32, .vmul { d := 21#5, a := 6#5, b := 11#5, k := 5#3, cl := 2#2, z := true, s := true }),
    (0x09532ED8#32, .vfma { d := 21#5, a := 6#5, b := 11#5, k := 5#3, cl := 2#2, z := true, s := true }),
    (0x0B532ED8#32, .vfms { d := 21#5, a := 6#5, b := 11#5, k := 5#3, cl := 2#2, z := true, s := true }),
    (0x0D532ED8#32, .vfnma { d := 21#5, a := 6#5, b := 11#5, k := 5#3, cl := 2#2, z := true, s := true }),
    (0x0F532ED8#32, .vmin { d := 21#5, a := 6#5, b := 11#5, k := 5#3, cl := 2#2, z := true, s := true }),
    (0x11532ED8#32, .vmax { d := 21#5, a := 6#5, b := 11#5, k := 5#3, cl := 2#2, z := true, s := true }),
    (0x135301B0#32, .vabs { d := 21#5, a := 6#5, k := 3#3, cl := 1#2, z := true }),
    (0x155301B0#32, .vneg { d := 21#5, a := 6#5, k := 3#3, cl := 1#2, z := true }),
    (0x17532ED8#32, .vdiv { d := 21#5, a := 6#5, b := 11#5, k := 5#3, cl := 2#2, z := true, s := true }),
    (0x195301B1#32, .vsqrt { d := 21#5, a := 6#5, k := 3#3, cl := 1#2, z := true } true),
    (0x1B5301B1#32, .vrsq { d := 21#5, a := 6#5, k := 3#3, cl := 1#2, z := true } true),
    (0x1D5301B0#32, .vrcp { d := 21#5, a := 6#5, k := 3#3, cl := 1#2, z := true }),
    (0x1F5301B0#32, .vexp { d := 21#5, a := 6#5, k := 3#3, cl := 1#2, z := true })] : List (W32 × Instr)), (decodeSlot .a p.1).toOption = some p.2 := by decide

/-- Slot A, table rows 17 to 32: words written from the match value and the field positions of each row. -/
theorem test_arithmetic_words_2 : ∀ p ∈ ([
    (0x215301B0#32, .vlog { d := 21#5, a := 6#5, k := 3#3, cl := 1#2, z := true }),
    (0x235301B0#32, .vsin { d := 21#5, a := 6#5, k := 3#3, cl := 1#2, z := true }),
    (0x255301B0#32, .vcos { d := 21#5, a := 6#5, k := 3#3, cl := 1#2, z := true }),
    (0x275301B0#32, .vtanh { d := 21#5, a := 6#5, k := 3#3, cl := 1#2, z := true }),
    (0x295301B5#32, .vrint { d := 21#5, a := 6#5, k := 3#3, cl := 1#2, z := true } 5#3),
    (0x41532ED8#32, .viadd { d := 21#5, a := 6#5, b := 11#5, k := 5#3, cl := 2#2, z := true, s := true }),
    (0x43532ED8#32, .visub { d := 21#5, a := 6#5, b := 11#5, k := 5#3, cl := 2#2, z := true, s := true }),
    (0x45532ED8#32, .vimul { d := 21#5, a := 6#5, b := 11#5, k := 5#3, cl := 2#2, z := true, s := true }),
    (0x47532ED8#32, .vimulh { d := 21#5, a := 6#5, b := 11#5, k := 5#3, cl := 2#2, z := true, s := true }),
    (0x49532ED8#32, .vimin { d := 21#5, a := 6#5, b := 11#5, k := 5#3, cl := 2#2, z := true, s := true }),
    (0x4B532ED8#32, .vimax { d := 21#5, a := 6#5, b := 11#5, k := 5#3, cl := 2#2, z := true, s := true }),
    (0x4D532ED8#32, .viminu { d := 21#5, a := 6#5, b := 11#5, k := 5#3, cl := 2#2, z := true, s := true }),
    (0x4F532ED8#32, .vimaxu { d := 21#5, a := 6#5, b := 11#5, k := 5#3, cl := 2#2, z := true, s := true }),
    (0x51532ED8#32, .vand { d := 21#5, a := 6#5, b := 11#5, k := 5#3, cl := 2#2, z := true, s := true }),
    (0x53532ED8#32, .vor { d := 21#5, a := 6#5, b := 11#5, k := 5#3, cl := 2#2, z := true, s := true }),
    (0x55532ED8#32, .vxor { d := 21#5, a := 6#5, b := 11#5, k := 5#3, cl := 2#2, z := true, s := true })] : List (W32 × Instr)), (decodeSlot .a p.1).toOption = some p.2 := by decide

/-- Slot A, table rows 33 to 48: words written from the match value and the field positions of each row. -/
theorem test_arithmetic_words_3 : ∀ p ∈ ([
    (0x57532ED8#32, .vshl { d := 21#5, a := 6#5, b := 11#5, k := 5#3, cl := 2#2, z := true, s := true }),
    (0x59532ED8#32, .vshr { d := 21#5, a := 6#5, b := 11#5, k := 5#3, cl := 2#2, z := true, s := true }),
    (0x5B532ED8#32, .vshra { d := 21#5, a := 6#5, b := 11#5, k := 5#3, cl := 2#2, z := true, s := true }),
    (0x5D5301B0#32, .viabs { d := 21#5, a := 6#5, k := 3#3, cl := 1#2, z := true }),
    (0x60532EDE#32, .vcmp { d := 5#3, a := 6#5, b := 11#5, k := 5#3, cl := 2#2, z := true, s := true, x := 6#3 }),
    (0x62532EDD#32, .vicmp { d := 5#3, a := 6#5, b := 11#5, k := 5#3, cl := 2#2, z := true, s := true, x := 5#3 }),
    (0x70530C20#32, .kand { d := 5#3, a := 6#3, b := 3#3, cl := 1#2 }),
    (0x72530C20#32, .kor { d := 5#3, a := 6#3, b := 3#3, cl := 1#2 }),
    (0x74530C20#32, .kxor { d := 5#3, a := 6#3, b := 3#3, cl := 1#2 }),
    (0x76530040#32, .knot 5#3 6#3 2#2),
    (0x78530040#32, .kfirst 5#3 6#3 2#2),
    (0x7B530040#32, .kcnt 21#5 6#3 2#2),
    (0x81532EC8#32, .vsel { d := 21#5, a := 6#5, b := 11#5, k := 5#3, cl := 2#2, s := true }),
    (0x915301B1#32, .vcoal { d := 21#5, a := 6#5, k := 3#3, cl := 1#2, z := true } true),
    (0x93532C29#32, .vcoalq { d := 21#5, a := 6#5, b := 11#5, cl := 1#2 } true),
    (0x95532C28#32, .vrlset { d := 21#5, a := 6#5, b := 11#5, cl := 1#2 })] : List (W32 × Instr)), (decodeSlot .a p.1).toOption = some p.2 := by decide

/-- Slot A, table rows 49 to 63: words written from the match value and the field positions of each row. -/
theorem test_arithmetic_words_4 : ∀ p ∈ ([
    (0x97501848#32, .vsplat 21#5 6#5 2#2),
    (0x99530040#32, .vruns 21#5 6#5 2#2),
    (0x99530041#32, .vrunsK 21#5 6#3 2#2),
    (0x9B530040#32, .vlen 21#5 6#5 2#2),
    (0x9B530041#32, .vlenK 21#5 6#3 2#2),
    (0x9D532C28#32, .vtrim { d := 21#5, a := 6#5, b := 11#5, cl := 1#2 }),
    (0x9D532C29#32, .vtrimDrop { d := 21#5, a := 6#5, b := 11#5, cl := 1#2 }),
    (0x9F532C20#32, .vcat { d := 21#5, a := 6#5, b := 11#5, cl := 1#2 }),
    (0xB15301A1#32, .vrsum { d := 21#5, a := 6#5, k := 3#3, cl := 1#2, t := true }),
    (0xB35301A1#32, .vrmax { d := 21#5, a := 6#5, k := 3#3, cl := 1#2, t := true }),
    (0xB55301A1#32, .vrmin { d := 21#5, a := 6#5, k := 3#3, cl := 1#2, t := true }),
    (0xB75301A1#32, .vrisum { d := 21#5, a := 6#5, k := 3#3, cl := 1#2, t := true }),
    (0xB95301A1#32, .vrimax { d := 21#5, a := 6#5, k := 3#3, cl := 1#2, t := true }),
    (0xBB5301A1#32, .vrimin { d := 21#5, a := 6#5, k := 3#3, cl := 1#2, t := true }),
    (0xBD532EC1#32, .vdot { d := 21#5, a := 6#5, k := 5#3, cl := 2#2, t := true } 11#5)] : List (W32 × Instr)), (decodeSlot .a p.1).toOption = some p.2 := by decide

/-- Slot B, table rows 1 to 16: words written from the match value and the field positions of each row. -/
theorem test_move_words_1 : ∀ p ∈ ([
    (0x00000000#32, .nopB),
    (0x03532ECD#32, .vld { d := 21#5, a := 6#5, b := 11#5, k := 5#3, cl := 2#2, lf := 3#3, fe := 1#2 }),
    (0x05532ECD#32, .vst { d := 21#5, a := 6#5, b := 11#5, k := 5#3, cl := 2#2, lf := 3#3, fe := 1#2 }),
    (0x07532ECD#32, .vlds { d := 21#5, a := 6#5, b := 11#5, k := 5#3, cl := 2#2, lf := 3#3, fe := 1#2 }),
    (0x09532ECD#32, .vsts { d := 21#5, a := 6#5, b := 11#5, k := 5#3, cl := 2#2, lf := 3#3, fe := 1#2 }),
    (0x0B432ECD#32, .vldx { d := 20#5, a := 6#5, b := 11#5, k := 5#3, cl := 2#2, lf := 3#3, fe := 1#2 }),
    (0x0D432ECD#32, .vstx { d := 20#5, a := 6#5, b := 11#5, k := 5#3, cl := 2#2, lf := 3#3, fe := 1#2 }),
    (0x0F500346#32, .vldrl 21#5 6#3 2#2 1#2 2#2),
    (0x11500025#32, .vstrl 21#5 1#2 true 1#2),
    (0x12532C21#32, .kld { d := 5#3, a := 6#5, b := 11#5, cl := 1#2, fe := 1#2 }),
    (0x14532C21#32, .kst { d := 5#3, a := 6#5, b := 11#5, cl := 1#2, fe := 1#2 }),
    (0x160A9841#32, .vcur 21#5 6#5 2#2 1#2),
    (0x215301B5#32, .vrd { d := 21#5, a := 6#5, k := 3#3, cl := 1#2, opt := true, h := 5#4 }),
    (0x235301B5#32, .vwr { d := 21#5, a := 6#5, k := 3#3, cl := 1#2, opt := true, h := 5#4 }),
    (0x31500353#32, .vmov { d := 21#5, k := 6#3, cl := 2#2, v := 19#5 }),
    (0x335301A0#32, .vmvs 21#5 6#5 3#3 1#2)] : List (W32 × Instr)), (decodeSlot .b p.1).toOption = some p.2 := by decide

/-- Slot B, table rows 17 to 27: words written from the match value and the field positions of each row. -/
theorem test_move_words_2 : ∀ p ∈ ([
    (0x35530053#32, .vmvx 21#5 6#5 19#5 2#2),
    (0x375301AE#32, .vxc { d := 21#5, k := 3#3, cl := 1#2, v := 14#5 } 6#5),
    (0x395301AE#32, .vslide { d := 21#5, k := 3#3, cl := 1#2, v := 14#5 } 6#5),
    (0x3B500353#32, .vrev { d := 21#5, k := 6#3, cl := 2#2, v := 19#5 }),
    (0x41500353#32, .vcvt { d := 21#5, k := 6#3, cl := 2#2, v := 19#5 }),
    (0x45500353#32, .vclass { d := 21#5, k := 6#3, cl := 2#2, v := 19#5 }),
    (0x515301A2#32, .twr { d := 21#5, a := 6#5, k := 3#3, cl := 1#2, t := 2#2 }),
    (0x535301A2#32, .trc { d := 21#5, a := 6#5, k := 3#3, cl := 1#2, t := 2#2 }),
    (0x555301A2#32, .trr { d := 21#5, a := 6#5, k := 3#3, cl := 1#2, t := 2#2 }),
    (0x56000041#32, .tclr 2#2 1#2),
    (0x61532EC5#32, .vshift { d := 21#5, a := 6#5, b := 11#5, k := 5#3, cl := 2#2, h := 5#4 })] : List (W32 × Instr)), (decodeSlot .b p.1).toOption = some p.2 := by decide

/-- Slot E, table rows 1 to 16: words written from the match value and the field positions of each row. -/
theorem test_engine_words_1 : ∀ p ∈ ([
    (0x00000000#32, .nopE),
    (0x0303000B#32, .eset 16#5 6#5 11#5),
    (0x0503000B#32, .eget 16#5 6#5 11#5),
    (0x07100003#32, .ewait 17#5 3#3),
    (0x10900000#32, .wopen 9#4),
    (0x10900001#32, .wopenBind 9#4),
    (0x10900002#32, .wopenKeep 9#4),
    (0x12930000#32, .wadv 9#4 6#5),
    (0x14930000#32, .wwait 9#4 6#5),
    (0x14900001#32, .wwaitDone 9#4),
    (0x16900000#32, .wclose 9#4),
    (0x18930000#32, .rstat 9#4 6#5),
    (0x1A900000#32, .wflush 9#4),
    (0x20000000#32, .bcfill),
    (0x20000019#32, .bcfillRing 9#4),
    (0x220A8000#32, .bcwait 21#5)] : List (W32 × Instr)), (decodeSlot .e p.1).toOption = some p.2 := by decide

/-- Slot E, table rows 17 to 32: words written from the match value and the field positions of each row. -/
theorem test_engine_words_2 : ∀ p ∈ ([
    (0x22000001#32, .bcwaitAll),
    (0x30100000#32, .mma true),
    (0x32100000#32, .mmv true),
    (0x34000000#32, .mldb),
    (0x36100000#32, .mdrain true),
    (0x38000000#32, .mswap),
    (0x3A100001#32, .mclr true 1#2),
    (0x3C130001#32, .mflags true 6#5 true),
    (0x40932C00#32, .xsend 9#4 6#5 11#5),
    (0x420A981D#32, .xwr 21#5 6#5 3#3 5#3),
    (0x440A981D#32, .xrd 21#5 6#5 3#3 5#3),
    (0x46000000#32, .xbar),
    (0x46000001#32, .xbarRow),
    (0x46000002#32, .xbarCol),
    (0x50000000#32, .dcopy),
    (0x50000001#32, .dcopyMt)] : List (W32 × Instr)), (decodeSlot .e p.1).toOption = some p.2 := by decide

/-- Slot E, table rows 33 to 47: words written from the match value and the field positions of each row. -/
theorem test_engine_words_3 : ∀ p ∈ ([
    (0x50000002#32, .dcopyTm),
    (0x520A980B#32, .dpub 21#5 6#5 11#6),
    (0x54000000#32, .dwait),
    (0x60000000#32, .fload),
    (0x62000000#32, .fbind),
    (0x640A8000#32, .fstat 21#5),
    (0x700A9800#32, .nbcmd 21#5 6#5),
    (0x720A9800#32, .nbpoll 21#5 6#5),
    (0x74000000#32, .nbfence),
    (0x800A9B4B#32, .hsig 21#5 6#5 843#10),
    (0x820A9B4B#32, .trace 21#5 6#5 843#10),
    (0x8400004B#32, .snap 75#8),
    (0x900A8000#32, .refdefer 21#5),
    (0x920A8000#32, .refnow 21#5),
    (0x92000001#32, .refnowAll)] : List (W32 × Instr)), (decodeSlot .e p.1).toOption = some p.2 := by decide

/-- R277: KIND, ACC, RSEL and OFF of a microinstruction. -/
theorem test_micro_words : ∀ p ∈ ([
    (0x00000000#32, .nbEnd),
    (0x39FFFFFE#32, .loadacc { acc := 3#2, rsel := 1#2, off := 0xFFFFFE#24 }),
    (0x59FFFFFE#32, .accop { acc := 3#2, rsel := 1#2, off := 0xFFFFFE#24 }),
    (0x79FFFFFE#32, .sacc { acc := 3#2, rsel := 1#2, off := 0xFFFFFE#24 }),
    (0x99FFFFFE#32, .nbStore { acc := 3#2, rsel := 1#2, off := 0xFFFFFE#24 }),
    (0xB0000000#32, .nbClear 2#2),
    (0xD9FFFFFE#32, .minmax { acc := 3#2, rsel := 1#2, off := 0xFFFFFE#24 })] : List (W32 × Instr)), (decodeMicro p.1).toOption = some p.2 := by decide

/-- R409: OP, DST, SA, SB and IMM of a filter instruction. -/
theorem test_filter_words : ∀ p ∈ ([
    (0x01A0000000000018#64, .fltLdf 5#3 24#32),
    (0x02C00000FFFFFFFD#64, .fltLdi 6#3 0xFFFFFFFD#32),
    (0x03B9800000000000#64, .fltAdd 5#3 6#3 3#3),
    (0x04B9800000000000#64, .fltSub 5#3 6#3 3#3),
    (0x05B9800000000000#64, .fltAnd 5#3 6#3 3#3),
    (0x06B9800000000000#64, .fltOr 5#3 6#3 3#3),
    (0x07B9800000000000#64, .fltXor 5#3 6#3 3#3),
    (0x08B800000000003F#64, .fltShl 5#3 6#3 0x3f#32),
    (0x09B8000000000021#64, .fltShr 5#3 6#3 0x21#32),
    (0x0AB80000FFFFFFFF#64, .fltAndi 5#3 6#3 0xffffffff#32),
    (0x0BB8000080000000#64, .fltAddi 5#3 6#3 0x80000000#32),
    (0x1019800000000007#64, .fltBeq 6#3 3#3 7#32),
    (0x1119800000000007#64, .fltBne 6#3 3#3 7#32),
    (0x1219800000000007#64, .fltBltu 6#3 3#3 7#32),
    (0x1319800000000007#64, .fltBlt 6#3 3#3 7#32),
    (0x1818000000000005#64, .fltCadd 6#3 5#32),
    (0x2000000000000016#64, .fltVerd 22#32)] : List (W64 × Instr)), (decodeFilter p.1).toOption = some p.2 := by decide

/-- R276: the header and the words of a command packet. -/
theorem test_packet_words : ∀ p ∈ ([
    ((0x000A7E31#32, #v[0x0C000000#32, 0#32, 0#32, 0#32, 0#32, 0#32, 0#32]), .reduce { dn := true, opf := 2#2, nrow := 31#5, typ := 8#4, acc := 3#2, words := #v[0x0C000000#32, 0#32, 0#32, 0#32, 0#32, 0#32, 0#32] }),
    ((0x000A7E32#32, #v[0x0C000000#32, 3#32, 0#32, 0#32, 0#32, 0#32, 0#32]), .scaleacc { dn := true, opf := 2#2, nrow := 31#5, typ := 8#4, acc := 3#2, words := #v[0x0C000000#32, 3#32, 0#32, 0#32, 0#32, 0#32, 0#32] }),
    ((0x000A3E33#32, #v[5#32, 9#32, 0#32, 0#32, 0#32, 0#32, 0#32]), .cmpxchg { dn := true, opf := 2#2, nrow := 15#5, typ := 8#4, acc := 3#2, words := #v[5#32, 9#32, 0#32, 0#32, 0#32, 0#32, 0#32] }),
    ((0x000A0234#32, #v[1#32, 2#32, 3#32, 0xFFFFFFFF#32, 5#32, 6#32, 7#32]), .idxreduce { dn := true, opf := 2#2, nrow := 0#5, typ := 8#4, acc := 3#2, words := #v[1#32, 2#32, 3#32, 0xFFFFFFFF#32, 5#32, 6#32, 7#32] }),
    ((0x000A0235#32, #v[0x0C000020#32, 0#32, 0#32, 0#32, 0#32, 0#32, 0#32]), .accwb { dn := true, opf := 2#2, nrow := 0#5, typ := 8#4, acc := 3#2, words := #v[0x0C000020#32, 0#32, 0#32, 0#32, 0#32, 0#32, 0#32] }),
    ((0x000A0236#32, #v[0#32, 0#32, 0#32, 0#32, 0#32, 0#32, 0#32]), .accclr { dn := true, opf := 2#2, nrow := 0#5, typ := 8#4, acc := 3#2, words := #v[0#32, 0#32, 0#32, 0#32, 0#32, 0#32, 0#32] }),
    ((0x000A0237#32, #v[4#32, 3#32, 0x20000001#32, 0x80000002#32, 0#32, 0#32, 0#32]), .uprog { dn := true, opf := 2#2, nrow := 0#5, typ := 8#4, acc := 3#2, words := #v[4#32, 3#32, 0x20000001#32, 0x80000002#32, 0#32, 0#32, 0#32] })] : List ((W32 × Vector W32 7) × Instr)), (decodePacket p.1.1 p.1.2).toOption = some p.2 := by decide

/-! ### States that the witnesses stand in -/

/-- Effective values of a launch of the region of these tests. -/
def testEff : Effective :=
  { prio := 4, fdpol := 0, preempt := true, gang := false, restart := false, refdef := true, sliced := false, slPeriod := 0, slLen := 0,
    slOffs := 0, asid := 5#14, ptroot := 0x1000, ovt := 0#32, maxTiles := 768, towKib := 32768, fabCtx := 4, nbShare := 8, ageLim := 0,
    wdogDef := 1000, root := true, chain := [] }

/-- A launch of 4 × 4 tiles, resident at the origin (0, 0). -/
def testLaunch : Launch :=
  { id := 1, region := 7, w := 4, h := 4, cls := 4, pclip := false, restart := false, edge := 0#2, gang := 0, gangKey := 0, image := 0,
    argPtr := 0, argLen := 0, argBytes := [], img := none, ccaddr := 0, craddr := 0, towLease := 8, wdogLeft := 1000,
    tag := 0#64, deps := [], eff := testEff, phase := .resident, onGrid := true, thr := 0, since := 0, aged := false, exclSince := none,
    origin := (0, 0), placedAt := some 0, status := .ok, recbad := false, imgbad := false, restarts := 0, finfo := 0#64, failing := none,
    phaseCnt := 0, bars := 0, races := [], why := .preempt, acks := [], stopAt := 0, saveAt := 0, contexts := [], rows := [], xfers := [],
    packets := [], defers := [], aborted := false }

/-- A task on tile 33 of that launch, about to issue an empty bundle. -/
def testTask : Task :=
  { Task.blank with
    bnd := { Bind.reset with tile := 33, launch := 1, tx := 1, ty := 1, w := 4, h := 4, region := 7, lease := 8, refdef := true, trapV := true,
                             trapEnt := 3, store := [0#128, 0#128, 0#128, 0#128], nbund := 4, asid := 5#14, ptroot := 0x1000 }
    seq := { Seq.reset with state := .running, scyc := 10, dcyc := 12 } }

/-- Local HBM with the page tables of one leaf of 4 GiB at virtual address 0, readable and writable by tasks (R81, R84). -/
def testHbm : Memory :=
  ((Memory.putBytes [] 0x1000 (leBytes 0x2001 8)).putBytes 0x2000 (leBytes 0x3001 8)).putBytes 0x3000 (leBytes 0xF7 8)

def base : State :=
  { State.reset with
    clk := { Clock.reset with tick := 1000 }
    cur := testTask
    mem := { Mem.reset with hbm := testHbm }
    sched := { Sched.reset with launches := [testLaunch], everPlaced := true } }

/-- The base state with scalar registers s1 and s2. -/
def withS (x y : W64) : State := base.modReg fun g => (g.setS 1#5 x).setS 2#5 y

/-- The base state with v1 and v2 in cluster 0. -/
def withV (a b : Runs W32) : State := { base with cur := base.cur.modCl 0 fun c => (c.setV 1#5 a).setV 2#5 b }

def withSeq (f : Seq → Seq) : State := base.modSeq f
def withEng (f : Engines → Engines) : State := base.modEng f
def withRing (r : Ring) : State := { base with cur := { base.cur with rings := vput base.cur.rings 3#4 r } }
def withLaunch (l : Launch) : State := { base with sched := { base.sched with launches := [l] } }

/-- A ring of four rows with two produced. -/
def testRing : Ring := { Ring.reset with bound := true, raddr := 0, rows := 4, prod := 2 }

def cr : CrForm := { d := 3#5, a := 1#5, b := 2#5, n := false, q := 0#3, f := false }
def cr1 : Cr1Form := { d := 3#5, a := 1#5, n := false, q := 0#3, f := false }
def lds (size : BitVec 2) : LdsForm := { d := 3#5, a := 1#5, b := 2#5, sx := false, size := size, n := false, q := 0#3, f := false }
def sts (size : BitVec 2) : StsForm := { d := 3#5, a := 1#5, b := 2#5, size := size, n := false, q := 0#3, f := false }
def af : AForm := { d := 3#5, a := 1#5, b := 2#5, k := 0#3, cl := 0#2, z := false, s := false }
def bm (fe : BitVec 2) : BMemForm := { d := 4#5, a := 1#5, b := 2#5, k := 0#3, cl := 0#2, lf := 0#3, fe := fe }

/-- The registers of the base state are canonical. -/
theorem base_positive : PositiveRuns base := by unfold PositiveRuns Positive; decide

/-! ### Witnesses: the hypotheses of each statement are met together -/

theorem witness_every_encoding : let i : Instr := .shli { d := 1#5, a := 2#5, imm := 63#14, f := true }
    WellFormed i = true ∧ kindOf i ≠ .event ∧ WellFormed (.uprog { dn := true, opf := 0#2, nrow := 0#5, typ := 0#4, acc := 0#2, words := #v[0#32, 0#32, 0#32, 0#32, 0#32, 0#32, 0#32] }) = true := by
  decide

theorem witness_bundles : WellFormed (.mul cr) = true ∧ WellFormed (.vadd af) = true ∧ WellFormed (.vld (bm 1#2)) = true ∧
    WellFormed (.ewait 17#5 3#3) = true ∧ kindOf (.mul cr) = .slot .c ∧ kindOf (.vadd af) = .slot .a ∧ kindOf (.vld (bm 1#2)) = .slot .b ∧
    kindOf (.ewait 17#5 3#3) = .slot .e := by decide

theorem witness_division : (withS 5#64 0#64).guard cr.q cr.n = true ∧ (withS 5#64 0#64).sreg cr.b = 0#64 ∧
    (withS 0x8000000000000000#64 0xFFFFFFFFFFFFFFFF#64).sreg cr.a = 0x8000000000000000#64 ∧
    (withS 0x8000000000000000#64 0xFFFFFFFFFFFFFFFF#64).sreg cr.b = 0xFFFFFFFFFFFFFFFF#64 := by decide

theorem witness_compares : (true = true ↔ (withS 4#64 4#64).sreg 1#5 = (withS 4#64 4#64).sreg 2#5) ∧
    (false = true ↔ ((withS 4#64 4#64).sreg 1#5).toInt < ((withS 4#64 4#64).sreg 2#5).toInt) := by decide

/-- A result in flight, two cycles away. -/
def farResult : Landing := { at_ := 10, due := 13, slot := 0, dest := .sreg 4#5 7#64 }

theorem witness_results_land : let s := withSeq fun q => { q with inflight := [farResult] }
    s.cur.seq.branch = none ∧ s.cur.seq.rep = none ∧ s.cur.seq.inflight ≠ [] ∧ ∀ l ∈ s.cur.seq.inflight, s.cur.seq.scyc + 1 < l.due := by decide

theorem witness_later_write : let x : Landing := { at_ := 8, due := 10, slot := 0, dest := .sreg 4#5 1#64 }
    let y : Landing := { at_ := 8, due := 10, slot := 2, dest := .sreg 4#5 2#64 }
    let t := (withSeq fun q => { q with inflight := [y, x] }).cur
    4#5 ≠ 0#5 ∧ x.due ≤ t.seq.scyc ∧ y.due ≤ t.seq.scyc ∧ (x.at_ < y.at_ ∨ (x.at_ = y.at_ ∧ x.slot < y.slot)) ∧
    (t.seq.inflight = [x, y] ∨ t.seq.inflight = [y, x]) := by decide

theorem witness_scalar_memory :
    (let s := withS 65536#64 0xFFFFFFFFFFFFFFFF#64
     s.guard 0#3 false = true ∧ (s.sreg 1#5 + s.sreg 2#5).toNat = 65535 ∧ (s.sreg 1#5 + s.sreg 2#5).toNat + 2 ^ (lds 0#2).size.toNat ≤ 65536) ∧
    (let s := withS 65528#64 0#64
     (s.sreg 1#5 + s.sreg 2#5).toNat + 2 ^ (sts 3#2).size.toNat ≤ 65536 ∧ (s.sreg 1#5 + s.sreg 2#5).toNat % 2 ^ (sts 3#2).size.toNat = 0 ∧
     Memory.wf s.cur.smem = true ∧ s.cur.seq.inflight = [] ∧ s.cur.seq.branch = none ∧ s.cur.seq.rep = none) ∧
    (withS 0#64 0#64).guard 0#3 true = false ∧
    65536 < ((withS 65529#64 0#64).sreg 1#5 + (withS 65529#64 0#64).sreg 2#5).toNat + 2 ^ (lds 3#2).size.toNat ∧
    ((withS 1#64 0#64).sreg 1#5 + (withS 1#64 0#64).sreg 2#5).toNat % 2 ^ (lds 1#2).size.toNat ≠ 0 := by decide

theorem witness_transfers :
    base.cur.seq.noTransfer = false ∧ 0 ≤ ((withSeq fun q => { q with pc := 8191 }).cur.seq.pc : Int) + (BitVec.ofInt 20 (-8191)).toInt ∧
    (withSeq fun q => { q with pc := 8191 }).cur.seq.pc < 2 ^ 13 ∧ 0 ≤ (base.cur.seq.pc : Int) + (0#14).toInt ∧
    (withSeq fun q => { q with branch := some { target := 0, taken := false, left := 1 } }).cur.seq.noTransfer = true ∧
    (withSeq fun q => { q with rep := some { n := 1, m := 0#6, j := 0, fresh := false } }).cur.seq.noTransfer = true := by decide

theorem witness_delay_bundles : let b : Branch := { target := 3, taken := true, left := 3 }
    (withSeq fun q => { q with branch := some b }).cur.seq.branch = some b ∧ b.left = 3 ∧ b.kind = .jump := by decide

theorem witness_repetition : let r : Rep := { n := 1, m := 63#6, j := 0, fresh := true }
    let s := withSeq fun q => { q with rep := some r }
    s.cur.seq.branch = none ∧ s.cur.seq.rep = some r ∧ r.fresh = true ∧ r.j = 0 ∧ 1 ≤ r.n := by decide

/-- The base state with the privilege of the root region. -/
def rootS (x y : W64) : State := (withS x y).modReg fun g => { g with priv := true }

theorem witness_requests :
    (withS 65535#64 65535#64).guard 0#3 false = true ∧ ((withS 65535#64 65535#64).sreg 1#5).toNat < 65536 ∧
    ((withS 65535#64 65535#64).sreg 2#5).toNat < 65536 ∧ (withS 0#64 0#64).cur.eng.launchReqs.length < 4 ∧
    4 ≤ (withEng fun e => { e with launchReqs := List.replicate 4 { region := 0#16, tail := 0#16, pc := 0 } }).cur.eng.launchReqs.length ∧
    65536 ≤ ((withS 65536#64 0#64).sreg 1#5).toNat ∧ (withS 0#64 0#64).guard 0#3 true = false ∧
    (rootS 0xFFFFFFFFFFFFFF#64 0x3FFF#64).cur.reg.priv = true ∧ ((rootS 0xFFFFFFFFFFFFFF#64 0x3FFF#64).sreg 1#5).toNat < 2 ^ 56 ∧
    ((rootS 0xFFFFFFFFFFFFFF#64 0x3FFF#64).sreg 2#5).toNat < 2 ^ 14 ∧ (rootS 0#64 0#64).guard 0#3 false = true := by decide

theorem witness_control_reads :
    (∀ i < 8, ((base.refreshOf (base.physTower base.cur.bnd.tile i)).defer.getD 0 - base.clk.tick * 5 / 4) / 1000000 < 2 ^ 32) ∧
    (rootS 0#64 0#64).cur.reg.priv = true ∧ ((rootS 0#64 0#64).launch? (rootS 0#64 0#64).cur.bnd.launch).isSome = true ∧
    (23 ≤ 23 ∧ 31 ≤ 31) ∧ (36 ≤ 36 ∧ 63 ≤ 63) := by decide

theorem witness_control_faults :
    base.cur.reg.priv = false ∧ 32 ≤ (32#6).toNat ∧ (35#6).toNat ≤ 35 ∧ (31#6).toNat < 32 ∧ 35 < (36#6).toNat ∧ 8 < (9#4).toNat ∧
    (1#4 ≠ 0#4 ∧ 5#6 ≠ 9#6 ∧ 5#6 ≠ 22#6) ∧ (12#6).toNat ∈ [0, 1, 2, 3, 4, 8, 12] ∧ ((withS 0#64 0#64).sreg 1#5).toNat = 0 ∧
    4096 < ((withS 4097#64 0#64).sreg 1#5).toNat ∧ 2 ^ 8 ≤ ((withS 256#64 0#64).sreg 1#5).toNat ∧ 2 ^ 9 ≤ ((withS 512#64 0#64).sreg 1#5).toNat ∧
    4 ≤ ((withS 4#64 0#64).sreg 1#5).toNat ∧ 2 ≤ ((rootS 2#64 0#64).sreg 1#5).toNat ∧ base.guard 0#3 false = true ∧
    2 ^ 13 ≤ ((withS 8192#64 0#64).sreg 1#5).toNat ∧ 2 ^ 20 ≤ ((withS 0x100000#64 0#64).sreg 1#5).toNat ∧
    ((withS 0x40000#64 0#64).sreg 1#5).getLsbD 18 = true ∧ ((withS 0x8000#64 0#64).sreg 1#5).getLsbD 15 = true ∧
    2 ^ 24 ≤ ((withS 0x1000000#64 0#64).sreg 1#5).toNat ∧ (8#4 = 8#4 ∧ 22#6 = 22#6) := by decide

theorem witness_control_writes :
    1 ≤ ((withS 1#64 0#64).sreg 1#5).toNat ∧ ((withS 4096#64 0#64).sreg 1#5).toNat ≤ 4096 ∧ ((withS 255#64 0#64).sreg 1#5).toNat < 2 ^ 8 ∧
    ((withS 511#64 0#64).sreg 1#5).toNat < 2 ^ 9 ∧ ((withS 3#64 0#64).sreg 1#5).toNat < 4 ∧ ((withS 65535#64 0#64).sreg 1#5).toNat < 2 ^ 16 ∧
    ((rootS 1#64 0#64).sreg 1#5).toNat < 2 ∧ (rootS 1#64 0#64).cur.reg.priv = true ∧ ((withS 8191#64 0#64).sreg 1#5).toNat < 2 ^ 13 ∧
    ((rootS 5#64 0#64).launch? (rootS 5#64 0#64).cur.bnd.launch).isSome = true ∧ (rootS 5#64 0#64).cur.seq.inflight = [] ∧
    (rootS 5#64 0#64).cur.seq.branch = none ∧ (rootS 5#64 0#64).cur.seq.rep = none ∧
    (let v := (withS 0xB7FFF#64 0#64).sreg 1#5
     v.toNat < 2 ^ 20 ∧ v.getLsbD 18 = false ∧ v.getLsbD 15 = false) := by decide

theorem witness_configuration : let s := withS 0x0FF7FFFF#64 0#64
    s.guard 0#3 false = true ∧ (s.sreg 1#5).toNat < 2 ^ 28 ∧ (s.sreg 1#5).getLsbD 19 = false ∧
    ((withS 0#64 0#64).sreg 1#5).toNat = 0 ∧ ((withS 4097#64 0#64).sreg 1#5).toNat ≠ 0 ∧
    (let t := rootS 0x0AAA2AAA#64 0#64
     t.cur.reg.priv = true ∧ (t.sreg 1#5).toNat < 2 ^ 28 ∧ (t.sreg 1#5).extractLsb' 14 2 = 0#2 ∧
     ∀ i < 14, (t.sreg 1#5).extractLsb' (2 * i) 2 ≠ 3#2) := by decide

theorem witness_taking_faults : let f : FaultInfo := { status := .arithTrap, cause := 2, slot := 0, info := 1#64 }
    f.cause ≠ 0 ∧ f.cause < 16 ∧ f.slot < 8 ∧ base.cur.seq.hnd = false ∧ base.cur.bnd.trapV = true ∧
    (withSeq fun q => { q with hnd := true }).cur.seq.hnd = true ∧ State.reset.cur.bnd.trapV = false ∧ ({ f with cause := 0 } : FaultInfo).cause = 0 := by
  decide

/-- The base state with one enabled flag set in cluster 0. -/
def flagged : State := { (base.modReg fun g => { g with tenab := 1#64 }) with cur := (base.modReg fun g => { g with tenab := 1#64 }).cur.modCl 0 fun c => { c with flags := 1#9 } }

theorem witness_trap_instructions : base.cur.seq.noTransfer = false ∧ base.cur.seq.hnd = false ∧
    (withSeq fun q => { q with hnd := true }).cur.seq.hnd = true ∧ (withSeq fun q => { q with hnd := true }).cur.seq.noTransfer = false ∧
    (∀ i : Fin 8, base.cur.cl[i].flags &&& base.cur.reg.tenab.setWidth 9 = 0#9) ∧
    ∃ i : Fin 8, flagged.cur.cl[i].flags &&& flagged.cur.reg.tenab.setWidth 9 ≠ 0#9 := by decide

theorem witness_trap_and_return : let f : FaultInfo := { status := .arithTrap, cause := 2, slot := 0, info := 1#64 }
    let s := withSeq fun q => { q with inflight := [farResult] }
    f.cause ≠ 0 ∧ s.cur.seq.hnd = false ∧ s.cur.bnd.trapV = true ∧ 0 < 2 ^ 13 ∧ s.cur.seq.waits = [] ∧
    (∀ l ∈ s.cur.seq.inflight, l.at_ ≤ s.cur.seq.scyc ∧ s.cur.seq.scyc ≤ l.due) ∧ s.cur.seq.scyc ≤ 15 ∧
    ((s.takeFault 0 f).modSeq fun q => { q with scyc := 15 }).cur.seq.pendingForced = [] ∧ (8191#64).toNat < 2 ^ 13 ∧
    (let w := s.addWait .copies
     w.cur.seq.waits ≠ [] ∧ w.cur.seq.hnd = false ∧ w.cur.bnd.trapV = true ∧
     (∀ l ∈ w.cur.seq.inflight, l.at_ ≤ w.cur.seq.scyc ∧ w.cur.seq.scyc ≤ l.due) ∧
     ((w.takeFault 0 f).modSeq fun q => { q with scyc := 10 }).cur.seq.pendingForced = []) := by decide

/-- Runs of the values 0, 1, …, each `k` long. -/
def stairs (n k : Nat) : Runs W32 := (List.range n).map fun i => (BitVec.ofNat 32 i, k)

/-- The elements of VIADD in cluster 0. -/
def sums (s : State) (n : Nat) : List (W32 × BitVec 9) :=
  elements (maskAt s.cur.cl[(0 : Fin 8)] 0#3) false 0#32 (runAt 0#32 (s.cur.cl[(0 : Fin 8)].vreg 3#5))
    (fun p => (runAt 0#32 (s.cur.cl[(0 : Fin 8)].vreg 1#5) p + runAt 0#32 (s.cur.cl[(0 : Fin 8)].vreg 2#5) p, 0#9)) n

/-- 32 runs fit, and with operands of staggered runs VIADD needs more than 32. -/
theorem witness_integer_elements :
    (let s := (withV (stairs 32 1) (stairs 1 32)).modReg fun g => { g with vl := 32#64 }
     s.selected 0#2 ≠ [] ∧ s.vl = 32 ∧ runsNeeded ((sums s 32).map Prod.fst) = 32 ∧ (∀ p ∈ s.cur.cl[(0 : Fin 8)].vreg 1#5, 1 ≤ p.2)) ∧
    (let s := (withV (stairs 20 2) ((0#32, 1) :: stairs 20 2)).modReg fun g => { g with vl := 40#64 }
     0 ∈ s.selected 0#2 ∧ 32 < runsNeeded ((sums s 40).map Prod.fst) ∧ s.cur.reg.mode.getLsbD 0 = false ∧
     (s.modReg fun g => { g with mode := 1#64 }).cur.reg.mode.getLsbD 0 = true) := by decide

theorem witness_rounding_modes : base.cur.reg.rm ≤ 4 ∧ (base.modReg fun g => { g with fmt := 0x40000#64 }).cur.reg.rm = 4 ∧
    4 < (base.modReg fun g => { g with fmt := 0x50000#64 }).cur.reg.rm := by decide

theorem witness_masks_and_runs : base.selected 0#2 ≠ [] ∧ (base.modReg fun g => { g with cma := 0#64 }).selected 1#2 = [] ∧
    (∀ i ∈ base.selected 0#2, runsNeeded (List.replicate base.vl 7#32) ≤ 32) ∧
    (∀ i : Fin 8, (base.cur.cl[i].vreg 1#5).length ≤ 32) := by decide

/-- A tower load and store at the lowest and at the highest leased address, of one element. -/
theorem witness_tower_access :
    (∀ l ∈ base.cur.seq.inflight, l.at_ < base.cur.seq.scyc) ∧ (bm 0#2).fe = 0#2 ∧ base.cur.reg.mode.getLsbD 1 = false ∧ base.mem.towerBad = [] ∧
    (∀ i ∈ base.selected 0#2, ∀ p < min base.vl (512 / 32), (8 * 0 + p * 32) / 8 % (32 / 8) = 0 ∧
      base.rangeOk base.cur i.val ((8 * 0 + p * 32) / 8) 4 = true) ∧
    base.rangeOk base.cur 0 65532 4 = true ∧ base.rangeOk base.cur 0 65536 4 = false ∧ 2 % (32 / 8) ≠ 0 ∧
    (∀ i < 8, ∀ row < 2, base.towerPoisoned 33 i row = false) ∧
    (let s : State := { (base.modReg fun g => { g with mode := 2#64, vl := 1#64 }) with
       mem := { base.mem with full := insertNat (towerKey (base.physTower 33 0) 0 / 16) [], towerBad := [base.physTower 33 0 * 65536] } }
     s.cur.reg.mode.getLsbD 1 = true ∧ 0 ∈ granulesOf ((8 * 0 + 0 * 32) / 8) ((32 + 7) / 8) ∧ s.isFull 33 0 0 = true ∧ s.isFull 33 1 0 = false ∧
     0 ∈ s.selected 0#2 ∧ 1 ∈ s.selected 0#2 ∧ s.towerPoisoned 33 0 (0 / 4) = true ∧ min s.vl (512 / 32) ≤ 32 ∧ s.cur.seq.state ≠ .dead ∧
     s.cur.seq.pendingFault = none) ∧
    (∀ i j : Fin 8, base.physTower base.cur.bnd.tile i.val = base.physTower base.cur.bnd.tile j.val → i = j) ∧
    Memory.wf base.mem.towers = true := by decide

/-- Strided elements of which the second is the first that is misaligned, or the first that is not leased; four-bit elements in cluster 0. -/
theorem witness_tower_faults : (base.selected 0#2).head? = some 0 ∧ lfWidth 0 = 32 ∧ lfWidth 6 = 4 ∧ 1 < min base.vl 16 ∧ 2 % (32 / 8) ≠ 0 ∧
    (let s := withS 0#64 2#64
     let addr := fun p : Nat => 8 * (((s.sreg 1#5).toNat + (p : Int) * (s.sreg 2#5).toInt) % 2 ^ 64).toNat
     addr 1 / 8 % (32 / 8) ≠ 0 ∧ ∀ q < 1, addr q / 8 % (32 / 8) = 0) ∧
    (let s := withS 65532#64 4#64
     let addr := fun p : Nat => 8 * (((s.sreg 1#5).toNat + (p : Int) * (s.sreg 2#5).toInt) % 2 ^ 64).toNat
     (∀ p < min s.vl 16, addr p / 8 % (32 / 8) = 0) ∧ s.rangeOk s.cur 0 (addr 1 / 8) 4 = false ∧ ∀ q < 1, s.rangeOk s.cur 0 (addr q / 8) 4 = true) ∧
    (base.rangeOk base.cur 0 ((8 * 65532 + 1 * 32) / 8) 4 = false ∧ base.rangeOk base.cur 0 ((8 * 65532 + 0 * 32) / 8) 4 = true) := by decide

/-- The waiting load of one element, whose granule a store has filled. -/
def fullLoad : WLoad :=
  { kind := .elems 0#3 [(0, [0])], fe := 1#2, d := 4#5, cls := [0], msk := [(0, none)], old := [(0, [])], vl := 1, split := true, at_ := 9 }

theorem witness_waiting_loads : (bm 1#2).fe ≠ 0#2 ∧
    (let s : State := { base with mem := { base.mem with full := insertNat (towerKey (base.physTower 33 0) 0 / 16) [] } }
     s.loadReady fullLoad = true ∧ fullLoad.split = true ∧ s.mem.towerBad = [] ∧ (∀ x ∈ s.cur.seq.inflight, x.at_ < s.cur.seq.scyc) ∧
     lookupCl none 0 fullLoad.msk = (none : Option (Runs Bool)) ∧ (∀ p ∈ fullLoad.old, ∀ q ∈ p.2, 1 ≤ q.2) ∧
     ([(0, [0])].map Prod.fst : List Nat).Nodup) ∧
    (let addrs := (List.range 40).map fun k => 32 * (k % 2)
     let l : WLoad := { fullLoad with kind := .elems 0#3 [(0, addrs)], split := false, msk := [(0, some [(true, 40)])] }
     let s : State := { base with mem := { base.mem with
       full := insertNat (towerKey (base.physTower 33 0) 0 / 16) [], towers := Memory.putBytes [] (towerKey (base.physTower 33 0) 0) [1#8] } }
     s.loadReady l = true ∧ l.split = false ∧ (∀ p ∈ l.msk, ∀ r ∈ p.2, ∀ q ∈ r, 1 ≤ q.2) ∧
     32 < runsNeeded (addrs.mapIdx fun j a => if (lookupCl none 0 l.msk).all (fun m => runAt false m j) = true then
       lfLoad 0 (s.towerCode s.cur.bnd.tile 0 32 a) else 0#32)) := by decide

/-- A tower whose row 0 holds a chain of one run (0x40400000, 16). -/
def chained : State := { base with mem := { base.mem with
  towers := Memory.putBytes [] (towerKey (base.physTower 33 0) 0) (buildRow 0 true [(0x40400000, 16)]) } }

theorem witness_chains : base.cur.seq.lastFault = none ∧
    (chained.chainAt 0 0#22 false).runs = [(0x40400000#32, 16)] ∧ (chained.chainAt 0 0#22 false).rows = 1 ∧
    reservedType base.cur.reg.dstt = false ∧ ((vat base.cur.cl[(0 : Fin 8)].y 0#2).toNat % 64 = 0 ∧ base.rowOk base.cur 0 0 = true) ∧
    (∀ i ∈ base.selected 0#2, ∀ p < 2, base.rangeOk base.cur i.val (0 + p) 1 = true) := by decide +kernel

theorem witness_ring_rows : let r := testRing
    vat (withRing r).cur.rings 3#4 = r ∧ r.bound = true ∧ reservedType base.cur.reg.typeA = false ∧ (r.ret ≤ 3 ∧ 3 < r.ret + r.rows) ∧
    (1 < r.prod ∨ (r.err = false ∧ r.done = false ∧ r.flushing = false)) ∧ r.pkind = 0 ∧ r.prod ≤ 2 ∧ reservedType base.cur.reg.dstt = false ∧
    (vat base.cur.rings 3#4).bound = false := by decide +kernel

theorem witness_shifts : ((withS 0#64 3#64).sreg 2#5).toNat < 4 ∧ base.cur.bnd.atEdge 3 = false ∧
    (({ base.cur.bnd with tx := 0, ty := 0 } : Bind).atEdge 0 || ({ base.cur.bnd with tx := 0, ty := 0 } : Bind).atEdge 1 ||
      ({ base.cur.bnd with tx := 0, ty := 0 } : Bind).atEdge 2 || ({ base.cur.bnd with tx := 0, ty := 0 } : Bind).atEdge 3) = true ∧
    (∀ i ∈ base.selected 0#2, (base.cur.eng.shifts.filter fun p => p.cluster == i).length < 4) := by decide

theorem witness_moves : base.vl ≤ 4096 ∧ ((withS 0x76543210#64 0#64).sreg 1#5).toNat < 2 ^ 32 ∧
    (∀ c < 8, ((withS 0x76543210#64 0#64).sreg 1#5).getLsbD (4 * c + 3) = false) ∧ (base.selected 0#2).head? = some 0 ∧
    (withS 15#64 0#64).sreg 1#5 = BitVec.ofNat 64 (15 : Fin 16).val ∧ 16 ≤ ((withS 16#64 0#64).sreg 1#5).toNat := by decide

theorem witness_conversions : reservedType base.cur.reg.typeA = false ∧ isIntType base.cur.reg.typeA = false ∧
    (reservedType (base.modReg fun g => { g with fmt := 0xF#64 }).cur.reg.typeA || isIntType (base.modReg fun g => { g with fmt := 8#64 }).cur.reg.typeA) = true := by
  decide

/-! ### The engine slot -/

theorem witness_mark : (-(2 ^ 31 : Int)) ≤ (base.cur.seq.dcyc : Int) - base.cur.mark.dPrev - (12#20).toNat ∧
    max (-(2 ^ 31 : Int)) (min (2 ^ 31 - 1) ((base.cur.seq.dcyc : Int) - base.cur.mark.dPrev - (12#20).toNat)) = 0 := by decide

theorem witness_engine_registers : (21#5).toNat < 22 ∧ (0#5).toNat < engineRegs 16#5 ∧ engineRegRO 16#5 0#5 = false ∧
    (∃ m ∈ (engineMasks (16#5).toNat)[(0#5).toNat]?, (withS 0#64 0#64).sreg 1#5 &&& ~~~(BitVec.ofNat 64 m) = 0#64) ∧
    ∃ m ∈ (engineMasks (16#5).toNat)[(0#5).toNat]?, (withS (~~~0#64) 0#64).sreg 1#5 &&& ~~~(BitVec.ofNat 64 m) ≠ 0#64 := by decide

theorem witness_engine_waits : ((21#5).toNat < 22 ∧ (3#3).toNat < 4) ∧ ((19#5).toNat < 22 ∧ (1#3).toNat < 2) ∧
    (let s := withRing testRing
     (vat s.cur.rings 3#4).bound = true ∧ (vat s.cur.rings 3#4).err = false ∧ (vat s.cur.rings 3#4).done = false ∧
     (vat s.cur.rings 3#4).flushing = false ∧ 1 < (vat s.cur.rings 3#4).prod ∧ (vat s.cur.rings 3#4).prod ≤ 2) ∧
    (vat (withRing { testRing with err := true }).cur.rings 3#4).err = true ∧ (vat (withRing { testRing with done := true }).cur.rings 3#4).done = true ∧
    (vat (withRing testRing).cur.rings 3#4).prod < 3 ∧ (3#5).toNat < 16 ∧ (base.launch? base.cur.bnd.launch).isSome = true := by decide

/-- A DONE word that reads, one in a page that is not present, one beside every page, and one that another task of the launch has written. -/
theorem witness_done_words : let r := fun (s : State) (va : Nat) => (s.readVirt s.cur { read := true, write := false } va 8).1
    (match r base 0 with
     | .ok bs => bs.length == 8
     | _ => false) = true ∧
    (match r base (2 ^ 33) with
     | .error .wait => true
     | _ => false) = true ∧
    (match r base (2 ^ 57) with
     | .error (.prot _) => true
     | _ => false) = true := by decide +kernel

/-- A descriptor of a window of 64 elements of 8 bits from virtual address 0, in rows of 64. -/
def testDesc : Vector W64 18 := #v[0#64, 10#64, 1#64, 0#64, 64#64, 0#64, 0#64, 0#64, 1#64, 0#64, 0#64, 0#64, 0#64, 4#64, 0#64, 0#64, 0#64, 64#64]

theorem witness_rings : let r := { Ring.reset with desc := testDesc }
    let w := windowOf r.desc
    base.cur.seq.lastFault = none ∧ 1 ≤ w.rows ∧ w.rows ≤ 65535 ∧ w.raddr + w.rows ≤ 128 * min base.cur.bnd.lease 384 ∧
    (windowOf (Vector.replicate 18 0#64)).rows = 0 ∧ 65535 < (windowOf (r.desc.set 13 65536#64)).rows ∧
    128 * min base.cur.bnd.lease 384 < (windowOf (r.desc.set 12 1021#64)).raddr + (windowOf (r.desc.set 12 1021#64)).rows ∧
    (vat (withRing r).cur.rings 3#4).bound = false ∧ w.sourceOk = true ∧ (dsc r.desc 15).toNat = 0 ∧
    (vat (withRing { testRing with desc := testDesc }).cur.rings 3#4).bound = true ∧ testRing.pkind = 0 ∧ testRing.stream = none ∧
    testRing.parts = [] ∧ 1 ≤ ((withS 4#64 0#64).sreg 1#5).toNat ∧ ((withS 4#64 0#64).sreg 1#5).toNat ≤ testRing.rows := by decide

/-- The registers of a broadcast of one row to tower 0 of tile row 1. -/
def casting : State := withEng fun e => { e with bc := #v[0#64, 0x101#64, 1#64, 1#64, 0#64] }

theorem witness_broadcast : let g := casting.cur.eng.bc
    casting.cur.eng.oBc < 2 ∧ ((g[1]).extractLsb' 0 5).toNat ≤ ((g[1]).extractLsb' 8 5).toNat ∧ ((g[1]).extractLsb' 0 5).toNat < casting.cur.bnd.h ∧
    (g[2]).setWidth 8 ≠ 0#8 ∧ (g[3]).toNat ≠ 0 ∧ (g[0]).toNat % 64 = 0 ∧ casting.bcReceivers 1 1 1 1 ≠ [] ∧
    ∀ t ∈ casting.bcReceivers 1 1 1 1, casting.rowOk t 0 (g[4]).toNat = true ∧ casting.rowOk t 0 ((g[4]).toNat + (g[3]).toNat - 1) = true := by decide

/-- The registers of a send of one row to tile (1, 1). -/
def sending : State := { withEng (fun e => { e with xp := #v[0x101#64, 0#64, 1#64] }) with
  cur := { (withEng fun e => { e with xp := #v[0x101#64, 0#64, 1#64] }).cur with rings := vput base.cur.rings 3#4 testRing } }

theorem witness_express : let g := sending.cur.eng.xp
    sending.cur.eng.oXp < 4 ∧ ((g[0]).extractLsb' 0 5).toNat < sending.cur.bnd.w ∧ ((g[0]).extractLsb' 8 5).toNat < sending.cur.bnd.h ∧
    (g[2]).toNat ≠ 0 ∧ (vat sending.cur.rings 3#4).bound = true ∧ (vat sending.cur.rings 3#4).ret ≤ (sending.sreg 1#5).toNat ∧
    (sending.sreg 1#5).extractLsb' 0 6 = 0#6 ∧ sending.tileAt 1 1 1 = some 33 ∧ sending.mem.towerBad = [] ∧
    sending.rangeOk sending.cur 0 (sending.sreg 1#5).toNat 64 = true := by decide

theorem witness_copies : let s := withEng fun e => { e with dm := #v[0#64, 0#64, 512#64, 0#64] }
    let n := (s.cur.eng.dm[2]).toNat
    s.cur.eng.oDm < 2 ∧ n ≠ 0 ∧ n % 512 = 0 ∧ (∀ i < 8, s.rowOk s.cur i 0 = true ∧ s.rowOk s.cur i (0 + n / 512 - 1) = true) ∧
    (base.cur.eng.dm[2]).toNat = 0 ∧ ((withS 4032#64 0#64).sreg 1#5).toNat + (63#6).toNat + 1 ≤ 4096 ∧ base.cur.eng.pubs.length < 4 ∧
    4 ≤ (withEng fun e => { e with pubs := List.replicate 4 { id := 0, first := 0, n := 1, ids := [], pc := 0 } }).cur.eng.pubs.length := by decide

/-- Rings 0 and 1 bound, and a batch vector of 64 FP16 values. -/
def multiplying (mu : Vector W64 12) (fmt : W64) : State := { base with cur := { base.cur with
  rings := (base.cur.rings.set 0 testRing).set 1 testRing
  reg := { base.cur.reg with fmt := fmt }
  eng := { base.cur.eng with mu := mu, batch := some (64, 1#4, [List.replicate 64 0#32]) } } }

theorem witness_matrix_starts :
    (let s := multiplying #v[0#64, 0#64, 0#64, 0#64, 1#64, 2#64, 0#64, 0#64, 0#64, 0#64, 0#64, 0#64] 0x11#64
     s.cur.eng.oMu < 2 ∧ s.muTypesOk false = true ∧ s.muTypesOk true = true ∧ (s.cur.eng.mu[0]).toNat = 0 ∧
     (s.cur.eng.mu[3]).extractLsb' 0 4 ≠ (s.cur.eng.mu[4]).extractLsb' 0 4 ∧ (vat s.cur.rings 0#4).bound = true ∧ (vat s.cur.rings 1#4).bound = true ∧
     64 * ((s.cur.eng.mu[1]).toNat + 1) ≤ 512 ∧ 64 * ((s.cur.eng.mu[1]).toNat + 1) ≤ s.batchShape.1 ∧ s.batchShape.2 = s.cur.reg.typeB ∧
     reservedType s.cur.reg.typeB = false ∧ reservedType s.cur.reg.dstt = false ∧ s.cur.reg.rm ≤ 4 ∧
     s.cur.reg.fmt.extractLsb' 12 4 = 0#4 ∧ (vat s.cur.rings 0#4).pkind = 0 ∧ s.cur.eng.oMu = 0) ∧
    2 ≤ (withEng fun e => { e with oMu := 2 }).cur.eng.oMu := by decide

theorem witness_fabric_requests : base.cur.eng.oFb < 4 ∧ (base.cur.eng.fb[0]).toNat ≤ 256 ∧ (base.cur.eng.fb[2]).toNat % 64 = 0 ∧
    (base.cur.eng.fb[0]).toNat < 256 ∧ base.cur.eng.oNb < 4 ∧ ((withS 65504#64 0#64).sreg 1#5 + (withS 65504#64 0#64).sreg 2#5).toNat % 32 = 0 ∧
    ((withS 65504#64 0#64).sreg 1#5 + (withS 65504#64 0#64).sreg 2#5).toNat + 32 ≤ 65536 ∧
    (∀ i : Fin 8, ((#v[0#32, 0#32, 0#32, 0#32, 0#32, 0#32, 0#32, 0#32] : Vector W32 8)[i]).toNat = leNat (base.cur.smem.bytes (65504 + 4 * i.val) 4)) := by
  decide

theorem witness_signals : base.cur.eng.sigs.length < 16 ∧ 16 ≤ (withEng fun e => { e with sigs := List.replicate 16 ⟨0#10, 0#32, 0⟩ }).cur.eng.sigs.length ∧
    (base.dbg base.cur.bnd.tile).trEn = true ∧ (base.dbg base.cur.bnd.tile).port.length < 8 ∧ base.obs.fixHeld = false ∧ base.obs.fixPend = none ∧
    { base with obs := { base.obs with fixHeld := true } }.obs.fixHeld = true ∧ base.cur.bnd.refdef = true ∧
    ((withS 58000#64 0#64).sreg 1#5).toNat ≤ 58000 ∧ base.cur.bnd.lease ≠ 0 ∧
    (∀ i < 8, ∀ j < 8, base.physTower base.cur.bnd.tile i = base.physTower base.cur.bnd.tile j → i = j) ∧
    58000 < ((withS 58001#64 0#64).sreg 1#5).toNat ∧ ((withS 7#64 0#64).sreg 1#5).toNat < 8 ∧
    (∀ i < 8, (base.refreshOf (base.physTower base.cur.bnd.tile i)).pass = none) := by decide

/-! ### Global memory and near-bank units -/

/-- The one span of a translation, if it succeeds with one. -/
def oneSpan (r : Except XFail (List Span) × State) : Option Span := match r.1 with
  | .ok [sp] => some sp
  | _ => none

/-- Address 0 is readable and writable, 2^33 is not present, and R86's caches are filled for both. -/
theorem witness_global : (withS 0#64 0#64).guard 0#3 false = true ∧ (withS 0#64 0#64).guard 0#3 true = false ∧
    ((withS 8#64 0#64).sreg 1#5).toNat < 2 ^ 56 ∧ ((withS 8#64 0#64).sreg 1#5).toNat % 8 = 0 ∧
    (∃ sp, oneSpan (State.spans base.cur.xctx { read := true, write := true } (spanFuel 8) base 8 8) = some sp ∧ sp.place.kind = 0 ∧
      sp.len = 8 ∧ pteChk sp.pte = false ∧ pteCmp sp.pte = false) ∧
    oneSpan (State.spans base.cur.xctx { read := true, write := false } (spanFuel 8) base (2 ^ 33) 8) = none ∧
    Memory.wf base.mem.hbm = true ∧ base.tlbPending base.cur.bnd.tile = false ∧ base.mem.wport = [] ∧ base.env.retrain = [] ∧
    base.mem.locked = [] ∧ base.mem.hbmBad = [] ∧ base.obs.counters = [] := by decide +kernel

/-- A page with race detection, whose first sector another tile of the launch has written. -/
def racing : State := { withLaunch { testLaunch with races := [{ sector := 0, phase := 0, tile := 34, wrote := true }] } with
  mem := { base.mem with hbm := ((Memory.putBytes [] 0x1000 (leBytes 0x2001 8)).putBytes 0x2000 (leBytes 0x3001 8)).putBytes 0x3000 (leBytes 0x1F7 8) } }
def someLoad : GAccess := { op := .load false, d := 4#5, ea := 8, size := 8, scope := 1#2, value := 0#64, cmp := 0#64, at_ := 10 }

theorem witness_race : someLoad.op = .load false ∧ racing.tlbPending 33 = false ∧
    (match State.spans racing.cur.xctx someLoad.want (spanFuel 8) racing 8 8 with
     | (.ok [sp], s') => decide (sp.len ≤ sp.place.unit - sp.place.addr % sp.place.unit) && s'.mayPerform someLoad [sp] &&
       (match s'.checkRace 1 33 false [sp] with
        | .error i => i == 0x8000000000000008#64
        | .ok _ => false)
     | _ => false) = true := by decide +kernel

/-- Page tables of one channel-local leaf of 16 MiB at virtual address 0. -/
def localHbm : Memory :=
  (((Memory.putBytes [] 0x1000 (leBytes 0x2001 8)).putBytes 0x2000 (leBytes 0x3001 8)).putBytes 0x3000 (leBytes 0x4001 8)).putBytes 0x4000 (leBytes 0x2EF 8)

/-- A command of the task on tile 33, whose rows are rows 0 and 1, and which counts at virtual address 0. -/
def testCmd : NbCmd := { launch := 1, tile := 33, region := 7, words := #v[0x80000#32, 0#32, 1#32, 0#32, 0#32, 0#32, 0#32, 0#32], doneVa := 0, pc := 0, stream := none }
def testMicro (off : BitVec 24) : MicroForm := { acc := 0#2, rsel := 0#2, off := off }
def testPacket : NbForm := { dn := false, opf := 0#2, nrow := 0#5, typ := 0#4, acc := 0#2, words := #v[0#32, 0#32, 0#32, 0#32, 0#32, 0#32, 0#32] }

def nearBank : State := { base with mem := { base.mem with hbm := localHbm }, net := { base.net with curCmd := testCmd } }

theorem witness_near_bank : Memory.wf nearBank.mem.hbm = true ∧ nearBank.net.curCmd.row (testMicro 0#24) = some 0#32 ∧
    (nearBank.issuerTask testCmd).isSome = true ∧
    (match nearBank.translate base.cur.xctx { read := true, write := true } 0 1024 with
     | (.ok sp, s') => nbPageOk (channelOf sp.place.addr) sp && !nearBank.poisoned [sp] && s'.mem.wport == [] && channelOf sp.place.addr == nearBank.net.curChan
     | _ => false) = true ∧
    (match nearBank.donePlace 0 22 testCmd with
     | (.ok sp, _) => sp.place.kind == 0
     | _ => false) = true ∧
    (testCmd.word 0).getLsbD 19 = true ∧ (NbCmd.reset.word 0).getLsbD 19 = false := by decide +kernel

theorem witness_packets :
    ((testPacket.typ = 0#4 ∨ testPacket.typ = 8#4) ∧ testPacket.opf ≠ 3#2 ∧ testPacket.nrow.toNat < 1 ∧ ∀ k, (h : k < 7) → testPacket.words[k] = 0#32) ∧
    ({ testPacket with nrow := 31#5 }.nrow.toNat < 32 ∧ ¬ { testPacket with nrow := 31#5 }.nrow.toNat < 16 ∧ { testPacket with opf := 3#2 }.opf = 3#2) ∧
    uprogOps ({ testPacket with words := #v[0#32, 0#32, 0xF0000000#32, 0#32, 0#32, 0#32, 0#32] }.words.toList.drop 2) ≠
      uprogOps ({ testPacket with words := #v[0#32, 0#32, 0#32, 0#32, 0#32, 0#32, 0#32] }.words.toList.drop 2) := by decide

theorem witness_filters : base.obs.written.lookup (coreCounter 0 7) = none ∧ (base.counter (coreCounter 0 7)).getLsbD 48 = false ∧ counterValue (base.counter (coreCounter 0 7)) + 1 < 2 ^ 48 ∧
    (2#32).extractLsb' 0 2 = 2#2 ∧ (1#32).extractLsb' 0 2 = 1#2 ∧ (0#32).extractLsb' 0 2 = 0#2 ∧ (3#32).extractLsb' 0 2 = 3#2 ∧
    base.obs.fixHeld = false ∧ base.obs.fixPend = none ∧ base.obs.counters = [] ∧
    (let l := ({ base with obs := { base.obs with cores := [(0, { Logline.reset with trbase := 0x10000#64 })] } } : State).core 0
     l.trbase ≠ 0#64 ∧ (l.trhead + 1) % 2 ^ l.trlog2 ≠ l.trtail) := by decide

/-! ### Tasks -/

/-- A landing that is due. -/
def dueResult : Landing := { at_ := 7, due := 10, slot := 0, dest := .sreg 4#5 7#64 }

/-- A write that the port of tile 33 holds. -/
def heldWrite : PortWrite := { tile := 33, place := { kind := 0, addr := 0x8000 }, bytes := [1#8], dev := false }
def hwFault : FaultInfo := { status := .hwError, cause := 0, slot := 6, info := 0#64 }

theorem witness_task_events :
    (base.cur.bound = true ∧ base.cur.seq.state = .running ∧ base.cur.seq.pendingFault = none ∧ base.cur.seq.waits = [] ∧
     base.cur.seq.pendingForced = [] ∧ base.cur.eng.nbLate base.clk.tick = false ∧ (base.dbg 33).bkp0.getLsbD 63 = false ∧
     (base.dbg 33).bkp1.getLsbD 63 = false ∧ base.cur.watch.steps = none ∧ base.cur.seq.lockFrom = none ∧ base.cur.seq.freeAt ≤ base.clk.tick ∧ base.mem.locked = []) ∧
    (heldWrite.dev = false ∧ base.env.retrain = []) ∧
    ((withSeq fun q => { q with inflight := [dueResult] }).cur.seq.inflight = [dueResult] ∧ dueResult.due ≤ base.cur.seq.scyc ∧ dueResult.runlen = []) ∧
    (base.focus 33).isSome = true ∧ (base.focus 34).isNone = true ∧
    (let s := withSeq fun q => { q with waits := [.copies] }
     s.cur.seq.waits = [.copies] ∧ s.cur.seq.lastFault = none ∧ (Wait.copies).isEngine = true ∧ (s.tryWait .copies).isSome = true ∧
     s.cur.mark.armed = false) ∧
    ({ base with mem := { base.mem with wport := [heldWrite] } } : State).mem.wport = [heldWrite] ∧
    ((withSeq fun q => { q with pendingFault := some { fault := hwFault, pc := none } }).cur.seq.pendingFault = some { fault := hwFault, pc := none }) := by
  decide

/-- A launch of one tile, whose one task waits at a barrier. -/
def oneLaunch : Launch := { testLaunch with w := 1, h := 1, origin := (1, 1) }
def atBarrier : State :=
  let s := withLaunch oneLaunch
  { s with cur := { s.cur with
      bnd := { s.cur.bnd with tx := 0, ty := 0, w := 1, h := 1 }
      seq := { s.cur.seq with waits := [.barrier 0#2 1] }
      eng := { s.cur.eng with xbar := #v[1, 0, 0] } } }

theorem witness_barriers : atBarrier.cur.bound = true ∧ atBarrier.parked = [] ∧ (atBarrier.launch? 1).isSome = true ∧
    atBarrier.cur.seq.state = .running ∧ atBarrier.cur.seq.waits = [.barrier 0#2 1] ∧ atBarrier.cur.seq.saved = none ∧
    atBarrier.cur.seq.branch = none ∧ atBarrier.cur.seq.resumed = false ∧ atBarrier.cur.mark.armed = false ∧ atBarrier.cur.eng.xbars 0#2 = 1 ∧
    atBarrier.mem.wport = [] ∧ oneLaunch.bars < 1 ∧
    (let s : State := { atBarrier with parked := [testTask] }
     (s.members 1 0#2 0).filterMap (barrierWait 0#2) = [1] ∧ ((s.members 1 0#2 0).any fun t => !s.arrived 0#2 1 t) = true ∧
     ((s.members 1 0#2 0).all fun t => !s.barrierDone 0#2 1 t) = true) ∧
    (let s : State := atBarrier.modSeq fun q => { q with state := .stopped }
     (s.members 1 0#2 0).any (fun t => t.seq.state == .stopped) = true) ∧
    (∀ w ∈ [{ heldWrite with at_ := atBarrier.cur.seq.waitScyc + 1 }], w.tile = 33 → atBarrier.cur.seq.waitScyc < w.at_) := by decide

/-! ### Queues and scheduling -/

/-- A live doorbell of region 7, whose control block with a queue of 16 stands at 0x9000. -/
def liveDoorbell : Doorbell := { Doorbell.reset with live := true, rcba := 0x90 }
def queued : State := { base with
  sched := { base.sched with doorbells := [(7, liveDoorbell)] }
  mem := { base.mem with hbm := testHbm.putBytes (0x9000 + 78) [0x40#8] }
  cur := { base.cur with eng := { base.cur.eng with launchReqs := [{ region := 7#16, tail := 1#16, pc := 0 }] } } }

theorem witness_queues : (queued.doorbell 7).live = true ∧ queued.queueLen 7 = 16 ∧ (15#16).toNat < queued.queueLen 7 ∧ ¬ (16#16).toNat < queued.queueLen 7 ∧
    ((queued.doorbell 7).tail + 16 - queued.qhead 7 % 16) % 16 ≤ ((15#16).toNat + 16 - queued.qhead 7 % 16) % 16 ∧
    State.reset.doorbell 7 = .reset ∧ State.reset.admitted 7 = [] ∧ queued.admitted 7 ≠ [] ∧
    queued.cur.eng.launchReqs = [{ region := 7#16, tail := 1#16, pc := 0 }] ∧ queued.portClear 33 1#2 = true ∧ (7#16).toNat = queued.cur.bnd.region ∧
    (base.doorbell 7).live = false ∧ queued.cur.seq.pendingFault = none ∧ queued.cur.seq.state ≠ .dead ∧ (queued.sched.launches.all fun l => l.contexts.isEmpty) = true := by decide +kernel

/-- A launch that may be placed. -/
def askingLaunch : Launch := { testLaunch with phase := .eligible, onGrid := false, placedAt := none }

def free : State := { withLaunch askingLaunch with cur := Task.blank }

theorem witness_pass : free.sched.doorbells = [] ∧ free.mgmt.saving = false ∧ free.plc.tstat = [] ∧ askingLaunch.contexts = [] ∧ askingLaunch.gangKey = 0 ∧ askingLaunch.eff.sliced = false ∧
    askingLaunch.eff.ageLim = 0 ∧ askingLaunch.cls ≤ 15 ∧ askingLaunch.w * askingLaunch.h ≤ askingLaunch.eff.maxTiles ∧ askingLaunch.eff.chain = [] ∧
    (origins askingLaunch.w askingLaunch.h).find? (fun o => (rectTiles o.1 o.2 askingLaunch.w askingLaunch.h).all fun k =>
      free.tileGrants askingLaunch k && !free.excluded askingLaunch k && !(free.sched.clearing.any fun c => c.1 == k)) = some (0, 0) := by decide +kernel

theorem witness_scheduling : base.launch? 2 = none ∧
    (let l := { testLaunch with phase := .waiting, deps := [{ va := 0, thr := 1#64, sat := false }] }
     (withLaunch l).launch? l.id = some l ∧
     (match (withLaunch l).schedRead l.id l.eff 0 8 with
      | (.ok bs, _) => bs.length == 8
      | _ => false) = true) ∧
    (let l := { askingLaunch with eff := { askingLaunch.eff with ageLim := 1 } }
     l.placedAt = none ∧ l.aged = false ∧ l.eff.ageLim ≠ 0 ∧ (withLaunch l).elapsed < l.since + 1000000 * l.eff.ageLim ∧
     l.since + 1000000 * l.eff.ageLim ≤ ({ withLaunch l with clk := { base.clk with ptimeQ := 4000000 } } : State).elapsed) ∧
    (0 + 1000000000 ≤ ({ base with clk := { base.clk with ptimeQ := 4000000000 } } : State).elapsed ∧
     ({ base with clk := { base.clk with ptimeQ := 3999999999 } } : State).elapsed < 0 + 1000000000) ∧
    (let l := { testLaunch with wdogLeft := 0 }
     (withLaunch l).launch? 1 = some l ∧ l.onGrid = true ∧ l.status = .ok ∧ l.phase = .resident) ∧
    testLaunch.wdogLeft ≠ 0 ∧ testLaunch.phase = .resident ∧ ({ testLaunch with phase := .saving }).phase = .saving ∧
    (withSeq fun q => { q with state := .held }).cur.seq.state = .held := by decide +kernel

/-- A sliced launch, resident and asking as the member of a gang, whose slice is 1 ms of every 4 ms. -/
def slicedEff : Effective := { testEff with sliced := true, slPeriod := 4000, slLen := 1000 }
def slicedLaunch : Launch := { testLaunch with eff := slicedEff }
def slicedGang : Launch := { askingLaunch with eff := slicedEff, gangKey := 1, gang := 1 }
def atTime (s : State) (q : Nat) : State := { s with clk := { s.clk with ptimeQ := q } }

theorem witness_slices : slicedLaunch.eff.sliced = true ∧ slicedLaunch.region < 65536 ∧ (atTime (withLaunch slicedLaunch) 0).inSlice slicedEff = true ∧
    (atTime (withLaunch slicedLaunch) 4000000).inSlice slicedEff = false ∧ (atTime (withLaunch slicedLaunch) 0).sliceEnds slicedEff = false ∧
    (atTime (withLaunch slicedLaunch) 0).sliceStarts slicedEff = true ∧ (atTime (withLaunch slicedLaunch) 15999999).sliceStarts slicedEff = false ∧
    ((withLaunch slicedLaunch).launchTasks 1).any Task.receives = true ∧ slicedLaunch.phase = .resident ∧ slicedLaunch.eff.preempt = true ∧
    slicedGang.gangKey ≠ 0 ∧ slicedGang.phase = .eligible ∧
    (match ({ free with sched := { free.sched with launches := [slicedGang] } } : State).place [slicedGang] with
     | some s' => s'.groupFree [slicedGang] && s'.sched.launches.all fun v => !v.onGrid
     | none => false) = true ∧ (({ free with sched := { free.sched with launches := [slicedGang] } }).place [slicedGang]).isSome = true ∧
    (({ free with sched := { free.sched with launches := [slicedGang], clearing := [(0, 8)] } }).place [{ slicedGang with w := 32, h := 24 }]).isNone = true ∧
    (withLaunch slicedGang).env.retrain = [] ∧ (atTime (withLaunch slicedGang) 0).promised = false ∧
    ({ base with clk := { base.clk with ptpState := 1 } } : State).promised = true ∧
    (atTime (withLaunch slicedGang) 15999999).toSlice slicedEff ≤ 4 * 34000 ∧ 4 * 34000 < (atTime (withLaunch slicedGang) 4000000).toSlice slicedEff := by
  decide +kernel

/-! ### Placing, stopping and repair -/

/-- The header of an image of one bundle at 0x10000, and a graph image of one node at 0x20000. -/
def imageHbm : Memory :=
  (((Memory.putBytes testHbm 0x10000 (leBytes (0x3156524B + 2 ^ 32 + 2 ^ 64 + 64 * 2 ^ 128) 24)).putBytes 0x20000 (leBytes (0x47524654 + 2 ^ 32 + 2 ^ 40) 8)).putBytes 0x20020
    (leBytes 0x2000 2))

def chosenLaunch : Launch := { testLaunch with w := 32, h := 2, phase := .chosen, onGrid := false, image := 0x10000, placedAt := none, origin := (0, 22) }

/-- The base state with one launch, the images, and the current task on it. -/
def withImages (l : Launch) : State := { withLaunch l with mem := { base.mem with hbm := imageHbm } }

theorem witness_placement :
    (let s := { withImages chosenLaunch with cur := Task.blank }
     chosenLaunch.phase = .chosen ∧ chosenLaunch.onGrid = false ∧ chosenLaunch.contexts = [] ∧ chosenLaunch.origin.1 + chosenLaunch.w ≤ 32 ∧
     chosenLaunch.gangKey = 0 ∧ s.sched.clearing = [] ∧ s.inSlice chosenLaunch.eff = true ∧ s.tilesGood chosenLaunch = true ∧ s.mgmt.saving = false ∧
     (match s.readLaunch chosenLaunch with
      | (.ok (img, arg), _) => img.nbund == 1 && arg == []
      | _ => false) = true) ∧
    (base.launch? 1).isSome = true ∧ base.mayRelease [testLaunch] = false ∧ testLaunch.phase = .resident ∧ testLaunch.craddr = 0 ∧ testLaunch.ccaddr = 0 ∧
    testLaunch.onGrid = true ∧ base.drained testLaunch = false ∧ testLaunch.leaving = false ∧ base.launchClear 1 = true ∧ base.retraining (base.rcbAddr 7) = false ∧ (withSeq fun q => { q with state := .ended }).drained testLaunch = true ∧
    (let s : State := { State.reset with sched := { Sched.reset with clearing := [(767, 384)] } }
     s.sched.clearing = [(767, 384)] ∧ s.plc.tstat = [] ∧ s.plc.chart = []) := by decide +kernel

/-- The launch of the base state in another phase. -/
def inPhase (p : Phase) (why : StopWhy) (t : TaskState) : State :=
  let s := withImages { testLaunch with phase := p, why := why, image := 0x10000, stopAt := 1000, saveAt := 1000 }
  s.modSeq fun q => { q with state := t }

def stoppingLaunch : Launch := { testLaunch with phase := .stopping, stopAt := 1001 }

theorem witness_stops :
    (base.launch? 1).isSome = true ∧ testLaunch.gangKey = 0 ∧ testLaunch.aborted = false ∧ testLaunch.id ≠ 0 ∧
    (base.tasks.all fun u => u.seq.pendingFault == none) = true ∧ ((base.launchTasks 1).any Task.receives) = true ∧
    (base.cur.bnd.tile, EngineUnit.matrix) ∉ stoppingLaunch.acks ∧ base.net.packets = [] ∧ stoppingLaunch.phase = .stopping ∧ (allUnits.all fun e => base.atUnit base.cur e) = true ∧
    (base.sched.launches.all fun x => x.why != .migrate) = true ∧ base.mem.wport = [] ∧
    (withLaunch stoppingLaunch).stopDone stoppingLaunch = false ∧ (withLaunch stoppingLaunch).clk.tick < stoppingLaunch.stopAt ∧
    ({ stoppingLaunch with stopAt := 1000 }).stopAt ≤ (withLaunch stoppingLaunch).clk.tick ∧
    (let l := { stoppingLaunch with acks := allUnits.map fun e => (33, e) }
     (withLaunch l).stopDone l = true) ∧
    ((inPhase .saving .preempt .stopped).env.retrain = [] ∧ ({ testLaunch with saveAt := 1000 }).saveAt ≤ 1000 ∧
     (∀ k ∈ testLaunch.tiles, (inPhase .saving .preempt .stopped).portFreeTo k 3#2 = true) ∧
     ({ base with mem := { base.mem with wport := [heldWrite] }, env := { base.env with retrain := [channelOf 0x8000] } } : State).portFreeTo 33 3#2 = false) ∧
    (match (inPhase .restoring .preempt .stopped).reload { testLaunch with image := 0x10000 } with
     | (.image (some img), _) => img.nbund == 1
     | _ => false) = true ∧ testLaunch.step2 = false ∧ (inPhase .restoring .preempt .stopped).mayStart testLaunch = true := by decide +kernel

theorem witness_repair : State.reset.sched.launches = [] ∧ State.reset.tileIdle 33 = true ∧ (∃ px, State.reset.spareFor 33 0 = some px ∧ px ≠ (State.reset.remap 33).px) ∧
    ({ State.reset with sched := { Sched.reset with clearing := [(33, 8)] } } : State).tileIdle 33 = false ∧
    ({ State.reset with plc := { Placing.reset with tstat := [(66, 1)] } } : State).pstate 66 = 1 ∧ State.reset.isSpare (66 / 34) (66 % 34) = true ∧ State.reset.keepsHeld 66 = false ∧
    (withLaunch { testLaunch with contexts := [testTask] }).keepsHeld 35 = true ∧ State.reset.pstate 35 ≠ 1 ∧
    (base.taskOn 33).isSome = true ∧ testLaunch.eff.preempt = true ∧ testTask.receives = true ∧ base.spareFree (tileY 33) 32 = true ∧
    base.ptileFits (34 * tileY 33 + 32) 8 = true ∧ base.plc.copies = [] ∧ (base.taskOn 34).isNone = true ∧ State.reset.isSpare 1 32 = true ∧ base.destGood 33 32 = true ∧
    (∀ i < 8, base.underForced (base.physTower 33 i) = false) ∧ (∀ i < 8, base.badRows 33 i = false) ∧
    (base.sched.launches.all fun x => x.why != .migrate) = true ∧ (base.launchTasks 1).any Task.receives = true ∧
    ({ base with env := { base.env with refresh := [(base.physTower 33 0, { lastEnd := 0, pass := some (9, true), defer := none })] } } : State).underForced (base.physTower 33 0) = true ∧
    (let s : State := { base with plc := { base.plc with chart := [(base.ptower (base.physTile 33) 0, { ChartEntry.reset 0 with tstate := 1 })] } }
     (s.chart (s.ptower (s.physTile 33) 0)).tstate = 1 ∧
     (match s.spareTower (s.physTile 33) with
      | some p => decide (p < 9) && decide (leaseNeeds (s.leasedOn 33) 0 ≤ 8192 * (s.chart (9 * s.physTile 33 + p)).nlay) &&
          (List.range 8).all fun j => (s.tmap (s.physTile 33)).toNat / 16 ^ j % 16 != p
      | none => false) = true) ∧
    (let c : CopyJob := { tile := 33, tower := none, dest := 32 }
     let s : State := { withImages { testLaunch with image := 0x10000 } with plc := { base.plc with copies := [c] } }
     s.plc.copies.find? (fun c => c.tile == 33 && c.tower.isNone) = some c) ∧
    (base.cur.bound = true ∧ base.cur.seq.waits = [] ∧ base.cur.seq.pendingFault = none ∧ testLaunch.restart = false ∧ base.cur.bnd.hwErrs < 3) ∧
    (base.spareFor 33 (base.leasedOn 33)).isSome = true ∧ base.net.packets = [] ∧ base.net.bcols = [] ∧ base.cur.eng.dmOps = [] ∧
    (∀ h : Fin 16, (base.cur.ring (BitVec.ofNat 4 h.val)).stream = none) := by decide +kernel

/-! ### Upkeep -/

/-- The reset state at a tick at which passes have long been due. -/
def lateTick : State := { State.reset with clk := { Clock.reset with tick := 80000000000, ptimeQ := 400000000000 } }
def servedTower : Nat := base.physTower 33 0

theorem witness_refresh :
    (State.reset.refreshOf servedTower).pass = none ∧ (State.reset.chart servedTower).nlay ≠ 0 ∧ State.reset.deferring servedTower = false ∧
    2 * (State.reset.elapsed - 0) < State.reset.limitNs servedTower ∧ lateTick.limitNs servedTower ≤ 2 * (lateTick.elapsed - 0) ∧
    0 + lateTick.limitNs servedTower ≤ lateTick.elapsed + 2000000000 ∧ base.servedBy servedTower = some (33, 0) ∧ base.cur.bnd.lease ≠ 0 ∧
    base.cur.receives = true ∧ (base.bcInto base.cur 0).isNone = true ∧ base.cur.seq.pendingForced = [] ∧
    (let s : State := { base with env := { base.env with refresh := [(servedTower, { lastEnd := 0, pass := some (1000, false), defer := some 1250 })] } }
     (s.refreshOf servedTower).pass = some (1000, false) ∧ 1000 ≤ s.clk.tick ∧ (s.refreshOf servedTower).defer = some 1250 ∧ 1250 ≤ (atTime s 5000).elapsed) ∧
    ({ base with mem := { base.mem with locked := [5], regrow := [(5, [(0, List.replicate 1024 1#8)])] } } : State).outgrown 5 = true ∧
    base.outgrown 5 = false ∧ base.mem.lockQ = [] ∧ State.reset.delivering servedTower = false ∧ 255 < 256 ∧ base.env.retrain = [] ∧ base.env.rateChange = [] ∧ base.saving = false ∧
    (withLaunch { testLaunch with phase := .saving }).saving = true ∧ 17 < 18 ∧ 3 ∉ base.env.linksDown := by decide +kernel

theorem witness_thermal : (∀ i < 68, (base.sensor i).valid = true ∧ base.plausible (fun k => ([][k]?).getD (base.sensor k).value) i = true) ∧
    (base.remap base.cur.bnd.tile).px = 1 ∧
    (let hot : List Int := List.replicate 68 1100
     let s : State := { base with env := { base.env with sensors := (List.range 68).map fun i => (i, { Sensor.reset with value := 1090, hist := List.replicate 10 1090 }) } }
     ∀ i ∈ [2, 3], (s.sensor i).valid = true ∧ s.plausible (fun k => (hot[k]?).getD (s.sensor k).value) i = true ∧ (hot[i]?).getD (s.sensor i).value ≥ 1100) ∧
    (let s : State := { base with env := { base.env with sensors := [(0, { Sensor.reset with valid := false, recal := true, good := 99 })] } }
     (s.sensor 0).valid = false ∧ (s.sensor 0).good = 99 ∧ s.plausible (fun k => ([][k]?).getD (s.sensor k).value) 0 = true) ∧
    (2#64).extractLsb' 0 2 ≠ 3#2 ∧ base.env.coolantLow = false ∧ (7#64).extractLsb' 0 2 = 3#2 := by decide +kernel

/-! ### Engines at work -/

/-- An operation of the matrix unit on rings 0 and 1. -/
def muOp (kind : MuKind) (begun : Bool) (ready : Option Nat) : MuOp :=
  { kind := kind, bank := false, q := 3#2, regs := #v[0#64, 0#64, 0#64, 0#64, 1#64, 2#64, 0#64, 0#64, 0#64, 0#64, 0#64, 0#64], fmt := 0x80AA#64,
    ovt := 0#64, flush := false, pc := 0, begun := begun, step := 0, bufA := List.replicate 4096 1#8, bufB := List.replicate 4096 1#8, side := [],
    drain := [], readyAt := ready }

theorem witness_matrix : base.cur.bound = true ∧ base.engineMay base.cur .matrix = true ∧ base.mem.tlbInvs = [] ∧
    (withEng fun e => { e with muOps := [muOp .mswap false none] }).cur.eng.muOps = [muOp .mswap false none] ∧
    (let o := muOp .mma true none
     o.begun = true ∧ o.readyAt = none ∧ o.kind = .mma ∧ 512 * o.need.1 ≤ o.bufA.length ∧ 512 * o.need.2.1 ≤ o.bufB.length ∧
     512 * o.need.2.2 ≤ o.side.length ∧ o.bufA.length = 4096 ∧ muSel o.regs = 0 ∧ muTra o.regs = false ∧ muTrb o.regs = false ∧ o.typeA = 10 ∧
     o.typeB = 10 ∧ o.acct = 8) ∧
    base.clk.tick < 1001 ∧ 1000 ≤ base.clk.tick ∧ ({ base with mem := { base.mem with tlbInvs := [⟨0#2, 0, 0#14, 33, 0⟩] } } : State).mem.tlbInvs ≠ [] := by
  decide +kernel

/-- The window of `testDesc`, at its first row. -/
def testStream : Stream :=
  { id := 0, desc := testDesc, first := 0, next := 0, pc := 0, flush := false, opened := true, table := [], bitPos := 0, symLeft := 0, out := [],
    outCount := 0, fail := none }
def emptyRing : Ring := { testRing with prod := 0, desc := testDesc, pkind := 1, stream := some testStream }

theorem witness_windows : let s := withRing emptyRing
    base.mem.tlbInvs = [] ∧ (allUnits.all fun u => base.engineMay base.cur u) = true ∧ base.env.refresh = [] ∧ Memory.wf base.mem.towers = true ∧
    (∀ i j : Fin 8, base.physTower base.cur.bnd.tile i.val = base.physTower base.cur.bnd.tile j.val → i = j) ∧ testStream.ctxs = [] ∧ (vat (withRing { emptyRing with stream := some { testStream with flush := true } }).cur.rings 3#4).flushing = true ∧
    s.rowFree 33 emptyRing 0 = true ∧
    (match s.readRow s.cur (engineRead 4) (windowOf testDesc) 0 (List.replicate 64 7) with
     | (.ok row, _) => row == List.replicate 64 7 && decide (row.length = (windowOf testDesc).rowCount 0)
     | _ => false) = true ∧ (windowOf testDesc).ringRows ≤ 0 + 1 := by decide +kernel

/-- A read of which one piece is left ends, whatever the free values are. -/
theorem readOn_ends {t : Task} {want : Want} {va n fuel : Nat} {got : List Byte} {s : State} (hn : got.length < n)
    (h : (match s.translate t.xctx want (va + got.length) (min (n - got.length) (32 - (va + got.length) % 32)) with
      | (.ok sp, s') => (match s'.readSpans t want.unit [sp.unit] (got.isEmpty || sp.place.addr % 64 == 0) with
        | (.ok bs, _) => decide (n = got.length + bs.length)
        | _ => false)
      | _ => false) = true) : ∃ bs s1, State.readOn t want va n (fuel + 1) got s = (.ok bs, s1) ∧ bs.length = n := by
  split at h
  · rename_i sp s' hs
    split at h
    · rename_i bs s1 hr
      have hl : n = got.length + bs.length := by simpa using h
      exact ⟨_, _, Laws.readOn_last _ _ _ _ _ _ _ _ _ _ _ hn hs hr hl.le, by simp [hl]⟩
    · cases h
  · cases h

/-- A copy of eight bytes, and a read of its source that ends in one piece, with the write of them that follows. -/
def smallCopy : DmOp := { id := 0, mode := 0#2, src := 0, dst := 0x8000, len := 8, bufV := false, bufIx := 0, next := 0, pc := 0 }

theorem witness_copy_chunk : smallCopy.mode = 0#2 ∧ smallCopy.next = 0 ∧ 0 < smallCopy.len ∧ smallCopy.len ≤ 4096 ∧ smallCopy.got = [] ∧
    ∃ bs s1, State.readOn base.cur (engineRead 17) smallCopy.src smallCopy.len (unitFuel smallCopy.len) [] base = (.ok bs, s1) ∧
      bs.length = smallCopy.len ∧ ∃ k j s2, State.writeOn s1.cur 17 (copyPlace s1.cur smallCopy) smallCopy.dst bs (unitFuel smallCopy.len) smallCopy.put s1 =
        (.ok k, j, s2) := by
  have h : (match base.translate base.cur.xctx (engineRead 17) 0 8 with
      | (.ok sp, s') => (match s'.readSpans base.cur 17 [sp.unit] true with
        | (.ok bs, s1) => decide (8 = bs.length) && (match copyPlace s1.choose.2.cur smallCopy s1.choose.2 0x8000 (min bs.length 32) with
          | (.ok sp2, s3) => (match s3.writeSpan s1.choose.2.cur 17 sp2.unit (bs.take sp2.unit.len) true with
            | (.ok (), _) => decide (bs.length ≤ sp2.unit.len)
            | _ => false)
          | _ => false)
        | _ => false)
      | _ => false) = true := by decide +kernel
  refine ⟨rfl, rfl, by decide, by decide, rfl, ?_⟩
  split at h <;> try cases h
  rename_i sp s' hs
  split at h <;> try cases h
  rename_i bs s1 hr
  obtain ⟨hl, h⟩ := Bool.and_eq_true_iff.mp h
  have hl : 8 = bs.length := by simpa using hl
  split at h <;> try cases h
  rename_i sp2 s3 hp
  split at h <;> try cases h
  rename_i s4 hw
  refine ⟨_, _, Laws.readOn_last base.cur (engineRead 17) 0 8 _ [] bs base s' s1 sp (by decide) hs hr (by simp [hl]), by simp [smallCopy, ← hl], ?_⟩
  exact ⟨_, _, _, Laws.writeOn_last _ 17 _ 0x8000 bs _ 0 _ s3 s4 sp2 (by omega) hp hw (by simpa using h)⟩

/-- A transfer of one row to towers 0 and 1 of tile row 1, on the column of tile 33. -/
def testXfer : BcXfer :=
  { launch := 1, tile := 33, src := 0, y0 := 1, y1 := 1, tset := 3#8, rows := 1, raddr := 0, ring := none, next := 0, pc := 0, at_ := 0 }
def testPart : ShiftPart := { cluster := 0, dir := 0, h := 3#4, index := 0, bytes := zeros 64, ready := 0, pc := 0 }

theorem witness_deliveries :
    (let s : State := { base with net := { base.net with bcols := [(1, [testXfer])] } }
     tget [] s.net.bcols (33 % 32) = [testXfer] ∧ ((s.bcReceivers 1 1 1 1).filter Task.receives).length = 1 ∧
     testXfer.off = [] ∧ testXfer.raddr + testXfer.next < 65536) ∧
    (base.cur.receives = true ∧ (zeros 64).length = 64 ∧ base.rangeOk base.cur 7 65472 64 = true ∧
     ({ base with net := { base.net with packets := [⟨1, 33, 0, 33, 0, .towerRow 0 0 (zeros 64)⟩] } } : State).net.packets ≠ []) ∧
    (let s := atBarrier
     s.shiftTarget s.cur.bnd 0 = some 33 ∧ testPart.ready ≤ s.clk.tick ∧
     ({ s with cur := { s.cur with rings := vput s.cur.rings 3#4 { emptyRing with pkind := 0, stream := none } } } : State).ringAccepts
       { s.cur with rings := vput s.cur.rings 3#4 { emptyRing with pkind := 0, stream := none } } 3#4 6 0 [0] = .take) ∧
    testXfer.src = 0 ∧ testXfer.towers.length = 2 := by decide +kernel

/-- The last piece of a row for two towers. -/
theorem witness_column_row : ∃ bs s1, State.readOn base.cur (engineRead 18) (0 + 128 * 0) 128 (unitFuel 128) (zeros 96) base = (.ok bs, s1) ∧ bs.length = 128 :=
  readOn_ends (by decide) (by decide +kernel)

theorem witness_publications :
    (let s : State := { base with mgmt := { base.mgmt with bmbase := [(5, 0x30001#64)] }, mem := { base.mem with hbm := testHbm.putBytes 0x30000 [1#8] } }
     s.portClearTo 33 1#2 0 = true ∧ s.pubEntry s.cur.bnd.asid 0 = some 0x30000 ∧ Memory.wf s.mem.hbm = true) ∧
    (33 < 768 ∧ base.mem.wport = [] ∧ base.sigRoom = false ∧ ({ base with mgmt := { base.mgmt with sigbase := 0x1000#64 } } : State).sigRoom = true) := by decide

/-- A fabric context of tile 33, and a request for it. -/
def nop : Graph := { nodes := [⟨0, 32, 0, 0, 0#32, 0#32, 0#32⟩], outn := 0, sink := 0, decode := false, outw := 0, luts := [], sinkAddr := 0, sinkLen := 0 }
def fabricAt (x : FabCtx) : State := { withImages testLaunch with net := { base.net with fab := [(0, x)] } }
def graphDesc : Vector W64 18 := #v[0#64, 10#64, 1#64, 0#64, 64#64, 0#64, 0#64, 0#64, 1#64, 0#64, 0#64, 0#64, 0#64, 4#64, 0#64, 1#64, 0#64, 1#64]
def graphStream : Stream := { testStream with desc := graphDesc }

theorem witness_fabric :
    (let img := (imageHbm.bytes 0x20000 64)
     match (withImages testLaunch).readImage base.cur 0x20000 img, (withImages testLaunch).readImage base.cur 0 (zeros 32) with
     | (.ok (.whole (some g)), _), (.ok (.whole none), _) => g == nop
     | _, _ => false) = true ∧ base.engineMay base.cur .fabric = true ∧ (base.fabCtx 0).state = 0 ∧
    (let s := fabricAt { FabCtx.reset with state := 1, graph := some nop }
     (s.fabCtx 0).graph = some nop ∧ (s.fabCtx 0).state = 1 ∧ s.fabBudget s.cur [0] = true ∧ s.cellsUsed 0 + nop.nodes.length ≤ 32) ∧
    (let s := fabricAt { FabCtx.reset with state := 3, graph := some nop, cells := 1, tile := 33, launch := 1, x := [0#32] }
     graphStream.ctxs = [0] ∧ (s.fabCtx 0).state = 3 ∧ (s.fabCtx 0).spilled = false ∧ 0 < (windowOf graphDesc).rowlen ∧ 0 < (windowOf graphDesc).beats ∧
     (windowOf graphDesc).beats ≤ 1 ∧ (dsc graphDesc 15).toNat ≤ 1024 ∧ s.obs.counters = [] ∧ nop.fill (s.fabCtx 0).x = [] ∧
     graphStream.cutting = false ∧ s.heldAtGroup s.cur graphStream nop = false ∧
     (match s.streamBeat s.cur { graphStream with got := List.replicate 32 0 } nop.stateful 0 with
      | (.ok (_, bs), _) => bs.length == 64
      | _ => false) = true) ∧
    ((fabricAt { FabCtx.reset with state := 5 }).fabCtx 0).state = 5 ∧ 5 ≠ 0 ∧ 5 ≠ 1 ∧ 5 ≠ 4 := by decide +kernel

/-- A REDUCE of one row. -/
def reduceCmd : NbCmd := { testCmd with words := commandWords testPacket 1#4 }
def unitAt (u : Nbu) : State := { nearBank with net := { nearBank.net with nbu := [(0, u)], curCmd := reduceCmd } }

theorem witness_units :
    (base.engineMay base.cur .nbu = true ∧ base.nbShare base.cur ≠ 0 ∧ base.nbRoom 0 7 8 = true ∧
     (unitAt { Nbu.reset with queue := List.replicate 16 reduceCmd }).nbRoom 0 7 8 = false) ∧
    (0 + 200 * 800 < ({ base with clk := { base.clk with tick := 160001 } } : State).clk.tick ∧ base.clk.tick ≤ 0 + 200 * 800) ∧
    (let s := unitAt { Nbu.reset with queue := [reduceCmd], owner := some (1, 33) }
     s.nbHead (s.nbu 0) = some reduceCmd ∧ (s.nbu 0).owner = some reduceCmd.issuer ∧ (s.nbu 0).busyTo ≤ s.clk.tick ∧ 0 ∉ s.env.retrain ∧
     s.rowMayStart 0 (s.nbu 0) = true ∧ base.nbHead (base.nbu 0) = none) ∧
    (let s := unitAt { Nbu.reset with queue := [reduceCmd], owner := some (2, 33) }
     s.nbHead (s.nbu 0) = some reduceCmd ∧ (s.nbu 0).spilled = []) ∧
    (let c := { testCmd with words := commandWords { testPacket with nrow := 1#5 } 1#4, stream := some (3#4, 0, 0) }
     let s := unitAt { Nbu.reset with queue := [c], owner := some (1, 33), upc := 0 }
     (match c.ops with
      | some l => l[0]? == some (.accop (testMicro 0#24)) && (l[1]?).getD .nbEnd != .nbEnd
      | none => false) = true ∧ s.nbHead (s.nbu 0) = some c ∧ c.row (testMicro 0#24) = some 0#32 ∧ (s.issuerTask c).isSome = true ∧
     (match s.donePlace 0 22 c with
      | (.ok _, _) => true
      | _ => false) = true ∧
     (match s.translate s.cur.xctx { read := true, write := false } 0 1024 with
      | (.ok sp, s1) => nbPageOk 0 sp && !s1.poisoned [sp]
      | _ => false) = true) := by decide +kernel

/-! ### Observation, management and the edges of the device -/

def portAt (r : TraceRec) : State := base.setDbg 33 { base.dbg 33 with port := [r] }
def coreAt (l : Logline) : State := base.setCore 0 l
def verdKeep : W64 := 0x2000000000000000#64

theorem witness_observation :
    (((portAt .reset).dbg 33).port = [TraceRec.reset] ∧ ((portAt .reset).core (coreOf 33)).queue.length < 256 ∧
     256 ≤ (List.replicate 256 TraceRec.reset).length ∧ ((portAt .reset).core (coreOf 33)).own = [] ∧ ((portAt .reset).core (coreOf 33)).took ≠ some base.clk.tick ∧
     (portAt .reset).nextPort (coreOf 33) = some 33 ∧ base.obs.written.lookup (tileCounter 33 0) = none) ∧
    ((coreAt { Logline.reset with own := [TraceRec.reset] }).core 0).own = [TraceRec.reset] ∧
    (let l := (coreAt { Logline.reset with queue := [TraceRec.reset], trbase := 0x1000#64 }).core 0
     l.busy = false ∧ l.busyTo ≤ base.clk.tick ∧ l.accepted = none ∧ l.queue = [TraceRec.reset] ∧ l.filter = [verdKeep] ∧ l.trbase ≠ 0#64 ∧
     (l.trhead + 1) % 2 ^ l.trlog2 ≠ l.trtail ∧ l.pending = none) ∧
    (0 < [verdKeep].length ∧ [verdKeep].length ≤ 512 ∧ fltCheck 1 0 verdKeep = 0 ∧ fltCheck 1 0 0xFF00000000000000#64 ≠ 0) ∧
    (isCounter (tileCounter 33 0) = true ∧ 2 ^ 48 ≤ counterValue (base.counter (tileCounter 33 0)) + (2 ^ 48 - 0) ∧
     (let s : State := { base with obs := { base.obs with counters := [(tileCounter 33 0, 0x0100FFFFFFFFFFFF#64)] } }
      2 ^ 48 ≤ counterValue (s.counter (tileCounter 33 0)) + 1 ∧ (s.counter (tileCounter 33 0)).getLsbD 48 = false ∧
      counterEvent (s.counter (tileCounter 33 0)) ≠ 8)) ∧
    (base.clk.tick < 969 + 32 ∧ 968 + 32 ≤ base.clk.tick ∧ base.obs.fixHeld = false ∧ base.obs.fixPend = none) ∧
    (8 ≤ ((24#64).extractLsb' 0 5).toNat ∧ ((24#64).extractLsb' 0 5).toNat ≤ 24) ∧
    (let d : TileDbg := { base.dbg 33 with bkp0 := 0xD000000000000000#64 }
     d.bkp0.getLsbD 63 = true ∧ d.bkp0.getLsbD 62 = true ∧ (d.bkp0.extractLsb' 0 13).toNat = base.cur.seq.pc ∧ d.bkp0.getLsbD 60 = true ∧
     d.bkp0.getLsbD 61 = false ∧ base.cur.watch.seen0 = false ∧ base.matched true = false ∧ base.cur.issues = true ∧ (base.dbg 33).bkp0.getLsbD 63 = false) ∧
    (base.modWatch fun w => { w with steps := some 0 }).cur.watch.steps = some 0 ∧ base.cur.watch.steps ≠ some 0 ∧
    ((inPhase .debug .debug .stopped).cur.seq.state = .stopped ∧ (inPhase .debug .debug .stopped).inSlice testEff = true ∧ ((inPhase .debug .debug .stopped).launch? 1).map (·.phase) = some .debug ∧
     ((inPhase .debug .debug .stopped).dbg 33).page.toNat = 0 ∧ (inPhase .debug .debug .stopped).cur.seq.waits = [] ∧ testLaunch.aborted = false ∧ (31#5 : BitVec 5) ≠ 0#5) := by decide +kernel

theorem witness_management : State.reset.sched.everPlaced = false ∧ (9215#64 : BitVec 64).toNat % 2 ^ 14 < 9216 ∧ base.sched.everPlaced = true ∧
    9216 ≤ (9216#64 : BitVec 64).toNat % 2 ^ 14 ∧ (8 ≤ (16#64 : BitVec 64).toNat % 2 ^ 5 ∧ (16#64 : BitVec 64).toNat % 2 ^ 5 ≤ 16) ∧
    16 < (17#64 : BitVec 64).toNat % 2 ^ 5 ∧ (1 ≤ (168#64 : BitVec 64).toNat % 2 ^ 8 ∧ (168#64 : BitVec 64).toNat % 2 ^ 8 ≤ 168) ∧
    168 < (169#64 : BitVec 64).toNat % 2 ^ 8 ∧ (10 ≤ (1440#64 : BitVec 64).toNat % 2 ^ 11 ∧ (1440#64 : BitVec 64).toNat % 2 ^ 11 ≤ 1440) ∧
    1440 < (1441#64 : BitVec 64).toNat % 2 ^ 11 ∧ 0x1001 % 8 ≠ 0 ∧ (0x57FC < 0x5800 ∧ 0x57FC < 0x20000 ∧ 0x17F9 + 7 ≤ 0x1800 ∧ isBuffer 0x1FF7 = true ∧ isBuffer 0x1FF8 = false) ∧ Memory.wf base.mgmt.mbBuf = true ∧
    base.mgmt.mbReq = false ∧ ({ base.mgmt with mbReq := true } : Mgmt).mbTaken = [] ∧ base.mgmt.mbRsp = false ∧ (zeros 2040).length ≤ 2040 ∧
    base.mgmt.fwNext = none ∧ ({ base.mgmt with fwNext := some 1#32 } : Mgmt).fwNext = some 1#32 ∧
    base.mgmt.reportDay = base.ptime / 86400000000000 ∧ base.mgmt.reports < 16 ∧ base.mgmt.leaf < 2 ^ 20 ∧ 16 ≤ ({ base.mgmt with reports := 16 } : Mgmt).reports ∧
    (0x2FF8 % 8 = 0 ∧ 0x2FF8 < 0x3000 ∧ 0x2FF8 ∉ [0x00, 0x18, 0x20, 0x28, 0x38, 0x40, 0x48, 0x1FF8, 0x2030, 0x2038]) ∧
    (0x3C00 ≤ 0x3FFF8 ∧ 0x3FFF8 < 0x40000 ∧ 0x3FFF8 % 8 = 0) ∧ (0x6C000 % 8 = 0 ∧ 0x200000 + 0x10000 * 768 ≤ 0x3200000) ∧
    (8 ≤ (24#64 : BitVec 64).toNat % 2 ^ 5 ∧ (24#64 : BitVec 64).toNat % 2 ^ 5 ≤ 24 ∧ ¬ ((25#64 : BitVec 64).toNat % 2 ^ 5 ≤ 24)) ∧
    (0x10 % 8 = 0 ∧ 0x10 ∉ [0x00, 0x08, 0x18, 0x20] ∧ 0x10 ∉ [0x00, 0x08, 0x20, 0x28, 0x30]) ∧
    (let s : State := { base with clk := { base.clk with ptimeQ := 4 * 86400000000000 } }
     s.mgmt.fwSince + 86400000000000 ≤ s.elapsed ∧ s.mgmt.fwMin.toNat < (1#32).toNat ∧ (0#32).toNat ≤ s.mgmt.fwMin.toNat ∧
     base.elapsed < base.mgmt.fwSince + 86400000000000) := by decide

theorem witness_edges : base.env.retrain = [] ∧ (1 ≤ 32 ∧ 384 * 2 ^ 30 - 32 + 32 ≤ 384 * 2 ^ 30) ∧ (384 * 2 ^ 30 - 8) % 8 = 0 ∧
    384 * 2 ^ 30 < (accessRange (.read (384 * 2 ^ 30) 1)).1 + (accessRange (.read (384 * 2 ^ 30) 1)).2 ∧ Memory.wf base.mem.hbm = true ∧
    base.clk.ptpState = 0 ∧ base.clk.ptimeQ < 4 * 1 ∧ ({ base.clk with ptpState := 1 } : Clock).ptpState ≠ 0 ∧
    ({ base.mgmt with ckpt := some { mem := base.mem, areas := [] } } : Mgmt).ckpt.isSome = true ∧ base.obs.counters = [] ∧ base.mem.hostQ = none ∧
    (32 + 64 ≤ 384 * 2 ^ 30 ∧ 32 % 32 + 32 ≤ 32 ∧ ¬ (33 % 32 + 32 ≤ 32)) ∧ State.reset.sched.everPlaced = false ∧ base.sched.everPlaced = true := by
  decide

/-- A resident launch that a checkpoint finds running, and one that it finds saved. -/
theorem witness_checkpoint : base.sched.launches = [testLaunch] ∧ testLaunch.phase = .resident ∧ testLaunch.gangKey = 0 ∧ base.unsaved testLaunch = true ∧
    ((base.launchTasks 1).any Task.receives) = true ∧ (base.tasks.all fun u => u.seq.pendingFault == none) = true ∧
    (let l := { testLaunch with phase := .preempted, onGrid := false, contexts := [testTask], rows := [] }
     let s : State := { withLaunch l with cur := Task.blank }
     s.unsaved l = false ∧ l.ckpt = false ∧ l.contexts.isEmpty = false ∧ ({ l with ckpt := true } : Launch).ckpt = true) := by decide

/-! ### States for the clauses of several statements -/

/-- A chain of one row, whose store sets full bits; a reserved type on a bound ring; a row of VWR.rl that fits, and a register of no run. -/
theorem witness_row_types : (chainRows base.cur.reg.dstt [(5#32, 3)]).length = 1 ∧ (bm 1#2).fe = 1#2 ∧
    (let s := (withRing testRing).modReg fun g => { g with fmt := 0xF0F#64 }
     (vat s.cur.rings 3#4).bound = true ∧ (vat s.cur.rings 3#4).cmpr = false ∧ reservedType s.cur.reg.typeA = true ∧ reservedType s.cur.reg.dstt = true ∧
     (s.selected 0#2).head? = some 0) ∧
    (0 < runsNeeded [7#32, 7#32] ∧ runsNeeded [7#32, 7#32] ≤ rowRuns base.cur.reg.dstt) ∧ ¬ 0 < runsNeeded ([] : List W32) := by decide +kernel

/-- A context that is bound to the task, and one that is not; a graph whose rows fit, and one whose do not; windows with a row in flight. -/
theorem witness_graph_windows :
    (let s := fabricAt { FabCtx.reset with state := 2, graph := some nop, launch := 1, tile := 33 }
     (dsc graphDesc 15).toNat = 0 + 1 ∧ (windowOf graphDesc).sourceOk = true ∧ 1 ≤ (windowOf graphDesc).rows ∧
     (s.fabCtx 0).state = 2 ∧ (s.fabCtx 0).launch = s.cur.bnd.launch ∧ (s.fabCtx 0).tile = s.cur.bnd.tile ∧ (s.fabCtx 0).graph = some nop ∧
     nop.sink = 0 ∧ nop.decode = false ∧ 1 ≤ (windowOf graphDesc).rowlen ∧ (windowOf graphDesc).rowlen ≤ 512 / nop.outBits ∧
     ¬ (windowOf (graphDesc.set 17 129#64)).rowlen ≤ 512 / nop.outBits) ∧ (base.fabCtx 0).state ≠ 2 ∧
    graphStream.ctxs = [0] ∧ graphStream.opened = true ∧ ({ graphStream with opened := false } : Stream).opened = false ∧
    (let st := { testStream with got := [7] }
     let r := { emptyRing with stream := some st }
     base.rowFree 33 r r.prod = true ∧ st.ctxs = [] ∧ st.got ≠ [] ∧ st.table = []) ∧
    (let s : State := { base with mem := { base.mem with full := insertNat (towerKey (base.physTower 33 0) 0 / 16) [] } }
     s.rowFree 33 emptyRing emptyRing.prod = false) := by decide +kernel

/-- The page of `racing` with no access before it, whose load is checked and goes through; with one it races. -/
def checkedPage : State := { racing with sched := { racing.sched with launches := [testLaunch] } }

theorem witness_checked :
    (match State.spans checkedPage.cur.xctx someLoad.want (spanFuel 8) checkedPage 8 8 with
     | (.ok [sp], s') => someLoad.checked [sp] && !s'.tlbPending 33 && s'.mayPerform someLoad [sp] && sp.place.kind == 0 && sp.len == someLoad.size &&
       sp.va == someLoad.ea && pteChk sp.pte && s'.mem.wport == [] && s'.mem.hbmBad == [] && Memory.wf s'.mem.hbm &&
       (match (s'.modSeq fun q => { q with waitPc := q.pc }).checkRace 1 33 false ([sp].flatMap Span.cut) with
        | .ok _ => true
        | .error _ => false)
     | _ => false) = true ∧
    (match State.spans racing.cur.xctx someLoad.want (spanFuel 8) racing 8 8 with
     | (.ok [sp], s') => (match (s'.modSeq fun q => { q with waitPc := q.pc }).checkRace 1 33 false ([sp].flatMap Span.cut) with
        | .ok _ => false
        | .error _ => true)
     | _ => false) = true ∧
    (match State.spans base.cur.xctx someLoad.want (spanFuel 8) { base with env := { base.env with retrain := [channelOf 0x3000] } } 8 8 with
     | (.error (.busy _), _) => true
     | _ => false) = true ∧
    ({ base with mem := { base.mem with tlbInvs := [⟨0#2, 0, 0#14, 33, 0⟩] } } : State).tlbPending 33 = true := by decide +kernel

/-- The gang of one launch at its lead, with a place and without. -/
theorem witness_slice_leads :
    (let s : State := { free with sched := { free.sched with launches := [slicedGang] } }
     s.sched.doorbells = [] ∧ s.mgmt.saving = false ∧ s.plc.tstat = [] ∧ slicedGang.contexts = [] ∧ slicedGang.onGrid = false ∧ slicedGang.eff.ageLim = 0 ∧
     slicedGang.cls ≤ 15 ∧ slicedGang.w * slicedGang.h ≤ slicedGang.eff.maxTiles ∧ slicedGang.eff.chain = [] ∧ s.env.retrain = [] ∧
     ((origins slicedGang.w slicedGang.h).find? fun o => (rectTiles o.1 o.2 slicedGang.w slicedGang.h).all fun k =>
       s.tileGrants slicedGang k && !s.excluded slicedGang k && !(s.sched.clearing.any fun c => c.1 == k)) = some (0, 0)) ∧
    (let l := { slicedGang with w := 32, h := 24 }
     let s : State := { free with sched := { free.sched with launches := [l], clearing := [(0, 8)] } }
     ((origins l.w l.h).find? fun o => (rectTiles o.1 o.2 l.w l.h).all fun k =>
       s.tileGrants l k && !s.excluded l k && !(s.sched.clearing.any fun c => c.1 == k)) = none ∧ s.placeable false [l] = true) ∧
    (let l := { slicedGang with phase := .chosen, aborted := false }
     l.phase = .chosen ∧ l.contexts = [] ∧ ∃ k ∈ l.tiles, ∃ c ∈ [(0, 8)], (c : Nat × Nat).1 = k) ∧
    ({ slicedLaunch with phase := .restoring, eff := { slicedEff with preempt := false } } : Launch).eff.preempt = false := by decide +kernel

/-- A completion record at 0x8000 and a counter at 0x9000. -/
theorem witness_completion : let l := { testLaunch with craddr := 0x8000, ccaddr := 0x9000 }
    let s : State := (withLaunch l).modSeq fun q => { q with state := .ended }
    s.drained l = true ∧ (s.launch? l.id).isSome = true ∧ l.onGrid = true ∧ l.leaving = false ∧ s.mem.wport = [] ∧ s.retraining (s.rcbAddr l.region) = false ∧
    Memory.wf s.mem.hbm = true ∧
    (match (s.startClear l).completionPlace l l.craddr 64 with
     | (some (some [cr]), s1) => (match s1.completionPlace l l.ccaddr 8 with
       | (some (some [cc]), _) => cr.place.kind == 0 && cr.len == 64 && cc.place.kind == 0 && cc.len == 8 &&
         decide (cr.place.addr + 64 ≤ cc.place.addr) && decide (s.rcbAddr l.region + 256 ≤ cr.place.addr) && decide (s.rcbAddr l.region + 256 ≤ cc.place.addr)
       | _ => false)
     | _ => false) = true := by decide +kernel

/-- A write to a page of the compressed class: slots of 1,024 bytes hold every block, and what has outgrown its slot is kept apart. -/
theorem witness_outgrown : (0 < [1#8].length ∧ (65536 * 5) % 1024 + [1#8].length ≤ 1024 ∧ (65536 * 5) / 65536 = 5) ∧
    (let s : State := { base with mem := { base.mem with slots := [(5, List.replicate 64 3)] } }
     s.outgrown 5 = false ∧ ∀ block, slotCode block ≤ (s.slotsOf 5).getD 0 0) ∧
    ({ base with mem := { base.mem with regrow := [(5, [(0, [])])] } } : State).outgrown 5 = true := by
  refine ⟨by decide, ⟨by decide, fun block => ?_⟩, by decide⟩
  show slotCode block ≤ 3
  simp only [slotCode]
  split_ifs <;> decide

/-- A hardware error of a stopped task, and a unit in the middle of a row operation. -/
theorem witness_pending_errors : let p : Pending := { fault := hwFault, pc := none, now := true }
    (withSeq fun q => { q with state := .stopped, pendingFault := some p }).cur.seq.pendingFault = some p ∧ p.redo = false ∧ p.now = true ∧
    ((unitAt { Nbu.reset with busyTo := 1001 }).nbu 0).turned = false ∧ base.clk.tick < 1001 := by decide

/-! ### The whole machine -/

/-- The base state at the turn of its task, whose store holds one bundle of MUL s3, s1, s2. -/
def atTurn (w : BitVec 128) : State :=
  let s := withS 6#64 7#64
  { s with clk := { s.clk with turn := [33] }, cur := { s.cur with bnd := { s.cur.bnd with store := [w], nbund := 1 } } }

def mulBundle : BitVec 128 := bundleWith .c (encodeWord (.mul cr))

theorem witness_step : let s := atTurn mulBundle
    s.clk.agenda = [] ∧ s.clk.turn = [33] ∧ s.cur.bound = true ∧ s.cur.seq.state = .running ∧ s.cur.seq.waits = [] ∧ s.cur.seq.inflight = [] ∧
    s.cur.seq.pendingFault = none ∧ s.cur.seq.pendingForced = [] ∧ s.cur.eng.nbLate s.clk.tick = false ∧ s.dbg 33 = .reset ∧ s.cur.watch.steps = none ∧ s.cur.seq.lockFrom = none ∧ s.obs.counters = [] ∧
    s.cur.seq.branch = none ∧ s.cur.seq.rep = none ∧ s.cur.bnd.store = [mulBundle] ∧ s.cur.bnd.nbund = 1 ∧ s.cur.seq.pc = 0 ∧ cr.d ≠ 0#5 ∧
    s.guard cr.q cr.n = true ∧ s.cur.seq.freeAt ≤ s.clk.tick ∧ s.cur.nextBundle = some mulBundle ∧ isTransfer (syllableOf mulBundle .c) = false ∧ (decodeBundle mulBundle).toOption.isSome = true := by decide

/-- What the several clauses of the step statement ask of the four syllables. -/
theorem witness_syllables : isTransfer (encodeWord (.br { q := 0#3, n := false, off := 0#20, f := false })) = true ∧ (decodeBundle (bundleWith .c 0xFFFFFFFF#32)).toOption.isNone = true ∧
    isTrap (.trap 0#14 false) = true ∧ (base.firstFault (.trap 0#14 false) (.vadd af) (.vld (bm 0#2)) (.ewait 17#5 3#3)).isNone = true ∧ (withSeq fun q => { q with branch := some { target := 0, taken := false, left := 1 } }).cur.seq.noTransfer = true ∧
    isTransfer (encodeWord (.mul cr)) = false ∧ isTrap (.mul cr) = false ∧ readsAtIssue (.ewait 17#5 3#3) = false ∧ readsAtIssue (.nbcmd 1#5 2#5) = true ∧
    (base.firstFault (.mul cr) (.vadd af) (.vld (bm 0#2)) (.ewait 17#5 3#3)).isNone = true := by decide +kernel

/-- 3/2 in E4M3, above 2^−6 and below it, between two values of DM8, and beyond all of them. -/
theorem witness_numbers : let q : Q := ⟨false, 3, 2⟩
    q.den ≠ 0 ∧ q.num ≠ 0 ∧ (2 : ℚ) ^ (0 : ℤ) ≤ |(q.sgnNum : ℚ) / q.den| ∧ |(q.sgnNum : ℚ) / q.den| < (2 : ℚ) ^ (0 + 1 : ℤ) ∧
    |((⟨true, 1, 100⟩ : Q).sgnNum : ℚ) / 100| < (2 : ℚ) ^ (1 - 7 : ℤ) ∧
    (((dm8Mag 0x40).sgnNum : ℚ) / (dm8Mag 0x40).den < 21 / 20 ∧ (21 / 20 : ℚ) < ((dm8Mag 0x41).sgnNum : ℚ) / (dm8Mag 0x41).den) ∧ (1000 : ℚ) < 1001 ∧
    (2 : ℚ) ^ 22 ≤ |((⟨true, 2 ^ 22, 1⟩ : Q).sgnNum : ℚ) / 1| := by
  have h : dm8Mag 0x40 = ⟨false, 64, 64⟩ ∧ dm8Mag 0x41 = ⟨false, 73, 64⟩ := by decide
  norm_num [Q.sgnNum, h, abs_of_neg, abs_of_pos]

theorem witness_memories : Memory.wf testHbm = true ∧ Memory.wf ([] : Memory) = true := by decide

/-! ### Results that the manual works out -/

/-- What an instruction puts in flight. -/
def landings (o : Host.Outcome State Fault Refusal) : List Landing := match o with
  | .next s => s.cur.seq.inflight
  | _ => []
def dests (o : Host.Outcome State Fault Refusal) : List Dest := (landings o).map (·.dest)

/-- The values that a vector result gives a cluster, and its flags there. -/
def valuesIn (c : Fin 8) (o : Host.Outcome State Fault Refusal) : Option (Runs W32 × Option (BitVec 9)) := match landings o with
  | [{ dest := .vreg _ vals, flags := fl, .. }] => (vals.find? fun p => p.1 == c).map fun p => (p.2, (fl.find? fun q => q.1 == c).map (·.2))
  | _ => none

/-- The example of R164: −7 and 2. -/
theorem test_division : let s := withS 0xFFFFFFFFFFFFFFF9#64 2#64
    dests (exec (.div cr) s) = [.sreg 3#5 0xFFFFFFFFFFFFFFFD#64] ∧ dests (exec (.rem cr) s) = [.sreg 3#5 0xFFFFFFFFFFFFFFFF#64] ∧
    dests (exec (.divu cr) s) = [.sreg 3#5 0x7FFFFFFFFFFFFFFC#64] ∧
    dests (exec (.div cr) (withS 0xFFFFFFFFFFFFFFF9#64 0#64)) = [.sreg 3#5 0xFFFFFFFFFFFFFFFF#64] ∧
    dests (exec (.rem cr) (withS 0xFFFFFFFFFFFFFFF9#64 0#64)) = [.sreg 3#5 0xFFFFFFFFFFFFFFF9#64] ∧
    (landings (exec (.div cr) s)).map (fun l => l.due - l.at_) = [12] := by decide

/-- The walked pipeline of R117: MUL lands 49 after three cycles; LIH gives +∞ as in R383's walk. -/
theorem test_multiply : (landings (exec (.mul { cr with a := 1#5, b := 1#5 }) (withS 7#64 0#64))).map (fun l => (l.due - l.at_, l.dest)) =
    [(3, .sreg 3#5 49#64)] ∧ dests (exec (.lih { d := 4#5, imm := 0x1FE00#19, f := false }) base) = [.sreg 4#5 0x7F800000#64] := by decide

/-- The example of R202: a quotient by zero and an invalid one. -/
theorem test_vector_division : let s := (withV [(0x3F800000#32, 3), (0#32, 1)] [(0x40800000#32, 2), (0#32, 2)]).modReg fun g => { g with vl := 4#64 }
    valuesIn 0 (exec (.vdiv af) s) = some ([(0x3E800000#32, 2), (0x7F800000#32, 1), (0x7FC00000#32, 1)], some 3#9) ∧
    (landings (exec (.vdiv af) s)).map (fun l => l.due - l.at_) = [14] := by decide +kernel

/-- The example of R203: 2^24 + 1 in modes 0 and 2. -/
theorem test_fused : let s := ({ (withV [(0x4B800000#32, 1)] [(0x3F800000#32, 1)]) with
      cur := (withV [(0x4B800000#32, 1)] [(0x3F800000#32, 1)]).cur.modCl 0 fun c => c.setV 3#5 [(0x3F800000#32, 1)] } : State).modReg fun g => { g with vl := 1#64 }
    (valuesIn 0 (exec (.vfma af) s)).map (·.1) = some [(0x4B800000#32, 1)] ∧
    (valuesIn 0 (exec (.vfma af) (s.modReg fun g => { g with fmt := 0x20000#64 }))).map (·.1) = some [(0x4B800001#32, 1)] := by decide +kernel

/-- The examples of R204: VABS joins runs; e^1.25 is 0x405F61C7. -/
theorem test_one_source : let o : A1Form := { d := 3#5, a := 1#5, k := 0#3, cl := 0#2, z := false }
    (valuesIn 0 (exec (.vabs o) ((withV [(0xBF800000#32, 2), (0x3F800000#32, 3)] []).modReg fun g => { g with vl := 5#64 }))).map (·.1) =
      some [(0x3F800000#32, 5)] ∧
    (valuesIn 0 (exec (.vexp o) ((withV [(0#32, 900), (0x3FA00000#32, 3), (0#32, 121)] []).modReg fun g => { g with vl := 1024#64 }))).map (·.1) =
      some [(0x3F800000#32, 900), (0x405F61C7#32, 3), (0x3F800000#32, 121)] := by decide +kernel

/-- The examples of R205, in two clusters. -/
theorem test_integers : let s := (withV [(0x80000000#32, 1)] [(0x80000000#32, 1)]).modReg fun g => { g with vl := 1#64 }
    (valuesIn 0 (exec (.vimulh af) s)).map (·.1) = some [(0x40000000#32, 1)] ∧ (valuesIn 0 (exec (.vimul af) s)).map (·.1) = some [(0#32, 1)] ∧
    (let t := ((withV [(4#32, 2), (9#32, 1)] []).modReg fun g => { (g.setS 2#5 0xFFFFFFFF00000003#64) with cma := 3#64, vl := 3#64 })
     (valuesIn 0 (exec (.viadd { af with s := true, cl := 1#2 }) t)).map (·.1) = some [(7#32, 2), (12#32, 1)] ∧
     valuesIn 2 (exec (.viadd { af with s := true, cl := 1#2 }) t) = none) := by decide +kernel

/-- The examples of the format DM8 (R137): 2.5, −2.5, 887.5 and 0.0004 in mode 0, 2.5 in mode 1. -/
theorem test_dm8 : let cx (m : Nat) : NumCtx := { mode := m, ovt := 0#64, flush := false }
    (convertTo (cx 0) 6 (decodeVal 0 0x40200000)).1 = 0x4B#32 ∧ (convertTo (cx 1) 6 (decodeVal 0 0x40200000)).1 = 0x4A#32 ∧
    (convertTo (cx 0) 6 (decodeVal 0 0xC0200000)).1 = 0xCB#32 ∧ (convertTo (cx 0) 6 (decodeVal 0 0x445DE000)).1 = 0x07#32 ∧
    (convertTo (cx 0) 6 (decodeVal 0 0x39D1B717)).1 = 0#32 := by decide +kernel

/-- The example of R13: the grandchild runs at class 12 with 256 tiles. -/
theorem test_inheritance : let root := leBytes (15 * 2 ^ 8 + 0xFFFF * 2 ^ 64 + 768 * 2 ^ 256) 256
    let child := leBytes (12 * 2 ^ 8 + 0x0201 * 2 ^ 64 + 256 * 2 ^ 256) 256
    let grandchild := leBytes (14 * 2 ^ 8 + 0x0001 * 2 ^ 64) 256
    (effOf grandchild [child, root]).prio = 12 ∧ (effOf grandchild [child, root]).maxTiles = 256 := by decide +kernel

/-- The walk of R81: 0x20_0010_0040 goes to 0x12_3450_0040, and 0x20_0013_0000 through the same entry. -/
theorem test_walk : let hbm := ((((Memory.putBytes [] 0x1000 (leBytes 0x2001 8)).putBytes 0x2000 (leBytes 0x3001 8)).putBytes 0x3100 (leBytes 0x4001 8)).putBytes 0x4000
      (leBytes 0x5001 8)).putBytes 0x5080 (leBytes 0x12345000AB 8)
    let s : State := { base with mem := { base.mem with hbm := hbm } }
    (oneSpan (State.spans s.cur.xctx { read := true, write := false } 2 s 0x2000100040 8)).map (·.place) = some { kind := 0, addr := 0x1234500040 } ∧
    (oneSpan (State.spans s.cur.xctx { read := true, write := false } 2 s 0x2000130000 8)).map (·.place) = some { kind := 0, addr := 0x1234530000 } ∧
    oneSpan (State.spans s.cur.xctx { read := false, write := true } 2 s 0x2000100040 8) = none := by decide +kernel

/-- R248, R249: the examples of the two maps: a channel-local page of 64 KiB at 0x12_3450_0000 and PA 0x12_3450_1C40. -/
theorem test_channel_local : let at_ := fun b => channelLocal 0x1234500000 65536 b
    let offset := fun pa : Nat => pa / 2 ^ 19 * 2048 + pa % 2048
    channelOf (at_ 0) = 0x50 ∧ channelOf (at_ 0xFFFF) = 0x50 ∧ offset (at_ 0) = 0x12340000 ∧ offset (at_ 0xFFFF) = 0x1234FFFF ∧
    channelOf 0x1234501C40 = 3 ∧ offset 0x1234501C40 = 0x12345440 := by decide

/-- The example of R357: AMOCAS of an HBM word holding 5 lands 5 and writes 9. -/
theorem test_cas : let s : State := { base with mem := { base.mem with hbm := testHbm.putBytes 0x8000 [5#8] } }
    let a : GAccess := { op := .amo .cas 0#2 true, d := 6#5, ea := 0x8000, size := 4, scope := 1#2, value := 9#64, cmp := 5#64, at_ := 10 }
    (s.tryWait (.glob a)).map (fun t => (leNat (t.mem.hbm.bytes 0x8000 4), t.cur.seq.inflight.map (·.dest))) = some (9, [.sreg 6#5 5#64]) := by decide +kernel

/-- The TFENCE of R383's walk traps precisely: TRAPPC 10, TRAPINFO 0xFF0001, TRAPCODE 0x90206 (its HND apart), and the handler's bundle 16 is next. -/
theorem test_tfence : let s := (flagged.modSeq fun q => { q with pc := 10, lastFault := none })
    let s : State := { s with cur := { s.cur with cl := .replicate 8 { s.cur.cl[(0 : Fin 8)] with flags := 1#9 }, bnd := { s.cur.bnd with trapEnt := 16 } } }
    (match exec (.tfence false) s with
     | .next t => t.cur.reg.trapPc == 10#64 && t.cur.reg.trapInfo == 0xFF0001#64 && t.cur.reg.trapCode == 0x10206#64 && t.cur.seq.hnd && t.cur.seq.pc == 16
     | _ => false) = true := by decide +kernel

/-- The MARKs of the walked drift of R402: 300 cycles too many, and DRIFT 0x0000_0003_0000_012C. -/
theorem test_drift : let s := (withSeq fun q => { q with dcyc := 305 })
    dests (exec (.mark 3#20 false) { s with cur := { s.cur with mark := { dPrev := 2, driftPrev := 0, armed := false } } }) =
      [.ctl 20#6 0#4 0x000000030000012C#64] := by decide +kernel

/-- One step issues the bundle whose MUL of 6 and 7 is under way three cycles later. -/
theorem test_step : (match step (atTurn mulBundle) with
    | .next t => t.cur.seq.inflight.map (·.dest) == [.sreg 3#5 42#64] && t.cur.seq.pc == 1 && t.cur.seq.scyc == 11
    | _ => false) = true := by decide +kernel

/-- R379, R382: a trap precise at its bundle issues the handler's first bundle in the same step; one after its bundle does not. -/
theorem test_trap_timing : let at_ := fun (s : State) (w : BitVec 32) => ({ s with
      clk := { s.clk with turn := [33] }
      cur := { s.cur with bnd := { s.cur.bnd with store := [bundleWith .c w, 0#128, 0#128, 0#128] } } } : State)
    let view := fun (o : Host.Outcome State Fault Refusal) => match o with
      | .next t => some (t.cur.seq.hnd, t.cur.seq.pc, t.cur.seq.scyc, t.cur.reg.trapPc)
      | _ => none
    view (step (at_ (flagged.modSeq fun q => { q with lastFault := none }) 0xB4000000#32)) = some (true, 4, 11, 0#64) ∧
    view (step (at_ base 0xB0000054#32)) = some (true, 3, 11, 1#64) := by decide +kernel

theorem witness_host_reads : let s := State.reset
    (isTable 0x2008 = false ∧ (4 : Nat) ≠ 8) ∧ (isTable 0x4000 = true ∧ ∀ j < 4, isTable (0x4000 + j) = true) ∧ (s.remap 5).px < 64 ∧
    ((s.doorbell 3).acur < 65536 ∧ (s.doorbell 3).headv < 65536 ∧ (s.doorbell 3).tail < 65536 ∧ (s.doorbell 3).rcba < 2 ^ 44) := by decide +kernel

/-- What R61, R68, R279 and R422 give for reset, read by the host: PX of tile 5, TMAP, NBARB, SCRUBH. -/
theorem test_host_reads : let s := State.reset
    s.hostRead 0x4005 1 = 5 ∧ s.hostRead 0x4800 4 = 0x76543210 ∧ s.hostRead 0x5804 4 = 0x4010 ∧ s.hostRead 0x40 8 = 24 ∧
    s.hostRead 0x40 4 = 0 := by decide +kernel

end Sys2Proof.Tests
end

section
/-! SUPPORT. Byte memories read back what is written (R3). -/

namespace Sys2Proof.Laws
open Sys2Proof.Machine

/-- The bytes of a write are what their addresses then read; every other address reads as before. -/
theorem get_putBytes {m : Memory} (h : Memory.wf m = true) (a : Nat) (bs : List Byte) (x : Nat) :
    (m.putBytes a bs).get x = if h : a ≤ x ∧ x - a < bs.length then bs[x - a]'h.2 else m.get x := by
  induction bs generalizing m a with
  | nil => simp [Memory.putBytes]
  | cons b bs ih =>
    rw [Memory.putBytes, ih (wf_put h a b), get_put h]
    rcases lt_trichotomy x a with hlt | rfl | hgt
    · simp [show ¬ a + 1 ≤ x by omega, show ¬ a ≤ x by omega, show x ≠ a by omega]
    · simp
    · obtain ⟨k, rfl⟩ := Nat.exists_eq_add_of_lt hgt
      simp [show a + k + 1 - (a + 1) = k by omega, show a + k + 1 - a = k + 1 by omega, show a + 1 ≤ a + k + 1 by omega,
        show a ≤ a + k + 1 by omega, show a + k + 1 ≠ a by omega]

/-- A byte below a write reads as before. -/
theorem get_putBytes_below {m : Memory} (h : Memory.wf m = true) {a x : Nat} (hx : x < a) (bs : List Byte) :
    (m.putBytes a bs).get x = m.get x := by
  rw [get_putBytes h, dif_neg (by omega)]

/-- A write reads back. -/
theorem bytes_putBytes {m : Memory} (h : Memory.wf m = true) (a : Nat) (bs : List Byte) :
    (m.putBytes a bs).bytes a bs.length = bs := by
  induction bs generalizing m a with
  | nil => rfl
  | cons b bs ih =>
    rw [List.length_cons, Memory.bytes, Memory.putBytes, ih (wf_put h a b), get_putBytes_below (wf_put h a b) (Nat.lt_succ_self a),
      get_put h, if_pos rfl]

/-- The value of the low `n` bytes of a number. -/
theorem leNat_leBytes (v n : Nat) : leNat (leBytes v n) = v % 2 ^ (8 * n) := by
  induction n generalizing v with
  | zero => simp [leBytes, leNat, Nat.mod_one]
  | succ n ih =>
    have hp : 2 ^ (8 * (n + 1)) = 256 * 2 ^ (8 * n) := by rw [Nat.mul_succ, Nat.pow_add]; omega
    rw [leBytes, leNat, ih, hp, Nat.mod_mul, BitVec.toNat_ofNat]

/-- Cleared addresses read as zero; every other address reads as before. -/
theorem get_clearRange {m : Memory} (h : Memory.wf m = true) (a n x : Nat) :
    (m.clearRange a n).get x = if a ≤ x ∧ x < a + n then 0#8 else m.get x := by
  rw [wf_iff] at h
  induction m with
  | nil => simp [Memory.clearRange, Memory.get, unlisted]
  | cons c m ih =>
    obtain ⟨hc, hp⟩ := List.pairwise_cons.1 h.1
    have ih := ih ⟨hp, fun d hd => h.2 d (by simp [hd])⟩
    unfold Memory.clearRange at ih ⊢
    by_cases hin : a ≤ c.1 ∧ c.1 < a + n
    · rw [List.filter_cons_of_neg (by simpa using hin), ih, Memory.get]
      split
      · rfl
      · rw [if_neg (by rintro rfl; contradiction)]
    · rw [List.filter_cons_of_pos (by simp; omega), Memory.get, Memory.get, ih]
      by_cases hx : c.1 = x
      · subst hx; simp [hin]
      · simp [hx]

/-- The first entry of a memory in canonical form is the lowest address that does not read as unlisted. -/
theorem get_head {a : Nat} {b : Byte} {m : Memory} (h : Memory.wf ((a, b) :: m) = true) :
    Memory.get ((a, b) :: m) a = b ∧ b ≠ unlisted ∧ Memory.get m a = unlisted ∧ ∀ x < a, Memory.get ((a, b) :: m) x = unlisted := by
  obtain ⟨hp, hn⟩ := (wf_iff _).1 h
  have ha := (List.pairwise_cons.1 hp).1
  refine ⟨by simp [Memory.get], hn (a, b) (by simp), get_below ha, fun x hx => get_below fun c hc => ?_⟩
  rcases List.mem_cons.1 hc with rfl | hc
  · exact hx
  · exact Nat.lt_trans hx (ha c hc)

theorem wf_tail {c : Host.Cell} {m : Memory} (h : Memory.wf (c :: m) = true) : Memory.wf m = true := by
  rw [wf_iff] at h ⊢
  exact ⟨(List.pairwise_cons.1 h.1).2, fun d hd => h.2 d (by simp [hd])⟩

/-- Memories in canonical form that read alike are equal. -/
theorem eq_of_get_eq {m m' : Memory} (h : Memory.wf m = true) (h' : Memory.wf m' = true) (e : ∀ x, m'.get x = m.get x) : m' = m := by
  induction m generalizing m' with
  | nil =>
    cases m' with
    | nil => rfl
    | cons c m' =>
      obtain ⟨hb, hn, -⟩ := get_head h'
      exact absurd (hb.symm.trans (e _)) hn
  | cons c m ih =>
    obtain ⟨a, b⟩ := c
    obtain ⟨hb, hn, hm, hlow⟩ := get_head h
    cases m' with
    | nil => exact absurd (hb.symm.trans (e a).symm) hn
    | cons c' m' =>
      obtain ⟨a', b'⟩ := c'
      obtain ⟨hb', hn', hm', hlow'⟩ := get_head h'
      obtain rfl : a' = a := by
        rcases lt_trichotomy a' a with hlt | heq | hgt
        · exact absurd (hb'.symm.trans ((e a').trans (hlow a' hlt))) hn'
        · exact heq
        · exact absurd (hb.symm.trans ((e a).symm.trans (hlow' a hgt))) hn
      obtain rfl : b' = b := hb'.symm.trans ((e a').trans hb)
      rw [ih (wf_tail h) (wf_tail h') fun x => ?_]
      by_cases hx : a' = x
      · subst hx; rw [hm, hm']
      · simpa [Memory.get, hx] using e x

end Sys2Proof.Laws

open Sys2Proof.Machine Sys2Proof.Laws in
/-- Settles O59, by induction on the list of entries and on the bytes written. -/
theorem byteMemories : Obligations.ByteMemories := by
  intro m h
  refine ⟨get_put h, wf_put h, get_putBytes h, fun a n v => ?_, get_clearRange h, fun m' h' e => eq_of_get_eq h h' e⟩
  have hb := bytes_putBytes h a (leBytes v n)
  rw [leBytes_length] at hb
  rw [hb, leNat_leBytes]

end

section
/-! SUPPORT. The canonical form of every byte memory, part by part of the state. -/

namespace Sys2Proof.Safety
open Sys2Proof Sys2Proof.Machine Sys2Proof.Laws

/-! ### The parts of a state that hold byte memories -/

/-- The memories outside the tasks are in canonical form. -/
def MemTidy (m : Mem) : Prop :=
  Memory.wf m.hbm = true ∧ Memory.wf m.host = true ∧ Memory.wf m.peer = true ∧ Memory.wf m.towers = true

/-- The mailbox and the image of a checkpoint are in canonical form. -/
def MgmtTidy (m : Mgmt) : Prop :=
  Memory.wf m.mbBuf = true ∧ ∀ c ∈ m.ckpt, Memory.wf c.mem.hbm = true ∧ Memory.wf c.mem.towers = true

/-- What the launches and the doorbells keep is in canonical form. -/
def SchedTidy (x : Sched) : Prop :=
  (∀ l ∈ x.launches, LaunchCanonical l) ∧ ∀ d ∈ x.doorbells, ∀ l ∈ d.2.held, LaunchCanonical l

/-- `Canonical`, said of each part of the state, so that an update of another part leaves it as it stands. -/
def Tidy (s : State) : Prop :=
  MemTidy s.mem ∧ MgmtTidy s.mgmt ∧ TaskCanonical s.cur ∧ (∀ t ∈ s.parked, TaskCanonical t) ∧ SchedTidy s.sched

theorem canonical_iff_tidy (s : State) : Canonical s ↔ Tidy s := by
  simp only [Canonical, Tidy, MemTidy, MgmtTidy, SchedTidy, State.tasks, List.forall_mem_cons, and_assoc]

theorem Tidy.mem {s : State} (h : Tidy s) : MemTidy s.mem := h.1
theorem Tidy.mgmt {s : State} (h : Tidy s) : MgmtTidy s.mgmt := h.2.1
theorem Tidy.cur {s : State} (h : Tidy s) : TaskCanonical s.cur := h.2.2.1
theorem Tidy.parked {s : State} (h : Tidy s) : ∀ t ∈ s.parked, TaskCanonical t := h.2.2.2.1
theorem Tidy.sched {s : State} (h : Tidy s) : SchedTidy s.sched := h.2.2.2.2

/-! ### One part exchanged -/

variable {s t : State}

theorem Tidy.setMem {m : Mem} (h : Tidy s) (hm : MemTidy m) : Tidy { s with mem := m } := ⟨hm, h.2⟩
theorem Tidy.setMgmt {m : Mgmt} (h : Tidy s) (hm : MgmtTidy m) : Tidy { s with mgmt := m } := ⟨h.mem, hm, h.2.2⟩
theorem Tidy.setCur {u : Task} (h : Tidy s) (hu : TaskCanonical u) : Tidy { s with cur := u } := ⟨h.mem, h.mgmt, hu, h.2.2.2⟩
theorem Tidy.setParked {p : List Task} (h : Tidy s) (hp : ∀ t ∈ p, TaskCanonical t) : Tidy { s with parked := p } :=
  ⟨h.mem, h.mgmt, h.cur, hp, h.sched⟩
theorem Tidy.setSched {x : Sched} (h : Tidy s) (hx : SchedTidy x) : Tidy { s with sched := x } := ⟨h.mem, h.mgmt, h.cur, h.parked, hx⟩

theorem MemTidy.hbm {m : Mem} (h : MemTidy m) : Memory.wf m.hbm = true := h.1
theorem MemTidy.host {m : Mem} (h : MemTidy m) : Memory.wf m.host = true := h.2.1
theorem MemTidy.peer {m : Mem} (h : MemTidy m) : Memory.wf m.peer = true := h.2.2.1
theorem MemTidy.towers {m : Mem} (h : MemTidy m) : Memory.wf m.towers = true := h.2.2.2

theorem Tidy.setClk {c : Clock} (h : Tidy s) : Tidy { s with clk := c } := h
theorem Tidy.setEnv {e : Env} (h : Tidy s) : Tidy { s with env := e } := h
theorem Tidy.setNet {n : Net} (h : Tidy s) : Tidy { s with net := n } := h
theorem Tidy.setObs {o : Obs} (h : Tidy s) : Tidy { s with obs := o } := h

theorem TaskCanonical.setEng {t : Task} {e : Engines} (h : TaskCanonical t) : TaskCanonical { t with eng := e } := h
theorem TaskCanonical.setReg {t : Task} {r : Regs} (h : TaskCanonical t) : TaskCanonical { t with reg := r } := h

theorem Tidy.setHbm {b : Memory} (h : Tidy s) (hb : Memory.wf b = true) : Tidy { s with mem := { s.mem with hbm := b } } :=
  h.setMem ⟨hb, h.mem.2⟩
theorem Tidy.setHost {b : Memory} (h : Tidy s) (hb : Memory.wf b = true) : Tidy { s with mem := { s.mem with host := b } } :=
  h.setMem ⟨h.mem.hbm, hb, h.mem.2.2⟩
theorem Tidy.setPeer {b : Memory} (h : Tidy s) (hb : Memory.wf b = true) : Tidy { s with mem := { s.mem with peer := b } } :=
  h.setMem ⟨h.mem.hbm, h.mem.host, hb, h.mem.towers⟩
theorem Tidy.setTowers {b : Memory} (h : Tidy s) (hb : Memory.wf b = true) : Tidy { s with mem := { s.mem with towers := b } } :=
  h.setMem ⟨h.mem.hbm, h.mem.host, h.mem.peer, hb⟩

/-! ### Answers that carry a state -/

section
variable {α β ε : Type} {a : α} {b : β}

theorem Tidy.snd {p : α × State} (h : Tidy p.2) (e : p = (a, t)) : Tidy t := by subst e; exact h
theorem Tidy.trd {p : α × β × State} (h : Tidy p.2.2) (e : p = (a, b, t)) : Tidy t := by subst e; exact h

/-- The state that an answer holds, where it holds one, is tidy. -/
def OkTidy : Except ε State → Prop
  | .ok s => Tidy s
  | .error _ => True

def SomeTidy : Option State → Prop
  | some s => Tidy s
  | none => True

def OutTidy : Out → Prop
  | .next s => Tidy s
  | _ => True

theorem OkTidy.ok {r : Except ε State} (h : OkTidy r) (e : r = .ok t) : Tidy t := by subst e; exact h
theorem SomeTidy.some {o : Option State} (h : SomeTidy o) (e : o = .some t) : Tidy t := by subst e; exact h
theorem OutTidy.next {o : Out} (h : OutTidy o) (e : o = .next t) : Tidy t := by subst e; exact h

/-- A change made for each element of a list. -/
theorem Tidy.foldl {f : State → α → State} {l : List α} (h : Tidy s) (hf : ∀ s x, Tidy s → Tidy (f s x)) : Tidy (l.foldl f s) :=
  List.foldlRecOn l f h fun s hs x _ => hf s x hs

/-- The same where the change needs to know that the element is one of the list. -/
theorem Tidy.foldl_mem {f : State → α → State} {l : List α} (h : Tidy s) (hf : ∀ s, ∀ x ∈ l, Tidy s → Tidy (f s x)) :
    Tidy (l.foldl f s) :=
  List.foldlRecOn l f h fun s hs x hx => hf s x hx hs

end

theorem TaskCanonical.foldl {α : Type} {u : Task} {f : Task → α → Task} {l : List α} (h : TaskCanonical u)
    (hf : ∀ t x, TaskCanonical t → TaskCanonical (f t x)) : TaskCanonical (l.foldl f u) :=
  List.foldlRecOn l f h fun t ht x _ => hf t x ht

/-! ### Named updates -/

theorem Tidy.mapTasks {f : Task → Task} (h : Tidy s) (hf : ∀ t, TaskCanonical t → TaskCanonical (f t)) : Tidy (s.mapTasks f) :=
  (h.setCur (hf _ h.cur)).setParked (List.forall_mem_map.2 fun t ht => hf t (h.parked t ht))

theorem Tidy.onTile {tile : Nat} {f : Task → Task} (h : Tidy s) (hf : ∀ t, TaskCanonical t → TaskCanonical (f t)) :
    Tidy (s.onTile tile f) :=
  h.mapTasks fun t ht => by
    split
    · exact hf t ht
    · exact ht

theorem Tidy.setLaunches {ls : List Launch} (h : Tidy s) (hl : ∀ l ∈ ls, LaunchCanonical l) :
    Tidy { s with sched := { s.sched with launches := ls } } :=
  h.setSched ⟨hl, h.sched.2⟩

theorem Tidy.modLaunch {id : Nat} {f : Launch → Launch} (h : Tidy s) (hf : ∀ l, LaunchCanonical l → LaunchCanonical (f l)) :
    Tidy (s.modLaunch id f) :=
  h.setLaunches <| List.forall_mem_map.2 fun l hl => by
    split
    · exact hf l (h.sched.1 l hl)
    · exact h.sched.1 l hl

theorem Tidy.launch? {id : Nat} {l : Launch} (h : Tidy s) (e : s.launch? id = some l) : LaunchCanonical l :=
  h.sched.1 l (List.mem_of_find?_eq_some e)

theorem TaskCanonical.blank : TaskCanonical .blank := wf_nil

/-! ### One part of a launch exchanged -/

variable {l : Launch}

theorem LaunchCanonical.empty (hc : l.contexts = []) (hr : l.rows = []) : LaunchCanonical l :=
  ⟨fun t h => by simp [hc] at h, fun r h => by simp [hr] at h⟩

theorem LaunchCanonical.mapContexts {f : Task → Task} (h : LaunchCanonical l) (hf : ∀ t, TaskCanonical t → TaskCanonical (f t)) :
    LaunchCanonical { l with contexts := l.contexts.map f } :=
  ⟨List.forall_mem_map.2 fun t ht => hf t (h.1 t ht), h.2⟩

/-! ### Choices by a condition -/

variable {c : Prop} [Decidable c]

theorem Tidy.ite (hs : Tidy s) (ht : Tidy t) : Tidy (if c then s else t) := by
  split
  · exact hs
  · exact ht

theorem Tidy.ite_snd {α : Type} {p q : α × State} (hp : Tidy p.2) (hq : Tidy q.2) : Tidy (if c then p else q).2 := by
  split
  · exact hp
  · exact hq

theorem TaskCanonical.ite {t u : Task} (ht : TaskCanonical t) (hu : TaskCanonical u) : TaskCanonical (if c then t else u) := by
  split
  · exact ht
  · exact hu

end Sys2Proof.Safety
end

section
/-! SUPPORT. Shared operations: what Machine/Ops.lean does keeps every byte memory in canonical form. -/

namespace Sys2Proof.Safety
open Sys2Proof Sys2Proof.Machine Sys2Proof.Laws
variable {s : State}

theorem Tidy.modSeq {f : Machine.Seq → Machine.Seq} (h : Tidy s) : Tidy (s.modSeq f) := h

theorem Tidy.modReg {f : Regs → Regs} (h : Tidy s) : Tidy (s.modReg f) := h

theorem Tidy.modEng {f : Engines → Engines} (h : Tidy s) : Tidy (s.modEng f) := h

theorem Tidy.choose (h : Tidy s) : Tidy s.choose.2 := h

theorem Tidy.push {l : Landing} (h : Tidy s) : Tidy (s.push l) := h.modSeq

theorem Tidy.land {slot lat : Nat} {d : Dest} (h : Tidy s) : Tidy (s.land slot lat d) := h.push

theorem TaskCanonical.modCl {t : Task} {i : Fin 8} {f : Cluster → Cluster} (h : TaskCanonical t) : TaskCanonical (t.modCl i f) := h

theorem TaskCanonical.setCtl {t : Task} {num : BitVec 6} {sub : BitVec 4} {v : W64} (h : TaskCanonical t) :
    TaskCanonical (t.setCtl num sub v) := by
  unfold Task.setCtl
  dsimp only
  split
  any_goals exact h
  split
  · exact h
  · split
    · exact h.modCl
    · exact h

theorem TaskCanonical.setEngine {t : Task} {e i : BitVec 5} {v : W64} (h : TaskCanonical t) : TaskCanonical (t.setEngine e i v) := by
  unfold Task.setEngine
  dsimp only
  split
  · exact h
  · split <;> exact h

theorem TaskCanonical.deliver {t : Task} {d : Dest} (h : TaskCanonical t) : TaskCanonical (t.deliver d) := by
  cases d with
  | sreg | creg | nothing => exact h
  | vreg | kreg | tileRow | tileClear | cursor => exact h.foldl fun _ _ ht => ht.modCl
  | ctl => exact h.setCtl
  | smem => exact deliver_smem_wf h _ _
  | engine => exact h.setEngine

theorem TaskCanonical.deliverFlags {t : Task} {l : Landing} (h : TaskCanonical t) : TaskCanonical (t.deliverFlags l) := by
  unfold Task.deliverFlags
  dsimp only
  exact (h.foldl (fun t1 x h1 => h1.modCl)).foldl (fun t1 x h1 => h1.modCl)

theorem TaskCanonical.landDue {t : Task} (h : TaskCanonical t) : TaskCanonical t.landDue :=
  TaskCanonical.foldl (TaskCanonical.foldl h fun _ _ ht => ht.deliver) fun _ _ ht => ht.deliverFlags

theorem Tidy.landWdog (h : Tidy s) : Tidy s.landWdog := by
  unfold State.landWdog
  refine h.foldl (fun s1 x h1 => ?_)
  split
  · split
    · exact h1.modLaunch (fun l h2 => h2)
    · exact h1
  · exact h1

theorem Tidy.setCore {c : Nat} {l : Logline} (h : Tidy s) : Tidy (s.setCore c l) := h

theorem Tidy.setDbg {tile : Nat} {d : TileDbg} (h : Tidy s) : Tidy (s.setDbg tile d) := h

theorem Tidy.enqueueCore {c : Nat} {r : TraceRec} (h : Tidy s) : Tidy (s.enqueueCore c r) := by
  unfold State.enqueueCore
  dsimp only
  split <;> exact h.setCore

theorem Tidy.offerCore {c : Nat} {r : TraceRec} (h : Tidy s) : Tidy (s.offerCore c r) := by
  unfold State.offerCore
  dsimp only
  exact h.setCore

theorem Tidy.overflowSignal {off : Nat} {c : W64} (h : Tidy s) : Tidy (s.overflowSignal off c) := by
  unfold State.overflowSignal
  split <;> exact h

theorem Tidy.setCounter {off : Nat} {c : W64} (h : Tidy s) : Tidy (s.setCounter off c) := h

theorem Tidy.addCount {off n : Nat} (h : Tidy s) : Tidy (s.addCount off n).1 := by
  unfold State.addCount
  extract_lets _ _ _ _ s1 _ _ s2
  have h1 : Tidy s1 := h.setCounter
  have h2 : Tidy s2 := h1
  split
  · exact h
  · split
    · exact h2
    · exact h2.overflowSignal

theorem Tidy.dropRec {tile n : Nat} (h : Tidy s) : Tidy (State.dropRec tile n s) := by
  induction n generalizing s with
  | zero => exact h
  | succ n ih =>
    refine h.setDbg.foldl fun s m hs => ?_
    split
    · dsimp only
      split
      · exact ih hs.addCount
      · exact hs.addCount
    · exact hs

theorem Tidy.emitRec {tile : Nat} {r : TraceRec} (h : Tidy s) : Tidy (s.emitRec tile r) := by
  unfold State.emitRec
  dsimp only
  split
  · exact h
  · split
    · exact h.setDbg
    · exact h.dropRec

theorem Tidy.overflowRecord {off : Nat} {c : W64} (h : Tidy s) : Tidy (s.overflowRecord off c) := by
  unfold State.overflowRecord
  dsimp only
  split
  · exact h.emitRec
  · split <;> exact h.offerCore

theorem Tidy.bump {off n : Nat} (h : Tidy s) : Tidy (s.bump off n) := by
  unfold State.bump
  dsimp only
  split
  · exact h.addCount.overflowRecord
  · exact h.addCount

theorem Tidy.countBlock {at_ : Nat → Nat} {code n : Nat} (h : Tidy s) : Tidy (s.countBlock at_ code n) := by
  unfold State.countBlock
  refine h.foldl (fun s1 x h1 => ?_)
  split
  · exact h1.bump
  · exact h1

theorem Tidy.countTile {tile code n : Nat} (h : Tidy s) : Tidy (s.countTile tile code n) := by
  unfold State.countTile
  split
  · exact h
  · exact h.countBlock

theorem Tidy.countChan {g code n : Nat} (h : Tidy s) : Tidy (s.countChan g code n) := by
  unfold State.countChan
  split
  · exact h
  · exact h.countBlock

theorem Tidy.countNode {k code n : Nat} (h : Tidy s) : Tidy (s.countNode k code n) := by
  unfold State.countNode
  split
  · exact h
  · exact h.countBlock

theorem Tidy.emit {kind tag pc : Nat} {d0 d1 : W64} (h : Tidy s) : Tidy (s.emit kind tag pc d0 d1) := h.emitRec

theorem Tidy.landDue (h : Tidy s) : Tidy s.landDue := by
  unfold State.landDue
  dsimp only
  split
  · exact h.landWdog.setCur h.landWdog.cur.landDue
  · exact (h.landWdog.setCur h.landWdog.cur.landDue).countTile

theorem Tidy.stallOf {t : Machine.Task} {cause n pc scyc : Nat} (h : Tidy s) : Tidy (s.stallOf t cause n pc scyc) := by
  unfold State.stallOf
  split
  · exact h.emitRec
  · exact h

theorem Tidy.stallRecord {cause : Nat} (h : Tidy s) : Tidy (s.stallRecord cause) := h.stallOf

theorem Tidy.savedStall {t : Machine.Task} (h : Tidy s) : Tidy (s.savedStall t) := by
  unfold State.savedStall
  split
  · split
    · exact h
    · exact h.stallOf
  · exact h

theorem Tidy.block (h : Tidy s) : Tidy s.block := h.modSeq

theorem Tidy.endLock (h : Tidy s) : Tidy s.endLock := by
  unfold State.endLock
  split
  · exact h
  · exact h.stallOf.modSeq

theorem Tidy.lastStalls {t : Machine.Task} (h : Tidy s) : Tidy (s.lastStalls t) := by
  unfold State.lastStalls
  dsimp only
  refine Tidy.savedStall ?_
  split
  · split
    · exact h.stallOf
    · exact h
  · refine Tidy.stallOf ?_
    split
    · exact h.stallOf
    · exact h

theorem Tidy.setFab {c : Nat} {x : FabCtx} (h : Tidy s) : Tidy (s.setFab c x) := h

theorem Tidy.leaveCtxs {st : Machine.Stream} {errc : Nat} (h : Tidy s) : Tidy (s.leaveCtxs st errc) := h.foldl (fun _ _ h1 => h1.setFab)

theorem Tidy.logEvent {code arg : Nat} (h : Tidy s) : Tidy (s.logEvent code arg) := h

theorem Tidy.endTask (h : Tidy s) : Tidy s.endTask := by
  unfold State.endTask
  dsimp only
  refine h.savedStall.foldl (fun s1 x h1 => ?_)
  split
  · split <;> exact h1
  · split
    · exact h1.leaveCtxs
    · exact h1

theorem TaskCanonical.discardEngines {t : Task} (h : TaskCanonical t) : TaskCanonical t.discardEngines := h

theorem TaskCanonical.quit {t : Task} (h : TaskCanonical t) : TaskCanonical t.quit := by
  unfold Task.quit
  dsimp only
  exact h.discardEngines

theorem TaskCanonical.kill {t : Task} (h : TaskCanonical t) : TaskCanonical t.kill := by
  unfold Task.kill
  dsimp only
  exact h.discardEngines

theorem Tidy.haltRcb {addr : Nat} {bits cause : BitVec 8} (h : Tidy s) : Tidy (s.haltRcb addr bits cause) := by
  unfold State.haltRcb
  split
  · exact h.setHbm (wf_put h.mem.hbm _ _)
  · exact h

theorem Tidy.faultPolicy {l : Launch} {st : Status} (h : Tidy s) : Tidy (s.faultPolicy l st) := by
  unfold State.faultPolicy
  split
  · exact h
  · split
    · exact h.haltRcb
    · exact h.haltRcb
    · exact h

theorem Tidy.endLaunch {id : Nat} {st : Status} {f : Option Failing} (h : Tidy s) : Tidy (s.endLaunch id st f) := by
  unfold State.endLaunch
  extract_lets _ s1 s2 s3
  have h1 : Tidy s1 := by
    unfold s1
    refine (h.foldl (fun s4 t h1 => h1.lastStalls)).mapTasks (fun t h1 => ?_)
    split
    · split
      · exact h1.quit
      · exact h1.kill
    · exact h1
  have h2 : Tidy s2 := h1
  have h3 : Tidy s3 := by
    unfold s3
    split
    · split
      · exact h2.faultPolicy
      · exact h2
    · exact h2
  exact h3.modLaunch (fun l h4 => h4)

theorem Tidy.takeTerminal {pc : Nat} {f : FaultInfo} (h : Tidy s) : Tidy (s.takeTerminal pc f) := by
  unfold State.takeTerminal
  dsimp only
  exact h.modReg.emit.endLaunch.modSeq

theorem Tidy.enterTrap {pc : Nat} {f : FaultInfo} (h : Tidy s) : Tidy (s.enterTrap pc f) := by
  unfold State.enterTrap
  dsimp only
  exact h.modReg.emit.modSeq

theorem Tidy.takeFault {pc : Nat} {f : FaultInfo} (h : Tidy s) : Tidy (s.takeFault pc f) := by
  unfold State.takeFault
  split
  · exact h.takeTerminal
  · split
    · exact h.takeTerminal
    · split
      · exact h.enterTrap
      · exact h.takeTerminal

theorem Tidy.raise {slot : Nat} {st : Status} {info : W64} {cause : Nat} (h : Tidy s) : Tidy (s.raise slot st info cause) := h.takeFault

theorem Tidy.waitRaise {slot : Nat} {st : Status} {info : W64} (h : Tidy s) : Tidy (s.waitRaise slot st info) :=
  h.stallRecord.modSeq.takeFault

theorem Tidy.illegal {slot : Nat} {info : W64} (h : Tidy s) : Tidy (s.illegal slot info) := h.raise

theorem TaskCanonical.defer {t : Task} {f : FaultInfo} {pc : Option Nat} {redo : Bool} (h : TaskCanonical t) :
    TaskCanonical (t.defer f pc redo) := by
  unfold Task.defer
  split
  · exact h
  · split <;> exact h

theorem TaskCanonical.deferHw {t : Task} {redo : Bool} {pc : Option Nat} (h : TaskCanonical t) : TaskCanonical (t.deferHw redo pc)
    := h.defer

theorem Tidy.returnTrap (h : Tidy s) : Tidy s.returnTrap := by
  unfold State.returnTrap
  split
  · dsimp only
    exact h.modReg.emit.modSeq
  · refine Tidy.modSeq ?_
    split
    · exact h.savedStall
    · exact h

theorem Tidy.advance (h : Tidy s) : Tidy s.advance := by
  unfold State.advance
  dsimp only
  split
  · exact h.modSeq.modSeq.landDue.returnTrap
  · split
    · exact h.modSeq.landDue.endTask
    · exact h.modSeq.landDue

theorem Tidy.afterStall (h : Tidy s) : Tidy s.afterStall := by
  unfold State.afterStall
  split
  · dsimp only
    split
    · exact h.modSeq.landDue.endTask
    · exact h.modSeq.landDue
  · exact h.advance

theorem Tidy.stallBoundary (h : Tidy s) : Tidy s.stallBoundary := by
  unfold State.stallBoundary
  split
  · exact h.modSeq.landDue
  · split
    · exact h.modSeq.landDue
    · exact h.advance

end Sys2Proof.Safety
end

section
/-! SUPPORT. Flags: what Machine/Flags.lean does keeps every byte memory in canonical form. -/

namespace Sys2Proof.Safety
open Sys2Proof Sys2Proof.Machine Sys2Proof.Laws
variable {s : State}

theorem Tidy.landRuns {α : Type} {slot lat : Nat} {mk : List (Fin 8 × Machine.Runs α) → Dest} {res : List (ClRes α)} (h : Tidy s) :
    Tidy (s.landRuns slot lat mk res) := by
  unfold State.landRuns
  dsimp only
  split
  · exact h.raise
  · exact h.push

theorem Tidy.landB {α : Type} [DecidableEq α] {zero : α} {pick : Dest → List (Fin 8 × Machine.Runs α)}
    {mk : List (Fin 8 × Machine.Runs α) → Dest} {lat : Nat} {bmask : List (Fin 8 × Option (Machine.Runs Bool))}
    {res : List (ClRes α)} (h : Tidy s) :
    Tidy (s.landB zero pick mk lat bmask res) := by
  unfold State.landB
  dsimp only
  split
  · exact h.raise
  · split
    · exact h.modSeq
    · exact h.raise

theorem Tidy.landVecB {lat : Nat} {d : BitVec 5} {bmask : List (Fin 8 × Option (Machine.Runs Bool))} {res : List (ClRes W32)} (h : Tidy s) :
    Tidy (s.landVecB lat d bmask res) :=
  h.landB

theorem Tidy.landMaskB {lat : Nat} {d : BitVec 3} {res : List (ClRes Bool)} (h : Tidy s) : Tidy (s.landMaskB lat d res) := h.landB

end Sys2Proof.Safety
end

section
/-! SUPPORT. Global memory: what Machine/Global.lean does keeps every byte memory in canonical form. -/

namespace Sys2Proof.Safety
open Sys2Proof Sys2Proof.Machine Sys2Proof.Laws
variable {s : State}

theorem Tidy.beats {g code n : Nat} (h : Tidy s) : Tidy (s.beats g code n) := by
  unfold State.beats
  dsimp only
  exact h.countChan

theorem Tidy.tlbFill {tile : Option Nat} {e : TlbEntry} (h : Tidy s) : Tidy (s.tlbFill tile e) := by
  unfold State.tlbFill
  dsimp only
  refine h.setMem ?_
  split <;> exact h.mem

theorem Tidy.lookup {x : Xctx} {va : Nat} (h : Tidy s) : Tidy (s.lookup x va).2 := by
  unfold State.lookup
  extract_lets fresh entry useFresh
  have hu : ∀ {fill s}, Tidy s → Tidy (useFresh fill s).2 := by
    intro fill s h
    unfold useFresh
    extract_lets reads s1
    have h1 : Tidy s1 := h.foldl fun _ _ h => h.beats
    split
    · exact h
    · cases fresh with
      | leaf e => exact .ite h1.tlbFill h1
      | notPresent => exact .ite_snd h1 h1
      | _ => exact h1
  split
  · exact h
  · split
    · exact hu h
    · split
      · exact h
      · split
        · exact h.tlbFill
        · split
          next e => exact .ite_snd (h.choose.snd e).tlbFill (hu (h.choose.snd e))

theorem Tidy.readBuf {asid : BitVec 14} {pte : W64} (h : Tidy s) : Tidy (s.readBuf asid pte) := by
  unfold State.readBuf
  split
  · exact h.beats
  · exact h

theorem Tidy.translate {x : Xctx} {w : Want} {va len : Nat} (h : Tidy s) : Tidy (s.translate x w va len).2 := by
  unfold State.translate
  split
  any_goals exact h.lookup.snd ‹_›
  split
  · exact h.lookup.snd ‹_›
  · split
    · exact h.lookup.snd ‹_›
    · split <;> exact (h.lookup.snd ‹_›).readBuf

theorem Tidy.spans {x : Xctx} {w : Want} {fuel va n : Nat} (h : Tidy s) : Tidy (s.spans x w fuel va n).2 := by
  induction fuel generalizing s va n with
  | zero => exact h
  | succ k ih =>
    unfold State.spans
    split
    · exact h
    · dsimp only
      split
      · exact h.translate.snd ‹_›
      · split <;> exact (ih (h.translate.snd ‹_›)).snd ‹_›

theorem wf_putBlock {m : Memory} {codes : List Nat} {frame j : Nat} {block : List Byte} (h : Memory.wf m = true) :
    Memory.wf (m.putBlock codes frame j block) = true :=
  wf_putBytes h _ _

theorem Tidy.layOut {frame : Nat} (h : Tidy s) : Tidy (s.layOut frame) :=
  h.setHbm (List.foldlRecOn (motive := fun m => Memory.wf m = true) _ _ h.mem.hbm fun _ hm _ _ => wf_putBlock hm)

theorem Tidy.writeBlock {frame j : Nat} {block : List Byte} (h : Tidy s) : Tidy (s.writeBlock frame j block) := by
  unfold State.writeBlock
  dsimp only
  split
  · exact h.setHbm (wf_putBlock h.mem.hbm)
  · exact h

theorem Tidy.cmpWrite {addr : Nat} {bs : List Byte} (h : Tidy s) : Tidy (s.cmpWrite addr bs) := by
  unfold State.cmpWrite
  dsimp only
  exact h.foldl (fun s1 x h1 => h1.writeBlock)

theorem Tidy.homeWrite {p : Place} {bs : List Byte} (h : Tidy s) : Tidy (s.homeWrite p bs) := by
  unfold State.homeWrite
  split
  · exact h.setHbm (wf_putBytes h.mem.hbm _ _)
  · exact h.setPeer (wf_putBytes h.mem.peer _ _)
  · exact h.cmpWrite
  · exact h.setHost (wf_putBytes h.mem.host _ _)

theorem Tidy.checkSectors {launch tile : Nat} {wrote : Bool} {secs : List (Nat × Nat)} (h : Tidy s) :
    OkTidy (s.checkSectors launch tile wrote secs) := by
  unfold State.checkSectors
  split
  · exact h
  · exact h
  · split
    · trivial
    · dsimp only
      exact h.modLaunch (fun l h1 => h1)

theorem Tidy.checkRace {launch tile : Nat} {wrote : Bool} {sps : List Span} (h : Tidy s) : OkTidy (s.checkRace launch tile wrote sps) :=
  h.checkSectors

theorem Tidy.arrive {w : PortWrite} (h : Tidy s) : Tidy (s.arrive w) := h.homeWrite

theorem Tidy.drainDevice {kind : Nat} (h : Tidy s) : Tidy (s.drainDevice kind) := by
  unfold State.drainDevice
  dsimp only
  exact Tidy.foldl h (fun s1 x h1 => h1.arrive)

theorem Tidy.leaveTile {w : PortWrite} (h : Tidy s) : Tidy (s.leaveTile w) := by
  unfold State.leaveTile
  split
  · exact h.arrive
  · exact h

theorem Tidy.leavePort {tile : Nat} (h : Tidy s) : Tidy (s.leavePort tile) := by
  unfold State.leavePort
  dsimp only
  exact Tidy.foldl h (fun s1 x h1 => h1.leaveTile)

theorem Tidy.drainTile {tile : Nat} (h : Tidy s) : Tidy (s.drainTile tile) := by
  unfold State.drainTile
  refine h.leavePort.foldl (fun s1 x h1 => ?_)
  split
  · exact h1.drainDevice
  · exact h1

theorem Tidy.queuePlace {tile unit : Nat} {p : Place} (h : Tidy s) : Tidy (s.queuePlace tile unit p) := by
  unfold State.queuePlace
  dsimp only
  split <;> exact h

theorem Tidy.queueAt {tile unit : Nat} {sps : List Span} (h : Tidy s) : Tidy (s.queueAt tile unit sps) :=
  h.foldl (fun _ _ h1 => h1.queuePlace)

theorem Tidy.drainOne {tile : Nat} (h : Tidy s) : Tidy (s.drainOne tile) := by
  unfold State.drainOne
  split
  · exact h
  · split
    · exact h.queuePlace
    · split
      · exact h.drainDevice
      · exact Tidy.leaveTile h

theorem Tidy.performWrite {scope : BitVec 2} {w : PortWrite} (h : Tidy s) : Tidy (s.performWrite scope w) := by
  unfold State.performWrite
  split
  · exact h
  · exact h.leavePort.leaveTile
  · dsimp only
    refine Tidy.arrive ?_
    split
    · exact h.leavePort
    · exact h.leavePort.drainDevice

theorem Tidy.performHeld {tile : Nat} {scope : BitVec 2} (h : Tidy s) : Tidy (s.performHeld tile scope) := by
  unfold State.performHeld
  dsimp only
  split
  · exact h
  · exact h.leavePort
  · split
    · exact h.leavePort.drainDevice
    · exact h.leavePort
  · exact h.drainTile

theorem Tidy.passPort {sps : List Span} (h : Tidy s) : Tidy (s.passPort sps) := by
  unfold State.passPort
  refine h.foldl (fun s1 x h1 => ?_)
  split
  · exact h1
  · exact h1.drainDevice

theorem Tidy.drainTo {tile : Nat} {sps : List Span} (h : Tidy s) : Tidy (s.drainTo tile sps) := by
  unfold State.drainTo
  refine h.foldl (fun s1 x h1 => ?_)
  split
  · exact h1.drainOne
  · exact h1

theorem Tidy.countBeats {code : Nat} {sps : List Span} (h : Tidy s) : Tidy (s.countBeats code sps) := by
  unfold State.countBeats
  refine h.foldl (fun s1 x h1 => ?_)
  split
  · exact h1.beats
  · exact h1

theorem Tidy.countLocal {code addr n : Nat} (h : Tidy s) : Tidy (s.countLocal code addr n) := h.countBeats

theorem Tidy.readSpans {t : Machine.Task} {unit : Nat} {sps : List Span} {counted : Bool} (h : Tidy s) :
    Tidy (s.readSpans t unit sps counted).2 := by
  unfold State.readSpans
  split
  · exact h.queueAt
  · split
    · exact h
    · split
      · exact h
      · dsimp only
        split
        · exact (h.checkRace.ok ‹_›).passPort.countBeats
        · exact (h.checkRace.ok ‹_›).passPort

theorem Tidy.readVirt {t : Machine.Task} {want : Want} {va n : Nat} (h : Tidy s) : Tidy (s.readVirt t want va n).2 := by
  unfold State.readVirt
  split
  · exact h.spans.snd ‹_›
  · exact (h.spans.snd ‹_›).readSpans

theorem Tidy.readOn {t : Machine.Task} {want : Want} {va n fuel : Nat} {got : List Byte} (h : Tidy s) :
    Tidy (s.readOn t want va n fuel got).2 := by
  induction fuel generalizing s got with
  | zero => exact h
  | succ n ih =>
    unfold State.readOn
    split
    · exact h
    · dsimp only
      split
      · exact h.translate.snd ‹_›
      · split
        · exact (h.translate.snd ‹_›).readSpans.snd ‹_›
        · split
          · exact ((h.translate.snd ‹_›).readSpans.snd ‹_›).choose
          · exact ih (((h.translate.snd ‹_›).readSpans.snd ‹_›).choose)

theorem Tidy.writeSpan {t : Machine.Task} {unit : Nat} {sp : Span} {bs : List Byte} {counted : Bool} (h : Tidy s) :
    Tidy (s.writeSpan t unit sp bs counted).2 := by
  unfold State.writeSpan
  split
  · exact h.queueAt
  · split
    · exact h
    · dsimp only
      split
      · exact (h.checkRace.ok ‹_›).performWrite.countBeats
      · exact (h.checkRace.ok ‹_›).performWrite

theorem Tidy.writeOn {t : Machine.Task} {unit : Nat} {place : State → Nat → Nat → Except MemFail Span × State} {va : Nat}
    {bs : List Byte} {fuel k : Nat} (h : Tidy s) (hp : ∀ s a n, Tidy s → Tidy (place s a n).2) :
    Tidy (s.writeOn t unit place va bs fuel k).2.2 := by
  induction fuel generalizing s k with
  | zero => exact h
  | succ n ih =>
    unfold State.writeOn
    split
    · exact h
    · dsimp only
      split
      · exact (hp _ _ _ h).snd ‹_›
      · split
        · exact ((hp _ _ _ h).snd ‹_›).writeSpan.snd ‹_›
        · split
          · exact (((hp _ _ _ h).snd ‹_›).writeSpan.snd ‹_›).choose
          · exact ih ((((hp _ _ _ h).snd ‹_›).writeSpan.snd ‹_›).choose)

end Sys2Proof.Safety
end

section
/-! SUPPORT. Tower rows: what Machine/Tower.lean does keeps every byte memory in canonical form. -/

namespace Sys2Proof.Safety
open Sys2Proof Sys2Proof.Machine Sys2Proof.Laws
variable {s : State}

theorem Tidy.towerWrite {tile i addr : Nat} {bs : List Byte} (h : Tidy s) : Tidy (s.towerWrite tile i addr bs) :=
  h.setTowers (wf_putBytes h.mem.towers _ _)

theorem Tidy.setFull {tile i : Nat} {gs : List Nat} (h : Tidy s) : Tidy (s.setFull tile i gs) := h

theorem Tidy.clearFull {tile i : Nat} {gs : List Nat} (h : Tidy s) : Tidy (s.clearFull tile i gs) := by
  unfold State.clearFull
  dsimp only
  exact h

theorem Tidy.engineWrite {tile i addr : Nat} {bs : List Byte} (h : Tidy s) : Tidy (s.engineWrite tile i addr bs) := h.towerWrite.setFull

theorem Tidy.clearRows {ptower first n : Nat} (h : Tidy s) : Tidy (s.clearRows ptower first n) :=
  h.setTowers (wf_clearRange h.mem.towers _ _)

theorem Tidy.clearLease {tile lease : Nat} (h : Tidy s) : Tidy (s.clearLease tile lease) := h.foldl (fun _ _ h1 => h1.clearRows)

end Sys2Proof.Safety
end

section
/-! SUPPORT. Slot C: what Machine/SlotC.lean does keeps every byte memory in canonical form. -/

namespace Sys2Proof.Safety
open Sys2Proof Sys2Proof.Machine Sys2Proof.Laws
variable {s : State}

theorem Tidy.crResult {o : CrForm} {lat : Nat} {f : W64 → W64 → W64} (h : Tidy s) : Tidy (s.crResult o lat f) := by
  unfold State.crResult
  split
  · exact h.land
  · exact h

theorem Tidy.cr1Result {o : Cr1Form} {f : W64 → W64} (h : Tidy s) : Tidy (s.cr1Result o f) := by
  unfold State.cr1Result
  split
  · exact h.land
  · exact h

theorem Tidy.ciResult {o : CiForm} {f : W64 → BitVec 14 → W64} (h : Tidy s) : Tidy (s.ciResult o f) := h.land

theorem Tidy.cmpResult {o : CmpForm} {rel : W64 → W64 → Bool} (h : Tidy s) : Tidy (s.cmpResult o rel) := by
  unfold State.cmpResult
  split
  · exact h.land
  · exact h

theorem Tidy.cmpiResult {o : CmpiForm} {rel : W64 → W64 → Bool} (h : Tidy s) : Tidy (s.cmpiResult o rel) := h.land

theorem Tidy.condResult {o : CondForm} {f : Bool → Bool → Bool} (h : Tidy s) : Tidy (s.condResult o f) := by
  unfold State.condResult
  split
  · exact h.land
  · exact h

theorem Tidy.transfer {act : State → State} (h : Tidy s) (hact : ∀ s, Tidy s → Tidy (act s)) : Tidy (s.transfer act) := by
  unfold State.transfer
  split
  · exact h.raise
  · exact hact _ h

theorem Tidy.branchTo {target : Nat} {taken : Bool} {kind : BranchKind} (h : Tidy s) : Tidy (s.branchTo target taken kind) := h.modSeq

theorem Tidy.hold (h : Tidy s) : Tidy s.hold := h.modSeq

theorem Tidy.addWait {w : Wait} (h : Tidy s) : Tidy (s.addWait w) := h.modSeq

theorem Tidy.execNop (h : Tidy s) : OutTidy (execNop s) := h

theorem Tidy.execAdd {o : CrForm} (h : Tidy s) : OutTidy (execAdd o s) := h.crResult

theorem Tidy.execSub {o : CrForm} (h : Tidy s) : OutTidy (execSub o s) := h.crResult

theorem Tidy.execMul {o : CrForm} (h : Tidy s) : OutTidy (execMul o s) := h.crResult

theorem Tidy.execMulh {o : CrForm} (h : Tidy s) : OutTidy (execMulh o s) := h.crResult

theorem Tidy.execMulhu {o : CrForm} (h : Tidy s) : OutTidy (execMulhu o s) := h.crResult

theorem Tidy.execDiv {o : CrForm} (h : Tidy s) : OutTidy (execDiv o s) := h.crResult

theorem Tidy.execDivu {o : CrForm} (h : Tidy s) : OutTidy (execDivu o s) := h.crResult

theorem Tidy.execRem {o : CrForm} (h : Tidy s) : OutTidy (execRem o s) := h.crResult

theorem Tidy.execRemu {o : CrForm} (h : Tidy s) : OutTidy (execRemu o s) := h.crResult

theorem Tidy.execAnd {o : CrForm} (h : Tidy s) : OutTidy (execAnd o s) := h.crResult

theorem Tidy.execOr {o : CrForm} (h : Tidy s) : OutTidy (execOr o s) := h.crResult

theorem Tidy.execXor {o : CrForm} (h : Tidy s) : OutTidy (execXor o s) := h.crResult

theorem Tidy.execAndn {o : CrForm} (h : Tidy s) : OutTidy (execAndn o s) := h.crResult

theorem Tidy.execShl {o : CrForm} (h : Tidy s) : OutTidy (execShl o s) := h.crResult

theorem Tidy.execShr {o : CrForm} (h : Tidy s) : OutTidy (execShr o s) := h.crResult

theorem Tidy.execShra {o : CrForm} (h : Tidy s) : OutTidy (execShra o s) := h.crResult

theorem Tidy.execRot {o : CrForm} (h : Tidy s) : OutTidy (execRot o s) := h.crResult

theorem Tidy.execMin {o : CrForm} (h : Tidy s) : OutTidy (execMin o s) := h.crResult

theorem Tidy.execMax {o : CrForm} (h : Tidy s) : OutTidy (execMax o s) := h.crResult

theorem Tidy.execMinu {o : CrForm} (h : Tidy s) : OutTidy (execMinu o s) := h.crResult

theorem Tidy.execMaxu {o : CrForm} (h : Tidy s) : OutTidy (execMaxu o s) := h.crResult

theorem Tidy.execClz {o : Cr1Form} (h : Tidy s) : OutTidy (execClz o s) := h.cr1Result

theorem Tidy.execCtz {o : Cr1Form} (h : Tidy s) : OutTidy (execCtz o s) := h.cr1Result

theorem Tidy.execPopc {o : Cr1Form} (h : Tidy s) : OutTidy (execPopc o s) := h.cr1Result

theorem Tidy.execAddi {o : CiForm} (h : Tidy s) : OutTidy (execAddi o s) := h.ciResult

theorem Tidy.execAndi {o : CiForm} (h : Tidy s) : OutTidy (execAndi o s) := h.ciResult

theorem Tidy.execOri {o : CiForm} (h : Tidy s) : OutTidy (execOri o s) := h.ciResult

theorem Tidy.execXori {o : CiForm} (h : Tidy s) : OutTidy (execXori o s) := h.ciResult

theorem Tidy.execShli {o : CiForm} (h : Tidy s) : OutTidy (execShli o s) := h.ciResult

theorem Tidy.execShri {o : CiForm} (h : Tidy s) : OutTidy (execShri o s) := h.ciResult

theorem Tidy.execShrai {o : CiForm} (h : Tidy s) : OutTidy (execShrai o s) := h.ciResult

theorem Tidy.execLih {o : LihForm} (h : Tidy s) : OutTidy (execLih o s) := h.land

theorem Tidy.execCmpeq {o : CmpForm} (h : Tidy s) : OutTidy (execCmpeq o s) := h.cmpResult

theorem Tidy.execCmpne {o : CmpForm} (h : Tidy s) : OutTidy (execCmpne o s) := h.cmpResult

theorem Tidy.execCmplt {o : CmpForm} (h : Tidy s) : OutTidy (execCmplt o s) := h.cmpResult

theorem Tidy.execCmpltu {o : CmpForm} (h : Tidy s) : OutTidy (execCmpltu o s) := h.cmpResult

theorem Tidy.execCmple {o : CmpForm} (h : Tidy s) : OutTidy (execCmple o s) := h.cmpResult

theorem Tidy.execCmpleu {o : CmpForm} (h : Tidy s) : OutTidy (execCmpleu o s) := h.cmpResult

theorem Tidy.execCmpeqi {o : CmpiForm} (h : Tidy s) : OutTidy (execCmpeqi o s) := h.cmpiResult

theorem Tidy.execCmplti {o : CmpiForm} (h : Tidy s) : OutTidy (execCmplti o s) := h.cmpiResult

theorem Tidy.execCmpltui {o : CmpiForm} (h : Tidy s) : OutTidy (execCmpltui o s) := h.cmpiResult

theorem Tidy.execCand {o : CondForm} (h : Tidy s) : OutTidy (execCand o s) := h.condResult

theorem Tidy.execCor {o : CondForm} (h : Tidy s) : OutTidy (execCor o s) := h.condResult

theorem Tidy.execCxor {o : CondForm} (h : Tidy s) : OutTidy (execCxor o s) := h.condResult

theorem Tidy.execSel {o : SelForm} (h : Tidy s) : OutTidy (execSel o s) := by
  unfold Machine.execSel
  split
  · exact h.land
  · exact h

theorem Tidy.execLds {o : LdsForm} (h : Tidy s) : OutTidy (execLds o s) := by
  unfold Machine.execLds
  split
  · dsimp only
    split
    · exact h.land
    · exact h.illegal
  · exact h

theorem Tidy.execSts {o : StsForm} (h : Tidy s) : OutTidy (execSts o s) := by
  unfold Machine.execSts
  split
  · dsimp only
    split
    · exact h.land
    · exact h.illegal
  · exact h

theorem Tidy.loadPiece {sp : Span} (h : Tidy s) : Tidy (s.loadPiece sp).2 := by
  unfold State.loadPiece
  dsimp only
  refine (Tidy.passPort ?_).countBeats
  split
  · exact h.setCur h.cur.deferHw
  · exact h

theorem Tidy.storePiece {a : GAccess} {sp : Span} (h : Tidy s) : Tidy (s.storePiece a sp) := by
  unfold State.storePiece
  dsimp only
  exact h.performWrite.countBeats

theorem Tidy.performPieces {a : GAccess} {sps : List Span} (h : Tidy s) : Tidy (s.performPieces a sps).2 := by
  induction sps generalizing s with
  | nil => exact h
  | cons sp l ih =>
    unfold State.performPieces
    split
    next e =>
      refine ih (Tidy.snd ?_ e)
      split
      · exact h.storePiece
      · exact h.loadPiece

theorem Tidy.performAll {a : GAccess} {ps : List Span} {fault : W64 → State → State} {done : List Byte → State → State}
    (h : Tidy s) (hf : ∀ i s, Tidy s → Tidy (fault i s)) (hd : ∀ bs s, Tidy s → Tidy (done bs s)) :
    Tidy (s.performAll a ps fault done) := by
  unfold State.performAll
  split
  · exact hf _ _ h
  · split
    · exact hd _ _ ((h.checkRace.ok ‹_›).performPieces.snd ‹_›)

theorem Tidy.landLoad {a : GAccess} {bs : List Byte} (h : Tidy s) : Tidy (s.landLoad a bs) := by
  unfold State.landLoad
  split
  · exact h.land
  · exact h

theorem Tidy.performChecked {a : GAccess} {sps : List Span} (h : Tidy s) : Tidy (s.performChecked a sps) := by
  unfold State.performChecked
  split
  · exact h.queueAt.block
  · exact h.modSeq.performAll (fun _ _ h => h.raise) fun _ _ h => h.landLoad

theorem Tidy.startGlobal {a : GAccess} {want : Want} {legal : Nat → Bool} (h : Tidy s) : Tidy (s.startGlobal a want legal) := by
  unfold State.startGlobal
  split
  · split
    · exact (h.spans.snd ‹_›).illegal
    · split
      · exact (h.spans.snd ‹_›).performChecked
      · exact (h.spans.snd ‹_›).addWait
  · exact (h.spans.snd ‹_›).block
  · exact (h.spans.snd ‹_›).hold
  · exact (h.spans.snd ‹_›).hold
  · exact (h.spans.snd ‹_›).raise
  · exact (h.spans.snd ‹_›).raise

theorem Tidy.execLdg {o : LdgForm} (h : Tidy s) : OutTidy (execLdg o s) := by
  unfold Machine.execLdg
  split
  · exact h.startGlobal
  · exact h

theorem Tidy.execStg {o : StgForm} (h : Tidy s) : OutTidy (execStg o s) := by
  unfold Machine.execStg
  split
  · exact h.startGlobal
  · exact h

theorem Tidy.amo {o : AmoForm} {op : AmoOp} (h : Tidy s) : Tidy (s.amo o op) := by
  unfold State.amo
  split
  · extract_lets
    split
    · exact h.raise
    · split
      · exact h.illegal
      · exact h.startGlobal
  · exact h

theorem Tidy.execAmoadd {o : AmoForm} (h : Tidy s) : OutTidy (execAmoadd o s) := h.amo

theorem Tidy.execAmomin {o : AmoForm} (h : Tidy s) : OutTidy (execAmomin o s) := h.amo

theorem Tidy.execAmomax {o : AmoForm} (h : Tidy s) : OutTidy (execAmomax o s) := h.amo

theorem Tidy.execAmoand {o : AmoForm} (h : Tidy s) : OutTidy (execAmoand o s) := h.amo

theorem Tidy.execAmoor {o : AmoForm} (h : Tidy s) : OutTidy (execAmoor o s) := h.amo

theorem Tidy.execAmoxch {o : AmoForm} (h : Tidy s) : OutTidy (execAmoxch o s) := h.amo

theorem Tidy.execAmocas {o : AmoForm} (h : Tidy s) : OutTidy (execAmocas o s) := h.amo

theorem Tidy.execFence {scope : BitVec 2} (h : Tidy s) : OutTidy (execFence scope s) := h.addWait

theorem Tidy.execBr {o : BrForm} (h : Tidy s) : OutTidy (execBr o s) := h.transfer (fun _ h1 => h1.branchTo)

theorem Tidy.execJmp {o : JmpForm} (h : Tidy s) : OutTidy (execJmp o s) := h.transfer (fun _ h1 => h1.branchTo)

theorem Tidy.execCall {o : BrForm} (h : Tidy s) : OutTidy (execCall o s) := by
  unfold Machine.execCall
  refine h.transfer (fun s1 h1 => Tidy.branchTo ?_)
  split
  · exact h1.land
  · exact h1

theorem Tidy.execRet {o : RetForm} (h : Tidy s) : OutTidy (execRet o s) := h.transfer (fun _ h1 => h1.branchTo)

theorem Tidy.execLoop {d : BitVec 5} {imm : BitVec 14} (h : Tidy s) : OutTidy (execLoop d imm s) :=
  h.transfer (fun _ h1 => h1.land.branchTo)

theorem Tidy.execEndTask (h : Tidy s) : OutTidy (execEndTask s) := h.transfer (fun _ h1 => h1.branchTo)

theorem Tidy.execRep {m n : BitVec 6} (h : Tidy s) : OutTidy (execRep m n s) := by
  unfold Machine.execRep
  refine h.transfer (fun s1 h1 => ?_)
  split
  · exact h1
  · exact h1.modSeq

theorem Tidy.execLaunch {o : CrForm} (h : Tidy s) : OutTidy (execLaunch o s) := by
  unfold Machine.execLaunch
  split
  · dsimp only
    split
    · exact h.illegal
    · split
      · exact h.land
      · exact h.modEng.land
  · exact h

theorem Tidy.execSfmt {o : RetForm} (h : Tidy s) : OutTidy (execSfmt o s) := by
  unfold Machine.execSfmt
  split
  · dsimp only
    split
    · exact h.illegal
    · exact h.land
  · exact h

theorem Tidy.execMfc {r : BitVec 5} {x : BitVec 4} {c : BitVec 6} (h : Tidy s) : OutTidy (execMfc r x c s) := by
  unfold Machine.execMfc
  split
  · exact h.illegal
  · split
    · exact h.raise
    · exact h.land

theorem Tidy.execMtc {r : BitVec 5} {x : BitVec 4} {c : BitVec 6} (h : Tidy s) : OutTidy (execMtc r x c s) := by
  unfold Machine.execMtc
  dsimp only
  split
  · exact h.raise
  · split
    · exact h.illegal
    · split
      · exact h.illegal
      · exact h.land

theorem Tidy.execSetvl {o : Cr1Form} (h : Tidy s) : OutTidy (execSetvl o s) := by
  unfold Machine.execSetvl
  split
  · dsimp only
    split
    · exact h.land
    · exact h.land.land
  · exact h

theorem Tidy.execSetcm {r : Bool} {a : BitVec 5} {imm : BitVec 8} (h : Tidy s) : OutTidy (execSetcm r a imm s) := h.land

theorem Tidy.execTrap {imm : BitVec 14} (h : Tidy s) : OutTidy (execTrap imm s) := by
  unfold Machine.execTrap
  refine h.transfer (fun s1 h1 => ?_)
  dsimp only
  split
  · exact h1.takeFault
  · exact h1.advance.takeFault

theorem Tidy.execTret (h : Tidy s) : OutTidy (execTret s) := by
  unfold Machine.execTret
  refine h.transfer (fun s1 h1 => ?_)
  split
  · exact h1.branchTo
  · exact h1.illegal

theorem Tidy.execTfence (h : Tidy s) : OutTidy (execTfence s) := by
  unfold Machine.execTfence
  dsimp only
  split
  · exact h.raise
  · exact h

theorem Tidy.execLovt {o : RetForm} (h : Tidy s) : OutTidy (execLovt o s) := by
  unfold Machine.execLovt
  split
  · split
    · exact h.raise
    · split
      · exact h.illegal
      · exact h.land
  · exact h

theorem Tidy.tlbinv {mode : BitVec 2} {a b : W64} (h : Tidy s) : Tidy (s.tlbinv mode a b) := by
  unfold State.tlbinv
  split
  · exact h.raise
  · split
    · exact h.illegal
    · exact h

theorem Tidy.execTlbinv {o : JmpForm} (h : Tidy s) : OutTidy (execTlbinv o s) := by
  unfold Machine.execTlbinv
  split
  · exact h.tlbinv
  · exact h

theorem Tidy.execTlbinvAsid {b : BitVec 5} {n : Bool} {q : BitVec 3} (h : Tidy s) : OutTidy (execTlbinvAsid b n q s) := by
  unfold Machine.execTlbinvAsid
  split
  · exact h.tlbinv
  · exact h

theorem Tidy.execTlbinvAll {n : Bool} {q : BitVec 3} (h : Tidy s) : OutTidy (execTlbinvAll n q s) := by
  unfold Machine.execTlbinvAll
  split
  · exact h.tlbinv
  · exact h

theorem Tidy.appendReckoning {lo hi : W64} (h : Tidy s) : Tidy (s.appendReckoning lo hi) := by
  unfold State.appendReckoning
  dsimp only
  split
  · exact h.homeWrite.countLocal
  · exact h

theorem Tidy.execMark {e : BitVec 20} (h : Tidy s) : OutTidy (execMark e s) := by
  unfold Machine.execMark
  extract_lets
  split
  · extract_lets _ _ s1
    have h1 : Tidy s1 := by
      unfold s1
      split
      · exact h.land.appendReckoning
      · exact h.land
    exact h1

end Sys2Proof.Safety
end

section
/-! SUPPORT. Rings: what Machine/Rings.lean does keeps every byte memory in canonical form. -/

namespace Sys2Proof.Safety
open Sys2Proof Sys2Proof.Machine Sys2Proof.Laws
variable {s : State}

theorem TaskCanonical.setRing {t : Task} {h1 : BitVec 4} {r : Machine.Ring} (h : TaskCanonical t) : TaskCanonical (t.setRing h1 r) := h

theorem TaskCanonical.settle {t : Task} {s1 : State} (h : TaskCanonical t) : TaskCanonical (t.settle s1) := h

theorem Tidy.settle {tile : Nat} (h : Tidy s) : Tidy (s.settle tile) := h.onTile (fun _ h1 => h1.settle)

theorem Tidy.producePart {tile : Nat} {h1 : BitVec 4} {i ix : Nat} {bs : List Byte} (h : Tidy s) :
    Tidy (s.producePart tile h1 i ix bs) := by
  unfold State.producePart
  split
  · exact h
  · dsimp only
    exact (h.engineWrite.onTile (fun t h2 => h2.setRing)).settle

theorem Tidy.consume {tile i : Nat} {gs : List Nat} (h : Tidy s) : Tidy (s.consume tile i gs) := h.clearFull.settle

theorem TaskCanonical.ringError {t : Task} {h1 : BitVec 4} {kind : Nat} (h : TaskCanonical t) : TaskCanonical (t.ringError h1 kind) := by
  unfold Task.ringError
  dsimp only
  exact h

end Sys2Proof.Safety
end

section
/-! SUPPORT. Slot A: what Machine/SlotA.lean does keeps every byte memory in canonical form. -/

namespace Sys2Proof.Safety
open Sys2Proof Sys2Proof.Machine Sys2Proof.Laws
variable {s : State}

theorem Tidy.vecOp {lat : Nat} {d : BitVec 5} {k : BitVec 3} {cl : BitVec 2} {z readsRm : Bool}
    {srcs : Cluster → List (Machine.Runs W32)} {fn : List W32 → W32 × Flags} (h : Tidy s) :
    Tidy (s.vecOp lat d k cl z readsRm srcs fn) := by
  unfold State.vecOp
  split
  · exact h.illegal
  · exact h.landRuns

theorem Tidy.float2 {o : AForm} {lat : Nat} {readsRm : Bool} {f : FVal → FVal → FVal × Flags} (h : Tidy s) :
    Tidy (s.float2 o lat readsRm f) :=
  h.vecOp

theorem Tidy.float3 {o : AForm} {f : FVal → FVal → FVal → FVal × Flags} (h : Tidy s) : Tidy (s.float3 o f) := h.vecOp

theorem Tidy.float1 {o : A1Form} {lat : Nat} {readsRm : Bool} {f : FVal → W32 × Flags} (h : Tidy s) : Tidy (s.float1 o lat readsRm f) :=
  h.vecOp

theorem Tidy.int2 {o : AForm} {f : W32 → W32 → W32} (h : Tidy s) : Tidy (s.int2 o f) := h.vecOp

theorem Tidy.cmpVec {o : VcmpForm} {f : W32 → W32 → Bool × Flags} (h : Tidy s) : Tidy (s.cmpVec o f) := h.landRuns

theorem Tidy.maskOp {cl : BitVec 2} {d : BitVec 3} {srcs : List (BitVec 3)}
    {f : Nat → List (Machine.Runs Bool) → Machine.Runs Bool} (h : Tidy s) :
    Tidy (s.maskOp cl d srcs f) :=
  h.landRuns

theorem Tidy.runsOp {cl : BitVec 2} {lat : Nat} {d : BitVec 5} {f : Cluster → Machine.Runs W32 × Flags} (h : Tidy s) :
    Tidy (s.runsOp cl lat d f) :=
  h.landRuns

theorem Tidy.execNopA (h : Tidy s) : OutTidy (execNopA s) := h

theorem Tidy.execVadd {o : AForm} (h : Tidy s) : OutTidy (execVadd o s) := h.float2

theorem Tidy.execVsub {o : AForm} (h : Tidy s) : OutTidy (execVsub o s) := h.float2

theorem Tidy.execVmul {o : AForm} (h : Tidy s) : OutTidy (execVmul o s) := h.float2

theorem Tidy.execVdiv {o : AForm} (h : Tidy s) : OutTidy (execVdiv o s) := h.float2

theorem Tidy.execVmin {o : AForm} (h : Tidy s) : OutTidy (execVmin o s) := h.float2

theorem Tidy.execVmax {o : AForm} (h : Tidy s) : OutTidy (execVmax o s) := h.float2

theorem Tidy.execVfma {o : AForm} (h : Tidy s) : OutTidy (execVfma o s) := h.float3

theorem Tidy.execVfms {o : AForm} (h : Tidy s) : OutTidy (execVfms o s) := h.float3

theorem Tidy.execVfnma {o : AForm} (h : Tidy s) : OutTidy (execVfnma o s) := h.float3

theorem Tidy.execVabs {o : A1Form} (h : Tidy s) : OutTidy (execVabs o s) := h.float1

theorem Tidy.execVneg {o : A1Form} (h : Tidy s) : OutTidy (execVneg o s) := h.float1

theorem Tidy.rootOp {o : A1Form} {p : Bool} {f : FVal → FVal × Flags} (h : Tidy s) : Tidy (s.rootOp o p f) := h.float1

theorem Tidy.execVsqrt {o : A1Form} {p : Bool} (h : Tidy s) : OutTidy (execVsqrt o p s) := h.rootOp

theorem Tidy.execVrsq {o : A1Form} {p : Bool} (h : Tidy s) : OutTidy (execVrsq o p s) := h.rootOp

theorem Tidy.execVrcp {o : A1Form} (h : Tidy s) : OutTidy (execVrcp o s) := h.float1

theorem Tidy.execVexp {o : A1Form} (h : Tidy s) : OutTidy (execVexp o s) := h.float1

theorem Tidy.execVlog {o : A1Form} (h : Tidy s) : OutTidy (execVlog o s) := h.float1

theorem Tidy.execVsin {o : A1Form} (h : Tidy s) : OutTidy (execVsin o s) := h.float1

theorem Tidy.execVcos {o : A1Form} (h : Tidy s) : OutTidy (execVcos o s) := h.float1

theorem Tidy.execVtanh {o : A1Form} (h : Tidy s) : OutTidy (execVtanh o s) := h.float1

theorem Tidy.execVrint {o : A1Form} {x : BitVec 3} (h : Tidy s) : OutTidy (execVrint o x s) := by
  unfold Machine.execVrint
  dsimp only
  exact h.float1

theorem Tidy.execViadd {o : AForm} (h : Tidy s) : OutTidy (execViadd o s) := h.int2

theorem Tidy.execVisub {o : AForm} (h : Tidy s) : OutTidy (execVisub o s) := h.int2

theorem Tidy.execVimul {o : AForm} (h : Tidy s) : OutTidy (execVimul o s) := h.int2

theorem Tidy.execVimulh {o : AForm} (h : Tidy s) : OutTidy (execVimulh o s) := h.int2

theorem Tidy.execVimin {o : AForm} (h : Tidy s) : OutTidy (execVimin o s) := h.int2

theorem Tidy.execVimax {o : AForm} (h : Tidy s) : OutTidy (execVimax o s) := h.int2

theorem Tidy.execViminu {o : AForm} (h : Tidy s) : OutTidy (execViminu o s) := h.int2

theorem Tidy.execVimaxu {o : AForm} (h : Tidy s) : OutTidy (execVimaxu o s) := h.int2

theorem Tidy.execVand {o : AForm} (h : Tidy s) : OutTidy (execVand o s) := h.int2

theorem Tidy.execVor {o : AForm} (h : Tidy s) : OutTidy (execVor o s) := h.int2

theorem Tidy.execVxor {o : AForm} (h : Tidy s) : OutTidy (execVxor o s) := h.int2

theorem Tidy.execVshl {o : AForm} (h : Tidy s) : OutTidy (execVshl o s) := h.int2

theorem Tidy.execVshr {o : AForm} (h : Tidy s) : OutTidy (execVshr o s) := h.int2

theorem Tidy.execVshra {o : AForm} (h : Tidy s) : OutTidy (execVshra o s) := h.int2

theorem Tidy.execViabs {o : A1Form} (h : Tidy s) : OutTidy (execViabs o s) := h.vecOp

theorem Tidy.execVcmp {o : VcmpForm} (h : Tidy s) : OutTidy (execVcmp o s) := h.cmpVec

theorem Tidy.execVicmp {o : VcmpForm} (h : Tidy s) : OutTidy (execVicmp o s) := h.cmpVec

theorem Tidy.execVsel {o : VselForm} (h : Tidy s) : OutTidy (execVsel o s) := h.landRuns

theorem Tidy.execKand {o : KForm} (h : Tidy s) : OutTidy (execKand o s) := h.maskOp

theorem Tidy.execKor {o : KForm} (h : Tidy s) : OutTidy (execKor o s) := h.maskOp

theorem Tidy.execKxor {o : KForm} (h : Tidy s) : OutTidy (execKxor o s) := h.maskOp

theorem Tidy.execKnot {d a : BitVec 3} {cl : BitVec 2} (h : Tidy s) : OutTidy (execKnot d a cl s) := h.maskOp

theorem Tidy.execKfirst {d a : BitVec 3} {cl : BitVec 2} (h : Tidy s) : OutTidy (execKfirst d a cl s) := h.maskOp

theorem Tidy.execKcnt {d : BitVec 5} {a : BitVec 3} {cl : BitVec 2} (h : Tidy s) : OutTidy (execKcnt d a cl s) := h.runsOp

theorem Tidy.execVcoal {o : A1Form} {p : Bool} (h : Tidy s) : OutTidy (execVcoal o p s) := h.vecOp

theorem Tidy.execVcoalq {o : V3Form} {i : Bool} (h : Tidy s) : OutTidy (execVcoalq o i s) := by
  unfold Machine.execVcoalq
  dsimp only
  exact h.runsOp

theorem Tidy.execVrlset {o : V3Form} (h : Tidy s) : OutTidy (execVrlset o s) := by
  unfold Machine.execVrlset
  dsimp only
  exact h.runsOp

theorem Tidy.execVsplat {d b : BitVec 5} {cl : BitVec 2} (h : Tidy s) : OutTidy (execVsplat d b cl s) := h.runsOp

theorem Tidy.execVruns {d a : BitVec 5} {cl : BitVec 2} (h : Tidy s) : OutTidy (execVruns d a cl s) := h.runsOp

theorem Tidy.execVlen {d a : BitVec 5} {cl : BitVec 2} (h : Tidy s) : OutTidy (execVlen d a cl s) := h.runsOp

theorem Tidy.execVrunsK {d : BitVec 5} {a : BitVec 3} {cl : BitVec 2} (h : Tidy s) : OutTidy (execVrunsK d a cl s) := h.runsOp

theorem Tidy.execVlenK {d : BitVec 5} {a : BitVec 3} {cl : BitVec 2} (h : Tidy s) : OutTidy (execVlenK d a cl s) := h.runsOp

theorem Tidy.execVtrim {o : V3Form} (h : Tidy s) : OutTidy (execVtrim o s) := h.runsOp

theorem Tidy.execVtrimDrop {o : V3Form} (h : Tidy s) : OutTidy (execVtrimDrop o s) := h.runsOp

theorem Tidy.execVcat {o : V3Form} (h : Tidy s) : OutTidy (execVcat o s) := h.runsOp

theorem Tidy.reduce {o : RedForm} {srcs : Cluster → List (Machine.Runs W32)} {op : RedOp}
    {first : Cluster → Nat → Machine.Runs Bool → W32 × Flags} (h : Tidy s) :
    Tidy (s.reduce o srcs op first) := by
  unfold State.reduce
  dsimp only
  split <;> exact h.landRuns

theorem Tidy.reduceRuns {o : RedForm} {op : RedOp} {term : W32 → Nat → W32 × Flags} (h : Tidy s) : Tidy (s.reduceRuns o op term) := h.reduce

theorem Tidy.execVrsum {o : RedForm} (h : Tidy s) : OutTidy (execVrsum o s) := h.reduceRuns

theorem Tidy.execVrmax {o : RedForm} (h : Tidy s) : OutTidy (execVrmax o s) := h.reduceRuns

theorem Tidy.execVrmin {o : RedForm} (h : Tidy s) : OutTidy (execVrmin o s) := h.reduceRuns

theorem Tidy.execVrisum {o : RedForm} (h : Tidy s) : OutTidy (execVrisum o s) := h.reduceRuns

theorem Tidy.execVrimax {o : RedForm} (h : Tidy s) : OutTidy (execVrimax o s) := by
  unfold Machine.execVrimax
  dsimp only
  exact h.reduceRuns

theorem Tidy.execVrimin {o : RedForm} (h : Tidy s) : OutTidy (execVrimin o s) := by
  unfold Machine.execVrimin
  dsimp only
  exact h.reduceRuns

theorem Tidy.execVdot {o : RedForm} {b : BitVec 5} (h : Tidy s) : OutTidy (execVdot o b s) := h.reduce

end Sys2Proof.Safety
end

section
/-! SUPPORT. Slot B: what Machine/SlotB.lean does keeps every byte memory in canonical form. -/

namespace Sys2Proof.Safety
open Sys2Proof Sys2Proof.Machine Sys2Proof.Laws
variable {s : State}

theorem Tidy.notePoison {tile i : Nat} {gs : List Nat} {pc : Option Nat} (h : Tidy s) : Tidy (s.notePoison tile i gs pc) := by
  unfold State.notePoison
  split
  · exact h.setCur h.cur.deferHw
  · exact h

theorem Tidy.loadElems {o : BMemForm} {operand : Nat → Bool} {addrs : List (Fin 8 × List Nat)} (h : Tidy s) :
    Tidy (s.loadElems o operand addrs) := by
  unfold State.loadElems
  dsimp only
  split
  · exact h.raise
  · split
    · exact h.landVecB.foldl (fun s1 x h1 => h1.notePoison)
    · exact h.addWait

theorem Tidy.storeCode {tile i w a code : Nat} (h : Tidy s) : Tidy (s.storeCode tile i w a code) := by
  unfold State.storeCode
  split
  · dsimp only
    exact h.towerWrite
  · exact h.towerWrite

theorem Tidy.storeElems {o : BMemForm} {operand : Nat → Bool} {addrs : List (Fin 8 × List Nat)} (h : Tidy s) :
    Tidy (s.storeElems o operand addrs) := by
  unfold State.storeElems
  dsimp only
  split
  · exact h.raise
  · refine (h.foldl (fun s1 x h1 => ?_)).push
    split
    · refine (h1.foldl (fun s2 x1 h2 => ?_)).setFull
      split
      · exact h2.storeCode
      · exact h2
    · refine h1.foldl (fun s2 x1 h2 => ?_)
      split
      · exact h2.storeCode
      · exact h2

theorem Tidy.execNopB (h : Tidy s) : OutTidy (execNopB s) := h

theorem Tidy.denseAligned {o : BMemForm} {access : (Nat → Bool) → List (Fin 8 × List Nat) → State}
    {addrs : List (Fin 8 × List Nat)} (h : Tidy s) (ha : ∀ f l, Tidy (access f l)) :
    Tidy (s.denseAligned o access addrs) := by
  unfold State.denseAligned
  dsimp only
  split
  · exact h.raise
  · exact ha _ _

theorem Tidy.execVld {o : BMemForm} (h : Tidy s) : OutTidy (execVld o s) := Tidy.denseAligned h fun _ _ => h.loadElems

theorem Tidy.execVst {o : BMemForm} (h : Tidy s) : OutTidy (execVst o s) := Tidy.denseAligned h fun _ _ => h.storeElems

theorem Tidy.noNibbles {o : BMemForm} {access : (Nat → Bool) → List (Fin 8 × List Nat) → State} {addrs : List (Fin 8 × List Nat)}
    (h : Tidy s) (ha : ∀ f l, Tidy (access f l)) :
    Tidy (s.noNibbles o access addrs) := by
  unfold State.noNibbles
  dsimp only
  split
  · exact h.raise
  · exact ha _ _

theorem Tidy.execVlds {o : BMemForm} (h : Tidy s) : OutTidy (execVlds o s) := Tidy.noNibbles h fun _ _ => h.loadElems

theorem Tidy.execVsts {o : BMemForm} (h : Tidy s) : OutTidy (execVsts o s) := Tidy.noNibbles h fun _ _ => h.storeElems

theorem Tidy.execVldx {o : BMemForm} (h : Tidy s) : OutTidy (execVldx o s) := Tidy.noNibbles h fun _ _ => h.loadElems

theorem Tidy.execVstx {o : BMemForm} (h : Tidy s) : OutTidy (execVstx o s) := Tidy.noNibbles h fun _ _ => h.storeElems

theorem Tidy.execVcur {a b : BitVec 5} {cl y : BitVec 2} (h : Tidy s) : OutTidy (execVcur a b cl y s) := h.land

theorem Tidy.landChain {d : BitVec 5} {y : BitVec 2} {msk : List (Fin 8 × Option (Machine.Runs Bool))}
    {old : List (Fin 8 × Machine.Runs W32)} {l : List (Fin 8 × BitVec 22 × Chain)} (h : Tidy s) :
    Tidy (s.landChain d y msk old l) := by
  unfold State.landChain
  dsimp only
  split
  · exact h.landVecB
  · exact h.landVecB.land

theorem Tidy.execVldrl {d : BitVec 5} {k : BitVec 3} {cl fe y : BitVec 2} (h : Tidy s) : OutTidy (execVldrl d k cl fe y s) := by
  unfold Machine.execVldrl
  dsimp only
  split
  · split
    · exact h.raise
    · exact h.addWait
  · split
    · exact h.raise
    · split
      · exact h.raise
      · exact Tidy.foldl (Tidy.landChain h) (fun s1 x h1 => h1.notePoison)

theorem Tidy.execVstrl {d : BitVec 5} {cl : BitVec 2} {fe : Bool} {y : BitVec 2} (h : Tidy s) : OutTidy (execVstrl d cl fe y s) := by
  unfold Machine.execVstrl
  dsimp only
  split
  · exact h.illegal
  · split
    · exact h.raise
    · split
      · exact h.raise
      · refine (h.foldl (fun s1 x h1 => ?_)).land
        split
        · exact h1.towerWrite.setFull
        · exact h1.towerWrite

theorem Tidy.execKld {o : KmForm} (h : Tidy s) : OutTidy (execKld o s) := by
  unfold Machine.execKld
  dsimp only
  split
  · exact h.raise
  · split
    · exact h.landMaskB.foldl (fun s1 x h1 => h1.notePoison)
    · exact h.addWait

theorem Tidy.execKst {o : KmForm} (h : Tidy s) : OutTidy (execKst o s) := by
  unfold Machine.execKst
  dsimp only
  split
  · exact h.raise
  · refine h.foldl (fun s1 x h1 => ?_)
    split
    · exact h1.towerWrite.setFull
    · exact h1.towerWrite

theorem Tidy.execVrd {o : RowForm} (h : Tidy s) : OutTidy (execVrd o s) := by
  unfold Machine.execVrd
  dsimp only
  split
  · exact h.illegal
  · split
    · exact h.raise
    · split
      · exact h.raise
      · exact h.addWait

theorem Tidy.execVwr {o : RowForm} (h : Tidy s) : OutTidy (execVwr o s) := by
  unfold Machine.execVwr
  dsimp only
  split
  · exact h.raise
  · split
    · exact h.illegal
    · split
      · exact h.illegal
      · split
        · exact h.raise
        · exact (h.setCur h.cur.setRing).addWait

theorem Tidy.moveOp {o : MovForm} {lat : Nat} {f : Fin 8 → Nat × Machine.Runs W32 × Flags} (h : Tidy s) : Tidy (s.moveOp o lat f) := by
  unfold State.moveOp
  dsimp only
  exact h.landVecB

theorem Tidy.execVmov {o : MovForm} (h : Tidy s) : OutTidy (execVmov o s) := h.moveOp

theorem Tidy.execVmvs {d a : BitVec 5} {k : BitVec 3} {cl : BitVec 2} (h : Tidy s) : OutTidy (execVmvs d a k cl s) := h.moveOp

theorem Tidy.execVxc {o : MovForm} {a : BitVec 5} (h : Tidy s) : OutTidy (execVxc o a s) := by
  unfold Machine.execVxc
  dsimp only
  split
  · exact h.illegal
  · exact h.moveOp

theorem Tidy.execVslide {o : MovForm} {a : BitVec 5} (h : Tidy s) : OutTidy (execVslide o a s) := h.moveOp

theorem Tidy.execVrev {o : MovForm} (h : Tidy s) : OutTidy (execVrev o s) := h.moveOp

theorem Tidy.execVmvx {d a v : BitVec 5} {cl : BitVec 2} (h : Tidy s) : OutTidy (execVmvx d a v cl s) := h.land

theorem Tidy.convertOp {o : MovForm} {f : W32 → W32 × Flags} (h : Tidy s) : Tidy (s.convertOp o f) := by
  unfold State.convertOp
  dsimp only
  exact h.landVecB

theorem Tidy.execVcvt {o : MovForm} (h : Tidy s) : OutTidy (execVcvt o s) := by
  unfold Machine.execVcvt
  dsimp only
  split
  · exact h.illegal
  · exact h.convertOp

theorem Tidy.execVclass {o : MovForm} (h : Tidy s) : OutTidy (execVclass o s) := by
  unfold Machine.execVclass
  dsimp only
  split
  · exact h.illegal
  · exact h.convertOp

theorem Tidy.execTwr {o : TForm} (h : Tidy s) : OutTidy (execTwr o s) := by
  unfold Machine.execTwr
  split
  · exact h.illegal
  · exact h.land

theorem Tidy.tileRead {o : TForm} {f : Cluster → List W32} (h : Tidy s) : Tidy (s.tileRead o f) := by
  unfold State.tileRead
  dsimp only
  exact h.landVecB

theorem Tidy.execTrc {o : TForm} (h : Tidy s) : OutTidy (execTrc o s) := by
  unfold Machine.execTrc
  split
  · exact h.illegal
  · exact h.tileRead

theorem Tidy.execTrr {o : TForm} (h : Tidy s) : OutTidy (execTrr o s) := by
  unfold Machine.execTrr
  split
  · exact h.illegal
  · exact h.tileRead

theorem Tidy.execTclr {cl t : BitVec 2} (h : Tidy s) : OutTidy (execTclr cl t s) := h.land

theorem Tidy.execVshift {o : ShiftForm} (h : Tidy s) : OutTidy (execVshift o s) := by
  unfold Machine.execVshift
  dsimp only
  split
  · exact h.illegal
  · split
    · exact h.illegal
    · split
      · exact h
      · split
        · exact h.raise
        · exact h.modEng

theorem Tidy.lateOverflow {cls : List (Fin 8)} {source : Nat} (h : Tidy s) : Tidy (s.lateOverflow cls source) := by
  unfold State.lateOverflow
  dsimp only
  exact h.modSeq.setCur h.modSeq.cur.defer

theorem Tidy.landLate {α : Type} [DecidableEq α] {zero : α} {pick : Dest → List (Fin 8 × Machine.Runs α)}
    {mk : List (Fin 8 × Machine.Runs α) → Dest} {msk : List (Fin 8 × Option (Machine.Runs Bool))} {split : Bool}
    {res : List (ClRes α)} {commit : State → State} (h : Tidy s) (hcommit : ∀ s, Tidy s → Tidy (commit s)) :
    Tidy (s.landLate zero pick mk msk split res commit) := by
  unfold State.landLate
  dsimp only
  split
  · exact h.lateOverflow
  · split
    · exact hcommit _ h.modSeq
    · exact h.lateOverflow

theorem Tidy.finishLoad {l : WLoad} (h : Tidy s) : Tidy (s.finishLoad l) := by
  unfold State.finishLoad
  dsimp only
  split
  · refine h.landLate (fun s1 h1 => ?_)
    split
    · exact (h1.foldl (fun s2 x h2 => h2.notePoison)).foldl (fun s2 x h2 => h2.consume)
    · exact h1.foldl (fun s2 x h2 => h2.notePoison)
  · refine h.landLate (fun s1 h1 => ?_)
    split
    · exact (h1.foldl (fun s2 x h2 => h2.notePoison)).foldl (fun s2 x h2 => h2.consume)
    · exact h1.foldl (fun s2 x h2 => h2.notePoison)
  · split
    · exact h.waitRaise
    · refine h.landLate (fun s1 h1 => ?_)
      split
      · exact (h1.land.foldl (fun s2 x h2 => h2.notePoison)).foldl (fun s2 x h2 => h2.consume)
      · exact h1.land.foldl (fun s2 x h2 => h2.notePoison)
  · split
    · exact h.waitRaise
    · refine h.landLate (fun s1 h1 => ?_)
      split
      · exact (h1.foldl (fun s2 x h2 => h2.notePoison)).foldl (fun s2 x h2 => h2.consume)
      · exact h1.foldl (fun s2 x h2 => h2.notePoison)

theorem Tidy.finishRingWrite {h1 : BitVec 4} {ix : Nat} {parts : List (Fin 8 × List Byte)} (h : Tidy s) :
    Tidy (s.finishRingWrite h1 ix parts) := by
  unfold State.finishRingWrite
  dsimp only
  exact (h.foldl (fun s1 x h2 => h2.engineWrite)).setCur ((h.foldl (fun s1 x h2 => h2.engineWrite)).cur.setRing.settle)

end Sys2Proof.Safety
end

section
/-! SUPPORT. Streams and decoding: what Machine/Streams.lean does keeps every byte memory in canonical form. -/

namespace Sys2Proof.Safety
open Sys2Proof Sys2Proof.Machine Sys2Proof.Laws
variable {s : State}

theorem Tidy.engineFault {tile : Nat} {st : Status} {info : W64} {pc : Nat} (h : Tidy s) : Tidy (s.engineFault tile st info pc) := by
  unfold State.engineFault
  refine h.onTile (fun t h1 => ?_)
  split
  · exact h1.defer
  · exact h1

theorem Tidy.nbuFault {tile : Nat} {info : W64} {pc : Nat} (h : Tidy s) : Tidy (s.nbuFault tile info pc) := by
  unfold State.nbuFault
  refine h.onTile (fun t h1 => ?_)
  split
  · exact h1.defer
  · exact h1

theorem Tidy.engineMemFault {tile pc : Nat} {x : MemFail} (h : Tidy s) : Tidy (s.engineMemFault tile pc x) := by
  unfold State.engineMemFault
  split
  · exact h
  · exact h.engineFault
  · exact h.engineFault
  · exact h.engineFault

theorem Tidy.produceRow {tile : Nat} {h1 : BitVec 4} {ix : Nat} {parts : List (List Byte)} (h : Tidy s) :
    Tidy (s.produceRow tile h1 ix parts) :=
  h.foldl (fun _ _ h2 => h2.producePart)

theorem Tidy.windowPiece {t : Machine.Task} {want : Want} {w : Window} {e off : Nat} {counted : Bool} (h : Tidy s) :
    Tidy (s.windowPiece t want w e off counted).2 := by
  unfold State.windowPiece
  dsimp only
  split
  · exact h
  · split
    · exact h.translate.snd ‹_›
    · split <;> exact (h.translate.snd ‹_›).readSpans.snd ‹_›

theorem Tidy.windowBytes {t : Machine.Task} {want : Want} {w : Window} {e n fuel : Nat} {got : List Nat} (h : Tidy s) :
    Tidy (s.windowBytes t want w e n fuel got).2 := by
  induction fuel generalizing s got with
  | zero => exact h
  | succ n ih =>
    unfold State.windowBytes
    split
    · exact h
    · dsimp only
      split
      · exact h.windowPiece.snd ‹_›
      · split
        · split
          · exact (h.windowPiece.snd ‹_›).choose
          · exact ih ((h.windowPiece.snd ‹_›).choose)
        · split
          · exact h.windowPiece.snd ‹_›
          · exact ih (h.windowPiece.snd ‹_›)

theorem Tidy.readRow {t : Machine.Task} {want : Want} {w : Window} {j : Nat} {got : List Nat} (h : Tidy s) :
    Tidy (s.readRow t want w j got).2 := by
  unfold State.readRow
  dsimp only
  split
  · split <;> exact h.readOn.snd ‹_›
  · exact h.windowBytes

theorem Tidy.modRing {tile : Nat} {h1 : BitVec 4} {f : Machine.Ring → Machine.Ring} (h : Tidy s) : Tidy (s.modRing tile h1 f) :=
  h.onTile (fun _ h2 => h2.setRing)

theorem Tidy.modStream {tile : Nat} {h1 : BitVec 4} {f : Machine.Stream → Machine.Stream} (h : Tidy s) : Tidy (s.modStream tile h1 f) :=
  h.modRing

theorem Tidy.streamDone {tile : Nat} {h1 : BitVec 4} {st : Machine.Stream} (h : Tidy s) : Tidy (s.streamDone tile h1 st) :=
  h.leaveCtxs.modRing

theorem Tidy.streamError {tile : Nat} {h1 : BitVec 4} {st : Machine.Stream} {kind errc : Nat} (h : Tidy s) :
    Tidy (s.streamError tile h1 st kind errc) := by
  unfold State.streamError
  dsimp only
  refine Tidy.onTile ?_ (fun t h2 => h2.ringError)
  split
  · exact h
  · exact h.leaveCtxs

theorem Tidy.windowFail {tile : Nat} {h1 : BitVec 4} {st : Machine.Stream} {x : MemFail} (h : Tidy s) :
    Tidy (s.windowFail tile h1 st x) := by
  unfold State.windowFail
  split
  · exact h
  · exact h.streamError
  · exact h.streamError
  · exact h.modRing.engineFault

theorem Tidy.windowRow {t : Machine.Task} {h1 : BitVec 4} {st : Machine.Stream} (h : Tidy s) : Tidy (s.windowRow t h1 st) := by
  unfold State.windowRow
  dsimp only
  split
  · exact h
  · split
    · exact (h.readRow.snd ‹_›).windowFail
    · split
      · exact (h.readRow.snd ‹_›).modStream
      · split
        · exact (h.readRow.snd ‹_›).produceRow.streamDone
        · exact (h.readRow.snd ‹_›).produceRow.modStream

theorem Tidy.streamRead {t : Machine.Task} {st : Machine.Stream} {stateful : Bool} {va n : Nat} (h : Tidy s) :
    Tidy (s.streamRead t st stateful va n).2 := by
  unfold State.streamRead
  split
  · split <;> exact h.translate.snd ‹_›
  · dsimp only
    split
    · exact (h.translate.snd ‹_›).queueAt
    · split
      · exact h.translate.snd ‹_›
      · split
        · exact h.translate.snd ‹_›
        · split
          · exact h.translate.snd ‹_›
          · exact (h.translate.snd ‹_›).checkRace.ok ‹_›

theorem Tidy.streamBeat {t : Machine.Task} {st : Machine.Stream} {stateful : Bool} {k : Nat} (h : Tidy s) :
    Tidy (s.streamBeat t st stateful k).2 := by
  unfold State.streamBeat
  dsimp only
  split
  · exact h
  · split
    · split
      · exact h.streamRead.snd ‹_›
      · split
        · exact (h.streamRead.snd ‹_›).choose
        · split <;> exact (h.streamRead.snd ‹_›).choose.streamRead.snd ‹_›
    · split <;> exact h.streamRead.snd ‹_›

theorem Tidy.decodeBeat {t : Machine.Task} {st : Machine.Stream} {fuel : Nat} {got : List Byte} (h : Tidy s) :
    Tidy (s.decodeBeat t st fuel got).2 := by
  induction fuel generalizing s got with
  | zero => exact h
  | succ n ih =>
    unfold State.decodeBeat
    dsimp only
    split
    · exact h
    · split
      · exact h
      · split
        · exact h.streamRead.snd ‹_›
        · exact h.streamRead.snd ‹_›
        · split
          · exact (h.streamRead.snd ‹_›).choose
          · exact ih ((h.streamRead.snd ‹_›).choose)

theorem Tidy.openGraph {t : Machine.Task} {h1 : BitVec 4} {st : Machine.Stream} (h : Tidy s) : Tidy (s.openGraph t h1 st) := by
  unfold State.openGraph
  dsimp only
  split
  · exact h.onTile (fun t1 h2 => h2.ringError)
  · split
    · exact h.streamError
    · split
      · exact h.streamError
      · split
        · exact h
        · exact (h.foldl (fun s1 x h2 => h2.setFab)).modStream

theorem Tidy.takeCell {t : Machine.Task} {h1 : BitVec 4} {st : Machine.Stream} (h : Tidy s) : Tidy (s.takeCell t h1 st) := by
  unfold State.takeCell
  dsimp only
  split
  · exact h.onTile (fun t1 h2 => h2.ringError)
  · split
    · exact h
    · exact h.setFab.modStream

theorem Tidy.openDecode {t : Machine.Task} {h1 : BitVec 4} {st : Machine.Stream} (h : Tidy s) : Tidy (s.openDecode t h1 st) := by
  unfold State.openDecode
  dsimp only
  split
  · exact h.readOn.snd ‹_›
  · exact (h.readOn.snd ‹_›).streamError
  · exact (h.readOn.snd ‹_›).streamError
  · exact (h.readOn.snd ‹_›).streamError.engineFault
  · split
    · exact (h.readOn.snd ‹_›).modStream
    · split
      · exact (h.readOn.snd ‹_›).modStream
      · exact (h.readOn.snd ‹_›).streamError

theorem Tidy.setNbu {chan : Nat} {u : Nbu} (h : Tidy s) : Tidy (s.setNbu chan u) := h

theorem Tidy.donePlace {agent unit : Nat} {c : NbCmd} (h : Tidy s) : Tidy (s.donePlace agent unit c).2 := by
  unfold State.donePlace
  split
  · exact h
  · split
    · exact h
    · split
      · exact h.translate.snd ‹_›
      · split
        · exact h.translate.snd ‹_›
        · split
          · exact (h.translate.snd ‹_›).queueAt
          · exact h.translate.snd ‹_›

theorem Tidy.bumpDone {sp : Span} {f : Nat → Nat} (h : Tidy s) : Tidy (s.bumpDone sp f) := h.countBeats.homeWrite.countBeats

theorem Tidy.sinkRefused {c : NbCmd} (h : Tidy s) : Tidy (s.sinkRefused c) := by
  unfold State.sinkRefused
  split
  · exact h
  · split
    · split
      · exact h.streamError
      · exact h.setFab
    · split
      · exact h.setFab
      · exact h

theorem Tidy.nbFail {chan : Nat} {c : NbCmd} {row : W32} (h : Tidy s) : Tidy (s.nbFail chan c row) := by
  unfold State.nbFail
  dsimp only
  split
  · exact (h.donePlace.snd ‹_›).bumpDone.setNbu.sinkRefused.nbuFault
  · exact h.donePlace.snd ‹_›
  · exact (h.donePlace.snd ‹_›).setNbu.sinkRefused.nbuFault

theorem Tidy.nbPush {chan : Nat} {c : NbCmd} (h : Tidy s) : Tidy (s.nbPush chan c) := by
  unfold State.nbPush
  dsimp only
  exact h

theorem Tidy.sinkWord {t : Machine.Task} {st : Machine.Stream} {g : Machine.Graph} {v : W32} {k : Nat} (h : Tidy s) :
    Tidy (s.sinkWord t st g v k).2 := by
  unfold State.sinkWord
  split
  · exact h
  · dsimp only
    split
    · split <;> exact h.translate.snd ‹_›
    · split
      · exact (h.translate.snd ‹_›).queueAt
      · split
        · exact h.translate.snd ‹_›
        · split
          · exact h.translate.snd ‹_›
          · split
            · exact ((h.translate.snd ‹_›).checkRace.ok ‹_›).performWrite.countBeats
            · exact ((h.translate.snd ‹_›).checkRace.ok ‹_›).performWrite

theorem Tidy.sinkWords {t : Machine.Task} {st : Machine.Stream} {g : Machine.Graph} {vs : List W32} {k : Nat} (h : Tidy s) :
    Tidy (State.sinkWords t st g s vs k).2.2.2 := by
  induction vs generalizing s k with
  | nil => exact h
  | cons v l ih =>
    unfold State.sinkWords
    split
    · exact h.sinkWord.snd ‹_›
    · exact ih (h.sinkWord.snd ‹_›)

theorem Tidy.applyStop {tile : Nat} {h1 : BitVec 4} {st : Machine.Stream} {x : Stop} (h : Tidy s) : Tidy (s.applyStop tile h1 st x) := by
  unfold State.applyStop
  split
  · exact h
  · exact h.streamError
  · exact h.streamError.engineFault

theorem Tidy.packetWaits {tile : Nat} {h1 : BitVec 4} {st : Machine.Stream} (h : Tidy s) : Tidy (s.packetWaits tile h1 st) := by
  unfold State.packetWaits
  split
  · exact h.modStream
  · split
    · exact h.modStream.logEvent
    · exact h

theorem Tidy.sinkStep {t : Machine.Task} {h1 : BitVec 4} {st : Machine.Stream} {g : Machine.Graph} {last : Bool} (h : Tidy s) :
    Tidy (s.sinkStep t h1 st g last).2 := by
  unfold State.sinkStep
  dsimp only
  split
  · split
    · split
      · split
        · exact h.produceRow.streamDone
        · exact h.produceRow.modStream
      · exact h
    · exact h
  · split
    · exact h
    · split
      · exact h.sinkWords.modStream
      · exact h.sinkWords.modStream.applyStop
  · split
    · split
      · exact h.streamError
      · exact h
    · split
      · exact h.nbFail
      · split
        · exact h.nbPush.modStream
        · exact h.packetWaits

theorem Tidy.tookBeats {c n : Nat} (h : Tidy s) : Tidy (s.tookBeats c n) := by
  unfold State.tookBeats
  dsimp only
  exact h.setFab.countChan.beats

theorem Tidy.takeBeat {t : Machine.Task} {h1 : BitVec 4} {st : Machine.Stream} {g : Machine.Graph} (h : Tidy s) :
    Tidy (s.takeBeat t h1 st g) := by
  unfold State.takeBeat
  dsimp only
  split
  · split
    · exact (h.decodeBeat.snd ‹_›).modStream
    · split
      · exact (h.decodeBeat.snd ‹_›).setFab.tookBeats.applyStop
      · exact (h.decodeBeat.snd ‹_›).setFab.tookBeats.modStream
  · split
    · exact (h.streamBeat.snd ‹_›).modStream
    · exact (h.streamBeat.snd ‹_›).applyStop
    · split
      · exact (h.streamBeat.snd ‹_›).modStream
      · exact (h.streamBeat.snd ‹_›).setFab.tookBeats.modStream

theorem Tidy.frameFill {t : Machine.Task} {h1 : BitVec 4} {st : Machine.Stream} {g : Machine.Graph} (h : Tidy s) :
    Tidy (s.frameFill t h1 st g) := by
  unfold State.frameFill
  dsimp only
  exact h.setFab.modStream

theorem Tidy.graphMove {t : Machine.Task} {h1 : BitVec 4} {st : Machine.Stream} (h : Tidy s) : Tidy (s.graphMove t h1 st) := by
  unfold State.graphMove
  split
  · exact h
  · split
    · exact h
    · split
      · exact h.takeCell
      · split
        · exact h
        · split
          · split
            · exact h
            · exact h.foldl (fun s1 x h2 => h2.setFab)
          · split
            · exact h.openDecode
            · dsimp only
              split
              · exact h.sinkStep.snd ‹_›
              · split
                · exact h.sinkStep.snd ‹_›
                · split
                  · exact (h.sinkStep.snd ‹_›).takeBeat
                  · split
                    · exact (h.sinkStep.snd ‹_›).frameFill
                    · exact h.sinkStep.snd ‹_›

theorem Tidy.cutStep {t : Machine.Task} {h1 : BitVec 4} {st : Machine.Stream} (h : Tidy s) : Tidy (s.cutStep t h1 st) := by
  unfold State.cutStep
  extract_lets
  split
  · exact h.modStream.graphMove.leaveCtxs.modRing
  · exact h.modStream.graphMove

theorem Tidy.graphStep {t : Machine.Task} {h1 : BitVec 4} {st : Machine.Stream} (h : Tidy s) : Tidy (s.graphStep t h1 st) := by
  unfold State.graphStep
  split
  · exact h.cutStep
  · exact h.graphMove

theorem Tidy.graphEnd {t : Machine.Task} {h1 : BitVec 4} {st : Machine.Stream} (h : Tidy s) : Tidy (s.graphEnd t h1 st) := by
  unfold State.graphEnd
  split
  · exact h
  · extract_lets
    split
    · exact h
    · split
      · split
        · exact h.streamError
        · exact h
      · split
        · exact h.streamDone
        · exact h

theorem Tidy.markGroup {tile : Nat} {h1 : BitVec 4} {st : Machine.Stream} (h : Tidy s) : Tidy (s.markGroup tile h1 st) := by
  unfold State.markGroup
  split
  · exact h
  · exact h.modStream

theorem Tidy.readImage {t : Machine.Task} {va : Nat} {got : List Byte} (h : Tidy s) : Tidy (s.readImage t va got).2 := by
  unfold State.readImage
  split
  · exact h.readOn.snd ‹_›
  · split
    · exact h.readOn.snd ‹_›
    · split
      · split <;> exact (h.readOn.snd ‹_›).readOn.snd ‹_›
      · exact h.readOn.snd ‹_›

theorem Tidy.bindCtx {t : Machine.Task} {c : Nat} {budget : Bool} (h : Tidy s) : Tidy (s.bindCtx t c budget) := by
  unfold State.bindCtx
  dsimp only
  split
  · split
    · exact h.setFab
    · split
      · exact h.setFab
      · split
        · exact h.setFab
        · exact h.setFab.modLaunch (fun l h1 => h1)
  · exact h.setFab

end Sys2Proof.Safety
end

section
/-! SUPPORT. Slot E: what Machine/SlotE.lean does keeps every byte memory in canonical form. -/

namespace Sys2Proof.Safety
open Sys2Proof Sys2Proof.Machine Sys2Proof.Laws
variable {s : State}

theorem Tidy.execNopE (h : Tidy s) : OutTidy (execNopE s) := h

theorem Tidy.execEset {e a i : BitVec 5} (h : Tidy s) : OutTidy (execEset e a i s) := by
  unfold Machine.execEset
  dsimp only
  split
  · exact h.illegal
  · split
    · exact h.illegal
    · split
      · exact h.illegal
      · exact h.land

theorem Tidy.execEget {e a i : BitVec 5} (h : Tidy s) : OutTidy (execEget e a i s) := by
  unfold Machine.execEget
  split
  · exact h.illegal
  · exact h.land

theorem Tidy.start {e : Nat} {act : State → State} (h : Tidy s) (hact : ∀ s, Tidy s → Tidy (act s)) : Tidy (s.start e act) := by
  unfold State.start
  split
  · exact h.illegal
  · dsimp only
    split
    · exact hact _ h
    · exact (hact _ h).modEng

theorem Tidy.execEwait {e : BitVec 5} {n : BitVec 3} (h : Tidy s) : OutTidy (execEwait e n s) := by
  unfold Machine.execEwait
  split
  · exact h.illegal
  · split
    · split
      · exact h.addWait
      · exact h.illegal
    · split
      · exact h.illegal
      · exact h.addWait

theorem Tidy.attach {h1 : BitVec 4} (h : Tidy s) : Tidy (s.attach h1) := by
  unfold State.attach
  dsimp only
  split
  · exact h.modEng.setCur h.modEng.cur.setRing
  · exact (h.modEng.setCur h.modEng.cur.setRing).openGraph

theorem Tidy.execWopen {h1 : BitVec 4} (h : Tidy s) : OutTidy (execWopen h1 s) := by
  unfold Machine.execWopen
  dsimp only
  split
  · exact h.illegal
  · split
    · exact h.raise
    · split
      · exact h.raise
      · exact (h.setCur h.cur.setRing).attach

theorem Tidy.execWopenBind {h1 : BitVec 4} (h : Tidy s) : OutTidy (execWopenBind h1 s) := by
  unfold Machine.execWopenBind
  dsimp only
  split
  · exact h.raise
  · split
    · exact h.raise
    · exact h.setCur h.cur.setRing

theorem Tidy.execWopenKeep {h1 : BitVec 4} (h : Tidy s) : OutTidy (execWopenKeep h1 s) := by
  unfold Machine.execWopenKeep
  dsimp only
  split
  · exact h.illegal
  · split
    · exact h.raise
    · exact h.attach

theorem Tidy.emptyRows {tile : Nat} {rows : List Nat} (h : Tidy s) : Tidy (s.emptyRows tile rows) :=
  h.foldl (fun _ _ h1 => h1.foldl (fun _ _ h2 => h2.clearFull))

theorem Tidy.execWadv {h1 : BitVec 4} {a : BitVec 5} (h : Tidy s) : OutTidy (execWadv h1 a s) := by
  unfold Machine.execWadv
  dsimp only
  split
  · exact h.raise
  · split
    · exact h.illegal
    · exact (h.emptyRows.setCur h.emptyRows.cur.setRing).settle

theorem Tidy.execWwait {h1 : BitVec 4} {a : BitVec 5} (h : Tidy s) : OutTidy (execWwait h1 a s) := by
  unfold Machine.execWwait
  dsimp only
  split
  · exact h.raise
  · split
    · exact h.raise
    · exact h.addWait

theorem Tidy.execWwaitDone {h1 : BitVec 4} (h : Tidy s) : OutTidy (execWwaitDone h1 s) := by
  unfold Machine.execWwaitDone
  dsimp only
  split
  · exact h.raise
  · split
    · exact h.raise
    · exact h.addWait

theorem Tidy.closeConsumers {h1 : BitVec 4} (h : Tidy s) : Tidy (s.closeConsumers h1) := by
  unfold State.closeConsumers
  dsimp only
  exact (h.foldl (fun s1 x h2 => h2.engineFault)).modEng

theorem Tidy.detachDrains {h1 : BitVec 4} (h : Tidy s) : Tidy (s.detachDrains h1) := h.modEng

theorem Tidy.detachSenders {h1 : BitVec 4} (h : Tidy s) : Tidy (s.detachSenders h1) := by
  unfold State.detachSenders
  extract_lets _ _ s1
  have h1 : Tidy s1 := h.mapTasks (fun t h2 => h2)
  exact h1

theorem Tidy.unbind {h1 : BitVec 4} (h : Tidy s) : Tidy (s.unbind h1) := by
  unfold State.unbind
  extract_lets _ s1 s2 s3
  have h1 : Tidy s1 := h.closeConsumers.detachDrains.detachSenders
  have h2 : Tidy s2 := by
    unfold s2
    split
    · extract_lets
      split
      · exact h1.leaveCtxs
      · exact h1
    · exact h1
  have h3 : Tidy s3 := h2.emptyRows
  exact h3.setCur h3.cur.setRing

theorem Tidy.execWclose {h1 : BitVec 4} (h : Tidy s) : OutTidy (execWclose h1 s) := by
  unfold Machine.execWclose
  split
  · exact h.unbind
  · exact h

theorem Tidy.execRstat {h1 : BitVec 4} {a : BitVec 5} (h : Tidy s) : OutTidy (execRstat h1 a s) := h.land

theorem Tidy.flushTask {h1 : BitVec 4} (h : Tidy s) : Tidy (s.flushTask h1) := by
  unfold State.flushTask
  refine h.foldl (fun s1 x h2 => h2.foldl (fun s2 x1 h3 => ?_))
  split
  · exact h3
  · exact h3.producePart

theorem Tidy.flushWindow {h1 : BitVec 4} {st : Machine.Stream} (h : Tidy s) : Tidy (s.flushWindow h1 st) := by
  unfold State.flushWindow
  dsimp only
  split
  · split
    · exact h.modStream
    · exact h.streamDone
  · split
    · split
      · exact h.modStream
      · exact h.streamDone
    · split
      · exact h.choose.modStream
      · exact h.choose.streamDone

theorem Tidy.execWflush {h1 : BitVec 4} (h : Tidy s) : OutTidy (execWflush h1 s) := by
  unfold Machine.execWflush
  dsimp only
  split
  · exact h.raise
  · split
    · exact h.flushWindow
    · split
      · exact h.flushTask.setCur h.flushTask.cur.setRing
      · exact h.detachDrains.setCur h.detachDrains.cur.setRing

theorem Tidy.bcQueue {x : BcXfer} (h : Tidy s) : Tidy (s.bcQueue x) := by
  unfold State.bcQueue
  dsimp only
  exact h

theorem Tidy.bcfill {ring : Option (BitVec 4)} (h : Tidy s) : Tidy (s.bcfill ring) := by
  unfold State.bcfill
  dsimp only
  refine h.start (fun s1 h1 => ?_)
  split
  · exact h1.illegal
  · split
    · exact h1.raise
    · exact h1.bcQueue

theorem Tidy.execBcfill (h : Tidy s) : OutTidy (execBcfill s) := h.bcfill

theorem Tidy.execBcfillRing {h1 : BitVec 4} (h : Tidy s) : OutTidy (execBcfillRing h1 s) := h.bcfill

theorem Tidy.execBcwait {a : BitVec 5} (h : Tidy s) : OutTidy (execBcwait a s) := h.addWait

theorem Tidy.execBcwaitAll (h : Tidy s) : OutTidy (execBcwaitAll s) := h.addWait

theorem Tidy.muStart {kind : MuKind} {bank : Bool} {q : BitVec 2} {ok : Bool} {hs : List (BitVec 4)} (h : Tidy s) :
    Tidy (s.muStart kind bank q ok hs) := by
  unfold State.muStart
  refine h.start (fun s1 h1 => ?_)
  split
  · exact h1.illegal
  · split
    · exact h1.raise
    · exact h1.modEng

theorem Tidy.execMma {bank : Bool} (h : Tidy s) : OutTidy (execMma bank s) := by
  unfold Machine.execMma
  dsimp only
  exact h.muStart

theorem Tidy.execMmv {bank : Bool} (h : Tidy s) : OutTidy (execMmv bank s) := by
  unfold Machine.execMmv
  dsimp only
  exact h.muStart

theorem Tidy.execMldb (h : Tidy s) : OutTidy (execMldb s) := by
  unfold Machine.execMldb
  dsimp only
  exact h.muStart

theorem Tidy.execMdrain {bank : Bool} (h : Tidy s) : OutTidy (execMdrain bank s) := by
  unfold Machine.execMdrain
  dsimp only
  split
  · exact h.raise
  · split
    · exact h.muStart
    · exact h.muStart.setCur h.muStart.cur.setRing

theorem Tidy.execMswap (h : Tidy s) : OutTidy (execMswap s) := h.muStart

theorem Tidy.execMclr {bank : Bool} {q : BitVec 2} (h : Tidy s) : OutTidy (execMclr bank q s) := h.muStart

theorem Tidy.execMflags {bank : Bool} {a : BitVec 5} {c : Bool} (h : Tidy s) : OutTidy (execMflags bank a c s) := by
  unfold Machine.execMflags
  split
  · exact h.illegal
  · dsimp only
    split
    · exact h.land.modEng
    · exact h.land

theorem Tidy.execXsend {h1 : BitVec 4} {a b : BitVec 5} (h : Tidy s) : OutTidy (execXsend h1 a b s) := by
  unfold Machine.execXsend
  dsimp only
  refine h.start (fun s1 h2 => ?_)
  split
  · exact h2.illegal
  · split
    · exact h2.raise
    · exact h2.modEng

theorem Tidy.sendPacket {dst : Nat} {body : PacketBody} (h : Tidy s) : Tidy (s.sendPacket dst body) := by
  unfold State.sendPacket
  extract_lets _ s1
  have h1 : Tidy s1 := h.modEng
  exact Tidy.countNode h1

theorem Tidy.localRow {cl : BitVec 3} {addr : W64} {act : State → State} (h : Tidy s) (hact : ∀ s, Tidy s → Tidy (act s)) :
    Tidy (s.localRow cl addr act) := by
  unfold State.localRow
  split
  · exact h.raise
  · exact hact _ h

theorem Tidy.execXwr {a b : BitVec 5} {m l : BitVec 3} (h : Tidy s) : OutTidy (execXwr a b m l s) := by
  unfold Machine.execXwr
  dsimp only
  refine h.start (fun s1 h1 => ?_)
  split
  · exact h1.illegal
  · split
    · exact h1.illegal
    · exact h1.localRow (fun s2 h2 => h2.notePoison.sendPacket)

theorem Tidy.execXrd {a b : BitVec 5} {m l : BitVec 3} (h : Tidy s) : OutTidy (execXrd a b m l s) := by
  unfold Machine.execXrd
  dsimp only
  refine h.start (fun s1 h1 => ?_)
  split
  · exact h1.illegal
  · split
    · exact h1.illegal
    · exact h1.localRow (fun s2 h2 => h2.sendPacket)

theorem Tidy.xbarStart {group : Fin 3} (h : Tidy s) : Tidy (s.xbarStart group) := by
  unfold State.xbarStart
  dsimp only
  exact h.modEng.addWait

theorem Tidy.execXbar (h : Tidy s) : OutTidy (execXbar s) := h.xbarStart

theorem Tidy.execXbarRow (h : Tidy s) : OutTidy (execXbarRow s) := h.xbarStart

theorem Tidy.execXbarCol (h : Tidy s) : OutTidy (execXbarCol s) := h.xbarStart

theorem Tidy.dcopyStart {mode : BitVec 2} (h : Tidy s) : Tidy (s.dcopyStart mode) := by
  unfold State.dcopyStart
  extract_lets
  refine h.start (fun s1 h1 => ?_)
  split
  · exact h1.illegal
  · split
    · exact h1.illegal
    · split
      · exact h1.raise
      · exact h1.modEng

theorem Tidy.execDcopy (h : Tidy s) : OutTidy (execDcopy s) := h.dcopyStart

theorem Tidy.execDcopyMt (h : Tidy s) : OutTidy (execDcopyMt s) := h.dcopyStart

theorem Tidy.execDcopyTm (h : Tidy s) : OutTidy (execDcopyTm s) := h.dcopyStart

theorem Tidy.execDwait (h : Tidy s) : OutTidy (execDwait s) := h.addWait

theorem Tidy.execDpub {a b : BitVec 5} {n : BitVec 6} (h : Tidy s) : OutTidy (execDpub a b n s) := by
  unfold Machine.execDpub
  dsimp only
  split
  · exact h.illegal
  · split
    · exact h.land
    · exact h.modEng.land

theorem Tidy.fabricRequest {bind : Bool} (h : Tidy s) : Tidy (s.fabricRequest bind) := by
  unfold State.fabricRequest
  dsimp only
  refine h.start (fun s1 h1 => ?_)
  split
  · exact h1.illegal
  · exact h1.modEng

theorem Tidy.execFload (h : Tidy s) : OutTidy (execFload s) := h.fabricRequest

theorem Tidy.execFbind (h : Tidy s) : OutTidy (execFbind s) := h.fabricRequest

theorem Tidy.execFstat {a : BitVec 5} (h : Tidy s) : OutTidy (execFstat a s) := by
  unfold Machine.execFstat
  dsimp only
  split
  · exact h.illegal
  · exact h.land

theorem Tidy.execNbcmd {a b : BitVec 5} (h : Tidy s) : OutTidy (execNbcmd a b s) := by
  unfold Machine.execNbcmd
  dsimp only
  refine h.start (fun s1 h1 => ?_)
  split
  · exact h1.illegal
  · exact h1.modEng

theorem Tidy.execNbpoll {a b : BitVec 5} (h : Tidy s) : OutTidy (execNbpoll a b s) := h.addWait

theorem Tidy.execNbfence (h : Tidy s) : OutTidy (execNbfence s) := h.modEng

theorem Tidy.execHsig {a b : BitVec 5} {v : BitVec 10} (h : Tidy s) : OutTidy (execHsig a b v s) := by
  unfold Machine.execHsig
  split
  · exact h.land
  · exact h.modEng.land

theorem Tidy.execTrace {a b : BitVec 5} {v : BitVec 10} (h : Tidy s) : OutTidy (execTrace a b v s) := h.emit

theorem Tidy.assertFix {src : Nat} {code : BitVec 8} {who : Option (Nat × TraceRec)} (h : Tidy s) : Tidy (s.assertFix src code who) := by
  unfold State.assertFix
  dsimp only
  exact h

theorem Tidy.execSnap {c : BitVec 8} (h : Tidy s) : OutTidy (execSnap c s) := h.assertFix

theorem Tidy.setRefresh {ptower : Nat} {r : Refresh} (h : Tidy s) : Tidy (s.setRefresh ptower r) := h

theorem Tidy.deferTower {m ptower : Nat} (h : Tidy s) : Tidy (s.deferTower m ptower) := h.setRefresh

theorem Tidy.execRefdefer {a : BitVec 5} (h : Tidy s) : OutTidy (execRefdefer a s) := by
  unfold Machine.execRefdefer
  dsimp only
  split
  · exact h.raise
  · split
    · exact h
    · exact h.foldl (fun s1 x h1 => h1.deferTower)

theorem Tidy.startPass {ptower : Nat} {forced : Bool} (h : Tidy s) : Tidy (s.startPass ptower forced) := by
  unfold State.startPass
  dsimp only
  exact h.setRefresh

theorem Tidy.execRefnow {a : BitVec 5} (h : Tidy s) : OutTidy (execRefnow a s) := by
  unfold Machine.execRefnow
  dsimp only
  split
  · exact h.illegal
  · exact h.startPass

theorem Tidy.execRefnowAll (h : Tidy s) : OutTidy (execRefnowAll s) := h.foldl (fun _ _ h1 => h1.startPass)

end Sys2Proof.Safety
end

section
/-! SUPPORT. Waits: what Machine/Waits.lean does keeps every byte memory in canonical form. -/

namespace Sys2Proof.Safety
open Sys2Proof Sys2Proof.Machine Sys2Proof.Laws
variable {s : State}

theorem Tidy.focus {tile : Nat} (h : Tidy s) : SomeTidy (s.focus tile) := by
  unfold State.focus
  split
  · exact h
  · split
    · trivial
    · rename_i t e
      refine (h.setCur (h.parked t (List.mem_of_find?_eq_some e))).setParked (List.forall_mem_map.2 fun u hu => ?_)
      split
      · exact h.cur
      · exact h.parked u hu

theorem Tidy.onTask {tile : Nat} {f : State → State} (h : Tidy s) (hf : ∀ s, Tidy s → Tidy (f s)) : Tidy (s.onTask tile f) := by
  unfold State.onTask
  split
  · exact h
  · exact hf _ (h.focus.some ‹_›)

theorem Tidy.performAmo {a : GAccess} {op : AmoOp} {ord : BitVec 2} {write : Bool} {sps : List Span} (h : Tidy s) :
    Tidy (s.performAmo a op ord write sps) := by
  unfold State.performAmo
  extract_lets _ _ s1 s2 _ s3
  have h1 : Tidy s1 := by
    unfold s1
    split
    · exact h.setCur h.cur.deferHw
    · exact h
  have h2 : Tidy s2 := by
    unfold s2
    refine (Tidy.drainTo ?_).passPort
    split
    · exact h1.performHeld
    · exact h1
  have h3 : Tidy s3 := by
    unfold s3
    split
    · exact (h2.foldl (fun s4 x h3 => h3.homeWrite)).countBeats
    · exact h2
  exact h3.countBeats.land

theorem Tidy.performGlobal {a : GAccess} (h : Tidy s) : SomeTidy (s.performGlobal a) := by
  have hf : ∀ i s, Tidy s → Tidy (s.waitRaise 0 .race i) := fun _ _ h => h.waitRaise
  unfold State.performGlobal
  split
  · trivial
  · split
    · trivial
    · trivial
    · trivial
    · exact (h.spans.snd ‹_›).waitRaise
    · have h1 := h.spans.snd ‹_›
      split
      · trivial
      · split
        · exact h1.performAmo
        · dsimp only
          split
          · exact h1.choose.performAll hf fun _ _ h => h.modSeq
          · exact h1.performAll hf fun _ _ h => h.landLoad
          · exact h1.performAll hf fun _ _ h => h.landLoad

theorem Tidy.queueWait {w : Wait} (h : Tidy s) : Tidy (s.queueWait w) := by
  unfold State.queueWait
  dsimp only
  split
  · split
    · exact h
    · split
      · exact h.queueAt
      · exact h
  · split
    · exact h
    · split
      · exact h.queueAt
      · exact h
  · exact h

theorem LaunchCanonical.complete {l : Launch} {group : BitVec 2} {line n : Nat} (h : LaunchCanonical l) :
    LaunchCanonical (l.complete group line n) := by
  unfold Launch.complete
  split <;> exact h

theorem SomeTidy.map {α : Type} {o : Option α} {f : α → State} (hf : ∀ x ∈ o, Tidy (f x)) : SomeTidy (o.map f) := by
  cases o with
  | none => trivial
  | some x => exact hf x rfl

/-- An answer that stands under a condition. -/
theorem SomeTidy.guard {c : Prop} [Decidable c] {o : Option State} (h : SomeTidy o) : SomeTidy (if c then o else none) := by
  split
  · exact h
  · trivial

theorem Tidy.tryWait {x : Wait} (h : Tidy s) : SomeTidy (s.tryWait x) := by
  unfold State.tryWait
  split
  · exact h.performGlobal
  · split
    · exact h.finishLoad
    · split
      · exact .map fun _ _ => h.waitRaise
      · exact .map fun _ _ => h.waitRaise
      · trivial
  · exact SomeTidy.guard (o := some _) h.finishRingWrite
  · split
    · exact h
    · exact .map fun _ _ => h.waitRaise
  · dsimp only
    split
    · exact h.waitRaise
    · exact SomeTidy.guard (o := some s) h
  · exact SomeTidy.guard (o := some s) h
  · exact SomeTidy.guard (o := some _) h.modEng
  · exact SomeTidy.guard (o := some _) (Tidy.ite h h.modEng)
  · split
    · trivial
    · exact h.modEng
  · split
    · trivial
    · exact (h.readVirt.snd ‹_›).waitRaise
    · exact (h.readVirt.snd ‹_›).waitRaise
    · exact (h.readVirt.snd ‹_›).setCur (h.readVirt.snd ‹_›).cur.deferHw
    · exact SomeTidy.guard (o := some _) (h.readVirt.snd ‹_›).land
  · exact SomeTidy.guard (o := some s) h
  · split
    · trivial
    · exact h

theorem Tidy.endWait {w : Wait} (h : Tidy s) : Tidy (s.endWait w) := by
  unfold State.endWait
  split
  · exact h.queueWait
  · exact (h.tryWait.some ‹_›).modSeq

theorem Tidy.thaw {cause : Nat} (h : Tidy s) : Tidy (s.thaw cause) := by
  unfold State.thaw
  split
  · exact h.stallRecord.afterStall.modSeq
  · exact h

theorem Tidy.endWaits {p : Wait → Bool} (h : Tidy s) : Tidy (s.endWaits p) := by
  unfold State.endWaits
  dsimp only
  refine h.modSeq.foldl (fun s1 x h1 => ?_)
  split
  · exact h1
  · exact h1.endWait

theorem Tidy.retryIf {p : Wait → Bool} (h : Tidy s) : Tidy (s.retryIf p) := by
  unfold State.retryIf
  split
  · exact h.endWaits.thaw
  · exact h

theorem Tidy.retry (h : Tidy s) : Tidy s.retry := h.endWaits.thaw

theorem Tidy.execResultLanding (h : Tidy s) : OutTidy (execResultLanding s) := h.landDue

theorem Tidy.execGlobalAccessPerformed {tile : Nat} (h : Tidy s) : OutTidy (execGlobalAccessPerformed tile s) := by
  unfold Machine.execGlobalAccessPerformed
  split
  · exact h.drainOne
  · refine h.onTask (fun s1 h1 => ?_)
    split
    · exact h1.retryIf
    · exact h1.drainOne

theorem Tidy.execFullEmptyWake {tile : Nat} (h : Tidy s) : OutTidy (execFullEmptyWake tile s) := h.onTask (fun _ h1 => h1.retryIf)

theorem Tidy.execRingReadWake {tile : Nat} (h : Tidy s) : OutTidy (execRingReadWake tile s) := h.onTask (fun _ h1 => h1.retryIf)

theorem Tidy.execRingWriteWake {tile : Nat} (h : Tidy s) : OutTidy (execRingWriteWake tile s) := h.onTask (fun _ h1 => h1.retryIf)

theorem Tidy.execEngineWaitEnd {tile : Nat} (h : Tidy s) : OutTidy (execEngineWaitEnd tile s) := h.onTask (fun _ h1 => h1.retryIf)

theorem Tidy.leaveBarrier {group : BitVec 2} {n tile : Nat} (h : Tidy s) : Tidy (s.leaveBarrier group n tile) := by
  unfold State.leaveBarrier
  refine h.onTask (fun s1 h1 => ?_)
  dsimp only
  split
  · exact h1.modSeq.thaw
  · exact h1

theorem Tidy.execBarrierRelease {launch : Nat} {group : BitVec 2} {line : Nat} (h : Tidy s) :
    OutTidy (execBarrierRelease launch group line s) := by
  unfold Machine.execBarrierRelease
  extract_lets _ s1
  have h1 : Tidy s1 := by
    unfold s1
    refine h.foldl (fun s2 t h1 => ?_)
    split
    · split
      · exact h1.leaveBarrier
      · exact h1
    · exact h1
  split
  · exact h1
  · extract_lets
    split
    · exact (h1.modLaunch (fun l h2 => h2.complete)).foldl (fun s2 t h2 => h2.leaveBarrier)
    · exact h1

end Sys2Proof.Safety
end

section
/-! SUPPORT. Matrix units: what Machine/Matrix.lean does keeps every byte memory in canonical form. -/

namespace Sys2Proof.Safety
open Sys2Proof Sys2Proof.Machine Sys2Proof.Laws
variable {s : State}

theorem Tidy.feedPort {h1 : BitVec 4} {rows : Nat} {buf : List Byte} (h : Tidy s) : Tidy (s.feedPort h1 rows buf).2 := by
  induction rows generalizing s buf with
  | zero => exact h
  | succ n ih =>
    unfold State.feedPort
    dsimp only
    split
    · exact h
    · split
      · exact ih (Tidy.foldl (h.foldl (fun s1 x h2 => h2.notePoison)) (fun s1 x h2 => h2.consume))
      · split <;> exact h

theorem Tidy.muStep {o : MuOp} (h : Tidy s) : Tidy (s.muStep o) := by
  unfold State.muStep
  dsimp only
  split
  · exact h.modEng.modEng
  · exact h
  · exact h.modEng.modEng
  · exact h

theorem Tidy.drainInto {h1 : BitVec 4} {rows : List (List (List Byte))} (h : Tidy s) : Tidy (s.drainInto h1 rows).2 := by
  induction rows generalizing s with
  | nil => exact h
  | cons a l ih =>
    unfold State.drainInto
    dsimp only
    split
    · exact ih h
    · split
      · exact ih h.produceRow
      · exact h

theorem Tidy.setMu {o : MuOp} (h : Tidy s) : Tidy (s.setMu o) := h.modEng

theorem Tidy.endMu (h : Tidy s) : Tidy s.endMu := h.modEng

theorem Tidy.beginMu (h : Tidy s) : Tidy s.beginMu := by
  unfold State.beginMu
  split
  · exact h
  · split
    · exact h
    · dsimp only
      split
      · exact h.modEng.setMu
      · exact h.modEng.setMu
      · exact h.modEng.setMu
      · exact h.setMu

theorem Tidy.feedMu {o : MuOp} (h : Tidy s) : Tidy (s.feedMu o) := by
  unfold State.feedMu
  dsimp only
  split
  · exact (h.feedPort.snd ‹_›).endMu.engineFault
  · split
    · exact (h.feedPort.snd ‹_›).setMu
    · split
      · exact ((h.feedPort.snd ‹_›).feedPort.snd ‹_›).endMu.engineFault
      · split
        · exact (((h.feedPort.snd ‹_›).feedPort.snd ‹_›).feedPort.snd ‹_›).endMu.engineFault
        · split
          · split
            · exact (((h.feedPort.snd ‹_›).feedPort.snd ‹_›).feedPort.snd ‹_›).setMu.muStep.modEng
            · exact (((h.feedPort.snd ‹_›).feedPort.snd ‹_›).feedPort.snd ‹_›).setMu.muStep
          · exact (((h.feedPort.snd ‹_›).feedPort.snd ‹_›).feedPort.snd ‹_›).setMu

theorem Tidy.workMu (h : Tidy s) : Tidy s.workMu := by
  unfold State.workMu
  split
  · exact h
  · split
    · exact h
    · split
      · exact h.feedMu
      · split
        · exact h
        · split
          · dsimp only
            split
            · exact h.endMu.engineFault
            · split
              · split
                · refine Tidy.endMu ?_
                  split
                  · exact h.modEng
                  · exact h
                · exact h.setMu
              · split
                · split
                  · refine Tidy.endMu ?_
                    split
                    · exact (h.setCur h.cur.setRing).drainInto.modEng
                    · exact (h.setCur h.cur.setRing).drainInto
                  · exact (h.setCur h.cur.setRing).drainInto.setMu
                · split
                  · refine Tidy.endMu ?_
                    split
                    · exact (h.setCur h.cur.setRing).drainInto.modEng
                    · exact (h.setCur h.cur.setRing).drainInto
                  · exact (h.setCur h.cur.setRing).drainInto.setMu
          · exact h.endMu

theorem Tidy.runMu {steps : Nat} (h : Tidy s) : Tidy (s.runMu steps) := by
  induction steps generalizing s with
  | zero => exact h
  | succ n ih =>
    unfold State.runMu
    dsimp only
    split
    · exact h.workMu
    · exact ih h.workMu

theorem Tidy.feedEdge (h : Tidy s) : Tidy s.feedEdge := by
  unfold State.feedEdge
  split
  · exact h.runMu
  · exact h

theorem Tidy.execMuOperationBegin {tile : Nat} (h : Tidy s) : OutTidy (execMuOperationBegin tile s) := h.onTask (fun _ h1 => h1.beginMu)

theorem Tidy.execMuOperationComplete {tile : Nat} (h : Tidy s) : OutTidy (execMuOperationComplete tile s) :=
  h.onTask (fun _ h1 => h1.workMu)

end Sys2Proof.Safety
end

section
/-! SUPPORT. Copies, packets and publications: what Machine/Movers.lean does keeps every byte memory in canonical form. -/

namespace Sys2Proof.Safety
open Sys2Proof Sys2Proof.Machine Sys2Proof.Laws
variable {s : State}

theorem Tidy.streamStep {tile : Nat} {h1 : BitVec 4} (h : Tidy s) : Tidy (s.streamStep tile h1) := by
  unfold State.streamStep
  split
  · exact h
  · split
    · exact h.windowRow
    · exact h.graphStep

theorem Tidy.execWindowRowDelivery {tile : Nat} {h1 : BitVec 4} (h : Tidy s) : OutTidy (execWindowRowDelivery tile h1 s) := h.streamStep

theorem Tidy.execFabricBeat {tile : Nat} {h1 : BitVec 4} (h : Tidy s) : OutTidy (execFabricBeat tile h1 s) := by
  unfold Machine.execFabricBeat
  split
  · exact h
  · split
    · exact h
    · exact h.graphStep

theorem Tidy.execFabricStreamEnd {tile : Nat} {h1 : BitVec 4} (h : Tidy s) : OutTidy (execFabricStreamEnd tile h1 s) := by
  unfold Machine.execFabricStreamEnd
  split
  · exact h
  · split
    · exact h
    · exact h.graphEnd

theorem Tidy.execFabricContextSpill {ctx : Nat} (h : Tidy s) : OutTidy (execFabricContextSpill ctx s) := by
  unfold Machine.execFabricContextSpill
  dsimp only
  split
  · exact h.setFab
  · exact h

theorem Tidy.fabricRequestStep {bind : Bool} (h : Tidy s) : Tidy (s.fabricRequestStep bind) := by
  unfold State.fabricRequestStep
  split
  · exact h
  · split
    · exact h
    · dsimp only
      split
      · exact (h.foldl (fun s1 x h1 => h1.bindCtx)).modEng
      · split
        · exact (h.foldl (fun s1 x h1 => h1.setFab)).modEng
        · split
          · exact h.readImage.snd ‹_›
          · exact (h.readImage.snd ‹_›).modEng.engineMemFault
          · exact (h.readImage.snd ‹_›).modEng
          · exact ((h.readImage.snd ‹_›).foldl (fun s1 x h1 => h1.setFab)).modEng

theorem Tidy.execFabricLoadRequest {tile : Nat} (h : Tidy s) : OutTidy (execFabricLoadRequest tile s) :=
  h.onTask (fun _ h1 => h1.fabricRequestStep)

theorem Tidy.execFabricBindRequest {tile : Nat} (h : Tidy s) : OutTidy (execFabricBindRequest tile s) :=
  h.onTask (fun _ h1 => h1.fabricRequestStep)

theorem Tidy.setBcHead {col : Nat} {x : Option BcXfer} (h : Tidy s) : Tidy (s.setBcHead col x) := by
  unfold State.setBcHead
  dsimp only
  exact h

theorem Tidy.bcLand {x : BcXfer} {bs : List Byte} {t : Machine.Task} (h : Tidy s) : Tidy (s.bcLand x bs t) := by
  unfold State.bcLand
  dsimp only
  split
  · exact (h.foldl (fun s1 x1 h1 => h1.engineWrite)).settle
  · exact h.modRing.produceRow

theorem Tidy.bcStep {col : Nat} (h : Tidy s) : Tidy (s.bcStep col) := by
  unfold State.bcStep
  split
  · exact h
  · split
    · exact h.setBcHead
    · extract_lets
      split
      · exact h
      · split
        · exact h
        · split
          · exact h.setBcHead.engineFault
          · split
            · exact h
            · split
              · exact h.readOn.snd ‹_›
              · extract_lets s1
                have h1 : Tidy s1 := (h.readOn.snd ‹_›).setBcHead
                split
                · exact h1.foldl (fun s2 t h2 => h2.onTile (fun t1 h3 => h3.ringError))
                · exact h1.engineMemFault
              · split
                · exact (h.readOn.snd ‹_›).setBcHead
                · extract_lets s1 s2
                  have h1 : Tidy s1 := (h.readOn.snd ‹_›).foldl (fun s3 t h1 => h1.bcLand)
                  have h2 : Tidy s2 := h1.onTile (fun t h2 => h2)
                  exact h2.setBcHead

theorem Tidy.execBcRowDelivery {column : Nat} (h : Tidy s) : OutTidy (execBcRowDelivery column s) := h.bcStep

theorem Tidy.modXp {tile id : Nat} {f : XpOp → XpOp} (h : Tidy s) : Tidy (s.modXp tile id f) := h.onTile (fun _ h1 => h1)

theorem Tidy.xpInject (h : Tidy s) : Tidy s.xpInject := by
  unfold State.xpInject
  dsimp only
  split
  · exact h
  · split
    · exact h
    · split
      · split
        · exact h.modXp
        · split
          · exact h.modEng.engineFault
          · split
            · split
              · exact h.modEng.engineFault
              · exact Tidy.countNode (Tidy.modXp (Tidy.foldl (Tidy.foldl h (fun s1 x h1 => h1.notePoison)) (fun s1 x h1 => h1.consume)))
            · split
              · exact h.modEng.engineFault
              · split
                · exact h.modEng.engineFault
                · exact h
      · split
        · exact h.modXp
        · split
          · exact h.modEng.engineFault
          · split
            · split
              · exact h.modEng.engineFault
              · exact Tidy.countNode (Tidy.modXp (Tidy.foldl (Tidy.foldl h (fun s1 x h1 => h1.notePoison)) (fun s1 x h1 => h1.consume)))
            · split
              · exact h.modEng.engineFault
              · split
                · exact h.modEng.engineFault
                · exact h

theorem Tidy.dropPacket {k : Nat} {p : Packet} {landed : Nat} (h : Tidy s) : Tidy (s.dropPacket k p landed) := by
  unfold State.dropPacket
  dsimp only
  exact h.modXp

theorem Tidy.packetFault {k : Nat} {p : Packet} {st : Status} {info : W64} (h : Tidy s) : Tidy (s.packetFault k p st info) :=
  h.dropPacket.engineFault

theorem Tidy.packetAt {k : Nat} {p : Packet} {t : Machine.Task} (h : Tidy s) : Tidy (s.packetAt k p t) := by
  unfold State.packetAt
  dsimp only
  split
  · split
    · exact h.dropPacket
    · split
      · exact h.packetFault
      · exact h
      · exact h.dropPacket
      · exact h.dropPacket.modRing.producePart
  · split
    · exact h.packetFault
    · split
      · exact h
      · exact h.dropPacket.engineWrite.settle
  · split
    · exact h.packetFault
    · refine (Tidy.countNode ?_).foldl (fun s1 x h1 => h1.countNode)
      split
      · exact h.onTile (fun t1 h1 => h1.deferHw)
      · exact h
  · split
    · exact h
    · exact h.dropPacket.engineWrite.settle

theorem Tidy.landPacket {k : Nat} (h : Tidy s) : Tidy (s.landPacket k) := by
  unfold State.landPacket
  split
  · exact h
  · extract_lets _ _ _ _ s1
    have h1 : Tidy s1 := by
      unfold s1
      split
      · exact h.dropPacket
      · split
        · exact h.packetAt
        · exact h.dropPacket
    split
    · exact h
    · split
      · exact h1.foldl (fun s2 x h2 => h2.countNode)
      · exact h1

theorem Tidy.execXpPacketLanding {index : Nat} (h : Tidy s) : OutTidy (execXpPacketLanding index s) := h.landPacket

theorem Tidy.shiftStep {cl : Nat} (h : Tidy s) : Tidy (s.shiftStep cl) := by
  unfold State.shiftStep
  dsimp only
  split
  · exact h
  · split
    · exact h
    · split
      · exact h.modEng
      · exact h.modEng
      · exact h.modEng.engineFault
      · exact h.modEng.modRing.producePart

theorem Tidy.execShiftPartDelivery {tile : Nat} {cluster : BitVec 3} (h : Tidy s) : OutTidy (execShiftPartDelivery tile cluster s) :=
  h.onTask (fun _ h1 => h1.shiftStep)

theorem Tidy.copyPlace {t : Machine.Task} {o : DmOp} {va n : Nat} (h : Tidy s) : Tidy (copyPlace t o s va n).2 := by
  unfold Machine.copyPlace
  split
  · split
    · exact h
    · dsimp only
      split
      · exact h
      · split
        · exact h
        · exact h.beats
  · split
    · exact h.translate.snd ‹_›
    · split <;> exact h.translate.snd ‹_›

theorem Tidy.copyRows {o : DmOp} {off n fuel : Nat} {got : List Byte} (h : Tidy s) : Tidy (s.copyRows o off n fuel got).2 := by
  induction fuel generalizing s got with
  | zero => exact h
  | succ n ih =>
    unfold State.copyRows
    split
    · exact h
    · dsimp only
      split
      · exact h.notePoison.choose
      · exact ih h.notePoison.choose

theorem Tidy.putRows {o : DmOp} {off : Nat} {bs : List Byte} {fuel k : Nat} (h : Tidy s) : Tidy (s.putRows o off bs fuel k).2 := by
  induction fuel generalizing s k with
  | zero => exact h
  | succ n ih =>
    unfold State.putRows
    split
    · exact h
    · dsimp only
      split
      · exact h.engineWrite.choose
      · exact ih h.engineWrite.choose

theorem Tidy.copyStep (h : Tidy s) : Tidy s.copyStep := by
  unfold State.copyStep
  extract_lets tile
  split
  · exact h
  · split
    · exact h
    · extract_lets off n set done waits fail toMem toTower
      have hset : ∀ {s o}, Tidy s → Tidy (set s o) := fun h => h.modEng
      have hdone : ∀ {s}, Tidy s → Tidy (done s) := by
        intro s h
        unfold done
        split
        · exact h.modEng
        · exact hset h
      have hwaits : ∀ {s}, Tidy s → Tidy (waits s) := by
        intro s h
        unfold waits
        split
        · exact h.modEng
        · exact h
      have hfail : ∀ {s f}, Tidy s → Tidy (fail s f) := by
        intro s f h
        unfold fail
        split
        · exact hwaits h
        · exact h.modEng.engineMemFault
      have hmem : ∀ {s bs}, Tidy s → Tidy (toMem s bs) := by
        intro s bs h
        unfold toMem
        split
        · exact hwaits (hset ((h.writeOn fun _ _ _ h => h.copyPlace).trd ‹_›))
        · exact hfail ((h.writeOn fun _ _ _ h => h.copyPlace).trd ‹_›)
        · split
          · exact hset ((h.writeOn fun _ _ _ h => h.copyPlace).trd ‹_›)
          · exact hdone ((h.writeOn fun _ _ _ h => h.copyPlace).trd ‹_›)
      have htower : ∀ {s bs}, Tidy s → Tidy (toTower s bs) := by
        intro s bs h
        unfold toTower
        dsimp only
        split
        · exact hset h.putRows.settle
        · exact hdone h.putRows.settle
      split
      · dsimp only
        split
        · exact hset h.copyRows
        · exact hmem h.copyRows
      · split
        · exact h
        · split
          · split
            · exact hmem h
            · exact htower h
          · split
            · exact hfail (h.readOn.snd ‹_›)
            · have h1 := h.readOn.snd ‹_›
              split
              · exact hset h1
              · split
                · exact hmem h1
                · exact htower h1

theorem Tidy.execDcopyChunk {tile : Nat} (h : Tidy s) : OutTidy (execDcopyChunk tile s) := h.onTask (fun _ h1 => h1.copyStep)

theorem Tidy.swapEntry {a : Nat} (h : Tidy s) : Tidy (s.swapEntry a) := by
  unfold State.swapEntry
  dsimp only
  exact h.countLocal.homeWrite.countLocal

theorem Tidy.publish (h : Tidy s) : Tidy s.publish := by
  unfold State.publish
  dsimp only
  split
  · exact h
  · split
    · exact h
    · split
      · exact h.modEng.engineFault
      · exact (h.modEng.foldl (fun s1 x h1 => h1.swapEntry)).modLaunch (fun l h1 => h1)

theorem Tidy.execPublicationApply {tile : Nat} (h : Tidy s) : OutTidy (execPublicationApply tile s) := h.onTask (fun _ h1 => h1.publish)

theorem Tidy.unhold (h : Tidy s) : Tidy s.unhold := by
  unfold State.unhold
  refine h.mapTasks (fun t h1 => ?_)
  split <;> exact h1

theorem Tidy.completeTlbInv (h : Tidy s) : Tidy s.completeTlbInv := by
  unfold State.completeTlbInv
  split
  · exact h
  · dsimp only
    exact h.unhold

theorem Tidy.execTlbinvComplete (h : Tidy s) : OutTidy (execTlbinvComplete s) := h.completeTlbInv

theorem TaskCanonical.withCur {u : Machine.Task} {f : State → State} (h : Tidy s) (hu : TaskCanonical u)
    (hf : ∀ s, Tidy s → Tidy (f s)) : TaskCanonical (s.withCur u f).1 :=
  (hf _ (h.setCur hu)).cur

theorem Tidy.withCur {u : Machine.Task} {f : State → State} (h : Tidy s) (hu : TaskCanonical u)
    (hf : ∀ s, Tidy s → Tidy (f s)) : Tidy (s.withCur u f).2 :=
  (hf _ (h.setCur hu)).setCur h.cur

theorem Tidy.onContexts {tile : Nat} {f : State → State} (h : Tidy s) (hf : ∀ s, Tidy s → Tidy (f s)) : Tidy (s.onContexts tile f) :=
  h.foldl_mem fun s1 l hl h1 => by
    split
    next u e =>
      have hu := (h.sched.1 l hl).1 u (List.mem_of_find?_eq_some e)
      refine (h1.withCur hu hf).modLaunch fun l hl => hl.mapContexts fun t ht => ?_
      split
      · exact .withCur h1 hu hf
      · exact ht
    · exact h1

theorem Tidy.writeSignal {vector : BitVec 10} {payload : W32} {hi : Nat} (h : Tidy s) : Tidy (s.writeSignal vector payload hi) := by
  unfold State.writeSignal
  extract_lets a w s1
  have h1 : Tidy s1 := h.homeWrite
  clear_value s1
  exact h1.setMgmt h1.mgmt

theorem Tidy.deliverSignal (h : Tidy s) : Tidy s.deliverSignal := by
  unfold State.deliverSignal
  split
  · exact h
  · split
    · exact h
    · dsimp only
      exact h.drainTile.modEng.writeSignal

theorem Tidy.execSignalDelivery {tile : Nat} (h : Tidy s) : OutTidy (execSignalDelivery tile s) := by
  unfold Machine.execSignalDelivery
  split
  · exact (h.onTask (fun s1 h1 => h1.deliverSignal)).onContexts (fun s1 h1 => h1.deliverSignal)
  · split
    · exact h
    · split
      · exact h.writeSignal
      · exact h

end Sys2Proof.Safety
end

section
/-! SUPPORT. Near-bank units: what Machine/Nbu.lean does keeps every byte memory in canonical form. -/

namespace Sys2Proof.Safety
open Sys2Proof Sys2Proof.Machine Sys2Proof.Laws
variable {s : State}

theorem Tidy.nbComplete {chan : Nat} {c : NbCmd} (h : Tidy s) : Tidy (s.nbComplete chan c) := by
  unfold State.nbComplete
  dsimp only
  split
  · split
    · exact (h.donePlace.snd ‹_›).bumpDone.setNbu
    · exact h.donePlace.snd ‹_›
    · exact (h.donePlace.snd ‹_›).nbFail
  · exact h.setNbu

theorem Tidy.nbAdvance (h : Tidy s) : Tidy s.nbAdvance := by
  unfold State.nbAdvance
  dsimp only
  exact h.setNbu

theorem Tidy.rowOp {o : MicroForm} {read write : Bool}
    {f : Vector W32 256 → Vector W32 256 → Vector W32 256 × Option (Vector W32 256)} (h : Tidy s) :
    Tidy (s.rowOp o read write f) := by
  unfold State.rowOp
  extract_lets
  split
  · exact h.nbFail
  · split
    · exact h
    · split
      · split
        · exact h.translate.snd ‹_›
        · exact (h.translate.snd ‹_›).nbFail
      · split
        · exact (h.translate.snd ‹_›).nbFail
        · extract_lets
          split
          · extract_lets _ _ s1 s2
            have h1 : Tidy s1 := by
              unfold s1
              split
              · exact (h.translate.snd ‹_›).setNbu.countChan.countChan
              · exact (h.translate.snd ‹_›).setNbu.countChan
            have h2 : Tidy s2 := by
              unfold s2
              split
              · exact h1.countChan
              · exact h1
            refine Tidy.nbAdvance ?_
            split
            · exact h2.homeWrite
            · exact h2

theorem Tidy.execNbEnd (h : Tidy s) : OutTidy (execNbEnd s) := h.nbComplete

theorem Tidy.execLoadacc {o : MicroForm} (h : Tidy s) : OutTidy (execLoadacc o s) := h.rowOp

theorem Tidy.execAccop {o : MicroForm} (h : Tidy s) : OutTidy (execAccop o s) := by
  unfold Machine.execAccop
  dsimp only
  exact h.rowOp

theorem Tidy.execSacc {o : MicroForm} (h : Tidy s) : OutTidy (execSacc o s) := by
  unfold Machine.execSacc
  dsimp only
  exact h.rowOp

theorem Tidy.execNbStore {o : MicroForm} (h : Tidy s) : OutTidy (execNbStore o s) := h.rowOp

theorem Tidy.execNbClear {acc : BitVec 2} (h : Tidy s) : OutTidy (execNbClear acc s) := by
  unfold Machine.execNbClear
  dsimp only
  exact h.setNbu.nbAdvance

theorem Tidy.execMinmax {o : MicroForm} (h : Tidy s) : OutTidy (execMinmax o s) := by
  unfold Machine.execMinmax
  dsimp only
  exact h.rowOp

theorem Tidy.microExec {i : Instr} (h : Tidy s) : OutTidy (microExec i s) := by
  unfold Machine.microExec
  split
  · exact h.execNbEnd
  · exact h.execLoadacc
  · exact h.execAccop
  · exact h.execSacc
  · exact h.execNbStore
  · exact h.execNbClear
  · exact h.execMinmax
  · exact h

theorem Tidy.outState {o : Out} (h : Tidy s) (ho : OutTidy o) : Tidy (outState s o) := by
  unfold Machine.outState
  split
  · exact ho
  · exact h

theorem Tidy.runMicro {l : List Instr} (h : Tidy s) : Tidy (s.runMicro l) := by
  induction l generalizing s with
  | nil => exact h
  | cons i l ih =>
    have h1 := h.outState (h.microExec (i := i))
    exact .ite (ih h1) h1

theorem Tidy.judgeDone {chan : Nat} {c : NbCmd} {go : State → State} (h : Tidy s) (hgo : ∀ s, Tidy s → Tidy (go s)) :
    Tidy (s.judgeDone chan c go) := by
  unfold State.judgeDone
  split
  · exact hgo _ h
  · split
    · exact hgo _ (h.donePlace.snd ‹_›)
    · exact h.donePlace.snd ‹_›
    · exact (h.donePlace.snd ‹_›).nbFail

theorem Tidy.runCommand {i : Instr} {words : Vector W32 8} (h : Tidy s) : Tidy (s.runCommand i words) := by
  unfold State.runCommand
  extract_lets _ _ _ _ s1 _ s2
  have h1 : Tidy s1 := h
  have h2 : Tidy s2 := h1.setNbu
  split
  · exact h2.nbFail
  · exact h2.judgeDone (fun s3 h3 => h3.runMicro)

theorem Tidy.execReduce {p : NbForm} (h : Tidy s) : OutTidy (execReduce p s) := h.runCommand

theorem Tidy.execScaleacc {p : NbForm} (h : Tidy s) : OutTidy (execScaleacc p s) := h.runCommand

theorem Tidy.execCmpxchg {p : NbForm} (h : Tidy s) : OutTidy (execCmpxchg p s) := h.runCommand

theorem Tidy.execIdxreduce {p : NbForm} (h : Tidy s) : OutTidy (execIdxreduce p s) := h.runCommand

theorem Tidy.execAccwb {p : NbForm} (h : Tidy s) : OutTidy (execAccwb p s) := h.runCommand

theorem Tidy.execAccclr {p : NbForm} (h : Tidy s) : OutTidy (execAccclr p s) := h.runCommand

theorem Tidy.execUprog {p : NbForm} (h : Tidy s) : OutTidy (execUprog p s) := h.runCommand

theorem Tidy.nbStep {chan : Nat} (h : Tidy s) : Tidy (s.nbStep chan) := by
  unfold State.nbStep
  split
  · exact h
  · split
    · exact h
    · extract_lets _ s1 _ s2
      have h1 : Tidy s1 := h.setNbu
      have h2 : Tidy s2 := h1
      split
      · exact h2.nbFail
      · refine h2.judgeDone (fun s3 h3 => ?_)
        extract_lets _ s4 _ s5
        have h4 : Tidy s4 := h3.outState h3.microExec
        have h5 : Tidy s5 := h4.setNbu
        split
        · exact h3
        · split
          · split
            · exact h5.outState h5.microExec
            · exact h5
          · exact h4

theorem Tidy.execRowOperationStart {chan : Nat} (h : Tidy s) : OutTidy (execRowOperationStart chan s) := h.nbStep

theorem Tidy.ordinary {chan : Nat} (h : Tidy s) : Tidy (s.ordinary chan) := by
  unfold State.ordinary
  dsimp only
  split
  · exact h.setNbu
  · split
    · exact h.setNbu
    · exact h.setNbu.countChan

theorem Tidy.execOrdinaryRequestSuspend {chan : Nat} (h : Tidy s) : OutTidy (execOrdinaryRequestSuspend chan s) := h.ordinary

theorem Tidy.askedEdge (h : Tidy s) : Tidy s.askedEdge := by
  unfold State.askedEdge
  dsimp only
  exact h.foldl (fun s1 x h1 => h1.ordinary)

theorem Tidy.execNbContextSpill {chan : Nat} (h : Tidy s) : OutTidy (execNbContextSpill chan s) := by
  unfold Machine.execNbContextSpill
  dsimp only
  split
  · split
    · exact h.setNbu
    · exact h
  · exact h

theorem TaskCanonical.unNbHold {t : Task} (h : TaskCanonical t) : TaskCanonical t.unNbHold := by
  unfold Task.unNbHold
  split <;> exact h

theorem Tidy.nbPortStep (h : Tidy s) : Tidy s.nbPortStep := by
  unfold State.nbPortStep
  dsimp only
  split
  · exact h
  · split
    · exact h
    · split
      · exact h.modEng.modEng
      · exact h
    · split
      · split
        · exact h.donePlace.snd ‹_›
        · exact (h.modEng.setCur h.modEng.cur.unNbHold).nbFail
      · split
        · exact (h.modEng.setCur h.modEng.cur.unNbHold).nbPush
        · exact h

theorem Tidy.execNbPacketEnqueue {tile : Nat} (h : Tidy s) : OutTidy (execNbPacketEnqueue tile s) := h.onTask (fun _ h1 => h1.nbPortStep)

theorem Tidy.nbLateHold (h : Tidy s) : Tidy s.nbLateHold := by
  unfold State.nbLateHold
  split
  · exact h.modSeq.logEvent
  · exact h

theorem Tidy.execNbQueueWaitTimeout {tile : Nat} (h : Tidy s) : OutTidy (execNbQueueWaitTimeout tile s) := by
  unfold Machine.execNbQueueWaitTimeout
  refine h.onTask (fun s1 h1 => ?_)
  split
  · exact h1.nbLateHold
  · exact h1

end Sys2Proof.Safety
end

section
/-! SUPPORT. Retraining, refresh and layout: what Machine/Upkeep.lean does keeps every byte memory in canonical form. -/

namespace Sys2Proof.Safety
open Sys2Proof Sys2Proof.Machine Sys2Proof.Laws
variable {s : State}

theorem Tidy.wantPass (h : Tidy s) : Tidy s.wantPass := h

theorem Tidy.forcedFault {ptower : Nat} (h : Tidy s) : Tidy (s.forcedFault ptower) := by
  unfold State.forcedFault
  split
  · exact h
  · split
    · exact h
    · split
      · exact h
      · dsimp only
        exact h.onTile (fun t h1 => h1)

theorem Tidy.scheduledPass {ptower : Nat} (h : Tidy s) : Tidy (s.scheduledPass ptower) := by
  unfold State.scheduledPass
  split
  · exact h.startPass
  · exact h

theorem Tidy.forcedPass {ptower : Nat} (h : Tidy s) : Tidy (s.forcedPass ptower) := by
  unfold State.forcedPass
  split
  · exact h.startPass.forcedFault
  · exact h

theorem Tidy.execScheduledRefreshPass {ptower : Nat} (h : Tidy s) : OutTidy (execScheduledRefreshPass ptower s) := h.scheduledPass

theorem Tidy.execForcedRefresh {ptower : Nat} (h : Tidy s) : OutTidy (execForcedRefresh ptower s) := h.forcedPass

theorem Tidy.passEnd {ptower : Nat} (h : Tidy s) : Tidy (s.passEnd ptower) := by
  unfold State.passEnd
  split
  · exact h
  · split
    · exact h.setRefresh
    · exact h

theorem Tidy.execRefreshPassEnd {ptower : Nat} (h : Tidy s) : OutTidy (execRefreshPassEnd ptower s) := h.passEnd

theorem Tidy.execDeferralExpiry {ptower : Nat} (h : Tidy s) : OutTidy (execDeferralExpiry ptower s) := by
  unfold Machine.execDeferralExpiry
  split
  · exact h
  · split
    · exact h.setRefresh
    · exact h

theorem Tidy.putDeferral {ptower e : Nat} (h : Tidy s) : Tidy (s.putDeferral ptower e) := h.setRefresh

theorem Tidy.endDeferral {ptower : Nat} (h : Tidy s) : Tidy (s.endDeferral ptower) := by
  unfold State.endDeferral
  split
  · exact h.setRefresh
  · exact h

theorem Tidy.endDeferrals {tile : Nat} (h : Tidy s) : Tidy (s.endDeferrals tile) := h.foldl (fun _ _ h1 => h1.endDeferral)

theorem Tidy.execScrubRow {tower : Bool} {row : Nat} {outcome : ScrubOutcome} (h : Tidy s) :
    OutTidy (execScrubRow tower row outcome s) := by
  unfold Machine.execScrubRow
  dsimp only
  split
  · exact h
  · split
    · exact h
    · exact Tidy.countChan h
  · split <;> exact h

theorem Tidy.execRelayout {page : Nat} (h : Tidy s) : OutTidy (execRelayout page s) := by
  unfold Machine.execRelayout
  split
  · exact h.layOut.countChan
  · exact h

theorem Tidy.execChannelRetrain {chan : Nat} (h : Tidy s) : OutTidy (execChannelRetrain chan s) := by
  unfold Machine.execChannelRetrain
  split <;> exact h

theorem Tidy.execChannelRetrainEnd {chan : Nat} (h : Tidy s) : OutTidy (execChannelRetrainEnd chan s) := h

theorem Tidy.startRateChanges (h : Tidy s) : Tidy s.startRateChanges :=
  .ite h <| h.foldl fun _ _ h => .ite h h.setEnv

theorem Tidy.execHbmDataRateChange {stack : BitVec 3} (h : Tidy s) : OutTidy (execHbmDataRateChange stack s) := Tidy.startRateChanges h

theorem Tidy.execLinkRetrain {link : Nat} (h : Tidy s) : OutTidy (execLinkRetrain link s) := by
  unfold Machine.execLinkRetrain
  split
  · exact h
  · split <;> exact h

theorem Tidy.setColumn {px : Nat} {c : Column} (h : Tidy s) : Tidy (s.setColumn px c) := h

theorem Tidy.columnAct {px : Nat} (h : Tidy s) : Tidy (s.columnAct px) := by
  unfold State.columnAct
  extract_lets _ _ _ _ _ _ s1 s2
  have h1 : Tidy s1 := by
    unfold s1
    split
    · exact h.setColumn.wantPass
    · exact h.setColumn
  have h2 : Tidy s2 := by
    unfold s2
    refine h1.foldl (fun s3 t h2 => ?_)
    split
    · exact h2.endLaunch
    · exact h2
  split
  · exact h2.foldl (fun s3 l h3 => h3.endLaunch)
  · exact h1

theorem Tidy.execThermalSample {deciC : List ℤ} (h : Tidy s) : OutTidy (execThermalSample deciC s) := by
  unfold Machine.execThermalSample
  dsimp only
  exact Tidy.foldl (Tidy.foldl h (fun s1 x h1 => h1.logEvent)) (fun s1 x h1 => h1.setColumn.columnAct)

theorem Tidy.execSensorRecalibrate {sensor : Nat} (h : Tidy s) : OutTidy (execSensorRecalibrate sensor s) := by
  unfold Machine.execSensorRecalibrate
  dsimp only
  split <;> exact h

theorem Tidy.capClocks (h : Tidy s) : Tidy s.capClocks := by
  unfold State.capClocks
  refine h.foldl (fun s1 x h1 => ?_)
  dsimp only
  split
  · exact h1.setColumn
  · exact h1

theorem Tidy.applyPmode (h : Tidy s) : Tidy s.applyPmode := Tidy.capClocks h

theorem Tidy.execPmodeWrite {v : BitVec 64} (h : Tidy s) : OutTidy (execPmodeWrite v s) := by
  unfold Machine.execPmodeWrite
  dsimp only
  split
  · exact h
  · exact Tidy.applyPmode h

theorem Tidy.execPowerLimitExceeded (h : Tidy s) : OutTidy (execPowerLimitExceeded s) := h.foldl (fun _ _ h1 => h1.setColumn)

theorem Tidy.execCoolantFlowLow (h : Tidy s) : OutTidy (execCoolantFlowLow s) := Tidy.logEvent (Tidy.applyPmode h)

theorem Tidy.execCoolantFlowRestored (h : Tidy s) : OutTidy (execCoolantFlowRestored s) := Tidy.applyPmode h

end Sys2Proof.Safety
end

section
/-! SUPPORT. Doorbells and admission: what Machine/Regions.lean does keeps every byte memory in canonical form. -/

namespace Sys2Proof.Safety
open Sys2Proof Sys2Proof.Machine Sys2Proof.Laws
variable {s : State}

theorem mem_tput {α : Type} {i : Nat} {x : α} {t : Tbl α} {p : Nat × α} (h : p ∈ tput i x t) : p = (i, x) ∨ p ∈ t := by
  induction t with
  | nil => simpa [tput] using h
  | cons q t ih =>
    unfold Machine.tput at h
    split at h
    · simpa using h
    · split at h
      · rcases List.mem_cons.1 h with h | h
        · exact .inl h
        · exact .inr (List.mem_cons_of_mem _ h)
      · rcases List.mem_cons.1 h with rfl | h
        · exact .inr List.mem_cons_self
        · exact (ih h).imp_right (List.mem_cons_of_mem _)

/-- The launch whose checks wait at a doorbell. -/
def DoorbellTidy (d : Doorbell) : Prop := ∀ l ∈ d.held, LaunchCanonical l

theorem tget_tidy {region : Nat} {t : Tbl Doorbell} (h : ∀ p ∈ t, DoorbellTidy p.2) : DoorbellTidy (tget .reset t region) := by
  induction t with
  | nil => exact fun _ hl => nomatch hl
  | cons p t ih =>
    unfold Machine.tget
    split
    · exact h p List.mem_cons_self
    · exact ih fun q hq => h q (List.mem_cons_of_mem _ hq)

theorem Tidy.doorbell {region : Nat} (h : Tidy s) : DoorbellTidy (s.doorbell region) := tget_tidy h.sched.2

theorem Tidy.setDoorbell {region : Nat} {d : Doorbell} (h : Tidy s) (hd : DoorbellTidy d) : Tidy (s.setDoorbell region d) :=
  h.setSched ⟨h.sched.1, fun p hp => by
    rcases mem_tput hp with rfl | hp
    · exact hd
    · exact h.sched.2 p hp⟩

theorem Tidy.tailWrite {region t : Nat} (h : Tidy s) : Tidy (s.tailWrite region t) := by
  unfold State.tailWrite
  dsimp only
  split
  · exact Tidy.wantPass (h.setDoorbell h.doorbell)
  · exact h.setDoorbell h.doorbell

theorem Tidy.execTailWrite {region t : BitVec 16} (h : Tidy s) : OutTidy (execTailWrite region t s) := h.tailWrite

theorem Tidy.execTerrClear {region : BitVec 16} (h : Tidy s) : OutTidy (execTerrClear region s) := h.setDoorbell h.doorbell

theorem Tidy.takeRcba {region rcba : Nat} (h : Tidy s) : Tidy (s.takeRcba region rcba) := by
  unfold State.takeRcba
  dsimp only
  split
  · exact h
  · exact h.setDoorbell h.doorbell

theorem Tidy.execLiveOn {region : BitVec 16} {rcba : BitVec 44} (h : Tidy s) : OutTidy (execLiveOn region rcba s) := by
  unfold Machine.execLiveOn
  dsimp only
  split
  · exact h
  · exact h.takeRcba.setDoorbell fun _ hl => nomatch hl

theorem Tidy.execLiveOff {region : BitVec 16} (h : Tidy s) : OutTidy (execLiveOff region s) := h.setDoorbell h.doorbell

theorem Tidy.execRcbaWrite {region : BitVec 16} {rcba : BitVec 44} (h : Tidy s) : OutTidy (execRcbaWrite region rcba s) := h.takeRcba

theorem Tidy.applyLaunch (h : Tidy s) : Tidy s.applyLaunch := by
  unfold State.applyLaunch
  split
  · exact h
  · split
    · exact h
    · dsimp only
      split
      · exact h.modEng.tailWrite
      · exact h.modEng.setCur h.modEng.cur.defer

theorem Tidy.execLaunchRequestApply {tile : Nat} (h : Tidy s) : OutTidy (execLaunchRequestApply tile s) :=
  (h.onTask (fun _ h1 => h1.applyLaunch)).onContexts (fun _ h1 => h1.applyLaunch)

theorem Tidy.schedRead {id : Nat} {e : Effective} {va n : Nat} (h : Tidy s) : Tidy (s.schedRead id e va n).2 := by
  unfold State.schedRead
  split
  · exact h.spans.snd ‹_›
  · split
    · exact (h.spans.snd ‹_›).queueAt
    · dsimp only
      exact (h.spans.snd ‹_›).passPort.countBeats

theorem Tidy.readPart {l : Launch} {k va n : Nat} (h : Tidy s) : Tidy (s.readPart l k va n).2 := by
  unfold State.readPart
  split
  · exact h
  · exact h.schedRead

theorem Tidy.readTaskImage {l : Launch} (h : Tidy s) : Tidy (s.readTaskImage l).2 := by
  unfold State.readTaskImage
  split
  · exact h.readPart.snd ‹_›
  · dsimp only
    split
    · exact h.readPart.snd ‹_›
    · split
      · exact (h.readPart.snd ‹_›).readPart.snd ‹_›
      · split
        · exact (h.readPart.snd ‹_›).readPart.snd ‹_›
        · split
          · exact (h.readPart.snd ‹_›).readPart.snd ‹_›
          · split
            · exact (h.readPart.snd ‹_›).readPart.snd ‹_›
            · split
              · exact ((h.readPart.snd ‹_›).readPart.snd ‹_›).readPart.snd ‹_›
              · split <;> exact (((h.readPart.snd ‹_›).readPart.snd ‹_›).readPart.snd ‹_›).readPart.snd ‹_›

theorem Tidy.readLaunch {l : Launch} (h : Tidy s) : Tidy (s.readLaunch l).2 := by
  unfold State.readLaunch
  split
  · exact h.readTaskImage.snd ‹_›
  · split <;> exact (h.readTaskImage.snd ‹_›).schedRead.snd ‹_›

theorem LaunchCanonical.launchOf {id region : Nat} {e : Effective} {b : List Byte} {thr tick : Nat} :
    LaunchCanonical (launchOf id region e b thr tick) :=
  .empty rfl rfl

theorem LaunchCanonical.refuse {l : Launch} {st : Status} {recbad imgbad : Bool} {info : W64} (h : LaunchCanonical l) :
    LaunchCanonical (l.refuse st recbad imgbad info) :=
  h

theorem Tidy.completionPlace {l : Launch} {va n : Nat} (h : Tidy s) : Tidy (s.completionPlace l va n).2 := by
  unfold State.completionPlace
  split
  · exact h
  · split
    · split
      · exact h.spans.snd ‹_›
      · exact (h.spans.snd ‹_›).logEvent
    · split
      · exact (h.spans.snd ‹_›).queueAt
      · exact h.spans.snd ‹_›

theorem Tidy.writeSpans {sps : List Span} {bs : List Byte} (h : Tidy s) : Tidy (s.writeSpans sps bs) :=
  h.passPort.countBeats.foldl (fun _ _ h1 => h1.homeWrite)

theorem Tidy.advanceQhead {region : Nat} (h : Tidy s) : Tidy (s.advanceQhead region) := by
  unfold State.advanceQhead
  extract_lets q a s1
  have h1 : Tidy s1 := h.homeWrite.countLocal
  exact h1.setDoorbell h1.doorbell

/-- The state that an answer of either kind holds is tidy. -/
def EitherTidy : Except State State → Prop
  | .ok s | .error s => Tidy s

theorem EitherTidy.ok {t : State} {r : Except State State} (h : EitherTidy r) (e : r = .ok t) : Tidy t := by
  subst e
  exact h

theorem EitherTidy.error {t : State} {r : Except State State} (h : EitherTidy r) (e : r = .error t) : Tidy t := by
  subst e
  exact h

theorem Tidy.complete {l : Launch} (h : Tidy s) : EitherTidy (s.complete l) := by
  unfold State.complete
  split
  · exact h
  · split
    next e =>
      have h1 := h.completionPlace.snd e
      exact (h.setMem h1.mem).setMgmt h1.mgmt
    next e =>
      have h1 := h.completionPlace.snd e
      split
      next e =>
        have h2 := h1.completionPlace.snd e
        exact (h.setMem h2.mem).setMgmt h2.mgmt
      next e =>
        have h2 := h1.completionPlace.snd e
        extract_lets s3 s4
        have h3 : Tidy s3 := by
          unfold s3
          split
          · exact h2.writeSpans
          · exact h2
        have h4 : Tidy s4 := by
          unfold s4
          split
          · extract_lets
            exact h3.countBeats.writeSpans
          · exact h3
        exact h4.advanceQhead

theorem Tidy.openRun {region : Nat} {rcb : List Byte} (h : Tidy s) : Tidy (s.openRun region rcb) := by
  unfold State.openRun
  dsimp only
  split
  · exact h
  · split
    · exact h
    · exact Tidy.setDoorbell (h.foldl fun _ _ h => h.countLocal) h.doorbell

/-- The state that a judgement leaves is tidy, and so is the launch that it takes. -/
def AdmitTidy (p : Admit × State) : Prop :=
  Tidy p.2 ∧ match p.1 with
    | .take l => LaunchCanonical l
    | _ => True

theorem AdmitTidy.take {l : Launch} {t : State} {p : Admit × State} (h : AdmitTidy p) (e : p = (.take l, t)) :
    Tidy t ∧ LaunchCanonical l := by
  subst e
  exact h

theorem Tidy.judgeImage {region : Nat} {l : Launch} (h : Tidy s) (hl : LaunchCanonical l) : AdmitTidy (s.judgeImage region l) := by
  unfold State.judgeImage
  split
  · exact ⟨Tidy.setDoorbell (h.readLaunch.snd ‹_›) fun m hm => Option.some.inj hm ▸ hl, trivial⟩
  · exact ⟨h.readLaunch.snd ‹_›, hl⟩
  · exact ⟨h.readLaunch.snd ‹_›, hl⟩

theorem Tidy.judgeRecord {region : Nat} {rcb : List Byte} {e : Effective} (h : Tidy s) : AdmitTidy (s.judgeRecord region rcb e) := by
  unfold State.judgeRecord
  extract_lets a unread s1 d rec_ l
  clear_value unread
  have h1 : Tidy s1 := .ite h h.openRun
  have hl : LaunchCanonical l := .launchOf
  split
  · exact ⟨h1, hl⟩
  · split
    · exact ⟨h1, hl⟩
    · split
      · exact ⟨h1, hl⟩
      · exact h1.judgeImage hl

theorem Tidy.judge {region : Nat} (h : Tidy s) : AdmitTidy (s.judge region) := by
  have hk : AdmitTidy (.hold, s) := ⟨h, trivial⟩
  have hh : ∀ {cause}, AdmitTidy (.halt cause, s) := ⟨h, trivial⟩
  unfold State.judge
  extract_lets d
  split
  · exact hk
  · split
    · exact hk
    · split
      · exact hh
      · split
        · exact hk
        · split
          · exact hh
          · split
            · exact hk
            · exact hh
            · split
              · exact hh
              · split
                · exact hh
                · split
                  · exact hk
                  · split
                    · exact h.judgeImage (h.doorbell _ ‹_›)
                    · split
                      · exact hk
                      · exact (Tidy.foldl h fun _ _ h => h.countLocal).countLocal.judgeRecord

theorem Tidy.dropLaunches {p : Launch → Bool} (h : Tidy s) :
    Tidy { s with sched := { s.sched with launches := s.sched.launches.filter p } } :=
  h.setLaunches fun l hl => h.sched.1 l (List.mem_filter.1 hl).1

theorem Tidy.retireRefused {l : Launch} (h : Tidy s) : Tidy (s.retireRefused l) := by
  unfold State.retireRefused
  split
  · exact (h.complete.ok ‹_›).dropLaunches.wantPass
  · exact h.complete.error ‹_›

theorem Tidy.admitOne {region : Nat} (h : Tidy s) : Tidy (s.admitOne region).2 := by
  unfold State.admitOne
  have hj := h.judge (region := region)
  split
  · exact hj.1.snd ‹_›
  · exact (hj.1.snd ‹_›).haltRcb.logEvent
  · obtain ⟨h', hl⟩ := hj.take ‹_›
    extract_lets d at_ run s1 l' id' _ s2 s3
    have h1 : Tidy s1 := h'.setDoorbell fun _ hm => nomatch hm
    have h2 : Tidy s2 := h1.setLaunches (List.forall_mem_append.2 ⟨h1.sched.1, List.forall_mem_singleton.2 hl⟩)
    have h3 : Tidy s3 := h2.faultPolicy
    exact .ite h3.retireRefused h3

theorem Tidy.admitRegion {region fuel : Nat} (h : Tidy s) : Tidy (s.admitRegion region fuel) := by
  induction fuel generalizing s with
  | zero => exact h
  | succ n ih =>
    unfold State.admitRegion
    split
    · exact h.admitOne.snd ‹_›
    · exact ih (h.admitOne.snd ‹_›)

theorem Tidy.admitAll (h : Tidy s) : Tidy s.admitAll := by
  unfold State.admitAll
  refine h.foldl (fun s1 x h1 => ?_)
  split
  · exact h1.admitRegion
  · exact h1

end Sys2Proof.Safety
end

section
/-! SUPPORT. Stops, saves and restores: what Machine/Stops.lean does keeps every byte memory in canonical form. -/

namespace Sys2Proof.Safety
open Sys2Proof Sys2Proof.Machine Sys2Proof.Laws
variable {s : State}

theorem Tidy.dropDeficits (h : Tidy s) : Tidy s.dropDeficits := h

theorem Tidy.leaveGrid {id : Nat} (h : Tidy s) : Tidy (s.leaveGrid id) := by
  have hu : TaskCanonical (if s.cur.bnd.launch = id then .blank else s.cur) := .ite .blank h.cur
  exact (h.setCur hu).setParked fun t ht => h.parked t (List.mem_filter.1 ht).1

theorem TaskCanonical.startTask {l : Launch} {img : Image} {tile tx ty errs : Nat} : TaskCanonical (l.startTask img tile tx ty errs) :=
  wf_putBytes (wf_putBytes wf_nil _ _) _ _

theorem Tidy.setPstate {ptile v : Nat} (h : Tidy s) : Tidy (s.setPstate ptile v) := h

theorem Tidy.setRemap {tile : Nat} {e : RemapEntry} (h : Tidy s) : Tidy (s.setRemap tile e) := h

theorem Tidy.setTstate {ptower v : Nat} (h : Tidy s) : Tidy (s.setTstate ptower v) := h

theorem wf_foldl_put {α : Type} {l : List α} {k : α → Nat} {v : α → Byte} {m : Memory} (h : Memory.wf m = true) :
    Memory.wf (l.foldl (fun m c => m.put (k c) (v c)) m) = true :=
  List.foldlRecOn (motive := fun m => Memory.wf m = true) _ _ h fun _ hm _ _ => wf_put hm _ _

theorem Tidy.moveTower {src dst : Nat} (h : Tidy s) : Tidy (s.moveTower src dst) := by
  unfold State.moveTower
  split
  · exact h
  · extract_lets a b cells full bad s1 s2
    have h1 : Tidy s1 := by
      unfold s1
      split
      · exact h.endDeferral.putDeferral
      · exact h
    have h2 : Tidy s2 := h1.clearRows.clearRows
    exact h2.setTowers (wf_foldl_put h2.mem.towers)

theorem Tidy.moveTile {tile px : Nat} (h : Tidy s) : Tidy (s.moveTile tile px) := by
  unfold State.moveTile
  dsimp only
  exact (h.foldl (fun s1 x h1 => h1.moveTower)).setRemap

theorem Tidy.replaceTile {tile : Nat} (h : Tidy s) : Tidy (s.replaceTile tile) := by
  unfold State.replaceTile
  dsimp only
  split
  · exact h.moveTile.wantPass
  · exact h.setRemap.wantPass

theorem Tidy.fencePtile {tile pst : Nat} (h : Tidy s) : Tidy (s.fencePtile tile pst) := by
  unfold State.fencePtile
  dsimp only
  split
  · exact h.setPstate.wantPass.replaceTile
  · exact h.setPstate.wantPass

theorem Tidy.setTmap {ptile i p : Nat} (h : Tidy s) : Tidy (s.setTmap ptile i p) := by
  unfold State.setTmap
  dsimp only
  exact h

theorem Tidy.switchFailed {tile : Nat} (h : Tidy s) : Tidy (s.switchFailed tile) := by
  unfold State.switchFailed
  dsimp only
  refine h.foldl (fun s1 x h1 => ?_)
  split
  · split
    · split
      · exact h1.setTmap.wantPass
      · exact h1
    · exact h1
  · exact h1

theorem Tidy.abandonCopies {tiles : List Nat} (h : Tidy s) : Tidy (s.abandonCopies tiles) := h

theorem TaskCanonical.again {t : Task} {l : Launch} {img : Image} {stopped : Bool} : TaskCanonical (l.again img t stopped) :=
  TaskCanonical.startTask (l := l) (img := img) (tile := t.bnd.tile) (tx := t.bnd.tx) (ty := t.bnd.ty) (errs := t.bnd.hwErrs + 1)

theorem Tidy.landOwned {launch tile fuel : Nat} (h : Tidy s) : Tidy (s.landOwned launch tile fuel) := by
  induction fuel generalizing s with
  | zero => exact h
  | succ n ih =>
    unfold State.landOwned
    refine ih (h.foldl (fun s1 x h1 => ?_))
    split
    · split
      · exact h1.landPacket
      · exact h1
    · exact h1

theorem Tidy.finishRow {launch tile fuel : Nat} (h : Tidy s) : Tidy (s.finishRow launch tile fuel) := by
  induction fuel generalizing s with
  | zero => exact h
  | succ n ih =>
    unfold State.finishRow
    split
    · exact ih h.bcStep
    · exact h

theorem Tidy.finishCut {tile fuel : Nat} (h : Tidy s) : Tidy (s.finishCut tile fuel) := by
  induction fuel generalizing s with
  | zero => exact h
  | succ n ih =>
    unfold State.finishCut
    split
    · exact h
    · split
      · exact h
      · exact ih (Tidy.onTask (h.foldl (fun s1 x h1 => h1.streamStep)) (fun s1 h1 => h1.copyStep))

theorem Tidy.finishUnits {launch tile : Nat} (h : Tidy s) : Tidy (s.finishUnits launch tile) := by
  unfold State.finishUnits
  dsimp only
  exact (h.landOwned.finishRow.onTile (fun t h1 => h1.discardEngines)).finishCut

theorem Tidy.reexec {tile pst : Nat} (h : Tidy s) : SomeTidy (s.reexec tile pst) := by
  unfold State.reexec
  split
  · trivial
  · split
    · trivial
    · split
      · extract_lets s1 s2 s3 u s4
        have h1 : Tidy s1 := h.finishUnits
        have h2 : Tidy s2 := Tidy.abandonCopies h1.setNet
        have h3 : Tidy s3 := h2.setPstate.moveTile.clearLease.endDeferrals
        have h4 : Tidy s4 := h3.onTile fun t ht => .ite .again ht
        clear_value s4
        refine Tidy.wantPass ?_
        refine h4.modLaunch fun l hl => ⟨hl.1, hl.2⟩
      · trivial

theorem Tidy.takePending (h : Tidy s) : Tidy s.takePending := by
  unfold State.takePending
  split
  · exact h
  · extract_lets s1
    have h1 : Tidy s1 := h.endLock.modSeq
    split
    · exact (SomeTidy.guard h1.reexec).some ‹_›
    · exact Tidy.takeFault (.ite h1 h1.stallBoundary)

theorem TaskCanonical.freeze {t : Task} (h : TaskCanonical t) : TaskCanonical t.freeze := by
  unfold Task.freeze
  split <;> exact h

theorem TaskCanonical.goOn {t : Task} {away : Nat} (h : TaskCanonical t) : TaskCanonical (t.goOn away) := by
  unfold Task.goOn
  split <;> exact h

theorem Tidy.modTasks {id : Nat} {f : Machine.Task → Machine.Task} (h : Tidy s) (hf : ∀ t, TaskCanonical t → TaskCanonical (f t)) :
    Tidy (s.modTasks id f) := by
  unfold State.modTasks
  refine h.mapTasks (fun t h1 => ?_)
  split
  · exact hf _ h1
  · exact h1

theorem Tidy.markGroups {t : Machine.Task} (h : Tidy s) : Tidy (t.markGroups s) := h.foldl (fun _ _ h1 => h1.markGroup)

theorem Tidy.stopLaunch {why : StopWhy} {id : Nat} (h : Tidy s) : Tidy (s.stopLaunch why id) := by
  unfold State.stopLaunch
  extract_lets s1
  have h1 : Tidy s1 := h.foldl (fun s2 t h1 => h1.onTask (fun s3 h2 => h2.takePending))
  split
  · exact h1
  · split
    · extract_lets s2 _ s3
      have h2 : Tidy s2 := by
        unfold s2
        split
        · exact h1.abandonCopies
        · exact h1
      have h3 : Tidy s3 := h2.foldl (fun s4 t h3 => h3.markGroups)
      exact (h3.modTasks (fun t h4 => h4.freeze)).modLaunch (fun l h4 => h4)
    · exact h1

theorem Tidy.startStop {id : Nat} {why : StopWhy} (h : Tidy s) : Tidy (s.startStop id why) := by
  unfold State.startStop
  split
  · exact h
  · exact h.foldl (fun s1 l h1 => h1.stopLaunch)

theorem Tidy.execStopRequest {launch : Nat} {why : StopWhy} (h : Tidy s) : OutTidy (execStopRequest launch why s) := h.startStop

theorem Tidy.withdraw {launch tile : Nat} (h : Tidy s) : Tidy (s.withdraw launch tile) := by
  unfold State.withdraw
  dsimp only
  exact h.landOwned.modLaunch (fun l h1 => h1)

theorem Tidy.fabTurn {launch : Nat} {mine : Nat → Bool} {old new : Nat} (h : Tidy s) : Tidy (s.fabTurn launch mine old new) := h

theorem Tidy.ack {tile : Nat} {e : EngineUnit} (h : Tidy s) : Tidy (s.ack tile e) := by
  unfold State.ack
  split
  · exact h
  · split
    · exact h
    · split
      · exact h
      · dsimp only
        refine Tidy.modLaunch ?_ (fun l h1 => h1)
        split
        · exact h.withdraw
        · exact h.fabTurn
        · exact h

theorem Tidy.execEngineStopAck {tile : Nat} {e : EngineUnit} (h : Tidy s) : OutTidy (execEngineStopAck tile e s) := h.ack

theorem Tidy.stopRecord {why : StopWhy} {t : Machine.Task} (h : Tidy s) : Tidy (s.stopRecord why t) := h.emitRec

theorem Tidy.endAborted {id : Nat} (h : Tidy s) : Tidy (s.endAborted id) := by
  unfold State.endAborted
  split
  · split
    · exact h.endLaunch
    · exact h
  · exact h

theorem Tidy.saveInstead {l : Launch} (h : Tidy s) : Tidy (s.saveInstead l) := h.abandonCopies.modLaunch (fun _ h1 => h1)

theorem Tidy.resumeLaunch {id : Nat} (h : Tidy s) : Tidy (s.resumeLaunch id) := by
  unfold State.resumeLaunch
  split
  · exact h
  · split
    · exact h.saveInstead.endAborted
    · extract_lets _ s1 _ s2
      have h1 : Tidy s1 := Tidy.fabTurn (h.modTasks (fun t h1 => h1.goOn))
      have h2 : Tidy s2 := h1
      exact Tidy.endAborted (h2.modLaunch (fun l h3 => h3))

theorem Tidy.resumeIdle (h : Tidy s) : Tidy s.resumeIdle := by
  unfold State.resumeIdle
  dsimp only
  exact h.foldl (fun s1 l h1 => h1.resumeLaunch)

theorem Tidy.finishStop {l : Launch} (h : Tidy s) : Tidy (s.finishStop l) := by
  unfold State.finishStop
  extract_lets s1 s2
  have h1 : Tidy s1 := by
    unfold s1
    refine h.foldl (fun s3 t h1 => ?_)
    split
    · exact h1.stopRecord
    · exact h1
  have h2 : Tidy s2 := h1.modLaunch (fun l1 h2 => h2)
  exact h2.endAborted

theorem Tidy.execStopComplete {launch : Nat} (h : Tidy s) : OutTidy (execStopComplete launch s) := by
  unfold Machine.execStopComplete
  split
  · exact h
  · dsimp only
    split
    · exact (h.foldl (fun s1 l h1 => h1.finishStop)).resumeIdle
    · exact h

theorem Tidy.saveTimeout {l : Launch} {late : List Nat} (h : Tidy s) : Tidy (s.saveTimeout l late) := by
  unfold State.saveTimeout
  extract_lets s1
  have h1 : Tidy s1 := by
    refine (h.modTasks fun t ht => ?_).modLaunch fun l hl => hl.mapContexts fun t ht => ?_
    all_goals split <;> exact ht
  exact h1.endLaunch.foldl fun _ _ h => h.fencePtile

theorem Tidy.execStopDeadline {launch : Nat} (h : Tidy s) : OutTidy (execStopDeadline launch s) := by
  unfold Machine.execStopDeadline
  split
  · exact h
  · split
    · exact h.saveTimeout
    · exact h

/-- Rows saved so far, beside the state that they leave. -/
def SavedTidy (p : SavedRows × State) : Prop := Memory.wf p.1.bytes = true ∧ Tidy p.2

theorem Tidy.saveRows {tile lo hi : Nat} (h : Tidy s) : SavedTidy (s.saveRows tile lo hi) :=
  List.foldlRecOn (motive := SavedTidy) _ _ ⟨wf_nil, h⟩ fun _ hp _ _ => ⟨wf_foldl_put hp.1, hp.2.clearRows⟩

theorem Tidy.loadRows {r : SavedRows} (h : Tidy s) : Tidy (s.loadRows r) :=
  h.setTowers (wf_foldl_put h.mem.towers)

theorem Tidy.saveUpTo {id tile hi : Nat} (h : Tidy s) : Tidy (s.saveUpTo id tile hi) := by
  unfold State.saveUpTo
  split
  · exact h
  · extract_lets lo
    split
    · exact h
    · split
      next r s' e =>
      obtain ⟨hr, h1⟩ : SavedTidy (r, s') := e ▸ h.saveRows
      exact h1.modLaunch fun l hl => ⟨hl.1, List.forall_mem_append.2 ⟨hl.2, List.forall_mem_singleton.2 hr⟩⟩

theorem TaskCanonical.kept {t : Task} (h : TaskCanonical t) : TaskCanonical t.kept := h

theorem Tidy.launchTasks {id : Nat} (h : Tidy s) : ∀ t ∈ s.launchTasks id, TaskCanonical t := fun t ht =>
  List.forall_mem_cons.2 ⟨h.cur, h.parked⟩ t (List.mem_filter.1 ht).1

theorem Tidy.saveLaunch {l : Launch} (h : Tidy s) : Tidy (s.saveLaunch l) := by
  unfold State.saveLaunch
  extract_lets s1 ctxs dfs s2 xf _ s3
  have h1 : Tidy s1 := h.dropDeficits.abandonCopies.foldl fun _ _ h => h.drainTile.saveUpTo
  have h2 : Tidy s2 := h1.foldl fun _ _ h => h.endDeferrals
  have h3 : Tidy s3 := h2
  have hc : ∀ t ∈ ctxs, TaskCanonical t := List.forall_mem_map.2 fun t ht => (h1.launchTasks t ht).kept
  exact Tidy.endAborted <| Tidy.wantPass <| h3.leaveGrid.modLaunch fun l hl => ⟨hc, hl.2⟩

theorem Tidy.execSaveComplete {launch : Nat} (h : Tidy s) : OutTidy (execSaveComplete launch s) := by
  unfold Machine.execSaveComplete
  split
  · exact h
  · split
    · exact h.saveLaunch
    · exact h

theorem Tidy.execSaveDeadline {launch : Nat} (h : Tidy s) : OutTidy (execSaveDeadline launch s) := by
  unfold Machine.execSaveDeadline
  split
  · exact h
  · split
    · exact h.saveTimeout
    · exact h

theorem Tidy.reload {l : Launch} (h : Tidy s) : Tidy (s.reload l).2 := by
  unfold State.reload
  split <;> exact h.readTaskImage.snd ‹_›

theorem Tidy.reloadFailed {id : Nat} {va : W64} (h : Tidy s) : Tidy (s.reloadFailed id va) := Tidy.endLaunch (h.modLaunch (fun _ h1 => h1))

theorem Tidy.tlbFor {tile : Nat} {asid : BitVec 14} (h : Tidy s) : Tidy (s.tlbFor tile asid) := by
  unfold State.tlbFor
  split <;> exact h

theorem Tidy.restoreLaunch {l : Launch} (h : Tidy s) (hl : LaunchCanonical l) : Tidy (s.restoreLaunch l) := by
  unfold State.restoreLaunch
  extract_lets ctxs s1 s2 s3 s4 s5 s6
  have h1 : Tidy s1 := h.foldl fun _ _ h => h.tlbFor
  have h2 : Tidy s2 := h1.foldl fun _ _ h => h.loadRows
  have h3 : Tidy s3 := h2.foldl fun _ _ h => h.putDeferral
  have h4 : Tidy s4 := h3.setParked (List.forall_mem_append.2 ⟨h3.parked, List.forall_mem_map.2 hl.1⟩)
  have h5 : Tidy s5 := h4.foldl fun _ _ h => h
  have h6 : Tidy s6 := h5.modLaunch fun _ _ => .empty rfl rfl
  split
  · exact Tidy.endAborted <| h6.modLaunch fun _ hl => hl
  · exact h6.resumeLaunch

theorem Tidy.reloadStores {l : Launch} (h : Tidy s) : Tidy (s.reloadStores l) := by
  unfold State.reloadStores
  split
  · exact h
  · split
    · exact (h.reload.snd ‹_›).modLaunch (fun l1 h1 => h1)
    · exact (h.reload.snd ‹_›).reloadFailed
    · exact (h.reload.snd ‹_›).modLaunch (fun l1 h1 => h1)

theorem LaunchCanonical.startStep2 {l : Launch} {tick : Nat} (h : LaunchCanonical l) : LaunchCanonical (l.startStep2 tick) := by
  unfold Launch.startStep2
  exact ⟨h.1, h.2⟩

theorem Tidy.execRestore {launch : Nat} (h : Tidy s) : OutTidy (execRestore launch s) := by
  unfold Machine.execRestore
  split
  · exact h
  · split
    · exact h
    · extract_lets _ s1 _ s2
      have h1 : Tidy s1 := h.foldl (fun s3 l h1 => h1.reloadStores)
      have h2 : Tidy s2 := by
        unfold s2
        split
        · exact h1
        · exact h1.foldl (fun s3 l h2 => h2.modLaunch (fun l1 h3 => h3.startStep2))
      split
      · exact h1
      · split
        · exact h2.foldl_mem (fun s3 l hl h3 => h3.restoreLaunch (h2.sched.1 l (List.mem_filter.1 hl).1))
        · exact h2

theorem Tidy.execRestoreDeadline {launch : Nat} (h : Tidy s) : OutTidy (execRestoreDeadline launch s) := by
  unfold Machine.execRestoreDeadline
  split
  · exact h
  · split
    · exact h.saveTimeout
    · exact h

theorem Tidy.execMigrationStart {tile px : Nat} (h : Tidy s) : OutTidy (execMigrationStart tile px s) := by
  unfold Machine.execMigrationStart
  split
  · exact h
  · split
    · exact h
    · split <;> exact h

theorem Tidy.clearHeld {l : Launch} {tile : Nat} (h : Tidy s) : Tidy (s.clearHeld l tile) := by
  unfold State.clearHeld
  refine h.foldl (fun s1 x h1 => ?_)
  split
  · exact h1.clearRows

theorem Tidy.contextError {l : Launch} {tile : Nat} (h : Tidy s) : Tidy (s.contextError l tile) := by
  unfold State.contextError
  split
  · exact h
  · split
    · refine Tidy.modLaunch h.clearHeld.setNet fun l hl => ⟨List.forall_mem_map.2 fun t ht => ?_, List.forall_mem_map.2 fun r hr => ?_⟩
      · exact .ite .again (hl.1 t ht)
      · split
        · exact wf_nil
        · exact hl.2 r hr
    · exact h.endLaunch.dropDeficits

theorem Tidy.areaError {l : Launch} {tile pst : Nat} (h : Tidy s) : Tidy (s.areaError l tile pst) := by
  unfold State.areaError
  split
  · exact h
  · split
    · split
      · exact h.fencePtile.contextError
      · exact h.abandonCopies.setPstate.moveTile.wantPass.contextError
    · exact h.endLaunch.dropDeficits

theorem TaskCanonical.meetHw {t : Task} (h : TaskCanonical t) : TaskCanonical t.meetHw := by
  unfold Task.meetHw
  dsimp only
  exact h.deferHw

theorem Tidy.hwError {tile pst : Nat} (h : Tidy s) : Tidy (s.hwError tile pst) := by
  unfold State.hwError
  split
  · exact h.reexec.some ‹_›
  · refine h.onTile (fun t h1 => ?_)
    split
    · exact h1.meetHw
    · exact h1

theorem Tidy.towerFailed {tile i : Nat} (h : Tidy s) : Tidy (s.towerFailed tile i) := by
  unfold State.towerFailed
  extract_lets _ _ s1 s2
  have h1 : Tidy s1 := by
    unfold s1
    split
    · exact h.setTstate.reexec.some ‹_›
    · split
      · exact h.setTstate.hwError
      · exact h.setTstate
  have h2 : Tidy s2 := by
    unfold s2
    refine h1.foldl (fun s3 l h2 => ?_)
    split
    · exact h2.areaError
    · exact h2.contextError
  split
  · exact h2
  · exact h2.switchFailed

theorem Tidy.execHardwareError {tile : Nat} {k : HwError} (h : Tidy s) : OutTidy (execHardwareError tile k s) := by
  unfold Machine.execHardwareError
  refine Tidy.resumeIdle ?_
  split
  · exact h.logEvent
  · refine h.onTile (fun t h1 => ?_)
    split
    · exact h1.meetHw
    · exact h1
  · split
    · exact h.areaError
    · exact h.hwError
  · exact h.towerFailed
  · split
    · exact h.reexec.some ‹_›
    · exact h.hwError.fencePtile
  · exact h.hwError

theorem Tidy.copyReadError {tile i : Nat} (h : Tidy s) : Tidy (s.copyReadError tile i) := by
  unfold State.copyReadError
  dsimp only
  refine (Tidy.foldl ?_ (fun s1 l h1 => ?_)).resumeIdle
  · split
    · exact h.abandonCopies.hwError
    · exact h.abandonCopies
  · split
    · exact h1.areaError
    · exact h1.contextError

theorem Tidy.migrate {l : Launch} {tile px : Nat} (h : Tidy s) : Tidy (s.migrate l tile px) := by
  unfold State.migrate
  split
  · exact (h.reload.snd ‹_›).modLaunch (fun l1 h1 => h1)
  · exact (h.reload.snd ‹_›).reloadFailed
  · extract_lets _ s1 s2 s3
    have h1 : Tidy s1 := by
      unfold s1
      split
      · refine (h.reload.snd ‹_›).foldl (fun s4 t h1 => ?_)
        split
        · exact h1.stopRecord
        · exact h1
      · exact h.reload.snd ‹_›
    have h2 : Tidy s2 := h1.moveTile.abandonCopies.wantPass.modLaunch (fun l1 h2 => h2)
    have h3 : Tidy s3 := by
      unfold s3
      split
      · refine h2.onTile (fun t h3 => ?_)
        split <;> exact h3
      · exact h2
    split
    · exact h3
    · exact h3.foldl (fun s4 l1 h4 => h4.resumeLaunch)

theorem Tidy.execMigrationSwitch {tile : Nat} (h : Tidy s) : OutTidy (execMigrationSwitch tile s) := by
  unfold Machine.execMigrationSwitch
  split
  · split
    · split
      · exact h
      · split
        · exact h.copyReadError
        · split
          · exact h.migrate
          · exact h.abandonCopies.resumeIdle
    · exact h
  · exact h

theorem Tidy.execTowerSwitchIn {tile : Nat} {tower : BitVec 3} (h : Tidy s) : OutTidy (execTowerSwitchIn tile tower s) := by
  unfold Machine.execTowerSwitchIn
  extract_lets _ _ s1
  have h1 : Tidy s1 := by
    unfold s1
    split
    · exact h.setTstate
    · exact h
  split
  · exact h1
  · split <;> exact h1

theorem Tidy.execCopySwitch {tile : Nat} {tower : BitVec 3} (h : Tidy s) : OutTidy (execCopySwitch tile tower s) := by
  unfold Machine.execCopySwitch
  split
  · exact h
  · dsimp only
    split
    · exact h
    · split
      · exact h.copyReadError
      · split
        · exact h.moveTower.setTmap.abandonCopies.wantPass
        · exact h.abandonCopies

theorem Tidy.execCopyWriteError {tile : Nat} (h : Tidy s) : OutTidy (execCopyWriteError tile s) := by
  unfold Machine.execCopyWriteError
  split
  · exact h
  · dsimp only
    refine Tidy.resumeIdle ?_
    split
    · exact h.abandonCopies.setTstate
    · exact h.abandonCopies.setPstate

theorem Tidy.execTileScrubDone {ptile : Nat} (h : Tidy s) : OutTidy (execTileScrubDone ptile s) := by
  unfold Machine.execTileScrubDone
  split
  · exact (h.foldl (fun s1 x h1 => h1.clearRows)).setPstate.wantPass
  · exact h

theorem Tidy.execRailFault (h : Tidy s) : OutTidy (execRailFault s) := h.foldl (fun _ _ h1 => h1.endLaunch)

end Sys2Proof.Safety
end

section
/-! SUPPORT. The scheduler: what Machine/Scheduler.lean does keeps every byte memory in canonical form. -/

namespace Sys2Proof.Safety
open Sys2Proof Sys2Proof.Machine Sys2Proof.Laws
variable {s : State}

theorem Tidy.refuseLaunch {id : Nat} {st : Status} {recbad : Bool} {info : W64} (h : Tidy s) : Tidy (s.refuseLaunch id st recbad info) := by
  unfold State.refuseLaunch
  split
  · exact h
  · exact h.faultPolicy.modLaunch (fun l h1 => h1.refuse)

theorem Tidy.readDeps {id : Nat} {e : Effective} {ds : List Dep} {n : Nat} (h : Tidy s) : Tidy (s.readDeps id e ds n).2 := by
  induction ds generalizing s n with
  | nil => exact h
  | cons d l ih =>
    unfold State.readDeps
    split
    · exact h.schedRead.snd ‹_›
    · exact ih (h.schedRead.snd ‹_›)
    · exact ih (h.schedRead.snd ‹_›)

theorem Tidy.evalDeps {l : Launch} (h : Tidy s) : Tidy (s.evalDeps l) := by
  unfold State.evalDeps
  split
  · exact h
  · split
    · exact (h.readDeps.snd ‹_›).refuseLaunch
    · split
      · exact (h.readDeps.snd ‹_›).modLaunch (fun l1 h1 => h1)
      · exact h.readDeps.snd ‹_›

theorem Tidy.makeEligible {l : Launch} (h : Tidy s) : Tidy (s.makeEligible l) := by
  unfold State.makeEligible
  dsimp only
  split
  · exact h
  · split
    · exact h.foldl (fun s1 l1 h1 => h1.refuseLaunch)
    · split
      · exact h.foldl (fun s1 l1 h1 => h1.refuseLaunch)
      · exact h.foldl (fun s1 l1 h1 => h1.modLaunch (fun l2 h2 => h2))

theorem Tidy.retest {l : Launch} (h : Tidy s) : Tidy (s.retest l) := by
  unfold State.retest
  dsimp only
  split
  · exact h
  · split
    · exact h.foldl (fun s1 l1 h1 => h1.refuseLaunch)
    · exact h.modLaunch (fun l1 h1 => h1)

theorem Tidy.age {l : Launch} (h : Tidy s) : Tidy (s.age l) := by
  unfold State.age
  dsimp only
  split
  · exact h
  · split
    · exact Tidy.wantPass (Tidy.dropDeficits (h.modLaunch (fun l1 h1 => h1)))
    · exact h

theorem Tidy.execAgingExpiry {launch : Nat} (h : Tidy s) : OutTidy (execAgingExpiry launch s) := by
  unfold Machine.execAgingExpiry
  split
  · exact h.foldl (fun s1 l h1 => h1.age)
  · exact h

theorem Tidy.execExclusionTimeout {launch : Nat} (h : Tidy s) : OutTidy (execExclusionTimeout launch s) := by
  unfold Machine.execExclusionTimeout
  split
  · exact h
  · split
    · exact h
    · split
      · dsimp only
        exact (h.foldl (fun s1 l h1 => h1.refuseLaunch)).dropDeficits.foldl (fun s1 x h1 => h1.logEvent)
      · exact h

theorem LaunchCanonical.giveUp {l : Launch} (h : LaunchCanonical l) : LaunchCanonical l.giveUp := by
  unfold Launch.giveUp
  split
  · split <;> exact h
  · exact h

theorem Tidy.giveUp {ids : List Nat} (h : Tidy s) : Tidy (s.giveUp ids) :=
  h.foldl (fun _ _ h1 => (h1.modLaunch (fun _ h2 => h2.giveUp)).endAborted)

theorem Tidy.chooseGroup {ms : List Launch} (h : Tidy s) : ∀ p ∈ s.chooseGroup ms, Tidy p.1 :=
  List.foldlRecOn (motive := fun o : Option (State × List Nat) => ∀ p ∈ o, Tidy p.1) _ _ (by rintro _ ⟨⟩; exact h) fun o ho m _ p hp => by
    obtain ⟨⟨s1, vs⟩, h1, h2⟩ := Option.bind_eq_some_iff.1 hp
    obtain ⟨⟨o', vs'⟩, -, rfl⟩ := Option.map_eq_some_iff.1 h2
    exact (ho _ h1).modLaunch fun _ hl => hl

theorem Tidy.place {ms : List Launch} (h : Tidy s) : SomeTidy (s.place ms) := by
  unfold State.place
  split
  · trivial
  · exact .map fun p hp => (h.chooseGroup p hp).dropDeficits.giveUp

theorem Tidy.press {v : Launch} (h : Tidy s) : Tidy (s.press v) := by
  unfold State.press
  dsimp only
  split
  · exact h.startStop
  · exact h.foldl (fun s1 l h1 => h1.abandonCopies.modLaunch (fun l1 h2 => h2))
  · exact h.foldl (fun s1 l h1 => h1.abandonCopies.modLaunch (fun l1 h2 => h2))
  · exact h.foldl (fun s1 l h1 => h1.modLaunch (fun l1 h2 => h2))
  · exact h

theorem Tidy.pressAll (h : Tidy s) : Tidy s.pressAll := by
  unfold State.pressAll
  dsimp only
  refine h.foldl (fun s1 l h1 => ?_)
  split
  · exact h1.press
  · exact h1

theorem SomeTidy.filter {p : State → Bool} {o : Option State} (h : SomeTidy o) : SomeTidy (o.filter p) := by
  cases o with
  | none => trivial
  | some s =>
    unfold Option.filter
    exact .guard (o := Option.some s) h

theorem Tidy.passPlace {ms : List Launch} (h : Tidy s) : SomeTidy (s.passPlace ms) := by
  unfold State.passPlace
  split
  · trivial
  · split
    · exact h.place.filter
    · exact h.place

theorem Tidy.serve {put : State → List Launch → Option State} {gs : List (List Launch)} {d : Nat} (h : Tidy s)
    (hp : ∀ s ms, Tidy s → SomeTidy (put s ms)) : Tidy (s.serve put gs d).2 := by
  induction gs generalizing s d with
  | nil => exact h
  | cons ms rest ih =>
    unfold State.serve
    split
    · exact h
    · split
      · exact ih ((hp _ _ h).some ‹_›)
      · exact ih h

theorem Tidy.visit {put : State → List Launch → Option State} {c region : Nat} (h : Tidy s)
    (hp : ∀ s ms, Tidy s → SomeTidy (put s ms)) : Tidy (s.visit put c region) := by
  unfold State.visit
  split
  · exact h
  · dsimp only
    exact h.serve hp

theorem Tidy.placeAll {put : State → List Launch → Option State} {part : State → Nat → Nat → Bool} (h : Tidy s)
    (hp : ∀ s ms, Tidy s → SomeTidy (put s ms)) : Tidy (s.placeAll put part) :=
  h.foldl fun _ _ h1 => h1.foldl fun _ _ h2 => h2.visit hp

theorem Tidy.replaceBad (h : Tidy s) : Tidy s.replaceBad := by
  unfold State.replaceBad
  refine h.foldl (fun s1 x h1 => ?_)
  split
  · split
    · exact h1.replaceTile
    · exact h1
  · exact h1

theorem Tidy.dropChosen (h : Tidy s) : Tidy s.dropChosen := h.foldl (fun _ _ h1 => h1.giveUp)

theorem Tidy.eachLaunch {f : State → Launch → State} (h : Tidy s) (hf : ∀ s l, Tidy s → LaunchCanonical l → Tidy (f s l)) :
    Tidy (s.eachLaunch f) :=
  h.foldl fun _ _ h1 => by
    split
    · exact hf _ _ h1 (h1.launch? ‹_›)
    · exact h1

theorem Tidy.schedule (h : Tidy s) : Tidy s.schedule := by
  unfold State.schedule
  extract_lets s1 _ s2 s3 s4
  have h1 : Tidy s1 := h.replaceBad.dropChosen.dropDeficits
  have h2 : Tidy s2 := h1
  have h3 : Tidy s3 :=
    ((h2.admitAll.eachLaunch fun _ _ h _ => h.evalDeps).eachLaunch fun _ _ h _ => h.makeEligible).eachLaunch fun _ _ h _ => h.retest
  have h4 : Tidy s4 := h3.dropDeficits.eachLaunch fun _ _ h _ => h.age
  exact (h4.placeAll fun _ _ h => h.passPlace).dropDeficits.pressAll

theorem Tidy.execSchedulingPass (h : Tidy s) : OutTidy (execSchedulingPass s) := h.schedule

theorem Tidy.execPassTimer (h : Tidy s) : OutTidy (execPassTimer s) := h.schedule

theorem Tidy.execDependenceChangeObserved {launch : Nat} (h : Tidy s) : OutTidy (execDependenceChangeObserved launch s) := by
  unfold Machine.execDependenceChangeObserved
  refine Tidy.schedule ?_
  split
  · exact h.evalDeps
  · exact h

theorem Tidy.saveHeld {l : Launch} (h : Tidy s) : Tidy (s.saveHeld l) := by
  unfold State.saveHeld
  refine h.foldl (fun s1 x h1 => h1.foldl (fun s2 l1 h2 => ?_))
  split
  · exact h2.saveUpTo
  · exact h2

theorem Tidy.bindLaunch {l : Launch} {img : Image} {arg : List Byte} (h : Tidy s) : Tidy (s.bindLaunch l img arg) := by
  unfold State.bindLaunch
  extract_lets s1 l1 ts _ s2
  have h1 : Tidy s1 := h.saveHeld.foldl fun _ _ h => h.tlbFor
  have h2 : Tidy s2 := h1.setParked (List.forall_mem_append.2 ⟨h1.parked, List.forall_mem_map.2 fun _ _ => .startTask⟩)
  exact h2.modLaunch fun _ hl => hl

theorem Tidy.relocate {l : Launch} (h : Tidy s) : Tidy (s.relocate l) := by
  unfold State.relocate
  extract_lets new s1 f
  split
  · exact h
  · have h1 : Tidy s1 := h.foldl fun _ _ h => h.saveUpTo
    exact Tidy.modLaunch h1.setNet fun _ hl => ⟨List.forall_mem_map.2 fun t ht => hl.1 t ht, List.forall_mem_map.2 fun r hr => hl.2 r hr⟩

theorem Tidy.beginRestore {l : Launch} (h : Tidy s) : Tidy (s.beginRestore l) := by
  unfold State.beginRestore
  dsimp only
  exact h.relocate.saveHeld.modLaunch (fun l1 h1 => h1)

theorem Tidy.readAll {ls : List Launch} (h : Tidy s) : Tidy (s.readAll ls).2 := by
  induction ls generalizing s with
  | nil => exact h
  | cons l rest ih =>
    unfold State.readAll
    split
    · exact ih h
    · split
      · exact (h.readLaunch.snd ‹_›).modLaunch fun _ hl => hl
      · exact ih (h.readLaunch.snd ‹_›)
      · exact ih (h.readLaunch.snd ‹_›)

theorem Tidy.release {ms : List Launch} (h : Tidy s) : Tidy (s.release ms) := by
  unfold State.release
  split
  · exact h.readAll.snd ‹_›
  · dsimp only
    refine ((h.readAll.snd ‹_›).foldl (fun s1 x h1 => ?_)).foldl (fun s1 l h1 => h1.beginRestore)
    split
    · exact h1.bindLaunch
    · exact h1.faultPolicy.modLaunch (fun l h2 => h2.refuse)

theorem Tidy.execLaunchRelease {launch : Nat} (h : Tidy s) : OutTidy (execLaunchRelease launch s) := by
  unfold Machine.execLaunchRelease
  split
  · exact h
  · split
    · exact h.release
    · exact h

theorem Tidy.logSlice {region : Nat} (h : Tidy s) : Tidy (s.logSlice region) := by
  unfold State.logSlice
  split
  · exact h.logEvent
  · exact h

theorem Tidy.missSlice {region : Nat} (h : Tidy s) : Tidy (s.missSlice region) := by
  unfold State.missSlice
  refine h.foldl (fun s1 x h1 => ?_)
  split
  · exact h1.giveUp
  · exact h1

theorem Tidy.logMissed {region : Nat} (h : Tidy s) : Tidy (s.logMissed region) := by
  unfold State.logMissed
  refine h.foldl (fun s1 x h1 => ?_)
  split
  · exact h1.logEvent
  · exact h1

theorem Tidy.execSliceStart {region : BitVec 16} (h : Tidy s) : OutTidy (execSliceStart region s) :=
  (h.logSlice.foldl (fun _ _ h1 => h1.missSlice)).schedule.logMissed

theorem Tidy.lead {time : Nat} (h : Tidy s) : Tidy (s.lead time) := by
  unfold State.lead
  extract_lets soon s1 got
  have h1 : Tidy s1 := h.placeAll fun _ _ h => h.place.guard
  exact .ite h1.pressAll h

theorem Tidy.execSliceLead {region : BitVec 16} (h : Tidy s) : OutTidy (execSliceLead region s) := by
  unfold Machine.execSliceLead
  dsimp only
  exact ((h.foldl (fun s1 x h1 => h1.giveUp.logEvent)).foldl (fun s1 x h1 => h1.lead)).dropDeficits

theorem Tidy.execSliceEnd {region : BitVec 16} (h : Tidy s) : OutTidy (execSliceEnd region s) :=
  h.eachLaunch fun _ _ h _ => .ite h <| .ite h.giveUp.wantPass <| .ite h.startStop.wantPass h

theorem Tidy.execWatchdogExpiry {launch : Nat} (h : Tidy s) : OutTidy (execWatchdogExpiry launch s) := by
  unfold Machine.execWatchdogExpiry
  split
  · exact h
  · split
    · split
      · refine h.onTask (fun s1 h1 => Tidy.takeTerminal ?_)
        split
        · exact h1
        · exact h1.stallBoundary
      · exact h.endLaunch
    · exact h

theorem Tidy.execAbortLaunch {launch : Nat} (h : Tidy s) : OutTidy (execAbortLaunch launch s) := by
  unfold Machine.execAbortLaunch
  split
  · exact h
  · split
    · exact h.modLaunch (fun l h1 => h1)
    · exact h.modLaunch (fun l h1 => h1)
    · exact h.modLaunch (fun l h1 => h1)
    · split
      · exact h.endLaunch
      · exact h
    · exact h.endLaunch.dropDeficits

theorem Tidy.startClear {l : Launch} (h : Tidy s) : Tidy (s.startClear l) := by
  unfold State.startClear
  split
  · exact h
  · dsimp only
    exact ((h.abandonCopies.foldl (fun s1 t h1 => h1.clearHeld)).foldl (fun s1 x h1 => h1.endDeferrals)).leaveGrid.modLaunch (fun l1 h1 => h1)

theorem Tidy.removeLaunch {l : Launch} (h : Tidy s) : Tidy (s.removeLaunch l) := Tidy.wantPass h.dropLaunches

theorem Tidy.execRetire {launch : Nat} (h : Tidy s) : OutTidy (execRetire launch s) := by
  unfold Machine.execRetire
  show Tidy _
  split
  · exact h
  · split
    · extract_lets s1
      have h1 : Tidy s1 := h.startClear
      split
      · exact h1
      · split
        · exact (h1.complete.ok ‹_›).removeLaunch
        · exact h1.complete.error ‹_›
    · exact h

theorem Tidy.execLeaseClearDone {tile : Nat} (h : Tidy s) : OutTidy (execLeaseClearDone tile s) := by
  unfold Machine.execLeaseClearDone
  show Tidy _
  split
  · exact h
  · extract_lets s1 _ s2
    have h1 : Tidy s1 := h.clearLease.switchFailed
    clear_value s1
    have h2 : Tidy s2 := by
      refine h1.setSched ⟨List.forall_mem_map.2 fun l hl => ?_, h1.sched.2⟩
      obtain ⟨hc, hr⟩ := h1.sched.1 l hl
      split <;> exact ⟨hc, hr⟩
    refine Tidy.wantPass ?_
    split
    · exact h2.replaceTile
    · exact h2

theorem Tidy.execTileFence {tile : Nat} (h : Tidy s) : OutTidy (execTileFence tile s) :=
  (h.fencePtile.eachLaunch fun _ _ h _ => h.retest).dropDeficits

theorem Tidy.execPageResolved {writes : List (Nat × BitVec 64)} (h : Tidy s) : OutTidy (execPageResolved writes s) :=
  (h.foldl (fun _ _ h1 => h1.homeWrite)).unhold

theorem Tidy.execPageUnresolvable {asid : BitVec 14} {va : Nat} (h : Tidy s) : OutTidy (execPageUnresolvable asid va s) := h.unhold

end Sys2Proof.Safety
end

section
/-! SUPPORT. Traces, filters and counters: what Machine/Observing.lean does keeps every byte memory in canonical form. -/

namespace Sys2Proof.Safety
open Sys2Proof Sys2Proof.Machine Sys2Proof.Laws
variable {s : State}

theorem Tidy.execTracePortDeliver {tile : Nat} (h : Tidy s) : OutTidy (execTracePortDeliver tile s) := by
  unfold Machine.execTracePortDeliver
  extract_lets
  split
  · exact h
  · split
    · split
      · exact h
      · exact h.setCore.enqueueCore
    · split
      · exact h
      · split
        · exact h
        · extract_lets
          exact h.setDbg.setCore.enqueueCore

theorem Tidy.appendTrace {c : Nat} {r : TraceRec} (h : Tidy s) : Tidy (s.appendTrace c r) := by
  unfold State.appendTrace
  dsimp only
  split
  · exact h.homeWrite.countLocal.setCore
  · exact h

theorem Tidy.modRun {f : FilterRun → FilterRun} (h : Tidy s) : Tidy (s.modRun f) := by
  unfold State.modRun
  dsimp only
  exact h.setCore

theorem Tidy.fltSet {d : BitVec 3} {v : W64} (h : Tidy s) : Tidy (s.fltSet d v) := h.modRun

theorem Tidy.fltBranch {taken : Bool} {imm : BitVec 32} (h : Tidy s) : Tidy (s.fltBranch taken imm) := h.modRun

theorem Tidy.execFltLdf {d : BitVec 3} {off : BitVec 32} (h : Tidy s) : OutTidy (execFltLdf d off s) := h.fltSet

theorem Tidy.execFltLdi {d : BitVec 3} {imm : BitVec 32} (h : Tidy s) : OutTidy (execFltLdi d imm s) := h.fltSet

theorem Tidy.execFltAdd {d a b : BitVec 3} (h : Tidy s) : OutTidy (execFltAdd d a b s) := h.fltSet

theorem Tidy.execFltSub {d a b : BitVec 3} (h : Tidy s) : OutTidy (execFltSub d a b s) := h.fltSet

theorem Tidy.execFltAnd {d a b : BitVec 3} (h : Tidy s) : OutTidy (execFltAnd d a b s) := h.fltSet

theorem Tidy.execFltOr {d a b : BitVec 3} (h : Tidy s) : OutTidy (execFltOr d a b s) := h.fltSet

theorem Tidy.execFltXor {d a b : BitVec 3} (h : Tidy s) : OutTidy (execFltXor d a b s) := h.fltSet

theorem Tidy.execFltShl {d a : BitVec 3} {imm : BitVec 32} (h : Tidy s) : OutTidy (execFltShl d a imm s) := h.fltSet

theorem Tidy.execFltShr {d a : BitVec 3} {imm : BitVec 32} (h : Tidy s) : OutTidy (execFltShr d a imm s) := h.fltSet

theorem Tidy.execFltAndi {d a : BitVec 3} {imm : BitVec 32} (h : Tidy s) : OutTidy (execFltAndi d a imm s) := h.fltSet

theorem Tidy.execFltAddi {d a : BitVec 3} {imm : BitVec 32} (h : Tidy s) : OutTidy (execFltAddi d a imm s) := h.fltSet

theorem Tidy.execFltBeq {a b : BitVec 3} {imm : BitVec 32} (h : Tidy s) : OutTidy (execFltBeq a b imm s) := h.fltBranch

theorem Tidy.execFltBne {a b : BitVec 3} {imm : BitVec 32} (h : Tidy s) : OutTidy (execFltBne a b imm s) := h.fltBranch

theorem Tidy.execFltBltu {a b : BitVec 3} {imm : BitVec 32} (h : Tidy s) : OutTidy (execFltBltu a b imm s) := h.fltBranch

theorem Tidy.execFltBlt {a b : BitVec 3} {imm : BitVec 32} (h : Tidy s) : OutTidy (execFltBlt a b imm s) := h.fltBranch

theorem Tidy.execFltCadd {a : BitVec 3} {imm : BitVec 32} (h : Tidy s) : OutTidy (execFltCadd a imm s) := h.bump.modRun

theorem Tidy.execFltVerd {imm : BitVec 32} (h : Tidy s) : OutTidy (execFltVerd imm s) := by
  unfold Machine.execFltVerd
  dsimp only
  refine Tidy.modRun ?_
  split
  · exact h.appendTrace
  · exact h
  · exact h.bump
  · exact h.appendTrace.assertFix

theorem Tidy.filterExec {i : Instr} (h : Tidy s) : OutTidy (filterExec i s) := by
  unfold Machine.filterExec
  split
  · exact h.execFltLdf
  · exact h.execFltLdi
  · exact h.execFltAdd
  · exact h.execFltSub
  · exact h.execFltAnd
  · exact h.execFltOr
  · exact h.execFltXor
  · exact h.execFltShl
  · exact h.execFltShr
  · exact h.execFltAndi
  · exact h.execFltAddi
  · exact h.execFltBeq
  · exact h.execFltBne
  · exact h.execFltBltu
  · exact h.execFltBlt
  · exact h.execFltCadd
  · exact h.execFltVerd
  · exact h

theorem Tidy.filterStep {c : Nat} (h : Tidy s) : Tidy (s.filterStep c) := by
  unfold State.filterStep
  dsimp only
  split
  · exact h
  · refine Tidy.setCore ?_
    split
    · exact h.outState (Tidy.filterExec h)
    · exact h

theorem Tidy.filterRecord {c : Nat} (h : Tidy s) : Tidy (s.filterRecord c) := by
  unfold State.filterRecord
  dsimp only
  split
  · exact h
  · split
    · exact h.setCore
    · exact h.setCore.filterStep

theorem Tidy.execFilterRecord {core : Nat} (h : Tidy s) : OutTidy (execFilterRecord core s) := by
  unfold Machine.execFilterRecord
  split
  · exact h.filterRecord
  · exact h

theorem Tidy.execFilterVerify {core : Nat} {n : BitVec 10} (h : Tidy s) : OutTidy (execFilterVerify core n s) := by
  unfold Machine.execFilterVerify
  dsimp only
  split
  · exact h
  · exact h.setCore

theorem Tidy.execFilterVerifyDone {core : Nat} (h : Tidy s) : OutTidy (execFilterVerifyDone core s) := by
  unfold Machine.execFilterVerifyDone
  dsimp only
  split
  · exact h
  · exact h.setCore

theorem Tidy.execCounterOverflow {off by_ : Nat} (h : Tidy s) : OutTidy (execCounterOverflow off by_ s) := by
  unfold Machine.execCounterOverflow
  split
  · exact h.bump
  · exact h

theorem Tidy.counterWrite {off : Nat} {v : W64} {inc : Nat} (h : Tidy s) : Tidy (s.counterWrite off v inc) := by
  unfold State.counterWrite
  extract_lets _ _ _ _ _ _ s1 _ s2
  have h1 : Tidy s1 := h.setCounter
  have h2 : Tidy s2 := h1
  split
  · exact h2.overflowSignal.overflowRecord
  · exact h2

theorem Tidy.execCounterWrite {off : Nat} {v : BitVec 64} {inc : Nat} (h : Tidy s) : OutTidy (execCounterWrite off v inc s) := by
  unfold Machine.execCounterWrite
  split
  · exact h.counterWrite
  · exact h

theorem Tidy.latchFix {p : FixPend} (h : Tidy s) : Tidy (s.latchFix p) := by
  unfold State.latchFix
  extract_lets _ s1
  have h1 : Tidy s1 := h
  split
  · exact h1.emitRec
  · exact h1.offerCore

theorem Tidy.execFixLatch (h : Tidy s) : OutTidy (execFixLatch s) := by
  unfold Machine.execFixLatch
  split
  · exact h
  · split
    · exact h.latchFix
    · exact h

theorem Tidy.execFixAssert (h : Tidy s) : OutTidy (execFixAssert s) := h.assertFix

theorem Tidy.execFixRelease (h : Tidy s) : OutTidy (execFixRelease s) := h

theorem Tidy.execRkConfigWrite {off : Nat} {v : BitVec 64} (h : Tidy s) : OutTidy (execRkConfigWrite off v s) := by
  unfold Machine.execRkConfigWrite
  split
  · exact h
  · dsimp only
    split <;> exact h
  · exact h

theorem Tidy.modWatch {f : Watch → Watch} (h : Tidy s) : Tidy (s.modWatch f) := h

theorem Tidy.watchOn {tile : Nat} {f : Watch → Watch} (h : Tidy s) : Tidy (s.watchOn tile f) := by
  unfold State.watchOn
  refine h.onTile (fun t h1 => ?_)
  split <;> exact h1

theorem Tidy.breakpoints (h : Tidy s) : Tidy s.breakpoints := by
  unfold State.breakpoints
  extract_lets _ _ _ s1
  have h1 : Tidy s1 := by
    unfold s1
    refine h.modWatch.foldl (fun s2 x h1 => ?_)
    split
    · exact h1.assertFix
    · exact h1
  split
  · exact h
  · split
    · exact h1.startStop
    · exact h1

theorem Tidy.execBreakpointMatch {tile : Nat} {which : Bool} (h : Tidy s) : OutTidy (execBreakpointMatch tile which s) := by
  unfold Machine.execBreakpointMatch
  refine h.onTask (fun s1 h1 => ?_)
  split
  · exact h1.breakpoints
  · exact h1

theorem Tidy.execDebugStop {tile : Nat} (h : Tidy s) : OutTidy (execDebugStop tile s) := by
  unfold Machine.execDebugStop
  split
  · exact h.startStop
  · exact h

theorem Tidy.execDebugResume {tile : Nat} {steps : BitVec 32} (h : Tidy s) : OutTidy (execDebugResume tile steps s) := by
  unfold Machine.execDebugResume
  split
  · exact h
  · split
    · exact h
    · split
      · exact h
      · dsimp only
        exact (h.foldl (fun s1 l h1 => h1.resumeLaunch.foldl (fun s2 x h2 => h2.watchOn))).watchOn

theorem Tidy.stepExpiry (h : Tidy s) : Tidy s.stepExpiry := by
  unfold State.stepExpiry
  split
  · exact h.modWatch.startStop
  · exact h

theorem Tidy.execStepCountExpiry {tile : Nat} (h : Tidy s) : OutTidy (execStepCountExpiry tile s) := h.onTask (fun _ h1 => h1.stepExpiry)

theorem Tidy.clearSeen (h : Tidy s) : Tidy s.clearSeen := h.modWatch

theorem Tidy.noteIssue (h : Tidy s) : Tidy s.noteIssue := h.modWatch

end Sys2Proof.Safety
end

section
/-! SUPPORT. The context page: what Machine/Context.lean does keeps every byte memory in canonical form. -/

namespace Sys2Proof.Safety
open Sys2Proof Sys2Proof.Machine Sys2Proof.Laws
variable {s : State}

theorem TaskCanonical.ctxCtl {t : Task} {n : Nat} {w : W64} (h : TaskCanonical t) : TaskCanonical (t.ctxCtl n w) := by
  unfold Task.ctxCtl
  dsimp only
  split
  · exact h
  · split
    · exact h
    · exact h.setCtl

theorem TaskCanonical.ctxHead {t : Task} {k : Nat} {v : W64} (h : TaskCanonical t) : TaskCanonical (t.ctxHead k v) := by
  unfold Task.ctxHead
  split <;> exact h

theorem TaskCanonical.regWrite {t : Task} {e i : Nat} {v : W64} (h : TaskCanonical t) : TaskCanonical (t.regWrite e i v) := by
  unfold Task.regWrite
  split
  · exact h
  · exact h.setEngine

theorem Tidy.bcPut {t : Machine.Task} {k i : Nat} {v : W64} (h : Tidy s) : Tidy (s.bcPut t k i v) := by
  unfold State.bcPut
  dsimp only
  split <;> exact h

theorem TaskCanonical.setWrite {t : Task} {tick i : Nat} {v : W64} (h : TaskCanonical t) : TaskCanonical (t.setWrite tick i v) := by
  unfold Task.setWrite
  extract_lets eng
  have he : ∀ f, TaskCanonical (eng f) := fun _ => h
  clear_value eng
  refine .ite h.regWrite ?_
  refine .ite h.setRing ?_
  refine .ite h.regWrite ?_
  refine .ite (he _) ?_
  refine .ite (he _) ?_
  refine .ite h.regWrite ?_
  refine .ite h ?_
  refine .ite h.regWrite ?_
  refine .ite (he _) ?_
  refine .ite (he _) ?_
  refine .ite h.regWrite ?_
  refine .ite h.regWrite ?_
  refine .ite h.regWrite ?_
  refine .ite (he _) (he _)

theorem TaskCanonical.flagWrite {t : Task} {i : Nat} {v : W64} (h : TaskCanonical t) : TaskCanonical (t.flagWrite i v) := by
  unfold Task.flagWrite
  split
  · exact h
  · split
    · exact h
    · split
      · exact h
      · split
        · dsimp only
          exact h.setRing
        · exact h

theorem TaskCanonical.ctxWrite {t : Task} {tick off : Nat} {v : W64} {ctx : List Host.Cell} (h : TaskCanonical t) :
    TaskCanonical (t.ctxWrite tick off v ctx) := by
  unfold Task.ctxWrite
  refine .ite h.ctxHead ?_
  refine .ite h.setReg ?_
  refine .ite h.ctxCtl ?_
  refine .ite (.ite (h.foldl fun _ _ ht => ht.setReg) h) ?_
  refine .ite h.modCl ?_
  refine .ite h ?_
  refine .ite h.modCl ?_
  refine .ite h.setWrite ?_
  refine .ite h.modCl ?_
  refine .ite h.modCl ?_
  refine .ite h.modCl ?_
  refine .ite h.setEng ?_
  refine .ite h.setEng ?_
  refine .ite h.flagWrite ?_
  exact .ite h.setEng h

theorem Tidy.landStalled (h : Tidy s) : Tidy s.landStalled := by
  unfold State.landStalled
  split
  · exact h
  · exact h.modSeq.landDue.modSeq

theorem Tidy.ctxShared {t : Machine.Task} {k : Nat} {v : W64} (h : Tidy s) : Tidy (s.ctxShared t k v) := by
  unfold State.ctxShared
  dsimp only
  split
  · exact h.modLaunch (fun l h1 => h1)
  · split
    · exact h.modLaunch (fun l h1 => h1)
    · split
      · exact h
      · split
        · exact h.bcPut
        · split
          · exact h.bcPut
          · split
            · split
              · exact h.endDeferral
              · exact h.putDeferral
            · exact h

theorem Tidy.ctxPut {tile k : Nat} {now ctx : List Host.Cell} (h : Tidy s) : Tidy (s.ctxPut tile k now ctx) := by
  unfold State.ctxPut
  split
  · exact h
  · dsimp only
    refine (h.ctxShared.onTask (fun s1 h1 => h1.landStalled)).onTile (fun t h1 => ?_)
    split
    · exact h1.ctxWrite
    · exact h1

theorem Tidy.execDebugContextWrite {tile off : Nat} {bytes : List (BitVec 8)} (h : Tidy s) :
    OutTidy (execDebugContextWrite tile off bytes s) := by
  unfold Machine.execDebugContextWrite
  split
  · exact h
  · dsimp only
    split
    · exact h
    · exact h.watchOn.foldl (fun s1 x h1 => h1.ctxPut)

end Sys2Proof.Safety
end

section
/-! SUPPORT. Management: what Machine/Management.lean does keeps every byte memory in canonical form. -/

namespace Sys2Proof.Safety
open Sys2Proof Sys2Proof.Machine Sys2Proof.Laws
variable {s : State}

theorem MgmtTidy.write {m : Mgmt} {placed : Bool} {off : Nat} {v : W64} (h : MgmtTidy m) : MgmtTidy (m.write placed off v) := by
  unfold Mgmt.write
  split
  any_goals split <;> exact h
  · exact h
  · exact h
  · exact h
  · exact h

theorem Tidy.regWrite {off : Nat} {v : W64} (h : Tidy s) : Tidy (s.regWrite off v) := by
  unfold State.regWrite
  split
  · exact h.setMgmt h.mgmt.write
  · split
    · exact h
    · split
      · exact h
      · split
        · exact h.setCore
        · split
          · dsimp only
            exact h.setCore
          · split
            · dsimp only
              exact h.setDbg
            · exact h

theorem Tidy.setMbBuf {b : Memory} (h : Tidy s) (hb : Memory.wf b = true) : Tidy { s with mgmt := { s.mgmt with mbBuf := b } } :=
  h.setMgmt ⟨hb, h.mgmt.2⟩

theorem Tidy.execRegisterWrite {off size : Nat} {v : BitVec 64} (h : Tidy s) : OutTidy (execRegisterWrite off size v s) :=
  .ite (.ite (h.setMbBuf (wf_putBytes h.mgmt.1 _ _)) h) <| .ite h <| .ite (.ite h h) <| .ite (.ite h h) <| .ite h.regWrite h

theorem Tidy.execMailboxRequest (h : Tidy s) : OutTidy (execMailboxRequest s) := by
  unfold Machine.execMailboxRequest
  dsimp only
  split <;> exact h

theorem Tidy.execMailboxResponse {bytes : List (BitVec 8)} (h : Tidy s) : OutTidy (execMailboxResponse bytes s) :=
  .ite h (h.setMbBuf (wf_putBytes h.mgmt.1 _ _))

theorem Tidy.homeAmo {pa size : Nat} {f : Nat → Nat} (h : Tidy s) : Tidy (s.homeAmo pa size f) := by
  unfold State.homeAmo
  split
  · extract_lets old s1
    have h1 : Tidy s1 := h.countLocal.homeWrite.countLocal
    clear_value s1
    exact h1.setMem h1.mem
  · exact h

theorem Tidy.hostPiece {w : HostWork} (h : Tidy s) : Tidy (s.hostPiece w).2 := by
  unfold State.hostPiece
  dsimp only
  split
  · exact h.homeWrite
  · exact h

theorem Tidy.hostGo {hurry : Bool} {fuel : Nat} {w : HostWork} (h : Tidy s) : Tidy (s.hostGo hurry fuel w) := by
  induction fuel generalizing s w with
  | zero => exact h
  | succ n ih =>
    unfold State.hostGo
    split
    · exact h
    · split
      next e =>
        have h1 := h.hostPiece.snd e
        split
        · exact .ite h1 h1
        · split
          next e =>
            have h2 := Tidy.snd (.ite_snd h1 h1.choose) e
            exact .ite h2 (ih h2)

theorem Tidy.hostRest {hurry : Bool} (h : Tidy s) : Tidy (s.hostRest hurry) := by
  unfold State.hostRest
  split
  · exact h.hostGo
  · exact h

theorem Tidy.serveAccess {a : HostAccess} (h : Tidy s) : Tidy (s.serveAccess a) := by
  unfold State.serveAccess
  dsimp only
  split
  any_goals exact h.hostRest.homeAmo
  · exact h.hostRest.countLocal.hostGo
  · exact h.hostRest.countLocal.hostGo

theorem Tidy.execHostHbmAccess {a : HostAccess} (h : Tidy s) : OutTidy (execHostHbmAccess a s) := by
  unfold Machine.execHostHbmAccess
  split
  · exact h.serveAccess
  · exact h

theorem Tidy.execPeerAccess {a : HostAccess} (h : Tidy s) : OutTidy (execPeerAccess a s) := by
  unfold Machine.execPeerAccess
  split
  · exact h.serveAccess
  · exact h

theorem Tidy.writeLost {w : PortWrite} (h : Tidy s) : Tidy (s.writeLost w) := by
  unfold State.writeLost
  refine h.onTile (fun t h1 => ?_)
  split
  · exact h1.defer
  · exact h1

theorem Tidy.execRhumbPathTimeout {dev : Nat} (h : Tidy s) : OutTidy (execRhumbPathTimeout dev s) := by
  unfold Machine.execRhumbPathTimeout
  extract_lets _ _ s1
  have h1 : Tidy s1 := h
  exact (h1.foldl (fun s2 x h2 => h2.writeLost)).unhold

theorem Tidy.execPtpLock {ns : Nat} (h : Tidy s) : OutTidy (execPtpLock ns s) := by
  unfold Machine.execPtpLock
  extract_lets _ s1
  have h1 : Tidy s1 := h
  split
  · exact h1.foldl (fun s2 x h2 => h2.outState h2.execSliceEnd)
  · exact h

theorem Tidy.execPtpLockLost (h : Tidy s) : OutTidy (execPtpLockLost s) := h

theorem Tidy.execFirmwareVerify {image : FirmwareImage} (h : Tidy s) : OutTidy (execFirmwareVerify image s) := by
  unfold Machine.execFirmwareVerify
  refine h.setMgmt ?_
  split
  · dsimp only
    exact h.mgmt
  · dsimp only
    exact h.mgmt

theorem Tidy.execFirmwareHandover (h : Tidy s) : OutTidy (execFirmwareHandover s) := by
  unfold Machine.execFirmwareHandover
  show Tidy _
  split
  · exact .ite h.choose.logEvent h.choose
  · exact h.logEvent

theorem Tidy.execSecurityVersionRaise {version : BitVec 32} (h : Tidy s) : OutTidy (execSecurityVersionRaise version s) :=
  .ite (.ite h.choose h.choose) h

theorem Tidy.execAttestationRequest {nonce : BitVec 256} (h : Tidy s) : OutTidy (execAttestationRequest nonce s) := by
  unfold Machine.execAttestationRequest
  dsimp only
  refine h.setMgmt ?_
  split <;> split <;> exact h.mgmt

theorem Tidy.stopForCheckpoint (h : Tidy s) : Tidy s.stopForCheckpoint := by
  unfold State.stopForCheckpoint
  refine h.foldl (fun s1 l h1 => ?_)
  split
  · exact h1.press.modLaunch (fun l1 h2 => h2)
  · exact h1

theorem Tidy.writeCheckpoint (h : Tidy s) : Tidy s.writeCheckpoint := by
  unfold State.writeCheckpoint
  extract_lets areas _ s1 back s2
  have h1 : Tidy s1 := h.setMgmt ⟨h.mgmt.1, fun c hc => by
    obtain rfl := Option.some.inj hc
    exact ⟨h.mem.hbm, h.mem.towers⟩⟩
  have h2 : Tidy s2 := h1.foldl fun _ _ h => h.beginRestore
  exact Tidy.dropDeficits <| h2.setLaunches <| List.forall_mem_map.2 fun l hl => h2.sched.1 l hl

theorem Tidy.checkpointStep (h : Tidy s) : Tidy s.checkpointStep := by
  unfold State.checkpointStep
  split
  · exact h
  · split
    · exact h.stopForCheckpoint
    · exact h.writeCheckpoint

theorem Tidy.execCheckpoint (h : Tidy s) : OutTidy (execCheckpoint s) := Tidy.checkpointStep h

theorem Tidy.execCheckpointRestore (h : Tidy s) : OutTidy (execCheckpointRestore s) := by
  unfold Machine.execCheckpointRestore
  show Tidy _
  split
  next c e =>
    obtain ⟨hb, ht⟩ := h.mgmt.2 c e
    exact .ite h (h.setMem ⟨hb, h.mem.host, h.mem.peer, ht⟩)
  · exact h

theorem Tidy.reset : Tidy State.reset :=
  ⟨⟨rfl, rfl, rfl, rfl⟩, ⟨rfl, fun c h => (Option.not_mem_none c h).elim⟩, rfl, fun _ h => (List.not_mem_nil h).elim,
    fun _ h => (List.not_mem_nil h).elim, fun _ h => (List.not_mem_nil h).elim⟩

theorem Tidy.execDeviceReset (h : Tidy s) : OutTidy (execDeviceReset s) :=
  ⟨⟨h.mem.hbm, h.mem.host, h.mem.peer, Tidy.reset.mem.towers⟩, ⟨Tidy.reset.mgmt.1, h.mgmt.2⟩, Tidy.reset.2.2⟩

end Sys2Proof.Safety
end

section
/-! SUPPORT. Issue of a bundle: what Machine/Issue.lean does keeps every byte memory in canonical form. -/

namespace Sys2Proof.Safety
open Sys2Proof Sys2Proof.Machine Sys2Proof.Laws
variable {s : State}

theorem Tidy.syllable {i : Instr} (h : Tidy s) : OutTidy (syllable i s) := by
  cases i with
  | nop => exact h.execNop
  | add => exact h.execAdd
  | sub => exact h.execSub
  | mul => exact h.execMul
  | mulh => exact h.execMulh
  | mulhu => exact h.execMulhu
  | div => exact h.execDiv
  | divu => exact h.execDivu
  | rem => exact h.execRem
  | remu => exact h.execRemu
  | and => exact h.execAnd
  | or => exact h.execOr
  | xor => exact h.execXor
  | andn => exact h.execAndn
  | shl => exact h.execShl
  | shr => exact h.execShr
  | shra => exact h.execShra
  | rot => exact h.execRot
  | min => exact h.execMin
  | max => exact h.execMax
  | minu => exact h.execMinu
  | maxu => exact h.execMaxu
  | clz => exact h.execClz
  | ctz => exact h.execCtz
  | popc => exact h.execPopc
  | sel => exact h.execSel
  | addi => exact h.execAddi
  | andi => exact h.execAndi
  | ori => exact h.execOri
  | xori => exact h.execXori
  | shli => exact h.execShli
  | shri => exact h.execShri
  | shrai => exact h.execShrai
  | lih => exact h.execLih
  | cmpeqi => exact h.execCmpeqi
  | cmplti => exact h.execCmplti
  | cmpltui => exact h.execCmpltui
  | cmpeq => exact h.execCmpeq
  | cmpne => exact h.execCmpne
  | cmplt => exact h.execCmplt
  | cmpltu => exact h.execCmpltu
  | cmple => exact h.execCmple
  | cmpleu => exact h.execCmpleu
  | cand => exact h.execCand
  | cor => exact h.execCor
  | cxor => exact h.execCxor
  | lds => exact h.execLds
  | sts => exact h.execSts
  | ldg => exact h.execLdg
  | stg => exact h.execStg
  | amoadd => exact h.execAmoadd
  | amomin => exact h.execAmomin
  | amomax => exact h.execAmomax
  | amoand => exact h.execAmoand
  | amoor => exact h.execAmoor
  | amoxch => exact h.execAmoxch
  | amocas => exact h.execAmocas
  | fence => exact h.execFence
  | br => exact h.execBr
  | jmp => exact h.execJmp
  | call => exact h.execCall
  | ret => exact h.execRet
  | loop => exact h.execLoop
  | endTask => exact h.execEndTask
  | rep => exact h.execRep
  | mark => exact h.execMark
  | trap => exact h.execTrap
  | tret => exact h.execTret
  | tfence => exact h.execTfence
  | launch => exact h.execLaunch
  | sfmt => exact h.execSfmt
  | mfc => exact h.execMfc
  | mtc => exact h.execMtc
  | setvl => exact h.execSetvl
  | setcm => exact h.execSetcm
  | lovt => exact h.execLovt
  | tlbinv => exact h.execTlbinv
  | tlbinvAsid => exact h.execTlbinvAsid
  | tlbinvAll => exact h.execTlbinvAll
  | nopA => exact h.execNopA
  | vadd => exact h.execVadd
  | vsub => exact h.execVsub
  | vmul => exact h.execVmul
  | vfma => exact h.execVfma
  | vfms => exact h.execVfms
  | vfnma => exact h.execVfnma
  | vmin => exact h.execVmin
  | vmax => exact h.execVmax
  | vabs => exact h.execVabs
  | vneg => exact h.execVneg
  | vdiv => exact h.execVdiv
  | vsqrt => exact h.execVsqrt
  | vrsq => exact h.execVrsq
  | vrcp => exact h.execVrcp
  | vexp => exact h.execVexp
  | vlog => exact h.execVlog
  | vsin => exact h.execVsin
  | vcos => exact h.execVcos
  | vtanh => exact h.execVtanh
  | vrint => exact h.execVrint
  | viadd => exact h.execViadd
  | visub => exact h.execVisub
  | vimul => exact h.execVimul
  | vimulh => exact h.execVimulh
  | vimin => exact h.execVimin
  | vimax => exact h.execVimax
  | viminu => exact h.execViminu
  | vimaxu => exact h.execVimaxu
  | vand => exact h.execVand
  | vor => exact h.execVor
  | vxor => exact h.execVxor
  | vshl => exact h.execVshl
  | vshr => exact h.execVshr
  | vshra => exact h.execVshra
  | viabs => exact h.execViabs
  | vcmp => exact h.execVcmp
  | vicmp => exact h.execVicmp
  | kand => exact h.execKand
  | kor => exact h.execKor
  | kxor => exact h.execKxor
  | knot => exact h.execKnot
  | kfirst => exact h.execKfirst
  | kcnt => exact h.execKcnt
  | vsel => exact h.execVsel
  | vcoal => exact h.execVcoal
  | vcoalq => exact h.execVcoalq
  | vrlset => exact h.execVrlset
  | vsplat => exact h.execVsplat
  | vruns => exact h.execVruns
  | vrunsK => exact h.execVrunsK
  | vlen => exact h.execVlen
  | vlenK => exact h.execVlenK
  | vtrim => exact h.execVtrim
  | vtrimDrop => exact h.execVtrimDrop
  | vcat => exact h.execVcat
  | vrsum => exact h.execVrsum
  | vrmax => exact h.execVrmax
  | vrmin => exact h.execVrmin
  | vrisum => exact h.execVrisum
  | vrimax => exact h.execVrimax
  | vrimin => exact h.execVrimin
  | vdot => exact h.execVdot
  | nopB => exact h.execNopB
  | vld => exact h.execVld
  | vst => exact h.execVst
  | vlds => exact h.execVlds
  | vsts => exact h.execVsts
  | vldx => exact h.execVldx
  | vstx => exact h.execVstx
  | vldrl => exact h.execVldrl
  | vstrl => exact h.execVstrl
  | kld => exact h.execKld
  | kst => exact h.execKst
  | vcur => exact h.execVcur
  | vrd => exact h.execVrd
  | vwr => exact h.execVwr
  | vmov => exact h.execVmov
  | vmvs => exact h.execVmvs
  | vmvx => exact h.execVmvx
  | vxc => exact h.execVxc
  | vslide => exact h.execVslide
  | vrev => exact h.execVrev
  | vcvt => exact h.execVcvt
  | vclass => exact h.execVclass
  | twr => exact h.execTwr
  | trc => exact h.execTrc
  | trr => exact h.execTrr
  | tclr => exact h.execTclr
  | vshift => exact h.execVshift
  | nopE => exact h.execNopE
  | eset => exact h.execEset
  | eget => exact h.execEget
  | ewait => exact h.execEwait
  | wopen => exact h.execWopen
  | wopenBind => exact h.execWopenBind
  | wopenKeep => exact h.execWopenKeep
  | wadv => exact h.execWadv
  | wwait => exact h.execWwait
  | wwaitDone => exact h.execWwaitDone
  | wclose => exact h.execWclose
  | rstat => exact h.execRstat
  | wflush => exact h.execWflush
  | bcfill => exact h.execBcfill
  | bcfillRing => exact h.execBcfillRing
  | bcwait => exact h.execBcwait
  | bcwaitAll => exact h.execBcwaitAll
  | mma => exact h.execMma
  | mmv => exact h.execMmv
  | mldb => exact h.execMldb
  | mdrain => exact h.execMdrain
  | mswap => exact h.execMswap
  | mclr => exact h.execMclr
  | mflags => exact h.execMflags
  | xsend => exact h.execXsend
  | xwr => exact h.execXwr
  | xrd => exact h.execXrd
  | xbar => exact h.execXbar
  | xbarRow => exact h.execXbarRow
  | xbarCol => exact h.execXbarCol
  | dcopy => exact h.execDcopy
  | dcopyMt => exact h.execDcopyMt
  | dcopyTm => exact h.execDcopyTm
  | dpub => exact h.execDpub
  | dwait => exact h.execDwait
  | fload => exact h.execFload
  | fbind => exact h.execFbind
  | fstat => exact h.execFstat
  | nbcmd => exact h.execNbcmd
  | nbpoll => exact h.execNbpoll
  | nbfence => exact h.execNbfence
  | hsig => exact h.execHsig
  | trace => exact h.execTrace
  | snap => exact h.execSnap
  | refdefer => exact h.execRefdefer
  | refnow => exact h.execRefnow
  | refnowAll => exact h.execRefnowAll
  | _ => exact h

theorem Tidy.trial {i : Instr} (h : Tidy s) : SomeTidy (s.trial i) := by
  unfold State.trial
  split
  · trivial
  · exact SomeTidy.guard (o := some _) (h.outState h.syllable)

theorem Tidy.firstFault {c a b e : Instr} (h : Tidy s) : SomeTidy (s.firstFault c a b e) := by
  unfold State.firstFault
  split
  · exact h.trial.some ‹_›
  · split
    · exact h.raise
    · exact h.trial.some ‹_›
  · exact h.trial.some ‹_›
  · exact h.trial.some ‹_›
  · trivial

theorem Tidy.endRows (h : Tidy s) : Tidy s.endRows := by
  unfold State.endRows
  dsimp only
  exact h.foldl (fun s1 x h1 => h1.endWait)

theorem Tidy.effects {l : List Instr} (h : Tidy s) : Tidy (s.effects l) := by
  unfold State.effects
  refine h.foldl (fun s1 x h1 => ?_)
  split
  · exact h1
  · exact (h1.outState h1.syllable).endRows

theorem Tidy.countIssue {a e : Instr} (h : Tidy s) : Tidy (s.countIssue a e) := by
  unfold State.countIssue
  extract_lets _ _ s1
  have h1 : Tidy s1 := by
    unfold s1
    split
    · exact h.countTile
    · exact h.countTile.countTile
  split
  · exact h1
  · exact h1.countTile

theorem Tidy.finishBundle {trap : Option Instr} (h : Tidy s) : Tidy (s.finishBundle trap) := by
  unfold State.finishBundle
  split
  · dsimp only
    split
    · exact h.endWaits
    · exact h.endWaits.outState h.endWaits.syllable
  · split
    · exact h.advance
    · exact h.retryIf

theorem SomeTidy.getD {o : Option State} (ho : SomeTidy o) (h : Tidy s) : Tidy (o.getD s) := by
  cases o with
  | none => exact h
  | some t => exact ho

theorem Tidy.issueSlots {c a b e : Instr} (h : Tidy s) : Tidy (s.issueSlots c a b e) := by
  unfold State.issueSlots
  split
  · have h1 := h.firstFault.some ‹_›
    exact .ite h1 (h.endLock.firstFault.getD h1).clearSeen
  · extract_lets s1 trap s2
    have h2 : Tidy s2 := h.endLock.noteIssue.countIssue.effects
    split
    · exact h.takeFault
    · exact h2.modSeq.finishBundle

theorem Tidy.issueBundle (h : Tidy s) : Tidy s.issueBundle := by
  unfold State.issueBundle
  dsimp only
  split
  · exact h.modSeq.takeFault.clearSeen
  · split
    · exact h.modSeq.modSeq.raise.clearSeen
    · split
      · exact h.modSeq.modSeq.illegal.clearSeen
      · exact h.modSeq.modSeq.issueSlots

theorem Tidy.takeForced (h : Tidy s) : Tidy s.takeForced := by
  unfold State.takeForced
  split
  · exact h
  · dsimp only
    refine Tidy.takeFault ?_
    split
    · exact h.endLock.modSeq
    · exact h.endLock.modSeq.stallBoundary

theorem Tidy.issueOrStop (h : Tidy s) : Tidy s.issueOrStop := by
  unfold State.issueOrStop
  dsimp only
  refine (h.breakpoints.onTask (fun s1 h1 => h1.stepExpiry)).onTask (fun s1 h1 => ?_)
  split
  · exact h1.issueBundle
  · exact h1

theorem Tidy.enterAndIssue {act : State → State} (h : Tidy s) (hact : ∀ s, Tidy s → Tidy (act s)) : Tidy (s.enterAndIssue act) := by
  unfold State.enterAndIssue
  dsimp only
  split
  · exact (hact _ h).issueOrStop
  · exact hact _ h

theorem Tidy.taskCycle (h : Tidy s) : Tidy s.taskCycle := by
  unfold State.taskCycle
  dsimp only
  split
  · exact h.takePending
  · split
    · exact h
    · split
      · exact h
      · split
        · exact h.enterAndIssue (fun s1 h1 => h1.takeForced)
        · split
          · exact h.retry
          · split
            · exact h.nbLateHold
            · exact h.enterAndIssue (fun s1 h1 => h1.issueOrStop)

theorem Tidy.execBundleIssue (h : Tidy s) : OutTidy (execBundleIssue s) := h.taskCycle

theorem Tidy.execEngineFaultAfterIssue {tile : Nat} (h : Tidy s) : OutTidy (execEngineFaultAfterIssue tile s) := by
  unfold Machine.execEngineFaultAfterIssue
  split
  · exact h
  · refine h.onTask (fun s1 h1 => ?_)
    split
    · exact h1.takePending
    · exact h1

theorem Tidy.serveTask {tile : Nat} (h : Tidy s) : Tidy (s.serveTask tile) := by
  unfold State.serveTask
  refine h.onTask (fun s1 h1 => ?_)
  split
  · exact h1.retryIf
  · split
    · exact h1.taskCycle.onTask (fun s2 h2 => h2.modSeq)
    · exact h1

theorem Tidy.serveLaunch {id : Nat} (h : Tidy s) : Tidy (s.serveLaunch id) := by
  refine h.outState ?_
  split
  · exact h.execSchedulingPass
  · split
    · exact h.execDependenceChangeObserved
    · exact h.execLaunchRelease
    · exact h.execRestore
    · exact List.foldlRecOn (motive := OutTidy) _ _ h fun _ ho _ _ => (h.outState ho).execMigrationSwitch
    · exact h.execRetire
    · exact h.execRetire
    · exact h

theorem Tidy.serveQueued {agent unit : Nat} (h : Tidy s) : Tidy (s.serveQueued agent unit) := by
  unfold State.serveQueued
  split
  · exact h.serveTask
  · split
    · exact h.streamStep
    · split
      · exact h.onTask (fun s1 h1 => h1.copyStep)
      · split
        · exact h.bcStep
        · split
          · exact h.onTask (fun s1 h1 => h1.fabricRequestStep)
          · split
            · exact h.drainOne
            · split
              · exact h.serveLaunch
              · split
                · exact h.nbStep
                · exact h.onTask (fun s1 h1 => h1.nbPortStep)

theorem Tidy.execRelayoutDone {page : Nat} (h : Tidy s) : OutTidy (execRelayoutDone page s) := by
  unfold Machine.execRelayoutDone
  split
  · exact h
  · extract_lets _ _ s1
    have h1 : Tidy s1 := h
    exact h1.foldl (fun s2 x h2 => h2.serveQueued)

end Sys2Proof.Safety
end

section
/-! SUPPORT. The edge of a device cycle: what Machine/Clock.lean does keeps every byte memory in canonical form. -/

namespace Sys2Proof.Safety
open Sys2Proof Sys2Proof.Machine Sys2Proof.Laws
variable {s : State}

theorem Tidy.happen {f : State → Out} (h : Tidy s) (hf : ∀ s, Tidy s → OutTidy (f s)) : Tidy (s.happen f) := h.outState (hf s h)

theorem Tidy.forAll {α : Type} {l : List α} {f : α → State → Out} (h : Tidy s) (hf : ∀ x s, Tidy s → OutTidy (f x s)) :
    Tidy (s.forAll l f) :=
  h.foldl fun _ _ h1 => h1.happen (hf _)

theorem TaskCanonical.countCycle {t : Task} {ticks : Bool} (h : TaskCanonical t) : TaskCanonical (t.countCycle ticks) := by
  unfold Task.countCycle
  dsimp only
  split <;> exact h

theorem Tidy.countEdge (h : Tidy s) : Tidy s.countEdge := by
  unfold State.countEdge
  refine h.foldl (fun s1 x h1 => ?_)
  dsimp only
  split
  · exact h1
  · exact h1.bump

theorem Tidy.watchdogs {delta : Nat} (h : Tidy s) : Tidy (s.watchdogs delta) :=
  h.foldl fun _ _ h1 => .ite h1 <| .ite (h1.modLaunch fun _ hl => hl) <|
    Tidy.happen (h1.modLaunch fun _ hl => hl) fun _ h => h.execWatchdogExpiry

theorem Tidy.extendDeadlines (h : Tidy s) : Tidy s.extendDeadlines :=
  .ite (h.eachLaunch fun _ _ h _ => .ite (h.modLaunch fun _ hl => hl) h) h

theorem Tidy.refreshDue (h : Tidy s) : Tidy s.refreshDue := by
  unfold State.refreshDue
  extract_lets s1 s2
  have h1 : Tidy s1 := h.forAll fun _ _ h => h.passEnd
  have h2 : Tidy s2 := h1.forAll fun _ _ h => h.execDeferralExpiry
  exact .ite h2 <| h2.foldl fun _ _ h => h.forcedPass.scheduledPass

theorem Tidy.slicesDue (h : Tidy s) : Tidy s.slicesDue := by
  unfold State.slicesDue
  extract_lets regions at_ s1 s2 s3
  have h1 : Tidy s1 := h.forAll fun _ _ h => h.execSliceEnd
  have h2 : Tidy s2 := .ite h1.wantPass h1
  have h3 : Tidy s3 := h2.forAll fun _ _ h => h.execSliceStart
  exact h3.forAll fun _ _ h => h.execSliceLead

theorem Tidy.tlbInvDue {x : TlbInv} (h : Tidy s) : Tidy (s.tlbInvDue x) := by
  unfold State.tlbInvDue
  split
  · exact h.completeTlbInv
  · exact h

theorem Tidy.due {delta : Nat} (h : Tidy s) : Tidy (s.due delta) := by
  unfold State.due
  extract_lets s1 s2 s3 s4 s5 s6 s7 s8
  have h1 : Tidy s1 := h.foldl fun _ _ h => h.filterStep
  have h2 : Tidy s2 := h1.watchdogs.extendDeadlines.refreshDue.slicesDue
  have h3 : Tidy s3 := h2.forAll fun _ _ h => h.execStopDeadline
  have h4 : Tidy s4 := h3.forAll fun _ _ h => h.execSaveDeadline
  have h5 : Tidy s5 := h4.forAll fun _ _ h => h.execRestoreDeadline
  have h6 : Tidy s6 := h5.forAll fun _ _ h => h.execExclusionTimeout
  have h7 : Tidy s7 := (h6.forAll fun _ _ h => h.execAgingExpiry).startRateChanges.hostRest
  have h8 : Tidy s8 := h7.foldl fun _ _ h => h.tlbInvDue
  exact .ite (h8.happen fun _ h => h.execPassTimer) h8

theorem Tidy.tileProgress {tile : Nat} (h : Tidy s) : Tidy (s.tileProgress tile) := by
  unfold State.tileProgress
  extract_lets s1 s2 s3 s4 s5 s6 s7
  have h1 : Tidy s1 := h.onTask fun _ h => h.runMu.beginMu.runMu
  have h2 : Tidy s2 := h1.foldl fun _ _ h => h.streamStep.happen fun _ h => h.execFabricStreamEnd
  have h3 : Tidy s3 := h2.onTask fun _ h => h.xpInject
  have h4 : Tidy s4 := h3.foldl fun _ _ h => h.happen fun _ h => h.execShiftPartDelivery
  have h5 : Tidy s5 := ((h4.happen fun _ h => h.execDcopyChunk).happen fun _ h => h.execFabricLoadRequest).happen fun _ h => h.execFabricBindRequest
  have h6 : Tidy s6 := (h5.happen fun _ h => h.execNbPacketEnqueue).happen fun _ h => h.execPublicationApply
  have h7 : Tidy s7 := h6.happen fun _ h => h.execSignalDelivery
  exact h7.drainOne.forAll fun _ _ h => h.execEngineStopAck

theorem Tidy.landAll {n k : Nat} (h : Tidy s) : Tidy (s.landAll n k) := by
  induction n generalizing s k with
  | zero => exact h
  | succ n ih => exact ih h.landPacket

theorem Tidy.barrierProgress {l : Launch} (h : Tidy s) : Tidy (s.barrierProgress l) := by
  unfold State.barrierProgress
  extract_lets s1 s2
  have h1 : Tidy s1 := h.happen fun _ h => h.execBarrierRelease
  have h2 : Tidy s2 := h1.forAll fun _ _ h => h.execBarrierRelease
  exact h2.forAll fun _ _ h => h.execBarrierRelease

theorem Tidy.launchProgress (h : Tidy s) : Tidy s.launchProgress := by
  unfold State.launchProgress
  extract_lets s1 s2 s3 s4 s5 s6
  have h1 : Tidy s1 := h.eachLaunch fun _ _ h _ => h.barrierProgress
  have h2 : Tidy s2 := h1.forAll fun _ _ h => h.execStopComplete
  have h3 : Tidy s3 := h2.forAll fun _ _ h => h.execSaveComplete
  have h4 : Tidy s4 := h3.forAll fun _ _ h => h.execLaunchRelease
  have h5 : Tidy s5 := h4.forAll fun _ _ h => h.execRestore
  have h6 : Tidy s6 := h5.forAll fun _ _ h => h.execRetire
  exact h6.forAll fun _ _ h => h.execLeaseClearDone

theorem Tidy.upkeepProgress (h : Tidy s) : Tidy s.upkeepProgress := by
  unfold State.upkeepProgress
  extract_lets s1 s2 s3 outgrown s4 s5 needs stuck
  have h1 : Tidy s1 := h.checkpointStep
  have h2 : Tidy s2 := h1.forAll fun c _ h => by
    cases c.tower with
    | some i => exact h.execCopySwitch
    | none => exact h.execMigrationSwitch
  have h3 : Tidy s3 := h2.forAll fun _ _ h => h.execMigrationStart
  have h4 : Tidy s4 := h3.forAll fun _ _ h => h.execRelayoutDone
  have h5 : Tidy s5 := h4.forAll fun _ _ h => h.execRelayout
  exact h5.forAll fun _ _ h => h.execFabricContextSpill

theorem Tidy.coreProgress (h : Tidy s) : Tidy s.coreProgress := by
  refine h.foldl fun s c h1 => (Tidy.happen ?_ fun _ h => h.execFilterRecord).happen fun _ h => h.execFilterVerifyDone
  split
  · exact h1.happen fun _ h => h.execTracePortDeliver
  · split
    · exact h1.happen fun _ h => h.execTracePortDeliver
    · exact h1

theorem Tidy.feedEdges (h : Tidy s) : Tidy s.feedEdges := h.foldl (fun _ _ h1 => h1.onTask (fun _ h2 => h2.feedEdge))

theorem Tidy.progress (h : Tidy s) : Tidy s.progress := by
  unfold State.progress
  extract_lets tiles s1 s2 s3 s4 s5 s6 posted s7 s8 s9
  have h1 : Tidy s1 := h.foldl fun _ _ h => h.tileProgress
  have h2 : Tidy s2 := h1.foldl fun _ _ h => h.drainOne
  have h3 : Tidy s3 := h2.foldl fun _ _ h => .ite h h.bcStep
  have h4 : Tidy s4 := h3.landAll
  have h5 : Tidy s5 := h4.forAll fun _ _ h => h.execRowOperationStart
  have h6 : Tidy s6 := .ite h5 (h5.happen fun _ h => h.execSignalDelivery)
  have h7 : Tidy s7 := h6.forAll fun _ _ h => h.execSignalDelivery
  have h8 : Tidy s8 := h7.launchProgress
  have h9 : Tidy s9 := h8.forAll fun _ _ h => h.execLaunchRequestApply
  exact h9.upkeepProgress.coreProgress

theorem Tidy.turnColumns (h : Tidy s) : Tidy s.turnColumns := h

theorem Tidy.clockEdge (h : Tidy s) : Tidy s.clockEdge := by
  unfold State.clockEdge
  extract_lets delta s0 _ s1 s2 s3 _ s4 _ s5
  have h0 : Tidy s0 := h.askedEdge.feedEdges.happen fun _ h => h.execFixLatch
  have h1 : Tidy s1 := h0.setClk.setObs
  have h2 : Tidy s2 := (h1.mapTasks fun _ ht => ht.countCycle).countEdge
  have h3 : Tidy s3 := h2.due
  have h4 : Tidy s4 := by
    unfold s4
    split
    · exact h3.progress
    · exact h3.setClk
  have h5 : Tidy s5 := h4.setClk
  exact h5.turnColumns

end Sys2Proof.Safety
end

section
/-! SUPPORT. Every instruction: what Machine/Dispatch.lean does keeps every byte memory in canonical form. -/

namespace Sys2Proof.Safety
open Sys2Proof Sys2Proof.Machine Sys2Proof.Laws
variable {s : State}

theorem Tidy.exec {i : Instr} (h : Tidy s) : OutTidy (exec i s) := by
  have hs := h.syllable (i := i)
  cases i with
  | nbEnd => exact h.execNbEnd
  | loadacc => exact h.execLoadacc
  | accop => exact h.execAccop
  | sacc => exact h.execSacc
  | nbStore => exact h.execNbStore
  | nbClear => exact h.execNbClear
  | minmax => exact h.execMinmax
  | fltLdf => exact h.execFltLdf
  | fltLdi => exact h.execFltLdi
  | fltAdd => exact h.execFltAdd
  | fltSub => exact h.execFltSub
  | fltAnd => exact h.execFltAnd
  | fltOr => exact h.execFltOr
  | fltXor => exact h.execFltXor
  | fltShl => exact h.execFltShl
  | fltShr => exact h.execFltShr
  | fltAndi => exact h.execFltAndi
  | fltAddi => exact h.execFltAddi
  | fltBeq => exact h.execFltBeq
  | fltBne => exact h.execFltBne
  | fltBltu => exact h.execFltBltu
  | fltBlt => exact h.execFltBlt
  | fltCadd => exact h.execFltCadd
  | fltVerd => exact h.execFltVerd
  | reduce => exact h.execReduce
  | scaleacc => exact h.execScaleacc
  | cmpxchg => exact h.execCmpxchg
  | idxreduce => exact h.execIdxreduce
  | accwb => exact h.execAccwb
  | accclr => exact h.execAccclr
  | uprog => exact h.execUprog
  | bundleIssue => exact h.execBundleIssue
  | resultLanding => exact h.execResultLanding
  | globalAccessPerformed => exact h.execGlobalAccessPerformed
  | fullEmptyWake => exact h.execFullEmptyWake
  | ringReadWake => exact h.execRingReadWake
  | ringWriteWake => exact h.execRingWriteWake
  | engineWaitEnd => exact h.execEngineWaitEnd
  | barrierRelease => exact h.execBarrierRelease
  | engineFaultAfterIssue => exact h.execEngineFaultAfterIssue
  | launchRequestApply => exact h.execLaunchRequestApply
  | tailWrite => exact h.execTailWrite
  | terrClear => exact h.execTerrClear
  | liveOn => exact h.execLiveOn
  | liveOff => exact h.execLiveOff
  | rcbaWrite => exact h.execRcbaWrite
  | schedulingPass => exact h.execSchedulingPass
  | passTimer => exact h.execPassTimer
  | dependenceChangeObserved => exact h.execDependenceChangeObserved
  | agingExpiry => exact h.execAgingExpiry
  | exclusionTimeout => exact h.execExclusionTimeout
  | launchRelease => exact h.execLaunchRelease
  | sliceStart => exact h.execSliceStart
  | sliceLead => exact h.execSliceLead
  | sliceEnd => exact h.execSliceEnd
  | watchdogExpiry => exact h.execWatchdogExpiry
  | retire => exact h.execRetire
  | leaseClearDone => exact h.execLeaseClearDone
  | pageResolved => exact h.execPageResolved
  | pageUnresolvable => exact h.execPageUnresolvable
  | stopRequest => exact h.execStopRequest
  | engineStopAck => exact h.execEngineStopAck
  | stopComplete => exact h.execStopComplete
  | stopDeadline => exact h.execStopDeadline
  | saveComplete => exact h.execSaveComplete
  | saveDeadline => exact h.execSaveDeadline
  | restore => exact h.execRestore
  | restoreDeadline => exact h.execRestoreDeadline
  | migrationStart => exact h.execMigrationStart
  | migrationSwitch => exact h.execMigrationSwitch
  | towerSwitchIn => exact h.execTowerSwitchIn
  | copySwitch => exact h.execCopySwitch
  | copyWriteError => exact h.execCopyWriteError
  | hardwareError => exact h.execHardwareError
  | tileFence => exact h.execTileFence
  | tileScrubDone => exact h.execTileScrubDone
  | thermalSample => exact h.execThermalSample
  | sensorRecalibrate => exact h.execSensorRecalibrate
  | scheduledRefreshPass => exact h.execScheduledRefreshPass
  | forcedRefresh => exact h.execForcedRefresh
  | refreshPassEnd => exact h.execRefreshPassEnd
  | deferralExpiry => exact h.execDeferralExpiry
  | scrubRow => exact h.execScrubRow
  | relayout => exact h.execRelayout
  | relayoutDone => exact h.execRelayoutDone
  | windowRowDelivery => exact h.execWindowRowDelivery
  | bcRowDelivery => exact h.execBcRowDelivery
  | xpPacketLanding => exact h.execXpPacketLanding
  | shiftPartDelivery => exact h.execShiftPartDelivery
  | muOperationBegin => exact h.execMuOperationBegin
  | muOperationComplete => exact h.execMuOperationComplete
  | dcopyChunk => exact h.execDcopyChunk
  | fabricLoadRequest => exact h.execFabricLoadRequest
  | fabricBindRequest => exact h.execFabricBindRequest
  | fabricBeat => exact h.execFabricBeat
  | fabricStreamEnd => exact h.execFabricStreamEnd
  | fabricContextSpill => exact h.execFabricContextSpill
  | nbPacketEnqueue => exact h.execNbPacketEnqueue
  | nbQueueWaitTimeout => exact h.execNbQueueWaitTimeout
  | rowOperationStart => exact h.execRowOperationStart
  | ordinaryRequestSuspend => exact h.execOrdinaryRequestSuspend
  | nbContextSpill => exact h.execNbContextSpill
  | publicationApply => exact h.execPublicationApply
  | tlbinvComplete => exact h.execTlbinvComplete
  | signalDelivery => exact h.execSignalDelivery
  | tracePortDeliver => exact h.execTracePortDeliver
  | filterRecord => exact h.execFilterRecord
  | counterOverflow => exact h.execCounterOverflow
  | counterWrite => exact h.execCounterWrite
  | fixLatch => exact h.execFixLatch
  | fixAssert => exact h.execFixAssert
  | fixRelease => exact h.execFixRelease
  | filterVerify => exact h.execFilterVerify
  | filterVerifyDone => exact h.execFilterVerifyDone
  | rkConfigWrite => exact h.execRkConfigWrite
  | breakpointMatch => exact h.execBreakpointMatch
  | debugStop => exact h.execDebugStop
  | debugResume => exact h.execDebugResume
  | stepCountExpiry => exact h.execStepCountExpiry
  | debugContextWrite => exact h.execDebugContextWrite
  | abortLaunch => exact h.execAbortLaunch
  | mailboxRequest => exact h.execMailboxRequest
  | mailboxResponse => exact h.execMailboxResponse
  | attestationRequest => exact h.execAttestationRequest
  | pmodeWrite => exact h.execPmodeWrite
  | powerLimitExceeded => exact h.execPowerLimitExceeded
  | coolantFlowLow => exact h.execCoolantFlowLow
  | railFault => exact h.execRailFault
  | registerWrite => exact h.execRegisterWrite
  | hostHbmAccess => exact h.execHostHbmAccess
  | peerAccess => exact h.execPeerAccess
  | rhumbPathTimeout => exact h.execRhumbPathTimeout
  | linkRetrain => exact h.execLinkRetrain
  | channelRetrain => exact h.execChannelRetrain
  | channelRetrainEnd => exact h.execChannelRetrainEnd
  | ptpLock => exact h.execPtpLock
  | ptpLockLost => exact h.execPtpLockLost
  | firmwareHandover => exact h.execFirmwareHandover
  | firmwareVerify => exact h.execFirmwareVerify
  | securityVersionRaise => exact h.execSecurityVersionRaise
  | checkpoint => exact h.execCheckpoint
  | deviceReset => exact h.execDeviceReset
  | hbmDataRateChange => exact h.execHbmDataRateChange
  | coolantFlowRestored => exact h.execCoolantFlowRestored
  | checkpointRestore => exact h.execCheckpointRestore
  | _ => exact hs

end Sys2Proof.Safety
end

section
/-! SUPPORT. One step: what Machine/Step.lean does keeps every byte memory in canonical form. -/

namespace Sys2Proof.Safety
open Sys2Proof Sys2Proof.Machine Sys2Proof.Laws
variable {s : State}

theorem Tidy.step (h : Tidy s) : OutTidy (step s) := by
  unfold Machine.step
  split
  · exact h.setClk.exec
  · split
    · exact h.setClk.onTask fun _ h => h.taskCycle
    · exact h.clockEdge

end Sys2Proof.Safety

open Sys2Proof.Machine Sys2Proof.Safety in
/-- Settles O57: a step is an instruction, a task's cycle or a clock edge, and each keeps the canonical form of every part of the state. -/
theorem stepsKeepCanonical : Obligations.StepsKeepCanonical := by
  intro s s' h e
  rw [canonical_iff_tidy] at h ⊢
  exact h.step.next e

end

section
/-! SUPPORT. A state that the model's types allow, with two tasks of a launch bound to one tile. When a tile's task is brought to the front
(`State.focus`), the task that was in front takes the place of every task parked on that tile, so the second of them is lost. -/

namespace Sys2Proof.Edges
open Sys2Proof.Machine

/-- The state in which a stop finds the tasks of a launch: pending faults have been taken first (R28, R373). -/
def faultsTaken (s : State) (id : Nat) : State :=
  (sortBy Task.earlier (s.launchTasks id)).foldl (fun s t => s.onTask t.bnd.tile State.takePending) s

/-- A stop leaves a launch as it is where, once the pending faults are taken, no task of it receives. -/
theorem stopLaunch_eq_faultsTaken {s : State} {id : Nat} (why : StopWhy)
    (hnone : ((faultsTaken s id).launchTasks id).any Task.receives = false) : s.stopLaunch why id = faultsTaken s id := by
  unfold State.stopLaunch
  extract_lets s1
  split
  · rfl
  · exact if_neg fun ⟨_, hany⟩ => Bool.false_ne_true (hnone.symm.trans hany)

/-- A launch resident on its tile, of a root region, from an empty record. -/
def residentLaunch : Launch := { launchOf 1 0 (rootEff []) [] 0 0 with phase := .resident, onGrid := true, placedAt := some 0 }

/-- A task of that launch, bound to tile 0. -/
def taskInState (q : TaskState) : Task := { Task.blank with bnd := { Bind.reset with launch := 1 }, seq := { Seq.reset with state := q } }

/-- An ended and a running task of the launch, parked and bound to the same tile, with or without a checkpoint under way. -/
def sharedTile (saving : Bool) : State :=
  { State.reset with
    parked := [taskInState .ended, taskInState .running]
    sched := { Sched.reset with launches := [residentLaunch] }
    mgmt := { Mgmt.reset with saving := saving } }

/-- The ended task in front, and the blank task in the place of both. -/
def runningLost (saving : Bool) : State := { sharedTile saving with cur := taskInState .ended, parked := [.blank, .blank] }

theorem receives_sharedTile : ∃ u ∈ (sharedTile false).launchTasks residentLaunch.id, u.receives = true :=
  ⟨taskInState .running, List.mem_cons_of_mem (taskInState .ended) List.mem_cons_self, rfl⟩

/-- Neither task has a fault pending, but looking for one loses the running task. -/
theorem faultsTaken_sharedTile (saving : Bool) : faultsTaken (sharedTile saving) residentLaunch.id = runningLost saving := rfl

theorem stopLaunch_sharedTile (saving : Bool) (why : StopWhy) :
    (sharedTile saving).stopLaunch why residentLaunch.id = runningLost saving :=
  stopLaunch_eq_faultsTaken why rfl

/-- The checkpoint asks for the stop of the launch, which finds no task to freeze; the launch is marked for its resumption all the same. -/
theorem checkpoint_sharedTile : exec .checkpoint (sharedTile false) =
    .next ((runningLost true).modLaunch residentLaunch.id fun l => { l with ckpt := true }) :=
  calc exec .checkpoint (sharedTile false)
    _ = .next (sharedTile true).stopForCheckpoint := rfl
    _ = .next (((sharedTile true).stopLaunch .preempt residentLaunch.id).modLaunch residentLaunch.id fun l => { l with ckpt := true }) := rfl
    _ = .next ((runningLost true).modLaunch residentLaunch.id fun l => { l with ckpt := true }) := by rw [stopLaunch_sharedTile]

end Sys2Proof.Edges

open Sys2Proof.Machine Sys2Proof.Edges in
/-- Refutes O52: its clause on a checkpoint that finds one resident launch speaks of every state, also of one with two tasks of the launch
bound to one tile, the first ended and the second running. There the stop's search for pending faults loses the running task, the launch
has no task left that receives, and it stays resident. -/
theorem not_edgeEvents : ¬ Obligations.EdgeEvents := by
  intro h
  obtain ⟨-, hstates⟩ := h
  obtain ⟨-, hstop, -⟩ := hstates (sharedTile false)
  obtain ⟨t, ht, -, -, hphase, -⟩ := hstop residentLaunch rfl rfl rfl receives_sharedTile (by decide)
  rw [checkpoint_sharedTile] at ht
  obtain rfl := Host.Outcome.next.inj ht
  exact absurd hphase (by decide)

end

section
/-! SUPPORT. Launches by number, and what a write of a control register lands (R55, R184 to R186). -/

namespace Sys2Proof.Launching
open Sys2Proof Sys2Proof.Machine Sys2Proof.Laws

/-- A change of a launch that keeps its number is what a look-up then finds. -/
theorem launch?_modLaunch (s : State) (id : Nat) (f : Launch → Launch) (hf : ∀ l, (f l).id = l.id) :
    (s.modLaunch id f).launch? id = (s.launch? id).map f := by
  have hp : ((fun l : Launch => l.id == id) ∘ fun l => if l.id = id then f l else l) = fun l => l.id == id := by
    funext l
    simp only [Function.comp_apply]
    split <;> simp [*]
  rw [State.launch?, State.launch?, modLaunch_sched_launches, List.find?_map, hp]
  refine Option.map_congr fun l hl => if_pos ?_
  simpa using List.find?_some hl

/-- A look-up finds a launch of the number looked for. -/
theorem launch?_id {s : State} {id : Nat} {l : Launch} (h : s.launch? id = some l) : l.id = id := by
  simpa using List.find?_some h

/-! ### Control registers -/

/-- MTC of a legal value to a control register that the task may write is one landing, with HND left out of a TRAPCODE (R184, R186). -/
theorem execMtc_lands {s : State} {r : BitVec 5} {x : BitVec 4} {c : BitVec 6} (hp : privileged c = true → s.cur.reg.priv = true)
    (hw : writable c = true) (hx : subIndexOk c x = true) (hv : ctlValueOk c (s.sreg r) = true) :
    execMtc r x c s = .next (s.land 0 1 (.ctl c x (if c = 17#6 then s.sreg r &&& ~~~0x80000#64 else s.sreg r))) := by
  have hpriv : (privileged c && !s.cur.reg.priv) = false := by
    cases h : privileged c
    · rfl
    · simp [hp h]
  simp [execMtc, hpriv, hw, hx, hv]

/-- A write of FLAGS clears the flags it names in one cluster. -/
theorem setCtl_flags (t : Task) (i : Fin 8) (v : W64) : t.setCtl 9#6 (BitVec.ofNat 4 i.val) v =
    { t with cl := t.cl.set i { t.cl[i] with flags := t.cl[i].flags &&& ~~~(v.setWidth 9) } } := by
  have hi : (BitVec.ofNat 4 i.val).toNat = i.val := by simp; omega
  have h8 : BitVec.ofNat 4 i.val ≠ 8#4 := fun h => by have := congrArg BitVec.toNat h; simp [hi] at this; omega
  simp [Task.setCtl, h8, hi, Task.modCl, BitVec.setWidth_eq_extractLsb']

/-- A value below 2^16 has no bit above those of RINGERR. -/
theorem and_ringErrMask {v : W64} (h : v.toNat < 2 ^ 16) : v &&& 0xFFFF#64 = v := by
  apply BitVec.eq_of_toNat_eq
  rw [BitVec.toNat_and, show (0xFFFF#64).toNat = 2 ^ 16 - 1 from rfl, Nat.and_two_pow_sub_one_eq_mod, Nat.mod_eq_of_lt h]

/-- A task with no branch pending and no repetition goes on to its next bundle. -/
theorem advance_next {s : State} (hb : s.cur.seq.branch = none) (hr : s.cur.seq.rep = none) :
    s.advance = (s.modSeq fun q => { q with pc := q.pc + 1, scyc := q.scyc + 1 }).landDue := by
  have hc : ∀ k, s.cur.seq.closes k = false := fun k => by simp [Machine.Seq.closes, hb]
  simp [State.advance, hc, Machine.Seq.follow, hb, hr, State.modSeq]

/-- Where nothing in flight carries a RUNLEN, only WDOG's landing reaches beyond the task. -/
theorem landDue_sched {s : State} (h : s.cur.splitOverflows = 0) : s.landDue.sched = s.landWdog.sched := by
  simp [State.landDue, h]

/-- A value of WDOG issued by a task with nothing else in flight, pending or repeated lands on its whole launch at its next bundle (R55). -/
theorem advance_land_wdog {s : State} {v : W64} (hi : s.cur.seq.inflight = []) (hb : s.cur.seq.branch = none) (hr : s.cur.seq.rep = none) :
    (s.land 0 1 (.ctl 35#6 0#4 v)).advance.sched = (s.modLaunch s.cur.bnd.launch fun x => { x with wdogLeft := v.toNat }).sched := by
  rw [advance_next (by exact hb) (by exact hr), landDue_sched (by simp [Task.splitOverflows, State.land, hi])]
  simp [State.landWdog, State.land, hi]
  rfl

/-- So the launch's watchdog then holds that value. -/
theorem wdogLeft_after_advance {s : State} {l : Launch} {v : W64} (hl : s.launch? s.cur.bnd.launch = some l) (hi : s.cur.seq.inflight = [])
    (hb : s.cur.seq.branch = none) (hr : s.cur.seq.rep = none) :
    ((s.land 0 1 (.ctl 35#6 0#4 v)).advance.launch? l.id).map (·.wdogLeft) = some v.toNat := by
  have hm : ((s.modLaunch s.cur.bnd.launch fun x => { x with wdogLeft := v.toNat }).launch? s.cur.bnd.launch).map (·.wdogLeft)
      = some v.toNat := by
    rw [launch?_modLaunch, hl]
    · rfl
    · exact fun _ => rfl
  rw [State.launch?, advance_land_wdog hi hb hr, launch?_id hl]
  exact hm

end Sys2Proof.Launching

open Sys2Proof Sys2Proof.Machine Sys2Proof.Laws Sys2Proof.Launching in
/-- Settles O12: each legal write is one landing, and its delivery sets the register it names. -/
theorem controlRegisterWrites : Obligations.ControlRegisterWrites := by
  intro s r f v t writes
  have lands : ∀ {x : BitVec 4} {c : BitVec 6} {u : W64}, (privileged c = true → s.cur.reg.priv = true) → writable c = true →
      subIndexOk c x = true → ctlValueOk c v = true → (if c = 17#6 then v &&& ~~~0x80000#64 else v) = u →
      exec (.mtc r x c f) s = .next (s.land 0 1 (.ctl c x u)) := by
    rintro x c _ hp hw hx hv rfl
    exact execMtc_lands hp hw hx hv
  have user : ∀ {c : BitVec 6}, privileged c = false → privileged c = true → s.cur.reg.priv = true := fun h h' => by simp [h] at h'
  refine ⟨fun h1 h2 => ⟨?vl, rfl⟩, fun h => ⟨⟨?cma, rfl⟩, ?cmb, rfl⟩,
    fun h => ⟨⟨?tenab, rfl⟩, fun i => ⟨?flags, setCtl_flags t i v⟩, ?allFlags, ?allFlagsLand⟩, fun h => ⟨?mode, rfl⟩,
    fun h => ⟨?ringErr, ?ringErrLand⟩, ⟨?trapInfo, rfl⟩, fun hp h => ⟨?priv, ?privLand⟩, fun h h18 h15 => ⟨?trapCode, rfl⟩,
    fun h => ⟨?trapPc, rfl⟩, fun hp => ⟨?wdog, fun l hl hi hb hr => ?wdogLand⟩⟩
  case vl => exact lands (user rfl) rfl rfl (by simp [ctlValueOk, Config.maxLen, h1, h2]) rfl
  case cma => exact lands (user rfl) rfl rfl (by simpa [ctlValueOk] using h) rfl
  case cmb => exact lands (user rfl) rfl rfl (by simpa [ctlValueOk] using h) rfl
  case tenab => exact lands (user rfl) rfl rfl (by simpa [ctlValueOk] using h) rfl
  case flags => exact lands (user rfl) rfl (by simp [subIndexOk]; omega) (by simpa [ctlValueOk] using h) rfl
  case allFlags => exact lands (user rfl) rfl rfl (by simpa [ctlValueOk] using h) rfl
  case allFlagsLand => simp [Task.setCtl, BitVec.setWidth_eq_extractLsb']
  case mode => exact lands (user rfl) rfl rfl (by simpa [ctlValueOk] using h) rfl
  case ringErr => exact lands (user rfl) rfl rfl (by simp [ctlValueOk]; omega) rfl
  case ringErrLand => simp [Task.setCtl, and_ringErrMask h]
  case trapInfo => exact lands (user rfl) rfl rfl rfl rfl
  case priv => exact lands (fun _ => hp) rfl rfl (by simpa [ctlValueOk] using h) rfl
  case privLand => simp [Task.setCtl, hp]
  case trapCode =>
    have hv : ctlValueOk 17#6 v = (decide (v.toNat < 2 ^ 20) && !v.getLsbD 18 && !v.getLsbD 15) := rfl
    exact lands (user rfl) rfl rfl (by rw [hv, decide_eq_true h, h18, h15]; rfl) rfl
  case trapPc => exact lands (user rfl) rfl rfl (by simpa [ctlValueOk] using h) rfl
  case wdog => exact lands (fun _ => hp) rfl rfl rfl rfl
  case wdogLand => exact wdogLeft_after_advance hl hi hb hr

end

section
/-! SUPPORT. Doorbells: what a write of one leaves of the state, and when a tail write is accepted (R30 to R32, R182). -/

namespace Sys2Proof.Launching
open Sys2Proof Sys2Proof.Machine Sys2Proof.Laws

variable {s : State} {region : Nat}

@[simp] theorem doorbell_setDoorbell_self (d : Doorbell) : (s.setDoorbell region d).doorbell region = d := by
  simp [State.doorbell]

@[simp] theorem doorbell_setDoorbell_other {r : Nat} (h : r ≠ region) (d : Doorbell) :
    (s.setDoorbell region d).doorbell r = s.doorbell r := by
  simp [State.doorbell, tget_tput_other _ h]

@[simp] theorem doorbell_modEng (f : Engines → Engines) (r : Nat) : (s.modEng f).doorbell r = s.doorbell r := rfl

/-- A state differs from another in one doorbell alone, among the doorbells, tasks, memories and launches. -/
def OnlyDoorbell (s t : State) (region : Nat) (d : Doorbell) : Prop :=
  t.doorbell region = d ∧ (∀ r, r ≠ region → t.doorbell r = s.doorbell r) ∧ t.cur = s.cur ∧ t.parked = s.parked ∧ t.mem = s.mem ∧
    t.sched.launches = s.sched.launches

theorem onlyDoorbell_setDoorbell (d : Doorbell) : OnlyDoorbell s (s.setDoorbell region d) region d :=
  ⟨doorbell_setDoorbell_self d, fun _ h => doorbell_setDoorbell_other h d, rfl, rfl, rfl, rfl⟩

theorem OnlyDoorbell.wantPass {t : State} {d : Doorbell} (h : OnlyDoorbell s t region d) : OnlyDoorbell s t.wantPass region d := h

/-- A second write of the same doorbell stands. -/
theorem OnlyDoorbell.setDoorbell {t : State} {d : Doorbell} (h : OnlyDoorbell s t region d) (d' : Doorbell) :
    OnlyDoorbell s (t.setDoorbell region d') region d' := by
  obtain ⟨-, hother, hcur, hparked, hmem, hlaunches⟩ := h
  exact ⟨doorbell_setDoorbell_self d', fun r hr => (doorbell_setDoorbell_other hr d').trans (hother r hr), hcur, hparked, hmem, hlaunches⟩

/-! ### Tail writes (R32) -/

/-- The tail lies in the queue, and no further back from QHEAD than the one that stands. -/
def TailFits (s : State) (region tail : Nat) : Prop :=
  let d := s.doorbell region
  let q := s.queueLen region
  let h := s.qhead region
  d.live = true ∧ tail < q ∧ (d.tail + q - h % q) % q ≤ (tail + q - h % q) % q

/-- The doorbell once a tail is accepted. -/
def Doorbell.accept (d : Doorbell) (tail : Nat) : Doorbell :=
  { d with tail := tail, batches := if tail = d.tail then d.batches else d.batches ++ [tail] }

theorem tailWrite_accepted {tail : Nat} (h : TailFits s region tail) :
    s.tailWrite region tail = (s.setDoorbell region (Doorbell.accept (s.doorbell region) tail)).wantPass :=
  if_pos h

theorem tailWrite_refused {tail : Nat} (h : ¬ TailFits s region tail) :
    s.tailWrite region tail = s.setDoorbell region { s.doorbell region with terr := true } :=
  if_neg h

/-- A tail write touches its doorbell alone, whether it is accepted or not. -/
theorem tailWrite_cur (tail : Nat) : (s.tailWrite region tail).cur = s.cur := by
  unfold State.tailWrite
  dsimp only
  split <;> rfl

theorem tailWrite_launches (tail : Nat) : (s.tailWrite region tail).sched.launches = s.sched.launches := by
  unfold State.tailWrite
  dsimp only
  split <;> rfl

/-! ### RCBA (R31) -/

theorem takeRcba_blocked {rcba : Nat} (h : (s.doorbell region).live = true ∨ s.admitted region ≠ []) : s.takeRcba region rcba = s := by
  have : ((s.doorbell region).live || !(s.admitted region).isEmpty) = true := by simpa using h
  simp [State.takeRcba, this]

theorem takeRcba_free {rcba : Nat} (hl : (s.doorbell region).live = false) (ha : s.admitted region = []) :
    s.takeRcba region rcba = s.setDoorbell region { s.doorbell region with rcba := rcba } := by
  simp [State.takeRcba, hl, ha]

/-- The RCB is the one that the doorbell then names. -/
theorem rcbAddr_setDoorbell (d : Doorbell) : (s.setDoorbell region d).rcbAddr region = 256 * d.rcba := by
  simp [State.rcbAddr]

theorem queueLen_setDoorbell (d : Doorbell) :
    (s.setDoorbell region d).queueLen region = 2 ^ bitsAt (s.mem.hbm.bytes (256 * d.rcba) 256) 628 5 := by
  simp [State.queueLen, rcbAddr_setDoorbell]

theorem qhead_setDoorbell (d : Doorbell) : (s.setDoorbell region d).qhead region = leNat (s.mem.hbm.bytes (256 * d.rcba + 80) 4) := by
  simp [State.qhead, rcbAddr_setDoorbell]

theorem admitted_setDoorbell (d : Doorbell) (r : Nat) : (s.setDoorbell region d).admitted r = s.admitted r := rfl

/-- A doorbell as LIVE turns it on: it takes its RCBA, and its tail stands at QHEAD (R31). -/
def Doorbell.enliven (d : Doorbell) (rcba q h : Nat) : Doorbell :=
  { d with rcba := rcba, live := true, headv := h % 2 ^ 16, acur := h % q, tail := h % q, batches := [], run := none, ahead := [], held := none }

theorem execLiveOn_free {region : BitVec 16} {rcba : BitVec 44} (hl : (s.doorbell region.toNat).live = false)
    (ha : s.admitted region.toNat = []) :
    execLiveOn region rcba s = .next ((s.setDoorbell region.toNat { s.doorbell region.toNat with rcba := rcba.toNat }).setDoorbell region.toNat
      (Doorbell.enliven (s.doorbell region.toNat) rcba.toNat (2 ^ bitsAt (s.mem.hbm.bytes (256 * rcba.toNat) 256) 628 5)
        (leNat (s.mem.hbm.bytes (256 * rcba.toNat + 80) 4)))) := by
  simp [execLiveOn, hl, takeRcba_free hl ha, admitted_setDoorbell, ha, queueLen_setDoorbell, qhead_setDoorbell, Doorbell.enliven]

/-! ### LAUNCH requests (R182) -/

/-- The task at the front is the one on its tile. -/
theorem onTask_cur (h : s.cur.bound = true) (f : State → State) : s.onTask s.cur.bnd.tile f = f s := by
  simp [State.onTask, State.focus, h]

/-- A tile for which no launch keeps a context has no saved request. -/
theorem onContexts_none {tile : Nat} (h : ∀ l ∈ s.sched.launches, ∀ c ∈ l.contexts, c.bnd.tile ≠ tile) (f : State → State) :
    s.onContexts tile f = s := by
  unfold State.onContexts
  refine List.foldlRecOn (motive := fun t => t = s) _ _ rfl fun t ht l hl => ?_
  have hn : l.contexts.find? (fun t => t.bnd.tile == tile) = none := by simpa using h l hl
  simpa [hn] using ht

/-- Earlier writes of the task at device scope keep no request back. -/
theorem no_write_held (h : s.portClear s.cur.bnd.tile 1#2 = true) :
    (s.mem.wport.any fun w => w.tile == s.cur.bnd.tile && w.launch == s.cur.bnd.launch && !w.dev) = false := by
  rw [List.any_eq_false]
  intro w hw
  have := List.all_eq_true.mp h w hw
  have hd : w.performedAt 1#2 = w.dev := rfl
  rw [hd] at this
  cases hx : w.dev <;> simp_all

/-- A request for the task's own region, which is live, is a tail write. -/
theorem applyLaunch_own {r : LaunchReq} {rest : List LaunchReq} (hq : s.cur.eng.launchReqs = r :: rest)
    (hp : s.portClear s.cur.bnd.tile 1#2 = true) (hl : (s.doorbell r.region.toNat).live = true) (ho : r.region.toNat = s.cur.bnd.region) :
    s.applyLaunch = (s.modEng fun e => { e with launchReqs := rest }).tailWrite r.region.toNat r.tail.toNat := by
  rw [ho] at hl
  simp [State.applyLaunch, hq, no_write_held hp, hl, ho]

/-- A request for a region that is not live is refused with PROTECTION at its own bundle (log entry 34). -/
theorem applyLaunch_dead {r : LaunchReq} {rest : List LaunchReq} (hq : s.cur.eng.launchReqs = r :: rest)
    (hp : s.portClear s.cur.bnd.tile 1#2 = true) (hl : (s.doorbell r.region.toNat).live = false) (hn : s.cur.seq.pendingFault = none)
    (hs : s.cur.seq.state ≠ .dead) :
    s.applyLaunch = (s.modEng fun e => { e with launchReqs := rest }).modSeq fun q =>
      { q with pendingFault := some { fault := { status := .protection, cause := 0, slot := 6, info := r.region.zeroExtend 64 }, pc := some r.pc } } := by
  simp [State.applyLaunch, hq, no_write_held hp, hl, Task.defer, hn, hs]
  rfl

/-- A request applied leaves the launches as they are, so that only a saved context of the tile could have another. -/
theorem execLaunchRequestApply_cur (hb : s.cur.bound = true) (hc : ∀ l ∈ s.sched.launches, ∀ c ∈ l.contexts, c.bnd.tile ≠ s.cur.bnd.tile)
    (hs : s.applyLaunch.sched.launches = s.sched.launches) : execLaunchRequestApply s.cur.bnd.tile s = .next s.applyLaunch := by
  rw [execLaunchRequestApply, onTask_cur hb, onContexts_none (by rwa [hs])]

end Sys2Proof.Launching

open Sys2Proof Sys2Proof.Machine Sys2Proof.Laws Sys2Proof.Launching in
/-- Settles O41: every event writes its own doorbell alone, and a LAUNCH request is a tail write of its task's region, or a fault. -/
theorem queueEvents : Obligations.QueueEvents := by
  intro s region tail rcba d q h sets accepted taken
  have writes : ∀ {i d'} t, exec i s = .next t → OnlyDoorbell s t region.toNat d' → sets i d' := fun t e ht => ⟨t, e, ht⟩
  refine ⟨fun ha => ?tailTaken, fun ha => ?tailRefused, ?terr, ?off, fun hl => ?onAlready, fun hl ha => ⟨?on, ?rcba⟩, fun hb => ?rcbaBlocked,
    fun r rest hb hq hp hc hr ht hl ho => ?request, fun r rest hb hq hp hc hr hl hn hd => ?refused⟩
  case tailTaken => exact writes _ (congrArg Host.Outcome.next (tailWrite_accepted ha)) (onlyDoorbell_setDoorbell _).wantPass
  case tailRefused => exact writes _ (congrArg Host.Outcome.next (tailWrite_refused ha)) (onlyDoorbell_setDoorbell _)
  case terr => exact writes _ rfl (onlyDoorbell_setDoorbell _)
  case off => exact writes _ rfl (onlyDoorbell_setDoorbell _)
  case onAlready => exact congrArg Host.Outcome.next (if_pos hl)
  case on => exact writes _ (execLiveOn_free hl ha) ((onlyDoorbell_setDoorbell _).setDoorbell _)
  case rcba => exact writes _ (congrArg Host.Outcome.next (takeRcba_free hl ha)) (onlyDoorbell_setDoorbell _)
  case rcbaBlocked => exact congrArg Host.Outcome.next (takeRcba_blocked hb)
  case request =>
    subst hr ht
    have e := applyLaunch_own hq hp hl ho
    refine ⟨_, execLaunchRequestApply_cur hb hc (by rw [e, tailWrite_launches]; rfl), by rw [e, tailWrite_cur]; rfl, fun ha => ?_, fun ha => ?_⟩
    · rw [e, tailWrite_accepted (by exact ha)]
      exact doorbell_setDoorbell_self _
    · rw [e, tailWrite_refused (by exact ha)]
      exact doorbell_setDoorbell_self _
  case refused =>
    subst hr
    have e := applyLaunch_dead hq hp hl hn hd
    exact (execLaunchRequestApply_cur hb hc (by rw [e]; rfl)).trans (congrArg _ e)

end

section
/-! SUPPORT. The state after reset: its tables are empty, and its one task is blank. -/

namespace Sys2Proof.Launching
open Sys2Proof.Machine Sys2Proof.Laws Sys2Proof.Safety

/-- An empty register meets R190. -/
theorem registerRuns_nil {α : Type} : RegisterRuns ([] : Machine.Runs α) := by
  refine ⟨fun p h => ?_, Nat.zero_le _, Nat.zero_le _, fun j a h => ?_⟩
  · simp at h
  · simp at h

/-- A tile with no task holds empty registers, the reset VL, and nothing on its way. -/
theorem taskFits_blank : TaskFits .blank := by
  have hcl : ∀ i : Fin 8, Task.blank.cl[i] = Cluster.reset := fun i => by simp [Task.blank]
  refine ⟨fun i => ⟨fun r => ?_, fun k => ?_⟩, ?_, fun l h => ?_, fun w h => ?_, fun r h => ?_⟩
  · simpa [hcl, Cluster.vreg, vat, Cluster.reset] using registerRuns_nil
  · simpa [hcl, Cluster.kreg, vat, Cluster.reset] using registerRuns_nil
  · exact ⟨by decide, by decide⟩
  · simp [Task.blank, Seq.reset] at h
  · simp [Task.blank, Seq.reset] at h
  · simp [Task.blank, Seq.reset] at h

theorem tasks_reset : State.reset.tasks = [.blank] := rfl

/-- NBARB's reset value, on every channel: 16 cycles of holding, and one forced operation (R279, R423). -/
theorem nbarb_reset (g : Nat) : nbHold (State.reset.nbarb g) = 16 ∧ nbForce (State.reset.nbarb g) = 1 := by
  have h : State.reset.nbarb g = 0x4010#32 := rfl
  rw [h]
  decide

theorem canonical_reset : Canonical State.reset := by
  refine ⟨rfl, rfl, rfl, rfl, rfl, fun c h => ?_, fun t h => ?_, fun l h => ?_, fun d h => ?_⟩
  · simp [State.reset, Mgmt.reset] at h
  · rw [tasks_reset, List.mem_singleton] at h; subst h; exact TaskCanonical.blank
  · simp [State.reset, Sched.reset] at h
  · simp [State.reset, Sched.reset] at h

theorem registersFit_reset : RegistersFit State.reset := by
  refine ⟨fun t h => ?_, fun l h => ?_, fun d h => ?_⟩
  · rw [tasks_reset, List.mem_singleton] at h; subst h; exact taskFits_blank
  · simp [State.reset, Sched.reset] at h
  · simp [State.reset, Sched.reset] at h

end Sys2Proof.Launching

open Sys2Proof.Machine Sys2Proof.Launching in
/-- Settles O55: every table is empty at reset and so reads its reset record, and the one task is blank. -/
theorem resetValues : Obligations.ResetValues := by
  unfold Obligations.ResetValues
  refine ⟨⟨fun t h => ?tasks, fun _ => rfl, rfl, fun _ _ => rfl, fun _ => ⟨rfl, rfl⟩, fun _ => rfl, rfl, rfl, rfl, rfl, rfl, rfl, rfl, rfl,
    rfl, rfl, rfl, rfl, rfl, rfl, nbarb_reset, fun _ => rfl, rfl, rfl, rfl, rfl, rfl, rfl, rfl, rfl, rfl, rfl,
    fun _ => ⟨rfl, rfl, rfl, rfl, rfl⟩, fun _ _ => ⟨rfl, rfl, rfl, rfl, rfl, rfl, rfl, rfl, rfl⟩, fun _ => rfl, fun _ => rfl⟩,
    canonical_reset, registersFit_reset⟩
  rw [tasks_reset, List.mem_singleton] at h
  subst h
  rfl

end

section
-- One theorem at a time: each of these proofs waits for the ones it cites, and a thread for every proof that waits is more than the limits allow.
set_option Elab.async false

/-! SUPPORT. The device cycle and the cycle of the last pass: nothing that a pass sets going changes them (R39). -/

namespace Sys2Proof.Launching
open Sys2Proof Sys2Proof.Machine Sys2Proof.Laws

/-- The device cycle, and the cycle of the last pass. -/
def stamp (s : State) : Nat × Nat := (s.clk.tick, s.sched.lastPass)

theorem stamp_foldl {β : Type} {f : State → β → State} (hf : ∀ s x, stamp (f s x) = stamp s) {l : List β} {s : State} :
    stamp (l.foldl f s) = stamp s := by
  induction l generalizing s with
  | nil => rfl
  | cons x l ih => exact ih.trans (hf s x)

/-- What only counts and traces changes neither. -/
theorem stamp_observed {s t : State} (h : SameButObserved s t) : stamp t = stamp s := by
  obtain ⟨o, m, rfl⟩ := h
  rfl

theorem stallOf_observed (s : State) (t : Machine.Task) (cause n pc scyc : Nat) : SameButObserved s (s.stallOf t cause n pc scyc) := by
  unfold State.stallOf
  split
  · exact emitRec_observed ..
  · exact .refl s

theorem savedStall_observed (s : State) (t : Machine.Task) : SameButObserved s (s.savedStall t) := by
  unfold State.savedStall
  split
  · split
    · exact .refl s
    · exact stallOf_observed ..
  · exact .refl s

/-- The stalls of an ending task are but traced (R405). -/
theorem lastStalls_observed (s : State) (t : Machine.Task) : SameButObserved s (s.lastStalls t) := by
  unfold State.lastStalls
  extract_lets q s1
  have h1 : SameButObserved s s1 := by
    unfold s1
    split
    · exact stallOf_observed ..
    · exact .refl s
  refine .trans ?_ (savedStall_observed ..)
  split
  · exact h1
  · exact h1.trans (stallOf_observed ..)

/-! ### Parts of the state written -/

theorem stamp_mapTasks {s : State} {f : Task → Task} : stamp (s.mapTasks f) = stamp s := rfl

theorem stamp_onTile {s : State} {tile : Nat} {f : Task → Task} : stamp (s.onTile tile f) = stamp s := rfl

theorem stamp_modLaunch {s : State} {id : Nat} {f : Launch → Launch} : stamp (s.modLaunch id f) = stamp s := rfl

theorem stamp_modSeq {s : State} {f : Machine.Seq → Machine.Seq} : stamp (s.modSeq f) = stamp s := rfl

theorem stamp_modReg {s : State} {f : Regs → Regs} : stamp (s.modReg f) = stamp s := rfl

theorem stamp_modEng {s : State} {f : Engines → Engines} : stamp (s.modEng f) = stamp s := rfl

theorem stamp_choose {s : State} : stamp s.choose.2 = stamp s := rfl

theorem stamp_landWdog {s : State} : stamp s.landWdog = stamp s := by
  refine stamp_foldl fun s l => ?_
  grind [stamp_modLaunch]

theorem stamp_countChan {s : State} {g code n : Nat} : stamp (s.countChan g code n) = stamp s := stamp_observed (countChan_observed ..)

theorem stamp_countNode {s : State} {k code n : Nat} : stamp (s.countNode k code n) = stamp s := stamp_observed (countNode_observed ..)

theorem stamp_emit {s : State} {kind tag pc : Nat} {d0 d1 : W64} : stamp (s.emit kind tag pc d0 d1) = stamp s := stamp_observed (emit_observed ..)

theorem stamp_landDue {s : State} : stamp s.landDue = stamp s := (stamp_observed (landDue_observed s)).trans stamp_landWdog

theorem stamp_stallOf {s : State} {t : Machine.Task} {cause n pc scyc : Nat} :
    stamp (s.stallOf t cause n pc scyc) = stamp s := stamp_observed (stallOf_observed ..)

theorem stamp_savedStall {s : State} {t : Machine.Task} : stamp (s.savedStall t) = stamp s := stamp_observed (savedStall_observed ..)

theorem stamp_endLock {s : State} : stamp s.endLock = stamp s := by
  unfold State.endLock
  grind [stamp_modSeq, stamp_stallOf]

theorem stamp_lastStalls {s : State} {t : Machine.Task} : stamp (s.lastStalls t) = stamp s := stamp_observed (lastStalls_observed ..)

theorem stamp_setFab {s : State} {c : Nat} {x : FabCtx} : stamp (s.setFab c x) = stamp s := rfl

/-! ### Faults and the end of a launch (R377 to R384) -/

theorem stamp_leaveCtxs {s : State} {st : Machine.Stream} {errc : Nat} : stamp (s.leaveCtxs st errc) = stamp s :=
  stamp_foldl fun _ _ => stamp_setFab

theorem stamp_logEvent {s : State} {code arg : Nat} : stamp (s.logEvent code arg) = stamp s := rfl

theorem stamp_endTask {s : State} : stamp s.endTask = stamp s := by
  refine (stamp_foldl fun s r => ?_).trans stamp_savedStall
  grind [stamp_leaveCtxs]

theorem stamp_haltRcb {s : State} {addr : Nat} {bits cause : BitVec 8} : stamp (s.haltRcb addr bits cause) = stamp s := by
  unfold State.haltRcb
  grind [stamp]

theorem stamp_faultPolicy {s : State} {l : Launch} {st : Status} : stamp (s.faultPolicy l st) = stamp s := by
  unfold State.faultPolicy
  grind [stamp_haltRcb]

theorem stamp_endLaunch {s : State} {id : Nat} {st : Status} {f : Option Failing} : stamp (s.endLaunch id st f) = stamp s := by
  have hstalls (l : List Machine.Task) : stamp (l.foldl State.lastStalls s) = stamp s := stamp_foldl fun _ _ => stamp_lastStalls
  unfold State.endLaunch
  grind [stamp, stamp_mapTasks, stamp_faultPolicy, stamp_modLaunch]

theorem stamp_takeTerminal {s : State} {pc : Nat} {f : FaultInfo} : stamp (s.takeTerminal pc f) = stamp s := by
  unfold State.takeTerminal
  grind [stamp_modReg, stamp_emit, stamp_endLaunch, stamp_modSeq]

theorem stamp_enterTrap {s : State} {pc : Nat} {f : FaultInfo} : stamp (s.enterTrap pc f) = stamp s := by
  unfold State.enterTrap
  grind [stamp_modReg, stamp_emit, stamp_modSeq]

theorem stamp_takeFault {s : State} {pc : Nat} {f : FaultInfo} : stamp (s.takeFault pc f) = stamp s := by
  unfold State.takeFault
  grind [stamp_takeTerminal, stamp_enterTrap]

theorem stamp_returnTrap {s : State} : stamp s.returnTrap = stamp s := by
  unfold State.returnTrap
  grind [stamp_modReg, stamp_emit, stamp_modSeq, stamp_savedStall]

theorem stamp_advance {s : State} : stamp s.advance = stamp s := by
  unfold State.advance
  grind [stamp_modSeq, stamp_returnTrap, stamp_landDue, stamp_endTask]

theorem stamp_stallBoundary {s : State} : stamp s.stallBoundary = stamp s := by
  unfold State.stallBoundary
  grind [stamp_landDue, stamp_modSeq, stamp_advance]

/-! ### Translation and memory (R1 to R19, R351 to R369) -/

theorem stamp_beats {s : State} {g code n : Nat} : stamp (s.beats g code n) = stamp s := by
  unfold State.beats
  grind [stamp, stamp_countChan]

theorem stamp_tlbFill {s : State} {tile : Option Nat} {e : TlbEntry} : stamp (s.tlbFill tile e) = stamp s := rfl

theorem stamp_lookup {s : State} {x : Xctx} {va : Nat} : stamp (s.lookup x va).2 = stamp s := by
  unfold State.lookup
  extract_lets fresh entry useFresh
  have huse (fill : Bool) (s : State) : stamp (useFresh fill s).2 = stamp s := by
    unfold useFresh
    extract_lets reads s1
    have hbeats : stamp s1 = stamp s := stamp_foldl fun _ _ => stamp_beats
    clear_value s1
    cases fresh <;> grind [stamp_tlbFill]
  clear_value useFresh
  grind [stamp_tlbFill, ! stamp_choose]

theorem stamp_readBuf {s : State} {asid : BitVec 14} {pte : W64} : stamp (s.readBuf asid pte) = stamp s := by
  unfold State.readBuf
  grind [stamp_beats]

theorem stamp_translate {s : State} {x : Xctx} {w : Want} {va len : Nat} : stamp (s.translate x w va len).2 = stamp s := by
  unfold State.translate
  grind [! stamp_lookup, stamp_readBuf]

theorem stamp_spans {s : State} {x : Xctx} {w : Want} {fuel va n : Nat} : stamp (s.spans x w fuel va n).2 = stamp s := by
  induction fuel generalizing s va n with
  | zero => rfl
  | succ fuel ih =>
    unfold State.spans
    grind [! stamp_translate]

theorem stamp_writeBlock {s : State} {frame j : Nat} {block : List Byte} : stamp (s.writeBlock frame j block) = stamp s := by
  unfold State.writeBlock
  grind [stamp]

theorem stamp_cmpWrite {s : State} {addr : Nat} {bs : List Byte} : stamp (s.cmpWrite addr bs) = stamp s :=
  stamp_foldl fun _ _ => stamp_writeBlock

theorem stamp_homeWrite {s : State} {p : Place} {bs : List Byte} : stamp (s.homeWrite p bs) = stamp s := by
  unfold State.homeWrite
  grind [stamp, stamp_cmpWrite]

theorem stamp_checkSectors {s t : State} {launch tile : Nat} {wrote : Bool} {secs : List (Nat × Nat)}
    (e : s.checkSectors launch tile wrote secs = .ok t) : stamp t = stamp s := by
  unfold State.checkSectors at e
  grind [stamp_modLaunch]

theorem stamp_checkRace {s t : State} {launch tile : Nat} {wrote : Bool} {sps : List Span}
    (e : s.checkRace launch tile wrote sps = .ok t) : stamp t = stamp s := stamp_checkSectors e

theorem stamp_arrive {s : State} {w : PortWrite} : stamp (s.arrive w) = stamp s := by
  unfold State.arrive
  grind [stamp_homeWrite]

theorem stamp_drainDevice {s : State} {kind : Nat} : stamp (s.drainDevice kind) = stamp s := stamp_foldl fun _ _ => stamp_arrive

theorem stamp_leaveTile {s : State} {w : PortWrite} : stamp (s.leaveTile w) = stamp s := by
  unfold State.leaveTile
  grind [stamp, stamp_arrive]

theorem stamp_leavePort {s : State} {tile : Nat} : stamp (s.leavePort tile) = stamp s := stamp_foldl fun _ _ => stamp_leaveTile

theorem stamp_queuePlace {s : State} {tile unit : Nat} {p : Place} : stamp (s.queuePlace tile unit p) = stamp s := by
  unfold State.queuePlace
  grind [stamp]

theorem stamp_queueAt {s : State} {tile unit : Nat} {sps : List Span} : stamp (s.queueAt tile unit sps) = stamp s :=
  stamp_foldl fun _ _ => stamp_queuePlace

theorem stamp_performWrite {s : State} {scope : BitVec 2} {w : PortWrite} : stamp (s.performWrite scope w) = stamp s := by
  unfold State.performWrite
  grind [stamp, stamp_leaveTile, stamp_leavePort, stamp_arrive, stamp_drainDevice]

theorem stamp_passPort {s : State} {sps : List Span} : stamp (s.passPort sps) = stamp s := by
  refine stamp_foldl fun s sp => ?_
  grind [stamp_drainDevice]

theorem stamp_countBeats {s : State} {code : Nat} {sps : List Span} : stamp (s.countBeats code sps) = stamp s := by
  refine stamp_foldl fun s sp => ?_
  grind [stamp_beats]

theorem stamp_countLocal {s : State} {code addr n : Nat} : stamp (s.countLocal code addr n) = stamp s := by
  unfold State.countLocal
  grind [stamp_countBeats]

theorem stamp_readSpans {s : State} {t : Machine.Task} {unit : Nat} {sps : List Span} {counted : Bool} :
    stamp (s.readSpans t unit sps counted).2 = stamp s := by
  unfold State.readSpans
  grind [stamp_queueAt, → stamp_checkRace, stamp_passPort, stamp_countBeats]

theorem stamp_readOn {s : State} {t : Machine.Task} {want : Want} {va n fuel : Nat} {got : List Byte} :
    stamp (s.readOn t want va n fuel got).2 = stamp s := by
  induction fuel generalizing s got with
  | zero => rfl
  | succ fuel ih =>
    unfold State.readOn
    grind [! stamp_translate, ! stamp_readSpans, ! stamp_choose]

theorem stamp_writeSpan {s : State} {t : Machine.Task} {unit : Nat} {sp : Span} {bs : List Byte} {counted : Bool} :
    stamp (s.writeSpan t unit sp bs counted).2 = stamp s := by
  unfold State.writeSpan
  grind [stamp_queueAt, → stamp_checkRace, stamp_performWrite, stamp_countBeats]

theorem stamp_writeOn {s : State} {t : Machine.Task} {unit : Nat} {place : State → Nat → Nat → Except MemFail Span × State} {va : Nat}
    {bs : List Byte} {fuel k : Nat} (hplace : ∀ s a n, stamp (place s a n).2 = stamp s) :
    stamp (s.writeOn t unit place va bs fuel k).2.2 = stamp s := by
  induction fuel generalizing s k with
  | zero => rfl
  | succ fuel ih =>
    unfold State.writeOn
    grind [! stamp_writeSpan, ! stamp_choose]

/-! ### Towers and rings (R311 to R323) -/

theorem stamp_engineWrite {s : State} {tile i addr : Nat} {bs : List Byte} : stamp (s.engineWrite tile i addr bs) = stamp s := rfl

theorem stamp_clearRows {s : State} {ptower first n : Nat} : stamp (s.clearRows ptower first n) = stamp s := rfl

theorem stamp_clearLease {s : State} {tile lease : Nat} : stamp (s.clearLease tile lease) = stamp s := stamp_foldl fun _ _ => stamp_clearRows

theorem stamp_settle {s : State} {tile : Nat} : stamp (s.settle tile) = stamp s := rfl

theorem stamp_producePart {s : State} {tile : Nat} {h : BitVec 4} {i ix : Nat} {bs : List Byte} : stamp (s.producePart tile h i ix bs) = stamp s := by
  unfold State.producePart
  grind [stamp_engineWrite, stamp_settle, stamp_onTile]

theorem stamp_notePoison {s : State} {tile i : Nat} {gs : List Nat} {pc : Option Nat} : stamp (s.notePoison tile i gs pc) = stamp s := by
  unfold State.notePoison
  grind [stamp]

theorem stamp_engineFault {s : State} {tile : Nat} {st : Status} {info : W64} {pc : Nat} : stamp (s.engineFault tile st info pc) = stamp s := rfl

theorem stamp_nbuFault {s : State} {tile : Nat} {info : W64} {pc : Nat} : stamp (s.nbuFault tile info pc) = stamp s := rfl

theorem stamp_engineMemFault {s : State} {tile pc : Nat} {x : MemFail} : stamp (s.engineMemFault tile pc x) = stamp s := by
  unfold State.engineMemFault
  grind [stamp_engineFault]

theorem stamp_produceRow {s : State} {tile : Nat} {h : BitVec 4} {ix : Nat} {parts : List (List Byte)} :
    stamp (s.produceRow tile h ix parts) = stamp s := stamp_foldl fun _ _ => stamp_producePart

theorem stamp_windowPiece {s : State} {t : Machine.Task} {want : Want} {w : Window} {e off : Nat} {counted : Bool} :
    stamp (s.windowPiece t want w e off counted).2 = stamp s := by
  unfold State.windowPiece
  grind [! stamp_translate, ! stamp_readSpans]

theorem stamp_windowBytes {s : State} {t : Machine.Task} {want : Want} {w : Window} {e n fuel : Nat} {got : List Nat} :
    stamp (s.windowBytes t want w e n fuel got).2 = stamp s := by
  induction fuel generalizing s got with
  | zero => rfl
  | succ fuel ih =>
    unfold State.windowBytes
    grind [! stamp_windowPiece, ! stamp_choose]

theorem stamp_readRow {s : State} {t : Machine.Task} {want : Want} {w : Window} {j : Nat} {got : List Nat} :
    stamp (s.readRow t want w j got).2 = stamp s := by
  unfold State.readRow
  grind [! stamp_readOn, ! stamp_windowBytes]

/-! ### Streams and their graphs (R255 to R276) -/

theorem stamp_modRing {s : State} {tile : Nat} {h : BitVec 4} {f : Machine.Ring → Machine.Ring} : stamp (s.modRing tile h f) = stamp s := rfl

theorem stamp_modStream {s : State} {tile : Nat} {h : BitVec 4} {f : Machine.Stream → Machine.Stream} :
    stamp (s.modStream tile h f) = stamp s := rfl

theorem stamp_streamDone {s : State} {tile : Nat} {h : BitVec 4} {st : Machine.Stream} : stamp (s.streamDone tile h st) = stamp s := by
  unfold State.streamDone
  grind [stamp_modRing, stamp_leaveCtxs]

theorem stamp_streamError {s : State} {tile : Nat} {h : BitVec 4} {st : Machine.Stream} {kind errc : Nat} :
    stamp (s.streamError tile h st kind errc) = stamp s := by
  unfold State.streamError
  grind [stamp_leaveCtxs, stamp_onTile]

theorem stamp_windowFail {s : State} {tile : Nat} {h : BitVec 4} {st : Machine.Stream} {x : MemFail} :
    stamp (s.windowFail tile h st x) = stamp s := by
  unfold State.windowFail
  grind [stamp_streamError, stamp_engineFault, stamp_modRing]

theorem stamp_windowRow {s : State} {t : Machine.Task} {h : BitVec 4} {st : Machine.Stream} : stamp (s.windowRow t h st) = stamp s := by
  unfold State.windowRow
  grind [! stamp_readRow, stamp_windowFail, stamp_modStream, stamp_produceRow, stamp_streamDone]

theorem stamp_streamRead {s : State} {t : Machine.Task} {st : Machine.Stream} {stateful : Bool} {va n : Nat} :
    stamp (s.streamRead t st stateful va n).2 = stamp s := by
  unfold State.streamRead
  grind [! stamp_translate, stamp_queueAt, → stamp_checkRace]

theorem stamp_streamBeat {s : State} {t : Machine.Task} {st : Machine.Stream} {stateful : Bool} {k : Nat} :
    stamp (s.streamBeat t st stateful k).2 = stamp s := by
  unfold State.streamBeat
  grind [! stamp_streamRead, ! stamp_choose]

theorem stamp_decodeBeat {s : State} {t : Machine.Task} {st : Machine.Stream} {fuel : Nat} {got : List Byte} :
    stamp (s.decodeBeat t st fuel got).2 = stamp s := by
  induction fuel generalizing s got with
  | zero => rfl
  | succ fuel ih =>
    unfold State.decodeBeat
    grind [! stamp_streamRead, ! stamp_choose]

theorem stamp_takeCell {s : State} {t : Machine.Task} {h : BitVec 4} {st : Machine.Stream} : stamp (s.takeCell t h st) = stamp s := by
  unfold State.takeCell
  grind [stamp_onTile, stamp_modStream, stamp_setFab]

theorem stamp_openDecode {s : State} {t : Machine.Task} {h : BitVec 4} {st : Machine.Stream} : stamp (s.openDecode t h st) = stamp s := by
  unfold State.openDecode
  grind [! stamp_readOn, stamp_streamError, stamp_engineFault, stamp_modStream]

theorem stamp_setNbu {s : State} {chan : Nat} {u : Nbu} : stamp (s.setNbu chan u) = stamp s := rfl

theorem stamp_donePlace {s : State} {agent unit : Nat} {c : NbCmd} : stamp (s.donePlace agent unit c).2 = stamp s := by
  unfold State.donePlace
  grind [! stamp_translate, stamp_queueAt]

theorem stamp_bumpDone {s : State} {sp : Span} {f : Nat → Nat} : stamp (s.bumpDone sp f) = stamp s := by
  unfold State.bumpDone
  grind [stamp_countBeats, stamp_homeWrite]

theorem stamp_sinkRefused {s : State} {c : NbCmd} : stamp (s.sinkRefused c) = stamp s := by
  unfold State.sinkRefused
  grind [stamp_streamError, stamp_setFab]

theorem stamp_nbFail {s : State} {chan : Nat} {c : NbCmd} {row : W32} : stamp (s.nbFail chan c row) = stamp s := by
  unfold State.nbFail
  grind [stamp_setNbu, stamp_nbuFault, stamp_sinkRefused, ! stamp_donePlace, stamp_bumpDone]

theorem stamp_nbPush {s : State} {chan : Nat} {c : NbCmd} : stamp (s.nbPush chan c) = stamp s := rfl

theorem stamp_sinkWord {s : State} {t : Machine.Task} {st : Machine.Stream} {g : Machine.Graph} {v : W32} {k : Nat} :
    stamp (s.sinkWord t st g v k).2 = stamp s := by
  unfold State.sinkWord
  grind [! stamp_translate, stamp_queueAt, → stamp_checkRace, stamp_performWrite, stamp_countBeats]

theorem stamp_sinkWords {s : State} {t : Machine.Task} {st : Machine.Stream} {g : Machine.Graph} {vs : List W32} {k : Nat} :
    stamp (State.sinkWords t st g s vs k).2.2.2 = stamp s := by
  induction vs generalizing s k with
  | nil => rfl
  | cons v vs ih =>
    unfold State.sinkWords
    grind [! stamp_sinkWord]

theorem stamp_applyStop {s : State} {tile : Nat} {h : BitVec 4} {st : Machine.Stream} {x : Stop} : stamp (s.applyStop tile h st x) = stamp s := by
  unfold State.applyStop
  grind [stamp_streamError, stamp_engineFault]

theorem stamp_packetWaits {s : State} {tile : Nat} {h : BitVec 4} {st : Machine.Stream} : stamp (s.packetWaits tile h st) = stamp s := by
  unfold State.packetWaits
  grind [stamp_modStream, stamp_logEvent]

theorem stamp_sinkStep {s : State} {t : Machine.Task} {h : BitVec 4} {st : Machine.Stream} {g : Machine.Graph} {last : Bool} :
    stamp (s.sinkStep t h st g last).2 = stamp s := by
  unfold State.sinkStep
  grind [stamp_produceRow, stamp_streamDone, stamp_modStream, ! stamp_sinkWords, stamp_applyStop, stamp_streamError, stamp_nbFail,
    stamp_nbPush, stamp_packetWaits]

theorem stamp_tookBeats {s : State} {c n : Nat} : stamp (s.tookBeats c n) = stamp s := by
  unfold State.tookBeats
  grind [stamp_beats, stamp_countChan, stamp_setFab]

theorem stamp_takeBeat {s : State} {t : Machine.Task} {h : BitVec 4} {st : Machine.Stream} {g : Machine.Graph} :
    stamp (s.takeBeat t h st g) = stamp s := by
  unfold State.takeBeat
  grind [stamp_decodeBeat, stamp_modStream, stamp_setFab, stamp_tookBeats, stamp_applyStop, ! stamp_streamBeat]

theorem stamp_frameFill {s : State} {t : Machine.Task} {h : BitVec 4} {st : Machine.Stream} {g : Machine.Graph} :
    stamp (s.frameFill t h st g) = stamp s := rfl

theorem stamp_graphMove {s : State} {t : Machine.Task} {h : BitVec 4} {st : Machine.Stream} : stamp (s.graphMove t h st) = stamp s := by
  unfold State.graphMove
  split
  · rfl
  · split
    · rfl
    · split
      · exact stamp_takeCell
      · split
        · rfl
        · split
          · split
            · rfl
            · exact stamp_foldl fun _ _ => stamp_setFab
          · split
            · exact stamp_openDecode
            · dsimp only
              split
              next e => exact (congrArg (stamp ·.2) e).symm.trans stamp_sinkStep
              next e =>
                have hsink := (congrArg (stamp ·.2) e).symm.trans stamp_sinkStep
                split
                · exact hsink
                · split
                  · exact stamp_takeBeat.trans hsink
                  · split
                    · exact stamp_frameFill.trans hsink
                    · exact hsink

theorem stamp_cutStep {s : State} {t : Machine.Task} {h : BitVec 4} {st : Machine.Stream} : stamp (s.cutStep t h st) = stamp s := by
  unfold State.cutStep
  grind [stamp_modStream, stamp_graphMove, stamp_modRing, stamp_leaveCtxs]

theorem stamp_graphStep {s : State} {t : Machine.Task} {h : BitVec 4} {st : Machine.Stream} : stamp (s.graphStep t h st) = stamp s := by
  unfold State.graphStep
  grind [stamp_cutStep, stamp_graphMove]

theorem stamp_markGroup {s : State} {tile : Nat} {h : BitVec 4} {st : Machine.Stream} : stamp (s.markGroup tile h st) = stamp s := by
  unfold State.markGroup
  grind [stamp_modStream]

theorem stamp_markGroups {s : State} {t : Machine.Task} : stamp (t.markGroups s) = stamp s := stamp_foldl fun _ _ => stamp_markGroup

theorem stamp_setRefresh {s : State} {ptower : Nat} {r : Refresh} : stamp (s.setRefresh ptower r) = stamp s := rfl

theorem stamp_focus {s t : State} {tile : Nat} (e : s.focus tile = some t) : stamp t = stamp s := by
  unfold State.focus at e
  grind [stamp]

theorem stamp_onTask {s : State} {tile : Nat} {f : State → State} (hf : ∀ s, stamp (f s) = stamp s) : stamp (s.onTask tile f) = stamp s := by
  unfold State.onTask
  grind [→ stamp_focus]

theorem stamp_streamStep {s : State} {tile : Nat} {h : BitVec 4} : stamp (s.streamStep tile h) = stamp s := by
  unfold State.streamStep
  grind [stamp_windowRow, stamp_graphStep]

/-! ### The column bus, the express and the copier (R324 to R337) -/

theorem stamp_setBcHead {s : State} {col : Nat} {x : Option BcXfer} : stamp (s.setBcHead col x) = stamp s := rfl

theorem stamp_bcLand {s : State} {x : BcXfer} {bs : List Byte} {t : Machine.Task} : stamp (s.bcLand x bs t) = stamp s := by
  unfold State.bcLand
  cases x.ring with
  | none => exact stamp_settle.trans (stamp_foldl fun _ _ => stamp_engineWrite)
  | some h => exact stamp_produceRow.trans stamp_modRing

theorem stamp_bcStep {s : State} {col : Nat} : stamp (s.bcStep col) = stamp s := by
  unfold State.bcStep
  split
  · rfl
  · split
    · exact stamp_setBcHead
    · extract_lets
      split
      · rfl
      · split
        · rfl
        · split
          · exact stamp_engineFault.trans stamp_setBcHead
          · split
            · rfl
            · split
              next e => exact (congrArg (stamp ·.2) e).symm.trans stamp_readOn
              next e =>
                have hread := (congrArg (stamp ·.2) e).symm.trans stamp_readOn
                dsimp only
                split
                · exact (stamp_foldl fun _ _ => stamp_onTile).trans (stamp_setBcHead.trans hread)
                · exact stamp_engineMemFault.trans (stamp_setBcHead.trans hread)
              next e =>
                have hread := (congrArg (stamp ·.2) e).symm.trans stamp_readOn
                split
                · exact stamp_setBcHead.trans hread
                · exact stamp_setBcHead.trans (stamp_onTile.trans ((stamp_foldl fun _ _ => stamp_bcLand).trans hread))

theorem stamp_dropPacket {s : State} {k : Nat} {p : Packet} {landed : Nat} : stamp (s.dropPacket k p landed) = stamp s := rfl

theorem stamp_packetFault {s : State} {k : Nat} {p : Packet} {st : Status} {info : W64} : stamp (s.packetFault k p st info) = stamp s := rfl

theorem stamp_packetAt {s : State} {k : Nat} {p : Packet} {t : Machine.Task} : stamp (s.packetAt k p t) = stamp s := by
  have hroute (s : State) (l : List Nat) : stamp (l.foldl (fun s c => s.countNode c 2 1) s) = stamp s := stamp_foldl fun _ _ => stamp_countNode
  unfold State.packetAt
  grind [stamp, stamp_dropPacket, stamp_packetFault, stamp_producePart, stamp_modRing, stamp_settle, stamp_engineWrite, stamp_onTile,
    stamp_countNode]

theorem stamp_landPacket {s : State} {k : Nat} : stamp (s.landPacket k) = stamp s := by
  have hroute (s : State) (l : List Nat) : stamp (l.foldl (fun s c => s.countNode c 2 1) s) = stamp s := stamp_foldl fun _ _ => stamp_countNode
  unfold State.landPacket
  grind [stamp_dropPacket, stamp_packetAt]

theorem stamp_copyPlace {s : State} {t : Machine.Task} {o : DmOp} {va n : Nat} : stamp (copyPlace t o s va n).2 = stamp s := by
  unfold copyPlace
  grind [stamp_beats, ! stamp_translate]

theorem stamp_copyRows {s : State} {o : DmOp} {off n fuel : Nat} {got : List Byte} : stamp (s.copyRows o off n fuel got).2 = stamp s := by
  induction fuel generalizing s got with
  | zero => rfl
  | succ fuel ih =>
    unfold State.copyRows
    grind [! stamp_choose, stamp_notePoison]

theorem stamp_putRows {s : State} {o : DmOp} {off : Nat} {bs : List Byte} {fuel k : Nat} : stamp (s.putRows o off bs fuel k).2 = stamp s := by
  induction fuel generalizing s k with
  | zero => rfl
  | succ fuel ih =>
    unfold State.putRows
    grind [! stamp_choose, stamp_engineWrite]

theorem stamp_copyStep {s : State} : stamp s.copyStep = stamp s := by
  unfold State.copyStep
  extract_lets tile
  split
  · rfl
  · split
    · rfl
    next o rest _ _ =>
      extract_lets off n set done waits fail toMem toTower
      have hset (s : State) (o : DmOp) : stamp (set s o) = stamp s := stamp_modEng
      have hdone (s : State) : stamp (done s) = stamp s := by
        unfold done
        split
        · exact stamp_modEng
        · exact hset _ _
      have hwaits (s : State) : stamp (waits s) = stamp s := by
        unfold waits
        split
        · exact stamp_modEng
        · rfl
      have hfail (s : State) (f : MemFail) : stamp (fail s f) = stamp s := by
        unfold fail
        split
        · exact hwaits s
        · exact stamp_engineMemFault.trans stamp_modEng
      have hmem (s : State) (bs : List Byte) : stamp (toMem s bs) = stamp s := by
        have hwrite {r : Except MemFail Nat} {k : Nat} {t : State}
            (e : State.writeOn s.cur 17 (copyPlace s.cur o) (o.dst + off) bs (unitFuel n) o.put s = (r, k, t)) : stamp t = stamp s :=
          (congrArg (stamp ·.2.2) e).symm.trans (stamp_writeOn fun _ _ _ => stamp_copyPlace)
        unfold toMem
        split
        next e => exact (hwaits _).trans ((hset _ _).trans (hwrite e))
        next e => exact (hfail _ _).trans (hwrite e)
        next e =>
          split
          · exact (hset _ _).trans (hwrite e)
          · exact (hdone _).trans (hwrite e)
      have htower (s : State) (bs : List Byte) : stamp (toTower s bs) = stamp s := by
        have hput : stamp ((State.putRows o off bs 64 o.put s).2.settle tile) = stamp s := stamp_settle.trans stamp_putRows
        unfold toTower
        dsimp only
        split
        · exact (hset _ _).trans hput
        · exact (hdone _).trans hput
      clear_value set done waits fail toMem toTower
      split
      · dsimp only
        split
        · exact (hset _ _).trans stamp_copyRows
        · exact (hmem _ _).trans stamp_copyRows
      · split
        · rfl
        · split
          · split
            · exact hmem _ _
            · exact htower _ _
          · split
            next e => exact (hfail _ _).trans ((congrArg (stamp ·.2) e).symm.trans stamp_readOn)
            next e =>
              have hread := (congrArg (stamp ·.2) e).symm.trans stamp_readOn
              split
              · exact (hset _ _).trans hread
              · split
                · exact (hmem _ _).trans hread
                · exact (htower _ _).trans hread

/-! ### Admission and completion (R17 to R38, R417, R418) -/

theorem stamp_wantPass {s : State} : stamp s.wantPass = stamp s := rfl

theorem stamp_putDeferral {s : State} {ptower e : Nat} : stamp (s.putDeferral ptower e) = stamp s := rfl

theorem stamp_endDeferral {s : State} {ptower : Nat} : stamp (s.endDeferral ptower) = stamp s := by
  unfold State.endDeferral
  grind [stamp_setRefresh]

theorem stamp_endDeferrals {s : State} {tile : Nat} : stamp (s.endDeferrals tile) = stamp s := stamp_foldl fun _ _ => stamp_endDeferral

theorem stamp_setDoorbell {s : State} {region : Nat} {d : Doorbell} : stamp (s.setDoorbell region d) = stamp s := rfl

theorem stamp_schedRead {s : State} {id : Nat} {e : Effective} {va n : Nat} : stamp (s.schedRead id e va n).2 = stamp s := by
  unfold State.schedRead
  grind [! stamp_spans, stamp_queueAt, stamp_countBeats, stamp_passPort]

theorem stamp_readPart {s : State} {l : Launch} {k va n : Nat} : stamp (s.readPart l k va n).2 = stamp s := by
  unfold State.readPart
  grind [! stamp_schedRead]

theorem stamp_readTaskImage {s : State} {l : Launch} : stamp (s.readTaskImage l).2 = stamp s := by
  have hpart {s t : State} {k va n : Nat} {r : Except SchedFail (List Byte)} (e : s.readPart l k va n = (r, t)) : stamp t = stamp s :=
    (congrArg (stamp ·.2) e).symm.trans stamp_readPart
  unfold State.readTaskImage
  split
  next e => exact hpart e
  next e =>
    have h1 := hpart e
    dsimp only
    split
    · exact h1
    · split
      next e => exact (hpart e).trans h1
      next e =>
        have h2 := (hpart e).trans h1
        split
        · exact h2
        · split
          · exact h2
          · split
            · exact h2
            · split
              next e => exact (hpart e).trans h2
              next e =>
                have h3 := (hpart e).trans h2
                split
                next e => exact (hpart e).trans h3
                next e => exact (hpart e).trans h3

theorem stamp_readLaunch {s : State} {l : Launch} : stamp (s.readLaunch l).2 = stamp s := by
  unfold State.readLaunch
  grind [! stamp_readTaskImage, ! stamp_schedRead]

theorem stamp_completionPlace {s : State} {l : Launch} {va n : Nat} : stamp (s.completionPlace l va n).2 = stamp s := by
  unfold State.completionPlace
  grind [! stamp_spans, stamp_logEvent, stamp_queueAt]

theorem stamp_writeSpans {s : State} {sps : List Span} {bs : List Byte} : stamp (s.writeSpans sps bs) = stamp s :=
  (stamp_foldl fun _ _ => stamp_homeWrite).trans (stamp_countBeats.trans stamp_passPort)

theorem stamp_advanceQhead {s : State} {region : Nat} : stamp (s.advanceQhead region) = stamp s := by
  unfold State.advanceQhead
  grind [stamp_countLocal, stamp_homeWrite, stamp_setDoorbell]

theorem stamp_complete {s t : State} {l : Launch} (e : s.complete l = .ok t) : stamp t = stamp s := by
  have hplace {s t : State} {va n : Nat} {r : Option (Option (List Span))} (e : s.completionPlace l va n = (r, t)) : stamp t = stamp s :=
    (congrArg (stamp ·.2) e).symm.trans stamp_completionPlace
  unfold State.complete at e
  split at e
  · exact absurd e (by simp)
  · split at e
    · exact absurd e (by simp)
    next e1 =>
      split at e
      · exact absurd e (by simp)
      next e2 =>
        have h2 := (hplace e2).trans (hplace e1)
        obtain rfl := Except.ok.inj e
        refine stamp_advanceQhead.trans ?_
        grind [stamp_writeSpans, stamp_countBeats]

theorem stamp_complete_error {s t : State} {l : Launch} (e : s.complete l = .error t) : stamp t = stamp s := by
  unfold State.complete at e
  grind [stamp]

theorem stamp_openRun {s : State} {region : Nat} {rcb : List Byte} : stamp (s.openRun region rcb) = stamp s := by
  unfold State.openRun
  dsimp only
  split
  · rfl
  · split
    · rfl
    · simp only [stamp, State.setDoorbell]
      exact stamp_foldl fun _ _ => stamp_countLocal

theorem stamp_judgeImage {s : State} {region : Nat} {l : Launch} : stamp (s.judgeImage region l).2 = stamp s := by
  unfold State.judgeImage
  grind [! stamp_readLaunch, stamp_setDoorbell]

theorem stamp_judgeRecord {s : State} {region : Nat} {rcb : List Byte} {e : Effective} : stamp (s.judgeRecord region rcb e).2 = stamp s := by
  unfold State.judgeRecord
  grind [stamp_openRun, ! stamp_judgeImage]

theorem stamp_judge {s : State} {region : Nat} : stamp (s.judge region).2 = stamp s := by
  unfold State.judge
  extract_lets d
  split
  · rfl
  · split
    · rfl
    · split
      · rfl
      · split
        · rfl
        · split
          · rfl
          · split
            · rfl
            · rfl
            · split
              · rfl
              · split
                · rfl
                · split
                  · rfl
                  · split
                    · exact stamp_judgeImage
                    · split
                      · rfl
                      · exact stamp_judgeRecord.trans (stamp_countLocal.trans (stamp_foldl fun _ _ => stamp_countLocal))

theorem stamp_retireRefused {s : State} {l : Launch} : stamp (s.retireRefused l) = stamp s := by
  unfold State.retireRefused
  grind [stamp, → stamp_complete, → stamp_complete_error, stamp_wantPass]

theorem stamp_admitOne {s : State} {region : Nat} : stamp (s.admitOne region).2 = stamp s := by
  unfold State.admitOne
  grind [stamp, ! stamp_judge, stamp_logEvent, stamp_haltRcb, stamp_setDoorbell, stamp_faultPolicy, stamp_retireRefused]

theorem stamp_admitRegion {s : State} {region fuel : Nat} : stamp (s.admitRegion region fuel) = stamp s := by
  induction fuel generalizing s with
  | zero => rfl
  | succ fuel ih =>
    unfold State.admitRegion
    grind [! stamp_admitOne]

theorem stamp_admitAll {s : State} : stamp s.admitAll = stamp s := by
  refine stamp_foldl fun s p => ?_
  grind [stamp_admitRegion]

theorem stamp_dropDeficits {s : State} : stamp s.dropDeficits = stamp s := rfl

/-! ### Repair and stops (R61 to R80, R388 to R395) -/

theorem stamp_setPstate {s : State} {ptile v : Nat} : stamp (s.setPstate ptile v) = stamp s := rfl

theorem stamp_setRemap {s : State} {tile : Nat} {e : RemapEntry} : stamp (s.setRemap tile e) = stamp s := rfl

theorem stamp_moveTower {s : State} {src dst : Nat} : stamp (s.moveTower src dst) = stamp s := by
  unfold State.moveTower
  grind [stamp, stamp_putDeferral, stamp_endDeferral, stamp_clearRows]

theorem stamp_moveTile {s : State} {tile px : Nat} : stamp (s.moveTile tile px) = stamp s :=
  stamp_setRemap.trans (stamp_foldl fun _ _ => stamp_moveTower)

theorem stamp_replaceTile {s : State} {tile : Nat} : stamp (s.replaceTile tile) = stamp s := by
  unfold State.replaceTile
  grind [stamp_wantPass, stamp_moveTile, stamp_setRemap]

theorem stamp_abandonCopies {s : State} {tiles : List Nat} : stamp (s.abandonCopies tiles) = stamp s := rfl

theorem stamp_landOwned {s : State} {launch tile fuel : Nat} : stamp (s.landOwned launch tile fuel) = stamp s := by
  induction fuel generalizing s with
  | zero => rfl
  | succ fuel ih =>
    refine ih.trans (stamp_foldl fun s k => ?_)
    grind [stamp_landPacket]

theorem stamp_finishRow {s : State} {launch tile fuel : Nat} : stamp (s.finishRow launch tile fuel) = stamp s := by
  induction fuel generalizing s with
  | zero => rfl
  | succ fuel ih =>
    unfold State.finishRow
    grind [stamp_bcStep]

theorem stamp_finishCut {s : State} {tile fuel : Nat} : stamp (s.finishCut tile fuel) = stamp s := by
  induction fuel generalizing s with
  | zero => rfl
  | succ fuel ih =>
    unfold State.finishCut
    split
    · rfl
    · split_ifs
      · rfl
      · exact ih.trans ((stamp_onTask fun _ => stamp_copyStep).trans (stamp_foldl fun _ _ => stamp_streamStep))

theorem stamp_finishUnits {s : State} {launch tile : Nat} : stamp (s.finishUnits launch tile) = stamp s := by
  unfold State.finishUnits
  grind [stamp_finishRow, stamp_landOwned, stamp_finishCut, stamp_onTile]

theorem stamp_reexec {s t : State} {tile pst : Nat} (e : s.reexec tile pst = some t) : stamp t = stamp s := by
  unfold State.reexec at e
  grind [stamp, stamp_finishUnits, stamp_abandonCopies, stamp_endDeferrals, stamp_clearLease, stamp_moveTile, stamp_setPstate, stamp_onTile,
    stamp_wantPass, stamp_modLaunch]

theorem stamp_takePending {s : State} : stamp s.takePending = stamp s := by
  unfold State.takePending
  grind [stamp_modSeq, stamp_endLock, → stamp_reexec, stamp_stallBoundary, stamp_takeFault]

theorem stamp_modTasks {s : State} {id : Nat} {f : Machine.Task → Machine.Task} : stamp (s.modTasks id f) = stamp s := rfl

theorem stamp_stopLaunch {s : State} {why : StopWhy} {id : Nat} : stamp (s.stopLaunch why id) = stamp s := by
  have htake (l : List Machine.Task) : stamp (l.foldl (fun s t => s.onTask t.bnd.tile State.takePending) s) = stamp s :=
    stamp_foldl fun _ _ => stamp_onTask fun _ => stamp_takePending
  have hmark (s : State) (l : List Machine.Task) : stamp (l.foldl (fun s t => t.markGroups s) s) = stamp s :=
    stamp_foldl fun _ _ => stamp_markGroups
  unfold State.stopLaunch
  grind [stamp_abandonCopies, stamp_modLaunch, stamp_modTasks]

theorem stamp_startStop {s : State} {id : Nat} {why : StopWhy} : stamp (s.startStop id why) = stamp s := by
  unfold State.startStop
  split
  · rfl
  · exact stamp_foldl fun _ _ => stamp_stopLaunch

theorem stamp_endAborted {s : State} {id : Nat} : stamp (s.endAborted id) = stamp s := by
  unfold State.endAborted
  grind [stamp_endLaunch]

/-! ### The scheduler (R36 to R52) -/

theorem stamp_refuseLaunch {s : State} {id : Nat} {st : Status} {recbad : Bool} {info : W64} :
    stamp (s.refuseLaunch id st recbad info) = stamp s := by
  unfold State.refuseLaunch
  grind [stamp_modLaunch, stamp_faultPolicy]

theorem stamp_readDeps {s : State} {id : Nat} {e : Effective} {ds : List Dep} {n : Nat} : stamp (s.readDeps id e ds n).2 = stamp s := by
  induction ds generalizing s n with
  | nil => rfl
  | cons d ds ih =>
    unfold State.readDeps
    grind [! stamp_schedRead]

theorem stamp_evalDeps {s : State} {l : Launch} : stamp (s.evalDeps l) = stamp s := by
  unfold State.evalDeps
  grind [! stamp_readDeps, stamp_refuseLaunch, stamp_modLaunch]

theorem stamp_makeEligible {s : State} {l : Launch} : stamp (s.makeEligible l) = stamp s := by
  have hrefuse (info : W64) (ms : List Launch) : stamp (ms.foldl (fun s m => s.refuseLaunch m.id .unplaceable false info) s) = stamp s :=
    stamp_foldl fun _ _ => stamp_refuseLaunch
  unfold State.makeEligible
  dsimp only
  split_ifs
  · rfl
  · exact hrefuse _ _
  · exact hrefuse _ _
  · exact stamp_foldl fun _ _ => stamp_modLaunch

theorem stamp_retest {s : State} {l : Launch} : stamp (s.retest l) = stamp s := by
  have hrefuse (ms : List Launch) : stamp (ms.foldl (fun s m => s.refuseLaunch m.id .unplaceable false 0#64) s) = stamp s :=
    stamp_foldl fun _ _ => stamp_refuseLaunch
  unfold State.retest
  grind [stamp_modLaunch]

theorem stamp_age {s : State} {l : Launch} : stamp (s.age l) = stamp s := by
  unfold State.age
  grind [stamp_wantPass, stamp_dropDeficits, stamp_modLaunch]

theorem stamp_giveUp {s : State} {ids : List Nat} : stamp (s.giveUp ids) = stamp s :=
  stamp_foldl fun _ _ => stamp_endAborted.trans stamp_modLaunch

theorem stamp_chooseGroup {s : State} {p : State × List Nat} {ms : List Launch} (e : s.chooseGroup ms = some p) : stamp p.1 = stamp s := by
  refine List.foldlRecOn (motive := fun o : Option (State × List Nat) => ∀ p ∈ o, stamp p.1 = stamp s) ms _ ?_ (fun o ho m _ p hp => ?_) p e
  · rintro _ ⟨⟩
    rfl
  · obtain ⟨⟨s1, vs⟩, h1, h2⟩ := Option.bind_eq_some_iff.1 hp
    obtain ⟨⟨o', vs'⟩, -, rfl⟩ := Option.map_eq_some_iff.1 h2
    exact stamp_modLaunch.trans (ho _ h1)

theorem stamp_place {s t : State} {ms : List Launch} (e : s.place ms = some t) : stamp t = stamp s := by
  unfold State.place at e
  split at e
  · exact absurd e (by simp)
  · obtain ⟨p, hp, rfl⟩ := Option.map_eq_some_iff.1 e
    exact stamp_giveUp.trans (stamp_dropDeficits.trans (stamp_chooseGroup hp))

theorem stamp_press {s : State} {v : Launch} : stamp (s.press v) = stamp s := by
  unfold State.press
  dsimp only
  split
  · exact stamp_startStop
  · exact stamp_foldl fun _ _ => stamp_modLaunch.trans stamp_abandonCopies
  · exact stamp_foldl fun _ _ => stamp_modLaunch.trans stamp_abandonCopies
  · exact stamp_foldl fun _ _ => stamp_modLaunch
  · rfl

theorem stamp_pressAll {s : State} : stamp s.pressAll = stamp s := by
  refine stamp_foldl fun s v => ?_
  grind [stamp_press]

theorem stamp_passPlace {s t : State} {ms : List Launch} (e : s.passPlace ms = some t) : stamp t = stamp s := by
  unfold State.passPlace at e
  split_ifs at e
  · exact stamp_place (Option.filter_eq_some_iff.1 e).1
  · exact stamp_place e

theorem stamp_serve {s : State} {put : State → List Launch → Option State} {gs : List (List Launch)} {d : Nat}
    (hput : ∀ s ms t, put s ms = some t → stamp t = stamp s) : stamp (s.serve put gs d).2 = stamp s := by
  induction gs generalizing s d with
  | nil => rfl
  | cons ms gs ih =>
    unfold State.serve
    grind

theorem stamp_visit {s : State} {put : State → List Launch → Option State} {c region : Nat}
    (hput : ∀ s ms t, put s ms = some t → stamp t = stamp s) : stamp (s.visit put c region) = stamp s := by
  have hserve (s : State) (gs : List (List Launch)) (d : Nat) : stamp (s.serve put gs d).2 = stamp s := stamp_serve hput
  unfold State.visit
  grind [stamp]

theorem stamp_placeAll {s : State} {put : State → List Launch → Option State} {part : State → Nat → Nat → Bool}
    (hput : ∀ s ms t, put s ms = some t → stamp t = stamp s) : stamp (s.placeAll put part) = stamp s :=
  stamp_foldl fun _ _ => stamp_foldl fun _ _ => stamp_visit hput

theorem stamp_replaceBad {s : State} : stamp s.replaceBad = stamp s := by
  refine stamp_foldl fun s p => ?_
  grind [stamp_replaceTile]

theorem stamp_dropChosen {s : State} : stamp s.dropChosen = stamp s := stamp_foldl fun _ _ => stamp_giveUp

theorem stamp_eachLaunch {s : State} {f : State → Launch → State} (hf : ∀ s l, stamp (f s l) = stamp s) : stamp (s.eachLaunch f) = stamp s := by
  refine stamp_foldl fun s l => ?_
  grind

end Sys2Proof.Launching
end

section
/-! SUPPORT. Scheduling with one launch on the device (R39 to R46, R50 to R52). -/

namespace Sys2Proof.Launching
open Sys2Proof Sys2Proof.Machine Sys2Proof.Laws

/-! ### A pass is stamped with its cycle (R39) -/

theorem stamp_schedule (s : State) : stamp s.schedule = (s.clk.tick, s.clk.tick) := by
  unfold State.schedule
  extract_lets s1 _ s2 s3 s4
  have h1 : stamp s1 = stamp s := stamp_dropDeficits.trans (stamp_dropChosen.trans stamp_replaceBad)
  have h2 : stamp s2 = (s.clk.tick, s.clk.tick) := by
    have htick : s1.clk.tick = s.clk.tick := congrArg Prod.fst h1
    simp [stamp, s2, htick]
  clear_value s2
  have h3 : stamp s3 = stamp s2 :=
    (stamp_eachLaunch fun _ _ => stamp_retest).trans
      ((stamp_eachLaunch fun _ _ => stamp_makeEligible).trans ((stamp_eachLaunch fun _ _ => stamp_evalDeps).trans stamp_admitAll))
  clear_value s3
  have h4 : stamp s4 = stamp s3 := (stamp_eachLaunch fun _ _ => stamp_age).trans stamp_dropDeficits
  clear_value s4
  have hplace : stamp (s4.placeAll State.passPlace fun _ _ _ => true) = stamp s4 := stamp_placeAll fun _ _ _ => stamp_passPlace
  exact stamp_pressAll.trans (stamp_dropDeficits.trans (hplace.trans (h4.trans (h3.trans h2))))

theorem schedule_lastPass (s : State) : s.schedule.sched.lastPass = s.clk.tick := by
  have h := stamp_schedule s
  rw [stamp, Prod.mk.injEq] at h
  exact h.2

theorem evalDeps_tick (s : State) (l : Launch) : (s.evalDeps l).clk.tick = s.clk.tick := congrArg Prod.fst stamp_evalDeps

/-! ### One launch -/

/-- The state with one launch in place of its launches. -/
def alone (s : State) (l : Launch) : State := { s with sched := { s.sched with launches := [l] } }

section
variable {s : State} {l : Launch} (hs : s.sched.launches = [l])
include hs

theorem launch?_sole : s.launch? l.id = some l := by simp [State.launch?, hs]

theorem gangOf_sole (hd : l.phase ≠ .draining) : s.gangOf l = [l] := by
  unfold State.gangOf
  split
  · rfl
  · simp [hs, hd]

theorem eachLaunch_sole (f : State → Launch → State) : s.eachLaunch f = f s l := by simp [State.eachLaunch, hs, launch?_sole hs]

theorem modLaunch_sole (f : Launch → Launch) : s.modLaunch l.id f = alone s (f l) := by simp [State.modLaunch, alone, hs]

theorem askers_sole (ha : l.asking = true) : s.askers l.region l.cls = [[l]] := by
  have hg : s.gangOf l = [l] := gangOf_sole hs (by rintro h; simp [Launch.asking, h] at ha)
  simp [State.askers, hs, hg, ha]

theorem inTheWay_sole (m : Launch) (hm : m.id = l.id) (k : Nat) : s.inTheWay m k = [] := by simp [State.inTheWay, hs, hm]

/-! ### Where one launch goes (R43) -/

/-- A launch may take a rectangle that has no other launch on it. -/
def mayTake (s : State) (l : Launch) (o : Nat × Nat) : Bool :=
  (rectTiles o.1 o.2 l.w l.h).all fun k => s.tileGrants l k && !s.excluded l k && !(s.sched.clearing.any fun c => c.1 == k)

/-- The first rectangle that a launch may take. -/
def freePlace (s : State) (l : Launch) : Option (Nat × Nat) := (origins l.w l.h).find? (mayTake s l)

theorem qualify_sole (hb : ∀ c ∈ l.eff.chain, l.w * l.h ≤ c.2.1) (o : Nat × Nat) :
    s.qualify l [] o = if mayTake s l o then some [] else none := by
  have hway (ts : List Nat) : ts.flatMap (s.inTheWay l) = [] := by simp [inTheWay_sole hs l rfl]
  have hbudget : (l.eff.chain.all fun c => decide (l.w * l.h ≤ c.2.1)) = true := by simpa using hb
  unfold State.qualify mayTake
  cases h : (rectTiles o.1 o.2 l.w l.h).all fun k => s.tileGrants l k && !s.excluded l k && !(s.sched.clearing.any fun c => c.1 == k) <;>
    simp [hway, h, hs, hbudget]

theorem chooseGroup_sole (hc : l.contexts = []) (hb : ∀ c ∈ l.eff.chain, l.w * l.h ≤ c.2.1) :
    s.chooseGroup [l] = (freePlace s l).map fun o => (alone s { l with phase := .chosen, origin := o }, []) := by
  have hfind : (s.originsOf l).findSome? (fun o => (s.qualify l [] o).map fun vs => (o, vs)) = (freePlace s l).map fun o => (o, []) := by
    have hguard : (fun o => (s.qualify l [] o).map fun vs => (o, vs)) =
        Option.map (fun o => (o, ([] : List Nat))) ∘ Option.guard (mayTake s l) := by
      funext o
      rw [qualify_sole hs hb]
      cases h : mayTake s l o <;> simp [Option.guard, h]
    rw [hguard, ← List.map_findSome?, List.findSome?_guard]
    simp [State.originsOf, hc, freePlace]
  simp only [State.chooseGroup, List.foldl_cons, List.foldl_nil, Option.bind_some]
  rw [hfind]
  cases freePlace s l with
  | none => rfl
  | some o => simp [modLaunch_sole hs]

theorem place_sole (hm : s.mgmt.saving = false) (hc : l.contexts = []) (hb : ∀ c ∈ l.eff.chain, l.w * l.h ≤ c.2.1) :
    s.place [l] = (freePlace s l).map fun o => (alone s { l with phase := .chosen, origin := o }).dropDeficits := by
  rw [State.place, hm, chooseGroup_sole hs hc hb]
  cases freePlace s l <;> rfl

end

theorem groupFree_placed {s : State} {l : Launch} {o : Nat × Nat} (ho : freePlace s l = some o) :
    (alone s { l with phase := .chosen, origin := o }).dropDeficits.groupFree [l] = true := by
  have htake := List.find?_some ho
  have hclear : ∀ k ∈ rectTiles o.1 o.2 l.w l.h, (s.sched.clearing.any fun c => c.1 == k) = false := by
    intro k hk
    have := List.all_eq_true.1 htake k hk
    simp only [Bool.and_eq_true, Bool.not_eq_true'] at this
    exact this.2
  have hl : (alone s { l with phase := .chosen, origin := o }).dropDeficits.launch? l.id = some { l with phase := .chosen, origin := o } :=
    launch?_sole (s := (alone s { l with phase := .chosen, origin := o }).dropDeficits) rfl
  simp only [State.groupFree, List.all_cons, List.all_nil, Bool.and_true, hl, State.tilesFree, List.all_eq_true]
  intro k hk
  have hk' := hclear k hk
  simp [State.dropDeficits, alone]
  simpa using hk'

theorem placeable_of_freePlace {s : State} {l : Launch} {o : Nat × Nat} (ho : freePlace s l = some o) (excl : Bool) :
    s.placeable excl [l] = true := by
  have htake := List.find?_some ho
  have hmem := List.mem_of_find?_eq_some ho
  have hfirst : (s.firstEmpty excl [] l).isSome = true := by
    simp only [State.firstEmpty, List.findSome?_isSome_iff]
    refine ⟨o, hmem, ?_⟩
    rw [if_pos]
    · rfl
    · refine List.all_eq_true.2 fun k hk => ?_
      have hk' := List.all_eq_true.1 htake k hk
      simp only [Bool.and_eq_true, Bool.not_eq_true'] at hk'
      simp [hk'.1.1, hk'.1.2]
  simpa [State.placeable] using hfirst

end Sys2Proof.Launching
end

section
/-! SUPPORT. The pass over one launch (R39 to R43). -/

namespace Sys2Proof.Launching
open Sys2Proof Sys2Proof.Machine Sys2Proof.Laws

/-! ### One launch is visited once (R40, R41) -/

/-- The state after a visit to a region: its deficit, and the region visited last. -/
def visited (s : State) (c region d : Nat) : State := { s with sched := { s.sched with
  deficits := tput (drrKey c region) d s.sched.deficits, visited := tput c region s.sched.visited } }

section
variable {s : State} {l : Launch} (hs : s.sched.launches = [l])
include hs

theorem visit_sole {put : State → List Launch → Option State} (ha : l.asking = true) (hcost : l.w * l.h ≤ l.eff.maxTiles) :
    ∃ d, s.visit put l.cls l.region = visited ((put s [l]).getD s) l.cls l.region d := by
  have hserve (d : Nat) : ∃ d', State.serve put [[l]] (d + l.eff.maxTiles) s = (d', (put s [l]).getD s) := by
    have hd : ¬ d + l.eff.maxTiles < groupCost [l] := by simp [groupCost]; omega
    rw [State.serve, if_neg hd]
    cases put s [l] <;> exact ⟨_, rfl⟩
  unfold State.visit
  rw [askers_sole hs ha]
  obtain ⟨d', hd'⟩ := hserve (tget 0 s.sched.deficits (drrKey l.cls l.region))
  simp only [List.head?_cons, Option.map_some, Option.getD_some, hd']
  exact ⟨_, rfl⟩

theorem visitOrder_sole (ha : l.asking = true) : s.visitOrder l.cls = [l.region] := by
  simp only [State.visitOrder, hs, List.filter_cons, ha, beq_self_eq_true, Bool.and_self, if_true, List.filter_nil, List.foldl_cons,
    List.foldl_nil, insertNat]
  by_cases h : tget 65536 s.sched.visited l.cls < l.region
  · simp [h]
  · simp [h, Nat.not_lt.1 h]

end

theorem visitOrder_none {s : State} {c : Nat} (h : ∀ x ∈ s.sched.launches, x.cls ≠ c) : s.visitOrder c = [] := by
  have hf : (s.sched.launches.filter fun l => l.cls == c && l.asking) = [] := List.filter_eq_nil_iff.2 fun x hx => by simp [h x hx]
  simp [State.visitOrder, hf]

theorem placeClasses_none {put : State → List Launch → Option State} {part : State → Nat → Nat → Bool} {s : State} {cs : List Nat}
    (h : ∀ c ∈ cs, ∀ x ∈ s.sched.launches, x.cls ≠ c) :
    cs.foldl (fun s c => ((s.visitOrder c).filter (part s c)).foldl (State.visit put c) s) s = s := by
  induction cs with
  | nil => rfl
  | cons c cs ih =>
    rw [List.foldl_cons, visitOrder_none (h c (by simp))]
    exact ih fun c hc => h c (by simp [hc])

/-- With one asking launch the visits of all classes come to the one of its region and class. -/
theorem placeAll_sole {put : State → List Launch → Option State} {part : State → Nat → Nat → Bool} {s : State} {l : Launch}
    (hs : s.sched.launches = [l]) (ha : l.asking = true) (hc : l.cls ≤ 15) (hcost : l.w * l.h ≤ l.eff.maxTiles)
    (hpart : part s l.cls l.region = true) (hput : ∀ x ∈ ((put s [l]).getD s).sched.launches, x.cls = l.cls) :
    ∃ d, s.placeAll put part = visited ((put s [l]).getD s) l.cls l.region d := by
  obtain ⟨before, after, hsplit⟩ := List.append_of_mem (show l.cls ∈ (List.range 16).reverse by simp; omega)
  have hnodup : (before ++ l.cls :: after).Nodup := hsplit ▸ List.nodup_reverse.2 List.nodup_range
  rw [List.nodup_append, List.nodup_cons] at hnodup
  obtain ⟨-, ⟨hafter, -⟩, hbefore⟩ := hnodup
  obtain ⟨d, hd⟩ := visit_sole (put := put) hs ha hcost
  refine ⟨d, ?_⟩
  rw [State.placeAll, hsplit, List.foldl_append, List.foldl_cons, placeClasses_none (cs := before), visitOrder_sole hs ha]
  · simp only [List.filter_cons, hpart, if_true, List.filter_nil, List.foldl_cons, List.foldl_nil, hd]
    refine placeClasses_none fun c hc' x hx he => hafter ?_
    rw [← hput x hx, he]
    exact hc'
  · intro c hc' x hx he
    rw [hs, List.mem_singleton] at hx
    subst hx
    exact hbefore c hc' x.cls (by simp) he.symm

/-! ### The steps of a pass that have nothing to do -/

theorem replaceBad_none {s : State} (h : s.plc.tstat = []) : s.replaceBad = s := by simp [State.replaceBad, h]

theorem admitAll_none {s : State} (h : s.sched.doorbells = []) : s.admitAll = s := by simp [State.admitAll, h]

theorem evalDeps_not_waiting {s : State} {l : Launch} (h : l.phase ≠ .waiting) : s.evalDeps l = s := by simp [State.evalDeps, h]

section
variable {s : State} {l : Launch} (hs : s.sched.launches = [l])
include hs

theorem dropChosen_sole (h : l.phase ≠ .chosen) : s.dropChosen = s := by simp [State.dropChosen, hs, h]

theorem makeEligible_sole (h : l.phase ≠ .waiting) : s.makeEligible l = s := by simp [State.makeEligible, launch?_sole hs, h]

theorem age_sole (hd : l.phase ≠ .draining) (h : l.eff.ageLim = 0) : s.age l = s := by simp [State.age, gangOf_sole hs hd, h]

theorem pressAll_sole (h : l.onGrid = false) : s.pressAll = s := by simp [State.pressAll, hs, h]

theorem retest_sole (ha : l.asking = true) (hp : s.placeable false [l] = true) : s.retest l =
    alone s { l with exclSince := if s.placeable true [l] then none else some (l.exclSince.getD s.elapsed) } := by
  have hg : s.gangOf l = [l] := gangOf_sole hs (by rintro h; simp [Launch.asking, h] at ha)
  simp only [State.retest, launch?_sole hs, Option.any_some, ha, hg, hp, Bool.not_true, Bool.false_eq_true, if_false]
  exact modLaunch_sole hs _

end

/-- The state in which a pass that replaces no tile looks at the doorbells and launches. -/
def passBegun (s : State) : State := { s.dropDeficits with sched := { s.dropDeficits.sched with lastPass := s.clk.tick, passDue := false } }

/-- The state in which a pass over one launch places: dependences, eligibility and age are as they were. -/
def beforePlacing (s : State) (l : Launch) (e : Option Nat) (ds : Tbl Nat) : State := { s with sched := { s.sched with
  lastPass := s.clk.tick, passDue := false, deficits := ds, launches := [{ l with exclSince := e }] } }

/-- The steps of a pass before it places, for one launch that asks and has no aging limit. -/
theorem passSteps_sole {s : State} {l : Launch} (hs : s.sched.launches = [l]) (hdb : s.sched.doorbells = []) (hph : l.phase = .eligible)
    (hage : l.eff.ageLim = 0) (hp : s.placeable false [l] = true) : ∃ e ds, (s.placeable true [l] = true → e = none) ∧
    (((s.admitAll.eachLaunch State.evalDeps).eachLaunch State.makeEligible).eachLaunch State.retest).dropDeficits.eachLaunch State.age =
      { s with sched := { s.sched with deficits := ds, launches := [{ l with exclSince := e }] } } := by
  have ha : l.asking = true := by simp [Launch.asking, hph]
  have hw : l.phase ≠ .waiting := by simp [hph]
  rw [admitAll_none hdb, eachLaunch_sole hs, evalDeps_not_waiting hw, eachLaunch_sole hs, makeEligible_sole hs hw, eachLaunch_sole hs,
    retest_sole hs ha hp]
  generalize he : (if s.placeable true [l] then none else some (l.exclSince.getD s.elapsed)) = e
  have hd : (alone s { l with exclSince := e }).dropDeficits.sched.launches = [{ l with exclSince := e }] := rfl
  refine ⟨e, (alone s { l with exclSince := e }).dropDeficits.sched.deficits, fun h => by simpa [h] using he.symm, ?_⟩
  rw [eachLaunch_sole hd, age_sole hd (by simp [hph]) hage]
  rfl

theorem schedule_sole {s : State} {l : Launch} (hs : s.sched.launches = [l]) (hdb : s.sched.doorbells = []) (ht : s.plc.tstat = [])
    (hph : l.phase = .eligible) (hage : l.eff.ageLim = 0) (hp : s.placeable false [l] = true) : ∃ e ds,
    (s.placeable true [l] = true → e = none) ∧
    s.schedule = ((beforePlacing s l e ds).placeAll State.passPlace fun _ _ _ => true).dropDeficits.pressAll := by
  obtain ⟨e, ds, he, hsteps⟩ := passSteps_sole (s := passBegun s) hs hdb hph hage hp
  refine ⟨e, ds, he, ?_⟩
  have hbegin : s.replaceBad.dropChosen.dropDeficits = s.dropDeficits := by
    rw [replaceBad_none ht, dropChosen_sole hs (by simp [hph])]
  have hsched : s.schedule = ((((((passBegun s).admitAll.eachLaunch State.evalDeps).eachLaunch State.makeEligible).eachLaunch
      State.retest).dropDeficits.eachLaunch State.age).placeAll State.passPlace fun _ _ _ => true).dropDeficits.pressAll := by
    rw [State.schedule, hbegin]
    rfl
  rw [hsched, hsteps]
  rfl

/-! ### What the pass makes of the launch -/

/-- The pass gives the launch the first rectangle it may take, when it may start now. -/
theorem passPlace_sole {s : State} {l : Launch} (hs : s.sched.launches = [l]) (hm : s.mgmt.saving = false) (hc : l.contexts = [])
    (hb : ∀ c ∈ l.eff.chain, l.w * l.h ≤ c.2.1) (hstart : s.mayStart l = true) :
    s.passPlace [l] = (freePlace s l).map fun o => (alone s { l with phase := .chosen, origin := o }).dropDeficits := by
  have hpass : s.passMay [l] = true := by simp [State.passMay, hstart]
  rw [State.passPlace, hpass, place_sole hs hm hc hb]
  cases ho : freePlace s l with
  | none => simp
  | some o => simp [Option.filter, groupFree_placed ho]

theorem passPlace_not_now {s : State} {l : Launch} (hstart : s.mayStart l = false) : s.passPlace [l] = none := by
  simp [State.passPlace, State.passMay, hstart]

/-- What a pass leaves of the state but for the launches, the deficits and the regions visited last. -/
def PassKeeps (s t : State) : Prop :=
  t.cur = s.cur ∧ t.parked = s.parked ∧ t.mem = s.mem ∧ t.clk = s.clk ∧ t.sched.log = s.sched.log ∧ t.sched.lastPass = s.clk.tick

section
variable {s : State} {l : Launch} (hs : s.sched.launches = [l]) (hdb : s.sched.doorbells = []) (ht : s.plc.tstat = [])
  (hph : l.phase = .eligible) (hgrid : l.onGrid = false) (hage : l.eff.ageLim = 0) (hcls : l.cls ≤ 15)
  (hcost : l.w * l.h ≤ l.eff.maxTiles)
include hs hdb ht hph hgrid hage hcls hcost

theorem schedule_placed (hm : s.mgmt.saving = false) (hc : l.contexts = []) (hb : ∀ c ∈ l.eff.chain, l.w * l.h ≤ c.2.1)
    (hstart : s.mayStart l = true) {o : Nat × Nat} (ho : freePlace s l = some o) :
    ∃ t, s.schedule = t ∧ PassKeeps s t ∧ t.sched.launches = [{ l with phase := .chosen, origin := o, exclSince := none }] ∧
      tget 65536 t.sched.visited l.cls = l.region := by
  obtain ⟨e, ds, he, hsched⟩ := schedule_sole hs hdb ht hph hage (placeable_of_freePlace ho false)
  obtain rfl := he (placeable_of_freePlace ho true)
  generalize hb' : beforePlacing s l none ds = s' at hsched
  have hput : s'.passPlace [{ l with exclSince := none }] =
      some (alone s' { l with phase := .chosen, origin := o, exclSince := none }).dropDeficits := by
    subst hb'
    exact (passPlace_sole (s := beforePlacing s l none ds) (l := { l with exclSince := none }) rfl hm hc hb hstart).trans (congrArg (Option.map _) ho)
  have hs' : s'.sched.launches = [{ l with exclSince := none }] := hb' ▸ rfl
  obtain ⟨d, hd⟩ := placeAll_sole (put := State.passPlace) (part := fun _ _ _ => true) hs' (by simp [Launch.asking, hph]) hcls hcost rfl
    (by rw [hput]; simp [State.dropDeficits, alone])
  rw [hsched, hd, hput, Option.getD_some]
  subst hb'
  rw [pressAll_sole (l := { l with phase := .chosen, origin := o, exclSince := none }) rfl hgrid]
  exact ⟨_, rfl, ⟨rfl, rfl, rfl, rfl, rfl, rfl⟩, rfl, tget_tput_self ..⟩

theorem schedule_unplaced (hp : s.placeable false [l] = true)
    (hput : ∀ e ds, (beforePlacing s l e ds).passPlace [{ l with exclSince := e }] = none) :
    ∃ t e, s.schedule = t ∧ PassKeeps s t ∧ t.sched.launches = [{ l with exclSince := e }] := by
  obtain ⟨e, ds, -, hsched⟩ := schedule_sole hs hdb ht hph hage hp
  have hs' : (beforePlacing s l e ds).sched.launches = [{ l with exclSince := e }] := rfl
  obtain ⟨d, hd⟩ := placeAll_sole (put := State.passPlace) (part := fun _ _ _ => true) hs' (by simp [Launch.asking, hph]) hcls hcost rfl
    (by rw [hput e ds]; simp [beforePlacing])
  rw [hsched, hd, hput, Option.getD_none, pressAll_sole (l := { l with exclSince := e }) rfl hgrid]
  exact ⟨_, e, rfl, ⟨rfl, rfl, rfl, rfl, rfl, rfl⟩, rfl⟩

end

end Sys2Proof.Launching
end

section
/-! SUPPORT. Slice events of a region with one launch (R50 to R52, R57). -/

namespace Sys2Proof.Launching
open Sys2Proof Sys2Proof.Machine Sys2Proof.Laws

section
variable {s : State} {l : Launch} (hs : s.sched.launches = [l])
include hs

theorem slicedRegions_sole (hsl : l.eff.sliced = true) : s.slicedRegions = [l.region] := by simp [State.slicedRegions, hs, hsl, insertNat]

theorem gangs_none (hg : l.gangKey = 0) : s.gangs l.region = [] := by simp [State.gangs, hs, hg]

theorem gangs_sole (hg : l.gangKey ≠ 0) (hsl : l.eff.sliced = true) (hd : l.phase ≠ .draining) : s.gangs l.region = [[l]] := by
  simp [State.gangs, hs, hg, hsl, gangOf_sole hs hd]

theorem logSlice_sole (hsl : l.eff.sliced = true) : s.logSlice l.region =
    if s.sliceStarts l.eff = true ∧ s.promised = false then s.logEvent 429 l.region else s := by
  simp [State.logSlice, hs, hsl, and_comm]

theorem missSlice_sole (hg : l.gangKey ≠ 0) (hsl : l.eff.sliced = true) (hd : l.phase ≠ .draining) : s.missSlice l.region =
    if s.sliceStarts l.eff = true ∧ l.phase = .chosen ∧ s.tilesFree l = false then s.giveUp [l.id] else s := by
  simp [State.missSlice, gangs_sole hs hg hsl hd, State.groupFree, launch?_sole hs, and_assoc]

theorem logMissed_sole (hg : l.gangKey ≠ 0) (hsl : l.eff.sliced = true) (hd : l.phase ≠ .draining) : s.logMissed l.region =
    if s.sliceStarts l.eff = true ∧ l.asking = true then s.logEvent 51 l.region else s := by
  simp [State.logMissed, gangs_sole hs hg hsl hd]

/-- A slice start of one region: the miss is settled, a pass runs, and what it still misses is logged. -/
theorem execSliceStart_sole (hsl : l.eff.sliced = true) (hr : l.region < 65536) : exec (.sliceStart (BitVec.ofNat 16 l.region)) s =
    .next (((s.logSlice l.region).missSlice l.region).schedule.logMissed l.region) := by
  have hreg : (BitVec.ofNat 16 l.region).toNat = l.region := by simpa using hr
  change Host.Outcome.next _ = _
  rw [hreg, slicedRegions_sole hs hsl]
  rfl

theorem sliceEnd_sole (hr : l.region < 65536) (hsl : l.eff.sliced = true) : exec (.sliceEnd (BitVec.ofNat 16 l.region)) s =
    .next (if s.inSlice l.eff && !s.sliceEnds l.eff then s
      else if (l.phase == .restoring && l.eff.preempt) || (l.phase == .chosen && l.gangKey == 0) then (s.giveUp [l.id]).wantPass
      else if l.eff.preempt && l.phase == .resident && (s.launchTasks l.id).any Task.receives then (s.startStop l.id .slice).wantPass
      else s) := by
  have hreg : (BitVec.ofNat 16 l.region).toNat = l.region := by simpa using hr
  change Host.Outcome.next _ = _
  rw [eachLaunch_sole hs, hreg]
  simp [hsl]

/-! ### Ahead of a slice start -/

/-- A gang's launch that is placed ahead needs no tile of another: its pre-emption time is the fixed part (R57). -/
theorem leadTime_sole (hgrid : l.onGrid = false) (hretrain : s.env.retrain = []) (m : Launch) (hm : m.id = l.id) :
    s.leadTime [m] = 4 * 34000 := by
  have hnow : ([m].filterMap fun m => s.launch? m.id) = [l] := by simp [hm, launch?_sole hs]
  have hunits : s.heldUnits l = [] := by simp [State.heldUnits, hs]
  have hrow : rowTime [] = 0 := by decide
  have hleft : s.retrainLeft = 0 := by simp [State.retrainLeft, hretrain]
  unfold State.leadTime
  rw [hnow]
  simp [hs, hgrid, hunits, hrow, hleft]

theorem sliceLead_none (hr : l.region < 65536) (hg : l.gangKey = 0) : exec (.sliceLead (BitVec.ofNat 16 l.region)) s = .next s.dropDeficits := by
  have hreg : (BitVec.ofNat 16 l.region).toNat = l.region := by simpa using hr
  change execSliceLead _ s = _
  simp [execSliceLead, hreg, gangs_none hs hg]

/-- A gang that asks is placed ahead unless its slice starts in this cycle. -/
theorem sliceLead_sole (hr : l.region < 65536) (hg : l.gangKey ≠ 0) (hsl : l.eff.sliced = true) (hph : l.phase = .eligible) :
    exec (.sliceLead (BitVec.ofNat 16 l.region)) s =
      .next (if s.sliceStarts l.eff then s else s.lead (s.toSlice l.eff)).dropDeficits := by
  have hreg : (BitVec.ofNat 16 l.region).toNat = l.region := by simpa using hr
  have hgangs := gangs_sole hs hg hsl (by simp [hph])
  change execSliceLead _ s = _
  cases hst : s.sliceStarts l.eff <;>
    simp [execSliceLead, hreg, hgangs, hph, hst, Launch.asking, State.gangStart, hsl, insertNat]

end

section
variable {s : State} {l : Launch} (hs : s.sched.launches = [l]) (hg : l.gangKey ≠ 0) (hsl : l.eff.sliced = true)
  (hph : l.phase = .eligible) (hst : s.sliceStarts l.eff = false) (hcls : l.cls ≤ 15) (hcost : l.w * l.h ≤ l.eff.maxTiles)
  (hm : s.mgmt.saving = false) (hc : l.contexts = []) (hb : ∀ c ∈ l.eff.chain, l.w * l.h ≤ c.2.1)
include hs hg hsl hph hst hcls hcost hm hc hb

theorem lead_unplaced (ho : freePlace s l = none) : s.lead (s.toSlice l.eff) = s := by
  have ha : l.asking = true := by simp [Launch.asking, hph]
  unfold State.lead
  extract_lets soon s' got
  have hsoon : soon s [l] = true := by simp [soon, slicedGang, hg, hsl, hst, State.gangStart]
  have hput : (if soon s [l] then s.place [l] else none) = none := by simp [hsoon, place_sole hs hm hc hb, ho]
  obtain ⟨d, hd⟩ := placeAll_sole (put := fun s ms => if soon s ms then s.place ms else none)
    (part := fun s c r => (s.askers r c).any (soon s)) hs ha hcls hcost (by simp [askers_sole hs ha, hsoon]) (by simp [hput, hs])
  have hl : s'.launch? l.id = some l := by
    rw [show s' = _ from hd, hput]
    exact launch?_sole hs
  have hgot : got = [] := by simp [got, hs, ha, hl, hph]
  rw [hgot]
  rfl

theorem lead_placed {o : Nat × Nat} (ho : freePlace s l = some o) (hgrid : l.onGrid = false) (hretrain : s.env.retrain = []) : ∃ d,
    s.lead (s.toSlice l.eff) = if s.toSlice l.eff ≤ 4 * 34000 then
      visited (alone s { l with phase := .chosen, origin := o }).dropDeficits l.cls l.region d else s := by
  have ha : l.asking = true := by simp [Launch.asking, hph]
  unfold State.lead
  extract_lets soon s' got
  have hsoon : soon s [l] = true := by simp [soon, slicedGang, hg, hsl, hst, State.gangStart]
  have hput : (if soon s [l] then s.place [l] else none) = some (alone s { l with phase := .chosen, origin := o }).dropDeficits := by
    simp [hsoon, place_sole hs hm hc hb, ho]
  obtain ⟨d, hd⟩ := placeAll_sole (put := fun s ms => if soon s ms then s.place ms else none)
    (part := fun s c r => (s.askers r c).any (soon s)) hs ha hcls hcost (by simp [askers_sole hs ha, hsoon])
    (by simp [hput, State.dropDeficits, alone])
  refine ⟨d, ?_⟩
  have hs' : s' = visited (alone s { l with phase := .chosen, origin := o }).dropDeficits l.cls l.region d := by
    rw [show s' = _ from hd, hput]
    rfl
  have hls : s'.sched.launches = [{ l with phase := .chosen, origin := o }] := by rw [hs']; rfl
  have hl : s'.launch? l.id = some { l with phase := .chosen, origin := o } := launch?_sole hls
  have hgot : got = [l] := by simp [got, hs, ha, hl]
  have htime : s'.leadTime [l] = 4 * 34000 := leadTime_sole hls hgrid (by rw [hs']; exact hretrain) l rfl
  have hpress : s'.pressAll = s' := pressAll_sole hls hgrid
  rw [hgot, htime, hpress, ← hs']
  by_cases h : s.toSlice l.eff ≤ 4 * 34000 <;> simp [h]

end

end Sys2Proof.Launching
end

section
/-! SUPPORT. Events of one launch: aging, exclusion, the watchdog, ABORT, and pages resolved (R42, R46, R54, R371, R422). -/

namespace Sys2Proof.Launching
open Sys2Proof Sys2Proof.Machine Sys2Proof.Laws

/-! ### Dependences, aging and exclusion -/

theorem dependenceChange_none {s : State} {id : Nat} (hl : s.launch? id = none) :
    exec (.dependenceChangeObserved id) s = .next s.schedule := by
  change execDependenceChangeObserved id s = _
  simp [execDependenceChangeObserved, hl]

theorem dependenceChange_some {s : State} {id : Nat} {l : Launch} (hl : s.launch? id = some l) :
    exec (.dependenceChangeObserved id) s = .next (s.evalDeps l).schedule := by
  change execDependenceChangeObserved id s = _
  simp [execDependenceChangeObserved, hl]

theorem evalDeps_one {s s1 : State} {l : Launch} {d : Dep} {bs : List Byte} (hph : l.phase = .waiting) (hd : l.deps = [d])
    (hsat : d.sat = false) (hread : s.schedRead l.id l.eff d.va 8 = (.ok bs, s1)) : s.evalDeps l =
    if d.thr.toNat ≤ leNat bs then s1.modLaunch l.id fun x => { x with deps := x.deps.map fun d => { d with sat := true } } else s1 := by
  by_cases h : d.thr.toNat ≤ leNat bs <;> simp [State.evalDeps, hph, hd, hsat, State.readDeps, hread, h]

/-- Events logged one after another change neither the launches nor the current task. -/
theorem logEvents_keep (code : Nat) (args : List Nat) (t : State) :
    (args.foldl (fun s px => s.logEvent code px) t).sched.launches = t.sched.launches ∧
    (args.foldl (fun s px => s.logEvent code px) t).cur = t.cur := by
  induction args generalizing t with
  | nil => exact ⟨rfl, rfl⟩
  | cons a args ih => exact ih (t.logEvent code a)

section
variable {s : State} {l : Launch} (hl : s.launch? l.id = some l)
include hl

theorem exclusionTimeout_early {e : Nat} (he : l.exclSince = some e) (h : s.elapsed < e + 1000000000) :
    exec (.exclusionTimeout l.id) s = .next s := by
  change execExclusionTimeout l.id s = _
  simp [execExclusionTimeout, hl, he, Nat.not_le.2 h]

section
variable (hg : l.gangKey = 0)
include hg

theorem agingExpiry_early (h : s.elapsed < l.since + 1000000 * l.eff.ageLim) : exec (.agingExpiry l.id) s = .next s := by
  have hgang : s.gangOf l = [l] := if_pos hg
  change execAgingExpiry l.id s = _
  simp [execAgingExpiry, hl, hgang, State.age, Nat.not_le.2 h]

theorem agingExpiry_due (hph : l.phase = .eligible) (hp : l.placedAt = none) (ha : l.aged = false) (hlim : l.eff.ageLim ≠ 0)
    (hdue : l.since + 1000000 * l.eff.ageLim ≤ s.elapsed) : exec (.agingExpiry l.id) s =
    .next (s.modLaunch l.id fun x => { x with cls := min 15 (x.cls + 1), aged := true }).dropDeficits.wantPass := by
  have hgang : s.gangOf l = [l] := if_pos hg
  change execAgingExpiry l.id s = _
  simp [execAgingExpiry, hl, hgang, State.age, hph, hp, ha, hlim, hdue]

theorem exclusionTimeout_due (hph : l.phase = .eligible) {e : Nat} (he : l.exclSince = some e) (h : e + 1000000000 ≤ s.elapsed) :
    ∃ t, exec (.exclusionTimeout l.id) s = .next t ∧
      (t.launch? l.id).map (fun x => (x.phase, x.status, x.finfo)) = some (.draining, .unplaceable, 0#64) ∧ t.cur = s.cur := by
  have ha : l.asking = true := by simp [Launch.asking, hph]
  have hgang : s.gangOf l = [l] := if_pos hg
  have hrefuse : s.refuseLaunch l.id .unplaceable false 0#64 = s.modLaunch l.id fun x => x.refuse .unplaceable false false 0#64 := by
    simp [State.refuseLaunch, hl, State.faultPolicy]
  have hview : ((s.modLaunch l.id fun x => x.refuse .unplaceable false false 0#64).launch? l.id).map (fun x => (x.phase, x.status, x.finfo)) =
      some (.draining, .unplaceable, 0#64) := by
    rw [launch?_modLaunch s l.id (fun x => x.refuse .unplaceable false false 0#64) fun _ => rfl, hl]
    rfl
  obtain ⟨cols, hexec⟩ : ∃ cols : List Nat, exec (.exclusionTimeout l.id) s = .next (cols.foldl (fun s px => s.logEvent 46 px)
      (s.modLaunch l.id fun x => x.refuse .unplaceable false false 0#64).dropDeficits) := by
    change ∃ cols : List Nat, execExclusionTimeout l.id s = _
    simp only [execExclusionTimeout, hl, he, ha, hgang, hrefuse, h, decide_true, Bool.and_self, if_true, List.foldl_cons, List.foldl_nil]
    exact ⟨_, rfl⟩
  refine ⟨_, hexec, ?_, (logEvents_keep 46 cols _).2⟩
  rw [State.launch?, (logEvents_keep 46 cols _).1]
  exact hview

end

end

/-! ### The watchdog -/

section
variable {s : State} {l : Launch} (hl : s.launch? l.id = some l)
include hl

theorem watchdogExpiry_due (hb : s.cur.bound = true) (hid : s.cur.bnd.launch = l.id) (htx : s.cur.bnd.tx = 0) (hty : s.cur.bnd.ty = 0)
    (hw : s.cur.seq.waits = []) (hgrid : l.onGrid = true) (hst : l.status = .ok) (hph : l.phase = .resident) (hleft : l.wdogLeft = 0) :
    exec (.watchdogExpiry l.id) s = .next (s.takeTerminal s.cur.seq.pc { status := .watchdog, cause := 0, slot := 6, info := 0#64 }) := by
  have hfind : ((s.launchTasks l.id).find? fun t => t.bnd.tx == 0 && t.bnd.ty == 0) = some s.cur := by
    simp [State.launchTasks, State.tasks, hid, htx, hty]
  change execWatchdogExpiry l.id s = _
  simp [execWatchdogExpiry, hl, hgrid, hst, hph, hleft, hfind, onTask_cur hb, hw]

theorem watchdogExpiry_early (hleft : l.wdogLeft ≠ 0) : exec (.watchdogExpiry l.id) s = .next s := by
  change execWatchdogExpiry l.id s = _
  simp [execWatchdogExpiry, hl, hleft]

end

/-! ### ABORT -/

theorem faultPolicy_sched (s : State) (l : Launch) (st : Status) : (s.faultPolicy l st).sched = s.sched := by
  unfold State.faultPolicy State.haltRcb
  repeat' split
  all_goals rfl

theorem faultPolicy_tasks (s : State) (l : Launch) (st : Status) : (s.faultPolicy l st).tasks = s.tasks := by
  unfold State.faultPolicy State.haltRcb
  repeat' split
  all_goals rfl

/-- The tasks of a launch that ends: those that have ended stay so, and every other is dead. -/
def endTaskOf (id : Nat) (t : Machine.Task) : Machine.Task :=
  if t.bnd.launch = id then (if t.seq.state = .ended then t.quit else t.kill) else t

/-- A launch that ends with its first status drains with it, and none of its tasks runs (R28, R381). -/
theorem endLaunch_drains {s : State} {l : Launch} (hl : s.launch? l.id = some l) (hst : l.status = .ok) (st : Status) :
    ((s.endLaunch l.id st none).launch? l.id).map (fun x => (x.phase, x.status)) = some (.draining, st) ∧
    ∀ u ∈ (s.endLaunch l.id st none).tasks, u.bnd.launch = l.id → u.seq.state = .dead ∨ u.seq.state = .ended := by
  unfold State.endLaunch
  extract_lets s1 s2 s3 s4
  have h1 : s1.sched = s.sched := by
    obtain ⟨o, m, h1⟩ : SameButObserved s s1 := foldl_observed _ lastStalls_observed _ _
    rw [h1]
  have h3 : s3.launch? l.id = some l := by
    rw [State.launch?, show s3.sched = s.sched from h1]
    exact hl
  have h4 : s4 = s3.faultPolicy l st := by simp [s4, h3, hst]
  have htasks : s4.tasks = s1.tasks.map (endTaskOf l.id) := by rw [h4, faultPolicy_tasks]; rfl
  have hl4 : s4.launch? l.id = some l := by rw [h4, State.launch?, faultPolicy_sched]; exact h3
  constructor
  · rw [launch?_modLaunch, hl4]
    · simp [hst]
    · exact fun _ => rfl
  · intro u hu hid
    have hu' : u ∈ s1.tasks.map (endTaskOf l.id) := htasks ▸ hu
    obtain ⟨t, -, rfl⟩ := List.mem_map.1 hu'
    unfold endTaskOf at hid ⊢
    split
    · split
      · exact .inr ‹_›
      · exact .inl rfl
    · simp_all

theorem abortLaunch_ends {s : State} {l : Launch} (hl : s.launch? l.id = some l)
    (hph : l.phase = .resident ∨ l.phase = .eligible ∨ l.phase = .waiting ∨ l.phase = .preempted) :
    exec (.abortLaunch l.id) s = .next (s.endLaunch l.id .aborted none).dropDeficits := by
  change execAbortLaunch l.id s = _
  rcases hph with h | h | h | h <;> simp [execAbortLaunch, hl, h]

theorem abortLaunch_held {s : State} {l : Launch} (hl : s.launch? l.id = some l)
    (hph : l.phase = .stopping ∨ l.phase = .saving ∨ l.phase = .restoring) :
    exec (.abortLaunch l.id) s = .next (s.modLaunch l.id fun x => { x with aborted := true }) := by
  change execAbortLaunch l.id s = _
  rcases hph with h | h | h <;> simp [execAbortLaunch, hl, h]

/-! ### Pages -/

/-- The pilot controller's writes of page-table words change local HBM alone. -/
theorem pageWrites (writes : List (Nat × BitVec 64)) (s : State) :
    writes.foldl (fun s w => s.homeWrite { kind := 0, addr := w.1 } (leBytes w.2.toNat 8)) s =
      { s with mem := { s.mem with hbm := writes.foldl (fun m w => m.putBytes w.1 (leBytes w.2.toNat 8)) s.mem.hbm } } := by
  induction writes generalizing s with
  | nil => rfl
  | cons w writes ih => exact ih _

theorem unhold_cur_held {s : State} (h : s.cur.seq.state = .held) :
    s.unhold.cur = { s.cur with seq := { s.cur.seq with state := .running } } := if_pos h

theorem unhold_cur_other {s : State} (h : s.cur.seq.state ≠ .held) : s.unhold.cur = s.cur := if_neg h

end Sys2Proof.Launching
end

section
/-! SUPPORT. A pass and the slice events of one launch, as the device executes them (R39, R43, R51, R52). -/

namespace Sys2Proof.Launching
open Sys2Proof Sys2Proof.Machine Sys2Proof.Laws

theorem schedulingPass_places {s : State} {l : Launch} {o : Nat × Nat} (hs : s.sched.launches = [l]) (hdb : s.sched.doorbells = [])
    (hm : s.mgmt.saving = false) (ht : s.plc.tstat = []) (hph : l.phase = .eligible) (hc : l.contexts = []) (hgrid : l.onGrid = false)
    (hsl : l.eff.sliced = false) (hage : l.eff.ageLim = 0) (hcls : l.cls ≤ 15) (hcost : l.w * l.h ≤ l.eff.maxTiles)
    (hb : ∀ c ∈ l.eff.chain, l.w * l.h ≤ c.2.1) (ho : freePlace s l = some o) :
    ∃ t, exec .schedulingPass s = .next t ∧ t.sched.launches = [{ l with phase := .chosen, origin := o, exclSince := none }] ∧
      t.sched.lastPass = s.clk.tick ∧ t.cur = s.cur ∧ t.parked = s.parked ∧ t.mem = s.mem := by
  have hstart : s.mayStart l = true := by simp [State.mayStart, hsl]
  obtain ⟨t, hpass, ⟨hcur, hparked, hmem, -, -, hlast⟩, hlaunch, -⟩ :=
    schedule_placed hs hdb ht hph hgrid hage hcls hcost hm hc hb hstart ho
  exact ⟨t, congrArg Host.Outcome.next hpass, hlaunch, hlast, hcur, hparked, hmem⟩

section
variable {s : State} {l : Launch} (hs : s.sched.launches = [l]) (hsl : l.eff.sliced = true) (hr : l.region < 65536)
include hs hsl hr

/-! ### Slice ends (R52) -/

theorem sliceEnd_inside (hin : s.inSlice l.eff = true) (hend : s.sliceEnds l.eff = false) :
    exec (.sliceEnd (BitVec.ofNat 16 l.region)) s = .next s := by
  rw [sliceEnd_sole hs hr hsl, hin, hend]
  rfl

theorem sliceEnd_outside (hin : s.inSlice l.eff = false) :
    (l.phase = .resident → l.eff.preempt = true → (s.launchTasks l.id).any Task.receives = true →
      exec (.sliceEnd (BitVec.ofNat 16 l.region)) s = .next (s.startStop l.id .slice).wantPass) ∧
    (l.phase = .resident → l.eff.preempt = false → exec (.sliceEnd (BitVec.ofNat 16 l.region)) s = .next s) ∧
    (l.phase = .restoring → l.eff.preempt = false → exec (.sliceEnd (BitVec.ofNat 16 l.region)) s = .next s) ∧
    (l.phase = .restoring ∧ l.eff.preempt = true ∨ l.phase = .chosen ∧ l.gangKey = 0 →
      exec (.sliceEnd (BitVec.ofNat 16 l.region)) s = .next (s.giveUp [l.id]).wantPass) := by
  rw [sliceEnd_sole hs hr hsl, hin]
  refine ⟨fun hph hpre hrec => ?_, fun hph hpre => ?_, fun hph hpre => ?_, ?_⟩
  · simp [hph, hpre, hrec]
  · simp [hph, hpre]
  · simp [hph, hpre]
  · rintro (⟨hph, hpre⟩ | ⟨hph, hg⟩)
    · simp [hph, hpre]
    · simp [hph, hg]

end

/-! ### Slice starts (R51, R429) -/

/-- The state that a slice start leaves to its pass: a start that the promise does not cover is logged. -/
def sliceLogged (s : State) (l : Launch) : State := if s.sliceStarts l.eff = true ∧ s.promised = false then s.logEvent 429 l.region else s

theorem sliceLogged_eq (s : State) (l : Launch) : ∃ log, sliceLogged s l = { s with sched := { s.sched with log := log } } := by
  unfold sliceLogged
  split
  · exact ⟨_, rfl⟩
  · exact ⟨s.sched.log, rfl⟩

theorem sliceLogged_launches (s : State) (l : Launch) : (sliceLogged s l).sched.launches = s.sched.launches := by
  obtain ⟨log, h⟩ := sliceLogged_eq s l
  rw [h]

theorem sliceLogged_of_not_starts {s : State} {l : Launch} (h : s.sliceStarts l.eff = false) : sliceLogged s l = s := by simp [sliceLogged, h]

theorem sliceStarts_clk {s t : State} (h : t.clk = s.clk) (e : Effective) : t.sliceStarts e = s.sliceStarts e := by
  rw [State.sliceStarts, State.sliceStarts, State.beforeJump, State.beforeJump, h]

theorem tilesFree_clearing {s : State} {l : Launch} (h : ∃ k ∈ l.tiles, ∃ c ∈ s.sched.clearing, c.1 = k) : s.tilesFree l = false := by
  obtain ⟨k, hk, c, hc, rfl⟩ := h
  refine Bool.eq_false_iff.2 fun hfree => ?_
  have := List.all_eq_true.1 hfree _ hk
  simp only [Bool.and_eq_true, Bool.not_eq_true', List.any_eq_false] at this
  exact this.2 c hc (by simp)

section
variable {s : State} {l : Launch} (hs : s.sched.launches = [l]) (hsl : l.eff.sliced = true) (hr : l.region < 65536)
include hs hsl hr

theorem sliceStart_eq {s' : State} (hmiss : (sliceLogged s l).missSlice l.region = s') :
    exec (.sliceStart (BitVec.ofNat 16 l.region)) s = .next (s'.schedule.logMissed l.region) := by
  rw [execSliceStart_sole hs hsl hr, logSlice_sole hs hsl]
  exact congrArg (fun t : State => Host.Outcome.next (t.schedule.logMissed l.region)) hmiss

theorem sliceStart_no_gang (hg : l.gangKey = 0) :
    exec (.sliceStart (BitVec.ofNat 16 l.region)) s = .next ((sliceLogged s l).schedule.logMissed l.region) := by
  refine sliceStart_eq hs hsl hr ?_
  rw [State.missSlice, gangs_none ((sliceLogged_launches s l).trans hs) hg]
  rfl

section
variable (hg : l.gangKey ≠ 0)
include hg

theorem sliceStart_gives_up (hst : s.sliceStarts l.eff = true) (hph : l.phase = .chosen)
    (hclear : ∃ k ∈ l.tiles, ∃ c ∈ s.sched.clearing, c.1 = k) : exec (.sliceStart (BitVec.ofNat 16 l.region)) s =
    .next (((sliceLogged s l).giveUp [l.id]).schedule.logMissed l.region) := by
  refine sliceStart_eq hs hsl hr ?_
  rw [missSlice_sole ((sliceLogged_launches s l).trans hs) hg hsl (by simp [hph])]
  obtain ⟨log, hlog⟩ := sliceLogged_eq s l
  rw [hlog]
  exact if_pos ⟨hst, hph, tilesFree_clearing hclear⟩

section
variable (hdb : s.sched.doorbells = []) (hm : s.mgmt.saving = false) (ht : s.plc.tstat = []) (hph : l.phase = .eligible)
  (hc : l.contexts = []) (hgrid : l.onGrid = false) (hage : l.eff.ageLim = 0) (hcls : l.cls ≤ 15)
  (hcost : l.w * l.h ≤ l.eff.maxTiles) (hb : ∀ c ∈ l.eff.chain, l.w * l.h ≤ c.2.1)

include hph in
theorem sliceStart_eligible :
    exec (.sliceStart (BitVec.ofNat 16 l.region)) s = .next ((sliceLogged s l).schedule.logMissed l.region) := by
  refine sliceStart_eq hs hsl hr ?_
  rw [missSlice_sole ((sliceLogged_launches s l).trans hs) hg hsl (by simp [hph])]
  exact if_neg (by simp [hph])

include hdb hm ht hph hc hgrid hage hcls hcost hb

/-- In the cycle of its slice start the gang goes to the first rectangle it may take (R51). -/
theorem sliceStart_places (hst : s.sliceStarts l.eff = true) {o : Nat × Nat} (ho : freePlace s l = some o) :
    ∃ t, exec (.sliceStart (BitVec.ofNat 16 l.region)) s = .next t ∧ (t.cur = s.cur ∧ t.parked = s.parked ∧ t.mem = s.mem) ∧
      t.sched.log = (sliceLogged s l).sched.log ∧
      t.sched.launches = [{ l with phase := .chosen, origin := o, exclSince := none }] ∧ tget 65536 t.sched.visited l.cls = l.region := by
  obtain ⟨log, hlog⟩ := sliceLogged_eq s l
  have hstart : s.mayStart l = true := by simp [State.mayStart, hg, hst]
  obtain ⟨t, hpass, ⟨hcur, hparked, hmem, -, hlogs, -⟩, hlaunch, hvisited⟩ :=
    schedule_placed (s := { s with sched := { s.sched with log := log } }) hs hdb ht hph hgrid hage hcls hcost hm hc hb hstart ho
  have hmissed : t.logMissed l.region = t := (logMissed_sole hlaunch hg hsl (by simp)).trans (if_neg (by simp [Launch.asking]))
  refine ⟨t, ?_, ⟨hcur, hparked, hmem⟩, ?_, hlaunch, hvisited⟩
  · rw [sliceStart_eligible hs hsl hr hg hph, hlog, hpass, hmissed]
  · rw [hlog, hlogs]

theorem sliceStart_misses (hst : s.sliceStarts l.eff = true) (ho : freePlace s l = none) (hp : s.placeable false [l] = true) :
    ∃ (t : State) (e : Option Nat), exec (.sliceStart (BitVec.ofNat 16 l.region)) s = .next t ∧
      (t.cur = s.cur ∧ t.parked = s.parked ∧ t.mem = s.mem) ∧ t.sched.log = (sliceLogged s l).sched.log ++ [(51, l.region)] ∧
      t.sched.launches = [{ l with exclSince := e }] := by
  obtain ⟨log, hlog⟩ := sliceLogged_eq s l
  have hstart : s.mayStart l = true := by simp [State.mayStart, hg, hst]
  obtain ⟨t, e, hpass, ⟨hcur, hparked, hmem, hclk, hlogs, -⟩, hlaunch⟩ :=
    schedule_unplaced (s := { s with sched := { s.sched with log := log } }) hs hdb ht hph hgrid hage hcls hcost hp fun e ds =>
      (passPlace_sole (s := beforePlacing { s with sched := { s.sched with log := log } } l e ds) (l := { l with exclSince := e })
        rfl hm hc hb hstart).trans (congrArg (Option.map _) ho)
  have hmissed : t.logMissed l.region = t.logEvent 51 l.region := by
    refine (logMissed_sole hlaunch hg hsl (by simp [hph])).trans (if_pos ⟨?_, by simp [Launch.asking, hph]⟩)
    exact (sliceStarts_clk hclk l.eff).trans hst
  refine ⟨t.logEvent 51 l.region, e, ?_, ⟨hcur, hparked, hmem⟩, ?_, hlaunch⟩
  · rw [sliceStart_eligible hs hsl hr hg hph, hlog, hpass, hmissed]
  · rw [hlog]
    exact congrArg (· ++ [(51, l.region)]) hlogs

omit hm hc hb in
theorem sliceStart_not_yet (hst : s.sliceStarts l.eff = false) (hp : s.placeable false [l] = true) :
    ∃ (t : State) (e : Option Nat), exec (.sliceStart (BitVec.ofNat 16 l.region)) s = .next t ∧
      (t.cur = s.cur ∧ t.parked = s.parked ∧ t.mem = s.mem) ∧ t.sched.log = s.sched.log ∧ t.sched.launches = [{ l with exclSince := e }] := by
  have hstart : s.mayStart l = false := by simp [State.mayStart, hg, hst, hsl]
  obtain ⟨t, e, hpass, ⟨hcur, hparked, hmem, hclk, hlogs, -⟩, hlaunch⟩ :=
    schedule_unplaced hs hdb ht hph hgrid hage hcls hcost hp fun e ds => passPlace_not_now hstart
  have hmissed : t.logMissed l.region = t :=
    (logMissed_sole hlaunch hg hsl (by simp [hph])).trans (if_neg fun h => by simp [sliceStarts_clk hclk, hst] at h)
  refine ⟨t, e, ?_, ⟨hcur, hparked, hmem⟩, hlogs, hlaunch⟩
  rw [sliceStart_eligible hs hsl hr hg hph, sliceLogged_of_not_starts hst, hpass, hmissed]

/-! ### Ahead of a slice start (R51, R57) -/

omit hdb ht hgrid hage in
theorem sliceLead_unplaced (hst : s.sliceStarts l.eff = false) (ho : freePlace s l = none) :
    exec (.sliceLead (BitVec.ofNat 16 l.region)) s = .next s.dropDeficits := by
  rw [sliceLead_sole hs hr hg hsl hph, if_neg (by simp [hst]), lead_unplaced hs hg hsl hph hst hcls hcost hm hc hb ho]

omit hdb ht hage in
/-- A gang that finds its place ahead takes it once the slice start is within the pre-emption time. -/
theorem sliceLead_placed (hst : s.sliceStarts l.eff = false) {o : Nat × Nat} (ho : freePlace s l = some o) (hretrain : s.env.retrain = []) :
    (4 * 34000 < s.toSlice l.eff → exec (.sliceLead (BitVec.ofNat 16 l.region)) s = .next s.dropDeficits) ∧
    (s.toSlice l.eff ≤ 4 * 34000 → ∃ t, exec (.sliceLead (BitVec.ofNat 16 l.region)) s = .next t ∧
      (t.cur = s.cur ∧ t.parked = s.parked ∧ t.mem = s.mem) ∧ t.sched.launches = [{ l with phase := .chosen, origin := o }] ∧
      tget 65536 t.sched.visited l.cls = l.region) := by
  obtain ⟨d, hlead⟩ := lead_placed hs hg hsl hph hst hcls hcost hm hc hb ho hgrid hretrain
  rw [sliceLead_sole hs hr hg hsl hph, if_neg (by simp [hst]), hlead]
  constructor
  · intro hfar
    rw [if_neg (Nat.not_le.2 hfar)]
  · intro hnear
    rw [if_pos hnear]
    exact ⟨_, rfl, ⟨rfl, rfl, rfl⟩, rfl, tget_tput_self ..⟩

end
end
end

end Sys2Proof.Launching

open Sys2Proof Sys2Proof.Machine Sys2Proof.Laws Sys2Proof.Launching in
/-- Settles O42: with one launch a pass is one visit of its region, whose placement is the first rectangle that the launch may take; that every
pass is stamped with its cycle is carried through everything a pass sets going. -/
theorem schedulingEvents : Obligations.SchedulingEvents := by
  unfold Obligations.SchedulingEvents
  refine ⟨fun s => ⟨rfl, ?pass, ?observed, ?gone, ?oneDep, ?waits, ?watchdog, ?abort, ?resolved, ?unresolvable⟩, ?slices⟩
  case pass =>
    intro l o hdb hm ht hs hph hc hgrid hg hsl hage hcls hcost hb ho
    exact schedulingPass_places hs hdb hm ht hph hc hgrid hsl hage hcls hcost hb ho
  case observed =>
    intro id
    cases hl : s.launch? id with
    | none => exact ⟨s.schedule, dependenceChange_none hl, schedule_lastPass s⟩
    | some l => exact ⟨(s.evalDeps l).schedule, dependenceChange_some hl, (schedule_lastPass _).trans (evalDeps_tick s l)⟩
  case gone => exact fun id hl => ⟨s.schedule, dependenceChange_none hl, rfl⟩
  case oneDep =>
    intro l d bs s1 hl hph hd hsat hread s2
    refine ⟨s2.schedule, ?_, rfl⟩
    rw [dependenceChange_some hl, evalDeps_one hph hd hsat hread]
  case waits =>
    intro l hl hg hph
    exact ⟨agingExpiry_due hl hg hph, agingExpiry_early hl hg, fun e he => exclusionTimeout_due hl hg hph he,
      fun e he => exclusionTimeout_early hl he⟩
  case watchdog =>
    intro l hl hb hid htx hty hw
    exact ⟨watchdogExpiry_due hl hb hid htx hty hw, watchdogExpiry_early hl⟩
  case abort =>
    intro l hl
    refine ⟨fun hph hst => ⟨_, abortLaunch_ends hl hph, ?_⟩, abortLaunch_held hl⟩
    exact endLaunch_drains hl hst .aborted
  case resolved =>
    intro writes
    refine ⟨_, rfl, ?_⟩
    rw [pageWrites]
    exact ⟨rfl, unhold_cur_held, unhold_cur_other⟩
  case unresolvable =>
    intro asid va
    refine ⟨_, rfl, List.mem_cons_self, rfl, fun h => ?_⟩
    exact congrArg (fun t : Machine.Task => t.seq.state) (unhold_cur_held h)
  case slices =>
    intro s l hs hsl hr region
    refine ⟨sliceEnd_outside hs hsl hr, sliceEnd_inside hs hsl hr, ?starts⟩
    case starts =>
      intro s0 found still
      refine ⟨fun hg => ⟨⟨_, rfl, sliceStart_no_gang hs hsl hr hg⟩, sliceLead_none hs hr hg⟩,
        fun hg hst hph _ _ hclear => ⟨_, rfl, sliceStart_gives_up hs hsl hr hg hst hph hclear⟩,
        fun hg hdb hm ht hph hc hgrid hage hcls hcost hb => ⟨fun hst => ⟨?now, fun o ho => ?placed, fun ho hp => ?missed⟩,
          fun hst => ⟨fun hp => ?early, fun ho => ?noLead, fun o ho => ?lead⟩⟩⟩
      case now => rw [sliceLead_sole hs hr hg hsl hph, if_pos hst]
      case placed => exact sliceStart_places hs hsl hr hg hdb hm ht hph hc hgrid hage hcls hcost hb hst ho
      case missed => exact sliceStart_misses hs hsl hr hg hdb hm ht hph hc hgrid hage hcls hcost hb hst ho hp
      case early => exact sliceStart_not_yet hs hsl hr hg hdb ht hph hgrid hage hcls hcost hst hp
      case noLead => exact sliceLead_unplaced hs hsl hr hg hm hph hc hcls hcost hb hst ho
      case lead => exact sliceLead_placed hs hsl hr hg hm hph hc hgrid hcls hcost hb hst ho
end

section
/-! SUPPORT. Host writes of the management space, register by register (R421 to R425). -/

namespace Sys2Proof.Managing
open Sys2Proof Sys2Proof.Machine Sys2Proof.Laws

variable {s : State} {v : BitVec 64}

/-! ### Which writes reach a register -/

theorem registerWrite_buffer {off size : Nat} (h1 : 1 ≤ size) (h8 : size ≤ 8) (hlo : 0x1000 ≤ off) (hhi : off + size ≤ 0x1800) :
    exec (.registerWrite off size v) s =
      .next { s with mgmt := { s.mgmt with mbBuf := s.mgmt.mbBuf.putBytes off (leBytes v.toNat size) } } := by
  change execRegisterWrite off size v s = _
  rw [execRegisterWrite, if_pos ⟨hlo, hhi⟩, if_pos ⟨h1, h8⟩]

theorem registerWrite_misaligned {off size : Nat} (hb : ¬ (0x1000 ≤ off ∧ off + size ≤ 0x1800)) (h : off % size ≠ 0) :
    exec (.registerWrite off size v) s = .next s := by
  change execRegisterWrite off size v s = _
  rw [execRegisterWrite, if_neg hb, if_pos (by simpa using h)]

/-- An aligned write outside the mailbox's request buffer writes an entry of NBARB, a threshold, or an 8 B register, at its own size. -/
theorem registerWrite_aligned {off size : Nat} (hb : ¬ (0x1000 ≤ off ∧ off + size ≤ 0x1800)) (h : off % size = 0) :
    exec (.registerWrite off size v) s = .next (
      if 0x5800 ≤ off ∧ off < 0x5C00 then
        (if size = 4 then { s with mgmt := { s.mgmt with nbarb := tput ((off - 0x5800) / 4) ((v.extractLsb' 0 32) &&& 0xFCFFF#32) s.mgmt.nbarb } }
        else s)
      else if 0x20000 ≤ off ∧ off < 0x40000 then
        (if size = 2 then { s with obs := { s.obs with thr := tput ((off - 0x20000) / 2) (low v 16) s.obs.thr } } else s)
      else if size = 8 then s.regWrite off v
      else s) := by
  change execRegisterWrite off size v s = _
  rw [execRegisterWrite, if_neg hb, if_neg (by simpa using h)]

theorem registerWrite_reg {off : Nat} (hb : off < 0x1000 ∨ 0x1800 ≤ off) (h : off % 8 = 0) (hn : off < 0x5800 ∨ 0x5C00 ≤ off)
    (ht : off < 0x20000 ∨ 0x40000 ≤ off) : exec (.registerWrite off 8 v) s = .next (s.regWrite off v) := by
  rw [registerWrite_aligned (by omega) h, if_neg (by omega), if_neg (by omega), if_pos rfl]

theorem registerWrite_odd_size {off size : Nat} (hb : ¬ (0x1000 ≤ off ∧ off + size ≤ 0x1800)) (h8 : size ≠ 8)
    (hn : off < 0x5800 ∨ 0x5C00 ≤ off) (ht : off < 0x20000 ∨ 0x40000 ≤ off) : exec (.registerWrite off size v) s = .next s := by
  by_cases h : off % size = 0
  · rw [registerWrite_aligned hb h, if_neg (by omega), if_neg (by omega), if_neg h8]
  · exact registerWrite_misaligned hb h

theorem registerWrite_nbarb {g : Nat} (hg : g < 256) : exec (.registerWrite (0x5800 + 4 * g) 4 v) s =
    .next { s with mgmt := { s.mgmt with nbarb := tput g (v.setWidth 32 &&& 0xFCFFF#32) s.mgmt.nbarb } } := by
  rw [registerWrite_aligned (by omega) (by omega), if_pos (by omega), if_pos rfl, BitVec.setWidth_eq_extractLsb' (by omega),
    show (0x5800 + 4 * g - 0x5800) / 4 = g by omega]

theorem registerWrite_threshold {r : Nat} (hr : r < 65536) : exec (.registerWrite (0x20000 + 2 * r) 2 v) s =
    .next { s with obs := { s.obs with thr := tput r (low v 16) s.obs.thr } } := by
  rw [registerWrite_aligned (by omega) (by omega), if_neg (by omega), if_pos (by omega), if_pos rfl,
    show (0x20000 + 2 * r - 0x20000) / 2 = r by omega]

/-! ### Device registers (R422) -/

/-- What lies below the reckoning log's registers, and the buffer map. -/
theorem registerWrite_device {off : Nat} (hb : off < 0x1000 ∨ 0x1800 ≤ off ∧ off < 0x2000 ∨ 0x40000 ≤ off ∧ off < 0x60000) (h : off % 8 = 0)
    {m : Mgmt} (hm : s.mgmt.write s.sched.everPlaced off v = m) : exec (.registerWrite off 8 v) s = .next { s with mgmt := m } := by
  rw [registerWrite_reg (by omega) h (by omega) (by omega), State.regWrite, if_pos (by omega), hm]

/-- A device register that no write changes by itself. -/
theorem mgmt_write_other (m : Mgmt) (placed : Bool) {off : Nat} (h : off ∉ [0x00, 0x18, 0x20, 0x28, 0x38, 0x40, 0x48, 0x1FF8])
    (hb : off < 0x40000) : m.write placed off v = m := by
  simp only [List.mem_cons, not_or] at h
  unfold Mgmt.write
  split
  case h_9 => exact if_neg (by omega)
  all_goals omega

theorem mgmt_write_bmbase (m : Mgmt) (placed : Bool) {a : Nat} (ha : a < 16384) :
    m.write placed (0x40000 + 8 * a) v = { m with bmbase := tput a (v &&& 0xFFFFFFFFFF001#64) m.bmbase } := by
  unfold Mgmt.write
  split
  case h_9 => rw [if_pos (by omega), show (0x40000 + 8 * a - 0x40000) / 8 = a by omega]
  all_goals omega

/-! ### Registers elsewhere (R423 to R425) -/

/-- An offset that holds no register, or one whose writes are events of their own. -/
theorem registerWrite_none {off : Nat} (h : off % 8 = 0) (hoff : (0x2000 ≤ off ∧ off < 0x3000 ∧ off ≠ 0x2030 ∧ off ≠ 0x2038) ∨
      (0x3C00 ≤ off ∧ off < 0x40000) ∨ (0x6C000 ≤ off ∧ off < 0x200000) ∨ 0x200000 + 0x10000 * 768 ≤ off) :
    exec (.registerWrite off 8 v) s = .next s := by
  rw [registerWrite_aligned (by omega) h]
  split
  · rfl
  · split
    · rfl
    · rw [if_pos rfl, State.regWrite, if_neg (by omega), if_neg (by omega), if_neg (by omega), if_neg (by omega), if_neg (by omega),
        if_neg (by omega)]

theorem registerWrite_core {c i : Nat} (hc : c < 12) (hi : i < 256) (h8 : i % 8 = 0) :
    exec (.registerWrite (0x3000 + 256 * c + i) 8 v) s = .next (s.setCore c ((s.core c).write i v)) := by
  rw [registerWrite_reg (by omega) (by omega) (by omega) (by omega), State.regWrite, if_neg (by omega), if_neg (by omega), if_neg (by omega),
    if_pos (by omega), show (0x3000 + 256 * c + i - 0x3000) / 256 = c by omega, show (0x3000 + 256 * c + i) % 256 = i by omega]

theorem registerWrite_window {c j : Nat} (hc : c < 12) (hj : j < 512) :
    exec (.registerWrite (0x60000 + 4096 * c + 8 * j) 8 v) s =
      .next (s.setCore c { s.core c with window := tput j v (s.core c).window }) := by
  rw [registerWrite_reg (by omega) (by omega) (by omega) (by omega), State.regWrite, if_neg (by omega), if_neg (by omega), if_neg (by omega),
    if_neg (by omega), if_pos (by omega)]
  simp only [show (0x60000 + 4096 * c + 8 * j - 0x60000) / 4096 = c by omega, show (0x60000 + 4096 * c + 8 * j) % 4096 / 8 = j by omega]

theorem registerWrite_dbg {tile i : Nat} (ht : tile < 768) (hi : i < 0x10000) (h8 : i % 8 = 0) :
    exec (.registerWrite (0x200000 + 0x10000 * tile + i) 8 v) s = .next (s.setDbg tile ((s.dbg tile).write i v)) := by
  rw [registerWrite_reg (by omega) (by omega) (by omega) (by omega), State.regWrite, if_neg (by omega), if_neg (by omega), if_neg (by omega),
    if_neg (by omega), if_neg (by omega), if_pos (by omega)]
  simp only [show (0x200000 + 0x10000 * tile + i - 0x200000) / 0x10000 = tile by omega,
    show (0x200000 + 0x10000 * tile + i) % 0x10000 = i by omega]

theorem logline_write_other (l : Logline) {i : Nat} (h : i ∉ [0x00, 0x08, 0x18, 0x20]) : l.write i v = l := by
  simp only [List.mem_cons, not_or] at h
  unfold Logline.write
  split
  case h_5 => rfl
  all_goals omega

theorem tileDbg_write_other (d : TileDbg) {i : Nat} (h : i ∉ [0x00, 0x08, 0x20, 0x28, 0x30]) : d.write i v = d := by
  simp only [List.mem_cons, not_or] at h
  unfold TileDbg.write
  split
  case h_6 => rfl
  all_goals omega

/-! ### Tables read after a write -/

theorem tget_tput {α : Type} (d : α) (i j : Nat) (x : α) (t : Tbl α) : tget d (tput i x t) j = if j = i then x else tget d t j := by
  split
  · subst j; exact tget_tput_self d i x t
  · exact tget_tput_other d ‹_› x t

theorem core_setCore (s : State) (c k : Nat) (l : Logline) : (s.setCore c l).core k = if k = c then l else s.core k := tget_tput ..

theorem dbg_setDbg (s : State) (tile k : Nat) (d : TileDbg) : (s.setDbg tile d).dbg k = if k = tile then d else s.dbg k := tget_tput ..

/-- A write of a core's register is a write of that core alone. -/
theorem registerWrite_core_sets {c i : Nat} (hc : c < 12) (hi : i < 256) (h8 : i % 8 = 0) {l : Logline} (hl : (s.core c).write i v = l) :
    ∃ t, exec (.registerWrite (0x3000 + 256 * c + i) 8 v) s = .next t ∧ t.core c = l ∧ (∀ k, k ≠ c → t.core k = s.core k) ∧
      t.mgmt = s.mgmt ∧ t.cur = s.cur ∧ t.mem = s.mem := by
  refine ⟨_, registerWrite_core hc hi h8, ?_, fun k hk => ?_, rfl, rfl, rfl⟩
  · rw [core_setCore, if_pos rfl, hl]
  · rw [core_setCore, if_neg hk]

/-- A write of a tile's debug register is a write of that tile's alone. -/
theorem registerWrite_dbg_sets {tile i : Nat} (ht : tile < 768) (hi : i < 0x10000) (h8 : i % 8 = 0) {d : TileDbg}
    (hd : (s.dbg tile).write i v = d) :
    ∃ t, exec (.registerWrite (0x200000 + 0x10000 * tile + i) 8 v) s = .next t ∧ t.dbg tile = d ∧ (∀ k, k ≠ tile → t.dbg k = s.dbg k) ∧
      t.mgmt = s.mgmt ∧ t.cur = s.cur ∧ t.mem = s.mem := by
  refine ⟨_, registerWrite_dbg ht hi h8, ?_, fun k hk => ?_, rfl, rfl, rfl⟩
  · rw [dbg_setDbg, if_pos rfl, hd]
  · rw [dbg_setDbg, if_neg hk]

/-- The bytes of a word, each where it is written. -/
theorem leBytes_getElem (x n k : Nat) (h : k < (leBytes x n).length) : (leBytes x n)[k] = BitVec.ofNat 8 (x / 256 ^ k) := by
  induction n generalizing x k with
  | zero => simp at h
  | succ n ih =>
    cases k with
    | zero => simp [leBytes]
    | succ k => simp [leBytes, ih, Nat.div_div_eq_div_mul, Nat.pow_succ']

/-- Byte `k` of a register. -/
theorem ofNat_div_pow (v : BitVec 64) (k : Nat) : BitVec.ofNat 8 (v.toNat / 256 ^ k) = v.extractLsb' (8 * k) 8 := by
  apply BitVec.eq_of_toNat_eq
  rw [BitVec.toNat_ofNat, BitVec.extractLsb'_toNat, Nat.shiftRight_eq_div_pow, Nat.pow_mul]

theorem get_putBytes_leBytes {m : Memory} (h : Memory.wf m = true) (off size x : Nat) :
    (m.putBytes off (leBytes v.toNat size)).get x = if off ≤ x ∧ x < off + size then v.extractLsb' (8 * (x - off)) 8 else m.get x := by
  rw [get_putBytes h]
  by_cases hx : off ≤ x ∧ x < off + size
  · rw [dif_pos (by simp; omega), if_pos hx, leBytes_getElem, ofNat_div_pow]
  · rw [dif_neg (by simp; omega), if_neg hx]

/-! ### The mailbox, firmware and attestation (R422, R430, R431) -/

theorem mailboxRequest_taken (h : s.mgmt.mbReq = true) (ht : s.mgmt.mbTaken = []) : exec .mailboxRequest s = .next { s with
    mgmt := { s.mgmt with mbReq := false, mbTaken := s.mgmt.mbBuf.bytes 0x1000 (min s.mgmt.mbReqLen 2048) } } := by
  change execMailboxRequest s = _
  rw [execMailboxRequest, if_pos (by simp [h, ht])]

theorem mailboxRequest_ignored (h : s.mgmt.mbReq = false ∨ s.mgmt.mbTaken ≠ []) : exec .mailboxRequest s = .next s := by
  change execMailboxRequest s = _
  rw [execMailboxRequest, if_neg (by simp only [Bool.and_eq_true, List.isEmpty_iff, not_and_or]; simpa using h)]

theorem mailboxResponse_given {bs : List Byte} (h : s.mgmt.mbRsp = false) (hl : bs.length ≤ 2040) : exec (.mailboxResponse bs) s = .next { s with
    mgmt := { s.mgmt with mbRsp := true, mbRspLen := bs.length, mbTaken := [], mbBuf := s.mgmt.mbBuf.putBytes 0x1800 bs } } := by
  change execMailboxResponse bs s = _
  rw [execMailboxResponse, if_neg (by simp [h, hl])]

theorem firmwareVerify_eq (image : FirmwareImage) : exec (.firmwareVerify image) s = .next { s with mgmt :=
    if image.signatureOk = true ∧ s.mgmt.fwMin.toNat ≤ image.version.toNat then
      { s.mgmt with fwNext := some image.version, fwRefused := false }
    else { s.mgmt with fwRefused := true } } := by
  change execFirmwareVerify image s = _
  simp only [execFirmwareVerify, Bool.and_eq_true, decide_eq_true_eq]

theorem firmwareHandover_some {x : BitVec 32} (h : s.mgmt.fwNext = some x) : exec .firmwareHandover s = .next (
    if s.choose.1 then s.choose.2.logEvent 431 0
    else { s.choose.2 with mgmt := { s.mgmt with fwVersion := x, fwSince := s.elapsed, fwNext := none } }) := by
  change execFirmwareHandover s = _
  rw [execFirmwareHandover, h]
  rfl

theorem firmwareHandover_none (h : s.mgmt.fwNext = none) : exec .firmwareHandover s = .next (s.logEvent 431 0) := by
  change execFirmwareHandover s = _
  rw [execFirmwareHandover, h]

theorem securityVersionRaise_due {x : BitVec 32} (ht : s.mgmt.fwSince + 86400000000000 ≤ s.elapsed) (hx : s.mgmt.fwMin.toNat < x.toNat) :
    exec (.securityVersionRaise x) s =
      .next (if s.choose.1 then s.choose.2 else { s.choose.2 with mgmt := { s.mgmt with fwMin := x } }) := by
  change execSecurityVersionRaise x s = _
  rw [execSecurityVersionRaise, if_pos ⟨ht, hx⟩]
  rfl

theorem securityVersionRaise_ignored {x : BitVec 32} (h : s.elapsed < s.mgmt.fwSince + 86400000000000 ∨ x.toNat ≤ s.mgmt.fwMin.toNat) :
    exec (.securityVersionRaise x) s = .next s := by
  change execSecurityVersionRaise x s = _
  rw [execSecurityVersionRaise, if_neg (by unfold dayNs; omega)]

/-- The management space in which a report of the present day is counted. -/
def today (s : State) : Mgmt :=
  if s.ptime / dayNs = s.mgmt.reportDay then s.mgmt else { s.mgmt with reportDay := s.ptime / dayNs, reports := 0 }

theorem today_same (h : s.mgmt.reportDay = s.ptime / 86400000000000) : today s = s.mgmt := if_pos h.symm

theorem today_leaf (s : State) : (today s).leaf = s.mgmt.leaf := by
  unfold today
  split <;> rfl

theorem attestationRequest_eq (nonce : BitVec 256) : exec (.attestationRequest nonce) s = .next { s with mgmt :=
    if (today s).reports < 16 ∧ (today s).leaf < 2 ^ 20 then
      { today s with leaf := (today s).leaf + 1, reports := (today s).reports + 1, lastReport := some (s.report nonce (today s).leaf)
                     reportStale := false }
    else { today s with reportStale := true } } := rfl

end Sys2Proof.Managing

open Sys2Proof Sys2Proof.Machine Sys2Proof.Laws Sys2Proof.Managing in
/-- Settles O51: every offset is written by the one register that stands there, and the other events each change what they name. -/
theorem managementEvents : Obligations.ManagementEvents := by
  intro s v m writes field
  refine ⟨?devid, ?devidHeld, ?cntvec, ?sigtail, ?sigbase, ⟨_, rfl⟩, ?siglog2, ?siglog2Held, ?scrubh, ?scrubhHeld, ?scrubt, ?scrubtHeld,
    rfl, ?bmbase, ?thresholds, ?buffer, ?bkp0, fun off size hb h => registerWrite_misaligned hb h,
    fun off size hb h8 hn ht => registerWrite_odd_size hb h8 hn ht, ?deviceOther, ?elsewhere, rfl, rfl, ?cores, ?debug, ?nbarb,
    mailboxRequest_taken, mailboxRequest_ignored, ?response, firmwareVerify_eq, fun x h => firmwareHandover_some h, ?noImage,
    fun x => ⟨securityVersionRaise_due, securityVersionRaise_ignored⟩, ?attestation⟩
  case devid => exact fun hp hv => registerWrite_device (by omega) rfl (if_neg (not_or.2 ⟨by simp [hp], Nat.not_le.2 hv⟩))
  case devidHeld => exact fun h => registerWrite_device (by omega) rfl (if_pos h)
  case cntvec =>
    refine registerWrite_device (by omega) rfl ?_
    rw [BitVec.setWidth_eq_extractLsb' (by omega)]
    rfl
  case sigtail => exact registerWrite_device (by omega) rfl rfl
  case sigbase =>
    intro t ht
    cases ht
    refine ⟨(BitVec.extractLsb'_and ..).trans ?_, (BitVec.extractLsb'_and ..).trans ?_, rfl⟩
    · exact BitVec.and_allOnes
    · exact BitVec.and_zero
  case siglog2 => exact fun hlo hhi => registerWrite_device (by omega) rfl (if_pos ⟨hlo, hhi⟩)
  case siglog2Held => exact fun h => registerWrite_device (by omega) rfl (if_neg (not_and_or.2 (h.imp Nat.not_le.2 Nat.not_le.2)))
  case scrubh => exact fun hlo hhi => registerWrite_device (by omega) rfl (if_pos ⟨hlo, hhi⟩)
  case scrubhHeld =>
    exact fun h => registerWrite_device (by omega) rfl
      (if_neg (not_and_or.2 (h.imp (fun h0 => Nat.not_le.2 (Nat.lt_one_iff.2 h0)) Nat.not_le.2)))
  case scrubt => exact fun hlo hhi => registerWrite_device (by omega) rfl (if_pos ⟨hlo, hhi⟩)
  case scrubtHeld => exact fun h => registerWrite_device (by omega) rfl (if_neg (not_and_or.2 (h.imp Nat.not_le.2 Nat.not_le.2)))
  case bmbase =>
    intro a ha
    exact ⟨_, registerWrite_device (by omega) (by omega) (mgmt_write_bmbase _ _ ha), fun b => tget_tput ..⟩
  case thresholds => exact fun r hr => ⟨_, registerWrite_threshold hr, fun q => tget_tput ..⟩
  case buffer =>
    intro off size h1 h8 hlo hhi hwf
    exact ⟨_, registerWrite_buffer h1 h8 hlo hhi, get_putBytes_leBytes hwf off size⟩
  case bkp0 =>
    intro tile ht
    obtain ⟨t, he, hd, -, -, hcur, hmem⟩ := registerWrite_dbg_sets (s := s) (v := v) ht (i := 0) (by omega) rfl rfl
    exact ⟨t, he, by rw [hd]; rfl, by rw [hd]; rfl, hcur, hmem⟩
  case deviceOther =>
    intro off h8 hlt hoff hb
    by_cases h : off < 0x2000
    · exact registerWrite_device (by omega) h8 (mgmt_write_other _ _ (by simp_all) (by omega))
    · exact registerWrite_none h8 (by simp_all)
  case elsewhere => exact fun off h8 h => registerWrite_none h8 (by omega)
  case cores =>
    intro c hc l sets
    refine ⟨registerWrite_core_sets (i := 0) hc (by omega) rfl rfl, registerWrite_core_sets hc (by omega) rfl rfl,
      registerWrite_core_sets hc (by omega) rfl rfl, registerWrite_core_sets hc (by omega) rfl rfl,
      fun i hi h8 h => registerWrite_core_sets hc hi h8 (logline_write_other _ h), fun j hj => ⟨_, registerWrite_window hc hj, fun k => ?_⟩⟩
    rw [core_setCore, if_pos rfl]
    exact tget_tput ..
  case debug =>
    intro tile ht d sets
    exact ⟨registerWrite_dbg_sets ht (by omega) rfl rfl, registerWrite_dbg_sets ht (by omega) rfl rfl,
      registerWrite_dbg_sets ht (by omega) rfl rfl,
      registerWrite_dbg_sets ht (by omega) rfl (by rw [BitVec.setWidth_eq_extractLsb' (by omega)]; rfl),
      fun i hi h8 h => registerWrite_dbg_sets ht hi h8 (tileDbg_write_other _ h)⟩
  case nbarb => exact fun g hg => ⟨_, registerWrite_nbarb hg, rfl, rfl, fun k => tget_tput ..⟩
  case response =>
    intro bs h hl
    exact ⟨_, mailboxResponse_given h hl, rfl, rfl, rfl, rfl, rfl, fun hwf => bytes_putBytes hwf _ bs⟩
  case noImage => exact fun h => ⟨_, firmwareHandover_none h, rfl, by simp [State.logEvent], rfl⟩
  case attestation =>
    intro nonce
    refine ⟨_, attestationRequest_eq nonce, fun hday hr hl => ?_, fun hday hr => ?_, ?_, rfl, rfl⟩
    · simp only [today_same hday]
      rw [if_pos ⟨hr, hl⟩]
      exact ⟨rfl, rfl, rfl, rfl⟩
    · simp only [today_same hday]
      rw [if_neg fun h => Nat.not_le.2 h.1 hr]
      exact ⟨rfl, rfl, rfl⟩
    · dsimp only
      split <;> simp [today_leaf, m]
end

section
/-! SUPPORT. Refresh passes and deferrals (R67, R253, R254, R344). -/

namespace Sys2Proof.Upkeep
open Sys2Proof Sys2Proof.Machine Sys2Proof.Laws Sys2Proof.Managing

variable {s : State} {p : Nat}

theorem refreshOf_setRefresh (s : State) (p q : Nat) (r : Refresh) : (s.setRefresh p r).refreshOf q = if q = p then r else s.refreshOf q :=
  tget_tput ..

/-- The pass that starts now runs 65,536 device cycles for each good layer (R253). -/
theorem refreshOf_startPass (h : (s.refreshOf p).pass = none) (forced : Bool) (q : Nat) : (s.startPass p forced).refreshOf q =
    if q = p then { s.refreshOf p with defer := none, pass := some (s.clk.tick + 65536 * (s.chart p).nlay, forced) } else s.refreshOf q := by
  rw [State.startPass, refreshOf_setRefresh, h]
  rfl

theorem scheduledPass_due (hp : (s.refreshOf p).pass = none) (hn : (s.chart p).nlay ≠ 0) (hd : s.deferring p = false)
    (hv : s.delivering p = false) (ha : s.limitNs p ≤ 2 * (s.elapsed - (s.refreshOf p).lastEnd)) :
    exec (.scheduledRefreshPass p) s = .next (s.startPass p false) := by
  change Host.Outcome.next (s.scheduledPass p) = _
  rw [State.scheduledPass, if_pos (by simp [hp, hn, hd, hv, State.ageNs, ha])]

theorem scheduledPass_held (h : (s.refreshOf p).pass ≠ none ∨ s.deferring p = true ∨ s.delivering p = true ∨
      2 * (s.elapsed - (s.refreshOf p).lastEnd) < s.limitNs p) : exec (.scheduledRefreshPass p) s = .next s := by
  change Host.Outcome.next (s.scheduledPass p) = _
  rw [State.scheduledPass, if_neg]
  simp only [Bool.and_eq_true, Option.isNone_iff_eq_none, Bool.not_eq_true', decide_eq_true_eq, State.ageNs]
  rintro ⟨⟨⟨⟨hp, hd⟩, hv⟩, ha⟩, -⟩
  rcases h with h | h | h | h
  · exact h hp
  · simp [hd] at h
  · simp [hv] at h
  · exact Nat.not_le.2 h (of_decide_eq_true ha)

theorem forcedPass_due (hp : (s.refreshOf p).pass = none) (hn : (s.chart p).nlay ≠ 0)
    (ha : (s.refreshOf p).lastEnd + s.limitNs p ≤ s.elapsed + 2000000000) :
    exec (.forcedRefresh p) s = .next ((s.startPass p true).forcedFault p) := by
  change Host.Outcome.next (s.forcedPass p) = _
  have hf : s.forcedAt p ≤ s.elapsed := by unfold State.forcedAt; omega
  rw [State.forcedPass, if_pos (by simp [hp, hn, hf])]

/-- REFRESH_FORCED reaches tasks alone. -/
theorem forcedFault_env (s : State) (p : Nat) : (s.forcedFault p).env = s.env := by
  unfold State.forcedFault
  split
  · rfl
  · split
    · rfl
    · split <;> rfl

/-- A tile's task, where it stands in front. -/
theorem taskOn_cur {tile : Nat} (hb : s.cur.bound = true) (ht : s.cur.bnd.tile = tile) : s.taskOn tile = some s.cur := by
  simp [State.taskOn, State.tasks, hb, ht]

/-- REFRESH_FORCED of a tower into which no transfer delivers names no row (R254). -/
theorem forcedFault_cur {tile i : Nat} (hs : s.servedBy p = some (tile, i)) (hb : s.cur.bound = true) (ht : s.cur.bnd.tile = tile)
    (hl : s.cur.bnd.lease ≠ 0) (hr : s.cur.receives = true) (hx : s.bcInto s.cur i = none) :
    (s.forcedFault p).cur = { s.cur with seq := { s.cur.seq with
      pendingForced := insertForced i (BitVec.ofNat 64 (i + 8 * 0xFFFF)) s.cur.seq.pendingForced } } := by
  simp [State.forcedFault, hs, taskOn_cur hb ht, hl, hr, hx, State.onTile, ht]

theorem refreshPassEnd_due {e : Nat} {f : Bool} (h : (s.refreshOf p).pass = some (e, f)) (he : e ≤ s.clk.tick) :
    exec (.refreshPassEnd p) s = .next (s.setRefresh p { s.refreshOf p with pass := none, lastEnd := s.elapsed }) := by
  change Host.Outcome.next (s.passEnd p) = _
  simp [State.passEnd, h, he]

theorem refreshPassEnd_early {e : Nat} {f : Bool} (h : (s.refreshOf p).pass = some (e, f)) (he : s.clk.tick < e) :
    exec (.refreshPassEnd p) s = .next s := by
  change Host.Outcome.next (s.passEnd p) = _
  simp [State.passEnd, h, he]

theorem deferralExpiry_due {e : Nat} (h : (s.refreshOf p).defer = some e) (he : e ≤ s.elapsed) :
    exec (.deferralExpiry p) s = .next (s.setRefresh p { s.refreshOf p with defer := none }) := by
  change execDeferralExpiry p s = _
  simp [execDeferralExpiry, h, he]

theorem deferralExpiry_early {e : Nat} (h : (s.refreshOf p).defer = some e) (he : s.elapsed < e) : exec (.deferralExpiry p) s = .next s := by
  change execDeferralExpiry p s = _
  simp [execDeferralExpiry, h, he]

/-! ### Lists of numbers -/

@[simp] theorem mem_insertNat {i j : Nat} {l : List Nat} : j ∈ insertNat i l ↔ j = i ∨ j ∈ l := by
  induction l with
  | nil => simp [insertNat]
  | cons k l ih =>
    simp only [insertNat]
    split_ifs with h1 h2
    · simp
    · subst h2; simp
    · simp only [List.mem_cons, ih]; tauto

@[simp] theorem mem_eraseNat {i j : Nat} {l : List Nat} : j ∈ eraseNat i l ↔ j ∈ l ∧ j ≠ i := by simp [eraseNat]

/-! ### The patrol scrubber (R252) -/

/-- The history of a memory's rows, towers or HBM. -/
def hist (s : State) (tower : Bool) : Tbl ScrubHist := if tower then s.env.towHist else s.env.hbmHist

theorem scrubRow_corrected (tower : Bool) (row : Nat) : ∃ t, exec (.scrubRow tower row .corrected) s = .next t ∧ t.mem = s.mem ∧
    t.cur = s.cur ∧ hist t tower = tput (row / 64) ((tget .reset (hist s tower) (row / 64)).note false s.ptime) (hist s tower) := by
  cases tower with
  | true => exact ⟨_, rfl, rfl, rfl, rfl⟩
  | false =>
    refine ⟨_, rfl, ?_⟩
    simp only [Bool.false_eq_true, if_false]
    obtain ⟨o, m, h⟩ := countChan_observed
      { s with env := { s.env with hbmHist := tput (row / 64) ((tget .reset s.env.hbmHist (row / 64)).note false s.ptime) s.env.hbmHist } }
      (channelOf (2048 * row)) 9 1
    rw [h]
    exact ⟨rfl, rfl, rfl⟩

theorem scrubRow_uncorrectable (tower : Bool) (row : Nat) : ∃ t, exec (.scrubRow tower row .uncorrectable) s = .next t ∧
    row ∈ (if tower then t.mem.towerBad else t.mem.hbmBad) ∧ t.mem.hbm = s.mem.hbm ∧ t.mem.towers = s.mem.towers ∧ t.cur = s.cur ∧
    hist t tower = tput (row / 64) ((tget .reset (hist s tower) (row / 64)).note true s.ptime) (hist s tower) := by
  cases tower with
  | true => exact ⟨_, rfl, mem_insertNat.2 (.inl rfl), rfl, rfl, rfl, rfl⟩
  | false => exact ⟨_, rfl, mem_insertNat.2 (.inl rfl), rfl, rfl, rfl, rfl⟩

/-! ### Relayouts (R251) -/

theorem tget_filter_ne {α : Type} (d : α) (p q : Nat) (t : Tbl α) :
    tget d (t.filter fun x => x.1 != p) q = if q = p then d else tget d t q := by
  induction t with
  | nil => simp [tget]
  | cons x t ih =>
    by_cases hx : x.1 = p
    · rw [List.filter_cons_of_neg (by simpa using hx), ih]
      by_cases hq : q = p
      · rw [if_pos hq, if_pos hq]
      · rw [if_neg hq, if_neg hq, tget, if_neg (by simp [hx, Ne.symm hq])]
    · rw [List.filter_cons_of_pos (by simpa using hx), tget, ih, tget]
      by_cases hq : q = p
      · simp [hq, hx]
      · simp [hq]

theorem slotsOf_layOut (s : State) (p q : Nat) : (s.layOut p).slotsOf q = if q = p then s.slotsNeeded p else s.slotsOf q := tget_tput ..

theorem outgrown_layOut (s : State) (p q : Nat) : (s.layOut p).outgrown q = if q = p then false else s.outgrown q := by
  simp only [State.outgrown, State.layOut, tget_filter_ne]
  split <;> rfl

/-- What only observes the device leaves compressed pages as they are. -/
theorem observed_pages {s t : State} (h : SameButObserved s t) :
    t.mem = s.mem ∧ t.cur = s.cur ∧ (∀ q, t.slotsOf q = s.slotsOf q) ∧ ∀ q, t.outgrown q = s.outgrown q := by
  obtain ⟨o, m, rfl⟩ := h
  exact ⟨rfl, rfl, fun _ => rfl, fun _ => rfl⟩

theorem relayout_due (h : s.outgrown p = true) :
    exec (.relayout p) s = .next ((s.layOut p).countChan (channelOf (65536 * p)) 6 1) := by
  change execRelayout p s = _
  rw [execRelayout, if_pos h]

theorem relayout_ignored (h : s.outgrown p = false) : exec (.relayout p) s = .next s := by
  change execRelayout p s = _
  rw [execRelayout, if_neg (by simp [h])]

theorem relayoutDone_unlocks (h : s.outgrown p = false) (hq : ∀ q ∈ s.mem.lockQ, q.1 ≠ p) :
    exec (.relayoutDone p) s = .next { s with mem := { s.mem with
      locked := eraseNat p s.mem.locked, lockQ := s.mem.lockQ.filter fun q => q.1 != p } } := by
  change execRelayoutDone p s = _
  have hmine : (s.mem.lockQ.filter fun q => q.1 == p) = [] := List.filter_eq_nil_iff.2 fun q hm => by simpa using hq q hm
  rw [execRelayoutDone, if_neg (by simp [h])]
  simp only [hmine, List.foldl_nil]

theorem relayoutDone_held (h : s.outgrown p = true) : exec (.relayoutDone p) s = .next s := by
  change execRelayoutDone p s = _
  rw [execRelayoutDone, if_pos h]

/-- A block that waits for its page's relayout is what its page then shows. -/
theorem find?_tput {α : Type} (j : Nat) (x : α) (t : Tbl α) : (tput j x t).find? (fun q => q.1 == j) = some (j, x) := by
  induction t with
  | nil => simp [tput]
  | cons y t ih =>
    simp only [tput]
    split_ifs with h1 h2
    · simp
    · simp
    · rw [List.find?_cons_of_neg (by simpa using Ne.symm h2), ih]

theorem tput_ne_nil {α : Type} (j : Nat) (x : α) (t : Tbl α) : tput j x t ≠ [] := by
  intro h
  simpa [h] using find?_tput j x t

theorem writeBlock_fits {j : Nat} {block : List Byte} (h : s.outgrown p = false) (hs : slotCode block ≤ (s.slotsOf p).getD j 0) :
    s.writeBlock p j block = { s with mem := { s.mem with hbm := s.mem.hbm.putBlock (s.slotsOf p) p j block } } := by
  rw [State.writeBlock, if_pos (by rw [h, decide_eq_true hs]; rfl)]

theorem writeBlock_outgrows {j : Nat} {block : List Byte} (h : s.outgrown p = true ∨ (s.slotsOf p).getD j 0 < slotCode block) :
    s.writeBlock p j block = { s with mem := { s.mem with
        locked := insertNat p s.mem.locked
        regrow := tput p (tput j block (tget [] s.mem.regrow p)) s.mem.regrow } } := by
  rw [State.writeBlock, if_neg]
  rcases h with h | h
  · simp [h]
  · rw [decide_eq_false (Nat.not_le.2 h), Bool.and_false]
    exact Bool.false_ne_true

/-- A block written that has outgrown its slot locks its page, and is what the page then shows (R251). -/
theorem writeBlock_locks {j : Nat} {block : List Byte} (h : s.outgrown p = true ∨ (s.slotsOf p).getD j 0 < slotCode block) :
    p ∈ (s.writeBlock p j block).mem.locked ∧ (s.writeBlock p j block).outgrown p = true ∧
      (s.writeBlock p j block).logicalBlock p j = block ∧ (s.writeBlock p j block).mem.hbm = s.mem.hbm := by
  rw [writeBlock_outgrows h]
  refine ⟨mem_insertNat.2 (.inl rfl), ?_, ?_, rfl⟩
  · simp [State.outgrown, tput_ne_nil]
  · simp [State.logicalBlock, find?_tput]

/-- A block with the bytes of a write laid over it from an offset on. -/
def overlaid (block : List Byte) (off : Nat) (bs : List Byte) : List Byte :=
  block.mapIdx fun k b => if off ≤ k then (bs[k - off]?).getD b else b

/-- A write inside one block of a compressed page rewrites that block. -/
theorem homeWrite_block {a : Nat} {bs : List Byte} (h0 : 0 < bs.length) (h : a % 1024 + bs.length ≤ 1024) :
    s.homeWrite { kind := 3, addr := a } bs =
      s.writeBlock (a / 65536) (a / 1024 % 64) (overlaid (s.logicalBlock (a / 65536) (a / 1024 % 64)) (a % 1024) bs) := by
  change s.cmpWrite a bs = _
  rw [State.cmpWrite, show (a % 1024 + bs.length + 1023) / 1024 = 1 by omega]
  simp only [List.range_one, List.foldl_cons, List.foldl_nil, Nat.add_zero, show a / 1024 / 64 = a / 65536 by omega]
  congr 1
  unfold overlaid
  congr 1
  funext k b
  simp only [show a ≤ 1024 * (a / 1024) + k ↔ a % 1024 ≤ k by omega, show 1024 * (a / 1024) + k - a = k - a % 1024 by omega]

/-! ### Retraining (R395, R427, R431) -/

theorem channelRetrain_starts (hp : p < 256) (h : ∀ c ∈ s.env.retrain, c % 8 ≠ p % 8) : exec (.channelRetrain p) s = .next { s with
    env := { s.env with retrain := insertNat p s.env.retrain, retrainAt := tput p s.clk.tick s.env.retrainAt } } := by
  change execChannelRetrain p s = _
  rw [execChannelRetrain, if_neg]
  simp only [Bool.or_eq_true, decide_eq_true_eq, List.any_eq_true, beq_iff_eq, not_or, not_exists, not_and]
  exact ⟨Nat.not_le.2 hp, h⟩

theorem channelRetrain_held (h : ∃ c ∈ s.env.retrain, c % 8 = p % 8) : exec (.channelRetrain p) s = .next s := by
  change execChannelRetrain p s = _
  rw [execChannelRetrain, if_pos]
  simp only [Bool.or_eq_true, List.any_eq_true, beq_iff_eq]
  exact .inr h

theorem dataRateChange_waits {k : BitVec 3} (hr : s.env.rateChange = []) (hs : s.saving = true) :
    exec (.hbmDataRateChange k) s = .next { s with env := { s.env with rateChange := [k.toNat] } } := by
  change Host.Outcome.next (State.startRateChanges _) = _
  rw [State.startRateChanges, if_pos (by exact hs), hr]
  rfl

theorem mem_foldl_insertNat {i : Nat} (f : Nat → Nat) (l acc : List Nat) :
    i ∈ l.foldl (fun acc c => insertNat (f c) acc) acc ↔ i ∈ acc ∨ ∃ c ∈ l, i = f c := by
  induction l generalizing acc with
  | nil => simp
  | cons x l ih => simp only [List.foldl_cons, ih, mem_insertNat, List.mem_cons, exists_eq_or_imp]; tauto

/-- The 32 channels of a stack. -/
theorem mem_stack {c k : Nat} (hk : k < 8) : (∃ j ∈ List.range 32, c = 8 * j + k) ↔ c < 256 ∧ c % 8 = k := by
  simp only [List.mem_range]
  constructor
  · rintro ⟨j, hj, rfl⟩; omega
  · rintro ⟨h, rfl⟩; exact ⟨c / 8, by omega, by omega⟩

theorem dataRateChange_starts {k : BitVec 3} (hr : s.env.rateChange = []) (hs : s.saving = false)
    (h : ∀ c ∈ s.env.retrain, c % 8 ≠ k.toNat) : ∃ t, exec (.hbmDataRateChange k) s = .next t ∧ t.env.rateChange = [] ∧
      ∀ c, c ∈ t.env.retrain ↔ c ∈ s.env.retrain ∨ c < 256 ∧ c % 8 = k.toNat := by
  have hany : ¬ (s.env.retrain.any fun c => stackOf c == k.toNat) = true := by simpa [stackOf] using h
  refine ⟨{ s with env := { s.env with
      retrain := (List.range 32).foldl (fun l c => insertNat (8 * c + k.toNat) l) s.env.retrain
      retrainAt := (List.range 32).foldl (fun l c => tput (8 * c + k.toNat) s.clk.tick l) s.env.retrainAt
      rateChange := eraseNat k.toNat [k.toNat] } }, ?_, by simp [eraseNat], fun c => ?_⟩
  · change Host.Outcome.next (State.startRateChanges _) = _
    rw [State.startRateChanges, if_neg (by simpa [State.saving] using hs)]
    simp only [hr, insertNat, List.foldl_cons, List.foldl_nil, if_neg hany]
  · dsimp only
    rw [mem_foldl_insertNat fun j => 8 * j + k.toNat, mem_stack k.isLt]

theorem linkRetrain_down (hp : p < 18) (h : p ∉ s.env.linksDown) : exec (.linkRetrain p) s =
    .next { s with env := { s.env with linksDown := insertNat p s.env.linksDown } } := by
  change execLinkRetrain p s = _
  rw [execLinkRetrain, if_neg (Nat.not_le.2 hp), if_neg (by simpa using h)]

theorem linkRetrain_up (hp : p < 18) (h : p ∈ s.env.linksDown) : exec (.linkRetrain p) s = .next { s with
    env := { s.env with linksDown := eraseNat p s.env.linksDown }, mem := { s.mem with deadPeers := [] } } := by
  change execLinkRetrain p s = _
  rw [execLinkRetrain, if_neg (Nat.not_le.2 hp), if_pos (by simpa using h)]

end Sys2Proof.Upkeep
end

section
/-! SUPPORT. Sensors, columns' clocks and temperatures, power modes and coolant (R78 to R80, R432). -/

namespace Sys2Proof.Upkeep
open Sys2Proof Sys2Proof.Machine Sys2Proof.Laws Sys2Proof.Managing Sys2Proof.Launching

variable {s : State}

theorem column_setColumn (s : State) (px q : Nat) (c : Column) : (s.setColumn px c).column q = if q = px then c else s.column q := tget_tput ..

/-- What each of the first `n` steps makes of its own number, and of no other, the steps together make of the first `n`, where each
step keeps what the next one needs. -/
theorem foldl_each {α : Type} {f : State → Nat → State} {I : State → Prop} {view : State → Nat → α} {new : Nat → α → α}
    (hI : ∀ s px, I s → I (f s px)) (hv : ∀ s px q, I s → view (f s px) q = if q = px then new q (view s q) else view s q)
    (n : Nat) {s : State} (h : I s) :
    I ((List.range n).foldl f s) ∧ ∀ q, view ((List.range n).foldl f s) q = if q < n then new q (view s q) else view s q := by
  induction n with
  | zero => simpa using h
  | succ n ih =>
    obtain ⟨hn, hq⟩ := ih
    rw [List.range_succ, List.foldl_append, List.foldl_cons, List.foldl_nil]
    refine ⟨hI _ n hn, fun q => ?_⟩
    rw [hv _ n q hn, hq q]
    rcases lt_trichotomy q n with hlt | rfl | hgt
    · rw [if_neg (by omega), if_pos hlt, if_pos (by omega)]
    · rw [if_pos rfl, if_neg (by omega), if_pos (by omega)]
    · rw [if_neg (by omega), if_neg (by omega), if_neg (by omega)]

/-! ### Clocks within their caps (R432) -/

/-- Two states that differ in nothing but the columns. -/
def SameButColumns (s t : State) : Prop := ∃ c, t = { s with env := { s.env with columns := c } }

theorem SameButColumns.setColumn {t : State} (h : SameButColumns s t) (px : Nat) (c : Column) : SameButColumns s (t.setColumn px c) := by
  obtain ⟨_, rfl⟩ := h
  exact ⟨_, rfl⟩

/-- Every clock is kept within the cap of the mode in force, and nothing else changes. -/
theorem capClocks_spec (s : State) : SameButColumns s s.capClocks ∧
    ∀ px < 34, (s.capClocks.column px).clk = min (s.column px).clk s.clockCap := by
  obtain ⟨hs, hq⟩ := foldl_each (f := fun s px => if s.clockCap < (s.column px).clk then s.setColumn px { s.column px with clk := s.clockCap } else s)
    (I := SameButColumns s) (view := fun t px => (t.column px).clk) (new := fun _ c => min c s.clockCap)
    (fun t px h => by
      dsimp only
      split
      · exact h.setColumn ..
      · exact h)
    (fun t px q h => by
      have hc : t.clockCap = s.clockCap := by obtain ⟨_, rfl⟩ := h; rfl
      dsimp only
      by_cases hlt : t.clockCap < (t.column px).clk
      · rw [if_pos hlt, column_setColumn]
        by_cases hq : q = px
        · subst hq; rw [if_pos rfl, if_pos rfl, ← hc, Nat.min_eq_right hlt.le]
        · rw [if_neg hq, if_neg hq]
      · rw [if_neg hlt]
        by_cases hq : q = px
        · subst hq; rw [if_pos rfl, ← hc, Nat.min_eq_left (Nat.not_lt.1 hlt)]
        · rw [if_neg hq])
    34 (s := s) ⟨_, rfl⟩
  exact ⟨hs, fun px hpx => (hq px).trans (if_pos hpx)⟩

theorem clockCap_eq (s : State) : s.clockCap = if s.env.pmodeAct = 0 then 16 else if s.env.pmodeAct = 1 then 13 else 10 := by
  unfold State.clockCap
  split
  · rw [if_pos ‹_›]
  · rw [if_neg (by omega), if_pos ‹_›]
  · rw [if_neg ‹_›, if_neg ‹_›]

/-- The mode in force, its caps, and what a change of mode leaves: the task in front, the memories, and what was asked for. -/
theorem applyPmode_spec {t : State} {mode : Nat} (h : (if t.env.coolantLow then 2 else t.env.pmode) = mode)
    (hcol : t.env.columns = s.env.columns) : ∃ u, t.applyPmode = u ∧
    (u.env.pmodeAct = mode ∧ (∀ px < 34, (u.column px).clk = min (s.column px).clk (if mode = 0 then 16 else if mode = 1 then 13 else 10)) ∧
      u.cur = t.cur ∧ u.mem = t.mem) ∧
    u.env.pmode = t.env.pmode ∧ u.env.coolantLow = t.env.coolantLow := by
  unfold State.applyPmode
  rw [h]
  obtain ⟨⟨c, hc⟩, hq⟩ := capClocks_spec { t with env := { t.env with pmodeAct := mode } }
  rw [clockCap_eq] at hq
  refine ⟨_, rfl, ⟨by rw [hc], fun px hpx => ?_, by rw [hc], by rw [hc]⟩, by rw [hc], by rw [hc]⟩
  rw [hq px hpx, State.column, State.column, hcol]

theorem pmodeWrite_set {v : BitVec 64} (h : v.extractLsb' 0 2 ≠ 3#2) : exec (.pmodeWrite v) s =
    .next ({ s with env := { s.env with pmode := (v.extractLsb' 0 2).toNat } } : State).applyPmode := by
  change execPmodeWrite v s = _
  exact congrArg Host.Outcome.next (if_neg fun hm => h (BitVec.eq_of_toNat_eq hm))

theorem pmodeWrite_reserved {v : BitVec 64} (h : v.extractLsb' 0 2 = 3#2) : exec (.pmodeWrite v) s = .next s := by
  change execPmodeWrite v s = _
  exact congrArg Host.Outcome.next (if_pos (congrArg BitVec.toNat h))

theorem coolantFlowLow_eq (s : State) : exec .coolantFlowLow s =
    .next (({ s with env := { s.env with coolantLow := true } } : State).applyPmode.logEvent 432 0) := rfl

theorem coolantFlowRestored_eq (s : State) : exec .coolantFlowRestored s =
    .next ({ s with env := { s.env with coolantLow := false } } : State).applyPmode := rfl

theorem powerLimitExceeded_spec (s : State) : ∃ t, exec .powerLimitExceeded s = .next t ∧
    ∀ px < 34, (t.column px).clk = max 1 ((s.column px).clk - 1) := by
  refine ⟨_, rfl, fun px hpx => ?_⟩
  exact ((foldl_each (f := fun s px => s.setColumn px { s.column px with clk := max 1 ((s.column px).clk - 1) }) (I := fun _ => True)
    (view := fun t px => (t.column px).clk) (new := fun _ c => max 1 (c - 1)) (fun _ _ _ => trivial)
    (fun t px q _ => by
      simp only [column_setColumn]
      by_cases hq : q = px
      · subst hq; rw [if_pos rfl, if_pos rfl]
      · rw [if_neg hq, if_neg hq])
    34 (s := s) trivial).2 px).trans (if_pos hpx)

/-! ### Sensors (R78, R79) -/

theorem sensorRecalibrate_dropped {i : Nat} (h : (s.sensor i).valid = false) : exec (.sensorRecalibrate i) s =
    .next { s with env := { s.env with sensors := tput i { s.sensor i with recal := true, good := 0 } s.env.sensors } } := by
  change execSensorRecalibrate i s = _
  rw [execSensorRecalibrate, if_neg (by simp [h])]

theorem sensorRecalibrate_valid {i : Nat} (h : (s.sensor i).valid = true) : exec (.sensorRecalibrate i) s = .next s := by
  change execSensorRecalibrate i s = _
  rw [execSensorRecalibrate, if_pos h]

/-- The entries of a table made number by number. -/
theorem tget_range {α : Type} (d : α) (f : Nat → α) {n i : Nat} (h : i < n) : tget d ((List.range n).map fun k => (k, f k)) i = f i := by
  have hfind : ∀ l : List Nat, i ∈ l → tget d (l.map fun k => (k, f k)) i = f i := by
    intro l hl
    induction l with
    | nil => simp at hl
    | cons k l ih =>
      rw [List.map_cons, tget]
      by_cases hk : k = i
      · simp [hk]
      · rw [if_neg (by simpa using hk)]
        exact ih ((List.mem_cons.1 hl).resolve_left (Ne.symm hk))
  exact hfind _ (List.mem_range.2 h)

/-- The reading that a sample gives for a sensor: its own, or the last one again. -/
def reading (s : State) (l : List Int) (i : Nat) : Int := (l[i]?).getD (s.sensor i).value

/-- A sensor as a sample leaves it, before a dropped one's value is substituted. -/
def taken (s : State) (l : List Int) (i : Nat) : Sensor := (s.sensor i).take (reading s l i) (s.plausible (reading s l) i)

/-- The sensors after a sample (R78, R79). -/
def sampled (s : State) (l : List Int) : Tbl Sensor :=
  let took := (List.range 68).map fun i => (i, taken s l i)
  took.map fun p => (p.1, if p.2.valid then p.2
    else { p.2 with value := substitute (fun i => (tget Sensor.reset took i).valid) (reading s l) p.1 })

theorem sampled_valid (s : State) (l : List Int) {i : Nat} (hi : i < 68) : (tget .reset (sampled s l) i).valid = (taken s l i).valid ∧
    ((taken s l i).valid = true → tget .reset (sampled s l) i = taken s l i) := by
  unfold sampled
  simp only [List.map_map, Function.comp_def]
  rw [tget_range _ _ hi]
  cases h : (taken s l i).valid <;> simp [h]

/-- A sensor in use stays so with its new reading, or is dropped by an implausible one. -/
theorem take_of_valid {x : Sensor} (h : x.valid = true) (v : Int) (ok : Bool) :
    (x.take v ok).valid = ok ∧ (ok = true → (x.take v ok).value = v) := by
  cases ok <;> simp [Sensor.take, h]

theorem take_of_dropped {x : Sensor} (h : x.valid = false) (v : Int) (ok : Bool) :
    (x.recal = false → (x.take v ok).valid = false) ∧
    (x.recal = true → ok = true → x.good = 99 → (x.take v ok).valid = true ∧ (x.take v ok).value = v) := by
  refine ⟨fun hr => ?_, fun hr ho hg => ?_⟩
  · simp [Sensor.take, h, hr]
  · simp [Sensor.take, h, hr, ho, hg]

/-- What a sample makes of each sensor. -/
theorem sampled_spec (s : State) (l : List Int) {i : Nat} (hi : i < 68) :
    let ok := s.plausible (reading s l) i
    let x := tget .reset (sampled s l) i
    ((s.sensor i).valid = true → ok = true → x.valid = true ∧ x.value = reading s l i) ∧
    ((s.sensor i).valid = true → ok = false → x.valid = false) ∧
    ((s.sensor i).valid = false → (s.sensor i).recal = false → x.valid = false) ∧
    ((s.sensor i).valid = false → (s.sensor i).recal = true → ok = true → (s.sensor i).good = 99 →
      x.valid = true ∧ x.value = reading s l i) := by
  intro ok x
  obtain ⟨hv, hx⟩ := sampled_valid s l hi
  refine ⟨fun h ho => ?_, fun h ho => ?_, fun h hr => ?_, fun h hr ho hg => ?_⟩
  · obtain ⟨h1, h2⟩ := take_of_valid h (reading s l i) ok
    have ht : (taken s l i).valid = true := h1.trans ho
    exact ⟨hv.trans ht, by rw [show x = taken s l i from hx ht]; exact h2 ho⟩
  · exact hv.trans ((take_of_valid h (reading s l i) ok).1.trans ho)
  · exact hv.trans ((take_of_dropped h (reading s l i) ok).1 hr)
  · obtain ⟨ht, h2⟩ := (take_of_dropped h (reading s l i) ok).2 hr ho hg
    exact ⟨hv.trans ht, by rw [show x = taken s l i from hx ht]; exact h2⟩

/-! ### The end of a launch (R381) -/

/-- A region's fault-domain policy writes local HBM alone. -/
theorem faultPolicy_hbm (s : State) (l : Launch) (st : Status) :
    ∃ m, s.faultPolicy l st = { s with mem := { s.mem with hbm := m } } := by
  unfold State.faultPolicy State.haltRcb
  repeat' split
  all_goals exact ⟨_, rfl⟩

/-- The end of a launch leaves temperatures and clocks, placement and time as they are. -/
theorem endLaunch_frame (s : State) (id : Nat) (st : Status) (f : Option Failing) :
    (s.endLaunch id st f).env = s.env ∧ (s.endLaunch id st f).plc = s.plc ∧ (s.endLaunch id st f).clk = s.clk ∧
    (s.endLaunch id st f).cur = endTaskOf id s.cur := by
  unfold State.endLaunch
  extract_lets s1 s2 s3 s4
  obtain ⟨o, m, h1⟩ : SameButObserved s s1 := foldl_observed _ lastStalls_observed _ _
  have h4 : s4.env = s3.env ∧ s4.plc = s3.plc ∧ s4.clk = s3.clk ∧ s4.cur = s3.cur := by
    unfold s4
    split
    · split
      · obtain ⟨b, h⟩ := faultPolicy_hbm s3 ‹_› st
        rw [h]
        exact ⟨rfl, rfl, rfl, rfl⟩
      · exact ⟨rfl, rfl, rfl, rfl⟩
    · exact ⟨rfl, rfl, rfl, rfl⟩
  obtain ⟨henv, hplc, hclk, hcur⟩ := h4
  have hs1 : s1.env = s.env ∧ s1.plc = s.plc ∧ s1.clk = s.clk ∧ s1.cur = s.cur := by rw [h1]; exact ⟨rfl, rfl, rfl, rfl⟩
  obtain ⟨henv1, hplc1, hclk1, hcur1⟩ := hs1
  exact ⟨henv.trans henv1, hplc.trans hplc1, hclk.trans hclk1, hcur.trans (congrArg (endTaskOf id) hcur1)⟩

/-! ### A column at a sample (R79, R80) -/

/-- Launches ended one after another with THERMAL. -/
def endHot (ids : List Nat) (s : State) : State := ids.foldl (fun s id => s.endLaunch id .thermal none) s

theorem endHot_frame (ids : List Nat) (s : State) : (endHot ids s).env = s.env ∧ (endHot ids s).plc = s.plc := by
  induction ids generalizing s with
  | nil => exact ⟨rfl, rfl⟩
  | cons id ids ih =>
    obtain ⟨henv, hplc⟩ := ih (s.endLaunch id .thermal none)
    obtain ⟨henv1, hplc1, -⟩ := endLaunch_frame s id .thermal none
    exact ⟨henv.trans henv1, hplc.trans hplc1⟩

/-- A task that has not ended does not end with its launch; it stands, or is dead. -/
theorem endTaskOf_stands (id : Nat) {t : Machine.Task} (h : t.seq.state ≠ .ended) : (endTaskOf id t).bnd = t.bnd ∧
    (endTaskOf id t).seq.state ≠ .ended ∧ (t.seq.state = .dead ∨ t.bnd.launch = id → (endTaskOf id t).seq.state = .dead) := by
  by_cases hid : t.bnd.launch = id
  · rw [endTaskOf, if_pos hid, if_neg h]
    exact ⟨rfl, nofun, fun _ => rfl⟩
  · rw [endTaskOf, if_neg hid]
    exact ⟨rfl, h, fun hd => hd.resolve_right hid⟩

/-- The task in front is dead once its launch has ended, and stays so. -/
theorem endHot_cur (ids : List Nat) {s : State} (h : s.cur.seq.state ≠ .ended) : (endHot ids s).cur.bnd = s.cur.bnd ∧
    (endHot ids s).cur.seq.state ≠ .ended ∧
    (s.cur.seq.state = .dead ∨ s.cur.bnd.launch ∈ ids → (endHot ids s).cur.seq.state = .dead) := by
  induction ids generalizing s with
  | nil => exact ⟨rfl, h, fun hd => hd.resolve_right (by simp)⟩
  | cons id ids ih =>
    obtain ⟨-, -, -, hcur⟩ := endLaunch_frame s id .thermal none
    obtain ⟨hb1, he1, hd1⟩ := endTaskOf_stands id h
    rw [← hcur] at hb1 he1 hd1
    obtain ⟨hb, he, hd⟩ := ih he1
    refine ⟨hb.trans hb1, he, fun hor => hd ?_⟩
    rw [List.mem_cons, hb1.symm] at hor
    rcases hor with h | h | h
    · exact .inl (hd1 (.inl h))
    · exact .inl (hd1 (.inr (hb1 ▸ h)))
    · exact .inr h

/-- What the pilot controller does with a column's temperature: its clock and exclusions, and from 110 degrees the end of every launch
with a task on its tiles. -/
theorem columnAct_eq (s : State) (px : Nat) : ∃ c sched ids, c.temp = (s.column px).temp ∧
    s.columnAct px = endHot ids { s.setColumn px c with sched := sched } ∧
    (1100 ≤ (s.column px).temp → ∀ t ∈ s.columnTasks px, t.receives = true → t.bnd.launch ∈ ids) := by
  unfold State.columnAct
  extract_lets c dropped cap clk excl s1 s2 s3
  obtain ⟨sched, h2⟩ : ∃ sched, s2 = { s1 with sched := sched } := by
    unfold s2
    split
    · exact ⟨_, rfl⟩
    · exact ⟨_, rfl⟩
  have hcol : s1 = s.setColumn px { c with clk := clk, exclNonPre := dropped, exclAll := excl } := rfl
  rw [hcol] at h2
  split
  case isFalse h => exact ⟨{ c with clk := clk, exclNonPre := dropped, exclAll := excl }, sched, [], rfl, h2, fun hc => absurd hc h⟩
  case isTrue h =>
    refine ⟨{ c with clk := clk, exclNonPre := dropped, exclAll := excl }, sched,
      ((s2.columnTasks px).filter Machine.Task.receives).map (·.bnd.launch) ++ (s3.restoringIn px).map (·.id), rfl, ?_,
      fun _ t ht hr => List.mem_append_left _ (List.mem_map.2 ⟨t, List.mem_filter.2 ⟨?_, hr⟩, rfl⟩)⟩
    · rw [← h2, endHot, List.foldl_append, List.foldl_map, List.foldl_map, List.foldl_filter]
    · rw [h2]
      exact ht

/-! ### A sample (R78 to R80) -/

/-- The step of a sample for one column: its temperature is that of its hotter sensor, and is then acted upon. -/
def columnStep (s : State) (px : Nat) : State :=
  (s.setColumn px { s.column px with temp := max (s.sensor (2 * px)).value (s.sensor (2 * px + 1)).value }).columnAct px

theorem thermalSample_eq (s : State) (l : List Int) : ∃ log, exec (.thermalSample l) s = .next ((List.range 34).foldl columnStep
    { s with env := { s.env with sensors := sampled s l }, sched := { s.sched with log := log } }) := by
  have hlog : ∀ (L : List (Nat × Sensor)) (t : State), ∃ log, L.foldl (fun s p => s.logEvent 78 p.1) t =
      { t with sched := { t.sched with log := log } } := by
    intro L
    induction L with
    | nil => exact fun t => ⟨_, rfl⟩
    | cons x L ih => exact fun t => (ih _).imp fun log h => h
  obtain ⟨log, h⟩ := hlog ((((List.range 68).map fun i => (i, taken s l i))).filter fun p => p.2.valid != (s.sensor p.1).valid)
    { s with env := { s.env with sensors := sampled s l } }
  refine ⟨log, ?_⟩
  rw [← h]
  rfl

/-- What a column's step leaves: the sensors, the remap table, the temperatures of the other columns, and the task in front, or what its
launch's end makes of it. -/
theorem columnStep_frame (s : State) (px : Nat) : (columnStep s px).env.sensors = s.env.sensors ∧ (columnStep s px).plc = s.plc ∧
    ∀ q, ((columnStep s px).column q).temp =
      if q = px then max (s.sensor (2 * px)).value (s.sensor (2 * px + 1)).value else (s.column q).temp := by
  obtain ⟨c, sched, ids, hc, h, -⟩ := columnAct_eq
    (s.setColumn px { s.column px with temp := max (s.sensor (2 * px)).value (s.sensor (2 * px + 1)).value }) px
  rw [column_setColumn, if_pos rfl] at hc
  obtain ⟨henv, hplc⟩ := endHot_frame ids { State.setColumn (s.setColumn px _) px c with sched := sched }
  rw [columnStep, h]
  refine ⟨(congrArg Env.sensors henv).trans rfl, hplc.trans rfl, fun q => ?_⟩
  have hcol : (endHot ids { State.setColumn (s.setColumn px _) px c with sched := sched }).column q = _ :=
    congrArg (fun e : Env => tget Column.reset e.columns q) henv
  rw [hcol]
  change (State.column (State.setColumn (s.setColumn px _) px c) q).temp = _
  rw [column_setColumn]
  split
  · exact hc
  · rw [column_setColumn, if_neg ‹_›]

theorem columnStep_cur (px : Nat) (h : s.cur.seq.state ≠ .ended) : (columnStep s px).cur.bnd = s.cur.bnd ∧
    (columnStep s px).cur.seq.state ≠ .ended ∧ (s.cur.seq.state = .dead → (columnStep s px).cur.seq.state = .dead) ∧
    (s.cur.bound = true → (s.remap s.cur.bnd.tile).px = px → 1100 ≤ max (s.sensor (2 * px)).value (s.sensor (2 * px + 1)).value →
      (columnStep s px).cur.seq.state = .dead) := by
  obtain ⟨c, sched, ids, -, he, hids⟩ := columnAct_eq
    (s.setColumn px { s.column px with temp := max (s.sensor (2 * px)).value (s.sensor (2 * px + 1)).value }) px
  rw [column_setColumn, if_pos rfl] at hids
  obtain ⟨hb, hne, hd⟩ := endHot_cur ids (s := { State.setColumn (s.setColumn px _) px c with sched := sched }) h
  rw [columnStep, he]
  refine ⟨hb, hne, fun h0 => hd (.inl h0), fun hbound hpx hot => hd ?_⟩
  by_cases h0 : s.cur.seq.state = .dead
  · exact .inl h0
  · refine .inr (hids hot s.cur (List.mem_filter.2 ⟨List.mem_cons_self, ?_⟩) (by simp [Machine.Task.receives, h, h0]))
    exact Bool.and_eq_true_iff.2 ⟨hbound, beq_iff_eq.2 hpx⟩

/-- Every column has the temperature of its hotter sensor after a sample, and the sensors are those that the sample made. -/
theorem columnSteps_temps (s : State) : ((List.range 34).foldl columnStep s).env.sensors = s.env.sensors ∧
    ∀ px < 34, (((List.range 34).foldl columnStep s).column px).temp = max (s.sensor (2 * px)).value (s.sensor (2 * px + 1)).value := by
  obtain ⟨hs, hq⟩ := foldl_each (f := columnStep) (I := fun t => t.env.sensors = s.env.sensors) (view := fun t q => (t.column q).temp)
    (new := fun q _ => max (s.sensor (2 * q)).value (s.sensor (2 * q + 1)).value) (fun t px h => (columnStep_frame t px).1.trans h)
    (fun t px q h => by
      have hsen : ∀ i, t.sensor i = s.sensor i := fun i => congrArg (tget Sensor.reset · i) h
      rw [(columnStep_frame t px).2.2 q]
      by_cases hqp : q = px
      · subst hqp; rw [if_pos rfl, if_pos rfl, hsen, hsen]
      · rw [if_neg hqp, if_neg hqp])
    34 (s := s) rfl
  exact ⟨hs, fun px hpx => (hq px).trans (if_pos hpx)⟩

/-- What one of the steps brings about, from what every step keeps, and every step then keeps, holds after them all. -/
theorem foldl_reaches {β : Type} {f : State → β → State} {I P : State → Prop} (hI : ∀ s q, I s → I (f s q))
    (hP : ∀ s q, P s → P (f s q))
    {x : β} (h : ∀ s, I s → P (f s x)) {L : List β} (hx : x ∈ L) {s : State} (hs : I s) : P (L.foldl f s) := by
  induction L generalizing s with
  | nil => simp at hx
  | cons q L ih =>
    rcases List.mem_cons.1 hx with rfl | hx
    · exact List.foldlRecOn (motive := P) L f (h s hs) fun b hb a _ => hP b a hb
    · exact ih hx (hI s q hs)

/-- The task in front, on a tile of a column at 110 degrees or more, is dead after a sample. -/
theorem columnSteps_dead {px : Nat} (hpx : px < 34) (hcol : (s.remap s.cur.bnd.tile).px = px) (hb : s.cur.bound = true)
    (hne : s.cur.seq.state ≠ .ended) (hot : 1100 ≤ max (s.sensor (2 * px)).value (s.sensor (2 * px + 1)).value) :
    ((List.range 34).foldl columnStep s).cur.seq.state = .dead := by
  refine (foldl_reaches (f := columnStep)
    (I := fun t => t.env.sensors = s.env.sensors ∧ t.plc = s.plc ∧ t.cur.bnd = s.cur.bnd ∧ t.cur.seq.state ≠ .ended)
    (P := fun t => t.cur.seq.state ≠ .ended ∧ t.cur.seq.state = .dead) ?_ ?_ ?_ (List.mem_range.2 hpx) ⟨rfl, rfl, rfl, hne⟩).2
  · rintro t q ⟨hsen, hplc, hbnd, he⟩
    obtain ⟨hsen1, hplc1, -⟩ := columnStep_frame t q
    obtain ⟨hbnd1, he1, -⟩ := columnStep_cur q he
    exact ⟨hsen1.trans hsen, hplc1.trans hplc, hbnd1.trans hbnd, he1⟩
  · rintro t q ⟨he, hd⟩
    obtain ⟨-, he1, hd1, -⟩ := columnStep_cur q he
    exact ⟨he1, hd1 hd⟩
  · rintro t ⟨hsen, hplc, hbnd, he⟩
    obtain ⟨-, he1, -, hd1⟩ := columnStep_cur px he
    have hsensor : ∀ i, t.sensor i = s.sensor i := fun i => congrArg (tget Sensor.reset · i) hsen
    refine ⟨he1, hd1 ?_ ?_ ?_⟩
    · rw [Machine.Task.bound, hbnd]; exact hb
    · rw [State.remap, hplc, hbnd]; exact hcol
    · rw [hsensor, hsensor]; exact hot

end Sys2Proof.Upkeep

open Sys2Proof Sys2Proof.Machine Sys2Proof.Laws Sys2Proof.Managing Sys2Proof.Upkeep in
/-- Settles O46: each event's rule is applied as it stands, and a sample is one step for each column, which keeps the sensors and the other
columns' temperatures, while a task once dead stays dead. -/
theorem upkeepEvents : Obligations.UpkeepEvents := by
  refine ⟨fun s p => ?memory, fun s => ?heat⟩
  case memory =>
    intro r may starts
    refine ⟨?scheduled, scheduledPass_held, ?forced, ?fault, ?passEnd, ?deferral, ?scrub, ?relayout, relayout_ignored, ?write, ?unlock,
      relayoutDone_held, ?retrain, channelRetrain_held, ⟨_, rfl, by simp, fun q hq => by simp [hq]⟩, ?rate, ?linkDown, ?linkUp⟩
    case scheduled =>
      intro hm hd hv ha
      exact ⟨_, scheduledPass_due hm.1 hm.2 hd hv ha, by rw [refreshOf_startPass hm.1, if_pos rfl],
        fun q hq => by rw [refreshOf_startPass hm.1, if_neg hq]⟩
    case forced =>
      intro hm ha
      have hr : ∀ q, ((s.startPass p true).forcedFault p).refreshOf q = (s.startPass p true).refreshOf q := fun q =>
        congrArg (fun e : Env => tget Refresh.reset e.refresh q) (forcedFault_env ..)
      exact ⟨_, forcedPass_due hm.1 hm.2 ha, by rw [hr, refreshOf_startPass hm.1, if_pos rfl],
        fun q hq => by rw [hr, refreshOf_startPass hm.1, if_neg hq]⟩
    case fault =>
      intro tile i hm ha hs hb ht hl hrec hx hf
      refine ⟨_, forcedPass_due hm.1 hm.2 ha, ?_⟩
      rw [forcedFault_cur (s := s.startPass p true) hs hb ht hl hrec hx]
      exact congrArg (insertForced i _) hf
    case passEnd =>
      intro e f h
      refine ⟨fun he => ⟨_, refreshPassEnd_due h he, ?_, ?_, rfl, rfl⟩, refreshPassEnd_early h⟩ <;> rw [refreshOf_setRefresh, if_pos rfl]
    case deferral =>
      intro e h
      refine ⟨fun he => ⟨_, deferralExpiry_due h he, ?_, rfl⟩, deferralExpiry_early h⟩
      rw [refreshOf_setRefresh, if_pos rfl]
    case scrub =>
      intro tower row
      refine ⟨rfl, ?_, ?_⟩
      · obtain ⟨t, he, hmem, hcur, hh⟩ := scrubRow_corrected (s := s) tower row
        refine ⟨t, he, hmem, hcur, ?_⟩
        change (tget .reset (hist t tower) (row / 64)).corrected = _
        rw [hh, tget_tput_self]
        rfl
      · obtain ⟨t, he, hrow, hhbm, htow, hcur, hh⟩ := scrubRow_uncorrectable (s := s) tower row
        refine ⟨t, he, hrow, ?_, hhbm, htow, hcur⟩
        change (tget .reset (hist t tower) (row / 64)).bad = _
        rw [hh, tget_tput_self]
        exact Bool.or_true _
    case relayout =>
      intro h
      obtain ⟨hmem, hcur, hslots, hout⟩ := observed_pages (countChan_observed (s.layOut p) (channelOf (65536 * p)) 6 1)
      exact ⟨_, relayout_due h, by rw [hslots, slotsOf_layOut, if_pos rfl], by rw [hout, outgrown_layOut, if_pos rfl], by rw [hmem]; rfl,
        fun q hq => ⟨by rw [hslots, slotsOf_layOut, if_neg hq], by rw [hout, outgrown_layOut, if_neg hq]⟩, hcur⟩
    case write =>
      intro a bs h0 h hp j block t
      subst hp
      have ht : t = s.writeBlock (a / 65536) j block := homeWrite_block h0 h
      rw [ht]
      exact ⟨fun ho hs => by rw [writeBlock_fits ho hs]; exact ⟨rfl, ho⟩, writeBlock_locks⟩
    case unlock =>
      intro h hq
      exact ⟨_, relayoutDone_unlocks h hq, by simp, fun q hne => by simp [hne], rfl, rfl⟩
    case retrain => exact fun hp h => ⟨_, channelRetrain_starts hp h, mem_insertNat.2 (.inl rfl), rfl⟩
    case rate => exact fun k hr => ⟨fun hs => ⟨_, dataRateChange_waits hr hs, rfl, rfl⟩, dataRateChange_starts hr⟩
    case linkDown => exact fun hp h => ⟨_, linkRetrain_down hp h, mem_insertNat.2 (.inl rfl), rfl, rfl⟩
    case linkUp => exact fun hp h => ⟨_, linkRetrain_up hp h, by simp, rfl⟩
  case heat =>
    intro caps
    refine ⟨?sample, ?dead, ?recalibrate, fun i h => sensorRecalibrate_valid h, ?pmode, fun v hv => pmodeWrite_reserved hv,
      powerLimitExceeded_spec s, ?low, ?restored⟩
    case sample =>
      intro l
      obtain ⟨log, he⟩ := thermalSample_eq s l
      obtain ⟨hsen, htemp⟩ := columnSteps_temps
        { s with env := { s.env with sensors := sampled s l }, sched := { s.sched with log := log } }
      refine ⟨_, he, fun px hpx => ?_⟩
      have hsensor : ∀ i, State.sensor (List.foldl columnStep _ (List.range 34)) i = tget .reset (sampled s l) i := fun i =>
        congrArg (tget Sensor.reset · i) hsen
      refine ⟨?_, fun i hi => ?_⟩
      · rw [htemp px hpx, hsensor, hsensor]
        rfl
      · rw [hsensor]
        exact sampled_spec s l (by omega)
    case dead =>
      intro l px hpx hcol hb hr hot
      obtain ⟨log, he⟩ := thermalSample_eq s l
      refine ⟨_, he, columnSteps_dead hpx hcol hb (by simp_all [Machine.Task.receives]) ?_⟩
      obtain ⟨hv, ho, hge⟩ := hot (2 * px) (.inl rfl)
      refine le_max_of_le_left (hge.trans_eq ?_)
      exact (((sampled_spec s l (by omega)).1 hv ho).2).symm
    case recalibrate =>
      intro i h
      refine ⟨_, sensorRecalibrate_dropped h, ?_⟩
      simp only [State.sensor, tget_tput_self]
      exact ⟨trivial, trivial, h, trivial⟩
    case pmode =>
      intro v hv hlow
      obtain ⟨u, hu, hcaps, hmode, -⟩ := applyPmode_spec (s := s)
        (t := { s with env := { s.env with pmode := (v.extractLsb' 0 2).toNat } }) (if_neg (by simp [hlow])) rfl
      exact ⟨u, by rw [pmodeWrite_set hv, hu], hcaps, hmode⟩
    case low =>
      obtain ⟨u, hu, hcaps, -, hlow⟩ := applyPmode_spec (s := s) (t := { s with env := { s.env with coolantLow := true } }) (if_pos rfl) rfl
      exact ⟨u.logEvent 432 0, by rw [coolantFlowLow_eq, hu], hcaps, hlow⟩
    case restored =>
      obtain ⟨u, hu, hcaps, -, hlow⟩ := applyPmode_spec (s := s) (t := { s with env := { s.env with coolantLow := false } })
        (if_neg Bool.false_ne_true) rfl
      exact ⟨u, by rw [coolantFlowRestored_eq, hu], hlow, hcaps⟩
end

section
/-! SUPPORT. Tower rows moved and cleared: what of the device they leave (R64, R68, R73, R74). -/

namespace Sys2Proof.Repair
open Sys2Proof Sys2Proof.Machine Sys2Proof.Laws Sys2Proof.Managing Sys2Proof.Launching Sys2Proof.Upkeep

variable {s t u : State}

/-! ### What stays (R73, R74) -/

/-- Two states that differ in nothing but tower rows, their full bits and poison, and the towers' deferrals. -/
def SameButTowers (s t : State) : Prop := ∃ towers full bad refresh,
  t = { s with mem := { s.mem with towers := towers, full := full, towerBad := bad }, env := { s.env with refresh := refresh } }

theorem SameButTowers.refl (s : State) : SameButTowers s s := ⟨_, _, _, _, rfl⟩

theorem SameButTowers.trans (h : SameButTowers s t) (k : SameButTowers t u) : SameButTowers s u := by
  obtain ⟨_, _, _, _, rfl⟩ := h
  obtain ⟨_, _, _, _, rfl⟩ := k
  exact ⟨_, _, _, _, rfl⟩

theorem SameButTowers.foldl {β : Type} {f : State → β → State} (h : ∀ s x, SameButTowers s (f s x)) (L : List β) (s : State) :
    SameButTowers s (L.foldl f s) := by
  induction L generalizing s with
  | nil => exact .refl s
  | cons x L ih => exact (h s x).trans (ih _)

theorem clearRows_same (s : State) (k first n : Nat) : SameButTowers s (s.clearRows k first n) := ⟨_, _, _, s.env.refresh, rfl⟩

theorem endDeferral_same (s : State) (k : Nat) : SameButTowers s (s.endDeferral k) := by
  unfold State.endDeferral
  split
  · exact ⟨s.mem.towers, s.mem.full, s.mem.towerBad, _, rfl⟩
  · exact .refl s

theorem putDeferral_same (s : State) (k e : Nat) : SameButTowers s (s.putDeferral k e) := ⟨s.mem.towers, s.mem.full, s.mem.towerBad, _, rfl⟩

theorem clearLease_same (s : State) (tile lease : Nat) : SameButTowers s (s.clearLease tile lease) :=
  .foldl (fun s _ => clearRows_same s _ _ _) _ s

theorem endDeferrals_same (s : State) (tile : Nat) : SameButTowers s (s.endDeferrals tile) := .foldl (fun s _ => endDeferral_same s _) _ s

/-- The state in which a tower's rows are about to be written at their new place: both places clear, its deferral moved. -/
def vacated (s : State) (src dst : Nat) : State :=
  let s1 := match (s.refreshOf src).defer with
    | some e => (s.endDeferral src).putDeferral dst e
    | none => s
  (s1.clearRows dst 0 65536).clearRows src 0 65536

theorem vacated_same (s : State) (src dst : Nat) : SameButTowers s (vacated s src dst) := by
  unfold vacated
  refine .trans ?_ ((clearRows_same _ _ _ _).trans (clearRows_same _ _ _ _))
  split
  · exact (endDeferral_same ..).trans (putDeferral_same ..)
  · exact .refl s

theorem vacated_towers (s : State) (src dst : Nat) : (vacated s src dst).mem.towers =
    (s.mem.towers.clearRange (towerKey dst 0) (2 ^ 22)).clearRange (towerKey src 0) (2 ^ 22) := by
  unfold vacated
  have h : ∀ t : State, t.mem.towers = s.mem.towers → ((t.clearRows dst 0 65536).clearRows src 0 65536).mem.towers =
      (s.mem.towers.clearRange (towerKey dst 0) (2 ^ 22)).clearRange (towerKey src 0) (2 ^ 22) := by
    intro t ht
    rw [← ht]
    rfl
  apply h
  split
  · unfold State.endDeferral
    split <;> rfl
  · rfl

/-- The bytes listed of a tower. -/
def towerCells (m : Memory) (k : Nat) : Memory := m.filter fun c => decide (towerKey k 0 ≤ c.1) && decide (c.1 < towerKey k 0 + 2 ^ 22)

theorem moveTower_same (s : State) (src dst : Nat) : SameButTowers s (s.moveTower src dst) := by
  unfold State.moveTower
  split
  · exact .refl s
  · exact (vacated_same s src dst).trans ⟨_, _, _, _, rfl⟩

theorem moveTower_towers (h : src ≠ dst) : (s.moveTower src dst).mem.towers =
    (towerCells s.mem.towers src).foldl (fun m c => m.put (c.1 - towerKey src 0 + towerKey dst 0) c.2) (vacated s src dst).mem.towers := by
  rw [State.moveTower, if_neg h]
  rfl

/-- A tile that goes over to another physical tile leaves all but its towers and its remap entry. -/
theorem moveTile_eq (s : State) (tile px : Nat) : ∃ u, SameButTowers s u ∧ s.moveTile tile px = u.setRemap tile { fenced := false, px := px } :=
  ⟨_, .foldl (fun s _ => moveTower_same s _ _) _ s, rfl⟩

theorem remap_setRemap (s : State) (tile k : Nat) (e : RemapEntry) : (s.setRemap tile e).remap k = if k = tile then e else s.remap k := tget_tput ..

theorem pstate_setPstate (s : State) (k q v : Nat) : (s.setPstate k v).pstate q = if q = k then v else s.pstate q := tget_tput ..

/-! ### What a tower then holds -/

/-- A byte of the memory with the addresses left out that a test does not pass. -/
theorem get_filter (m : Memory) (keep : Nat → Bool) (x : Nat) :
    Memory.get (m.filter fun c => keep c.1) x = if keep x then m.get x else unlisted := by
  induction m with
  | nil => simp [Memory.get]
  | cons c m ih =>
    by_cases hc : keep c.1
    · rw [List.filter_cons_of_pos (by simpa using hc), Memory.get, Memory.get, ih]
      by_cases hx : c.1 = x
      · subst hx; simp [hc]
      · simp [hx]
    · rw [List.filter_cons_of_neg (by simpa using hc), ih, Memory.get]
      by_cases hx : c.1 = x
      · subst hx; simp [hc]
      · simp [hx]

/-- A cleared range reads as zero, whatever else is listed. -/
theorem get_cleared (m : Memory) (a n x : Nat) : (m.clearRange a n).get x = if a ≤ x ∧ x < a + n then 0#8 else m.get x := by
  rw [Memory.clearRange, get_filter m fun k => !(a ≤ k && k < a + n)]
  by_cases h : a ≤ x ∧ x < a + n
  · simp [h, unlisted]
  · rw [if_pos (by simp; omega), if_neg h]

/-- Cells put down at another place read there as they did, and what they do not cover reads as before. -/
theorem get_relocated {L : Memory} (hL : L.Pairwise fun c d => c.1 < d.1) {a : Nat} (ha : ∀ c ∈ L, a ≤ c.1) (b x : Nat) {m : Memory}
    (hm : Memory.wf m = true) : (L.foldl (fun m c => m.put (c.1 - a + b) c.2) m).get (b + x) =
      if a + x ∈ L.map (·.1) then L.get (a + x) else m.get (b + x) := by
  induction L generalizing m with
  | nil => simp
  | cons c L ih =>
    obtain ⟨hlt, hL⟩ := List.pairwise_cons.1 hL
    have hac := ha c (by simp)
    rw [List.foldl_cons, ih hL (fun d hd => ha d (by simp [hd])) (wf_put hm _ _), get_put hm, Memory.get]
    by_cases hc : c.1 = a + x
    · have hout : a + x ∉ L.map (·.1) := by
        rintro h
        obtain ⟨d, hd, he⟩ := List.mem_map.1 h
        have := hlt d hd
        omega
      rw [if_neg hout, if_pos (by omega), if_pos (by simp [hc]), if_pos hc]
    · rw [if_neg (show ¬ b + x = c.1 - a + b by omega), if_neg hc]
      simp only [List.map_cons, List.mem_cons, Ne.symm hc, false_or]

theorem get_of_not_mem {L : Memory} {x : Nat} (h : x ∉ L.map (·.1)) : L.get x = unlisted := by
  induction L with
  | nil => rfl
  | cons c L ih =>
    simp only [List.map_cons, List.mem_cons, not_or] at h
    rw [Memory.get, if_neg (Ne.symm h.1), ih h.2]

/-- A tower's rows stand, after a move, at their new place (R74). -/
theorem moveTower_get {src dst x : Nat} (h : src ≠ dst) (hwf : Memory.wf s.mem.towers = true) (hx : x < 2 ^ 22) :
    (s.moveTower src dst).mem.towers.get (towerKey dst x) = s.mem.towers.get (towerKey src x) := by
  have hkey : ∀ k, towerKey k x = towerKey k 0 + x := fun k => by simp [towerKey]
  have hsorted : (towerCells s.mem.towers src).Pairwise fun c d => c.1 < d.1 := ((wf_iff _).1 hwf).1.filter _
  have hcells : (towerCells s.mem.towers src).get (towerKey src 0 + x) = s.mem.towers.get (towerKey src 0 + x) := by
    rw [towerCells, get_filter s.mem.towers fun k => decide (towerKey src 0 ≤ k) && decide (k < towerKey src 0 + 2 ^ 22), if_pos (by simp; omega)]
  rw [moveTower_towers h, hkey, hkey, get_relocated hsorted (fun c hc => ?_) _ _ ?_, vacated_towers]
  · split
    case isTrue => exact hcells
    case isFalse hout =>
      rw [← hcells, get_of_not_mem hout, get_cleared]
      split
      · rfl
      · rw [get_cleared, if_pos (by omega)]
        rfl
  · rw [vacated_towers]
    exact wf_clearRange (wf_clearRange hwf _ _) _ _
  · simp only [towerCells, List.mem_filter, Bool.and_eq_true, decide_eq_true_eq] at hc
    exact hc.2.1

end Sys2Proof.Repair
end

section
/-! SUPPORT. Fences, scrubs, and copies that begin (R62, R64, R68, R75). -/

namespace Sys2Proof.Repair
open Sys2Proof Sys2Proof.Machine Sys2Proof.Laws Sys2Proof.Managing Sys2Proof.Launching Sys2Proof.Upkeep

variable {s t u : State} {tile : Nat}

/-! ### TMAP's fields (R68) -/

/-- A number with one hexadecimal digit changed, taken apart at that digit. -/
theorem digit_put (m i p : Nat) :
    m - m / 16 ^ i % 16 * 16 ^ i + p * 16 ^ i = m / 16 ^ (i + 1) * 16 ^ (i + 1) + (p * 16 ^ i + m % 16 ^ i) := by
  have h1 : m = m / 16 ^ (i + 1) * 16 ^ (i + 1) + (m / 16 ^ i % 16 * 16 ^ i + m % 16 ^ i) := by
    have := Nat.div_add_mod m (16 ^ i)
    have h2 := Nat.div_add_mod (m / 16 ^ i) 16
    rw [Nat.div_div_eq_div_mul, ← Nat.pow_succ] at h2
    calc m = 16 ^ i * (m / 16 ^ i) + m % 16 ^ i := this.symm
      _ = 16 ^ i * (16 * (m / 16 ^ (i + 1)) + m / 16 ^ i % 16) + m % 16 ^ i := by rw [h2]
      _ = _ := by rw [Nat.pow_succ]; ring
  omega

/-- The digit put stands in its place, and every other digit is what it was. -/
theorem digit_of_put (m i j : Nat) {p : Nat} (hp : p < 16) :
    (m - m / 16 ^ i % 16 * 16 ^ i + p * 16 ^ i) / 16 ^ j % 16 = if j = i then p else m / 16 ^ j % 16 := by
  rw [digit_put]
  have hpos : ∀ k, 0 < 16 ^ k := fun k => Nat.pow_pos (by omega)
  have hlo : m % 16 ^ i < 16 ^ i := Nat.mod_lt _ (hpos i)
  rcases lt_trichotomy j i with hlt | rfl | hgt
  · obtain ⟨k, rfl⟩ := Nat.exists_eq_add_of_lt hlt
    have hdvd : ∀ q : Nat, 16 ^ (j + 1) ∣ q * 16 ^ (j + k + 1) := fun q => Dvd.dvd.mul_left (pow_dvd_pow 16 (by omega)) q
    have hmod : ∀ q : Nat, q / 16 ^ j % 16 = q % 16 ^ (j + 1) / 16 ^ j := fun q => by rw [Nat.pow_succ, Nat.mod_mul_right_div_self]
    rw [if_neg (by omega), hmod, hmod, Nat.add_mod, Nat.mod_eq_zero_of_dvd ((pow_dvd_pow 16 (by omega)).mul_left _), Nat.zero_add, Nat.mod_mod,
      Nat.add_mod, Nat.mod_eq_zero_of_dvd (hdvd p), Nat.zero_add, Nat.mod_mod, Nat.mod_mod_of_dvd _ (pow_dvd_pow 16 (by omega))]
  · rw [if_pos rfl, Nat.pow_succ, show m / (16 ^ j * 16) * (16 ^ j * 16) + (p * 16 ^ j + m % 16 ^ j) =
      m % 16 ^ j + (m / (16 ^ j * 16) * 16 + p) * 16 ^ j by ring, Nat.add_mul_div_right _ _ (hpos j), Nat.div_eq_of_lt hlo]
    omega
  · obtain ⟨k, rfl⟩ := Nat.exists_eq_add_of_lt hgt
    have hB : p * 16 ^ i + m % 16 ^ i < 16 ^ (i + 1) := by
      have : p * 16 ^ i ≤ 15 * 16 ^ i := Nat.mul_le_mul_right _ (by omega)
      rw [Nat.pow_succ]
      omega
    have hq : (m / 16 ^ (i + 1) * 16 ^ (i + 1) + (p * 16 ^ i + m % 16 ^ i)) / 16 ^ (i + 1) = m / 16 ^ (i + 1) := by
      rw [Nat.add_comm, Nat.add_mul_div_right _ _ (hpos _), Nat.div_eq_of_lt hB, Nat.zero_add]
    rw [if_neg (by omega), show i + k + 1 = (i + 1) + k by omega, Nat.pow_add 16 (i + 1) k, ← Nat.div_div_eq_div_mul, hq, ← Nat.div_div_eq_div_mul]

theorem digit_put_lt {m i p : Nat} (hm : m < 16 ^ 8) (hi : i < 8) (hp : p < 16) : m - m / 16 ^ i % 16 * 16 ^ i + p * 16 ^ i < 16 ^ 8 := by
  rw [digit_put]
  have hlo : m % 16 ^ i < 16 ^ i := Nat.mod_lt _ (Nat.pow_pos (by omega))
  have h8 : (16 : Nat) ^ 8 = 16 ^ (7 - i) * 16 ^ (i + 1) := by rw [← Nat.pow_add]; congr 1; omega
  have hhi : m / 16 ^ (i + 1) < 16 ^ (7 - i) := Nat.div_lt_of_lt_mul (by rw [Nat.mul_comm, ← h8]; exact hm)
  have h1 : (m / 16 ^ (i + 1) + 1) * 16 ^ (i + 1) ≤ 16 ^ 8 := by rw [h8]; exact Nat.mul_le_mul_right _ hhi
  have h2 : p * 16 ^ i ≤ 15 * 16 ^ i := Nat.mul_le_mul_right _ (by omega)
  have h3 : (16 : Nat) ^ (i + 1) = 16 ^ i * 16 := Nat.pow_succ ..
  rw [Nat.add_mul] at h1
  omega

/-- A tower position put in TMAP serves its logical tower; the others are served as before. -/
theorem ptower_setTmap {k i p : Nat} (hi : i < 8) (hp : p < 16) (j : Nat) :
    (s.setTmap k i p).ptower k j = if j = i then 9 * k + p else s.ptower k j := by
  have hlt : (s.tmap k).toNat - (s.tmap k).toNat / 16 ^ i % 16 * 16 ^ i + p * 16 ^ i < 2 ^ 32 := digit_put_lt (s.tmap k).isLt hi hp
  have hm : ((s.setTmap k i p).tmap k).toNat = (s.tmap k).toNat - (s.tmap k).toNat / 16 ^ i % 16 * 16 ^ i + p * 16 ^ i := by
    rw [State.setTmap, State.tmap, tget_tput_self, BitVec.toNat_ofNat, Nat.mod_eq_of_lt hlt]
  rw [State.ptower, hm, digit_of_put _ _ _ hp]
  split <;> rfl

/-! ### Fences (R62, R64) -/

theorem leasedOn_empty (h : s.sched.launches = []) (tile : Nat) : s.leasedOn tile = 0 := by simp [State.leasedOn, h]

/-- The spare found before a tile's own physical tile is taken out of service is found after. -/
theorem spareFor_setPstate {px lease : Nat} (h : s.spareFor tile lease = some px) (hne : px ≠ (s.remap tile).px) :
    (s.setPstate (s.physTile tile) 1).spareFor tile lease = some px := by
  have hfree : ∀ q, (s.setPstate (s.physTile tile) 1).spareFree (tileY tile) q =
      (s.spareFree (tileY tile) q && decide (q ≠ (s.remap tile).px)) := by
    intro q
    have hst : (s.setPstate (s.physTile tile) 1).pstate (34 * tileY tile + q) =
        if q = (s.remap tile).px then 1 else s.pstate (34 * tileY tile + q) := by
      rw [pstate_setPstate, State.physTile]
      exact if_congr Nat.add_left_cancel_iff rfl rfl
    have heq : (s.setPstate (s.physTile tile) 1).spareFree (tileY tile) q = (decide (q < 34) && s.isSpare (tileY tile) q &&
        (s.setPstate (s.physTile tile) 1).pstate (34 * tileY tile + q) == 0 &&
        !(s.plc.copies.any fun c => c.tower.isNone && tileY c.tile == tileY tile && c.dest == q)) := rfl
    rw [heq, hst, State.spareFree]
    by_cases hq : q = (s.remap tile).px
    · simp [hq]
    · simp [hq]
  unfold State.spareFor at h ⊢
  rw [List.find?_eq_some_iff_append] at h ⊢
  obtain ⟨hp, as, bs, hl, has⟩ := h
  refine ⟨?_, as, bs, hl, fun a ha => ?_⟩
  · rw [hfree, decide_eq_true hne, Bool.and_true]
    exact hp
  · have := has a ha
    rw [hfree]
    simp only [Bool.not_eq_true', Bool.and_eq_false_iff] at this ⊢
    exact this.imp_left .inl

theorem eachLaunch_empty (h : s.sched.launches = []) (f : State → Launch → State) : s.eachLaunch f = s := by simp [State.eachLaunch, h]

theorem fencePtile_busy {v : Nat} (h : s.tileIdle tile = false) : s.fencePtile tile v = (s.setPstate (s.physTile tile) v).wantPass := by
  rw [State.fencePtile]
  exact if_neg (ne_true_of_eq_false h)

theorem replaceTile_spare {px : Nat} (h : s.spareFor tile (s.leasedOn tile) = some px) :
    s.replaceTile tile = (s.moveTile tile px).wantPass := by
  rw [State.replaceTile, h]
  rfl

/-- With no launch on the device a fence of an idle tile gives it the spare found. -/
theorem tileFence_idle {px : Nat} (hs : s.sched.launches = []) (hi : s.tileIdle tile = true) (h : s.spareFor tile 0 = some px)
    (hne : px ≠ (s.remap tile).px) : exec (.tileFence tile) s =
      .next ((((s.setPstate (s.physTile tile) 1).wantPass.moveTile tile px).wantPass).dropDeficits) := by
  have hf : s.fencePtile tile 1 = ((s.setPstate (s.physTile tile) 1).wantPass.moveTile tile px).wantPass := by
    rw [State.fencePtile]
    refine (if_pos hi).trans (replaceTile_spare ?_)
    rw [leasedOn_empty (s := (s.setPstate (s.physTile tile) 1).wantPass) hs]
    exact spareFor_setPstate h hne
  obtain ⟨u, ⟨_, _, _, _, hu⟩, hm⟩ := moveTile_eq (s.setPstate (s.physTile tile) 1).wantPass tile px
  change Host.Outcome.next ((s.fencePtile tile 1).eachLaunch State.retest).dropDeficits = _
  rw [hf, eachLaunch_empty]
  rw [hm, hu]
  exact hs

theorem tileFence_busy (hs : s.sched.launches = []) (hi : s.tileIdle tile = false) :
    exec (.tileFence tile) s = .next ((s.setPstate (s.physTile tile) 1).wantPass).dropDeficits := by
  change Host.Outcome.next ((s.fencePtile tile 1).eachLaunch State.retest).dropDeficits = _
  rw [fencePtile_busy hi, eachLaunch_empty]
  exact hs

/-! ### Scrubs (R62) -/

/-- A scrub's clear of the nine towers of a physical tile. -/
def scrubbed (s : State) (k : Nat) : State := (List.range 9).foldl (fun (s : State) q => s.clearRows (9 * k + q) 0 65536) s

theorem scrubbed_spec (s : State) (k : Nat) : SameButTowers s (scrubbed s k) ∧
    ∀ q < 9, ∀ x < 2 ^ 22, (scrubbed s k).mem.towers.get (towerKey (9 * k + q) x) = 0#8 := by
  have hkey : ∀ (t : State) (p q x : Nat), x < 2 ^ 22 → (t.clearRows (9 * k + p) 0 65536).mem.towers.get (towerKey (9 * k + q) x) =
      if q = p then 0#8 else t.mem.towers.get (towerKey (9 * k + q) x) := by
    intro t p q x hx
    refine (get_cleared ..).trans (if_congr ?_ rfl rfl)
    unfold towerKey
    omega
  obtain ⟨hs, hq⟩ := foldl_each (f := fun (s : State) q => s.clearRows (9 * k + q) 0 65536) (I := SameButTowers s)
    (view := fun t q => fun x : Fin (2 ^ 22) => t.mem.towers.get (towerKey (9 * k + q) x)) (new := fun _ _ _ => 0#8)
    (fun t q h => h.trans (clearRows_same ..))
    (fun t p q _ => by
      funext x
      rw [hkey t p q x x.isLt]
      split <;> rfl)
    9 (s := s) (.refl s)
  exact ⟨hs, fun q hq9 x hx => (congrFun (hq q) ⟨x, hx⟩).trans (by rw [if_pos hq9])⟩

theorem tileScrubDone_due {k : Nat} (h1 : s.pstate k = 1) (h2 : s.isSpare (k / 34) (k % 34) = true) (h3 : s.keepsHeld k = false) :
    exec (.tileScrubDone k) s = .next ((scrubbed s k).setPstate k 0).wantPass := by
  change execTileScrubDone k s = _
  rw [execTileScrubDone, if_pos (by simp [h1, h2, h3])]
  rfl

theorem tileScrubDone_held {k : Nat} (h : s.pstate k ≠ 1 ∨ s.isSpare (k / 34) (k % 34) = false ∨ s.keepsHeld k = true) :
    exec (.tileScrubDone k) s = .next s := by
  change execTileScrubDone k s = _
  rw [execTileScrubDone, if_neg]
  simp only [Bool.and_eq_true, decide_eq_true_eq, Bool.not_eq_true']
  rintro ⟨⟨h1, h2⟩, h3⟩
  rcases h with h | h | h
  · exact h h1
  · simp [h2] at h
  · simp [h3] at h

/-! ### Copies that begin (R74, R75) -/

theorem copies_none {L : List CopyJob} (h : ∀ c ∈ L, c.tile ≠ tile) : (L.any fun c => c.tile == tile) = false := by
  simpa using h

theorem migrationStart_begins {t : Machine.Task} {l : Launch} {px : Nat} (ht : s.taskOn tile = some t) (hl : s.launch? t.bnd.launch = some l)
    (hp : l.eff.preempt = true) (hph : l.phase = .resident) (hr : t.receives = true) (hf : s.spareFree (tileY tile) px = true)
    (hfit : s.ptileFits (34 * tileY tile + px) t.bnd.lease = true) (hc : ∀ c ∈ s.plc.copies, c.tile ≠ tile) :
    exec (.migrationStart tile px) s = .next { s with plc := { s.plc with
      copies := s.plc.copies ++ [{ tile := tile, tower := none, dest := px }] } } := by
  change execMigrationStart tile px s = _
  simp only [execMigrationStart, ht, hl]
  rw [if_pos (by simp [hp, hph, hr, hf, hfit, copies_none hc])]

theorem migrationStart_not_preemptible {t : Machine.Task} {l : Launch} {px : Nat} (ht : s.taskOn tile = some t)
    (hl : s.launch? t.bnd.launch = some l) (hp : l.eff.preempt = false) : exec (.migrationStart tile px) s = .next s := by
  change execMigrationStart tile px s = _
  simp only [execMigrationStart, ht, hl]
  rw [if_neg (by simp [hp])]

theorem migrationStart_no_task {px : Nat} (ht : s.taskOn tile = none) : exec (.migrationStart tile px) s = .next s := by
  change execMigrationStart tile px s = _
  simp only [execMigrationStart, ht]

theorem towerSwitchIn_begins {i : BitVec 3} {p : Nat} (h1 : (s.chart (s.ptower (s.physTile tile) i.toNat)).tstate = 1)
    (hp : s.spareTower (s.physTile tile) = some p) (hc : ∀ c ∈ s.plc.copies, c.tile ≠ tile)
    (hn : leaseNeeds (s.leasedOn tile) i.toNat ≤ 8192 * (s.chart (9 * s.physTile tile + p)).nlay) :
    exec (.towerSwitchIn tile i) s = .next { s with plc := { s.plc with
      copies := s.plc.copies ++ [{ tile := tile, tower := some i, dest := p }] } } := by
  change execTowerSwitchIn tile i s = _
  simp only [execTowerSwitchIn, h1, Nat.one_ne_zero, if_false, hp]
  rw [if_pos (by simp [copies_none hc, State.towerTakes, hn])]

end Sys2Proof.Repair
end

section
/-! SUPPORT. Reads of a launch's image change neither tasks, nor placement, nor local HBM (R20, R90, R349). -/

namespace Sys2Proof.Repair
open Sys2Proof Sys2Proof.Machine Sys2Proof.Laws Sys2Proof.Managing Sys2Proof.Launching Sys2Proof.Upkeep

variable {s : State}

/-- The tasks, the placement and local HBM. -/
def standing (s : State) : Machine.Task × List Machine.Task × Machine.Placing × Memory := (s.cur, s.parked, s.plc, s.mem.hbm)

theorem standing_foldl {β : Type} {f : State → β → State} {L : List β} (hf : ∀ s, ∀ x ∈ L, standing (f s x) = standing s) {s : State} :
    standing (L.foldl f s) = standing s := by
  induction L generalizing s with
  | nil => rfl
  | cons x L ih => exact (ih fun s y hy => hf s y (by simp [hy])).trans (hf s x (by simp))

theorem standing_observed {s t : State} (h : SameButObserved s t) : standing t = standing s := by
  obtain ⟨o, m, rfl⟩ := h
  rfl

theorem standing_beats {s : State} {g code n : Nat} : standing (s.beats g code n) = standing s := by
  obtain ⟨o, m, h⟩ := countChan_observed s g code n
  rw [State.beats, h]
  rfl

theorem standing_lookup {s : State} {x : Xctx} {va : Nat} : standing (s.lookup x va).2 = standing s := by
  unfold State.lookup
  extract_lets fresh entry useFresh
  have hfill : ∀ (t : State) (k : Option Nat) (e : TlbEntry), standing (t.tlbFill k e) = standing t := fun _ k _ => by
    cases k <;> rfl
  have hchoose : ∀ t : State, standing t.choose.2 = standing t := fun _ => rfl
  have huse (fill : Bool) (s : State) : standing (useFresh fill s).2 = standing s := by
    unfold useFresh
    extract_lets reads s1
    have hbeats : standing s1 = standing s := standing_foldl fun _ _ _ => standing_beats
    clear_value s1
    cases fresh <;> grind
  clear_value useFresh
  grind

theorem standing_translate {s : State} {x : Xctx} {w : Want} {va len : Nat} : standing (s.translate x w va len).2 = standing s := by
  have hbuf : ∀ (t : State) (asid : BitVec 14) (pte : W64), standing (t.readBuf asid pte) = standing t := by
    intro t asid pte
    unfold State.readBuf
    split
    · exact standing_beats
    · rfl
  unfold State.translate
  grind [! standing_lookup]

theorem standing_spans {s : State} {x : Xctx} {w : Want} {fuel va n : Nat} : standing (s.spans x w fuel va n).2 = standing s := by
  induction fuel generalizing s va n with
  | zero => rfl
  | succ fuel ih =>
    unfold State.spans
    grind [! standing_translate]

theorem standing_queueAt {s : State} {tile unit : Nat} {sps : List Span} : standing (s.queueAt tile unit sps) = standing s :=
  standing_foldl fun s sp _ => by
    unfold State.queuePlace
    dsimp only
    split <;> rfl

theorem standing_countBeats {s : State} {code : Nat} {sps : List Span} : standing (s.countBeats code sps) = standing s :=
  standing_foldl fun s sp _ => by
    split
    · exact standing_beats
    · rfl

/-- The device's ports lead to peers and to the host, and to no local HBM. -/
theorem standing_drainDevice {s : State} {kind : Nat} (h0 : kind ≠ 0) (h3 : kind ≠ 3) : standing (s.drainDevice kind) = standing s := by
  refine standing_foldl fun s w hw => ?_
  have hk : w.place.kind = kind := by
    simp only [List.mem_filter, Bool.and_eq_true, beq_iff_eq] at hw
    exact hw.2.2
  unfold State.arrive State.homeWrite
  split
  case h_1 h => omega
  case h_3 h => omega
  all_goals rfl

theorem standing_passPort {s : State} {sps : List Span} : standing (s.passPort sps) = standing s :=
  standing_foldl fun s sp _ => by
    by_cases h : sp.place.isLocal
    · rw [if_pos h]
    · rw [if_neg h]
      simp only [Place.isLocal, Bool.or_eq_true, beq_iff_eq, not_or] at h
      exact standing_drainDevice h.1 h.2

theorem standing_schedRead {s : State} {id : Nat} {e : Effective} {va n : Nat} : standing (s.schedRead id e va n).2 = standing s := by
  unfold State.schedRead
  grind [! standing_spans, standing_queueAt, standing_countBeats, standing_passPort]

theorem standing_readPart {s : State} {l : Launch} {k va n : Nat} : standing (s.readPart l k va n).2 = standing s := by
  unfold State.readPart
  grind [! standing_schedRead]

theorem standing_readTaskImage {s : State} {l : Launch} : standing (s.readTaskImage l).2 = standing s := by
  have hpart (k va n : Nat) {s t : State} {r : Except SchedFail (List Byte)} (e : s.readPart l k va n = (r, t)) : standing t = standing s :=
    (congrArg (standing ·.2) e).symm.trans standing_readPart
  unfold State.readTaskImage
  repeat' split
  all_goals grind

theorem standing_reload {s s' : State} {l : Launch} {r : Reload} (h : s.reload l = (r, s')) : standing s' = standing s := by
  have hread : standing (s.reload l).2 = standing s := by
    have himg {t : State} {x : Except ImgFail (Image × List (List Byte))} (e : s.readTaskImage l = (x, t)) : standing t = standing s :=
      (congrArg (standing ·.2) e).symm.trans standing_readTaskImage
    unfold State.reload
    split
    all_goals exact himg ‹_›
  rw [h] at hread
  exact hread

end Sys2Proof.Repair
end

section
/-! SUPPORT. The switches of copies, and copies abandoned (R74 to R77). -/

namespace Sys2Proof.Repair
open Sys2Proof Sys2Proof.Machine Sys2Proof.Laws Sys2Proof.Managing Sys2Proof.Launching Sys2Proof.Upkeep

variable {s t u : State} {tile : Nat}

theorem abandonCopies_tile {d : CopyJob} (h : d ∈ (s.abandonCopies [tile]).plc.copies) : d.tile ≠ tile := by
  simp only [State.abandonCopies, List.mem_filter] at h
  simpa using h.2

/-! ### Migrations (R74) -/

theorem migrationSwitch_forced {i : Nat} (hi : i < 8) (h : s.underForced (s.physTower tile i) = true) {t : Machine.Task} {l : Launch}
    (ht : s.taskOn tile = some t) (hl : s.launch? t.bnd.launch = some l) : exec (.migrationSwitch tile) s = .next s := by
  change execMigrationSwitch tile s = _
  have hany : ((List.range 8).any fun i => s.underForced (s.physTower tile i)) = true := List.any_eq_true.2 ⟨i, List.mem_range.2 hi, h⟩
  unfold execMigrationSwitch
  cases s.plc.copies.find? (fun c => c.tile == tile && c.tower.isNone) with
  | none => rfl
  | some c => simp only [ht, hl, hany, Bool.or_true, if_true]

theorem migrationSwitch_no_task (ht : s.taskOn tile = none) : exec (.migrationSwitch tile) s = .next s := by
  change execMigrationSwitch tile s = _
  unfold execMigrationSwitch
  rw [ht]
  cases s.plc.copies.find? (fun c => c.tile == tile && c.tower.isNone) <;> rfl

theorem migrationSwitch_migrates {t : Machine.Task} {l : Launch} {c : CopyJob} (ht : s.taskOn tile = some t)
    (hl : s.launch? t.bnd.launch = some l) (hc : s.plc.copies.find? (fun c => c.tile == tile && c.tower.isNone) = some c)
    (hph : l.phase = .resident) (hr : (s.launchTasks l.id).any Machine.Task.receives = true)
    (hf : ∀ i < 8, s.underForced (s.physTower tile i) = false) (hb : ∀ i < 8, s.badRows tile i = false) (hd : s.destGood tile c.dest = true) :
    exec (.migrationSwitch tile) s = .next (s.migrate l tile c.dest) := by
  change execMigrationSwitch tile s = _
  have hany : ((List.range 8).any fun i => s.underForced (s.physTower tile i)) = false :=
    List.any_eq_false.2 fun i hi => by simp [hf i (List.mem_range.1 hi)]
  have hbad : (List.range 8).find? (fun i => s.badRows tile i) = none :=
    List.find?_eq_none.2 fun i hi => by simp [hb i (List.mem_range.1 hi)]
  simp only [execMigrationSwitch, hc, ht, hl, hph, hr, hany, hbad, hd]
  rfl

/-- The switch of a running task, where what is read of its image is no image any more: the tile goes over, and the task goes on. -/
theorem migrate_kept {s1 : State} {l : Launch} {px : Nat} (hph : l.phase = .resident) (hr : s.reload l = (.image none, s1)) :
    (s.migrate l tile px).physTile tile = 34 * tileY tile + px ∧ (∀ d ∈ (s.migrate l tile px).plc.copies, d.tile ≠ tile) ∧
    (s.migrate l tile px).cur = s.cur ∧ (s.migrate l tile px).parked = s.parked ∧ (s.migrate l tile px).mem.hbm = s.mem.hbm := by
  obtain ⟨sr, hsr, hm⟩ : ∃ sr, SameButObserved s1 sr ∧ s.migrate l tile px =
      ((sr.moveTile tile px).abandonCopies [tile]).wantPass.modLaunch l.id fun l => { l with seen := [] } := by
    simp only [State.migrate, hr, hph, if_true]
    refine ⟨_, foldl_observed _ (fun s t => ?_) _ _, rfl⟩
    split
    · exact emitRec_observed ..
    · exact .refl s
  obtain ⟨u, ⟨_, _, _, _, hu⟩, hmove⟩ := moveTile_eq sr tile px
  have hst : standing u = standing s := by
    rw [hu]
    exact (standing_observed hsr).trans (standing_reload hr)
  simp only [standing, Prod.mk.injEq] at hst
  obtain ⟨hcur, hparked, -, hhbm⟩ := hst
  rw [hm, hmove]
  refine ⟨?_, fun d hd => abandonCopies_tile hd, hcur, hparked, hhbm⟩
  change 34 * tileY tile + ((u.setRemap tile _).remap tile).px = _
  rw [remap_setRemap, if_pos rfl]

/-! ### Tower copies (R75) -/

theorem copySwitch_switches {i : BitVec 3} {c : CopyJob} (hc : s.plc.copies.find? (fun c => c.tile == tile && c.tower == some i) = some c)
    (hd : ∀ j < 8, s.ptower (s.physTile tile) j ≠ 9 * s.physTile tile + c.dest)
    (hf : s.underForced (s.ptower (s.physTile tile) i.toNat) = false) (hb : s.badRows tile i.toNat = false)
    (ht : (s.chart (9 * s.physTile tile + c.dest)).tstate = 0)
    (hn : leaseNeeds (s.leasedOn tile) i.toNat ≤ 8192 * (s.chart (9 * s.physTile tile + c.dest)).nlay) :
    exec (.copySwitch tile i) s =
      .next ((((s.moveTower (s.ptower (s.physTile tile) i.toNat) (9 * s.physTile tile + c.dest)).setTmap (s.physTile tile) i.toNat
        c.dest).abandonCopies [tile]).wantPass) := by
  change execCopySwitch tile i s = _
  have hall : ((List.range 8).all fun k => s.ptower (s.physTile tile) k != 9 * s.physTile tile + c.dest) = true :=
    List.all_eq_true.2 fun j hj => by simpa using hd j (List.mem_range.1 hj)
  have htakes : s.towerTakes tile i.toNat c.dest = true := decide_eq_true hn
  simp only [execCopySwitch, hc, hf, hb, ht, hall, htakes]
  rfl

/-! ### What a resumption leaves of copies (R77) -/

/-- Placement as it was, but for copies abandoned. -/
def FewerCopies (s t : State) : Prop := ∃ f : CopyJob → Bool, t.plc = { s.plc with copies := s.plc.copies.filter f }

theorem FewerCopies.of_eq (h : t.plc = s.plc) : FewerCopies s t := ⟨fun _ => true, by rw [h, List.filter_true]⟩

theorem FewerCopies.trans (h : FewerCopies s t) (k : FewerCopies t u) : FewerCopies s u := by
  obtain ⟨f, hf⟩ := h
  obtain ⟨g, hg⟩ := k
  exact ⟨fun c => f c && g c, by rw [hg, hf, List.filter_filter]; simp only [Bool.and_comm]⟩

theorem endAborted_plc (s : State) (id : Nat) : (s.endAborted id).plc = s.plc := by
  unfold State.endAborted
  split
  · split
    · exact (endLaunch_frame ..).2.1
    · rfl
  · rfl

theorem resumeLaunch_fewer (s : State) (id : Nat) : FewerCopies s (s.resumeLaunch id) := by
  unfold State.resumeLaunch
  split
  · exact .of_eq rfl
  · split
    · exact .trans ⟨_, rfl⟩ (.of_eq (endAborted_plc ..))
    · exact .of_eq (endAborted_plc ..)

theorem resumeIdle_fewer (s : State) : FewerCopies s s.resumeIdle := by
  have h : ∀ (L : List Launch) (t : State), FewerCopies t (L.foldl (fun s l => s.resumeLaunch l.id) t) := by
    intro L
    induction L with
    | nil => exact fun t => .of_eq rfl
    | cons l L ih => exact fun t => (resumeLaunch_fewer t l.id).trans (ih _)
  exact h _ s

/-- With no launch stopped for a migration there is none to resume. -/
theorem resumeIdle_none (h : ∀ x ∈ s.sched.launches, x.phase = .saving → x.why ≠ .migrate) : s.resumeIdle = s := by
  have hnil : (s.sched.launches.filter fun l => l.phase == .saving && l.why == .migrate
      && !(s.plc.copies.any fun c => c.tower.isNone && (s.gangOf l).any fun m => m.tiles.contains c.tile)) = [] := by
    refine List.filter_eq_nil_iff.2 fun x hx => ?_
    simp only [Bool.and_eq_true, beq_iff_eq]
    exact fun h1 => h x hx h1.1.1 h1.1.2
  unfold State.resumeIdle
  extract_lets idle
  rw [show idle = [] from hnil]
  rfl

theorem copyWriteError_tile {c : CopyJob} (hc : s.plc.copies.find? (fun c => c.tile == tile) = some c) (ht : c.tower = none) :
    exec (.copyWriteError tile) s = .next ((s.abandonCopies [tile]).setPstate (34 * tileY tile + c.dest) 2).resumeIdle := by
  change execCopyWriteError tile s = _
  simp only [execCopyWriteError, hc, ht]

theorem copyWriteError_tower {c : CopyJob} (hc : s.plc.copies.find? (fun c => c.tile == tile) = some c) {i : BitVec 3}
    (ht : c.tower = some i) :
    exec (.copyWriteError tile) s = .next ((s.abandonCopies [tile]).setTstate (9 * s.physTile tile + c.dest) 2).resumeIdle := by
  change execCopyWriteError tile s = _
  simp only [execCopyWriteError, hc, ht]

/-- The destination of a copy that cannot be written, marked so, and the copies of its tile abandoned; nothing else of the device changes. -/
theorem copyWriteError_marks {c : CopyJob} (hc : s.plc.copies.find? (fun c => c.tile == tile) = some c) : ∃ t : State,
    exec (.copyWriteError tile) s = .next t.resumeIdle ∧ (∀ d ∈ t.plc.copies, d.tile ≠ tile) ∧
    (c.tower.isSome = true → (t.chart (9 * s.physTile tile + c.dest)).tstate = 2) ∧
    (c.tower = none → t.pstate (34 * tileY tile + c.dest) = 2) ∧ t.cur = s.cur ∧ t.mem = s.mem ∧ t.sched = s.sched := by
  cases ht : c.tower with
  | none =>
    refine ⟨_, copyWriteError_tile hc ht, fun d hd => abandonCopies_tile hd, nofun, fun _ => ?_, rfl, rfl, rfl⟩
    exact (pstate_setPstate (s.abandonCopies [tile]) _ _ _).trans (if_pos rfl)
  | some i =>
    refine ⟨_, copyWriteError_tower hc ht, fun d hd => abandonCopies_tile hd, fun _ => ?_, nofun, rfl, rfl, rfl⟩
    simp only [State.setTstate, State.chart, tget_tput_self]

end Sys2Proof.Repair
end

section
/-! SUPPORT. Hardware errors of a tile, and launches that end on the grid (R89, R371, R373, R396, R397, R432). -/

namespace Sys2Proof.Repair
open Sys2Proof Sys2Proof.Machine Sys2Proof.Laws Sys2Proof.Managing Sys2Proof.Launching Sys2Proof.Upkeep

variable {s : State} {tile : Nat}

/-! ### Errors that end a launch (R371, R373, R396) -/

/-- A hardware error of a task that waits for its next boundary, wherever it stands. -/
def hwPending : Pending :=
  { fault := { status := .hwError, cause := 0, slot := 6, info := 0#64 }, pc := none, redo := false, now := true }

theorem meetHw_first {t : Machine.Task} (hr : t.receives = true) (hp : t.seq.pendingFault = none) :
    t.meetHw = { t with seq := { t.seq with pendingFault := some hwPending } } := by
  have hd : t.seq.state ≠ .dead := by
    intro h
    simp [Machine.Task.receives, h] at hr
  have hdefer : t.deferHw false = { t with seq := { t.seq with pendingFault := some { hwPending with now := false } } } := by
    simp [Machine.Task.deferHw, Machine.Task.defer, hd, hp, hwPending]
  rw [Machine.Task.meetHw, hdefer]
  rfl

/-- A change of a tile's tasks, where the task in front is its only one. -/
theorem onTile_sole {f : Machine.Task → Machine.Task} (ht : s.cur.bnd.tile = tile) (hp : ∀ t ∈ s.parked, t.bnd.tile ≠ tile) :
    s.onTile tile f = { s with cur := f s.cur } := by
  have hparked : (s.parked.map fun t => if t.bnd.tile = tile then f t else t) = s.parked := by
    conv_rhs => rw [← List.map_id s.parked]
    exact List.map_congr_left fun t h => if_neg (hp t h)
  simp only [State.onTile, State.mapTasks, hparked, if_pos ht]

theorem hbmData_pends (hb : s.cur.bound = true) (ht : s.cur.bnd.tile = tile) (hr : s.cur.receives = true) (hn : s.cur.seq.pendingFault = none)
    (hp : ∀ t ∈ s.parked, t.bnd.tile ≠ tile) : exec (.hardwareError tile .hbmData) s =
      .next (s.modSeq fun q => { q with pendingFault := some hwPending }).resumeIdle := by
  change Host.Outcome.next (s.onTile tile fun t => if t.bound then t.meetHw else t).resumeIdle = _
  rw [onTile_sole ht hp, if_pos hb, meetHw_first hr hn]
  rfl

theorem reexec_none {t : Machine.Task} {l : Launch} {pst : Nat} (ht : s.taskOn tile = some t) (hl : s.launch? t.bnd.launch = some l)
    (hr : l.restarts? t = false) : s.reexec tile pst = none := by
  simp [State.reexec, ht, hl, hr]

theorem hwError_pends {l : Launch} {pst : Nat} (hb : s.cur.bound = true) (ht : s.cur.bnd.tile = tile) (hl : s.launch? s.cur.bnd.launch = some l)
    (hr : s.cur.receives = true) (hn : s.cur.seq.pendingFault = none) (hp : ∀ t ∈ s.parked, t.bnd.tile ≠ tile)
    (hre : l.restart = false ∨ 3 ≤ s.cur.bnd.hwErrs) :
    s.hwError tile pst = s.modSeq fun q => { q with pendingFault := some hwPending } := by
  have hno : l.restarts? s.cur = false := by
    rcases hre with h | h
    · simp [Launch.restarts?, h]
    · simp [Launch.restarts?, Nat.not_lt.2 h]
  rw [State.hwError, reexec_none (taskOn_cur hb ht) hl hno]
  dsimp only
  rw [onTile_sole ht hp, if_pos (by simp [hb, hr]), meetHw_first hr hn]
  rfl

/-! ### Re-execution (R396, R397) -/

/-- With no packet, transfer, copy or stream under way every engine stands at its unit. -/
theorem finishUnits_idle {launch : Nat} (hb : s.cur.bound = true) (ht : s.cur.bnd.tile = tile) (hpk : s.net.packets = []) (hbc : s.net.bcols = [])
    (hdm : s.cur.eng.dmOps = []) (hst : ∀ h : BitVec 4, (s.cur.ring h).stream = none) :
    s.finishUnits launch tile = s.onTile tile Machine.Task.discardEngines := by
  have hland : State.landOwned launch tile (2 * s.net.packets.length) s = s := by rw [hpk]; rfl
  have hrow : State.finishRow launch tile 128 s = s := by
    rw [State.finishRow, if_neg (by simp [hbc, tget])]
  have hon : (s.onTile tile Machine.Task.discardEngines).taskOn tile = some s.cur.discardEngines := by
    have hcur : (s.onTile tile Machine.Task.discardEngines).cur = s.cur.discardEngines := if_pos ht
    rw [← hcur]
    refine taskOn_cur ?_ ?_ <;> rw [hcur]
    · exact hb
    · exact ht
  have hrings : (s.cur.discardEngines.rings.toList.all fun r => r.stream.isNone) = true := by
    refine List.all_eq_true.2 fun r hr => ?_
    obtain ⟨i, hi, rfl⟩ := List.getElem_of_mem hr
    have hi' : i < 16 := by simpa using hi
    have h := hst (BitVec.ofNat 4 i)
    simp only [Machine.Task.ring, vat, BitVec.toNat_ofNat, Nat.mod_eq_of_lt hi'] at h
    simp [Machine.Task.discardEngines, h]
  rw [State.finishUnits, hland, hrow]
  unfold State.finishCut
  simp only [hon]
  rw [if_pos]
  simp only [hrings, Bool.and_true]
  simp [Machine.Task.discardEngines, hdm]

/-- A tile moved off a physical tile that has failed, its lease cleared (R64, R396). -/
def movedOff (s : State) (tile px lease : Nat) : State :=
  (((s.setPstate (s.physTile tile) 1).moveTile tile px).clearLease tile lease).endDeferrals tile

theorem movedOff_spec (s : State) (tile px lease : Nat) : (movedOff s tile px lease).physTile tile = 34 * tileY tile + px ∧
    (movedOff s tile px lease).pstate (s.physTile tile) = 1 ∧ (movedOff s tile px lease).cur = s.cur ∧
    (movedOff s tile px lease).sched = s.sched := by
  obtain ⟨u, ⟨_, _, _, _, hu⟩, hm⟩ := moveTile_eq (s.setPstate (s.physTile tile) 1) tile px
  obtain ⟨_, _, _, _, h⟩ := (clearLease_same (u.setRemap tile { fenced := false, px := px }) tile lease).trans (endDeferrals_same _ tile)
  rw [movedOff, hm, h]
  refine ⟨?_, ?_, by rw [hu]; rfl, by rw [hu]; rfl⟩
  · change 34 * tileY tile + ((u.setRemap tile _).remap tile).px = _
    rw [remap_setRemap, if_pos rfl]
  · change u.pstate _ = 1
    rw [hu]
    exact (pstate_setPstate ..).trans (if_pos rfl)

/-- The end of a re-execution: the tile's task of the launch starts again, and the launch counts it (R397). -/
def startAgain (s : State) (l : Launch) (tile : Nat) (u : Machine.Task) : State :=
  ((s.onTile tile fun t => if t.bnd.launch = l.id then u else t).modLaunch l.id fun l => { l with
    restarts := l.restarts + 1, packets := l.packets.filter fun p => p.owner != tile }).wantPass

theorem startAgain_spec {l : Launch} {u : Machine.Task} (ht : s.cur.bnd.tile = tile) (hc : s.cur.bnd.launch = l.id)
    (hl : s.launch? l.id = some l) : (startAgain s l tile u).cur = u ∧
      ((startAgain s l tile u).launch? l.id).map (·.restarts) = some (l.restarts + 1) := by
  constructor
  · change (if s.cur.bnd.tile = tile then if s.cur.bnd.launch = l.id then u else s.cur else s.cur) = u
    rw [if_pos ht, if_pos hc]
  · let restarted (l : Launch) : Launch := { l with restarts := l.restarts + 1, packets := l.packets.filter fun p => p.owner != tile }
    change (((s.onTile tile _).modLaunch l.id restarted).launch? l.id).map _ = _
    rw [launch?_modLaunch]
    · rw [show (s.onTile tile _).launch? l.id = some l from hl]
      rfl
    · exact fun _ => rfl

theorem startAgain_noMigration {l : Launch} {u : Machine.Task} (h : ∀ x ∈ s.sched.launches, x.phase = .saving → x.why ≠ .migrate) :
    ∀ x ∈ (startAgain s l tile u).sched.launches, x.phase = .saving → x.why ≠ .migrate := by
  intro x hx
  obtain ⟨y, hy, rfl⟩ := List.mem_map.1 hx
  split
  · exact h y hy
  · exact h y hy

/-- A tile's engines stand at their units and no copy from it goes on. -/
def enginesLeft (s : State) (tile launch : Nat) : State :=
  let s := s.onTile tile Machine.Task.discardEngines
  ({ s with net := s.net.dropIssuer launch tile } : State).abandonCopies [tile]

theorem reexec_eq {l : Launch} {img : Image} {px : Nat} (hb : s.cur.bound = true) (ht : s.cur.bnd.tile = tile)
    (hl : s.launch? s.cur.bnd.launch = some l) (hre : l.restarts? s.cur = true)
    (hsp : s.spareFor tile (s.leasedOn tile) = some px) (himg : l.img = some img) (hph : l.phase = .resident) (hpk : s.net.packets = [])
    (hbc : s.net.bcols = []) (hdm : s.cur.eng.dmOps = []) (hst : ∀ h : BitVec 4, (s.cur.ring h).stream = none) :
    s.reexec tile 1 = some (startAgain (movedOff (enginesLeft s tile l.id) tile px s.cur.bnd.lease) l tile (l.again img s.cur false)) := by
  simp only [State.reexec, taskOn_cur hb ht, hl, hre, hsp, himg, if_true, finishUnits_idle hb ht hpk hbc hdm hst]
  rw [show (l.phase != .resident) = false by simp [hph]]
  rfl

/-- A task on a tile that has failed starts again on the spare found, and its launch counts the restart. -/
theorem reexec_restarts {l : Launch} {img : Image} {px : Nat} (hb : s.cur.bound = true) (ht : s.cur.bnd.tile = tile)
    (hl : s.launch? s.cur.bnd.launch = some l) (hr : s.cur.receives = true) (hre : l.restart = true) (he : s.cur.bnd.hwErrs < 3)
    (hsp : s.spareFor tile (s.leasedOn tile) = some px) (himg : l.img = some img) (hph : l.phase = .resident) (hpk : s.net.packets = [])
    (hbc : s.net.bcols = []) (hdm : s.cur.eng.dmOps = []) (hst : ∀ h : BitVec 4, (s.cur.ring h).stream = none)
    (hmig : ∀ x ∈ s.sched.launches, x.phase = .saving → x.why ≠ .migrate) :
    ∃ t, s.reexec tile 1 = some t ∧ t.physTile tile = 34 * tileY tile + px ∧ t.pstate (s.physTile tile) = 1 ∧
      t.cur = l.again img s.cur false ∧ (t.launch? l.id).map (·.restarts) = some (l.restarts + 1) ∧
      ∀ x ∈ t.sched.launches, x.phase = .saving → x.why ≠ .migrate := by
  have hid := launch?_id hl
  have hrestarts : l.restarts? s.cur = true := by simp [Launch.restarts?, hre, he, hr, himg]
  refine ⟨_, reexec_eq hb ht hl hrestarts hsp himg hph hpk hbc hdm hst, ?_⟩
  obtain ⟨hphys, hpst, hcur, hsched⟩ := movedOff_spec (enginesLeft s tile l.id) tile px s.cur.bnd.lease
  generalize movedOff (enginesLeft s tile l.id) tile px s.cur.bnd.lease = v at *
  replace hcur : v.cur = s.cur.discardEngines := hcur.trans (if_pos ht)
  replace hsched : v.sched = s.sched := hsched
  obtain ⟨hnow, hcount⟩ := startAgain_spec (s := v) (tile := tile) (u := l.again img s.cur false) (l := l) (by rw [hcur]; exact ht)
    (by rw [hcur]; exact hid.symm) (by rw [State.launch?, hsched, hid]; exact hl)
  exact ⟨hphys, hpst, hnow, hcount, startAgain_noMigration (by rw [hsched]; exact hmig)⟩

/-! ### A pending fault at a boundary (R371, R373) -/

theorem bundleIssue_pending {p : Pending} (h : s.cur.seq.pendingFault = some p) (hre : p.redo = false)
    (hst : s.cur.seq.state = .running ∨ s.cur.seq.state = .stopped ∧ p.now = true) (hw : s.cur.seq.waits = [])
    (hlock : s.cur.seq.lockFrom = none) : exec .bundleIssue s =
      .next ((s.modSeq fun q => { q with pendingFault := none }).takeFault (p.pc.getD s.cur.seq.pc) p.fault) := by
  have htakes : s.cur.seq.takesPending = true := by
    rcases hst with h1 | ⟨h1, h2⟩
    · simp [Machine.Seq.takesPending, h, h1]
    · simp [Machine.Seq.takesPending, h, h1, h2]
  change Host.Outcome.next s.taskCycle = _
  rw [State.taskCycle, if_pos htakes]
  simp only [State.takePending, h, hre, endLock_none s hlock]
  rw [if_neg Bool.false_ne_true]
  dsimp only
  rw [if_pos (by simp [State.modSeq, hw])]
  rfl

/-! ### A rail fault (R432) -/

theorem launch?_modLaunch_other (s : State) {id k : Nat} (h : k ≠ id) (f : Launch → Launch) (hf : ∀ l, (f l).id = l.id) :
    (s.modLaunch id f).launch? k = s.launch? k := by
  have hp : ((fun l : Launch => l.id == k) ∘ fun l => if l.id = id then f l else l) = fun l => l.id == k := by
    funext l
    simp only [Function.comp_apply]
    split <;> simp [*]
  rw [State.launch?, State.launch?, modLaunch_sched_launches, List.find?_map, hp]
  cases hl : s.sched.launches.find? fun l => l.id == k with
  | none => rfl
  | some l =>
    have : l.id = k := by simpa using List.find?_some hl
    simp [show l.id ≠ id from fun e => h (this.symm.trans e)]

/-- A launch as its end leaves it, with no failing task: its first status stands (R28). -/
def Ended (st : Status) (l x : Launch) : Prop := x.id = l.id ∧ x.phase = .draining ∧ x.status = if l.status = .ok then st else l.status

theorem endLaunch_launch? (s : State) (id k : Nat) (st : Status) {l : Launch} (hl : s.launch? k = some l) :
    ∃ x, (s.endLaunch id st none).launch? k = some x ∧ if k = id then Ended st l x else x = l := by
  unfold State.endLaunch
  extract_lets s1 s2 s3 s4
  have h1 : s1.sched = s.sched := by
    obtain ⟨o, m, h1⟩ : SameButObserved s s1 := foldl_observed _ lastStalls_observed _ _
    rw [h1]
  have h4 : s4.sched = s.sched := by
    refine .trans ?_ h1
    unfold s4
    split
    · split
      · exact faultPolicy_sched ..
      · rfl
    · rfl
  have hl4 : s4.launch? k = some l := by rw [State.launch?, h4]; exact hl
  by_cases hk : k = id
  · subst hk
    rw [launch?_modLaunch, hl4]
    · exact ⟨_, rfl, by rw [if_pos rfl]; exact ⟨rfl, rfl, rfl⟩⟩
    · exact fun _ => rfl
  · rw [launch?_modLaunch_other _ hk, hl4]
    · exact ⟨l, rfl, by rw [if_neg hk]⟩
    · exact fun _ => rfl

/-- A launch ends with HW_ERROR. -/
def HwEnded (x : Launch) : Prop := x.phase = .draining ∧ x.status = .hwError

theorem Ended.hwEnded {l x : Launch} (h : Ended .hwError l x) (hl : l.status = .ok ∨ HwEnded l) : HwEnded x := by
  obtain ⟨-, hp, hs⟩ := h
  refine ⟨hp, hs.trans ?_⟩
  rcases hl with h | ⟨-, h⟩
  · rw [if_pos h]
  · rw [h, if_neg (by decide)]

/-- The launch with this number has the property. -/
def LaunchIs (k : Nat) (P : Launch → Prop) (s : State) : Prop := ∃ x, s.launch? k = some x ∧ P x

theorem endLaunch_hwEnded {k : Nat} (s : State) (m : Launch) (h : LaunchIs k HwEnded s) : LaunchIs k HwEnded (s.endLaunch m.id .hwError none) := by
  obtain ⟨x, hx, hend⟩ := h
  obtain ⟨y, hy, h⟩ := endLaunch_launch? s m.id k .hwError hx
  refine ⟨y, hy, ?_⟩
  split at h
  · exact h.hwEnded (.inr hend)
  · exact h ▸ hend

theorem endLaunch_okOrHwEnded {k : Nat} (s : State) (m : Launch) (h : LaunchIs k (fun x => x.status = .ok ∨ HwEnded x) s) :
    LaunchIs k (fun x => x.status = .ok ∨ HwEnded x) (s.endLaunch m.id .hwError none) := by
  obtain ⟨x, hx, hend⟩ := h
  obtain ⟨y, hy, h⟩ := endLaunch_launch? s m.id k .hwError hx
  refine ⟨y, hy, ?_⟩
  split at h
  · exact .inr (h.hwEnded hend)
  · exact h ▸ hend

theorem endLaunch_own {l : Launch} (s : State) (h : LaunchIs l.id (fun x => x.status = .ok ∨ HwEnded x) s) :
    LaunchIs l.id HwEnded (s.endLaunch l.id .hwError none) := by
  obtain ⟨x, hx, hend⟩ := h
  obtain ⟨y, hy, h⟩ := endLaunch_launch? s l.id l.id .hwError hx
  rw [if_pos rfl] at h
  exact ⟨y, hy, h.hwEnded hend⟩

/-- Every launch on the grid that has no status yet drains with HW_ERROR. -/
theorem railFault_ends {l : Launch} (hl : s.launch? l.id = some l) (hg : l.onGrid = true) (hph : l.phase ≠ .draining) (hst : l.status = .ok) :
    LaunchIs l.id HwEnded
      ((s.sched.launches.filter fun l => l.onGrid && l.phase != .draining).foldl (fun s l => s.endLaunch l.id .hwError none) s) := by
  have hmem : l ∈ s.sched.launches.filter fun l => l.onGrid && l.phase != .draining :=
    List.mem_filter.2 ⟨List.mem_of_find?_eq_some hl, by simp [hg, hph]⟩
  exact foldl_reaches endLaunch_okOrHwEnded endLaunch_hwEnded endLaunch_own hmem ⟨l, hl, .inl hst⟩

/-! ### What the events leave, event by event -/

/-- A tile moved to a spare and the old physical tile out of service, with no launch on the device (R64). -/
theorem tileFence_moves {px : Nat} (hs : s.sched.launches = []) (hi : s.tileIdle tile = true) (h : s.spareFor tile 0 = some px)
    (hne : px ≠ (s.remap tile).px) : ∃ t, exec (.tileFence tile) s = .next t ∧ t.physTile tile = 34 * tileY tile + px ∧
      t.pstate (s.physTile tile) = 1 ∧ t.cur = s.cur ∧ t.parked = s.parked := by
  obtain ⟨u, ⟨_, _, _, _, hu⟩, hm⟩ := moveTile_eq (s.setPstate (s.physTile tile) 1).wantPass tile px
  refine ⟨_, tileFence_idle hs hi h hne, ?_⟩
  rw [hm]
  refine ⟨?_, ?_, by rw [hu]; rfl, by rw [hu]; rfl⟩
  · change 34 * tileY tile + ((u.setRemap tile _).remap tile).px = _
    rw [remap_setRemap, if_pos rfl]
  · change u.pstate _ = 1
    rw [hu]
    exact (pstate_setPstate ..).trans (if_pos rfl)

/-- A physical tile whose towers are clear, put back into service, in a device that is otherwise as it was. -/
theorem backInService {k : Nat} {v : State} (hv : SameButTowers s v)
    (hclear : ∀ q < 9, ∀ x < 2 ^ 22, v.mem.towers.get (towerKey (9 * k + q) x) = 0#8) :
    ((v.setPstate k 0).wantPass).pstate k = 0 ∧
      (∀ q < 9, ∀ x < 2 ^ 22, ((v.setPstate k 0).wantPass).mem.towers.get (towerKey (9 * k + q) x) = 0#8) ∧
      ((v.setPstate k 0).wantPass).cur = s.cur ∧ ((v.setPstate k 0).wantPass).mem.hbm = s.mem.hbm := by
  obtain ⟨_, _, _, _, hv⟩ := hv
  have hcur : v.cur = s.cur := by rw [hv]
  have hhbm : v.mem.hbm = s.mem.hbm := by rw [hv]
  exact ⟨(pstate_setPstate v ..).trans (if_pos rfl), hclear, hcur, hhbm⟩

theorem tileScrubDone_clears {k : Nat} (h1 : s.pstate k = 1) (h2 : s.isSpare (k / 34) (k % 34) = true) (h3 : s.keepsHeld k = false) :
    ∃ t, exec (.tileScrubDone k) s = .next t ∧ t.pstate k = 0 ∧
      (∀ q < 9, ∀ x < 2 ^ 22, t.mem.towers.get (towerKey (9 * k + q) x) = 0#8) ∧ t.cur = s.cur ∧ t.mem.hbm = s.mem.hbm :=
  ⟨_, tileScrubDone_due h1 h2 h3, backInService (scrubbed_spec s k).1 (scrubbed_spec s k).2⟩

/-- The digits of TMAP name towers of the tile; one that none of them names is none of its eight. -/
theorem ptower_ne {k d : Nat} (hd : ∀ j < 8, (s.tmap k).toNat / 16 ^ j % 16 ≠ d) {j : Nat} (hj : j < 8) : s.ptower k j ≠ 9 * k + d :=
  fun h => hd j hj (Nat.add_left_cancel h)

theorem copySwitch_moves {i : BitVec 3} {c : CopyJob} (hc : s.plc.copies.find? (fun c => c.tile == tile && c.tower == some i) = some c)
    (h9 : c.dest < 9) (hd : ∀ j < 8, (s.tmap (s.physTile tile)).toNat / 16 ^ j % 16 ≠ c.dest) (hwf : Memory.wf s.mem.towers = true)
    (hf : s.underForced (s.ptower (s.physTile tile) i.toNat) = false) (hb : s.badRows tile i.toNat = false)
    (ht : (s.chart (9 * s.physTile tile + c.dest)).tstate = 0)
    (hn : leaseNeeds (s.leasedOn tile) i.toNat ≤ 8192 * (s.chart (9 * s.physTile tile + c.dest)).nlay) :
    ∃ t, exec (.copySwitch tile i) s = .next t ∧ t.physTower tile i.toNat = 9 * s.physTile tile + c.dest ∧
      (∀ j < 8, j ≠ i.toNat → t.physTower tile j = s.physTower tile j) ∧
      (∀ a < 2 ^ 22, t.mem.towers.get (towerKey (9 * s.physTile tile + c.dest) a) = s.mem.towers.get (towerKey (s.physTower tile i.toNat) a)) ∧
      (∀ d ∈ t.plc.copies, d.tile ≠ tile) ∧ t.cur = s.cur ∧ t.parked = s.parked ∧ t.mem.hbm = s.mem.hbm := by
  have hi : i.toNat < 8 := i.isLt
  have hsrc := ptower_ne hd hi
  have hget := fun a (ha : a < 2 ^ 22) => moveTower_get hsrc hwf ha
  obtain ⟨_, _, _, _, hsame⟩ := moveTower_same s (s.ptower (s.physTile tile) i.toNat) (9 * s.physTile tile + c.dest)
  refine ⟨_, copySwitch_switches hc (fun j hj => ptower_ne hd hj) hf hb ht hn, ?_⟩
  generalize s.moveTower (s.ptower (s.physTile tile) i.toNat) (9 * s.physTile tile + c.dest) = v at *
  have hpt : v.physTile tile = s.physTile tile := by rw [hsame]; rfl
  have htower : ∀ j, ((v.setTmap (s.physTile tile) i.toNat c.dest).abandonCopies [tile]).wantPass.physTower tile j =
      if j = i.toNat then 9 * s.physTile tile + c.dest else s.physTower tile j := by
    intro j
    change (v.setTmap (s.physTile tile) i.toNat c.dest).ptower (v.physTile tile) j = _
    rw [hpt, ptower_setTmap hi (by omega), hsame]
    rfl
  have hcur : v.cur = s.cur := by rw [hsame]
  have hparked : v.parked = s.parked := by rw [hsame]
  have hhbm : v.mem.hbm = s.mem.hbm := by rw [hsame]
  exact ⟨(htower _).trans (if_pos rfl), fun j _ hj => (htower j).trans (if_neg hj), hget, fun d hd => abandonCopies_tile hd, hcur, hparked, hhbm⟩

theorem copyWriteError_leaves {c : CopyJob} (hc : s.plc.copies.find? (fun c => c.tile == tile) = some c) :
    ∃ t, exec (.copyWriteError tile) s = .next t ∧ (∀ d ∈ t.plc.copies, d.tile ≠ tile) ∧
      (c.tower.isSome = true → (t.chart (9 * s.physTile tile + c.dest)).tstate = 2) ∧
      (c.tower = none → t.pstate (34 * tileY tile + c.dest) = 2) ∧
      ((∀ x ∈ s.sched.launches, x.phase = .saving → x.why ≠ .migrate) → t.cur = s.cur ∧ t.mem = s.mem) := by
  obtain ⟨u, hu, hcopies, htower, htile, hcur, hmem, hsched⟩ := copyWriteError_marks hc
  obtain ⟨f, hf⟩ := resumeIdle_fewer u
  refine ⟨_, hu, fun d hd => hcopies d ?_, fun h => ?_, fun h => ?_, fun h => ?_⟩
  · rw [hf] at hd
    exact (List.mem_filter.1 hd).1
  · rw [← htower h, State.chart, hf]
    rfl
  · rw [← htile h, State.pstate, hf]
    rfl
  · rw [resumeIdle_none (by rw [hsched]; exact h)]
    exact ⟨hcur, hmem⟩

/-- An error that re-execution does not answer waits for the task's next boundary, whatever part of the tile failed (R371, R396). -/
theorem hardwareError_pends {l : Launch} (hb : s.cur.bound = true) (ht : s.cur.bnd.tile = tile) (hl : s.launch? s.cur.bnd.launch = some l)
    (hr : s.cur.receives = true) (hn : s.cur.seq.pendingFault = none) (hp : ∀ t ∈ s.parked, t.bnd.tile ≠ tile)
    (hre : l.restart = false ∨ 3 ≤ s.cur.bnd.hwErrs) {k : HwError} (hk : k = .storeDouble ∨ k = .register ∨ k = .towerRow) :
    exec (.hardwareError tile k) s = .next (s.modSeq fun q => { q with pendingFault := some hwPending }).resumeIdle := by
  rw [← hwError_pends (pst := 1) hb ht hl hr hn hp hre]
  rcases hk with rfl | rfl | rfl <;> rfl

theorem hardwareError_restarts {l : Launch} {img : Image} {px : Nat} (hb : s.cur.bound = true) (ht : s.cur.bnd.tile = tile)
    (hl : s.launch? s.cur.bnd.launch = some l) (hr : s.cur.receives = true) (hre : l.restart = true) (he : s.cur.bnd.hwErrs < 3)
    (hsp : s.spareFor tile (s.leasedOn tile) = some px) (himg : l.img = some img) (hph : l.phase = .resident) (hpk : s.net.packets = [])
    (hbc : s.net.bcols = []) (hdm : s.cur.eng.dmOps = []) (hst : ∀ h : BitVec 4, (s.cur.ring h).stream = none)
    (hmig : ∀ x ∈ s.sched.launches, x.phase = .saving → x.why ≠ .migrate) :
    ∃ t, exec (.hardwareError tile .storeDouble) s = .next t ∧ t.physTile tile = 34 * tileY tile + px ∧ t.pstate (s.physTile tile) = 1 ∧
      t.cur = l.again img s.cur false ∧ (t.launch? l.id).map (·.restarts) = some (l.restarts + 1) := by
  obtain ⟨t, hreexec, hphys, hpst, hcur, hcount, hidle⟩ := reexec_restarts hb ht hl hr hre he hsp himg hph hpk hbc hdm hst hmig
  refine ⟨t, ?_, hphys, hpst, hcur, hcount⟩
  change Host.Outcome.next (s.hwError tile 1).resumeIdle = _
  rw [State.hwError, hreexec]
  exact congrArg Host.Outcome.next (resumeIdle_none hidle)

end Sys2Proof.Repair

open Sys2Proof Sys2Proof.Machine Sys2Proof.Repair in
/-- Settles O45: each event's equation gives the state it leaves, and what that state keeps follows from the frames of the tower moves, of the
reads of the image and of the launches' ends. -/
theorem repairEvents : Obligations.RepairEvents := by
  intro s tile pt
  refine ⟨?fence, fun p => tileScrubDone_clears, fun p => tileScrubDone_held, ?migration, ?noTask, fun i p => towerSwitchIn_begins,
    fun i c => copySwitch_moves, fun c => copyWriteError_leaves, rfl, ?error, fun p => bundleIssue_pending, ?rail⟩
  case fence =>
    exact fun hs => ⟨fun hi px => tileFence_moves hs hi, fun hi => ⟨_, tileFence_busy hs hi, (pstate_setPstate ..).trans (if_pos rfl), rfl, rfl⟩⟩
  case migration =>
    intro t l px ht hl
    exact ⟨migrationStart_begins ht hl, migrationStart_not_preemptible ht hl,
      fun c s1 hc hph hr hf hb hd hread => ⟨_, migrationSwitch_migrates ht hl hc hph hr hf hb hd, migrate_kept hph hread⟩,
      fun i hi h => migrationSwitch_forced hi h ht hl⟩
  case noTask => exact fun ht => ⟨migrationStart_no_task ht, migrationSwitch_no_task ht⟩
  case error =>
    intro l hb ht hl _ hr hn fault pends
    refine ⟨fun hp => ⟨hbmData_pends hb ht hr hn hp, fun hre => ?_⟩, fun px img hre he hsp himg hph hpk hbc hdm hst hmig =>
      hardwareError_restarts hb ht hl hr hre he hsp himg hph hpk hbc hdm hst hmig⟩
    have pend := fun k => hardwareError_pends (k := k) hb ht hl hr hn hp hre
    exact ⟨pend _ (.inl rfl), pend _ (.inr (.inl rfl)), pend _ (.inr (.inr rfl))⟩
  case rail =>
    refine ⟨_, rfl, fun l hl hg hph hst => ?_⟩
    obtain ⟨x, hx, hphase, hstatus⟩ := railFault_ends hl hg hph hst
    rw [hx, Option.map_some, hphase, hstatus]
end

section
/-! SUPPORT. Words read back: every instruction by its own lemma, and a bundle syllable by syllable (R92, R112 to R117, R276, R277, R409). -/

namespace Sys2Proof.Laws.RoundTrip
open Sys2Proof

/-- Every instruction reads back: one with words by the lemma of its constructor, a device event because it has none. -/
theorem statement_holds (i : Instr) : Statement i := by
  cases i with
  | nop => apply nop
  | add => apply add
  | sub => apply sub
  | mul => apply mul
  | mulh => apply mulh
  | mulhu => apply mulhu
  | div => apply div
  | divu => apply divu
  | rem => apply rem
  | remu => apply remu
  | and => apply and
  | or => apply or
  | xor => apply xor
  | andn => apply andn
  | shl => apply shl
  | shr => apply shr
  | shra => apply shra
  | rot => apply rot
  | min => apply min
  | max => apply max
  | minu => apply minu
  | maxu => apply maxu
  | clz => apply clz
  | ctz => apply ctz
  | popc => apply popc
  | sel => apply sel
  | addi => apply addi
  | andi => apply andi
  | ori => apply ori
  | xori => apply xori
  | shli => apply shli
  | shri => apply shri
  | shrai => apply shrai
  | lih => apply lih
  | cmpeqi => apply cmpeqi
  | cmplti => apply cmplti
  | cmpltui => apply cmpltui
  | cmpeq => apply cmpeq
  | cmpne => apply cmpne
  | cmplt => apply cmplt
  | cmpltu => apply cmpltu
  | cmple => apply cmple
  | cmpleu => apply cmpleu
  | cand => apply cand
  | cor => apply cor
  | cxor => apply cxor
  | lds => apply lds
  | sts => apply sts
  | ldg => apply ldg
  | stg => apply stg
  | amoadd => apply amoadd
  | amomin => apply amomin
  | amomax => apply amomax
  | amoand => apply amoand
  | amoor => apply amoor
  | amoxch => apply amoxch
  | amocas => apply amocas
  | fence => apply fence
  | br => apply br
  | jmp => apply jmp
  | call => apply call
  | ret => apply ret
  | loop => apply loop
  | endTask => apply endTask
  | rep => apply rep
  | mark => apply mark
  | trap => apply trap
  | tret => apply tret
  | tfence => apply tfence
  | launch => apply launch
  | sfmt => apply sfmt
  | mfc => apply mfc
  | mtc => apply mtc
  | setvl => apply setvl
  | setcm => apply setcm
  | lovt => apply lovt
  | tlbinv => apply tlbinv
  | tlbinvAsid => apply tlbinvAsid
  | tlbinvAll => apply tlbinvAll
  | vadd => apply vadd
  | vsub => apply vsub
  | vmul => apply vmul
  | vfma => apply vfma
  | vfms => apply vfms
  | vfnma => apply vfnma
  | vmin => apply vmin
  | vmax => apply vmax
  | vabs => apply vabs
  | vneg => apply vneg
  | vdiv => apply vdiv
  | vsqrt => apply vsqrt
  | vrsq => apply vrsq
  | vrcp => apply vrcp
  | vexp => apply vexp
  | vlog => apply vlog
  | vsin => apply vsin
  | vcos => apply vcos
  | vtanh => apply vtanh
  | vrint => apply vrint
  | viadd => apply viadd
  | visub => apply visub
  | vimul => apply vimul
  | vimulh => apply vimulh
  | vimin => apply vimin
  | vimax => apply vimax
  | viminu => apply viminu
  | vimaxu => apply vimaxu
  | vand => apply vand
  | vor => apply vor
  | vxor => apply vxor
  | vshl => apply vshl
  | vshr => apply vshr
  | vshra => apply vshra
  | viabs => apply viabs
  | vcmp => apply vcmp
  | vicmp => apply vicmp
  | kand => apply kand
  | kor => apply kor
  | kxor => apply kxor
  | knot => apply knot
  | kfirst => apply kfirst
  | kcnt => apply kcnt
  | vsel => apply vsel
  | vcoal => apply vcoal
  | vcoalq => apply vcoalq
  | vrlset => apply vrlset
  | vsplat => apply vsplat
  | vruns => apply vruns
  | vrunsK => apply vrunsK
  | vlen => apply vlen
  | vlenK => apply vlenK
  | vtrim => apply vtrim
  | vtrimDrop => apply vtrimDrop
  | vcat => apply vcat
  | vrsum => apply vrsum
  | vrmax => apply vrmax
  | vrmin => apply vrmin
  | vrisum => apply vrisum
  | vrimax => apply vrimax
  | vrimin => apply vrimin
  | vdot => apply vdot
  | vld => apply vld
  | vst => apply vst
  | vlds => apply vlds
  | vsts => apply vsts
  | vldx => apply vldx
  | vstx => apply vstx
  | vldrl => apply vldrl
  | vstrl => apply vstrl
  | kld => apply kld
  | kst => apply kst
  | vcur => apply vcur
  | vrd => apply vrd
  | vwr => apply vwr
  | vmov => apply vmov
  | vmvs => apply vmvs
  | vmvx => apply vmvx
  | vxc => apply vxc
  | vslide => apply vslide
  | vrev => apply vrev
  | vcvt => apply vcvt
  | vclass => apply vclass
  | twr => apply twr
  | trc => apply trc
  | trr => apply trr
  | tclr => apply tclr
  | vshift => apply vshift
  | eset => apply eset
  | eget => apply eget
  | ewait => apply ewait
  | wopen => apply wopen
  | wopenBind => apply wopenBind
  | wopenKeep => apply wopenKeep
  | wadv => apply wadv
  | wwait => apply wwait
  | wwaitDone => apply wwaitDone
  | wclose => apply wclose
  | rstat => apply rstat
  | wflush => apply wflush
  | bcfillRing => apply bcfillRing
  | bcwait => apply bcwait
  | mma => apply mma
  | mmv => apply mmv
  | mdrain => apply mdrain
  | mclr => apply mclr
  | mflags => apply mflags
  | xsend => apply xsend
  | xwr => apply xwr
  | xrd => apply xrd
  | dpub => apply dpub
  | fstat => apply fstat
  | nbcmd => apply nbcmd
  | nbpoll => apply nbpoll
  | hsig => apply hsig
  | trace => apply trace
  | snap => apply snap
  | refdefer => apply refdefer
  | refnow => apply refnow
  | loadacc => apply loadacc
  | accop => apply accop
  | sacc => apply sacc
  | nbStore => apply nbStore
  | nbClear => apply nbClear
  | minmax => apply minmax
  | fltLdf => apply fltLdf
  | fltLdi => apply fltLdi
  | fltAdd => apply fltAdd
  | fltSub => apply fltSub
  | fltAnd => apply fltAnd
  | fltOr => apply fltOr
  | fltXor => apply fltXor
  | fltShl => apply fltShl
  | fltShr => apply fltShr
  | fltAndi => apply fltAndi
  | fltAddi => apply fltAddi
  | fltBeq => apply fltBeq
  | fltBne => apply fltBne
  | fltBltu => apply fltBltu
  | fltBlt => apply fltBlt
  | fltCadd => apply fltCadd
  | fltVerd => apply fltVerd
  | reduce => apply reduce
  | scaleacc => apply scaleacc
  | cmpxchg => apply cmpxchg
  | idxreduce => apply idxreduce
  | accwb => apply accwb
  | accclr => apply accclr
  | uprog => apply uprog
  | nopA => apply nopA
  | nopB => apply nopB
  | nopE => apply nopE
  | bcfill => apply bcfill
  | bcwaitAll => apply bcwaitAll
  | mldb => apply mldb
  | mswap => apply mswap
  | xbar => apply xbar
  | xbarRow => apply xbarRow
  | xbarCol => apply xbarCol
  | dcopy => apply dcopy
  | dcopyMt => apply dcopyMt
  | dcopyTm => apply dcopyTm
  | dwait => apply dwait
  | fload => apply fload
  | fbind => apply fbind
  | nbfence => apply nbfence
  | refnowAll => apply refnowAll
  | nbEnd => apply nbEnd
  | _ => exact of_event rfl

/-- A well-formed syllable's word decodes to it in its own slot. -/
theorem decodeSlot_encodeWord {i : Instr} {sl : Slot} (h : WellFormed i = true) (hk : kindOf i = .slot sl) :
    decodeSlot sl (encodeWord i) = .ok i := by
  have hread := statement_holds i h (by simp [hk])
  have hwords : encode i = [encodeWord i] := by
    unfold kindOf at hk
    unfold encode
    split at hk
    any_goals cases hk
    split at hk
    · simp_all
    · cases hk
  rw [hk, hwords] at hread
  change (decodeSlot sl (encodeWord i)).toOption = some i at hread
  cases hd : decodeSlot sl (encodeWord i) with
  | ok j => rw [hd] at hread; exact congrArg Except.ok (Option.some.inj hread)
  | error e => rw [hd] at hread; cases hread

/-- The four places of R92: each syllable is read back from the bundle that joins the four. -/
theorem syllableOf_join (e b a c : W32) :
    syllableOf (e ++ b ++ a ++ c) .c = c ∧ syllableOf (e ++ b ++ a ++ c) .a = a ∧ syllableOf (e ++ b ++ a ++ c) .b = b ∧
      syllableOf (e ++ b ++ a ++ c) .e = e := by
  simp [syllableOf]

end Sys2Proof.Laws.RoundTrip

open Sys2Proof Sys2Proof.Laws.RoundTrip in
/-- Settles O1: every constructor has its own lemma under `Laws.RoundTrip`, and a device event has no words. -/
theorem everyEncodingReadsBack : Obligations.EveryEncodingReadsBack := fun i => statement_holds i

open Sys2Proof Sys2Proof.Laws.RoundTrip in
/-- Settles O2: the four syllables stand in their places, and each decodes to its instruction there. -/
theorem bundlesReadBack : Obligations.BundlesReadBack := by
  intro c a b e hc ha hb he kc ka kb ke
  obtain ⟨placeC, placeA, placeB, placeE⟩ := syllableOf_join (encodeWord e) (encodeWord b) (encodeWord a) (encodeWord c)
  have dc := decodeSlot_encodeWord hc kc
  have da := decodeSlot_encodeWord ha ka
  have db := decodeSlot_encodeWord hb kb
  have de := decodeSlot_encodeWord he ke
  simp only [decodeBundle, placeC, placeA, placeB, placeE, dc, da, db, de]
  rfl

open Sys2Proof in
/-- Settles O3: each word, decoded. -/
theorem writtenWords : Obligations.WrittenWords := by
  refine ⟨?_, ?_, ?_, ?_, ?_, ?_, ?_, ?_⟩ <;> decide
end

section
/-! SUPPORT. What lands in a schedule cycle, and what the sequencer makes of the next one (R102, R104, R107). -/

namespace Sys2Proof.Landings
open Sys2Proof Sys2Proof.Machine Sys2Proof.Laws

/-! ### What a landing can change -/

/-- Changes of clusters, one after another, change the clusters alone. -/
theorem foldl_modCl {α : Type} (g : α → Fin 8) (f : α → Cluster → Cluster) (l : List α) (t : Task) :
    ∃ c, l.foldl (fun t x => t.modCl (g x) (f x)) t = { t with cl := c } := by
  induction l generalizing t with
  | nil => exact ⟨t.cl, rfl⟩
  | cons x l ih => exact ih (t.modCl (g x) (f x))

/-- A landing changes clusters alone, or is one of the five others. -/
theorem deliver_cases (t : Task) (d : Dest) : (∃ c, t.deliver d = { t with cl := c }) ∨ (∃ r v, d = .sreg r v) ∨ (∃ r v, d = .creg r v) ∨
    (∃ num sub v, d = .ctl num sub v) ∨ (∃ a bs, d = .smem a bs) ∨ ∃ e i v, d = .engine e i v := by
  cases d with
  | vreg r vals => exact .inl (foldl_modCl Prod.fst (fun p c => c.setV r p.2) vals t)
  | kreg r vals => exact .inl (foldl_modCl Prod.fst (fun p c => c.setK r p.2) vals t)
  | tileRow k row vals => exact .inl (foldl_modCl Prod.fst (fun p c => c.setRow k row p.2) vals t)
  | tileClear k cls => exact .inl (foldl_modCl id (fun _ c => { c with t := vput c.t k (.replicate 256 0#32) }) cls t)
  | cursor y vals => exact .inl (foldl_modCl Prod.fst (fun p c => { c with y := vput c.y y p.2 }) vals t)
  | nothing => exact .inl ⟨t.cl, rfl⟩
  | _ => simp

/-- An engine register written is one of the rings' or the engines'. -/
theorem setEngine_eq (t : Task) (e i : BitVec 5) (v : W64) : ∃ r g, t.setEngine e i v = { t with rings := r, eng := g } := by
  unfold Task.setEngine
  dsimp only
  split
  · exact ⟨_, t.eng, rfl⟩
  · split <;> exact ⟨t.rings, _, rfl⟩

/-- What a landing leaves: the binding, the sequencer but for the note that TRAPPC was set (R384), and PRIV, which nothing raises (R98). -/
structure LandingKeeps (t u : Task) : Prop where
  bnd : u.bnd = t.bnd
  seq : ∃ b, u.seq = { t.seq with trapPcSet := b }
  priv : u.reg.priv = true → t.reg.priv = true

theorem LandingKeeps.of_eq {t u : Task} (hb : u.bnd = t.bnd) (hs : u.seq = t.seq) (hp : u.reg.priv = t.reg.priv) : LandingKeeps t u :=
  ⟨hb, ⟨t.seq.trapPcSet, hs⟩, fun h => hp ▸ h⟩

theorem LandingKeeps.trans {t u v : Task} (h : LandingKeeps t u) (k : LandingKeeps u v) : LandingKeeps t v := by
  obtain ⟨b, hb⟩ := h.seq
  obtain ⟨b', hb'⟩ := k.seq
  exact ⟨k.bnd.trans h.bnd, ⟨b', by rw [hb', hb]⟩, h.priv ∘ k.priv⟩

theorem setCtl_keeps (t : Task) (num : BitVec 6) (sub : BitVec 4) (v : W64) : LandingKeeps t (t.setCtl num sub v) := by
  unfold Task.setCtl
  dsimp only
  split
  case h_5 => split_ifs <;> exact .of_eq rfl rfl rfl
  case h_8 => exact ⟨rfl, ⟨_, rfl⟩, id⟩
  case h_14 => exact ⟨rfl, ⟨t.seq.trapPcSet, rfl⟩, fun h => (Bool.and_eq_true _ _ ▸ h).1⟩
  all_goals exact .of_eq rfl rfl rfl

theorem deliver_keeps (t : Task) (d : Dest) : LandingKeeps t (t.deliver d) := by
  rcases deliver_cases t d with ⟨c, h⟩ | ⟨r, v, rfl⟩ | ⟨r, v, rfl⟩ | ⟨num, sub, v, rfl⟩ | ⟨a, bs, rfl⟩ | ⟨e, i, v, rfl⟩
  · rw [h]; exact .of_eq rfl rfl rfl
  · rw [deliver_sreg, setS_frame]; exact .of_eq rfl rfl rfl
  · rw [deliver_creg, setC_frame]; exact .of_eq rfl rfl rfl
  · exact setCtl_keeps t num sub v
  · exact .of_eq rfl rfl rfl
  · obtain ⟨r, g, h⟩ := setEngine_eq t e i v
    rw [deliver_engine, h]; exact .of_eq rfl rfl rfl

/-- Flags and RUNLEN land in the clusters alone. -/
theorem deliverFlags_eq (t : Task) (l : Landing) : ∃ c, t.deliverFlags l = { t with cl := c } := by
  obtain ⟨c, hc⟩ := foldl_modCl Prod.fst (fun p (c : Cluster) => { c with flags := c.flags ||| p.2 }) l.flags t
  obtain ⟨c', hc'⟩ := foldl_modCl Prod.fst (fun p (c : Cluster) => { c with runlen := p.2 }) l.runlen { t with cl := c }
  exact ⟨c', by rw [Task.deliverFlags, hc, hc']⟩

/-! ### The landings of a schedule cycle -/

/-- The results due by the task's schedule cycle, in the order in which they land (R104). -/
def dueNow (t : Task) : List Landing := sortBy Landing.before (t.seq.inflight.filter fun l => l.due ≤ t.seq.scyc)

/-- The task with what is due taken out of flight. -/
def afterDue (t : Task) : Task := { t with seq := { t.seq with inflight := t.seq.inflight.filter fun l => !(l.due ≤ t.seq.scyc) } }

/-- What is due is delivered in order, and then the flags of all of it. -/
theorem task_landDue_eq (t : Task) :
    t.landDue = (dueNow t).foldl Task.deliverFlags ((dueNow t).foldl (fun t l => t.deliver l.dest) (afterDue t)) := rfl

theorem foldl_deliver_keeps (l : List Landing) (t : Task) : LandingKeeps t (l.foldl (fun t l => t.deliver l.dest) t) := by
  induction l generalizing t with
  | nil => exact .of_eq rfl rfl rfl
  | cons x l ih => exact (deliver_keeps t x.dest).trans (ih _)

theorem foldl_deliverFlags_eq (l : List Landing) (t : Task) : ∃ c, l.foldl Task.deliverFlags t = { t with cl := c } := by
  induction l generalizing t with
  | nil => exact ⟨t.cl, rfl⟩
  | cons x l ih =>
    obtain ⟨c, hc⟩ := deliverFlags_eq t x
    obtain ⟨c', hc'⟩ := ih { t with cl := c }
    exact ⟨c', by rw [List.foldl_cons, hc, hc']⟩

/-- The landings of a cycle keep what each of them keeps, once what is due is out of flight. -/
theorem task_landDue_keeps (t : Task) : LandingKeeps (afterDue t) t.landDue := by
  obtain ⟨c, hc⟩ := foldl_deliverFlags_eq (dueNow t) ((dueNow t).foldl (fun t l => t.deliver l.dest) (afterDue t))
  rw [task_landDue_eq, hc]
  exact (foldl_deliver_keeps (dueNow t) (afterDue t)).trans (.of_eq rfl rfl rfl)

/-- WDOG's landing is the launch's. -/
theorem landWdog_cur (s : State) : s.landWdog.cur = s.cur :=
  List.foldlRecOn (motive := fun t : State => t.cur = s.cur) _ _ rfl fun t ht l _ => by
    split
    · split <;> exact ht
    · exact ht

theorem landDue_cur (s : State) : s.landDue.cur = s.cur.landDue := by
  obtain ⟨o, m, h⟩ := landDue_observed s
  rw [h, landWdog_cur]

theorem landDue_seq (s : State) : ∃ b, s.landDue.cur.seq =
    { s.cur.seq with inflight := s.cur.seq.inflight.filter fun l => !(l.due ≤ s.cur.seq.scyc), trapPcSet := b } := by
  rw [landDue_cur]
  exact (task_landDue_keeps s.cur).seq

@[simp] theorem landDue_bnd (s : State) : s.landDue.cur.bnd = s.cur.bnd := by
  rw [landDue_cur]
  exact (task_landDue_keeps s.cur).bnd

@[simp] theorem landDue_pc (s : State) : s.landDue.cur.seq.pc = s.cur.seq.pc := by
  obtain ⟨b, h⟩ := landDue_seq s; rw [h]
@[simp] theorem landDue_scyc (s : State) : s.landDue.cur.seq.scyc = s.cur.seq.scyc := by
  obtain ⟨b, h⟩ := landDue_seq s; rw [h]
@[simp] theorem landDue_branch (s : State) : s.landDue.cur.seq.branch = s.cur.seq.branch := by
  obtain ⟨b, h⟩ := landDue_seq s; rw [h]
@[simp] theorem landDue_rep (s : State) : s.landDue.cur.seq.rep = s.cur.seq.rep := by
  obtain ⟨b, h⟩ := landDue_seq s; rw [h]
@[simp] theorem landDue_saved (s : State) : s.landDue.cur.seq.saved = s.cur.seq.saved := by
  obtain ⟨b, h⟩ := landDue_seq s; rw [h]
@[simp] theorem landDue_waits (s : State) : s.landDue.cur.seq.waits = s.cur.seq.waits := by
  obtain ⟨b, h⟩ := landDue_seq s; rw [h]
@[simp] theorem landDue_inflight (s : State) : s.landDue.cur.seq.inflight =
    s.cur.seq.inflight.filter fun l => !(l.due ≤ s.cur.seq.scyc) := by
  obtain ⟨b, h⟩ := landDue_seq s; rw [h]

/-- With no value of WDOG due, nothing reaches the launch (R55). -/
theorem landWdog_none {s : State} (h : ∀ l ∈ s.cur.seq.inflight, l.due ≤ s.cur.seq.scyc → ∀ sub v, l.dest ≠ .ctl 35#6 sub v) : s.landWdog = s :=
  List.foldlRecOn (motive := fun t => t = s) _ _ rfl fun t ht l hl => by
    subst ht
    split
    case h_1 num sub v hd =>
      refine if_neg fun hc => ?_
      rw [Bool.and_eq_true, decide_eq_true_eq, decide_eq_true_eq] at hc
      exact h l hl hc.2 sub v (hc.1 ▸ hd)
    case h_2 => rfl

/-- A cycle in which nothing is due lands nothing (R102). -/
theorem landDue_none {s : State} (h : ∀ l ∈ s.cur.seq.inflight, s.cur.seq.scyc < l.due) : s.landDue = s := by
  have hnow : s.cur.seq.inflight.filter (fun l => decide (l.due ≤ s.cur.seq.scyc)) = [] :=
    List.filter_eq_nil_iff.2 fun l hl => by have := h l hl; simp; omega
  have hrest : s.cur.seq.inflight.filter (fun l => !decide (l.due ≤ s.cur.seq.scyc)) = s.cur.seq.inflight :=
    List.filter_eq_self.2 fun l hl => by have := h l hl; simp; omega
  have hw : s.landWdog = s := landWdog_none fun l hl hd => by have := h l hl; omega
  have ht : s.cur.landDue = s.cur := by rw [task_landDue_eq, dueNow, afterDue, hnow, hrest]; rfl
  simp [State.landDue, Task.splitOverflows, hnow, hw, ht]

/-- A cycle in which one result is due, that overflows no register and is not WDOG's, delivers it with its flags (R102, R151). -/
theorem landDue_single {s : State} {l : Landing} {rest : List Landing} (hfly : s.cur.seq.inflight = rest ++ [l])
    (hrest : ∀ x ∈ rest, s.cur.seq.scyc < x.due) (hdue : l.due ≤ s.cur.seq.scyc) (hrun : l.runlen = [])
    (hdest : ∀ sub v, l.dest ≠ .ctl 35#6 sub v) :
    s.landDue = { s with cur := (({ s.cur with seq := { s.cur.seq with inflight := rest } } : Task).deliver l.dest).deliverFlags l } := by
  have hnow : s.cur.seq.inflight.filter (fun l => decide (l.due ≤ s.cur.seq.scyc)) = [l] := by
    rw [hfly, List.filter_append, List.filter_eq_nil_iff.2 fun x hx => by have := hrest x hx; simp; omega]
    simp [hdue]
  have hlate : s.cur.seq.inflight.filter (fun l => !decide (l.due ≤ s.cur.seq.scyc)) = rest := by
    rw [hfly, List.filter_append, List.filter_eq_self.2 fun x hx => by have := hrest x hx; simp; omega]
    simp [hdue]
  have hw : s.landWdog = s := landWdog_none fun x hx hd => by
    rw [hfly, List.mem_append, List.mem_singleton] at hx
    rcases hx with hx | rfl
    · have := hrest x hx; omega
    · exact hdest
  have ht : s.cur.landDue = (({ s.cur with seq := { s.cur.seq with inflight := rest } } : Task).deliver l.dest).deliverFlags l := by
    rw [task_landDue_eq, dueNow, afterDue, hnow, hlate]; rfl
  simp [State.landDue, Task.splitOverflows, hnow, hrun, hw, ht]

/-! ### A task cannot raise its privilege (R98) -/

theorem landDue_priv {s : State} (h : s.cur.reg.priv = false) : s.landDue.cur.reg.priv = false := by
  rw [landDue_cur, Bool.eq_false_iff]
  exact fun hp => Bool.eq_false_iff.1 h ((task_landDue_keeps s.cur).priv hp)

/-- The stall record of a trap that never returns is but traced. -/
theorem savedStall_cur (s : State) (t : Task) : (s.savedStall t).cur = s.cur := by
  obtain ⟨o, m, h⟩ := Launching.savedStall_observed s t
  rw [h]

theorem leaveCtxs_cur (s : State) (st : Stream) (errc : Nat) : (s.leaveCtxs st errc).cur = s.cur :=
  List.foldlRecOn (motive := fun t : State => t.cur = s.cur) st.ctxs _ rfl fun _ ht _ _ => ht

/-- Steps that leave the current task leave it together. -/
theorem foldl_cur {α : Type} {f : State → α → State} (hf : ∀ s x, (f s x).cur = s.cur) (l : List α) (s : State) : (l.foldl f s).cur = s.cur :=
  List.foldlRecOn (motive := fun t : State => t.cur = s.cur) l f rfl fun t ht x _ => (hf t x).trans ht

/-- END changes the task's rings, engines and sequencer, and no register (R181, R417). -/
theorem endTask_reg (s : State) : s.endTask.cur.reg = s.cur.reg := by
  unfold State.endTask
  dsimp only
  rw [foldl_cur, savedStall_cur]
  intro t r
  split
  · split <;> rfl
  · split
    · exact leaveCtxs_cur ..
    · rfl

theorem returnTrap_priv (s : State) : s.returnTrap.cur.reg.priv = s.cur.reg.priv := by
  unfold State.returnTrap
  split
  · simp [Regs.trapState]
  · split <;> simp [savedStall_cur]

/-- The end of a bundle raises no privilege either. -/
theorem advance_priv {s : State} (h : s.cur.reg.priv = false) : s.advance.cur.reg.priv = false := by
  unfold State.advance
  dsimp only
  split
  · rw [returnTrap_priv]
    exact landDue_priv h
  · have hl : ∀ f, ((s.modSeq f).landDue).cur.reg.priv = false := fun f => landDue_priv h
    split
    · rw [endTask_reg]
      exact hl _
    · exact hl _

end Sys2Proof.Landings
end

section
/-! SUPPORT. Control registers read and refused (R98, R184 to R186, R343, R374, R398, R399). -/

namespace Sys2Proof.ControlRegisters
open Sys2Proof Sys2Proof.Machine Sys2Proof.Laws

variable {s : State} {r : BitVec 5} {x : BitVec 4} {c : BitVec 6}

/-! ### MFC and MTC by their checks -/

/-- MFC of a register that may be read lands it (R185). -/
theorem execMfc_lands (hx : subIndexOk c x = true) (hp : privileged c = true → s.cur.reg.priv = true) :
    execMfc r x c s = .next (s.land 0 1 (.sreg r (s.readCtl c x))) := by
  have hpriv : (privileged c && !s.cur.reg.priv) = false := by
    cases h : privileged c
    · rfl
    · simp [hp h]
  simp [execMfc, hx, hpriv]

theorem notWritable : ∀ {c : BitVec 6}, c.toNat ∈ [0, 1, 2, 3, 4, 8, 12, 13, 14, 15, 19, 20, 22, 23, 24, 25, 26, 27, 28, 29, 30, 31, 32, 33] ∨
    36 ≤ c.toNat → writable c = false := by decide

theorem privileged_iff : privileged c = true ↔ 32 ≤ c.toNat ∧ c.toNat ≤ 35 := by simp [privileged]

/-- MFC refuses a sub-index that its register does not take, before it asks for privilege (R112, R184). -/
theorem execMfc_illegal (hx : subIndexOk c x = false) : execMfc r x c s = .next (s.illegal 0) := by simp [execMfc, hx]

theorem execMfc_protection (hx : subIndexOk c x = true) (hc : privileged c = true) (hp : s.cur.reg.priv = false) :
    execMfc r x c s = .next (s.raise 0 .protection 0#64) := by simp [execMfc, hx, hc, hp]

/-- MTC asks for privilege first (R186). -/
theorem execMtc_protection (hc : privileged c = true) (hp : s.cur.reg.priv = false) :
    execMtc r x c s = .next (s.raise 0 .protection 0#64) := by simp [execMtc, hc, hp]

/-- And then refuses a register that is not writable, a sub-index where none stands, and an illegal value (R186). -/
theorem execMtc_illegal (hp : privileged c = true → s.cur.reg.priv = true)
    (h : writable c = false ∨ subIndexOk c x = false ∨ ctlValueOk c (s.sreg r) = false) :
    execMtc r x c s = .next (s.illegal 0) := by
  have hpriv : (privileged c && !s.cur.reg.priv) = false := by
    cases h : privileged c
    · rfl
    · simp [hp h]
  rcases h with h | h | h <;> simp [execMtc, hpriv, h]

/-- The registers that take a sub-index other than 0 are FLAGS and RUNLEN (R98). -/
theorem subIndexOk_iff : subIndexOk c x = true ↔ x = 0#4 ∨ (c = 9#6 ∧ x.toNat ≤ 8) ∨ (c = 22#6 ∧ x.toNat ≤ 7) := by
  simp [subIndexOk, or_assoc]

/-! ### Values read -/

/-- The numbers that name no control register (R98). -/
def reservedNumbers : List (BitVec 6) := ((List.range 64).filter fun n => (23 ≤ n && n ≤ 31) || 36 ≤ n).map (BitVec.ofNat 6)

theorem mem_reservedNumbers {n : Nat} (h : (23 ≤ n ∧ n ≤ 31) ∨ (36 ≤ n ∧ n ≤ 63)) : BitVec.ofNat 6 n ∈ reservedNumbers :=
  List.mem_map.2 ⟨n, by simp; omega, rfl⟩

/-- A number that names no control register reads as zero (R98). -/
theorem readCtl_reserved (h : c ∈ reservedNumbers) : s.readCtl c x = 0#64 := by
  revert c
  change ∀ c ∈ [_, _, _, _, _, _, _, _, _, _, _, _, _, _, _, _, _, _, _, _, _, _, _, _, _, _, _, _, _, _, _, _, _, _, _, _, _], _
  simp only [List.forall_mem_cons]
  repeat' constructor
  simp

/-- A bit of the flags of several clusters joined is set when it is in one of them (R374). -/
theorem getLsbD_joined (l : List (Fin 8)) (f : Flags) (k : Nat) :
    (l.foldl (fun f i => f ||| (s.cluster i).flags) f).getLsbD k = true ↔ f.getLsbD k = true ∨ ∃ i ∈ l, (s.cluster i).flags.getLsbD k = true := by
  induction l generalizing f with
  | nil => simp
  | cons i l ih => simp [ih, or_assoc]

theorem mem_clusters (i : Fin 8) : i ∈ clusters := by fin_cases i <;> decide

/-- Sub-index 8 of FLAGS reads the flags of every cluster together (R374). -/
theorem getLsbD_flags_all (k : Nat) : (s.readCtl 9#6 8#4).getLsbD k = true ↔ ∃ i : Fin 8, s.cur.cl[i].flags.getLsbD k = true := by
  change ((clusters.foldl (fun f i => f ||| (s.cluster i).flags) 0#9).setWidth 64).getLsbD k = true ↔ _
  rw [BitVec.getLsbD_setWidth, Bool.and_eq_true, getLsbD_joined]
  constructor
  · rintro ⟨-, h | ⟨i, -, h⟩⟩
    · simp at h
    · exact ⟨i, h⟩
  · rintro ⟨i, h⟩
    have hk : k < 9 := BitVec.lt_of_getLsbD h
    exact ⟨by simp; omega, .inr ⟨i, mem_clusters i, h⟩⟩

theorem readCtl_flags (i : Fin 8) : s.readCtl 9#6 (BitVec.ofNat 4 i.val) = s.cur.cl[i].flags.setWidth 64 := by
  have hi : (BitVec.ofNat 4 i.val).toNat = i.val := by simp; omega
  change (s.flagsOf (BitVec.ofNat 4 i.val)).setWidth 64 = _
  simp [State.flagsOf, State.cluster, hi]

theorem readCtl_runlen (i : Fin 8) : s.readCtl 22#6 (BitVec.ofNat 4 i.val) = BitVec.ofNat 64 s.cur.cl[i].runlen := by
  have hi : (BitVec.ofNat 4 i.val).toNat = i.val := by simp; omega
  change (if h : (BitVec.ofNat 4 i.val).toNat < 8 then BitVec.ofNat 64 (s.cluster ⟨_, h⟩).runlen else 0#64) = _
  simp [State.cluster, hi]

/-! ### REFST (R343) -/

/-- One bit for each of the numbers below n that a predicate takes. -/
def bitSum (p : Nat → Bool) (n : Nat) : Nat := (List.range n).foldl (fun a i => if p i then a + 2 ^ i else a) 0

theorem bitSum_succ (p : Nat → Bool) (n : Nat) : bitSum p (n + 1) = if p n then bitSum p n + 2 ^ n else bitSum p n := by
  simp [bitSum, List.range_succ, List.foldl_append]

theorem bitSum_lt (p : Nat → Bool) (n : Nat) : bitSum p n < 2 ^ n := by
  induction n with
  | zero => simp [bitSum]
  | succ n ih => rw [bitSum_succ, Nat.pow_succ]; split <;> omega

theorem testBit_bitSum (p : Nat → Bool) {n i : Nat} (h : i < n) : (bitSum p n).testBit i = p i := by
  induction n with
  | zero => omega
  | succ n ih =>
    rw [bitSum_succ]
    have hlt := bitSum_lt p n
    by_cases hi : i = n
    · subst hi
      split
      · rw [Nat.add_comm, Nat.testBit_two_pow_add_eq, Nat.testBit_lt_two_pow hlt]; simp [*]
      · rw [Nat.testBit_lt_two_pow hlt]; simp [*]
    · have hin : i < n := by omega
      split
      · rw [Nat.add_comm, Nat.testBit_two_pow_add_gt hin, ih hin]
      · exact ih hin

/-- A word of three fields reads each of them back. -/
theorem threeFields {a b c : Nat} (hb : b < 2 ^ 8) (hc : c < 2 ^ 32) :
    let v := BitVec.ofNat 64 (a * 2 ^ 40 + b * 2 ^ 32 + c)
    (∀ i < 8, v.getLsbD (40 + i) = a.testBit i ∧ v.getLsbD (32 + i) = b.testBit i) ∧ (v.setWidth 32).toNat = c := by
  have h40 : (a * 2 ^ 40 + b * 2 ^ 32 + c) / 2 ^ 40 = a := by omega
  have h32 : (a * 2 ^ 40 + b * 2 ^ 32 + c) / 2 ^ 32 % 2 ^ 8 = b := by omega
  refine ⟨fun i hi => ⟨?_, ?_⟩, ?_⟩
  · rw [BitVec.getLsbD_ofNat, Nat.add_comm 40, ← Nat.testBit_div_two_pow, h40]
    simp; omega
  · rw [BitVec.getLsbD_ofNat, Nat.add_comm 32, ← Nat.testBit_div_two_pow]
    have hb : b.testBit i = ((a * 2 ^ 40 + b * 2 ^ 32 + c) / 2 ^ 32 % 2 ^ 8).testBit i := by rw [h32]
    rw [hb, Nat.testBit_mod_two_pow, decide_eq_true hi, decide_eq_true (by omega)]
  · simp; omega

/-- The least of a list with a first element is one of the list, and no more than any. -/
theorem foldl_min_spec (x : Nat) (l : List Nat) : l.foldl min x ∈ x :: l ∧ ∀ y ∈ x :: l, l.foldl min x ≤ y := by
  induction l generalizing x with
  | nil => simp
  | cons y l ih =>
    obtain ⟨hmem, hle⟩ := ih (min x y)
    rw [List.foldl_cons]
    constructor
    · rcases List.mem_cons.1 hmem with h | h
      · rw [h]; rcases min_choice x y with h | h <;> simp [h]
      · simp [h]
    · intro z hz
      have hxy := hle (min x y) (by simp)
      rcases List.mem_cons.1 hz with rfl | hz
      · omega
      · rcases List.mem_cons.1 hz with rfl | hz
        · omega
        · exact hle z (by simp [hz])

/-- The least of a list, 0 of an empty one. -/
def leastOf : List Nat → Nat
  | [] => 0
  | x :: l => l.foldl min x

/-- What REFST holds: the running passes, the deferrals, and the least time that one of them has left (R343). -/
theorem refst_fields (t : Task) (left : Nat → Nat)
    (hleft : ∀ i, ((s.refreshOf (s.physTower t.bnd.tile i)).defer.getD 0 - s.elapsed) / 1000000 = left i) (hsmall : ∀ i < 8, left i < 2 ^ 32) :
    let tower := s.physTower t.bnd.tile
    let v := s.refst t
    (∀ i < 8, v.getLsbD (40 + i) = (s.refreshOf (tower i)).pass.isSome ∧ v.getLsbD (32 + i) = s.deferring (tower i) ∧
      (s.deferring (tower i) = true → (v.setWidth 32).toNat ≤ left i)) ∧
    ((∀ i < 8, s.deferring (tower i) = false) ∧ v.setWidth 32 = 0#32 ∨
      ∃ i < 8, s.deferring (tower i) = true ∧ (v.setWidth 32).toNat = left i) := by
  intro tower v
  have hbits : v = BitVec.ofNat 64 (bitSum (fun i => (s.refreshOf (tower i)).pass.isSome) 8 * 2 ^ 40 +
      bitSum (fun i => s.deferring (tower i)) 8 * 2 ^ 32 + leastOf (((List.range 8).filter fun i => s.deferring (tower i)).map left)) := by
    simp only [v, State.refst, List.foldl_map, List.filter_map, List.foldl_filter, List.map_map, Function.comp_def, hleft, tower, bitSum]
    rfl
  have hmem : ∀ y ∈ ((List.range 8).filter fun i => s.deferring (tower i)).map left, ∃ i < 8, s.deferring (tower i) = true ∧ y = left i := by
    intro y hy
    obtain ⟨i, hi, rfl⟩ := List.mem_map.1 hy
    obtain ⟨hr, hd⟩ := List.mem_filter.1 hi
    exact ⟨i, List.mem_range.1 hr, hd, rfl⟩
  have hall : ∀ i < 8, s.deferring (tower i) = true → left i ∈ ((List.range 8).filter fun i => s.deferring (tower i)).map left :=
    fun i hi hd => List.mem_map.2 ⟨i, List.mem_filter.2 ⟨List.mem_range.2 hi, hd⟩, rfl⟩
  generalize ((List.range 8).filter fun i => s.deferring (tower i)).map left = rem at hbits hmem hall
  cases rem with
  | nil =>
    have hnone : ∀ i < 8, s.deferring (tower i) = false := fun i hi => by
      cases hd : s.deferring (tower i)
      · rfl
      · simpa using hall i hi hd
    obtain ⟨hf, h0⟩ := threeFields (a := bitSum (fun i => (s.refreshOf (tower i)).pass.isSome) 8) (c := 0)
      (bitSum_lt (fun i => s.deferring (tower i)) 8) (by omega)
    rw [leastOf] at hbits
    rw [← hbits] at hf h0
    refine ⟨fun i hi => ⟨?_, ?_, fun hd => by simp [hnone i hi] at hd⟩, .inl ⟨hnone, BitVec.eq_of_toNat_eq h0⟩⟩
    · rw [(hf i hi).1, testBit_bitSum _ hi]
    · rw [(hf i hi).2, testBit_bitSum _ hi]
  | cons x l =>
    obtain ⟨hin, hle⟩ := foldl_min_spec x l
    obtain ⟨i, hi, hd, hx⟩ := hmem _ hin
    obtain ⟨hf, h0⟩ := threeFields (a := bitSum (fun i => (s.refreshOf (tower i)).pass.isSome) 8)
      (bitSum_lt (fun i => s.deferring (tower i)) 8) (hx ▸ hsmall i hi)
    rw [leastOf] at hbits
    rw [← hbits] at hf h0
    refine ⟨fun j hj => ⟨?_, ?_, fun hd => h0 ▸ hle _ (hall j hj hd)⟩, .inr ⟨i, hi, hd, h0.trans hx⟩⟩
    · rw [(hf j hj).1, testBit_bitSum _ hj]
    · rw [(hf j hj).2, testBit_bitSum _ hj]

end Sys2Proof.ControlRegisters

open Sys2Proof Sys2Proof.Machine Sys2Proof.Laws Sys2Proof.ControlRegisters in
/-- Settles O10: MFC lands what `State.readCtl` gives, and that is read off register by register. -/
theorem controlRegisterReads : Obligations.ControlRegisterReads := by
  intro s r f left reads
  have user : ∀ {x : BitVec 4} {c : BitVec 6}, subIndexOk c x = true → privileged c = false →
      exec (.mfc r x c f) s = .next (s.land 0 1 (.sreg r (s.readCtl c x))) := fun hx hc => execMfc_lands hx fun h => by simp [hc] at h
  refine ⟨user rfl rfl, user rfl rfl, user rfl rfl, user rfl rfl, user rfl rfl, user rfl rfl, user rfl rfl, user rfl rfl, user rfl rfl,
    user rfl rfl, user rfl rfl, user rfl rfl, user rfl rfl, user rfl rfl, user rfl rfl, user rfl rfl, user rfl rfl, user rfl rfl,
    user rfl rfl, user rfl rfl, ⟨_, user rfl rfl, getLsbD_flags_all⟩, fun h => ⟨_, user rfl rfl, ?refst⟩, fun i => ⟨?flags, ?runlen⟩,
    fun num h => ?reserved, fun hp => ?privileged⟩
  case refst => exact refst_fields s.cur left (fun _ => rfl) h
  case flags =>
    rw [← readCtl_flags]
    exact user (subIndexOk_iff.2 (.inr (.inl ⟨rfl, by simp; omega⟩))) rfl
  case runlen =>
    rw [← readCtl_runlen]
    exact user (subIndexOk_iff.2 (.inr (.inr ⟨rfl, by simp; omega⟩))) rfl
  case reserved =>
    have hn : privileged (BitVec.ofNat 6 num) = false := by simp [privileged]; omega
    change exec (.mfc r 0#4 (BitVec.ofNat 6 num) f) s = _
    rw [user rfl hn, readCtl_reserved (mem_reservedNumbers h)]
  case privileged =>
    have lands : ∀ c, exec (.mfc r 0#4 c f) s = .next (s.land 0 1 (.sreg r (s.readCtl c 0#4))) := fun c => execMfc_lands rfl fun _ => hp
    refine ⟨lands _, lands _, ?_, fun l hl => ?_⟩
    · have hv : s.readCtl 34#6 0#4 = boolWord s.cur.reg.priv := rfl
      exact (lands _).trans (by rw [hv, hp]; rfl)
    · have hv : s.readCtl 35#6 0#4 = BitVec.ofNat 64 (match s.launch? s.cur.bnd.launch with
        | some l => l.wdogLeft
        | none => 0) := rfl
      exact (lands _).trans (by rw [hv, hl])

open Sys2Proof Sys2Proof.Machine Sys2Proof.Laws Sys2Proof.ControlRegisters Sys2Proof.Landings in
/-- Settles O11: the refusals in the order of their checks; and no landing raises PRIV, so neither does the end of a bundle. -/
theorem privilegeAndFaults : Obligations.PrivilegeAndFaults := by
  refine ⟨fun s r x c f => ⟨fun h1 h2 hp => ?privilege, fun h => ?mfcIllegal, fun hu => ?mtc⟩,
    fun s hp => ⟨fun o hg => ?lovt, fun o hg => ?tlbinv, fun b n f q hg => ⟨?asid, ?all⟩, advance_priv hp, fun d => ?deliver⟩⟩
  case privilege =>
    have hc : privileged c = true := privileged_iff.2 ⟨h1, h2⟩
    exact ⟨fun hx => execMfc_protection (subIndexOk_iff.2 (.inl hx)) hc hp, execMtc_protection hc hp⟩
  case mfcIllegal =>
    refine execMfc_illegal (Bool.eq_false_iff.2 fun hx => ?_)
    rcases subIndexOk_iff.1 hx with rfl | ⟨rfl, hx⟩ | ⟨rfl, hx⟩
    · simp at h
    · rcases h with ⟨-, h, -⟩ | h | ⟨-, h⟩
      · exact h rfl
      · omega
      · exact absurd h (by decide)
    · rcases h with ⟨-, -, h⟩ | h | ⟨rfl, -⟩
      · exact h rfl
      · omega
      · exact absurd hx (by decide)
  case mtc =>
    have hp : privileged c = true → s.cur.reg.priv = true := fun hc => by
      have := privileged_iff.1 hc
      rcases hu with h | h | h
      · omega
      · omega
      · exact h
    refine ⟨fun hx => execMtc_illegal hp (.inr (.inl (Bool.eq_false_iff.2 fun hok => ?_))), fun h => ?_, fun h => ?_⟩
    · rcases subIndexOk_iff.1 hok with rfl | ⟨-, h⟩ | ⟨-, h⟩
      · simp at hx
      · omega
      · omega
    · rcases h with h | h | ⟨hx, hc⟩
      · exact execMtc_illegal hp (.inl (notWritable (.inl h)))
      · exact execMtc_illegal hp (.inl (notWritable (.inr h)))
      · by_cases h22 : c = 22#6
        · exact execMtc_illegal hp (.inl (by rw [h22]; rfl))
        · exact execMtc_illegal hp (.inr (.inl (Bool.eq_false_iff.2 fun hok => by simp_all [subIndexOk_iff])))
    · refine execMtc_illegal hp (.inr (.inr ?_))
      rcases h with ⟨rfl, h⟩ | ⟨rfl, h⟩ | ⟨rfl, h⟩ | ⟨rfl, h⟩ | ⟨rfl, h⟩ | ⟨rfl, h⟩ | ⟨rfl, h⟩ | ⟨rfl, h⟩ | ⟨rfl, h⟩ | ⟨rfl, h⟩
      case inl =>
        change (decide (1 ≤ (s.sreg r).toNat) && decide ((s.sreg r).toNat ≤ 4096)) = false
        simp; omega
      case inr.inr.inr.inr.inr.inr.inr.inl => rcases h with h | h | h <;> simp [ctlValueOk] <;> grind
      all_goals simp [ctlValueOk]; omega
  case lovt =>
    change execLovt o s = _
    simp [execLovt, hg, hp, State.raise]
  case tlbinv =>
    change execTlbinv o s = _
    simp [execTlbinv, State.tlbinv, hg, hp, State.raise]
  case asid =>
    change execTlbinvAsid b n q s = _
    simp [execTlbinvAsid, State.tlbinv, hg, hp, State.raise]
  case all =>
    change execTlbinvAll n q s = _
    simp [execTlbinvAll, State.tlbinv, hg, hp, State.raise]
  case deliver => exact Bool.eq_false_iff.2 fun h => Bool.eq_false_iff.1 hp ((deliver_keeps s.cur d).priv h)
end

section
/-! SUPPORT. Results that land in the next cycle, later, and together (R102, R104, R160). -/

namespace Sys2Proof.Landings
open Sys2Proof Sys2Proof.Machine Sys2Proof.Laws

variable {s : State}

/-- The next bundle of a task with no branch pending and no repetition, when nothing else lands: one result issued now with latency 1 is delivered,
and the sequencer has moved on (R102, R107). -/
theorem advance_land (slot : Nat) (d : Dest) (hb : s.cur.seq.branch = none) (hr : s.cur.seq.rep = none)
    (hfly : ∀ l ∈ s.cur.seq.inflight, s.cur.seq.scyc + 1 < l.due) (hd : ∀ sub v, d ≠ .ctl 35#6 sub v) :
    (s.land slot 1 d).advance =
      { s with cur := ({ s.cur with seq := { s.cur.seq with pc := s.cur.seq.pc + 1, scyc := s.cur.seq.scyc + 1 } } : Task).deliver d } := by
  rw [Launching.advance_next (by exact hb) (by exact hr)]
  exact landDue_single (s := ((s.land slot 1 d).modSeq fun q => { q with pc := q.pc + 1, scyc := q.scyc + 1 }))
    (land_inflight s slot 1 d) hfly (Nat.le_refl _) rfl hd

/-- With nothing due in the next cycle, only the sequencer moves on. -/
theorem advance_quiet (hb : s.cur.seq.branch = none) (hr : s.cur.seq.rep = none)
    (hfly : ∀ l ∈ s.cur.seq.inflight, s.cur.seq.scyc + 1 < l.due) :
    s.advance = s.modSeq fun q => { q with pc := q.pc + 1, scyc := q.scyc + 1 } := by
  rw [Launching.advance_next hb hr]
  exact landDue_none hfly

/-- Two results due together land in the order of their bundles, and within a bundle in that of their slots (R104). -/
theorem sortBy_before {x y : Landing} (h : x.at_ < y.at_ ∨ (x.at_ = y.at_ ∧ x.slot < y.slot)) {l : List Landing} (hl : l = [x, y] ∨ l = [y, x]) :
    sortBy Landing.before l = [x, y] := by
  have hxy : x.before y = true := by simp [Landing.before]; omega
  have hyx : y.before x = false := by simp [Landing.before]; omega
  rcases hl with rfl | rfl <;> simp [sortBy, insertBy, hxy, hyx]

theorem foldl_deliverFlags_reg (l : List Landing) (t : Task) : (l.foldl Task.deliverFlags t).reg = t.reg := by
  obtain ⟨c, hc⟩ := foldl_deliverFlags_eq l t
  rw [hc]

end Sys2Proof.Landings

open Sys2Proof Sys2Proof.Machine Sys2Proof.Laws Sys2Proof.Landings in
/-- Settles O6: one landing is delivered in its cycle, none before it, and two in the order of R104. -/
theorem resultsLand : Obligations.ResultsLand := by
  refine ⟨fun s slot hb hr hfly => ⟨?scalar, ?condition⟩, fun s hb hr hfly => ?quiet, fun t x y r v w hr hx hy dx dy h hfly => ?together⟩
  case scalar =>
    intro d v t
    have ht : t = _ := advance_land slot (.sreg d v) hb hr hfly (by simp)
    rw [deliver_sreg] at ht
    refine ⟨fun r => ?_, fun r => ?_, ?_, ?_, ?_, ?_, ?_, ?_⟩ <;> rw [ht]
    · change (s.cur.reg.setS d v).sreg r = _
      rw [sreg_setS]
      grind [State.sreg, sreg_zero]
    · rw [setS_frame]; rfl
  case condition =>
    intro d v t
    have ht : t = _ := advance_land slot (.creg d v) hb hr hfly (by simp)
    rw [deliver_creg] at ht
    refine ⟨fun r => ?_, fun r => ?_, ?_, ?_, ?_, ?_, ?_, ?_⟩ <;> rw [ht]
    · change (s.cur.reg.setC d v).creg r = _
      rw [creg_setC]
      grind [State.creg, creg_zero]
    · rw [setC_frame]; rfl
  case quiet =>
    rw [advance_quiet hb hr hfly]
    exact ⟨fun _ => rfl, fun _ => rfl, rfl, rfl, rfl, rfl⟩
  case together =>
    have hnow : t.seq.inflight.filter (fun l => decide (l.due ≤ t.seq.scyc)) = t.seq.inflight := by
      rcases hfly with h | h <;> simp [h, dx, dy]
    rw [task_landDue_eq, foldl_deliverFlags_reg, dueNow, hnow, sortBy_before h hfly]
    simp [hx, hy, sreg_setS, hr]
end

section
/-! SUPPORT. The sequencer from bundle to bundle: branches with their delay bundles, and repetitions (R107 to R109, R177 to R181). -/

namespace Sys2Proof.Transfers
open Sys2Proof Sys2Proof.Machine Sys2Proof.Laws Sys2Proof.Landings

variable {s : State}

/-! ### Where a transfer goes -/

/-- A target that is not below bundle 0 is the bundle itself (R91). -/
theorem branchTarget_eq {pc : Nat} {off : Int} (h : 0 ≤ (pc : Int) + off) (hpc : pc < 2 ^ 13) (hoff : off < 2 ^ 32) :
    branchTarget pc off = ((pc : Int) + off).toNat := by
  rw [branchTarget, Int.emod_eq_of_lt h]
  have : (2 : Int) ^ 32 + 2 ^ 13 < 2 ^ 64 := by norm_num
  omega

/-- A transfer that may stand where it does acts (R108). -/
theorem transfer_acts (h : s.cur.seq.noTransfer = false) (act : State → State) : s.transfer act = act s := by simp [State.transfer, h]

/-- One that may not is a fault at its bundle. -/
theorem transfer_faults (h : s.cur.seq.noTransfer = true) (act : State → State) : s.transfer act = s.raise 4 .delaySlot 0#64 := by
  simp [State.transfer, h]

theorem sub_one_ne_zero (v : W64) : (v - 1#64 != 0#64) = decide (v ≠ 1#64) := by
  by_cases h : v = 1#64
  · simp [h]
  · have : v - 1#64 ≠ 0#64 := fun h0 => h (by bv_omega)
    simp [h, this]

/-! ### The next bundle -/

/-- A bundle that ends neither a task nor a handler moves the sequencer on, and what is due lands (R102, R107). -/
theorem advance_follow (hr : s.cur.seq.closes .trapReturn = false) (he : s.cur.seq.closes .endTask = false) :
    s.advance = (s.modSeq fun q => { q.follow with scyc := q.scyc + 1 }).landDue := by
  simp [State.advance, hr, he]

/-- No bundle of a jump, or of no transfer at all, does. -/
theorem closes_false {q : Machine.Seq} {k : BranchKind} (hk : k ≠ .jump) (h : ∀ b ∈ q.branch, b.kind = .jump) : q.closes k = false := by
  cases hb : q.branch with
  | none => simp [Machine.Seq.closes, hb]
  | some b =>
    have : ¬ BranchKind.jump = k := fun e => hk e.symm
    simp [Machine.Seq.closes, hb, h b hb, this]

/-- Where the sequencer then stands. -/
theorem advance_flow (h : ∀ b ∈ s.cur.seq.branch, b.kind = .jump) :
    s.advance.cur.seq.pc = s.cur.seq.follow.pc ∧ s.advance.cur.seq.branch = s.cur.seq.follow.branch ∧
    s.advance.cur.seq.rep = s.cur.seq.follow.rep := by
  rw [advance_follow (closes_false (by simp) h) (closes_false (by simp) h)]
  simp

/-- A delay bundle follows while two bundles or more are still to issue (R107). -/
theorem advance_delay {b : Branch} (hb : s.cur.seq.branch = some b) (hk : b.kind = .jump) (hl : 1 < b.left) :
    s.advance.cur.seq.pc = s.cur.seq.pc + 1 ∧ s.advance.cur.seq.branch = some { b with left := b.left - 1 } := by
  obtain ⟨hpc, hbr, -⟩ := advance_flow (s := s) (by simp [hb, hk])
  have hf : s.cur.seq.follow = { s.cur.seq with branch := some { b with left := b.left - 1 }, pc := s.cur.seq.pc + 1 } := by
    have : ¬ b.left ≤ 1 := by omega
    simp [Machine.Seq.follow, hb, this]
  rw [hpc, hbr, hf]
  exact ⟨rfl, rfl⟩

/-- After the last of them comes the target, or the bundle after it (R107). -/
theorem advance_branch {b : Branch} (hb : s.cur.seq.branch = some b) (hk : b.kind = .jump) (hl : b.left ≤ 1) :
    s.advance.cur.seq.pc = (if b.taken then b.target else s.cur.seq.pc + 1) ∧ s.advance.cur.seq.branch = none := by
  obtain ⟨hpc, hbr, -⟩ := advance_flow (s := s) (by simp [hb, hk])
  have hf : s.cur.seq.follow = { s.cur.seq with branch := none, pc := if b.taken then b.target else s.cur.seq.pc + 1 } := by
    simp [Machine.Seq.follow, hb, hl, hk]
  rw [hpc, hbr, hf]
  exact ⟨rfl, rfl⟩

/-- The sequencer with a repetition, at a bundle and with no branch pending. -/
def Repeating (s : State) (pc : Nat) (r : Option Rep) : Prop := s.cur.seq.branch = none ∧ s.cur.seq.pc = pc ∧ s.cur.seq.rep = r

theorem Repeating.advance {pc : Nat} {r : Rep} (h : Repeating s pc (some r)) : Repeating s.advance
    (if r.fresh = false ∧ r.j + 1 < r.n then pc else pc + 1)
    (if r.fresh then some { r with fresh := false } else if r.j + 1 < r.n then some { r with j := r.j + 1 } else none) := by
  obtain ⟨hb, rfl, hr⟩ := h
  obtain ⟨hpc, hbr, hrep⟩ := advance_flow (s := s) (by simp [hb])
  rw [Repeating, hpc, hbr, hrep]
  cases hf : r.fresh <;> by_cases hj : r.j + 1 < r.n <;> simp [Machine.Seq.follow, hb, hr, hf, hj]

/-- Issue k of a repetition of n is the bundle after its REP, with k counted in the repetition (R109). -/
theorem Repeating.issues {pc : Nat} {r : Rep} (h : Repeating s pc (some r)) (hf : r.fresh = true) (hj : r.j = 0) {k : Nat} (hk : k < r.n) :
    Repeating (State.advance^[k + 1] s) (pc + 1) (some { r with fresh := false, j := k }) := by
  induction k with
  | zero => simpa [hf, hj] using h.advance
  | succ k ih =>
    rw [Function.iterate_succ_apply']
    simpa [hk] using (ih (by omega)).advance

end Sys2Proof.Transfers

open Sys2Proof Sys2Proof.Machine Sys2Proof.Laws Sys2Proof.Transfers in
/-- Settles O8: each transfer by its own equation, and what follows it by the sequencer's step. -/
theorem controlTransfers : Obligations.ControlTransfers := by
  refine ⟨fun s h => ⟨fun o h0 hpc => ⟨?br, ?call⟩, fun o => ?jmp, fun o => ?ret, fun d imm f h0 hpc => ?loop, fun f => ?endTask, fun m n f => ?rep⟩,
    fun s h => ?misplaced, fun s b hb hl hk => ?delay, fun s r hb hr hf hj hn => ?repetition⟩
  case br =>
    change Host.Outcome.next _ = _
    rw [transfer_acts h, branchTarget_eq h0 hpc (BitVec.toInt_lt.trans_le (by norm_num))]
    rfl
  case call =>
    change Host.Outcome.next _ = _
    rw [transfer_acts h, branchTarget_eq h0 hpc (BitVec.toInt_lt.trans_le (by norm_num))]
    rfl
  case jmp => exact congrArg Host.Outcome.next (transfer_acts h _)
  case ret => exact congrArg Host.Outcome.next (transfer_acts h _)
  case loop =>
    change Host.Outcome.next _ = _
    rw [transfer_acts h, branchTarget_eq h0 hpc (BitVec.toInt_lt.trans_le (by norm_num)), ← sub_one_ne_zero]
    rfl
  case endTask => exact congrArg Host.Outcome.next (transfer_acts h _)
  case rep => exact congrArg Host.Outcome.next (transfer_acts h _)
  case misplaced =>
    have faults (act : State → State) : (.next (s.transfer act) : Out) = .next (s.raise 4 .delaySlot 0#64) :=
      congrArg Host.Outcome.next (transfer_faults h act)
    exact ⟨fun _ => ⟨faults _, faults _⟩, fun _ => faults _, fun _ => faults _, fun _ _ _ => faults _, fun _ => ⟨faults _, faults _⟩,
      fun _ _ _ => faults _, fun _ _ => faults _⟩
  case delay =>
    obtain ⟨pc1, b1⟩ := advance_delay hb hk (by omega)
    obtain ⟨pc2, b2⟩ := advance_delay b1 hk (by simp [hl])
    obtain ⟨pc3, b3⟩ := advance_branch b2 hk (by simp [hl])
    exact ⟨pc1, by rw [pc2, pc1], by rw [pc3, pc2, pc1], b3⟩
  case repetition =>
    have h0 : Repeating s s.cur.seq.pc (some r) := ⟨hb, rfl, hr⟩
    have last := (h0.issues hf hj (k := r.n - 1) (by omega)).advance
    rw [Nat.sub_add_cancel hn, ← Function.iterate_succ_apply' (f := State.advance)] at last
    obtain ⟨-, hpc, hrep⟩ := last
    have hend : ¬ (r.n - 1 + 1 < r.n) := by omega
    refine ⟨fun k hk => ?_, ?_, ?_⟩
    · obtain ⟨-, hp, hq⟩ := h0.issues hf hj hk
      exact ⟨hp, hq⟩
    · simpa [hend] using hpc
    · simpa [hend] using hrep
end

section
/-! SUPPORT. The waits of slots E and C: how they begin, and what ends them (R106, R239, R316, R320, R325, R337, R340, R358, R365, R366). -/

namespace Sys2Proof.EngineWaits
open Sys2Proof Sys2Proof.Machine Sys2Proof.Laws

variable {s : State}

/-! ### Rows of a ring -/

/-- Whether a consumer's wait on a row that is not produced yet must fail, by the ring's state (R239, R323). -/
theorem waitFault_of_undelivered {t : Task} {h : BitVec 4} {ix : Nat} (hix : (t.ring h).prod ≤ ix) : t.waitFault h ix =
    if (t.ring h).err then some t.reg.ringFault
    else if (t.ring h).done || ((t.ring h).flushing && decide ((t.ring h).prod < ix)) then some .ringMisuse else none := by
  simp [Task.waitFault, Nat.not_lt.2 hix]

theorem waitFault_of_delivered {t : Task} {h : BitVec 4} {ix : Nat} (hix : ix < (t.ring h).prod) : t.waitFault h ix = none := by
  simp [Task.waitFault, hix]

/-- WWAIT begins its stall on a row that is delivered, or that a live producer may still deliver (R320). -/
theorem execWwait_waits {h : BitVec 4} {a : BitVec 5} (hb : (s.cur.ring h).bound = true) (hf : s.cur.waitFault h (s.sreg a).toNat = none) :
    execWwait h a s = .next (s.addWait (.ringIndex h (s.sreg a).toNat)) := by
  simp [execWwait, hb, hf]

theorem tryWait_ringIndex (h : BitVec 4) (ix : Nat) : s.tryWait (.ringIndex h ix) =
    if ix < (s.cur.ring h).prod then some s else (s.cur.waitFault h ix).map fun st => s.waitRaise 3 st (BitVec.ofNat 64 ix) := rfl

theorem tryWait_ringDone (h : BitVec 4) : s.tryWait (.ringDone h) =
    if (s.cur.ring h).err then some (s.waitRaise 3 s.cur.reg.ringFault 0#64) else if (s.cur.ring h).done then some s else none := rfl

/-! ### Open counts (R316) -/

/-- EWAIT of a count below its engine's limit begins its stall. -/
theorem execEwait_waits {e : BitVec 5} {n : BitVec 3} (he : 16 ≤ e.toNat ∧ e.toNat < 22) (hn : n.toNat < Machine.openLimit e.toNat) :
    execEwait e n s = .next (s.addWait (.engine e n.toNat)) := by
  have h1 : ¬ 22 ≤ e.toNat := by omega
  have h2 : ¬ e.toNat < 16 := by omega
  have h3 : ¬ Machine.openLimit e.toNat ≤ n.toNat := by omega
  simp [execEwait, h1, h2, h3]

/-- EWAIT of a ring's engine has no count. -/
theorem execEwait_ring {e : BitVec 5} (he : e.toNat < 16) : execEwait e 0#3 s = .next (s.addWait (.engine e 0)) := by
  have h1 : ¬ 22 ≤ e.toNat := by omega
  simp [execEwait, h1, he]

/-- The wait ends where its engine has no more open than asked for, and leaves the open count no higher. -/
theorem tryWait_engine (e : BitVec 5) (n : Nat) (he : 16 ≤ e.toNat) : s.tryWait (.engine e n) =
    if s.engineIdle e n then some (s.modEng fun g => g.setOpens e.toNat (min (g.opens e.toNat) n)) else none := by
  simp [State.tryWait, Nat.not_lt.2 he]

/-- So of an engine that counts what it has open. -/
theorem tryWait_count {e : BitVec 5} {n k : Nat} (he : 16 ≤ e.toNat) (hk : s.engineIdle e n = decide (k ≤ n)) : s.tryWait (.engine e n) =
    if k ≤ n then some (s.modEng fun g => g.setOpens e.toNat (min (g.opens e.toNat) n)) else none := by
  rw [tryWait_engine e n he, hk]
  simp only [decide_eq_true_eq]

theorem tryWait_engine_ring (e : BitVec 5) (n : Nat) (he : e.toNat < 16) : s.tryWait (.engine e n) =
    if s.engineIdle e n then some s else none := by simp [State.tryWait, he]

/-- A window or a producer has nothing more to do in its ring. -/
theorem engineIdle_ring (e : BitVec 5) (n : Nat) (he : e.toNat < 16) : s.engineIdle e n = true ↔
    (s.cur.ring (e.extractLsb' 0 4)).done = true ∨ (s.cur.ring (e.extractLsb' 0 4)).err = true ∨ (s.cur.ring (e.extractLsb' 0 4)).pkind = 0 := by
  simp [State.engineIdle, he, or_assoc]

/-! ### The completion word (R340) -/

/-- NBPOLL by what the read of its completion word answers. -/
theorem tryWait_nbPoll (d : BitVec 5) (thr va at_ : Nat) : s.tryWait (.nbPoll d thr va at_) =
    match s.readVirt s.cur pollRead va 8 with
    | (.error .wait, _) => none
    | (.error (.prot v), s') => some (s'.waitRaise 3 .protection (BitVec.ofNat 64 v))
    | (.error (.race i), s') => some (s'.waitRaise 3 .race i)
    | (.error (.bad _), s') => some { s' with cur := s'.cur.deferHw false }
    | (.ok bs, s') =>
      if thr % 2 ^ 63 ≤ leNat bs % 2 ^ 63 ∨ 2 ^ 63 ≤ leNat bs then some (s'.land 3 2 (.sreg d (BitVec.ofNat 64 (leNat bs)))) else none := rfl

/-! ### Copies, fences and barriers -/

theorem tryWait_copies : (s.tryWait .copies).isSome ↔
    s.tlbPending s.cur.bnd.tile = false ∧ s.cur.eng.dmOps = [] ∧ s.sinkStreams s.cur = [] := by
  simp only [State.tryWait, Bool.or_eq_true, Bool.not_eq_true', List.isEmpty_eq_false_iff]
  split <;> grind

theorem tryWait_fence (scope : BitVec 2) : (s.tryWait (.fence scope)).isSome ↔
    s.tlbPending s.cur.bnd.tile = false ∧ s.portClear s.cur.bnd.tile scope = true := by
  simp only [State.tryWait, Bool.or_eq_true, Bool.not_eq_true']
  split <;> grind

/-- A barrier's member goes on once its round has completed and its own writes are performed (R365, R366). -/
theorem tryWait_barrier (g : BitVec 2) (n : Nat) {l : Launch} (hl : s.launch? s.cur.bnd.launch = some l) : s.tryWait (.barrier g n) =
    if n ≤ l.completed g (s.cur.line g) ∧ s.barrierFenced s.cur = true then some s else none := by
  simp [State.tryWait, State.barrierDone, hl]

end Sys2Proof.EngineWaits

open Sys2Proof Sys2Proof.Machine Sys2Proof.Laws Sys2Proof.EngineWaits in
/-- Settles O31: what each instruction adds to the waits, and the condition and the outcome of each wait. -/
theorem engineWaits : Obligations.EngineWaits := by
  refine ⟨fun s => ⟨fun e n h => ?ewait, fun h a hb hr => ?wwait, fun h hb he => ?wwaitDone, fun _ => rfl, rfl, rfl, fun _ _ => rfl,
      fun _ _ => rfl, rfl, rfl, rfl⟩,
    fun s => ⟨fun n => ?mu, fun n => ?xp, fun n => ?bc, fun n => ?dm, fun n => ?fb, fun n => ?nb, fun e n he => ?ring, rfl, fun d thr va at_ => ?poll,
      fun h ix hix => ⟨fun he => ?rowError, fun he hd => ?rowEnded⟩, fun h he => ?ringError, fun h ix hix => ?row, fun h ix hix he hd hf => ?noRow,
      fun h he => ?ringDone, fun _ => rfl, tryWait_copies, tryWait_fence, fun g n l hl => ?barrier⟩⟩
  case ewait =>
    rcases h with ⟨he, rfl⟩ | ⟨h16, h22, hn⟩
    · exact execEwait_ring he
    · refine execEwait_waits ⟨h16, h22⟩ ?_
      have hlim : Machine.openLimit e.toNat = if e = 16#5 ∨ e = 18#5 ∨ e = 19#5 then 2 else 4 := by
        simp [Machine.openLimit, ← BitVec.toNat_inj]
      rwa [hlim]
  case wwait =>
    refine execWwait_waits hb ?_
    rcases Nat.lt_or_ge (s.sreg a).toNat (s.cur.ring h).prod with hlt | hge
    · exact waitFault_of_delivered hlt
    · rcases hr with hr | ⟨he, hd, hf⟩
      · exact absurd hr (Nat.not_lt.2 hge)
      · rw [waitFault_of_undelivered hge]
        simp [Task.ring, he, hd, hf]
  case wwaitDone =>
    change Host.Outcome.next _ = _
    simp [Task.ring, hb, he]
  case mu | xp | bc | dm | fb | nb => exact tryWait_count (by decide) rfl
  case ring => simp only [tryWait_engine_ring e n he, engineIdle_ring e n he]; rfl
  case poll =>
    refine ⟨fun bs s1 h => ?_, fun s1 h => ?_, fun v s1 h => ?_, fun i s1 h => ?_⟩ <;>
      (have h : s.readVirt s.cur pollRead va 8 = _ := h; simp only [tryWait_nbPoll, h])
  case rowError =>
    change (s.cur.ring h).err = true at he
    change (s.cur.ring h).prod ≤ ix at hix
    rw [tryWait_ringIndex, if_neg (Nat.not_lt.2 hix), waitFault_of_undelivered hix, if_pos he]
    rfl
  case rowEnded =>
    change (s.cur.ring h).prod ≤ ix at hix
    change (s.cur.ring h).err = false at he
    change (s.cur.ring h).done = true ∨ (s.cur.ring h).flushing = true ∧ (s.cur.ring h).prod < ix at hd
    rw [tryWait_ringIndex, if_neg (Nat.not_lt.2 hix), waitFault_of_undelivered hix]
    rcases hd with hd | ⟨hf, hp⟩
    · simp [he, hd]
    · simp [he, hf, hp]
  case ringError => rw [tryWait_ringDone]; exact if_pos he
  case row => rw [tryWait_ringIndex]; exact if_pos hix
  case noRow =>
    change (s.cur.ring h).prod ≤ ix at hix
    rw [tryWait_ringIndex, if_neg (Nat.not_lt.2 hix), waitFault_of_undelivered hix]
    simp [Task.ring, he, hd, hf]
  case ringDone => rw [tryWait_ringDone]; exact if_neg (Bool.eq_false_iff.1 he)
  case barrier => exact tryWait_barrier g n hl
end

section
/-! SUPPORT. The refutation of O53: a bundle whose slots A and B overflow only together. -/

namespace Sys2Proof.CombinedOverflow

open Sys2Proof Sys2Proof.Machine

/-- VOR v1, v2, v2 in cluster 0: one run of 33 elements. -/
def joinA : Instr := .vor { d := 1#5, a := 2#5, b := 2#5, k := 0#3, cl := 1#2, z := false, s := false }

/-- VMOV v1, v3 in cluster 0: 32 runs of one element, which land in the cycle of `joinA`'s result. -/
def joinB : Instr := .vmov { d := 1#5, k := 0#3, cl := 1#2, v := 3#5 }

/-- The bundle of both: neither slot overflows alone, and the combined v1 has 33 runs. -/
def joinBundle : BitVec 128 := encodeWord .nopE ++ encodeWord joinB ++ encodeWord joinA ++ encodeWord (.nop false)

/-- A task with a trap entry, at bundle 1, that is about to issue `joinBundle`. -/
def joinState : State :=
  { State.reset with
    clk := { Clock.reset with turn := [0] }
    cur := { Task.blank with
      bnd := { Bind.reset with launch := 1, store := [joinBundle, bundleWith .c (encodeWord (.nop false))], nbund := 2, trapV := true, trapEnt := 1 }
      seq := { Seq.reset with state := .running }
      reg := { Regs.reset with vl := 33#64, cma := 1#64 }
      cl := .replicate 8 { Cluster.reset with
        v := ((Vector.replicate 32 []).set 2 [(7#32, 33)]).set 3 ((List.range 32).map fun n => (BitVec.ofNat 32 n, 1)) } } }

/-- The state that the bundle reads. -/
def joinIssue : State :=
  ({ joinState with clk := { joinState.clk with turn := [] } } : State).modSeq fun q =>
    { q with lastFault := none, blocked := false, flush := joinBundle.getLsbD 0 }

/-- The state after the effects of the bundle, which has entered the handler with the combined overflow. -/
def joinEffects : State :=
  (joinIssue.noteIssue.countIssue joinA .nopE).effects (slotOrder (.nop false) joinA joinB .nopE)

def joinFault : FaultInfo := { status := .runOverflow, cause := 3, slot := 4, info := 0x301#64 }

/-- What O53 gives as the state after the step. -/
def joinClaimed : State :=
  let t := joinEffects.takeFault joinState.cur.seq.pc joinFault
  if joinIssue.entered t then t.issueOrStop else t

/-- The state of the current task in what a step answers. -/
def taskStateAfter : Out → TaskState
  | .next t => t.cur.seq.state
  | _ => .idle

theorem decodeBundle_joinBundle : decodeBundle joinBundle = .ok (.nop false, joinA, joinB, .nopE) := by rfl

theorem firstFault_joinIssue : joinIssue.firstFault (.nop false) joinA joinB .nopE = none := by decide

/-- The effects record the overflow and have taken it: the task is in its handler. -/
theorem joinEffects_taken :
    joinEffects.cur.seq.lastFault = some joinFault ∧ joinEffects.cur.seq.hnd = true := by decide

/-- The step takes the overflow once: the handler's first bundle issues and the task runs on. -/
theorem step_joinState_runs : taskStateAfter (step joinState) = .running := by decide

/-- Taking the overflow again, inside the handler it has entered, is DOUBLE_TRAP: the task is dead. -/
theorem joinClaimed_dead : taskStateAfter (.next joinClaimed) = .dead := by decide

end Sys2Proof.CombinedOverflow

open Sys2Proof.Machine Sys2Proof.CombinedOverflow

/-- Refutes O53: of a combined overflow (R105) the statement takes the fault on the state after the effects, `t.takeFault`, where the
overflow has already entered the trap handler, so that it would be a DOUBLE_TRAP; the step takes it once, in place of the bundle. -/
theorem not_stepRunsBundle : ¬ Obligations.StepRunsBundle := by
  unfold Obligations.StepRunsBundle
  intro h
  obtain ⟨-, bundles⟩ := h
  obtain ⟨-, -, issues⟩ := bundles joinState [] joinBundle rfl rfl rfl rfl rfl rfl (.inl rfl) (by decide) (by decide) (by decide)
    rfl rfl (by decide) rfl
  obtain ⟨-, -, -, overflow, -⟩ := issues (.nop false) joinA joinB .nopE (by decide) decodeBundle_joinBundle
  have claimed : step joinState = .next joinClaimed := overflow joinFault firstFault_joinIssue joinEffects_taken.1
  have same := congrArg taskStateAfter claimed
  rw [step_joinState_runs, joinClaimed_dead] at same
  exact absurd same (by decide)

end

section
/-! SUPPORT. What a running task does on its own: its turn at a plain boundary, the wakes of its stall, its held writes, and barriers
(R91, R102, R106, R175, R349, R365 to R367). -/

namespace Sys2Proof.TaskTurns
open Sys2Proof Sys2Proof.Machine Sys2Proof.Laws

variable {s : State}

/-! ### A boundary with nothing before the bundle (R373, R415, R416) -/

/-- Breakpoints that are off do not act. -/
theorem breakpoints_off (h0 : (s.dbg s.cur.bnd.tile).bkp0.getLsbD 63 = false) (h1 : (s.dbg s.cur.bnd.tile).bkp1.getLsbD 63 = false) :
    s.breakpoints = s := by
  have hm : ∀ which, s.matched which = false := fun which => by
    cases which <;> simp only [State.matched, Task.matches_, TileDbg.bkp, h0, h1, Bool.false_and, Bool.and_false, if_true, if_false, Bool.false_eq_true]
  simp [State.breakpoints, hm]

theorem stepExpiry_none (h : s.cur.watch.steps = none) : s.stepExpiry = s := by simp [State.stepExpiry, h]

/-- A task that neither a breakpoint nor a step count stops issues its bundle. -/
theorem issueOrStop_plain (hb : s.cur.bound = true) (hr : s.cur.seq.state = .running) (hw : s.cur.seq.waits = [])
    (h0 : (s.dbg s.cur.bnd.tile).bkp0.getLsbD 63 = false) (h1 : (s.dbg s.cur.bnd.tile).bkp1.getLsbD 63 = false)
    (hs : s.cur.watch.steps = none) : s.issueOrStop = s.issueBundle := by
  simp [State.issueOrStop, breakpoints_off h0 h1, Launching.onTask_cur hb, stepExpiry_none hs, Task.issues, hr, hw]

/-- The turn of a task that stands at a plain boundary. -/
theorem taskCycle_issues (hb : s.cur.bound = true) (hr : s.cur.seq.state = .running) (hp : s.cur.seq.pendingFault = none)
    (hw : s.cur.seq.waits = []) (hf : s.cur.seq.pendingForced = []) (hn : s.cur.eng.nbLate s.clk.tick = false)
    (h0 : (s.dbg s.cur.bnd.tile).bkp0.getLsbD 63 = false) (h1 : (s.dbg s.cur.bnd.tile).bkp1.getLsbD 63 = false)
    (hs : s.cur.watch.steps = none) (hfree : s.cur.seq.freeAt ≤ s.clk.tick) :
    s.taskCycle = if s.entered s.issueBundle then s.issueBundle.issueOrStop else s.issueBundle := by
  simp [State.taskCycle, Seq.takesPending, hp, hr, hf, hw, hn, Nat.not_lt.2 hfree, State.enterAndIssue, issueOrStop_plain hb hr hw h0 h1 hs]

/-! ### The task that an event's tile names -/

theorem focus_front (hb : s.cur.bound = true) : s.focus s.cur.bnd.tile = some s := by simp [State.focus, hb]

/-- The task that a tile names stands in front of the focused state. -/
theorem focus_cur {k : Nat} {s1 : State} (h : s.focus k = some s1) : s1.cur.bound = true ∧ s1.cur.bnd.tile = k := by
  unfold State.focus at h
  split at h
  case isTrue hc => cases h; simpa using hc
  case isFalse =>
    split at h
    case h_1 => cases h
    case h_2 t ht => cases h; simpa using List.find?_some ht

theorem onTask_focus {k : Nat} {s1 : State} (h : s.focus k = some s1) (f : State → State) : s.onTask k f = s1.onTask k f := by
  obtain ⟨hb, rfl⟩ := focus_cur h
  rw [Launching.onTask_cur hb]
  simp [State.onTask, h]

theorem onTask_none {k : Nat} (h : s.focus k = none) (f : State → State) : s.onTask k f = s := by simp [State.onTask, h]

theorem taskOn_isNone (k : Nat) : (s.taskOn k).isNone = (s.focus k).isNone := by
  simp only [State.taskOn, State.tasks, List.find?_cons, State.focus]
  by_cases hc : (s.cur.bound && s.cur.bnd.tile == k) = true
  · simp_all
  · have hd : (s.cur.bound && decide (s.cur.bnd.tile = k)) = false := by simpa using hc
    have he : (fun t : Task => t.bound && decide (t.bnd.tile = k)) = fun t => t.bound && t.bnd.tile == k := by funext t; simp [Bool.beq_eq_decide_eq]
    rw [hd, he, if_neg hc]
    cases s.parked.find? fun t => t.bound && t.bnd.tile == k <;> rfl

/-! ### The end of the only wait of a stall (R106) -/

variable {w : Wait}

/-- No page is locked: a wait that goes on joins no queue. -/
theorem queueWait_unlocked (h : s.mem.locked = []) : s.queueWait w = s := by
  unfold State.queueWait
  cases w <;> simp [h]

/-- A stall whose only wait goes on. -/
theorem retryIf_waiting {p : Wait → Bool} (hw : s.cur.seq.waits = [w]) (hl : s.cur.seq.lastFault = none) (hp : p w = true)
    (ht : s.tryWait w = none) (hm : s.mem.locked = []) : s.retryIf p = s := by
  have h0 : (s.modSeq fun q => { q with lastFault := none }) = s := by
    rw [← hl]; rfl
  have hend : s.endWaits p = s := by
    simp [State.endWaits, h0, hw, hp, hl, State.endWait, ht, queueWait_unlocked hm]
  simp [State.retryIf, hend, State.thaw, hw]

/-- The end of a stall of a task that is not armed. -/
theorem thaw_unarmed (cause : Nat) (hw : s.cur.seq.waits = []) (hr : s.cur.seq.state = .running) (hl : s.cur.seq.lastFault = none)
    (ha : s.cur.mark.armed = false) : s.thaw cause = s.afterStall.modSeq fun q => { q with freeAt := s.clk.tick + 1 } := by
  simp [State.thaw, hw, hr, hl, State.stallRecord, State.stallOf, ha]

/-- A stall whose only wait is over, without a fault. -/
theorem retryIf_over {p : Wait → Bool} {t : State} (hr : s.cur.seq.state = .running) (hw : s.cur.seq.waits = [w])
    (hl : s.cur.seq.lastFault = none) (hp : p w = true) (ht : s.tryWait w = some t) (tw : t.cur.seq.waits = [w])
    (tl : t.cur.seq.lastFault = none) (tr : t.cur.seq.state = .running) (ta : t.cur.mark.armed = false) :
    s.retryIf p = (t.modSeq fun q => { q with waits := [] }).afterStall.modSeq fun q => { q with freeAt := t.clk.tick + 1 } := by
  have h0 : (s.modSeq fun q => { q with lastFault := none }) = s := by
    rw [← hl]; rfl
  have hend : s.endWaits p = t.modSeq fun q => { q with waits := [] } := by
    have he : (t.modSeq fun q => { q with waits := q.waits.erase w }) = t.modSeq fun q => { q with waits := [] } := by
      simp [State.modSeq, tw]
    simp [State.endWaits, h0, hw, hp, hl, State.endWait, ht, he]
  have hf : s.frozenNow = true := by simp [State.frozenNow, hr, hw]
  rw [State.retryIf, if_pos hf, hend]
  exact thaw_unarmed (s := t.modSeq fun q => { q with waits := [] }) _ rfl tr tl ta

/-! ### Held writes (R175, R349) -/

theorem drainOne_none {k : Nat} (h : ¬ ∃ x ∈ s.mem.wport, x.tile = k) : s.drainOne k = s := by
  have hfind : s.mem.wport.find? (fun w => w.tile == k && !(w.dev && s.writeLocked w)) = none :=
    List.find?_eq_none.2 fun x hx => by
      have hk : x.tile ≠ k := fun hk => h ⟨x, hx, hk⟩
      simp [hk]
  rw [State.drainOne, hfind]

/-- The oldest write of a tile's port goes home to plain local HBM. -/
theorem drainOne_home {w : PortWrite} {rest : List PortWrite} (hq : s.mem.wport = w :: rest) (hk : w.place.kind = 0)
    (hd : w.dev = false) (hr : s.env.retrain = []) :
    s.drainOne w.tile = { s with mem := { s.mem with wport := rest, hbm := s.mem.hbm.putBytes w.place.addr w.bytes } } := by
  have hlocked : s.writeLocked w = false := by simp [State.writeLocked, State.placeLocked, hk, hd, hr]
  simp [State.drainOne, hq, hlocked, hd, State.leaveTile, Place.isLocal, hk, State.arrive, State.homeWrite]

/-- A wake of an access acts on a stall that it ends, and on the tile's port else. -/
theorem execGlobalAccessPerformed_bound (hb : s.cur.bound = true) : execGlobalAccessPerformed s.cur.bnd.tile s =
    .next (if s.frozenNow && s.cur.seq.waits.any (fun w => w.isGlobal && (s.tryWait w).isSome) then s.retryIf Wait.isGlobal
      else s.drainOne s.cur.bnd.tile) := by
  have hn : (s.taskOn s.cur.bnd.tile).isNone = false := by rw [taskOn_isNone, focus_front hb]; rfl
  simp [execGlobalAccessPerformed, hn, Launching.onTask_cur hb]

/-! ### Barriers (R365, R366) -/

/-- A member that waits at a completed round leaves it. -/
def leaveDone (group : BitVec 2) (s : State) (t : Task) : State :=
  match barrierWait group t with
  | some n => if s.barrierDone group n t && s.barrierFenced t && t.seq.state != .stopped then s.leaveBarrier group n t.bnd.tile else s
  | none => s

/-- The first open round completes once every member has arrived. -/
def completeOpen (launch : Nat) (group : BitVec 2) (line : Nat) (s : State) : State :=
  let ms := s.members launch group line
  match s.openInstances group ms with
  | [] => s
  | n0 :: rest =>
    let n := rest.foldl min n0
    if ms.all (s.arrived group n) && ms.all fun t => t.seq.state != .stopped then
      ms.foldl (fun s t => s.leaveBarrier group n t.bnd.tile) (s.modLaunch launch fun l => l.complete group line n)
    else s

theorem execBarrierRelease_eq (launch : Nat) (group : BitVec 2) (line : Nat) (s : State) : execBarrierRelease launch group line s =
    .next (completeOpen launch group line ((s.members launch group line).foldl (leaveDone group) s)) := rfl

theorem leaveDone_open {group : BitVec 2} {t : Task} (h : ∀ k, barrierWait group t = some k → s.barrierDone group k t = false) :
    leaveDone group s t = s := by
  unfold leaveDone
  cases hk : barrierWait group t with
  | none => rfl
  | some k => simp [h k hk]

/-- Where no member waits at an round that has completed, none leaves before the round completes. -/
theorem foldl_leaveDone_open {group : BitVec 2} {l : List Task}
    (h : ∀ t ∈ l, ∀ k, barrierWait group t = some k → s.barrierDone group k t = false) : l.foldl (leaveDone group) s = s :=
  List.foldlRecOn (motive := fun u => u = s) l _ rfl fun u hu t ht => by
    subst hu
    exact leaveDone_open (h t ht)

/-- The instances that stand open are then those that members wait at. -/
theorem openInstances_none_done {group : BitVec 2} {l : List Task}
    (h : ∀ t ∈ l, ∀ k, barrierWait group t = some k → s.barrierDone group k t = false) :
    s.openInstances group l = l.filterMap (barrierWait group) := by
  refine List.filterMap_congr fun t ht => ?_
  cases hk : barrierWait group t with
  | none => rfl
  | some k => simp [h t ht k hk]

theorem foldl_min_least {n : Nat} {l : List Nat} (h : ∀ k ∈ l, n ≤ k) : l.foldl min n = n :=
  List.foldlRecOn (motive := fun m => m = n) l min rfl fun m hm k hk => by subst hm; exact Nat.min_eq_left (h k hk)

/-- No round completes while a member has not arrived, or is stopped. -/
theorem completeOpen_missing {launch : Nat} {group : BitVec 2} {line n : Nat} {rest : List Nat}
    (hopen : s.openInstances group (s.members launch group line) = n :: rest) (hmin : ∀ k ∈ rest, n ≤ k)
    (hm : ∃ t ∈ s.members launch group line, s.arrived group n t = false ∨ t.seq.state = .stopped) :
    completeOpen launch group line s = s := by
  have hall : ((s.members launch group line).all (s.arrived group n) && (s.members launch group line).all fun t => t.seq.state != .stopped) = false := by
    rw [Bool.and_eq_false_iff, List.all_eq_false, List.all_eq_false]
    obtain ⟨t, ht, h | h⟩ := hm
    · exact .inl ⟨t, ht, by simp [h]⟩
    · exact .inr ⟨t, ht, by simp [h]⟩
  simp only [completeOpen, hopen, foldl_min_least hmin, hall, Bool.false_eq_true, if_false]

/-- What a barrier's release leaves of its only member: its stall is over, and its next schedule cycle begins. -/
structure Released (s t : State) : Prop where
  bnd : t.cur.bnd = s.cur.bnd
  waits : t.cur.seq.waits = []
  saved : t.cur.seq.saved = none
  scyc : t.cur.seq.scyc = s.cur.seq.scyc + 1
  parked : t.parked = s.parked
  count : ∀ id, (t.launch? id).map (fun l => (l.phaseCnt, l.bars)) = (s.launch? id).map fun l => (l.phaseCnt, l.bars)

/-- A landing in WDOG changes nothing of a launch but the time its watchdog has left (R55). -/
theorem landWdog_launch (id : Nat) : s.landWdog.parked = s.parked ∧
    (s.landWdog.launch? id).map (fun l => (l.phaseCnt, l.bars)) = (s.launch? id).map fun l => (l.phaseCnt, l.bars) :=
  List.foldlRecOn (motive := fun t : State => t.parked = s.parked ∧
      (t.launch? id).map (fun l => (l.phaseCnt, l.bars)) = (s.launch? id).map fun l => (l.phaseCnt, l.bars)) _ _ ⟨rfl, rfl⟩ fun t ht l _ => by
    split
    · split
      · refine ⟨ht.1, Eq.trans ?_ ht.2⟩
        by_cases hid : id = t.cur.bnd.launch
        · subst hid
          rw [Launching.launch?_modLaunch]
          · simp [Function.comp_def]
          · exact fun _ => rfl
        · rw [Repair.launch?_modLaunch_other]
          · exact hid
          · exact fun _ => rfl
      · exact ht
    · exact ht

theorem landDue_launch (id : Nat) : s.landDue.parked = s.parked ∧
    (s.landDue.launch? id).map (fun l => (l.phaseCnt, l.bars)) = (s.launch? id).map fun l => (l.phaseCnt, l.bars) := by
  obtain ⟨o, m, h⟩ := landDue_observed s
  rw [h]
  exact landWdog_launch id

/-- A member whose only wait is the barrier's leaves it. -/
theorem leaveBarrier_released {group : BitVec 2} {n : Nat} (hb : s.cur.bound = true) (hr : s.cur.seq.state = .running)
    (hw : s.cur.seq.waits = [.barrier group n]) (hsaved : s.cur.seq.saved = none) (hbr : s.cur.seq.branch = none)
    (hres : s.cur.seq.resumed = false) (ha : s.cur.mark.armed = false) : Released s (s.leaveBarrier group n s.cur.bnd.tile) := by
  let u : State := s.modSeq fun q => { q with lastFault := none, waits := [] }
  let v : State := u.modSeq fun q => { q.follow with scyc := q.scyc + 1 }
  have hfollow : v.cur.seq.waits = [] ∧ v.cur.seq.saved = none := by
    change s.cur.seq.saved = none at hsaved
    simp only [v, u, State.modSeq, Seq.follow, hbr]
    split
    · split_ifs <;> exact ⟨rfl, hsaved⟩
    · exact ⟨rfl, hsaved⟩
  have hu : s.leaveBarrier group n s.cur.bnd.tile = u.thaw 10 := by
    have he : (s.modSeq fun q => { q with lastFault := none, waits := q.waits.erase (.barrier group n) }) = u := by
      simp [u, State.modSeq, hw]
    simp [State.leaveBarrier, Launching.onTask_cur hb, hw, he]
  have hv : u.afterStall = v.landDue := by
    have hc : ∀ k, u.cur.seq.closes k = false := fun k => by simp [Seq.closes, u, State.modSeq, hbr]
    have hn : u.cur.seq.resumed = false := hres
    simp [State.afterStall, hn, State.advance, hc, v]
  rw [hu, thaw_unarmed (s := u) 10 rfl hr rfl ha, hv]
  exact { bnd := Landings.landDue_bnd v, waits := (Landings.landDue_waits v).trans hfollow.1, saved := (Landings.landDue_saved v).trans hfollow.2,
          scyc := Landings.landDue_scyc v, parked := (landDue_launch 0).1, count := fun id => (landDue_launch id).2 }

/-- A task alone in its launch is the only member. -/
theorem members_alone (hp : s.parked = []) : s.members s.cur.bnd.launch 0#2 0 = [s.cur] := by
  simp [State.members, State.tasks, hp]

theorem barrierWait_only {t : Task} {n : Nat} (hw : t.seq.waits = [.barrier 0#2 n]) : barrierWait 0#2 t = some n := by
  simp [barrierWait, Task.allWaits, hw]

theorem barrierWait_none {t : Task} (hw : t.seq.waits = []) (hs : t.seq.saved = none) (group : BitVec 2) : barrierWait group t = none := by
  simp [barrierWait, Task.allWaits, hw, hs]

/-- The writes that a member issued up to its XBAR are performed where only later ones are held. -/
theorem barrierFenced_later {n : Nat} (hw : s.cur.seq.waits = [.barrier 0#2 n])
    (hfence : ∀ w ∈ s.mem.wport, w.tile = s.cur.bnd.tile → s.cur.seq.waitScyc < w.at_) : s.barrierFenced s.cur = true := by
  have hc : s.cur.barrierCycle = s.cur.seq.waitScyc := by simp [Task.barrierCycle, hw, Wait.cause]
  rw [State.barrierFenced, hc, State.portClearTo, List.all_eq_true]
  intro w hwp
  by_cases ht : w.tile = s.cur.bnd.tile
  · have : s.cur.seq.waitScyc + 1 ≤ w.at_ := hfence w hwp ht
    simp [this]
  · simp [ht]

/-- The barrier of a task alone in its launch: an round completed before is left, and another completes and is left (R366, R397). -/
theorem execBarrierRelease_alone {l : Launch} {n : Nat} (hb : s.cur.bound = true) (hp : s.parked = [])
    (hl : s.launch? s.cur.bnd.launch = some l) (hr : s.cur.seq.state = .running) (hw : s.cur.seq.waits = [.barrier 0#2 n])
    (hsaved : s.cur.seq.saved = none) (hbr : s.cur.seq.branch = none) (hres : s.cur.seq.resumed = false) (ha : s.cur.mark.armed = false)
    (hx : s.cur.eng.xbars 0#2 = n) (hfence : ∀ w ∈ s.mem.wport, w.tile = s.cur.bnd.tile → s.cur.seq.waitScyc < w.at_) :
    ∃ t, execBarrierRelease s.cur.bnd.launch 0#2 0 s = .next t ∧ t.cur.seq.waits = [] ∧ t.cur.seq.scyc = s.cur.seq.scyc + 1 ∧
      (t.launch? s.cur.bnd.launch).map (fun x => (x.phaseCnt, x.bars)) =
        some (if l.bars < n then (l.phaseCnt + 1, n) else (l.phaseCnt, l.bars)) := by
  have hwait := barrierWait_only hw
  have hfenced := barrierFenced_later hw hfence
  have hdone : s.barrierDone 0#2 n s.cur = decide (n ≤ l.bars) := by simp [State.barrierDone, hl, Launch.completed]
  rw [execBarrierRelease_eq, members_alone hp]
  by_cases hn : l.bars < n
  · have hopen : ∀ t ∈ [s.cur], ∀ k, barrierWait 0#2 t = some k → s.barrierDone 0#2 k t = false := by
      simp only [List.mem_singleton, forall_eq, hwait, Option.some.injEq]
      rintro k rfl
      simp [hdone, hn]
    have hinst : s.openInstances 0#2 [s.cur] = [n] := by rw [openInstances_none_done hopen]; simp [hwait]
    have harr : s.arrived 0#2 n s.cur = true := by simp [State.arrived, hx, hfenced]
    let u := s.modLaunch s.cur.bnd.launch fun l => l.complete 0#2 0 n
    have hrel : Released u (u.leaveBarrier 0#2 n s.cur.bnd.tile) := leaveBarrier_released hb hr hw hsaved hbr hres ha
    have hall : completeOpen s.cur.bnd.launch 0#2 0 s = u.leaveBarrier 0#2 n s.cur.bnd.tile := by
      simp [completeOpen, members_alone hp, hinst, harr, hr, u]
    rw [foldl_leaveDone_open hopen, hall]
    refine ⟨_, rfl, hrel.waits, hrel.scyc, (hrel.count _).trans ?_⟩
    have hu : u.launch? s.cur.bnd.launch = some (l.complete 0#2 0 n) := by
      rw [Launching.launch?_modLaunch _ _ (fun l => l.complete 0#2 0 n) fun _ => rfl, hl]; rfl
    simp [hu, Launch.complete, hn]
  · have hrel := leaveBarrier_released (n := n) hb hr hw hsaved hbr hres ha
    have hleave : leaveDone 0#2 s s.cur = s.leaveBarrier 0#2 n s.cur.bnd.tile := by
      simp [leaveDone, hwait, hdone, Nat.not_lt.1 hn, hfenced, hr]
    generalize hv : s.leaveBarrier 0#2 n s.cur.bnd.tile = v at hrel hleave
    have hnone : completeOpen s.cur.bnd.launch 0#2 0 v = v := by
      rw [← hrel.bnd]
      simp [completeOpen, members_alone (hrel.parked.trans hp), State.openInstances, barrierWait_none hrel.waits hrel.saved]
    rw [List.foldl_cons, List.foldl_nil, hleave, hnone]
    refine ⟨_, rfl, hrel.waits, hrel.scyc, (hrel.count _).trans ?_⟩
    simp [hl, hn]

end Sys2Proof.TaskTurns

open Sys2Proof Sys2Proof.Machine Sys2Proof.Laws Sys2Proof.Landings Sys2Proof.TaskTurns in
/-- Settles O40: each event of a running task, by the function that carries it out. -/
theorem taskEvents : Obligations.TaskEvents := by
  intro s
  dsimp only
  refine ⟨fun ⟨hb, hr, hp, hw⟩ hf hn h0 h1 hs hfree => ?turn, fun l r v hfly hd hdue hrun => ?landing, fun hfly => ?quiet, ?wakes,
    fun w rest hb hw hq ht hk hd hr => ?home, fun launch group line n rest hopen hwait hmin hmissing => ?incomplete,
    fun l n hb hp hl hr hw hsaved hbr hres ha hx hfence => ?release, fun p hb hr hw hp hre hlock hturn => ?fault, fun k hk => ?later⟩
  case turn => exact congrArg Host.Outcome.next (taskCycle_issues hb hr hp hw hf hn h0 h1 hs hfree)
  case landing =>
    refine ⟨_, rfl, ?_⟩
    obtain ⟨c, hc⟩ := deliverFlags_eq (({ s.cur with seq := { s.cur.seq with inflight := [] } } : Task).deliver l.dest) l
    rw [landDue_single (rest := []) hfly (by simp) hdue hrun (by simp [hd]), hc, hd, deliver_sreg, setS_frame]
    refine ⟨rfl, fun x => ?_, rfl, rfl⟩
    change (s.cur.reg.setS r v).sreg x = _
    rw [sreg_setS]
    grind [State.sreg]
  case quiet => exact congrArg Host.Outcome.next (landDue_none hfly)
  case wakes =>
    have local' : ∀ (f : Nat → State → Out) (kind : Wait → Bool), (∀ k t, f k t = .next (t.onTask k fun t => t.retryIf kind)) →
        (∀ k s1, s.focus k = some s1 → f k s = f k s1) ∧ (∀ k, s.focus k = none → ¬ False → f k s = .next s) ∧
        ∀ w : Wait, s.cur.bound = true → s.cur.seq.state = .running → s.cur.seq.waits = [w] → s.cur.seq.lastFault = none → kind w = true →
          (s.tryWait w = none → s.mem.locked = [] → ¬ False → f s.cur.bnd.tile s = .next s) ∧
          (∀ t, s.tryWait w = some t → t.cur.seq.waits = [w] → t.cur.seq.lastFault = none → t.cur.seq.state = .running →
            t.cur.mark.armed = false → f s.cur.bnd.tile s = .next ((t.modSeq fun q => { q with waits := [] }).afterStall.modSeq
              fun q => { q with freeAt := t.clk.tick + 1 })) := by
      intro f kind hf
      refine ⟨fun k s1 h => ?_, fun k h _ => ?_, fun w hb hr hw hl hk => ⟨fun ht hm _ => ?_, fun t ht tw tl tr ta => ?_⟩⟩
      · rw [hf, hf, onTask_focus h]
      · rw [hf, onTask_none h]
      · rw [hf, Launching.onTask_cur hb, retryIf_waiting hw hl hk ht hm]
      · rw [hf, Launching.onTask_cur hb, retryIf_over hr hw hl hk ht tw tl tr ta]
    refine ⟨?_, local' _ _ fun _ _ => rfl, local' _ _ fun _ _ => rfl, local' _ _ fun _ _ => rfl, local' _ _ fun _ _ => rfl⟩
    refine ⟨fun k s1 h => ?_, fun k h hn => ?_, fun w hb hr hw hl hk => ⟨fun ht hm hn => ?_, fun t ht tw tl tr ta => ?_⟩⟩
    · change execGlobalAccessPerformed k s = execGlobalAccessPerformed k s1
      obtain ⟨hb, rfl⟩ := focus_cur h
      simp only [execGlobalAccessPerformed, taskOn_isNone, h, focus_front hb, Option.isNone_some, Bool.false_eq_true, if_false, onTask_focus h]
    · change execGlobalAccessPerformed k s = _
      simp [execGlobalAccessPerformed, taskOn_isNone, h, drainOne_none hn]
    · refine (execGlobalAccessPerformed_bound hb).trans ?_
      simp [hw, ht, drainOne_none hn]
    · refine (execGlobalAccessPerformed_bound hb).trans ?_
      have hf : s.frozenNow = true := by simp [State.frozenNow, hr, hw]
      rw [if_pos (by simp [hf, hw, hk, ht]), retryIf_over hr hw hl hk ht tw tl tr ta]
  case home =>
    have hf : s.frozenNow = false := by simp [State.frozenNow, hw]
    have he := execGlobalAccessPerformed_bound hb
    rw [hf, ← ht, Bool.false_and, if_neg Bool.false_ne_true, drainOne_home hq hk hd hr] at he
    rw [← ht]
    exact ⟨_, he, rfl, rfl, rfl⟩
  case incomplete =>
    change execBarrierRelease launch group line s = _
    rw [execBarrierRelease_eq, foldl_leaveDone_open hopen, completeOpen_missing ((openInstances_none_done hopen).trans hwait) hmin hmissing]
  case release =>
    exact execBarrierRelease_alone hb hp hl hr hw hsaved hbr hres ha hx hfence
  case fault =>
    change execEngineFaultAfterIssue s.cur.bnd.tile s = _
    rw [execEngineFaultAfterIssue]
    have htakes : s.cur.seq.takesPending = true := by simp [Machine.Seq.takesPending, hp, hr]
    rw [if_neg (by simpa using hturn), Launching.onTask_cur hb, if_pos htakes]
    simp [State.takePending, hp, hre, endLock_none _ hlock, hw]
  case later =>
    change Host.Outcome.next _ = _
    simp [hk]

end

section
/-! SUPPORT. One step of a bundle whose only instruction stands in slot C (R101, R106, R107). -/

namespace Sys2Proof.OneSyllable
open Sys2Proof Sys2Proof.Machine Sys2Proof.Laws

variable {s t : State} {c : Instr}

theorem syllableOf_slotC (x : W32) : syllableOf (bundleWith .c x) .c = x := by simp [syllableOf, bundleWith]

theorem syllableOf_other (x : W32) {sl : Slot} (h : sl ≠ .c) : syllableOf (bundleWith .c x) sl = 0#32 := by
  cases sl with
  | c => exact absurd rfl h
  | a => simp [syllableOf, bundleWith]
  | b => simp [syllableOf, bundleWith]
  | e => simp [syllableOf, bundleWith]

theorem isTransfer_mul (o : CrForm) : isTransfer (encodeWord (.mul o)) = false := by
  have hop : (encodeWord (.mul o)).extractLsb' 25 7 = 0x03#7 := by
    change (0x03#7 ++ (o.bits : BitVec 25)).extractLsb' 25 7 = _
    exact BitVec.extractLsb'_append_eq_left
  rw [isTransfer, hop]
  decide

/-- A bundle of one slot-C word decodes to it and to three no-operations. -/
theorem decodeBundle_slotC (h : WellFormed c = true) (hk : kindOf c = .slot .c) :
    decodeBundle (bundleWith .c (encodeWord c)) = .ok (c, .nopA, .nopB, .nopE) := by
  have ha : decodeSlot .a 0#32 = .ok .nopA := rfl
  have hb : decodeSlot .b 0#32 = .ok .nopB := rfl
  have he : decodeSlot .e 0#32 = .ok .nopE := rfl
  simp only [decodeBundle, syllableOf_slotC, syllableOf_other _ (show Slot.a ≠ .c by decide), syllableOf_other _ (show Slot.b ≠ .c by decide),
    syllableOf_other _ (show Slot.e ≠ .c by decide), RoundTrip.decodeSlot_encodeWord h hk, ha, hb, he]

/-- A syllable that takes effect without a fault has no place among a bundle's faults. -/
theorem trial_none (ht : isTrap c = false) (h : syllable c s = .next t) (hl : t.cur.seq.lastFault = none) (hr : t.cur.seq.state = .running)
    (hb : t.cur.seq.blocked = false) : s.trial c = none := by
  simp [State.trial, ht, h, outState, hl, Seq.notIssued, hr, hb]

/-- So with no-operations in the other slots none of the bundle's slots faults. -/
theorem firstFault_slotC (hl : s.cur.seq.lastFault = none) (hr : s.cur.seq.state = .running) (hb : s.cur.seq.blocked = false)
    (hc : s.trial c = none) : s.firstFault c .nopA .nopB .nopE = none := by
  simp only [State.firstFault, hc, trial_none (c := .nopA) rfl rfl hl hr hb, trial_none (c := .nopB) rfl rfl hl hr hb,
    trial_none (c := .nopE) rfl rfl hl hr hb]

/-- The effects of such a bundle are those of its slot C. -/
theorem effects_slotC (h : syllable c s = .next t) (hs : s.cur.seq.lastFault = none) (hl : t.cur.seq.lastFault = none)
    (hw : t.cur.seq.waits = []) : s.effects (slotOrder c .nopA .nopB .nopE) = t := by
  have hnop : ∀ i, syllable i t = .next t → (outState t (syllable i t)).endRows = t := fun i hi => by rw [hi]; exact endRows_idle t hw
  have hc : (outState s (syllable c s)).endRows = t := by rw [h]; exact endRows_idle t hw
  simp only [State.effects, slotOrder, readsAtIssue, List.foldl_cons, List.foldl_nil, hs, hl, hc, hnop .nopA rfl, hnop .nopB rfl,
    hnop .nopE rfl, Option.isSome_none, Bool.false_eq_true, if_false]

/-- No event is counted where no counter selects one. -/
theorem countIssue_none (h : s.obs.counters = []) (a e : Instr) : s.countIssue a e = s := by
  simp [State.countIssue, State.countTile, h]

/-- The issue of a bundle of one slot-C instruction that neither faults nor waits. -/
theorem issueSlots_slotC (hlock : s.cur.seq.lockFrom = none) (hcount : s.obs.counters = []) (ht : isTrap c = false)
    (hl : s.cur.seq.lastFault = none) (hr : s.cur.seq.state = .running) (hb : s.cur.seq.blocked = false) (hc : s.trial c = none)
    (h : syllable c s.noteIssue = .next t) (tl : t.cur.seq.lastFault = none) (tw : t.cur.seq.waits = []) :
    s.issueSlots c .nopA .nopB .nopE = (t.modSeq fun q => { q with lastPc := s.cur.seq.pc }).advance := by
  have heff : s.noteIssue.effects (slotOrder c .nopA .nopB .nopE) = t := effects_slotC h hl tl tw
  have hcnt : s.noteIssue.countIssue .nopA .nopE = s.noteIssue := countIssue_none (s := s.noteIssue) hcount _ _
  simp [State.issueSlots, firstFault_slotC hl hr hb hc, endLock_none s hlock, hcnt, ht, heff, tl, State.finishBundle, tw]

end Sys2Proof.OneSyllable

open Sys2Proof Sys2Proof.Machine Sys2Proof.Laws Sys2Proof.Landings Sys2Proof.TaskTurns Sys2Proof.OneSyllable in
/-- Settles O54: the product is pushed in the issue cycle and does not land in the next. -/
theorem stepOfOneMultiply : Obligations.StepOfOneMultiply := by
  intro s rest o
  dsimp only
  intro hag hturn hb hr hw hfly hp hpf hn hdbg hsteps hlock hcount hbr hrep hstore hnbund hpc hfree hd hg
  let u : State := { s with clk := { s.clk with turn := rest } }
  let w := bundleWith .c (encodeWord (.mul o))
  let v : State := u.modSeq fun q => { q with lastFault := none, blocked := false, flush := w.getLsbD 0 }
  let t : State := v.noteIssue.land 0 3 (.sreg o.d (s.sreg o.a * s.sreg o.b))
  have hmul : syllable (.mul o) v.noteIssue = .next t := by
    change Host.Outcome.next (v.noteIssue.crResult o 3 (· * ·)) = _
    rw [State.crResult, if_pos (show v.noteIssue.guard o.q o.n = true from hg)]
    rfl
  have htrial : v.trial (.mul o) = none := by
    refine trial_none (t := v.land 0 3 (.sreg o.d (s.sreg o.a * s.sreg o.b))) rfl ?_ rfl hr rfl
    change Host.Outcome.next (v.crResult o 3 (· * ·)) = _
    rw [State.crResult, if_pos (show v.guard o.q o.n = true from hg)]
    rfl
  have hissue : u.issueBundle = (t.modSeq fun q => { q with lastPc := s.cur.seq.pc }).advance := by
    have hnext : (u.modSeq fun q => { q with lastFault := none, blocked := false }).cur.nextBundle = some w := by
      simp [Task.nextBundle, State.modSeq, u, hpc, hnbund, hstore, hrep, w]
    have htr : isTransfer (syllableOf w .c) = false := by rw [syllableOf_slotC]; exact isTransfer_mul o
    rw [State.issueBundle]
    simp only [hnext, htr, Bool.false_and, Bool.false_eq_true, if_false, w, decodeBundle_slotC (c := .mul o) rfl rfl]
    exact issueSlots_slotC (s := v) hlock hcount rfl rfl hr rfl htrial hmul rfl hw
  have hadv : u.issueBundle = (t.modSeq fun q => { q with lastPc := s.cur.seq.pc }).modSeq fun q => { q with pc := q.pc + 1, scyc := q.scyc + 1 } := by
    rw [hissue]
    refine advance_quiet hbr hrep fun l hl => ?_
    have hl' : l ∈ s.cur.seq.inflight ++ [{ at_ := s.cur.seq.scyc, due := s.cur.seq.scyc + 3, slot := 0, dest := .sreg o.d (s.sreg o.a * s.sreg o.b) }] := hl
    rw [hfly] at hl'
    simp only [List.nil_append, List.mem_singleton] at hl'
    subst hl'
    change s.cur.seq.scyc + 1 < s.cur.seq.scyc + 3
    omega
  have hstep : step s = .next u.issueBundle := by
    have h0 : (u.dbg u.cur.bnd.tile).bkp0.getLsbD 63 = false := by
      rw [show u.dbg u.cur.bnd.tile = .reset from hdbg]; rfl
    have h1 : (u.dbg u.cur.bnd.tile).bkp1.getLsbD 63 = false := by
      rw [show u.dbg u.cur.bnd.tile = .reset from hdbg]; rfl
    have hent : u.entered u.issueBundle = false := by
      rw [hadv]
      change (!s.cur.seq.hnd && s.cur.seq.hnd && _) = false
      simp
    have hon : u.onTask s.cur.bnd.tile State.taskCycle = u.taskCycle := Launching.onTask_cur (s := u) hb _
    have hstep : step s = .next (u.onTask s.cur.bnd.tile State.taskCycle) := by simp [step, hag, hturn, u]
    rw [hstep, hon, taskCycle_issues (s := u) hb hr hp hw hpf hn h0 h1 hsteps hfree, hent]
    rfl
  refine ⟨_, hstep, ?_⟩
  rw [hadv]
  refine ⟨congrArg (· + 1) hpc, rfl, fun _ => rfl, fun _ => rfl, ?_, rfl, rfl, rfl⟩
  change s.cur.seq.inflight ++ _ = _
  rw [hfly]
  rfl

end

section
/-! SUPPORT. Vector and mask registers within the bounds of R190 to R192: runs, results, and the parts of a state that hold them. -/

namespace Sys2Proof.Safety
open Sys2Proof Sys2Proof.Machine Sys2Proof.Laws

/-! ### Run lists -/

section
variable {α β : Type}

/-- No two neighbouring runs of one value (R191). -/
def Distinct (r : Machine.Runs α) : Prop := r.IsChain fun p q => p.1 ≠ q.1

/-- Runs that may land: each covers an element, they cover 4,096 elements at most, and no neighbours are equal. A register takes the first
32 of them. -/
def RunsFit (r : Machine.Runs α) : Prop := Positive r ∧ runLen r ≤ 4096 ∧ Distinct r

theorem isChain_iff_neighbours (r : Machine.Runs α) : Distinct r ↔ ∀ j, ∀ a ∈ r[j]?, ∀ b ∈ r[j + 1]?, a.1 ≠ b.1 := by
  induction r with
  | nil => simp [Distinct]
  | cons p r ih =>
    cases r with
    | nil => simp [Distinct]
    | cons q r =>
      rw [Distinct, List.isChain_cons_cons]
      rw [Distinct] at ih
      rw [ih]
      constructor
      · rintro ⟨h, hr⟩ j
        cases j with
        | zero => simpa using h
        | succ j => simpa using hr j
      · exact fun h => ⟨by simpa using h 0, fun j => by simpa using h (j + 1)⟩

theorem registerRuns_iff {r : Machine.Runs α} : RegisterRuns r ↔ RunsFit r ∧ r.length ≤ 32 := by
  rw [RegisterRuns, RunsFit, isChain_iff_neighbours]
  tauto

theorem runLen_append (r t : Machine.Runs α) : runLen (r ++ t) = runLen r + runLen t := by
  rw [← length_flat, flat_append, List.length_append, length_flat, length_flat]

theorem RunsFit.nil : RunsFit ([] : Machine.Runs α) := ⟨by simp [Positive], by simp [runLen], by simp [Distinct]⟩

theorem RegisterRuns.nil : RegisterRuns ([] : Machine.Runs α) := registerRuns_iff.2 ⟨.nil, by simp⟩

theorem RegisterRuns.fit {r : Machine.Runs α} (h : RegisterRuns r) : RunsFit r := (registerRuns_iff.1 h).1
theorem RegisterRuns.positive {r : Machine.Runs α} (h : RegisterRuns r) : Positive r := h.1
theorem RegisterRuns.len {r : Machine.Runs α} (h : RegisterRuns r) : runLen r ≤ 4096 := h.fit.2.1

/-- The first 32 runs fill a register. -/
theorem RunsFit.take {r : Machine.Runs α} (h : RunsFit r) : RegisterRuns (r.take 32) := by
  obtain ⟨hp, hl, hd⟩ := h
  refine registerRuns_iff.2 ⟨⟨fun p h => hp p (List.mem_of_mem_take h), ?_, hd.take 32⟩, by simp⟩
  have hsplit := runLen_append (r.take 32) (r.drop 32)
  rw [List.take_append_drop] at hsplit
  omega

/-! ### Runs that a function of the model makes -/

theorem Positive.nil : Positive ([] : Machine.Runs α) := by simp [Positive]

theorem Positive.cons {p : α × Nat} {r : Machine.Runs α} (hp : 1 ≤ p.2) (h : Positive r) : Positive (p :: r) :=
  List.forall_mem_cons.2 ⟨hp, h⟩

theorem Positive.append {r t : Machine.Runs α} (h : Positive r) (k : Positive t) : Positive (r ++ t) :=
  List.forall_mem_append.2 ⟨h, k⟩

theorem Positive.canon [DecidableEq α] {r : Machine.Runs α} (h : Positive r) : Positive (canon r) := by
  induction r with
  | nil => exact .nil
  | cons p r ih =>
    obtain ⟨v, c⟩ := p
    obtain ⟨hc, hr⟩ := List.forall_mem_cons.1 h
    have hr := ih hr
    simp only [Machine.canon]
    cases hcan : Machine.canon r with
    | nil => exact .cons hc .nil
    | cons q t =>
      obtain ⟨w, e⟩ := q
      rw [hcan] at hr
      obtain ⟨he, ht⟩ := List.forall_mem_cons.1 hr
      dsimp only
      split
      · exact .cons (Nat.le_add_right_of_le hc) ht
      · exact .cons hc (.cons he ht)

theorem runLen_canon [DecidableEq α] (r : Machine.Runs α) : runLen (canon r) = runLen r := by
  rw [← length_flat, flat_canon, length_flat]

theorem RunsFit.canon [DecidableEq α] {r : Machine.Runs α} (h : Positive r) (hl : runLen r ≤ 4096) : RunsFit (canon r) :=
  ⟨h.canon, (runLen_canon r).trans_le hl, canon_neighbours r⟩

theorem Positive.mapRuns {f : α → β} {r : Machine.Runs α} (h : Positive r) : Positive (mapRuns f r) := by
  unfold Machine.mapRuns
  exact List.forall_mem_map.2 fun p hp => h p hp

theorem runLen_mapRuns (f : α → β) (r : Machine.Runs α) : runLen (mapRuns f r) = runLen r := by
  rw [← length_flat, flat_mapRuns, List.length_map, length_flat]

theorem Positive.fitLen {d : α} {n : Nat} {r : Machine.Runs α} (h : Positive r) : Positive (fitLen d n r) := by
  induction r generalizing n with
  | nil => cases n <;> simp [Machine.fitLen, Positive]
  | cons p r ih =>
    obtain ⟨v, c⟩ := p
    obtain ⟨hc, hr⟩ := List.forall_mem_cons.1 h
    cases n with
    | zero => simp [Machine.fitLen, Positive]
    | succ n =>
      simp only [Machine.fitLen]
      split
      · exact .cons (Nat.le_add_left 1 n) .nil
      · exact .cons hc (ih hr)

theorem Positive.zipRuns {n : Nat} {x : Machine.Runs α} {y : Machine.Runs β} (hx : Positive x) (hy : Positive y) : Positive (zipRuns n x y) := by
  induction n generalizing x y with
  | zero => exact .nil
  | succ n ih =>
    match x, y with
    | [], _ => exact .nil
    | _ :: _, [] => exact .nil
    | (a, c) :: x, (b, e) :: y =>
      obtain ⟨hc, hx⟩ := List.forall_mem_cons.1 hx
      obtain ⟨he, hy⟩ := List.forall_mem_cons.1 hy
      simp only [Machine.zipRuns]
      split
      · exact .cons hc (ih hx (.cons (Nat.le_sub_of_add_le (by omega)) hy))
      · split
        · exact .cons he (ih (.cons (Nat.le_sub_of_add_le (by omega)) hx) hy)
        · exact .cons hc (ih hx hy)

theorem Positive.zipR {x : Machine.Runs α} {y : Machine.Runs β} (hx : Positive x) (hy : Positive y) : Positive (zipR x y) := hx.zipRuns hy

theorem runLen_zipR (x : Machine.Runs α) (y : Machine.Runs β) : runLen (zipR x y) = min (runLen x) (runLen y) := by
  rw [← length_flat, flat_zipR, List.length_zip, length_flat, length_flat]

theorem Positive.takeLen {n : Nat} {r : Machine.Runs α} (h : Positive r) : Positive (takeLen n r) := by
  induction r generalizing n with
  | nil => exact .nil
  | cons p r ih =>
    obtain ⟨v, c⟩ := p
    obtain ⟨hc, hr⟩ := List.forall_mem_cons.1 h
    simp only [Machine.takeLen]
    split
    · exact .nil
    · split
      · exact .cons (by omega) .nil
      · exact .cons hc (ih hr)

theorem Positive.dropLen {n : Nat} {r : Machine.Runs α} (h : Positive r) : Positive (dropLen n r) := by
  induction r generalizing n with
  | nil => exact .nil
  | cons p r ih =>
    obtain ⟨v, c⟩ := p
    obtain ⟨hc, hr⟩ := List.forall_mem_cons.1 h
    simp only [Machine.dropLen]
    split
    · exact h
    · split
      · exact .cons (by omega) hr
      · exact ih hr

theorem runLen_takeLen (n : Nat) (r : Machine.Runs α) : runLen (takeLen n r) = min n (runLen r) := by
  rw [← length_flat, flat_takeLen, List.length_take, length_flat]

theorem runLen_dropLen (n : Nat) (r : Machine.Runs α) : runLen (dropLen n r) = runLen r - n := by
  rw [← length_flat, flat_dropLen, List.length_drop, length_flat]

theorem Positive.units {l : List α} : Positive (units l) := by
  intro p hp
  obtain ⟨v, -, rfl⟩ := List.mem_map.1 hp
  exact Nat.le_refl 1

theorem runLen_units (l : List α) : runLen (units l) = l.length := by rw [← length_flat, flat_units]

/-- The pieces of a result whose values may land. -/
def PiecesFit (l : List (Piece α)) : Prop := RunsFit (Machine.pieceRuns l)

theorem PiecesFit.canonF [DecidableEq α] {l : List (Piece α)} (h : Positive (Machine.pieceRuns l)) (hl : runLen (Machine.pieceRuns l) ≤ 4096) :
    PiecesFit (canonF l) := by
  have e : Machine.pieceRuns (Machine.canonF l) = Machine.canon (Machine.pieceRuns l) := pieceRuns_canonF l
  rw [PiecesFit, e]
  exact .canon h hl

end

/-! ### Results, tasks and launches -/

/-- A value for this destination is within its bounds. -/
def DestFits : Dest → Prop
  | .vreg _ vals => ∀ p ∈ vals, RegisterRuns p.2
  | .kreg _ vals => ∀ p ∈ vals, RegisterRuns p.2
  | .ctl num _ v => num = 5#6 → LengthOk v
  | _ => True

theorem landingFits_iff (l : Landing) : LandingFits l ↔ DestFits l.dest := by
  unfold LandingFits DestFits
  cases l.dest <;> rfl

/-- What a sequencer has in flight, waits for and has put aside fits. -/
def SeqFits (q : Machine.Seq) : Prop :=
  (∀ l ∈ q.inflight, LandingFits l) ∧ (∀ w ∈ q.waits, WaitFits w) ∧ ∀ r ∈ q.saved, (∀ l ∈ r.results, LandingFits l) ∧ ∀ w ∈ r.waits, WaitFits w

/-- The vector and mask registers of one cluster. -/
def ClusterFits (c : Cluster) : Prop := (∀ r, RegisterRuns (c.vreg r)) ∧ ∀ k, RegisterRuns (c.kreg k)

theorem TaskFits.cl {t : Task} (h : TaskFits t) : ∀ i : Fin 8, ClusterFits t.cl[i] := h.1
theorem TaskFits.vl {t : Task} (h : TaskFits t) : LengthOk t.reg.vl := h.2.1
theorem TaskFits.seq {t : Task} (h : TaskFits t) : SeqFits t.seq := h.2.2
theorem TaskFits.mk {t : Task} (hc : ∀ i : Fin 8, ClusterFits t.cl[i]) (hv : LengthOk t.reg.vl) (hs : SeqFits t.seq) : TaskFits t := ⟨hc, hv, hs⟩

/-- The contexts that a launch keeps fit. -/
def LaunchFits (l : Launch) : Prop := ∀ t ∈ l.contexts, TaskFits t

/-- The contexts that the launches and the doorbells keep fit. -/
def SchedFits (x : Sched) : Prop := (∀ l ∈ x.launches, LaunchFits l) ∧ ∀ d ∈ x.doorbells, ∀ l ∈ d.2.held, LaunchFits l

/-- `RegistersFit`, said of each part of the state, so that an update of another part leaves it as it stands. -/
def Fits (s : State) : Prop := TaskFits s.cur ∧ (∀ t ∈ s.parked, TaskFits t) ∧ SchedFits s.sched

theorem registersFit_iff_fits (s : State) : RegistersFit s ↔ Fits s := by
  simp only [RegistersFit, Fits, SchedFits, LaunchFits, State.tasks, List.forall_mem_cons, and_assoc]

theorem Fits.cur {s : State} (h : Fits s) : TaskFits s.cur := h.1
theorem Fits.parked {s : State} (h : Fits s) : ∀ t ∈ s.parked, TaskFits t := h.2.1
theorem Fits.sched {s : State} (h : Fits s) : SchedFits s.sched := h.2.2

/-! ### One part exchanged -/

variable {s t : State}

theorem Fits.setMem {m : Mem} (h : Fits s) : Fits { s with mem := m } := h
theorem Fits.setMgmt {m : Mgmt} (h : Fits s) : Fits { s with mgmt := m } := h
theorem Fits.setCur {u : Task} (h : Fits s) (hu : TaskFits u) : Fits { s with cur := u } := ⟨hu, h.2⟩
theorem Fits.setParked {p : List Task} (h : Fits s) (hp : ∀ t ∈ p, TaskFits t) : Fits { s with parked := p } := ⟨h.cur, hp, h.sched⟩
theorem Fits.setSched {x : Sched} (h : Fits s) (hx : SchedFits x) : Fits { s with sched := x } := ⟨h.cur, h.parked, hx⟩
theorem Fits.setClk {c : Clock} (h : Fits s) : Fits { s with clk := c } := h
theorem Fits.setEnv {e : Env} (h : Fits s) : Fits { s with env := e } := h
theorem Fits.setNet {n : Net} (h : Fits s) : Fits { s with net := n } := h
theorem Fits.setObs {o : Obs} (h : Fits s) : Fits { s with obs := o } := h

theorem TaskFits.setEng {t : Task} {e : Engines} (h : TaskFits t) : TaskFits { t with eng := e } := h

/-! ### Answers that carry a state -/

section
variable {α β ε : Type} {a : α} {b : β}

theorem Fits.snd {p : α × State} (h : Fits p.2) (e : p = (a, t)) : Fits t := by subst e; exact h
theorem Fits.trd {p : α × β × State} (h : Fits p.2.2) (e : p = (a, b, t)) : Fits t := by subst e; exact h

/-- The state that an answer holds, where it holds one, fits. -/
def OkFits : Except ε State → Prop
  | .ok s => Fits s
  | .error _ => True

def SomeFits : Option State → Prop
  | some s => Fits s
  | none => True

def OutFits : Out → Prop
  | .next s => Fits s
  | _ => True

theorem OkFits.ok {r : Except ε State} (h : OkFits r) (e : r = .ok t) : Fits t := by subst e; exact h
theorem SomeFits.some {o : Option State} (h : SomeFits o) (e : o = .some t) : Fits t := by subst e; exact h
theorem OutFits.next {o : Out} (h : OutFits o) (e : o = .next t) : Fits t := by subst e; exact h

/-- A change made for each element of a list. -/
theorem Fits.foldl {f : State → α → State} {l : List α} (h : Fits s) (hf : ∀ s x, Fits s → Fits (f s x)) : Fits (l.foldl f s) :=
  List.foldlRecOn l f h fun s hs x _ => hf s x hs

/-- The same where the change needs to know that the element is one of the list. -/
theorem Fits.foldl_mem {f : State → α → State} {l : List α} (h : Fits s) (hf : ∀ s, ∀ x ∈ l, Fits s → Fits (f s x)) :
    Fits (l.foldl f s) :=
  List.foldlRecOn l f h fun s hs x hx => hf s x hx hs

end

theorem TaskFits.foldl {α : Type} {u : Task} {f : Task → α → Task} {l : List α} (h : TaskFits u)
    (hf : ∀ t x, TaskFits t → TaskFits (f t x)) : TaskFits (l.foldl f u) :=
  List.foldlRecOn l f h fun t ht x _ => hf t x ht

theorem TaskFits.foldl_mem {α : Type} {u : Task} {f : Task → α → Task} {l : List α} (h : TaskFits u)
    (hf : ∀ t, ∀ x ∈ l, TaskFits t → TaskFits (f t x)) : TaskFits (l.foldl f u) :=
  List.foldlRecOn l f h fun t ht x hx => hf t x hx ht

/-! ### Named updates -/

theorem Fits.mapTasks {f : Task → Task} (h : Fits s) (hf : ∀ t, TaskFits t → TaskFits (f t)) : Fits (s.mapTasks f) :=
  (h.setCur (hf _ h.cur)).setParked (List.forall_mem_map.2 fun t ht => hf t (h.parked t ht))

theorem Fits.onTile {tile : Nat} {f : Task → Task} (h : Fits s) (hf : ∀ t, TaskFits t → TaskFits (f t)) :
    Fits (s.onTile tile f) :=
  h.mapTasks fun t ht => by
    split
    · exact hf t ht
    · exact ht

theorem Fits.setLaunches {ls : List Launch} (h : Fits s) (hl : ∀ l ∈ ls, LaunchFits l) :
    Fits { s with sched := { s.sched with launches := ls } } :=
  h.setSched ⟨hl, h.sched.2⟩

theorem Fits.modLaunch {id : Nat} {f : Launch → Launch} (h : Fits s) (hf : ∀ l, LaunchFits l → LaunchFits (f l)) :
    Fits (s.modLaunch id f) :=
  h.setLaunches <| List.forall_mem_map.2 fun l hl => by
    split
    · exact hf l (h.sched.1 l hl)
    · exact h.sched.1 l hl

theorem Fits.launch? {id : Nat} {l : Launch} (h : Fits s) (e : s.launch? id = some l) : LaunchFits l :=
  h.sched.1 l (List.mem_of_find?_eq_some e)

theorem SeqFits.idle {q : Machine.Seq} (hl : q.inflight = []) (hw : q.waits = []) (hs : q.saved = none) : SeqFits q := by
  simp [SeqFits, hl, hw, hs]

theorem ClusterFits.reset : ClusterFits .reset :=
  ⟨fun r => by simp [Cluster.reset, Cluster.vreg, vat, RegisterRuns.nil], fun r => by simp [Cluster.reset, Cluster.kreg, vat, RegisterRuns.nil]⟩

theorem LengthOk.reset : LengthOk Regs.reset.vl := ⟨by decide, by decide⟩

theorem TaskFits.blank : TaskFits .blank :=
  .mk (fun i => by simpa [Task.blank] using ClusterFits.reset) LengthOk.reset (.idle rfl rfl rfl)

/-! ### One part of a launch exchanged -/

variable {l : Launch}

theorem LaunchFits.empty (hc : l.contexts = []) : LaunchFits l := fun t h => by simp [hc] at h

theorem LaunchFits.mapContexts {f : Task → Task} (h : LaunchFits l) (hf : ∀ t, TaskFits t → TaskFits (f t)) :
    LaunchFits { l with contexts := l.contexts.map f } :=
  List.forall_mem_map.2 fun t ht => hf t (h t ht)

/-! ### Choices by a condition -/

variable {c : Prop} [Decidable c]

theorem Fits.ite (hs : Fits s) (ht : Fits t) : Fits (if c then s else t) := by
  split
  · exact hs
  · exact ht

theorem Fits.ite_snd {α : Type} {p q : α × State} (hp : Fits p.2) (hq : Fits q.2) : Fits (if c then p else q).2 := by
  split
  · exact hp
  · exact hq

theorem TaskFits.ite {t u : Task} (ht : TaskFits t) (hu : TaskFits u) : TaskFits (if c then t else u) := by
  split
  · exact ht
  · exact hu

end Sys2Proof.Safety
end

section
/-! SUPPORT. Shared operations: what Machine/Ops.lean does keeps every register within its bounds. -/

namespace Sys2Proof.Safety
open Sys2Proof Sys2Proof.Machine Sys2Proof.Laws
variable {s : State}

theorem Fits.modSeq {f : Machine.Seq → Machine.Seq} (h : Fits s) (hf : SeqFits s.cur.seq → SeqFits (f s.cur.seq)) :
    Fits (s.modSeq f) := h.setCur ⟨h.cur.cl, h.cur.vl, hf h.cur.seq⟩

theorem Fits.modReg {f : Regs → Regs} (h : Fits s) (hf : LengthOk s.cur.reg.vl → LengthOk (f s.cur.reg).vl) :
    Fits (s.modReg f) := h.setCur ⟨h.cur.cl, hf h.cur.vl, h.cur.seq⟩

theorem Fits.modEng {f : Engines → Engines} (h : Fits s) : Fits (s.modEng f) := h

theorem Fits.choose (h : Fits s) : Fits s.choose.2 := h

/-- A result on its way, whose value fits. -/
theorem SeqFits.push {q : Machine.Seq} {l : Landing} (h : SeqFits q) (hl : LandingFits l) :
    SeqFits { q with inflight := q.inflight ++ [l] } :=
  ⟨List.forall_mem_append.2 ⟨h.1, by simpa using hl⟩, h.2⟩

theorem SeqFits.setInflight {q : Machine.Seq} {ls : List Landing} (h : SeqFits q) (hl : ∀ l ∈ ls, LandingFits l) :
    SeqFits { q with inflight := ls } := ⟨hl, h.2⟩

theorem SeqFits.setWaits {q : Machine.Seq} {ws : List Wait} (h : SeqFits q) (hw : ∀ w ∈ ws, WaitFits w) :
    SeqFits { q with waits := ws } := ⟨h.1, hw, h.2.2⟩

theorem SeqFits.setSaved {q : Machine.Seq} {r : Option Record} (h : SeqFits q)
    (hr : ∀ x ∈ r, (∀ l ∈ x.results, LandingFits l) ∧ ∀ w ∈ x.waits, WaitFits w) : SeqFits { q with saved := r } := ⟨h.1, h.2.1, hr⟩

/-- A sequencer that keeps only what it has put aside. -/
theorem SeqFits.stop {q : Machine.Seq} (h : SeqFits q) : SeqFits { q with inflight := [], waits := [] } :=
  ⟨fun l hl => by simp at hl, fun w hw => by simp at hw, h.2.2⟩

theorem SeqFits.follow {q : Machine.Seq} (h : SeqFits q) : SeqFits q.follow := by
  unfold Machine.Seq.follow
  split
  · split <;> exact h
  · split
    · split
      · exact h
      · split <;> exact h
    · exact h

/-- What a freeze leaves unfinished fits. -/
theorem SeqFits.record {q : Machine.Seq} {tick : Nat} (h : SeqFits q) :
    (∀ l ∈ (q.record tick).results, LandingFits l) ∧ ∀ w ∈ (q.record tick).waits, WaitFits w :=
  ⟨List.forall_mem_map.2 fun l hl => h.1 l hl, h.2.1⟩

theorem SeqFits.reinject {q : Machine.Seq} {tick : Nat} {r : Record} {keep : Bool} (h : SeqFits q)
    (hr : (∀ l ∈ r.results, LandingFits l) ∧ ∀ w ∈ r.waits, WaitFits w) : SeqFits (q.reinject tick r keep) := by
  refine ⟨List.forall_mem_append.2 ⟨h.1, List.forall_mem_map.2 fun l hl => hr.1 l hl⟩, ?_, h.2.2⟩
  unfold Machine.Seq.reinject
  dsimp only
  split
  · exact hr.2
  · simp

theorem Fits.push {l : Landing} (h : Fits s) (hl : DestFits l.dest) : Fits (s.push l) :=
  h.modSeq fun hq => hq.push ((landingFits_iff l).2 hl)

theorem Fits.land {slot lat : Nat} {d : Dest} (h : Fits s) (hd : DestFits d) : Fits (s.land slot lat d) := h.push hd

/-! ### Registers of a cluster -/

theorem vat_vput {α : Type} {n k : Nat} {v : Vector α n} {i j : BitVec k} {x : α} {h : 2 ^ k = n} :
    vat (vput v i x h) j h = if i = j then x else vat v j h := by
  by_cases e : i = j
  · subst e
    simp [vat, vput]
  · have hn : i.toNat ≠ j.toNat := fun hn => e (BitVec.eq_of_toNat_eq hn)
    simp [vat, vput, e, hn]

theorem ClusterFits.setV {c : Cluster} {r : BitVec 5} {x : Machine.Runs W32} (h : ClusterFits c) (hx : RegisterRuns x) : ClusterFits (c.setV r x) := by
  refine ⟨fun j => ?_, h.2⟩
  rw [Cluster.vreg, Cluster.setV]
  change RegisterRuns (vat (vput c.v r x) j)
  rw [vat_vput]
  split
  · exact hx
  · exact h.1 j

theorem ClusterFits.setK {c : Cluster} {r : BitVec 3} {x : Machine.Runs Bool} (h : ClusterFits c) (hx : RegisterRuns x) : ClusterFits (c.setK r x) := by
  unfold Cluster.setK
  split
  · exact h
  · refine ⟨h.1, fun j => ?_⟩
    change RegisterRuns (vat (vput c.k r x) j)
    rw [vat_vput]
    split
    · exact hx
    · exact h.2 j

/-- A change of one cluster that leaves its registers within their bounds. -/
theorem TaskFits.modCl {t : Task} {i : Fin 8} {f : Cluster → Cluster} (h : TaskFits t)
    (hf : ∀ c, ClusterFits c → ClusterFits (f c)) : TaskFits (t.modCl i f) := by
  refine ⟨fun j => ?_, h.2⟩
  change ClusterFits ((t.cl.set i (f t.cl[i]))[j])
  by_cases e : i = j
  · subst e
    simpa using hf _ (h.cl i)
  · have hn : (i : Nat) ≠ j := fun hn => e (Fin.ext hn)
    simpa [Vector.getElem_set, hn] using h.cl j

theorem TaskFits.mapCl {t : Task} {f : Cluster → Cluster} (h : TaskFits t) (hf : ∀ c, ClusterFits c → ClusterFits (f c)) :
    TaskFits { t with cl := t.cl.map f } :=
  ⟨fun j => by
    change ClusterFits (t.cl.map f)[j]
    simpa using hf _ (h.cl j), h.2⟩

/-- The value that VL takes is checked before it is written (R98). -/
theorem LengthOk.of_ctlValueOk {v : W64} (h : ctlValueOk 5#6 v = true) : LengthOk v := by
  have hok : (decide (1 ≤ v.toNat) && decide (v.toNat ≤ 4096)) = true := h
  rwa [Bool.and_eq_true, decide_eq_true_eq, decide_eq_true_eq] at hok

theorem TaskFits.setCtl {t : Task} {num : BitVec 6} {sub : BitVec 4} {v : W64} (h : TaskFits t) (hv : num = 5#6 → LengthOk v) :
    TaskFits (t.setCtl num sub v) := by
  unfold Task.setCtl
  dsimp only
  split
  case h_1 e => exact ⟨h.cl, hv (BitVec.eq_of_toNat_eq e), h.seq⟩
  case h_5 =>
    split
    · exact h.mapCl fun _ hc => hc
    · split
      · exact h.modCl fun _ hc => hc
      · exact h
  all_goals exact h

theorem TaskFits.setEngine {t : Task} {e i : BitVec 5} {v : W64} (h : TaskFits t) : TaskFits (t.setEngine e i v) := by
  unfold Task.setEngine
  dsimp only
  split
  · exact h
  · split <;> exact h

theorem TaskFits.setS {t : Task} {r : BitVec 5} {v : W64} (h : TaskFits t) : TaskFits { t with reg := t.reg.setS r v } := by
  unfold Regs.setS
  split <;> exact h

theorem TaskFits.setC {t : Task} {r : BitVec 3} {v : Bool} (h : TaskFits t) : TaskFits { t with reg := t.reg.setC r v } := by
  unfold Regs.setC
  split <;> exact h

theorem TaskFits.deliver {t : Task} {d : Dest} (h : TaskFits t) (hd : DestFits d) : TaskFits (t.deliver d) := by
  cases d with
  | sreg => exact h.setS
  | creg => exact h.setC
  | nothing | smem => exact h
  | vreg r vals => exact h.foldl_mem fun _ p hp ht => ht.modCl fun _ hc => hc.setV (hd p hp)
  | kreg r vals => exact h.foldl_mem fun _ p hp ht => ht.modCl fun _ hc => hc.setK (hd p hp)
  | tileRow | tileClear | cursor => exact h.foldl fun _ _ ht => ht.modCl fun _ hc => hc
  | ctl => exact h.setCtl hd
  | engine => exact h.setEngine

theorem TaskFits.deliverFlags {t : Task} {l : Landing} (h : TaskFits t) : TaskFits (t.deliverFlags l) := by
  unfold Task.deliverFlags
  dsimp only
  refine TaskFits.foldl (h.foldl fun _ _ ht => ?_) fun _ _ ht => ?_
  all_goals exact ht.modCl fun _ hc => hc

theorem mem_insertBy {α : Type} {lt : α → α → Bool} {x a : α} {l : List α} (h : a ∈ insertBy lt x l) : a = x ∨ a ∈ l := by
  induction l with
  | nil => simpa [insertBy] using h
  | cons y l ih =>
    simp only [insertBy] at h
    split at h
    · simpa using h
    · rcases List.mem_cons.1 h with h | h
      · simp [h]
      · rcases ih h with h | h <;> simp [h]

/-- Sorting adds no element. -/
theorem mem_of_mem_sortBy {α : Type} {lt : α → α → Bool} {a : α} {l : List α} (h : a ∈ sortBy lt l) : a ∈ l := by
  have key : ∀ (l acc : List α), a ∈ l.foldl (fun acc x => insertBy lt x acc) acc → a ∈ acc ∨ a ∈ l := by
    intro l
    induction l with
    | nil => exact fun acc h => .inl h
    | cons x l ih =>
      intro acc h
      rcases ih _ h with h | h
      · rcases mem_insertBy h with h | h <;> simp [h]
      · simp [h]
  simpa using key l [] h

theorem TaskFits.landDue {t : Task} (h : TaskFits t) : TaskFits t.landDue := by
  unfold Task.landDue
  dsimp only
  have hrest : TaskFits { t with seq := { t.seq with inflight := t.seq.inflight.filter fun l => !(l.due ≤ t.seq.scyc) } } :=
    ⟨h.cl, h.vl, h.seq.setInflight fun l hl => h.seq.1 l (List.mem_of_mem_filter hl)⟩
  refine TaskFits.foldl (hrest.foldl_mem fun _ l hl ht => ht.deliver ?_) fun _ _ ht => ht.deliverFlags
  exact (landingFits_iff l).1 (h.seq.1 l (List.mem_of_mem_filter (mem_of_mem_sortBy hl)))

theorem Fits.landWdog (h : Fits s) : Fits s.landWdog := by
  unfold State.landWdog
  refine h.foldl (fun s1 x h1 => ?_)
  split
  · split
    · exact h1.modLaunch (fun l h2 => h2)
    · exact h1
  · exact h1

theorem Fits.setCore {c : Nat} {l : Logline} (h : Fits s) : Fits (s.setCore c l) := h

theorem Fits.setDbg {tile : Nat} {d : TileDbg} (h : Fits s) : Fits (s.setDbg tile d) := h

theorem Fits.enqueueCore {c : Nat} {r : TraceRec} (h : Fits s) : Fits (s.enqueueCore c r) := by
  unfold State.enqueueCore
  dsimp only
  split <;> exact h.setCore

theorem Fits.offerCore {c : Nat} {r : TraceRec} (h : Fits s) : Fits (s.offerCore c r) := by
  unfold State.offerCore
  dsimp only
  exact h.setCore

theorem Fits.overflowSignal {off : Nat} {c : W64} (h : Fits s) : Fits (s.overflowSignal off c) := by
  unfold State.overflowSignal
  split <;> exact h

theorem Fits.setCounter {off : Nat} {c : W64} (h : Fits s) : Fits (s.setCounter off c) := h

theorem Fits.addCount {off n : Nat} (h : Fits s) : Fits (s.addCount off n).1 := by
  unfold State.addCount
  extract_lets _ _ _ _ s1 _ _ s2
  have h1 : Fits s1 := h.setCounter
  have h2 : Fits s2 := h1
  split
  · exact h
  · split
    · exact h2
    · exact h2.overflowSignal

theorem Fits.dropRec {tile n : Nat} (h : Fits s) : Fits (State.dropRec tile n s) := by
  induction n generalizing s with
  | zero => exact h
  | succ n ih =>
    refine h.setDbg.foldl fun s m hs => ?_
    split
    · dsimp only
      split
      · exact ih hs.addCount
      · exact hs.addCount
    · exact hs

theorem Fits.emitRec {tile : Nat} {r : TraceRec} (h : Fits s) : Fits (s.emitRec tile r) := by
  unfold State.emitRec
  dsimp only
  split
  · exact h
  · split
    · exact h.setDbg
    · exact h.dropRec

theorem Fits.overflowRecord {off : Nat} {c : W64} (h : Fits s) : Fits (s.overflowRecord off c) := by
  unfold State.overflowRecord
  dsimp only
  split
  · exact h.emitRec
  · split <;> exact h.offerCore

theorem Fits.bump {off n : Nat} (h : Fits s) : Fits (s.bump off n) := by
  unfold State.bump
  dsimp only
  split
  · exact h.addCount.overflowRecord
  · exact h.addCount

theorem Fits.countBlock {at_ : Nat → Nat} {code n : Nat} (h : Fits s) : Fits (s.countBlock at_ code n) := by
  unfold State.countBlock
  refine h.foldl (fun s1 x h1 => ?_)
  split
  · exact h1.bump
  · exact h1

theorem Fits.countTile {tile code n : Nat} (h : Fits s) : Fits (s.countTile tile code n) := by
  unfold State.countTile
  split
  · exact h
  · exact h.countBlock

theorem Fits.countChan {g code n : Nat} (h : Fits s) : Fits (s.countChan g code n) := by
  unfold State.countChan
  split
  · exact h
  · exact h.countBlock

theorem Fits.countNode {k code n : Nat} (h : Fits s) : Fits (s.countNode k code n) := by
  unfold State.countNode
  split
  · exact h
  · exact h.countBlock

theorem Fits.emit {kind tag pc : Nat} {d0 d1 : W64} (h : Fits s) : Fits (s.emit kind tag pc d0 d1) := h.emitRec

theorem Fits.landDue (h : Fits s) : Fits s.landDue := by
  unfold State.landDue
  dsimp only
  split
  · exact h.landWdog.setCur h.landWdog.cur.landDue
  · exact (h.landWdog.setCur h.landWdog.cur.landDue).countTile

theorem Fits.stallOf {t : Machine.Task} {cause n pc scyc : Nat} (h : Fits s) : Fits (s.stallOf t cause n pc scyc) := by
  unfold State.stallOf
  split
  · exact h.emitRec
  · exact h

theorem Fits.stallRecord {cause : Nat} (h : Fits s) : Fits (s.stallRecord cause) := h.stallOf

theorem Fits.savedStall {t : Machine.Task} (h : Fits s) : Fits (s.savedStall t) := by
  unfold State.savedStall
  split
  · split
    · exact h
    · exact h.stallOf
  · exact h

theorem Fits.block (h : Fits s) : Fits s.block := h.modSeq id

theorem Fits.endLock (h : Fits s) : Fits s.endLock := by
  unfold State.endLock
  split
  · exact h
  · exact h.stallOf.modSeq id

theorem Fits.lastStalls {t : Machine.Task} (h : Fits s) : Fits (s.lastStalls t) := by
  unfold State.lastStalls
  dsimp only
  refine Fits.savedStall ?_
  split
  · split
    · exact h.stallOf
    · exact h
  · refine Fits.stallOf ?_
    split
    · exact h.stallOf
    · exact h

theorem Fits.setFab {c : Nat} {x : FabCtx} (h : Fits s) : Fits (s.setFab c x) := h

theorem Fits.leaveCtxs {st : Machine.Stream} {errc : Nat} (h : Fits s) : Fits (s.leaveCtxs st errc) := h.foldl (fun _ _ h1 => h1.setFab)

theorem Fits.logEvent {code arg : Nat} (h : Fits s) : Fits (s.logEvent code arg) := h

theorem Fits.endTask (h : Fits s) : Fits s.endTask := by
  unfold State.endTask
  extract_lets keep s1
  have h1 : Fits s1 := by
    refine h.savedStall.foldl (fun s1 x h1 => ?_)
    split
    · split
      · exact h1
      · exact h1.leaveCtxs
    · exact h1
  exact h1.setCur ⟨h1.cur.cl, h1.cur.vl, SeqFits.idle rfl rfl rfl⟩

theorem TaskFits.discardEngines {t : Task} (h : TaskFits t) : TaskFits t.discardEngines := h

theorem TaskFits.quit {t : Task} (h : TaskFits t) : TaskFits t.quit := by
  unfold Task.quit
  dsimp only
  exact h.discardEngines

theorem TaskFits.kill {t : Task} (h : TaskFits t) : TaskFits t.kill := by
  exact ⟨h.cl, h.vl, h.seq.stop⟩

theorem Fits.haltRcb {addr : Nat} {bits cause : BitVec 8} (h : Fits s) : Fits (s.haltRcb addr bits cause) := by
  unfold State.haltRcb
  split
  · exact h
  · exact h

theorem Fits.faultPolicy {l : Launch} {st : Status} (h : Fits s) : Fits (s.faultPolicy l st) := by
  unfold State.faultPolicy
  split
  · exact h
  · split
    · exact h.haltRcb
    · exact h.haltRcb
    · exact h

theorem Fits.endLaunch {id : Nat} {st : Status} {f : Option Failing} (h : Fits s) : Fits (s.endLaunch id st f) := by
  unfold State.endLaunch
  extract_lets _ s1 s2 s3
  have h1 : Fits s1 := by
    unfold s1
    refine (h.foldl (fun s4 t h1 => h1.lastStalls)).mapTasks (fun t h1 => ?_)
    split
    · split
      · exact h1.quit
      · exact h1.kill
    · exact h1
  have h2 : Fits s2 := h1
  have h3 : Fits s3 := by
    unfold s3
    split
    · split
      · exact h2.faultPolicy
      · exact h2
    · exact h2
  exact h3.modLaunch (fun l h4 => h4)

theorem Fits.takeTerminal {pc : Nat} {f : FaultInfo} (h : Fits s) : Fits (s.takeTerminal pc f) := by
  unfold State.takeTerminal
  dsimp only
  exact (h.modReg id).emit.endLaunch.modSeq fun hq => hq.stop

theorem Fits.enterTrap {pc : Nat} {f : FaultInfo} (h : Fits s) : Fits (s.enterTrap pc f) := by
  unfold State.enterTrap
  dsimp only
  exact (h.modReg id).emit.modSeq fun hq => hq.stop.setSaved fun r hr => by cases hr; exact hq.record

theorem Fits.takeFault {pc : Nat} {f : FaultInfo} (h : Fits s) : Fits (s.takeFault pc f) := by
  unfold State.takeFault
  split
  · exact h.takeTerminal
  · split
    · exact h.takeTerminal
    · split
      · exact h.enterTrap
      · exact h.takeTerminal

theorem Fits.raise {slot : Nat} {st : Status} {info : W64} {cause : Nat} (h : Fits s) : Fits (s.raise slot st info cause) := h.takeFault

theorem Fits.waitRaise {slot : Nat} {st : Status} {info : W64} (h : Fits s) : Fits (s.waitRaise slot st info) :=
  (h.stallRecord.modSeq fun hq => hq.setWaits (by simp)).takeFault

theorem Fits.illegal {slot : Nat} {info : W64} (h : Fits s) : Fits (s.illegal slot info) := h.raise

theorem TaskFits.defer {t : Task} {f : FaultInfo} {pc : Option Nat} {redo : Bool} (h : TaskFits t) :
    TaskFits (t.defer f pc redo) := by
  unfold Task.defer
  split
  · exact h
  · split <;> exact h

theorem TaskFits.deferHw {t : Task} {redo : Bool} {pc : Option Nat} (h : TaskFits t) : TaskFits (t.deferHw redo pc)
    := h.defer

/-- The next schedule cycle after a bundle. -/
theorem Fits.nextCycle (h : Fits s) : Fits (s.modSeq fun q => { q.follow with scyc := q.scyc + 1 }) := by
  have hq := h.cur.seq.follow
  exact h.modSeq fun _ => hq

theorem Fits.returnTrap (h : Fits s) : Fits s.returnTrap := by
  unfold State.returnTrap
  split
  · dsimp only
    exact (h.modReg id).emit.modSeq id
  · have hs : Fits (if s.cur.seq.trapPcSet then s.savedStall s.cur else s) := by
      split
      · exact h.savedStall
      · exact h
    refine hs.modSeq fun hq => ?_
    have hr := h.cur.seq.2.2
    have hnone := hq.setSaved (r := none) (by simp)
    dsimp only
    split
    · exact hnone
    · next r hsaved => exact SeqFits.reinject (tick := s.clk.tick) hnone (hr r hsaved)

theorem Fits.advance (h : Fits s) : Fits s.advance := by
  unfold State.advance
  extract_lets q s1 s2
  have h1 : Fits s1 := h.modSeq id
  have h2 : Fits s2 := h.nextCycle.landDue
  split
  · exact (h1.modSeq id).landDue.returnTrap
  · split
    · exact h2.endTask
    · exact h2

theorem Fits.afterStall (h : Fits s) : Fits s.afterStall := by
  unfold State.afterStall
  split
  · extract_lets s1
    have h1 : Fits s1 := Fits.landDue (h.modSeq id)
    split
    · exact h1.endTask
    · exact h1
  · exact h.advance

theorem Fits.stallBoundary (h : Fits s) : Fits s.stallBoundary := by
  unfold State.stallBoundary
  split
  · exact Fits.landDue (h.modSeq id)
  · split
    · exact h.nextCycle.landDue
    · exact h.advance

end Sys2Proof.Safety
end

section
/-! SUPPORT. Flags: what Machine/Flags.lean does keeps every register within its bounds. -/

namespace Sys2Proof.Safety
open Sys2Proof Sys2Proof.Machine Sys2Proof.Laws
variable {s : State}

section
variable {α : Type}

/-- A kind of destination that takes values within the bounds of a register. -/
def MakesFit (mk : List (Fin 8 × Machine.Runs α) → Dest) : Prop := ∀ vals, (∀ p ∈ vals, RegisterRuns p.2) → DestFits (mk vals)

/-- The values picked from a landing that fits are within the bounds of a register. -/
def PicksFit (pick : Dest → List (Fin 8 × Machine.Runs α)) : Prop := ∀ d, DestFits d → ∀ p ∈ pick d, RegisterRuns p.2

/-- Masks by cluster, of runs that cover elements. -/
def MasksFit (m : List (Fin 8 × Option (Machine.Runs Bool))) : Prop := ∀ p ∈ m, ∀ r ∈ p.2, RegisterRuns r

/-- The results of an instruction may land. -/
def ResultsFit (res : List (ClRes α)) : Prop := ∀ r ∈ res, PiecesFit r.pieces

theorem makesFit_vreg (r : BitVec 5) : MakesFit (Dest.vreg r) := fun _ h => h
theorem makesFit_kreg (r : BitVec 3) : MakesFit (Dest.kreg r) := fun _ h => h

theorem picksFit_vecOf (r : BitVec 5) : PicksFit (Dest.vecOf r) := by
  intro d hd
  cases d with
  | vreg r' l =>
    change ∀ p ∈ if r' = r then l else [], _
    split
    · exact hd
    · simp
  | _ => simp [Dest.vecOf]

theorem picksFit_maskOf (r : BitVec 3) : PicksFit (Dest.maskOf r) := by
  intro d hd
  cases d with
  | kreg r' l =>
    change ∀ p ∈ if r' = r then l else [], _
    split
    · exact hd
    · simp
  | _ => simp [Dest.maskOf]

theorem DestFits.without {d : Dest} {cls : List (Fin 8)} (h : DestFits d) : DestFits (d.without cls) := by
  cases d with
  | vreg | kreg => exact fun p hp => h p (List.mem_of_mem_filter hp)
  | _ => exact h

/-- What is delivered of a result fits. -/
theorem ResultsFit.landing {scyc slot lat : Nat} {mk : List (Fin 8 × Machine.Runs α) → Dest} {res : List (ClRes α)} (h : ResultsFit res)
    (hmk : MakesFit mk) : DestFits (resultLanding scyc slot lat mk res).dest := by
  refine hmk _ (List.forall_mem_map.2 fun r hr => ?_)
  have hk : Machine.pieceRuns r.kept = (Machine.pieceRuns r.pieces).take 32 := List.map_take
  change RegisterRuns (Machine.pieceRuns r.kept)
  rw [hk]
  exact (h r hr).take

/-- A combined value covers as many elements as the longer of the two (R104). -/
theorem RunsFit.combine [DecidableEq α] {d : α} {a b : Machine.Runs α} {m : Option (Machine.Runs Bool)} (ha : RegisterRuns a) (hb : RegisterRuns b)
    (hm : ∀ r ∈ m, RegisterRuns r) : RunsFit (combineRuns d a b m) := by
  unfold combineRuns
  extract_lets lb n m' av bv
  have hm' : Positive m' := by
    unfold m'
    split
    · exact Positive.nil.fitLen
    · exact (hm _ rfl).positive.fitLen
  have hbv : Positive bv := hb.positive.fitLen.zipR hm'.fitLen
  refine .canon ((ha.positive.fitLen.zipR hbv).mapRuns) ?_
  rw [runLen_mapRuns, runLen_zipR, runLen_fitLen]
  have := ha.len
  have := hb.len
  omega

/-- Combining a slot-B landing with slot A's keeps everything in flight within its bounds (R104, R105). -/
theorem combineInto_fits [DecidableEq α] {d : α} {pick : Dest → List (Fin 8 × Machine.Runs α)} {mk : List (Fin 8 × Machine.Runs α) → Dest}
    {bmask : List (Fin 8 × Option (Machine.Runs Bool))} {split : Bool} {inflight l : List Landing} {b : Landing} (hpick : PicksFit pick)
    (hmk : MakesFit mk) (hmask : MasksFit bmask) (hfly : ∀ x ∈ inflight, LandingFits x) (hb : DestFits b.dest)
    (e : combineInto d pick mk bmask split inflight b = .ok l) : ∀ x ∈ l, LandingFits x := by
  unfold combineInto at e
  extract_lets same aVals bVals joined ovf both mine rest a' aFlags aLens lens at e
  have hjoined : ∀ p ∈ joined, RunsFit p.2.1 := by
    refine List.forall_mem_map.2 fun p hp => ?_
    obtain ⟨i, y⟩ := p
    have hy : RegisterRuns y := hpick _ hb _ hp
    dsimp only
    split
    · next q x hfind =>
      obtain ⟨a, ha, hx⟩ := List.mem_flatMap.1 (List.mem_of_find?_eq_some hfind)
      refine .combine (hpick _ ((landingFits_iff a).1 (hfly a (List.mem_of_mem_filter ha))) _ hx) hy fun r hr => ?_
      obtain ⟨m, hm, hr⟩ := Option.bind_eq_some_iff.1 hr
      exact hmask m (List.mem_of_find?_eq_some hm) r hr
    · exact hy.fit
  have ha' : ∀ x ∈ a', LandingFits x := by
    intro x hx
    obtain ⟨y, hy, rfl⟩ := List.mem_map.1 (List.mem_of_mem_filter hx)
    split
    · exact (landingFits_iff _).2 ((landingFits_iff y).1 (hfly y hy)).without
    · exact hfly y hy
  split at e
  · cases e
  · cases e
    refine List.forall_mem_append.2 ⟨ha', fun x hx => ?_⟩
    rw [List.mem_singleton] at hx
    subst hx
    exact (landingFits_iff _).2 (hmk _ (List.forall_mem_map.2 fun p hp => (hjoined p hp).take))

theorem Fits.landRuns {slot lat : Nat} {mk : List (Fin 8 × Machine.Runs α) → Dest} {res : List (ClRes α)} (h : Fits s) (hmk : MakesFit mk)
    (hres : ResultsFit res) : Fits (s.landRuns slot lat mk res) := by
  unfold State.landRuns
  dsimp only
  split
  · exact h.raise
  · exact h.push (hres.landing hmk)

theorem Fits.landB [DecidableEq α] {zero : α} {pick : Dest → List (Fin 8 × Machine.Runs α)}
    {mk : List (Fin 8 × Machine.Runs α) → Dest} {lat : Nat} {bmask : List (Fin 8 × Option (Machine.Runs Bool))}
    {res : List (ClRes α)} (h : Fits s) (hpick : PicksFit pick) (hmk : MakesFit mk) (hmask : MasksFit bmask) (hres : ResultsFit res) :
    Fits (s.landB zero pick mk lat bmask res) := by
  unfold State.landB
  dsimp only
  split
  · exact h.raise
  · split
    · next l e => exact h.modSeq fun hq => hq.setInflight (combineInto_fits hpick hmk hmask hq.1 (hres.landing hmk) e)
    · exact h.raise

end

theorem Fits.landVecB {lat : Nat} {d : BitVec 5} {bmask : List (Fin 8 × Option (Machine.Runs Bool))} {res : List (ClRes W32)} (h : Fits s)
    (hmask : MasksFit bmask) (hres : ResultsFit res) : Fits (s.landVecB lat d bmask res) :=
  h.landB (picksFit_vecOf d) (makesFit_vreg d) hmask hres

theorem Fits.landMaskB {lat : Nat} {d : BitVec 3} {res : List (ClRes Bool)} (h : Fits s) (hres : ResultsFit res) : Fits (s.landMaskB lat d res) :=
  h.landB (picksFit_maskOf d) (makesFit_kreg d) (fun _ hp => by simp at hp) hres

end Sys2Proof.Safety
end

section
/-! SUPPORT. Global memory: what Machine/Global.lean does keeps every register within its bounds. -/

namespace Sys2Proof.Safety
open Sys2Proof Sys2Proof.Machine Sys2Proof.Laws
variable {s : State}

theorem Fits.beats {g code n : Nat} (h : Fits s) : Fits (s.beats g code n) := by
  unfold State.beats
  dsimp only
  exact h.countChan

theorem Fits.tlbFill {tile : Option Nat} {e : TlbEntry} (h : Fits s) : Fits (s.tlbFill tile e) := by
  unfold State.tlbFill
  dsimp only
  exact h.setMem

theorem Fits.lookup {x : Xctx} {va : Nat} (h : Fits s) : Fits (s.lookup x va).2 := by
  unfold State.lookup
  extract_lets fresh entry useFresh
  have hu : ∀ {fill s}, Fits s → Fits (useFresh fill s).2 := by
    intro fill s h
    unfold useFresh
    extract_lets reads s1
    have h1 : Fits s1 := h.foldl fun _ _ h => h.beats
    split
    · exact h
    · cases fresh with
      | leaf e => exact .ite h1.tlbFill h1
      | notPresent => exact .ite_snd h1 h1
      | _ => exact h1
  split
  · exact h
  · split
    · exact hu h
    · split
      · exact h
      · split
        · exact h.tlbFill
        · split
          next e => exact .ite_snd (h.choose.snd e).tlbFill (hu (h.choose.snd e))

theorem Fits.readBuf {asid : BitVec 14} {pte : W64} (h : Fits s) : Fits (s.readBuf asid pte) := by
  unfold State.readBuf
  split
  · exact h.beats
  · exact h

theorem Fits.translate {x : Xctx} {w : Want} {va len : Nat} (h : Fits s) : Fits (s.translate x w va len).2 := by
  unfold State.translate
  split
  any_goals exact h.lookup.snd ‹_›
  split
  · exact h.lookup.snd ‹_›
  · split
    · exact h.lookup.snd ‹_›
    · split <;> exact (h.lookup.snd ‹_›).readBuf

theorem Fits.spans {x : Xctx} {w : Want} {fuel va n : Nat} (h : Fits s) : Fits (s.spans x w fuel va n).2 := by
  induction fuel generalizing s va n with
  | zero => exact h
  | succ k ih =>
    unfold State.spans
    split
    · exact h
    · dsimp only
      split
      · exact h.translate.snd ‹_›
      · split <;> exact (ih (h.translate.snd ‹_›)).snd ‹_›

theorem Fits.layOut {frame : Nat} (h : Fits s) : Fits (s.layOut frame) :=
  h

theorem Fits.writeBlock {frame j : Nat} {block : List Byte} (h : Fits s) : Fits (s.writeBlock frame j block) := by
  unfold State.writeBlock
  dsimp only
  split
  · exact h
  · exact h

theorem Fits.cmpWrite {addr : Nat} {bs : List Byte} (h : Fits s) : Fits (s.cmpWrite addr bs) := by
  unfold State.cmpWrite
  dsimp only
  exact h.foldl (fun s1 x h1 => h1.writeBlock)

theorem Fits.homeWrite {p : Place} {bs : List Byte} (h : Fits s) : Fits (s.homeWrite p bs) := by
  unfold State.homeWrite
  split
  · exact h
  · exact h
  · exact h.cmpWrite
  · exact h

theorem Fits.checkSectors {launch tile : Nat} {wrote : Bool} {secs : List (Nat × Nat)} (h : Fits s) :
    OkFits (s.checkSectors launch tile wrote secs) := by
  unfold State.checkSectors
  split
  · exact h
  · exact h
  · split
    · trivial
    · dsimp only
      exact h.modLaunch (fun l h1 => h1)

theorem Fits.checkRace {launch tile : Nat} {wrote : Bool} {sps : List Span} (h : Fits s) : OkFits (s.checkRace launch tile wrote sps) :=
  h.checkSectors

theorem Fits.arrive {w : PortWrite} (h : Fits s) : Fits (s.arrive w) := h.homeWrite

theorem Fits.drainDevice {kind : Nat} (h : Fits s) : Fits (s.drainDevice kind) := by
  unfold State.drainDevice
  dsimp only
  exact Fits.foldl h (fun s1 x h1 => h1.arrive)

theorem Fits.leaveTile {w : PortWrite} (h : Fits s) : Fits (s.leaveTile w) := by
  unfold State.leaveTile
  split
  · exact h.arrive
  · exact h

theorem Fits.leavePort {tile : Nat} (h : Fits s) : Fits (s.leavePort tile) := by
  unfold State.leavePort
  dsimp only
  exact Fits.foldl h (fun s1 x h1 => h1.leaveTile)

theorem Fits.drainTile {tile : Nat} (h : Fits s) : Fits (s.drainTile tile) := by
  unfold State.drainTile
  refine h.leavePort.foldl (fun s1 x h1 => ?_)
  split
  · exact h1.drainDevice
  · exact h1

theorem Fits.queuePlace {tile unit : Nat} {p : Place} (h : Fits s) : Fits (s.queuePlace tile unit p) := by
  unfold State.queuePlace
  dsimp only
  split <;> exact h

theorem Fits.queueAt {tile unit : Nat} {sps : List Span} (h : Fits s) : Fits (s.queueAt tile unit sps) :=
  h.foldl (fun _ _ h1 => h1.queuePlace)

theorem Fits.drainOne {tile : Nat} (h : Fits s) : Fits (s.drainOne tile) := by
  unfold State.drainOne
  split
  · exact h
  · split
    · exact h.queuePlace
    · split
      · exact h.drainDevice
      · exact Fits.leaveTile h

theorem Fits.performWrite {scope : BitVec 2} {w : PortWrite} (h : Fits s) : Fits (s.performWrite scope w) := by
  unfold State.performWrite
  split
  · exact h
  · exact h.leavePort.leaveTile
  · dsimp only
    refine Fits.arrive ?_
    split
    · exact h.leavePort
    · exact h.leavePort.drainDevice

theorem Fits.performHeld {tile : Nat} {scope : BitVec 2} (h : Fits s) : Fits (s.performHeld tile scope) := by
  unfold State.performHeld
  dsimp only
  split
  · exact h
  · exact h.leavePort
  · split
    · exact h.leavePort.drainDevice
    · exact h.leavePort
  · exact h.drainTile

theorem Fits.passPort {sps : List Span} (h : Fits s) : Fits (s.passPort sps) := by
  unfold State.passPort
  refine h.foldl (fun s1 x h1 => ?_)
  split
  · exact h1
  · exact h1.drainDevice

theorem Fits.drainTo {tile : Nat} {sps : List Span} (h : Fits s) : Fits (s.drainTo tile sps) := by
  unfold State.drainTo
  refine h.foldl (fun s1 x h1 => ?_)
  split
  · exact h1.drainOne
  · exact h1

theorem Fits.countBeats {code : Nat} {sps : List Span} (h : Fits s) : Fits (s.countBeats code sps) := by
  unfold State.countBeats
  refine h.foldl (fun s1 x h1 => ?_)
  split
  · exact h1.beats
  · exact h1

theorem Fits.countLocal {code addr n : Nat} (h : Fits s) : Fits (s.countLocal code addr n) := h.countBeats

theorem Fits.readSpans {t : Machine.Task} {unit : Nat} {sps : List Span} {counted : Bool} (h : Fits s) :
    Fits (s.readSpans t unit sps counted).2 := by
  unfold State.readSpans
  split
  · exact h.queueAt
  · split
    · exact h
    · split
      · exact h
      · dsimp only
        split
        · exact (h.checkRace.ok ‹_›).passPort.countBeats
        · exact (h.checkRace.ok ‹_›).passPort

theorem Fits.readVirt {t : Machine.Task} {want : Want} {va n : Nat} (h : Fits s) : Fits (s.readVirt t want va n).2 := by
  unfold State.readVirt
  split
  · exact h.spans.snd ‹_›
  · exact (h.spans.snd ‹_›).readSpans

theorem Fits.readOn {t : Machine.Task} {want : Want} {va n fuel : Nat} {got : List Byte} (h : Fits s) :
    Fits (s.readOn t want va n fuel got).2 := by
  induction fuel generalizing s got with
  | zero => exact h
  | succ n ih =>
    unfold State.readOn
    split
    · exact h
    · dsimp only
      split
      · exact h.translate.snd ‹_›
      · split
        · exact (h.translate.snd ‹_›).readSpans.snd ‹_›
        · split
          · exact ((h.translate.snd ‹_›).readSpans.snd ‹_›).choose
          · exact ih (((h.translate.snd ‹_›).readSpans.snd ‹_›).choose)

theorem Fits.writeSpan {t : Machine.Task} {unit : Nat} {sp : Span} {bs : List Byte} {counted : Bool} (h : Fits s) :
    Fits (s.writeSpan t unit sp bs counted).2 := by
  unfold State.writeSpan
  split
  · exact h.queueAt
  · split
    · exact h
    · dsimp only
      split
      · exact (h.checkRace.ok ‹_›).performWrite.countBeats
      · exact (h.checkRace.ok ‹_›).performWrite

theorem Fits.writeOn {t : Machine.Task} {unit : Nat} {place : State → Nat → Nat → Except MemFail Span × State} {va : Nat}
    {bs : List Byte} {fuel k : Nat} (h : Fits s) (hp : ∀ s a n, Fits s → Fits (place s a n).2) :
    Fits (s.writeOn t unit place va bs fuel k).2.2 := by
  induction fuel generalizing s k with
  | zero => exact h
  | succ n ih =>
    unfold State.writeOn
    split
    · exact h
    · dsimp only
      split
      · exact (hp _ _ _ h).snd ‹_›
      · split
        · exact ((hp _ _ _ h).snd ‹_›).writeSpan.snd ‹_›
        · split
          · exact (((hp _ _ _ h).snd ‹_›).writeSpan.snd ‹_›).choose
          · exact ih ((((hp _ _ _ h).snd ‹_›).writeSpan.snd ‹_›).choose)

end Sys2Proof.Safety
end

section
/-! SUPPORT. Tower rows: what Machine/Tower.lean does keeps every register within its bounds. -/

namespace Sys2Proof.Safety
open Sys2Proof Sys2Proof.Machine Sys2Proof.Laws
variable {s : State}

theorem Fits.towerWrite {tile i addr : Nat} {bs : List Byte} (h : Fits s) : Fits (s.towerWrite tile i addr bs) :=
  h

theorem Fits.setFull {tile i : Nat} {gs : List Nat} (h : Fits s) : Fits (s.setFull tile i gs) := h

theorem Fits.clearFull {tile i : Nat} {gs : List Nat} (h : Fits s) : Fits (s.clearFull tile i gs) := by
  unfold State.clearFull
  dsimp only
  exact h

theorem Fits.engineWrite {tile i addr : Nat} {bs : List Byte} (h : Fits s) : Fits (s.engineWrite tile i addr bs) := h.towerWrite.setFull

theorem Fits.clearRows {ptower first n : Nat} (h : Fits s) : Fits (s.clearRows ptower first n) :=
  h

theorem Fits.clearLease {tile lease : Nat} (h : Fits s) : Fits (s.clearLease tile lease) := h.foldl (fun _ _ h1 => h1.clearRows)

end Sys2Proof.Safety
end

section
/-! SUPPORT. Slot C: what Machine/SlotC.lean does keeps every register within its bounds. -/

namespace Sys2Proof.Safety
open Sys2Proof Sys2Proof.Machine Sys2Proof.Laws
variable {s : State}

/-- A control register other than VL takes any value. -/
theorem DestFits.ctl_other {num : BitVec 6} {sub : BitVec 4} {v : W64} (h : num ≠ 5#6) : DestFits (.ctl num sub v) := fun e => absurd e h

theorem Fits.crResult {o : CrForm} {lat : Nat} {f : W64 → W64 → W64} (h : Fits s) : Fits (s.crResult o lat f) := by
  unfold State.crResult
  split
  · exact h.land trivial
  · exact h

theorem Fits.cr1Result {o : Cr1Form} {f : W64 → W64} (h : Fits s) : Fits (s.cr1Result o f) := by
  unfold State.cr1Result
  split
  · exact h.land trivial
  · exact h

theorem Fits.ciResult {o : CiForm} {f : W64 → BitVec 14 → W64} (h : Fits s) : Fits (s.ciResult o f) := h.land trivial

theorem Fits.cmpResult {o : CmpForm} {rel : W64 → W64 → Bool} (h : Fits s) : Fits (s.cmpResult o rel) := by
  unfold State.cmpResult
  split
  · exact h.land trivial
  · exact h

theorem Fits.cmpiResult {o : CmpiForm} {rel : W64 → W64 → Bool} (h : Fits s) : Fits (s.cmpiResult o rel) := h.land trivial

theorem Fits.condResult {o : CondForm} {f : Bool → Bool → Bool} (h : Fits s) : Fits (s.condResult o f) := by
  unfold State.condResult
  split
  · exact h.land trivial
  · exact h

theorem Fits.transfer {act : State → State} (h : Fits s) (hact : ∀ s, Fits s → Fits (act s)) : Fits (s.transfer act) := by
  unfold State.transfer
  split
  · exact h.raise
  · exact hact _ h

theorem Fits.branchTo {target : Nat} {taken : Bool} {kind : BranchKind} (h : Fits s) : Fits (s.branchTo target taken kind) := h.modSeq id

theorem Fits.hold (h : Fits s) : Fits s.hold := h.modSeq id

theorem Fits.addWait {w : Wait} (h : Fits s) (hw : WaitFits w) : Fits (s.addWait w) :=
  h.modSeq fun hq => hq.setWaits (List.forall_mem_append.2 ⟨hq.2.1, by simpa using hw⟩)

theorem Fits.execNop (h : Fits s) : OutFits (execNop s) := h

theorem Fits.execAdd {o : CrForm} (h : Fits s) : OutFits (execAdd o s) := h.crResult

theorem Fits.execSub {o : CrForm} (h : Fits s) : OutFits (execSub o s) := h.crResult

theorem Fits.execMul {o : CrForm} (h : Fits s) : OutFits (execMul o s) := h.crResult

theorem Fits.execMulh {o : CrForm} (h : Fits s) : OutFits (execMulh o s) := h.crResult

theorem Fits.execMulhu {o : CrForm} (h : Fits s) : OutFits (execMulhu o s) := h.crResult

theorem Fits.execDiv {o : CrForm} (h : Fits s) : OutFits (execDiv o s) := h.crResult

theorem Fits.execDivu {o : CrForm} (h : Fits s) : OutFits (execDivu o s) := h.crResult

theorem Fits.execRem {o : CrForm} (h : Fits s) : OutFits (execRem o s) := h.crResult

theorem Fits.execRemu {o : CrForm} (h : Fits s) : OutFits (execRemu o s) := h.crResult

theorem Fits.execAnd {o : CrForm} (h : Fits s) : OutFits (execAnd o s) := h.crResult

theorem Fits.execOr {o : CrForm} (h : Fits s) : OutFits (execOr o s) := h.crResult

theorem Fits.execXor {o : CrForm} (h : Fits s) : OutFits (execXor o s) := h.crResult

theorem Fits.execAndn {o : CrForm} (h : Fits s) : OutFits (execAndn o s) := h.crResult

theorem Fits.execShl {o : CrForm} (h : Fits s) : OutFits (execShl o s) := h.crResult

theorem Fits.execShr {o : CrForm} (h : Fits s) : OutFits (execShr o s) := h.crResult

theorem Fits.execShra {o : CrForm} (h : Fits s) : OutFits (execShra o s) := h.crResult

theorem Fits.execRot {o : CrForm} (h : Fits s) : OutFits (execRot o s) := h.crResult

theorem Fits.execMin {o : CrForm} (h : Fits s) : OutFits (execMin o s) := h.crResult

theorem Fits.execMax {o : CrForm} (h : Fits s) : OutFits (execMax o s) := h.crResult

theorem Fits.execMinu {o : CrForm} (h : Fits s) : OutFits (execMinu o s) := h.crResult

theorem Fits.execMaxu {o : CrForm} (h : Fits s) : OutFits (execMaxu o s) := h.crResult

theorem Fits.execClz {o : Cr1Form} (h : Fits s) : OutFits (execClz o s) := h.cr1Result

theorem Fits.execCtz {o : Cr1Form} (h : Fits s) : OutFits (execCtz o s) := h.cr1Result

theorem Fits.execPopc {o : Cr1Form} (h : Fits s) : OutFits (execPopc o s) := h.cr1Result

theorem Fits.execAddi {o : CiForm} (h : Fits s) : OutFits (execAddi o s) := h.ciResult

theorem Fits.execAndi {o : CiForm} (h : Fits s) : OutFits (execAndi o s) := h.ciResult

theorem Fits.execOri {o : CiForm} (h : Fits s) : OutFits (execOri o s) := h.ciResult

theorem Fits.execXori {o : CiForm} (h : Fits s) : OutFits (execXori o s) := h.ciResult

theorem Fits.execShli {o : CiForm} (h : Fits s) : OutFits (execShli o s) := h.ciResult

theorem Fits.execShri {o : CiForm} (h : Fits s) : OutFits (execShri o s) := h.ciResult

theorem Fits.execShrai {o : CiForm} (h : Fits s) : OutFits (execShrai o s) := h.ciResult

theorem Fits.execLih {o : LihForm} (h : Fits s) : OutFits (execLih o s) := h.land trivial

theorem Fits.execCmpeq {o : CmpForm} (h : Fits s) : OutFits (execCmpeq o s) := h.cmpResult

theorem Fits.execCmpne {o : CmpForm} (h : Fits s) : OutFits (execCmpne o s) := h.cmpResult

theorem Fits.execCmplt {o : CmpForm} (h : Fits s) : OutFits (execCmplt o s) := h.cmpResult

theorem Fits.execCmpltu {o : CmpForm} (h : Fits s) : OutFits (execCmpltu o s) := h.cmpResult

theorem Fits.execCmple {o : CmpForm} (h : Fits s) : OutFits (execCmple o s) := h.cmpResult

theorem Fits.execCmpleu {o : CmpForm} (h : Fits s) : OutFits (execCmpleu o s) := h.cmpResult

theorem Fits.execCmpeqi {o : CmpiForm} (h : Fits s) : OutFits (execCmpeqi o s) := h.cmpiResult

theorem Fits.execCmplti {o : CmpiForm} (h : Fits s) : OutFits (execCmplti o s) := h.cmpiResult

theorem Fits.execCmpltui {o : CmpiForm} (h : Fits s) : OutFits (execCmpltui o s) := h.cmpiResult

theorem Fits.execCand {o : CondForm} (h : Fits s) : OutFits (execCand o s) := h.condResult

theorem Fits.execCor {o : CondForm} (h : Fits s) : OutFits (execCor o s) := h.condResult

theorem Fits.execCxor {o : CondForm} (h : Fits s) : OutFits (execCxor o s) := h.condResult

theorem Fits.execSel {o : SelForm} (h : Fits s) : OutFits (execSel o s) := by
  unfold Machine.execSel
  split
  · exact h.land trivial
  · exact h

theorem Fits.execLds {o : LdsForm} (h : Fits s) : OutFits (execLds o s) := by
  unfold Machine.execLds
  split
  · dsimp only
    split
    · exact h.land trivial
    · exact h.illegal
  · exact h

theorem Fits.execSts {o : StsForm} (h : Fits s) : OutFits (execSts o s) := by
  unfold Machine.execSts
  split
  · dsimp only
    split
    · exact h.land trivial
    · exact h.illegal
  · exact h

theorem Fits.loadPiece {sp : Span} (h : Fits s) : Fits (s.loadPiece sp).2 := by
  unfold State.loadPiece
  dsimp only
  refine (Fits.passPort ?_).countBeats
  split
  · exact h.setCur h.cur.deferHw
  · exact h

theorem Fits.storePiece {a : GAccess} {sp : Span} (h : Fits s) : Fits (s.storePiece a sp) := by
  unfold State.storePiece
  dsimp only
  exact h.performWrite.countBeats

theorem Fits.performPieces {a : GAccess} {sps : List Span} (h : Fits s) : Fits (s.performPieces a sps).2 := by
  induction sps generalizing s with
  | nil => exact h
  | cons sp l ih =>
    unfold State.performPieces
    split
    next e =>
      refine ih (Fits.snd ?_ e)
      split
      · exact h.storePiece
      · exact h.loadPiece

theorem Fits.performAll {a : GAccess} {ps : List Span} {fault : W64 → State → State} {done : List Byte → State → State}
    (h : Fits s) (hf : ∀ i s, Fits s → Fits (fault i s)) (hd : ∀ bs s, Fits s → Fits (done bs s)) :
    Fits (s.performAll a ps fault done) := by
  unfold State.performAll
  split
  · exact hf _ _ h
  · split
    · exact hd _ _ ((h.checkRace.ok ‹_›).performPieces.snd ‹_›)

theorem Fits.landLoad {a : GAccess} {bs : List Byte} (h : Fits s) : Fits (s.landLoad a bs) := by
  unfold State.landLoad
  split
  · exact h.land trivial
  · exact h

theorem Fits.performChecked {a : GAccess} {sps : List Span} (h : Fits s) : Fits (s.performChecked a sps) := by
  unfold State.performChecked
  split
  · exact h.queueAt.block
  · exact (h.modSeq id).performAll (fun _ _ h => h.raise) fun _ _ h => h.landLoad

theorem Fits.startGlobal {a : GAccess} {want : Want} {legal : Nat → Bool} (h : Fits s) : Fits (s.startGlobal a want legal) := by
  unfold State.startGlobal
  split
  · split
    · exact (h.spans.snd ‹_›).illegal
    · split
      · exact (h.spans.snd ‹_›).performChecked
      · exact (h.spans.snd ‹_›).addWait trivial
  · exact (h.spans.snd ‹_›).block
  · exact (h.spans.snd ‹_›).hold
  · exact (h.spans.snd ‹_›).hold
  · exact (h.spans.snd ‹_›).raise
  · exact (h.spans.snd ‹_›).raise

theorem Fits.execLdg {o : LdgForm} (h : Fits s) : OutFits (execLdg o s) := by
  unfold Machine.execLdg
  split
  · exact h.startGlobal
  · exact h

theorem Fits.execStg {o : StgForm} (h : Fits s) : OutFits (execStg o s) := by
  unfold Machine.execStg
  split
  · exact h.startGlobal
  · exact h

theorem Fits.amo {o : AmoForm} {op : AmoOp} (h : Fits s) : Fits (s.amo o op) := by
  unfold State.amo
  split
  · extract_lets
    split
    · exact h.raise
    · split
      · exact h.illegal
      · exact h.startGlobal
  · exact h

theorem Fits.execAmoadd {o : AmoForm} (h : Fits s) : OutFits (execAmoadd o s) := h.amo

theorem Fits.execAmomin {o : AmoForm} (h : Fits s) : OutFits (execAmomin o s) := h.amo

theorem Fits.execAmomax {o : AmoForm} (h : Fits s) : OutFits (execAmomax o s) := h.amo

theorem Fits.execAmoand {o : AmoForm} (h : Fits s) : OutFits (execAmoand o s) := h.amo

theorem Fits.execAmoor {o : AmoForm} (h : Fits s) : OutFits (execAmoor o s) := h.amo

theorem Fits.execAmoxch {o : AmoForm} (h : Fits s) : OutFits (execAmoxch o s) := h.amo

theorem Fits.execAmocas {o : AmoForm} (h : Fits s) : OutFits (execAmocas o s) := h.amo

theorem Fits.execFence {scope : BitVec 2} (h : Fits s) : OutFits (execFence scope s) := h.addWait trivial

theorem Fits.execBr {o : BrForm} (h : Fits s) : OutFits (execBr o s) := h.transfer (fun _ h1 => h1.branchTo)

theorem Fits.execJmp {o : JmpForm} (h : Fits s) : OutFits (execJmp o s) := h.transfer (fun _ h1 => h1.branchTo)

theorem Fits.execCall {o : BrForm} (h : Fits s) : OutFits (execCall o s) := by
  unfold Machine.execCall
  refine h.transfer (fun s1 h1 => Fits.branchTo ?_)
  split
  · exact h1.land trivial
  · exact h1

theorem Fits.execRet {o : RetForm} (h : Fits s) : OutFits (execRet o s) := h.transfer (fun _ h1 => h1.branchTo)

theorem Fits.execLoop {d : BitVec 5} {imm : BitVec 14} (h : Fits s) : OutFits (execLoop d imm s) :=
  h.transfer (fun _ h1 => (h1.land (d := .sreg _ _) trivial).branchTo)

theorem Fits.execEndTask (h : Fits s) : OutFits (execEndTask s) := h.transfer (fun _ h1 => h1.branchTo)

theorem Fits.execRep {m n : BitVec 6} (h : Fits s) : OutFits (execRep m n s) := by
  unfold Machine.execRep
  refine h.transfer (fun s1 h1 => ?_)
  split
  · exact h1
  · exact h1.modSeq id

theorem Fits.execLaunch {o : CrForm} (h : Fits s) : OutFits (execLaunch o s) := by
  unfold Machine.execLaunch
  split
  · dsimp only
    split
    · exact h.illegal
    · split
      · exact h.land trivial
      · exact h.modEng.land trivial
  · exact h

theorem Fits.execSfmt {o : RetForm} (h : Fits s) : OutFits (execSfmt o s) := by
  unfold Machine.execSfmt
  split
  · dsimp only
    split
    · exact h.illegal
    · exact h.land (.ctl_other (by decide))
  · exact h

theorem Fits.execMfc {r : BitVec 5} {x : BitVec 4} {c : BitVec 6} (h : Fits s) : OutFits (execMfc r x c s) := by
  unfold Machine.execMfc
  split
  · exact h.illegal
  · split
    · exact h.raise
    · exact h.land trivial

theorem Fits.execMtc {r : BitVec 5} {x : BitVec 4} {c : BitVec 6} (h : Fits s) : OutFits (execMtc r x c s) := by
  unfold Machine.execMtc
  dsimp only
  split
  · exact h.raise
  · split
    · exact h.illegal
    · split
      · exact h.illegal
      · next hv =>
        refine h.land fun e => ?_
        subst e
        exact .of_ctlValueOk (by simpa using hv)

theorem Fits.execSetvl {o : Cr1Form} (h : Fits s) : OutFits (execSetvl o s) := by
  unfold Machine.execSetvl
  split
  · dsimp only
    split
    · exact h.land trivial
    · next hn =>
      refine (h.land fun _ => ?_).land trivial
      rw [LengthOk, BitVec.toNat_ofNat, Config.maxLen]
      omega
  · exact h

theorem Fits.execSetcm {r : Bool} {a : BitVec 5} {imm : BitVec 8} (h : Fits s) : OutFits (execSetcm r a imm s) :=
  h.land (.ctl_other (by cases r <;> decide))

theorem Fits.execTrap {imm : BitVec 14} (h : Fits s) : OutFits (execTrap imm s) := by
  unfold Machine.execTrap
  refine h.transfer (fun s1 h1 => ?_)
  dsimp only
  split
  · exact h1.takeFault
  · exact h1.advance.takeFault

theorem Fits.execTret (h : Fits s) : OutFits (execTret s) := by
  unfold Machine.execTret
  refine h.transfer (fun s1 h1 => ?_)
  split
  · exact h1.branchTo
  · exact h1.illegal

theorem Fits.execTfence (h : Fits s) : OutFits (execTfence s) := by
  unfold Machine.execTfence
  dsimp only
  split
  · exact h.raise
  · exact h

theorem Fits.execLovt {o : RetForm} (h : Fits s) : OutFits (execLovt o s) := by
  unfold Machine.execLovt
  split
  · split
    · exact h.raise
    · split
      · exact h.illegal
      · exact h.land (.ctl_other (by decide))
  · exact h

theorem Fits.tlbinv {mode : BitVec 2} {a b : W64} (h : Fits s) : Fits (s.tlbinv mode a b) := by
  unfold State.tlbinv
  split
  · exact h.raise
  · split
    · exact h.illegal
    · exact h

theorem Fits.execTlbinv {o : JmpForm} (h : Fits s) : OutFits (execTlbinv o s) := by
  unfold Machine.execTlbinv
  split
  · exact h.tlbinv
  · exact h

theorem Fits.execTlbinvAsid {b : BitVec 5} {n : Bool} {q : BitVec 3} (h : Fits s) : OutFits (execTlbinvAsid b n q s) := by
  unfold Machine.execTlbinvAsid
  split
  · exact h.tlbinv
  · exact h

theorem Fits.execTlbinvAll {n : Bool} {q : BitVec 3} (h : Fits s) : OutFits (execTlbinvAll n q s) := by
  unfold Machine.execTlbinvAll
  split
  · exact h.tlbinv
  · exact h

theorem Fits.appendReckoning {lo hi : W64} (h : Fits s) : Fits (s.appendReckoning lo hi) := by
  unfold State.appendReckoning
  dsimp only
  split
  · exact h.homeWrite.countLocal
  · exact h

theorem Fits.execMark {e : BitVec 20} (h : Fits s) : OutFits (execMark e s) := by
  unfold Machine.execMark
  extract_lets
  split
  · extract_lets _ _ s1
    have h1 : Fits s1 := by
      unfold s1
      split
      · exact (h.land (.ctl_other (by decide))).appendReckoning
      · exact h.land (.ctl_other (by decide))
    exact h1

end Sys2Proof.Safety
end

section
/-! SUPPORT. Rings: what Machine/Rings.lean does keeps every register within its bounds. -/

namespace Sys2Proof.Safety
open Sys2Proof Sys2Proof.Machine Sys2Proof.Laws
variable {s : State}

theorem TaskFits.setRing {t : Task} {h1 : BitVec 4} {r : Machine.Ring} (h : TaskFits t) : TaskFits (t.setRing h1 r) := h

theorem TaskFits.settle {t : Task} {s1 : State} (h : TaskFits t) : TaskFits (t.settle s1) := h

theorem Fits.settle {tile : Nat} (h : Fits s) : Fits (s.settle tile) := h.onTile (fun _ h1 => h1.settle)

theorem Fits.producePart {tile : Nat} {h1 : BitVec 4} {i ix : Nat} {bs : List Byte} (h : Fits s) :
    Fits (s.producePart tile h1 i ix bs) := by
  unfold State.producePart
  split
  · exact h
  · dsimp only
    exact (h.engineWrite.onTile (fun t h2 => h2.setRing)).settle

theorem Fits.consume {tile i : Nat} {gs : List Nat} (h : Fits s) : Fits (s.consume tile i gs) := h.clearFull.settle

theorem TaskFits.ringError {t : Task} {h1 : BitVec 4} {kind : Nat} (h : TaskFits t) : TaskFits (t.ringError h1 kind) := by
  unfold Task.ringError
  dsimp only
  exact h

end Sys2Proof.Safety
end

section
/-! SUPPORT. Slot A: what Machine/SlotA.lean does keeps every register within its bounds. -/

namespace Sys2Proof.Safety
open Sys2Proof Sys2Proof.Machine Sys2Proof.Laws
variable {s : State}

/-! ### Runs aligned over N positions (R193, R196) -/

section
variable {α β : Type}

theorem runLen_eq_sum (r : Machine.Runs α) : runLen r = (r.map (·.2)).sum := by
  induction r with
  | nil => rfl
  | cons p r ih => simp [runLen, ih]

/-- Pieces made of runs one by one, each over as many positions. -/
theorem pieceRuns_map {r : Machine.Runs α} {f : α × Nat → Piece β} (hf : ∀ p, (f p).2.1 = p.2) :
    (Positive r → Positive (Machine.pieceRuns (r.map f))) ∧ runLen (Machine.pieceRuns (r.map f)) = runLen r := by
  constructor
  · intro h p hp
    obtain ⟨q, hq, rfl⟩ := List.mem_map.1 hp
    obtain ⟨x, hx, rfl⟩ := List.mem_map.1 hq
    exact (hf x).symm ▸ h x hx
  · simp [runLen_eq_sum, Machine.pieceRuns, Function.comp_def, hf]

theorem PiecesFit.of_runs [DecidableEq β] {r : Machine.Runs α} {f : α × Nat → Piece β} (hf : ∀ p, (f p).2.1 = p.2) (h : Positive r)
    (hl : runLen r ≤ 4096) : PiecesFit (Machine.canonF (r.map f)) :=
  .canonF ((pieceRuns_map hf).1 h) ((pieceRuns_map hf).2.trans_le hl)

/-- A result of one run. -/
theorem PiecesFit.single {v : α} {c : Nat} {f : Flags} (h1 : 1 ≤ c) (h2 : c ≤ 4096) : PiecesFit [(v, c, f)] :=
  ⟨.cons h1 .nil, by simpa [Machine.pieceRuns, runLen] using h2, by simp [Machine.pieceRuns, Distinct]⟩

theorem alignAll_cons {n : Nat} {r : Machine.Runs W32} {srcs : List (Machine.Runs W32)} {msk : Machine.Runs Bool} {old : Machine.Runs β} :
    alignAll n (r :: srcs) msk old = mapRuns (fun p => (p.1 :: p.2.1, p.2.2)) (zipR (fitLen 0#32 n r) (alignAll n srcs msk old)) := rfl

theorem Positive.alignAll {n : Nat} {srcs : List (Machine.Runs W32)} {msk : Machine.Runs Bool} {old : Machine.Runs β}
    (hs : ∀ r ∈ srcs, Positive r) (hm : Positive msk) (ho : Positive old) : Positive (Machine.alignAll n srcs msk old) := by
  induction srcs with
  | nil => exact (hm.zipR ho).mapRuns
  | cons r srcs ih =>
    obtain ⟨hr, hs⟩ := List.forall_mem_cons.1 hs
    rw [alignAll_cons]
    exact (hr.fitLen.zipR (ih hs)).mapRuns

theorem runLen_alignAll {n : Nat} {srcs : List (Machine.Runs W32)} {msk : Machine.Runs Bool} {old : Machine.Runs β} :
    runLen (alignAll n srcs msk old) ≤ runLen msk := by
  induction srcs with
  | nil =>
    change runLen (mapRuns _ (zipR msk old)) ≤ _
    rw [runLen_mapRuns, runLen_zipR]
    omega
  | cons r srcs ih =>
    rw [alignAll_cons, runLen_mapRuns, runLen_zipR]
    omega

/-- The element-wise procedure over a mask of 4,096 positions at most (R196). -/
theorem PiecesFit.elemWise [DecidableEq β] {n : Nat} {srcs : List (Machine.Runs W32)} {msk : Machine.Runs Bool} {z : Bool} {zero : β}
    {old : Machine.Runs β} {fn : List W32 → β × Flags} (hs : ∀ r ∈ srcs, Positive r) (hm : Positive msk) (hl : runLen msk ≤ 4096)
    (ho : Positive old) : PiecesFit (Machine.elemWise n srcs msk z zero old fn) := by
  have hold : Positive (fitLen zero n (if z then [] else old)) := by
    split
    · exact Positive.nil.fitLen
    · exact ho.fitLen
  refine .of_runs (fun p => ?_) (.alignAll hs hm hold) (runLen_alignAll.trans hl)
  dsimp only
  split <;> rfl

end

theorem opLen_le {vl : Nat} {lens : List Nat} : opLen vl lens ≤ vl :=
  List.foldlRecOn (motive := fun n => n ≤ vl) _ _ (Nat.le_refl _) fun _ h _ _ => (Nat.min_le_left ..).trans h

theorem Fits.vl (h : Fits s) : 1 ≤ s.vl ∧ s.vl ≤ 4096 := h.cur.vl

theorem Fits.opLen (h : Fits s) {lens : List Nat} : Machine.opLen s.vl lens ≤ 4096 := opLen_le.trans h.vl.2

theorem Fits.cluster (h : Fits s) (i : Fin 8) : ClusterFits (s.cluster i) := h.cur.cl i

theorem ClusterFits.vreg {c : Cluster} (h : ClusterFits c) (r : BitVec 5) : RegisterRuns (c.vreg r) := h.1 r
theorem ClusterFits.kreg {c : Cluster} (h : ClusterFits c) (k : BitVec 3) : RegisterRuns (c.kreg k) := h.2 k

theorem ClusterFits.mask {c : Cluster} (h : ClusterFits c) {k : BitVec 3} {n : Nat} : Positive (c.mask k n) := by
  unfold Cluster.mask
  split
  · exact Positive.nil.fitLen
  · exact (h.kreg k).positive.fitLen

theorem positive_broadcast {v : W64} : Positive (broadcast v) := .cons (by simp [Config.maxLen]) .nil

theorem ClusterFits.secondSrc {c : Cluster} (h : ClusterFits c) {b : BitVec 5} {sc : Bool} : Positive (s.secondSrc c b sc) := by
  unfold State.secondSrc
  split
  · exact positive_broadcast
  · exact (h.vreg b).positive

/-- The sources of a one-source, a two-source and an FMA-class form. -/
theorem ClusterFits.src1 {c : Cluster} (h : ClusterFits c) {a : BitVec 5} : ∀ r ∈ [c.vreg a], Positive r := by
  simpa using (h.vreg a).positive

theorem ClusterFits.src2 {c : Cluster} (h : ClusterFits c) {a b : BitVec 5} {sc : Bool} : ∀ r ∈ [c.vreg a, s.secondSrc c b sc], Positive r := by
  simpa using ⟨(h.vreg a).positive, h.secondSrc⟩

theorem ClusterFits.src3 {c : Cluster} (h : ClusterFits c) {a b d : BitVec 5} {sc : Bool} :
    ∀ r ∈ [c.vreg a, s.secondSrc c b sc, c.vreg d], Positive r := by
  simpa using ⟨(h.vreg a).positive, h.secondSrc, (h.vreg d).positive⟩

/-- Results formed cluster by cluster. -/
theorem ResultsFit.map {α : Type} {cls : List (Fin 8)} {f : Fin 8 → ClRes α} (h : ∀ i, PiecesFit (f i).pieces) : ResultsFit (cls.map f) :=
  List.forall_mem_map.2 fun i _ => h i

/-! ### Shared operations -/

theorem Fits.vecOp {lat : Nat} {d : BitVec 5} {k : BitVec 3} {cl : BitVec 2} {z readsRm : Bool}
    {srcs : Cluster → List (Machine.Runs W32)} {fn : List W32 → W32 × Flags} (h : Fits s)
    (hs : ∀ c, ClusterFits c → ∀ r ∈ srcs c, Positive r) : Fits (s.vecOp lat d k cl z readsRm srcs fn) := by
  unfold State.vecOp
  split
  · exact h.illegal
  · exact h.landRuns (makesFit_vreg d) (.map fun i => .elemWise (hs _ (h.cluster i)) (h.cluster i).mask ((runLen_mask ..).trans_le h.opLen)
      ((h.cluster i).vreg d).positive)

theorem Fits.float2 {o : AForm} {lat : Nat} {readsRm : Bool} {f : FVal → FVal → FVal × Flags} (h : Fits s) :
    Fits (s.float2 o lat readsRm f) :=
  h.vecOp fun _ hc => hc.src2

theorem Fits.float3 {o : AForm} {f : FVal → FVal → FVal → FVal × Flags} (h : Fits s) : Fits (s.float3 o f) := h.vecOp fun _ hc => hc.src3

theorem Fits.float1 {o : A1Form} {lat : Nat} {readsRm : Bool} {f : FVal → W32 × Flags} (h : Fits s) : Fits (s.float1 o lat readsRm f) :=
  h.vecOp fun _ hc => hc.src1

theorem Fits.int2 {o : AForm} {f : W32 → W32 → W32} (h : Fits s) : Fits (s.int2 o f) := h.vecOp fun _ hc => hc.src2

theorem Fits.cmpVec {o : VcmpForm} {f : W32 → W32 → Bool × Flags} (h : Fits s) : Fits (s.cmpVec o f) := by
  unfold State.cmpVec
  refine h.landRuns (makesFit_kreg o.d) (.map fun i => ?_)
  have hc := h.cluster i
  dsimp only
  refine PiecesFit.elemWise ?_ ?_ ?_ ?_
  · exact hc.src2
  · exact hc.mask
  · rw [runLen_mask]
    exact h.opLen
  · exact hc.mask

/-- A mask result whose function keeps to the operation's length. -/
theorem Fits.maskOp {cl : BitVec 2} {d : BitVec 3} {srcs : List (BitVec 3)}
    {f : Nat → List (Machine.Runs Bool) → Machine.Runs Bool} (h : Fits s)
    (hf : ∀ n ≤ 4096, ∀ c, ClusterFits c → Positive (f n (srcs.map fun k => c.mask k n)) ∧ runLen (f n (srcs.map fun k => c.mask k n)) ≤ 4096) :
    Fits (s.maskOp cl d srcs f) :=
  h.landRuns (makesFit_kreg d) (.map fun i =>
    have hr := hf _ h.opLen _ (h.cluster i)
    .of_runs (fun _ => rfl) hr.1 hr.2)

theorem Fits.runsOp {cl : BitVec 2} {lat : Nat} {d : BitVec 5} {f : Cluster → Machine.Runs W32 × Flags} (h : Fits s)
    (hf : ∀ c, ClusterFits c → Positive (f c).1 ∧ runLen (f c).1 ≤ 4096) : Fits (s.runsOp cl lat d f) :=
  h.landRuns (makesFit_vreg d) (.map fun i =>
    have hr := hf _ (h.cluster i)
    .of_runs (fun _ => rfl) hr.1 hr.2)

/-! ### Arithmetic, compares and selection (R202 to R208) -/

theorem Fits.execNopA (h : Fits s) : OutFits (execNopA s) := h

theorem Fits.execVadd {o : AForm} (h : Fits s) : OutFits (execVadd o s) := h.float2

theorem Fits.execVsub {o : AForm} (h : Fits s) : OutFits (execVsub o s) := h.float2

theorem Fits.execVmul {o : AForm} (h : Fits s) : OutFits (execVmul o s) := h.float2

theorem Fits.execVdiv {o : AForm} (h : Fits s) : OutFits (execVdiv o s) := h.float2

theorem Fits.execVmin {o : AForm} (h : Fits s) : OutFits (execVmin o s) := h.float2

theorem Fits.execVmax {o : AForm} (h : Fits s) : OutFits (execVmax o s) := h.float2

theorem Fits.execVfma {o : AForm} (h : Fits s) : OutFits (execVfma o s) := h.float3

theorem Fits.execVfms {o : AForm} (h : Fits s) : OutFits (execVfms o s) := h.float3

theorem Fits.execVfnma {o : AForm} (h : Fits s) : OutFits (execVfnma o s) := h.float3

theorem Fits.execVabs {o : A1Form} (h : Fits s) : OutFits (execVabs o s) := h.float1

theorem Fits.execVneg {o : A1Form} (h : Fits s) : OutFits (execVneg o s) := h.float1

theorem Fits.rootOp {o : A1Form} {p : Bool} {f : FVal → FVal × Flags} (h : Fits s) : Fits (s.rootOp o p f) := h.float1

theorem Fits.execVsqrt {o : A1Form} {p : Bool} (h : Fits s) : OutFits (execVsqrt o p s) := h.rootOp

theorem Fits.execVrsq {o : A1Form} {p : Bool} (h : Fits s) : OutFits (execVrsq o p s) := h.rootOp

theorem Fits.execVrcp {o : A1Form} (h : Fits s) : OutFits (execVrcp o s) := h.float1

theorem Fits.execVexp {o : A1Form} (h : Fits s) : OutFits (execVexp o s) := h.float1

theorem Fits.execVlog {o : A1Form} (h : Fits s) : OutFits (execVlog o s) := h.float1

theorem Fits.execVsin {o : A1Form} (h : Fits s) : OutFits (execVsin o s) := h.float1

theorem Fits.execVcos {o : A1Form} (h : Fits s) : OutFits (execVcos o s) := h.float1

theorem Fits.execVtanh {o : A1Form} (h : Fits s) : OutFits (execVtanh o s) := h.float1

theorem Fits.execVrint {o : A1Form} {x : BitVec 3} (h : Fits s) : OutFits (execVrint o x s) := by
  unfold Machine.execVrint
  dsimp only
  exact h.float1

theorem Fits.execViadd {o : AForm} (h : Fits s) : OutFits (execViadd o s) := h.int2

theorem Fits.execVisub {o : AForm} (h : Fits s) : OutFits (execVisub o s) := h.int2

theorem Fits.execVimul {o : AForm} (h : Fits s) : OutFits (execVimul o s) := h.int2

theorem Fits.execVimulh {o : AForm} (h : Fits s) : OutFits (execVimulh o s) := h.int2

theorem Fits.execVimin {o : AForm} (h : Fits s) : OutFits (execVimin o s) := h.int2

theorem Fits.execVimax {o : AForm} (h : Fits s) : OutFits (execVimax o s) := h.int2

theorem Fits.execViminu {o : AForm} (h : Fits s) : OutFits (execViminu o s) := h.int2

theorem Fits.execVimaxu {o : AForm} (h : Fits s) : OutFits (execVimaxu o s) := h.int2

theorem Fits.execVand {o : AForm} (h : Fits s) : OutFits (execVand o s) := h.int2

theorem Fits.execVor {o : AForm} (h : Fits s) : OutFits (execVor o s) := h.int2

theorem Fits.execVxor {o : AForm} (h : Fits s) : OutFits (execVxor o s) := h.int2

theorem Fits.execVshl {o : AForm} (h : Fits s) : OutFits (execVshl o s) := h.int2

theorem Fits.execVshr {o : AForm} (h : Fits s) : OutFits (execVshr o s) := h.int2

theorem Fits.execVshra {o : AForm} (h : Fits s) : OutFits (execVshra o s) := h.int2

theorem Fits.execViabs {o : A1Form} (h : Fits s) : OutFits (execViabs o s) := h.vecOp fun _ hc => hc.src1

theorem Fits.execVcmp {o : VcmpForm} (h : Fits s) : OutFits (execVcmp o s) := h.cmpVec

theorem Fits.execVicmp {o : VcmpForm} (h : Fits s) : OutFits (execVicmp o s) := h.cmpVec

theorem Fits.execVsel {o : VselForm} (h : Fits s) : OutFits (execVsel o s) := by
  refine h.landRuns (makesFit_vreg o.d) (.map fun i => .of_runs (fun _ => rfl) (Positive.mapRuns ?_) ?_)
  · exact (h.cluster i).mask.zipR (((h.cluster i).vreg o.a).positive.fitLen.zipR (h.cluster i).secondSrc.fitLen)
  · rw [runLen_mapRuns, runLen_zipR, runLen_mask]
    exact (Nat.min_le_left ..).trans h.opLen

/-! ### Masks (R213 to R215) -/

theorem Fits.mask2 {o : KForm} {g : Bool → Bool → Bool} (h : Fits s) : Fits (s.maskOp o.cl o.d [o.a, o.b] (bits2 g)) := by
  refine h.maskOp fun n hn c hc => ?_
  have e : bits2 g n ([o.a, o.b].map fun k => c.mask k n) = mapRuns (fun p => g p.1 p.2) (zipR (c.mask o.a n) (c.mask o.b n)) := rfl
  rw [e]
  refine ⟨(hc.mask.zipR hc.mask).mapRuns, ?_⟩
  rw [runLen_mapRuns, runLen_zipR, runLen_mask, runLen_mask]
  omega

theorem Fits.execKand {o : KForm} (h : Fits s) : OutFits (execKand o s) := h.mask2

theorem Fits.execKor {o : KForm} (h : Fits s) : OutFits (execKor o s) := h.mask2

theorem Fits.execKxor {o : KForm} (h : Fits s) : OutFits (execKxor o s) := h.mask2

theorem Fits.execKnot {d a : BitVec 3} {cl : BitVec 2} (h : Fits s) : OutFits (execKnot d a cl s) := by
  refine h.maskOp fun n hn c hc => ⟨hc.mask.mapRuns, ?_⟩
  change runLen (mapRuns _ (c.mask a n)) ≤ _
  rw [runLen_mapRuns, runLen_mask]
  exact hn

theorem firstTrue_lt {r : Machine.Runs Bool} {p : Nat} (h : firstTrue r = some p) : p < runLen r := by
  induction r generalizing p with
  | nil => cases h
  | cons q r ih =>
    obtain ⟨b, c⟩ := q
    simp only [firstTrue] at h
    split at h
    · next hb => simp only [Bool.and_eq_true, bne_iff_ne] at hb; cases h; simp only [runLen]; omega
    · obtain ⟨p', hp, rfl⟩ := Option.map_eq_some_iff.1 h
      have := ih hp
      simp only [runLen]
      omega

theorem oneTrue_fits {n : Nat} {p : Option Nat} (hn : n ≤ 4096) (hp : ∀ x ∈ p, x < n) : Positive (oneTrue n p) ∧ runLen (oneTrue n p) ≤ 4096 := by
  cases p with
  | none => exact ⟨Positive.nil.fitLen, (runLen_fitLen ..).trans_le hn⟩
  | some x =>
    have hx := hp x rfl
    refine ⟨(Positive.nil.fitLen.append (.cons (Nat.le_refl 1) .nil)).append Positive.nil.fitLen, ?_⟩
    simp only [oneTrue, runLen_append, runLen_fitLen, runLen]
    omega

theorem Fits.execKfirst {d a : BitVec 3} {cl : BitVec 2} (h : Fits s) : OutFits (execKfirst d a cl s) := by
  refine h.maskOp fun n hn c _ => oneTrue_fits hn fun x hx => ?_
  have hx := firstTrue_lt hx
  rwa [show ([a].map fun k => c.mask k n).headD [] = c.mask a n from rfl, runLen_mask] at hx

/-- A count is one run of one element. -/
theorem countRun_fits {v : W32} : Positive ([(v, 1)] : Machine.Runs W32) ∧ runLen ([(v, 1)] : Machine.Runs W32) ≤ 4096 :=
  ⟨.cons (Nat.le_refl 1) .nil, by simp [runLen]⟩

theorem Fits.execKcnt {d : BitVec 5} {a : BitVec 3} {cl : BitVec 2} (h : Fits s) : OutFits (execKcnt d a cl s) := h.runsOp fun _ _ => countRun_fits

/-! ### Run control (R216 to R221) -/

theorem Fits.execVcoal {o : A1Form} {p : Bool} (h : Fits s) : OutFits (execVcoal o p s) := h.vecOp fun _ hc => hc.src1

/-- A merge keeps every position of its runs. -/
theorem mergeRuns_fits {near : W32 → W32 → Bool} {r acc : Machine.Runs W32} {ix : Bool} (hr : Positive r) (ha : Positive acc) :
    Positive (mergeRuns near r acc ix).1 ∧ runLen (mergeRuns near r acc ix).1 = runLen r + runLen acc := by
  induction r generalizing acc ix with
  | nil =>
    constructor
    · exact fun p hp => ha p (List.mem_reverse.1 hp)
    · change runLen acc.reverse = runLen [] + runLen acc
      simp [runLen_eq_sum, List.sum_reverse]
  | cons p r ih =>
    obtain ⟨v, c⟩ := p
    obtain ⟨hc, hr⟩ := List.forall_mem_cons.1 hr
    cases acc with
    | nil =>
      obtain ⟨hp, hl⟩ := ih (acc := [(v, c)]) (ix := ix) hr (.cons hc .nil)
      exact ⟨hp, hl.trans (by simp only [runLen]; omega)⟩
    | cons q acc =>
      obtain ⟨u, n⟩ := q
      obtain ⟨hn, ha⟩ := List.forall_mem_cons.1 ha
      simp only [mergeRuns]
      split
      · obtain ⟨hp, hl⟩ := ih (acc := (u, n + c) :: acc) (ix := ix || u != v) hr (.cons (Nat.le_add_right_of_le hn) ha)
        exact ⟨hp, hl.trans (by simp only [runLen]; omega)⟩
      · obtain ⟨hp, hl⟩ := ih (acc := (v, c) :: (u, n) :: acc) (ix := ix) hr (.cons hc (.cons hn ha))
        exact ⟨hp, hl.trans (by simp only [runLen]; omega)⟩

theorem Fits.execVcoalq {o : V3Form} {i : Bool} (h : Fits s) : OutFits (execVcoalq o i s) := by
  unfold Machine.execVcoalq
  dsimp only
  refine h.runsOp fun c hc => ?_
  obtain ⟨hp, hl⟩ := mergeRuns_fits (near := fun u v => within s.numCtx i u v (BitVec.extractLsb' 0 32 (s.sreg o.b))) (ix := false)
    (hc.vreg o.a).positive .nil
  exact ⟨hp, hl.trans_le (hc.vreg o.a).len⟩

theorem Fits.execVrlset {o : V3Form} (h : Fits s) : OutFits (execVrlset o s) := by
  unfold Machine.execVrlset
  dsimp only
  refine h.runsOp fun c hc => ?_
  dsimp only
  split
  · exact ⟨.nil, by simp [runLen]⟩
  · exact ⟨.cons (by simp only [Config.maxLen]; omega) .nil, by simp only [runLen, Config.maxLen]; omega⟩

theorem Fits.execVsplat {d b : BitVec 5} {cl : BitVec 2} (h : Fits s) : OutFits (execVsplat d b cl s) :=
  h.runsOp fun _ _ => ⟨Positive.nil.fitLen, (runLen_fitLen ..).trans_le h.vl.2⟩

theorem Fits.execVruns {d a : BitVec 5} {cl : BitVec 2} (h : Fits s) : OutFits (execVruns d a cl s) := h.runsOp fun _ _ => countRun_fits

theorem Fits.execVlen {d a : BitVec 5} {cl : BitVec 2} (h : Fits s) : OutFits (execVlen d a cl s) := h.runsOp fun _ _ => countRun_fits

theorem Fits.execVrunsK {d : BitVec 5} {a : BitVec 3} {cl : BitVec 2} (h : Fits s) : OutFits (execVrunsK d a cl s) :=
  h.runsOp fun _ _ => countRun_fits

theorem Fits.execVlenK {d : BitVec 5} {a : BitVec 3} {cl : BitVec 2} (h : Fits s) : OutFits (execVlenK d a cl s) :=
  h.runsOp fun _ _ => countRun_fits

theorem Fits.execVtrim {o : V3Form} (h : Fits s) : OutFits (execVtrim o s) :=
  h.runsOp fun _ hc => ⟨(hc.vreg o.a).positive.takeLen, (runLen_takeLen ..).trans_le ((Nat.min_le_right ..).trans (hc.vreg o.a).len)⟩

theorem Fits.execVtrimDrop {o : V3Form} (h : Fits s) : OutFits (execVtrimDrop o s) :=
  h.runsOp fun _ hc => ⟨(hc.vreg o.a).positive.dropLen, (runLen_dropLen ..).trans_le ((Nat.sub_le ..).trans (hc.vreg o.a).len)⟩

theorem Fits.execVcat {o : V3Form} (h : Fits s) : OutFits (execVcat o s) :=
  h.runsOp fun _ hc => ⟨((hc.vreg o.a).positive.append (hc.vreg o.b).positive).takeLen, (runLen_takeLen ..).trans_le (Nat.min_le_left ..)⟩

/-! ### Reductions (R222 to R225) -/

theorem Fits.reduce {o : RedForm} {srcs : Cluster → List (Machine.Runs W32)} {op : RedOp}
    {first : Cluster → Nat → Machine.Runs Bool → W32 × Flags} (h : Fits s) :
    Fits (s.reduce o srcs op first) := by
  unfold State.reduce
  dsimp only
  split <;> exact h.landRuns (makesFit_vreg o.d) (List.forall_mem_map.2 fun _ _ => .single (Nat.le_refl 1) (by decide))

theorem Fits.reduceRuns {o : RedForm} {op : RedOp} {term : W32 → Nat → W32 × Flags} (h : Fits s) : Fits (s.reduceRuns o op term) := h.reduce

theorem Fits.execVrsum {o : RedForm} (h : Fits s) : OutFits (execVrsum o s) := h.reduceRuns

theorem Fits.execVrmax {o : RedForm} (h : Fits s) : OutFits (execVrmax o s) := h.reduceRuns

theorem Fits.execVrmin {o : RedForm} (h : Fits s) : OutFits (execVrmin o s) := h.reduceRuns

theorem Fits.execVrisum {o : RedForm} (h : Fits s) : OutFits (execVrisum o s) := h.reduceRuns

theorem Fits.execVrimax {o : RedForm} (h : Fits s) : OutFits (execVrimax o s) := by
  unfold Machine.execVrimax
  dsimp only
  exact h.reduceRuns

theorem Fits.execVrimin {o : RedForm} (h : Fits s) : OutFits (execVrimin o s) := by
  unfold Machine.execVrimin
  dsimp only
  exact h.reduceRuns

theorem Fits.execVdot {o : RedForm} {b : BitVec 5} (h : Fits s) : OutFits (execVdot o b s) := h.reduce

end Sys2Proof.Safety
end

section
/-! SUPPORT. Slot B: what Machine/SlotB.lean does keeps every register within its bounds. -/

namespace Sys2Proof.Safety
open Sys2Proof Sys2Proof.Machine Sys2Proof.Laws
variable {s : State}

theorem Fits.notePoison {tile i : Nat} {gs : List Nat} {pc : Option Nat} (h : Fits s) : Fits (s.notePoison tile i gs pc) := by
  unfold State.notePoison
  split
  · exact h.setCur h.cur.deferHw
  · exact h

/-! ### Results of moves and loads (R287) -/

/-- The old destinations that a result merges with. -/
def OldsFit (l : List (Fin 8 × Machine.Runs W32)) : Prop := ∀ p ∈ l, RegisterRuns p.2

theorem MasksFit.lookup {l : List (Fin 8 × Option (Machine.Runs Bool))} (h : MasksFit l) {i : Fin 8} : ∀ r ∈ lookupCl none i l, RegisterRuns r := by
  unfold lookupCl
  split
  · next p hp => exact h p (List.mem_of_find?_eq_some hp)
  · simp

theorem OldsFit.lookup {l : List (Fin 8 × Machine.Runs W32)} (h : OldsFit l) {i : Fin 8} : RegisterRuns (lookupCl [] i l) := by
  unfold lookupCl
  split
  · next p hp => exact h p (List.mem_of_find?_eq_some hp)
  · exact .nil

/-- The masks that a bundle reads for its slot B. -/
theorem Fits.bMasks (h : Fits s) {cls : List (Fin 8)} {k : BitVec 3} : MasksFit (s.bMasks cls k) := by
  refine List.forall_mem_map.2 fun i _ r hr => ?_
  dsimp only at hr
  split at hr
  · cases hr
  · cases hr
    exact (h.cluster i).kreg k

/-- The old destinations that a bundle reads. -/
theorem Fits.olds (h : Fits s) {cls : List (Fin 8)} {d : BitVec 5} : OldsFit (cls.map fun i => (i, (s.cluster i).vreg d)) :=
  List.forall_mem_map.2 fun i _ => (h.cluster i).vreg d

theorem positive_maskOver {m : Option (Machine.Runs Bool)} {n : Nat} (h : ∀ r ∈ m, RegisterRuns r) : Positive (maskOver m n) := by
  unfold maskOver
  split
  · exact Positive.nil.fitLen
  · exact (h _ rfl).positive.fitLen

theorem runLen_maskOver (m : Option (Machine.Runs Bool)) (n : Nat) : runLen (maskOver m n) = n := by
  unfold maskOver
  split <;> exact runLen_fitLen ..

theorem PiecesFit.moveRes {i : Fin 8} {n : Nat} {vals old : Machine.Runs W32} {m : Option (Machine.Runs Bool)} {extra : Flags} (hn : n ≤ 4096)
    (hv : Positive vals) (hm : ∀ r ∈ m, RegisterRuns r) (ho : RegisterRuns old) : PiecesFit (Machine.moveRes i n vals m old extra).pieces := by
  unfold Machine.moveRes
  dsimp only
  refine .elemWise ?_ (positive_maskOver hm) ((runLen_maskOver m n).trans_le hn) ho.positive
  simpa using hv

/-- Results formed for each element of a list. -/
theorem ResultsFit.of_mem {α β : Type} {l : List β} {f : β → ClRes α} (h : ∀ x ∈ l, PiecesFit (f x).pieces) : ResultsFit (l.map f) :=
  List.forall_mem_map.2 h

theorem ResultsFit.elems {tile lf vl : Nat} {addrs : List (Fin 8 × List Nat)} {msk : List (Fin 8 × Option (Machine.Runs Bool))}
    {old : List (Fin 8 × Machine.Runs W32)} (ha : ∀ p ∈ addrs, p.2.length ≤ 4096) (hm : MasksFit msk) (ho : OldsFit old) :
    ResultsFit (s.elemResults tile lf vl addrs msk old) :=
  .of_mem fun p hp => .moveRes (ha p hp) .units hm.lookup ho.lookup

theorem ResultsFit.bits {tile ea n vl : Nat} {cls : List (Fin 8)} (hn : n ≤ 4096) : ResultsFit (s.maskResults tile ea n vl cls) := by
  refine .map fun i => .canonF ?_ ?_
  · intro p hp
    obtain ⟨q, hq, rfl⟩ := List.mem_map.1 hp
    obtain ⟨b, -, rfl⟩ := List.mem_map.1 hq
    exact Nat.le_refl 1
  · simpa [runLen_eq_sum, Machine.pieceRuns, Function.comp_def, bitsOf] using hn

/-! ### Run-form rows (R232, R233, R296, R299) -/

/-- A run list of a row that parses covers its LEN elements, each run one at least (R232). -/
theorem parseRow_fits {bs : List Byte} {r : RunRow} (h : parseRow bs = some r) : Positive r.runs ∧ runLen r.runs = r.len ∧ r.len ≤ 4096 := by
  unfold parseRow at h
  extract_lets v w0 typ len n wide runs clean used rest at h
  split at h
  · cases h
  · next hc =>
    cases h
    simp only [Bool.or_eq_true, bne_iff_ne, decide_eq_true_eq, not_or, not_not] at hc
    refine ⟨List.forall_mem_map.2 fun j _ => ?_, hc.1.2, Nat.not_lt.1 hc.2⟩
    split <;> exact Nat.le_add_left 1 _

theorem containers_fits {bs : List Byte} {r : RunRow} (h : parseRow bs = some r) : Positive r.containers ∧ runLen r.containers = r.len := by
  obtain ⟨hp, hl, -⟩ := parseRow_fits h
  exact ⟨hp.mapRuns, (runLen_mapRuns ..).trans hl⟩

/-- What is read of a chain fits a register. -/
def ChainFits (c : Chain) : Prop := Positive c.runs ∧ runLen c.runs ≤ 4096

theorem ChainFits.of_nil {c : Chain} (h : c.runs = []) : ChainFits c := by rw [ChainFits, h]; exact ⟨.nil, by simp [runLen]⟩

theorem readChain_fits {t : Machine.Task} {i : Fin 8} {need : Bool} {n row sum : Nat} {typ : Option Nat} (hs : sum ≤ 4096) :
    Positive (s.readChain t i need n row sum typ).runs ∧ sum + runLen (s.readChain t i need n row sum typ).runs ≤ 4096 := by
  have hnil : Positive ([] : Machine.Runs W32) ∧ sum + runLen ([] : Machine.Runs W32) ≤ 4096 := ⟨.nil, hs⟩
  induction n generalizing row sum typ with
  | zero => exact hnil
  | succ n ih =>
    unfold State.readChain
    split
    · exact hnil
    · split
      · exact hnil
      · split
        · exact hnil
        · next r hr =>
          obtain ⟨hp, hl⟩ := containers_fits hr
          split
          · exact hnil
          · next hc =>
            have hle : sum + r.len ≤ 4096 := by
              rw [Bool.or_eq_true, not_or, decide_eq_true_eq] at hc
              exact Nat.not_lt.1 hc.1
            split
            · exact ⟨hp, by change sum + runLen r.containers ≤ 4096; omega⟩
            · obtain ⟨kp, kl⟩ := ih (row := row + 1) (sum := sum + r.len) (typ := some r.typ) hle ⟨.nil, hle⟩
              split
              · next l k hok =>
                rw [hok] at kp kl
                change Positive l at kp
                change sum + r.len + runLen l ≤ 4096 at kl
                refine ⟨hp.append kp, ?_⟩
                change sum + runLen (r.containers ++ l) ≤ 4096
                rw [runLen_append]
                omega
              · exact ⟨kp, by omega⟩

theorem ChainFits.chainAt {i : Fin 8} {start : BitVec 22} {need : Bool} : ChainFits (s.chainAt i start need) := by
  unfold State.chainAt
  split
  · exact .of_nil rfl
  · simpa [ChainFits] using readChain_fits (s := s) (t := s.cur) (i := i) (need := need) (n := 8) (row := start.toNat / 64) (sum := 0)
      (typ := none) (by omega)

theorem Fits.loadElems {o : BMemForm} {operand : Nat → Bool} {addrs : List (Fin 8 × List Nat)} (h : Fits s)
    (ha : ∀ p ∈ addrs, p.2.length ≤ 4096) : Fits (s.loadElems o operand addrs) := by
  unfold State.loadElems
  dsimp only
  split
  · exact h.raise
  · split
    · exact (h.landVecB h.bMasks (.elems ha h.bMasks h.olds)).foldl (fun s1 x h1 => h1.notePoison)
    · exact h.addWait ⟨h.olds, h.bMasks, h.vl.2, ha⟩

theorem Fits.storeCode {tile i w a code : Nat} (h : Fits s) : Fits (s.storeCode tile i w a code) := by
  unfold State.storeCode
  split
  · dsimp only
    exact h.towerWrite
  · exact h.towerWrite

theorem Fits.storeElems {o : BMemForm} {operand : Nat → Bool} {addrs : List (Fin 8 × List Nat)} (h : Fits s) :
    Fits (s.storeElems o operand addrs) := by
  unfold State.storeElems
  dsimp only
  split
  · exact h.raise
  · refine ((h.foldl (fun s1 x h1 => ?_)).push trivial)
    split
    · refine (h1.foldl (fun s2 x1 h2 => ?_)).setFull
      split
      · exact h2.storeCode
      · exact h2
    · refine h1.foldl (fun s2 x1 h2 => ?_)
      split
      · exact h2.storeCode
      · exact h2

theorem Fits.execNopB (h : Fits s) : OutFits (execNopB s) := h

theorem Fits.denseAligned {o : BMemForm} {access : (Nat → Bool) → List (Fin 8 × List Nat) → State}
    {addrs : List (Fin 8 × List Nat)} (h : Fits s) (ha : ∀ f, Fits (access f addrs)) :
    Fits (s.denseAligned o access addrs) := by
  unfold State.denseAligned
  dsimp only
  split
  · exact h.raise
  · exact ha _

theorem Fits.execVld {o : BMemForm} (h : Fits s) : OutFits (execVld o s) :=
  Fits.denseAligned h fun _ => h.loadElems <| List.forall_mem_map.2 fun _ _ => by
    have := h.vl
    simp only [denseAddrs, List.length_map, List.length_range]
    omega

theorem Fits.execVst {o : BMemForm} (h : Fits s) : OutFits (execVst o s) := Fits.denseAligned h fun _ => h.storeElems

theorem Fits.noNibbles {o : BMemForm} {access : (Nat → Bool) → List (Fin 8 × List Nat) → State} {addrs : List (Fin 8 × List Nat)}
    (h : Fits s) (ha : ∀ f, Fits (access f addrs)) :
    Fits (s.noNibbles o access addrs) := by
  unfold State.noNibbles
  dsimp only
  split
  · exact h.raise
  · exact ha _

theorem Fits.execVlds {o : BMemForm} (h : Fits s) : OutFits (execVlds o s) :=
  Fits.noNibbles h fun _ => h.loadElems <| List.forall_mem_map.2 fun _ _ => by
    simp only [List.length_map, List.length_range]
    omega

theorem Fits.execVsts {o : BMemForm} (h : Fits s) : OutFits (execVsts o s) := Fits.noNibbles h fun _ => h.storeElems

theorem Fits.execVldx {o : BMemForm} (h : Fits s) : OutFits (execVldx o s) :=
  Fits.noNibbles h fun _ => h.loadElems <| List.forall_mem_map.2 fun _ _ => by
    simp only [State.indexedAddrs, List.length_map, length_flat, runLen_fitLen]
    omega

theorem Fits.execVstx {o : BMemForm} (h : Fits s) : OutFits (execVstx o s) := Fits.noNibbles h fun _ => h.storeElems

theorem Fits.execVcur {a b : BitVec 5} {cl y : BitVec 2} (h : Fits s) : OutFits (execVcur a b cl y s) := h.land trivial

theorem Fits.landChain {d : BitVec 5} {y : BitVec 2} {msk : List (Fin 8 × Option (Machine.Runs Bool))}
    {old : List (Fin 8 × Machine.Runs W32)} {l : List (Fin 8 × BitVec 22 × Chain)} (h : Fits s)
    (hm : MasksFit msk) (ho : OldsFit old) (hl : ∀ p ∈ l, ChainFits p.2.2) : Fits (s.landChain d y msk old l) := by
  unfold State.landChain
  extract_lets s1
  have h1 : Fits s1 := h.landVecB hm (.of_mem fun p hp => .moveRes (hl p hp).2 (hl p hp).1 hm.lookup ho.lookup)
  split
  · exact h1
  · exact h1.land trivial

theorem Fits.execVldrl {d : BitVec 5} {k : BitVec 3} {cl fe y : BitVec 2} (h : Fits s) : OutFits (execVldrl d k cl fe y s) := by
  unfold Machine.execVldrl
  dsimp only
  split
  · split
    · exact h.raise
    · exact h.addWait ⟨h.olds, h.bMasks, h.vl.2, trivial⟩
  · split
    · exact h.raise
    · split
      · exact h.raise
      · refine Fits.foldl (Fits.landChain ?_ h.bMasks h.olds (List.forall_mem_map.2 fun _ _ => .chainAt)) (fun s1 x h1 => h1.notePoison)
        exact h.modSeq (f := fun q => { q with lastFault := none }) id

theorem Fits.execVstrl {d : BitVec 5} {cl : BitVec 2} {fe : Bool} {y : BitVec 2} (h : Fits s) : OutFits (execVstrl d cl fe y s) := by
  unfold Machine.execVstrl
  dsimp only
  split
  · exact h.illegal
  · split
    · exact h.raise
    · split
      · exact h.raise
      · refine ((h.foldl (fun s1 x h1 => ?_)).land trivial)
        split
        · exact h1.towerWrite.setFull
        · exact h1.towerWrite

theorem Fits.execKld {o : KmForm} (h : Fits s) : OutFits (execKld o s) := by
  unfold Machine.execKld
  dsimp only
  split
  · exact h.raise
  · split
    · exact (h.landMaskB (.bits (by omega))).foldl (fun s1 x h1 => h1.notePoison)
    · refine h.addWait ⟨by simp, by simp, h.vl.2, ?_⟩
      change min s.vl 512 ≤ 4096
      omega

theorem Fits.execKst {o : KmForm} (h : Fits s) : OutFits (execKst o s) := by
  unfold Machine.execKst
  dsimp only
  split
  · exact h.raise
  · refine h.foldl (fun s1 x h1 => ?_)
    split
    · exact h1.towerWrite.setFull
    · exact h1.towerWrite

theorem Fits.execVrd {o : RowForm} (h : Fits s) : OutFits (execVrd o s) := by
  unfold Machine.execVrd
  dsimp only
  split
  · exact h.illegal
  · split
    · exact h.raise
    · split
      · exact h.raise
      · exact h.addWait ⟨h.olds, h.bMasks, h.vl.2, trivial⟩

theorem Fits.execVwr {o : RowForm} (h : Fits s) : OutFits (execVwr o s) := by
  unfold Machine.execVwr
  dsimp only
  split
  · exact h.raise
  · split
    · exact h.illegal
    · split
      · exact h.illegal
      · split
        · exact h.raise
        · exact (h.setCur h.cur.setRing).addWait trivial

theorem Fits.moveOp {o : MovForm} {lat : Nat} {f : Fin 8 → Nat × Machine.Runs W32 × Flags} (h : Fits s)
    (hf : ∀ i, (f i).1 ≤ 4096 ∧ Positive (f i).2.1) : Fits (s.moveOp o lat f) := by
  unfold State.moveOp
  dsimp only
  exact h.landVecB h.bMasks (.map fun i => .moveRes (hf i).1 (hf i).2 h.bMasks.lookup ((h.cluster i).vreg o.d))

theorem Fits.execVmov {o : MovForm} (h : Fits s) : OutFits (execVmov o s) :=
  h.moveOp fun i => ⟨((h.cluster i).vreg o.v).len, ((h.cluster i).vreg o.v).positive⟩

theorem Fits.execVmvs {d a : BitVec 5} {k : BitVec 3} {cl : BitVec 2} (h : Fits s) : OutFits (execVmvs d a k cl s) :=
  h.moveOp fun _ => ⟨h.vl.2, positive_broadcast⟩

theorem Fits.execVxc {o : MovForm} {a : BitVec 5} (h : Fits s) : OutFits (execVxc o a s) := by
  unfold Machine.execVxc
  dsimp only
  split
  · exact h.illegal
  · exact h.moveOp fun i => ⟨((h.cluster _).vreg o.v).len, ((h.cluster _).vreg o.v).positive⟩

theorem positive_slideRuns {amount : Int} {r : Machine.Runs W32} (h : Positive r) : Positive (slideRuns amount r) := by
  unfold slideRuns
  split
  · exact h.dropLen
  · exact Positive.nil.fitLen.append h

theorem Fits.execVslide {o : MovForm} {a : BitVec 5} (h : Fits s) : OutFits (execVslide o a s) :=
  h.moveOp fun i => ⟨h.opLen, positive_slideRuns ((h.cluster i).vreg o.v).positive⟩

theorem Fits.execVrev {o : MovForm} (h : Fits s) : OutFits (execVrev o s) :=
  h.moveOp fun i => ⟨h.opLen, fun p hp => ((h.cluster i).vreg o.v).positive.takeLen p (List.mem_reverse.1 hp)⟩

theorem Fits.execVmvx {d a v : BitVec 5} {cl : BitVec 2} (h : Fits s) : OutFits (execVmvx d a v cl s) := h.land trivial

theorem Fits.convertOp {o : MovForm} {f : W32 → W32 × Flags} (h : Fits s) : Fits (s.convertOp o f) := by
  unfold State.convertOp
  dsimp only
  refine h.landVecB h.bMasks (.map fun i => ?_)
  have hc := h.cluster i
  dsimp only
  refine PiecesFit.elemWise ?_ ?_ ?_ ?_
  · exact hc.src1
  · exact hc.mask
  · rw [runLen_mask]
    exact h.opLen
  · exact (hc.vreg o.d).positive

theorem Fits.execVcvt {o : MovForm} (h : Fits s) : OutFits (execVcvt o s) := by
  unfold Machine.execVcvt
  dsimp only
  split
  · exact h.illegal
  · exact h.convertOp

theorem Fits.execVclass {o : MovForm} (h : Fits s) : OutFits (execVclass o s) := by
  unfold Machine.execVclass
  dsimp only
  split
  · exact h.illegal
  · exact h.convertOp

theorem Fits.execTwr {o : TForm} (h : Fits s) : OutFits (execTwr o s) := by
  unfold Machine.execTwr
  split
  · exact h.illegal
  · exact h.land trivial

theorem Fits.tileRead {o : TForm} {f : Cluster → List W32} (h : Fits s) : Fits (s.tileRead o f) := by
  unfold State.tileRead
  dsimp only
  exact h.landVecB h.bMasks (.map fun i => .moveRes (by omega) .units h.bMasks.lookup ((h.cluster i).vreg o.d))

theorem Fits.execTrc {o : TForm} (h : Fits s) : OutFits (execTrc o s) := by
  unfold Machine.execTrc
  split
  · exact h.illegal
  · exact h.tileRead

theorem Fits.execTrr {o : TForm} (h : Fits s) : OutFits (execTrr o s) := by
  unfold Machine.execTrr
  split
  · exact h.illegal
  · exact h.tileRead

theorem Fits.execTclr {cl t : BitVec 2} (h : Fits s) : OutFits (execTclr cl t s) := h.land trivial

theorem Fits.execVshift {o : ShiftForm} (h : Fits s) : OutFits (execVshift o s) := by
  unfold Machine.execVshift
  dsimp only
  split
  · exact h.illegal
  · split
    · exact h.illegal
    · split
      · exact h
      · split
        · exact h.raise
        · exact h.modEng

theorem Fits.lateOverflow {cls : List (Fin 8)} {source : Nat} (h : Fits s) : Fits (s.lateOverflow cls source) := by
  unfold State.lateOverflow
  extract_lets at_ s1
  have h1 : Fits s1 := by
    refine h.modSeq fun hq => hq.setInflight ?_
    split
    · exact fun l hl => hq.1 l (List.mem_of_mem_filter hl)
    · exact hq.1
  exact h1.setCur h1.cur.defer

theorem Fits.landLate {α : Type} [DecidableEq α] {zero : α} {pick : Dest → List (Fin 8 × Machine.Runs α)}
    {mk : List (Fin 8 × Machine.Runs α) → Dest} {msk : List (Fin 8 × Option (Machine.Runs Bool))} {split : Bool}
    {res : List (ClRes α)} {commit : State → State} (h : Fits s) (hpick : PicksFit pick) (hmk : MakesFit mk) (hmask : MasksFit msk)
    (hres : ResultsFit res) (hcommit : ∀ s, Fits s → Fits (commit s)) :
    Fits (s.landLate zero pick mk msk split res commit) := by
  unfold State.landLate
  dsimp only
  split
  · exact h.lateOverflow
  · split
    · next e => exact hcommit _ (h.modSeq fun hq => hq.setInflight (combineInto_fits hpick hmk hmask hq.1 (hres.landing hmk) e))
    · exact h.lateOverflow

theorem ringPart_fits {cmpr : Bool} {typ vl addr : Nat} {bs : List Byte} {r : Machine.Runs W32} {ln : Bool} (hv : vl ≤ 4096)
    (e : ringPart cmpr typ vl addr bs = .runs r ln) : Positive r ∧ runLen r ≤ 4096 := by
  unfold ringPart at e
  split at e
  · split at e
    · next row hrow =>
      split at e
      · cases e
        obtain ⟨hp, hl⟩ := containers_fits hrow
        exact ⟨hp, hl.trans_le (parseRow_fits hrow).2.2⟩
      · cases e
    · cases e
  · cases e
    refine ⟨.units, ?_⟩
    rw [runLen_units]
    simp only [unpackBits, List.length_map, List.length_range]
    omega

theorem Fits.finishLoad {l : WLoad} (h : Fits s) (hw : WaitFits (.load l)) : Fits (s.finishLoad l) := by
  obtain ⟨hold, hmsk, hvl, hkind⟩ := hw
  have hold : OldsFit l.old := hold
  have hmsk : MasksFit l.msk := hmsk
  unfold State.finishLoad
  extract_lets tile gs commit
  have hcommit : ∀ s, Fits s → Fits (commit s) := by
    intro s1 h1
    unfold commit
    dsimp only
    split
    · exact (h1.foldl (fun s2 x h2 => h2.notePoison)).foldl (fun s2 x h2 => h2.consume)
    · exact h1.foldl (fun s2 x h2 => h2.notePoison)
  split
  · next e =>
    rw [e] at hkind
    exact h.landLate (picksFit_vecOf l.d) (makesFit_vreg l.d) hmsk (.elems hkind hmsk hold) hcommit
  · next e =>
    rw [e] at hkind
    exact h.landLate (picksFit_maskOf _) (makesFit_kreg _) (fun _ hp => by simp at hp) (.bits hkind) hcommit
  · extract_lets cs
    split
    · exact h.waitRaise
    · refine h.landLate (picksFit_vecOf l.d) (makesFit_vreg l.d) hmsk (.of_mem fun p hp => ?_) fun s1 h1 => hcommit _ (h1.land trivial)
      have hc : ChainFits p.2.2 := by
        obtain ⟨q, -, rfl⟩ := List.mem_map.1 hp
        exact .chainAt
      exact .moveRes hc.2 hc.1 hmsk.lookup hold.lookup
  · extract_lets r ps
    split
    · exact h.waitRaise
    · refine h.landLate (picksFit_vecOf l.d) (makesFit_vreg l.d) hmsk (.of_mem fun p hp => ?_) hcommit
      obtain ⟨i, -, rfl⟩ := List.mem_map.1 hp
      dsimp only
      split
      · next e =>
        obtain ⟨hp, hl⟩ := ringPart_fits hvl e
        exact .moveRes hl hp hmsk.lookup hold.lookup
      · exact .moveRes (by omega) .nil (by simp) .nil

theorem Fits.finishRingWrite {h1 : BitVec 4} {ix : Nat} {parts : List (Fin 8 × List Byte)} (h : Fits s) :
    Fits (s.finishRingWrite h1 ix parts) := by
  unfold State.finishRingWrite
  dsimp only
  exact (h.foldl (fun s1 x h2 => h2.engineWrite)).setCur ((h.foldl (fun s1 x h2 => h2.engineWrite)).cur.setRing.settle)

end Sys2Proof.Safety
end

section
/-! SUPPORT. Streams and decoding: what Machine/Streams.lean does keeps every register within its bounds. -/

namespace Sys2Proof.Safety
open Sys2Proof Sys2Proof.Machine Sys2Proof.Laws
variable {s : State}

theorem Fits.engineFault {tile : Nat} {st : Status} {info : W64} {pc : Nat} (h : Fits s) : Fits (s.engineFault tile st info pc) := by
  unfold State.engineFault
  refine h.onTile (fun t h1 => ?_)
  split
  · exact h1.defer
  · exact h1

theorem Fits.nbuFault {tile : Nat} {info : W64} {pc : Nat} (h : Fits s) : Fits (s.nbuFault tile info pc) := by
  unfold State.nbuFault
  refine h.onTile (fun t h1 => ?_)
  split
  · exact h1.defer
  · exact h1

theorem Fits.engineMemFault {tile pc : Nat} {x : MemFail} (h : Fits s) : Fits (s.engineMemFault tile pc x) := by
  unfold State.engineMemFault
  split
  · exact h
  · exact h.engineFault
  · exact h.engineFault
  · exact h.engineFault

theorem Fits.produceRow {tile : Nat} {h1 : BitVec 4} {ix : Nat} {parts : List (List Byte)} (h : Fits s) :
    Fits (s.produceRow tile h1 ix parts) :=
  h.foldl (fun _ _ h2 => h2.producePart)

theorem Fits.windowPiece {t : Machine.Task} {want : Want} {w : Window} {e off : Nat} {counted : Bool} (h : Fits s) :
    Fits (s.windowPiece t want w e off counted).2 := by
  unfold State.windowPiece
  dsimp only
  split
  · exact h
  · split
    · exact h.translate.snd ‹_›
    · split <;> exact (h.translate.snd ‹_›).readSpans.snd ‹_›

theorem Fits.windowBytes {t : Machine.Task} {want : Want} {w : Window} {e n fuel : Nat} {got : List Nat} (h : Fits s) :
    Fits (s.windowBytes t want w e n fuel got).2 := by
  induction fuel generalizing s got with
  | zero => exact h
  | succ n ih =>
    unfold State.windowBytes
    split
    · exact h
    · dsimp only
      split
      · exact h.windowPiece.snd ‹_›
      · split
        · split
          · exact (h.windowPiece.snd ‹_›).choose
          · exact ih ((h.windowPiece.snd ‹_›).choose)
        · split
          · exact h.windowPiece.snd ‹_›
          · exact ih (h.windowPiece.snd ‹_›)

theorem Fits.readRow {t : Machine.Task} {want : Want} {w : Window} {j : Nat} {got : List Nat} (h : Fits s) :
    Fits (s.readRow t want w j got).2 := by
  unfold State.readRow
  dsimp only
  split
  · split <;> exact h.readOn.snd ‹_›
  · exact h.windowBytes

theorem Fits.modRing {tile : Nat} {h1 : BitVec 4} {f : Machine.Ring → Machine.Ring} (h : Fits s) : Fits (s.modRing tile h1 f) :=
  h.onTile (fun _ h2 => h2.setRing)

theorem Fits.modStream {tile : Nat} {h1 : BitVec 4} {f : Machine.Stream → Machine.Stream} (h : Fits s) : Fits (s.modStream tile h1 f) :=
  h.modRing

theorem Fits.streamDone {tile : Nat} {h1 : BitVec 4} {st : Machine.Stream} (h : Fits s) : Fits (s.streamDone tile h1 st) :=
  h.leaveCtxs.modRing

theorem Fits.streamError {tile : Nat} {h1 : BitVec 4} {st : Machine.Stream} {kind errc : Nat} (h : Fits s) :
    Fits (s.streamError tile h1 st kind errc) := by
  unfold State.streamError
  dsimp only
  refine Fits.onTile ?_ (fun t h2 => h2.ringError)
  split
  · exact h
  · exact h.leaveCtxs

theorem Fits.windowFail {tile : Nat} {h1 : BitVec 4} {st : Machine.Stream} {x : MemFail} (h : Fits s) :
    Fits (s.windowFail tile h1 st x) := by
  unfold State.windowFail
  split
  · exact h
  · exact h.streamError
  · exact h.streamError
  · exact h.modRing.engineFault

theorem Fits.windowRow {t : Machine.Task} {h1 : BitVec 4} {st : Machine.Stream} (h : Fits s) : Fits (s.windowRow t h1 st) := by
  unfold State.windowRow
  dsimp only
  split
  · exact h
  · split
    · exact (h.readRow.snd ‹_›).windowFail
    · split
      · exact (h.readRow.snd ‹_›).modStream
      · split
        · exact (h.readRow.snd ‹_›).produceRow.streamDone
        · exact (h.readRow.snd ‹_›).produceRow.modStream

theorem Fits.streamRead {t : Machine.Task} {st : Machine.Stream} {stateful : Bool} {va n : Nat} (h : Fits s) :
    Fits (s.streamRead t st stateful va n).2 := by
  unfold State.streamRead
  split
  · split <;> exact h.translate.snd ‹_›
  · dsimp only
    split
    · exact (h.translate.snd ‹_›).queueAt
    · split
      · exact h.translate.snd ‹_›
      · split
        · exact h.translate.snd ‹_›
        · split
          · exact h.translate.snd ‹_›
          · exact (h.translate.snd ‹_›).checkRace.ok ‹_›

theorem Fits.streamBeat {t : Machine.Task} {st : Machine.Stream} {stateful : Bool} {k : Nat} (h : Fits s) :
    Fits (s.streamBeat t st stateful k).2 := by
  unfold State.streamBeat
  dsimp only
  split
  · exact h
  · split
    · split
      · exact h.streamRead.snd ‹_›
      · split
        · exact (h.streamRead.snd ‹_›).choose
        · split <;> exact (h.streamRead.snd ‹_›).choose.streamRead.snd ‹_›
    · split <;> exact h.streamRead.snd ‹_›

theorem Fits.decodeBeat {t : Machine.Task} {st : Machine.Stream} {fuel : Nat} {got : List Byte} (h : Fits s) :
    Fits (s.decodeBeat t st fuel got).2 := by
  induction fuel generalizing s got with
  | zero => exact h
  | succ n ih =>
    unfold State.decodeBeat
    dsimp only
    split
    · exact h
    · split
      · exact h
      · split
        · exact h.streamRead.snd ‹_›
        · exact h.streamRead.snd ‹_›
        · split
          · exact (h.streamRead.snd ‹_›).choose
          · exact ih ((h.streamRead.snd ‹_›).choose)

theorem Fits.openGraph {t : Machine.Task} {h1 : BitVec 4} {st : Machine.Stream} (h : Fits s) : Fits (s.openGraph t h1 st) := by
  unfold State.openGraph
  dsimp only
  split
  · exact h.onTile (fun t1 h2 => h2.ringError)
  · split
    · exact h.streamError
    · split
      · exact h.streamError
      · split
        · exact h
        · exact (h.foldl (fun s1 x h2 => h2.setFab)).modStream

theorem Fits.takeCell {t : Machine.Task} {h1 : BitVec 4} {st : Machine.Stream} (h : Fits s) : Fits (s.takeCell t h1 st) := by
  unfold State.takeCell
  dsimp only
  split
  · exact h.onTile (fun t1 h2 => h2.ringError)
  · split
    · exact h
    · exact h.setFab.modStream

theorem Fits.openDecode {t : Machine.Task} {h1 : BitVec 4} {st : Machine.Stream} (h : Fits s) : Fits (s.openDecode t h1 st) := by
  unfold State.openDecode
  dsimp only
  split
  · exact h.readOn.snd ‹_›
  · exact (h.readOn.snd ‹_›).streamError
  · exact (h.readOn.snd ‹_›).streamError
  · exact (h.readOn.snd ‹_›).streamError.engineFault
  · split
    · exact (h.readOn.snd ‹_›).modStream
    · split
      · exact (h.readOn.snd ‹_›).modStream
      · exact (h.readOn.snd ‹_›).streamError

theorem Fits.setNbu {chan : Nat} {u : Nbu} (h : Fits s) : Fits (s.setNbu chan u) := h

theorem Fits.donePlace {agent unit : Nat} {c : NbCmd} (h : Fits s) : Fits (s.donePlace agent unit c).2 := by
  unfold State.donePlace
  split
  · exact h
  · split
    · exact h
    · split
      · exact h.translate.snd ‹_›
      · split
        · exact h.translate.snd ‹_›
        · split
          · exact (h.translate.snd ‹_›).queueAt
          · exact h.translate.snd ‹_›

theorem Fits.bumpDone {sp : Span} {f : Nat → Nat} (h : Fits s) : Fits (s.bumpDone sp f) := h.countBeats.homeWrite.countBeats

theorem Fits.sinkRefused {c : NbCmd} (h : Fits s) : Fits (s.sinkRefused c) := by
  unfold State.sinkRefused
  split
  · exact h
  · split
    · split
      · exact h.streamError
      · exact h.setFab
    · split
      · exact h.setFab
      · exact h

theorem Fits.nbFail {chan : Nat} {c : NbCmd} {row : W32} (h : Fits s) : Fits (s.nbFail chan c row) := by
  unfold State.nbFail
  dsimp only
  split
  · exact (h.donePlace.snd ‹_›).bumpDone.setNbu.sinkRefused.nbuFault
  · exact h.donePlace.snd ‹_›
  · exact (h.donePlace.snd ‹_›).setNbu.sinkRefused.nbuFault

theorem Fits.nbPush {chan : Nat} {c : NbCmd} (h : Fits s) : Fits (s.nbPush chan c) := by
  unfold State.nbPush
  dsimp only
  exact h

theorem Fits.sinkWord {t : Machine.Task} {st : Machine.Stream} {g : Machine.Graph} {v : W32} {k : Nat} (h : Fits s) :
    Fits (s.sinkWord t st g v k).2 := by
  unfold State.sinkWord
  split
  · exact h
  · dsimp only
    split
    · split <;> exact h.translate.snd ‹_›
    · split
      · exact (h.translate.snd ‹_›).queueAt
      · split
        · exact h.translate.snd ‹_›
        · split
          · exact h.translate.snd ‹_›
          · split
            · exact ((h.translate.snd ‹_›).checkRace.ok ‹_›).performWrite.countBeats
            · exact ((h.translate.snd ‹_›).checkRace.ok ‹_›).performWrite

theorem Fits.sinkWords {t : Machine.Task} {st : Machine.Stream} {g : Machine.Graph} {vs : List W32} {k : Nat} (h : Fits s) :
    Fits (State.sinkWords t st g s vs k).2.2.2 := by
  induction vs generalizing s k with
  | nil => exact h
  | cons v l ih =>
    unfold State.sinkWords
    split
    · exact h.sinkWord.snd ‹_›
    · exact ih (h.sinkWord.snd ‹_›)

theorem Fits.applyStop {tile : Nat} {h1 : BitVec 4} {st : Machine.Stream} {x : Stop} (h : Fits s) : Fits (s.applyStop tile h1 st x) := by
  unfold State.applyStop
  split
  · exact h
  · exact h.streamError
  · exact h.streamError.engineFault

theorem Fits.packetWaits {tile : Nat} {h1 : BitVec 4} {st : Machine.Stream} (h : Fits s) : Fits (s.packetWaits tile h1 st) := by
  unfold State.packetWaits
  split
  · exact h.modStream
  · split
    · exact h.modStream.logEvent
    · exact h

theorem Fits.sinkStep {t : Machine.Task} {h1 : BitVec 4} {st : Machine.Stream} {g : Machine.Graph} {last : Bool} (h : Fits s) :
    Fits (s.sinkStep t h1 st g last).2 := by
  unfold State.sinkStep
  dsimp only
  split
  · split
    · split
      · split
        · exact h.produceRow.streamDone
        · exact h.produceRow.modStream
      · exact h
    · exact h
  · split
    · exact h
    · split
      · exact h.sinkWords.modStream
      · exact h.sinkWords.modStream.applyStop
  · split
    · split
      · exact h.streamError
      · exact h
    · split
      · exact h.nbFail
      · split
        · exact h.nbPush.modStream
        · exact h.packetWaits

theorem Fits.tookBeats {c n : Nat} (h : Fits s) : Fits (s.tookBeats c n) := by
  unfold State.tookBeats
  dsimp only
  exact h.setFab.countChan.beats

theorem Fits.takeBeat {t : Machine.Task} {h1 : BitVec 4} {st : Machine.Stream} {g : Machine.Graph} (h : Fits s) :
    Fits (s.takeBeat t h1 st g) := by
  unfold State.takeBeat
  dsimp only
  split
  · split
    · exact (h.decodeBeat.snd ‹_›).modStream
    · split
      · exact (h.decodeBeat.snd ‹_›).setFab.tookBeats.applyStop
      · exact (h.decodeBeat.snd ‹_›).setFab.tookBeats.modStream
  · split
    · exact (h.streamBeat.snd ‹_›).modStream
    · exact (h.streamBeat.snd ‹_›).applyStop
    · split
      · exact (h.streamBeat.snd ‹_›).modStream
      · exact (h.streamBeat.snd ‹_›).setFab.tookBeats.modStream

theorem Fits.frameFill {t : Machine.Task} {h1 : BitVec 4} {st : Machine.Stream} {g : Machine.Graph} (h : Fits s) :
    Fits (s.frameFill t h1 st g) := by
  unfold State.frameFill
  dsimp only
  exact h.setFab.modStream

theorem Fits.graphMove {t : Machine.Task} {h1 : BitVec 4} {st : Machine.Stream} (h : Fits s) : Fits (s.graphMove t h1 st) := by
  unfold State.graphMove
  split
  · exact h
  · split
    · exact h
    · split
      · exact h.takeCell
      · split
        · exact h
        · split
          · split
            · exact h
            · exact h.foldl (fun s1 x h2 => h2.setFab)
          · split
            · exact h.openDecode
            · dsimp only
              split
              · exact h.sinkStep.snd ‹_›
              · split
                · exact h.sinkStep.snd ‹_›
                · split
                  · exact (h.sinkStep.snd ‹_›).takeBeat
                  · split
                    · exact (h.sinkStep.snd ‹_›).frameFill
                    · exact h.sinkStep.snd ‹_›

theorem Fits.cutStep {t : Machine.Task} {h1 : BitVec 4} {st : Machine.Stream} (h : Fits s) : Fits (s.cutStep t h1 st) := by
  unfold State.cutStep
  extract_lets
  split
  · exact h.modStream.graphMove.leaveCtxs.modRing
  · exact h.modStream.graphMove

theorem Fits.graphStep {t : Machine.Task} {h1 : BitVec 4} {st : Machine.Stream} (h : Fits s) : Fits (s.graphStep t h1 st) := by
  unfold State.graphStep
  split
  · exact h.cutStep
  · exact h.graphMove

theorem Fits.graphEnd {t : Machine.Task} {h1 : BitVec 4} {st : Machine.Stream} (h : Fits s) : Fits (s.graphEnd t h1 st) := by
  unfold State.graphEnd
  split
  · exact h
  · extract_lets
    split
    · exact h
    · split
      · split
        · exact h.streamError
        · exact h
      · split
        · exact h.streamDone
        · exact h

theorem Fits.markGroup {tile : Nat} {h1 : BitVec 4} {st : Machine.Stream} (h : Fits s) : Fits (s.markGroup tile h1 st) := by
  unfold State.markGroup
  split
  · exact h
  · exact h.modStream

theorem Fits.readImage {t : Machine.Task} {va : Nat} {got : List Byte} (h : Fits s) : Fits (s.readImage t va got).2 := by
  unfold State.readImage
  split
  · exact h.readOn.snd ‹_›
  · split
    · exact h.readOn.snd ‹_›
    · split
      · split <;> exact (h.readOn.snd ‹_›).readOn.snd ‹_›
      · exact h.readOn.snd ‹_›

theorem Fits.bindCtx {t : Machine.Task} {c : Nat} {budget : Bool} (h : Fits s) : Fits (s.bindCtx t c budget) := by
  unfold State.bindCtx
  dsimp only
  split
  · split
    · exact h.setFab
    · split
      · exact h.setFab
      · split
        · exact h.setFab
        · exact h.setFab.modLaunch (fun l h1 => h1)
  · exact h.setFab

end Sys2Proof.Safety
end

section
/-! SUPPORT. Slot E: what Machine/SlotE.lean does keeps every register within its bounds. -/

namespace Sys2Proof.Safety
open Sys2Proof Sys2Proof.Machine Sys2Proof.Laws
variable {s : State}

theorem Fits.execNopE (h : Fits s) : OutFits (execNopE s) := h

theorem Fits.execEset {e a i : BitVec 5} (h : Fits s) : OutFits (execEset e a i s) := by
  unfold Machine.execEset
  dsimp only
  split
  · exact h.illegal
  · split
    · exact h.illegal
    · split
      · exact h.illegal
      · exact h.land trivial

theorem Fits.execEget {e a i : BitVec 5} (h : Fits s) : OutFits (execEget e a i s) := by
  unfold Machine.execEget
  split
  · exact h.illegal
  · exact h.land trivial

theorem Fits.start {e : Nat} {act : State → State} (h : Fits s) (hact : ∀ s, Fits s → Fits (act s)) : Fits (s.start e act) := by
  unfold State.start
  split
  · exact h.illegal
  · dsimp only
    split
    · exact hact _ h
    · exact (hact _ h).modEng

theorem Fits.execEwait {e : BitVec 5} {n : BitVec 3} (h : Fits s) : OutFits (execEwait e n s) := by
  unfold Machine.execEwait
  split
  · exact h.illegal
  · split
    · split
      · exact h.addWait trivial
      · exact h.illegal
    · split
      · exact h.illegal
      · exact h.addWait trivial

theorem Fits.attach {h1 : BitVec 4} (h : Fits s) : Fits (s.attach h1) := by
  unfold State.attach
  dsimp only
  split
  · exact h.modEng.setCur h.modEng.cur.setRing
  · exact (h.modEng.setCur h.modEng.cur.setRing).openGraph

theorem Fits.execWopen {h1 : BitVec 4} (h : Fits s) : OutFits (execWopen h1 s) := by
  unfold Machine.execWopen
  dsimp only
  split
  · exact h.illegal
  · split
    · exact h.raise
    · split
      · exact h.raise
      · exact (h.setCur h.cur.setRing).attach

theorem Fits.execWopenBind {h1 : BitVec 4} (h : Fits s) : OutFits (execWopenBind h1 s) := by
  unfold Machine.execWopenBind
  dsimp only
  split
  · exact h.raise
  · split
    · exact h.raise
    · exact h.setCur h.cur.setRing

theorem Fits.execWopenKeep {h1 : BitVec 4} (h : Fits s) : OutFits (execWopenKeep h1 s) := by
  unfold Machine.execWopenKeep
  dsimp only
  split
  · exact h.illegal
  · split
    · exact h.raise
    · exact h.attach

theorem Fits.emptyRows {tile : Nat} {rows : List Nat} (h : Fits s) : Fits (s.emptyRows tile rows) :=
  h.foldl (fun _ _ h1 => h1.foldl (fun _ _ h2 => h2.clearFull))

theorem Fits.execWadv {h1 : BitVec 4} {a : BitVec 5} (h : Fits s) : OutFits (execWadv h1 a s) := by
  unfold Machine.execWadv
  dsimp only
  split
  · exact h.raise
  · split
    · exact h.illegal
    · exact (h.emptyRows.setCur h.emptyRows.cur.setRing).settle

theorem Fits.execWwait {h1 : BitVec 4} {a : BitVec 5} (h : Fits s) : OutFits (execWwait h1 a s) := by
  unfold Machine.execWwait
  dsimp only
  split
  · exact h.raise
  · split
    · exact h.raise
    · exact h.addWait trivial

theorem Fits.execWwaitDone {h1 : BitVec 4} (h : Fits s) : OutFits (execWwaitDone h1 s) := by
  unfold Machine.execWwaitDone
  dsimp only
  split
  · exact h.raise
  · split
    · exact h.raise
    · exact h.addWait trivial

theorem Fits.closeConsumers {h1 : BitVec 4} (h : Fits s) : Fits (s.closeConsumers h1) := by
  unfold State.closeConsumers
  dsimp only
  exact (h.foldl (fun s1 x h2 => h2.engineFault)).modEng

theorem Fits.detachDrains {h1 : BitVec 4} (h : Fits s) : Fits (s.detachDrains h1) := h.modEng

theorem Fits.detachSenders {h1 : BitVec 4} (h : Fits s) : Fits (s.detachSenders h1) := by
  unfold State.detachSenders
  extract_lets _ _ s1
  have h1 : Fits s1 := h.mapTasks (fun t h2 => h2)
  exact h1

theorem Fits.unbind {h1 : BitVec 4} (h : Fits s) : Fits (s.unbind h1) := by
  unfold State.unbind
  extract_lets _ s1 s2 s3
  have h1 : Fits s1 := h.closeConsumers.detachDrains.detachSenders
  have h2 : Fits s2 := by
    unfold s2
    split
    · extract_lets
      split
      · exact h1.leaveCtxs
      · exact h1
    · exact h1
  have h3 : Fits s3 := h2.emptyRows
  exact h3.setCur h3.cur.setRing

theorem Fits.execWclose {h1 : BitVec 4} (h : Fits s) : OutFits (execWclose h1 s) := by
  unfold Machine.execWclose
  split
  · exact h.unbind
  · exact h

theorem Fits.execRstat {h1 : BitVec 4} {a : BitVec 5} (h : Fits s) : OutFits (execRstat h1 a s) := h.land trivial

theorem Fits.flushTask {h1 : BitVec 4} (h : Fits s) : Fits (s.flushTask h1) := by
  unfold State.flushTask
  refine h.foldl (fun s1 x h2 => h2.foldl (fun s2 x1 h3 => ?_))
  split
  · exact h3
  · exact h3.producePart

theorem Fits.flushWindow {h1 : BitVec 4} {st : Machine.Stream} (h : Fits s) : Fits (s.flushWindow h1 st) := by
  unfold State.flushWindow
  dsimp only
  split
  · split
    · exact h.modStream
    · exact h.streamDone
  · split
    · split
      · exact h.modStream
      · exact h.streamDone
    · split
      · exact h.choose.modStream
      · exact h.choose.streamDone

theorem Fits.execWflush {h1 : BitVec 4} (h : Fits s) : OutFits (execWflush h1 s) := by
  unfold Machine.execWflush
  dsimp only
  split
  · exact h.raise
  · split
    · exact h.flushWindow
    · split
      · exact h.flushTask.setCur h.flushTask.cur.setRing
      · exact h.detachDrains.setCur h.detachDrains.cur.setRing

theorem Fits.bcQueue {x : BcXfer} (h : Fits s) : Fits (s.bcQueue x) := by
  unfold State.bcQueue
  dsimp only
  exact h

theorem Fits.bcfill {ring : Option (BitVec 4)} (h : Fits s) : Fits (s.bcfill ring) := by
  unfold State.bcfill
  dsimp only
  refine h.start (fun s1 h1 => ?_)
  split
  · exact h1.illegal
  · split
    · exact h1.raise
    · exact h1.bcQueue

theorem Fits.execBcfill (h : Fits s) : OutFits (execBcfill s) := h.bcfill

theorem Fits.execBcfillRing {h1 : BitVec 4} (h : Fits s) : OutFits (execBcfillRing h1 s) := h.bcfill

theorem Fits.execBcwait {a : BitVec 5} (h : Fits s) : OutFits (execBcwait a s) := h.addWait trivial

theorem Fits.execBcwaitAll (h : Fits s) : OutFits (execBcwaitAll s) := h.addWait trivial

theorem Fits.muStart {kind : MuKind} {bank : Bool} {q : BitVec 2} {ok : Bool} {hs : List (BitVec 4)} (h : Fits s) :
    Fits (s.muStart kind bank q ok hs) := by
  unfold State.muStart
  refine h.start (fun s1 h1 => ?_)
  split
  · exact h1.illegal
  · split
    · exact h1.raise
    · exact h1.modEng

theorem Fits.execMma {bank : Bool} (h : Fits s) : OutFits (execMma bank s) := by
  unfold Machine.execMma
  dsimp only
  exact h.muStart

theorem Fits.execMmv {bank : Bool} (h : Fits s) : OutFits (execMmv bank s) := by
  unfold Machine.execMmv
  dsimp only
  exact h.muStart

theorem Fits.execMldb (h : Fits s) : OutFits (execMldb s) := by
  unfold Machine.execMldb
  dsimp only
  exact h.muStart

theorem Fits.execMdrain {bank : Bool} (h : Fits s) : OutFits (execMdrain bank s) := by
  unfold Machine.execMdrain
  dsimp only
  split
  · exact h.raise
  · split
    · exact h.muStart
    · exact h.muStart.setCur h.muStart.cur.setRing

theorem Fits.execMswap (h : Fits s) : OutFits (execMswap s) := h.muStart

theorem Fits.execMclr {bank : Bool} {q : BitVec 2} (h : Fits s) : OutFits (execMclr bank q s) := h.muStart

theorem Fits.execMflags {bank : Bool} {a : BitVec 5} {c : Bool} (h : Fits s) : OutFits (execMflags bank a c s) := by
  unfold Machine.execMflags
  split
  · exact h.illegal
  · dsimp only
    split
    · exact (h.land (d := .sreg _ _) trivial).modEng
    · exact h.land trivial

theorem Fits.execXsend {h1 : BitVec 4} {a b : BitVec 5} (h : Fits s) : OutFits (execXsend h1 a b s) := by
  unfold Machine.execXsend
  dsimp only
  refine h.start (fun s1 h2 => ?_)
  split
  · exact h2.illegal
  · split
    · exact h2.raise
    · exact h2.modEng

theorem Fits.sendPacket {dst : Nat} {body : PacketBody} (h : Fits s) : Fits (s.sendPacket dst body) := by
  unfold State.sendPacket
  extract_lets _ s1
  have h1 : Fits s1 := h.modEng
  exact Fits.countNode h1

theorem Fits.localRow {cl : BitVec 3} {addr : W64} {act : State → State} (h : Fits s) (hact : ∀ s, Fits s → Fits (act s)) :
    Fits (s.localRow cl addr act) := by
  unfold State.localRow
  split
  · exact h.raise
  · exact hact _ h

theorem Fits.execXwr {a b : BitVec 5} {m l : BitVec 3} (h : Fits s) : OutFits (execXwr a b m l s) := by
  unfold Machine.execXwr
  dsimp only
  refine h.start (fun s1 h1 => ?_)
  split
  · exact h1.illegal
  · split
    · exact h1.illegal
    · exact h1.localRow (fun s2 h2 => h2.notePoison.sendPacket)

theorem Fits.execXrd {a b : BitVec 5} {m l : BitVec 3} (h : Fits s) : OutFits (execXrd a b m l s) := by
  unfold Machine.execXrd
  dsimp only
  refine h.start (fun s1 h1 => ?_)
  split
  · exact h1.illegal
  · split
    · exact h1.illegal
    · exact h1.localRow (fun s2 h2 => h2.sendPacket)

theorem Fits.xbarStart {group : Fin 3} (h : Fits s) : Fits (s.xbarStart group) := by
  unfold State.xbarStart
  dsimp only
  exact h.modEng.addWait trivial

theorem Fits.execXbar (h : Fits s) : OutFits (execXbar s) := h.xbarStart

theorem Fits.execXbarRow (h : Fits s) : OutFits (execXbarRow s) := h.xbarStart

theorem Fits.execXbarCol (h : Fits s) : OutFits (execXbarCol s) := h.xbarStart

theorem Fits.dcopyStart {mode : BitVec 2} (h : Fits s) : Fits (s.dcopyStart mode) := by
  unfold State.dcopyStart
  extract_lets
  refine h.start (fun s1 h1 => ?_)
  split
  · exact h1.illegal
  · split
    · exact h1.illegal
    · split
      · exact h1.raise
      · exact h1.modEng

theorem Fits.execDcopy (h : Fits s) : OutFits (execDcopy s) := h.dcopyStart

theorem Fits.execDcopyMt (h : Fits s) : OutFits (execDcopyMt s) := h.dcopyStart

theorem Fits.execDcopyTm (h : Fits s) : OutFits (execDcopyTm s) := h.dcopyStart

theorem Fits.execDwait (h : Fits s) : OutFits (execDwait s) := h.addWait trivial

theorem Fits.execDpub {a b : BitVec 5} {n : BitVec 6} (h : Fits s) : OutFits (execDpub a b n s) := by
  unfold Machine.execDpub
  dsimp only
  split
  · exact h.illegal
  · split
    · exact h.land trivial
    · exact h.modEng.land trivial

theorem Fits.fabricRequest {bind : Bool} (h : Fits s) : Fits (s.fabricRequest bind) := by
  unfold State.fabricRequest
  dsimp only
  refine h.start (fun s1 h1 => ?_)
  split
  · exact h1.illegal
  · exact h1.modEng

theorem Fits.execFload (h : Fits s) : OutFits (execFload s) := h.fabricRequest

theorem Fits.execFbind (h : Fits s) : OutFits (execFbind s) := h.fabricRequest

theorem Fits.execFstat {a : BitVec 5} (h : Fits s) : OutFits (execFstat a s) := by
  unfold Machine.execFstat
  dsimp only
  split
  · exact h.illegal
  · exact h.land trivial

theorem Fits.execNbcmd {a b : BitVec 5} (h : Fits s) : OutFits (execNbcmd a b s) := by
  unfold Machine.execNbcmd
  dsimp only
  refine h.start (fun s1 h1 => ?_)
  split
  · exact h1.illegal
  · exact h1.modEng

theorem Fits.execNbpoll {a b : BitVec 5} (h : Fits s) : OutFits (execNbpoll a b s) := h.addWait trivial

theorem Fits.execNbfence (h : Fits s) : OutFits (execNbfence s) := h.modEng

theorem Fits.execHsig {a b : BitVec 5} {v : BitVec 10} (h : Fits s) : OutFits (execHsig a b v s) := by
  unfold Machine.execHsig
  split
  · exact h.land trivial
  · exact h.modEng.land trivial

theorem Fits.execTrace {a b : BitVec 5} {v : BitVec 10} (h : Fits s) : OutFits (execTrace a b v s) := h.emit

theorem Fits.assertFix {src : Nat} {code : BitVec 8} {who : Option (Nat × TraceRec)} (h : Fits s) : Fits (s.assertFix src code who) := by
  unfold State.assertFix
  dsimp only
  exact h

theorem Fits.execSnap {c : BitVec 8} (h : Fits s) : OutFits (execSnap c s) := h.assertFix

theorem Fits.setRefresh {ptower : Nat} {r : Refresh} (h : Fits s) : Fits (s.setRefresh ptower r) := h

theorem Fits.deferTower {m ptower : Nat} (h : Fits s) : Fits (s.deferTower m ptower) := h.setRefresh

theorem Fits.execRefdefer {a : BitVec 5} (h : Fits s) : OutFits (execRefdefer a s) := by
  unfold Machine.execRefdefer
  dsimp only
  split
  · exact h.raise
  · split
    · exact h
    · exact h.foldl (fun s1 x h1 => h1.deferTower)

theorem Fits.startPass {ptower : Nat} {forced : Bool} (h : Fits s) : Fits (s.startPass ptower forced) := by
  unfold State.startPass
  dsimp only
  exact h.setRefresh

theorem Fits.execRefnow {a : BitVec 5} (h : Fits s) : OutFits (execRefnow a s) := by
  unfold Machine.execRefnow
  dsimp only
  split
  · exact h.illegal
  · exact h.startPass

theorem Fits.execRefnowAll (h : Fits s) : OutFits (execRefnowAll s) := h.foldl (fun _ _ h1 => h1.startPass)

end Sys2Proof.Safety
end

section
/-! SUPPORT. Waits: what Machine/Waits.lean does keeps every register within its bounds. -/

namespace Sys2Proof.Safety
open Sys2Proof Sys2Proof.Machine Sys2Proof.Laws
variable {s : State}

theorem Fits.focus {tile : Nat} (h : Fits s) : SomeFits (s.focus tile) := by
  unfold State.focus
  split
  · exact h
  · split
    · trivial
    · rename_i t e
      refine (h.setCur (h.parked t (List.mem_of_find?_eq_some e))).setParked (List.forall_mem_map.2 fun u hu => ?_)
      split
      · exact h.cur
      · exact h.parked u hu

theorem Fits.onTask {tile : Nat} {f : State → State} (h : Fits s) (hf : ∀ s, Fits s → Fits (f s)) : Fits (s.onTask tile f) := by
  unfold State.onTask
  split
  · exact h
  · exact hf _ (h.focus.some ‹_›)

theorem Fits.performAmo {a : GAccess} {op : AmoOp} {ord : BitVec 2} {write : Bool} {sps : List Span} (h : Fits s) :
    Fits (s.performAmo a op ord write sps) := by
  unfold State.performAmo
  extract_lets _ _ s1 s2 _ s3
  have h1 : Fits s1 := by
    unfold s1
    split
    · exact h.setCur h.cur.deferHw
    · exact h
  have h2 : Fits s2 := by
    unfold s2
    refine (Fits.drainTo ?_).passPort
    split
    · exact h1.performHeld
    · exact h1
  have h3 : Fits s3 := by
    unfold s3
    split
    · exact (h2.foldl (fun s4 x h3 => h3.homeWrite)).countBeats
    · exact h2
  exact h3.countBeats.land trivial

theorem Fits.performGlobal {a : GAccess} (h : Fits s) : SomeFits (s.performGlobal a) := by
  have hf : ∀ i s, Fits s → Fits (s.waitRaise 0 .race i) := fun _ _ h => h.waitRaise
  unfold State.performGlobal
  split
  · trivial
  · split
    · trivial
    · trivial
    · trivial
    · exact (h.spans.snd ‹_›).waitRaise
    · have h1 := h.spans.snd ‹_›
      split
      · trivial
      · split
        · exact h1.performAmo
        · dsimp only
          split
          · exact h1.choose.performAll hf fun _ s h => h.modSeq fun hq => hq.setWaits (List.forall_mem_map.2 fun x hx => by
              split
              · trivial
              · exact hq.2.1 x hx)
          · exact h1.performAll hf fun _ _ h => h.landLoad
          · exact h1.performAll hf fun _ _ h => h.landLoad

theorem Fits.queueWait {w : Wait} (h : Fits s) : Fits (s.queueWait w) := by
  unfold State.queueWait
  dsimp only
  split
  · split
    · exact h
    · split
      · exact h.queueAt
      · exact h
  · split
    · exact h
    · split
      · exact h.queueAt
      · exact h
  · exact h

theorem LaunchFits.complete {l : Launch} {group : BitVec 2} {line n : Nat} (h : LaunchFits l) :
    LaunchFits (l.complete group line n) := by
  unfold Launch.complete
  split <;> exact h

theorem SomeFits.map {α : Type} {o : Option α} {f : α → State} (hf : ∀ x ∈ o, Fits (f x)) : SomeFits (o.map f) := by
  cases o with
  | none => trivial
  | some x => exact hf x rfl

/-- An answer that stands under a condition. -/
theorem SomeFits.guard {c : Prop} [Decidable c] {o : Option State} (h : SomeFits o) : SomeFits (if c then o else none) := by
  split
  · exact h
  · trivial

theorem Fits.tryWait {x : Wait} (h : Fits s) (hx : WaitFits x) : SomeFits (s.tryWait x) := by
  unfold State.tryWait
  split
  · exact h.performGlobal
  · split
    · exact h.finishLoad hx
    · split
      · exact .map fun _ _ => h.waitRaise
      · exact .map fun _ _ => h.waitRaise
      · trivial
  · exact SomeFits.guard (o := some _) h.finishRingWrite
  · split
    · exact h
    · exact .map fun _ _ => h.waitRaise
  · dsimp only
    split
    · exact h.waitRaise
    · exact SomeFits.guard (o := some s) h
  · exact SomeFits.guard (o := some s) h
  · exact SomeFits.guard (o := some _) h.modEng
  · exact SomeFits.guard (o := some _) (Fits.ite h h.modEng)
  · split
    · trivial
    · exact h.modEng
  · split
    · trivial
    · exact (h.readVirt.snd ‹_›).waitRaise
    · exact (h.readVirt.snd ‹_›).waitRaise
    · exact (h.readVirt.snd ‹_›).setCur (h.readVirt.snd ‹_›).cur.deferHw
    · exact SomeFits.guard (o := some _) ((h.readVirt.snd ‹_›).land trivial)
  · exact SomeFits.guard (o := some s) h
  · split
    · trivial
    · exact h

/-- A wait that leaves the list of its bundle. -/
theorem SeqFits.eraseWait {q : Machine.Seq} {w : Wait} (h : SeqFits q) : ∀ x ∈ q.waits.erase w, WaitFits x :=
  fun x hx => h.2.1 x (List.mem_of_mem_erase hx)

theorem Fits.endWait {w : Wait} (h : Fits s) (hw : WaitFits w) : Fits (s.endWait w) := by
  unfold State.endWait
  split
  · exact h.queueWait
  · exact ((h.tryWait hw).some ‹_›).modSeq fun hq => hq.setWaits hq.eraseWait

theorem Fits.thaw {cause : Nat} (h : Fits s) : Fits (s.thaw cause) := by
  unfold State.thaw
  split
  · exact h.stallRecord.afterStall.modSeq id
  · exact h

theorem Fits.endWaits {p : Wait → Bool} (h : Fits s) : Fits (s.endWaits p) := by
  unfold State.endWaits
  extract_lets s0
  have h0 : Fits s0 := h.modSeq id
  refine h0.foldl_mem (fun s1 x hx h1 => ?_)
  split
  · exact h1
  · exact h1.endWait (h0.cur.seq.2.1 x (List.mem_of_mem_filter hx))

theorem Fits.retryIf {p : Wait → Bool} (h : Fits s) : Fits (s.retryIf p) := by
  unfold State.retryIf
  split
  · exact h.endWaits.thaw
  · exact h

theorem Fits.retry (h : Fits s) : Fits s.retry := h.endWaits.thaw

theorem Fits.execResultLanding (h : Fits s) : OutFits (execResultLanding s) := h.landDue

theorem Fits.execGlobalAccessPerformed {tile : Nat} (h : Fits s) : OutFits (execGlobalAccessPerformed tile s) := by
  unfold Machine.execGlobalAccessPerformed
  split
  · exact h.drainOne
  · refine h.onTask (fun s1 h1 => ?_)
    split
    · exact h1.retryIf
    · exact h1.drainOne

theorem Fits.execFullEmptyWake {tile : Nat} (h : Fits s) : OutFits (execFullEmptyWake tile s) := h.onTask (fun _ h1 => h1.retryIf)

theorem Fits.execRingReadWake {tile : Nat} (h : Fits s) : OutFits (execRingReadWake tile s) := h.onTask (fun _ h1 => h1.retryIf)

theorem Fits.execRingWriteWake {tile : Nat} (h : Fits s) : OutFits (execRingWriteWake tile s) := h.onTask (fun _ h1 => h1.retryIf)

theorem Fits.execEngineWaitEnd {tile : Nat} (h : Fits s) : OutFits (execEngineWaitEnd tile s) := h.onTask (fun _ h1 => h1.retryIf)

theorem Fits.leaveBarrier {group : BitVec 2} {n tile : Nat} (h : Fits s) : Fits (s.leaveBarrier group n tile) := by
  unfold State.leaveBarrier
  refine h.onTask (fun s1 h1 => ?_)
  dsimp only
  split
  · exact (h1.modSeq fun hq => hq.setWaits hq.eraseWait).thaw
  · exact h1

theorem Fits.execBarrierRelease {launch : Nat} {group : BitVec 2} {line : Nat} (h : Fits s) :
    OutFits (execBarrierRelease launch group line s) := by
  unfold Machine.execBarrierRelease
  extract_lets _ s1
  have h1 : Fits s1 := by
    unfold s1
    refine h.foldl (fun s2 t h1 => ?_)
    split
    · split
      · exact h1.leaveBarrier
      · exact h1
    · exact h1
  split
  · exact h1
  · extract_lets
    split
    · exact (h1.modLaunch (fun l h2 => h2.complete)).foldl (fun s2 t h2 => h2.leaveBarrier)
    · exact h1

end Sys2Proof.Safety
end

section
/-! SUPPORT. Matrix units: what Machine/Matrix.lean does keeps every register within its bounds. -/

namespace Sys2Proof.Safety
open Sys2Proof Sys2Proof.Machine Sys2Proof.Laws
variable {s : State}

theorem Fits.feedPort {h1 : BitVec 4} {rows : Nat} {buf : List Byte} (h : Fits s) : Fits (s.feedPort h1 rows buf).2 := by
  induction rows generalizing s buf with
  | zero => exact h
  | succ n ih =>
    unfold State.feedPort
    dsimp only
    split
    · exact h
    · split
      · exact ih (Fits.foldl (h.foldl (fun s1 x h2 => h2.notePoison)) (fun s1 x h2 => h2.consume))
      · split <;> exact h

theorem Fits.muStep {o : MuOp} (h : Fits s) : Fits (s.muStep o) := by
  unfold State.muStep
  dsimp only
  split
  · exact h.modEng.modEng
  · exact h
  · exact h.modEng.modEng
  · exact h

theorem Fits.drainInto {h1 : BitVec 4} {rows : List (List (List Byte))} (h : Fits s) : Fits (s.drainInto h1 rows).2 := by
  induction rows generalizing s with
  | nil => exact h
  | cons a l ih =>
    unfold State.drainInto
    dsimp only
    split
    · exact ih h
    · split
      · exact ih h.produceRow
      · exact h

theorem Fits.setMu {o : MuOp} (h : Fits s) : Fits (s.setMu o) := h.modEng

theorem Fits.endMu (h : Fits s) : Fits s.endMu := h.modEng

theorem Fits.beginMu (h : Fits s) : Fits s.beginMu := by
  unfold State.beginMu
  split
  · exact h
  · split
    · exact h
    · dsimp only
      split
      · exact h.modEng.setMu
      · exact h.modEng.setMu
      · exact h.modEng.setMu
      · exact h.setMu

theorem Fits.feedMu {o : MuOp} (h : Fits s) : Fits (s.feedMu o) := by
  unfold State.feedMu
  dsimp only
  split
  · exact (h.feedPort.snd ‹_›).endMu.engineFault
  · split
    · exact (h.feedPort.snd ‹_›).setMu
    · split
      · exact ((h.feedPort.snd ‹_›).feedPort.snd ‹_›).endMu.engineFault
      · split
        · exact (((h.feedPort.snd ‹_›).feedPort.snd ‹_›).feedPort.snd ‹_›).endMu.engineFault
        · split
          · split
            · exact (((h.feedPort.snd ‹_›).feedPort.snd ‹_›).feedPort.snd ‹_›).setMu.muStep.modEng
            · exact (((h.feedPort.snd ‹_›).feedPort.snd ‹_›).feedPort.snd ‹_›).setMu.muStep
          · exact (((h.feedPort.snd ‹_›).feedPort.snd ‹_›).feedPort.snd ‹_›).setMu

theorem Fits.workMu (h : Fits s) : Fits s.workMu := by
  unfold State.workMu
  split
  · exact h
  · split
    · exact h
    · split
      · exact h.feedMu
      · split
        · exact h
        · split
          · dsimp only
            split
            · exact h.endMu.engineFault
            · split
              · split
                · refine Fits.endMu ?_
                  split
                  · exact h.modEng
                  · exact h
                · exact h.setMu
              · split
                · split
                  · refine Fits.endMu ?_
                    split
                    · exact (h.setCur h.cur.setRing).drainInto.modEng
                    · exact (h.setCur h.cur.setRing).drainInto
                  · exact (h.setCur h.cur.setRing).drainInto.setMu
                · split
                  · refine Fits.endMu ?_
                    split
                    · exact (h.setCur h.cur.setRing).drainInto.modEng
                    · exact (h.setCur h.cur.setRing).drainInto
                  · exact (h.setCur h.cur.setRing).drainInto.setMu
          · exact h.endMu

theorem Fits.runMu {steps : Nat} (h : Fits s) : Fits (s.runMu steps) := by
  induction steps generalizing s with
  | zero => exact h
  | succ n ih =>
    unfold State.runMu
    dsimp only
    split
    · exact h.workMu
    · exact ih h.workMu

theorem Fits.feedEdge (h : Fits s) : Fits s.feedEdge := by
  unfold State.feedEdge
  split
  · exact h.runMu
  · exact h

theorem Fits.execMuOperationBegin {tile : Nat} (h : Fits s) : OutFits (execMuOperationBegin tile s) := h.onTask (fun _ h1 => h1.beginMu)

theorem Fits.execMuOperationComplete {tile : Nat} (h : Fits s) : OutFits (execMuOperationComplete tile s) :=
  h.onTask (fun _ h1 => h1.workMu)

end Sys2Proof.Safety
end

section
/-! SUPPORT. Copies, packets and publications: what Machine/Movers.lean does keeps every register within its bounds. -/

namespace Sys2Proof.Safety
open Sys2Proof Sys2Proof.Machine Sys2Proof.Laws
variable {s : State}

theorem Fits.streamStep {tile : Nat} {h1 : BitVec 4} (h : Fits s) : Fits (s.streamStep tile h1) := by
  unfold State.streamStep
  split
  · exact h
  · split
    · exact h.windowRow
    · exact h.graphStep

theorem Fits.execWindowRowDelivery {tile : Nat} {h1 : BitVec 4} (h : Fits s) : OutFits (execWindowRowDelivery tile h1 s) := h.streamStep

theorem Fits.execFabricBeat {tile : Nat} {h1 : BitVec 4} (h : Fits s) : OutFits (execFabricBeat tile h1 s) := by
  unfold Machine.execFabricBeat
  split
  · exact h
  · split
    · exact h
    · exact h.graphStep

theorem Fits.execFabricStreamEnd {tile : Nat} {h1 : BitVec 4} (h : Fits s) : OutFits (execFabricStreamEnd tile h1 s) := by
  unfold Machine.execFabricStreamEnd
  split
  · exact h
  · split
    · exact h
    · exact h.graphEnd

theorem Fits.execFabricContextSpill {ctx : Nat} (h : Fits s) : OutFits (execFabricContextSpill ctx s) := by
  unfold Machine.execFabricContextSpill
  dsimp only
  split
  · exact h.setFab
  · exact h

theorem Fits.fabricRequestStep {bind : Bool} (h : Fits s) : Fits (s.fabricRequestStep bind) := by
  unfold State.fabricRequestStep
  split
  · exact h
  · split
    · exact h
    · dsimp only
      split
      · exact (h.foldl (fun s1 x h1 => h1.bindCtx)).modEng
      · split
        · exact (h.foldl (fun s1 x h1 => h1.setFab)).modEng
        · split
          · exact h.readImage.snd ‹_›
          · exact (h.readImage.snd ‹_›).modEng.engineMemFault
          · exact (h.readImage.snd ‹_›).modEng
          · exact ((h.readImage.snd ‹_›).foldl (fun s1 x h1 => h1.setFab)).modEng

theorem Fits.execFabricLoadRequest {tile : Nat} (h : Fits s) : OutFits (execFabricLoadRequest tile s) :=
  h.onTask (fun _ h1 => h1.fabricRequestStep)

theorem Fits.execFabricBindRequest {tile : Nat} (h : Fits s) : OutFits (execFabricBindRequest tile s) :=
  h.onTask (fun _ h1 => h1.fabricRequestStep)

theorem Fits.setBcHead {col : Nat} {x : Option BcXfer} (h : Fits s) : Fits (s.setBcHead col x) := by
  unfold State.setBcHead
  dsimp only
  exact h

theorem Fits.bcLand {x : BcXfer} {bs : List Byte} {t : Machine.Task} (h : Fits s) : Fits (s.bcLand x bs t) := by
  unfold State.bcLand
  dsimp only
  split
  · exact (h.foldl (fun s1 x1 h1 => h1.engineWrite)).settle
  · exact h.modRing.produceRow

theorem Fits.bcStep {col : Nat} (h : Fits s) : Fits (s.bcStep col) := by
  unfold State.bcStep
  split
  · exact h
  · split
    · exact h.setBcHead
    · extract_lets
      split
      · exact h
      · split
        · exact h
        · split
          · exact h.setBcHead.engineFault
          · split
            · exact h
            · split
              · exact h.readOn.snd ‹_›
              · extract_lets s1
                have h1 : Fits s1 := (h.readOn.snd ‹_›).setBcHead
                split
                · exact h1.foldl (fun s2 t h2 => h2.onTile (fun t1 h3 => h3.ringError))
                · exact h1.engineMemFault
              · split
                · exact (h.readOn.snd ‹_›).setBcHead
                · extract_lets s1 s2
                  have h1 : Fits s1 := (h.readOn.snd ‹_›).foldl (fun s3 t h1 => h1.bcLand)
                  have h2 : Fits s2 := h1.onTile (fun t h2 => h2)
                  exact h2.setBcHead

theorem Fits.execBcRowDelivery {column : Nat} (h : Fits s) : OutFits (execBcRowDelivery column s) := h.bcStep

theorem Fits.modXp {tile id : Nat} {f : XpOp → XpOp} (h : Fits s) : Fits (s.modXp tile id f) := h.onTile (fun _ h1 => h1)

theorem Fits.xpInject (h : Fits s) : Fits s.xpInject := by
  unfold State.xpInject
  dsimp only
  split
  · exact h
  · split
    · exact h
    · split
      · split
        · exact h.modXp
        · split
          · exact h.modEng.engineFault
          · split
            · split
              · exact h.modEng.engineFault
              · exact Fits.countNode (Fits.modXp (Fits.foldl (Fits.foldl h (fun s1 x h1 => h1.notePoison)) (fun s1 x h1 => h1.consume)))
            · split
              · exact h.modEng.engineFault
              · split
                · exact h.modEng.engineFault
                · exact h
      · split
        · exact h.modXp
        · split
          · exact h.modEng.engineFault
          · split
            · split
              · exact h.modEng.engineFault
              · exact Fits.countNode (Fits.modXp (Fits.foldl (Fits.foldl h (fun s1 x h1 => h1.notePoison)) (fun s1 x h1 => h1.consume)))
            · split
              · exact h.modEng.engineFault
              · split
                · exact h.modEng.engineFault
                · exact h

theorem Fits.dropPacket {k : Nat} {p : Packet} {landed : Nat} (h : Fits s) : Fits (s.dropPacket k p landed) := by
  unfold State.dropPacket
  dsimp only
  exact h.modXp

theorem Fits.packetFault {k : Nat} {p : Packet} {st : Status} {info : W64} (h : Fits s) : Fits (s.packetFault k p st info) :=
  h.dropPacket.engineFault

/-- A read of a tower leaves its reply on the way; a poisoned granule defers a fault of the reader. -/
theorem Fits.readReply {bad : Bool} {src : Nat} {pc : Option Nat} {net : Net} (h : Fits s) :
    Fits { (if bad then s.onTile src fun u => u.deferHw true pc else s) with net := net } :=
  Fits.setNet (.ite (h.onTile fun _ ht => ht.deferHw) h)

theorem Fits.packetAt {k : Nat} {p : Packet} {t : Machine.Task} (h : Fits s) : Fits (s.packetAt k p t) := by
  unfold State.packetAt
  dsimp only
  split
  · split
    · exact h.dropPacket
    · split
      · exact h.packetFault
      · exact h
      · exact h.dropPacket
      · exact h.dropPacket.modRing.producePart
  · split
    · exact h.packetFault
    · split
      · exact h
      · exact h.dropPacket.engineWrite.settle
  · split
    · exact h.packetFault
    · exact h.readReply.countNode.foldl fun _ _ h1 => h1.countNode
  · split
    · exact h
    · exact h.dropPacket.engineWrite.settle

theorem Fits.landPacket {k : Nat} (h : Fits s) : Fits (s.landPacket k) := by
  unfold State.landPacket
  split
  · exact h
  · extract_lets _ _ _ _ s1
    have h1 : Fits s1 := by
      unfold s1
      split
      · exact h.dropPacket
      · split
        · exact h.packetAt
        · exact h.dropPacket
    split
    · exact h
    · split
      · exact h1.foldl (fun s2 x h2 => h2.countNode)
      · exact h1

theorem Fits.execXpPacketLanding {index : Nat} (h : Fits s) : OutFits (execXpPacketLanding index s) := h.landPacket

theorem Fits.shiftStep {cl : Nat} (h : Fits s) : Fits (s.shiftStep cl) := by
  unfold State.shiftStep
  dsimp only
  split
  · exact h
  · split
    · exact h
    · split
      · exact h.modEng
      · exact h.modEng
      · exact h.modEng.engineFault
      · exact h.modEng.modRing.producePart

theorem Fits.execShiftPartDelivery {tile : Nat} {cluster : BitVec 3} (h : Fits s) : OutFits (execShiftPartDelivery tile cluster s) :=
  h.onTask (fun _ h1 => h1.shiftStep)

theorem Fits.copyPlace {t : Machine.Task} {o : DmOp} {va n : Nat} (h : Fits s) : Fits (copyPlace t o s va n).2 := by
  unfold Machine.copyPlace
  split
  · split
    · exact h
    · dsimp only
      split
      · exact h
      · split
        · exact h
        · exact h.beats
  · split
    · exact h.translate.snd ‹_›
    · split <;> exact h.translate.snd ‹_›

theorem Fits.copyRows {o : DmOp} {off n fuel : Nat} {got : List Byte} (h : Fits s) : Fits (s.copyRows o off n fuel got).2 := by
  induction fuel generalizing s got with
  | zero => exact h
  | succ n ih =>
    unfold State.copyRows
    split
    · exact h
    · dsimp only
      split
      · exact h.notePoison.choose
      · exact ih h.notePoison.choose

theorem Fits.putRows {o : DmOp} {off : Nat} {bs : List Byte} {fuel k : Nat} (h : Fits s) : Fits (s.putRows o off bs fuel k).2 := by
  induction fuel generalizing s k with
  | zero => exact h
  | succ n ih =>
    unfold State.putRows
    split
    · exact h
    · dsimp only
      split
      · exact h.engineWrite.choose
      · exact ih h.engineWrite.choose

theorem Fits.copyStep (h : Fits s) : Fits s.copyStep := by
  unfold State.copyStep
  extract_lets tile
  split
  · exact h
  · split
    · exact h
    · extract_lets off n set done waits fail toMem toTower
      have hset : ∀ {s o}, Fits s → Fits (set s o) := fun h => h.modEng
      have hdone : ∀ {s}, Fits s → Fits (done s) := by
        intro s h
        unfold done
        split
        · exact h.modEng
        · exact hset h
      have hwaits : ∀ {s}, Fits s → Fits (waits s) := by
        intro s h
        unfold waits
        split
        · exact h.modEng
        · exact h
      have hfail : ∀ {s f}, Fits s → Fits (fail s f) := by
        intro s f h
        unfold fail
        split
        · exact hwaits h
        · exact h.modEng.engineMemFault
      have hmem : ∀ {s bs}, Fits s → Fits (toMem s bs) := by
        intro s bs h
        unfold toMem
        split
        · exact hwaits (hset ((h.writeOn fun _ _ _ h => h.copyPlace).trd ‹_›))
        · exact hfail ((h.writeOn fun _ _ _ h => h.copyPlace).trd ‹_›)
        · split
          · exact hset ((h.writeOn fun _ _ _ h => h.copyPlace).trd ‹_›)
          · exact hdone ((h.writeOn fun _ _ _ h => h.copyPlace).trd ‹_›)
      have htower : ∀ {s bs}, Fits s → Fits (toTower s bs) := by
        intro s bs h
        unfold toTower
        dsimp only
        split
        · exact hset h.putRows.settle
        · exact hdone h.putRows.settle
      split
      · dsimp only
        split
        · exact hset h.copyRows
        · exact hmem h.copyRows
      · split
        · exact h
        · split
          · split
            · exact hmem h
            · exact htower h
          · split
            · exact hfail (h.readOn.snd ‹_›)
            · have h1 := h.readOn.snd ‹_›
              split
              · exact hset h1
              · split
                · exact hmem h1
                · exact htower h1

theorem Fits.execDcopyChunk {tile : Nat} (h : Fits s) : OutFits (execDcopyChunk tile s) := h.onTask (fun _ h1 => h1.copyStep)

theorem Fits.swapEntry {a : Nat} (h : Fits s) : Fits (s.swapEntry a) := by
  unfold State.swapEntry
  dsimp only
  exact h.countLocal.homeWrite.countLocal

theorem Fits.publish (h : Fits s) : Fits s.publish := by
  unfold State.publish
  dsimp only
  split
  · exact h
  · split
    · exact h
    · split
      · exact h.modEng.engineFault
      · exact (h.modEng.foldl (fun s1 x h1 => h1.swapEntry)).modLaunch (fun l h1 => h1)

theorem Fits.execPublicationApply {tile : Nat} (h : Fits s) : OutFits (execPublicationApply tile s) := h.onTask (fun _ h1 => h1.publish)

theorem Fits.unhold (h : Fits s) : Fits s.unhold := by
  unfold State.unhold
  refine h.mapTasks (fun t h1 => ?_)
  split <;> exact h1

theorem Fits.completeTlbInv (h : Fits s) : Fits s.completeTlbInv := by
  unfold State.completeTlbInv
  split
  · exact h
  · dsimp only
    exact h.unhold

theorem Fits.execTlbinvComplete (h : Fits s) : OutFits (execTlbinvComplete s) := h.completeTlbInv

theorem TaskFits.withCur {u : Machine.Task} {f : State → State} (h : Fits s) (hu : TaskFits u)
    (hf : ∀ s, Fits s → Fits (f s)) : TaskFits (s.withCur u f).1 :=
  (hf _ (h.setCur hu)).cur

theorem Fits.withCur {u : Machine.Task} {f : State → State} (h : Fits s) (hu : TaskFits u)
    (hf : ∀ s, Fits s → Fits (f s)) : Fits (s.withCur u f).2 :=
  (hf _ (h.setCur hu)).setCur h.cur

theorem Fits.onContexts {tile : Nat} {f : State → State} (h : Fits s) (hf : ∀ s, Fits s → Fits (f s)) : Fits (s.onContexts tile f) :=
  h.foldl_mem fun s1 l hl h1 => by
    split
    next u e =>
      have hu := h.sched.1 l hl u (List.mem_of_find?_eq_some e)
      refine (h1.withCur hu hf).modLaunch fun l hl => hl.mapContexts fun t ht => ?_
      split
      · exact .withCur h1 hu hf
      · exact ht
    · exact h1

theorem Fits.writeSignal {vector : BitVec 10} {payload : W32} {hi : Nat} (h : Fits s) : Fits (s.writeSignal vector payload hi) := by
  unfold State.writeSignal
  extract_lets a w s1
  have h1 : Fits s1 := h.homeWrite
  clear_value s1
  exact h1

theorem Fits.deliverSignal (h : Fits s) : Fits s.deliverSignal := by
  unfold State.deliverSignal
  split
  · exact h
  · split
    · exact h
    · dsimp only
      exact h.drainTile.modEng.writeSignal

theorem Fits.execSignalDelivery {tile : Nat} (h : Fits s) : OutFits (execSignalDelivery tile s) := by
  unfold Machine.execSignalDelivery
  split
  · exact (h.onTask (fun s1 h1 => h1.deliverSignal)).onContexts (fun s1 h1 => h1.deliverSignal)
  · split
    · exact h
    · rename_i v n rest _
      have h1 : Fits { s with mgmt := { s.mgmt with devSigs := rest } } := h
      split
      · exact h1.writeSignal
      · exact h1

end Sys2Proof.Safety
end

section
/-! SUPPORT. Near-bank units: what Machine/Nbu.lean does keeps every register within its bounds. -/

namespace Sys2Proof.Safety
open Sys2Proof Sys2Proof.Machine Sys2Proof.Laws
variable {s : State}

theorem Fits.nbComplete {chan : Nat} {c : NbCmd} (h : Fits s) : Fits (s.nbComplete chan c) := by
  unfold State.nbComplete
  dsimp only
  split
  · split
    · exact (h.donePlace.snd ‹_›).bumpDone.setNbu
    · exact h.donePlace.snd ‹_›
    · exact (h.donePlace.snd ‹_›).nbFail
  · exact h.setNbu

theorem Fits.nbAdvance (h : Fits s) : Fits s.nbAdvance := by
  unfold State.nbAdvance
  dsimp only
  exact h.setNbu

theorem Fits.rowOp {o : MicroForm} {read write : Bool}
    {f : Vector W32 256 → Vector W32 256 → Vector W32 256 × Option (Vector W32 256)} (h : Fits s) :
    Fits (s.rowOp o read write f) := by
  unfold State.rowOp
  extract_lets
  split
  · exact h.nbFail
  · split
    · exact h
    · split
      · split
        · exact h.translate.snd ‹_›
        · exact (h.translate.snd ‹_›).nbFail
      · split
        · exact (h.translate.snd ‹_›).nbFail
        · extract_lets
          split
          · extract_lets _ _ s1 s2
            have h1 : Fits s1 := by
              unfold s1
              split
              · exact (h.translate.snd ‹_›).setNbu.countChan.countChan
              · exact (h.translate.snd ‹_›).setNbu.countChan
            have h2 : Fits s2 := by
              unfold s2
              split
              · exact h1.countChan
              · exact h1
            refine Fits.nbAdvance ?_
            split
            · exact h2.homeWrite
            · exact h2

theorem Fits.execNbEnd (h : Fits s) : OutFits (execNbEnd s) := h.nbComplete

theorem Fits.execLoadacc {o : MicroForm} (h : Fits s) : OutFits (execLoadacc o s) := h.rowOp

theorem Fits.execAccop {o : MicroForm} (h : Fits s) : OutFits (execAccop o s) := by
  unfold Machine.execAccop
  dsimp only
  exact h.rowOp

theorem Fits.execSacc {o : MicroForm} (h : Fits s) : OutFits (execSacc o s) := by
  unfold Machine.execSacc
  dsimp only
  exact h.rowOp

theorem Fits.execNbStore {o : MicroForm} (h : Fits s) : OutFits (execNbStore o s) := h.rowOp

theorem Fits.execNbClear {acc : BitVec 2} (h : Fits s) : OutFits (execNbClear acc s) := by
  unfold Machine.execNbClear
  dsimp only
  exact h.setNbu.nbAdvance

theorem Fits.execMinmax {o : MicroForm} (h : Fits s) : OutFits (execMinmax o s) := by
  unfold Machine.execMinmax
  dsimp only
  exact h.rowOp

theorem Fits.microExec {i : Instr} (h : Fits s) : OutFits (microExec i s) := by
  unfold Machine.microExec
  split
  · exact h.execNbEnd
  · exact h.execLoadacc
  · exact h.execAccop
  · exact h.execSacc
  · exact h.execNbStore
  · exact h.execNbClear
  · exact h.execMinmax
  · exact h

theorem Fits.outState {o : Out} (h : Fits s) (ho : OutFits o) : Fits (outState s o) := by
  unfold Machine.outState
  split
  · exact ho
  · exact h

theorem Fits.runMicro {l : List Instr} (h : Fits s) : Fits (s.runMicro l) := by
  induction l generalizing s with
  | nil => exact h
  | cons i l ih =>
    have h1 := h.outState (h.microExec (i := i))
    exact .ite (ih h1) h1

theorem Fits.judgeDone {chan : Nat} {c : NbCmd} {go : State → State} (h : Fits s) (hgo : ∀ s, Fits s → Fits (go s)) :
    Fits (s.judgeDone chan c go) := by
  unfold State.judgeDone
  split
  · exact hgo _ h
  · split
    · exact hgo _ (h.donePlace.snd ‹_›)
    · exact h.donePlace.snd ‹_›
    · exact (h.donePlace.snd ‹_›).nbFail

theorem Fits.runCommand {i : Instr} {words : Vector W32 8} (h : Fits s) : Fits (s.runCommand i words) := by
  unfold State.runCommand
  extract_lets _ _ _ _ s1 _ s2
  have h1 : Fits s1 := h
  have h2 : Fits s2 := h1.setNbu
  split
  · exact h2.nbFail
  · exact h2.judgeDone (fun s3 h3 => h3.runMicro)

theorem Fits.execReduce {p : NbForm} (h : Fits s) : OutFits (execReduce p s) := h.runCommand

theorem Fits.execScaleacc {p : NbForm} (h : Fits s) : OutFits (execScaleacc p s) := h.runCommand

theorem Fits.execCmpxchg {p : NbForm} (h : Fits s) : OutFits (execCmpxchg p s) := h.runCommand

theorem Fits.execIdxreduce {p : NbForm} (h : Fits s) : OutFits (execIdxreduce p s) := h.runCommand

theorem Fits.execAccwb {p : NbForm} (h : Fits s) : OutFits (execAccwb p s) := h.runCommand

theorem Fits.execAccclr {p : NbForm} (h : Fits s) : OutFits (execAccclr p s) := h.runCommand

theorem Fits.execUprog {p : NbForm} (h : Fits s) : OutFits (execUprog p s) := h.runCommand

theorem Fits.nbStep {chan : Nat} (h : Fits s) : Fits (s.nbStep chan) := by
  unfold State.nbStep
  split
  · exact h
  · split
    · exact h
    · extract_lets _ s1 _ s2
      have h1 : Fits s1 := h.setNbu
      have h2 : Fits s2 := h1
      split
      · exact h2.nbFail
      · refine h2.judgeDone (fun s3 h3 => ?_)
        extract_lets _ s4 _ s5
        have h4 : Fits s4 := h3.outState h3.microExec
        have h5 : Fits s5 := h4.setNbu
        split
        · exact h3
        · split
          · split
            · exact h5.outState h5.microExec
            · exact h5
          · exact h4

theorem Fits.execRowOperationStart {chan : Nat} (h : Fits s) : OutFits (execRowOperationStart chan s) := h.nbStep

theorem Fits.ordinary {chan : Nat} (h : Fits s) : Fits (s.ordinary chan) := by
  unfold State.ordinary
  dsimp only
  split
  · exact h.setNbu
  · split
    · exact h.setNbu
    · exact h.setNbu.countChan

theorem Fits.execOrdinaryRequestSuspend {chan : Nat} (h : Fits s) : OutFits (execOrdinaryRequestSuspend chan s) := h.ordinary

theorem Fits.askedEdge (h : Fits s) : Fits s.askedEdge := by
  unfold State.askedEdge
  dsimp only
  exact h.foldl (fun s1 x h1 => h1.ordinary)

theorem Fits.execNbContextSpill {chan : Nat} (h : Fits s) : OutFits (execNbContextSpill chan s) := by
  unfold Machine.execNbContextSpill
  dsimp only
  split
  · split
    · exact h.setNbu
    · exact h
  · exact h

theorem TaskFits.unNbHold {t : Task} (h : TaskFits t) : TaskFits t.unNbHold := by
  unfold Task.unNbHold
  split <;> exact h

theorem Fits.nbPortStep (h : Fits s) : Fits s.nbPortStep := by
  unfold State.nbPortStep
  dsimp only
  split
  · exact h
  · split
    · exact h
    · split
      · exact h.modEng.modEng
      · exact h
    · split
      · split
        · exact h.donePlace.snd ‹_›
        · exact (h.modEng.setCur h.modEng.cur.unNbHold).nbFail
      · split
        · exact (h.modEng.setCur h.modEng.cur.unNbHold).nbPush
        · exact h

theorem Fits.execNbPacketEnqueue {tile : Nat} (h : Fits s) : OutFits (execNbPacketEnqueue tile s) := h.onTask (fun _ h1 => h1.nbPortStep)

theorem Fits.nbLateHold (h : Fits s) : Fits s.nbLateHold := by
  unfold State.nbLateHold
  split
  · exact (h.modSeq id).logEvent
  · exact h

theorem Fits.execNbQueueWaitTimeout {tile : Nat} (h : Fits s) : OutFits (execNbQueueWaitTimeout tile s) := by
  unfold Machine.execNbQueueWaitTimeout
  refine h.onTask (fun s1 h1 => ?_)
  split
  · exact h1.nbLateHold
  · exact h1

end Sys2Proof.Safety
end

section
/-! SUPPORT. Retraining, refresh and layout: what Machine/Upkeep.lean does keeps every register within its bounds. -/

namespace Sys2Proof.Safety
open Sys2Proof Sys2Proof.Machine Sys2Proof.Laws
variable {s : State}

theorem Fits.wantPass (h : Fits s) : Fits s.wantPass := h

theorem Fits.forcedFault {ptower : Nat} (h : Fits s) : Fits (s.forcedFault ptower) := by
  unfold State.forcedFault
  split
  · exact h
  · split
    · exact h
    · split
      · exact h
      · dsimp only
        exact h.onTile (fun t h1 => h1)

theorem Fits.scheduledPass {ptower : Nat} (h : Fits s) : Fits (s.scheduledPass ptower) := by
  unfold State.scheduledPass
  split
  · exact h.startPass
  · exact h

theorem Fits.forcedPass {ptower : Nat} (h : Fits s) : Fits (s.forcedPass ptower) := by
  unfold State.forcedPass
  split
  · exact h.startPass.forcedFault
  · exact h

theorem Fits.execScheduledRefreshPass {ptower : Nat} (h : Fits s) : OutFits (execScheduledRefreshPass ptower s) := h.scheduledPass

theorem Fits.execForcedRefresh {ptower : Nat} (h : Fits s) : OutFits (execForcedRefresh ptower s) := h.forcedPass

theorem Fits.passEnd {ptower : Nat} (h : Fits s) : Fits (s.passEnd ptower) := by
  unfold State.passEnd
  split
  · exact h
  · split
    · exact h.setRefresh
    · exact h

theorem Fits.execRefreshPassEnd {ptower : Nat} (h : Fits s) : OutFits (execRefreshPassEnd ptower s) := h.passEnd

theorem Fits.execDeferralExpiry {ptower : Nat} (h : Fits s) : OutFits (execDeferralExpiry ptower s) := by
  unfold Machine.execDeferralExpiry
  split
  · exact h
  · split
    · exact h.setRefresh
    · exact h

theorem Fits.putDeferral {ptower e : Nat} (h : Fits s) : Fits (s.putDeferral ptower e) := h.setRefresh

theorem Fits.endDeferral {ptower : Nat} (h : Fits s) : Fits (s.endDeferral ptower) := by
  unfold State.endDeferral
  split
  · exact h.setRefresh
  · exact h

theorem Fits.endDeferrals {tile : Nat} (h : Fits s) : Fits (s.endDeferrals tile) := h.foldl (fun _ _ h1 => h1.endDeferral)

theorem Fits.execScrubRow {tower : Bool} {row : Nat} {outcome : ScrubOutcome} (h : Fits s) :
    OutFits (execScrubRow tower row outcome s) := by
  unfold Machine.execScrubRow
  dsimp only
  split
  · exact h
  · split
    · exact h
    · exact Fits.countChan h
  · split <;> exact h

theorem Fits.execRelayout {page : Nat} (h : Fits s) : OutFits (execRelayout page s) := by
  unfold Machine.execRelayout
  split
  · exact h.layOut.countChan
  · exact h

theorem Fits.execChannelRetrain {chan : Nat} (h : Fits s) : OutFits (execChannelRetrain chan s) := by
  unfold Machine.execChannelRetrain
  split <;> exact h

theorem Fits.execChannelRetrainEnd {chan : Nat} (h : Fits s) : OutFits (execChannelRetrainEnd chan s) := h

theorem Fits.startRateChanges (h : Fits s) : Fits s.startRateChanges :=
  .ite h <| h.foldl fun _ _ h => .ite h h.setEnv

theorem Fits.execHbmDataRateChange {stack : BitVec 3} (h : Fits s) : OutFits (execHbmDataRateChange stack s) := Fits.startRateChanges h

theorem Fits.execLinkRetrain {link : Nat} (h : Fits s) : OutFits (execLinkRetrain link s) := by
  unfold Machine.execLinkRetrain
  split
  · exact h
  · split <;> exact h

theorem Fits.setColumn {px : Nat} {c : Column} (h : Fits s) : Fits (s.setColumn px c) := h

theorem Fits.columnAct {px : Nat} (h : Fits s) : Fits (s.columnAct px) := by
  unfold State.columnAct
  extract_lets _ _ _ _ _ _ s1 s2
  have h1 : Fits s1 := by
    unfold s1
    split
    · exact h.setColumn.wantPass
    · exact h.setColumn
  have h2 : Fits s2 := by
    unfold s2
    refine h1.foldl (fun s3 t h2 => ?_)
    split
    · exact h2.endLaunch
    · exact h2
  split
  · exact h2.foldl (fun s3 l h3 => h3.endLaunch)
  · exact h1

theorem Fits.execThermalSample {deciC : List ℤ} (h : Fits s) : OutFits (execThermalSample deciC s) := by
  unfold Machine.execThermalSample
  dsimp only
  exact Fits.foldl (Fits.foldl h (fun s1 x h1 => h1.logEvent)) (fun s1 x h1 => h1.setColumn.columnAct)

theorem Fits.execSensorRecalibrate {sensor : Nat} (h : Fits s) : OutFits (execSensorRecalibrate sensor s) := by
  unfold Machine.execSensorRecalibrate
  dsimp only
  split <;> exact h

theorem Fits.capClocks (h : Fits s) : Fits s.capClocks := by
  unfold State.capClocks
  refine h.foldl (fun s1 x h1 => ?_)
  dsimp only
  split
  · exact h1.setColumn
  · exact h1

theorem Fits.applyPmode (h : Fits s) : Fits s.applyPmode := Fits.capClocks h

theorem Fits.execPmodeWrite {v : BitVec 64} (h : Fits s) : OutFits (execPmodeWrite v s) := by
  unfold Machine.execPmodeWrite
  dsimp only
  split
  · exact h
  · exact Fits.applyPmode h

theorem Fits.execPowerLimitExceeded (h : Fits s) : OutFits (execPowerLimitExceeded s) := h.foldl (fun _ _ h1 => h1.setColumn)

theorem Fits.execCoolantFlowLow (h : Fits s) : OutFits (execCoolantFlowLow s) := Fits.logEvent (Fits.applyPmode h)

theorem Fits.execCoolantFlowRestored (h : Fits s) : OutFits (execCoolantFlowRestored s) := Fits.applyPmode h

end Sys2Proof.Safety
end

section
/-! SUPPORT. Doorbells and admission: what Machine/Regions.lean does keeps every register within its bounds. -/

namespace Sys2Proof.Safety
open Sys2Proof Sys2Proof.Machine Sys2Proof.Laws
variable {s : State}

/-- The launch whose checks wait at a doorbell. -/
def DoorbellFits (d : Doorbell) : Prop := ∀ l ∈ d.held, LaunchFits l

theorem tget_fits {region : Nat} {t : Tbl Doorbell} (h : ∀ p ∈ t, DoorbellFits p.2) : DoorbellFits (tget .reset t region) := by
  induction t with
  | nil => exact fun _ hl => nomatch hl
  | cons p t ih =>
    unfold Machine.tget
    split
    · exact h p List.mem_cons_self
    · exact ih fun q hq => h q (List.mem_cons_of_mem _ hq)

theorem Fits.doorbell {region : Nat} (h : Fits s) : DoorbellFits (s.doorbell region) := tget_fits h.sched.2

theorem Fits.setDoorbell {region : Nat} {d : Doorbell} (h : Fits s) (hd : DoorbellFits d) : Fits (s.setDoorbell region d) :=
  h.setSched ⟨h.sched.1, fun p hp => by
    rcases mem_tput hp with rfl | hp
    · exact hd
    · exact h.sched.2 p hp⟩

theorem Fits.tailWrite {region t : Nat} (h : Fits s) : Fits (s.tailWrite region t) := by
  unfold State.tailWrite
  dsimp only
  split
  · exact Fits.wantPass (h.setDoorbell h.doorbell)
  · exact h.setDoorbell h.doorbell

theorem Fits.execTailWrite {region t : BitVec 16} (h : Fits s) : OutFits (execTailWrite region t s) := h.tailWrite

theorem Fits.execTerrClear {region : BitVec 16} (h : Fits s) : OutFits (execTerrClear region s) := h.setDoorbell h.doorbell

theorem Fits.takeRcba {region rcba : Nat} (h : Fits s) : Fits (s.takeRcba region rcba) := by
  unfold State.takeRcba
  dsimp only
  split
  · exact h
  · exact h.setDoorbell h.doorbell

theorem Fits.execLiveOn {region : BitVec 16} {rcba : BitVec 44} (h : Fits s) : OutFits (execLiveOn region rcba s) := by
  unfold Machine.execLiveOn
  dsimp only
  split
  · exact h
  · exact h.takeRcba.setDoorbell fun _ hl => nomatch hl

theorem Fits.execLiveOff {region : BitVec 16} (h : Fits s) : OutFits (execLiveOff region s) := h.setDoorbell h.doorbell

theorem Fits.execRcbaWrite {region : BitVec 16} {rcba : BitVec 44} (h : Fits s) : OutFits (execRcbaWrite region rcba s) := h.takeRcba

theorem Fits.applyLaunch (h : Fits s) : Fits s.applyLaunch := by
  unfold State.applyLaunch
  split
  · exact h
  · split
    · exact h
    · dsimp only
      split
      · exact h.modEng.tailWrite
      · exact h.modEng.setCur h.modEng.cur.defer

theorem Fits.execLaunchRequestApply {tile : Nat} (h : Fits s) : OutFits (execLaunchRequestApply tile s) :=
  (h.onTask (fun _ h1 => h1.applyLaunch)).onContexts (fun _ h1 => h1.applyLaunch)

theorem Fits.schedRead {id : Nat} {e : Effective} {va n : Nat} (h : Fits s) : Fits (s.schedRead id e va n).2 := by
  unfold State.schedRead
  split
  · exact h.spans.snd ‹_›
  · split
    · exact (h.spans.snd ‹_›).queueAt
    · dsimp only
      exact (h.spans.snd ‹_›).passPort.countBeats

theorem Fits.readPart {l : Launch} {k va n : Nat} (h : Fits s) : Fits (s.readPart l k va n).2 := by
  unfold State.readPart
  split
  · exact h
  · exact h.schedRead

theorem Fits.readTaskImage {l : Launch} (h : Fits s) : Fits (s.readTaskImage l).2 := by
  unfold State.readTaskImage
  split
  · exact h.readPart.snd ‹_›
  · dsimp only
    split
    · exact h.readPart.snd ‹_›
    · split
      · exact (h.readPart.snd ‹_›).readPart.snd ‹_›
      · split
        · exact (h.readPart.snd ‹_›).readPart.snd ‹_›
        · split
          · exact (h.readPart.snd ‹_›).readPart.snd ‹_›
          · split
            · exact (h.readPart.snd ‹_›).readPart.snd ‹_›
            · split
              · exact ((h.readPart.snd ‹_›).readPart.snd ‹_›).readPart.snd ‹_›
              · split <;> exact (((h.readPart.snd ‹_›).readPart.snd ‹_›).readPart.snd ‹_›).readPart.snd ‹_›

theorem Fits.readLaunch {l : Launch} (h : Fits s) : Fits (s.readLaunch l).2 := by
  unfold State.readLaunch
  split
  · exact h.readTaskImage.snd ‹_›
  · split <;> exact (h.readTaskImage.snd ‹_›).schedRead.snd ‹_›

theorem LaunchFits.launchOf {id region : Nat} {e : Effective} {b : List Byte} {thr tick : Nat} :
    LaunchFits (launchOf id region e b thr tick) :=
  .empty rfl

theorem LaunchFits.refuse {l : Launch} {st : Status} {recbad imgbad : Bool} {info : W64} (h : LaunchFits l) :
    LaunchFits (l.refuse st recbad imgbad info) :=
  h

theorem Fits.completionPlace {l : Launch} {va n : Nat} (h : Fits s) : Fits (s.completionPlace l va n).2 := by
  unfold State.completionPlace
  split
  · exact h
  · split
    · split
      · exact h.spans.snd ‹_›
      · exact (h.spans.snd ‹_›).logEvent
    · split
      · exact (h.spans.snd ‹_›).queueAt
      · exact h.spans.snd ‹_›

theorem Fits.writeSpans {sps : List Span} {bs : List Byte} (h : Fits s) : Fits (s.writeSpans sps bs) :=
  h.passPort.countBeats.foldl (fun _ _ h1 => h1.homeWrite)

theorem Fits.advanceQhead {region : Nat} (h : Fits s) : Fits (s.advanceQhead region) := by
  unfold State.advanceQhead
  extract_lets q a s1
  have h1 : Fits s1 := h.homeWrite.countLocal
  exact h1.setDoorbell h1.doorbell

/-- The state that an answer of either kind holds fits. -/
def EitherFits : Except State State → Prop
  | .ok s | .error s => Fits s

theorem EitherFits.ok {t : State} {r : Except State State} (h : EitherFits r) (e : r = .ok t) : Fits t := by
  subst e
  exact h

theorem EitherFits.error {t : State} {r : Except State State} (h : EitherFits r) (e : r = .error t) : Fits t := by
  subst e
  exact h

theorem Fits.complete {l : Launch} (h : Fits s) : EitherFits (s.complete l) := by
  unfold State.complete
  split
  · exact h
  · split
    next e =>
      have h1 := h.completionPlace.snd e
      exact h
    next e =>
      have h1 := h.completionPlace.snd e
      split
      next e =>
        have h2 := h1.completionPlace.snd e
        exact h
      next e =>
        have h2 := h1.completionPlace.snd e
        extract_lets s3 s4
        have h3 : Fits s3 := by
          unfold s3
          split
          · exact h2.writeSpans
          · exact h2
        have h4 : Fits s4 := by
          unfold s4
          split
          · extract_lets
            exact h3.countBeats.writeSpans
          · exact h3
        exact h4.advanceQhead

theorem Fits.openRun {region : Nat} {rcb : List Byte} (h : Fits s) : Fits (s.openRun region rcb) := by
  unfold State.openRun
  dsimp only
  split
  · exact h
  · split
    · exact h
    · exact Fits.setDoorbell (h.foldl fun _ _ h => h.countLocal) h.doorbell

/-- The state that a judgement leaves fits, and so is the launch that it takes. -/
def AdmitFits (p : Admit × State) : Prop :=
  Fits p.2 ∧ match p.1 with
    | .take l => LaunchFits l
    | _ => True

theorem AdmitFits.take {l : Launch} {t : State} {p : Admit × State} (h : AdmitFits p) (e : p = (.take l, t)) :
    Fits t ∧ LaunchFits l := by
  subst e
  exact h

theorem Fits.judgeImage {region : Nat} {l : Launch} (h : Fits s) (hl : LaunchFits l) : AdmitFits (s.judgeImage region l) := by
  unfold State.judgeImage
  split
  · exact ⟨Fits.setDoorbell (h.readLaunch.snd ‹_›) fun m hm => Option.some.inj hm ▸ hl, trivial⟩
  · exact ⟨h.readLaunch.snd ‹_›, hl⟩
  · exact ⟨h.readLaunch.snd ‹_›, hl⟩

theorem Fits.judgeRecord {region : Nat} {rcb : List Byte} {e : Effective} (h : Fits s) : AdmitFits (s.judgeRecord region rcb e) := by
  unfold State.judgeRecord
  extract_lets a unread s1 d rec_ l
  clear_value unread
  have h1 : Fits s1 := .ite h h.openRun
  have hl : LaunchFits l := .launchOf
  split
  · exact ⟨h1, hl⟩
  · split
    · exact ⟨h1, hl⟩
    · split
      · exact ⟨h1, hl⟩
      · exact h1.judgeImage hl

theorem Fits.judge {region : Nat} (h : Fits s) : AdmitFits (s.judge region) := by
  have hk : AdmitFits (.hold, s) := ⟨h, trivial⟩
  have hh : ∀ {cause}, AdmitFits (.halt cause, s) := ⟨h, trivial⟩
  unfold State.judge
  extract_lets d
  split
  · exact hk
  · split
    · exact hk
    · split
      · exact hh
      · split
        · exact hk
        · split
          · exact hh
          · split
            · exact hk
            · exact hh
            · split
              · exact hh
              · split
                · exact hh
                · split
                  · exact hk
                  · split
                    · exact h.judgeImage (h.doorbell _ ‹_›)
                    · split
                      · exact hk
                      · exact (Fits.foldl h fun _ _ h => h.countLocal).countLocal.judgeRecord

theorem Fits.dropLaunches {p : Launch → Bool} (h : Fits s) :
    Fits { s with sched := { s.sched with launches := s.sched.launches.filter p } } :=
  h.setLaunches fun l hl => h.sched.1 l (List.mem_filter.1 hl).1

theorem Fits.retireRefused {l : Launch} (h : Fits s) : Fits (s.retireRefused l) := by
  unfold State.retireRefused
  split
  · exact (h.complete.ok ‹_›).dropLaunches.wantPass
  · exact h.complete.error ‹_›

theorem Fits.admitOne {region : Nat} (h : Fits s) : Fits (s.admitOne region).2 := by
  unfold State.admitOne
  have hj := h.judge (region := region)
  split
  · exact hj.1.snd ‹_›
  · exact (hj.1.snd ‹_›).haltRcb.logEvent
  · obtain ⟨h', hl⟩ := hj.take ‹_›
    extract_lets d at_ run s1 l' id' _ s2 s3
    have h1 : Fits s1 := h'.setDoorbell fun _ hm => nomatch hm
    have h2 : Fits s2 := h1.setLaunches (List.forall_mem_append.2 ⟨h1.sched.1, List.forall_mem_singleton.2 hl⟩)
    have h3 : Fits s3 := h2.faultPolicy
    exact .ite h3.retireRefused h3

theorem Fits.admitRegion {region fuel : Nat} (h : Fits s) : Fits (s.admitRegion region fuel) := by
  induction fuel generalizing s with
  | zero => exact h
  | succ n ih =>
    unfold State.admitRegion
    split
    · exact h.admitOne.snd ‹_›
    · exact ih (h.admitOne.snd ‹_›)

theorem Fits.admitAll (h : Fits s) : Fits s.admitAll := by
  unfold State.admitAll
  refine h.foldl (fun s1 x h1 => ?_)
  split
  · exact h1.admitRegion
  · exact h1

end Sys2Proof.Safety
end

section
/-! SUPPORT. Stops, saves and restores: what Machine/Stops.lean does keeps every register within its bounds. -/

namespace Sys2Proof.Safety
open Sys2Proof Sys2Proof.Machine Sys2Proof.Laws
variable {s : State}

theorem Fits.dropDeficits (h : Fits s) : Fits s.dropDeficits := h

theorem Fits.leaveGrid {id : Nat} (h : Fits s) : Fits (s.leaveGrid id) := by
  have hu : TaskFits (if s.cur.bnd.launch = id then .blank else s.cur) := .ite .blank h.cur
  exact (h.setCur hu).setParked fun t ht => h.parked t (List.mem_filter.1 ht).1

theorem TaskFits.startTask {l : Launch} {img : Image} {tile tx ty errs : Nat} : TaskFits (l.startTask img tile tx ty errs) :=
  .mk TaskFits.blank.cl LengthOk.reset (.idle rfl rfl rfl)

theorem Fits.setPstate {ptile v : Nat} (h : Fits s) : Fits (s.setPstate ptile v) := h

theorem Fits.setRemap {tile : Nat} {e : RemapEntry} (h : Fits s) : Fits (s.setRemap tile e) := h

theorem Fits.setTstate {ptower v : Nat} (h : Fits s) : Fits (s.setTstate ptower v) := h

theorem Fits.moveTower {src dst : Nat} (h : Fits s) : Fits (s.moveTower src dst) := by
  unfold State.moveTower
  split
  · exact h
  · extract_lets a b cells full bad s1 s2
    have h1 : Fits s1 := by
      unfold s1
      split
      · exact h.endDeferral.putDeferral
      · exact h
    have h2 : Fits s2 := h1.clearRows.clearRows
    exact h2.setMem

theorem Fits.moveTile {tile px : Nat} (h : Fits s) : Fits (s.moveTile tile px) := by
  unfold State.moveTile
  dsimp only
  exact (h.foldl (fun s1 x h1 => h1.moveTower)).setRemap

theorem Fits.replaceTile {tile : Nat} (h : Fits s) : Fits (s.replaceTile tile) := by
  unfold State.replaceTile
  dsimp only
  split
  · exact h.moveTile.wantPass
  · exact h.setRemap.wantPass

theorem Fits.fencePtile {tile pst : Nat} (h : Fits s) : Fits (s.fencePtile tile pst) := by
  unfold State.fencePtile
  dsimp only
  split
  · exact h.setPstate.wantPass.replaceTile
  · exact h.setPstate.wantPass

theorem Fits.setTmap {ptile i p : Nat} (h : Fits s) : Fits (s.setTmap ptile i p) := by
  unfold State.setTmap
  dsimp only
  exact h

theorem Fits.switchFailed {tile : Nat} (h : Fits s) : Fits (s.switchFailed tile) := by
  unfold State.switchFailed
  dsimp only
  refine h.foldl (fun s1 x h1 => ?_)
  split
  · split
    · split
      · exact h1.setTmap.wantPass
      · exact h1
    · exact h1
  · exact h1

theorem Fits.abandonCopies {tiles : List Nat} (h : Fits s) : Fits (s.abandonCopies tiles) := h

theorem TaskFits.again {t : Task} {l : Launch} {img : Image} {stopped : Bool} : TaskFits (l.again img t stopped) :=
  TaskFits.startTask (l := l) (img := img) (tile := t.bnd.tile) (tx := t.bnd.tx) (ty := t.bnd.ty) (errs := t.bnd.hwErrs + 1)

theorem Fits.landOwned {launch tile fuel : Nat} (h : Fits s) : Fits (s.landOwned launch tile fuel) := by
  induction fuel generalizing s with
  | zero => exact h
  | succ n ih =>
    unfold State.landOwned
    refine ih (h.foldl (fun s1 x h1 => ?_))
    split
    · split
      · exact h1.landPacket
      · exact h1
    · exact h1

theorem Fits.finishRow {launch tile fuel : Nat} (h : Fits s) : Fits (s.finishRow launch tile fuel) := by
  induction fuel generalizing s with
  | zero => exact h
  | succ n ih =>
    unfold State.finishRow
    split
    · exact ih h.bcStep
    · exact h

theorem Fits.finishCut {tile fuel : Nat} (h : Fits s) : Fits (s.finishCut tile fuel) := by
  induction fuel generalizing s with
  | zero => exact h
  | succ n ih =>
    unfold State.finishCut
    split
    · exact h
    · split
      · exact h
      · exact ih (Fits.onTask (h.foldl (fun s1 x h1 => h1.streamStep)) (fun s1 h1 => h1.copyStep))

theorem Fits.finishUnits {launch tile : Nat} (h : Fits s) : Fits (s.finishUnits launch tile) := by
  unfold State.finishUnits
  dsimp only
  exact (h.landOwned.finishRow.onTile (fun t h1 => h1.discardEngines)).finishCut

theorem Fits.reexec {tile pst : Nat} (h : Fits s) : SomeFits (s.reexec tile pst) := by
  unfold State.reexec
  split
  · trivial
  · split
    · trivial
    · split
      · extract_lets s1 s2 s3 u s4
        have h1 : Fits s1 := h.finishUnits
        have h2 : Fits s2 := Fits.abandonCopies h1.setNet
        have h3 : Fits s3 := h2.setPstate.moveTile.clearLease.endDeferrals
        have h4 : Fits s4 := h3.onTile fun t ht => .ite .again ht
        clear_value s4
        refine Fits.wantPass ?_
        exact h4.modLaunch fun l hl => hl
      · trivial

theorem Fits.takePending (h : Fits s) : Fits s.takePending := by
  unfold State.takePending
  split
  · exact h
  · extract_lets s1
    have h1 : Fits s1 := h.endLock.modSeq id
    split
    · exact (SomeFits.guard h1.reexec).some ‹_›
    · exact Fits.takeFault (.ite h1 h1.stallBoundary)

theorem TaskFits.freeze {t : Task} (h : TaskFits t) : TaskFits t.freeze := by
  unfold Task.freeze
  split <;> exact h

theorem TaskFits.goOn {t : Task} {away : Nat} (h : TaskFits t) : TaskFits (t.goOn away) := by
  unfold Task.goOn
  split <;> exact h

theorem Fits.modTasks {id : Nat} {f : Machine.Task → Machine.Task} (h : Fits s) (hf : ∀ t, TaskFits t → TaskFits (f t)) :
    Fits (s.modTasks id f) := by
  unfold State.modTasks
  refine h.mapTasks (fun t h1 => ?_)
  split
  · exact hf _ h1
  · exact h1

theorem Fits.markGroups {t : Machine.Task} (h : Fits s) : Fits (t.markGroups s) := h.foldl (fun _ _ h1 => h1.markGroup)

theorem Fits.stopLaunch {why : StopWhy} {id : Nat} (h : Fits s) : Fits (s.stopLaunch why id) := by
  unfold State.stopLaunch
  extract_lets s1
  have h1 : Fits s1 := h.foldl (fun s2 t h1 => h1.onTask (fun s3 h2 => h2.takePending))
  split
  · exact h1
  · split
    · extract_lets s2 _ s3
      have h2 : Fits s2 := by
        unfold s2
        split
        · exact h1.abandonCopies
        · exact h1
      have h3 : Fits s3 := h2.foldl (fun s4 t h3 => h3.markGroups)
      exact (h3.modTasks (fun t h4 => h4.freeze)).modLaunch (fun l h4 => h4)
    · exact h1

theorem Fits.startStop {id : Nat} {why : StopWhy} (h : Fits s) : Fits (s.startStop id why) := by
  unfold State.startStop
  split
  · exact h
  · exact h.foldl (fun s1 l h1 => h1.stopLaunch)

theorem Fits.execStopRequest {launch : Nat} {why : StopWhy} (h : Fits s) : OutFits (execStopRequest launch why s) := h.startStop

theorem Fits.withdraw {launch tile : Nat} (h : Fits s) : Fits (s.withdraw launch tile) := by
  unfold State.withdraw
  dsimp only
  exact h.landOwned.modLaunch (fun l h1 => h1)

theorem Fits.fabTurn {launch : Nat} {mine : Nat → Bool} {old new : Nat} (h : Fits s) : Fits (s.fabTurn launch mine old new) := h

theorem Fits.ack {tile : Nat} {e : EngineUnit} (h : Fits s) : Fits (s.ack tile e) := by
  unfold State.ack
  split
  · exact h
  · split
    · exact h
    · split
      · exact h
      · dsimp only
        refine Fits.modLaunch ?_ (fun l h1 => h1)
        split
        · exact h.withdraw
        · exact h.fabTurn
        · exact h

theorem Fits.execEngineStopAck {tile : Nat} {e : EngineUnit} (h : Fits s) : OutFits (execEngineStopAck tile e s) := h.ack

theorem Fits.stopRecord {why : StopWhy} {t : Machine.Task} (h : Fits s) : Fits (s.stopRecord why t) := h.emitRec

theorem Fits.endAborted {id : Nat} (h : Fits s) : Fits (s.endAborted id) := by
  unfold State.endAborted
  split
  · split
    · exact h.endLaunch
    · exact h
  · exact h

theorem Fits.saveInstead {l : Launch} (h : Fits s) : Fits (s.saveInstead l) := h.abandonCopies.modLaunch (fun _ h1 => h1)

theorem Fits.resumeLaunch {id : Nat} (h : Fits s) : Fits (s.resumeLaunch id) := by
  unfold State.resumeLaunch
  split
  · exact h
  · split
    · exact h.saveInstead.endAborted
    · extract_lets _ s1 _ s2
      have h1 : Fits s1 := Fits.fabTurn (h.modTasks (fun t h1 => h1.goOn))
      have h2 : Fits s2 := h1
      exact Fits.endAborted (h2.modLaunch (fun l h3 => h3))

theorem Fits.resumeIdle (h : Fits s) : Fits s.resumeIdle := by
  unfold State.resumeIdle
  dsimp only
  exact h.foldl (fun s1 l h1 => h1.resumeLaunch)

theorem Fits.finishStop {l : Launch} (h : Fits s) : Fits (s.finishStop l) := by
  unfold State.finishStop
  extract_lets s1 s2
  have h1 : Fits s1 := by
    unfold s1
    refine h.foldl (fun s3 t h1 => ?_)
    split
    · exact h1.stopRecord
    · exact h1
  have h2 : Fits s2 := h1.modLaunch (fun l1 h2 => h2)
  exact h2.endAborted

theorem Fits.execStopComplete {launch : Nat} (h : Fits s) : OutFits (execStopComplete launch s) := by
  unfold Machine.execStopComplete
  split
  · exact h
  · dsimp only
    split
    · exact (h.foldl (fun s1 l h1 => h1.finishStop)).resumeIdle
    · exact h

theorem Fits.saveTimeout {l : Launch} {late : List Nat} (h : Fits s) : Fits (s.saveTimeout l late) := by
  unfold State.saveTimeout
  extract_lets s1
  have h1 : Fits s1 := by
    refine (h.modTasks fun t ht => ?_).modLaunch fun l hl => LaunchFits.mapContexts hl fun t ht => ?_
    all_goals split <;> exact ht
  exact h1.endLaunch.foldl fun _ _ h => h.fencePtile

theorem Fits.execStopDeadline {launch : Nat} (h : Fits s) : OutFits (execStopDeadline launch s) := by
  unfold Machine.execStopDeadline
  split
  · exact h
  · split
    · exact h.saveTimeout
    · exact h

theorem Fits.saveRows {tile lo hi : Nat} (h : Fits s) : Fits (s.saveRows tile lo hi).2 :=
  List.foldlRecOn (motive := fun p : SavedRows × State => Fits p.2) _ _ h fun _ hp _ _ => hp.clearRows

theorem Fits.loadRows {r : SavedRows} (h : Fits s) : Fits (s.loadRows r) :=
  h

theorem Fits.saveUpTo {id tile hi : Nat} (h : Fits s) : Fits (s.saveUpTo id tile hi) := by
  unfold State.saveUpTo
  split
  · exact h
  · extract_lets lo
    split
    · exact h
    · split
      exact (h.saveRows.snd ‹_›).modLaunch fun l hl => hl

theorem TaskFits.kept {t : Task} (h : TaskFits t) : TaskFits t.kept := h

theorem Fits.launchTasks {id : Nat} (h : Fits s) : ∀ t ∈ s.launchTasks id, TaskFits t := fun t ht =>
  List.forall_mem_cons.2 ⟨h.cur, h.parked⟩ t (List.mem_filter.1 ht).1

theorem Fits.saveLaunch {l : Launch} (h : Fits s) : Fits (s.saveLaunch l) := by
  unfold State.saveLaunch
  extract_lets s1 ctxs dfs s2 xf _ s3
  have h1 : Fits s1 := h.dropDeficits.abandonCopies.foldl fun _ _ h => h.drainTile.saveUpTo
  have h2 : Fits s2 := h1.foldl fun _ _ h => h.endDeferrals
  have h3 : Fits s3 := h2
  have hc : ∀ t ∈ ctxs, TaskFits t := List.forall_mem_map.2 fun t ht => (h1.launchTasks t ht).kept
  exact Fits.endAborted <| Fits.wantPass <| h3.leaveGrid.modLaunch fun l hl => hc

theorem Fits.execSaveComplete {launch : Nat} (h : Fits s) : OutFits (execSaveComplete launch s) := by
  unfold Machine.execSaveComplete
  split
  · exact h
  · split
    · exact h.saveLaunch
    · exact h

theorem Fits.execSaveDeadline {launch : Nat} (h : Fits s) : OutFits (execSaveDeadline launch s) := by
  unfold Machine.execSaveDeadline
  split
  · exact h
  · split
    · exact h.saveTimeout
    · exact h

theorem Fits.reload {l : Launch} (h : Fits s) : Fits (s.reload l).2 := by
  unfold State.reload
  split <;> exact h.readTaskImage.snd ‹_›

theorem Fits.reloadFailed {id : Nat} {va : W64} (h : Fits s) : Fits (s.reloadFailed id va) := Fits.endLaunch (h.modLaunch (fun _ h1 => h1))

theorem Fits.tlbFor {tile : Nat} {asid : BitVec 14} (h : Fits s) : Fits (s.tlbFor tile asid) := by
  unfold State.tlbFor
  split <;> exact h

theorem Fits.restoreLaunch {l : Launch} (h : Fits s) (hl : LaunchFits l) : Fits (s.restoreLaunch l) := by
  unfold State.restoreLaunch
  extract_lets ctxs s1 s2 s3 s4 s5 s6
  have h1 : Fits s1 := h.foldl fun _ _ h => h.tlbFor
  have h2 : Fits s2 := h1.foldl fun _ _ h => h.loadRows
  have h3 : Fits s3 := h2.foldl fun _ _ h => h.putDeferral
  have h4 : Fits s4 := h3.setParked (List.forall_mem_append.2 ⟨h3.parked, List.forall_mem_map.2 hl⟩)
  have h5 : Fits s5 := h4.foldl fun _ _ h => h
  have h6 : Fits s6 := h5.modLaunch fun _ _ => .empty rfl
  split
  · exact Fits.endAborted <| h6.modLaunch fun _ hl => hl
  · exact h6.resumeLaunch

theorem Fits.reloadStores {l : Launch} (h : Fits s) : Fits (s.reloadStores l) := by
  unfold State.reloadStores
  split
  · exact h
  · split
    · exact (h.reload.snd ‹_›).modLaunch (fun l1 h1 => h1)
    · exact (h.reload.snd ‹_›).reloadFailed
    · exact (h.reload.snd ‹_›).modLaunch (fun l1 h1 => h1)

theorem LaunchFits.startStep2 {l : Launch} {tick : Nat} (h : LaunchFits l) : LaunchFits (l.startStep2 tick) := by
  unfold Launch.startStep2
  exact fun t ht => h t ht

theorem Fits.execRestore {launch : Nat} (h : Fits s) : OutFits (execRestore launch s) := by
  unfold Machine.execRestore
  split
  · exact h
  · split
    · exact h
    · extract_lets _ s1 _ s2
      have h1 : Fits s1 := h.foldl (fun s3 l h1 => h1.reloadStores)
      have h2 : Fits s2 := by
        unfold s2
        split
        · exact h1
        · exact h1.foldl (fun s3 l h2 => h2.modLaunch (fun l1 h3 => h3.startStep2))
      split
      · exact h1
      · split
        · exact h2.foldl_mem (fun s3 l hl h3 => h3.restoreLaunch (h2.sched.1 l (List.mem_filter.1 hl).1))
        · exact h2

theorem Fits.execRestoreDeadline {launch : Nat} (h : Fits s) : OutFits (execRestoreDeadline launch s) := by
  unfold Machine.execRestoreDeadline
  split
  · exact h
  · split
    · exact h.saveTimeout
    · exact h

theorem Fits.execMigrationStart {tile px : Nat} (h : Fits s) : OutFits (execMigrationStart tile px s) := by
  unfold Machine.execMigrationStart
  split
  · exact h
  · split
    · exact h
    · split <;> exact h

theorem Fits.clearHeld {l : Launch} {tile : Nat} (h : Fits s) : Fits (s.clearHeld l tile) := by
  unfold State.clearHeld
  refine h.foldl (fun s1 x h1 => ?_)
  split
  · exact h1.clearRows

theorem Fits.contextError {l : Launch} {tile : Nat} (h : Fits s) : Fits (s.contextError l tile) := by
  unfold State.contextError
  split
  · exact h
  · split
    · refine Fits.modLaunch h.clearHeld.setNet fun l hl => List.forall_mem_map.2 fun t ht => ?_
      exact .ite .again (hl t ht)
    · exact h.endLaunch.dropDeficits

theorem Fits.areaError {l : Launch} {tile pst : Nat} (h : Fits s) : Fits (s.areaError l tile pst) := by
  unfold State.areaError
  split
  · exact h
  · split
    · split
      · exact h.fencePtile.contextError
      · exact h.abandonCopies.setPstate.moveTile.wantPass.contextError
    · exact h.endLaunch.dropDeficits

theorem TaskFits.meetHw {t : Task} (h : TaskFits t) : TaskFits t.meetHw := by
  unfold Task.meetHw
  dsimp only
  exact h.deferHw

theorem Fits.hwError {tile pst : Nat} (h : Fits s) : Fits (s.hwError tile pst) := by
  unfold State.hwError
  split
  · exact h.reexec.some ‹_›
  · refine h.onTile (fun t h1 => ?_)
    split
    · exact h1.meetHw
    · exact h1

theorem Fits.towerFailed {tile i : Nat} (h : Fits s) : Fits (s.towerFailed tile i) := by
  unfold State.towerFailed
  extract_lets _ _ s1 s2
  have h1 : Fits s1 := by
    unfold s1
    split
    · exact h.setTstate.reexec.some ‹_›
    · split
      · exact h.setTstate.hwError
      · exact h.setTstate
  have h2 : Fits s2 := by
    unfold s2
    refine h1.foldl (fun s3 l h2 => ?_)
    split
    · exact h2.areaError
    · exact h2.contextError
  split
  · exact h2
  · exact h2.switchFailed

theorem Fits.execHardwareError {tile : Nat} {k : HwError} (h : Fits s) : OutFits (execHardwareError tile k s) := by
  unfold Machine.execHardwareError
  refine Fits.resumeIdle ?_
  split
  · exact h.logEvent
  · refine h.onTile (fun t h1 => ?_)
    split
    · exact h1.meetHw
    · exact h1
  · split
    · exact h.areaError
    · exact h.hwError
  · exact h.towerFailed
  · split
    · exact h.reexec.some ‹_›
    · exact h.hwError.fencePtile
  · exact h.hwError

theorem Fits.copyReadError {tile i : Nat} (h : Fits s) : Fits (s.copyReadError tile i) := by
  unfold State.copyReadError
  dsimp only
  refine (Fits.foldl ?_ (fun s1 l h1 => ?_)).resumeIdle
  · split
    · exact h.abandonCopies.hwError
    · exact h.abandonCopies
  · split
    · exact h1.areaError
    · exact h1.contextError

theorem Fits.migrate {l : Launch} {tile px : Nat} (h : Fits s) : Fits (s.migrate l tile px) := by
  unfold State.migrate
  split
  · exact (h.reload.snd ‹_›).modLaunch (fun l1 h1 => h1)
  · exact (h.reload.snd ‹_›).reloadFailed
  · extract_lets _ s1 s2 s3
    have h1 : Fits s1 := by
      unfold s1
      split
      · refine (h.reload.snd ‹_›).foldl (fun s4 t h1 => ?_)
        split
        · exact h1.stopRecord
        · exact h1
      · exact h.reload.snd ‹_›
    have h2 : Fits s2 := h1.moveTile.abandonCopies.wantPass.modLaunch (fun l1 h2 => h2)
    have h3 : Fits s3 := by
      unfold s3
      split
      · refine h2.onTile (fun t h3 => ?_)
        split <;> exact h3
      · exact h2
    split
    · exact h3
    · exact h3.foldl (fun s4 l1 h4 => h4.resumeLaunch)

theorem Fits.execMigrationSwitch {tile : Nat} (h : Fits s) : OutFits (execMigrationSwitch tile s) := by
  unfold Machine.execMigrationSwitch
  split
  · split
    · split
      · exact h
      · split
        · exact h.copyReadError
        · split
          · exact h.migrate
          · exact h.abandonCopies.resumeIdle
    · exact h
  · exact h

theorem Fits.execTowerSwitchIn {tile : Nat} {tower : BitVec 3} (h : Fits s) : OutFits (execTowerSwitchIn tile tower s) := by
  unfold Machine.execTowerSwitchIn
  extract_lets _ _ s1
  have h1 : Fits s1 := by
    unfold s1
    split
    · exact h.setTstate
    · exact h
  split
  · exact h1
  · split <;> exact h1

theorem Fits.execCopySwitch {tile : Nat} {tower : BitVec 3} (h : Fits s) : OutFits (execCopySwitch tile tower s) := by
  unfold Machine.execCopySwitch
  split
  · exact h
  · dsimp only
    split
    · exact h
    · split
      · exact h.copyReadError
      · split
        · exact h.moveTower.setTmap.abandonCopies.wantPass
        · exact h.abandonCopies

theorem Fits.execCopyWriteError {tile : Nat} (h : Fits s) : OutFits (execCopyWriteError tile s) := by
  unfold Machine.execCopyWriteError
  split
  · exact h
  · dsimp only
    refine Fits.resumeIdle ?_
    split
    · exact h.abandonCopies.setTstate
    · exact h.abandonCopies.setPstate

theorem Fits.execTileScrubDone {ptile : Nat} (h : Fits s) : OutFits (execTileScrubDone ptile s) := by
  unfold Machine.execTileScrubDone
  split
  · exact (h.foldl (fun s1 x h1 => h1.clearRows)).setPstate.wantPass
  · exact h

theorem Fits.execRailFault (h : Fits s) : OutFits (execRailFault s) := h.foldl (fun _ _ h1 => h1.endLaunch)

end Sys2Proof.Safety
end

section
/-! SUPPORT. The scheduler: what Machine/Scheduler.lean does keeps every register within its bounds. -/

namespace Sys2Proof.Safety
open Sys2Proof Sys2Proof.Machine Sys2Proof.Laws
variable {s : State}

theorem Fits.refuseLaunch {id : Nat} {st : Status} {recbad : Bool} {info : W64} (h : Fits s) : Fits (s.refuseLaunch id st recbad info) := by
  unfold State.refuseLaunch
  split
  · exact h
  · exact h.faultPolicy.modLaunch (fun l h1 => h1.refuse)

theorem Fits.readDeps {id : Nat} {e : Effective} {ds : List Dep} {n : Nat} (h : Fits s) : Fits (s.readDeps id e ds n).2 := by
  induction ds generalizing s n with
  | nil => exact h
  | cons d l ih =>
    unfold State.readDeps
    split
    · exact h.schedRead.snd ‹_›
    · exact ih (h.schedRead.snd ‹_›)
    · exact ih (h.schedRead.snd ‹_›)

theorem Fits.evalDeps {l : Launch} (h : Fits s) : Fits (s.evalDeps l) := by
  unfold State.evalDeps
  split
  · exact h
  · split
    · exact (h.readDeps.snd ‹_›).refuseLaunch
    · split
      · exact (h.readDeps.snd ‹_›).modLaunch (fun l1 h1 => h1)
      · exact h.readDeps.snd ‹_›

theorem Fits.makeEligible {l : Launch} (h : Fits s) : Fits (s.makeEligible l) := by
  unfold State.makeEligible
  dsimp only
  split
  · exact h
  · split
    · exact h.foldl (fun s1 l1 h1 => h1.refuseLaunch)
    · split
      · exact h.foldl (fun s1 l1 h1 => h1.refuseLaunch)
      · exact h.foldl (fun s1 l1 h1 => h1.modLaunch (fun l2 h2 => h2))

theorem Fits.retest {l : Launch} (h : Fits s) : Fits (s.retest l) := by
  unfold State.retest
  dsimp only
  split
  · exact h
  · split
    · exact h.foldl (fun s1 l1 h1 => h1.refuseLaunch)
    · exact h.modLaunch (fun l1 h1 => h1)

theorem Fits.age {l : Launch} (h : Fits s) : Fits (s.age l) := by
  unfold State.age
  dsimp only
  split
  · exact h
  · split
    · exact Fits.wantPass (Fits.dropDeficits (h.modLaunch (fun l1 h1 => h1)))
    · exact h

theorem Fits.execAgingExpiry {launch : Nat} (h : Fits s) : OutFits (execAgingExpiry launch s) := by
  unfold Machine.execAgingExpiry
  split
  · exact h.foldl (fun s1 l h1 => h1.age)
  · exact h

theorem Fits.execExclusionTimeout {launch : Nat} (h : Fits s) : OutFits (execExclusionTimeout launch s) := by
  unfold Machine.execExclusionTimeout
  split
  · exact h
  · split
    · exact h
    · split
      · dsimp only
        exact (h.foldl (fun s1 l h1 => h1.refuseLaunch)).dropDeficits.foldl (fun s1 x h1 => h1.logEvent)
      · exact h

theorem LaunchFits.giveUp {l : Launch} (h : LaunchFits l) : LaunchFits l.giveUp := by
  unfold Launch.giveUp
  split
  · split <;> exact h
  · exact h

theorem Fits.giveUp {ids : List Nat} (h : Fits s) : Fits (s.giveUp ids) :=
  h.foldl (fun _ _ h1 => (h1.modLaunch (fun _ h2 => h2.giveUp)).endAborted)

theorem Fits.chooseGroup {ms : List Launch} (h : Fits s) : ∀ p ∈ s.chooseGroup ms, Fits p.1 :=
  List.foldlRecOn (motive := fun o : Option (State × List Nat) => ∀ p ∈ o, Fits p.1) _ _ (by rintro _ ⟨⟩; exact h) fun o ho m _ p hp => by
    obtain ⟨⟨s1, vs⟩, h1, h2⟩ := Option.bind_eq_some_iff.1 hp
    obtain ⟨⟨o', vs'⟩, -, rfl⟩ := Option.map_eq_some_iff.1 h2
    exact (ho _ h1).modLaunch fun _ hl => hl

theorem Fits.place {ms : List Launch} (h : Fits s) : SomeFits (s.place ms) := by
  unfold State.place
  split
  · trivial
  · exact .map fun p hp => (h.chooseGroup p hp).dropDeficits.giveUp

theorem Fits.press {v : Launch} (h : Fits s) : Fits (s.press v) := by
  unfold State.press
  dsimp only
  split
  · exact h.startStop
  · exact h.foldl (fun s1 l h1 => h1.abandonCopies.modLaunch (fun l1 h2 => h2))
  · exact h.foldl (fun s1 l h1 => h1.abandonCopies.modLaunch (fun l1 h2 => h2))
  · exact h.foldl (fun s1 l h1 => h1.modLaunch (fun l1 h2 => h2))
  · exact h

theorem Fits.pressAll (h : Fits s) : Fits s.pressAll := by
  unfold State.pressAll
  dsimp only
  refine h.foldl (fun s1 l h1 => ?_)
  split
  · exact h1.press
  · exact h1

theorem SomeFits.filter {p : State → Bool} {o : Option State} (h : SomeFits o) : SomeFits (o.filter p) := by
  cases o with
  | none => trivial
  | some s =>
    unfold Option.filter
    exact .guard (o := Option.some s) h

theorem Fits.passPlace {ms : List Launch} (h : Fits s) : SomeFits (s.passPlace ms) := by
  unfold State.passPlace
  split
  · trivial
  · split
    · exact h.place.filter
    · exact h.place

theorem Fits.serve {put : State → List Launch → Option State} {gs : List (List Launch)} {d : Nat} (h : Fits s)
    (hp : ∀ s ms, Fits s → SomeFits (put s ms)) : Fits (s.serve put gs d).2 := by
  induction gs generalizing s d with
  | nil => exact h
  | cons ms rest ih =>
    unfold State.serve
    split
    · exact h
    · split
      · exact ih ((hp _ _ h).some ‹_›)
      · exact ih h

theorem Fits.visit {put : State → List Launch → Option State} {c region : Nat} (h : Fits s)
    (hp : ∀ s ms, Fits s → SomeFits (put s ms)) : Fits (s.visit put c region) := by
  unfold State.visit
  split
  · exact h
  · dsimp only
    exact h.serve hp

theorem Fits.placeAll {put : State → List Launch → Option State} {part : State → Nat → Nat → Bool} (h : Fits s)
    (hp : ∀ s ms, Fits s → SomeFits (put s ms)) : Fits (s.placeAll put part) :=
  h.foldl fun _ _ h1 => h1.foldl fun _ _ h2 => h2.visit hp

theorem Fits.replaceBad (h : Fits s) : Fits s.replaceBad := by
  unfold State.replaceBad
  refine h.foldl (fun s1 x h1 => ?_)
  split
  · split
    · exact h1.replaceTile
    · exact h1
  · exact h1

theorem Fits.dropChosen (h : Fits s) : Fits s.dropChosen := h.foldl (fun _ _ h1 => h1.giveUp)

theorem Fits.eachLaunch {f : State → Launch → State} (h : Fits s) (hf : ∀ s l, Fits s → LaunchFits l → Fits (f s l)) :
    Fits (s.eachLaunch f) :=
  h.foldl fun _ _ h1 => by
    split
    · exact hf _ _ h1 (h1.launch? ‹_›)
    · exact h1

theorem Fits.schedule (h : Fits s) : Fits s.schedule := by
  unfold State.schedule
  extract_lets s1 _ s2 s3 s4
  have h1 : Fits s1 := h.replaceBad.dropChosen.dropDeficits
  have h2 : Fits s2 := h1
  have h3 : Fits s3 :=
    ((h2.admitAll.eachLaunch fun _ _ h _ => h.evalDeps).eachLaunch fun _ _ h _ => h.makeEligible).eachLaunch fun _ _ h _ => h.retest
  have h4 : Fits s4 := h3.dropDeficits.eachLaunch fun _ _ h _ => h.age
  exact (h4.placeAll fun _ _ h => h.passPlace).dropDeficits.pressAll

theorem Fits.execSchedulingPass (h : Fits s) : OutFits (execSchedulingPass s) := h.schedule

theorem Fits.execPassTimer (h : Fits s) : OutFits (execPassTimer s) := h.schedule

theorem Fits.execDependenceChangeObserved {launch : Nat} (h : Fits s) : OutFits (execDependenceChangeObserved launch s) := by
  unfold Machine.execDependenceChangeObserved
  refine Fits.schedule ?_
  split
  · exact h.evalDeps
  · exact h

theorem Fits.saveHeld {l : Launch} (h : Fits s) : Fits (s.saveHeld l) := by
  unfold State.saveHeld
  refine h.foldl (fun s1 x h1 => h1.foldl (fun s2 l1 h2 => ?_))
  split
  · exact h2.saveUpTo
  · exact h2

theorem Fits.bindLaunch {l : Launch} {img : Image} {arg : List Byte} (h : Fits s) : Fits (s.bindLaunch l img arg) := by
  unfold State.bindLaunch
  extract_lets s1 l1 ts _ s2
  have h1 : Fits s1 := h.saveHeld.foldl fun _ _ h => h.tlbFor
  have h2 : Fits s2 := h1.setParked (List.forall_mem_append.2 ⟨h1.parked, List.forall_mem_map.2 fun _ _ => .startTask⟩)
  exact h2.modLaunch fun _ hl => hl

theorem Fits.relocate {l : Launch} (h : Fits s) : Fits (s.relocate l) := by
  unfold State.relocate
  extract_lets new s1 f
  split
  · exact h
  · have h1 : Fits s1 := h.foldl fun _ _ h => h.saveUpTo
    exact Fits.modLaunch h1.setNet fun _ hl => List.forall_mem_map.2 fun t ht => hl t ht

theorem Fits.beginRestore {l : Launch} (h : Fits s) : Fits (s.beginRestore l) := by
  unfold State.beginRestore
  dsimp only
  exact h.relocate.saveHeld.modLaunch (fun l1 h1 => h1)

theorem Fits.readAll {ls : List Launch} (h : Fits s) : Fits (s.readAll ls).2 := by
  induction ls generalizing s with
  | nil => exact h
  | cons l rest ih =>
    unfold State.readAll
    split
    · exact ih h
    · split
      · exact (h.readLaunch.snd ‹_›).modLaunch fun _ hl => hl
      · exact ih (h.readLaunch.snd ‹_›)
      · exact ih (h.readLaunch.snd ‹_›)

theorem Fits.release {ms : List Launch} (h : Fits s) : Fits (s.release ms) := by
  unfold State.release
  split
  · exact h.readAll.snd ‹_›
  · dsimp only
    refine ((h.readAll.snd ‹_›).foldl (fun s1 x h1 => ?_)).foldl (fun s1 l h1 => h1.beginRestore)
    split
    · exact h1.bindLaunch
    · exact h1.faultPolicy.modLaunch (fun l h2 => h2.refuse)

theorem Fits.execLaunchRelease {launch : Nat} (h : Fits s) : OutFits (execLaunchRelease launch s) := by
  unfold Machine.execLaunchRelease
  split
  · exact h
  · split
    · exact h.release
    · exact h

theorem Fits.logSlice {region : Nat} (h : Fits s) : Fits (s.logSlice region) := by
  unfold State.logSlice
  split
  · exact h.logEvent
  · exact h

theorem Fits.missSlice {region : Nat} (h : Fits s) : Fits (s.missSlice region) := by
  unfold State.missSlice
  refine h.foldl (fun s1 x h1 => ?_)
  split
  · exact h1.giveUp
  · exact h1

theorem Fits.logMissed {region : Nat} (h : Fits s) : Fits (s.logMissed region) := by
  unfold State.logMissed
  refine h.foldl (fun s1 x h1 => ?_)
  split
  · exact h1.logEvent
  · exact h1

theorem Fits.execSliceStart {region : BitVec 16} (h : Fits s) : OutFits (execSliceStart region s) :=
  (h.logSlice.foldl (fun _ _ h1 => h1.missSlice)).schedule.logMissed

theorem Fits.lead {time : Nat} (h : Fits s) : Fits (s.lead time) := by
  unfold State.lead
  extract_lets soon s1 got
  have h1 : Fits s1 := h.placeAll fun _ _ h => h.place.guard
  exact .ite h1.pressAll h

theorem Fits.execSliceLead {region : BitVec 16} (h : Fits s) : OutFits (execSliceLead region s) := by
  unfold Machine.execSliceLead
  dsimp only
  exact ((h.foldl (fun s1 x h1 => h1.giveUp.logEvent)).foldl (fun s1 x h1 => h1.lead)).dropDeficits

theorem Fits.execSliceEnd {region : BitVec 16} (h : Fits s) : OutFits (execSliceEnd region s) :=
  h.eachLaunch fun _ _ h _ => .ite h <| .ite h.giveUp.wantPass <| .ite h.startStop.wantPass h

theorem Fits.execWatchdogExpiry {launch : Nat} (h : Fits s) : OutFits (execWatchdogExpiry launch s) := by
  unfold Machine.execWatchdogExpiry
  split
  · exact h
  · split
    · split
      · refine h.onTask (fun s1 h1 => Fits.takeTerminal ?_)
        split
        · exact h1
        · exact h1.stallBoundary
      · exact h.endLaunch
    · exact h

theorem Fits.execAbortLaunch {launch : Nat} (h : Fits s) : OutFits (execAbortLaunch launch s) := by
  unfold Machine.execAbortLaunch
  split
  · exact h
  · split
    · exact h.modLaunch (fun l h1 => h1)
    · exact h.modLaunch (fun l h1 => h1)
    · exact h.modLaunch (fun l h1 => h1)
    · split
      · exact h.endLaunch
      · exact h
    · exact h.endLaunch.dropDeficits

theorem Fits.startClear {l : Launch} (h : Fits s) : Fits (s.startClear l) := by
  unfold State.startClear
  split
  · exact h
  · dsimp only
    exact ((h.abandonCopies.foldl (fun s1 t h1 => h1.clearHeld)).foldl (fun s1 x h1 => h1.endDeferrals)).leaveGrid.modLaunch (fun l1 h1 => h1)

theorem Fits.removeLaunch {l : Launch} (h : Fits s) : Fits (s.removeLaunch l) := Fits.wantPass h.dropLaunches

theorem Fits.execRetire {launch : Nat} (h : Fits s) : OutFits (execRetire launch s) := by
  unfold Machine.execRetire
  show Fits _
  split
  · exact h
  · split
    · extract_lets s1
      have h1 : Fits s1 := h.startClear
      split
      · exact h1
      · split
        · exact (h1.complete.ok ‹_›).removeLaunch
        · exact h1.complete.error ‹_›
    · exact h

theorem Fits.execLeaseClearDone {tile : Nat} (h : Fits s) : OutFits (execLeaseClearDone tile s) := by
  unfold Machine.execLeaseClearDone
  show Fits _
  split
  · exact h
  · extract_lets s1 _ s2
    have h1 : Fits s1 := h.clearLease.switchFailed
    clear_value s1
    have h2 : Fits s2 := by
      refine h1.setSched ⟨List.forall_mem_map.2 fun l hl => ?_, h1.sched.2⟩
      have hc := h1.sched.1 l hl
      split <;> exact hc
    refine Fits.wantPass ?_
    split
    · exact h2.replaceTile
    · exact h2

theorem Fits.execTileFence {tile : Nat} (h : Fits s) : OutFits (execTileFence tile s) :=
  (h.fencePtile.eachLaunch fun _ _ h _ => h.retest).dropDeficits

theorem Fits.execPageResolved {writes : List (Nat × BitVec 64)} (h : Fits s) : OutFits (execPageResolved writes s) :=
  (h.foldl (fun _ _ h1 => h1.homeWrite)).unhold

theorem Fits.execPageUnresolvable {asid : BitVec 14} {va : Nat} (h : Fits s) : OutFits (execPageUnresolvable asid va s) := h.unhold

end Sys2Proof.Safety
end

section
/-! SUPPORT. Traces, filters and counters: what Machine/Observing.lean does keeps every register within its bounds. -/

namespace Sys2Proof.Safety
open Sys2Proof Sys2Proof.Machine Sys2Proof.Laws
variable {s : State}

theorem Fits.execTracePortDeliver {tile : Nat} (h : Fits s) : OutFits (execTracePortDeliver tile s) := by
  unfold Machine.execTracePortDeliver
  extract_lets
  split
  · exact h
  · split
    · split
      · exact h
      · exact h.setCore.enqueueCore
    · split
      · exact h
      · split
        · exact h
        · extract_lets
          exact h.setDbg.setCore.enqueueCore

theorem Fits.appendTrace {c : Nat} {r : TraceRec} (h : Fits s) : Fits (s.appendTrace c r) := by
  unfold State.appendTrace
  dsimp only
  split
  · exact h.homeWrite.countLocal.setCore
  · exact h

theorem Fits.modRun {f : FilterRun → FilterRun} (h : Fits s) : Fits (s.modRun f) := by
  unfold State.modRun
  dsimp only
  exact h.setCore

theorem Fits.fltSet {d : BitVec 3} {v : W64} (h : Fits s) : Fits (s.fltSet d v) := h.modRun

theorem Fits.fltBranch {taken : Bool} {imm : BitVec 32} (h : Fits s) : Fits (s.fltBranch taken imm) := h.modRun

theorem Fits.execFltLdf {d : BitVec 3} {off : BitVec 32} (h : Fits s) : OutFits (execFltLdf d off s) := h.fltSet

theorem Fits.execFltLdi {d : BitVec 3} {imm : BitVec 32} (h : Fits s) : OutFits (execFltLdi d imm s) := h.fltSet

theorem Fits.execFltAdd {d a b : BitVec 3} (h : Fits s) : OutFits (execFltAdd d a b s) := h.fltSet

theorem Fits.execFltSub {d a b : BitVec 3} (h : Fits s) : OutFits (execFltSub d a b s) := h.fltSet

theorem Fits.execFltAnd {d a b : BitVec 3} (h : Fits s) : OutFits (execFltAnd d a b s) := h.fltSet

theorem Fits.execFltOr {d a b : BitVec 3} (h : Fits s) : OutFits (execFltOr d a b s) := h.fltSet

theorem Fits.execFltXor {d a b : BitVec 3} (h : Fits s) : OutFits (execFltXor d a b s) := h.fltSet

theorem Fits.execFltShl {d a : BitVec 3} {imm : BitVec 32} (h : Fits s) : OutFits (execFltShl d a imm s) := h.fltSet

theorem Fits.execFltShr {d a : BitVec 3} {imm : BitVec 32} (h : Fits s) : OutFits (execFltShr d a imm s) := h.fltSet

theorem Fits.execFltAndi {d a : BitVec 3} {imm : BitVec 32} (h : Fits s) : OutFits (execFltAndi d a imm s) := h.fltSet

theorem Fits.execFltAddi {d a : BitVec 3} {imm : BitVec 32} (h : Fits s) : OutFits (execFltAddi d a imm s) := h.fltSet

theorem Fits.execFltBeq {a b : BitVec 3} {imm : BitVec 32} (h : Fits s) : OutFits (execFltBeq a b imm s) := h.fltBranch

theorem Fits.execFltBne {a b : BitVec 3} {imm : BitVec 32} (h : Fits s) : OutFits (execFltBne a b imm s) := h.fltBranch

theorem Fits.execFltBltu {a b : BitVec 3} {imm : BitVec 32} (h : Fits s) : OutFits (execFltBltu a b imm s) := h.fltBranch

theorem Fits.execFltBlt {a b : BitVec 3} {imm : BitVec 32} (h : Fits s) : OutFits (execFltBlt a b imm s) := h.fltBranch

theorem Fits.execFltCadd {a : BitVec 3} {imm : BitVec 32} (h : Fits s) : OutFits (execFltCadd a imm s) := h.bump.modRun

theorem Fits.execFltVerd {imm : BitVec 32} (h : Fits s) : OutFits (execFltVerd imm s) := by
  unfold Machine.execFltVerd
  dsimp only
  refine Fits.modRun ?_
  split
  · exact h.appendTrace
  · exact h
  · exact h.bump
  · exact h.appendTrace.assertFix

theorem Fits.filterExec {i : Instr} (h : Fits s) : OutFits (filterExec i s) := by
  unfold Machine.filterExec
  split
  · exact h.execFltLdf
  · exact h.execFltLdi
  · exact h.execFltAdd
  · exact h.execFltSub
  · exact h.execFltAnd
  · exact h.execFltOr
  · exact h.execFltXor
  · exact h.execFltShl
  · exact h.execFltShr
  · exact h.execFltAndi
  · exact h.execFltAddi
  · exact h.execFltBeq
  · exact h.execFltBne
  · exact h.execFltBltu
  · exact h.execFltBlt
  · exact h.execFltCadd
  · exact h.execFltVerd
  · exact h

theorem Fits.filterStep {c : Nat} (h : Fits s) : Fits (s.filterStep c) := by
  unfold State.filterStep
  dsimp only
  split
  · exact h
  · refine Fits.setCore ?_
    split
    · exact h.outState (Fits.filterExec h)
    · exact h

theorem Fits.filterRecord {c : Nat} (h : Fits s) : Fits (s.filterRecord c) := by
  unfold State.filterRecord
  dsimp only
  split
  · exact h
  · split
    · exact h.setCore
    · exact h.setCore.filterStep

theorem Fits.execFilterRecord {core : Nat} (h : Fits s) : OutFits (execFilterRecord core s) := by
  unfold Machine.execFilterRecord
  split
  · exact h.filterRecord
  · exact h

theorem Fits.execFilterVerify {core : Nat} {n : BitVec 10} (h : Fits s) : OutFits (execFilterVerify core n s) := by
  unfold Machine.execFilterVerify
  dsimp only
  split
  · exact h
  · exact h.setCore

theorem Fits.execFilterVerifyDone {core : Nat} (h : Fits s) : OutFits (execFilterVerifyDone core s) := by
  unfold Machine.execFilterVerifyDone
  dsimp only
  split
  · exact h
  · exact h.setCore

theorem Fits.execCounterOverflow {off by_ : Nat} (h : Fits s) : OutFits (execCounterOverflow off by_ s) := by
  unfold Machine.execCounterOverflow
  split
  · exact h.bump
  · exact h

theorem Fits.counterWrite {off : Nat} {v : W64} {inc : Nat} (h : Fits s) : Fits (s.counterWrite off v inc) := by
  unfold State.counterWrite
  extract_lets _ _ _ _ _ _ s1 _ s2
  have h1 : Fits s1 := h.setCounter
  have h2 : Fits s2 := h1
  split
  · exact h2.overflowSignal.overflowRecord
  · exact h2

theorem Fits.execCounterWrite {off : Nat} {v : BitVec 64} {inc : Nat} (h : Fits s) : OutFits (execCounterWrite off v inc s) := by
  unfold Machine.execCounterWrite
  split
  · exact h.counterWrite
  · exact h

theorem Fits.latchFix {p : FixPend} (h : Fits s) : Fits (s.latchFix p) := by
  unfold State.latchFix
  extract_lets _ s1
  have h1 : Fits s1 := h
  split
  · exact h1.emitRec
  · exact h1.offerCore

theorem Fits.execFixLatch (h : Fits s) : OutFits (execFixLatch s) := by
  unfold Machine.execFixLatch
  split
  · exact h
  · split
    · exact h.latchFix
    · exact h

theorem Fits.execFixAssert (h : Fits s) : OutFits (execFixAssert s) := h.assertFix

theorem Fits.execFixRelease (h : Fits s) : OutFits (execFixRelease s) := h

theorem Fits.execRkConfigWrite {off : Nat} {v : BitVec 64} (h : Fits s) : OutFits (execRkConfigWrite off v s) := by
  unfold Machine.execRkConfigWrite
  split
  · exact h
  · dsimp only
    split <;> exact h
  · exact h

theorem Fits.modWatch {f : Watch → Watch} (h : Fits s) : Fits (s.modWatch f) := h

theorem Fits.watchOn {tile : Nat} {f : Watch → Watch} (h : Fits s) : Fits (s.watchOn tile f) := by
  unfold State.watchOn
  refine h.onTile (fun t h1 => ?_)
  split <;> exact h1

theorem Fits.breakpoints (h : Fits s) : Fits s.breakpoints := by
  unfold State.breakpoints
  extract_lets _ _ _ s1
  have h1 : Fits s1 := by
    unfold s1
    refine h.modWatch.foldl (fun s2 x h1 => ?_)
    split
    · exact h1.assertFix
    · exact h1
  split
  · exact h
  · split
    · exact h1.startStop
    · exact h1

theorem Fits.execBreakpointMatch {tile : Nat} {which : Bool} (h : Fits s) : OutFits (execBreakpointMatch tile which s) := by
  unfold Machine.execBreakpointMatch
  refine h.onTask (fun s1 h1 => ?_)
  split
  · exact h1.breakpoints
  · exact h1

theorem Fits.execDebugStop {tile : Nat} (h : Fits s) : OutFits (execDebugStop tile s) := by
  unfold Machine.execDebugStop
  split
  · exact h.startStop
  · exact h

theorem Fits.execDebugResume {tile : Nat} {steps : BitVec 32} (h : Fits s) : OutFits (execDebugResume tile steps s) := by
  unfold Machine.execDebugResume
  split
  · exact h
  · split
    · exact h
    · split
      · exact h
      · dsimp only
        exact (h.foldl (fun s1 l h1 => h1.resumeLaunch.foldl (fun s2 x h2 => h2.watchOn))).watchOn

theorem Fits.stepExpiry (h : Fits s) : Fits s.stepExpiry := by
  unfold State.stepExpiry
  split
  · exact h.modWatch.startStop
  · exact h

theorem Fits.execStepCountExpiry {tile : Nat} (h : Fits s) : OutFits (execStepCountExpiry tile s) := h.onTask (fun _ h1 => h1.stepExpiry)

theorem Fits.clearSeen (h : Fits s) : Fits s.clearSeen := h.modWatch

theorem Fits.noteIssue (h : Fits s) : Fits s.noteIssue := h.modWatch

end Sys2Proof.Safety
end

section
/-! SUPPORT. The context page: what Machine/Context.lean does keeps every register within its bounds. -/

namespace Sys2Proof.Safety
open Sys2Proof Sys2Proof.Machine Sys2Proof.Laws
variable {s : State}

theorem canon_length_le {α : Type} [DecidableEq α] (r : Machine.Runs α) : (canon r).length ≤ r.length := by
  induction r with
  | nil => exact Nat.le_refl 0
  | cons p r ih =>
    obtain ⟨v, c⟩ := p
    simp only [Machine.canon]
    cases hcan : Machine.canon r with
    | nil => simp
    | cons q t =>
      obtain ⟨w, e⟩ := q
      rw [hcan] at ih
      dsimp only
      split <;> simp at ih ⊢ <;> omega

/-- Bytes that describe a vector register describe one within the bounds (R190, R390). -/
theorem vregOf_fits {bs : List Byte} {r : Machine.Runs W32} (e : vregOf bs = some r) : RegisterRuns r := by
  unfold vregOf at e
  extract_lets _ n _ runs at e
  split at e
  · cases e
  next h =>
    push Not at h
    cases e
    obtain ⟨hn, -, hlen⟩ := h
    have hp : Positive runs := List.forall_mem_map.2 fun _ _ => Nat.le_add_left 1 _
    refine registerRuns_iff.2 ⟨.canon hp hlen, (canon_length_le runs).trans ?_⟩
    simpa [runs] using hn

/-- Bytes that describe a mask register describe one within the bounds: its runs alternate (R192, R390). -/
theorem kregOf_fits {bs : List Byte} {r : Machine.Runs Bool} (e : kregOf bs = some r) : RegisterRuns r := by
  unfold kregOf at e
  extract_lets _ n _ first runs at e
  split at e
  · cases e
  next h =>
    push Not at h
    rw [← Option.some.inj e]
    obtain ⟨hn, -, hlen⟩ := h
    refine ⟨List.forall_mem_map.2 fun _ _ => Nat.le_add_left 1 _, by simpa [runs] using hn, hlen, fun j a ha b hb => ?_⟩
    simp only [runs, List.getElem?_map, Option.mem_def, Option.map_eq_some_iff, List.getElem?_eq_some_iff, List.getElem_range] at ha hb
    obtain ⟨_, ⟨_, rfl⟩, rfl⟩ := ha
    obtain ⟨_, ⟨_, rfl⟩, rfl⟩ := hb
    rcases Nat.mod_two_eq_zero_or_one j with hj | hj <;> cases first <;> simp [hj, Nat.add_mod]

theorem TaskFits.ctxCtl {t : Task} {n : Nat} {w : W64} (h : TaskFits t) : TaskFits (t.ctxCtl n w) := by
  unfold Task.ctxCtl
  extract_lets num v
  split
  · exact h
  next hok =>
    split
    · exact h
    · refine h.setCtl fun e => .of_ctlValueOk ?_
      rw [← e]
      simp only [Bool.or_eq_true, Bool.not_eq_true', not_or, Bool.not_eq_false] at hok
      exact hok.2

theorem TaskFits.ctxHead {t : Task} {k : Nat} {v : W64} (h : TaskFits t) : TaskFits (t.ctxHead k v) := by
  unfold Task.ctxHead
  split <;> exact h

theorem TaskFits.regWrite {t : Task} {e i : Nat} {v : W64} (h : TaskFits t) : TaskFits (t.regWrite e i v) := by
  unfold Task.regWrite
  split
  · exact h
  · exact h.setEngine

theorem Fits.bcPut {t : Machine.Task} {k i : Nat} {v : W64} (h : Fits s) : Fits (s.bcPut t k i v) := by
  unfold State.bcPut
  dsimp only
  split <;> exact h

theorem TaskFits.setWrite {t : Task} {tick i : Nat} {v : W64} (h : TaskFits t) : TaskFits (t.setWrite tick i v) := by
  unfold Task.setWrite
  extract_lets eng
  have he : ∀ f, TaskFits (eng f) := fun _ => h
  clear_value eng
  refine .ite h.regWrite ?_
  refine .ite h.setRing ?_
  refine .ite h.regWrite ?_
  refine .ite (he _) ?_
  refine .ite (he _) ?_
  refine .ite h.regWrite ?_
  refine .ite h ?_
  refine .ite h.regWrite ?_
  refine .ite (he _) ?_
  refine .ite (he _) ?_
  refine .ite h.regWrite ?_
  refine .ite h.regWrite ?_
  refine .ite h.regWrite ?_
  refine .ite (he _) (he _)

theorem TaskFits.flagWrite {t : Task} {i : Nat} {v : W64} (h : TaskFits t) : TaskFits (t.flagWrite i v) := by
  unfold Task.flagWrite
  split
  · exact h
  · split
    · exact h
    · split
      · exact h
      · split
        · dsimp only
          exact h.setRing
        · exact h

theorem TaskFits.ctxWrite {t : Task} {tick off : Nat} {v : W64} {ctx : List Host.Cell} (h : TaskFits t) :
    TaskFits (t.ctxWrite tick off v ctx) := by
  unfold Task.ctxWrite
  refine .ite h.ctxHead ?_
  refine .ite h.setS ?_
  refine .ite h.ctxCtl ?_
  refine .ite (.ite (h.foldl fun _ _ ht => ht.setC) h) ?_
  refine .ite (h.modCl fun _ hc => hc) ?_
  refine .ite h ?_
  refine .ite (h.modCl fun _ hc => hc) ?_
  refine .ite h.setWrite ?_
  refine .ite (h.modCl fun c hc => ?_) ?_
  · split
    · exact hc.setV (vregOf_fits ‹_›)
    · exact hc
  refine .ite (h.modCl fun c hc => ?_) ?_
  · split
    next e =>
      split at e
      · exact hc.setK (kregOf_fits e)
      · cases e
    · exact hc
  refine .ite (h.modCl fun _ hc => hc) ?_
  refine .ite h.setEng ?_
  refine .ite h.setEng ?_
  refine .ite h.flagWrite ?_
  exact .ite h.setEng h

theorem Fits.landStalled (h : Fits s) : Fits s.landStalled := by
  unfold State.landStalled
  split
  · exact h
  · exact (h.modSeq id).landDue.modSeq id

theorem Fits.ctxShared {t : Machine.Task} {k : Nat} {v : W64} (h : Fits s) : Fits (s.ctxShared t k v) := by
  unfold State.ctxShared
  dsimp only
  split
  · exact h.modLaunch (fun l h1 => h1)
  · split
    · exact h.modLaunch (fun l h1 => h1)
    · split
      · exact h
      · split
        · exact h.bcPut
        · split
          · exact h.bcPut
          · split
            · split
              · exact h.endDeferral
              · exact h.putDeferral
            · exact h

theorem Fits.ctxPut {tile k : Nat} {now ctx : List Host.Cell} (h : Fits s) : Fits (s.ctxPut tile k now ctx) := by
  unfold State.ctxPut
  split
  · exact h
  · dsimp only
    refine (h.ctxShared.onTask (fun s1 h1 => h1.landStalled)).onTile (fun t h1 => ?_)
    split
    · exact h1.ctxWrite
    · exact h1

theorem Fits.execDebugContextWrite {tile off : Nat} {bytes : List (BitVec 8)} (h : Fits s) :
    OutFits (execDebugContextWrite tile off bytes s) := by
  unfold Machine.execDebugContextWrite
  split
  · exact h
  · dsimp only
    split
    · exact h
    · exact h.watchOn.foldl (fun s1 x h1 => h1.ctxPut)

end Sys2Proof.Safety
end

section
/-! SUPPORT. Management: what Machine/Management.lean does keeps every register within its bounds. -/

namespace Sys2Proof.Safety
open Sys2Proof Sys2Proof.Machine Sys2Proof.Laws
variable {s : State}

theorem Fits.regWrite {off : Nat} {v : W64} (h : Fits s) : Fits (s.regWrite off v) := by
  unfold State.regWrite
  split
  · exact h.setMgmt
  · split
    · exact h
    · split
      · exact h
      · split
        · exact h.setCore
        · split
          · dsimp only
            exact h.setCore
          · split
            · dsimp only
              exact h.setDbg
            · exact h

theorem Fits.execRegisterWrite {off size : Nat} {v : BitVec 64} (h : Fits s) : OutFits (execRegisterWrite off size v s) :=
  .ite (.ite h h) <| .ite h <| .ite (.ite h h) <| .ite (.ite h h) <| .ite h.regWrite h

theorem Fits.execMailboxRequest (h : Fits s) : OutFits (execMailboxRequest s) := by
  unfold Machine.execMailboxRequest
  dsimp only
  split <;> exact h

theorem Fits.execMailboxResponse {bytes : List (BitVec 8)} (h : Fits s) : OutFits (execMailboxResponse bytes s) :=
  .ite h h

theorem Fits.homeAmo {pa size : Nat} {f : Nat → Nat} (h : Fits s) : Fits (s.homeAmo pa size f) := by
  unfold State.homeAmo
  split
  · extract_lets old s1
    have h1 : Fits s1 := h.countLocal.homeWrite.countLocal
    clear_value s1
    exact h1.setMem
  · exact h

theorem Fits.hostPiece {w : HostWork} (h : Fits s) : Fits (s.hostPiece w).2 := by
  unfold State.hostPiece
  dsimp only
  split
  · exact h.homeWrite
  · exact h

theorem Fits.hostGo {hurry : Bool} {fuel : Nat} {w : HostWork} (h : Fits s) : Fits (s.hostGo hurry fuel w) := by
  induction fuel generalizing s w with
  | zero => exact h
  | succ n ih =>
    unfold State.hostGo
    split
    · exact h
    · split
      next e =>
        have h1 := h.hostPiece.snd e
        split
        · exact .ite h1 h1
        · split
          next e =>
            have h2 := Fits.snd (.ite_snd h1 h1.choose) e
            exact .ite h2 (ih h2)

theorem Fits.hostRest {hurry : Bool} (h : Fits s) : Fits (s.hostRest hurry) := by
  unfold State.hostRest
  split
  · exact h.hostGo
  · exact h

theorem Fits.serveAccess {a : HostAccess} (h : Fits s) : Fits (s.serveAccess a) := by
  unfold State.serveAccess
  cases a with
  | read | write => exact h.hostRest.countLocal.hostGo
  | _ => exact h.hostRest.homeAmo

theorem Fits.execHostHbmAccess {a : HostAccess} (h : Fits s) : OutFits (execHostHbmAccess a s) := by
  unfold Machine.execHostHbmAccess
  split
  · exact h.serveAccess
  · exact h

theorem Fits.execPeerAccess {a : HostAccess} (h : Fits s) : OutFits (execPeerAccess a s) := by
  unfold Machine.execPeerAccess
  split
  · exact h.serveAccess
  · exact h

theorem Fits.writeLost {w : PortWrite} (h : Fits s) : Fits (s.writeLost w) := by
  unfold State.writeLost
  refine h.onTile (fun t h1 => ?_)
  split
  · exact h1.defer
  · exact h1

theorem Fits.execRhumbPathTimeout {dev : Nat} (h : Fits s) : OutFits (execRhumbPathTimeout dev s) := by
  unfold Machine.execRhumbPathTimeout
  extract_lets _ _ s1
  have h1 : Fits s1 := h
  exact (h1.foldl (fun s2 x h2 => h2.writeLost)).unhold

theorem Fits.execPtpLock {ns : Nat} (h : Fits s) : OutFits (execPtpLock ns s) := by
  unfold Machine.execPtpLock
  extract_lets _ s1
  have h1 : Fits s1 := h
  split
  · exact h1.foldl (fun s2 x h2 => h2.outState h2.execSliceEnd)
  · exact h

theorem Fits.execPtpLockLost (h : Fits s) : OutFits (execPtpLockLost s) := h

theorem Fits.execFirmwareVerify {image : FirmwareImage} (h : Fits s) : OutFits (execFirmwareVerify image s) := by
  unfold Machine.execFirmwareVerify
  exact h.setMgmt

theorem Fits.execFirmwareHandover (h : Fits s) : OutFits (execFirmwareHandover s) := by
  unfold Machine.execFirmwareHandover
  show Fits _
  split
  · exact .ite h.choose.logEvent h.choose
  · exact h.logEvent

theorem Fits.execSecurityVersionRaise {version : BitVec 32} (h : Fits s) : OutFits (execSecurityVersionRaise version s) :=
  .ite (.ite h.choose h.choose) h

theorem Fits.execAttestationRequest {nonce : BitVec 256} (h : Fits s) : OutFits (execAttestationRequest nonce s) := by
  unfold Machine.execAttestationRequest
  dsimp only
  exact h.setMgmt

theorem Fits.stopForCheckpoint (h : Fits s) : Fits s.stopForCheckpoint := by
  unfold State.stopForCheckpoint
  refine h.foldl (fun s1 l h1 => ?_)
  split
  · exact h1.press.modLaunch (fun l1 h2 => h2)
  · exact h1

theorem Fits.writeCheckpoint (h : Fits s) : Fits s.writeCheckpoint := by
  unfold State.writeCheckpoint
  extract_lets areas _ s1 back s2
  have h1 : Fits s1 := h.setMgmt
  have h2 : Fits s2 := h1.foldl fun _ _ h => h.beginRestore
  exact Fits.dropDeficits <| h2.setLaunches <| List.forall_mem_map.2 fun l hl => h2.sched.1 l hl

theorem Fits.checkpointStep (h : Fits s) : Fits s.checkpointStep := by
  unfold State.checkpointStep
  split
  · exact h
  · split
    · exact h.stopForCheckpoint
    · exact h.writeCheckpoint

theorem Fits.execCheckpoint (h : Fits s) : OutFits (execCheckpoint s) := Fits.checkpointStep h

theorem Fits.execCheckpointRestore (h : Fits s) : OutFits (execCheckpointRestore s) := by
  unfold Machine.execCheckpointRestore
  show Fits _
  split
  · split <;> exact h
  · exact h

theorem Fits.reset : Fits State.reset :=
  ⟨.blank, fun _ h => (List.not_mem_nil h).elim, fun _ h => (List.not_mem_nil h).elim, fun _ h => (List.not_mem_nil h).elim⟩

theorem Fits.execDeviceReset (_ : Fits s) : OutFits (execDeviceReset s) := Fits.reset

end Sys2Proof.Safety
end

section
/-! SUPPORT. Issue of a bundle: what Machine/Issue.lean does keeps every register within its bounds. -/

namespace Sys2Proof.Safety
open Sys2Proof Sys2Proof.Machine Sys2Proof.Laws
variable {s : State}

theorem Fits.syllable {i : Instr} (h : Fits s) : OutFits (syllable i s) := by
  cases i with
  | nop => exact h.execNop
  | add => exact h.execAdd
  | sub => exact h.execSub
  | mul => exact h.execMul
  | mulh => exact h.execMulh
  | mulhu => exact h.execMulhu
  | div => exact h.execDiv
  | divu => exact h.execDivu
  | rem => exact h.execRem
  | remu => exact h.execRemu
  | and => exact h.execAnd
  | or => exact h.execOr
  | xor => exact h.execXor
  | andn => exact h.execAndn
  | shl => exact h.execShl
  | shr => exact h.execShr
  | shra => exact h.execShra
  | rot => exact h.execRot
  | min => exact h.execMin
  | max => exact h.execMax
  | minu => exact h.execMinu
  | maxu => exact h.execMaxu
  | clz => exact h.execClz
  | ctz => exact h.execCtz
  | popc => exact h.execPopc
  | sel => exact h.execSel
  | addi => exact h.execAddi
  | andi => exact h.execAndi
  | ori => exact h.execOri
  | xori => exact h.execXori
  | shli => exact h.execShli
  | shri => exact h.execShri
  | shrai => exact h.execShrai
  | lih => exact h.execLih
  | cmpeqi => exact h.execCmpeqi
  | cmplti => exact h.execCmplti
  | cmpltui => exact h.execCmpltui
  | cmpeq => exact h.execCmpeq
  | cmpne => exact h.execCmpne
  | cmplt => exact h.execCmplt
  | cmpltu => exact h.execCmpltu
  | cmple => exact h.execCmple
  | cmpleu => exact h.execCmpleu
  | cand => exact h.execCand
  | cor => exact h.execCor
  | cxor => exact h.execCxor
  | lds => exact h.execLds
  | sts => exact h.execSts
  | ldg => exact h.execLdg
  | stg => exact h.execStg
  | amoadd => exact h.execAmoadd
  | amomin => exact h.execAmomin
  | amomax => exact h.execAmomax
  | amoand => exact h.execAmoand
  | amoor => exact h.execAmoor
  | amoxch => exact h.execAmoxch
  | amocas => exact h.execAmocas
  | fence => exact h.execFence
  | br => exact h.execBr
  | jmp => exact h.execJmp
  | call => exact h.execCall
  | ret => exact h.execRet
  | loop => exact h.execLoop
  | endTask => exact h.execEndTask
  | rep => exact h.execRep
  | mark => exact h.execMark
  | trap => exact h.execTrap
  | tret => exact h.execTret
  | tfence => exact h.execTfence
  | launch => exact h.execLaunch
  | sfmt => exact h.execSfmt
  | mfc => exact h.execMfc
  | mtc => exact h.execMtc
  | setvl => exact h.execSetvl
  | setcm => exact h.execSetcm
  | lovt => exact h.execLovt
  | tlbinv => exact h.execTlbinv
  | tlbinvAsid => exact h.execTlbinvAsid
  | tlbinvAll => exact h.execTlbinvAll
  | nopA => exact h.execNopA
  | vadd => exact h.execVadd
  | vsub => exact h.execVsub
  | vmul => exact h.execVmul
  | vfma => exact h.execVfma
  | vfms => exact h.execVfms
  | vfnma => exact h.execVfnma
  | vmin => exact h.execVmin
  | vmax => exact h.execVmax
  | vabs => exact h.execVabs
  | vneg => exact h.execVneg
  | vdiv => exact h.execVdiv
  | vsqrt => exact h.execVsqrt
  | vrsq => exact h.execVrsq
  | vrcp => exact h.execVrcp
  | vexp => exact h.execVexp
  | vlog => exact h.execVlog
  | vsin => exact h.execVsin
  | vcos => exact h.execVcos
  | vtanh => exact h.execVtanh
  | vrint => exact h.execVrint
  | viadd => exact h.execViadd
  | visub => exact h.execVisub
  | vimul => exact h.execVimul
  | vimulh => exact h.execVimulh
  | vimin => exact h.execVimin
  | vimax => exact h.execVimax
  | viminu => exact h.execViminu
  | vimaxu => exact h.execVimaxu
  | vand => exact h.execVand
  | vor => exact h.execVor
  | vxor => exact h.execVxor
  | vshl => exact h.execVshl
  | vshr => exact h.execVshr
  | vshra => exact h.execVshra
  | viabs => exact h.execViabs
  | vcmp => exact h.execVcmp
  | vicmp => exact h.execVicmp
  | kand => exact h.execKand
  | kor => exact h.execKor
  | kxor => exact h.execKxor
  | knot => exact h.execKnot
  | kfirst => exact h.execKfirst
  | kcnt => exact h.execKcnt
  | vsel => exact h.execVsel
  | vcoal => exact h.execVcoal
  | vcoalq => exact h.execVcoalq
  | vrlset => exact h.execVrlset
  | vsplat => exact h.execVsplat
  | vruns => exact h.execVruns
  | vrunsK => exact h.execVrunsK
  | vlen => exact h.execVlen
  | vlenK => exact h.execVlenK
  | vtrim => exact h.execVtrim
  | vtrimDrop => exact h.execVtrimDrop
  | vcat => exact h.execVcat
  | vrsum => exact h.execVrsum
  | vrmax => exact h.execVrmax
  | vrmin => exact h.execVrmin
  | vrisum => exact h.execVrisum
  | vrimax => exact h.execVrimax
  | vrimin => exact h.execVrimin
  | vdot => exact h.execVdot
  | nopB => exact h.execNopB
  | vld => exact h.execVld
  | vst => exact h.execVst
  | vlds => exact h.execVlds
  | vsts => exact h.execVsts
  | vldx => exact h.execVldx
  | vstx => exact h.execVstx
  | vldrl => exact h.execVldrl
  | vstrl => exact h.execVstrl
  | kld => exact h.execKld
  | kst => exact h.execKst
  | vcur => exact h.execVcur
  | vrd => exact h.execVrd
  | vwr => exact h.execVwr
  | vmov => exact h.execVmov
  | vmvs => exact h.execVmvs
  | vmvx => exact h.execVmvx
  | vxc => exact h.execVxc
  | vslide => exact h.execVslide
  | vrev => exact h.execVrev
  | vcvt => exact h.execVcvt
  | vclass => exact h.execVclass
  | twr => exact h.execTwr
  | trc => exact h.execTrc
  | trr => exact h.execTrr
  | tclr => exact h.execTclr
  | vshift => exact h.execVshift
  | nopE => exact h.execNopE
  | eset => exact h.execEset
  | eget => exact h.execEget
  | ewait => exact h.execEwait
  | wopen => exact h.execWopen
  | wopenBind => exact h.execWopenBind
  | wopenKeep => exact h.execWopenKeep
  | wadv => exact h.execWadv
  | wwait => exact h.execWwait
  | wwaitDone => exact h.execWwaitDone
  | wclose => exact h.execWclose
  | rstat => exact h.execRstat
  | wflush => exact h.execWflush
  | bcfill => exact h.execBcfill
  | bcfillRing => exact h.execBcfillRing
  | bcwait => exact h.execBcwait
  | bcwaitAll => exact h.execBcwaitAll
  | mma => exact h.execMma
  | mmv => exact h.execMmv
  | mldb => exact h.execMldb
  | mdrain => exact h.execMdrain
  | mswap => exact h.execMswap
  | mclr => exact h.execMclr
  | mflags => exact h.execMflags
  | xsend => exact h.execXsend
  | xwr => exact h.execXwr
  | xrd => exact h.execXrd
  | xbar => exact h.execXbar
  | xbarRow => exact h.execXbarRow
  | xbarCol => exact h.execXbarCol
  | dcopy => exact h.execDcopy
  | dcopyMt => exact h.execDcopyMt
  | dcopyTm => exact h.execDcopyTm
  | dpub => exact h.execDpub
  | dwait => exact h.execDwait
  | fload => exact h.execFload
  | fbind => exact h.execFbind
  | fstat => exact h.execFstat
  | nbcmd => exact h.execNbcmd
  | nbpoll => exact h.execNbpoll
  | nbfence => exact h.execNbfence
  | hsig => exact h.execHsig
  | trace => exact h.execTrace
  | snap => exact h.execSnap
  | refdefer => exact h.execRefdefer
  | refnow => exact h.execRefnow
  | refnowAll => exact h.execRefnowAll
  | _ => exact h

theorem Fits.trial {i : Instr} (h : Fits s) : SomeFits (s.trial i) := by
  unfold State.trial
  split
  · trivial
  · exact SomeFits.guard (o := some _) (h.outState h.syllable)

theorem Fits.firstFault {c a b e : Instr} (h : Fits s) : SomeFits (s.firstFault c a b e) := by
  unfold State.firstFault
  split
  · exact h.trial.some ‹_›
  · split
    · exact h.raise
    · exact h.trial.some ‹_›
  · exact h.trial.some ‹_›
  · exact h.trial.some ‹_›
  · trivial

theorem Fits.endRows (h : Fits s) : Fits s.endRows := by
  unfold State.endRows
  exact h.foldl_mem fun _ w hw h1 => h1.endWait (h.cur.seq.2.1 w (List.mem_of_mem_filter hw))

theorem Fits.effects {l : List Instr} (h : Fits s) : Fits (s.effects l) := by
  unfold State.effects
  refine h.foldl (fun s1 x h1 => ?_)
  split
  · exact h1
  · exact (h1.outState h1.syllable).endRows

theorem Fits.countIssue {a e : Instr} (h : Fits s) : Fits (s.countIssue a e) := by
  unfold State.countIssue
  extract_lets _ _ s1
  have h1 : Fits s1 := by
    unfold s1
    split
    · exact h.countTile
    · exact h.countTile.countTile
  split
  · exact h1
  · exact h1.countTile

theorem Fits.finishBundle {trap : Option Instr} (h : Fits s) : Fits (s.finishBundle trap) := by
  unfold State.finishBundle
  split
  · dsimp only
    split
    · exact h.endWaits
    · exact h.endWaits.outState h.endWaits.syllable
  · split
    · exact h.advance
    · exact h.retryIf

theorem SomeFits.getD {o : Option State} (ho : SomeFits o) (h : Fits s) : Fits (o.getD s) := by
  cases o with
  | none => exact h
  | some t => exact ho

theorem Fits.issueSlots {c a b e : Instr} (h : Fits s) : Fits (s.issueSlots c a b e) := by
  unfold State.issueSlots
  split
  · have h1 := h.firstFault.some ‹_›
    exact .ite h1 (h.endLock.firstFault.getD h1).clearSeen
  · extract_lets s1 trap s2
    have h2 : Fits s2 := h.endLock.noteIssue.countIssue.effects
    split
    · exact h.takeFault
    · exact (h2.modSeq id).finishBundle

theorem Fits.issueBundle (h : Fits s) : Fits s.issueBundle := by
  unfold State.issueBundle
  dsimp only
  split
  · exact (h.modSeq id).takeFault.clearSeen
  · split
    · exact ((h.modSeq id).modSeq id).raise.clearSeen
    · split
      · exact ((h.modSeq id).modSeq id).illegal.clearSeen
      · exact ((h.modSeq id).modSeq id).issueSlots

theorem Fits.takeForced (h : Fits s) : Fits s.takeForced := by
  unfold State.takeForced
  split
  · exact h
  · dsimp only
    refine Fits.takeFault ?_
    split
    · exact h.endLock.modSeq id
    · exact (h.endLock.modSeq id).stallBoundary

theorem Fits.issueOrStop (h : Fits s) : Fits s.issueOrStop := by
  unfold State.issueOrStop
  dsimp only
  refine (h.breakpoints.onTask (fun s1 h1 => h1.stepExpiry)).onTask (fun s1 h1 => ?_)
  split
  · exact h1.issueBundle
  · exact h1

theorem Fits.enterAndIssue {act : State → State} (h : Fits s) (hact : ∀ s, Fits s → Fits (act s)) : Fits (s.enterAndIssue act) := by
  unfold State.enterAndIssue
  dsimp only
  split
  · exact (hact _ h).issueOrStop
  · exact hact _ h

theorem Fits.taskCycle (h : Fits s) : Fits s.taskCycle := by
  unfold State.taskCycle
  dsimp only
  split
  · exact h.takePending
  · split
    · exact h
    · split
      · exact h
      · split
        · exact h.enterAndIssue (fun s1 h1 => h1.takeForced)
        · split
          · exact h.retry
          · split
            · exact h.nbLateHold
            · exact h.enterAndIssue (fun s1 h1 => h1.issueOrStop)

theorem Fits.execBundleIssue (h : Fits s) : OutFits (execBundleIssue s) := h.taskCycle

theorem Fits.execEngineFaultAfterIssue {tile : Nat} (h : Fits s) : OutFits (execEngineFaultAfterIssue tile s) := by
  unfold Machine.execEngineFaultAfterIssue
  split
  · exact h
  · refine h.onTask (fun s1 h1 => ?_)
    split
    · exact h1.takePending
    · exact h1

theorem Fits.serveTask {tile : Nat} (h : Fits s) : Fits (s.serveTask tile) := by
  unfold State.serveTask
  refine h.onTask (fun s1 h1 => ?_)
  split
  · exact h1.retryIf
  · split
    · exact h1.taskCycle.onTask (fun s2 h2 => h2.modSeq id)
    · exact h1

theorem Fits.serveLaunch {id : Nat} (h : Fits s) : Fits (s.serveLaunch id) := by
  refine h.outState ?_
  split
  · exact h.execSchedulingPass
  · split
    · exact h.execDependenceChangeObserved
    · exact h.execLaunchRelease
    · exact h.execRestore
    · exact List.foldlRecOn (motive := OutFits) _ _ h fun _ ho _ _ => (h.outState ho).execMigrationSwitch
    · exact h.execRetire
    · exact h.execRetire
    · exact h

theorem Fits.serveQueued {agent unit : Nat} (h : Fits s) : Fits (s.serveQueued agent unit) := by
  unfold State.serveQueued
  split
  · exact h.serveTask
  · split
    · exact h.streamStep
    · split
      · exact h.onTask (fun s1 h1 => h1.copyStep)
      · split
        · exact h.bcStep
        · split
          · exact h.onTask (fun s1 h1 => h1.fabricRequestStep)
          · split
            · exact h.drainOne
            · split
              · exact h.serveLaunch
              · split
                · exact h.nbStep
                · exact h.onTask (fun s1 h1 => h1.nbPortStep)

theorem Fits.execRelayoutDone {page : Nat} (h : Fits s) : OutFits (execRelayoutDone page s) := by
  unfold Machine.execRelayoutDone
  split
  · exact h
  · extract_lets _ _ s1
    have h1 : Fits s1 := h
    exact h1.foldl (fun s2 x h2 => h2.serveQueued)

end Sys2Proof.Safety
end

section
/-! SUPPORT. The edge of a device cycle: what Machine/Clock.lean does keeps every register within its bounds. -/

namespace Sys2Proof.Safety
open Sys2Proof Sys2Proof.Machine Sys2Proof.Laws
variable {s : State}

theorem Fits.happen {f : State → Out} (h : Fits s) (hf : ∀ s, Fits s → OutFits (f s)) : Fits (s.happen f) := h.outState (hf s h)

theorem Fits.forAll {α : Type} {l : List α} {f : α → State → Out} (h : Fits s) (hf : ∀ x s, Fits s → OutFits (f x s)) :
    Fits (s.forAll l f) :=
  h.foldl fun _ _ h1 => h1.happen (hf _)

theorem TaskFits.countCycle {t : Task} {ticks : Bool} (h : TaskFits t) : TaskFits (t.countCycle ticks) := by
  unfold Task.countCycle
  dsimp only
  split <;> exact h

theorem Fits.countEdge (h : Fits s) : Fits s.countEdge := by
  unfold State.countEdge
  refine h.foldl (fun s1 x h1 => ?_)
  dsimp only
  split
  · exact h1
  · exact h1.bump

theorem Fits.watchdogs {delta : Nat} (h : Fits s) : Fits (s.watchdogs delta) :=
  h.foldl fun _ _ h1 => .ite h1 <| .ite (h1.modLaunch fun _ hl => hl) <|
    Fits.happen (h1.modLaunch fun _ hl => hl) fun _ h => h.execWatchdogExpiry

theorem Fits.extendDeadlines (h : Fits s) : Fits s.extendDeadlines :=
  .ite (h.eachLaunch fun _ _ h _ => .ite (h.modLaunch fun _ hl => hl) h) h

theorem Fits.refreshDue (h : Fits s) : Fits s.refreshDue := by
  unfold State.refreshDue
  extract_lets s1 s2
  have h1 : Fits s1 := h.forAll fun _ _ h => h.passEnd
  have h2 : Fits s2 := h1.forAll fun _ _ h => h.execDeferralExpiry
  exact .ite h2 <| h2.foldl fun _ _ h => h.forcedPass.scheduledPass

theorem Fits.slicesDue (h : Fits s) : Fits s.slicesDue := by
  unfold State.slicesDue
  extract_lets regions at_ s1 s2 s3
  have h1 : Fits s1 := h.forAll fun _ _ h => h.execSliceEnd
  have h2 : Fits s2 := .ite h1.wantPass h1
  have h3 : Fits s3 := h2.forAll fun _ _ h => h.execSliceStart
  exact h3.forAll fun _ _ h => h.execSliceLead

theorem Fits.tlbInvDue {x : TlbInv} (h : Fits s) : Fits (s.tlbInvDue x) := by
  unfold State.tlbInvDue
  split
  · exact h.completeTlbInv
  · exact h

theorem Fits.due {delta : Nat} (h : Fits s) : Fits (s.due delta) := by
  unfold State.due
  extract_lets s1 s2 s3 s4 s5 s6 s7 s8
  have h1 : Fits s1 := h.foldl fun _ _ h => h.filterStep
  have h2 : Fits s2 := h1.watchdogs.extendDeadlines.refreshDue.slicesDue
  have h3 : Fits s3 := h2.forAll fun _ _ h => h.execStopDeadline
  have h4 : Fits s4 := h3.forAll fun _ _ h => h.execSaveDeadline
  have h5 : Fits s5 := h4.forAll fun _ _ h => h.execRestoreDeadline
  have h6 : Fits s6 := h5.forAll fun _ _ h => h.execExclusionTimeout
  have h7 : Fits s7 := (h6.forAll fun _ _ h => h.execAgingExpiry).startRateChanges.hostRest
  have h8 : Fits s8 := h7.foldl fun _ _ h => h.tlbInvDue
  exact .ite (h8.happen fun _ h => h.execPassTimer) h8

theorem Fits.tileProgress {tile : Nat} (h : Fits s) : Fits (s.tileProgress tile) := by
  unfold State.tileProgress
  extract_lets s1 s2 s3 s4 s5 s6 s7
  have h1 : Fits s1 := h.onTask fun _ h => h.runMu.beginMu.runMu
  have h2 : Fits s2 := h1.foldl fun _ _ h => h.streamStep.happen fun _ h => h.execFabricStreamEnd
  have h3 : Fits s3 := h2.onTask fun _ h => h.xpInject
  have h4 : Fits s4 := h3.foldl fun _ _ h => h.happen fun _ h => h.execShiftPartDelivery
  have h5 : Fits s5 := ((h4.happen fun _ h => h.execDcopyChunk).happen fun _ h => h.execFabricLoadRequest).happen fun _ h => h.execFabricBindRequest
  have h6 : Fits s6 := (h5.happen fun _ h => h.execNbPacketEnqueue).happen fun _ h => h.execPublicationApply
  have h7 : Fits s7 := h6.happen fun _ h => h.execSignalDelivery
  exact h7.drainOne.forAll fun _ _ h => h.execEngineStopAck

theorem Fits.landAll {n k : Nat} (h : Fits s) : Fits (s.landAll n k) := by
  induction n generalizing s k with
  | zero => exact h
  | succ n ih => exact ih h.landPacket

theorem Fits.barrierProgress {l : Launch} (h : Fits s) : Fits (s.barrierProgress l) := by
  unfold State.barrierProgress
  extract_lets s1 s2
  have h1 : Fits s1 := h.happen fun _ h => h.execBarrierRelease
  have h2 : Fits s2 := h1.forAll fun _ _ h => h.execBarrierRelease
  exact h2.forAll fun _ _ h => h.execBarrierRelease

theorem Fits.launchProgress (h : Fits s) : Fits s.launchProgress := by
  unfold State.launchProgress
  extract_lets s1 s2 s3 s4 s5 s6
  have h1 : Fits s1 := h.eachLaunch fun _ _ h _ => h.barrierProgress
  have h2 : Fits s2 := h1.forAll fun _ _ h => h.execStopComplete
  have h3 : Fits s3 := h2.forAll fun _ _ h => h.execSaveComplete
  have h4 : Fits s4 := h3.forAll fun _ _ h => h.execLaunchRelease
  have h5 : Fits s5 := h4.forAll fun _ _ h => h.execRestore
  have h6 : Fits s6 := h5.forAll fun _ _ h => h.execRetire
  exact h6.forAll fun _ _ h => h.execLeaseClearDone

theorem Fits.upkeepProgress (h : Fits s) : Fits s.upkeepProgress := by
  unfold State.upkeepProgress
  extract_lets s1 s2 s3 outgrown s4 s5 needs stuck
  have h1 : Fits s1 := h.checkpointStep
  have h2 : Fits s2 := h1.forAll fun c _ h => by
    cases c.tower with
    | some i => exact h.execCopySwitch
    | none => exact h.execMigrationSwitch
  have h3 : Fits s3 := h2.forAll fun _ _ h => h.execMigrationStart
  have h4 : Fits s4 := h3.forAll fun _ _ h => h.execRelayoutDone
  have h5 : Fits s5 := h4.forAll fun _ _ h => h.execRelayout
  exact h5.forAll fun _ _ h => h.execFabricContextSpill

theorem Fits.coreProgress (h : Fits s) : Fits s.coreProgress := by
  refine h.foldl fun s c h1 => (Fits.happen ?_ fun _ h => h.execFilterRecord).happen fun _ h => h.execFilterVerifyDone
  split
  · exact h1.happen fun _ h => h.execTracePortDeliver
  · split
    · exact h1.happen fun _ h => h.execTracePortDeliver
    · exact h1

theorem Fits.feedEdges (h : Fits s) : Fits s.feedEdges := h.foldl (fun _ _ h1 => h1.onTask (fun _ h2 => h2.feedEdge))

theorem Fits.progress (h : Fits s) : Fits s.progress := by
  unfold State.progress
  extract_lets tiles s1 s2 s3 s4 s5 s6 posted s7 s8 s9
  have h1 : Fits s1 := h.foldl fun _ _ h => h.tileProgress
  have h2 : Fits s2 := h1.foldl fun _ _ h => h.drainOne
  have h3 : Fits s3 := h2.foldl fun _ _ h => .ite h h.bcStep
  have h4 : Fits s4 := h3.landAll
  have h5 : Fits s5 := h4.forAll fun _ _ h => h.execRowOperationStart
  have h6 : Fits s6 := .ite h5 (h5.happen fun _ h => h.execSignalDelivery)
  have h7 : Fits s7 := h6.forAll fun _ _ h => h.execSignalDelivery
  have h8 : Fits s8 := h7.launchProgress
  have h9 : Fits s9 := h8.forAll fun _ _ h => h.execLaunchRequestApply
  exact h9.upkeepProgress.coreProgress

theorem Fits.turnColumns (h : Fits s) : Fits s.turnColumns := h

theorem Fits.clockEdge (h : Fits s) : Fits s.clockEdge := by
  unfold State.clockEdge
  extract_lets delta s0 _ s1 s2 s3 _ s4 _ s5
  have h0 : Fits s0 := h.askedEdge.feedEdges.happen fun _ h => h.execFixLatch
  have h1 : Fits s1 := h0.setClk.setObs
  have h2 : Fits s2 := (h1.mapTasks fun _ ht => ht.countCycle).countEdge
  have h3 : Fits s3 := h2.due
  have h4 : Fits s4 := by
    unfold s4
    split
    · exact h3.progress
    · exact h3.setClk
  have h5 : Fits s5 := h4.setClk
  exact h5.turnColumns

end Sys2Proof.Safety
end

section
/-! SUPPORT. Every instruction: what Machine/Dispatch.lean does keeps every register within its bounds. -/

namespace Sys2Proof.Safety
open Sys2Proof Sys2Proof.Machine Sys2Proof.Laws
variable {s : State}

theorem Fits.exec {i : Instr} (h : Fits s) : OutFits (exec i s) := by
  have hs := h.syllable (i := i)
  cases i with
  | nbEnd => exact h.execNbEnd
  | loadacc => exact h.execLoadacc
  | accop => exact h.execAccop
  | sacc => exact h.execSacc
  | nbStore => exact h.execNbStore
  | nbClear => exact h.execNbClear
  | minmax => exact h.execMinmax
  | fltLdf => exact h.execFltLdf
  | fltLdi => exact h.execFltLdi
  | fltAdd => exact h.execFltAdd
  | fltSub => exact h.execFltSub
  | fltAnd => exact h.execFltAnd
  | fltOr => exact h.execFltOr
  | fltXor => exact h.execFltXor
  | fltShl => exact h.execFltShl
  | fltShr => exact h.execFltShr
  | fltAndi => exact h.execFltAndi
  | fltAddi => exact h.execFltAddi
  | fltBeq => exact h.execFltBeq
  | fltBne => exact h.execFltBne
  | fltBltu => exact h.execFltBltu
  | fltBlt => exact h.execFltBlt
  | fltCadd => exact h.execFltCadd
  | fltVerd => exact h.execFltVerd
  | reduce => exact h.execReduce
  | scaleacc => exact h.execScaleacc
  | cmpxchg => exact h.execCmpxchg
  | idxreduce => exact h.execIdxreduce
  | accwb => exact h.execAccwb
  | accclr => exact h.execAccclr
  | uprog => exact h.execUprog
  | bundleIssue => exact h.execBundleIssue
  | resultLanding => exact h.execResultLanding
  | globalAccessPerformed => exact h.execGlobalAccessPerformed
  | fullEmptyWake => exact h.execFullEmptyWake
  | ringReadWake => exact h.execRingReadWake
  | ringWriteWake => exact h.execRingWriteWake
  | engineWaitEnd => exact h.execEngineWaitEnd
  | barrierRelease => exact h.execBarrierRelease
  | engineFaultAfterIssue => exact h.execEngineFaultAfterIssue
  | launchRequestApply => exact h.execLaunchRequestApply
  | tailWrite => exact h.execTailWrite
  | terrClear => exact h.execTerrClear
  | liveOn => exact h.execLiveOn
  | liveOff => exact h.execLiveOff
  | rcbaWrite => exact h.execRcbaWrite
  | schedulingPass => exact h.execSchedulingPass
  | passTimer => exact h.execPassTimer
  | dependenceChangeObserved => exact h.execDependenceChangeObserved
  | agingExpiry => exact h.execAgingExpiry
  | exclusionTimeout => exact h.execExclusionTimeout
  | launchRelease => exact h.execLaunchRelease
  | sliceStart => exact h.execSliceStart
  | sliceLead => exact h.execSliceLead
  | sliceEnd => exact h.execSliceEnd
  | watchdogExpiry => exact h.execWatchdogExpiry
  | retire => exact h.execRetire
  | leaseClearDone => exact h.execLeaseClearDone
  | pageResolved => exact h.execPageResolved
  | pageUnresolvable => exact h.execPageUnresolvable
  | stopRequest => exact h.execStopRequest
  | engineStopAck => exact h.execEngineStopAck
  | stopComplete => exact h.execStopComplete
  | stopDeadline => exact h.execStopDeadline
  | saveComplete => exact h.execSaveComplete
  | saveDeadline => exact h.execSaveDeadline
  | restore => exact h.execRestore
  | restoreDeadline => exact h.execRestoreDeadline
  | migrationStart => exact h.execMigrationStart
  | migrationSwitch => exact h.execMigrationSwitch
  | towerSwitchIn => exact h.execTowerSwitchIn
  | copySwitch => exact h.execCopySwitch
  | copyWriteError => exact h.execCopyWriteError
  | hardwareError => exact h.execHardwareError
  | tileFence => exact h.execTileFence
  | tileScrubDone => exact h.execTileScrubDone
  | thermalSample => exact h.execThermalSample
  | sensorRecalibrate => exact h.execSensorRecalibrate
  | scheduledRefreshPass => exact h.execScheduledRefreshPass
  | forcedRefresh => exact h.execForcedRefresh
  | refreshPassEnd => exact h.execRefreshPassEnd
  | deferralExpiry => exact h.execDeferralExpiry
  | scrubRow => exact h.execScrubRow
  | relayout => exact h.execRelayout
  | relayoutDone => exact h.execRelayoutDone
  | windowRowDelivery => exact h.execWindowRowDelivery
  | bcRowDelivery => exact h.execBcRowDelivery
  | xpPacketLanding => exact h.execXpPacketLanding
  | shiftPartDelivery => exact h.execShiftPartDelivery
  | muOperationBegin => exact h.execMuOperationBegin
  | muOperationComplete => exact h.execMuOperationComplete
  | dcopyChunk => exact h.execDcopyChunk
  | fabricLoadRequest => exact h.execFabricLoadRequest
  | fabricBindRequest => exact h.execFabricBindRequest
  | fabricBeat => exact h.execFabricBeat
  | fabricStreamEnd => exact h.execFabricStreamEnd
  | fabricContextSpill => exact h.execFabricContextSpill
  | nbPacketEnqueue => exact h.execNbPacketEnqueue
  | nbQueueWaitTimeout => exact h.execNbQueueWaitTimeout
  | rowOperationStart => exact h.execRowOperationStart
  | ordinaryRequestSuspend => exact h.execOrdinaryRequestSuspend
  | nbContextSpill => exact h.execNbContextSpill
  | publicationApply => exact h.execPublicationApply
  | tlbinvComplete => exact h.execTlbinvComplete
  | signalDelivery => exact h.execSignalDelivery
  | tracePortDeliver => exact h.execTracePortDeliver
  | filterRecord => exact h.execFilterRecord
  | counterOverflow => exact h.execCounterOverflow
  | counterWrite => exact h.execCounterWrite
  | fixLatch => exact h.execFixLatch
  | fixAssert => exact h.execFixAssert
  | fixRelease => exact h.execFixRelease
  | filterVerify => exact h.execFilterVerify
  | filterVerifyDone => exact h.execFilterVerifyDone
  | rkConfigWrite => exact h.execRkConfigWrite
  | breakpointMatch => exact h.execBreakpointMatch
  | debugStop => exact h.execDebugStop
  | debugResume => exact h.execDebugResume
  | stepCountExpiry => exact h.execStepCountExpiry
  | debugContextWrite => exact h.execDebugContextWrite
  | abortLaunch => exact h.execAbortLaunch
  | mailboxRequest => exact h.execMailboxRequest
  | mailboxResponse => exact h.execMailboxResponse
  | attestationRequest => exact h.execAttestationRequest
  | pmodeWrite => exact h.execPmodeWrite
  | powerLimitExceeded => exact h.execPowerLimitExceeded
  | coolantFlowLow => exact h.execCoolantFlowLow
  | railFault => exact h.execRailFault
  | registerWrite => exact h.execRegisterWrite
  | hostHbmAccess => exact h.execHostHbmAccess
  | peerAccess => exact h.execPeerAccess
  | rhumbPathTimeout => exact h.execRhumbPathTimeout
  | linkRetrain => exact h.execLinkRetrain
  | channelRetrain => exact h.execChannelRetrain
  | channelRetrainEnd => exact h.execChannelRetrainEnd
  | ptpLock => exact h.execPtpLock
  | ptpLockLost => exact h.execPtpLockLost
  | firmwareHandover => exact h.execFirmwareHandover
  | firmwareVerify => exact h.execFirmwareVerify
  | securityVersionRaise => exact h.execSecurityVersionRaise
  | checkpoint => exact h.execCheckpoint
  | deviceReset => exact h.execDeviceReset
  | hbmDataRateChange => exact h.execHbmDataRateChange
  | coolantFlowRestored => exact h.execCoolantFlowRestored
  | checkpointRestore => exact h.execCheckpointRestore
  | _ => exact hs

end Sys2Proof.Safety
end

section
/-! SUPPORT. One step: what Machine/Step.lean does keeps every register within its bounds. -/

namespace Sys2Proof.Safety
open Sys2Proof Sys2Proof.Machine Sys2Proof.Laws
variable {s : State}

theorem Fits.step (h : Fits s) : OutFits (step s) := by
  unfold Machine.step
  split
  · exact h.setClk.exec
  · split
    · exact h.setClk.onTask fun _ h => h.taskCycle
    · exact h.clockEdge

end Sys2Proof.Safety

open Sys2Proof.Machine Sys2Proof.Safety in
/-- Settles O58: a step is an instruction, a task's cycle or a clock edge, and each keeps every vector and mask register, what is on its way
to one, and VL within their bounds. -/
theorem stepsKeepRegistersFit : Obligations.StepsKeepRegistersFit := by
  intro s s' h e
  rw [registersFit_iff_fits] at h ⊢
  exact h.step.next e

end

section
/-! SUPPORT. Finite values as rationals, and what the arithmetic on values makes of them (R132, R144, R145, R148). -/

namespace Sys2Proof.Numbers
open Sys2Proof Sys2Proof.Machine

@[simp] theorem sgnNum_ofNat (n : Nat) : (Q.ofNat n).sgnNum = n := rfl

@[simp] theorem sgnNum_ofInt (i : Int) : (Q.ofInt i).sgnNum = i := by
  by_cases h : i < 0
  · simp only [Q.sgnNum, Q.ofInt, h, decide_true, if_true]; omega
  · simp only [Q.sgnNum, Q.ofInt, h, decide_false, Bool.false_eq_true, if_false]; omega

/-- The rational that a finite value stands for, and its magnitude. -/
def value (q : Q) : ℚ := (q.sgnNum : ℚ) / q.den
def mag (q : Q) : ℚ := (q.num : ℚ) / q.den

/-- The factor of a sign. -/
def sgn (b : Bool) : ℚ := if b then -1 else 1

@[simp] theorem abs_sgn (b : Bool) : |sgn b| = 1 := by cases b <;> simp [sgn]
theorem sgn_xor (a b : Bool) : sgn (a ^^ b) = sgn a * sgn b := by cases a <;> cases b <;> simp [sgn]

theorem value_eq (q : Q) : value q = sgn q.neg * mag q := by
  cases h : q.neg <;> simp [value, mag, sgn, Q.sgnNum, h, neg_div]

theorem mag_nonneg (q : Q) : 0 ≤ mag q := div_nonneg (Nat.cast_nonneg _) (Nat.cast_nonneg _)

@[simp] theorem abs_value (q : Q) : |value q| = mag q := by rw [value_eq, abs_mul, abs_sgn, one_mul, abs_of_nonneg (mag_nonneg q)]

@[simp] theorem value_zero (b : Bool) : value (.zero b) = 0 := by simp [value_eq, mag, Q.zero]
@[simp] theorem value_ofNat (n : Nat) : value (.ofNat n) = n := by simp [value, Q.ofNat, Q.sgnNum]
@[simp] theorem value_ofInt (i : Int) : value (.ofInt i) = i := by rw [value, sgnNum_ofInt]; simp [Q.ofInt]

section
variable {p q : Q}

theorem mag_eq_zero (hd : q.den ≠ 0) : mag q = 0 ↔ q.num = 0 := by simp [mag, hd]

theorem mag_pos (hd : q.den ≠ 0) (hn : q.num ≠ 0) : 0 < mag q := lt_of_le_of_ne (mag_nonneg q) fun h => hn ((mag_eq_zero hd).1 h.symm)

theorem value_eq_zero (hd : q.den ≠ 0) : value q = 0 ↔ q.num = 0 := by rw [← mag_eq_zero hd, ← abs_value, abs_eq_zero]

theorem isZero_iff (hd : q.den ≠ 0) : q.isZero = true ↔ value q = 0 := by simp [Q.isZero, value_eq_zero hd]

theorem isZero_false (hd : q.den ≠ 0) (h : value q ≠ 0) : q.isZero = false := Bool.eq_false_iff.2 fun hz => h ((isZero_iff hd).1 hz)

theorem value_neg (h : value q < 0) : q.neg = true := by
  rw [value_eq] at h
  cases hn : q.neg with
  | true => rfl
  | false => simp [sgn, hn, (mag_nonneg q).not_gt] at h

theorem value_pos (h : 0 < value q) : q.neg = false ∧ value q = mag q := by
  cases hn : q.neg with
  | true => simp [value_eq, sgn, hn, (mag_nonneg q).not_gt] at h
  | false => simp [value_eq, sgn, hn]

/-! ### Products, quotients and sums -/

theorem mag_mul (p q : Q) : mag (p.mul q) = mag p * mag q := by simp [mag, Q.mul, div_mul_div_comm]

theorem value_mul (p q : Q) : value (p.mul q) = value p * value q := by
  have hs : (p.mul q).neg = (p.neg ^^ q.neg) := rfl
  rw [value_eq, value_eq p, value_eq q, mag_mul, hs, sgn_xor]; ring

theorem den_mul (hp : p.den ≠ 0) (hq : q.den ≠ 0) : (p.mul q).den ≠ 0 := Nat.mul_ne_zero hp hq

/-- The quotient that `divV` forms. -/
def quot (p q : Q) : Q := { neg := p.neg != q.neg, num := p.num * q.den, den := p.den * q.num }

theorem value_quot (p q : Q) : value (quot p q) = value p / value q := by
  have hs : (quot p q).neg = (p.neg ^^ q.neg) := rfl
  have hm : mag (quot p q) = mag p / mag q := by simp [mag, quot, div_div_div_eq]
  have hinv : sgn q.neg = (sgn q.neg)⁻¹ := by cases q.neg <;> norm_num [sgn]
  rw [value_eq, value_eq p, value_eq q, hm, hs, sgn_xor, mul_div_mul_comm, div_eq_mul_inv (sgn p.neg), ← hinv]

/-- The sum over the common denominator. -/
theorem value_add_eq (hp : p.den ≠ 0) (hq : q.den ≠ 0) :
    value p + value q = ((p.sgnNum * ((q.den / Nat.gcd p.den q.den : Nat) : Int) +
      q.sgnNum * ((p.den / Nat.gcd p.den q.den : Nat) : Int) : Int) : ℚ) / (p.den / Nat.gcd p.den q.den * q.den : Nat) := by
  have hg := Nat.gcd_pos_of_pos_left q.den (Nat.pos_of_ne_zero hp)
  obtain ⟨a, ha⟩ := Nat.gcd_dvd_left p.den q.den
  obtain ⟨b, hb⟩ := Nat.gcd_dvd_right p.den q.den
  generalize Nat.gcd p.den q.den = g at *
  have ha0 : a ≠ 0 := by rintro rfl; exact hp ha
  have hb0 : b ≠ 0 := by rintro rfl; exact hq hb
  rw [value, value, ha, hb, Nat.mul_div_cancel_left _ hg, Nat.mul_div_cancel_left _ hg]
  have : (g : ℚ) ≠ 0 := Nat.cast_ne_zero.2 hg.ne'
  push_cast
  field_simp

theorem add_spec (mode : Nat) (hp : p.den ≠ 0) (hq : q.den ≠ 0) :
    (Q.add mode p q).den ≠ 0 ∧ value (Q.add mode p q) = value p + value q ∧
      (value p + value q = 0 → (Q.add mode p q).neg = if value p = 0 ∧ p.neg = q.neg then p.neg else decide (mode = 3)) := by
  have hsum := value_add_eq hp hq
  have hd : p.den / Nat.gcd p.den q.den * q.den ≠ 0 := Nat.mul_ne_zero
    (Nat.div_pos (Nat.gcd_le_left _ (Nat.pos_of_ne_zero hp)) (Nat.gcd_pos_of_pos_left _ (Nat.pos_of_ne_zero hp))).ne' hq
  simp only [Q.add]
  generalize p.sgnNum * _ + _ = n at *
  rw [hsum]
  by_cases hn : n = 0
  · have h0 : value p + value q = 0 := by rw [hsum, hn]; simp
    have hnum : p.num = 0 → q.num = 0 := fun h => by
      rw [← value_eq_zero hq]; simpa [(value_eq_zero hp).2 h] using h0
    by_cases hz : p.num = 0 ∧ p.neg = q.neg
    · simp [hn, hz, hnum hz.1, value_eq_zero hp]
      simp [Q.zero]
    · have hz' : (p.num == 0 && q.num == 0 && p.neg == q.neg) = false := by
        simp only [Bool.and_eq_false_iff, beq_eq_false_iff_ne]; tauto
      simp [hn, hz', value_eq_zero hp, hz]
      exact ⟨Nat.one_ne_zero, rfl⟩
  · have hne : (n : ℚ) / (p.den / Nat.gcd p.den q.den * q.den : Nat) ≠ 0 := div_ne_zero (by exact_mod_cast hn) (by exact_mod_cast hd)
    refine ⟨by simpa [hn] using hd, ?_, fun h => absurd h hne⟩
    have hs : (Q.mk (decide (n < 0)) n.natAbs (p.den / Nat.gcd p.den q.den * q.den)).sgnNum = n := sgnNum_ofInt n
    simp only [hn, if_false, value, hs]

/-! ### Square roots -/

/-- Bit by bit, the root stays between `r` and `r + 2 ^ b`. -/
theorem isqrt_spec (n b r : Nat) (hlo : r * r ≤ n) (hhi : n < (r + 2 ^ b) * (r + 2 ^ b)) :
    isqrt n b r * isqrt n b r ≤ n ∧ n < (isqrt n b r + 1) * (isqrt n b r + 1) := by
  induction b generalizing r with
  | zero => exact ⟨hlo, hhi⟩
  | succ b ih =>
    rw [isqrt]
    split
    · next h => exact ih _ h (by rwa [Nat.pow_succ, Nat.mul_two, ← Nat.add_assoc] at hhi)
    · next h => exact ih _ hlo (by omega)

theorem natSqrt_spec (n : Nat) : natSqrt n * natSqrt n ≤ n ∧ n < (natSqrt n + 1) * (natSqrt n + 1) := by
  refine isqrt_spec n _ 0 (Nat.zero_le _) ?_
  rw [Nat.zero_add, ← Nat.pow_add]
  exact lt_of_lt_of_le Nat.lt_log2_self (Nat.pow_le_pow_right (by decide) (by omega))

/-- A root at a multiple of the step 1/P stands within half a step of itself. -/
theorem root_exact {t P x : ℚ} (hP : 0 < P) (ht : 1 ≤ t) (hx : t * t = x * (P * P)) :
    1 / (2 * P) ≤ t / P ∧ (t / P - 1 / (2 * P)) ^ 2 ≤ x ∧ x ≤ (t / P + 1 / (2 * P)) ^ 2 := by
  have hx' : x = (t / P) ^ 2 := by field_simp; linarith
  have he : 0 < 1 / (2 * P) := by positivity
  have hle : 1 / (2 * P) ≤ t / P := by rw [div_le_div_iff₀ (by positivity) hP]; nlinarith
  exact ⟨hle, hx' ▸ pow_le_pow_left₀ (by linarith) (by linarith) 2, hx' ▸ pow_le_pow_left₀ (by linarith) (by linarith) 2⟩

/-- A root between two multiples of the step stands within half a step of the middle between them. -/
theorem root_between {t P x : ℚ} (hP : 0 < P) (ht : 0 ≤ t) (hlo : t * t ≤ x * (P * P)) (hhi : x * (P * P) ≤ (t + 1) * (t + 1)) :
    1 / (2 * P) ≤ (2 * t + 1) / (2 * P) ∧ ((2 * t + 1) / (2 * P) - 1 / (2 * P)) ^ 2 ≤ x ∧
      x ≤ ((2 * t + 1) / (2 * P) + 1 / (2 * P)) ^ 2 := by
  have hsub : (2 * t + 1) / (2 * P) - 1 / (2 * P) = t / P := by field_simp; ring
  have hadd : (2 * t + 1) / (2 * P) + 1 / (2 * P) = (t + 1) / P := by field_simp; ring
  rw [hsub, hadd, div_pow, div_pow]
  refine ⟨div_le_div_of_nonneg_right (by linarith) (by positivity), ?_, ?_⟩
  · rw [div_le_iff₀ (by positivity)]; linarith
  · rw [le_div_iff₀ (by positivity)]; linarith

/-- A square root within 2^-201 of the exact one. -/
theorem sqrtQ_spec {num den : Nat} (hn : num ≠ 0) (hd : den ≠ 0) :
    (sqrtQ num den).den ≠ 0 ∧ (2 : ℚ) ^ (-201 : ℤ) ≤ value (sqrtQ num den) ∧
      (value (sqrtQ num den) - (2 : ℚ) ^ (-201 : ℤ)) ^ 2 ≤ (num : ℚ) / den ∧
      (num : ℚ) / den ≤ (value (sqrtQ num den) + (2 : ℚ) ^ (-201 : ℤ)) ^ 2 := by
  obtain ⟨hlo, hhi⟩ := natSqrt_spec (num <<< 400 / den)
  have hD : (0 : ℚ) < den := Nat.cast_pos.2 (Nat.pos_of_ne_zero hd)
  have hstep : (2 : ℚ) ^ (-201 : ℤ) = 1 / (2 * 2 ^ 200) := by rw [zpow_neg, one_div, ← pow_succ']; norm_cast
  have hshift : num <<< 400 = num * (2 ^ 200 * 2 ^ 200) := by
    rw [show 400 = 200 + 200 from rfl, Nat.shiftLeft_add, Nat.shiftLeft_eq, Nat.shiftLeft_eq, Nat.mul_assoc]
  have hone : (1 : Nat) <<< 201 = 2 * 2 ^ 200 := by decide
  simp only [sqrtQ, hstep, hshift, hone, Nat.one_shiftLeft] at hlo hhi ⊢
  generalize natSqrt (num * (2 ^ 200 * 2 ^ 200) / den) = t at hlo hhi ⊢
  rw [Nat.le_div_iff_mul_le (Nat.pos_of_ne_zero hd)] at hlo
  rw [Nat.div_lt_iff_lt_mul (Nat.pos_of_ne_zero hd)] at hhi
  have hP : (0 : Nat) < 2 ^ 200 := by decide
  have hcast : ((2 ^ 200 : Nat) : ℚ) = 2 ^ 200 := by norm_num
  rw [← hcast]
  clear hcast hshift hone hstep
  generalize 2 ^ 200 = P at *
  have hPq : (0 : ℚ) < P := by exact_mod_cast hP
  split
  case isTrue hx =>
    have hx : t * t * den = num * (P * P) := beq_iff_eq.1 hx
    have ht : t ≠ 0 := by
      rintro rfl
      rw [Nat.zero_mul] at hx
      exact Nat.mul_ne_zero hn (Nat.mul_ne_zero hP.ne' hP.ne') hx.symm
    have hval : value { neg := false, num := t, den := P } = t / P := rfl
    rw [hval]
    refine ⟨hP.ne', root_exact hPq (by exact_mod_cast Nat.one_le_iff_ne_zero.2 ht) ?_⟩
    rw [div_mul_eq_mul_div, eq_div_iff hD.ne']
    exact_mod_cast hx
  case isFalse =>
    have hval : value { neg := false, num := 2 * t + 1, den := 2 * P } = (2 * t + 1) / (2 * P) := by simp [value, Q.sgnNum]
    rw [hval]
    refine ⟨by dsimp only; omega, root_between hPq (Nat.cast_nonneg t) ?_ ?_⟩
    · rw [div_mul_eq_mul_div, le_div_iff₀ hD]
      exact_mod_cast hlo
    · rw [div_mul_eq_mul_div, div_le_iff₀ hD]
      exact_mod_cast hhi.le

end

end Sys2Proof.Numbers
end

section
/-! SUPPORT. The matrix unit at work: how an operation begins, takes a k-step and leaves the unit (R326 to R333), and the sums of a k-step of
INT8 operands (R155, R156). -/

namespace Sys2Proof.MatrixUnit
open Sys2Proof Sys2Proof.Machine Sys2Proof.Laws Sys2Proof.Numbers

variable {s : State} {o : MuOp} {rest : List MuOp}

/-! ### The banks and the operation at the head of the queue -/

@[simp] theorem bank_setBank_self (g : Engines) (b : Bool) (x : Bank) : (g.setBank b x).bank b = x := by cases b <;> rfl

@[simp] theorem bank_setBank_other (g : Engines) (b : Bool) (x : Bank) : (g.setBank b x).bank (!b) = g.bank (!b) := by cases b <;> rfl

/-- An operation at its begin: one of no k-steps is done the cycles of R333 later. -/
def startedAt (o : MuOp) (tick : Nat) : MuOp :=
  { o with begun := true, readyAt := if o.steps = 0 then some (tick + o.cycles) else none }

theorem tlbPending_none (h : s.mem.tlbInvs = []) (tile : Nat) : s.tlbPending tile = false := by simp [State.tlbPending, h]

/-! ### The begin of an operation (R326, R332) -/

theorem beginMu_begun (ho : s.cur.eng.muOps = o :: rest) (hb : o.begun = true) : s.beginMu = s := by simp [State.beginMu, ho, hb]

section
variable (ho : s.cur.eng.muOps = o :: rest) (hb : o.begun = false) (he : s.engineMay s.cur .matrix = true) (ht : s.mem.tlbInvs = [])
include ho hb he ht

theorem beginMu_mswap (hk : o.kind = .mswap) :
    s.beginMu = (s.modEng fun g => { g with bank0 := g.bank1, bank1 := g.bank0 }).setMu (startedAt o s.clk.tick) := by
  simp [State.beginMu, ho, hb, he, tlbPending_none ht, hk, startedAt]

theorem beginMu_mclr (hk : o.kind = .mclr) :
    s.beginMu = (s.modEng fun g => g.setBank o.bank
      { el := if o.q.getLsbD 0 then .replicate 4096 0#32 else (g.bank o.bank).el
        flags := if o.q.getLsbD 1 then 0#5 else (g.bank o.bank).flags }).setMu (startedAt o s.clk.tick) := by
  simp [State.beginMu, ho, hb, he, tlbPending_none ht, hk, startedAt]

theorem beginMu_operands (hk : o.kind = .mma ∨ o.kind = .mmv ∨ o.kind = .mldb) : s.beginMu = s.setMu (startedAt o s.clk.tick) := by
  rcases hk with hk | hk | hk <;> simp [State.beginMu, ho, hb, he, tlbPending_none ht, hk, startedAt]

end

/-! ### The end of an operation (R333) -/

section
variable (ho : s.cur.eng.muOps = o :: rest) (hb : o.begun = true) (he : s.engineMay s.cur .matrix = true)
include ho hb he

theorem workMu_early {n : Nat} (hn : o.readyAt = some n) (hlt : s.clk.tick < n) : s.workMu = s := by
  simp [State.workMu, ho, hb, he, hn, hlt]

theorem workMu_done {n : Nat} (hn : o.readyAt = some n) (hle : n ≤ s.clk.tick) (hk : o.kind ≠ .mdrain) : s.workMu = s.endMu := by
  cases h : o.kind with
  | mdrain => exact absurd h hk
  | _ => simp [State.workMu, ho, hb, he, hn, Nat.not_lt.2 hle, h]

theorem workMu_fed (hn : o.readyAt = none) : s.workMu = s.feedMu o := by
  simp [State.workMu, ho, hb, he, hn]

end

/-! ### A k-step with its rows at hand (R329) -/

theorem missing_zero {n : Nat} {buf : List Byte} (h : 512 * n ≤ buf.length) : missing n buf = 0 := by
  unfold missing; omega

/-- The operation at the head will have completed in device cycle `n`. -/
def readyIn (n : Nat) (g : Engines) : Engines :=
  match g.muOps with
  | x :: r => { g with muOps := { x with readyAt := some n } :: r }
  | [] => g

@[simp] theorem bank_readyIn (n : Nat) (g : Engines) (b : Bool) : (readyIn n g).bank b = g.bank b := by
  unfold readyIn; split <;> rfl

@[simp] theorem step_readyIn (n : Nat) (g : Engines) : (readyIn n g).muOps.head?.map (·.step) = g.muOps.head?.map (·.step) := by
  unfold readyIn; split
  · next h => simp [h]
  · rfl

/-- Where nothing is missing no port is read, and the k-step is done at once. -/
theorem feedMu_full (ha : 512 * o.need.1 ≤ o.bufA.length) (hb : 512 * o.need.2.1 ≤ o.bufB.length)
    (hs : 512 * o.need.2.2 ≤ o.side.length) :
    s.feedMu o = if o.step + 1 = o.steps then ((s.setMu o).muStep o).modEng (readyIn (s.clk.tick + o.cycles))
      else (s.setMu o).muStep o := by
  simp only [State.feedMu, missing_zero ha, missing_zero hb, missing_zero hs, State.feedPort, bne_self_eq_false, Bool.false_eq_true, if_false,
    and_self, if_true]
  rfl

/-- A k-step of MMA puts its sums into its bank. -/
theorem muStep_mma (hk : o.kind = .mma) :
    let t := (s.setMu o).muStep o
    t.cur.eng.bank o.bank = o.mmaStep (s.cur.eng.bank o.bank) ∧ t.cur.eng.bank (!o.bank) = s.cur.eng.bank (!o.bank) ∧
      t.cur.eng.muOps.head?.map (·.step) = some (o.step + 1) ∧ t.cur.reg = s.cur.reg ∧ t.cur.cl = s.cur.cl ∧ t.mem = s.mem := by
  simp only [State.muStep, hk]
  exact ⟨bank_setBank_self .., bank_setBank_other .., rfl, rfl, rfl, rfl⟩

theorem feedMu_mma (hk : o.kind = .mma) (ha : 512 * o.need.1 ≤ o.bufA.length) (hb : 512 * o.need.2.1 ≤ o.bufB.length)
    (hs : 512 * o.need.2.2 ≤ o.side.length) :
    let t := s.feedMu o
    t.cur.eng.bank o.bank = o.mmaStep (s.cur.eng.bank o.bank) ∧ t.cur.eng.bank (!o.bank) = s.cur.eng.bank (!o.bank) ∧
      t.cur.eng.muOps.head?.map (·.step) = some (o.step + 1) ∧ t.cur.reg = s.cur.reg ∧ t.cur.cl = s.cur.cl ∧ t.mem = s.mem := by
  rw [feedMu_full ha hb hs]
  split
  · simpa using muStep_mma (s := s) hk
  · exact muStep_mma hk

/-! ### The sums of a k-step of INT8 operands (R155, R156) -/

theorem toInt_accInt (acc : W32) (d : Int) : (accInt acc d).1.toInt = max (-(2 ^ 31)) (min (2 ^ 31 - 1) (acc.toInt + d)) := by
  have hfit : ∀ v : Int, -(2 ^ 31) ≤ v → v ≤ 2 ^ 31 - 1 → (BitVec.ofInt 32 v).toInt = v := fun v _ _ =>
    BitVec.toInt_ofInt_eq_self (by decide) (by omega) (by omega)
  simp only [accInt]
  split
  · rw [hfit _ (by decide) (by decide)]; omega
  · split
    · rw [hfit _ (by decide) (by decide)]; omega
    · rw [hfit _ (by omega) (by omega)]; omega

/-- Integer chunks go into the accumulator one after another. -/
theorem accChunks_int (hacc : o.acct = 8) (acc : W32) (l : List (List (FVal × FVal))) (scale : Nat → FVal × FVal) :
    (accChunks o acc l scale).1 = l.foldl (fun a ch => (accInt a ((ch.map fun p => p.1.toInt * p.2.toInt).sum)).1) acc := by
  unfold accChunks
  simp only [hacc, if_true]
  generalize (0#5 : BitVec 5) = f
  generalize 0 = n
  induction l generalizing acc f n with
  | nil => rfl
  | cons ch l ih => exact ih _ _ _

/-- Sixty-four pairs in groups of sixteen. -/
theorem groupsOf_range {α : Type} (f : Nat → α) :
    groupsOf 16 ((List.range 64).map f) = (List.range 4).map fun c => (List.range 16).map fun k => f (16 * c + k) := rfl

theorem sum_group (g : Nat → Int) {c : Nat} (hc : c < 4) :
    ((List.range 16).map fun k => g (16 * c + k)).sum = ∑ k : Fin 64 with k.val / 16 = c, g k := by
  change ∑ k ∈ Finset.range 16, g (16 * c + k) = _
  refine Finset.sum_bij (fun k hk => (⟨16 * c + k, by have := Finset.mem_range.1 hk; omega⟩ : Fin 64)) (fun k hk => ?_)
    (fun a _ b _ e => ?_) (fun b hb => ?_) fun _ _ => rfl
  · have := Finset.mem_range.1 hk
    simp only [Finset.mem_filter, Finset.mem_univ, true_and]
    omega
  · have := Fin.mk.inj e
    omega
  · have hc : b.val / 16 = c := by simpa using hb
    exact ⟨b.val % 16, Finset.mem_range.2 (Nat.mod_lt _ (by decide)), Fin.ext (by simp only; omega)⟩

/-- A byte of a little-endian number. -/
theorem leNat_byte (bs : List Byte) {p : Nat} (hp : p < bs.length) : leNat bs / 2 ^ (8 * p) % 2 ^ 8 = bs[p].toNat := by
  induction bs generalizing p with
  | nil => simp at hp
  | cons b bs ih =>
    have hb := b.isLt
    cases p with
    | zero => simp only [leNat, List.getElem_cons_zero]; omega
    | succ p =>
      have hdiv : (b.toNat + 256 * leNat bs) / 256 = leNat bs := by omega
      rw [leNat, Nat.mul_succ, Nat.add_comm (8 * p), Nat.pow_add, ← Nat.div_div_eq_div_mul, hdiv, ih (by simpa using hp)]
      rfl

theorem unpackBits_bytes (bs : List Byte) : unpackBits 8 bs.length bs = bs.map (·.toNat) := by
  refine List.ext_getElem (by simp [unpackBits]) fun p _ hp => ?_
  simp only [unpackBits, List.getElem_map, List.getElem_range]
  exact leNat_byte bs (by simpa using hp)

/-- An INT8 operand stands for its two's complement value. -/
theorem toInt_matVal_int8 (flush : Bool) (b : Byte) : (matVal flush 10 b.toNat).toInt = b.toInt := by
  have hb := b.isLt
  have hread : matVal flush 10 b.toNat = decodeVal 10 b.toNat := by
    simp only [matVal, readVal, flushable]
    cases decodeVal 10 b.toNat <;> simp
  have hval : decodeVal 10 b.toNat = .fin (if b.msb then .ofInt (b.toNat - 2 ^ 8) else .ofNat b.toNat) := by
    simp only [BitVec.msb_eq_getLsbD_last, BitVec.getLsbD]
    simp [decodeVal, isIntType, isSignedType, typeBits, Nat.mod_eq_of_lt hb]
    split <;> rfl
  rw [hread, hval, BitVec.toInt_eq_msb_cond]
  split <;> simp [FVal.toInt]

/-- Decoded plain INT8 operands, as integers. -/
theorem toInt_decodeA (hsel : muSel o.regs = 0) (ht : o.typeA = 10) {p : Nat} (hp : p < o.bufA.length) :
    ((o.decodeA.1[p]?).getD zeroVal).toInt = (o.bufA[p]).toInt := by
  simp only [MuOp.decodeA, hsel, ht, typeBits, Nat.mul_div_cancel _ (show 0 < 8 by decide), unpackBits_bytes]
  simp [hp, toInt_matVal_int8]

theorem toInt_decodeB (hsel : muSel o.regs = 0) (ht : o.typeB = 10) {p : Nat} (hp : p < o.bufB.length) :
    ((o.decodeB.1[p]?).getD zeroVal).toInt = (o.bufB[p]).toInt := by
  simp only [MuOp.decodeB, hsel, ht, typeBits, Nat.mul_div_cancel _ (show 0 < 8 by decide), unpackBits_bytes]
  simp [hp, toInt_matVal_int8]

/-- The pair of operands of product k of element (i, j). -/
def factors (o : MuOp) (i j k : Nat) : FVal × FVal :=
  ((o.decodeA.1[if muTra o.regs then k * 64 + i else i * 64 + k]?).getD zeroVal,
    (o.decodeB.1[if muTrb o.regs then j * 64 + k else k * 64 + j]?).getD zeroVal)

theorem mmaStep_el (b : Bank) {p : Nat} (hp : p < 4096) : (o.mmaStep b).el[p] =
    (accChunks o b.el[p] (groupsOf o.chunk ((List.range 64).map (factors o (p / 64) (p % 64)))) (o.blockScale (p / 64) (p % 64))).1 := by
  simp [MuOp.mmaStep]
  rfl

/-- The accumulator after a chunk of sixteen products, saturated to 32 bits. -/
def addChunk (product : Fin 64 → Int) (acc : Int) (c : Nat) : Int :=
  max (-(2 ^ 31)) (min (2 ^ 31 - 1) (acc + ∑ k : Fin 64 with k.val / 16 = c, product k))

/-- Four chunks of integer products go into the accumulator one after another, each exact and then saturated. -/
theorem accChunks_products (hacc : o.acct = 8) (acc : W32) (f : Nat → FVal × FVal) (scale : Nat → FVal × FVal) :
    let add := addChunk fun k => (f k).1.toInt * (f k).2.toInt
    (accChunks o acc (groupsOf 16 ((List.range 64).map f)) scale).1.toInt = add (add (add (add acc.toInt 0) 1) 2) 3 := by
  have hchunk : ∀ (a : W32) {c : Nat}, c < 4 →
      (accInt a (((List.range 16).map fun k => f (16 * c + k)).map fun p => p.1.toInt * p.2.toInt).sum).1.toInt =
        addChunk (fun k => (f k).1.toInt * (f k).2.toInt) a.toInt c := fun a c hc => by
    rw [toInt_accInt, List.map_map, addChunk, ← sum_group (fun k => (f k).1.toInt * (f k).2.toInt) hc]
    rfl
  rw [accChunks_int hacc, groupsOf_range]
  change BitVec.toInt (accInt (accInt (accInt (accInt _ _).1 _).1 _).1 _).1 = _
  rw [hchunk _ (show 3 < 4 by decide), hchunk _ (show 2 < 4 by decide), hchunk _ (show 1 < 4 by decide), hchunk _ (show 0 < 4 by decide)]

/-- A k-step of plain INT8 operands. -/
theorem mmaStep_int8 (b : Bank) (i j : Fin 64) (ha : o.bufA.length = 4096) (hb : o.bufB.length = 4096) (hsel : muSel o.regs = 0)
    (hta : muTra o.regs = false) (htb : muTrb o.regs = false) (hA : o.typeA = 10) (hB : o.typeB = 10) (hacc : o.acct = 8) :
    let add := addChunk fun k => (o.bufA[64 * i.val + k.val]'(by omega)).toInt * (o.bufB[64 * k.val + j.val]'(by omega)).toInt
    ((o.mmaStep b).el[64 * i.val + j.val]'(by omega)).toInt =
      add (add (add (add (b.el[64 * i.val + j.val]'(by omega)).toInt 0) 1) 2) 3 := by
  have hi : (64 * i.val + j.val) / 64 = i.val := by omega
  have hj : (64 * i.val + j.val) % 64 = j.val := by omega
  have hchunk : o.chunk = 16 := by simp [MuOp.chunk, hsel]
  have hprod : (fun k : Fin 64 => (factors o i j k).1.toInt * (factors o i j k).2.toInt) = fun k : Fin 64 =>
      (o.bufA[64 * i.val + k.val]'(by omega)).toInt * (o.bufB[64 * k.val + j.val]'(by omega)).toInt := by
    funext k
    simp only [factors, hta, htb, Bool.false_eq_true, if_false, Nat.mul_comm _ 64]
    rw [toInt_decodeA hsel hA (by omega), toInt_decodeB hsel hB (by omega)]
  rw [mmaStep_el b (by omega), hi, hj, hchunk, accChunks_products hacc, hprod]

end Sys2Proof.MatrixUnit

open Sys2Proof Sys2Proof.Machine Sys2Proof.Laws Sys2Proof.MatrixUnit in
/-- Settles O47: the unit's operation is the head of its queue, and the cases of its begin and of its work are those of `State.beginMu` and
`State.workMu`. -/
theorem matrixEvents : Obligations.MatrixEvents := by
  intro s o rest hbound he ht ho
  have hbegin : exec (.muOperationBegin s.cur.bnd.tile) s = .next s.beginMu := congrArg _ (Launching.onTask_cur hbound _)
  have hwork : exec (.muOperationComplete s.cur.bnd.tile) s = .next s.workMu := congrArg _ (Launching.onTask_cur hbound _)
  dsimp only
  rw [hbegin, hwork]
  refine ⟨fun hb => ⟨fun hk => ⟨_, rfl, ?_⟩, fun hk => ⟨_, rfl, ?_⟩, fun hk => ⟨_, rfl, ?_⟩⟩, fun hb => ?_,
    fun n hb hn => ⟨fun hlt => ?_, fun hle hk => ⟨_, rfl, ?_⟩⟩, fun hb hn hk ha hb' hs => ⟨_, rfl, ?_⟩, ?_⟩
  · rw [beginMu_mswap ho hb he ht hk]
    exact ⟨rfl, rfl, rfl, rfl, rfl⟩
  · rw [beginMu_mclr ho hb he ht hk]
    cases hbank : o.bank <;> exact ⟨rfl, rfl, rfl, rfl⟩
  · rw [beginMu_operands ho hb he ht hk]
    exact ⟨rfl, rfl, rfl, rfl⟩
  · rw [beginMu_begun ho hb]
  · rw [workMu_early ho hb he hn hlt]
  · rw [workMu_done ho hb he hn hle hk]
    exact ⟨congrArg (List.drop 1) ho, rfl⟩
  · rw [workMu_fed ho hb he hn]
    exact feedMu_mma hk ha hb' hs
  · intro b i j ha hb hsel hta htb hA hB hacc
    exact mmaStep_int8 b i j ha hb hsel hta htb hA hB hacc

end

section
/-! SUPPORT. Operations on decoded values: finite operands, infinities and NaN (R144, R145, R148). -/

namespace Sys2Proof.Numbers
open Sys2Proof Sys2Proof.Machine

theorem flagIf_or (a b : Bool) (f : Flags) : flagIf (a || b) f = if a = true ∨ b = true then f else 0#9 := by
  simp [flagIf]

/-! ### A NaN operand -/

theorem addV_nan (mode : Nat) (a : Bool) (v : FVal) : addV mode (.nan a) v = (.nan false, if a = true ∨ v.isSig = true then flIV else 0#9) := by
  rw [← flagIf_or]; cases v <;> rfl

theorem mulV_nan (a : Bool) (v : FVal) : mulV (.nan a) v = (.nan false, if a = true ∨ v.isSig = true then flIV else 0#9) := by
  rw [← flagIf_or]; cases v <;> rfl

theorem divV_nan (a : Bool) (v : FVal) : divV v (.nan a) = (.nan false, if a = true ∨ v.isSig = true then flIV else 0#9) := by
  rw [← flagIf_or, Bool.or_comm]; cases v <;> rfl

/-! ### Infinities -/

theorem addV_inf (mode : Nat) (a b : Bool) : addV mode (.inf a) (.inf b) = if a = b then (.inf a, 0#9) else (.nan false, flIV) := by
  cases a <;> cases b <;> rfl

theorem sqrtV_inf (a : Bool) : sqrtV (.inf a) = if a then (.nan false, flIV) else (.inf false, 0#9) := by cases a <;> rfl

theorem rsqrtV_inf (a : Bool) : rsqrtV (.inf a) = if a then (.nan false, flIV) else (.fin (.zero false), 0#9) := by cases a <;> rfl

section
variable {p q : Q} (hp : p.den ≠ 0) (hq : q.den ≠ 0)
include hp

theorem mulV_inf_fin (h : value p ≠ 0) (b : Bool) :
    mulV (.inf b) (.fin p) = (.inf (b ^^ p.neg), 0#9) ∧ mulV (.fin p) (.inf b) = (.inf (b ^^ p.neg), 0#9) := by
  simp only [mulV, FVal.isZero, isZero_false hp h]
  exact ⟨rfl, rfl⟩

/-- Zero times infinity is invalid, also in a fused sum with a quiet NaN. -/
theorem mulV_inf_zero (h : value p = 0) (b : Bool) (mode : Nat) :
    mulV (.inf b) (.fin p) = (.nan false, flIV) ∧ mulV (.fin p) (.inf b) = (.nan false, flIV) ∧
      fmaV mode (.fin p) (.inf b) (.nan false) = (.nan false, flIV) := by
  have hm : mulV (.fin p) (.inf b) = (.nan false, flIV) := by simp only [mulV, FVal.isZero, (isZero_iff hp).2 h]; rfl
  refine ⟨?_, hm, ?_⟩
  · simp only [mulV, FVal.isZero, (isZero_iff hp).2 h]; rfl
  · rw [fmaV, hm]; rfl

/-! ### Roots of finite values -/

theorem sqrtV_zero (h : value p = 0) : sqrtV (.fin p) = (.fin (.zero p.neg), 0#9) ∧ rsqrtV (.fin p) = (.inf p.neg, flDZ) := by
  simp [sqrtV, rsqrtV, (isZero_iff hp).2 h]

theorem sqrtV_negative (h : value p < 0) : sqrtV (.fin p) = (.nan false, flIV) ∧ rsqrtV (.fin p) = (.nan false, flIV) := by
  simp [sqrtV, rsqrtV, isZero_false hp h.ne, value_neg h, nanWith]

theorem sqrtV_positive (h : 0 < value p) : ∃ r, sqrtV (.fin p) = (.fin r, 0#9) ∧ r.den ≠ 0 ∧ (2 : ℚ) ^ (-201 : ℤ) ≤ value r ∧
    (value r - (2 : ℚ) ^ (-201 : ℤ)) ^ 2 ≤ value p ∧ value p ≤ (value r + (2 : ℚ) ^ (-201 : ℤ)) ^ 2 := by
  obtain ⟨hneg, hval⟩ := value_pos h
  refine ⟨sqrtQ p.num p.den, by simp [sqrtV, isZero_false hp h.ne', hneg], ?_⟩
  rw [hval]
  exact sqrtQ_spec (fun h0 => h.ne' ((value_eq_zero hp).2 h0)) hp

/-! ### Finite operands -/

include hq

theorem addV_finite (mode : Nat) : ∃ r, addV mode (.fin p) (.fin q) = (.fin r, 0#9) ∧ r.den ≠ 0 ∧ value r = value p + value q ∧
    (value p + value q = 0 → r.neg = if value p = 0 ∧ p.neg = q.neg then p.neg else decide (mode = 3)) :=
  ⟨Q.add mode p q, rfl, add_spec mode hp hq⟩

theorem mulV_finite : ∃ r, mulV (.fin p) (.fin q) = (.fin r, 0#9) ∧ r.den ≠ 0 ∧ value r = value p * value q ∧ r.neg = (p.neg ^^ q.neg) :=
  ⟨p.mul q, rfl, den_mul hp hq, value_mul p q, rfl⟩

theorem fmaV_finite (mode : Nat) {z : Q} (hz : z.den ≠ 0) :
    ∃ r, fmaV mode (.fin p) (.fin q) (.fin z) = (.fin r, 0#9) ∧ r.den ≠ 0 ∧ value r = value p * value q + value z := by
  obtain ⟨hd, hv, -⟩ := add_spec mode (den_mul hp hq) hz
  exact ⟨Q.add mode (p.mul q) z, rfl, hd, by rw [hv, value_mul]⟩

theorem divV_finite (h : value q ≠ 0) : ∃ r, divV (.fin p) (.fin q) = (.fin r, 0#9) ∧ r.den ≠ 0 ∧ value r = value p / value q ∧
    r.neg = (p.neg ^^ q.neg) :=
  ⟨quot p q, by simp [divV, isZero_false hq h, quot], Nat.mul_ne_zero hp fun h0 => h ((value_eq_zero hq).2 h0), value_quot p q, rfl⟩

theorem divV_zero (h : value q = 0) :
    divV (.fin p) (.fin q) = if value p = 0 then (.nan false, flIV) else (.inf (p.neg ^^ q.neg), flDZ) := by
  simp only [divV, (isZero_iff hq).2 h, if_true, isZero_iff hp, nanWith]

end

end Sys2Proof.Numbers
end

section
/-! SUPPORT. What the codes of every format stand for (R132 to R135). -/

namespace Sys2Proof.Numbers
open Sys2Proof Sys2Proof.Machine

/-! ### Floating formats (R133) -/

/-- Type, exponent width, fraction width and bias of the floating formats. -/
abbrev formats : List (Nat × Nat × Nat × Nat) := [(0, 8, 23, 127), (1, 8, 7, 127), (2, 5, 10, 15), (3, 4, 3, 7), (4, 5, 2, 15), (5, 2, 1, 1)]

/-- The formats with infinities. -/
abbrev infs (t : Nat) : Prop := t = 0 ∨ t = 1 ∨ t = 2 ∨ t = 4

/-- The largest finite value. -/
abbrev biggest (t : Nat) : ℚ := if t = 0 then (2 - (2 : ℚ) ^ (-23 : ℤ)) * (2 : ℚ) ^ (127 : ℤ)
  else if t = 1 then (2 - (2 : ℚ) ^ (-7 : ℤ)) * (2 : ℚ) ^ (127 : ℤ) else if t = 2 then 65504
  else if t = 3 then 448 else if t = 4 then 57344 else 6

variable {t eb mb bias : Nat}

/-- What the model's tables say of a floating format. -/
theorem format_facts (hf : (t, eb, mb, bias) ∈ formats) :
    floatShape t = (eb, mb, bias) ∧ (t == 6) = false ∧ isIntType t = false ∧ hasInf t = decide (infs t) ∧ typeBits t = eb + mb + 1 ∧
      flushable t = decide (t ≠ 5) ∧ 1 ≤ mb ∧ 1 ≤ bias ∧ 2 ≤ eb ∧ eb + mb < 32 := by
  simp only [formats, List.mem_cons, Prod.mk.injEq, List.not_mem_nil, or_false] at hf
  rcases hf with h | h | h | h | h | h <;> obtain ⟨rfl, rfl, rfl, rfl⟩ := h <;> decide

theorem value_scale2 (s : Bool) (m : Nat) (e : Int) :
    (Q.scale2 s m e).den ≠ 0 ∧ (Q.scale2 s m e).neg = s ∧ value (Q.scale2 s m e) = sgn s * (m * (2 : ℚ) ^ e) := by
  unfold Q.scale2
  split
  · next h =>
    obtain ⟨n, rfl⟩ := Int.eq_ofNat_of_zero_le h
    exact ⟨Nat.one_ne_zero, rfl, by simp [value_eq, mag, Nat.shiftLeft_eq]⟩
  · next h =>
    obtain ⟨n, hn⟩ := Int.eq_ofNat_of_zero_le (show 0 ≤ -e by omega)
    obtain rfl : e = -(n : ℤ) := by omega
    refine ⟨by simp [Nat.shiftLeft_eq], rfl, ?_⟩
    simp [value_eq, mag, Nat.shiftLeft_eq, div_eq_mul_inv]

/-- The fields of a code. -/
theorem code_fields {s E M : Nat} (hs : s < 2) (hE : E < 2 ^ eb) (hM : M < 2 ^ mb) :
    let c := s * 2 ^ (eb + mb) + E * 2 ^ mb + M
    c.testBit (eb + mb) = (s == 1) ∧ (c >>> mb) % 2 ^ eb = E ∧ c % 2 ^ mb = M := by
  have hP : 0 < 2 ^ mb := Nat.two_pow_pos mb
  have hc : s * 2 ^ (eb + mb) + E * 2 ^ mb + M = M + 2 ^ mb * (E + 2 ^ eb * s) := by rw [Nat.pow_add]; ring
  have hshift : (M + 2 ^ mb * (E + 2 ^ eb * s)) / 2 ^ mb = E + 2 ^ eb * s := by
    rw [Nat.add_mul_div_left _ _ hP, Nat.div_eq_of_lt hM, Nat.zero_add]
  dsimp only
  rw [hc, Nat.shiftRight_eq_div_pow, hshift, Nat.add_mul_mod_self_left, Nat.mod_eq_of_lt hE, Nat.add_mul_mod_self_left, Nat.mod_eq_of_lt hM]
  refine ⟨?_, rfl, rfl⟩
  rw [Nat.testBit_eq_decide_div_mod_eq, Nat.add_comm eb, Nat.pow_add, ← Nat.div_div_eq_div_mul, hshift,
    Nat.add_mul_div_left _ _ (Nat.two_pow_pos eb), Nat.div_eq_of_lt hE, Nat.zero_add, Nat.mod_eq_of_lt hs]
  rfl

/-- A code of a floating format, by its fields. -/
theorem decodeVal_fields (hf : (t, eb, mb, bias) ∈ formats) {s E M : Nat} (hs : s < 2) (hE : E < 2 ^ eb) (hM : M < 2 ^ mb) :
    decodeVal t (s * 2 ^ (eb + mb) + E * 2 ^ mb + M) =
      if infs t ∧ E = 2 ^ eb - 1 then (if M = 0 then .inf (s == 1) else .nan (decide (M < 2 ^ (mb - 1))))
      else if t = 3 ∧ E = 15 ∧ M = 7 then .nan false
      else if E = 0 then .fin (.scale2 (s == 1) M (1 - (bias : Int) - mb))
      else .fin (.scale2 (s == 1) (2 ^ mb + M) ((E : Int) - bias - mb)) := by
  obtain ⟨hshape, h6, hint, hinf, -⟩ := format_facts hf
  obtain ⟨hsign, hexp, hfrac⟩ := code_fields hs hE hM
  simp only [decodeVal, h6, hint, decodeFloat, hshape, hsign, hexp, hfrac, hinf, Bool.and_eq_true, decide_eq_true_eq, beq_iff_eq,
    Bool.false_eq_true, if_false, and_assoc]

/-- The magnitude of the code with exponent field E and fraction M. -/
def fieldsMag (mb bias E M : Nat) : ℚ :=
  if E = 0 then (2 : ℚ) ^ (1 - (bias : ℤ)) * (M / 2 ^ mb) else (2 : ℚ) ^ ((E : ℤ) - bias) * (1 + M / 2 ^ mb)

theorem fieldsMag_nonneg (E M : Nat) : 0 ≤ fieldsMag mb bias E M := by unfold fieldsMag; split <;> positivity

/-- A finite code of a floating format. -/
theorem decodeVal_finite (hf : (t, eb, mb, bias) ∈ formats) {s E M : Nat} (hs : s < 2) (hE : E < 2 ^ eb) (hM : M < 2 ^ mb)
    (hinf : ¬ (infs t ∧ E = 2 ^ eb - 1)) (hnan : ¬ (t = 3 ∧ E = 15 ∧ M = 7)) :
    ∃ q, decodeVal t (s * 2 ^ (eb + mb) + E * 2 ^ mb + M) = .fin q ∧ q.den ≠ 0 ∧ q.neg = (s == 1) ∧
      value q = (if s = 1 then -1 else 1) * fieldsMag mb bias E M := by
  have hsgn : sgn (s == 1) = if s = 1 then -1 else 1 := by simp [sgn]
  rw [decodeVal_fields hf hs hE hM, if_neg hinf, if_neg hnan, fieldsMag, ← hsgn]
  split
  · obtain ⟨hd, hn, hv⟩ := value_scale2 (s == 1) M (1 - (bias : Int) - mb)
    refine ⟨_, rfl, hd, hn, ?_⟩
    rw [hv, zpow_sub₀ two_ne_zero, zpow_natCast]; ring
  · obtain ⟨hd, hn, hv⟩ := value_scale2 (s == 1) (2 ^ mb + M) ((E : Int) - bias - mb)
    refine ⟨_, rfl, hd, hn, ?_⟩
    rw [hv, zpow_sub₀ two_ne_zero _ (mb : ℤ), zpow_natCast]
    have : (2 : ℚ) ^ mb ≠ 0 := by positivity
    push_cast
    field_simp

/-! ### Integer formats (R134) -/

/-- The signed integer formats and their widths, then the unsigned ones. -/
abbrev signedFormats : List (Nat × Nat) := [(8, 32), (9, 16), (10, 8), (11, 4)]
abbrev unsignedFormats : List (Nat × Nat) := [(12, 8), (13, 4)]

theorem decodeVal_signed {w : Nat} (hf : (t, w) ∈ signedFormats) {c : Nat} (hc : c < 2 ^ w) :
    decodeVal t c = .fin (if c < 2 ^ (w - 1) then .ofNat c else .ofInt ((c : Int) - 2 ^ w)) := by
  have hfacts : (t == 6) = false ∧ isIntType t = true ∧ isSignedType t = true ∧ typeBits t = w ∧ 0 < w := by
    simp only [signedFormats, List.mem_cons, Prod.mk.injEq, List.not_mem_nil, or_false] at hf
    rcases hf with h | h | h | h <;> obtain ⟨rfl, rfl⟩ := h <;> decide
  obtain ⟨h6, hint, hsigned, hw, hpos⟩ := hfacts
  have hbit : c.testBit (w - 1) = decide (¬ c < 2 ^ (w - 1)) := by
    obtain ⟨n, rfl⟩ := Nat.exists_eq_succ_of_ne_zero hpos.ne'
    simp only [Nat.succ_eq_add_one, Nat.add_sub_cancel, Nat.testBit_eq_decide_div_mod_eq]
    have : c / 2 ^ n < 2 := Nat.div_lt_of_lt_mul (by rwa [Nat.succ_eq_add_one, Nat.pow_succ] at hc)
    rw [Nat.mod_eq_of_lt this, decide_eq_decide, Nat.not_lt]
    constructor
    · intro h1; exact (Nat.one_le_div_iff (Nat.two_pow_pos n)).1 h1.ge
    · intro h1; have := (Nat.one_le_div_iff (Nat.two_pow_pos n)).2 h1; omega
  simp only [decodeVal, h6, hint, hsigned, hw, Nat.mod_eq_of_lt hc, hbit]
  by_cases h : c < 2 ^ (w - 1) <;> simp [h]

theorem decodeVal_unsigned {w : Nat} (hf : (t, w) ∈ unsignedFormats) {c : Nat} (hc : c < 2 ^ w) : decodeVal t c = .fin (.ofNat c) := by
  have hfacts : (t == 6) = false ∧ isIntType t = true ∧ isSignedType t = false ∧ typeBits t = w := by
    simp only [unsignedFormats, List.mem_cons, Prod.mk.injEq, List.not_mem_nil, or_false] at hf
    rcases hf with h | h <;> obtain ⟨rfl, rfl⟩ := h <;> decide
  obtain ⟨h6, hint, hsigned, hw⟩ := hfacts
  simp [decodeVal, h6, hint, hsigned, hw, Nat.mod_eq_of_lt hc]

/-- A signed code stands for its two's complement value. -/
theorem decodeVal_signed_value {w : Nat} (hf : (t, w) ∈ signedFormats) {c : Nat} (hc : c < 2 ^ w) :
    ∃ q, decodeVal t c = .fin q ∧ q.den ≠ 0 ∧ value q = if c < 2 ^ (w - 1) then (c : ℚ) else c - 2 ^ w := by
  refine ⟨_, decodeVal_signed hf hc, ?_, ?_⟩
  · split <;> exact Nat.one_ne_zero
  · split
    · exact value_ofNat c
    · rw [value_ofInt]; push_cast; rfl

/-! ### DM8 (R135) -/

/-- The power of ten of the band of DM8 fields whose highest bit is n. -/
abbrev dm8Exp (n : Nat) : ℤ := ([3, -3, 2, -2, 1, -1, 0][n]?).getD 0

theorem log2_lt_seven {m : Nat} (hm : m < 128) : Nat.log2 m < 7 := by
  rcases Nat.eq_zero_or_pos m with rfl | h
  · decide
  · exact (Nat.log2_lt h.ne').2 hm

/-- The magnitude of DM8 field m. -/
theorem mag_dm8Mag {m : Nat} (hm : m < 128) (h0 : 0 < m) :
    (dm8Mag m).neg = false ∧ (dm8Mag m).den ≠ 0 ∧
      mag (dm8Mag m) = (1 + 9 * (m - 2 ^ Nat.log2 m) / 2 ^ Nat.log2 m) * (10 : ℚ) ^ dm8Exp (Nat.log2 m) := by
  obtain ⟨f, hf⟩ := Nat.exists_eq_add_of_le (Nat.log2_self_le h0.ne')
  have hn := log2_lt_seven hm
  have hP : 2 ^ Nat.log2 m ≠ 0 := (Nat.two_pow_pos _).ne'
  have hfrac : (m : ℚ) - 2 ^ Nat.log2 m = f := by rw [sub_eq_iff_eq_add']; exact_mod_cast hf
  have hbase : 2 ^ Nat.log2 m + 9 * (m - 2 ^ Nat.log2 m) = 2 ^ Nat.log2 m + 9 * f := by omega
  have hcast : (2 : ℚ) ^ Nat.log2 m = (2 ^ Nat.log2 m : Nat) := by norm_cast
  rw [dm8Mag, mag, hfrac, hcast, hbase]
  generalize 2 ^ Nat.log2 m = P at *
  generalize Nat.log2 m = n at *
  have hPq : (P : ℚ) ≠ 0 := Nat.cast_ne_zero.2 hP
  interval_cases n <;> refine ⟨rfl, by simpa using hP, ?_⟩ <;> simp [dm8Exp] <;> field_simp <;> norm_num

/-- A DM8 code other than zero and NaN. -/
theorem decodeVal_dm8 {m : Nat} (hm : m < 128) (h0 : 0 < m) {s : Nat} (hs : s < 2) :
    decodeVal 6 (128 * s + m) = .fin { dm8Mag m with neg := s == 1 } := by
  have hbit : (128 * s + m).testBit 7 = (s == 1) := by
    rw [Nat.testBit_eq_decide_div_mod_eq, Nat.mul_add_div (by decide), Nat.div_eq_of_lt hm, Nat.add_zero, Nat.mod_eq_of_lt hs]
    rfl
  have hmod : (128 * s + m) % 128 = m := by omega
  simp [decodeVal, hmod, hbit, h0.ne']

theorem decodeVal_dm8_value {m : Nat} (hm : m < 128) (h0 : 0 < m) {s : Nat} (hs : s < 2) :
    ∃ q, decodeVal 6 (128 * s + m) = .fin q ∧ q.den ≠ 0 ∧
      value q = (if s = 1 then -1 else 1) * (1 + 9 * (m - 2 ^ Nat.log2 m) / 2 ^ Nat.log2 m) * (10 : ℚ) ^ dm8Exp (Nat.log2 m) := by
  obtain ⟨-, hd, hv⟩ := mag_dm8Mag hm h0
  have hsgn : sgn (s == 1) = if s = 1 then -1 else 1 := by simp [sgn]
  refine ⟨_, decodeVal_dm8 hm h0 hs, hd, ?_⟩
  rw [mul_assoc, ← hv, ← hsgn]
  exact value_eq _

end Sys2Proof.Numbers
end

section
/-! SUPPORT. Rounding to an integer in each of the five modes, and the binary exponent of a ratio (R140). -/

namespace Sys2Proof.Numbers
open Sys2Proof Sys2Proof.Machine

/-- A value of the given sign and magnitude x, rounded to an integer in a mode (R140). -/
def roundTo (mode : Nat) (neg : Bool) (x : ℚ) : Nat :=
  let n := ⌊x⌋₊
  if x = n then n
  else if mode = 0 then (if x - n < 1 / 2 then n else if 1 / 2 < x - n then n + 1 else if n % 2 = 0 then n else n + 1)
  else if mode = 4 then (if x - n < 1 / 2 then n else n + 1)
  else if mode = 2 then (if neg then n else n + 1)
  else if mode = 3 then (if neg then n + 1 else n)
  else n

variable {mode : Nat} {neg : Bool} {x : ℚ}

theorem floor_le_roundTo : ⌊x⌋₊ ≤ roundTo mode neg x ∧ roundTo mode neg x ≤ ⌊x⌋₊ + 1 := by
  simp only [roundTo]; split_ifs <;> omega

theorem roundTo_of_eq {n : Nat} (h : x = n) : roundTo mode neg x = n := by simp [roundTo, h]

theorem le_roundTo {n : Nat} (h : (n : ℚ) ≤ x) : n ≤ roundTo mode neg x := (Nat.le_floor h).trans floor_le_roundTo.1

theorem roundTo_le (h0 : 0 ≤ x) {n : Nat} (h : x ≤ n) : roundTo mode neg x ≤ n := by
  rcases h.eq_or_lt with h | h
  · exact (roundTo_of_eq h).le
  · exact floor_le_roundTo.2.trans ((Nat.floor_lt h0).2 h)

/-- The result is exact where the value is an integer. -/
theorem roundTo_exact : (roundTo mode neg x : ℚ) = x ↔ x = ⌊x⌋₊ := by
  refine ⟨fun h => ?_, fun h => by rw [roundTo_of_eq h]; exact h.symm⟩
  rw [← h, Nat.floor_natCast]

/-- The model's rounding of a ratio. -/
theorem roundNat_eq {num den : Nat} (hd : den ≠ 0) (hm : mode ≤ 4) :
    roundNat mode neg num den = (roundTo mode neg (num / den), decide ((num / den : ℚ) ≠ ⌊(num / den : ℚ)⌋₊)) := by
  have hD : (0 : ℚ) < den := Nat.cast_pos.2 (Nat.pos_of_ne_zero hd)
  have hfrac : (num / den : ℚ) = (num / den : Nat) + ((num % den : Nat) : ℚ) / den := by
    rw [← Nat.div_add_mod num den]
    have := Nat.mod_lt num (Nat.pos_of_ne_zero hd)
    rw [Nat.mul_add_div (Nat.pos_of_ne_zero hd), Nat.mul_add_mod, Nat.mod_mod, Nat.div_eq_of_lt this]
    push_cast; field_simp; ring
  have hfloor : ⌊(num / den : ℚ)⌋₊ = num / den := Nat.floor_div_eq_div num den
  simp only [roundNat, roundTo, hfloor]
  rw [hfrac]
  generalize num / den = n
  generalize num % den = r
  have hint : (n : ℚ) + r / den = n ↔ r = 0 := by simp [hd]
  have hlow : (n : ℚ) + r / den - n < 1 / 2 ↔ 2 * r < den := by
    rw [add_sub_cancel_left, div_lt_div_iff₀ hD two_pos, one_mul, mul_comm]; exact_mod_cast Iff.rfl
  have hhigh : 1 / 2 < (n : ℚ) + r / den - n ↔ den < 2 * r := by
    rw [add_sub_cancel_left, div_lt_div_iff₀ two_pos hD, one_mul, mul_comm]; exact_mod_cast Iff.rfl
  simp only [hint, hlow, hhigh, ne_eq]
  refine Prod.ext ?_ (by simp [Nat.pos_iff_ne_zero])
  by_cases hr : r = 0
  · have h0 : ¬ den = 2 * 0 := fun h => hd h
    interval_cases mode <;> simp [hr, hd, Ne.symm hd]
  have hr' : 0 < r := Nat.pos_of_ne_zero hr
  interval_cases mode
  · rcases lt_trichotomy (2 * r) den with h | h | h
    · simp [hr, h, h.ne, h.not_gt]
    · rcases Nat.mod_two_eq_zero_or_one n with hn | hn <;> simp [hr, h, hn]
    · simp [hr, h, h.not_gt]
  · simp [hr]
  · cases neg <;> simp [hr, hr']
  · cases neg <;> simp [hr, hr']
  · rcases lt_or_ge (2 * r) den with h | h
    · simp [hr, h, h.not_ge]
    · simp [hr, h, h.not_gt]

/-! ### Powers of two -/

theorem mag_lt_zpow {num den : Nat} (hd : den ≠ 0) {e : ℤ} :
    (num / den : ℚ) < 2 ^ e ↔ if 0 ≤ e then num < den <<< e.toNat else num <<< (-e).toNat < den := by
  have hD : (0 : ℚ) < den := Nat.cast_pos.2 (Nat.pos_of_ne_zero hd)
  rw [div_lt_iff₀ hD]
  split
  · next h =>
    obtain ⟨n, rfl⟩ := Int.eq_ofNat_of_zero_le h
    rw [zpow_natCast, Int.toNat_natCast, Nat.shiftLeft_eq, mul_comm]
    exact_mod_cast Iff.rfl
  · next h =>
    obtain ⟨n, hn⟩ := Int.eq_ofNat_of_zero_le (show 0 ≤ -e by omega)
    rw [hn, Int.toNat_natCast, Nat.shiftLeft_eq, show e = -(n : ℤ) by omega, zpow_neg, zpow_natCast, inv_mul_eq_div, lt_div_iff₀ (by positivity)]
    exact_mod_cast Iff.rfl

theorem zpow_two_pos (e : ℤ) : (0 : ℚ) < 2 ^ e := zpow_pos two_pos e

theorem zpow_two_lt {a b : ℤ} : (2 : ℚ) ^ a < 2 ^ b ↔ a < b := zpow_lt_zpow_iff_right₀ one_lt_two

/-- The logarithm of the model brackets its ratio. -/
theorem log2Ratio_spec {num den : Nat} (hn : num ≠ 0) (hd : den ≠ 0) :
    (2 : ℚ) ^ log2Ratio num den ≤ num / den ∧ (num / den : ℚ) < 2 ^ (log2Ratio num den + 1) := by
  have hD : (0 : ℚ) < den := Nat.cast_pos.2 (Nat.pos_of_ne_zero hd)
  have hval : log2Ratio num den = if (num / den : ℚ) < 2 ^ ((Nat.log2 num : ℤ) - Nat.log2 den) then (Nat.log2 num : ℤ) - Nat.log2 den - 1
      else (Nat.log2 num : ℤ) - Nat.log2 den := by
    simp only [log2Ratio, mag_lt_zpow hd]
    split_ifs <;> rfl
  have hn1 : (2 : ℚ) ^ (Nat.log2 num : ℤ) ≤ num := by rw [zpow_natCast]; exact_mod_cast Nat.log2_self_le hn
  have hn2 : (num : ℚ) < 2 ^ ((Nat.log2 num : ℤ) + 1) := by exact_mod_cast Nat.lt_log2_self
  have hd1 : (2 : ℚ) ^ (Nat.log2 den : ℤ) ≤ den := by rw [zpow_natCast]; exact_mod_cast Nat.log2_self_le hd
  have hd2 : (den : ℚ) < 2 ^ ((Nat.log2 den : ℤ) + 1) := by exact_mod_cast Nat.lt_log2_self
  generalize (Nat.log2 num : ℤ) = a at *
  generalize (Nat.log2 den : ℤ) = b at *
  have hlow : (2 : ℚ) ^ (a - b - 1) ≤ num / den := by
    rw [le_div_iff₀ hD]
    calc (2 : ℚ) ^ (a - b - 1) * den ≤ 2 ^ (a - b - 1) * 2 ^ (b + 1) := mul_le_mul_of_nonneg_left hd2.le (zpow_two_pos _).le
      _ = 2 ^ a := by rw [← zpow_add₀ two_ne_zero]; congr 1; ring
      _ ≤ num := hn1
  have hhigh : (num / den : ℚ) < 2 ^ (a - b + 1) := by
    rw [div_lt_iff₀ hD]
    calc (num : ℚ) < 2 ^ (a + 1) := hn2
      _ = 2 ^ (a - b + 1) * 2 ^ b := by rw [← zpow_add₀ two_ne_zero]; congr 1; ring
      _ ≤ 2 ^ (a - b + 1) * den := mul_le_mul_of_nonneg_left hd1 (zpow_two_pos _).le
  rw [hval]
  split
  · next h => exact ⟨hlow, by rwa [sub_add_cancel]⟩
  · next h => exact ⟨not_lt.1 h, hhigh⟩

/-- The exponent of the grid of R140: the one of the statement's bracket. -/
theorem gridExp_eq {num den : Nat} (hn : num ≠ 0) (hd : den ≠ 0) {emin e : ℤ} (hmin : emin ≤ e) (hhi : (num / den : ℚ) < 2 ^ (e + 1))
    (hlo : (2 : ℚ) ^ e ≤ num / den ∨ e = emin) : max (log2Ratio num den) emin = e := by
  obtain ⟨h1, h2⟩ := log2Ratio_spec hn hd
  have hle : log2Ratio num den < e + 1 := zpow_two_lt.1 (h1.trans_lt hhi)
  rcases hlo with hlo | rfl
  · have := zpow_two_lt.1 (hlo.trans_lt h2); omega
  · omega

/-- A ratio scaled by a power of two, as the model scales it. -/
theorem scaled_ratio (num : Nat) {den : Nat} (hd : den ≠ 0) (sh : ℤ) :
    if 0 ≤ sh then ((num <<< sh.toNat : Nat) / den : ℚ) = num / den / 2 ^ (-sh)
    else (num / (den <<< (-sh).toNat : Nat) : ℚ) = num / den / 2 ^ (-sh) := by
  have hD : (den : ℚ) ≠ 0 := Nat.cast_ne_zero.2 hd
  split
  · next h =>
    obtain ⟨n, rfl⟩ := Int.eq_ofNat_of_zero_le h
    rw [Int.toNat_natCast, Nat.shiftLeft_eq, zpow_neg, zpow_natCast]
    push_cast; field_simp
  · next h =>
    obtain ⟨n, hn⟩ := Int.eq_ofNat_of_zero_le (show 0 ≤ -sh by omega)
    rw [hn, Int.toNat_natCast, Nat.shiftLeft_eq, zpow_natCast]
    push_cast; field_simp

end Sys2Proof.Numbers
end

section
/-! SUPPORT. The grid of a floating format: the magnitudes of its codes in order, and the code that a value is rounded to (R140). -/

namespace Sys2Proof.Numbers
open Sys2Proof Sys2Proof.Machine

variable {t eb mb bias : Nat}

/-- The magnitude at place c of the grid, which goes on above the largest exponent. -/
def gridMag (mb bias c : Nat) : ℚ := fieldsMag mb bias (c / 2 ^ mb) (c % 2 ^ mb)

/-- Place i · 2^mb + k stands for k steps of the exponent i above the smallest. -/
theorem gridMag_steps {i k : Nat} (hk : k ≤ 2 ^ (mb + 1)) (h : i = 0 ∨ 2 ^ mb ≤ k) :
    gridMag mb bias (i * 2 ^ mb + k) = k * (2 : ℚ) ^ (1 - (bias : ℤ) + i - mb) := by
  have hP : 0 < 2 ^ mb := Nat.two_pow_pos mb
  have hPq : (2 : ℚ) ^ mb ≠ 0 := by positivity
  have hpow : (2 : ℚ) ^ (1 - (bias : ℤ) + i - mb) = 2 ^ (1 + (i : ℤ) - bias) / 2 ^ mb := by
    rw [zpow_sub₀ two_ne_zero, zpow_natCast]; congr 2; ring
  rw [Nat.pow_succ] at hk
  rw [hpow, gridMag, Nat.mul_comm i]
  rcases Nat.lt_or_ge k (2 ^ mb) with hlt | hge
  · obtain rfl : i = 0 := h.resolve_right (Nat.not_le.2 hlt)
    rw [Nat.mul_zero, Nat.zero_add, Nat.div_eq_of_lt hlt, Nat.mod_eq_of_lt hlt]
    simp [fieldsMag, mul_left_comm, div_eq_mul_inv]
  · obtain ⟨M, rfl⟩ := Nat.exists_eq_add_of_le hge
    rcases Nat.lt_or_ge M (2 ^ mb) with hM | hM
    · rw [← Nat.add_assoc, ← Nat.mul_succ, Nat.mul_add_div hP, Nat.mul_add_mod, Nat.div_eq_of_lt hM, Nat.mod_eq_of_lt hM]
      rw [fieldsMag, if_neg (by omega)]
      push_cast
      rw [show (i : ℤ) + 1 + 0 - bias = 1 + i - bias by ring]
      field_simp
    · obtain rfl : M = 2 ^ mb := by omega
      rw [← Nat.add_assoc, ← Nat.mul_succ, ← Nat.mul_succ, Nat.mul_div_cancel_left _ hP, Nat.mul_mod_right]
      rw [fieldsMag, if_neg (by omega)]
      push_cast
      rw [show (i : ℤ) + 1 + 1 - bias = 1 + (1 + i - bias) by ring, zpow_add₀ two_ne_zero]
      field_simp
      ring

/-- Every place is so many steps of one exponent, with room for one more. -/
theorem exists_steps (mb c : Nat) : ∃ i k, c = i * 2 ^ mb + k ∧ k < 2 ^ (mb + 1) ∧ (i = 0 ∨ 2 ^ mb ≤ k) := by
  have hM := Nat.mod_lt c (Nat.two_pow_pos mb)
  have hc := Nat.div_add_mod' c (2 ^ mb)
  rw [Nat.pow_succ]
  cases h : c / 2 ^ mb with
  | zero => exact ⟨0, c % 2 ^ mb, by rw [h] at hc; exact hc.symm, by omega, .inl rfl⟩
  | succ i => exact ⟨i, 2 ^ mb + c % 2 ^ mb, by rw [h, Nat.succ_mul] at hc; omega, by omega, .inr (Nat.le_add_right ..)⟩

theorem gridMag_strictMono : StrictMono (gridMag mb bias) := by
  refine strictMono_nat_of_lt_succ fun c => ?_
  obtain ⟨i, k, rfl, hk, h⟩ := exists_steps mb c
  rw [Nat.add_assoc, gridMag_steps hk.le h, gridMag_steps hk (h.imp_right (Nat.le_succ_of_le ·))]
  exact mul_lt_mul_of_pos_right (by exact_mod_cast Nat.lt_succ_self k) (zpow_two_pos _)

/-- The place that a magnitude is rounded to, and whether it is another. -/
theorem roundToGrid_eq (hf : (t, eb, mb, bias) ∈ formats) {q : Q} (hd : q.den ≠ 0) (hn : q.num ≠ 0) {mode : Nat} (hm : mode ≤ 4) {e : ℤ}
    (hmin : 1 - (bias : ℤ) ≤ e) (hhi : mag q < 2 ^ (e + 1)) (hlo : (2 : ℚ) ^ e ≤ mag q ∨ e = 1 - (bias : ℤ)) :
    roundToGrid t mode q = ((e - (1 - (bias : ℤ))).toNat * 2 ^ mb + roundTo mode q.neg (mag q / 2 ^ (e - mb)),
      decide (mag q / 2 ^ (e - mb) ≠ ⌊mag q / (2 : ℚ) ^ (e - mb)⌋₊)) := by
  obtain ⟨hshape, -⟩ := format_facts hf
  have hden : q.den <<< (-((mb : ℤ) - e)).toNat ≠ 0 := by simpa [Nat.shiftLeft_eq] using hd
  have hratio := scaled_ratio q.num hd ((mb : ℤ) - e)
  simp only [roundToGrid, hshape, gridExp_eq hn hd hmin hhi hlo]
  by_cases h : 0 ≤ (mb : ℤ) - e
  · rw [if_pos h] at hratio ⊢
    rw [roundNat_eq hd hm, hratio, neg_sub]; rfl
  · rw [if_neg h] at hratio ⊢
    rw [roundNat_eq hden hm, hratio, neg_sub]; rfl

/-- What the result of the rounding is. -/
theorem gridMag_roundTo {q : Q} {mode : Nat} {e : ℤ} (hmin : 1 - (bias : ℤ) ≤ e) (hhi : mag q < 2 ^ (e + 1))
    (hlo : (2 : ℚ) ^ e ≤ mag q ∨ e = 1 - (bias : ℤ)) :
    gridMag mb bias ((e - (1 - (bias : ℤ))).toNat * 2 ^ mb + roundTo mode q.neg (mag q / 2 ^ (e - mb))) =
      roundTo mode q.neg (mag q / 2 ^ (e - mb)) * (2 : ℚ) ^ (e - mb) := by
  have hstep := zpow_two_pos (e - mb)
  have hnonneg : 0 ≤ mag q / 2 ^ (e - mb) := div_nonneg (mag_nonneg q) hstep.le
  have hle : roundTo mode q.neg (mag q / 2 ^ (e - mb)) ≤ 2 ^ (mb + 1) := by
    refine roundTo_le hnonneg ?_
    rw [div_le_iff₀ hstep]
    refine hhi.le.trans_eq ?_
    push_cast
    rw [← zpow_natCast, ← zpow_add₀ two_ne_zero]
    congr 1; push_cast; ring
  obtain ⟨i, hi⟩ := Int.eq_ofNat_of_zero_le (sub_nonneg.2 hmin)
  have hexp : e - mb = 1 - (bias : ℤ) + i - mb := by omega
  rw [gridMag_steps hle]
  · rw [hi, Int.toNat_natCast, hexp]
  · refine hlo.symm.imp (fun h => by rw [h]; simp) fun h => le_roundTo ?_
    rw [le_div_iff₀ hstep]
    refine le_trans (le_of_eq ?_) h
    push_cast
    rw [← zpow_natCast, ← zpow_add₀ two_ne_zero]
    congr 1; ring

/-! ### Codes with a sign -/

/-- A code no larger than the largest finite one is neither an infinity nor a NaN. -/
theorem finite_fields (hf : (t, eb, mb, bias) ∈ formats) {c : Nat} (hc : c ≤ maxFiniteCode t) :
    c / 2 ^ mb < 2 ^ eb ∧ ¬ (infs t ∧ c / 2 ^ mb = 2 ^ eb - 1) ∧ ¬ (t = 3 ∧ c / 2 ^ mb = 15 ∧ c % 2 ^ mb = 7) := by
  simp only [formats, List.mem_cons, Prod.mk.injEq, List.not_mem_nil, or_false] at hf
  rcases hf with h | h | h | h | h | h <;> obtain ⟨rfl, rfl, rfl, rfl⟩ := h <;> simp only [maxFiniteCode] at hc <;> norm_num [infs] <;> omega

/-- A magnitude code with its sign bit fits its width. -/
theorem signed_toNat (hf : (t, eb, mb, bias) ∈ formats) {c : Nat} (hc : c < 2 ^ (eb + mb)) (neg : Bool) :
    (BitVec.ofNat 32 (signed t neg c)).toNat = neg.toNat * 2 ^ (eb + mb) + c / 2 ^ mb * 2 ^ mb + c % 2 ^ mb := by
  obtain ⟨-, -, -, -, hbits, -, -, -, -, hw⟩ := format_facts hf
  have hcode : signed t neg c = neg.toNat * 2 ^ (eb + mb) + c := by
    cases neg <;> simp [signed, hbits, Nat.add_comm]
  have hfit : 2 ^ (eb + mb + 1) ≤ 2 ^ 32 := Nat.pow_le_pow_right (by decide) hw
  have hlt : neg.toNat * 2 ^ (eb + mb) + c < 2 ^ 32 := by
    rw [Nat.pow_succ] at hfit
    cases neg <;> simp only [Bool.toNat_true, Bool.toNat_false] <;> omega
  rw [hcode, BitVec.toNat_ofNat, Nat.mod_eq_of_lt hlt, Nat.add_assoc, Nat.div_add_mod']

theorem decodeVal_signed_code (hf : (t, eb, mb, bias) ∈ formats) {c : Nat} (hc : c ≤ maxFiniteCode t) (neg : Bool) :
    ∃ r, decodeVal t (BitVec.ofNat 32 (signed t neg c)).toNat = .fin r ∧ r.den ≠ 0 ∧ r.neg = neg ∧
      value r = sgn neg * gridMag mb bias c := by
  obtain ⟨hE, hinf, hnan⟩ := finite_fields hf hc
  have hlt : c < 2 ^ (eb + mb) := by rwa [Nat.pow_add, ← Nat.div_lt_iff_lt_mul (Nat.two_pow_pos mb)]
  rw [signed_toNat hf hlt]
  obtain ⟨r, hr, hd, hs, hv⟩ := decodeVal_finite hf (s := neg.toNat) (Bool.toNat_lt neg) hE (Nat.mod_lt _ (Nat.two_pow_pos mb)) hinf hnan
  refine ⟨r, hr, hd, by cases neg <;> exact hs, by rw [hv]; cases neg <;> rfl⟩

theorem gridMag_maxFinite (hf : (t, eb, mb, bias) ∈ formats) : gridMag mb bias (maxFiniteCode t) = biggest t := by
  simp only [formats, List.mem_cons, Prod.mk.injEq, List.not_mem_nil, or_false] at hf
  rcases hf with h | h | h | h | h | h <;> obtain ⟨rfl, rfl, rfl, rfl⟩ := h <;> norm_num [gridMag, fieldsMag, maxFiniteCode, biggest]

end Sys2Proof.Numbers
end

section
/-! SUPPORT. ConvertTo a floating format (R141 to R143, R146, R147). -/

namespace Sys2Proof.Numbers
open Sys2Proof Sys2Proof.Machine

variable {t eb mb bias : Nat}

/-- The canonical NaN of the formats that have one. -/
abbrev nanCode (t : Nat) : Nat := if t = 0 then 0x7FC00000 else if t = 1 then 0x7FC0 else if t = 2 then 0x7E00 else if t = 3 then 0x7F
  else if t = 4 then 0x7E else 0x80

/-- The modes that round a magnitude up when it overflows. -/
abbrev away (mode : Nat) (neg : Bool) : Prop := mode = 0 ∨ mode = 4 ∨ (mode = 2 ∧ neg = false) ∨ (mode = 3 ∧ neg = true)

/-- A code that the overflow policy gives (R142, R143); type 6 is DM8. -/
abbrev Overflows (cx : NumCtx) (t : Nat) (neg : Bool) (w : W32) : Prop :=
  let pol := if t = 5 then 0 else cx.ovt.toNat / 4 ^ t % 4
  if pol = 2 then w.toNat = nanCode t
  else if pol = 1 ∧ infs t ∧ away cx.mode neg then decodeVal t w.toNat = .inf neg
  else ∃ r, decodeVal t w.toNat = .fin r ∧ r.den ≠ 0 ∧
    value r = if neg then -(if t = 6 then 1000 else biggest t) else if t = 6 then 1000 else biggest t

theorem ovtPolicy_eq (ovt : W64) (t : Nat) : ovtPolicy ovt t = if t = 5 then 0 else ovt.toNat / 4 ^ t % 4 := by
  simp [ovtPolicy, Nat.shiftRight_eq_div_pow, Nat.pow_mul]

theorem awayFromZero_iff (mode : Nat) (neg : Bool) : awayFromZero mode neg = true ↔ away mode neg := by
  simp [awayFromZero, away, or_assoc]

/-- The code of an infinity. -/
theorem decodeVal_infinity (hf : (t, eb, mb, bias) ∈ formats) (hi : infs t) (neg : Bool) :
    decodeVal t (BitVec.ofNat 32 (infinityCode t neg)).toNat = .inf neg := by
  obtain ⟨hshape, -⟩ := format_facts hf
  have hE : 2 ^ eb - 1 < 2 ^ eb := Nat.sub_lt (Nat.two_pow_pos eb) (by decide)
  have hP := Nat.two_pow_pos mb
  have hcode : (BitVec.ofNat 32 (infinityCode t neg)).toNat = neg.toNat * 2 ^ (eb + mb) + (2 ^ eb - 1) * 2 ^ mb + 0 := by
    simp only [infinityCode, hshape, Nat.shiftLeft_eq]
    rw [signed_toNat hf (by rw [Nat.pow_add]; exact Nat.mul_lt_mul_of_pos_right hE hP), Nat.mul_div_cancel _ hP, Nat.mul_mod_left]
  rw [hcode, decodeVal_fields hf (Bool.toNat_lt neg) hE hP, if_pos ⟨hi, rfl⟩, if_pos rfl]
  cases neg <;> rfl

/-- The largest finite magnitude of a format or of DM8. -/
abbrev bound (t : Nat) : ℚ := if t = 6 then 1000 else biggest t

/-- The three answers to an overflow, for a type whose NaN, infinities and largest value the tables give. -/
theorem overflows_of_tables {t : Nat} (cx : NumCtx) (neg : Bool) (hinf : hasInf t = decide (infs t))
    (hnan : t ≠ 5 → (BitVec.ofNat 32 (canonicalNaN t)).toNat = nanCode t)
    (hi : infs t → decodeVal t (BitVec.ofNat 32 (infinityCode t neg)).toNat = .inf neg)
    (hmax : ∃ r, decodeVal t (BitVec.ofNat 32 (signed t neg (maxFiniteCode t))).toNat = .fin r ∧ r.den ≠ 0 ∧ value r = sgn neg * bound t) :
    Overflows cx t neg (BitVec.ofNat 32 (overflowCode cx t neg)) := by
  have hpol : ovtPolicy cx.ovt t = 2 → t ≠ 5 := by rintro h rfl; simp [ovtPolicy_eq] at h
  simp only [Overflows, overflowCode, ← ovtPolicy_eq, hinf]
  generalize ovtPolicy cx.ovt t = pol at *
  by_cases h2 : pol = 2
  · simpa [h2, hpol h2] using hnan (hpol h2)
  · simp only [h2, if_false, beq_eq_false_iff_ne.2 h2, Bool.false_and, Bool.false_eq_true, Bool.and_eq_true, beq_iff_eq, decide_eq_true_eq,
      awayFromZero_iff, and_assoc]
    split
    · next h => exact hi h.2.1
    · obtain ⟨r, hr, hd, hv⟩ := hmax
      refine ⟨r, hr, hd, ?_⟩
      rw [hv]
      cases neg
      · exact one_mul _
      · exact neg_one_mul _

theorem toNat_canonicalNaN (hf : (t, eb, mb, bias) ∈ formats) (h5 : t ≠ 5) : (BitVec.ofNat 32 (canonicalNaN t)).toNat = nanCode t := by
  simp only [formats, List.mem_cons, Prod.mk.injEq, List.not_mem_nil, or_false] at hf
  rcases hf with h | h | h | h | h | h <;> obtain ⟨rfl, rfl, rfl, rfl⟩ := h
  case inr.inr.inr.inr.inr => exact absurd rfl h5
  all_goals rfl

theorem overflows_overflowCode (hf : (t, eb, mb, bias) ∈ formats) (cx : NumCtx) (neg : Bool) :
    Overflows cx t neg (BitVec.ofNat 32 (overflowCode cx t neg)) := by
  obtain ⟨-, h6, -, hinf, -⟩ := format_facts hf
  obtain ⟨r, hr, hd, -, hv⟩ := decodeVal_signed_code hf le_rfl neg
  exact overflows_of_tables cx neg hinf (toNat_canonicalNaN hf) (fun hi => decodeVal_infinity hf hi neg)
    ⟨r, hr, hd, by rw [hv, gridMag_maxFinite hf, bound, if_neg (beq_eq_false_iff_ne.1 h6)]⟩

/-! ### Values below the smallest normal one (R146) -/

theorem belowNormal_iff (hf : (t, eb, mb, bias) ∈ formats) {q : Q} (hd : q.den ≠ 0) :
    belowNormal t q = decide (mag q < 2 ^ (1 - (bias : ℤ))) := by
  obtain ⟨hshape, -, -, -, -, -, -, hbias, -⟩ := format_facts hf
  have hlt := mag_lt_zpow (num := q.num) hd (e := 1 - (bias : ℤ))
  simp only [belowNormal, hshape]
  refine decide_eq_decide.2 (Iff.trans ?_ hlt.symm)
  split
  · next h =>
    obtain rfl : bias = 1 := by omega
    rfl
  · rw [neg_sub, show ((bias : ℤ) - 1).toNat = bias - 1 by omega]

/-! ### The conversion -/

/-- IX where the grid does not hold the value, and UF with it below the smallest normal one. -/
theorem grid_flags (exact low : Prop) [Decidable exact] [Decidable low] :
    flagIf (decide (¬ exact)) flIX ||| flagIf (decide (¬ exact) && decide low) flUF =
      if exact then 0#9 else if low then flUF ||| flIX else flIX := by
  by_cases h : exact <;> by_cases hl : low <;> simp only [h, hl] <;> rfl

section
variable (hf : (t, eb, mb, bias) ∈ formats) (cx : NumCtx)
include hf

theorem convertTo_zero (b : Bool) : convertTo cx t (.fin (.zero b)) = (if b then BitVec.ofNat 32 (2 ^ (typeBits t - 1)) else 0#32, 0#9) := by
  obtain ⟨-, h6, hint, -⟩ := format_facts hf
  simp only [convertTo, hint, h6]
  cases b <;> simp [Q.zero, Q.isZero, signed]

theorem convertTo_nan (b : Bool) :
    convertTo cx t (.nan b) = if t = 5 then (0#32, flIV) else (BitVec.ofNat 32 (nanCode t), if b then flIV else 0#9) := by
  obtain ⟨-, -, hint, -⟩ := format_facts hf
  have hcode : t ≠ 5 → BitVec.ofNat 32 (canonicalNaN t) = BitVec.ofNat 32 (nanCode t) := fun h5 => by
    rw [← toNat_canonicalNaN hf h5, BitVec.ofNat_toNat, BitVec.setWidth_eq]
  simp only [convertTo, hint, Bool.false_or, beq_iff_eq]
  split
  · rfl
  · next h5 => rw [hcode h5]; rfl

theorem convertTo_inf (hi : infs t) (b : Bool) : decodeVal t (convertTo cx t (.inf b)).1.toNat = .inf b ∧ (convertTo cx t (.inf b)).2 = 0#9 := by
  obtain ⟨-, -, hint, hinf, -⟩ := format_facts hf
  simp only [convertTo, hint, hinf, hi]
  exact ⟨decodeVal_infinity hf hi b, rfl⟩

theorem convertTo_no_inf (hi : ¬ infs t) (b : Bool) : Overflows cx t b (convertTo cx t (.inf b)).1 ∧ (convertTo cx t (.inf b)).2 = flOF := by
  obtain ⟨-, -, hint, hinf, -⟩ := format_facts hf
  simp only [convertTo, hint, hinf, hi]
  exact ⟨overflows_overflowCode hf cx b, rfl⟩

variable {q : Q} (hd : q.den ≠ 0) (hn : q.num ≠ 0)
include hd hn

/-- A value that F flushes. -/
theorem convertTo_flushed (hflush : cx.flush = true) (h5 : t ≠ 5) (hlow : mag q < 2 ^ (1 - (bias : ℤ))) :
    convertTo cx t (.fin q) = (BitVec.ofNat 32 (if q.neg then 2 ^ (typeBits t - 1) else 0), flUF ||| flIX) := by
  obtain ⟨-, h6, hint, -, -, hfl, -⟩ := format_facts hf
  simp [convertTo, hint, Q.isZero, hn, hflush, hfl, h5, belowNormal_iff hf hd, hlow, signed]

/-- A value that is not flushed is rounded to the grid. -/
theorem convertTo_grid (hflush : ¬ (cx.flush = true ∧ t ≠ 5 ∧ mag q < 2 ^ (1 - (bias : ℤ)))) :
    convertTo cx t (.fin q) = let (c, ix) := roundToGrid t cx.mode q
      if c > maxFiniteCode t then (BitVec.ofNat 32 (overflowCode cx t q.neg), flOF ||| flIX)
      else (BitVec.ofNat 32 (signed t q.neg c), flagIf ix flIX ||| flagIf (ix && decide (mag q < 2 ^ (1 - (bias : ℤ)))) flUF) := by
  obtain ⟨-, h6, hint, -, -, hfl, -⟩ := format_facts hf
  have hnot : (cx.flush && flushable t && decide (mag q < 2 ^ (1 - (bias : ℤ)))) = false := by
    rw [Bool.eq_false_iff]
    simpa [hfl, and_assoc] using hflush
  have hz : q.isZero = false := by simpa [Q.isZero] using hn
  simp only [convertTo, hint, hz, h6, belowNormal_iff hf hd, hnot, Bool.false_eq_true, if_false]

/-- The result on the grid: the value k steps of 2^(e − mb), or an overflow. -/
theorem convertTo_rounded (hm : cx.mode ≤ 4) (hflush : ¬ (cx.flush = true ∧ t ≠ 5 ∧ mag q < 2 ^ (1 - (bias : ℤ)))) {e : ℤ}
    (hmin : 1 - (bias : ℤ) ≤ e) (hhi : mag q < 2 ^ (e + 1)) (hlo : (2 : ℚ) ^ e ≤ mag q ∨ e = 1 - (bias : ℤ)) :
    let y := roundTo cx.mode q.neg (mag q / 2 ^ (e - mb)) * (2 : ℚ) ^ (e - mb)
    let w := convertTo cx t (.fin q)
    (y ≤ biggest t → (∃ r, decodeVal t w.1.toNat = .fin r ∧ r.den ≠ 0 ∧ r.neg = q.neg ∧ |value r| = y) ∧
      w.2 = if y = mag q then 0#9 else if mag q < 2 ^ (1 - (bias : ℤ)) then flUF ||| flIX else flIX) ∧
    (biggest t < y → Overflows cx t q.neg w.1 ∧ w.2 = flOF ||| flIX) := by
  have hgrid := gridMag_roundTo (mb := mb) (mode := cx.mode) hmin hhi hlo
  have hexact : roundTo cx.mode q.neg (mag q / 2 ^ (e - mb)) * (2 : ℚ) ^ (e - mb) = mag q ↔
      mag q / 2 ^ (e - mb) = ⌊mag q / (2 : ℚ) ^ (e - mb)⌋₊ := by
    rw [← roundTo_exact (mode := cx.mode) (neg := q.neg), eq_div_iff (zpow_two_pos _).ne']
  simp only [convertTo_grid hf cx hd hn hflush, roundToGrid_eq hf hd hn hm hmin hhi hlo, ← hgrid, ← gridMag_maxFinite hf,
    gridMag_strictMono.le_iff_le, gridMag_strictMono.lt_iff_lt] at hexact ⊢
  generalize (e - (1 - (bias : ℤ))).toNat * 2 ^ mb + roundTo cx.mode q.neg (mag q / 2 ^ (e - mb)) = c at *
  refine ⟨fun hc => ?_, fun hc => ?_⟩
  · rw [if_neg (Nat.not_lt.2 hc)]
    obtain ⟨r, hr, hrd, hs, hv⟩ := decodeVal_signed_code hf hc q.neg
    refine ⟨⟨r, hr, hrd, hs, ?_⟩, ?_⟩
    · rw [hv, abs_mul, abs_sgn, one_mul]
      exact abs_of_nonneg (fieldsMag_nonneg _ _)
    · simp only [ne_eq, ← hexact]
      exact grid_flags _ _
  · rw [if_pos hc]
    exact ⟨overflows_overflowCode hf cx q.neg, rfl⟩

end

end Sys2Proof.Numbers
end

section
/-! SUPPORT. ConvertTo an integer format (R134, R141, R147). -/

namespace Sys2Proof.Numbers
open Sys2Proof Sys2Proof.Machine

variable {t : Nat} {lo hi : ℤ}

/-- The integer formats and their ranges. -/
abbrev intFormats : List (Nat × ℤ × ℤ) :=
  [(8, -(2 ^ 31), 2 ^ 31 - 1), (9, -(2 ^ 15), 2 ^ 15 - 1), (10, -128, 127), (11, -8, 7), (12, 0, 255), (13, 0, 15)]

theorem int_facts (hf : (t, lo, hi) ∈ intFormats) : (t == 6) = false ∧ isIntType t = true ∧ intMin t = lo ∧ intMax t = hi ∧ lo ≤ hi := by
  simp only [intFormats, List.mem_cons, Prod.mk.injEq, List.not_mem_nil, or_false] at hf
  rcases hf with h | h | h | h | h | h <;> obtain ⟨rfl, rfl, rfl⟩ := h <;> decide

/-- The two's complement code of an integer, by its sign. -/
theorem intCode_eq {w : Nat} {i : ℤ} (hlo : -(2 ^ w) ≤ i) (hhi : i < 2 ^ w) : (intCode w i : ℤ) = if 0 ≤ i then i else i + 2 ^ w := by
  have hP : (0 : ℤ) < 2 ^ w := by positivity
  rw [intCode, Int.toNat_of_nonneg (Int.emod_nonneg _ hP.ne')]
  split
  · next h => exact Int.emod_eq_of_lt h hhi
  · next h => rw [← Int.add_emod_right, Int.emod_eq_of_lt (by omega) (by omega)]

theorem intCode_lt (w : Nat) (i : ℤ) : intCode w i < 2 ^ w := by
  have hP : (0 : ℤ) < 2 ^ w := by positivity
  rw [intCode, Int.toNat_lt (Int.emod_nonneg _ hP.ne')]
  exact_mod_cast Int.emod_lt_of_pos i hP

theorem toNat_intCode {w : Nat} (hw : w ≤ 32) (i : ℤ) : (BitVec.ofNat 32 (intCode w i)).toNat = intCode w i :=
  Nat.mod_eq_of_lt ((intCode_lt w i).trans_le (Nat.pow_le_pow_right (by decide) hw))

/-- A code of a signed format stands for the integer it is made from. -/
theorem decodeVal_intCode_signed {w : Nat} (hf : (t, w) ∈ signedFormats) {i : ℤ} (hlo : -(2 ^ (w - 1)) ≤ i) (hhi : i < 2 ^ (w - 1)) :
    ∃ r, decodeVal t (intCode w i) = .fin r ∧ r.den ≠ 0 ∧ value r = i := by
  have hw : 0 < w := by
    simp only [signedFormats, List.mem_cons, Prod.mk.injEq, List.not_mem_nil, or_false] at hf; omega
  obtain ⟨n, rfl⟩ := Nat.exists_eq_succ_of_ne_zero hw.ne'
  obtain ⟨r, hr, hd, hv⟩ := decodeVal_signed_value hf (intCode_lt (n + 1) i)
  refine ⟨r, hr, hd, hv.trans ?_⟩
  simp only [Nat.succ_eq_add_one, Nat.add_sub_cancel] at *
  have hP : (0 : ℤ) < 2 ^ n := by positivity
  have hc := intCode_eq (w := n + 1) (i := i) (by rw [pow_succ]; omega) (by rw [pow_succ]; omega)
  have hlt : intCode (n + 1) i < 2 ^ n ↔ 0 ≤ i := by
    rw [← Int.ofNat_lt, hc, pow_succ]
    push_cast
    split <;> omega
  simp only [hlt]
  have hq : ((intCode (n + 1) i : ℤ) : ℚ) = _ := congrArg _ hc
  rw [Int.cast_natCast] at hq
  rw [hq]
  split
  · rfl
  · push_cast; ring

theorem decodeVal_intCode_unsigned {w : Nat} (hf : (t, w) ∈ unsignedFormats) {i : ℤ} (hlo : 0 ≤ i) (hhi : i < 2 ^ w) :
    ∃ r, decodeVal t (intCode w i) = .fin r ∧ r.den ≠ 0 ∧ value r = i := by
  refine ⟨_, decodeVal_unsigned hf (intCode_lt w i), Nat.one_ne_zero, ?_⟩
  have hc := intCode_eq (w := w) (by omega) hhi
  rw [if_pos hlo] at hc
  rw [value_ofNat]
  exact_mod_cast hc

/-- The code of an integer in a format's range stands for it. -/
theorem decodeVal_intCode (hf : (t, lo, hi) ∈ intFormats) {i : ℤ} (h1 : lo ≤ i) (h2 : i ≤ hi) :
    ∃ r, decodeVal t (BitVec.ofNat 32 (intCode (typeBits t) i)).toNat = .fin r ∧ r.den ≠ 0 ∧ value r = i := by
  simp only [intFormats, List.mem_cons, Prod.mk.injEq, List.not_mem_nil, or_false] at hf
  rcases hf with h | h | h | h | h | h <;> obtain ⟨rfl, rfl, rfl⟩ := h <;> rw [toNat_intCode (by decide)]
  · exact decodeVal_intCode_signed (w := 32) (by decide) h1 (by omega)
  · exact decodeVal_intCode_signed (w := 16) (by decide) h1 (by omega)
  · exact decodeVal_intCode_signed (w := 8) (by decide) h1 (by omega)
  · exact decodeVal_intCode_signed (w := 4) (by decide) h1 (by omega)
  · exact decodeVal_intCode_unsigned (w := 8) (by decide) h1 (by omega)
  · exact decodeVal_intCode_unsigned (w := 4) (by decide) h1 (by omega)

/-- Conversion of a finite value: rounded, then saturated. -/
theorem convertTo_int (hf : (t, lo, hi) ∈ intFormats) (cx : NumCtx) {q : Q} (hm : cx.mode ≤ 4) (hd : q.den ≠ 0) :
    let k := roundTo cx.mode q.neg (mag q)
    let y : ℤ := if q.neg then -(k : ℤ) else k
    ∃ r, decodeVal t (convertTo cx t (.fin q)).1.toNat = .fin r ∧ r.den ≠ 0 ∧ value r = (max lo (min hi y) : ℤ) ∧
      (convertTo cx t (.fin q)).2 = if y < lo ∨ hi < y then flIV else if mag q = k then 0#9 else flIX := by
  obtain ⟨h6, hint, hmin, hmax, hle⟩ := int_facts hf
  have hexact := eq_comm.trans (roundTo_exact (mode := cx.mode) (neg := q.neg) (x := mag q))
  have hround : roundNat cx.mode q.neg q.num q.den = (roundTo cx.mode q.neg (mag q), decide (mag q ≠ ⌊mag q⌋₊)) := roundNat_eq hd hm
  simp only [convertTo, hint, hmin, hmax, hround, ne_eq, ← hexact, if_true]
  generalize roundTo cx.mode q.neg (mag q) = k
  generalize (if q.neg = true then -(k : ℤ) else k) = y
  rcases lt_or_ge hi y with h | h
  · obtain ⟨r, hr, hrd, hv⟩ := decodeVal_intCode hf hle le_rfl
    exact ⟨r, by simpa [h] using hr, hrd, by rw [hv, min_eq_left h.le, max_eq_right hle], by simp [h]⟩
  rcases lt_or_ge y lo with h' | h'
  · obtain ⟨r, hr, hrd, hv⟩ := decodeVal_intCode hf le_rfl hle
    exact ⟨r, by simpa [h.not_gt, h'] using hr, hrd, by rw [hv, min_eq_right h, max_eq_left h'.le], by simp [h.not_gt, h']⟩
  · obtain ⟨r, hr, hrd, hv⟩ := decodeVal_intCode hf h' h
    refine ⟨r, by simpa [h.not_gt, h'.not_gt] using hr, hrd, by rw [hv, min_eq_right h, max_eq_right h'], ?_⟩
    by_cases hx : mag q = k <;> simp [h.not_gt, h'.not_gt, flagIf, hx]

theorem convertTo_int_inf (hf : (t, lo, hi) ∈ intFormats) (cx : NumCtx) (b : Bool) :
    (∃ r, decodeVal t (convertTo cx t (.inf b)).1.toNat = .fin r ∧ r.den ≠ 0 ∧ value r = (if b then lo else hi : ℤ)) ∧
      (convertTo cx t (.inf b)).2 = flIV ∧ convertTo cx t (.nan b) = (0#32, flIV) := by
  obtain ⟨-, hint, hmin, hmax, hle⟩ := int_facts hf
  simp only [convertTo, hint, hmin, hmax, Bool.true_or, if_true, and_true]
  cases b
  · exact decodeVal_intCode hf hle le_rfl
  · exact decodeVal_intCode hf le_rfl hle

end Sys2Proof.Numbers
end

section
/-! SUPPORT. ConvertTo DM8: the table value at either side of a real, and the choice between the two (R137). -/

namespace Sys2Proof.Numbers
open Sys2Proof Sys2Proof.Machine

/-! ### Comparison of values -/

theorem cmp_eq {a b : Q} (ha : a.den ≠ 0) (hb : b.den ≠ 0) : a.cmp b = compare (value a) (value b) := by
  have hA : (0 : ℚ) < a.den := Nat.cast_pos.2 (Nat.pos_of_ne_zero ha)
  have hB : (0 : ℚ) < b.den := Nat.cast_pos.2 (Nat.pos_of_ne_zero hb)
  have hlt : ∀ {x y : Q}, (0 : ℚ) < x.den → (0 : ℚ) < y.den → (value x < value y ↔ x.sgnNum * (y.den : Int) < y.sgnNum * (x.den : Int)) :=
    fun hx hy => by rw [value, value, div_lt_div_iff₀ hx hy]; exact_mod_cast Iff.rfl
  rcases lt_trichotomy (value a) (value b) with h | h | h
  · rw [Q.cmp, compare_lt_iff_lt.2 h, compare_lt_iff_lt.2 ((hlt hA hB).1 h)]
  · have hle := not_lt.1 fun h' => h.not_gt ((hlt hB hA).2 h')
    have hge := not_lt.1 fun h' => h.not_lt ((hlt hA hB).2 h')
    rw [Q.cmp, compare_eq_iff_eq.2 h, compare_eq_iff_eq.2 (le_antisymm hle hge)]
  · rw [Q.cmp, compare_gt_iff_gt.2 h, compare_gt_iff_gt.2 ((hlt hB hA).1 h)]

theorem lt_iff {a b : Q} (ha : a.den ≠ 0) (hb : b.den ≠ 0) : a.lt b = true ↔ value a < value b := by
  rw [Q.lt, cmp_eq ha hb, beq_iff_eq, compare_lt_iff_lt]

/-! ### The table -/

/-- The magnitude of DM8 field m; field 0 is zero. -/
def dm8At (m : Nat) : ℚ := if m = 0 then 0 else value (dm8Mag m)

theorem dm8At_pos {m : Nat} (hm : m < 128) (h0 : 0 < m) : 0 < dm8At m ∧ (dm8Mag m).den ≠ 0 ∧ dm8At m = value (dm8Mag m) ∧
    dm8At m = (1 + 9 * (m - 2 ^ Nat.log2 m) / 2 ^ Nat.log2 m) * (10 : ℚ) ^ dm8Exp (Nat.log2 m) := by
  obtain ⟨hneg, hd, hv⟩ := mag_dm8Mag hm h0
  have hat : dm8At m = value (dm8Mag m) := if_neg h0.ne'
  have hval : dm8At m = (1 + 9 * (m - 2 ^ Nat.log2 m) / 2 ^ Nat.log2 m) * (10 : ℚ) ^ dm8Exp (Nat.log2 m) := by
    rw [hat, value_eq, hneg, hv]; exact one_mul _
  have hle : (2 : ℚ) ^ Nat.log2 m ≤ m := by exact_mod_cast Nat.log2_self_le h0.ne'
  refine ⟨?_, hd, hat, hval⟩
  rw [hval]
  have : 0 ≤ 9 * ((m : ℚ) - 2 ^ Nat.log2 m) / 2 ^ Nat.log2 m := div_nonneg (by linarith) (by positivity)
  positivity

/-- A field's magnitude lies in the decade of its band. -/
theorem dm8At_decade {m : Nat} (hm : m < 128) (h0 : 0 < m) :
    (10 : ℚ) ^ dm8Exp (Nat.log2 m) ≤ dm8At m ∧ dm8At m < (10 : ℚ) ^ (dm8Exp (Nat.log2 m) + 1) := by
  obtain ⟨-, -, -, hval⟩ := dm8At_pos hm h0
  have hP : (0 : ℚ) < 2 ^ Nat.log2 m := by positivity
  have hle : (2 : ℚ) ^ Nat.log2 m ≤ m := by exact_mod_cast Nat.log2_self_le h0.ne'
  have hlt : (m : ℚ) < 2 * 2 ^ Nat.log2 m := by
    have := Nat.lt_log2_self (n := m)
    rw [Nat.pow_succ, Nat.mul_comm] at this
    exact_mod_cast this
  have hT : (0 : ℚ) < 10 ^ dm8Exp (Nat.log2 m) := zpow_pos (by norm_num) _
  rw [hval, zpow_add_one₀ (by norm_num), mul_comm _ (10 : ℚ)]
  constructor
  · refine le_mul_of_one_le_left hT.le ?_
    have : 0 ≤ 9 * ((m : ℚ) - 2 ^ Nat.log2 m) / 2 ^ Nat.log2 m := div_nonneg (by linarith) hP.le
    linarith
  · refine mul_lt_mul_of_pos_right ?_ hT
    have : 9 * ((m : ℚ) - 2 ^ Nat.log2 m) / 2 ^ Nat.log2 m < 9 := by rw [div_lt_iff₀ hP]; linarith
    linarith

theorem dm8Exp_injective {a b : Nat} (ha : a < 7) (hb : b < 7) (h : dm8Exp a = dm8Exp b) : a = b := by
  have hall : ∀ a < 7, ∀ b < 7, dm8Exp a = dm8Exp b → a = b := by decide
  exact hall a ha b hb h

/-- No two fields stand for one magnitude. -/
theorem dm8At_injective {m k : Nat} (hm : m < 128) (hk : k < 128) (h : dm8At m = dm8At k) : m = k := by
  rcases Nat.eq_zero_or_pos m with rfl | m0 <;> rcases Nat.eq_zero_or_pos k with rfl | k0
  · rfl
  · exact absurd h (dm8At_pos hk k0).1.ne
  · exact absurd h (dm8At_pos hm m0).1.ne'
  obtain ⟨hm1, hm2⟩ := dm8At_decade hm m0
  obtain ⟨hk1, hk2⟩ := dm8At_decade hk k0
  have hexp : dm8Exp (Nat.log2 m) = dm8Exp (Nat.log2 k) := by
    have h1 := (zpow_lt_zpow_iff_right₀ (by norm_num : (1 : ℚ) < 10)).1 (hm1.trans_lt (h ▸ hk2))
    have h2 := (zpow_lt_zpow_iff_right₀ (by norm_num : (1 : ℚ) < 10)).1 (hk1.trans_lt (h ▸ hm2))
    omega
  have hlog := dm8Exp_injective (log2_lt_seven hm) (log2_lt_seven hk) hexp
  obtain ⟨-, -, -, hvm⟩ := dm8At_pos hm m0
  obtain ⟨-, -, -, hvk⟩ := dm8At_pos hk k0
  have hT : (10 : ℚ) ^ dm8Exp (Nat.log2 k) ≠ 0 := zpow_ne_zero _ (by norm_num)
  have hP : (2 : ℚ) ^ Nat.log2 k ≠ 0 := by positivity
  rw [hvm, hvk, hlog, mul_left_inj' hT] at h
  field_simp at h
  have : (m : ℚ) = k := by linarith
  exact_mod_cast this

/-! ### The search for the bracket -/

/-- `lo` is the field of the largest magnitude at most x among those above n, or zero. -/
def IsLow (x : ℚ) (n lo : Nat) : Prop := lo < 128 ∧ dm8At lo ≤ x ∧ ∀ m, n < m → m < 128 → dm8At m ≤ x → dm8At m ≤ dm8At lo

/-- `hi` is the field of the smallest magnitude at least x among those above n, or zero where there is none. -/
def IsHigh (x : ℚ) (n hi : Nat) : Prop :=
  hi < 128 ∧ (hi ≠ 0 → x ≤ dm8At hi) ∧ ∀ m, n < m → m < 128 → x ≤ dm8At m → hi ≠ 0 ∧ dm8At hi ≤ dm8At m

theorem IsLow.next {x : ℚ} {n lo : Nat} (h : IsLow x (n + 1) lo) (hn : n + 1 < 128) :
    IsLow x n (if dm8At (n + 1) ≤ x ∧ dm8At lo < dm8At (n + 1) then n + 1 else lo) := by
  obtain ⟨hlt, hle, hmax⟩ := h
  split
  · next hc =>
    refine ⟨hn, hc.1, fun m hm hm' hx => ?_⟩
    rcases (Nat.succ_le_of_lt hm).eq_or_lt with rfl | hm
    · exact le_rfl
    · exact (hmax m hm hm' hx).trans hc.2.le
  · next hc =>
    refine ⟨hlt, hle, fun m hm hm' hx => ?_⟩
    rcases (Nat.succ_le_of_lt hm).eq_or_lt with rfl | hm
    · exact not_lt.1 fun h' => hc ⟨hx, h'⟩
    · exact hmax m hm hm' hx

theorem IsHigh.next {x : ℚ} {n hi : Nat} (h : IsHigh x (n + 1) hi) (hn : n + 1 < 128) :
    IsHigh x n (if x ≤ dm8At (n + 1) ∧ (hi = 0 ∨ dm8At (n + 1) < dm8At hi) then n + 1 else hi) := by
  obtain ⟨hlt, hle, hmin⟩ := h
  split
  · next hc =>
    refine ⟨hn, fun _ => hc.1, fun m hm hm' hx => ⟨Nat.succ_ne_zero n, ?_⟩⟩
    rcases (Nat.succ_le_of_lt hm).eq_or_lt with rfl | hm
    · exact le_rfl
    · obtain ⟨h0, hm⟩ := hmin m hm hm' hx
      exact (hc.2.resolve_left h0).le.trans hm
  · next hc =>
    refine ⟨hlt, hle, fun m hm hm' hx => ?_⟩
    rcases (Nat.succ_le_of_lt hm).eq_or_lt with rfl | hm
    · have h' : ¬ (hi = 0 ∨ dm8At (n + 1) < dm8At hi) := fun h' => hc ⟨hx, h'⟩
      exact ⟨fun h0 => h' (.inl h0), not_lt.1 fun hl => h' (.inr hl)⟩
    · exact hmin m hm hm' hx

/-- The search keeps both. -/
theorem dm8Bracket_spec {a : Q} (ha : a.den ≠ 0) {n lo hi : Nat} (hn : n < 128) (hlo : IsLow (value a) n lo) (hhi : IsHigh (value a) n hi) :
    IsLow (value a) 0 (dm8Bracket a n (lo, hi)).1 ∧ IsHigh (value a) 0 (dm8Bracket a n (lo, hi)).2 := by
  induction n generalizing lo hi with
  | zero => exact ⟨hlo, hhi⟩
  | succ n ih =>
    obtain ⟨hpos, hd, hat, -⟩ := dm8At_pos hn (Nat.succ_pos n)
    have hlow : (!(a.lt (dm8Mag (n + 1))) && (lo == 0 || (dm8Mag lo).lt (dm8Mag (n + 1)))) = true ↔
        dm8At (n + 1) ≤ value a ∧ dm8At lo < dm8At (n + 1) := by
      rw [Bool.and_eq_true, Bool.not_eq_true', Bool.eq_false_iff, ne_eq, lt_iff ha hd, not_lt, ← hat, Bool.or_eq_true, beq_iff_eq]
      refine and_congr_right fun _ => ?_
      rcases Nat.eq_zero_or_pos lo with rfl | h0
      · simpa [dm8At] using hpos
      · obtain ⟨-, hd', hat', -⟩ := dm8At_pos hlo.1 h0
        rw [lt_iff hd' hd, hat', hat]
        exact or_iff_right h0.ne'
    have hhigh : (!((dm8Mag (n + 1)).lt a) && (hi == 0 || (dm8Mag (n + 1)).lt (dm8Mag hi))) = true ↔
        value a ≤ dm8At (n + 1) ∧ (hi = 0 ∨ dm8At (n + 1) < dm8At hi) := by
      rw [Bool.and_eq_true, Bool.not_eq_true', Bool.eq_false_iff, ne_eq, lt_iff hd ha, not_lt, ← hat, Bool.or_eq_true, beq_iff_eq]
      refine and_congr_right fun _ => ?_
      rcases Nat.eq_zero_or_pos hi with rfl | h0
      · simp
      · obtain ⟨-, hd', hat', -⟩ := dm8At_pos hhi.1 h0
        rw [lt_iff hd hd', hat', hat]
    rw [dm8Bracket]
    simp only [hlow, hhigh]
    exact ih (by omega) (hlo.next hn) (hhi.next hn)

/-- Both ends of the bracket of a magnitude up to 1000. -/
theorem dm8Bracket_bounds {a : Q} (ha : a.den ≠ 0) (h0 : 0 ≤ value a) :
    IsLow (value a) 0 (dm8Bracket a 127 (0, 0)).1 ∧ IsHigh (value a) 0 (dm8Bracket a 127 (0, 0)).2 :=
  dm8Bracket_spec ha (by decide) ⟨by decide, h0, fun m hm hm' _ => absurd hm' (by omega)⟩
    ⟨by decide, fun h => absurd rfl h, fun m hm hm' _ => absurd hm' (by omega)⟩

/-! ### The conversion -/

/-- The code of a field with a sign. -/
abbrev dm8Code (neg : Bool) (m : Nat) : Nat := if m = 0 then 0 else if neg then 128 + m else m

theorem signed_dm8 (neg : Bool) (m : Nat) : signed 6 neg m = if neg then 128 + m else m := by
  cases neg <;> simp [signed, typeBits, Nat.add_comm]

/-- The field that a mode picks between two neighbours (R137). -/
abbrev dm8Pick (mode : Nat) (neg : Bool) (lo hi : Nat) (x : ℚ) : Nat :=
  let mid := (dm8At lo + dm8At hi) / 2
  if mode = 0 then (if x < mid then lo else if mid < x then hi else if hi % 2 = 0 ∧ lo % 2 = 1 then hi else lo)
  else if mode = 4 then (if x < mid then lo else hi)
  else if mode = 2 then (if neg then lo else hi) else if mode = 3 then (if neg then hi else lo) else lo

/-- The model's choice, by the order of the value and the middle. -/
def dm8Choice (mode : Nat) (neg : Bool) (lo hi : Nat) (c : Ordering) : Nat :=
  match mode with
  | 0 => match c with
    | .lt => lo
    | .gt => hi
    | .eq => if lo % 2 == hi % 2 then lo else if lo % 2 == 0 then lo else hi
  | 2 => if neg then lo else hi
  | 3 => if neg then hi else lo
  | 4 => if c == .lt then lo else hi
  | _ => lo

theorem dm8Choice_eq {mode : Nat} (hm : mode ≤ 4) (neg : Bool) (lo hi : Nat) (x : ℚ) :
    dm8Choice mode neg lo hi (compare x ((dm8At lo + dm8At hi) / 2)) = dm8Pick mode neg lo hi x := by
  simp only [dm8Pick]
  generalize (dm8At lo + dm8At hi) / 2 = mid
  rcases lt_trichotomy x mid with h | rfl | h
  · rw [compare_lt_iff_lt.2 h]
    interval_cases mode <;> simp [dm8Choice, h]
  · rw [compare_eq_iff_eq.2 rfl]
    interval_cases mode <;> simp [dm8Choice]
    rcases Nat.mod_two_eq_zero_or_one lo with hl | hl <;> rcases Nat.mod_two_eq_zero_or_one hi with hh | hh <;> simp [hl, hh]
  · rw [compare_gt_iff_gt.2 h]
    interval_cases mode <;> simp [dm8Choice, h, h.not_gt]

theorem dm8Mag_one : dm8Mag 1 = ⟨false, 1000, 1⟩ := by decide

theorem dm8At_one : dm8At 1 = 1000 := by simp [dm8At, dm8Mag_one, value, Q.sgnNum]

theorem dm8At_two : dm8At 2 = 1 / 1000 := by
  have h : dm8Mag 2 = ⟨false, 2, 2 * 1000⟩ := by decide
  norm_num [dm8At, h, value, Q.sgnNum]

/-- An overflow of DM8. -/
theorem overflows_dm8 (cx : NumCtx) (neg : Bool) : Overflows cx 6 neg (BitVec.ofNat 32 (overflowCode cx 6 neg)) := by
  have hcode : (BitVec.ofNat 32 (signed 6 neg (maxFiniteCode 6))).toNat = 128 * neg.toNat + 1 := by cases neg <;> rfl
  have hsign : (neg.toNat == 1) = neg := by cases neg <;> rfl
  have hden : (dm8Mag 1).den ≠ 0 := by decide
  refine overflows_of_tables cx neg rfl (fun _ => rfl) (fun h => absurd h (by decide)) ⟨{ dm8Mag 1 with neg := neg }, ?_, hden, ?_⟩
  · rw [hcode, decodeVal_dm8 (by decide) (by decide) (Bool.toNat_lt neg), hsign]
  · simp [value_eq, mag, dm8Mag_one, bound]

/-- The lower neighbour is the one that the search finds. -/
theorem IsLow.eq {x : ℚ} {l lo : Nat} (h : IsLow x 0 l) (hlo : lo < 128) (hx : dm8At lo ≤ x)
    (hmax : ∀ m < 128, dm8At m ≤ dm8At lo ∨ x < dm8At m) : l = lo := by
  obtain ⟨hl, hlx, hbest⟩ := h
  refine dm8At_injective hl hlo (le_antisymm ((hmax l hl).resolve_right hlx.not_gt) ?_)
  rcases Nat.eq_zero_or_pos lo with rfl | h0
  · rcases Nat.eq_zero_or_pos l with rfl | h0
    · exact le_rfl
    · exact (dm8At_pos hl h0).1.le
  · exact hbest lo h0 hlo hx

/-- The upper neighbour is the one that the search finds. -/
theorem IsHigh.eq {x : ℚ} {l hi : Nat} (h : IsHigh x 0 l) (h0 : 0 < hi) (hhi : hi < 128) (hx : x ≤ dm8At hi)
    (hmin : ∀ m < 128, dm8At m < x ∨ dm8At hi ≤ dm8At m) : l = hi := by
  obtain ⟨hl, hlx, hbest⟩ := h
  obtain ⟨hne, hle⟩ := hbest hi h0 hhi hx
  exact dm8At_injective hl hhi (le_antisymm hle ((hmin l hl).resolve_left (hlx hne).not_gt))

theorem value_abs (q : Q) : value q.abs = mag q := by rw [value_eq]; exact one_mul _

/-- Field 1 is the largest. -/
theorem dm8At_le {m : Nat} (hm : m < 128) : dm8At m ≤ 1000 := by
  rcases Nat.eq_zero_or_pos m with rfl | h0
  · norm_num [dm8At]
  by_cases hband : Nat.log2 m = 0
  · have hlt := (Nat.log2_lt (k := 1) h0.ne').1 (by omega)
    obtain rfl : m = 1 := by omega
    exact dm8At_one.le
  · have hexp : ∀ n < 7, n ≠ 0 → dm8Exp n + 1 ≤ 3 := by decide
    calc dm8At m ≤ 10 ^ (dm8Exp (Nat.log2 m) + 1) := (dm8At_decade hm h0).2.le
      _ ≤ 10 ^ (3 : ℤ) := zpow_le_zpow_right₀ (by norm_num) (hexp _ (log2_lt_seven hm) hband)
      _ = 1000 := by norm_num

section
variable (cx : NumCtx) {q : Q}

theorem convertTo_dm8 (hn : q.num ≠ 0) : convertTo cx 6 (.fin q) = (BitVec.ofNat 32 (roundDM8 cx q).1, (roundDM8 cx q).2) := by
  have hz : q.isZero = false := by simpa [Q.isZero] using hn
  simp [convertTo, isIntType, hz, flushable]

theorem over_iff (hd : q.den ≠ 0) : (Q.ofNat 1000).lt q.abs = true ↔ 1000 < mag q := by
  rw [lt_iff (b := q.abs) Nat.one_ne_zero hd, value_ofNat, value_abs]; norm_num

variable (hd : q.den ≠ 0) (hn : q.num ≠ 0)
include hd hn

theorem convertTo_dm8_overflow (h : 1000 < mag q) :
    Overflows cx 6 q.neg (convertTo cx 6 (.fin q)).1 ∧ (convertTo cx 6 (.fin q)).2 = flOF ||| flIX := by
  rw [convertTo_dm8 cx hn, roundDM8, if_pos ((over_iff hd).2 h)]
  exact ⟨overflows_dm8 cx q.neg, rfl⟩

/-- The bracket that the search finds is the one of the statement. -/
theorem dm8Bracket_eq {lo hi : Nat} (hlo : lo < 128) (hhi : hi < 128) (h1 : dm8At lo ≤ mag q) (h2 : mag q ≤ dm8At hi)
    (hgap : ∀ m < 128, dm8At m ≤ dm8At lo ∨ mag q < dm8At m) (hgap' : ∀ m < 128, dm8At m < mag q ∨ dm8At hi ≤ dm8At m) :
    dm8Bracket q.abs 127 (0, 0) = (lo, hi) := by
  have hpos : 0 < hi := Nat.pos_of_ne_zero fun h => by
    have := mag_pos hd hn
    rw [h] at h2
    exact this.not_ge h2
  obtain ⟨hl, hh⟩ := dm8Bracket_bounds (a := q.abs) hd (by rw [value_abs]; exact mag_nonneg q)
  rw [value_abs] at hl hh
  exact Prod.ext (hl.eq hlo h1 hgap) (hh.eq hpos hhi h2 hgap')

/-- A value that stands in the table. -/
theorem convertTo_dm8_exact {m : Nat} (hm : m < 128) (hx : mag q = dm8At m) :
    convertTo cx 6 (.fin q) = (BitVec.ofNat 32 (dm8Code q.neg m), 0#9) := by
  have hm0 : m ≠ 0 := by
    rintro rfl
    exact (mag_pos hd hn).ne' hx
  have hnot : ¬ (Q.ofNat 1000).lt q.abs = true := by rw [over_iff hd, hx, not_lt]; exact dm8At_le hm
  have hb := dm8Bracket_eq hd hn hm hm hx.ge hx.le (fun k _ => hx ▸ le_or_gt _ _) fun k _ => hx ▸ lt_or_ge _ _
  rw [convertTo_dm8 cx hn, roundDM8, if_neg hnot, hb]
  simp [signed_dm8, dm8Code, hm0]

theorem convertTo_dm8_between (hmode : cx.mode ≤ 4) {lo hi : Nat} (hlo : lo < 128) (hhi : hi < 128) (h1 : dm8At lo < mag q) (h2 : mag q < dm8At hi)
    (hgap : ∀ m < 128, dm8At m ≤ dm8At lo ∨ dm8At hi ≤ dm8At m) :
    convertTo cx 6 (.fin q) = (BitVec.ofNat 32 (dm8Code q.neg (dm8Pick cx.mode q.neg lo hi (mag q))),
      if mag q < 1 / 1000 then flUF ||| flIX else flIX) := by
  have hnot : ¬ (Q.ofNat 1000).lt q.abs = true := by
    rw [over_iff hd, not_lt]; exact h2.le.trans (dm8At_le hhi)
  have hb := dm8Bracket_eq hd hn hlo hhi h1.le h2.le (fun m hm => (hgap m hm).imp_right h2.trans_le) fun m hm => (hgap m hm).imp_left (·.trans_lt h1)
  have hne : (lo == hi) = false := by
    rw [beq_eq_false_iff_ne]; rintro rfl; exact (h1.trans h2).false
  have hpos : 0 < hi := Nat.pos_of_ne_zero fun h => by
    rw [h] at h2
    exact (mag_pos hd hn).not_gt h2
  obtain ⟨-, hhd, hhat, -⟩ := dm8At_pos hhi hpos
  have hlow : (if lo == 0 then Q.zero false else dm8Mag lo).den ≠ 0 ∧ value (if lo == 0 then Q.zero false else dm8Mag lo) = dm8At lo := by
    rcases Nat.eq_zero_or_pos lo with rfl | h0
    · exact ⟨Nat.one_ne_zero, value_zero false⟩
    · obtain ⟨-, hd', hat', -⟩ := dm8At_pos hlo h0
      simp [h0.ne', hd', hat']
  obtain ⟨hsd, hsv, -⟩ := add_spec 0 hlow.1 hhd
  have hcmp : ((Q.ofNat 2).mul q.abs).cmp (Q.add 0 (if lo == 0 then Q.zero false else dm8Mag lo) (dm8Mag hi)) =
      compare (mag q) ((dm8At lo + dm8At hi) / 2) := by
    rw [cmp_eq (den_mul (p := .ofNat 2) (q := q.abs) Nat.one_ne_zero hd) hsd, hsv, value_mul, value_ofNat, value_abs, hlow.2, ← hhat]
    generalize dm8At lo + dm8At hi = s
    push_cast
    rcases lt_trichotomy (mag q) (s / 2) with h | h | h
    · rw [compare_lt_iff_lt.2 h, compare_lt_iff_lt.2 (by linarith)]
    · rw [compare_eq_iff_eq.2 h, compare_eq_iff_eq.2 (by linarith)]
    · rw [compare_gt_iff_gt.2 h, compare_gt_iff_gt.2 (by linarith)]
  have hflag : q.abs.lt (dm8Mag 2) = decide (mag q < 1 / 1000) := by
    obtain ⟨-, h2d, h2at, -⟩ := dm8At_pos (m := 2) (by decide) (by decide)
    rw [Bool.eq_iff_iff, lt_iff (a := q.abs) hd h2d, value_abs, ← h2at, dm8At_two, decide_eq_true_eq]
  rw [convertTo_dm8 cx hn, roundDM8, if_neg hnot, hb]
  simp only [hne, hcmp, hflag, Bool.false_eq_true, if_false, signed_dm8]
  change (BitVec.ofNat 32 (let pick := dm8Choice cx.mode q.neg lo hi (compare (mag q) ((dm8At lo + dm8At hi) / 2))
    if pick == 0 then 0 else if q.neg then 128 + pick else pick), _) = _
  rw [dm8Choice_eq hmode]
  refine Prod.ext (by simp [dm8Code]) ?_
  by_cases h : mag q < 1 / 1000 <;> simp only [h] <;> rfl

end

end Sys2Proof.Numbers
end

section
/-! SUPPORT. The special cases of the special functions (R149, R150). -/

namespace Sys2Proof.Numbers
open Sys2Proof Sys2Proof.Machine

variable (cx : NumCtx) (b : Bool)

/-! ### Roundings to FP32 with nothing to round -/

/-- FP32 among the formats. -/
theorem fp32_format : (0, 8, 23, 127) ∈ formats := by decide

/-- The conversions of the special functions round to nearest. -/
abbrev nearest : NumCtx := { cx with mode := 0 }

theorem roundFP32_zero : roundFP32 cx (.fin (.zero b)) = (if b then 0x80000000#32 else 0#32, 0#9) := convertTo_zero fp32_format cx b

theorem roundFP32_nan : roundFP32 cx (.nan b) = (0x7FC00000#32, if b then flIV else 0#9) := convertTo_nan fp32_format cx b

theorem roundFP32_inf : roundFP32 cx (.inf b) = (if b then 0xFF800000#32 else 0x7F800000#32, 0#9) := by cases b <;> rfl

theorem roundFP32_one : roundFP32 (nearest cx) (.fin { Q.ofNat 1 with neg := b }) = (if b then 0xBF800000#32 else 0x3F800000#32, 0#9) := by
  have hgrid : roundToGrid 0 0 { Q.ofNat 1 with neg := b } = (0x3F800000, false) := by cases b <;> decide
  have hnormal : ¬ mag { Q.ofNat 1 with neg := b } < 2 ^ (1 - ((127 : Nat) : ℤ)) := by
    rw [not_lt, mag]
    exact (zpow_le_one_of_nonpos₀ one_le_two (by decide)).trans (by norm_num [Q.ofNat])
  rw [roundFP32, convertTo_grid fp32_format (nearest cx) Nat.one_ne_zero Nat.one_ne_zero fun h => hnormal h.2.2]
  simp only [hgrid]
  cases b <;> rfl

theorem roundFP32_ofNat_one : roundFP32 (nearest cx) (.fin (.ofNat 1)) = (0x3F800000#32, 0#9) := by
  have h := roundFP32_one cx false
  rwa [if_neg Bool.false_ne_true] at h

theorem finish32_nan (f : Flags) : finish32 cx (nanWith f) = (0x7FC00000#32, f) := by
  simp [finish32, nanWith, roundFP32_nan]

/-! ### The functions -/

theorem isZero_zero : (Q.zero b).isZero = true := rfl

theorem specFn_nan (g : SpecFn) : specFn g cx (.nan b) = (0x7FC00000#32, if b then flIV else 0#9) := finish32_nan (nearest cx) _

theorem specFn_exp_zero : specFn .exp cx (.fin (.zero b)) = (0x3F800000#32, 0#9) := by
  simp only [specFn, isZero_zero, if_true, roundFP32_ofNat_one]

theorem specFn_exp_inf : specFn .exp cx (.inf b) = (if b then 0#32 else 0x7F800000#32, 0#9) := by
  cases b
  · exact roundFP32_inf (nearest cx) false
  · exact roundFP32_zero (nearest cx) false

theorem specFn_log_zero : specFn .log cx (.fin (.zero b)) = (0xFF800000#32, flDZ) := by
  have h : specFn .log cx (.fin (.zero b)) = finish32 (nearest cx) (.inf true, flDZ) := rfl
  rw [h, finish32, roundFP32_inf]
  rfl

theorem specFn_log_inf : specFn .log cx (.inf b) = if b then (0x7FC00000#32, flIV) else (0x7F800000#32, 0#9) := by
  cases b
  · exact roundFP32_inf (nearest cx) false
  · exact finish32_nan (nearest cx) _

theorem specFn_log_one : specFn .log cx (decodeVal 0 0x3F800000) = (0#32, 0#9) := by
  have hone : decodeVal 0 0x3F800000 = .fin ⟨false, 2 ^ 23, 2 ^ 23⟩ := by decide
  have heqv : Q.eqv ⟨false, 2 ^ 23, 2 ^ 23⟩ (.ofNat 1) = true := by decide
  have hz : Q.isZero ⟨false, 2 ^ 23, 2 ^ 23⟩ = false := by decide
  rw [hone]
  simp only [specFn, hz, heqv, Bool.false_eq_true, if_false, if_true, roundFP32_zero]

theorem specFn_tanh_zero : specFn .tanh cx (.fin (.zero b)) = (if b then 0x80000000#32 else 0#32, 0#9) := by
  simp only [specFn, isZero_zero, if_true, roundFP32_zero]
  rfl

theorem specFn_tanh_inf : specFn .tanh cx (.inf b) = (if b then 0xBF800000#32 else 0x3F800000#32, 0#9) := roundFP32_one cx b

theorem specFn_sin_zero : specFn .sin cx (.fin (.zero b)) = (if b then 0x80000000#32 else 0#32, 0#9) := by
  simp only [specFn, isZero_zero, if_true, roundFP32_zero]
  rfl

theorem specFn_cos_zero : specFn .cos cx (.fin (.zero b)) = (0x3F800000#32, 0#9) := by
  simp only [specFn, isZero_zero, if_true, roundFP32_ofNat_one]

theorem specFn_trig_inf : specFn .sin cx (.inf b) = (0x7FC00000#32, flIV) ∧ specFn .cos cx (.inf b) = (0x7FC00000#32, flIV) :=
  ⟨finish32_nan (nearest cx) _, finish32_nan (nearest cx) _⟩

theorem specFn_log_negative {q : Q} (hd : q.den ≠ 0) (h : value q < 0) : specFn .log cx (.fin q) = (0x7FC00000#32, flIV) := by
  simp only [specFn, isZero_false hd h.ne, value_neg h, Bool.false_eq_true, if_false, if_true, finish32_nan]

/-- Sine and cosine of a value of magnitude 2^22 or more. -/
theorem specFn_beyond {q : Q} (hd : q.den ≠ 0) (h : 2 ^ 22 ≤ mag q) :
    specFn .sin cx (.fin q) = (if q.neg then 0x80000000#32 else 0#32, flRG) ∧ specFn .cos cx (.fin q) = (0x3F800000#32, flRG) := by
  have hbeyond : beyondRange q = true := by
    rw [mag, le_div_iff₀ (Nat.cast_pos.2 (Nat.pos_of_ne_zero hd)), mul_comm] at h
    rw [beyondRange, decide_eq_true_eq, Nat.shiftLeft_eq]
    exact_mod_cast h
  have hz : q.isZero = false := isZero_false hd fun h0 => by
    rw [← abs_eq_zero, abs_value] at h0
    rw [h0] at h
    norm_num at h
  simp only [specFn, hz, hbeyond, Bool.false_eq_true, if_false, if_true, roundFP32_zero, roundFP32_ofNat_one, and_self]

/-! ### The conversions of a finite value, as the obligation states them -/

variable {q : Q}

theorem convertTo_float {t eb mb bias : Nat} (hf : (t, eb, mb, bias) ∈ formats) (hd : q.den ≠ 0) (hn : q.num ≠ 0) (hm : cx.mode ≤ 4) :
    let x := |value q|
    let w := (convertTo cx t (.fin q)).1
    let fl := (convertTo cx t (.fin q)).2
    (cx.flush = true → t ≠ 5 → x < (2 : ℚ) ^ (1 - (bias : ℤ)) →
      decodeVal t w.toNat = decodeVal t (if q.neg then 2 ^ (typeBits t - 1) else 0) ∧ fl = flUF ||| flIX) ∧
    (¬ (cx.flush = true ∧ t ≠ 5 ∧ x < (2 : ℚ) ^ (1 - (bias : ℤ))) →
      ∀ (e : ℤ) (k : Nat), 1 - (bias : ℤ) ≤ e → x < (2 : ℚ) ^ (e + 1) → (2 : ℚ) ^ e ≤ x ∨ e = 1 - (bias : ℤ) → k = roundTo cx.mode q.neg (x / (2 : ℚ) ^ (e - mb)) →
      let y := k * (2 : ℚ) ^ (e - mb)
      (y ≤ biggest t → (∃ r, decodeVal t w.toNat = .fin r ∧ r.den ≠ 0 ∧ r.neg = q.neg ∧ |value r| = y) ∧
        fl = if y = x then 0#9 else if x < (2 : ℚ) ^ (1 - (bias : ℤ)) then flUF ||| flIX else flIX) ∧
      (biggest t < y → Overflows cx t q.neg w ∧ fl = flOF ||| flIX)) := by
  have hcode : (BitVec.ofNat 32 (if q.neg then 2 ^ (typeBits t - 1) else 0)).toNat = if q.neg then 2 ^ (typeBits t - 1) else 0 := by
    obtain ⟨-, -, -, -, hbits, -, -, -, -, hw⟩ := format_facts hf
    refine Nat.mod_eq_of_lt ?_
    split
    · exact Nat.pow_lt_pow_right (by decide) (by omega)
    · exact Nat.two_pow_pos 32
  rw [abs_value]
  refine ⟨fun hflush h5 hlow => ?_, fun hnot e k hmin hhi hlo hk => ?_⟩
  · rw [convertTo_flushed hf cx hd hn hflush h5 hlow]
    exact ⟨congrArg (decodeVal t) hcode, rfl⟩
  · rw [hk]
    exact convertTo_rounded hf cx hd hn hm hnot hmin hhi hlo

theorem convertTo_int_value {t k : Nat} {lo hi : ℤ} (hf : (t, lo, hi) ∈ intFormats) (hm : cx.mode ≤ 4) (hd : q.den ≠ 0)
    (hk : k = roundTo cx.mode q.neg |value q|) :
    let y : ℤ := if q.neg then -(k : ℤ) else k
    ∃ r, decodeVal t (convertTo cx t (.fin q)).1.toNat = .fin r ∧ r.den ≠ 0 ∧ value r = (max lo (min hi y) : ℤ) ∧
      (convertTo cx t (.fin q)).2 = if y < lo ∨ hi < y then flIV else if |value q| = k then 0#9 else flIX := by
  rw [abs_value] at hk ⊢
  rw [hk]
  exact convertTo_int hf cx hm hd

theorem convertTo_dm8_value (hd : q.den ≠ 0) (hn : q.num ≠ 0) (hm : cx.mode ≤ 4) :
    let x := |value q|
    (1000 < x → Overflows cx 6 q.neg (convertTo cx 6 (.fin q)).1 ∧ (convertTo cx 6 (.fin q)).2 = flOF ||| flIX) ∧
    (∀ m < 128, x = dm8At m → convertTo cx 6 (.fin q) = (BitVec.ofNat 32 (dm8Code q.neg m), 0#9)) ∧
    (∀ lo < 128, ∀ hi < 128, dm8At lo < x → x < dm8At hi → (∀ m < 128, dm8At m ≤ dm8At lo ∨ dm8At hi ≤ dm8At m) →
      convertTo cx 6 (.fin q) = (BitVec.ofNat 32 (dm8Code q.neg (dm8Pick cx.mode q.neg lo hi x)), if x < 1 / 1000 then flUF ||| flIX else flIX)) := by
  rw [abs_value]
  exact ⟨convertTo_dm8_overflow cx hd hn, fun m hmm => convertTo_dm8_exact cx hd hn hmm, fun lo hlo hi hhi h1 h2 =>
    convertTo_dm8_between cx hd hn hm hlo hhi h1 h2⟩

end Sys2Proof.Numbers

open Sys2Proof Sys2Proof.Machine Sys2Proof.Numbers in
/-- Settles O56: on the exact rationals that the values stand for, a conversion is a rounding to the format's grid, to an integer, or to a
neighbour in the DM8 table. -/
theorem numberFunctions : Obligations.NumberFunctions := by
  unfold Obligations.NumberFunctions
  intro val two rounded formats biggest nanCode infs away overflows
  refine ⟨?_, ?_, ?_, ?_, rfl, ?_, ?_, ?_, ?_, ?_, ?_, ?_, ?_⟩
  · rintro ⟨t, eb, mb, bias⟩ hf s E M hs hE hM
    refine ⟨fun h => ?_, fun h3 hE' hM' => ?_, fun hinf hnan => decodeVal_finite hf hs hE hM hinf hnan⟩
    · rw [decodeVal_fields hf hs hE hM]
      exact if_pos h
    · rw [decodeVal_fields hf hs hE hM, if_neg (by rintro ⟨h, -⟩; subst h3; revert h; decide)]
      exact if_pos ⟨h3, hE', hM'⟩
  · rintro ⟨t, w⟩ hf c hc
    exact decodeVal_signed_value hf hc
  · rintro ⟨t, w⟩ hf c hc
    exact ⟨_, decodeVal_unsigned hf hc, Nat.one_ne_zero, value_ofNat c⟩
  · intro m hm h0 n e s hs
    exact decodeVal_dm8_value hm h0 hs
  · decide
  · intro mode p q hp hq
    refine ⟨addV_finite hp hq mode, mulV_finite hp hq, fun z hz => fmaV_finite hp hq mode hz, divV_finite hp hq, divV_zero hp hq,
      mulV_inf_fin hp, fun h b => mulV_inf_zero hp h b mode, sqrtV_zero hp, sqrtV_negative hp, sqrtV_positive hp⟩
  · intro mode a b v
    exact ⟨addV_inf mode a b, rfl, addV_nan mode a v, mulV_nan a v, divV_nan a v, sqrtV_inf a, rsqrtV_inf a⟩
  · rintro cx ⟨t, eb, mb, bias⟩ q hf hm hd hn
    exact convertTo_float cx hf hd hn hm
  · rintro cx ⟨t, eb, mb, bias⟩ b hf
    exact ⟨convertTo_zero hf cx b, convertTo_nan hf cx b, fun hi => convertTo_inf hf cx hi b, fun hi => convertTo_no_inf hf cx hi b⟩
  · rintro cx ⟨t, lo, hi⟩ hf
    exact ⟨fun q k hm hd hk => convertTo_int_value cx hf hm hd hk, fun b => convertTo_int_inf hf cx b⟩
  · intro cx q hm hd hn
    exact convertTo_dm8_value cx hd hn hm
  · intro cx g b
    exact ⟨specFn_nan cx b g, specFn_exp_zero cx b, specFn_exp_inf cx b, specFn_log_zero cx b, specFn_log_inf cx b, specFn_log_one cx,
      specFn_tanh_zero cx b, specFn_tanh_inf cx b, specFn_sin_zero cx b, specFn_cos_zero cx b, (specFn_trig_inf cx b).1,
      (specFn_trig_inf cx b).2, fun q hd h => specFn_log_negative cx hd h, fun q hd h => specFn_beyond cx hd (abs_value q ▸ h)⟩

end

section
/-! SUPPORT. The arithmetic of slot C as the manual states it: high products, quotients and remainders, shift counts, extremes and bit
counts (R163, R164). -/

namespace Sys2Proof.ScalarOps
open Sys2Proof Sys2Proof.Machine Sys2Proof.Laws

variable (a b : W64)

/-! ### Products, quotients and remainders (R163, R164) -/

/-- The upper half of a 128-bit integer. -/
theorem extractLsb'_ofInt_high (x : Int) : (BitVec.ofInt 128 x).extractLsb' 64 64 = BitVec.ofInt 64 (x / 2 ^ 64) := by
  apply BitVec.eq_of_toNat_eq
  rw [BitVec.extractLsb'_toNat, BitVec.toNat_ofInt, BitVec.toNat_ofInt, Nat.shiftRight_eq_div_pow]
  push_cast
  omega

theorem mulHigh_eq : mulHigh a b = (a.signExtend 128 * b.signExtend 128).extractLsb' 64 64 := by
  rw [BitVec.signExtend, BitVec.signExtend, ← BitVec.ofInt_mul, extractLsb'_ofInt_high, mulHigh]

theorem mulHighU_eq : mulHighU a b = (a.zeroExtend 128 * b.zeroExtend 128).extractLsb' 64 64 := by
  apply BitVec.eq_of_toNat_eq
  have h : a.toNat * b.toNat < 2 ^ 128 := lt_of_lt_of_le (Nat.mul_lt_mul'' a.isLt b.isLt) (by norm_num)
  have hz : ∀ v : W64, (v.zeroExtend 128).toNat = v.toNat := fun v => by simp; omega
  rw [mulHighU, BitVec.toNat_ofNat, BitVec.extractLsb'_toNat, BitVec.toNat_mul, hz, hz, Nat.mod_eq_of_lt h, Nat.shiftRight_eq_div_pow]

theorem divSigned_eq : divSigned a b = if b = 0#64 then 0xFFFFFFFFFFFFFFFF#64 else a.sdiv b := by
  have h : BitVec.ofInt 64 (a.toInt.tdiv b.toInt) = a.sdiv b := by
    apply BitVec.eq_of_toInt_eq
    rw [BitVec.toInt_ofInt, BitVec.toInt_sdiv]
  rw [divSigned, h]
  rfl

theorem divUnsigned_eq : divUnsigned a b = if b = 0#64 then 0xFFFFFFFFFFFFFFFF#64 else a.udiv b := by
  have h : BitVec.ofNat 64 (a.toNat / b.toNat) = a.udiv b := by
    apply BitVec.eq_of_toNat_eq
    rw [BitVec.toNat_ofNat, BitVec.udiv_eq, BitVec.toNat_udiv, Nat.mod_eq_of_lt (lt_of_le_of_lt (Nat.div_le_self ..) a.isLt)]
  rw [divUnsigned, h]
  rfl

theorem remSigned_eq : remSigned a b = if b = 0#64 then a else a.srem b := by
  have h : BitVec.ofInt 64 (a.toInt.tmod b.toInt) = a.srem b := by rw [← BitVec.toInt_srem, BitVec.ofInt_toInt]
  rw [remSigned, h]

theorem remUnsigned_eq : remUnsigned a b = if b = 0#64 then a else a.umod b := by
  have h : BitVec.ofNat 64 (a.toNat % b.toNat) = a.umod b := by
    apply BitVec.eq_of_toNat_eq
    rw [BitVec.toNat_ofNat, BitVec.umod_eq, BitVec.toNat_umod, Nat.mod_eq_of_lt (lt_of_le_of_lt (Nat.mod_le ..) a.isLt)]
  rw [remUnsigned, h]

/-! ### Shifts and extremes -/

theorem shiftCount_eq : shiftCount b = b.toNat % 64 := by
  rw [shiftCount, BitVec.extractLsb'_toNat]
  rfl

theorem rotateRight_shiftCount : a.rotateRight (shiftCount b) = a >>> (b.toNat % 64) ||| a <<< (64 - b.toNat % 64) := by
  rw [shiftCount_eq, BitVec.rotateRight_def, Nat.mod_mod]

/-- The lesser of two: strict comparison of the second with the first, or comparison of the first with the second. -/
theorem min_signed : (if b.slt a then b else a) = if a.toInt ≤ b.toInt then a else b := by
  rw [BitVec.slt_eq_decide]
  split_ifs <;> grind

/-- The greater of two; equal integers are equal words. -/
theorem max_signed : (if a.slt b then b else a) = if a.toInt ≤ b.toInt then b else a := by
  rw [BitVec.slt_eq_decide]
  split_ifs <;> grind [BitVec.eq_of_toInt_eq]

theorem min_unsigned : (if b.ult a then b else a) = if a.toNat ≤ b.toNat then a else b := by
  rw [BitVec.ult_eq_decide]
  split_ifs <;> grind

theorem max_unsigned : (if a.ult b then b else a) = if a.toNat ≤ b.toNat then b else a := by
  rw [BitVec.ult_eq_decide]
  split_ifs <;> grind [BitVec.eq_of_toNat_eq]

/-! ### Bit counts (R163) -/

/-- CLZ counts the zero bits above the highest 1. -/
theorem leadingZeros_spec : leadingZeros a ≤ 64 ∧ (∀ k, 64 - leadingZeros a ≤ k → k < 64 → a.getLsbD k = false) ∧
    (leadingZeros a < 64 → a.getLsbD (63 - leadingZeros a) = true) := by
  unfold leadingZeros
  by_cases h : a = 0#64
  · simp [h]
  · have h0 : a.toNat ≠ 0 := fun e => h (BitVec.eq_of_toNat_eq e)
    have hlog : a.toNat.log2 < 64 := (Nat.log2_lt h0).2 a.isLt
    rw [if_neg h]
    refine ⟨by omega, fun k hk _ => ?_, fun _ => ?_⟩
    · rw [← BitVec.testBit_toNat]
      exact Nat.testBit_lt_two_pow (lt_of_lt_of_le Nat.lt_log2_self (Nat.pow_le_pow_right (by decide) (by omega)))
    · rw [← BitVec.testBit_toNat, show 63 - (63 - a.toNat.log2) = a.toNat.log2 by omega]
      exact Nat.testBit_log2 h0

/-- The search for the lowest 1 among `n` bits from `i` on stops there, or behind the last of them. -/
theorem trailingZerosFrom_spec (n i : Nat) : i ≤ trailingZerosFrom a n i ∧ trailingZerosFrom a n i ≤ i + n ∧
    (∀ k, i ≤ k → k < trailingZerosFrom a n i → a.getLsbD k = false) ∧
    (trailingZerosFrom a n i < i + n → a.getLsbD (trailingZerosFrom a n i) = true) := by
  induction n generalizing i with
  | zero => simp [trailingZerosFrom]; omega
  | succ n ih =>
    by_cases hi : a.getLsbD i = true
    · simp [trailingZerosFrom, hi]; omega
    · obtain ⟨hle, hlt, hzero, hone⟩ := ih (i + 1)
      rw [trailingZerosFrom, if_neg hi]
      refine ⟨by omega, by omega, fun k hik hk => ?_, fun h => hone (by omega)⟩
      rcases Nat.eq_or_lt_of_le hik with rfl | hik
      · simpa using hi
      · exact hzero k hik hk

/-- CTZ counts the zero bits below the lowest 1. -/
theorem trailingZeros_spec : trailingZeros a ≤ 64 ∧ (∀ k, k < trailingZeros a → a.getLsbD k = false) ∧
    (trailingZeros a < 64 → a.getLsbD (trailingZeros a) = true) := by
  obtain ⟨-, hle, hzero, hone⟩ := trailingZerosFrom_spec a 64 0
  rw [Nat.zero_add] at hle hone
  exact ⟨hle, fun k => hzero k (Nat.zero_le k), hone⟩

/-- POPC counts the bits that are 1. -/
theorem popCount_eq_card : popCount a = (Finset.univ.filter fun k : Fin 64 => a.getLsbD k.val = true).card := by
  rw [popCount, ← List.map_coe_finRange_eq_range, List.filter_map, List.length_map, Finset.card_def, Finset.filter_val,
    Fin.univ_def, Multiset.filter_coe, Multiset.coe_card]
  simp [Function.comp_def]

/-! ### Guarded results -/

/-- A guarded result of a function whose value is known. -/
theorem crResult_value (s : State) (o : CrForm) (lat : Nat) (f : W64 → W64 → W64) {v : W64} (h : f (s.sreg o.a) (s.sreg o.b) = v) :
    (.next (s.crResult o lat f) : Out) = .next (if s.guard o.q o.n then s.land 0 lat (.sreg o.d v) else s) := by
  rw [State.crResult, h]

theorem crResult_edge (s : State) (o : CrForm) (f : W64 → W64 → W64) {v : W64} (hg : s.guard o.q o.n = true)
    (h : f (s.sreg o.a) (s.sreg o.b) = v) : (.next (s.crResult o 12 f) : Out) = .next (s.land 0 12 (.sreg o.d v)) := by
  rw [crResult_value s o 12 f h, if_pos hg]

end Sys2Proof.ScalarOps

open Sys2Proof Sys2Proof.Machine Sys2Proof.ScalarOps in
/-- Settles O4: each instruction is `State.crResult` or `State.cr1Result` of its function, and that function is the manual's. -/
theorem scalarArithmetic : Obligations.ScalarArithmetic := by
  refine ⟨fun o s => ?_, fun o s hg => ⟨fun hb => ?_, fun ha hb => ?_⟩, fun o s => ⟨?_, ?_, ?_⟩⟩
  · intro a b n lands
    exact ⟨crResult_value s o 1 _ rfl, crResult_value s o 1 _ rfl, crResult_value s o 3 _ rfl,
      crResult_value s o 3 _ (mulHigh_eq a b), crResult_value s o 3 _ (mulHighU_eq a b),
      crResult_value s o 12 _ (divSigned_eq a b), crResult_value s o 12 _ (divUnsigned_eq a b),
      crResult_value s o 12 _ (remSigned_eq a b), crResult_value s o 12 _ (remUnsigned_eq a b),
      crResult_value s o 1 _ rfl, crResult_value s o 1 _ rfl, crResult_value s o 1 _ rfl, crResult_value s o 1 _ rfl,
      crResult_value s o 1 _ (congrArg (a <<< ·) (shiftCount_eq b)), crResult_value s o 1 _ (congrArg (a >>> ·) (shiftCount_eq b)),
      crResult_value s o 1 _ (congrArg a.sshiftRight (shiftCount_eq b)), crResult_value s o 1 _ (rotateRight_shiftCount a b),
      crResult_value s o 1 _ (min_signed a b), crResult_value s o 1 _ (max_signed a b),
      crResult_value s o 1 _ (min_unsigned a b), crResult_value s o 1 _ (max_unsigned a b)⟩
  · exact ⟨crResult_edge s o divSigned hg (by rw [divSigned_eq, if_pos hb]),
      crResult_edge s o divUnsigned hg (by rw [divUnsigned_eq, if_pos hb]),
      crResult_edge s o remSigned hg (by rw [remSigned_eq, if_pos hb]),
      crResult_edge s o remUnsigned hg (by rw [remUnsigned_eq, if_pos hb])⟩
  · exact ⟨crResult_edge s o divSigned hg (by rw [ha, hb]; decide), crResult_edge s o remSigned hg (by rw [ha, hb]; decide)⟩
  · obtain ⟨hle, hzero, hone⟩ := leadingZeros_spec (s.sreg o.a)
    exact ⟨leadingZeros (s.sreg o.a), hle, rfl, hzero, hone⟩
  · obtain ⟨hle, hzero, hone⟩ := trailingZeros_spec (s.sreg o.a)
    exact ⟨trailingZeros (s.sreg o.a), hle, rfl, hzero, hone⟩
  · change (.next (s.cr1Result o fun a => BitVec.ofNat 64 (popCount a)) : Out) = _
    rw [State.cr1Result, popCount_eq_card]
end

section
/-! SUPPORT. Immediate results, compares and condition logic by what they land (R166 to R170). -/

namespace Sys2Proof.ScalarOps
open Sys2Proof Sys2Proof.Machine Sys2Proof.Laws

/-- LIH's immediate stands 14 bits up, and its sign reaches to bit 63 (R167). -/
theorem signExtend_append_zeros (imm : BitVec 19) : (imm ++ 0#14).signExtend 64 = BitVec.ofInt 64 (imm.toInt * 2 ^ 14) := by
  rw [BitVec.signExtend, BitVec.toInt_append]
  simp [Int.mul_comm]

/-- A guarded compare lands whether its relation holds (R168). -/
theorem cmpResult_value (s : State) (o : CmpForm) (rel : W64 → W64 → Bool) {p : Prop} (h : rel (s.sreg o.a) (s.sreg o.b) = true ↔ p)
    (v : Bool) (hv : v = true ↔ p) :
    (.next (s.cmpResult o rel) : Out) = .next (if s.guard o.q o.n then s.land 0 1 (.creg o.d v) else s) := by
  rw [State.cmpResult, Bool.eq_iff_iff.2 (h.trans hv.symm)]

/-- An immediate compare lands whether its relation holds (R169). -/
theorem cmpiResult_value (s : State) (o : CmpiForm) (rel : W64 → W64 → Bool) {p : Prop}
    (h : rel (s.sreg o.a) (o.imm.signExtend 64) = true ↔ p) (v : Bool) (hv : v = true ↔ p) :
    (.next (s.cmpiResult o rel) : Out) = .next (s.land 0 1 (.creg o.d v)) := by
  rw [State.cmpiResult, sext14, Bool.eq_iff_iff.2 (h.trans hv.symm)]

end Sys2Proof.ScalarOps

open Sys2Proof Sys2Proof.Machine Sys2Proof.ScalarOps in
/-- Settles O5: each instruction is the shared result of its form, with its operation, or its relation read as the manual gives it. -/
theorem scalarImmediatesAndCompares : Obligations.ScalarImmediatesAndCompares := by
  refine ⟨⟨fun _ _ => rfl, fun o s => ?immediates, fun o s => ?lih, fun o s => rfl⟩, fun s => ⟨rfl, rfl, rfl⟩,
    fun o s => ?compares, fun o s => ?compareImmediates, fun o s => ⟨rfl, rfl, ?cxor⟩⟩
  case immediates => exact ⟨rfl, rfl, rfl, rfl, rfl, rfl, rfl⟩
  case lih =>
    change (.next _ : Out) = _
    rw [signExtend_append_zeros]
  case compares =>
    exact ⟨cmpResult_value s o _ beq_iff_eq, cmpResult_value s o _ bne_iff_ne, cmpResult_value s o _ BitVec.slt_iff_toInt_lt,
      cmpResult_value s o _ BitVec.ult_iff_toNat_lt, cmpResult_value s o _ BitVec.sle_iff_toInt_le,
      cmpResult_value s o _ BitVec.ule_iff_toNat_le⟩
  case compareImmediates =>
    exact ⟨cmpiResult_value s o _ beq_iff_eq, cmpiResult_value s o _ BitVec.slt_iff_toInt_lt, cmpiResult_value s o _ BitVec.ult_iff_toNat_lt⟩
  case cxor =>
    change (.next (s.condResult o _) : Out) = _
    rw [State.condResult, Bool.bne_eq_xor]
end

section
/-! SUPPORT. Accesses of scalar memory: the value of a load, the bytes of a store, and what the next bundle reads (R172, R173). -/

namespace Sys2Proof.ScalarOps
open Sys2Proof Sys2Proof.Machine Sys2Proof.Laws

/-- The value of `n` bytes has `8n` bits. -/
theorem leNat_lt (bs : List Byte) : leNat bs < 2 ^ (8 * bs.length) := by
  induction bs with
  | nil => simp [leNat]
  | cons b bs ih =>
    have hb : b.toNat < 256 := b.isLt
    rw [leNat, List.length_cons, show 2 ^ (8 * (bs.length + 1)) = 256 * 2 ^ (8 * bs.length) by rw [Nat.mul_succ, Nat.pow_add, Nat.mul_comm]]
    omega

/-- A value of `n` bytes is extended by its top bit, or by zeros (R172, R174). -/
theorem extendBytes_of_lt {n v : Nat} (hv : v < 2 ^ (8 * n)) (sx : Bool) : extendBytes sx n v =
    if sx = true ∧ 2 ^ (8 * n - 1) ≤ v then BitVec.ofInt 64 ((v : Int) - 2 ^ (8 * n)) else BitVec.ofNat 64 v := by
  have htop : v.testBit (8 * n - 1) = decide (2 ^ (8 * n - 1) ≤ v) := by
    by_cases h : 2 ^ (8 * n - 1) ≤ v
    · have hn : 8 * n ≠ 0 := fun h0 => by simp [h0] at hv h; omega
      rw [decide_eq_true h]
      exact Nat.testBit_of_two_pow_le_and_two_pow_add_one_gt h (by rwa [Nat.sub_add_cancel (by omega)])
    · rw [decide_eq_false h, Nat.testBit_lt_two_pow (by omega)]
  rw [extendBytes, Nat.mod_eq_of_lt hv, htop]
  simp

/-- An access of scalar memory inside its 64 KiB and aligned is legal. -/
theorem smemOk_iff {ea : W64} {sz : Nat} : smemOk ea sz = true ↔ ea.toNat + sz ≤ 65536 ∧ ea.toNat % sz = 0 := by
  rw [smemOk, Bool.and_eq_true, decide_eq_true_iff, beq_iff_eq, Config.smemBytes]

theorem not_smemOk {ea : W64} {sz : Nat} (h : 65536 < ea.toNat + sz ∨ ea.toNat % sz ≠ 0) : smemOk ea sz = false := by
  rw [Bool.eq_false_iff, Ne, smemOk_iff]
  omega

variable {s : State}

theorem execLds_idle {o : LdsForm} (hg : s.guard o.q o.n = false) : exec (.lds o) s = .next s := by
  change execLds o s = _
  simp [execLds, hg]

theorem execSts_idle {o : StsForm} (hg : s.guard o.q o.n = false) : exec (.sts o) s = .next s := by
  change execSts o s = _
  simp [execSts, hg]

/-- A load under a true guard lands its bytes, or is the fault of R173. -/
theorem execLds_guarded {o : LdsForm} (hg : s.guard o.q o.n = true) : exec (.lds o) s = .next
    (if smemOk (s.sreg o.a + s.sreg o.b) (2 ^ o.size.toNat) then s.land 0 3 (.sreg o.d
      (extendBytes o.sx (2 ^ o.size.toNat) (leNat (s.cur.smem.bytes (s.sreg o.a + s.sreg o.b).toNat (2 ^ o.size.toNat)))))
    else s.illegal 0 (s.sreg o.a + s.sreg o.b)) := by
  change execLds o s = _
  rw [execLds, if_pos hg]
  rfl

/-- A store under a true guard is on its way with its bytes, or is that fault. -/
theorem execSts_guarded {o : StsForm} (hg : s.guard o.q o.n = true) : exec (.sts o) s = .next
    (if smemOk (s.sreg o.a + s.sreg o.b) (2 ^ o.size.toNat) then
      s.land 0 1 (.smem (s.sreg o.a + s.sreg o.b).toNat (leBytes (s.sreg o.d).toNat (2 ^ o.size.toNat)))
    else s.illegal 0 (s.sreg o.a + s.sreg o.b)) := by
  change execSts o s = _
  rw [execSts, if_pos hg]
  rfl

/-- The next bundle reads the bytes of a store issued with nothing else in flight (R102, R173). -/
theorem smem_advance_store (hw : Memory.wf s.cur.smem = true) (hi : s.cur.seq.inflight = []) (hb : s.cur.seq.branch = none)
    (hr : s.cur.seq.rep = none) (a : Nat) (bs : List Byte) (x : Nat) :
    (s.land 0 1 (.smem a bs)).advance.cur.smem.get x = if h : a ≤ x ∧ x - a < bs.length then bs[x - a]'h.2 else s.cur.smem.get x := by
  rw [Landings.advance_land 0 _ hb hr (by simp [hi]) (by simp)]
  exact get_putBytes hw a bs x

end Sys2Proof.ScalarOps

open Sys2Proof Sys2Proof.Machine Sys2Proof.Laws Sys2Proof.ScalarOps in
/-- Settles O7: a legal access is one landing, which the next bundle reads; every other one does nothing or is the fault of R173. -/
theorem scalarMemory : Obligations.ScalarMemory := by
  refine ⟨⟨fun o s => ?load, fun o s => ?store⟩, fun o s hg => execLds_idle hg, fun o s hg => execSts_idle hg,
    fun o s hg h => ?loadFault, fun o s hg h => ?storeFault⟩
  case load =>
    intro ea sz v hg hin hal
    have hv : v < 2 ^ (8 * sz) := by simpa using leNat_lt (s.cur.smem.bytes ea.toNat sz)
    rw [← extendBytes_of_lt hv, execLds_guarded hg, if_pos (smemOk_iff.2 ⟨hin, hal⟩)]
  case store =>
    intro ea sz hg hin hal
    refine ⟨leBytes (s.sreg o.d).toNat sz, leBytes_length .., fun k hk => ?_, ?_,
      fun hw hi hb hr x => smem_advance_store hw hi hb hr ea.toNat _ x⟩
    · rw [Managing.leBytes_getElem, Managing.ofNat_div_pow]
    · rw [execSts_guarded hg, if_pos (smemOk_iff.2 ⟨hin, hal⟩)]
  case loadFault =>
    rw [execLds_guarded hg, not_smemOk h]
    rfl
  case storeFault =>
    rw [execSts_guarded hg, not_smemOk h]
    rfl
end

section
/-! SUPPORT. Requests that slot C posts: launches and invalidations (R182, R399). -/

namespace Sys2Proof.ScalarOps
open Sys2Proof Sys2Proof.Machine Sys2Proof.Laws

variable {s : State} {o : CrForm}

theorem execLaunch_idle (hg : s.guard o.q o.n = false) : exec (.launch o) s = .next s := by
  change execLaunch o s = _
  simp [execLaunch, hg]

theorem execLaunch_wide (hg : s.guard o.q o.n = true) (h : 65536 ≤ (s.sreg o.a).toNat ∨ 65536 ≤ (s.sreg o.b).toNat) :
    exec (.launch o) s = .next (s.illegal 0) := by
  change execLaunch o s = _
  simp [execLaunch, hg, h]

/-- An index pair within 16 bits is a request, where the task's queue has room. -/
theorem execLaunch_pair (hg : s.guard o.q o.n = true) (ha : (s.sreg o.a).toNat < 65536) (hb : (s.sreg o.b).toNat < 65536) :
    exec (.launch o) s = .next (if 4 ≤ s.cur.eng.launchReqs.length then s.land 0 1 (.sreg o.d 1#64) else
      (s.modEng fun e => { e with launchReqs := e.launchReqs ++
        [{ region := (s.sreg o.a).setWidth 16, tail := (s.sreg o.b).setWidth 16, pc := s.cur.seq.pc }] }).land 0 1 (.sreg o.d 0#64)) := by
  have hpair : ¬ (65536 ≤ (s.sreg o.a).toNat ∨ 65536 ≤ (s.sreg o.b).toNat) := by omega
  change execLaunch o s = _
  simp only [execLaunch, if_pos hg, if_neg hpair, BitVec.setWidth_eq_extractLsb' (by decide : 16 ≤ 64)]

/-- TLBINV of operands within their ranges posts its invalidation, once the task has privilege. -/
theorem tlbinv_posts {mode : BitVec 2} {a b : W64} (hp : s.cur.reg.priv = true) (hb : mode ≠ 2#2 → b.toNat < 2 ^ 14)
    (ha : mode = 0#2 → a.toNat < 2 ^ 56) : s.tlbinv mode a b = { s with mem := { s.mem with tlbInvs := s.mem.tlbInvs ++
      [{ mode := mode, va := a.toNat, asid := b.setWidth 14, tile := s.cur.bnd.tile, issued := s.clk.tick }] } } := by
  have hlegal : ¬ ((mode ≠ 2#2 ∧ 2 ^ 14 ≤ b.toNat) ∨ (mode = 0#2 ∧ 2 ^ 56 ≤ a.toNat)) := by
    rintro (⟨hm, h⟩ | ⟨hm, h⟩)
    · exact absurd (hb hm) (by omega)
    · exact absurd (ha hm) (by omega)
  simp only [State.tlbinv, hp, Bool.not_true, Bool.false_eq_true, if_false, if_neg hlegal, BitVec.setWidth_eq_extractLsb' (by decide : 14 ≤ 64)]

end Sys2Proof.ScalarOps

open Sys2Proof Sys2Proof.Machine Sys2Proof.Laws Sys2Proof.ScalarOps in
/-- Settles O9: LAUNCH by its queue and its operands, and the three forms of TLBINV by the invalidation that they share. -/
theorem requestsPosted : Obligations.RequestsPosted := by
  refine ⟨fun o s => ⟨execLaunch_idle, fun hg ha hb hq => ?room, fun hg ha hb hq => ?full, execLaunch_wide⟩, fun s hp =>
    ⟨fun o hg ha hb => ?page, fun b n f q hg hb => ?space, fun n f q hg => ?all⟩⟩
  case room => rw [execLaunch_pair hg ha hb, if_neg (by omega)]
  case full => rw [execLaunch_pair hg ha hb, if_pos hq]
  case page =>
    change execTlbinv o s = _
    rw [execTlbinv, if_pos hg, tlbinv_posts hp (fun _ => hb) fun _ => ha]
  case space =>
    change execTlbinvAsid b n q s = _
    rw [execTlbinvAsid, if_pos hg, tlbinv_posts hp (fun _ => hb) (by decide)]
    rfl
  case all =>
    change execTlbinvAll n q s = _
    rw [execTlbinvAll, if_pos hg, tlbinv_posts hp (by simp) (by decide)]
    rfl
end

section
/-! SUPPORT. Formats, lengths, cluster masks and overflow tables that slot C sets (R183, R187, R188, R398). -/

namespace Sys2Proof.ScalarOps
open Sys2Proof Sys2Proof.Machine Sys2Proof.Laws

/-- An overflow table below 2^28 with its reserved pair zero and no pair 0b11 is legal (R398). -/
theorem ovtOk_of_pairs {v : W64} (hv : v.toNat < 2 ^ 28) (h7 : v.extractLsb' 14 2 = 0#2) (h : ∀ i < 14, v.extractLsb' (2 * i) 2 ≠ 3#2) :
    ovtOk v = true := by
  have hpair : ∀ i, v.toNat / 4 ^ i % 4 = (v.extractLsb' (2 * i) 2).toNat := fun i => by
    rw [BitVec.extractLsb'_toNat, Nat.shiftRight_eq_div_pow, Nat.pow_mul]
  simp only [ovtOk, Bool.and_eq_true, decide_eq_true_iff, beq_iff_eq, List.all_eq_true, List.mem_range, bne_iff_ne, hpair]
  exact ⟨⟨hv, h7⟩, fun i hi e => h i hi (BitVec.eq_of_toNat_eq e)⟩

/-- The bits of a word below 2^28 that FMT and OVT reserve above it are zero. -/
theorem extractLsb'_high_zero {v : W64} (hv : v.toNat < 2 ^ 28) : v.extractLsb' 28 36 = 0#36 := by
  apply BitVec.eq_of_toNat_eq
  rw [BitVec.extractLsb'_toNat, Nat.shiftRight_eq_div_pow, Nat.div_eq_of_lt hv]
  rfl

/-- The lesser of a word and the greatest length, as a word (R187). -/
theorem ofNat_min_maxLen (v : W64) : BitVec.ofNat 64 (min v.toNat Config.maxLen) = if 4096 < v.toNat then 4096#64 else v := by
  split
  · rw [Nat.min_eq_right (by simp [Config.maxLen]; omega)]
    rfl
  · rw [Nat.min_eq_left (by simp [Config.maxLen]; omega), BitVec.ofNat_toNat, BitVec.setWidth_eq]

end Sys2Proof.ScalarOps

open Sys2Proof Sys2Proof.Machine Sys2Proof.Laws Sys2Proof.ScalarOps in
/-- Settles O13: each legal operand is what lands, and a landing in FMT or OVT is that register's content. -/
theorem configuration : Obligations.Configuration := by
  refine fun s => ⟨fun o hg hv h19 => ?sfmt, fun o hg => ⟨fun hm => ?setvlZero, fun hm => ?setvl⟩, fun r a imm f => ?setcm,
    fun o hg hp hv h7 hpairs => ?lovt, fun t v => ⟨rfl, rfl⟩⟩
  case sfmt =>
    change execSfmt o s = _
    simp only [execSfmt, if_pos hg, extractLsb'_high_zero hv, h19, bne_self_eq_false, Bool.or_self, Bool.false_eq_true, if_false]
  case setvlZero =>
    change execSetvl o s = _
    rw [execSetvl, if_pos hg]
    simp [hm]
  case setvl =>
    change execSetvl o s = _
    simp only [execSetvl, if_pos hg, if_neg hm, ofNat_min_maxLen]
  case setcm =>
    change execSetcm r a imm s = _
    rw [execSetcm, BitVec.setWidth_eq_extractLsb' (by decide : 8 ≤ 64)]
  case lovt =>
    change execLovt o s = _
    simp [execLovt, hg, hp, ovtOk_of_pairs hv h7 hpairs]
end

section
/-! SUPPORT. The refutation of O37: the second piece of a divided load whose first piece is a list of bytes longer than that piece. -/

namespace Sys2Proof.DividedLoad
open Sys2Proof Sys2Proof.Machine

/-- The leaf of a plain 4 GiB page of local HBM at address 0, which tasks may read. -/
def pageLeaf : W64 := 0xB7#64

/-- A task whose address 0 is that page, behind two tables. -/
def mappedTask : State :=
  { State.reset with
    cur := { Task.blank with bnd := { Bind.reset with ptroot := 0x1000 } }
    mem := { State.reset.mem with
      hbm := ((Memory.putBytes [] 0x1000 (leBytes 0x2001 8)).putBytes 0x2000 (leBytes 0x3001 8)).putBytes 0x3000 (leBytes pageLeaf.toNat 8) } }

/-- The first piece as the statement allows it: three bytes, where the piece has one. -/
def firstBytes : List Byte := [0#8, 0#8, 1#8]

/-- A zero-extended load of the two bytes at 31 and 32, in two 32 B units, whose lower piece has been performed. -/
def dividedLoad : GAccess :=
  { op := .load false, d := 1#5, ea := 31, size := 2, scope := 0#2, value := 0#64, cmp := 0#64, at_ := 0, half := some (false, firstBytes) }

/-- Its one span. -/
def loadSpan : Span := { place := { kind := 0, addr := 31 }, pte := pageLeaf, va := 31, len := 2 }

/-- Its translation, and the state with the translation caches filled. -/
def translated : Except XFail (List Span) × State :=
  State.spans mappedTask.cur.xctx dividedLoad.want (spanFuel dividedLoad.size) mappedTask dividedLoad.ea dividedLoad.size

theorem translated_span : translated = (.ok [loadSpan], translated.2) := by rfl

/-- What the last result issued will write. -/
def lastDest (s : State) : Option Dest := s.cur.seq.inflight.getLast?.map (·.dest)

theorem lastDest_land (s : State) (slot lat : Nat) (d : Dest) : lastDest (s.land slot lat d) = some d := by
  simp [lastDest, State.land]

/-- The model lands the two lowest bytes of what it has, and both are zero. -/
theorem lastDest_tryWait : (mappedTask.tryWait (.glob dividedLoad)).map lastDest = some (some (.sreg 1#5 0#64)) := by decide

/-- The statement has these four bytes land, two more than the load reads. -/
theorem leNat_claimed : leNat (firstBytes ++ mappedTask.mem.hbm.bytes 32 1) = 65536 := by decide

end Sys2Proof.DividedLoad

open Sys2Proof Sys2Proof.Machine Sys2Proof.DividedLoad in
/-- Refutes O37: its clause on the second piece of a divided load lets the bytes of the first be a list of any length, and has all of them
land. With three bytes for a piece of one, a zero-extended load of two bytes would land 65536, where the model lands 0, two bytes of what
it has. The clause lacks the premise that `bs` is as long as the piece it stands for. -/
theorem not_globalAccesses : ¬ Obligations.GlobalAccesses := by
  unfold Obligations.GlobalAccesses
  intro h
  obtain ⟨-, -, -, waits⟩ := h
  obtain ⟨-, -, divided, -⟩ := waits mappedTask translated.2 dividedLoad loadSpan (by decide) translated_span rfl rfl rfl rfl rfl rfl rfl rfl rfl
    rfl (.inr (.inl rfl))
  obtain ⟨-, second⟩ := divided false rfl (by decide)
  obtain ⟨t, -, -, ht⟩ := second false firstBytes rfl
  have landed := lastDest_tryWait
  rw [ht, Option.map_some, lastDest_land] at landed
  change some (some (Dest.sreg 1#5 (BitVec.ofNat 64 (leNat (firstBytes ++ mappedTask.mem.hbm.bytes 32 1))))) = _ at landed
  rw [leNat_claimed] at landed
  exact absurd landed (by decide)
end
